-- ==== Sys2Proof/Word.lean ====
section
/-! DEFINITION. The plain types of the model: words, bytes, the numbers that name a part of the package, and the names of
the number formats. -/
namespace Sys2Proof

/-- A register (R11: every register is 64 bits wide). -/
abbrev Word := BitVec 64

/-- One byte of any memory. -/
abbrev Byte := BitVec 8

/-- A stack, 0–23 (R20). Its management die number is one more. -/
abbrev Stack := Fin 24

/-- A core of a die, 0–15 (R24). -/
abbrev CoreIx := Fin 16

/-- A cluster of a die, and its router (R24, R116). -/
abbrev Cluster := Fin 4

/-- A near-bank processor of a core: 4 × layer + bank group (R141). -/
abbrev BpIx := Fin 24

/-- An edge port: 0 N, 1 E, 2 S, 3 W (R21, R140). -/
abbrev Port := Fin 4

/-- Data keyed by a number, in rising order of the key. -/
abbrev SMap (α : Type) := List (Nat × α)

/-- The element and number formats of R34. -/
inductive Fmt where
  | e2m1 | e2m3 | e3m2 | e4m3 | e5m2 | int8 | k4 | bf16 | fp16 | fp32
  deriving DecidableEq, Repr

/-- An exact value: not a number, an infinity, or (−1)^neg × m × 2^e. -/
inductive Val where
  | nan
  | inf (neg : Bool)
  | fin (neg : Bool) (m : Nat) (e : Int)
  deriving DecidableEq, Repr

/-- A field of a register: its lowest bit and its width (R9). -/
structure Fld where
  lo : Nat
  width : Nat
  deriving DecidableEq, Repr

/-- One row of the register map: where the registers of one kind stand (hub or stack, first block, number and spacing of
blocks, first offset, number and spacing of registers), the bits of each access code of R13, and the reset value. -/
structure RegRow where
  hub : Bool
  blk : Nat
  nblk : Nat
  bstep : Nat
  off : Nat
  count : Nat
  stride : Nat
  rw : Word
  w1c : Word
  wo : Word
  rws : Word
  reset : Word
  deriving DecidableEq, Repr

/-- What the checker of a code word decides (R283 to R285). -/
inductive CodeOutcome where
  | clean
  | corrected
  | poisoned
  | uncorrectable
  | mismatch
  deriving DecidableEq, Repr

/-- The two codes of chapter 11. -/
inductive Code where
  | s
  | l
  deriving DecidableEq, Repr

/-- One code word as a memory stores it: 64 bytes of data, little-endian, and the 8-byte check field (R282, R285). -/
structure CodeWord where
  data : BitVec 512
  check : BitVec 64
  deriving DecidableEq, Repr

end Sys2Proof
end

