-- ==== Sys2Proof/Syntax.lean ====
section
/-! DEFINITION. The commands of the module: one constructor for each row of the opcode table, with the operands that name
the part it happens at and the facts that come from outside (what a sensor read, which wires failed, what a message carries). -/
namespace Sys2Proof

/-- Upsets on a vertical interface during one transfer: symbol lane (0–143) and the pattern on its 16 wires (R259). -/
abbrev Upsets := List (Nat × BitVec 16)

/-- What a test of a link's wires found in one direction (R111): the data groups of its failed wires (a group stands once for
each failed wire), the failed control wires, and whether FCLK failed. -/
structure WireTest where
  groups : List (Fin 32)
  control : Nat
  fclk : Bool
  deriving DecidableEq, Repr

/-- What the training of links found, by link record (R360): the test of the direction toward end A, and of that toward end B. A link
that is not listed has no failed wire. -/
abbrev LinkTests := List (Fin 40 × WireTest × WireTest)

/-- What a test of a vertical interface found (R259): failed data and check wires of each half, failed command wires. -/
structure VaultTest where
  half0 : Nat
  half1 : Nat
  command : Nat
  deriving DecidableEq, Repr

/-- The management stations (R18, R297). -/
inductive Station where
  | engine (d : Stack) (c : CoreIx) (n : Nat)
  | core (d : Stack) (c : CoreIx)
  | cluster (d : Stack) (k : Cluster)
  | die (d : Stack)
  | package
  deriving DecidableEq, Repr


/-- Where an uncorrectable error of a SEC-DED memory is met (R287, R292): in a die manager, or in the hub, by unit of the package
station less 35: session table, hub cache, object store, hub cores (R297). -/
inductive UeSite where
  | die (d : Stack)
  | hub (n : Fin 4)
  deriving DecidableEq, Repr

/-- A pool of page frames whose shortage starts demotion (R196): a NEAR group by its NEAR list entry, the pool of a stack's
LPDDR device, the companion region. -/
inductive Pool where
  | near (e : Nat)
  | lpddr (d : Stack)
  | companion
  deriving DecidableEq, Repr

/-- What a graph does to a partition's registers and memories when it is distributed, and what its placement section says
(log entry 23: the spec gives these sections no layout, so the image's reader supplies their content). Offsets are group
offsets, the same in every NEAR group; `dsb` and `commit` are vault addresses. -/
structure Place where
  /-- Package indices of the NEAR list; HOFF by entry 16 × layer + head group; partner of each NEAR entry. -/
  near : List Nat
  hoff : List Nat
  partner : List Nat
  frames : Nat
  nframes : Nat
  index : Nat
  /-- The copy of the partner's index that a group holds. -/
  index2 : Nat
  slots : Nat
  dir : Nat
  blocks : Nat
  nblocks : Nat
  /-- The copies of the partner's home lists that a group holds. -/
  dir2 : Nat
  blocks2 : Nat
  root : Nat
  tentDir : Nat
  tent : Nat
  ntent : Nat
  /-- The page pool of an LPDDR device: first byte and frames. -/
  lpFrames : Nat
  nlp : Nat
  dsb : Nat
  commit : Nat
  ncommit : Nat
  vocab : Nat
  /-- Graph objects declared as triggers, with the record each names (R238). -/
  triggers : List (Nat × Nat)
  /-- Registers and bytes that the distribution of the image writes: management address and value, device address and byte. -/
  regs : List (Nat × Word)
  bytes : List (Nat × Byte)
  deriving DecidableEq, Repr

/-- One session operation of a MIR_OP (R329). The spec gives its 64 bytes no layout (log entry 25). -/
inductive MirOp where
  /-- `how`: 0 a new session, 1 a BUILDING one, 2 a BUILDING one that is PINNED (R337). -/
  | openS (sid handle prio flags sampler inRing outRing inCons how : Nat)
  | fork (parent sid f : Nat) (pin : Bool) (inRing outRing : Nat)
  | truncate (sid t : Nat)
  | setS (sid prio sampler : Nat)
  | close (sid : Nat)
  deriving DecidableEq, Repr

/-- What the housekeeping sequencer reads of one stack in a measurement round (R384): its 56 diodes in units of 0.125 °C, its
power in units of 0.125 W, for each of the eight LPDDR channels the refresh-rate field of MR4, whether that rate is above nominal
and whether the temperature is above the rated range, and its 16 ageing monitors' normalised counts. -/
structure StackReading where
  die : Stack
  sensors : List Int
  power : Nat
  mr4 : List (Nat × Bool × Bool)
  monitors : List Nat
  deriving DecidableEq, Repr

/-- A measurement round (R384): the stacks, the hub's eight diodes, input voltage and current in 0.01 V and 0.01 A, input power
in units of 0.125 W. -/
structure RoundReading where
  dies : List StackReading
  hub : List Int
  vin : Nat
  iin : Nat
  power : Nat
  deriving DecidableEq, Repr

/-- What the recovery of one stack finds (R353): its core mask by fuse, the failed wires of its links and vaults, failed LPDDR channels,
whether the broadcast images are confirmed, a word that reads back uncorrectable, its layers' measured values (0.125 °C), a sensor
outside its calibration range. -/
structure StackFound where
  mask : BitVec 16
  links : LinkTests
  vaults : List (CoreIx × VaultTest)
  failed : List (Fin 8)
  images : Bool
  badWord : Option (Fin 17 × Nat)
  layers : List Nat
  badSensor : Option Nat
  deriving DecidableEq, Repr

/-- A command or an event of the module (the rows of the opcode table). -/
inductive Instr where
  /-- REGISTER_WRITE (R13): A write to a register that has no row of its own takes effect according to its access code. -/
  | registerWrite (a : BitVec 40) (v : Word)
  /-- MANAGEMENT_RING_SLOT (R26): A die's fixed slot in the ring revolution comes round, and it exchanges management traffic with the hub. -/
  | managementRingSlot (d : Stack)
  /-- HUB_PORT_BEAT (R22): A beat that belongs to no hub transfer reaches a hub stack port and is discarded and recorded as TRANSIT. -/
  | hubPortBeat (d : Stack)
  /-- LAUNCH (R128): A die node accepts a LAUNCH flash message from its IN port, forwards it and passes it to its cores. -/
  | launch (d : Stack) (parityOk : Bool)
  /-- LAUNCH_ELASTIC (R133): A LAUNCH_ELASTIC message arrives, and the core starts when its previous step has ended, ignoring its thunder count. -/
  | launchElastic (d : Stack) (parityOk : Bool) (heads : List CoreIx)
  /-- THUNDER_COUNT_EXPIRY (R66): A core's thunder count expires and it starts step program STEP_TABLE[selector]. -/
  | thunderCountExpiry (d : Stack) (c : CoreIx) (gap : Nat) (parity : Bool)
  /-- FETCH_SLOT (R65): A fetch slot comes every FPER cc, and the sequencer fetches 16 words when the queue has room and the bus cycle is not held. -/
  | fetchSlot (d : Stack) (c : CoreIx) (upsets : Upsets)
  /-- FETCH_WORDS_READY (R65): The words of a fetching slot reach the fetch queue 93 cc after the slot. -/
  | fetchWordsReady (d : Stack) (c : CoreIx)
  /-- NOP (R67): A NOP word issues and does nothing but fill a gap. -/
  | nop (d : Stack) (c : CoreIx)
  /-- MAC (R70): A MAC word issues COUNT blocks on each engine in EMASK into accumulator ACC. -/
  | mac (d : Stack) (c : CoreIx) (parity : Bool) (sets : Option (Fin 4))
  /-- MAC_BLOCK_UPDATE (R76): A MAC block's result is added into its accumulator 7 cc after its last broadcast cycle. -/
  | macBlockUpdate (d : Stack) (c : CoreIx) (bad : Option (Fin 16))
  /-- OPLOAD (R61): An OPLOAD word writes background operand entries FIRST onward, one per cc. -/
  | opload (d : Stack) (c : CoreIx) (parity : Bool)
  /-- OPLOAD_COMPLETE (R61): The last entry of an OPLOAD is written, and the set may be swapped from the next cycle. -/
  | oploadComplete (d : Stack) (c : CoreIx)
  /-- SWAP (R62): A SWAP word exchanges the foreground and background operand sets of each engine in EMASK. -/
  | swap (d : Stack) (c : CoreIx)
  /-- DRAIN (R72): A DRAIN word reads an accumulator, converts it to OFMT through an optional epilogue and writes it to activation memory. -/
  | drain (d : Stack) (c : CoreIx) (parity : Bool) (check : Bool)
  /-- ACCLD (R73): An ACCLD word loads an accumulator with 128 FP32 values from activation memory. -/
  | accld (d : Stack) (c : CoreIx) (parity : Bool)
  /-- VDMA (R74): A VDMA word moves NBEATS beats between the vault, or BP space, and tile memory. -/
  | vdma (d : Stack) (c : CoreIx) (parity : Bool) (upsets : List Upsets)
  /-- VAULT_READ_BEAT (R63): Beat n of a vault read reaches tile memory 92 + n cc after the VDMA issues. -/
  | vaultReadBeat (d : Stack) (c : CoreIx) (upsets : Upsets)
  /-- END (R67): The END word issues and marks the last word of the step. -/
  | endWord (d : Stack) (c : CoreIx)
  /-- STEP_END_OFFSET (R119): A step reaches its end offset, and routers revert to the transit-only schedule. -/
  | stepEndOffset (d : Stack) (len : Nat) (heads : List CoreIx)
  /-- CORE_RESET (R85): A core reset of a die clears its cores' sequencers, operand sets, step tables, BPs and accumulators and starts tile-memory initialisation. -/
  | coreReset (d : Stack)
  /-- TILE_INIT_DONE (R85): Tile memory has been zeroed with valid parity, and CORE_STATUS.INIT_DONE is set. -/
  | tileInitDone (d : Stack) (c : CoreIx)
  /-- CONVERT (R90): The SFU converts each element to FOUT. -/
  | convert (d : Stack) (c : CoreIx) (check : Bool)
  /-- ADD (R90): The SFU adds two operands element-wise. -/
  | add (d : Stack) (c : CoreIx) (check : Bool)
  /-- SUB (R90): The SFU subtracts two operands element-wise. -/
  | sub (d : Stack) (c : CoreIx) (check : Bool)
  /-- MUL (R90): The SFU multiplies two operands element-wise. -/
  | mul (d : Stack) (c : CoreIx) (check : Bool)
  /-- MULADD (R90): The SFU adds the product of two operands to DST's prior content with two roundings. -/
  | muladd (d : Stack) (c : CoreIx) (check : Bool)
  /-- MAX (R90): The SFU takes the element-wise maximum. -/
  | max (d : Stack) (c : CoreIx) (check : Bool)
  /-- MIN (R90): The SFU takes the element-wise minimum. -/
  | min (d : Stack) (c : CoreIx) (check : Bool)
  /-- RELU (R90): The SFU applies a rectified linear function element-wise. -/
  | relu (d : Stack) (c : CoreIx) (check : Bool)
  /-- EXP (R94): The SFU evaluates e^x by piecewise quadratic. -/
  | exp (d : Stack) (c : CoreIx) (check : Bool)
  /-- EXP2 (R94): The SFU evaluates 2^x. -/
  | exp2 (d : Stack) (c : CoreIx) (check : Bool)
  /-- LOG (R94): The SFU evaluates ln x. -/
  | log (d : Stack) (c : CoreIx) (check : Bool)
  /-- LOG2 (R94): The SFU evaluates log2 x. -/
  | log2 (d : Stack) (c : CoreIx) (check : Bool)
  /-- RCP (R94): The SFU evaluates 1/x. -/
  | rcp (d : Stack) (c : CoreIx) (check : Bool)
  /-- RSQRT (R94): The SFU evaluates 1/sqrt x. -/
  | rsqrt (d : Stack) (c : CoreIx) (check : Bool)
  /-- SQRT (R94): The SFU evaluates sqrt x. -/
  | sqrt (d : Stack) (c : CoreIx) (check : Bool)
  /-- SIGMOID (R94): The SFU evaluates the logistic sigmoid. -/
  | sigmoid (d : Stack) (c : CoreIx) (check : Bool)
  /-- TANH (R94): The SFU evaluates tanh x. -/
  | tanh (d : Stack) (c : CoreIx) (check : Bool)
  /-- SILU (R94): The SFU evaluates x times sigmoid x. -/
  | silu (d : Stack) (c : CoreIx) (check : Bool)
  /-- GELU (R94): The SFU evaluates x times the normal distribution function. -/
  | gelu (d : Stack) (c : CoreIx) (check : Bool)
  /-- SOFTPLUS (R94): The SFU evaluates ln(1 + e^x). -/
  | softplus (d : Stack) (c : CoreIx) (check : Bool)
  /-- SINPI (R94): The SFU evaluates sin(pi x). -/
  | sinpi (d : Stack) (c : CoreIx) (check : Bool)
  /-- COSPI (R94): The SFU evaluates cos(pi x). -/
  | cospi (d : Stack) (c : CoreIx) (check : Bool)
  /-- RSUM (R96): The SFU sums a row in the fixed order of 128 partials and a pairwise tree. -/
  | rsum (d : Stack) (c : CoreIx) (check : Bool)
  /-- RSUMSQ (R96): The SFU sums the rounded squares of a row in the fixed order. -/
  | rsumsq (d : Stack) (c : CoreIx) (check : Bool)
  /-- RMAX (R96): The SFU finds the largest element of a row. -/
  | rmax (d : Stack) (c : CoreIx) (check : Bool)
  /-- SOFTMAX (R97): The SFU computes a three-pass soft maximum over a row. -/
  | softmax (d : Stack) (c : CoreIx) (check : Bool)
  /-- RMSNORM (R101): The SFU applies RMS normalisation with gains. -/
  | rmsnorm (d : Stack) (c : CoreIx) (check : Bool)
  /-- LAYERNORM (R102): The SFU applies shifted two-pass layer normalisation with gains and offsets. -/
  | layernorm (d : Stack) (c : CoreIx) (check : Bool)
  /-- SMERGE (R100): The SFU merges partial soft-maximum records in contributor-index order. -/
  | smerge (d : Stack) (c : CoreIx) (check : Bool)
  /-- LINK_BEAT_RECEIVE (R110): A beat arrives over a die-to-die link, and its CRC is checked. -/
  | linkBeatReceive (d : Stack) (p : Port) (flips : BitVec 1024) (crcFlip : Byte)
  /-- LINK_RETRAIN_SEGMENT (R114): Background link retraining runs in a pause segment and switches in free spares. -/
  | linkRetrainSegment (d : Stack) (p : Port) (here : WireTest) (there : WireTest)
  /-- LINK_HALF_WIDTH_DROP (R114): A link that can only run at half width drops to it at the next step boundary, and its partitions go elastic. -/
  | linkHalfWidthDrop (d : Stack) (p : Port)
  /-- ROUTE (R118): A ROUTE word selects a run of slot-table entries for its router. -/
  | route (d : Stack) (c : CoreIx)
  /-- ROUTE_TAKES_EFFECT (R118): A ROUTE run takes effect at the first step offset that is a multiple of the transit period. -/
  | routeTakesEffect (d : Stack) (k : Cluster)
  /-- SEND (R124): A SEND word puts its beats on the core's router port, one per cc. -/
  | send (d : Stack) (c : CoreIx) (parity : Bool)
  /-- RECV (R124): A RECV word writes arriving beats to activation memory, one per cc. -/
  | recv (d : Stack) (c : CoreIx) (gate : Bool)
  /-- RSEND (R124): An RSEND word sends a header beat and data beats of a contribution to a reduction group. -/
  | rsend (d : Stack) (c : CoreIx) (parity : Bool)
  /-- ROUTER_INPUT_BEAT (R119): A beat arrives at a router input and is moved by the slot table or the transit table. -/
  | routerInputBeat (d : Stack) (k : Cluster) (p : Fin 9) (off : Nat) (parity : Bool)
  /-- TRANSIT_SLOT (R120): A transit slot comes round, and every router applies its transit-table entry. -/
  | transitSlot (d : Stack) (off : Nat)
  /-- HUB_TRANSIT_TRANSFER (R122): The hub starts a transit transfer with a header beat, data beats and an expected completion. -/
  | hubTransitTransfer (e : Stack) (write : Bool) (addr : Nat) (len : Nat) (data : Nat) (owner : Nat) (page : Bool)
  /-- TRANSIT_COMPLETION (R122): The completion beat of a transit transfer arrives at the hub. -/
  | transitCompletion (id : Nat)
  /-- TRANSIT_ERROR_RESPONSE (R122): An error response or an ERR beat for a transfer makes the hub retry it on another route. -/
  | transitErrorResponse (id : Nat) (e : Stack)
  /-- TRANSIT_TIMEOUT (R122): A transit completion that fails to arrive within 200 us makes the hub retry the transfer. -/
  | transitTimeout (id : Nat) (e : Stack)
  /-- CORE_PORT_HEADER (R124): A header beat with TAG arrives at a core port and opens a contribution to the vault controller. -/
  | corePortHeader (d : Stack) (c : CoreIx)
  /-- ADDER_CONTRIBUTION_BEAT (R126): A contribution beat fills its contributor's slot in the adder buffer. -/
  | adderContributionBeat (d : Stack) (c : CoreIx)
  /-- ADDER_RESULT (R278): The adder sums all slots in contributor order and writes the result beats to memory. -/
  | adderResult (d : Stack) (u : Fin 17) (bad : Bool) (upsets : Upsets)
  /-- LAUNCH_QUEUE_TAKE (R131): The flash root takes the next launch-queue entry at S + LEN - Lmax and samples the pause. -/
  | launchQueueTake (d : Stack)
  /-- ROOT_LAUNCH_SEND (R131): The root sends a launch at the cycle that the queue entry, the pause and the phase rule allow. -/
  | rootLaunchSend (d : Stack) (gap : Nat)
  /-- FIRST_LAUNCH (R131): After SET_PARTITIONS, a rearm or a full-rate switch, the root takes an arriving entry and sends its launch. -/
  | firstLaunch (d : Stack) (gap : Nat)
  /-- FLASH_LQ_WRITE (R140): A write to FLASH_LQ enters a selector, length and tag in the launch queue. -/
  | flashLqWrite (d : Stack) (v : Word)
  /-- FLASH_DONE (R133): A DONE flash message arrives at a die node in elastic mode and is forwarded toward the root. -/
  | flashDone (d : Stack) (parityOk : Bool)
  /-- ABORT (R139): A die node receives ABORT, forwards it, stops its cores, discards transfers and sets HALTED. -/
  | abort (d : Stack) (parityOk : Bool)
  /-- REARM (R139): A write of FLASH_CTRL.REARM clears HALTED and empties the launch queue. -/
  | rearm (d : Stack)
  /-- ELASTIC_CLEAR (R135): When ELASTIC is cleared, the root waits for the last DONE and starts a quiet interval of 4,096 cc. -/
  | elasticClear (d : Stack)
  /-- QUIET_INTERVAL_END (R135): The quiet interval ends with crossings at trained latency and SLOTPH realigned. -/
  | quietIntervalEnd (d : Stack)
  /-- LDOWN_RECEIVED (R136): A wrapper sees LDOWN from its neighbour and isolates its port. -/
  | ldownReceived (d : Stack) (p : Port)
  /-- NEIGHBOUR_CLOCK_LOSS (R136): Loss of the neighbour's forwarded clock isolates the port and floods ABORT with CLOCK_LOSS. -/
  | neighbourClockLoss (d : Stack) (p : Port)
  /-- PERSISTENT_LINK_FAILURE (R136): Persistent link failure isolates the port and floods ABORT with LINK_DOWN. -/
  | persistentLinkFailure (d : Stack) (p : Port)
  /-- PORT_ISOLATE_WRITE (R138): A write of PORT_CTRL.ISOLATE isolates the port, or clears isolation after retraining. -/
  | portIsolateWrite (d : Stack) (p : Port) (v : Bool)
  /-- PORT_RETRAIN (R140): A write of PORT_CTRL.RETRAIN starts background retraining of the port. -/
  | portRetrain (d : Stack) (p : Port)
  /-- PORT_CLRCNT (R140): A write of PORT_CTRL.CLRCNT clears the port's CRC and error-response counts. -/
  | portClrcnt (d : Stack) (p : Port)
  /-- DIE_SYSTEM_RESET (R137): A system reset of one die asserts LDOWN, resets its fabric domain and halts its partition. -/
  | dieSystemReset (d : Stack)
  /-- TRANSIT_REROUTE (R137): After the outstanding transfers settle, the hub rewrites the transit tables around isolated ports and resumes transit. -/
  | transitReroute (entries : List (Stack × Cluster × Fin 64 × Word))
  /-- BP_START (R149): A START word starts selected BPs at ENTRY with ARG and takes ownership of their groups. -/
  | bpStart (d : Stack) (c : CoreIx)
  /-- BP_RELEASE (R149): A RELEASE word returns group ownership from the BP to the controller. -/
  | bpRelease (d : Stack) (c : CoreIx)
  /-- RV32IMC_INSTRUCTION (R143): The BP's scalar core executes one RV32IMC instruction. -/
  | rv32imcInstruction (d : Stack) (c : CoreIx) (j : BpIx) (ue : Bool) (parity : Bool)
  /-- VLD (R166): A BP loads a vector register from scratch. -/
  | vld (d : Stack) (c : CoreIx) (j : BpIx) (parity : Bool)
  /-- VST (R166): A BP stores a vector register to scratch. -/
  | vst (d : Stack) (c : CoreIx) (j : BpIx) (parity : Bool)
  /-- VOP_FADD (R166): A BP adds two vectors element-wise. -/
  | vopFadd (d : Stack) (c : CoreIx) (j : BpIx) (parity : Bool)
  /-- VOP_FSUB (R166): A BP subtracts two vectors element-wise. -/
  | vopFsub (d : Stack) (c : CoreIx) (j : BpIx) (parity : Bool)
  /-- VOP_FMUL (R166): A BP multiplies two vectors element-wise. -/
  | vopFmul (d : Stack) (c : CoreIx) (j : BpIx) (parity : Bool)
  /-- VOP_FMAX (R166): A BP takes the element-wise maximum of two vectors. -/
  | vopFmax (d : Stack) (c : CoreIx) (j : BpIx) (parity : Bool)
  /-- VOP_FMIN (R166): A BP takes the element-wise minimum of two vectors. -/
  | vopFmin (d : Stack) (c : CoreIx) (j : BpIx) (parity : Bool)
  /-- VOP_FMAC (R166): A BP multiplies two vectors and adds the product to vd with two roundings. -/
  | vopFmac (d : Stack) (c : CoreIx) (j : BpIx) (parity : Bool)
  /-- VOP_FEXP (R166): A BP evaluates EXP element-wise with the SFU tables. -/
  | vopFexp (d : Stack) (c : CoreIx) (j : BpIx) (parity : Bool)
  /-- VOP_FRCP (R166): A BP evaluates RCP element-wise with the SFU tables. -/
  | vopFrcp (d : Stack) (c : CoreIx) (j : BpIx) (parity : Bool)
  /-- VOPS_FADD (R166): A BP adds a scalar to each vector element. -/
  | vopsFadd (d : Stack) (c : CoreIx) (j : BpIx) (parity : Bool)
  /-- VOPS_FSUB (R166): A BP subtracts a scalar from each vector element. -/
  | vopsFsub (d : Stack) (c : CoreIx) (j : BpIx) (parity : Bool)
  /-- VOPS_FMUL (R166): A BP multiplies each vector element by a scalar. -/
  | vopsFmul (d : Stack) (c : CoreIx) (j : BpIx) (parity : Bool)
  /-- VOPS_FMAX (R166): A BP takes the maximum of each element and a scalar. -/
  | vopsFmax (d : Stack) (c : CoreIx) (j : BpIx) (parity : Bool)
  /-- VOPS_FMIN (R166): A BP takes the minimum of each element and a scalar. -/
  | vopsFmin (d : Stack) (c : CoreIx) (j : BpIx) (parity : Bool)
  /-- VSPLAT (R166): A BP sets every vector element to a scalar. -/
  | vsplat (d : Stack) (c : CoreIx) (j : BpIx) (parity : Bool)
  /-- VLIM (R166): A BP masks elements at or beyond a limit to minus infinity. -/
  | vlim (d : Stack) (c : CoreIx) (j : BpIx) (parity : Bool)
  /-- VMSK (R166): A BP masks elements whose bit is clear to minus infinity. -/
  | vmsk (d : Stack) (c : CoreIx) (j : BpIx) (parity : Bool)
  /-- VRED_RSUM (R166): A BP sums a vector pairwise into a scalar register. -/
  | vredRsum (d : Stack) (c : CoreIx) (j : BpIx) (parity : Bool)
  /-- VRED_RMAX (R166): A BP finds the largest vector element. -/
  | vredRmax (d : Stack) (c : CoreIx) (j : BpIx) (parity : Bool)
  /-- VCVT_LO (R166): A BP converts BF16 elements 0-31 to FP32. -/
  | vcvtLo (d : Stack) (c : CoreIx) (j : BpIx) (parity : Bool)
  /-- VCVT_HI (R166): A BP converts BF16 elements 32-63 to FP32. -/
  | vcvtHi (d : Stack) (c : CoreIx) (j : BpIx) (parity : Bool)
  /-- VCVT_PACK (R166): A BP packs two FP32 vectors into one BF16 vector. -/
  | vcvtPack (d : Stack) (c : CoreIx) (j : BpIx) (parity : Bool)
  /-- K4QK (R167): A BP computes K4 attention scores of two positions against eight query rows. -/
  | k4qk (d : Stack) (c : CoreIx) (j : BpIx) (parity : Bool)
  /-- K4AV (R167): A BP accumulates weighted K4 values into OACC. -/
  | k4av (d : Stack) (c : CoreIx) (j : BpIx) (parity : Bool)
  /-- K4Q (R167): A BP quantises a 32-value block to K4. -/
  | k4q (d : Stack) (c : CoreIx) (j : BpIx) (parity : Bool)
  /-- QOFF (R167): A BP computes the key-offset term of each query row. -/
  | qoff (d : Stack) (c : CoreIx) (j : BpIx) (parity : Bool)
  /-- QBND (R167): A BP computes coarse-index score bounds for each query row. -/
  | qbnd (d : Stack) (c : CoreIx) (j : BpIx) (parity : Bool)
  /-- QLD (R166): A BP loads a query-file row from scratch. -/
  | qld (d : Stack) (c : CoreIx) (j : BpIx) (parity : Bool)
  /-- SLD (R166): A BP loads the scale register from scratch. -/
  | sld (d : Stack) (c : CoreIx) (j : BpIx) (parity : Bool)
  /-- SST (R166): A BP stores the scale register to scratch. -/
  | sst (d : Stack) (c : CoreIx) (j : BpIx) (parity : Bool)
  /-- OACCRD (R166): A BP reads a quarter of an OACC row into a vector register. -/
  | oaccrd (d : Stack) (c : CoreIx) (j : BpIx) (parity : Bool)
  /-- OACCSCL (R166): A BP scales an OACC row by a scalar. -/
  | oaccscl (d : Stack) (c : CoreIx) (j : BpIx) (parity : Bool)
  /-- OACCCLR (R166): A BP clears OACC. -/
  | oaccclr (d : Stack) (c : CoreIx) (j : BpIx) (parity : Bool)
  /-- BV_LDR (R168): A BP reads beats from a bank row into scratch. -/
  | bvLdr (d : Stack) (c : CoreIx) (j : BpIx) (parity : Bool)
  /-- BV_STR (R168): A BP writes beats from scratch to a bank row, encoded. -/
  | bvStr (d : Stack) (c : CoreIx) (j : BpIx) (parity : Bool)
  /-- BV_STP (R160): A BP writes a partial code word through its merge buffer. -/
  | bvStp (d : Stack) (c : CoreIx) (j : BpIx) (parity : Bool)
  /-- BV_CPY (R168): A BP copies beats within its group, re-encoding them. -/
  | bvCpy (d : Stack) (c : CoreIx) (j : BpIx) (parity : Bool)
  /-- BV_FENCE (R168): A BP waits until every merge entry and bank write has reached the bank. -/
  | bvFence (d : Stack) (c : CoreIx) (j : BpIx) (parity : Bool)
  /-- BV_HALT (R168): A BP fences, writes back its merge entries and halts. -/
  | bvHalt (d : Stack) (c : CoreIx) (j : BpIx) (parity : Bool)
  /-- BP_MERGE_TIMEOUT (R160): A BP merge entry older than MTO x 4 mc is written back by read-modify-write. -/
  | bpMergeTimeout (d : Stack) (c : CoreIx) (j : BpIx)
  /-- BP_STOP (R174): A write of BP_CTRL.STOP stops a running BP with trap cause STOPPED. -/
  | bpStop (d : Stack) (c : CoreIx) (j : BpIx)
  /-- HOST_WINDOW (R153): A host window of 64 mc begins in a BP-owned group, and its bank slots serve host accesses or refresh. -/
  | hostWindow (d : Stack) (c : CoreIx) (j : BpIx)
  /-- HOST_QUEUE_ARRIVAL (R155): A host or transit request enters the vault controller's per-bank host queue. -/
  | hostQueueArrival (d : Stack) (c : CoreIx) (id : Nat) (write : Bool) (addr : Nat) (len : Nat) (data : Nat) (arrived : Nat) (upsets : Upsets)
  /-- OPEN_SESSION (R177): The command opens a session in the lowest free slot and creates its template instances. -/
  | openSession
  /-- FORK_SESSION (R191): The command puts a child in FORKING and queues a fork task. -/
  | forkSession
  /-- CLOSE_SESSION (R193): The command puts a session in CLOSING and queues a close task. -/
  | closeSession
  /-- TRUNCATE_SESSION (R193): The command releases pages from position T onward and sets CPOS to T. -/
  | truncateSession
  /-- SET_SESSION (R321): The command changes a session's priority and sampler settings. -/
  | setSession
  /-- SESSION_INFO (R321): The command returns a session's CPOS, state, bucket, pending input and budget. -/
  | sessionInfo
  /-- FORK_TASK (R191): The fork task copies home entries below the fork position and increments their counts. -/
  | forkTask (slot : Fin 4096)
  /-- CLOSE_TASK (R193): The close task decrements each page's count and frees the session's home lists. -/
  | closeTask (slot : Fin 4096)
  /-- TRUNCATE_TASK (R193): The truncate task releases the session's pages at or beyond T. -/
  | truncateTask (slot : Fin 4096)
  /-- COPY_TASK (R190): The copy task copies a shared tail page into a supplied frame, or marks the slot unused. -/
  | copyTask (slot : Fin 4096)
  /-- PAGE_ALLOCATION (R194): Before a launch, the hub allocates the next page and its tentative frame where the tail page may fill. -/
  | pageAllocation (slot : Fin 4096)
  /-- DEMOTION (R196): When free frames fall below FREE_LOW, the hub demotes eligible pages in age order. -/
  | demotion (k : Fin 16) (pool : Pool)
  /-- PAGE_MOVE (R197): The hub copies a frame, rewrites TIER and LOC and clears MOVING. -/
  | pageMove (n : Nat) (image : Nat)
  /-- SOURCE_FRAME_FREE (R197): A moved page's source frame is freed after two further step launches. -/
  | sourceFrameFree
  /-- SESSION_STALE (R197): At its next launch, a session that references a dropped page enters STALE. -/
  | sessionStale (slot : Fin 4096)
  /-- MISS_PROMOTION (R201): The hub holds and promotes the pages that a missed step lacked, then releases the step. -/
  | missPromotion (slot : Fin 4096)
  /-- PREFETCH_PROMOTION (R202): The hub promotes prefetch candidates in ring order and stamps their age. -/
  | prefetchPromotion (k : Fin 16)
  /-- COMMIT_RECORD_PROCESSING (R222): The hub processes a commit record: CPOS, output, signals and mirroring, or suppression. `q`: for
  each layer and head group the query rows of the step's root node, as BF16 channels, 8 rows for each head (R172, R200). -/
  | commitRecordProcessing (p : Fin 24) (q : List (List Nat))
  /-- PUBLISH_ERROR (R223): A detected error during publish puts the session in STALE at OLD_CPOS. -/
  | publishError (p : Fin 24)
  /-- LOAD_GRAPH (R321): The command reserves a handle and starts verifying and distributing a graph image. -/
  | loadGraph
  /-- GRAPH_LOAD_COMPLETE (R233): Graph verification ends with its checks in order, and GRAPH_LOADED is posted. -/
  | graphLoadComplete (handle : BitVec 16) (img : Option (List Byte)) (sig : Bool) (pl : Place)
  /-- UNLOAD_GRAPH (R321): The command unloads a graph and returns its objects. -/
  | unloadGraph
  /-- SYNC_OBJ_WRITE (R254): A write to SYNC_OBJ sets a package object. -/
  | syncObjWrite (n : Fin 16384) (v : Word)
  /-- SYNC_SIGNAL (R254): A write to SYNC_SIGNAL adds N to a package object. -/
  | syncSignal (v : Word)
  /-- LSYNC_OBJ_WRITE (R254): A write to LSYNC_OBJ sets a local object. -/
  | lsyncObjWrite (d : Stack) (n : Fin 4096) (v : Word)
  /-- LSYNC_SIGNAL (R254): A write to LSYNC_SIGNAL adds N to a local object. -/
  | lsyncSignal (d : Stack) (v : Word)
  /-- OBJECT_OBSERVED (R242): The dispatcher observes an object change 40 hc after it applies and re-evaluates waits. -/
  | objectObserved
  /-- INSTANCE_READY (R244): When the queue is short, the first instance to become ready is written to the launch queue. -/
  | instanceReady (p : Fin 24)
  /-- DOLDRUMS (R252): A lane with counted instances and no queue write for LIMIT hub ms fires Doldrums. -/
  | doldrums (n : Fin 256)
  /-- INPUT_RING_DOORBELL (R314): A recall of an input ring's producer line makes the hub read the new records. -/
  | inputRingDoorbell (ring : Fin 8192) (prod : BitVec 32)
  /-- INPUT_TOKENS (R315): A TOKENS record appends tokens to the session's pending input. -/
  | inputTokens (ring : Fin 8192) (rec : BitVec 512)
  /-- BUDGET_ADD (R315): A BUDGET_ADD record adds to the generation budget. -/
  | budgetAdd (ring : Fin 8192) (rec : BitVec 512)
  /-- BUDGET_SET (R315): A BUDGET_SET record replaces the generation budget. -/
  | budgetSet (ring : Fin 8192) (rec : BitVec 512)
  /-- OUTPUT_RING_DOORBELL (R249): The companion consumes the output ring, and OUTROOM is re-evaluated. -/
  | outputRingDoorbell (ring : Option (Fin 8192)) (cons : BitVec 32)
  /-- CONTROLLER_WINDOW (R262): A controller window begins, and each bank slot serves refresh, scrub or one host access. -/
  | controllerWindow (d : Stack) (c : CoreIx)
  /-- VAULT_HOST_REQUEST (R264): A host or transit access arrives at a vault controller's host queue. -/
  | vaultHostRequest (d : Stack) (c : CoreIx) (id : Nat) (write : Bool) (addr : Nat) (len : Nat) (data : Nat) (arrived : Nat) (upsets : Upsets)
  /-- LDMA_READ (R273): An LDMA READ word reads sectors into cluster staging in compiled burst slots. -/
  | ldmaRead (d : Stack) (c : CoreIx) (upsets : List Upsets)
  /-- LDMA_WRITE (R273): An LDMA WRITE word writes sectors from staging in compiled burst slots. -/
  | ldmaWrite (d : Stack) (c : CoreIx) (parity : Bool)
  /-- LDMA_GATHER (R273): An LDMA GATHER word reads the listed sectors into staging. -/
  | ldmaGather (d : Stack) (c : CoreIx) (parity : Bool) (upsets : List Upsets)
  /-- LPDDR_FRAME (R271): An LPDDR schedule frame begins and issues its per-bank refreshes. -/
  | lpddrFrame (d : Stack)
  /-- LPDDR_HOST_REQUEST (R274): A host, transit or scrub access is served in a reserved slot of an LPDDR frame. -/
  | lpddrHostRequest (d : Stack) (id : Nat) (write : Bool) (addr : Nat) (len : Nat) (data : Nat) (upsets : Upsets)
  /-- LPDDR_RETRAIN_SEGMENT (R275): Every RTINT rounds a channel is retrained in one pause segment. -/
  | lpddrRetrainSegment (d : Stack) (ok : Bool)
  /-- LPDDR_CHANNEL_RETRAIN (R281): A write of LP_CTRL.RETRAIN requests full retraining of a channel. -/
  | lpddrChannelRetrain (d : Stack) (ch : Fin 8)
  /-- VAULT_RETRAIN (R260): A write of VC_CTRL.RETRAIN, or a lane over VTHR in a round, requests background vault retraining. -/
  | vaultRetrain (d : Stack) (c : CoreIx)
  /-- VAULT_RETRAIN_SEGMENT (R260): Vault retraining runs in a pause segment and switches in spares. -/
  | vaultRetrainSegment (d : Stack) (c : CoreIx) (t : VaultTest)
  /-- VAULT_HALF_WIDTH (R261): A vault left at half width changes width at the next step boundary, and its partition goes elastic. -/
  | vaultHalfWidth (d : Stack) (c : CoreIx)
  /-- LOAD_WEIGHTS (R266): The command writes a weight chunk into the vaults and extends the weight measurement. -/
  | loadWeights (chunk : Option (List Byte)) (reached : Bool)
  /-- RECHECK (R291): After an uncorrectable compiled read, the controller rereads the word to separate transfer from stored errors. -/
  | recheck (d : Stack) (u : Fin 17) (upsets : Upsets)
  /-- DIE_MANAGER_UE (R292): An uncorrectable die-manager error traps and the hub resets that die. -/
  | dieManagerUe (site : UeSite)
  /-- DRIZZLE_READ (R294): Drizzle reads four code words of an S-code region in a scrub slot. -/
  | drizzleRead (d : Stack) (u : Fin 17) (late : Bool) (upsets : Upsets)
  /-- DRIZZLE_WRITEBACK (R294): A corrected word is written back in a later slot unless a write reached it meanwhile. -/
  | drizzleWriteback (d : Stack) (u : Fin 17) (upsets : Upsets)
  /-- ROW_TEST (R295): In a pause segment the die manager saves, tests and writes back or remaps a candidate row. -/
  | rowTest (d : Stack) (u : Fin 17) (sound : Bool) (spare : Bool) (frame : Option Nat)
  /-- MERGE_ENTRY_TIMEOUT (R288): A controller merge entry older than TIMEOUT is written back by read-modify-write. -/
  | mergeEntryTimeout (d : Stack) (u : Fin 17) (upsets : Upsets)
  /-- ERR_PRIMARY_CLEAR (R298): A write of ERR_STATUS.PV clears the primary record and moves the secondary up. -/
  | errPrimaryClear (st : Station)
  /-- STOP_PARTITION (R302): A write of ERR_ESCALATE.STOP asks for the partition to stop at the next step boundary. -/
  | stopPartition (d : Stack)
  /-- STOP_ABORT (R302): At the next step start, the die floods ABORT and the partition halts. -/
  | stopAbort (d : Stack)
  /-- ECC_FLIPMASK_ARM (R289): A write arms ECC_FLIPMASK to corrupt the next matching code-word write. -/
  | eccFlipmaskArm (d : Stack) (u : Fin 17) (v : Word)
  /-- CARRIER_FLIT_RECEIVE (R306): A Camner flit is FEC-corrected and CRC-checked, and its messages are taken. -/
  | carrierFlitReceive (twin : Bool) (flit : BitVec 2304) (e : Stack) (ops : List (Fin 4096 × MirOp))
  /-- RESEND (R306): A RESEND request makes the sender replay carrier flits from FACK + 1. -/
  | resend (twin : Bool) (fack : BitVec 12)
  /-- CAMNER_LINK_DOWN_RETRY (R306): While the link is down the hub retries training every 10 ms. -/
  | camnerLinkDownRetry (lanes : Option (Fin 3))
  /-- WIN_READ (R308): The companion reads the device window. -/
  | winRead (tag : BitVec 12) (addr : BitVec 64) (len : Fin 257) (e : Stack)
  /-- WIN_WRITE (R308): The companion writes the device window. -/
  | winWrite (tag : BitVec 12) (addr : BitVec 64) (len : Fin 257) (data : BitVec 2048) (e : Stack)
  /-- FETCH (R308): The device reads companion memory. -/
  | fetch
  /-- FETCH_HOLD (R308): The device reads one line and holds it read-only in the hub cache. -/
  | fetchHold
  /-- STORE (R308): The device writes companion memory. -/
  | store
  /-- RELEASE (R308): The hub stops holding one line. -/
  | release
  /-- RECALL (R309): The companion recalls a held line, and the device answers RECALLED within 1 us. -/
  | recall (tag : BitVec 12) (addr : BitVec 64)
  /-- DONE (R308): An answer without data completes a request. -/
  | doneMsg (tag : BitVec 12) (status : Fin 3)
  /-- DONE_DATA (R308): An answer with data completes a read. -/
  | doneData (tag : BitVec 12) (status : Fin 3) (data : BitVec 2048)
  /-- GO (R319): A write of HUB_CMD_DOORBELL.GO while idle accepts the command in HUB_CMD_SLOT and sets BUSY. -/
  | go
  /-- COMMAND_COMPLETION (R319): The hub writes the whole reply and clears BUSY in one operation. -/
  | commandCompletion (us : Nat)
  /-- IDENTIFY (R321): The command returns serial, grade, feature level, firmware version and topology hash. -/
  | identify
  /-- GET_ID_KEY (R433): The command writes the identity public key. -/
  | getIdKey (ok : Bool)
  /-- ATTEST (R434): The command writes a signed attestation report. -/
  | attest (ok : Bool)
  /-- CLOSE_DEBUG (R435): The command blows the DEBUG_CLOSE fuses and closes the debug port for good. -/
  | closeDebug
  /-- ADVANCE_ROLLBACK (R428): The command raises an anti-rollback counter by blowing fuses. -/
  | advanceRollback
  /-- SET_PARTITIONS (R31): The command divides the package into partitions and sets the transit period. -/
  | setPartitions (block : Option (List Byte)) (tables : List (Stack × Cluster × Fin 64 × Word))
  /-- REARM_PARTITION (R321): The command rearms a halted partition, optionally clearing SQUALL. -/
  | rearmPartition
  /-- SET_RING (R321): The command sets a ring's kind, size and base. -/
  | setRing
  /-- SET_POWER_CAP (R379): The command writes a power cap to the stacks in its mask. -/
  | setPowerCap
  /-- PAIR_TWIN (R328): The command pairs with a twin of the same feature level. -/
  | pairTwin
  /-- RESYNC_TWIN (R337): The command marks mirrored sessions BUILDING and starts the background copy. -/
  | resyncTwin
  /-- FAILOVER (R334): The command promotes the held sessions of this module. -/
  | failover (lines : List (Fin 8192 × BitVec 32 × BitVec 32))
  /-- DETACH (R336): The command drains steps, waits for acknowledgements and hands sessions to the twin. -/
  | detach (late : Bool)
  /-- SET_TWIN_MODE (R327): The command sets the twin mode Off, Mirror or Standby. -/
  | setTwinMode
  /-- RESET_DOMAIN (R321): The command applies a system, core or warm reset to a die or the package. -/
  | resetDomain
  /-- SCRUB_REGION (R321): The command scrubs a region in Drizzle's slots and reports counts. -/
  | scrubRegion
  /-- RETRAIN (R321): The command retrains a port, vault or LPDDR channel. -/
  | retrain (late : Bool)
  /-- RETRAIN_COMPLETE (R321): A retraining that outlived its command ends and posts RETRAIN_DONE. -/
  | retrainComplete (n : Nat)
  /-- GET_TELEMETRY (R321): The command writes a telemetry snapshot. -/
  | getTelemetry (ok : Bool)
  /-- GET_MEMMAP (R321): The command writes the memory map with its holes. -/
  | getMemmap (ok : Bool)
  /-- GET_LOG (R321): The command writes entries of the repair or error log. -/
  | getLog (ok : Bool)
  /-- MSI_HOLDOFF_EXPIRY (R323): When the hold-off ends, a suppressed message-signalled write is sent. -/
  | msiHoldoffExpiry
  /-- HEARTBEAT_SEND (R333): A module sends HEARTBEAT every 100 us while the twin link is up. -/
  | heartbeatSend
  /-- HEARTBEAT (R326): A heartbeat arrives from the twin with its mode, feature level and last acknowledged sequence. -/
  | heartbeat (seq : BitVec 16) (mode : Fin 3) (flevel : Byte) (ack : BitVec 32)
  /-- HEARTBEAT_MISS (R333): HB_MISS missed heartbeats declare the twin lost. -/
  | heartbeatMiss
  /-- TWIN_LINK_TRAIN_RETRY (R325): A failed twin-link training is retried every 10 ms. -/
  | twinLinkTrainRetry (ok : Bool)
  /-- MIR_OP (R330): The receiver applies one mirrored session operation. -/
  | mirOp (slot : Fin 4096) (op : MirOp)
  /-- MIR_BEGIN (R330): A mirror burst of one commit opens. -/
  | mirBegin (sid : Word) (gen : BitVec 32) (old : BitVec 32) (new : BitVec 32) (seq : Word)
  /-- MIR_DATA (R330): Mirror bytes are written into the receiver's frames or draft ring. -/
  | mirData (addr : BitVec 48) (len : Fin 257) (data : BitVec 2048)
  /-- MIR_END (R330): The burst closes with the DSB, written to every core, and MIR_ACK is sent. -/
  | mirEnd (dsb : BitVec 2048)
  /-- MIR_ACK (R332): An acknowledgement lets the sender process the session's held commit record. -/
  | mirAck (seq : Word)
  /-- MIR_STOP (R326): The receiver discards every held session. -/
  | mirStop
  /-- FENCE (R335): A fenced module stops mirroring and sets FENCED. -/
  | fence (n : BitVec 32)
  /-- TWIN_DETACH_MSG (R336): The twin sets PEER_DETACHED and keeps its held sessions. -/
  | twinDetachMsg
  /-- BACKGROUND_COPY (R338): The resynchronisation copy sends FULL pages of each session until it is IN_STEP. -/
  | backgroundCopy
  /-- PWR_GOOD_INACTIVE (R412): PWR_GOOD recognised inactive starts a power-on reset. -/
  | pwrGoodInactive
  /-- PWR_GOOD_ACTIVE (R412): PWR_GOOD recognised active after 1,000 high samples allows power-on reset to end. -/
  | pwrGoodActive
  /-- REFCLK_ABSENT (R342): A missing or off-frequency reference clock starts a power-on reset. -/
  | refclkAbsent
  /-- REFCLK_RETURN (R346): The reference is measured in range for one window, and the REFCLK source becomes inactive. -/
  | refclkReturn
  /-- RESET_L_ACCEPTED (R345): 201 consecutive low samples of RESET_L start a system reset. -/
  | resetLAccepted
  /-- RESET_L_RELEASE (R346): 201 consecutive high samples make the RESET_L source inactive. -/
  | resetLRelease
  /-- WATCHDOG_EXPIRY (R350): The hub watchdog fires without a KICK and applies a system reset. -/
  | watchdogExpiry (ms : Nat)
  /-- KICK (R350): A write of RST_CTRL.KICK restarts the watchdog period. -/
  | kick (ms : Nat)
  /-- THERMAL_TRIP (R351): A thermal trip latches the module in system reset with THERM_TRIP_L low. -/
  | thermalTrip
  /-- DEBUG_RESET (R342): The open debug port applies a reset. -/
  | debugReset (level : Fin 4) (scope : Option Stack)
  /-- RESET_ASSERTION_END (R346): A reset's assertion ends once its minimum time has passed and its sources are inactive. -/
  | resetAssertionEnd (scope : Option Stack)
  /-- HUB_RELEASE (R352): After GAP0 and fuse sense, the hub is released and RST_CAUSE written. -/
  | hubRelease
  /-- RING_RELEASE (R352): After GAP1 the management ring is released. -/
  | ringRelease
  /-- DIE_MANAGER_RELEASE (R352): After GAP2 the die managers are released once their PLLs lock. -/
  | dieManagerRelease (scope : Option Stack)
  /-- FABRIC_RELEASE (R352): After GAP3 the fabric domains are released with every port isolated. -/
  | fabricRelease (scope : Option Stack)
  /-- CONTROLLER_RELEASE (R352): After GAP4 the vault and LPDDR controllers are released. -/
  | controllerRelease (scope : Option Stack)
  /-- DRAM_BP_RELEASE (R352): After GAP5 the DRAM layers and BPs are released. -/
  | dramBpRelease (scope : Option Stack)
  /-- CORE_RELEASE (R352): After GAP6 clusters and cores are released and initialise memory. -/
  | coreRelease (scope : Option Stack)
  /-- STACK_RECOVERY (R353): After a reset of one stack, the hub repeats bring-up steps 4 to 10 for it and posts RETRAIN_DONE. -/
  | stackRecovery (d : Stack) (found : StackFound)
  /-- CAMNER_TRAIN (R356): Bring-up step 1 trains the Camner link at full rate. -/
  | camnerTrain (lanes : Option (Fin 3))
  /-- HUB_FIRMWARE_LOAD (R357): Bring-up step 2 loads and verifies the hub firmware. -/
  | hubFirmwareLoad (ext : Option (List Byte)) (sigs : List Bool)
  /-- RING_ENUMERATION (R358): Bring-up step 3 walks the ring and checks revisions. -/
  | ringEnumeration (found : List (Stack × Nat))
  /-- TOPOLOGY_DISCOVERY (R360): Bring-up step 4 builds the found topology descriptor. -/
  | topologyDiscovery (maps : List (Stack × BitVec 16))
  /-- DIE_TO_DIE_TRAINING (R363): Bring-up step 5 trains every link. -/
  | dieToDieTraining (tests : LinkTests)
  /-- VAULT_VERTICAL_TRAINING (R363): Bring-up step 6 trains vault interfaces and restores repairs. -/
  | vaultVerticalTraining (tests : List (Stack × CoreIx × VaultTest))
  /-- LPDDR_TRAINING (R363): Bring-up step 7 trains LPDDR channels and builds the data map. -/
  | lpddrTraining (failed : List (Stack × Fin 8))
  /-- GALE (R364): Bring-up step 8 broadcasts die firmware and service programs. -/
  | gale (auth : Bool) (bad : Option Stack)
  /-- MEMORY_INITIALISATION (R365): Bring-up step 9 writes zero data with valid codes to all DRAM. -/
  | memoryInitialisation (bad : Option (Stack × Fin 17 × Nat))
  /-- THERMAL_CALIBRATION (R366): Bring-up step 10 calibrates sensors and activity estimates. -/
  | thermalCalibration (bad : Option (Stack × Nat)) (meas : List (Stack × Fin 6 × Nat))
  /-- TOPOLOGY_CHECK (R367): Bring-up step 11 compares the found topology with the expected descriptor. -/
  | topologyCheck (read : Option (List Byte))
  /-- THAW (R369): Bring-up step 12 prepares service at the half rate. -/
  | thaw (tables : List (Stack × Cluster × Fin 64 × Word))
  /-- FULL_RATE_TRAINING (R370): Bring-up step 13 trains links and vaults for full rate. -/
  | fullRateTraining (links : LinkTests) (tests : List (Stack × CoreIx × VaultTest))
  /-- READY (R373): Bring-up step 14 enables the dispatcher. -/
  | ready
  /-- BRING_STEP_TIMEOUT (R355): A step that exceeds its maximum time fails with TIMEOUT. -/
  | bringStepTimeout (ms : Nat)
  /-- FULL_RATE_SWITCH (R371): Once training is complete everywhere, the hub quiesces and switches the package to full rate. -/
  | fullRateSwitch (ok : Bool)
  /-- QUIET_PERIOD_TIMEOUT (R371): If quiescence does not come within 50 ms, the hub resumes service and tries again. -/
  | quietPeriodTimeout
  /-- INSTALL (R431): A bundle booted with INSTALL is written and verified to flash copies B then A. -/
  | install (ok : Bool)
  /-- MEASUREMENT_ROUND (R384): A housekeeping round ends, sensors and rails are read, and round-end controls run. -/
  | measurementRound (r : RoundReading)
  /-- FROST_LEVEL_CHANGE (R387): Between elastic steps a die enters, changes or leaves its Frost level. -/
  | frostLevelChange (d : Stack)
  /-- TRIP_COMPARATOR (R388): A sensor reading at its fused trip level asserts the thermal trip without firmware. -/
  | tripComparator (die : Option Stack) (n : Fin 56) (reading : Int)
  /-- RAIL_FAULT (R378): A rail out of regulation or over current shuts down the second stage and holds power-on reset. -/
  | railFault
  /-- UNDERVOLTAGE (R407): Input below 38 V for 20 us shuts down conversion. -/
  | undervoltage
  /-- OVERVOLTAGE (R407): Input above 62 V for 10 us shuts down conversion. -/
  | overvoltage
  /-- CONVERSION_START (R406): Input within 39-60 V for 1 ms starts conversion and rail bring-up. -/
  | conversionStart (applied : Bool)
  /-- TWIN_PRESENT_CHANGE (R414): A recognised TWIN_PRESENT change to inactive stops twin-link training and disarms the input. -/
  | twinPresentChange (active : Bool) (us : Nat)
  /-- TWIN_ALIVE_CHANGE (R414): A recognised TWIN_ALIVE change to inactive declares the twin lost and disarms the input. -/
  | twinAliveChange (active : Bool) (us : Nat)
  /-- INPUT_REARM (R414): An alert-type input re-arms when active and 1 ms after its last event. -/
  | inputRearm (alive : Bool) (us : Nat)
  /-- UNMASK_PRES (R414): A write of SB_INPUT.UNMASK_PRES unmasks TWIN_PRESENT. -/
  | unmaskPres
  /-- UNMASK_ALIVE (R414): A write of SB_INPUT.UNMASK_ALIVE unmasks TWIN_ALIVE. -/
  | unmaskAlive
  /-- I3C_PRIVATE_WRITE (R418): An I3C private write sets the read pointer or writes a sideband register. -/
  | i3cPrivateWrite (bytes : List Byte)
  /-- I3C_PRIVATE_READ (R418): An I3C private read returns registers from the read pointer. -/
  | i3cPrivateRead (n : Nat)
  /-- ENTDAA (R417): The controller assigns the target's dynamic address. -/
  | entdaa (addr : BitVec 7)
  /-- RSTDAA (R417): The controller resets the dynamic address. -/
  | rstdaa
  /-- SETNEWDA (R417): The controller changes the dynamic address. -/
  | setnewda (addr : BitVec 7)
  /-- ENEC (R417): The controller enables in-band interrupts or Hot-Join. -/
  | enec (ibi : Bool) (hj : Bool)
  /-- DISEC (R417): The controller disables in-band interrupts or Hot-Join. -/
  | disec (ibi : Bool) (hj : Bool)
  /-- GETPID (R417): The target returns its provisioned ID. -/
  | getpid
  /-- GETBCR (R417): The target returns its BCR. -/
  | getbcr
  /-- GETDCR (R417): The target returns its DCR. -/
  | getdcr
  /-- GETSTATUS (R417): The target returns its status with the alert bit. -/
  | getstatus
  /-- GETMWL (R417): The target returns its maximum write length. -/
  | getmwl
  /-- GETMRL (R417): The target returns its maximum read length. -/
  | getmrl
  /-- SCL_LOW_TIMEOUT (R415): I3C_SCL held low for 1 ms resets the target's protocol state. -/
  | sclLowTimeout
  /-- IN_BAND_INTERRUPT (R419): A newly set enabled alert sends an in-band interrupt at most once per 1 ms. -/
  | inBandInterrupt (us : Nat)
  /-- INLET_WRITE (R420): A write of SB_INLET supplies the inlet temperature and resets its age. -/
  | inletWrite (v : Word)
  /-- BRING_STEP_DONE (R355): A running bring-up step finishes its work, and BRING_STATUS.STATE becomes done, or failed
  with the step's own failure code, so that the next step may be written. -/
  | bringStepDone (ms : Nat)
  /-- CAMNER_RETRAIN_END (R306): A Camner or twin link retrain that 8 RESENDs started ends within 200 us, either with
  the link up and held messages flowing again, or as a failed retrain that starts another retrain or, after the third in a row, leaves the
  link down. -/
  | camnerRetrainEnd (twin : Bool) (ok : Bool)
  /-- WRITE_PULSE_END (R349): A fuse program pulse or on-module flash page-program pulse ends, and a reset that was delayed for it is then asserted with RST_CAUSE.DELAYED set. -/
  | writePulseEnd (ok : Bool)
  /-- PACKAGE_RESET_TAKES_EFFECT (R321): 10 us after RESET_DOMAIN of the package has written its OK reply, the
  package reset named by the command takes effect with cause COMMAND. -/
  | packageResetTakesEffect
  /-- INSTALL_COMPLETE (R431): The flash install of a companion-booted bundle finishes writing and verifying copies B and A, and SEC_STATUS.INSTALL becomes done, or failed. -/
  | installComplete (ok : Bool)
  deriving DecidableEq, Repr

end Sys2Proof
end

