-- ==== Sys2Proof/Config.lean ====
section
/-! DEFINITION. The values that the spec leaves open and that no part of the model fixes: opaque functions of a counter. -/
namespace Sys2Proof

/-- A free byte (log entry 3): the n-th byte whose value the spec does not state. -/
opaque Config.freeByte : Nat → Byte

/-- A free number (log entry 3): the n-th place, count or choice that the spec leaves open. -/
opaque Config.freeNat : Nat → Nat

/-- The place, as a 128-byte unit of staging memory, of the n-th beat that a router puts there or takes from there in a step of a
selector: the spec names no address (log entry 3). The same step has the same places in every run (R52). -/
opaque Config.stagePlace (router sel n : Nat) (out : Bool) : Nat

/-- Byte of an address, read by a compiled word of a step less than 64 cc after a write of it (R63, R273, log entry 3): the
controller's number, the step's selector, the word's index, the address. The same step reads the same bytes in every run (R52). -/
opaque Config.earlyRead (unit sel word addr : Nat) : Byte

/-- Bytes of one entry of a log that GET_LOG writes: the spec gives the entries no layout (log entry 35). -/
opaque Config.logEntryBytes : Nat

/-- The module's identity public key, by byte (R433): a key pair that no register, command or debug network reaches. -/
opaque Config.idKey : Nat → Byte

/-- The deterministic ML-DSA-44 signature with the identity key, under the context "FQ-ATTEST", of a message: byte n (R434). -/
opaque Config.attestSig : List Byte → Nat → Byte

end Sys2Proof
end

