-- ==== Sys2Proof/Machine/Ecc.lean ====
section
/-! DEFINITION. The codes of chapter 11: the S-code over GF(2^16) (R282 to R284), the L-code CRC (R285), and the pattern of
ECC_FLIPMASK (R289). -/
namespace Sys2Proof.Machine

/-! ### The field GF(2^16) (R282) -/

/-- Multiplication by α: the generator polynomial is x^16 + x^12 + x^3 + x + 1. -/
def gfTimesX (a : BitVec 16) : BitVec 16 := (a <<< 1) ^^^ (if a.getLsbD 15 then 0x100B#16 else 0#16)

/-- The product of two field elements: Horner over the bits of `b`, the highest first. -/
def gfMul (a b : BitVec 16) : BitVec 16 :=
  (List.range 16).foldl (fun r i => gfTimesX r ^^^ (if b.getLsbD (15 - i) then a else 0#16)) 0#16

/-- α^n. -/
def gfPow (n : Nat) : BitVec 16 := n.repeat gfTimesX 1#16

/-- a^(2^16 − 2), the inverse of a nonzero element. -/
def gfInv (a : BitVec 16) : BitVec 16 :=
  ((List.range 15).foldl (fun (p : BitVec 16 × BitVec 16) _ =>
    let q := gfMul p.1 p.1
    (q, gfMul p.2 q)) (a, 1#16)).2

/-! ### The S-code -/

/-- Data symbol `i` of a 64-byte word: bits [16i+15:16i]. -/
def dataSym (d : BitVec 512) (i : Nat) : BitVec 16 := d.extractLsb' (16 * i) 16

/-- Check symbol `k`: bytes 2k and 2k + 1 of the check field. -/
def checkSym (c : BitVec 64) (k : Nat) : BitVec 16 := c.extractLsb' (16 * k) 16

/-- The 36 coefficients of c(x): C0 to C3 are the check symbols, and C(k+4) is data symbol k. -/
def codeSyms (w : CodeWord) : List (BitVec 16) :=
  (List.range 4).map (checkSym w.check) ++ (List.range 32).map (dataSym w.data)

/-- Multiplies a polynomial (lowest coefficient first) by x + r. -/
def polyTimesRoot (r : BitVec 16) (p : List (BitVec 16)) : List (BitVec 16) :=
  List.zipWith (· ^^^ ·) (0#16 :: p) (p.map (gfMul r) ++ [0#16])

/-- The generator g(x) = (x + 1)(x + α)(x + α²)(x + α³), its four coefficients below x^4. -/
def sGen : List (BitVec 16) :=
  ((List.range 4).foldl (fun p j => polyTimesRoot (gfPow j) p) [1#16]).take 4

/-- One step of the division by g: the remainder after one more coefficient, the highest first. -/
def sRemStep (r : List (BitVec 16)) (d : BitVec 16) : List (BitVec 16) :=
  let f := d ^^^ r.getD 3 0#16
  List.zipWith (· ^^^ ·) (0#16 :: r.take 3) (sGen.map (gfMul f))

/-- The check symbols C0 to C3 of a data word. -/
def sCheckSyms (d : BitVec 512) : List (BitVec 16) :=
  (List.range 32).foldl (fun r i => sRemStep r (dataSym d (31 - i))) [0#16, 0#16, 0#16, 0#16]

/-- A field of symbols packed little-endian. -/
def packSyms (l : List (BitVec 16)) : Nat := l.foldr (fun x r => x.toNat + 65536 * r) 0

/-- The check field of a data word under the S-code. -/
def sCheck (d : BitVec 512) : BitVec 64 := BitVec.ofNat 64 (packSyms (sCheckSyms d))

/-- The syndrome c(α^j), by Horner from the highest coefficient. -/
def syndrome (w : CodeWord) (j : Nat) : BitVec 16 :=
  (codeSyms w).foldr (fun c r => gfMul r (gfPow j) ^^^ c) 0#16

/-- The four syndromes. -/
def syndromes (w : CodeWord) : List (BitVec 16) := (List.range 4).map (syndrome w)

/-- XORs a pattern into symbol `n` of a word: 0–31 are data, 32–35 the check symbols (R282). -/
def flipSym (n : Nat) (pat : BitVec 16) (w : CodeWord) : CodeWord :=
  if n < 32 then { w with data := w.data ^^^ (pat.setWidth 512 <<< (16 * n)) }
  else { w with check := w.check ^^^ (pat.setWidth 64 <<< (16 * (n - 32))) }

/-- Marks a code word as poison: C0 and C1 each XORed with 0xFFFF (R284). -/
def poisonS (w : CodeWord) : CodeWord := { w with check := w.check ^^^ 0xFFFFFFFF#64 }

/-- The syndromes of the poison pattern (R284). -/
def poisonSyndromes : List (BitVec 16) := syndromes ⟨0, 0xFFFFFFFF#64⟩

/-- The symbol number (0–35) of coefficient `p` of c(x). -/
def symOfCoeff (p : Nat) : Nat := if p < 4 then 32 + p else p - 4

/-- The coefficient at which the syndromes show an error in exactly one symbol. -/
def singleError (s : List (BitVec 16)) : Option Nat :=
  let at' := fun n => s.getD n 0#16
  if at' 0 = 0#16 then none
  else (List.range 36).find? fun p =>
    let x := gfPow p
    at' 1 = gfMul (at' 0) x && at' 2 = gfMul (at' 1) x && at' 3 = gfMul (at' 2) x

/-- The two error values when the syndromes match errors in exactly symbols p and p + 16 (R283). -/
def pinErrorAt (s : List (BitVec 16)) (p : Nat) : Option (BitVec 16 × BitVec 16) :=
  let at' := fun n => s.getD n 0#16
  let x := gfPow (p + 4)
  let y := gfPow (p + 20)
  let e2 := gfMul (at' 1 ^^^ gfMul x (at' 0)) (gfInv (x ^^^ y))
  let e1 := at' 0 ^^^ e2
  let term := fun (z e : BitVec 16) (n : Nat) => n.repeat (gfMul z) e
  if e1 ≠ 0#16 ∧ e2 ≠ 0#16 ∧ term x e1 2 ^^^ term y e2 2 = at' 2 ∧ term x e1 3 ^^^ term y e2 3 = at' 3
  then some (e1, e2) else none

/-- The S-code decoder (R283); `pins` allows the two-symbol correction of an LPDDR read. -/
def sDecode (pins : Bool) (w : CodeWord) : BitVec 512 × CodeOutcome :=
  let s := syndromes w
  if s.all (· = 0#16) then (w.data, .clean)
  else if s = poisonSyndromes then (w.data, .poisoned)
  else match singleError s with
    | some p => ((flipSym (symOfCoeff p) (s.getD 0 0#16) w).data, .corrected)
    | none =>
      if pins then
        match (List.range 16).findSome? fun p => (pinErrorAt s p).map (p, ·) with
        | some (p, e1, e2) => ((flipSym (p + 16) e2 (flipSym p e1 w)).data, .corrected)
        | none => (w.data, .uncorrectable)
      else (w.data, .uncorrectable)

/-! ### The L-code (R285) -/

/-- One bit into the reflected CRC register. -/
def crc8Bit (crc : Byte) (d : Bool) : Byte :=
  let fb := (crc.getLsbD 0) != d
  (crc >>> 1) ^^^ (if fb then 0xE0#8 else 0#8)

/-- The CRC-8 over the low `n` bits of a word, from bit 0 upward. -/
def crc8 {w : Nat} (n : Nat) (x : BitVec w) : Byte := (List.range n).foldl (fun c i => crc8Bit c (x.getLsbD i)) 0xFF#8

/-- The check field of a data word under the L-code: the CRC in byte 0, zero above. -/
def lCheck (d : BitVec 512) : BitVec 64 := (crc8 512 d).setWidth 64

/-- The L-code checker: it detects and corrects nothing. -/
def lDecode (w : CodeWord) : BitVec 512 × CodeOutcome :=
  (w.data, if w.check = lCheck w.data then .clean else .mismatch)

/-! ### Both codes -/

/-- Encodes a data word under a code. -/
def encodeWord (c : Code) (d : BitVec 512) : CodeWord :=
  ⟨d, match c with | .s => sCheck d | .l => lCheck d⟩

/-- The poison form of a data word: of the S-code under R284, of the L-code the CRC inverted (R285). -/
def poisonWord (c : Code) (d : BitVec 512) : CodeWord :=
  match c with
  | .s => poisonS (encodeWord .s d)
  | .l => ⟨d, lCheck d ^^^ 0xFF#64⟩

/-- Checks a code word; `pins` as in `sDecode`. -/
def decodeWord (c : Code) (pins : Bool) (w : CodeWord) : BitVec 512 × CodeOutcome :=
  match c with | .s => sDecode pins w | .l => lDecode w

/-- Is the outcome an error that no correction mends? -/
def badOutcome : CodeOutcome → Bool
  | .clean | .corrected => false
  | _ => true

end Sys2Proof.Machine
end

