-- ==== Sys2Proof/Machine/Num.lean ====
section
/-! DEFINITION. The number formats of R34 to R51: decoding a code to an exact value, the one rounding of R41, conversions,
FP32 arithmetic, MX and K4 quantisation, and the lane's block result. Everything is exact integer arithmetic with a power of
two, narrowed once at the end. -/
namespace Sys2Proof.Machine

/-- Mantissa bits of a format. -/
def fmtMant : Fmt → Nat
  | .e2m1 => 1 | .e2m3 => 3 | .e3m2 => 2 | .e4m3 => 3 | .e5m2 => 2 | .bf16 => 7 | .fp16 => 10 | .fp32 => 23
  | .int8 => 0 | .k4 => 0

/-- Exponent bits of a format. -/
def fmtExp : Fmt → Nat
  | .e2m1 => 2 | .e2m3 => 2 | .e3m2 => 3 | .e4m3 => 4 | .e5m2 => 5 | .bf16 => 8 | .fp16 => 5 | .fp32 => 8
  | .int8 => 0 | .k4 => 0

/-- Exponent bias of a format. -/
def fmtBias : Fmt → Int
  | .e2m1 => 1 | .e2m3 => 1 | .e3m2 => 3 | .e4m3 => 7 | .e5m2 => 15 | .bf16 => 127 | .fp16 => 15 | .fp32 => 127
  | .int8 => 0 | .k4 => 0

/-- Element width in bits (R34). -/
def fmtBits : Fmt → Nat
  | .e2m1 => 4 | .e2m3 => 6 | .e3m2 => 6 | .e4m3 => 8 | .e5m2 => 8 | .bf16 => 16 | .fp16 => 16 | .fp32 => 32
  | .int8 => 8 | .k4 => 4

/-- Exponent of the smallest subnormal. -/
def fmtQmin (f : Fmt) : Int := 1 - fmtBias f - fmtMant f

/-- Magnitude code of the largest finite value (R34). -/
def fmtMax : Fmt → Nat
  | .e2m1 => 0x7 | .e2m3 => 0x1F | .e3m2 => 0x1F | .e4m3 => 0x7E | .e5m2 => 0x7B | .bf16 => 0x7F7F | .fp16 => 0x7BFF
  | .fp32 => 0x7F7FFFFF | .int8 => 127 | .k4 => 7

/-- The canonical NaN a format is written with (R35). -/
def fmtNaN : Fmt → Nat
  | .e4m3 => 0x7F | .e5m2 => 0x7F | .bf16 => 0x7FC0 | .fp16 => 0x7E00 | .fp32 => 0x7FC00000 | _ => 0

/-- Two's complement of an n-bit code. -/
def signedOf (n code : Nat) : Int :=
  if code % 2 ^ n < 2 ^ (n - 1) then (code % 2 ^ n : Nat) else (code % 2 ^ n : Nat) - (2 ^ n : Nat)

/-- An integer times a power of two, as a value. -/
def valOfInt (x : Int) (e : Int) : Val := .fin (decide (x < 0)) x.natAbs e

/-- The exact value of a code (R34). -/
def decodeFmt (f : Fmt) (code : Nat) : Val :=
  match f with
  | .int8 => valOfInt (signedOf 8 code) (-6)
  | .k4 => valOfInt (signedOf 4 code) 0
  | _ =>
    let mb := fmtMant f
    let eb := fmtExp f
    let neg := code.testBit (eb + mb)
    let E := (code / 2 ^ mb) % 2 ^ eb
    let M := code % 2 ^ mb
    let allOnes := E == 2 ^ eb - 1
    match f with
    | .e4m3 =>
      if allOnes && M == 7 then .nan
      else if E == 0 then .fin neg M (fmtQmin f) else .fin neg (2 ^ mb + M) (fmtQmin f + (E - 1 : Nat))
    | .e5m2 | .bf16 | .fp16 | .fp32 =>
      if allOnes then (if M == 0 then .inf neg else .nan)
      else if E == 0 then .fin neg M (fmtQmin f) else .fin neg (2 ^ mb + M) (fmtQmin f + (E - 1 : Nat))
    | _ => if E == 0 then .fin neg M (fmtQmin f) else .fin neg (2 ^ mb + M) (fmtQmin f + (E - 1 : Nat))

/-- n ÷ d to the nearest integer, ties to even (R41). d is not zero. -/
def divNearest (n d : Nat) : Nat :=
  let q := n / d
  let r := n % d
  if 2 * r < d then q else if d < 2 * r then q + 1 else if q % 2 == 0 then q else q + 1

/-- m × 2^e to the nearest integer, ties to even. -/
def scaleNearest (m : Nat) (e : Int) : Nat :=
  if 0 ≤ e then m * 2 ^ e.toNat
  else if (Nat.log2 m : Nat) + 2 < -e then 0
  else divNearest m (2 ^ (-e).toNat)

/-- The magnitude code of m × 2^e rounded once (R41) to mb mantissa bits and smallest step 2^qmin, with no upper end: the
code of a value just above the largest finite one is one more than the largest code. -/
def roundMag (mb : Nat) (qmin : Int) (m : Nat) (e : Int) : Nat :=
  if m == 0 then 0
  else
    let q := max (e + (Nat.log2 m : Nat) - mb) qmin
    (q - qmin).toNat * 2 ^ mb + scaleNearest m (e - q)

/-- The sign bit of a format placed above its magnitude. -/
def withSign (f : Fmt) (neg : Bool) (mag : Nat) : Nat :=
  if neg then 2 ^ (fmtExp f + fmtMant f) + mag else mag

/-- A value converted to a stand-alone format (R42): FP32, BF16 and FP16 overflow to infinity, E4M3 and E5M2 saturate. -/
def encodeFmt (f : Fmt) (v : Val) : Nat :=
  match v with
  | .nan => fmtNaN f
  | .inf neg =>
    match f with
    | .e4m3 => withSign f neg 0x7E
    | .e5m2 => withSign f neg 0x7C
    | _ => withSign f neg (fmtMax f + 1)
  | .fin neg m e =>
    let mag := roundMag (fmtMant f) (fmtQmin f) m e
    if mag ≤ fmtMax f then withSign f neg mag
    else match f with
      | .fp32 | .bf16 | .fp16 => withSign f neg (fmtMax f + 1)
      | _ => withSign f neg (fmtMax f)

/-- FP32 word of a value. -/
def encF32 (v : Val) : BitVec 32 := BitVec.ofNat 32 (encodeFmt .fp32 v)

/-- Value of an FP32 word. -/
def decF32 (b : BitVec 32) : Val := decodeFmt .fp32 b.toNat

/-- A conversion to the same format is the identity but for NaN (R42); to another it rounds once. -/
def convertFmt (src dst : Fmt) (code : Nat) : Nat :=
  match decodeFmt src code with
  | .nan => fmtNaN dst
  | v => encodeFmt dst v

/-! ### Exact arithmetic on values -/

/-- The signed integer of a finite value at exponent e0 ≤ e. -/
def signedAt (neg : Bool) (m : Nat) (e e0 : Int) : Int :=
  let x : Int := (m * 2 ^ (e - e0).toNat : Nat)
  if neg then -x else x

/-- Exact sum (R51): opposite zeros and cancelling terms give +0, −0 + −0 gives −0, and opposite infinities give NaN. -/
def addVal (a b : Val) : Val :=
  match a, b with
  | .nan, _ => .nan
  | _, .nan => .nan
  | .inf x, .inf y => if x == y then .inf x else .nan
  | .inf x, _ => .inf x
  | _, .inf y => .inf y
  | .fin s m e, .fin t n f =>
    let e0 := min e f
    let z := signedAt s m e e0 + signedAt t n f e0
    if z == 0 then .fin (s && t && m == 0 && n == 0) 0 0 else valOfInt z e0

/-- The value with its sign turned. -/
def negVal : Val → Val
  | .nan => .nan
  | .inf s => .inf !s
  | .fin s m e => .fin (!s) m e

/-- Exact product; infinity × 0 is NaN. -/
def mulVal (a b : Val) : Val :=
  match a, b with
  | .nan, _ => .nan
  | _, .nan => .nan
  | .inf x, .inf y => .inf (x != y)
  | .inf x, .fin t n _ => if n == 0 then .nan else .inf (x != t)
  | .fin s m _, .inf y => if m == 0 then .nan else .inf (s != y)
  | .fin s m e, .fin t n f => .fin (s != t) (m * n) (e + f)

/-- Strictly below, on numbers; −0 and +0 are equal, and a NaN is below nothing. -/
def ltVal (a b : Val) : Bool :=
  match a, b with
  | .nan, _ => false
  | _, .nan => false
  | .inf x, .inf y => x && !y
  | .inf x, _ => x
  | _, .inf y => !y
  | .fin s m e, .fin t n f =>
    let e0 := min e f
    decide (signedAt s m e e0 < signedAt t n f e0)

/-- Zero of either sign. -/
def isZeroVal : Val → Bool
  | .fin _ m _ => m == 0
  | _ => false

/-- The sign of a value. -/
def signVal : Val → Bool
  | .nan => false
  | .inf s => s
  | .fin s _ _ => s

/-- Larger of two values (R90): NaN wins, and max(+0, −0) = +0. -/
def maxVal (a b : Val) : Val :=
  if a = .nan || b = .nan then .nan
  else if ltVal a b then b else if ltVal b a then a else if signVal a then b else a

/-- Smaller of two values (R90): NaN wins, and min(+0, −0) = −0. -/
def minVal (a b : Val) : Val :=
  if a = .nan || b = .nan then .nan
  else if ltVal a b then a else if ltVal b a then b else if signVal a then a else b

/-- FP32 addition, rounded once (R51). -/
def addF32 (a b : BitVec 32) : BitVec 32 := encF32 (addVal (decF32 a) (decF32 b))

/-- FP32 subtraction, rounded once. -/
def subF32 (a b : BitVec 32) : BitVec 32 := encF32 (addVal (decF32 a) (negVal (decF32 b)))

/-- FP32 multiplication, rounded once. -/
def mulF32 (a b : BitVec 32) : BitVec 32 := encF32 (mulVal (decF32 a) (decF32 b))

/-- BF16 addition of a memory-side adder (R51). -/
def addBf16 (a b : BitVec 16) : BitVec 16 :=
  BitVec.ofNat 16 (encodeFmt .bf16 (addVal (decodeFmt .bf16 a.toNat) (decodeFmt .bf16 b.toNat)))

/-- FP32 words that read as NaN, +infinity or −infinity. -/
def isNaN32 (b : BitVec 32) : Bool := decide (decF32 b = .nan)

/-- Negative infinity in FP32. -/
def negInf32 : BitVec 32 := 0xFF800000#32

/-! ### Blocks -/

/-- The E8M0 scale (R34): 2^(E−127), and 0xFF is NaN. -/
def decodeE8M0 (b : Byte) : Val := if b == 0xFF#8 then .nan else .fin false 1 (b.toNat - 127)

/-- The largest magnitude of a list of finite values, as m × 2^e; zero when all are zero. -/
def largestMag : List Val → Nat × Int
  | [] => (0, 0)
  | .fin _ m e :: r =>
    let p := largestMag r
    let e0 := min e p.2
    if p.1 * 2 ^ (p.2 - e0).toNat < m * 2 ^ (e - e0).toNat then (m, e) else p
  | _ :: r => largestMag r

/-- Whether every value is finite. -/
def allFinite : List Val → Bool
  | [] => true
  | .fin _ _ _ :: r => allFinite r
  | _ :: _ => false

/-- e(F) of R43. -/
def mxTop : Fmt → Int
  | .e2m1 => 2 | .e2m3 => 2 | .e3m2 => 4 | .e4m3 => 8 | .e5m2 => 15 | _ => 0

/-- One element of an MX block (R43 step 4): the value over 2^X, rounded and clamped. The flag says it was clamped. -/
def mxElement (f : Fmt) (X : Int) : Val → Nat × Bool
  | .fin neg m e =>
    match f with
    | .int8 =>
      let n := scaleNearest m (e - X + 6)
      if neg then (if 128 < n then (128, true) else ((256 - n) % 256, false))
      else (if 127 < n then (127, true) else (n, false))
    | _ =>
      let mag := roundMag (fmtMant f) (fmtQmin f) m (e - X)
      if mag ≤ fmtMax f then (withSign f neg mag, false) else (withSign f neg (fmtMax f), true)
  | _ => (0, false)

/-- MX quantisation (R43): the scale byte, the element codes, and whether an element saturated. -/
def mxQuant (f : Fmt) (vs : List Val) : Byte × List Nat × Bool :=
  if !allFinite vs then (0xFF#8, vs.map fun _ => 0, false)
  else
    let a := largestMag vs
    if a.1 == 0 then (0x00#8, vs.map fun _ => 0, false)
    else
      let X := max (-127) (min 127 (a.2 + (Nat.log2 a.1 : Nat) - mxTop f))
      let es := vs.map (mxElement f X)
      (BitVec.ofInt 8 (X + 127), es.map (·.1), es.any (·.2))

/-- Whether 7 × s ≥ a for the E4M3 code of s. -/
def k4Covers (a : Nat × Int) (code : Nat) : Bool :=
  match decodeFmt .e4m3 code with
  | .fin _ m e =>
    let e0 := min e a.2
    decide (a.1 * 2 ^ (a.2 - e0).toNat ≤ 7 * m * 2 ^ (e - e0).toNat)
  | _ => false

/-- y ÷ s to the nearest integer and clamped (R40 step 4). s is positive and finite. -/
def k4Code (s : Val) : Val → Nat
  | .fin neg m e =>
    match s with
    | .fin _ n f =>
      let e0 := min e f
      let q := divNearest (m * 2 ^ (e - e0).toNat) (n * 2 ^ (f - e0).toNat)
      if neg then (16 - min q 8) % 16 else min q 7
    | _ => 0
  | _ => 0

/-- K4 quantisation of a block (R40): the E4M3 scale and the codes. -/
def k4Quant (vs : List Val) : Byte × List Nat :=
  if !allFinite vs then (0x7F#8, vs.map fun _ => 0)
  else
    let a := largestMag vs
    if a.1 == 0 then (0x00#8, vs.map fun _ => 0)
    else
      let code := ((List.range 0x7E).map (· + 1)).find? (k4Covers a)
      let sc := code.getD 0x7E
      (BitVec.ofNat 8 sc, vs.map (k4Code (decodeFmt .e4m3 sc)))

/-- The exact value of a K4 element (R38, R39): code × s, with a zero code giving +0 unless the scale is NaN. -/
def k4Value (scale : Byte) (code : Nat) : Val :=
  match decodeFmt .e4m3 scale.toNat with
  | .nan => .nan
  | s => let v := mulVal s (decodeFmt .k4 code)
         if isZeroVal v then .fin false 0 0 else v

/-! ### The lane -/

/-- A block operand: the 32 element values before scaling, whether the elements are K4 codes, and the block scale (1 for
BF16 and FP16, R44). -/
structure BlockOp where
  elems : List Val
  k4 : Bool
  scale : Val

/-- Value of an element for the special-value tests of R47: the code with its block scale applied. -/
def scaledElem (b : BlockOp) (x : Val) : Val :=
  match b.scale with
  | .nan => .nan
  | s => if b.k4 && (isZeroVal s || isZeroVal x) then .fin false 0 0
         else match x with
           | .inf neg => .inf (neg != signVal s)
           | _ => mulVal x s

/-- Sum of signed integers, each m × 2^e brought to exponent e0 ≤ e. -/
def sumAt (e0 : Int) : List Val → Int
  | [] => 0
  | .fin s m e :: r => signedAt s m e e0 + sumAt e0 r
  | _ :: r => sumAt e0 r

/-- The smallest exponent among the finite values. -/
def lowExp : List Val → Int
  | [] => 0
  | [.fin _ _ e] => e
  | .fin _ _ e :: r => min e (lowExp r)
  | _ :: r => lowExp r

/-- Exponent of the leading bit of the largest nonzero product, none when all are zero. -/
def leadExp : List Val → Option Int
  | [] => none
  | .fin _ m e :: r =>
    if m == 0 then leadExp r
    else match leadExp r with
      | none => some (e + (Nat.log2 m : Nat))
      | some p => some (max p (e + (Nat.log2 m : Nat)))
  | _ :: r => leadExp r

/-- Truncates the magnitude of a product to a multiple of 2^w (R46). -/
def truncTo (w : Int) : Val → Val
  | .fin s m e => if w ≤ e then .fin s m e else .fin s (m / 2 ^ (w - e).toNat) w
  | v => v

/-- The block accumulator (R45 exact, R46 aligned) of the products, as an exact value. -/
def blockSum (aligned : Bool) (ps : List Val) : Val :=
  if aligned then
    match leadExp ps with
    | none => .fin false 0 0
    | some p => let w := p - 41
                valOfInt (sumAt w ((ps.map (truncTo w)))) w
  else let e0 := lowExp ps
       valOfInt (sumAt e0 ps) e0

/-- The special-value outcome of R47 for one pair of scaled elements. -/
def pairSpecial (x y : Val) : Option Val :=
  match mulVal x y with
  | .nan => some .nan
  | .inf s => some (.inf s)
  | _ => none

/-- The special outcome of a block: NaN if any pair gives NaN or both infinities occur, else an infinity, else none. -/
def blockSpecial (sp : List Val) : Option Val :=
  if sp.any (· = .nan) then some .nan
  else if sp.any (· = .inf false) && sp.any (· = .inf true) then some .nan
  else sp.head?

/-- The block result before rounding (R45–R47): the accumulator times both scales. An exact zero is +0. -/
def blockVal (aligned : Bool) (a w : BlockOp) : Val :=
  let pairs := a.elems.zip w.elems
  match blockSpecial (pairs.filterMap fun p => pairSpecial (scaledElem a p.1) (scaledElem w p.2)) with
  | some v => v
  | none =>
    let v := mulVal (mulVal (blockSum aligned (pairs.map fun p => mulVal p.1 p.2)) a.scale) w.scale
    if isZeroVal v then .fin false 0 0 else v

/-- The block result, rounded once to FP32 (R47). -/
def blockResult (aligned : Bool) (a w : BlockOp) : BitVec 32 := encF32 (blockVal aligned a w)

/-- Aligned accumulation (R44): some operand is E5M2, BF16 or FP16. -/
def pairAligned (a w : Fmt) : Bool :=
  let wide := fun f => f = .e5m2 || f = .bf16 || f = .fp16
  wide a || wide w

/-- Cycles per 32-element block (R44). -/
def pairCycles (a w : Fmt) : Nat :=
  let is16 := fun f => f = Fmt.bf16 || f = .fp16
  let is4 := fun f => f = Fmt.e2m1 || f = .k4
  if is16 a || is16 w then 4 else if is4 a && is4 w then 1 else 2

/-- Whether a format carries a block scale. -/
def fmtScaled : Fmt → Bool
  | .bf16 | .fp16 | .fp32 => false
  | _ => true

/-- Block stride in bytes (R59): 4 bytes per bit of element width. -/
def blockStride (f : Fmt) : Nat := 4 * fmtBits f

/-- Format codes of R75. -/
def fmtOfCode : Nat → Option Fmt
  | 0 => some .e2m1 | 1 => some .e2m3 | 2 => some .e3m2 | 3 => some .e4m3 | 4 => some .e5m2 | 5 => some .int8
  | 6 => some .k4 | 8 => some .bf16 | 9 => some .fp16 | 10 => some .fp32
  | _ => none

/-- The 32 element values of a block whose codes are one little-endian number (R37). -/
def blockElems (f : Fmt) (codes : Nat) : List Val :=
  (List.range 32).map fun i => decodeFmt f ((codes / 2 ^ (fmtBits f * i)) % 2 ^ fmtBits f)

/-- The scale of a block in its format: E8M0 for MX, E4M3 for K4, 1 for BF16, FP16 and FP32. -/
def blockScale (f : Fmt) (b : Byte) : Val :=
  match f with
  | .k4 => decodeFmt .e4m3 b.toNat
  | .bf16 | .fp16 | .fp32 => .fin false 1 0
  | _ => decodeE8M0 b

/-- A block operand from its packed codes and scale byte. -/
def blockOp (f : Fmt) (codes : Nat) (scale : Byte) : BlockOp :=
  { elems := blockElems f codes, k4 := decide (f = .k4), scale := blockScale f scale }

/-- Element codes packed from the lowest address upward (R37), as one little-endian number. -/
def packCodes (bits : Nat) : List Nat → Nat
  | [] => 0
  | x :: r => x % 2 ^ bits + 2 ^ bits * packCodes bits r

end Sys2Proof.Machine
end

