-- ==== Sys2Proof/Machine/Parts.lean ====
section
/-! DEFINITION. The parts of the data plane as plain data: a core with its engines, sequencer and timetable, a near-bank
processor, a router, a vault controller, an LPDDR controller, a die. Every cycle number is a count of the die's own cc (or mc
where a field says so). -/
namespace Sys2Proof.Machine

/-- One beat of the fabric (R109): 128 bytes, with TAG and ERR. -/
structure Beat where
  data : BitVec 1024
  tag : Bool
  err : Bool
  deriving DecidableEq, Repr

/-- One entry of an operand set (R56): the codes of one block and its scale byte. -/
structure OpEntry where
  codes : BitVec 512
  scale : Byte
  deriving DecidableEq, Repr

/-- A physical engine (R54 to R56): accumulator values by 128 × accumulator + lane, the two operand sets, and the cycles at
which its occupation by a MAC ends, its background load ends, and its last SWAP issued (plus one; 0 for none); the issue cycle
(plus one), the word and the earlier BG_COUNT of its last OPLOAD. -/
structure Engine where
  acc : SMap (BitVec 32)
  fg : SMap OpEntry
  bg : SMap OpEntry
  busyUntil : Nat
  bgEnd : Nat
  swapAt : Nat
  loadAt : Nat
  loadWord : Nat
  loadCount : Nat
  deriving DecidableEq, Repr

/-- The four physical engines of a core (R54). -/
structure Engines where
  e0 : Engine
  e1 : Engine
  e2 : Engine
  e3 : Engine
  deriving DecidableEq, Repr

/-- Stages of an SFU word on one block (R438). -/
inductive SfuStage where
  | scalar | elem | func | row | rowEnd | pass2 | pass2End | pass3 | head | merge | out
  deriving DecidableEq, Repr

/-- One entry of a core's timetable: something that an issued word or an arriving beat does in a later cycle. -/
inductive Act where
  /-- A MAC block's read port takes granule `i` of its codes, with granule 0 also the scale byte and the foreground entry (R55,
  R70): engine, accumulator, INIT, formats, first byte of the codes and of the scale in the lane column, entry, cycles per block;
  what it has read so far: the broadcast operand, the lanes' scale bytes and code bytes. -/
  | macRead (p acc : Nat) (init : Bool) (fa fw : Fmt) (code scl entry cyc i : Nat) (op : OpEntry) (got : List (Byte × Nat))
  /-- A MAC block's result is added into its accumulator (R76). -/
  | macUpd (p acc : Nat) (init : Bool) (vals : List (BitVec 32))
  /-- An OPLOAD writes one background entry (R61); `last` on the load's last entry. -/
  | opEntry (p e ix : Nat) (f : Fmt) (code scl : Nat) (last : Bool)
  /-- A DRAIN reads its accumulators (R72); `ok`: the logical engines that no hazard keeps it from. -/
  | drainRead (w : BitVec 128) (ok : List Nat)
  /-- An epilogue reads its scalar scale (R107). -/
  | epiScalar (w : BitVec 128)
  /-- A block of a DRAIN enters the SFU (R107): engine order, physical engine's values, lane quarter. -/
  | epiBlock (w : BitVec 128) (e u : Nat) (vals : List (BitVec 32))
  /-- A 32-element block is converted and written to activation memory: format, offset, offset of the scale byte. -/
  | putBlock (f : Fmt) (dst scl : Nat) (vals : List (BitVec 32)) (sfu : Bool)
  /-- Bytes already converted are written to activation memory. -/
  | putBytes (dst n v : Nat)
  /-- An ACCLD reads 32 lanes' values (R73), and writes them 4 cc later. -/
  | accRead (p acc off u : Nat)
  | accWrite (p acc u : Nat) (vals : List (BitVec 32))
  /-- Beat of a vault read reaches tile memory (R63): channel, vault address, tile address, cycle of issue. -/
  | beatIn (ch vaddr taddr issue : Nat)
  /-- Beat of a vault write leaves tile memory; `last` gives the cycle of the transfer's last beat. -/
  | beatOut (ch vaddr taddr last : Nat) (upsets : Upsets)
  /-- A beat is sampled from BP space and delivered 20 cc later; a beat is placed in BP space (R145). -/
  | bpSample (ch vaddr taddr : Nat)
  | bpDeliver (ch taddr : Nat) (data : BitVec 2048)
  | bpSend (ch vaddr taddr : Nat) (upsets : Upsets)
  | bpPlace (ch vaddr : Nat) (data : BitVec 2048)
  /-- The words of a fetching slot are in the fetch queue (R65): the code words that failed their check. -/
  | fetchReady (bad : List (Nat × CodeOutcome))
  /-- A fetching slot's beat crosses the vertical interface. -/
  | fetchBus
  /-- An SFU word works on a block (R438). -/
  | sfu (st : SfuStage) (k : Nat)
  /-- SEND puts beat on the router port; RSEND its header or a data beat (R124). -/
  | sendBeat (off : Nat) (port : Nat)
  | sendHeader (grp cidx boff nbeats : Nat)
  /-- RECV takes the beat that arrives in this cycle; `last` on the word's last beat (R124). -/
  | recvBeat (off : Nat) (last : Bool)
  /-- A beat arrives at the core port; the cycle of that arrival ends (R125). -/
  | portBeat (b : Beat)
  | portEnd
  /-- A START or a RELEASE reaches a BP (R149). -/
  | bpStart (j entry arg : Nat)
  | bpRelease (j : Nat)
  /-- Ownership returns in the mc after a RELEASE has reached a BP (R149). -/
  | bpReturn (j : Nat)
  /-- A memory-side adder's result beat leaves for memory (R278). -/
  | addResult (grp beat : Nat)
  /-- A sector of an LDMA transfer reaches staging memory; a sector leaves it (R273). -/
  | ldmaIn (sect staddr : Nat) (upsets : Upsets)
  | ldmaOut (sect staddr last : Nat)
  /-- A step's beat leaves output 4 of the router for staging memory, or output 8 for the LPDDR adder (R116, R119). -/
  | stageBeat (b : Beat)
  | lpBeat (b : Beat)
  deriving DecidableEq, Repr

/-- An entry of the timetable: its place in the order (8 × cycle + rank within the cycle), the index of the word that made
it, and what it does. -/
structure Timed where
  key : Nat
  word : Nat
  act : Act
  deriving DecidableEq, Repr

/-- The rows of the opcode table that a step-program word can be (R69, R89, R123, R148, R272). -/
inductive WordRow where
  | nop | mac | opload | swap | drain | accld | vdma | sfu (op : Nat) | send | recv | rsend | route | bpStart | bpRelease
  | ldmaRead | ldmaWrite | ldmaGather | endWord
  deriving DecidableEq, Repr

/-- A launch that waits at a core: selector, elastic or not, the cycle of its arrival and the die's thunder count then. -/
structure HeldLaunch where
  sel : Nat
  elastic : Bool
  arrive : Nat
  thunder : Nat
  deriving DecidableEq, Repr

/-- An SFU word in progress: the word, the row of values read in pass 1 and in pass 2, and the statistics formed so far. -/
structure SfuRun where
  w : BitVec 128
  start : Nat
  row : List (BitVec 32)
  row2 : List (BitVec 32)
  scalar : BitVec 32
  stat : BitVec 32
  stat2 : BitVec 32
  /-- The running outputs of SMERGE. -/
  outs : List (BitVec 32)
  word : Nat
  deriving DecidableEq, Repr

/-- A contribution open at a core port (R124): group, contributor, next beat offset, data beats still expected. -/
structure OpenHeader where
  grp : Nat
  cidx : Nat
  boff : Nat
  left : Nat
  deriving DecidableEq, Repr

/-- A core (R18): its sequencer, engines, SFU, vault DMA engine and timetable. The words of a step program come from the
head store (registers) and from the fetch queue. -/
structure Core where
  /-- The last cycle this core has reached. -/
  now : Nat
  /-- The cycle in which the running or last step started. -/
  start : Nat
  running : Bool
  ended : Bool
  trapped : Bool
  elastic : Bool
  poisoned : Bool
  /-- Issuing has been stopped by an ABORT. -/
  stopped : Bool
  sel : Nat
  /-- Image address, word count and fetch period of the running program (R66). -/
  progAddr : Nat
  progWords : Nat
  fper : Nat
  /-- Index of the next word, issue cycle of the word before it, classes that have issued in that cycle. -/
  wordIx : Nat
  base : Nat
  classes : List Nat
  /-- The fetch queue (R65): ready cycle and word. -/
  queue : List (Nat × BitVec 128)
  nextFetch : Nat
  nextSlot : Nat
  agenda : List Timed
  /-- A launch that has arrived and waits for its thunder count and the end of the step (R129, R131). -/
  held : Option HeldLaunch
  engines : Engines
  /-- Banks of activation memory used in a cycle (R60); bus uses of a cycle (R63). -/
  bankUse : Nat × List Nat
  busUse : Nat × Nat
  sfuEnd : Nat
  sfu : Option SfuRun
  /-- The scalar scale that the running epilogue has read (R107). -/
  epiScale : Option Nat
  /-- The epilogue descriptors as the last launch found them (R108). -/
  epi : SMap Word
  /-- Vault beats written: beat address and the cycle in which the write's last beat left (R63). -/
  written : List (Nat × Nat)
  /-- Halted DMA channels (R290). -/
  chHalted : List Nat
  sendEnd : Nat
  recvEnd : Nat
  port : Option Beat
  /-- Beats that wait at the port, and RECV beats that wait for them: offset, last or not, word (elastic mode, R79). -/
  portQ : List Beat
  recvWait : List (Nat × Bool × Nat)
  header : Option OpenHeader
  /-- Beats are discarded up to the next header (R124). -/
  portLost : Bool
  /-- The word whose RECV takes the gate result; that beat came with ERR (R219). -/
  gateWord : Option Nat
  gateErr : Bool
  /-- Tile memory is being zeroed (R85). -/
  initialising : Bool
  deriving DecidableEq, Repr

/-- An entry of a BP's merge buffer (R160) or of a controller's (R288): code-word address, data, byte mask, and the time at
which it was taken. -/
structure MergeEntry where
  addr : Nat
  data : BitVec 512
  mask : BitVec 64
  taken : Nat
  deriving DecidableEq, Repr

/-- States of a BP (R174). -/
inductive BpRun where
  | idle | running | halted | trapped
  deriving DecidableEq, Repr

/-- A near-bank processor (R141). Times are in mc of the step. -/
structure Bp where
  run : BpRun
  owned : Bool
  /-- W0, the mc in which ownership began (R153). -/
  w0 : Nat
  pc : BitVec 32
  x : SMap (BitVec 32)
  v : SMap (BitVec 1024)
  qf : SMap (BitVec 2048)
  sr : BitVec 1024
  oacc : SMap (BitVec 32)
  merge : List MergeEntry
  /-- Step selector and mc of the last START; mc of the next issue. -/
  sel : Nat
  started : Nat
  mc : Nat
  /-- The mc at which each source, bank and the group bus is ready (R169). -/
  ready : SMap Nat
  /-- Runs of mc in which the BP's beats take the group bus: first mc, length. -/
  busTaken : List (Nat × Nat)
  /-- The scratch halves the BP used, with the mc. -/
  scratchUse : List (Nat × Nat)
  /-- Next host window (R153). -/
  win : Nat
  deriving DecidableEq, Repr

/-- A host or transit access that waits at a controller (R155, R264). -/
structure HostReq where
  id : Nat
  write : Bool
  addr : Nat
  len : Nat
  data : Nat
  arrived : Nat
  /-- Upsets that its transfer over the interface meets (R260). -/
  upsets : Upsets
  deriving DecidableEq, Repr

/-- The answer to a host access: its number, an error response or not, the data. -/
structure HostAns where
  id : Nat
  err : Bool
  data : Nat
  deriving DecidableEq, Repr

/-- Arrival state of a reduction group (R126): the (slot, offset) pairs that have arrived, the cycle of the first beat, the
cycle of the last, and the last cycle of the result window (R127; 0: none). -/
structure AddGroup where
  arrived : List (Nat × Nat)
  first : Option Nat
  lastAt : Nat
  resultEnd : Nat
  deriving DecidableEq, Repr

/-- A recheck outstanding (R291): vault address or data sector, whether a sequencer fetch made it. -/
structure Recheck where
  addr : Nat
  fetch : Bool
  deriving DecidableEq, Repr

/-- A host access of an LPDDR device in parts, one for each channel it touches (R274): its number, its address, the parts that wait,
an error in one of them, the data so far. -/
structure HostJoin where
  id : Nat
  addr : Nat
  left : Nat
  err : Bool
  data : Nat
  deriving DecidableEq, Repr

/-- A vault controller. -/
structure Vc where
  /-- Host queues by 4 × group + bank. -/
  queue : SMap (List HostReq)
  answers : List HostAns
  merge : List MergeEntry
  /-- Next controller window, and the group last served for each bank number (R262). -/
  win : Nat
  lastGroup : SMap Nat
  /-- Refresh pointer by 4 × group + bank, and credited rows by (4 × group + bank) × 8192 + row (R161, R162). -/
  refresh : SMap Nat
  credit : SMap Nat
  buffer : SMap (BitVec 1024)
  groups : SMap AddGroup
  /-- Bank numbers whose slot of the current window is free (R262). -/
  slots : List Nat
  /-- Valid region descriptors and NEAR groups when the vault was last initialised (R286). -/
  inits : List Word
  initNear : List Nat
  /-- Scrub position (vault address), corrected words awaiting write-back, rows corrected in the last pass and in this one (R294). -/
  scrub : Nat
  writeback : List (Nat × BitVec 512)
  corrLast : List Nat
  corrNow : List Nat
  rechecks : List Recheck
  /-- Errors per symbol lane in the current round (R260). -/
  laneErr : SMap Nat
  /-- Width that takes effect at the next step boundary (R261). -/
  nextWidth : Option Nat
  /-- Candidate rows and rows remapped in the session: row number 4 × group + bank, then × 8192 + row (R295). -/
  candidates : List Nat
  remaps : SMap Nat
  /-- Background retraining is requested (R260). -/
  retrainReq : Bool
  deriving DecidableEq, Repr

/-- An LPDDR controller. -/
structure Lp where
  queue : SMap (List HostReq)
  answers : List HostAns
  merge : List MergeEntry
  frame : Nat
  /-- Burst slots and activate slots that compiled transfers took: 8 × slot cycle + channel (R273). -/
  bursts : List Nat
  activates : List Nat
  refresh : SMap Nat
  buffer : SMap (BitVec 1024)
  groups : SMap AddGroup
  /-- Result beats on their way to memory (R278): group, beat, step offset of its last burst slot. -/
  out : List (Nat × Nat × Nat)
  /-- Host accesses in parts; channels whose slot of the current frame is free (R274); valid region descriptors when the device was
  last initialised (R286). -/
  joins : List HostJoin
  slots : List Nat
  inits : List Word
  scrub : Nat
  writeback : List (Nat × BitVec 512)
  corrLast : List Nat
  corrNow : List Nat
  rechecks : List Recheck
  /-- Data sectors written, with the cycle of the write's last burst slot. -/
  written : List (Nat × Nat)
  /-- Contributions open at router port 8 of each router (R124). -/
  headers : SMap OpenHeader
  /-- Full-retraining segments left for a channel (R276), the next channel of the rotation, its segment is due (R275); corrected
  symbols by channel in the current round. -/
  fullLeft : SMap Nat
  nextChan : Nat
  due : Bool
  corr : SMap Nat
  candidates : List Nat
  remaps : SMap Nat
  halted : Bool
  deriving DecidableEq, Repr

/-- A transit buffer entry or a beat in flight toward a router input. -/
structure Flight where
  die : Nat
  router : Nat
  port : Nat
  /-- Step offset of the arrival. -/
  off : Nat
  transit : Bool
  beat : Beat
  /-- The hub transfer it belongs to (0: none). -/
  xfer : Nat
  deriving DecidableEq, Repr

/-- A cluster router (R116): the run of slot-table entries in effect, the run that a ROUTE has announced, and the transit
buffers by input port. -/
structure Router where
  /-- Step offset at which the current run began. -/
  runAt : Nat
  active : Bool
  next : Option (Nat × Nat × Nat)
  buffers : SMap (List Flight)
  /-- Beats that staging memory has taken and supplied in the step (log entry 3). -/
  stagedIn : Nat
  stagedOut : Nat
  /-- In elastic mode, the offset after the last table entry used, by input (R133, log entry 79). -/
  moved : SMap Nat
  deriving DecidableEq, Repr

/-- Flash message kinds (R110). -/
inductive FlashKind where
  | launch | launchElastic | abort | done
  deriving DecidableEq, Repr

/-- A flash message on its way to a die node: kind, selector, port of arrival (4: the root core), cycle of a launch's arrival
at the node (R128). -/
structure FlashMsg where
  die : Nat
  port : Nat
  kind : FlashKind
  sel : Nat
  tag : Nat
  cyc : Nat
  deriving DecidableEq, Repr

/-- A launch-queue entry (R140). -/
structure LqEntry where
  sel : Nat
  len : Nat
  tag : Nat
  deriving DecidableEq, Repr

/-- A launch that the root has taken: its entry, the pause sampled, whether it follows no running step, whether its entry came
after the sampling cycle (R131). -/
structure RootLaunch where
  entry : LqEntry
  pause : Nat
  first : Bool
  late : Bool
  deriving DecidableEq, Repr

/-- An escalation on its way to the parent of a die (R300). -/
structure Escalation where
  unit : Nat
  kind : Nat
  deriving DecidableEq, Repr

/-- A logic die: flash node, flash root, slot phase, activity counters, die manager duties. -/
structure Die where
  /-- SLOTPH at the start of the running or last step (R115), and that start as a count of cc. -/
  phase : Nat
  stepStart : Nat
  lq : List LqEntry
  taken : Option RootLaunch
  /-- The pause that the root has sampled with no entry in its queue (R131). -/
  sampled : Option Nat
  /-- The cycle in which the root last sent a launch, and the length of that launch's step (R131). -/
  sentAt : Nat
  stepLen : Nat
  /-- A pause that runs now has consumed a segment request (R132). -/
  segNow : Bool
  /-- Ports whose link has trained or retrained since their last isolation (R138). -/
  trained : List Nat
  /-- The step offset from which a half-width link is free for the next beat, by port (R112). -/
  linkFree : SMap Nat
  /-- The next launch is a first launch (R131). -/
  firstNext : Bool
  /-- DONE received from OUT ports and from the die itself, in elastic mode. -/
  done : List Nat
  quiet : Bool
  /-- A stop of the partition is pending (R302). -/
  stopPending : Bool
  escal : List Escalation
  /-- Changes of local objects to forward to the hub (R242). -/
  forward : List Nat
  /-- Ports with a retraining requested; ports that drop to half width at the next step boundary. -/
  retrain : List Nat
  halfNext : List Nat
  crcRound : SMap Nat
  /-- Activity of each layer in the current round (R163). -/
  act : SMap Nat
  /-- An ownership fault that waits to be reported to the hub (R78, R248): its kind, and the launches that the die had passed on. -/
  ownFault : Option (Nat × Nat)
  /-- Beats of each transit transfer that have reached the die's transit endpoint (R122). -/
  endpoint : SMap Nat
  deriving DecidableEq, Repr

/-- A partition (R29, R31): its rectangle, its root stack and its root core, and its members when it was set. -/
structure Partition where
  col0 : Nat
  row0 : Nat
  col1 : Nat
  row1 : Nat
  root : Nat
  rootCore : Nat
  mem : List Nat
  deriving DecidableEq, Repr

end Sys2Proof.Machine
end

