-- ==== Sys2Proof/Machine/HubParts.lean ====
section
/-! DEFINITION. The hub as plain data: events and messages on their way to the companion, and transit transfers. -/
namespace Sys2Proof.Machine

/-- An event record (R323). -/
structure EventRec where
  code : Nat
  lost : Bool
  eseq : Nat
  subject : Nat
  data : Nat
  deriving DecidableEq, Repr

/-- The kinds of message that the device sends (R308). An index update of a ring is a STORE that waits until every STORE before
it has been answered (R309). -/
inductive MsgKind where
  | fetch | fetchHold | store | storeIndex | release
  deriving DecidableEq, Repr

/-- A message of the device that waits to be sent: kind, companion address, bytes, data. -/
structure OutMsg where
  kind : MsgKind
  addr : Nat
  len : Nat
  data : Nat
  deriving DecidableEq, Repr

/-- A transit transfer of the hub (R122): number, stack at whose hub-facing port it enters, access, data, tries so far, and
what it is for (a command opcode or a page ID). -/
structure Xfer where
  id : Nat
  entry : Nat
  write : Bool
  addr : Nat
  len : Nat
  data : Nat
  tries : Nat
  owner : Nat
  page : Bool
  deriving DecidableEq, Repr

/-- The hub's messaging state. -/
structure Hub where
  /-- Events generated (ESEQ), an event has been dropped since the last record, ring indices. -/
  eseq : Nat
  lost : Bool
  evProd : Nat
  evCons : Nat
  /-- Events held while the Camner link is down (R311). -/
  held : List EventRec
  /-- The message-signalled write's hold-off runs; a suppressed write waits (R323). -/
  msiHold : Bool
  msiWait : Bool
  /-- Messages that wait to be sent, first in first out; requests sent whose answers are outstanding. -/
  tx : List OutMsg
  sent : List OutMsg
  /-- Lines of companion memory that the hub cache holds (R314). -/
  lines : List Nat
  xfers : List Xfer
  nextXfer : Nat
  xferDone : List (Nat × Bool × Nat)
  /-- Transfers for which an error response or a beat with ERR has reached the hub (R122, R136). -/
  xferErr : List Nat
  /-- SLOTPH of the hub stack ports at cycle 0 (R115). -/
  phase : Nat
  /-- The stack whose slot of the management ring comes next; 24 after the last one (R26). -/
  ringPos : Nat
  /-- New transit transfers are stopped (R137). -/
  transitStopped : Bool
  /-- Device addresses that die managers report as uncorrectable, with 0 for a scrub and 1 for a confirmed compiled read and 2
  for a confirmed fetch; stacks whose LPDDR tier has lost its contents. -/
  badWords : List (Nat × Nat)
  lpLost : List Nat
  /-- The repair log of on-module flash: unit number 17 × stack + unit, row, 1 for a remap, 2 for a
  retirement, 3 + a for one in the page frame whose first unit has vault address a. -/
  repairLog : List (Nat × Nat × Nat)
  /-- Error records that no handler has reported yet, and the hub's error log: station and record (R299). -/
  errNew : List (Station × Word)
  errLog : List (Station × Word)
  /-- CORE_SUSPECT notices that die managers have posted to the hub: the station that recorded the escalation (R300). -/
  suspects : List Station
  /-- Partitions that have halted and wait for a rearm (R139, R248). -/
  haltedParts : List Nat
  /-- Launches that roots have reported: root stack, selector, tag (R140, R246). -/
  launchReports : List (Nat × Nat × Nat)
  /-- The quiet period of a full-rate switch runs (R371). -/
  frQuiet : Bool
  /-- Partitions in elastic mode for a link or vault that lost width, each with the graphs loaded before that (R114, R261). -/
  degraded : List (Nat × List Nat)
  /-- Graphs compiled for a topology that has lost a core or a link: their partition stays halted until they are unloaded (R261, R374). -/
  outdated : List Nat
  deriving DecidableEq, Repr

/-- The hub's messaging state after reset. -/
def Hub.reset : Hub where
  eseq := 0
  lost := false
  evProd := 0
  evCons := 0
  held := []
  msiHold := false
  msiWait := false
  tx := []
  sent := []
  lines := []
  xfers := []
  nextXfer := 1
  xferDone := []
  xferErr := []
  phase := 0
  ringPos := 0
  transitStopped := false
  badWords := []
  lpLost := []
  repairLog := []
  errNew := []
  errLog := []
  suspects := []
  haltedParts := []
  launchReports := []
  frQuiet := false
  degraded := []
  outdated := []

end Sys2Proof.Machine
end

