-- ==== Sys2Proof/Machine/ModuleParts.lean ====
section
/-! DEFINITION. The parts of the module outside the data plane as plain data: the flit layer of its two links, firmware and
fuses, power and temperature, sideband inputs and the I3C target. -/
namespace Sys2Proof.Machine

/-- This side of a link's flit layer (R305, R306). -/
structure FlitSide where
  /-- RESEND requests in a row that name the same FACK, that FACK, failed retrains in a row. -/
  resends : Nat
  lastFack : Nat
  badTrains : Nat
  /-- The sequence number of the next carrier flit sent, and of the last one accepted in order. -/
  txSeq : Nat
  rxSeq : Nat
  /-- Carrier flits are discarded until the replayed one arrives. -/
  discarding : Bool
  /-- The 16-byte units of a message that continues in the next carrier flit. -/
  units : List Nat
  /-- The sequence numbers kept for replay, and those that the last RESEND has sent again. -/
  store : List Nat
  replayed : List Nat
  /-- ASK credits, and tags given out. -/
  credits : Nat
  nextTag : Nat
  deriving DecidableEq, Repr

/-- A link that has just come up (R309). -/
def FlitSide.reset : FlitSide := ⟨0, 0, 0, 0, 4095, false, [], [], [], 64, 0⟩

/-- An answer that the device gives to the companion (R308): opcode, tag, status, data bytes and data. -/
structure WinAnswer where
  op : Nat
  tag : Nat
  status : Nat
  len : Nat
  data : Nat
  deriving DecidableEq, Repr

/-- A device-memory access of the companion that a transit transfer carries: the transfer's number, tag, write or read, bytes. -/
structure WinXfer where
  id : Nat
  tag : Nat
  write : Bool
  len : Nat
  deriving DecidableEq, Repr

/-- The Camner link and what the companion has asked for. -/
structure Camner where
  flits : FlitSide
  /-- Requests sent with their tags; answers given, the newest last; device-memory accesses under way; running at full rate. -/
  asked : List (Nat × Nat)
  answers : List WinAnswer
  xfers : List WinXfer
  /-- Device-memory accesses that wait until the hub may start transit transfers again. -/
  waits : List Xfer
  fullRate : Bool
  deriving DecidableEq, Repr

/-- The Camner link at the hub's release. -/
def Camner.reset : Camner := ⟨FlitSide.reset, [], [], [], [], false⟩

/-- Firmware, stored copies and fuses that no register shows (R426 to R435). -/
structure Sec where
  /-- The two bundle copies of on-module flash; the bundle that runs; it was booted from the companion with INSTALL set. -/
  copyA : List Byte
  copyB : List Byte
  bundle : List Byte
  install : Bool
  /-- Firmware version; measurements of the hub, die and service firmware; lowest SVN of the running images by counter. -/
  version : Nat
  mhf : List Byte
  md : List Byte
  ms : List Byte
  hubSvn : Option Nat
  dieSvn : Option Nat
  /-- DEBUG_CLOSE fuses blown. -/
  debugFuses : Nat
  /-- What the running pulse programs: counter 0–4, 5 a DEBUG_CLOSE fuse, 6 a flash page. -/
  pulse : Option Nat
  /-- The running ADVANCE_ROLLBACK: its counter and the fuses of it that are blown. -/
  advance : Option (Nat × Nat)
  deriving DecidableEq, Repr

/-- 32 zero bytes: no measurement. -/
def noHash : List Byte := List.replicate 32 0

/-- No firmware runs, both copies are empty, the debug port is open. -/
def Sec.reset : Sec := ⟨[], [], [], false, 0, noHash, noHash, noHash, none, none, 0, none, none⟩

/-- What the module does to a sideband pin: nothing, drives it, pulls it up weakly, or leaves it to the I3C target or the debug
logic, which drive it as their protocols say. -/
inductive PinDrive where
  | hiZ
  | low
  | high
  | pullUp
  | target
  | debug
  deriving DecidableEq, Repr

/-- The power conversion (R378, R405 to R407). -/
structure Power where
  /-- Conversion runs; a rail fault holds the module until the input is removed and applied again. -/
  running : Bool
  railFault : Bool
  deriving DecidableEq, Repr

/-- Conversion runs. -/
def Power.reset : Power := ⟨true, false⟩

/-- What a die manager keeps between measurement rounds (R384 to R398). Temperatures are in units of 0.125 °C. -/
structure DieTherm where
  /-- Readings of a sensor in the last four rounds, and used temperatures of a unit in the last five, oldest first: logic pairs by
  their first sensor, layers by 0x60 + L. -/
  sensors : SMap (List Nat)
  used : SMap (List Nat)
  /-- The part of each layer's estimate below the register's unit, in 1/65536 of it (log entry 43). -/
  frac : SMap Nat
  /-- Rounds in a row without threshold 2; by layer, with an estimate at 110 °C, with EST above M by more than 6 °C, with M within
  2 °C of EST; with every layer below EXT_EXIT. -/
  cool : Nat
  estHot : SMap Nat
  estOver : SMap Nat
  estNear : SMap Nat
  extCool : Nat
  /-- The Frost level in effect. -/
  frost : Nat
  /-- Rounds since VDD_CORE was last raised and since MARGIN_LOW was last posted. -/
  sinceRaise : Nat
  sinceLow : Nat
  /-- Sum and number of the LENs that the root launched in this round; controller activity units by layer. -/
  lenSum : Nat
  lenCount : Nat
  acc : SMap Nat
  deriving DecidableEq, Repr

/-- A die manager after a system reset. -/
def DieTherm.reset : DieTherm := ⟨[], [], [], 0, [], [], [], 0, 0, 1024, 1024, 0, 0, []⟩

/-- What the hub keeps between measurement rounds: of its own eight diodes by sensor number, reading, SUSPECT, FAILED and rounds
apart; used temperatures of its pairs in the last five rounds; rounds for which a lower demand has held. -/
structure HubTherm where
  reading : SMap Nat
  suspect : SMap Nat
  failed : SMap Nat
  apart : SMap Nat
  used : SMap (List Nat)
  lower : Nat
  deriving DecidableEq, Repr

/-- The hub's sensors after a system reset. -/
def HubTherm.reset : HubTherm := ⟨[], [], [], [], [], 0⟩

/-- An alert-type input (R413, R414). Times are in µs of the hub. -/
structure AlertIn where
  active : Bool
  armed : Bool
  masked : Bool
  /-- After a reset or an unmasking it waits for its next recognised change to active. -/
  waiting : Bool
  event : Option Nat
  rearms : List Nat
  deriving DecidableEq, Repr

/-- An input after a system reset. -/
def AlertIn.reset : AlertIn := ⟨false, false, false, true, none, []⟩

/-- The I3C target (R416 to R419). -/
structure I3c where
  enabled : Bool
  addr : Option Nat
  ptr : Nat
  ibi : Bool
  hotJoin : Bool
  /-- A Hot-Join request has been sent. -/
  joined : Bool
  /-- Causes newly set since the last in-band interrupt; its time in µs and its data byte. -/
  newly : Nat
  lastIbi : Option Nat
  ibiByte : Option Nat
  /-- The bytes that the last read or GET returned. -/
  out : List Byte
  deriving DecidableEq, Repr

/-- The target before bring-up step 2. -/
def I3c.reset : I3c := ⟨false, none, 0, false, false, false, 0, none, none, []⟩

/-- The sideband. -/
structure Pins where
  present : AlertIn
  alive : AlertIn
  i3c : I3c
  deriving DecidableEq, Repr

/-- The sideband after a system reset. -/
def Pins.reset : Pins := ⟨AlertIn.reset, AlertIn.reset, I3c.reset⟩

end Sys2Proof.Machine
end

