-- ==== Sys2Proof/Machine/RegMap.lean ====
section
/-! DEFINITION. The register map: one row for each register of the spec's register tables (R11–R14 and the "Registers"
section of every chapter), the address of each register, and the place of each of its fields. -/
namespace Sys2Proof.Machine

/-- A management address (R11): bits [39:32] the die, [31:24] the block, [23:0] the byte offset. -/
def mgmtAddr (die blk off : Nat) : Nat := off + 2 ^ 24 * blk + 2 ^ 32 * die

/-- The address of a register of stack `d`, whose die number is `d` + 1 (R20). -/
def dieReg (d blk off : Nat) : Nat := mgmtAddr (d + 1) blk off

/-- The address of a register of the hub, die 0 (R11). -/
def hubReg (blk off : Nat) : Nat := mgmtAddr 0 blk off

/-- CORE_CTRL: Core Control (chapter 03). -/
def r_CORE_CTRL (d b : Nat) : Nat := dieReg d (0x10 + b) 0x0

/-- CORE_STATUS: Core Status (chapter 03). -/
def r_CORE_STATUS (d b : Nat) : Nat := dieReg d (0x10 + b) 0x8

/-- CORE_ENGMAP: Engine Map (chapter 03). -/
def r_CORE_ENGMAP (d b : Nat) : Nat := dieReg d (0x10 + b) 0x10

/-- OWN_FAULT: Ownership Fault Record (chapter 03). -/
def r_OWN_FAULT (d b : Nat) : Nat := dieReg d (0x10 + b) 0x18

/-- ENG_STATUS: Engine Status (chapter 03). -/
def r_ENG_STATUS (d b n : Nat) : Nat := dieReg d (0x10 + b) (0x20 + 0x8 * n)

/-- STEP_TABLE: Step Table Entry (chapter 03). -/
def r_STEP_TABLE (d b n : Nat) : Nat := dieReg d (0x10 + b) (0x800 + 0x8 * n)

/-- SFU_STATUS: SFU Status (chapter 04). -/
def r_SFU_STATUS (d b : Nat) : Nat := dieReg d (0x10 + b) 0x40

/-- SFU_TABLE_ID: Segment Table Identifier (chapter 04). -/
def r_SFU_TABLE_ID (d b : Nat) : Nat := dieReg d (0x10 + b) 0x48

/-- EPI_DESC: Epilogue Descriptor (chapter 04). -/
def r_EPI_DESC (d b n : Nat) : Nat := dieReg d (0x10 + b) (0x1000 + 0x8 * n)

/-- FLASH_CTRL: Flash Control (chapter 05). -/
def r_FLASH_CTRL (d : Nat) : Nat := dieReg d 0x60 0x0

/-- FLASH_THUNDER: Thunder Count (chapter 05). -/
def r_FLASH_THUNDER (d : Nat) : Nat := dieReg d 0x60 0x8

/-- FLASH_PAUSE: Step Pause (chapter 05). -/
def r_FLASH_PAUSE (d : Nat) : Nat := dieReg d 0x60 0x10

/-- FLASH_STATUS: Flash Status (chapter 05). -/
def r_FLASH_STATUS (d : Nat) : Nat := dieReg d 0x60 0x18

/-- FLASH_LQ: Launch Queue Entry (chapter 05). -/
def r_FLASH_LQ (d : Nat) : Nat := dieReg d 0x60 0x20

/-- PORT_CTRL: Edge Port Control (chapter 05). -/
def r_PORT_CTRL (d b : Nat) : Nat := dieReg d (0x38 + b) 0x0

/-- PORT_STATUS: Edge Port Status (chapter 05). -/
def r_PORT_STATUS (d b : Nat) : Nat := dieReg d (0x38 + b) 0x8

/-- RT_CTRL: Router Control (chapter 05). -/
def r_RT_CTRL (d b : Nat) : Nat := dieReg d (0x8 + b) 0x0

/-- RT_FAULT: Router Fault Record (chapter 05). -/
def r_RT_FAULT (d b : Nat) : Nat := dieReg d (0x8 + b) 0x8

/-- RT_SLOT: Slot-Table and Transit-Table Entries (chapter 05). -/
def r_RT_SLOT (d b n : Nat) : Nat := dieReg d (0x8 + b) (0x8000 + 0x8 * n)

/-- TR_SLOT: Slot-Table and Transit-Table Entries (chapter 05). -/
def r_TR_SLOT (d b n : Nat) : Nat := dieReg d (0x8 + b) (0x10000 + 0x8 * n)

/-- BP_CTRL: BP Control (chapter 06). -/
def r_BP_CTRL (d b n : Nat) : Nat := dieReg d (0x40 + b) (0x0 + 0x40 * n)

/-- BP_STATUS: BP Status (chapter 06). -/
def r_BP_STATUS (d b n : Nat) : Nat := dieReg d (0x40 + b) (0x8 + 0x40 * n)

/-- BP_FAULT: BP Fault Record (chapter 06). -/
def r_BP_FAULT (d b n : Nat) : Nat := dieReg d (0x40 + b) (0x10 + 0x40 * n)

/-- BP_REF: Refresh Counters (chapter 06). -/
def r_BP_REF (d b n : Nat) : Nat := dieReg d (0x40 + b) (0x18 + 0x40 * n)

/-- BP_HOST: Host Window Counters (chapter 06). -/
def r_BP_HOST (d b n : Nat) : Nat := dieReg d (0x40 + b) (0x20 + 0x40 * n)

/-- LAYER_BUDGET: Layer Activity Budget (chapter 06). -/
def r_LAYER_BUDGET (d b : Nat) : Nat := dieReg d (0x40 + 4 * b) 0x800

/-- LAYER_ACT: Layer Activity (chapter 06). -/
def r_LAYER_ACT (d b : Nat) : Nat := dieReg d (0x40 + 4 * b) 0x808

/-- SESS_STATUS: Session Counts (chapter 07). -/
def r_SESS_STATUS : Nat := hubReg 0x88 0x0

/-- RET_CFG: Retrieval Configuration (chapter 07). -/
def r_RET_CFG : Nat := hubReg 0x88 0x8

/-- TIER_CFG: Tier Configuration (chapter 07). -/
def r_TIER_CFG : Nat := hubReg 0x88 0x10

/-- COMP_BASE: Companion Tier Base (chapter 07). -/
def r_COMP_BASE : Nat := hubReg 0x88 0x18

/-- COMP_FRAMES: Companion Tier Size (chapter 07). -/
def r_COMP_FRAMES : Nat := hubReg 0x88 0x20

/-- PAGE_MOVES: Page Move Counters (chapter 07). -/
def r_PAGE_MOVES : Nat := hubReg 0x88 0x28

/-- PAGE_LOSS: Page Loss and Miss Counters (chapter 07). -/
def r_PAGE_LOSS : Nat := hubReg 0x88 0x30

/-- SYNC_OBJ: Package Synchronisation Object (chapter 09). -/
def r_SYNC_OBJ (n : Nat) : Nat := hubReg 0x83 (0x0 + 0x8 * n)

/-- SYNC_SIGNAL: Package Object Signal (chapter 09). -/
def r_SYNC_SIGNAL : Nat := hubReg 0x83 0x20000

/-- LSYNC_OBJ: Local Synchronisation Object (chapter 09). -/
def r_LSYNC_OBJ (d n : Nat) : Nat := dieReg d 0x0 (0x40000 + 0x8 * n)

/-- LSYNC_SIGNAL: Local Object Signal (chapter 09). -/
def r_LSYNC_SIGNAL (d : Nat) : Nat := dieReg d 0x0 0x48000

/-- DISP_CTRL: Dispatcher Control (chapter 09). -/
def r_DISP_CTRL : Nat := hubReg 0x84 0x0

/-- DISP_STATUS: Dispatcher Status (chapter 09). -/
def r_DISP_STATUS : Nat := hubReg 0x84 0x8

/-- DISP_SAT: Admission Threshold (chapter 09). -/
def r_DISP_SAT : Nat := hubReg 0x84 0x10

/-- DISP_DOLD: Doldrums Watchdog (chapter 09). -/
def r_DISP_DOLD : Nat := hubReg 0x84 0x18

/-- DISP_LANE: Lane Status (chapter 09). -/
def r_DISP_LANE (n : Nat) : Nat := hubReg 0x84 (0x100 + 0x8 * n)

/-- VC_CTRL: Vault Controller Control (chapter 10). -/
def r_VC_CTRL (d b : Nat) : Nat := dieReg d (0x20 + b) 0x0

/-- VC_STATUS: Vault Controller Status (chapter 10). -/
def r_VC_STATUS (d b : Nat) : Nat := dieReg d (0x20 + b) 0x8

/-- VC_FAULT: Controller Fault Record (chapter 10). -/
def r_VC_FAULT (d b : Nat) : Nat := dieReg d (0x20 + b) 0x10

/-- LP_FAULT: Controller Fault Record (chapter 10). -/
def r_LP_FAULT (d : Nat) : Nat := dieReg d 0x30 0x10

/-- VC_RGRPA: Reduction Group Entry, Word A (chapter 10). -/
def r_VC_RGRPA (d b n : Nat) : Nat := dieReg d (0x20 + b) (0x8000 + 0x10 * n)

/-- LP_RGRPA: Reduction Group Entry, Word A (chapter 10). -/
def r_LP_RGRPA (d n : Nat) : Nat := dieReg d 0x30 (0x8000 + 0x10 * n)

/-- VC_RGRPB: Reduction Group Entry, Word B (chapter 10). -/
def r_VC_RGRPB (d b n : Nat) : Nat := dieReg d (0x20 + b) (0x8008 + 0x10 * n)

/-- LP_RGRPB: Reduction Group Entry, Word B (chapter 10). -/
def r_LP_RGRPB (d n : Nat) : Nat := dieReg d 0x30 (0x8008 + 0x10 * n)

/-- LP_CTRL: LPDDR Control (chapter 10). -/
def r_LP_CTRL (d : Nat) : Nat := dieReg d 0x30 0x0

/-- LP_STATUS: LPDDR Status (chapter 10). -/
def r_LP_STATUS (d : Nat) : Nat := dieReg d 0x30 0x8

/-- LP_CHAN: LPDDR Channel Status (chapter 10). -/
def r_LP_CHAN (d n : Nat) : Nat := dieReg d 0x30 (0x40 + 0x8 * n)

/-- ECC_REGION: Region Descriptor (chapter 11). -/
def r_ECC_REGION (d b n : Nat) : Nat := dieReg d (0x20 + b) (0x1000 + 0x8 * n)

/-- ECC_REGION_LP: Region Descriptor (chapter 11). -/
def r_ECC_REGION_LP (d n : Nat) : Nat := dieReg d 0x30 (0x1000 + 0x8 * n)

/-- ECC_FLIPMASK: Checker Test Mask (chapter 11). -/
def r_ECC_FLIPMASK (d b : Nat) : Nat := dieReg d (0x20 + b) 0x1200

/-- ECC_FLIPMASK_LP: Checker Test Mask (chapter 11). -/
def r_ECC_FLIPMASK_LP (d : Nat) : Nat := dieReg d 0x30 0x1200

/-- ECC_MERGE_CTRL: Merge Buffer Control (chapter 11). -/
def r_ECC_MERGE_CTRL (d b : Nat) : Nat := dieReg d (0x20 + b) 0x1208

/-- ECC_MERGE_CTRL_LP: Merge Buffer Control (chapter 11). -/
def r_ECC_MERGE_CTRL_LP (d : Nat) : Nat := dieReg d 0x30 0x1208

/-- ECC_COUNT: Code Word Counts (chapter 11). -/
def r_ECC_COUNT (d b : Nat) : Nat := dieReg d (0x20 + b) 0x1210

/-- ECC_COUNT_LP: Code Word Counts (chapter 11). -/
def r_ECC_COUNT_LP (d : Nat) : Nat := dieReg d 0x30 0x1210

/-- DRIZZLE_CTRL: Patrol Scrub Control (chapter 11). -/
def r_DRIZZLE_CTRL (d b : Nat) : Nat := dieReg d (0x20 + b) 0x1218

/-- DRIZZLE_CTRL_LP: Patrol Scrub Control (chapter 11). -/
def r_DRIZZLE_CTRL_LP (d : Nat) : Nat := dieReg d 0x30 0x1218

/-- RETIRE: Retired Area (chapter 11). -/
def r_RETIRE (d b n : Nat) : Nat := dieReg d (0x20 + b) (0x1400 + 0x8 * n)

/-- RETIRE_LP: Retired Area (chapter 11). -/
def r_RETIRE_LP (d n : Nat) : Nat := dieReg d 0x30 (0x1400 + 0x8 * n)

/-- HUB_CMD_DOORBELL: Command Doorbell (chapter 12). -/
def r_HUB_CMD_DOORBELL : Nat := hubReg 0x80 0x40

/-- HUB_CMD_STATUS: Command Status (chapter 12). -/
def r_HUB_CMD_STATUS : Nat := hubReg 0x80 0x48

/-- EVT_CTRL: Event Ring Control (chapter 12). -/
def r_EVT_CTRL : Nat := hubReg 0x80 0x100

/-- EVT_MSI_ADDR: Event Signal Target (chapter 12). -/
def r_EVT_MSI_ADDR : Nat := hubReg 0x80 0x108

/-- EVT_STATUS: Event Counts (chapter 12). -/
def r_EVT_STATUS : Nat := hubReg 0x80 0x118

/-- CAMNER_STATUS: Camner Link Status (chapter 12). -/
def r_CAMNER_STATUS : Nat := hubReg 0x81 0x0

/-- TWIN_CTRL: Twin Control (chapter 13). -/
def r_TWIN_CTRL : Nat := hubReg 0x82 0x0

/-- TWIN_STATUS: Twin Status (chapter 13). -/
def r_TWIN_STATUS : Nat := hubReg 0x82 0x8

/-- TWIN_MIRROR: Mirror Counts (chapter 13). -/
def r_TWIN_MIRROR : Nat := hubReg 0x82 0x10

/-- TWIN_GMAP: Graph Handle Map (chapter 13). -/
def r_TWIN_GMAP (n : Nat) : Nat := hubReg 0x82 (0x100 + 0x8 * n)

/-- BRING_STEP: Bring-up Step (chapter 14). -/
def r_BRING_STEP : Nat := hubReg 0x87 0x0

/-- BRING_STATUS: Bring-up Status (chapter 14). -/
def r_BRING_STATUS : Nat := hubReg 0x87 0x8

/-- RST_CAUSE: Reset Cause (chapter 14). -/
def r_RST_CAUSE : Nat := hubReg 0x87 0x10

/-- RST_CAUSE_DIE: Reset Cause (chapter 14). -/
def r_RST_CAUSE_DIE (d : Nat) : Nat := dieReg d 0x1 0x0

/-- RST_CTRL: Reset Control (chapter 14). -/
def r_RST_CTRL : Nat := hubReg 0x87 0x18

/-- RST_GAP: Release Gap (chapter 14). -/
def r_RST_GAP (n : Nat) : Nat := hubReg 0x87 (0x20 + 0x8 * n)

/-- FUSE_PINMAP: Pin Reset States (chapter 14). -/
def r_FUSE_PINMAP : Nat := hubReg 0x87 0x58

/-- TOPO_EXPECTED: Expected Topology Descriptor (chapter 14). -/
def r_TOPO_EXPECTED : Nat := hubReg 0x87 0x60

/-- THERM_RISE_LIMIT: Thermal Ceilings (chapter 15). -/
def r_THERM_RISE_LIMIT (d : Nat) : Nat := dieReg d 0x3 0x0

/-- THERM_LOOKAHEAD: Throttle Parameters (chapter 15). -/
def r_THERM_LOOKAHEAD (d : Nat) : Nat := dieReg d 0x3 0x8

/-- FROST_CTRL: Frost Control (chapter 15). -/
def r_FROST_CTRL (d : Nat) : Nat := dieReg d 0x3 0x10

/-- PAUSE_REQ: Pause Requests (chapter 15). -/
def r_PAUSE_REQ (d : Nat) : Nat := dieReg d 0x3 0x18

/-- PWR_CAP: Stack Power Cap (chapter 15). -/
def r_PWR_CAP (d : Nat) : Nat := dieReg d 0x3 0x20

/-- MARGIN: Ageing Margin (chapter 15). -/
def r_MARGIN (d : Nat) : Nat := dieReg d 0x3 0x28

/-- THERM_EST: Layer Estimate (chapter 15). -/
def r_THERM_EST (d n : Nat) : Nat := dieReg d 0x3 (0x40 + 0x8 * n)

/-- SENSOR: Sensor Reading (chapter 15). -/
def r_SENSOR (d n : Nat) : Nat := dieReg d 0x3 (0x100 + 0x8 * n)

/-- RO_MON: Ageing Monitor (chapter 15). -/
def r_RO_MON (d n : Nat) : Nat := dieReg d 0x3 (0x300 + 0x8 * n)

/-- HK_ROUND: Round Counter (chapter 15). -/
def r_HK_ROUND : Nat := hubReg 0x89 0x0

/-- AIR: Air Cooling (chapter 15). -/
def r_AIR : Nat := hubReg 0x89 0x8

/-- THERM_POLICY: Partition Thermal Policy (chapter 15). -/
def r_THERM_POLICY : Nat := hubReg 0x89 0x10

/-- PKG_POWER: Package Input Power (chapter 15). -/
def r_PKG_POWER : Nat := hubReg 0x89 0x18

/-- SB_ID: Sideband Identity (chapter 16). -/
def r_SB_ID : Nat := hubReg 0x86 0x0

/-- SB_STATUS: Sideband Status (chapter 16). -/
def r_SB_STATUS : Nat := hubReg 0x86 0x8

/-- SB_INLET: Inlet Air Temperature (chapter 16). -/
def r_SB_INLET : Nat := hubReg 0x86 0x10

/-- SB_THERM: Thermal Summary (chapter 16). -/
def r_SB_THERM : Nat := hubReg 0x86 0x18

/-- SB_POWER: Input Power (chapter 16). -/
def r_SB_POWER : Nat := hubReg 0x86 0x20

/-- SB_ALERT: Alert Causes (chapter 16). -/
def r_SB_ALERT : Nat := hubReg 0x86 0x28

/-- SB_ALERT_EN: Alert Enables (chapter 16). -/
def r_SB_ALERT_EN : Nat := hubReg 0x86 0x30

/-- SB_INPUT: Alert-Type Input Filters (chapter 16). -/
def r_SB_INPUT : Nat := hubReg 0x86 0x38

/-- SEC_STATUS: Security Status (chapter 17). -/
def r_SEC_STATUS : Nat := hubReg 0x85 0x0

/-- SEC_ROLLBACK: Anti-Rollback Counters (chapter 17). -/
def r_SEC_ROLLBACK : Nat := hubReg 0x85 0x8

/-- SEC_KEYHASH: Key Hash Slot (chapter 17). -/
def r_SEC_KEYHASH (n : Nat) : Nat := hubReg 0x85 (0x100 + 0x8 * n)

/-- HEAD_STORE: Head Store (R86) (chapter 03). -/
def r_HEAD_STORE (d b n : Nat) : Nat := dieReg d (0x10 + b) (0x10000 + 0x8 * n)

/-- HUB_CMD_SLOT: Command Packet Slot (R317) (chapter 12). -/
def r_HUB_CMD_SLOT (n : Nat) : Nat := hubReg 0x80 (0x0 + 0x8 * n)

/-- HUB_CMD_REPLY: Command Reply (R317) (chapter 12). -/
def r_HUB_CMD_REPLY (n : Nat) : Nat := hubReg 0x80 (0x60 + 0x8 * n)

/-- TOPO_HASH: Topology Hash (R376) (chapter 14). -/
def r_TOPO_HASH (n : Nat) : Nat := hubReg 0x87 (0x80 + 0x8 * n)

/-- TOPO_FOUND: Found Topology Descriptor (R376) (chapter 14). -/
def r_TOPO_FOUND (n : Nat) : Nat := hubReg 0x87 (0x800 + 0x8 * n)

/-- SESS_ENTRY: Session-Table View (R203) (chapter 07). -/
def r_SESS_ENTRY (n : Nat) : Nat := hubReg 0x88 (0x100000 + 0x8 * n)

/-- ERR_STATUS_engine: Error Status (chapter 11). -/
def r_ERR_STATUS_engine (d b n : Nat) : Nat := dieReg d (0x10 + b) (0x100 + 0x40 * n)

/-- ERR_STATUS_core: Error Status (chapter 11). -/
def r_ERR_STATUS_core (d b : Nat) : Nat := dieReg d (0x10 + b) 0x200

/-- ERR_STATUS_cluster: Error Status (chapter 11). -/
def r_ERR_STATUS_cluster (d b : Nat) : Nat := dieReg d (0x8 + b) 0x100

/-- ERR_STATUS_die: Error Status (chapter 11). -/
def r_ERR_STATUS_die (d : Nat) : Nat := dieReg d 0x4 0x0

/-- ERR_STATUS_package: Error Status (chapter 11). -/
def r_ERR_STATUS_package : Nat := hubReg 0x89 0x800

/-- ERR_PRIMARY_engine: Error Records (chapter 11). -/
def r_ERR_PRIMARY_engine (d b n : Nat) : Nat := dieReg d (0x10 + b) (0x108 + 0x40 * n)

/-- ERR_PRIMARY_core: Error Records (chapter 11). -/
def r_ERR_PRIMARY_core (d b : Nat) : Nat := dieReg d (0x10 + b) 0x208

/-- ERR_PRIMARY_cluster: Error Records (chapter 11). -/
def r_ERR_PRIMARY_cluster (d b : Nat) : Nat := dieReg d (0x8 + b) 0x108

/-- ERR_PRIMARY_die: Error Records (chapter 11). -/
def r_ERR_PRIMARY_die (d : Nat) : Nat := dieReg d 0x4 0x8

/-- ERR_PRIMARY_package: Error Records (chapter 11). -/
def r_ERR_PRIMARY_package : Nat := hubReg 0x89 0x808

/-- ERR_SECONDARY_engine: Error Records (chapter 11). -/
def r_ERR_SECONDARY_engine (d b n : Nat) : Nat := dieReg d (0x10 + b) (0x110 + 0x40 * n)

/-- ERR_SECONDARY_core: Error Records (chapter 11). -/
def r_ERR_SECONDARY_core (d b : Nat) : Nat := dieReg d (0x10 + b) 0x210

/-- ERR_SECONDARY_cluster: Error Records (chapter 11). -/
def r_ERR_SECONDARY_cluster (d b : Nat) : Nat := dieReg d (0x8 + b) 0x110

/-- ERR_SECONDARY_die: Error Records (chapter 11). -/
def r_ERR_SECONDARY_die (d : Nat) : Nat := dieReg d 0x4 0x10

/-- ERR_SECONDARY_package: Error Records (chapter 11). -/
def r_ERR_SECONDARY_package : Nat := hubReg 0x89 0x810

/-- ERR_OVERFLOW_engine: Error Overflow and Round Count (chapter 11). -/
def r_ERR_OVERFLOW_engine (d b n : Nat) : Nat := dieReg d (0x10 + b) (0x118 + 0x40 * n)

/-- ERR_OVERFLOW_core: Error Overflow and Round Count (chapter 11). -/
def r_ERR_OVERFLOW_core (d b : Nat) : Nat := dieReg d (0x10 + b) 0x218

/-- ERR_OVERFLOW_cluster: Error Overflow and Round Count (chapter 11). -/
def r_ERR_OVERFLOW_cluster (d b : Nat) : Nat := dieReg d (0x8 + b) 0x118

/-- ERR_OVERFLOW_die: Error Overflow and Round Count (chapter 11). -/
def r_ERR_OVERFLOW_die (d : Nat) : Nat := dieReg d 0x4 0x18

/-- ERR_OVERFLOW_package: Error Overflow and Round Count (chapter 11). -/
def r_ERR_OVERFLOW_package : Nat := hubReg 0x89 0x818

/-- ERR_ESCALATE_engine: Escalation Control and Counts (chapter 11). -/
def r_ERR_ESCALATE_engine (d b n : Nat) : Nat := dieReg d (0x10 + b) (0x120 + 0x40 * n)

/-- ERR_ESCALATE_core: Escalation Control and Counts (chapter 11). -/
def r_ERR_ESCALATE_core (d b : Nat) : Nat := dieReg d (0x10 + b) 0x220

/-- ERR_ESCALATE_cluster: Escalation Control and Counts (chapter 11). -/
def r_ERR_ESCALATE_cluster (d b : Nat) : Nat := dieReg d (0x8 + b) 0x120

/-- ERR_ESCALATE_die: Escalation Control and Counts (chapter 11). -/
def r_ERR_ESCALATE_die (d : Nat) : Nat := dieReg d 0x4 0x20

/-- ERR_ESCALATE_package: Escalation Control and Counts (chapter 11). -/
def r_ERR_ESCALATE_package : Nat := hubReg 0x89 0x820

/-! The fields of the registers, by the names of the spec's tables. -/

/-- CORE_CTRL.EN. -/
def f_CORE_CTRL_EN : Fld := ⟨0, 1⟩
/-- CORE_CTRL.ROT_EN. -/
def f_CORE_CTRL_ROT_EN : Fld := ⟨1, 1⟩
/-- CORE_CTRL.ROT. -/
def f_CORE_CTRL_ROT : Fld := ⟨2, 2⟩
/-- CORE_STATUS.RUNNING. -/
def f_CORE_STATUS_RUNNING : Fld := ⟨0, 1⟩
/-- CORE_STATUS.ELASTIC. -/
def f_CORE_STATUS_ELASTIC : Fld := ⟨1, 1⟩
/-- CORE_STATUS.FAULT. -/
def f_CORE_STATUS_FAULT : Fld := ⟨2, 1⟩
/-- CORE_STATUS.INIT_DONE. -/
def f_CORE_STATUS_INIT_DONE : Fld := ⟨3, 1⟩
/-- CORE_STATUS.ENGINES. -/
def f_CORE_STATUS_ENGINES : Fld := ⟨4, 3⟩
/-- CORE_STATUS.SEL. -/
def f_CORE_STATUS_SEL : Fld := ⟨8, 8⟩
/-- CORE_STATUS.STEPS. -/
def f_CORE_STATUS_STEPS : Fld := ⟨32, 32⟩
/-- CORE_ENGMAP.GOOD. -/
def f_CORE_ENGMAP_GOOD : Fld := ⟨0, 4⟩
/-- CORE_ENGMAP.OMIT. -/
def f_CORE_ENGMAP_OMIT : Fld := ⟨4, 2⟩
/-- CORE_ENGMAP.GRADE_B. -/
def f_CORE_ENGMAP_GRADE_B : Fld := ⟨6, 1⟩
/-- OWN_FAULT.VALID. -/
def f_OWN_FAULT_VALID : Fld := ⟨0, 1⟩
/-- OWN_FAULT.ENG. -/
def f_OWN_FAULT_ENG : Fld := ⟨1, 3⟩
/-- OWN_FAULT.KIND. -/
def f_OWN_FAULT_KIND : Fld := ⟨4, 4⟩
/-- OWN_FAULT.CYCLE. -/
def f_OWN_FAULT_CYCLE : Fld := ⟨8, 24⟩
/-- OWN_FAULT.WORD. -/
def f_OWN_FAULT_WORD : Fld := ⟨32, 24⟩
/-- OWN_FAULT.SEL. -/
def f_OWN_FAULT_SEL : Fld := ⟨56, 8⟩
/-- ENG_STATUS.PRESENT. -/
def f_ENG_STATUS_PRESENT : Fld := ⟨0, 1⟩
/-- ENG_STATUS.PHYS. -/
def f_ENG_STATUS_PHYS : Fld := ⟨1, 2⟩
/-- ENG_STATUS.BG_LOADING. -/
def f_ENG_STATUS_BG_LOADING : Fld := ⟨3, 1⟩
/-- ENG_STATUS.BG_COUNT. -/
def f_ENG_STATUS_BG_COUNT : Fld := ⟨4, 6⟩
/-- ENG_STATUS.BLOCKS. -/
def f_ENG_STATUS_BLOCKS : Fld := ⟨32, 32⟩
/-- STEP_TABLE.VALID. -/
def f_STEP_TABLE_VALID : Fld := ⟨0, 1⟩
/-- STEP_TABLE.ADDR. -/
def f_STEP_TABLE_ADDR : Fld := ⟨8, 23⟩
/-- STEP_TABLE.FPER. -/
def f_STEP_TABLE_FPER : Fld := ⟨32, 10⟩
/-- STEP_TABLE.NWORDS. -/
def f_STEP_TABLE_NWORDS : Fld := ⟨42, 22⟩
/-- SFU_STATUS.BUSY. -/
def f_SFU_STATUS_BUSY : Fld := ⟨0, 1⟩
/-- SFU_STATUS.NAN_OUT. -/
def f_SFU_STATUS_NAN_OUT : Fld := ⟨1, 1⟩
/-- SFU_STATUS.INF_OUT. -/
def f_SFU_STATUS_INF_OUT : Fld := ⟨2, 1⟩
/-- SFU_STATUS.SAT. -/
def f_SFU_STATUS_SAT : Fld := ⟨3, 1⟩
/-- SFU_STATUS.LAST_OP. -/
def f_SFU_STATUS_LAST_OP : Fld := ⟨8, 6⟩
/-- SFU_STATUS.OPS. -/
def f_SFU_STATUS_OPS : Fld := ⟨32, 32⟩
/-- SFU_TABLE_ID.TABLE_ID. -/
def f_SFU_TABLE_ID_TABLE_ID : Fld := ⟨0, 16⟩
/-- EPI_DESC.VALID. -/
def f_EPI_DESC_VALID : Fld := ⟨0, 1⟩
/-- EPI_DESC.BIAS_EN. -/
def f_EPI_DESC_BIAS_EN : Fld := ⟨1, 1⟩
/-- EPI_DESC.BIAS_FMT. -/
def f_EPI_DESC_BIAS_FMT : Fld := ⟨2, 1⟩
/-- EPI_DESC.BIAS_ADDR. -/
def f_EPI_DESC_BIAS_ADDR : Fld := ⟨3, 21⟩
/-- EPI_DESC.ACT. -/
def f_EPI_DESC_ACT : Fld := ⟨24, 6⟩
/-- EPI_DESC.SCL_MODE. -/
def f_EPI_DESC_SCL_MODE : Fld := ⟨30, 2⟩
/-- EPI_DESC.SCL_ADDR. -/
def f_EPI_DESC_SCL_ADDR : Fld := ⟨32, 21⟩
/-- FLASH_CTRL.ROOT. -/
def f_FLASH_CTRL_ROOT : Fld := ⟨0, 1⟩
/-- FLASH_CTRL.ROOT_CORE. -/
def f_FLASH_CTRL_ROOT_CORE : Fld := ⟨1, 4⟩
/-- FLASH_CTRL.IN. -/
def f_FLASH_CTRL_IN : Fld := ⟨5, 3⟩
/-- FLASH_CTRL.OUT. -/
def f_FLASH_CTRL_OUT : Fld := ⟨8, 4⟩
/-- FLASH_CTRL.MEMBER. -/
def f_FLASH_CTRL_MEMBER : Fld := ⟨12, 4⟩
/-- FLASH_CTRL.ELASTIC. -/
def f_FLASH_CTRL_ELASTIC : Fld := ⟨16, 1⟩
/-- FLASH_CTRL.REARM. -/
def f_FLASH_CTRL_REARM : Fld := ⟨17, 1⟩
/-- FLASH_CTRL.LMAX. -/
def f_FLASH_CTRL_LMAX : Fld := ⟨24, 12⟩
/-- FLASH_THUNDER.COUNT. -/
def f_FLASH_THUNDER_COUNT : Fld := ⟨0, 12⟩
/-- FLASH_PAUSE.THERM. -/
def f_FLASH_PAUSE_THERM : Fld := ⟨0, 16⟩
/-- FLASH_PAUSE.POWER. -/
def f_FLASH_PAUSE_POWER : Fld := ⟨16, 16⟩
/-- FLASH_PAUSE.LAG. -/
def f_FLASH_PAUSE_LAG : Fld := ⟨32, 16⟩
/-- FLASH_PAUSE.SEG. -/
def f_FLASH_PAUSE_SEG : Fld := ⟨48, 16⟩
/-- FLASH_STATUS.HALTED. -/
def f_FLASH_STATUS_HALTED : Fld := ⟨0, 1⟩
/-- FLASH_STATUS.CAUSE. -/
def f_FLASH_STATUS_CAUSE : Fld := ⟨1, 3⟩
/-- FLASH_STATUS.ELASTIC_STEP. -/
def f_FLASH_STATUS_ELASTIC_STEP : Fld := ⟨4, 1⟩
/-- FLASH_STATUS.LQ_COUNT. -/
def f_FLASH_STATUS_LQ_COUNT : Fld := ⟨5, 3⟩
/-- FLASH_STATUS.SEL. -/
def f_FLASH_STATUS_SEL : Fld := ⟨8, 8⟩
/-- FLASH_STATUS.STRAY. -/
def f_FLASH_STATUS_STRAY : Fld := ⟨16, 8⟩
/-- FLASH_STATUS.LQ_OVF. -/
def f_FLASH_STATUS_LQ_OVF : Fld := ⟨24, 1⟩
/-- FLASH_STATUS.LQ_BAD. -/
def f_FLASH_STATUS_LQ_BAD : Fld := ⟨25, 1⟩
/-- FLASH_STATUS.LAUNCHES. -/
def f_FLASH_STATUS_LAUNCHES : Fld := ⟨32, 32⟩
/-- FLASH_LQ.SEL. -/
def f_FLASH_LQ_SEL : Fld := ⟨0, 8⟩
/-- FLASH_LQ.LEN16. -/
def f_FLASH_LQ_LEN16 : Fld := ⟨8, 22⟩
/-- FLASH_LQ.TAG. -/
def f_FLASH_LQ_TAG : Fld := ⟨48, 16⟩
/-- PORT_CTRL.EN. -/
def f_PORT_CTRL_EN : Fld := ⟨0, 1⟩
/-- PORT_CTRL.ISOLATE. -/
def f_PORT_CTRL_ISOLATE : Fld := ⟨1, 1⟩
/-- PORT_CTRL.RETRAIN. -/
def f_PORT_CTRL_RETRAIN : Fld := ⟨2, 1⟩
/-- PORT_CTRL.CLRCNT. -/
def f_PORT_CTRL_CLRCNT : Fld := ⟨3, 1⟩
/-- PORT_STATUS.STATE. -/
def f_PORT_STATUS_STATE : Fld := ⟨0, 2⟩
/-- PORT_STATUS.HALF. -/
def f_PORT_STATUS_HALF : Fld := ⟨2, 1⟩
/-- PORT_STATUS.HUB_FACING. -/
def f_PORT_STATUS_HUB_FACING : Fld := ⟨3, 1⟩
/-- PORT_STATUS.ISO_CAUSE. -/
def f_PORT_STATUS_ISO_CAUSE : Fld := ⟨4, 4⟩
/-- PORT_STATUS.DSPARES. -/
def f_PORT_STATUS_DSPARES : Fld := ⟨8, 6⟩
/-- PORT_STATUS.CSPARES. -/
def f_PORT_STATUS_CSPARES : Fld := ⟨14, 4⟩
/-- PORT_STATUS.CRC_ERRS. -/
def f_PORT_STATUS_CRC_ERRS : Fld := ⟨32, 16⟩
/-- PORT_STATUS.ERR_RESP. -/
def f_PORT_STATUS_ERR_RESP : Fld := ⟨48, 16⟩
/-- RT_CTRL.TPER. -/
def f_RT_CTRL_TPER : Fld := ⟨0, 2⟩
/-- RT_CTRL.TONLY. -/
def f_RT_CTRL_TONLY : Fld := ⟨2, 1⟩
/-- RT_CTRL.RBASE. -/
def f_RT_CTRL_RBASE : Fld := ⟨3, 12⟩
/-- RT_CTRL.RLEN. -/
def f_RT_CTRL_RLEN : Fld := ⟨15, 13⟩
/-- RT_FAULT.VALID. -/
def f_RT_FAULT_VALID : Fld := ⟨0, 1⟩
/-- RT_FAULT.KIND. -/
def f_RT_FAULT_KIND : Fld := ⟨1, 4⟩
/-- RT_FAULT.PORT. -/
def f_RT_FAULT_PORT : Fld := ⟨5, 4⟩
/-- RT_FAULT.CYCLE. -/
def f_RT_FAULT_CYCLE : Fld := ⟨16, 24⟩
/-- RT_FAULT.SEL. -/
def f_RT_FAULT_SEL : Fld := ⟨40, 8⟩
/-- BP_CTRL.ROLE. -/
def f_BP_CTRL_ROLE : Fld := ⟨0, 2⟩
/-- BP_CTRL.CREDIT_EN. -/
def f_BP_CTRL_CREDIT_EN : Fld := ⟨2, 1⟩
/-- BP_CTRL.REFBAND. -/
def f_BP_CTRL_REFBAND : Fld := ⟨3, 1⟩
/-- BP_CTRL.MTO. -/
def f_BP_CTRL_MTO : Fld := ⟨8, 8⟩
/-- BP_CTRL.STOP. -/
def f_BP_CTRL_STOP : Fld := ⟨16, 1⟩
/-- BP_STATUS.STATE. -/
def f_BP_STATUS_STATE : Fld := ⟨0, 2⟩
/-- BP_STATUS.OWNED. -/
def f_BP_STATUS_OWNED : Fld := ⟨2, 1⟩
/-- BP_STATUS.MERGE_LIVE. -/
def f_BP_STATUS_MERGE_LIVE : Fld := ⟨3, 1⟩
/-- BP_STATUS.PC. -/
def f_BP_STATUS_PC : Fld := ⟨4, 14⟩
/-- BP_STATUS.SEL. -/
def f_BP_STATUS_SEL : Fld := ⟨24, 8⟩
/-- BP_STATUS.MCYCLES. -/
def f_BP_STATUS_MCYCLES : Fld := ⟨32, 32⟩
/-- BP_FAULT.VALID. -/
def f_BP_FAULT_VALID : Fld := ⟨0, 1⟩
/-- BP_FAULT.KIND. -/
def f_BP_FAULT_KIND : Fld := ⟨1, 3⟩
/-- BP_FAULT.CAUSE. -/
def f_BP_FAULT_CAUSE : Fld := ⟨4, 3⟩
/-- BP_FAULT.PC. -/
def f_BP_FAULT_PC : Fld := ⟨8, 14⟩
/-- BP_FAULT.MCYCLE. -/
def f_BP_FAULT_MCYCLE : Fld := ⟨32, 24⟩
/-- BP_FAULT.SEL. -/
def f_BP_FAULT_SEL : Fld := ⟨56, 8⟩
/-- BP_REF.ISSUED. -/
def f_BP_REF_ISSUED : Fld := ⟨0, 32⟩
/-- BP_REF.SKIPPED. -/
def f_BP_REF_SKIPPED : Fld := ⟨32, 32⟩
/-- BP_HOST.SERVED. -/
def f_BP_HOST_SERVED : Fld := ⟨0, 32⟩
/-- BP_HOST.HCONF. -/
def f_BP_HOST_HCONF : Fld := ⟨32, 16⟩
/-- BP_HOST.QMAX. -/
def f_BP_HOST_QMAX : Fld := ⟨48, 5⟩
/-- LAYER_BUDGET.BUDGET. -/
def f_LAYER_BUDGET_BUDGET : Fld := ⟨0, 32⟩
/-- LAYER_ACT.LAST. -/
def f_LAYER_ACT_LAST : Fld := ⟨0, 32⟩
/-- LAYER_ACT.OVER. -/
def f_LAYER_ACT_OVER : Fld := ⟨32, 1⟩
/-- SESS_STATUS.ACTIVE. -/
def f_SESS_STATUS_ACTIVE : Fld := ⟨0, 13⟩
/-- SESS_STATUS.PINNED. -/
def f_SESS_STATUS_PINNED : Fld := ⟨16, 13⟩
/-- SESS_STATUS.FREE. -/
def f_SESS_STATUS_FREE : Fld := ⟨32, 13⟩
/-- SESS_STATUS.STALE. -/
def f_SESS_STATUS_STALE : Fld := ⟨48, 13⟩
/-- RET_CFG.FRAC. -/
def f_RET_CFG_FRAC : Fld := ⟨0, 8⟩
/-- RET_CFG.SINK. -/
def f_RET_CFG_SINK : Fld := ⟨8, 4⟩
/-- RET_CFG.WIN. -/
def f_RET_CFG_WIN : Fld := ⟨12, 8⟩
/-- RET_CFG.RET_MIN. -/
def f_RET_CFG_RET_MIN : Fld := ⟨20, 16⟩
/-- RET_CFG.PX. -/
def f_RET_CFG_PX : Fld := ⟨36, 8⟩
/-- TIER_CFG.FREE_LOW. -/
def f_TIER_CFG_FREE_LOW : Fld := ⟨0, 10⟩
/-- TIER_CFG.FREE_HIGH. -/
def f_TIER_CFG_FREE_HIGH : Fld := ⟨10, 10⟩
/-- TIER_CFG.PIN_LIMIT. -/
def f_TIER_CFG_PIN_LIMIT : Fld := ⟨20, 10⟩
/-- TIER_CFG.LP_LOW. -/
def f_TIER_CFG_LP_LOW : Fld := ⟨30, 20⟩
/-- TIER_CFG.COMP_EN. -/
def f_TIER_CFG_COMP_EN : Fld := ⟨50, 1⟩
/-- COMP_BASE.BASE. -/
def f_COMP_BASE_BASE : Fld := ⟨12, 52⟩
/-- COMP_FRAMES.FRAMES. -/
def f_COMP_FRAMES_FRAMES : Fld := ⟨0, 24⟩
/-- PAGE_MOVES.DEMOTED. -/
def f_PAGE_MOVES_DEMOTED : Fld := ⟨0, 32⟩
/-- PAGE_MOVES.PROMOTED. -/
def f_PAGE_MOVES_PROMOTED : Fld := ⟨32, 32⟩
/-- PAGE_LOSS.DROPPED. -/
def f_PAGE_LOSS_DROPPED : Fld := ⟨0, 32⟩
/-- PAGE_LOSS.MISSES. -/
def f_PAGE_LOSS_MISSES : Fld := ⟨32, 32⟩
/-- SYNC_OBJ.VALUE. -/
def f_SYNC_OBJ_VALUE : Fld := ⟨0, 64⟩
/-- SYNC_SIGNAL.OBJ. -/
def f_SYNC_SIGNAL_OBJ : Fld := ⟨0, 14⟩
/-- SYNC_SIGNAL.N. -/
def f_SYNC_SIGNAL_N : Fld := ⟨16, 48⟩
/-- LSYNC_OBJ.VALUE. -/
def f_LSYNC_OBJ_VALUE : Fld := ⟨0, 64⟩
/-- LSYNC_SIGNAL.OBJ. -/
def f_LSYNC_SIGNAL_OBJ : Fld := ⟨0, 12⟩
/-- LSYNC_SIGNAL.N. -/
def f_LSYNC_SIGNAL_N : Fld := ⟨16, 48⟩
/-- DISP_CTRL.EN. -/
def f_DISP_CTRL_EN : Fld := ⟨0, 1⟩
/-- DISP_CTRL.LQFILL. -/
def f_DISP_CTRL_LQFILL : Fld := ⟨1, 3⟩
/-- DISP_CTRL.PEVERY. -/
def f_DISP_CTRL_PEVERY : Fld := ⟨8, 4⟩
/-- DISP_STATUS.INST. -/
def f_DISP_STATUS_INST : Fld := ⟨0, 17⟩
/-- DISP_STATUS.GRAPHS. -/
def f_DISP_STATUS_GRAPHS : Fld := ⟨24, 5⟩
/-- DISP_STATUS.LAUNCHES. -/
def f_DISP_STATUS_LAUNCHES : Fld := ⟨32, 32⟩
/-- DISP_SAT.THRESH. -/
def f_DISP_SAT_THRESH : Fld := ⟨0, 16⟩
/-- DISP_SAT.REFUSED. -/
def f_DISP_SAT_REFUSED : Fld := ⟨32, 32⟩
/-- DISP_DOLD.LIMIT. -/
def f_DISP_DOLD_LIMIT : Fld := ⟨0, 16⟩
/-- DISP_DOLD.FIRED. -/
def f_DISP_DOLD_FIRED : Fld := ⟨32, 32⟩
/-- DISP_LANE.VALID. -/
def f_DISP_LANE_VALID : Fld := ⟨0, 1⟩
/-- DISP_LANE.HALTED. -/
def f_DISP_LANE_HALTED : Fld := ⟨1, 1⟩
/-- DISP_LANE.DOLD. -/
def f_DISP_LANE_DOLD : Fld := ⟨2, 1⟩
/-- DISP_LANE.CLASS. -/
def f_DISP_LANE_CLASS : Fld := ⟨4, 2⟩
/-- DISP_LANE.PART. -/
def f_DISP_LANE_PART : Fld := ⟨8, 5⟩
/-- DISP_LANE.READY. -/
def f_DISP_LANE_READY : Fld := ⟨16, 16⟩
/-- DISP_LANE.WAITING. -/
def f_DISP_LANE_WAITING : Fld := ⟨32, 16⟩
/-- DISP_LANE.IDLE_MS. -/
def f_DISP_LANE_IDLE_MS : Fld := ⟨48, 16⟩
/-- VC_CTRL.REFBAND. -/
def f_VC_CTRL_REFBAND : Fld := ⟨0, 1⟩
/-- VC_CTRL.RETRAIN. -/
def f_VC_CTRL_RETRAIN : Fld := ⟨1, 1⟩
/-- VC_CTRL.VTHR. -/
def f_VC_CTRL_VTHR : Fld := ⟨8, 8⟩
/-- VC_STATUS.WIDTH. -/
def f_VC_STATUS_WIDTH : Fld := ⟨0, 2⟩
/-- VC_STATUS.RETRAINING. -/
def f_VC_STATUS_RETRAINING : Fld := ⟨2, 1⟩
/-- VC_STATUS.DSPARES. -/
def f_VC_STATUS_DSPARES : Fld := ⟨3, 7⟩
/-- VC_STATUS.CSPARES. -/
def f_VC_STATUS_CSPARES : Fld := ⟨10, 5⟩
/-- VC_STATUS.NW. -/
def f_VC_STATUS_NW : Fld := ⟨15, 5⟩
/-- VC_STATUS.NN. -/
def f_VC_STATUS_NN : Fld := ⟨20, 5⟩
/-- VC_STATUS.SYMERR. -/
def f_VC_STATUS_SYMERR : Fld := ⟨32, 16⟩
/-- VC_STATUS.WORSTLANE. -/
def f_VC_STATUS_WORSTLANE : Fld := ⟨48, 8⟩
/-- VC_FAULT.VALID. -/
def f_VC_FAULT_VALID : Fld := ⟨0, 1⟩
/-- VC_FAULT.KIND. -/
def f_VC_FAULT_KIND : Fld := ⟨1, 4⟩
/-- VC_FAULT.CYCLE. -/
def f_VC_FAULT_CYCLE : Fld := ⟨8, 24⟩
/-- VC_FAULT.GRP. -/
def f_VC_FAULT_GRP : Fld := ⟨32, 10⟩
/-- VC_FAULT.CIDX. -/
def f_VC_FAULT_CIDX : Fld := ⟨42, 6⟩
/-- VC_FAULT.SEL. -/
def f_VC_FAULT_SEL : Fld := ⟨48, 8⟩
/-- VC_RGRPA.LEN. -/
def f_VC_RGRPA_LEN : Fld := ⟨0, 16⟩
/-- VC_RGRPA.CNT. -/
def f_VC_RGRPA_CNT : Fld := ⟨16, 7⟩
/-- VC_RGRPA.FMT. -/
def f_VC_RGRPA_FMT : Fld := ⟨24, 2⟩
/-- VC_RGRPA.BBASE. -/
def f_VC_RGRPA_BBASE : Fld := ⟨32, 11⟩
/-- VC_RGRPA.VALID. -/
def f_VC_RGRPA_VALID : Fld := ⟨63, 1⟩
/-- VC_RGRPB.RADDR. -/
def f_VC_RGRPB_RADDR : Fld := ⟨0, 30⟩
/-- LP_CTRL.RTINT. -/
def f_LP_CTRL_RTINT : Fld := ⟨0, 8⟩
/-- LP_CTRL.RETRAIN. -/
def f_LP_CTRL_RETRAIN : Fld := ⟨8, 8⟩
/-- LP_STATUS.ACTIVE. -/
def f_LP_STATUS_ACTIVE : Fld := ⟨0, 8⟩
/-- LP_STATUS.FAILED. -/
def f_LP_STATUS_FAILED : Fld := ⟨8, 8⟩
/-- LP_STATUS.EXTBAND. -/
def f_LP_STATUS_EXTBAND : Fld := ⟨16, 1⟩
/-- LP_STATUS.SEGS. -/
def f_LP_STATUS_SEGS : Fld := ⟨32, 32⟩
/-- LP_CHAN.STATE. -/
def f_LP_CHAN_STATE : Fld := ⟨0, 2⟩
/-- LP_CHAN.MR4. -/
def f_LP_CHAN_MR4 : Fld := ⟨2, 5⟩
/-- LP_CHAN.CORR. -/
def f_LP_CHAN_CORR : Fld := ⟨32, 16⟩
/-- LP_CHAN.SINCE. -/
def f_LP_CHAN_SINCE : Fld := ⟨48, 16⟩
/-- ERR_STATUS.PV. -/
def f_ERR_STATUS_PV : Fld := ⟨0, 1⟩
/-- ERR_STATUS.SV. -/
def f_ERR_STATUS_SV : Fld := ⟨1, 1⟩
/-- ERR_STATUS.SQUALL. -/
def f_ERR_STATUS_SQUALL : Fld := ⟨2, 1⟩
/-- ERR_STATUS.STOPPED. -/
def f_ERR_STATUS_STOPPED : Fld := ⟨3, 1⟩
/-- ERR_STATUS.INSERVICE. -/
def f_ERR_STATUS_INSERVICE : Fld := ⟨16, 48⟩
/-- ERR_PRIMARY.VALID. -/
def f_ERR_PRIMARY_VALID : Fld := ⟨0, 1⟩
/-- ERR_PRIMARY.CLASS. -/
def f_ERR_PRIMARY_CLASS : Fld := ⟨1, 2⟩
/-- ERR_PRIMARY.UNIT. -/
def f_ERR_PRIMARY_UNIT : Fld := ⟨3, 6⟩
/-- ERR_PRIMARY.KIND. -/
def f_ERR_PRIMARY_KIND : Fld := ⟨9, 6⟩
/-- ERR_PRIMARY.SEL. -/
def f_ERR_PRIMARY_SEL : Fld := ⟨16, 8⟩
/-- ERR_PRIMARY.INFO. -/
def f_ERR_PRIMARY_INFO : Fld := ⟨24, 40⟩
/-- ERR_OVERFLOW.COUNT. -/
def f_ERR_OVERFLOW_COUNT : Fld := ⟨0, 32⟩
/-- ERR_OVERFLOW.ROUND. -/
def f_ERR_OVERFLOW_ROUND : Fld := ⟨32, 16⟩
/-- ERR_OVERFLOW.LAST. -/
def f_ERR_OVERFLOW_LAST : Fld := ⟨48, 16⟩
/-- ERR_ESCALATE.SENT. -/
def f_ERR_ESCALATE_SENT : Fld := ⟨0, 16⟩
/-- ERR_ESCALATE.RECEIVED. -/
def f_ERR_ESCALATE_RECEIVED : Fld := ⟨16, 16⟩
/-- ERR_ESCALATE.LAST. -/
def f_ERR_ESCALATE_LAST : Fld := ⟨32, 6⟩
/-- ERR_ESCALATE.STOP. -/
def f_ERR_ESCALATE_STOP : Fld := ⟨38, 1⟩
/-- ECC_REGION.VALID. -/
def f_ECC_REGION_VALID : Fld := ⟨0, 1⟩
/-- ECC_REGION.CODE. -/
def f_ECC_REGION_CODE : Fld := ⟨1, 1⟩
/-- ECC_REGION.NOSCRUB. -/
def f_ECC_REGION_NOSCRUB : Fld := ⟨2, 1⟩
/-- ECC_REGION.BASE. -/
def f_ECC_REGION_BASE : Fld := ⟨4, 22⟩
/-- ECC_REGION.LIMIT. -/
def f_ECC_REGION_LIMIT : Fld := ⟨26, 22⟩
/-- ECC_FLIPMASK.PAT0. -/
def f_ECC_FLIPMASK_PAT0 : Fld := ⟨0, 16⟩
/-- ECC_FLIPMASK.SYM0. -/
def f_ECC_FLIPMASK_SYM0 : Fld := ⟨16, 6⟩
/-- ECC_FLIPMASK.EN0. -/
def f_ECC_FLIPMASK_EN0 : Fld := ⟨22, 1⟩
/-- ECC_FLIPMASK.PAT1. -/
def f_ECC_FLIPMASK_PAT1 : Fld := ⟨24, 16⟩
/-- ECC_FLIPMASK.SYM1. -/
def f_ECC_FLIPMASK_SYM1 : Fld := ⟨40, 6⟩
/-- ECC_FLIPMASK.EN1. -/
def f_ECC_FLIPMASK_EN1 : Fld := ⟨46, 1⟩
/-- ECC_FLIPMASK.TARGET. -/
def f_ECC_FLIPMASK_TARGET : Fld := ⟨48, 2⟩
/-- ECC_FLIPMASK.ARM. -/
def f_ECC_FLIPMASK_ARM : Fld := ⟨50, 1⟩
/-- ECC_FLIPMASK.GRP. -/
def f_ECC_FLIPMASK_GRP : Fld := ⟨51, 5⟩
/-- ECC_MERGE_CTRL.EN. -/
def f_ECC_MERGE_CTRL_EN : Fld := ⟨0, 1⟩
/-- ECC_MERGE_CTRL.TIMEOUT. -/
def f_ECC_MERGE_CTRL_TIMEOUT : Fld := ⟨8, 8⟩
/-- ECC_MERGE_CTRL.RMW. -/
def f_ECC_MERGE_CTRL_RMW : Fld := ⟨16, 16⟩
/-- ECC_MERGE_CTRL.WHOLE. -/
def f_ECC_MERGE_CTRL_WHOLE : Fld := ⟨32, 16⟩
/-- ECC_MERGE_CTRL.DISCARD. -/
def f_ECC_MERGE_CTRL_DISCARD : Fld := ⟨48, 16⟩
/-- ECC_COUNT.CORR. -/
def f_ECC_COUNT_CORR : Fld := ⟨0, 32⟩
/-- ECC_COUNT.UNCORR. -/
def f_ECC_COUNT_UNCORR : Fld := ⟨32, 32⟩
/-- DRIZZLE_CTRL.EN. -/
def f_DRIZZLE_CTRL_EN : Fld := ⟨0, 1⟩
/-- DRIZZLE_CTRL.HOURS. -/
def f_DRIZZLE_CTRL_HOURS : Fld := ⟨1, 8⟩
/-- DRIZZLE_CTRL.LATE. -/
def f_DRIZZLE_CTRL_LATE : Fld := ⟨9, 1⟩
/-- DRIZZLE_CTRL.PASSES. -/
def f_DRIZZLE_CTRL_PASSES : Fld := ⟨32, 32⟩
/-- RETIRE.VALID. -/
def f_RETIRE_VALID : Fld := ⟨0, 1⟩
/-- RETIRE.KIND. -/
def f_RETIRE_KIND : Fld := ⟨1, 2⟩
/-- RETIRE.CH. -/
def f_RETIRE_CH : Fld := ⟨3, 3⟩
/-- RETIRE.ADDR. -/
def f_RETIRE_ADDR : Fld := ⟨8, 22⟩
/-- HUB_CMD_DOORBELL.GO. -/
def f_HUB_CMD_DOORBELL_GO : Fld := ⟨0, 1⟩
/-- HUB_CMD_STATUS.BUSY. -/
def f_HUB_CMD_STATUS_BUSY : Fld := ⟨0, 1⟩
/-- HUB_CMD_STATUS.READY. -/
def f_HUB_CMD_STATUS_READY : Fld := ⟨1, 1⟩
/-- HUB_CMD_STATUS.SEQ. -/
def f_HUB_CMD_STATUS_SEQ : Fld := ⟨8, 8⟩
/-- HUB_CMD_STATUS.OPCODE. -/
def f_HUB_CMD_STATUS_OPCODE : Fld := ⟨16, 16⟩
/-- HUB_CMD_STATUS.LAST_STATUS. -/
def f_HUB_CMD_STATUS_LAST_STATUS : Fld := ⟨32, 8⟩
/-- HUB_CMD_STATUS.REFUSED. -/
def f_HUB_CMD_STATUS_REFUSED : Fld := ⟨48, 16⟩
/-- EVT_CTRL.EN. -/
def f_EVT_CTRL_EN : Fld := ⟨0, 1⟩
/-- EVT_CTRL.MSI_EN. -/
def f_EVT_CTRL_MSI_EN : Fld := ⟨1, 1⟩
/-- EVT_CTRL.K. -/
def f_EVT_CTRL_K : Fld := ⟨8, 4⟩
/-- EVT_CTRL.HOLDOFF. -/
def f_EVT_CTRL_HOLDOFF : Fld := ⟨12, 12⟩
/-- EVT_CTRL.BASE. -/
def f_EVT_CTRL_BASE : Fld := ⟨24, 40⟩
/-- EVT_MSI_ADDR.ADDR. -/
def f_EVT_MSI_ADDR_ADDR : Fld := ⟨2, 45⟩
/-- EVT_MSI_ADDR.DATA. -/
def f_EVT_MSI_ADDR_DATA : Fld := ⟨48, 16⟩
/-- EVT_STATUS.WRITTEN. -/
def f_EVT_STATUS_WRITTEN : Fld := ⟨0, 32⟩
/-- EVT_STATUS.DROPPED. -/
def f_EVT_STATUS_DROPPED : Fld := ⟨32, 16⟩
/-- EVT_STATUS.HELD. -/
def f_EVT_STATUS_HELD : Fld := ⟨48, 1⟩
/-- CAMNER_STATUS.STATE. -/
def f_CAMNER_STATUS_STATE : Fld := ⟨0, 2⟩
/-- CAMNER_STATUS.WIDTH. -/
def f_CAMNER_STATUS_WIDTH : Fld := ⟨2, 1⟩
/-- CAMNER_STATUS.UPPER. -/
def f_CAMNER_STATUS_UPPER : Fld := ⟨3, 1⟩
/-- CAMNER_STATUS.BADMSG. -/
def f_CAMNER_STATUS_BADMSG : Fld := ⟨8, 8⟩
/-- CAMNER_STATUS.REPLAYS. -/
def f_CAMNER_STATUS_REPLAYS : Fld := ⟨16, 16⟩
/-- CAMNER_STATUS.RETRAINS. -/
def f_CAMNER_STATUS_RETRAINS : Fld := ⟨32, 8⟩
/-- CAMNER_STATUS.FEC_CORR. -/
def f_CAMNER_STATUS_FEC_CORR : Fld := ⟨40, 24⟩
/-- TWIN_CTRL.MODE. -/
def f_TWIN_CTRL_MODE : Fld := ⟨0, 2⟩
/-- TWIN_CTRL.HB_MISS. -/
def f_TWIN_CTRL_HB_MISS : Fld := ⟨4, 8⟩
/-- TWIN_STATUS.LINK. -/
def f_TWIN_STATUS_LINK : Fld := ⟨0, 2⟩
/-- TWIN_STATUS.PAIRED. -/
def f_TWIN_STATUS_PAIRED : Fld := ⟨2, 1⟩
/-- TWIN_STATUS.PEER_MODE. -/
def f_TWIN_STATUS_PEER_MODE : Fld := ⟨3, 2⟩
/-- TWIN_STATUS.LOST. -/
def f_TWIN_STATUS_LOST : Fld := ⟨5, 1⟩
/-- TWIN_STATUS.FENCED. -/
def f_TWIN_STATUS_FENCED : Fld := ⟨6, 1⟩
/-- TWIN_STATUS.PEER_DETACHED. -/
def f_TWIN_STATUS_PEER_DETACHED : Fld := ⟨7, 1⟩
/-- TWIN_STATUS.DETACHED. -/
def f_TWIN_STATUS_DETACHED : Fld := ⟨8, 1⟩
/-- TWIN_STATUS.PEER_FLEVEL. -/
def f_TWIN_STATUS_PEER_FLEVEL : Fld := ⟨16, 8⟩
/-- TWIN_STATUS.BADMSG. -/
def f_TWIN_STATUS_BADMSG : Fld := ⟨24, 8⟩
/-- TWIN_STATUS.HB_RX. -/
def f_TWIN_STATUS_HB_RX : Fld := ⟨32, 32⟩
/-- TWIN_MIRROR.INSTEP. -/
def f_TWIN_MIRROR_INSTEP : Fld := ⟨0, 13⟩
/-- TWIN_MIRROR.HELD. -/
def f_TWIN_MIRROR_HELD : Fld := ⟨16, 13⟩
/-- TWIN_MIRROR.DROPPED. -/
def f_TWIN_MIRROR_DROPPED : Fld := ⟨32, 16⟩
/-- TWIN_MIRROR.UNMAPPED. -/
def f_TWIN_MIRROR_UNMAPPED : Fld := ⟨48, 16⟩
/-- TWIN_GMAP.PEER. -/
def f_TWIN_GMAP_PEER : Fld := ⟨0, 16⟩
/-- TWIN_GMAP.LOCAL. -/
def f_TWIN_GMAP_LOCAL : Fld := ⟨16, 16⟩
/-- TWIN_GMAP.VALID. -/
def f_TWIN_GMAP_VALID : Fld := ⟨63, 1⟩
/-- BRING_STEP.STEP. -/
def f_BRING_STEP_STEP : Fld := ⟨0, 8⟩
/-- BRING_STEP.ACCEPT. -/
def f_BRING_STEP_ACCEPT : Fld := ⟨8, 1⟩
/-- BRING_STEP.SRC. -/
def f_BRING_STEP_SRC : Fld := ⟨9, 1⟩
/-- BRING_STEP.ARG. -/
def f_BRING_STEP_ARG : Fld := ⟨16, 48⟩
/-- BRING_STATUS.STEP. -/
def f_BRING_STATUS_STEP : Fld := ⟨0, 8⟩
/-- BRING_STATUS.STATE. -/
def f_BRING_STATUS_STATE : Fld := ⟨8, 2⟩
/-- BRING_STATUS.FR. -/
def f_BRING_STATUS_FR : Fld := ⟨10, 2⟩
/-- BRING_STATUS.CODE. -/
def f_BRING_STATUS_CODE : Fld := ⟨16, 8⟩
/-- BRING_STATUS.DIE. -/
def f_BRING_STATUS_DIE : Fld := ⟨24, 8⟩
/-- BRING_STATUS.UNIT. -/
def f_BRING_STATUS_UNIT : Fld := ⟨32, 8⟩
/-- BRING_STATUS.ELAPSED. -/
def f_BRING_STATUS_ELAPSED : Fld := ⟨48, 16⟩
/-- RST_CAUSE.CAUSE. -/
def f_RST_CAUSE_CAUSE : Fld := ⟨0, 4⟩
/-- RST_CAUSE.LEVEL. -/
def f_RST_CAUSE_LEVEL : Fld := ⟨4, 2⟩
/-- RST_CAUSE.DIE. -/
def f_RST_CAUSE_DIE : Fld := ⟨8, 8⟩
/-- RST_CAUSE.DELAYED. -/
def f_RST_CAUSE_DELAYED : Fld := ⟨16, 1⟩
/-- RST_CAUSE.LATCHED. -/
def f_RST_CAUSE_LATCHED : Fld := ⟨17, 1⟩
/-- RST_CTRL.WDOG_EN. -/
def f_RST_CTRL_WDOG_EN : Fld := ⟨0, 1⟩
/-- RST_CTRL.KICK. -/
def f_RST_CTRL_KICK : Fld := ⟨1, 1⟩
/-- RST_CTRL.WDOG_MS. -/
def f_RST_CTRL_WDOG_MS : Fld := ⟨8, 16⟩
/-- RST_GAP.COUNT. -/
def f_RST_GAP_COUNT : Fld := ⟨0, 16⟩
/-- FUSE_PINMAP.PIN0. -/
def f_FUSE_PINMAP_PIN0 : Fld := ⟨0, 26⟩
/-- TOPO_EXPECTED.ADDR. -/
def f_TOPO_EXPECTED_ADDR : Fld := ⟨0, 47⟩
/-- TOPO_EXPECTED.LEN. -/
def f_TOPO_EXPECTED_LEN : Fld := ⟨48, 12⟩
/-- THERM_RISE_LIMIT.CEIL_LOGIC. -/
def f_THERM_RISE_LIMIT_CEIL_LOGIC : Fld := ⟨0, 8⟩
/-- THERM_RISE_LIMIT.CEIL_DRAM. -/
def f_THERM_RISE_LIMIT_CEIL_DRAM : Fld := ⟨8, 8⟩
/-- THERM_RISE_LIMIT.CEIL_EXT. -/
def f_THERM_RISE_LIMIT_CEIL_EXT : Fld := ⟨16, 8⟩
/-- THERM_RISE_LIMIT.HYST. -/
def f_THERM_RISE_LIMIT_HYST : Fld := ⟨24, 4⟩
/-- THERM_RISE_LIMIT.EXT_MARGIN. -/
def f_THERM_RISE_LIMIT_EXT_MARGIN : Fld := ⟨28, 4⟩
/-- THERM_RISE_LIMIT.EXT_EXIT. -/
def f_THERM_RISE_LIMIT_EXT_EXIT : Fld := ⟨32, 8⟩
/-- THERM_RISE_LIMIT.EXT_EN. -/
def f_THERM_RISE_LIMIT_EXT_EN : Fld := ⟨40, 1⟩
/-- THERM_LOOKAHEAD.L1. -/
def f_THERM_LOOKAHEAD_L1 : Fld := ⟨0, 8⟩
/-- THERM_LOOKAHEAD.L2. -/
def f_THERM_LOOKAHEAD_L2 : Fld := ⟨8, 8⟩
/-- THERM_LOOKAHEAD.UP1. -/
def f_THERM_LOOKAHEAD_UP1 : Fld := ⟨16, 8⟩
/-- THERM_LOOKAHEAD.UP2. -/
def f_THERM_LOOKAHEAD_UP2 : Fld := ⟨24, 8⟩
/-- THERM_LOOKAHEAD.DOWN. -/
def f_THERM_LOOKAHEAD_DOWN : Fld := ⟨32, 8⟩
/-- THERM_LOOKAHEAD.DUTY_MAX. -/
def f_THERM_LOOKAHEAD_DUTY_MAX : Fld := ⟨40, 8⟩
/-- FROST_CTRL.EN. -/
def f_FROST_CTRL_EN : Fld := ⟨0, 1⟩
/-- FROST_CTRL.MODE. -/
def f_FROST_CTRL_MODE : Fld := ⟨1, 1⟩
/-- FROST_CTRL.LEVEL. -/
def f_FROST_CTRL_LEVEL : Fld := ⟨2, 2⟩
/-- FROST_CTRL.MAXLEVEL. -/
def f_FROST_CTRL_MAXLEVEL : Fld := ⟨4, 2⟩
/-- FROST_CTRL.EXIT. -/
def f_FROST_CTRL_EXIT : Fld := ⟨8, 4⟩
/-- PAUSE_REQ.TDUTY. -/
def f_PAUSE_REQ_TDUTY : Fld := ⟨0, 8⟩
/-- PAUSE_REQ.PDUTY. -/
def f_PAUSE_REQ_PDUTY : Fld := ⟨8, 8⟩
/-- PAUSE_REQ.HOT. -/
def f_PAUSE_REQ_HOT : Fld := ⟨16, 8⟩
/-- PAUSE_REQ.T1. -/
def f_PAUSE_REQ_T1 : Fld := ⟨24, 1⟩
/-- PAUSE_REQ.T2. -/
def f_PAUSE_REQ_T2 : Fld := ⟨25, 1⟩
/-- PAUSE_REQ.S16. -/
def f_PAUSE_REQ_S16 : Fld := ⟨32, 24⟩
/-- PWR_CAP.CAP. -/
def f_PWR_CAP_CAP : Fld := ⟨0, 7⟩
/-- PWR_CAP.MEAS. -/
def f_PWR_CAP_MEAS : Fld := ⟨8, 16⟩
/-- PWR_CAP.OVER. -/
def f_PWR_CAP_OVER : Fld := ⟨24, 6⟩
/-- MARGIN.VOFFSET. -/
def f_MARGIN_VOFFSET : Fld := ⟨0, 6⟩
/-- MARGIN.VMAXSTEP. -/
def f_MARGIN_VMAXSTEP : Fld := ⟨8, 6⟩
/-- MARGIN.WORST. -/
def f_MARGIN_WORST : Fld := ⟨16, 4⟩
/-- MARGIN.WORSTMARGIN. -/
def f_MARGIN_WORSTMARGIN : Fld := ⟨32, 16⟩
/-- MARGIN.WARN. -/
def f_MARGIN_WARN : Fld := ⟨48, 8⟩
/-- THERM_EST.EST. -/
def f_THERM_EST_EST : Fld := ⟨0, 12⟩
/-- THERM_EST.MEAS. -/
def f_THERM_EST_MEAS : Fld := ⟨12, 12⟩
/-- THERM_EST.DISTRUST. -/
def f_THERM_EST_DISTRUST : Fld := ⟨24, 1⟩
/-- THERM_EST.K. -/
def f_THERM_EST_K : Fld := ⟨32, 16⟩
/-- SENSOR.READ. -/
def f_SENSOR_READ : Fld := ⟨0, 12⟩
/-- SENSOR.SUSPECT. -/
def f_SENSOR_SUSPECT : Fld := ⟨12, 1⟩
/-- SENSOR.FAILED. -/
def f_SENSOR_FAILED : Fld := ⟨13, 1⟩
/-- SENSOR.DIFF. -/
def f_SENSOR_DIFF : Fld := ⟨16, 8⟩
/-- SENSOR.PREV4. -/
def f_SENSOR_PREV4 : Fld := ⟨32, 12⟩
/-- RO_MON.COUNT. -/
def f_RO_MON_COUNT : Fld := ⟨0, 20⟩
/-- RO_MON.FRESH. -/
def f_RO_MON_FRESH : Fld := ⟨20, 20⟩
/-- RO_MON.VSTRIM. -/
def f_RO_MON_VSTRIM : Fld := ⟨40, 5⟩
/-- HK_ROUND.ROUND. -/
def f_HK_ROUND_ROUND : Fld := ⟨0, 32⟩
/-- AIR.INLET. -/
def f_AIR_INLET : Fld := ⟨0, 12⟩
/-- AIR.STALE. -/
def f_AIR_STALE : Fld := ⟨12, 1⟩
/-- AIR.DEMAND. -/
def f_AIR_DEMAND : Fld := ⟨16, 7⟩
/-- AIR.TARGET. -/
def f_AIR_TARGET : Fld := ⟨24, 8⟩
/-- AIR.DEMAND_MIN. -/
def f_AIR_DEMAND_MIN : Fld := ⟨32, 7⟩
/-- THERM_POLICY.ROTATE. -/
def f_THERM_POLICY_ROTATE : Fld := ⟨0, 24⟩
/-- PKG_POWER.INPUT. -/
def f_PKG_POWER_INPUT : Fld := ⟨0, 16⟩
/-- PKG_POWER.LIMIT. -/
def f_PKG_POWER_LIMIT : Fld := ⟨16, 16⟩
/-- PKG_POWER.DUTY. -/
def f_PKG_POWER_DUTY : Fld := ⟨32, 8⟩
/-- SB_ID.VERSION. -/
def f_SB_ID_VERSION : Fld := ⟨0, 8⟩
/-- SB_ID.GRADE. -/
def f_SB_ID_GRADE : Fld := ⟨8, 8⟩
/-- SB_ID.FLEVEL. -/
def f_SB_ID_FLEVEL : Fld := ⟨16, 8⟩
/-- SB_ID.SERIAL. -/
def f_SB_ID_SERIAL : Fld := ⟨24, 40⟩
/-- SB_STATUS.BSTEP. -/
def f_SB_STATUS_BSTEP : Fld := ⟨0, 8⟩
/-- SB_STATUS.BSTATE. -/
def f_SB_STATUS_BSTATE : Fld := ⟨8, 2⟩
/-- SB_STATUS.FR. -/
def f_SB_STATUS_FR : Fld := ⟨10, 2⟩
/-- SB_STATUS.READY. -/
def f_SB_STATUS_READY : Fld := ⟨12, 1⟩
/-- SB_STATUS.PRESENT. -/
def f_SB_STATUS_PRESENT : Fld := ⟨13, 1⟩
/-- SB_STATUS.ALIVE. -/
def f_SB_STATUS_ALIVE : Fld := ⟨14, 1⟩
/-- SB_STATUS.TWIN_MODE. -/
def f_SB_STATUS_TWIN_MODE : Fld := ⟨15, 2⟩
/-- SB_STATUS.BADXFER. -/
def f_SB_STATUS_BADXFER : Fld := ⟨24, 8⟩
/-- SB_STATUS.ROUND. -/
def f_SB_STATUS_ROUND : Fld := ⟨32, 32⟩
/-- SB_INLET.INLET. -/
def f_SB_INLET_INLET : Fld := ⟨0, 12⟩
/-- SB_INLET.AGE. -/
def f_SB_INLET_AGE : Fld := ⟨16, 8⟩
/-- SB_THERM.DEMAND. -/
def f_SB_THERM_DEMAND : Fld := ⟨0, 8⟩
/-- SB_THERM.TARGET. -/
def f_SB_THERM_TARGET : Fld := ⟨8, 8⟩
/-- SB_THERM.TLOGIC. -/
def f_SB_THERM_TLOGIC : Fld := ⟨16, 12⟩
/-- SB_THERM.TDRAM. -/
def f_SB_THERM_TDRAM : Fld := ⟨28, 12⟩
/-- SB_THERM.HOTDIE. -/
def f_SB_THERM_HOTDIE : Fld := ⟨40, 8⟩
/-- SB_THERM.T1. -/
def f_SB_THERM_T1 : Fld := ⟨48, 1⟩
/-- SB_THERM.T2. -/
def f_SB_THERM_T2 : Fld := ⟨49, 1⟩
/-- SB_THERM.FROST. -/
def f_SB_THERM_FROST : Fld := ⟨50, 1⟩
/-- SB_THERM.EXTBAND. -/
def f_SB_THERM_EXTBAND : Fld := ⟨51, 1⟩
/-- SB_POWER.VIN. -/
def f_SB_POWER_VIN : Fld := ⟨0, 16⟩
/-- SB_POWER.IIN. -/
def f_SB_POWER_IIN : Fld := ⟨16, 16⟩
/-- SB_POWER.PIN. -/
def f_SB_POWER_PIN : Fld := ⟨32, 16⟩
/-- SB_POWER.LIMIT. -/
def f_SB_POWER_LIMIT : Fld := ⟨48, 16⟩
/-- SB_ALERT.THERM. -/
def f_SB_ALERT_THERM : Fld := ⟨0, 1⟩
/-- SB_ALERT.FROST. -/
def f_SB_ALERT_FROST : Fld := ⟨1, 1⟩
/-- SB_ALERT.SENSOR. -/
def f_SB_ALERT_SENSOR : Fld := ⟨2, 1⟩
/-- SB_ALERT.MARGIN. -/
def f_SB_ALERT_MARGIN : Fld := ⟨3, 1⟩
/-- SB_ALERT.POWER. -/
def f_SB_ALERT_POWER : Fld := ⟨4, 1⟩
/-- SB_ALERT.INLET_STALE. -/
def f_SB_ALERT_INLET_STALE : Fld := ⟨5, 1⟩
/-- SB_ALERT.DEMAND. -/
def f_SB_ALERT_DEMAND : Fld := ⟨6, 1⟩
/-- SB_ALERT.TWIN_LOST. -/
def f_SB_ALERT_TWIN_LOST : Fld := ⟨7, 1⟩
/-- SB_ALERT.TWIN_PRES. -/
def f_SB_ALERT_TWIN_PRES : Fld := ⟨8, 1⟩
/-- SB_ALERT.MASKED. -/
def f_SB_ALERT_MASKED : Fld := ⟨9, 1⟩
/-- SB_ALERT.HALT. -/
def f_SB_ALERT_HALT : Fld := ⟨10, 1⟩
/-- SB_ALERT_EN.EN. -/
def f_SB_ALERT_EN_EN : Fld := ⟨0, 11⟩
/-- SB_INPUT.PRES_MASKED. -/
def f_SB_INPUT_PRES_MASKED : Fld := ⟨0, 1⟩
/-- SB_INPUT.ALIVE_MASKED. -/
def f_SB_INPUT_ALIVE_MASKED : Fld := ⟨1, 1⟩
/-- SB_INPUT.UNMASK_PRES. -/
def f_SB_INPUT_UNMASK_PRES : Fld := ⟨2, 1⟩
/-- SB_INPUT.UNMASK_ALIVE. -/
def f_SB_INPUT_UNMASK_ALIVE : Fld := ⟨3, 1⟩
/-- SB_INPUT.PRES_REARMS. -/
def f_SB_INPUT_PRES_REARMS : Fld := ⟨8, 8⟩
/-- SB_INPUT.ALIVE_REARMS. -/
def f_SB_INPUT_ALIVE_REARMS : Fld := ⟨16, 8⟩
/-- SB_INPUT.PRES_CHANGES. -/
def f_SB_INPUT_PRES_CHANGES : Fld := ⟨32, 16⟩
/-- SB_INPUT.ALIVE_CHANGES. -/
def f_SB_INPUT_ALIVE_CHANGES : Fld := ⟨48, 16⟩
/-- SEC_STATUS.DEBUG_CLOSED. -/
def f_SEC_STATUS_DEBUG_CLOSED : Fld := ⟨0, 1⟩
/-- SEC_STATUS.BOOT_SRC. -/
def f_SEC_STATUS_BOOT_SRC : Fld := ⟨1, 2⟩
/-- SEC_STATUS.COPY_A_OK. -/
def f_SEC_STATUS_COPY_A_OK : Fld := ⟨3, 1⟩
/-- SEC_STATUS.COPY_B_OK. -/
def f_SEC_STATUS_COPY_B_OK : Fld := ⟨4, 1⟩
/-- SEC_STATUS.INSTALL. -/
def f_SEC_STATUS_INSTALL : Fld := ⟨5, 2⟩
/-- SEC_STATUS.HUB_SLOT. -/
def f_SEC_STATUS_HUB_SLOT : Fld := ⟨8, 3⟩
/-- SEC_STATUS.HUB_SVN. -/
def f_SEC_STATUS_HUB_SVN : Fld := ⟨16, 7⟩
/-- SEC_ROLLBACK.HUB. -/
def f_SEC_ROLLBACK_HUB : Fld := ⟨0, 7⟩
/-- SEC_ROLLBACK.DIE. -/
def f_SEC_ROLLBACK_DIE : Fld := ⟨8, 7⟩
/-- SEC_ROLLBACK.GRAPH. -/
def f_SEC_ROLLBACK_GRAPH : Fld := ⟨16, 7⟩
/-- SEC_ROLLBACK.KEYMIN_V. -/
def f_SEC_ROLLBACK_KEYMIN_V : Fld := ⟨24, 2⟩
/-- SEC_ROLLBACK.KEYMIN_O. -/
def f_SEC_ROLLBACK_KEYMIN_O : Fld := ⟨26, 2⟩
/-- SEC_KEYHASH.HASH. -/
def f_SEC_KEYHASH_HASH : Fld := ⟨0, 64⟩

/-! One row for each register, with its access masks (R13) and its reset value. -/

/-- The rows of chapter 03. -/
def regRows03 : List RegRow := [
  -- CORE_CTRL
  ⟨false, 0x10, 16, 1, 0x0, 1, 0x8, 0xF#64, 0x0#64, 0x0#64, 0x0#64, 0x0#64⟩,
  -- CORE_STATUS
  ⟨false, 0x10, 16, 1, 0x8, 1, 0x8, 0x0#64, 0x0#64, 0x0#64, 0x0#64, 0x0#64⟩,
  -- CORE_ENGMAP
  ⟨false, 0x10, 16, 1, 0x10, 1, 0x8, 0x0#64, 0x0#64, 0x0#64, 0x0#64, 0xF#64⟩,
  -- OWN_FAULT
  ⟨false, 0x10, 16, 1, 0x18, 1, 0x8, 0x0#64, 0x1#64, 0x0#64, 0x0#64, 0x0#64⟩,
  -- ENG_STATUS
  ⟨false, 0x10, 16, 1, 0x20, 4, 0x8, 0x0#64, 0x0#64, 0x0#64, 0x0#64, 0x0#64⟩,
  -- STEP_TABLE
  ⟨false, 0x10, 16, 1, 0x800, 256, 0x8, 0xFFFFFFFF7FFFFF01#64, 0x0#64, 0x0#64, 0x0#64, 0x0#64⟩,
  -- HEAD_STORE
  ⟨false, 0x10, 16, 1, 0x10000, 8192, 0x8, 0xFFFFFFFFFFFFFFFF#64, 0x0#64, 0x0#64, 0x0#64, 0x0#64⟩]

/-- The rows of chapter 04. -/
def regRows04 : List RegRow := [
  -- SFU_STATUS
  ⟨false, 0x10, 16, 1, 0x40, 1, 0x8, 0x0#64, 0xE#64, 0x0#64, 0x0#64, 0x0#64⟩,
  -- SFU_TABLE_ID
  ⟨false, 0x10, 16, 1, 0x48, 1, 0x8, 0x0#64, 0x0#64, 0x0#64, 0x0#64, 0x1#64⟩,
  -- EPI_DESC
  ⟨false, 0x10, 16, 1, 0x1008, 255, 0x8, 0x1FFFFFFFFFFFFF#64, 0x0#64, 0x0#64, 0x0#64, 0x0#64⟩]

/-- The rows of chapter 05. -/
def regRows05 : List RegRow := [
  -- FLASH_CTRL
  ⟨false, 0x60, 1, 1, 0x0, 1, 0x8, 0xFFF01FFFF#64, 0x0#64, 0x20000#64, 0x0#64, 0x0#64⟩,
  -- FLASH_THUNDER
  ⟨false, 0x60, 1, 1, 0x8, 1, 0x8, 0xFFF#64, 0x0#64, 0x0#64, 0x0#64, 0x0#64⟩,
  -- FLASH_PAUSE
  ⟨false, 0x60, 1, 1, 0x10, 1, 0x8, 0xFFFFFFFFFFFFFFFF#64, 0x0#64, 0x0#64, 0x0#64, 0x0#64⟩,
  -- FLASH_STATUS
  ⟨false, 0x60, 1, 1, 0x18, 1, 0x8, 0x0#64, 0x3000000#64, 0x0#64, 0x0#64, 0x0#64⟩,
  -- FLASH_LQ
  ⟨false, 0x60, 1, 1, 0x20, 1, 0x8, 0x0#64, 0x0#64, 0xFFFFFFFFFFFFFFFF#64, 0x0#64, 0x0#64⟩,
  -- PORT_CTRL
  ⟨false, 0x38, 4, 1, 0x0, 1, 0x8, 0x3#64, 0x0#64, 0xC#64, 0x0#64, 0x2#64⟩,
  -- PORT_STATUS
  ⟨false, 0x38, 4, 1, 0x8, 1, 0x8, 0x0#64, 0x0#64, 0x0#64, 0x0#64, 0x0#64⟩,
  -- RT_CTRL
  ⟨false, 0x8, 4, 1, 0x0, 1, 0x8, 0x3#64, 0x0#64, 0x0#64, 0x0#64, 0x5#64⟩,
  -- RT_FAULT
  ⟨false, 0x8, 4, 1, 0x8, 1, 0x8, 0x0#64, 0x1#64, 0x0#64, 0x0#64, 0x0#64⟩,
  -- RT_SLOT
  ⟨false, 0x8, 4, 1, 0x8000, 4096, 0x8, 0xFFFFFFFFF#64, 0x0#64, 0x0#64, 0x0#64, 0xFFFFFFFFF#64⟩,
  -- TR_SLOT
  ⟨false, 0x8, 4, 1, 0x10000, 64, 0x8, 0xFFFFFFFFF#64, 0x0#64, 0x0#64, 0x0#64, 0xFFFFFFFFF#64⟩]

/-- The rows of chapter 06. -/
def regRows06 : List RegRow := [
  -- BP_CTRL
  ⟨false, 0x40, 24, 1, 0x0, 16, 0x40, 0xFF0F#64, 0x0#64, 0x10000#64, 0x0#64, 0x4004#64⟩,
  -- BP_STATUS
  ⟨false, 0x40, 24, 1, 0x8, 16, 0x40, 0x0#64, 0x0#64, 0x0#64, 0x0#64, 0x0#64⟩,
  -- BP_FAULT
  ⟨false, 0x40, 24, 1, 0x10, 16, 0x40, 0x0#64, 0x1#64, 0x0#64, 0x0#64, 0x0#64⟩,
  -- BP_REF
  ⟨false, 0x40, 24, 1, 0x18, 16, 0x40, 0x0#64, 0x0#64, 0x0#64, 0x0#64, 0x0#64⟩,
  -- BP_HOST
  ⟨false, 0x40, 24, 1, 0x20, 16, 0x40, 0x0#64, 0x0#64, 0x0#64, 0x0#64, 0x0#64⟩,
  -- LAYER_BUDGET
  ⟨false, 0x40, 6, 4, 0x800, 1, 0x8, 0xFFFFFFFF#64, 0x0#64, 0x0#64, 0x0#64, 0xC350000#64⟩,
  -- LAYER_ACT
  ⟨false, 0x40, 6, 4, 0x808, 1, 0x8, 0x0#64, 0x100000000#64, 0x0#64, 0x0#64, 0x0#64⟩]

/-- The rows of chapter 07. -/
def regRows07 : List RegRow := [
  -- SESS_STATUS
  ⟨true, 0x88, 1, 1, 0x0, 1, 0x8, 0x0#64, 0x0#64, 0x0#64, 0x0#64, 0x100000000000#64⟩,
  -- RET_CFG
  ⟨true, 0x88, 1, 1, 0x8, 1, 0x8, 0xFFFFFFFFFFF#64, 0x0#64, 0x0#64, 0x0#64, 0x40002020110#64⟩,
  -- TIER_CFG
  ⟨true, 0x88, 1, 1, 0x10, 1, 0x8, 0x7FFFFFFFFFFFF#64, 0x0#64, 0x0#64, 0x0#64, 0x401C008010#64⟩,
  -- COMP_BASE
  ⟨true, 0x88, 1, 1, 0x18, 1, 0x8, 0xFFFFFFFFFFFFF000#64, 0x0#64, 0x0#64, 0x0#64, 0x0#64⟩,
  -- COMP_FRAMES
  ⟨true, 0x88, 1, 1, 0x20, 1, 0x8, 0xFFFFFF#64, 0x0#64, 0x0#64, 0x0#64, 0x0#64⟩,
  -- PAGE_MOVES
  ⟨true, 0x88, 1, 1, 0x28, 1, 0x8, 0x0#64, 0x0#64, 0x0#64, 0x0#64, 0x0#64⟩,
  -- PAGE_LOSS
  ⟨true, 0x88, 1, 1, 0x30, 1, 0x8, 0x0#64, 0x0#64, 0x0#64, 0x0#64, 0x0#64⟩,
  -- SESS_ENTRY
  ⟨true, 0x88, 1, 1, 0x100000, 131072, 0x8, 0x0#64, 0x0#64, 0x0#64, 0x0#64, 0x0#64⟩]

/-- The rows of chapter 09. -/
def regRows09 : List RegRow := [
  -- SYNC_OBJ
  ⟨true, 0x83, 1, 1, 0x0, 16384, 0x8, 0xFFFFFFFFFFFFFFFF#64, 0x0#64, 0x0#64, 0x0#64, 0x0#64⟩,
  -- SYNC_SIGNAL
  ⟨true, 0x83, 1, 1, 0x20000, 1, 0x8, 0x0#64, 0x0#64, 0xFFFFFFFFFFFFFFFF#64, 0x0#64, 0x0#64⟩,
  -- LSYNC_OBJ
  ⟨false, 0x0, 1, 1, 0x40000, 4096, 0x8, 0xFFFFFFFFFFFFFFFF#64, 0x0#64, 0x0#64, 0x0#64, 0x0#64⟩,
  -- LSYNC_SIGNAL
  ⟨false, 0x0, 1, 1, 0x48000, 1, 0x8, 0x0#64, 0x0#64, 0xFFFFFFFFFFFFFFFF#64, 0x0#64, 0x0#64⟩,
  -- DISP_CTRL
  ⟨true, 0x84, 1, 1, 0x0, 1, 0x8, 0xF0F#64, 0x0#64, 0x0#64, 0x0#64, 0x804#64⟩,
  -- DISP_STATUS
  ⟨true, 0x84, 1, 1, 0x8, 1, 0x8, 0x0#64, 0x0#64, 0x0#64, 0x0#64, 0x0#64⟩,
  -- DISP_SAT
  ⟨true, 0x84, 1, 1, 0x10, 1, 0x8, 0xFFFF#64, 0x0#64, 0x0#64, 0x0#64, 0x1000#64⟩,
  -- DISP_DOLD
  ⟨true, 0x84, 1, 1, 0x18, 1, 0x8, 0xFFFF#64, 0x0#64, 0x0#64, 0x0#64, 0x64#64⟩,
  -- DISP_LANE
  ⟨true, 0x84, 1, 1, 0x100, 256, 0x8, 0x0#64, 0x4#64, 0x0#64, 0x0#64, 0x0#64⟩]

/-- The rows of chapter 10. -/
def regRows10 : List RegRow := [
  -- VC_CTRL
  ⟨false, 0x20, 16, 1, 0x0, 1, 0x8, 0xFF01#64, 0x0#64, 0x2#64, 0x0#64, 0x800#64⟩,
  -- VC_STATUS
  ⟨false, 0x20, 16, 1, 0x8, 1, 0x8, 0x0#64, 0x0#64, 0x0#64, 0x0#64, 0xC0000#64⟩,
  -- VC_FAULT
  ⟨false, 0x20, 16, 1, 0x10, 1, 0x8, 0x0#64, 0x1#64, 0x0#64, 0x0#64, 0x0#64⟩,
  -- LP_FAULT
  ⟨false, 0x30, 1, 1, 0x10, 1, 0x8, 0x0#64, 0x1#64, 0x0#64, 0x0#64, 0x0#64⟩,
  -- VC_RGRPA
  ⟨false, 0x20, 16, 1, 0x8000, 1024, 0x10, 0x800007FF037FFFFF#64, 0x0#64, 0x0#64, 0x0#64, 0x0#64⟩,
  -- LP_RGRPA
  ⟨false, 0x30, 1, 1, 0x8000, 1024, 0x10, 0x800007FF037FFFFF#64, 0x0#64, 0x0#64, 0x0#64, 0x0#64⟩,
  -- VC_RGRPB
  ⟨false, 0x20, 16, 1, 0x8008, 1024, 0x10, 0x3FFFFFFF#64, 0x0#64, 0x0#64, 0x0#64, 0x0#64⟩,
  -- LP_RGRPB
  ⟨false, 0x30, 1, 1, 0x8008, 1024, 0x10, 0x3FFFFFFF#64, 0x0#64, 0x0#64, 0x0#64, 0x0#64⟩,
  -- LP_CTRL
  ⟨false, 0x30, 1, 1, 0x0, 1, 0x8, 0xFF#64, 0x0#64, 0xFF00#64, 0x0#64, 0x10#64⟩,
  -- LP_STATUS
  ⟨false, 0x30, 1, 1, 0x8, 1, 0x8, 0x0#64, 0x0#64, 0x0#64, 0x0#64, 0x0#64⟩,
  -- LP_CHAN
  ⟨false, 0x30, 1, 1, 0x40, 8, 0x8, 0x0#64, 0x0#64, 0x0#64, 0x0#64, 0x0#64⟩]

/-- The rows of chapter 11. -/
def regRows11 : List RegRow := [
  -- ECC_REGION
  ⟨false, 0x20, 16, 1, 0x1000, 64, 0x8, 0xFFFFFFFFFFF7#64, 0x0#64, 0x0#64, 0x0#64, 0x0#64⟩,
  -- ECC_REGION_LP
  ⟨false, 0x30, 1, 1, 0x1000, 64, 0x8, 0xFFFFFFFFFFF7#64, 0x0#64, 0x0#64, 0x0#64, 0x0#64⟩,
  -- ECC_FLIPMASK
  ⟨false, 0x20, 16, 1, 0x1200, 1, 0x8, 0xFF7FFFFF7FFFFF#64, 0x0#64, 0x0#64, 0x0#64, 0x0#64⟩,
  -- ECC_FLIPMASK_LP
  ⟨false, 0x30, 1, 1, 0x1200, 1, 0x8, 0xFF7FFFFF7FFFFF#64, 0x0#64, 0x0#64, 0x0#64, 0x0#64⟩,
  -- ECC_MERGE_CTRL
  ⟨false, 0x20, 16, 1, 0x1208, 1, 0x8, 0xFF01#64, 0x0#64, 0x0#64, 0x0#64, 0x401#64⟩,
  -- ECC_MERGE_CTRL_LP
  ⟨false, 0x30, 1, 1, 0x1208, 1, 0x8, 0xFF01#64, 0x0#64, 0x0#64, 0x0#64, 0x401#64⟩,
  -- ECC_COUNT
  ⟨false, 0x20, 16, 1, 0x1210, 1, 0x8, 0x0#64, 0x0#64, 0x0#64, 0x0#64, 0x0#64⟩,
  -- ECC_COUNT_LP
  ⟨false, 0x30, 1, 1, 0x1210, 1, 0x8, 0x0#64, 0x0#64, 0x0#64, 0x0#64, 0x0#64⟩,
  -- DRIZZLE_CTRL
  ⟨false, 0x20, 16, 1, 0x1218, 1, 0x8, 0x1FF#64, 0x0#64, 0x0#64, 0x0#64, 0x31#64⟩,
  -- DRIZZLE_CTRL_LP
  ⟨false, 0x30, 1, 1, 0x1218, 1, 0x8, 0x1FF#64, 0x0#64, 0x0#64, 0x0#64, 0x31#64⟩,
  -- RETIRE
  ⟨false, 0x20, 16, 1, 0x1400, 64, 0x8, 0x0#64, 0x0#64, 0x0#64, 0x0#64, 0x0#64⟩,
  -- RETIRE_LP
  ⟨false, 0x30, 1, 1, 0x1400, 64, 0x8, 0x0#64, 0x0#64, 0x0#64, 0x0#64, 0x0#64⟩,
  -- ERR_STATUS_engine
  ⟨false, 0x10, 16, 1, 0x100, 4, 0x40, 0x0#64, 0xFFFFFFFFFFFF000D#64, 0x0#64, 0x0#64, 0x0#64⟩,
  -- ERR_STATUS_core
  ⟨false, 0x10, 16, 1, 0x200, 1, 0x8, 0x0#64, 0xFFFFFFFFFFFF000D#64, 0x0#64, 0x0#64, 0x0#64⟩,
  -- ERR_STATUS_cluster
  ⟨false, 0x8, 4, 1, 0x100, 1, 0x8, 0x0#64, 0xFFFFFFFFFFFF000D#64, 0x0#64, 0x0#64, 0x0#64⟩,
  -- ERR_STATUS_die
  ⟨false, 0x4, 1, 1, 0x0, 1, 0x8, 0x0#64, 0xFFFFFFFFFFFF000D#64, 0x0#64, 0x0#64, 0x0#64⟩,
  -- ERR_STATUS_package
  ⟨true, 0x89, 1, 1, 0x800, 1, 0x8, 0x0#64, 0xFFFFFFFFFFFF000D#64, 0x0#64, 0x0#64, 0x0#64⟩,
  -- ERR_PRIMARY_engine
  ⟨false, 0x10, 16, 1, 0x108, 4, 0x40, 0x0#64, 0x0#64, 0x0#64, 0x0#64, 0x0#64⟩,
  -- ERR_PRIMARY_core
  ⟨false, 0x10, 16, 1, 0x208, 1, 0x8, 0x0#64, 0x0#64, 0x0#64, 0x0#64, 0x0#64⟩,
  -- ERR_PRIMARY_cluster
  ⟨false, 0x8, 4, 1, 0x108, 1, 0x8, 0x0#64, 0x0#64, 0x0#64, 0x0#64, 0x0#64⟩,
  -- ERR_PRIMARY_die
  ⟨false, 0x4, 1, 1, 0x8, 1, 0x8, 0x0#64, 0x0#64, 0x0#64, 0x0#64, 0x0#64⟩,
  -- ERR_PRIMARY_package
  ⟨true, 0x89, 1, 1, 0x808, 1, 0x8, 0x0#64, 0x0#64, 0x0#64, 0x0#64, 0x0#64⟩,
  -- ERR_SECONDARY_engine
  ⟨false, 0x10, 16, 1, 0x110, 4, 0x40, 0x0#64, 0x0#64, 0x0#64, 0x0#64, 0x0#64⟩,
  -- ERR_SECONDARY_core
  ⟨false, 0x10, 16, 1, 0x210, 1, 0x8, 0x0#64, 0x0#64, 0x0#64, 0x0#64, 0x0#64⟩,
  -- ERR_SECONDARY_cluster
  ⟨false, 0x8, 4, 1, 0x110, 1, 0x8, 0x0#64, 0x0#64, 0x0#64, 0x0#64, 0x0#64⟩,
  -- ERR_SECONDARY_die
  ⟨false, 0x4, 1, 1, 0x10, 1, 0x8, 0x0#64, 0x0#64, 0x0#64, 0x0#64, 0x0#64⟩,
  -- ERR_SECONDARY_package
  ⟨true, 0x89, 1, 1, 0x810, 1, 0x8, 0x0#64, 0x0#64, 0x0#64, 0x0#64, 0x0#64⟩,
  -- ERR_OVERFLOW_engine
  ⟨false, 0x10, 16, 1, 0x118, 4, 0x40, 0x0#64, 0x0#64, 0x0#64, 0x0#64, 0x0#64⟩,
  -- ERR_OVERFLOW_core
  ⟨false, 0x10, 16, 1, 0x218, 1, 0x8, 0x0#64, 0x0#64, 0x0#64, 0x0#64, 0x0#64⟩,
  -- ERR_OVERFLOW_cluster
  ⟨false, 0x8, 4, 1, 0x118, 1, 0x8, 0x0#64, 0x0#64, 0x0#64, 0x0#64, 0x0#64⟩,
  -- ERR_OVERFLOW_die
  ⟨false, 0x4, 1, 1, 0x18, 1, 0x8, 0x0#64, 0x0#64, 0x0#64, 0x0#64, 0x0#64⟩,
  -- ERR_OVERFLOW_package
  ⟨true, 0x89, 1, 1, 0x818, 1, 0x8, 0x0#64, 0x0#64, 0x0#64, 0x0#64, 0x0#64⟩,
  -- ERR_ESCALATE_engine
  ⟨false, 0x10, 16, 1, 0x120, 4, 0x40, 0x0#64, 0x0#64, 0x4000000000#64, 0x0#64, 0x0#64⟩,
  -- ERR_ESCALATE_core
  ⟨false, 0x10, 16, 1, 0x220, 1, 0x8, 0x0#64, 0x0#64, 0x4000000000#64, 0x0#64, 0x0#64⟩,
  -- ERR_ESCALATE_cluster
  ⟨false, 0x8, 4, 1, 0x120, 1, 0x8, 0x0#64, 0x0#64, 0x4000000000#64, 0x0#64, 0x0#64⟩,
  -- ERR_ESCALATE_die
  ⟨false, 0x4, 1, 1, 0x20, 1, 0x8, 0x0#64, 0x0#64, 0x4000000000#64, 0x0#64, 0x0#64⟩,
  -- ERR_ESCALATE_package
  ⟨true, 0x89, 1, 1, 0x820, 1, 0x8, 0x0#64, 0x0#64, 0x4000000000#64, 0x0#64, 0x0#64⟩]

/-- The rows of chapter 12. -/
def regRows12 : List RegRow := [
  -- HUB_CMD_DOORBELL
  ⟨true, 0x80, 1, 1, 0x40, 1, 0x8, 0x0#64, 0x0#64, 0xFFFFFFFFFFFFFFFF#64, 0x0#64, 0x0#64⟩,
  -- HUB_CMD_STATUS
  ⟨true, 0x80, 1, 1, 0x48, 1, 0x8, 0x0#64, 0x0#64, 0x0#64, 0x0#64, 0x0#64⟩,
  -- EVT_CTRL
  ⟨true, 0x80, 1, 1, 0x100, 1, 0x8, 0xFFFFFFFFFFFFFF03#64, 0x0#64, 0x0#64, 0x0#64, 0x0#64⟩,
  -- EVT_MSI_ADDR
  ⟨true, 0x80, 1, 1, 0x108, 1, 0x8, 0xFFFF7FFFFFFFFFFC#64, 0x0#64, 0x0#64, 0x0#64, 0x0#64⟩,
  -- EVT_STATUS
  ⟨true, 0x80, 1, 1, 0x118, 1, 0x8, 0x0#64, 0x0#64, 0x0#64, 0x0#64, 0x0#64⟩,
  -- CAMNER_STATUS
  ⟨true, 0x81, 1, 1, 0x0, 1, 0x8, 0x0#64, 0x0#64, 0x0#64, 0x0#64, 0x0#64⟩,
  -- HUB_CMD_SLOT
  ⟨true, 0x80, 1, 1, 0x0, 8, 0x8, 0xFFFFFFFFFFFFFFFF#64, 0x0#64, 0x0#64, 0x0#64, 0x0#64⟩,
  -- HUB_CMD_REPLY
  ⟨true, 0x80, 1, 1, 0x60, 4, 0x8, 0x0#64, 0x0#64, 0x0#64, 0x0#64, 0x0#64⟩]

/-- The rows of chapter 13. -/
def regRows13 : List RegRow := [
  -- TWIN_CTRL
  ⟨true, 0x82, 1, 1, 0x0, 1, 0x8, 0xFF0#64, 0x0#64, 0x0#64, 0x0#64, 0xA0#64⟩,
  -- TWIN_STATUS
  ⟨true, 0x82, 1, 1, 0x8, 1, 0x8, 0x0#64, 0xA0#64, 0x0#64, 0x0#64, 0x0#64⟩,
  -- TWIN_MIRROR
  ⟨true, 0x82, 1, 1, 0x10, 1, 0x8, 0x0#64, 0x0#64, 0x0#64, 0x0#64, 0x0#64⟩,
  -- TWIN_GMAP
  ⟨true, 0x82, 1, 1, 0x100, 16, 0x8, 0x80000000FFFFFFFF#64, 0x0#64, 0x0#64, 0x0#64, 0x0#64⟩]

/-- The rows of chapter 14. -/
def regRows14 : List RegRow := [
  -- BRING_STEP
  ⟨true, 0x87, 1, 1, 0x0, 1, 0x8, 0x0#64, 0x0#64, 0xFFFFFFFFFFFFFFFF#64, 0x0#64, 0x0#64⟩,
  -- BRING_STATUS
  ⟨true, 0x87, 1, 1, 0x8, 1, 0x8, 0x0#64, 0x0#64, 0x0#64, 0x0#64, 0x0#64⟩,
  -- RST_CAUSE
  ⟨true, 0x87, 1, 1, 0x10, 1, 0x8, 0x3FF3F#64, 0x0#64, 0x0#64, 0x3FF3F#64, 0x1#64⟩,
  -- RST_CAUSE_DIE
  ⟨false, 0x1, 1, 1, 0x0, 1, 0x8, 0x3FF3F#64, 0x0#64, 0x0#64, 0x3FF3F#64, 0x1#64⟩,
  -- RST_CTRL
  ⟨true, 0x87, 1, 1, 0x18, 1, 0x8, 0xFFFF01#64, 0x0#64, 0x2#64, 0x0#64, 0x6400#64⟩,
  -- RST_GAP02
  ⟨true, 0x87, 1, 1, 0x20, 2, 0x10, 0xFFFF#64, 0x0#64, 0x0#64, 0xFFFF#64, 0x7D0#64⟩,
  -- RST_GAP5
  ⟨true, 0x87, 1, 1, 0x48, 1, 0x8, 0xFFFF#64, 0x0#64, 0x0#64, 0xFFFF#64, 0x3E8#64⟩,
  -- RST_GAP
  ⟨true, 0x87, 1, 1, 0x20, 7, 0x8, 0xFFFF#64, 0x0#64, 0x0#64, 0xFFFF#64, 0xC8#64⟩,
  -- FUSE_PINMAP
  ⟨true, 0x87, 1, 1, 0x58, 1, 0x8, 0x0#64, 0x0#64, 0x0#64, 0x0#64, 0x33F0F00#64⟩,
  -- TOPO_EXPECTED
  ⟨true, 0x87, 1, 1, 0x60, 1, 0x8, 0xFFF7FFFFFFFFFFF#64, 0x0#64, 0x0#64, 0x0#64, 0x0#64⟩,
  -- TOPO_HASH
  ⟨true, 0x87, 1, 1, 0x80, 4, 0x8, 0x0#64, 0x0#64, 0x0#64, 0x0#64, 0x0#64⟩,
  -- TOPO_FOUND
  ⟨true, 0x87, 1, 1, 0x800, 256, 0x8, 0x0#64, 0x0#64, 0x0#64, 0x0#64, 0x0#64⟩]

/-- The rows of chapter 15. -/
def regRows15 : List RegRow := [
  -- THERM_RISE_LIMIT
  ⟨false, 0x3, 1, 1, 0x0, 1, 0x8, 0x1FFFFFFFFFF#64, 0x0#64, 0x0#64, 0x0#64, 0x15823695F69#64⟩,
  -- THERM_LOOKAHEAD
  ⟨false, 0x3, 1, 1, 0x8, 1, 0x8, 0xFFFFFFFFFFFF#64, 0x0#64, 0x0#64, 0x0#64, 0xE00220080420#64⟩,
  -- FROST_CTRL
  ⟨false, 0x3, 1, 1, 0x10, 1, 0x8, 0xF33#64, 0x0#64, 0x0#64, 0x0#64, 0x831#64⟩,
  -- PAUSE_REQ
  ⟨false, 0x3, 1, 1, 0x18, 1, 0x8, 0x0#64, 0x0#64, 0x0#64, 0x0#64, 0x400000FF0000#64⟩,
  -- PWR_CAP
  ⟨false, 0x3, 1, 1, 0x20, 1, 0x8, 0x7F#64, 0x0#64, 0x0#64, 0x0#64, 0x3E#64⟩,
  -- MARGIN
  ⟨false, 0x3, 1, 1, 0x28, 1, 0x8, 0xFF000000000000#64, 0x0#64, 0x0#64, 0x0#64, 0xC8000000000000#64⟩,
  -- THERM_EST
  ⟨false, 0x3, 1, 1, 0x40, 6, 0x8, 0x0#64, 0x0#64, 0x0#64, 0x0#64, 0x0#64⟩,
  -- SENSOR
  ⟨false, 0x3, 1, 1, 0x100, 56, 0x8, 0x0#64, 0x0#64, 0x0#64, 0x0#64, 0x0#64⟩,
  -- RO_MON
  ⟨false, 0x3, 1, 1, 0x300, 16, 0x8, 0x0#64, 0x0#64, 0x0#64, 0x0#64, 0x0#64⟩,
  -- HK_ROUND
  ⟨true, 0x89, 1, 1, 0x0, 1, 0x8, 0x0#64, 0x0#64, 0x0#64, 0x0#64, 0x0#64⟩,
  -- AIR
  ⟨true, 0x89, 1, 1, 0x8, 1, 0x8, 0x7FFF000000#64, 0x0#64, 0x0#64, 0x0#64, 0x1E46641168#64⟩,
  -- THERM_POLICY
  ⟨true, 0x89, 1, 1, 0x10, 1, 0x8, 0xFFFFFF#64, 0x0#64, 0x0#64, 0x0#64, 0x0#64⟩,
  -- PKG_POWER
  ⟨true, 0x89, 1, 1, 0x18, 1, 0x8, 0x0#64, 0x0#64, 0x0#64, 0x0#64, 0x7080000#64⟩]

/-- The rows of chapter 16. -/
def regRows16 : List RegRow := [
  -- SB_ID
  ⟨true, 0x86, 1, 1, 0x0, 1, 0x8, 0x0#64, 0x0#64, 0x0#64, 0x0#64, 0x1#64⟩,
  -- SB_STATUS
  ⟨true, 0x86, 1, 1, 0x8, 1, 0x8, 0x0#64, 0x0#64, 0x0#64, 0x0#64, 0x0#64⟩,
  -- SB_INLET
  ⟨true, 0x86, 1, 1, 0x10, 1, 0x8, 0xFFF#64, 0x0#64, 0x0#64, 0x0#64, 0xFF0000#64⟩,
  -- SB_THERM
  ⟨true, 0x86, 1, 1, 0x18, 1, 0x8, 0x0#64, 0x0#64, 0x0#64, 0x0#64, 0x4664#64⟩,
  -- SB_POWER
  ⟨true, 0x86, 1, 1, 0x20, 1, 0x8, 0x0#64, 0x0#64, 0x0#64, 0x0#64, 0x708000000000000#64⟩,
  -- SB_ALERT
  ⟨true, 0x86, 1, 1, 0x28, 1, 0x8, 0x0#64, 0x7FF#64, 0x0#64, 0x0#64, 0x0#64⟩,
  -- SB_ALERT_EN
  ⟨true, 0x86, 1, 1, 0x30, 1, 0x8, 0x7FF#64, 0x0#64, 0x0#64, 0x0#64, 0x7FF#64⟩,
  -- SB_INPUT
  ⟨true, 0x86, 1, 1, 0x38, 1, 0x8, 0x0#64, 0x0#64, 0xC#64, 0x0#64, 0x0#64⟩]

/-- The rows of chapter 17. -/
def regRows17 : List RegRow := [
  -- SEC_STATUS
  ⟨true, 0x85, 1, 1, 0x0, 1, 0x8, 0x0#64, 0x0#64, 0x0#64, 0x0#64, 0x0#64⟩,
  -- SEC_ROLLBACK
  ⟨true, 0x85, 1, 1, 0x8, 1, 0x8, 0x0#64, 0x0#64, 0x0#64, 0x0#64, 0x0#64⟩,
  -- KEYHASH_SLOT0_W0
  ⟨true, 0x85, 1, 1, 0x100, 1, 0x8, 0x0#64, 0x0#64, 0x0#64, 0x0#64, 0x988D0379411780BF#64⟩,
  -- KEYHASH_SLOT0_W1
  ⟨true, 0x85, 1, 1, 0x108, 1, 0x8, 0x0#64, 0x0#64, 0x0#64, 0x0#64, 0x7AC69D02312D5FEB#64⟩,
  -- KEYHASH_SLOT0_W2
  ⟨true, 0x85, 1, 1, 0x110, 1, 0x8, 0x0#64, 0x0#64, 0x0#64, 0x0#64, 0xB5C35B1B5BCD949F#64⟩,
  -- KEYHASH_SLOT0_W3
  ⟨true, 0x85, 1, 1, 0x118, 1, 0x8, 0x0#64, 0x0#64, 0x0#64, 0x0#64, 0xF7FC7ED889402396#64⟩,
  -- SEC_KEYHASH
  ⟨true, 0x85, 1, 1, 0x100, 32, 0x8, 0x0#64, 0x0#64, 0x0#64, 0x0#64, 0x0#64⟩]

/-- Every register of the module. -/
def regRows : List RegRow :=
  regRows03 ++ regRows04 ++ regRows05 ++ regRows06 ++ regRows07 ++ regRows09 ++ regRows10 ++ regRows11 ++ regRows12 ++ regRows13 ++ regRows14 ++ regRows15 ++ regRows16 ++ regRows17

/-- Does row `r` hold the register at block `blk`, offset `off` of a hub or a stack? -/
def rowCovers (r : RegRow) (hub : Bool) (blk off : Nat) : Bool :=
  r.hub == hub && decide (r.blk ≤ blk) && (blk - r.blk) % r.bstep == 0 && decide ((blk - r.blk) / r.bstep < r.nblk) &&
    decide (r.off ≤ off) && (off - r.off) % r.stride == 0 && decide ((off - r.off) / r.stride < r.count)

/-- The row of the register at a management address, where one implements it (R12). -/
def regRow (a : Nat) : Option RegRow :=
  let die := a / 2 ^ 32
  let blk := a / 2 ^ 24 % 256
  if 24 < die then none else regRows.find? fun r => rowCovers r (die == 0) blk (a % 2 ^ 24)

/-- The reset value of the register at an address (zero where no register is). -/
def regReset (a : Nat) : Word := match regRow a with | some r => r.reset | none => 0

end Sys2Proof.Machine
end

