-- ==== Sys2Proof/Machine/SMap.lean ====
section
/-! DEFINITION. Sparse data keyed by a number: a list in rising order of the key that lists no entry equal to what an unlisted
key reads as. Equal contents are therefore equal lists. -/
namespace Sys2Proof.Machine

/-- The value at a key; an unlisted key reads as `d`. -/
def sget {α : Type} (d : α) : SMap α → Nat → α
  | [], _ => d
  | (k, v) :: m, a => if k = a then v else sget d m a

/-- The list without the entry of a key. -/
def serase {α : Type} : SMap α → Nat → SMap α
  | [], _ => []
  | (k, v) :: m, a => if k = a then m else if a < k then (k, v) :: m else (k, v) :: serase m a

/-- The list with a key's entry set, in its place in the order. -/
def sinsert {α : Type} : SMap α → Nat → α → SMap α
  | [], a, x => [(a, x)]
  | (k, v) :: m, a, x =>
    if a < k then (a, x) :: (k, v) :: m
    else if k = a then (a, x) :: m
    else (k, v) :: sinsert m a x

/-- The map with the value `x` at a key. Writing what an unlisted key reads as removes the entry. -/
def sput {α : Type} [DecidableEq α] (d : α) (m : SMap α) (a : Nat) (x : α) : SMap α :=
  if x = d then serase m a else sinsert m a x

/-- Every key of the list is above `a`. -/
def keysAbove {α : Type} (a : Nat) (m : SMap α) : Prop := ∀ p ∈ m, a < p.1

/-- Keys strictly rising. -/
def srising {α : Type} : SMap α → Bool
  | [] => true
  | [_] => true
  | (k, _) :: (k', v') :: m => decide (k < k') && srising ((k', v') :: m)

/-- The canonical form: keys strictly rising, and no entry equal to what its key reads as when unlisted. -/
def canonical {α : Type} [DecidableEq α] (d : Nat → α) (m : SMap α) : Bool :=
  srising m && m.all fun p => decide (p.2 ≠ d p.1)

end Sys2Proof.Machine
end

