-- ==== Sys2Proof/Machine/GraphParts.lean ====
section
/-! DEFINITION. Sessions, pages, graphs, instances and rings of the hub, as plain data. -/
namespace Sys2Proof.Machine

/-- A wait or a signal entry (R237): object reference of R236, operation, value. -/
structure ObjOp where
  ref : Nat
  op : Nat
  value : Nat
  deriving DecidableEq, Repr

/-- A task record (R235). -/
structure TaskRec where
  lane : Nat
  prio : Nat
  kind : Nat
  flags : Nat
  sel : Nat
  count : Nat
  len16 : Nat
  psize : Nat
  paddr : Nat
  pstride : Nat
  gates : Nat
  waits : List ObjOp
  sigs : List ObjOp
  deriving DecidableEq, Repr

/-- A lane-table entry (R234). -/
structure LaneRec where
  cls : Nat
  ahead : Nat
  deriving DecidableEq, Repr

/-- A weight-map record (R266). -/
structure WeightRec where
  stack : Nat
  core : Nat
  vaddr : Nat
  len : Nat
  src : Nat
  deriving DecidableEq, Repr

/-- What the hub has allocated in a NEAR group. -/
structure NearGroup where
  frames : List Nat
  slots : List Nat
  blocks : List Nat
  tents : List Nat
  deriving DecidableEq, Repr

/-- A NEAR group with nothing allocated. -/
def NearGroup.none : NearGroup := ⟨[], [], [], []⟩

/-- A loaded graph (R230, R231). -/
structure Graph where
  handle : Nat
  part : Nat
  layers : Nat
  hgroups : Nat
  hpp : Nat
  treeMax : Nat
  nslots : Nat
  ridx : Nat
  pchunk : Nat
  lanes : List LaneRec
  tasks : List TaskRec
  objBase : Nat
  nobj : Nat
  weights : List WeightRec
  place : Place
  near : SMap NearGroup
  lpUsed : SMap (List Nat)
  /-- Record of the commit ring that the next launch writes. -/
  nextCommit : Nat
  /-- The prefetch candidates in the page-manager rings, by page ID (R202). -/
  prefetch : List Nat
  svn : Nat
  keySlot : Nat
  measure : List Byte
  wmeasure : List Byte
  deriving DecidableEq, Repr

/-- A graph being verified and distributed: handle, partition, block address and length. -/
structure Loading where
  handle : Nat
  part : Nat
  paddr : Nat
  plen : Nat
  deriving DecidableEq, Repr

/-- Session states (R176). -/
inductive SessState where
  | active | forking | pinned | stale | closing
  deriving DecidableEq, Repr

/-- How a session stands with the twin's copy of it (R329, R331, R337, R338). -/
inductive MirState where
  | unmirrored | building | inStep
  deriving DecidableEq, Repr

/-- A session (R175), and what the hub knows of it beside the entry. `graph` is the position of its graph in the load order,
whose handle the entry shows. -/
structure Sess where
  sid : Nat
  state : SessState
  bucket : Nat
  prio : Nat
  flags : Nat
  graph : Nat
  part : Nat
  cpos : Nat
  stalePos : Nat
  ptroot : Nat
  sampler : Nat
  inRing : Nat
  outRing : Nat
  inCons : Nat
  outProd : Nat
  mirPos : Nat
  mirSeq : Nat
  parent : Nat
  forkPos : Nat
  frames : Nat × Nat × Nat
  /-- Fork with PIN; state of a close: the session was PINNED. -/
  pin : Bool
  wasPinned : Bool
  /-- Pending input: ring index and the tokens left of each record; generation budget. -/
  pend : List (Nat × List Nat)
  budget : Nat
  /-- Holds: a suppressed miss (R228); an allocation that found its group exhausted (R198). -/
  missHold : Bool
  pagesWait : Bool
  /-- Page IDs whose promotion a suppressed miss waits for; page IDs with HOLD set for the session (R201). -/
  missing : List Nat
  heldPages : List Nat
  /-- Output records that wait for a free one of the ring (R316). -/
  heldOut : List Nat
  /-- The draft ring (R227): position and entry. -/
  draft : List (Nat × Nat)
  /-- The status with which a maintenance task of the session failed (R191). -/
  taskStatus : Nat
  /-- Lowest position base among dropped pages of the session, not yet acted on (R197). -/
  dropped : Option Nat
  mir : MirState
  /-- The mirror sequence of the last burst, not yet acknowledged. -/
  unacked : Option Nat
  /-- In a resynchronisation: the FULL pages not yet sent. -/
  copyLeft : List Nat
  deriving DecidableEq, Repr

/-- An instance (R238). -/
structure Inst where
  graph : Nat
  task : Nat
  slot : Option Nat
  /-- Remaining launches of a one-shot instance; a standing one stays. -/
  left : Nat
  standing : Bool
  out : Nat
  /-- Number of the last write to the launch queue, 0 for never. -/
  last : Nat
  base : List Nat
  /-- Consecutive SUPPRESSED_POISON records (R293). -/
  poisons : Nat
  /-- Position of a TRUNCATE; supplied slots of a COPY: NEAR entry, layer × 16 + head group, slot, frame. -/
  arg : Nat
  supplied : List (Nat × Nat × Nat × Nat)
  /-- The task's work has been done by its launch; the slots that the BPs listed as unused. -/
  worked : Bool
  unused : List (Nat × Nat × Nat)
  /-- A fork found a page with all its pins in use. -/
  pinFail : Bool
  deriving DecidableEq, Repr

/-- A node of a candidate tree (R206). -/
structure CandNode where
  token : Nat
  parent : Nat
  depth : Nat
  deriving DecidableEq, Repr

/-- A launch whose commit record has not been processed. -/
structure Launch where
  part : Nat
  inst : Nat
  graph : Nat
  /-- Its record in the graph's commit ring. -/
  record : Nat
  /-- Its step has started, and has ended. -/
  started : Bool
  ended : Bool
  /-- The stamp of its step (R196). -/
  stamp : Nat
  /-- The tree that its step verifies, and whether the DSB's tree was invalid (R207). -/
  tree : List CandNode
  treeBad : Bool
  deriving DecidableEq, Repr

/-- A ring (R313): kind (0 input, 1 output), size 2^k, base, producer and consumer indices, records read. -/
structure Ring where
  kind : Nat
  k : Nat
  base : Nat
  prod : Nat
  cons : Nat
  read : Nat
  deriving DecidableEq, Repr

/-- A page move (R197): graph, NEAR entry and slot of the page, the tier and frame it leaves, those it goes to. -/
structure Move where
  graph : Nat
  entry : Nat
  slot : Nat
  srcTier : Nat
  src : Nat
  dstTier : Nat
  dst : Nat
  deriving DecidableEq, Repr

/-- A source frame that waits for two further launches: graph, NEAR entry, tier, frame, LAUNCHES of the root at the move. -/
structure FrameFree where
  graph : Nat
  entry : Nat
  tier : Nat
  frame : Nat
  since : Nat
  deriving DecidableEq, Repr

/-- A reply that waits to be written (R319): status and RESULT. -/
structure Reply where
  status : Nat
  result : Nat
  deriving DecidableEq, Repr

/-- What the hub holds in service. -/
structure Svc where
  sess : SMap (Option Sess)
  graphs : SMap (Option Graph)
  loading : List Loading
  insts : SMap (Option Inst)
  launches : List Launch
  rings : SMap (Option Ring)
  /-- Object values that the dispatcher has observed, by object number (package) or 2^14 + 4096 × stack + index (local), and
  changes on their way to it (R242). -/
  seen : SMap Nat
  changes : List (Nat × Nat)
  moves : List Move
  frees : List FrameFree
  compUsed : List Nat
  /-- Writes to launch queues so far; by partition, entries written since the last PREFILL entry (R245). -/
  writes : Nat
  sincePre : SMap Nat
  /-- Lanes whose Doldrums has fired and that have not launched since. -/
  dolded : List Nat
  /-- RET_CFG and TIER_CFG as they are in effect in a partition (R203). -/
  cfg : SMap (Word × Word)
  /-- Dies that have been in reset or bypassed, with the local objects that they have forwarded since (R242). -/
  renewed : SMap (Option (List Nat))
  /-- The staged reply; retrainings that RETRAIN has started and that have not ended: die, block, channel. -/
  reply : Option Reply
  retrains : List (Nat × Nat × Nat)
  deriving DecidableEq, Repr

/-- The hub with no session, graph, instance or ring. -/
def Svc.reset : Svc where
  sess := []
  graphs := []
  loading := []
  insts := []
  launches := []
  rings := []
  seen := []
  changes := []
  moves := []
  frees := []
  compUsed := []
  writes := 0
  sincePre := []
  dolded := []
  cfg := []
  renewed := []
  reply := none
  retrains := []

end Sys2Proof.Machine
end

