-- ==== Sys2Proof/Machine/TwinParts.lean ====
section
/-! DEFINITION. The twin link's messages and what the hub holds for the pairing, as plain data. -/
namespace Sys2Proof.Machine

/-- A message of the twin link (R326). -/
inductive TwinMsg where
  | heartbeat (addr : Nat)
  | mirOp (slot : Nat) (op : MirOp)
  | mirBegin (sid gen old new seq : Nat)
  | mirData (addr len data : Nat)
  | mirEnd (dsb : Nat)
  | mirAck (seq : Nat)
  | mirStop
  | fence (n : Nat)
  | detach
  deriving DecidableEq, Repr

/-- A session of the twin that this module holds (R330, R331): the session with the draft ring received, whether it is IN_STEP, and its
last DSB. -/
structure Held where
  sess : Sess
  inStep : Bool
  dsb : Nat
  deriving DecidableEq, Repr

/-- A burst that MIR_BEGIN has opened. -/
structure Burst where
  sid : Nat
  gen : Nat
  old : Nat
  new : Nat
  seq : Nat
  data : List (Nat × Nat × Nat)
  deriving DecidableEq, Repr

/-- The hub's twin state. -/
structure Twin where
  /-- Messages that wait to be sent. -/
  tx : List TwinMsg
  hbSeq : Nat
  /-- Mirror sequences given out; the last one acknowledged to the twin. -/
  nextSeq : Nat
  ackedSeq : Nat
  held : SMap (Option Held)
  burst : Option Burst
  /-- Heartbeats missed in a row; no twin mirror is accepted any more; a resynchronisation runs over so many sessions. -/
  missed : Nat
  promoted : Bool
  resync : Option Nat
  /-- Mirrored commits wait for no acknowledgement until the next RESYNC_TWIN. -/
  stopped : Bool
  deriving DecidableEq, Repr

/-- No twin. -/
def Twin.reset : Twin where
  tx := []
  hbSeq := 0
  nextSeq := 0
  ackedSeq := 0
  held := []
  burst := none
  missed := 0
  promoted := false
  resync := none
  stopped := false

end Sys2Proof.Machine
end

