-- ==== Sys2Proof/Machine/ServiceParts.lean ====
section
/-! DEFINITION. What the hub holds for reset, bring-up and service, as plain data. -/
namespace Sys2Proof.Machine

/-- A reset in progress (R341 to R352): level (0 power-on, 1 system, 2 warm, 3 core), scope (0 the package, else a die number),
cause, whether it is still asserted, the last domain of R352 released, and what RST_CAUSE will show. -/
structure RstSeq where
  level : Nat
  scope : Nat
  cause : Nat
  asserted : Bool
  released : Nat
  delayed : Bool
  latched : Bool
  /-- Stacks whose logic die has accepted the reset and is still to clear its domains. -/
  todo : List Nat
  deriving DecidableEq, Repr

/-- The reset controller. -/
structure ResetCtl where
  seqs : List RstSeq
  /-- Sources that hold a reset: PWR_GOOD inactive, the reference absent, RESET_L low, the thermal-trip latch. -/
  pwrBad : Bool
  refBad : Bool
  pinLow : Bool
  trip : Bool
  /-- Resets that wait for the end of a write pulse (R349). -/
  waiting : List RstSeq
  /-- A RESET_DOMAIN of the package that has been answered: its level (R321). -/
  command : Option Nat
  /-- Stacks whose recovery after a reset is still to run, after a warm one or not; those whose recovery has failed (R353). -/
  recovering : List (Nat × Bool)
  failed : List Nat
  /-- Hub millisecond of the last KICK (R350). -/
  kick : Option Nat
  deriving DecidableEq, Repr

/-- The reset controller with no reset in progress. -/
def ResetCtl.reset : ResetCtl := ⟨[], false, false, false, false, [], none, [], [], none⟩

/-- Bring-up (R355). -/
structure Bring where
  /-- The last step done; operands of the running step. -/
  last : Nat
  accept : Bool
  src : Nat
  arg : Nat
  /-- Outcome of the running step's work: code, die, unit. -/
  outcome : Option (Nat × Nat × Nat)
  /-- Full-rate training has completed; widths with which links (by record) and vaults (by core number) switch. -/
  frReady : Bool
  /-- Every logic die runs at 2.4 GHz (else at the Thaw rate); the last reset of the package was a warm one; the LPDDR devices
  whose data map was rebuilt since then (R375). -/
  full : Bool
  warm : Bool
  rebuilt : List Nat
  frLinks : List (Nat × WireTest × WireTest)
  frVaults : SMap Nat
  deriving DecidableEq, Repr

/-- Bring-up before its first step. -/
def Bring.reset : Bring := ⟨0, false, 0, 0, none, false, false, false, [], [], []⟩

end Sys2Proof.Machine
end

