-- ==== Sys2Proof/Machine/State.lean ====
section
/-! DEFINITION. The machine's state as plain data, the reasons a step can stop, and the state after reset. -/
namespace Sys2Proof.Machine

/-- A step of this block never stops with a fault: every error of the spec is recorded and the block goes on, so the type
has no constructor (safe: nothing is cut off by it). -/
inductive Fault where
  deriving DecidableEq, Repr

/-- Why a command has no next state. -/
inductive Refusal where
  /-- Raised by an arm of `exec` whose command has no meaning in the model yet. Safe: nothing is claimed of it. -/
  | notModelled (mnemonic : String)
  deriving DecidableEq, Repr

/-- An engine after a core reset (R85). -/
def Engine.reset : Engine := ⟨[], [], [], 0, 0, 0, 0, 0, 0⟩

/-- A core as a core reset leaves it (R85). -/
def Core.reset : Core where
  now := 0
  start := 0
  running := false
  ended := false
  trapped := false
  elastic := false
  poisoned := false
  stopped := false
  sel := 0
  progAddr := 0
  progWords := 0
  fper := 16
  wordIx := 0
  base := 0
  classes := []
  queue := []
  nextFetch := 16
  nextSlot := 0
  agenda := []
  held := none
  engines := ⟨Engine.reset, Engine.reset, Engine.reset, Engine.reset⟩
  bankUse := (0, [])
  busUse := (0, 0)
  sfuEnd := 0
  sfu := none
  epiScale := none
  epi := []
  written := []
  chHalted := []
  sendEnd := 0
  recvEnd := 0
  port := none
  portQ := []
  recvWait := []
  header := none
  portLost := false
  gateWord := none
  gateErr := false
  initialising := true

/-- A BP as a core reset leaves it (R173). -/
def Bp.reset : Bp where
  run := .idle
  owned := false
  w0 := 0
  pc := 0
  x := []
  v := []
  qf := []
  sr := 0
  oacc := []
  merge := []
  sel := 0
  started := 0
  mc := 0
  ready := []
  busTaken := []
  scratchUse := []
  win := 1

/-- An empty arrival state of a reduction group. -/
def AddGroup.reset : AddGroup := ⟨[], none, 0, 0⟩

/-- A vault controller after a system reset. -/
def Vc.reset : Vc where
  queue := []
  answers := []
  merge := []
  win := 0
  lastGroup := []
  refresh := []
  credit := []
  buffer := []
  groups := []
  slots := []
  inits := []
  initNear := []
  scrub := 0
  writeback := []
  corrLast := []
  corrNow := []
  rechecks := []
  laneErr := []
  nextWidth := none
  candidates := []
  remaps := []
  retrainReq := false

/-- An LPDDR controller after a system reset. -/
def Lp.reset : Lp where
  queue := []
  answers := []
  merge := []
  frame := 0
  bursts := []
  activates := []
  refresh := []
  buffer := []
  groups := []
  out := []
  joins := []
  slots := []
  inits := []
  scrub := 0
  writeback := []
  corrLast := []
  corrNow := []
  rechecks := []
  written := []
  headers := []
  fullLeft := []
  nextChan := 0
  due := false
  corr := []
  candidates := []
  remaps := []
  halted := false

/-- A router after a system reset of its die: the transit-only schedule (R121). -/
def Router.reset : Router := ⟨0, false, none, [], 0, 0, []⟩

/-- A die after a system reset. -/
def Die.reset : Die where
  phase := 0
  stepStart := 0
  lq := []
  taken := none
  sampled := none
  sentAt := 0
  stepLen := 0
  segNow := false
  trained := []
  linkFree := []
  firstNext := true
  done := []
  quiet := false
  stopPending := false
  escal := []
  forward := []
  retrain := []
  halfNext := []
  crcRound := []
  act := []
  ownFault := none
  endpoint := []

/-- The module's state: the queue of waiting commands and everything the spec gives the module. -/
structure State where
  pending : List Instr
  /-- Registers by management address; an unlisted one holds its reset value. -/
  regs : SMap Word
  /-- Every addressed memory, by `Ops.lean`'s keys; an unlisted byte reads as zero. -/
  mem : List Host.Cell
  /-- Check fields of the DRAM code words that have been written, by the key of the word's first byte; a word with none holds
  initialised data, valid under the code of its region. -/
  chk : SMap (Option (BitVec 64))
  cores : SMap Core
  bps : SMap Bp
  vcs : SMap Vc
  lps : SMap Lp
  routers : SMap Router
  dies : SMap Die
  /-- The partitions of the last SET_PARTITIONS (R31), and the stacks of the found topology (R29). -/
  parts : List Partition
  present : List Nat
  /-- The partitions whose graph is loaded, by number (R233). -/
  loadedParts : List Nat
  /-- Beats on their way to a router input, earliest first; over a die crossing until their link receives them. -/
  flights : List Flight
  crossings : List Flight
  flash : List FlashMsg
  hub : Hub
  rst : ResetCtl
  bring : Bring
  /-- Bytes of the found topology descriptor (R360). -/
  topo : SMap Byte
  svc : Svc
  twin : Twin
  camner : Camner
  twinFlits : FlitSide
  sec : Sec
  power : Power
  therm : SMap DieTherm
  hubTherm : HubTherm
  /-- VOFFSET by stack as on-module flash keeps it (R398); the fused heat-sink resistances by stack, in 0.01 °C/W (R396). -/
  voff : SMap Nat
  theta : SMap Nat
  pins : Pins
  /-- The model's own counter of free values (not the spec's). -/
  freeCtr : Nat
  deriving DecidableEq, Repr

/-- The module right after a power-on reset has ended: every register at its reset value, and the Camner link up at the ROM rate
(R304). -/
def State.reset : State where
  pending := []
  regs := [(r_CAMNER_STATUS, 2)]
  mem := []
  chk := []
  cores := []
  bps := []
  vcs := []
  lps := []
  routers := []
  dies := []
  parts := []
  present := []
  loadedParts := []
  flights := []
  crossings := []
  flash := []
  hub := Hub.reset
  rst := ResetCtl.reset
  bring := Bring.reset
  topo := []
  svc := Svc.reset
  twin := Twin.reset
  camner := Camner.reset
  twinFlits := FlitSide.reset
  sec := Sec.reset
  power := Power.reset
  therm := []
  hubTherm := HubTherm.reset
  voff := []
  theta := []
  pins := Pins.reset
  freeCtr := 0

end Sys2Proof.Machine
end

