-- ==== Sys2Proof/Machine/Ops.lean ====
section
/-! DEFINITION. The named operations over the state: fields of registers, bytes of memory, and the parts of the module. -/
namespace Sys2Proof.Machine

/-- The outcome of a command that the block carries out: every command has a next state. -/
def done (s : State) : Host.Outcome State Fault Refusal := .next s

/-! ### Bit fields -/

/-- The value of a field of a register. -/
def fieldOf (f : Fld) (v : Word) : Nat := v.toNat / 2 ^ f.lo % 2 ^ f.width

/-- A register's value with a field replaced. -/
def withField (f : Fld) (v : Word) (n : Nat) : Word :=
  BitVec.ofNat 64 (v.toNat - 2 ^ f.lo * fieldOf f v + 2 ^ f.lo * (n % 2 ^ f.width))

/-- Bits [hi:lo] of a number. -/
def bits (v hi lo : Nat) : Nat := v / 2 ^ lo % 2 ^ (hi + 1 - lo)

/-- Bits [hi:lo] of a step-program word. -/
def wbits (w : BitVec 128) (hi lo : Nat) : Nat := bits w.toNat hi lo

/-- Adds with saturation at the top of an n-bit field. -/
def satAdd (n a b : Nat) : Nat := min (a + b) (2 ^ n - 1)

/-! ### Registers -/

/-- The stored content of the register at a management address. -/
def getReg (s : State) (a : Nat) : Word := sget (regReset a) s.regs a

/-- The state with a register's content set. -/
def putReg (s : State) (a : Nat) (v : Word) : State := { s with regs := sput (regReset a) s.regs a v }

/-- A field of a register. -/
def getF (s : State) (a : Nat) (f : Fld) : Nat := fieldOf f (getReg s a)

/-- The state with a field of a register set. -/
def putF (a : Nat) (f : Fld) (n : Nat) (s : State) : State := putReg s a (withField f (getReg s a) n)

/-- Adds to a counter field that wraps. -/
def bumpF (a : Nat) (f : Fld) (n : Nat) (s : State) : State := putF a f (getF s a f + n) s

/-- Adds to a counter field that saturates at its largest value. -/
def satF (a : Nat) (f : Fld) (n : Nat) (s : State) : State := putF a f (satAdd f.width (getF s a f) n) s

/-- A write of a register by software (R13): RW and RWS bits take the value, W1C bits written with 1 are cleared, and other
bits keep theirs. -/
def softWrite (a : Nat) (v : Word) (s : State) : State :=
  match regRow a with
  | some r =>
    let old := getReg s a
    let w := r.rw ||| r.rws
    putReg s a (((old &&& ~~~w) ||| (v &&& w)) &&& ~~~(v &&& r.w1c))
  | none => s

/-! ### The parts of the module -/

/-- The number of a core in the package. -/
def coreNo (d : Stack) (c : CoreIx) : Nat := 16 * d.val + c.val

/-- The core `c` of stack `d`. -/
def getCore (s : State) (d : Stack) (c : CoreIx) : Core := sget Core.reset s.cores (coreNo d c)

/-- The state with a core replaced. -/
def putCore (s : State) (d : Stack) (c : CoreIx) (x : Core) : State :=
  { s with cores := sput Core.reset s.cores (coreNo d c) x }

/-- The state with a core changed. -/
def updCore (d : Stack) (c : CoreIx) (f : Core → Core) (s : State) : State := putCore s d c (f (getCore s d c))

/-- The number of a BP in the package. -/
def bpNo (d : Stack) (c : CoreIx) (j : Nat) : Nat := 24 * coreNo d c + j

/-- BP `j` of a core's column. -/
def getBp (s : State) (d : Stack) (c : CoreIx) (j : Nat) : Bp := sget Bp.reset s.bps (bpNo d c j)

/-- The state with a BP replaced. -/
def putBp (s : State) (d : Stack) (c : CoreIx) (j : Nat) (b : Bp) : State :=
  { s with bps := sput Bp.reset s.bps (bpNo d c j) b }

/-- The state with a BP changed. -/
def updBp (d : Stack) (c : CoreIx) (j : Nat) (f : Bp → Bp) (s : State) : State := putBp s d c j (f (getBp s d c j))

/-- The vault controller of a core. -/
def getVc (s : State) (d : Stack) (c : CoreIx) : Vc := sget Vc.reset s.vcs (coreNo d c)

/-- The state with a vault controller changed. -/
def updVc (d : Stack) (c : CoreIx) (f : Vc → Vc) (s : State) : State :=
  { s with vcs := sput Vc.reset s.vcs (coreNo d c) (f (getVc s d c)) }

/-- The LPDDR controller of a stack. -/
def getLp (s : State) (d : Stack) : Lp := sget Lp.reset s.lps d.val

/-- The state with an LPDDR controller changed. -/
def updLp (d : Stack) (f : Lp → Lp) (s : State) : State := { s with lps := sput Lp.reset s.lps d.val (f (getLp s d)) }

/-- Router `k` of a die. -/
def getRouter (s : State) (d : Stack) (k : Cluster) : Router := sget Router.reset s.routers (4 * d.val + k.val)

/-- The state with a router changed. -/
def updRouter (d : Stack) (k : Cluster) (f : Router → Router) (s : State) : State :=
  { s with routers := sput Router.reset s.routers (4 * d.val + k.val) (f (getRouter s d k)) }

/-- A logic die. -/
def getDie (s : State) (d : Stack) : Die := sget Die.reset s.dies d.val

/-- The state with a die changed. -/
def updDie (d : Stack) (f : Die → Die) (s : State) : State := { s with dies := sput Die.reset s.dies d.val (f (getDie s d)) }

/-- What a die manager keeps between rounds. -/
def getTherm (s : State) (d : Stack) : DieTherm := sget DieTherm.reset s.therm d.val

/-- The state with that changed. -/
def updTherm (d : Stack) (f : DieTherm → DieTherm) (s : State) : State :=
  { s with therm := sput DieTherm.reset s.therm d.val (f (getTherm s d)) }

/-- The cluster of a core (R24). -/
def clusterOf (c : CoreIx) : Cluster := ⟨c.val / 4, by omega⟩

/-- The cores of a die. -/
def allCores : List CoreIx := List.finRange 16

/-- The stacks of the package. -/
def allStacks : List Stack := List.finRange 24

/-- The clusters of a die. -/
def allClusters : List Cluster := List.finRange 4

/-- The edge ports of a die. -/
def allPorts : List Port := List.finRange 4

/-- Changes the state once for each element of a list, in order. -/
def forAll {α : Type} (l : List α) (f : α → State → State) (s : State) : State := l.foldl (fun s x => f x s) s

/-! ### Memory

One list of bytes holds every addressed memory. DRAM stands at device addresses (R255), a vault's and an LPDDR device's
bytes at their physical place; the SRAMs stand above 2^48. -/

/-- Key of byte `a` (26-bit group offset) of bank group `j` of a core's vault (R142). -/
def bankKey (d : Stack) (c : CoreIx) (j a : Nat) : Nat := 2 ^ 31 * coreNo d c + 2 ^ 26 * j + a

/-- Key of byte `a` of an LPDDR device, by channel, row and byte in the row (R268). -/
def lpKey (d : Stack) (ch row a : Nat) : Nat := 0x10000000000 + 2 ^ 36 * d.val + 2048 * (2 ^ 22 * ch + row) + a

/-- Key of a byte of companion memory (R255). -/
def compKey (a : Nat) : Nat := 2 ^ 47 + a % 2 ^ 47

/-- Key of a byte of tile memory (R57). -/
def tileKey (d : Stack) (c : CoreIx) (a : Nat) : Nat := 2 ^ 48 + 2 ^ 22 * coreNo d c + a

/-- Activation memory starts at tile address 0x28_0000 (R57). -/
def amemBase : Nat := 0x280000

/-- Activation memory holds 1.5 MiB. -/
def amemSize : Nat := 0x180000

/-- The poison flag stands in the 32 bytes at this activation-memory offset (R218). -/
def poisonOff : Nat := 0x17FFE0

/-- Key of a byte of a cluster's staging memory (R18). -/
def stagingKey (d : Stack) (k : Nat) (a : Nat) : Nat := 2 ^ 48 + 2 ^ 31 + 2 ^ 23 * (4 * d.val + k) + a

/-- Key of a byte of a BP's scratch (R144, R145). -/
def scratchKey (d : Stack) (c : CoreIx) (j a : Nat) : Nat := 2 ^ 48 + 2 ^ 32 + 2 ^ 16 * bpNo d c j + a

/-- Key of a byte of a BP's program memory. -/
def progKey (d : Stack) (c : CoreIx) (j a : Nat) : Nat := 2 ^ 48 + 2 ^ 33 + 2 ^ 15 * bpNo d c j + a

/-- Every listed address is in order and no listed byte is the byte an unlisted address reads as. -/
def memWf (m : List Host.Cell) : Bool := canonical (fun _ => (0#8)) m

/-- One byte of memory. -/
def readByte (s : State) (k : Nat) : Byte := sget 0#8 s.mem k

/-- The state with one byte of memory written. -/
def writeByte (k : Nat) (b : Byte) (s : State) : State := { s with mem := sput 0#8 s.mem k b }

/-- `n` bytes from key `k` upward as one little-endian number (R9). -/
def readMem (s : State) (k : Nat) : Nat → Nat
  | 0 => 0
  | n + 1 => (readByte s k).toNat + 256 * readMem s (k + 1) n

/-- Writes `n` bytes of a little-endian number from key `k` upward. -/
def writeMem (k : Nat) : Nat → Nat → State → State
  | 0, _, s => s
  | n + 1, v, s => writeMem (k + 1) n (v / 256) (writeByte k (BitVec.ofNat 8 v) s)

/-- Writes `n` zero bytes: the entries in the range are removed. -/
def clearMem (k n : Nat) (s : State) : State :=
  { s with mem := s.mem.filter fun p => decide (p.1 < k ∨ k + n ≤ p.1) }

/-- The check field of the DRAM code word at key `k`, none where only initialisation has written it. -/
def readChk (s : State) (k : Nat) : Option (BitVec 64) := sget none s.chk k

/-- The state with a check field written. -/
def writeChk (k : Nat) (v : BitVec 64) (s : State) : State := { s with chk := sput none s.chk k (some v) }

/-- The code word stored at key `k`; `c`: the code under which initialisation wrote it, which a word that nothing has written since
still has (R286). -/
def readWord (s : State) (c : Code) (k : Nat) : CodeWord :=
  let data := BitVec.ofNat 512 (readMem s k 64)
  ⟨data, (readChk s k).getD (encodeWord c data).check⟩

/-- Stores a code word at key `k`. -/
def writeWord (k : Nat) (w : CodeWord) (s : State) : State := writeChk k w.check (writeMem k 64 w.data.toNat s)

/-- Initialises `n` bytes of DRAM: zero data with a valid code. -/
def initMem (k n : Nat) (s : State) : State :=
  let s := clearMem k n s
  { s with chk := s.chk.filter fun p => decide (p.1 < k ∨ k + n ≤ p.1) }

/-! ### Free values -/

/-- A fresh number for a free value: the counter's value, and the state with the counter advanced. -/
def fresh (s : State) : Nat × State := (s.freeCtr, { s with freeCtr := s.freeCtr + 1 })

/-- `n` free bytes as one number. -/
def freeBytes : Nat → Nat → Nat
  | _, 0 => 0
  | i, n + 1 => (Config.freeByte i).toNat + 256 * freeBytes (i + 1) n

/-- `n` free bytes, and the state with the counter advanced past them. -/
def takeFree (n : Nat) (s : State) : Nat × State := (freeBytes s.freeCtr n, { s with freeCtr := s.freeCtr + n })

/-! ### The grid (R20, R21) -/

/-- Column and row of a stack. -/
def gridPos (d : Nat) : Nat × Nat :=
  let i := if d < 12 then d else d + 1
  (i % 5, i / 5)

/-- The stack at a grid position, none at the hub and outside. -/
def stackAt (col row : Nat) : Option Nat :=
  if 5 ≤ col ∨ 5 ≤ row then none
  else let i := 5 * row + col
       if i = 12 then none else if i < 12 then some i else some (i - 1)

/-- The neighbour at an edge port: N, E, S, W. -/
def neighbour (d : Stack) (p : Port) : Option Stack :=
  let (x, y) := gridPos d.val
  let n := match p.val with
    | 0 => if y = 0 then none else stackAt x (y - 1)
    | 1 => stackAt (x + 1) y
    | 2 => stackAt x (y + 1)
    | _ => if x = 0 then none else stackAt (x - 1) y
  match n with
  | some m => if h : m < 24 then some ⟨m, h⟩ else none
  | none => none

/-- The port on the other side of a link. -/
def opposite (p : Port) : Port := ⟨(p.val + 2) % 4, by omega⟩

/-- Does a port face the hub (R21)? -/
def facesHub (d : Stack) (p : Port) : Bool :=
  (d.val == 7 && p.val == 2) || (d.val == 11 && p.val == 1) || (d.val == 12 && p.val == 3) || (d.val == 16 && p.val == 0)

/-- The router on which an edge port hangs: N on 0, E on 1, S on 3, W on 2. -/
def portRouter (p : Port) : Cluster :=
  match p.val with | 0 => 0 | 1 => 1 | 2 => 3 | _ => 2

/-- The edge port that hangs on a router. -/
def routerPort (k : Cluster) : Port :=
  match k.val with | 0 => 0 | 1 => 1 | 2 => 3 | _ => 2

/-- A core of a die by number. -/
def coreIx (n : Nat) : CoreIx := ⟨n % 16, by omega⟩

/-- A stack by number, none above 23. -/
def stackIx (n : Nat) : Option Stack := if h : n < 24 then some ⟨n, h⟩ else none

/-- A free number below `n` (0 when n is 0), and the state with the counter advanced. -/
def takeFreeNat (n : Nat) (s : State) : Nat × State := (Config.freeNat s.freeCtr % n, { s with freeCtr := s.freeCtr + 1 })

end Sys2Proof.Machine
end

