-- ==== Sys2Proof/Machine/Errors.lean ====
section
/-! DEFINITION. Error records (R297 to R303, R439): recording at a station, escalation up to the die, stopping a partition, and
the poison of a step. What a die escalates to the package waits for its management-ring slot. -/
namespace Sys2Proof.Machine

/-! ### Partitions -/

/-- Is a stack inside a partition's rectangle? -/
def inRect (p : Partition) (d : Nat) : Bool :=
  let (x, y) := gridPos d
  decide (p.col0 ≤ x) && decide (x ≤ p.col1) && decide (p.row0 ≤ y) && decide (y ≤ p.row1)

/-- The members of a partition: the present stacks inside its rectangle (R29). -/
def members (s : State) (p : Partition) : List Stack := allStacks.filter fun d => inRect p d.val && s.present.contains d.val

/-- The partition to which a stack belongs. -/
def partOf (s : State) (d : Stack) : Option Partition :=
  if s.present.contains d.val then s.parts.find? fun p => inRect p d.val else none

/-! ### Stations -/

/-- The record set's base address (R303). -/
def stBase : Station → Nat
  | .engine d c n => r_ERR_STATUS_engine d c n
  | .core d c => r_ERR_STATUS_core d c
  | .cluster d k => r_ERR_STATUS_cluster d k
  | .die d => r_ERR_STATUS_die d
  | .package => r_ERR_STATUS_package

/-- The parent station and the station's unit number there; a die's parent is the package, reached over the ring. -/
def stParent : Station → Option (Station × Nat)
  | .engine d c n => some (.core d c, n)
  | .core d c => some (.cluster d (clusterOf c), c.val % 4)
  | .cluster d k => some (.die d, k.val)
  | .die _ => none
  | .package => none

/-- The die of a station. -/
def stDie : Station → Option Stack
  | .engine d _ _ | .core d _ | .cluster d _ | .die d => some d
  | .package => none

/-! ### Kinds and classes (R297) -/

/-- The class of an error kind: 0 DETECTED, 1 UNCORR, 2 FAULT, 3 ESCALATED. -/
def kindClass (kind : Nat) : Nat :=
  match kind with
  | 0x05 | 0x07 | 0x0A | 0x0B | 0x0E => 1
  | 0x0C | 0x0D | 0x0F => 2
  | 0x3F => 3
  | _ => 0

def kResidue : Nat := 0x01
def kParity : Nat := 0x02
def kSfuCheck : Nat := 0x03
def kVbus : Nat := 0x04
def kSUe : Nat := 0x05
def kLCrc : Nat := 0x06
def kPoisoned : Nat := 0x07
def kTransit : Nat := 0x08
def kLinkCrc : Nat := 0x09
def kFetchUe : Nat := 0x0A
def kDmaUe : Nat := 0x0B
def kOwnership : Nat := 0x0C
def kClockLoss : Nat := 0x0D
def kSramUe : Nat := 0x0E
def kSpareOut : Nat := 0x0F
def kEscalated : Nat := 0x3F

/-- An error record's content: valid, class, unit, kind, step selector, info. -/
def errWord (unit kind sel info : Nat) : Word :=
  BitVec.ofNat 64 (1 + kindClass kind * 2 + unit % 64 * 8 + 512 * (kind % 64) + 65536 * (sel % 256) + 2 ^ 24 * (info % 2 ^ 40))

/-- Is a unit in service (R299)? -/
def inService (s : State) (st : Station) (unit : Nat) : Bool := (getReg s (stBase st)).getLsbD (16 + unit)

/-- Records an error at a station whose unit is not in service (R298 rules 2 to 4). -/
def storeError (st : Station) (unit kind sel info : Nat) (s : State) : State :=
  let b := stBase st
  let s := putReg s b (getReg s b ||| BitVec.ofNat 64 (2 ^ (16 + unit)))
  let held := getF s b f_ERR_STATUS_PV = 0 ∨ getF s b f_ERR_STATUS_SV = 0
  let s := if held then { s with hub := { s.hub with errNew := s.hub.errNew ++ [(st, errWord unit kind sel info)] } } else s
  if getF s b f_ERR_STATUS_PV = 0 then putF b f_ERR_STATUS_PV 1 (putReg s (b + 0x08) (errWord unit kind sel info))
  else if getF s b f_ERR_STATUS_SV = 0 then putF b f_ERR_STATUS_SV 1 (putReg s (b + 0x10) (errWord unit kind sel info))
  else bumpF (b + 0x18) f_ERR_OVERFLOW_COUNT 1 s

/-- Counts an error of a die's stations in the current round (R301). -/
def countRound (st : Station) (kind : Nat) (s : State) : State :=
  match stDie st with
  | some d => if kind = kEscalated then s else satF (r_ERR_OVERFLOW_die d) f_ERR_OVERFLOW_ROUND 1 s
  | none => s

/-- Stops the partition of a die at the next step boundary (R302): STOPPED marks the origin; without a partition that is all. -/
def stopPartition (d : Stack) (s : State) : State :=
  let s := putF (r_ERR_STATUS_die d) f_ERR_STATUS_STOPPED 1 s
  if (partOf s d).isSome then updDie d (fun x => { x with stopPending := true }) s else s

/-- CORE_SUSPECT: the die manager's notice to the hub of an escalation from a core or a cluster (R300). -/
def postSuspect (st : Station) (s : State) : State := { s with hub := { s.hub with suspects := s.hub.suspects ++ [st] } }

/-- The containment action of a parent that records an escalation (R300). -/
def containment (parent : Station) (s : State) : State :=
  match parent with
  | .cluster d _ | .die d => postSuspect parent (stopPartition d s)
  | _ => s

/-- Counts an escalation at the child (R300). -/
def countSent (st : Station) (unit : Nat) (s : State) : State :=
  putF (stBase st + 0x20) f_ERR_ESCALATE_LAST unit (satF (stBase st + 0x20) f_ERR_ESCALATE_SENT 1 s)

/-- Records an error at a station, escalating while its unit is in service (R298, R300). `n` bounds the levels. -/
def recordUp : Nat → Station → Nat → Nat → Nat → Nat → State → State
  | 0, _, _, _, _, _, s => s
  | n + 1, st, unit, kind, sel, info, s =>
    if inService s st unit then
      let s := countSent st unit s
      match stParent st with
      | some (p, u) =>
        let s := satF (stBase p + 0x20) f_ERR_ESCALATE_RECEIVED 1 s
        containment p (recordUp n p u kEscalated sel (unit + 64 * kind) s)
      | none =>
        match st with
        | .die d => updDie d (fun x => { x with escal := x.escal ++ [⟨unit, kind⟩] }) s
        | _ => s
    else countRound st kind (storeError st unit kind sel info s)

/-- Records an error at a station of a die. -/
def recordErr (st : Station) (unit kind sel info : Nat) (s : State) : State := recordUp 4 st unit kind sel info s

/-- An ownership fault of a die's step waits for the die's ring slot (R248); the first one is kept. -/
def noteFault (d : Stack) (kind : Nat) (s : State) : State :=
  let n := getF s (r_FLASH_STATUS d) f_FLASH_STATUS_LAUNCHES
  updDie d (fun y => { y with ownFault := match y.ownFault with | some f => some f | none => some (kind, n) }) s

/-! ### Poison -/

/-- Poisons the running step of a core: its flag in activation memory reads 1 (R218, log entry 12). -/
def poisonStep (d : Stack) (c : CoreIx) (s : State) : State :=
  writeByte (tileKey d c (amemBase + poisonOff)) 1#8 (updCore d c (fun x => { x with poisoned := true }) s)

/-- Poisons the running steps of every core of a die. -/
def poisonDie (d : Stack) (s : State) : State :=
  forAll allCores (fun c s => if (getCore s d c).running then poisonStep d c s else s) s

end Sys2Proof.Machine
end

