-- ==== Sys2Proof/Machine/Events.lean ====
section
/-! DEFINITION. The event ring (R323, R324) and the messages that the device sends into companion memory. -/
namespace Sys2Proof.Machine

/-- The state with the hub's messaging state changed. -/
def updHub (f : Hub → Hub) (s : State) : State := { s with hub := f s.hub }

/-- Queues a message to the companion. -/
def sendMsg (m : OutMsg) (s : State) : State := updHub (fun h => { h with tx := h.tx ++ [m] }) s

/-- Queues a STORE of `len` bytes at a companion address. -/
def sendStore (addr len data : Nat) (s : State) : State := sendMsg ⟨.store, addr, len, data⟩ s

/-- Queues an index update of a ring, or a message-signalled write, behind the records that it covers. -/
def sendIndex (addr len data : Nat) (s : State) : State := sendMsg ⟨.storeIndex, addr, len, data⟩ s

/-- Is the Camner link up? -/
def linkUp (s : State) : Bool := decide (2 ≤ getF s r_CAMNER_STATUS f_CAMNER_STATUS_STATE)

/-- A cause of SB_ALERT (R419): a bit newly set and enabled, with interrupts enabled, waits for an in-band interrupt. -/
def raiseAlert (b : Nat) (s : State) : State :=
  let old := getReg s r_SB_ALERT
  let en := (getReg s r_SB_ALERT_EN).getLsbD b
  let s := putReg s r_SB_ALERT (old ||| BitVec.ofNat 64 (2 ^ b))
  if old.getLsbD b || !en || !s.pins.i3c.ibi then s else { s with pins := { s.pins with i3c := { s.pins.i3c with newly := s.pins.i3c.newly ||| 2 ^ b } } }

/-- The causes of SB_ALERT (R420). -/
def alTherm : Nat := 0
def alFrost : Nat := 1
def alSensor : Nat := 2
def alMargin : Nat := 3
def alPower : Nat := 4
def alStale : Nat := 5
def alDemand : Nat := 6
def alTwinLost : Nat := 7
def alTwinPres : Nat := 8
def alMasked : Nat := 9
def alHalt : Nat := 10

/-- Records of the event ring: 2^K, K at least 4. -/
def eventRingSize (s : State) : Nat := 2 ^ max 4 (getF s r_EVT_CTRL f_EVT_CTRL_K)

/-- The event ring's base in companion memory. -/
def eventRingBase (s : State) : Nat := 4096 * getF s r_EVT_CTRL f_EVT_CTRL_BASE

/-- A record's 32 bytes (R323). -/
def eventBytes (e : EventRec) : Nat :=
  e.code % 2 ^ 16 + (if e.lost then 2 ^ 16 else 0) + 2 ^ 32 * (e.eseq % 2 ^ 32) + 2 ^ 64 * (e.subject % 2 ^ 64) + 2 ^ 128 * (e.data % 2 ^ 128)

/-- Counts a dropped event. -/
def dropEvent (s : State) : State := updHub (fun h => { h with lost := true }) (satF r_EVT_STATUS f_EVT_STATUS_DROPPED 1 s)

/-- The message-signalled write after an index update: sent, or suppressed while the hold-off runs. -/
def signalMsi (s : State) : State :=
  if getF s r_EVT_CTRL f_EVT_CTRL_MSI_EN = 0 then s
  else if s.hub.msiHold then updHub (fun h => { h with msiWait := true }) s
  else updHub (fun h => { h with msiHold := decide (0 < getF s r_EVT_CTRL f_EVT_CTRL_HOLDOFF) })
    (sendIndex (getF s r_EVT_MSI_ADDR f_EVT_MSI_ADDR_ADDR * 4) 4 (getF s r_EVT_MSI_ADDR f_EVT_MSI_ADDR_DATA) s)

/-- Writes one record into the event ring, or drops it when the ring is full. -/
def writeEvent (e : EventRec) (s : State) : State :=
  let h := s.hub
  if (h.evProd + 2 ^ 32 - h.evCons) % 2 ^ 32 ≥ eventRingSize s then dropEvent s
  else
    let base := eventRingBase s
    let s := sendStore (base + 0x80 + h.evProd % eventRingSize s * 32) 32 (eventBytes { e with lost := h.lost }) s
    let s := updHub (fun h => { h with evProd := (h.evProd + 1) % 2 ^ 32, lost := false }) s
    signalMsi (bumpF r_EVT_STATUS f_EVT_STATUS_WRITTEN 1 (sendIndex base 64 s.hub.evProd s))

/-- Posts an event: written, held while the link is down (at most 1,024), or dropped while the ring is disabled (R311, R323). -/
def postEvent (code subject data : Nat) (s : State) : State :=
  let e : EventRec := ⟨code, false, s.hub.eseq, subject, data⟩
  let s := updHub (fun h => { h with eseq := (h.eseq + 1) % 2 ^ 32 }) s
  if getF s r_EVT_CTRL f_EVT_CTRL_EN = 0 then dropEvent s
  else if linkUp s then writeEvent e s
  else if s.hub.held.length < 1024 then
    putF r_EVT_STATUS f_EVT_STATUS_HELD 1 (updHub (fun h => { h with held := h.held ++ [e] }) s)
  else dropEvent s

/-- The held events are written when the link is up again. -/
def flushEvents (s : State) : State :=
  let l := s.hub.held
  putF r_EVT_STATUS f_EVT_STATUS_HELD 0 (forAll l writeEvent (updHub (fun h => { h with held := [] }) s))

/-! ### Event codes (R324) -/

def evCmdDone : Nat := 0x0001
def evGraphLoaded : Nat := 0x0002
def evRetrainDone : Nat := 0x0003
def evTwinSynced : Nat := 0x0004
def evTwinLost : Nat := 0x0005
def evLaneHalted : Nat := 0x0010
def evDoldrums : Nat := 0x0011
def evRecomputeLimit : Nat := 0x0012
def evPartitionHalted : Nat := 0x0013
def evTransitFail : Nat := 0x0020
def evLinkDegraded : Nat := 0x0021
def evVaultHalf : Nat := 0x0022
def evDieError : Nat := 0x0030
def evSquall : Nat := 0x0031
def evProgramUe : Nat := 0x0032
def evMemUe : Nat := 0x0033
def evRetireFull : Nat := 0x0034
def evRingError : Nat := 0x0035
def evThermAlert : Nat := 0x0040
def evSensorSuspect : Nat := 0x0041
def evMarginLow : Nat := 0x0042
def evInputMasked : Nat := 0x0043

/-- The management die number of a stack in an event's subject (R20). -/
def dieNo (d : Stack) : Nat := d.val + 1

/-- A subject of two values: the first in the low 32 bits (log entry 14). -/
def subj2 (a b : Nat) : Nat := a % 2 ^ 32 + 2 ^ 32 * b

/-- A subject of three values: 16 bits, 16 bits and the rest. -/
def subj3 (a b c : Nat) : Nat := a % 2 ^ 16 + 2 ^ 16 * (b % 2 ^ 16) + 2 ^ 32 * c

end Sys2Proof.Machine
end

