-- ==== Sys2Proof/Machine/SfuMath.lean ====
section
/-! DEFINITION. The functions of R94 as the piecewise quadratics of R437. The exact samples of R437 step 3 are formed in
fixed point with 512 fraction bits, far below the 2^(E−40) they are rounded to (log entry 6). -/
namespace Sys2Proof.Machine

/-- Fraction bits of the fixed-point samples. -/
def fxBits : Nat := 512

/-- One in fixed point. -/
def fxOne : Int := (2 ^ fxBits : Nat)

/-- Product of two fixed-point numbers. -/
def fxMul (a b : Int) : Int := (a * b) / fxOne

/-- Quotient of two fixed-point numbers. -/
def fxDiv (a b : Int) : Int := (a * fxOne) / b

/-- m × 2^e in fixed point (e ≥ −512 in every use). -/
def fxOf (x : Int) (e : Int) : Int :=
  if 0 ≤ e + fxBits then x * ((2 ^ (e + fxBits).toNat : Nat) : Int) else x / ((2 ^ (-(e + fxBits)).toNat : Nat) : Int)

/-- Σ z^(2n+1)/(2n+1), the inverse hyperbolic tangent of z; `p` is z^(2n+1) and `k` is 2n+1. -/
def atanhSum (z2 : Int) : Nat → Int → Nat → Int
  | 0, _, _ => 0
  | fuel + 1, p, k => p / (k : Int) + atanhSum z2 fuel (fxMul p z2) (k + 2)

/-- Natural logarithm of a positive fixed-point number between 1/2 and 2. -/
def fxLn (u : Int) : Int :=
  let z := fxDiv (u - fxOne) (u + fxOne)
  2 * atanhSum (fxMul z z) 180 z 1

/-- ln 2. -/
def fxLn2 : Int := 2 * atanhSum (fxMul (fxOne / 3) (fxOne / 3)) 180 (fxOne / 3) 1

/-- Σ r^n/n! from term n on; `p` is the term. -/
def expSum (r : Int) : Nat → Int → Nat → Int
  | 0, _, _ => 0
  | fuel + 1, p, n => p + expSum r fuel (fxMul p r / ((n + 1 : Nat) : Int)) (n + 1)

/-- e^x of a fixed-point x between −100 and 100. -/
def fxExp (x : Int) : Int :=
  let k := x / fxLn2
  let r := x - k * fxLn2
  let m := expSum r 110 fxOne 0
  if 0 ≤ k then m * ((2 ^ k.toNat : Nat) : Int) else m / ((2 ^ (-k).toNat : Nat) : Int)

/-- Arctangent of 1/n as an alternating sum. -/
def atanInvSum (n2 : Int) : Nat → Int → Nat → Bool → Int
  | 0, _, _, _ => 0
  | fuel + 1, p, k, neg =>
    (if neg then -(p / (k : Int)) else p / (k : Int)) + atanInvSum n2 fuel (p / n2) (k + 2) (!neg)

/-- π. -/
def fxPi : Int :=
  16 * atanInvSum 25 130 (fxOne / 5) 1 false - 4 * atanInvSum (239 * 239) 40 (fxOne / 239) 1 false

/-- Square root of a non-negative fixed-point number, by bits from the top. -/
def sqrtBits : Nat → Nat → Nat → Nat
  | 0, _, r => r
  | k + 1, n, r => let t := r + 2 ^ k
                   sqrtBits k n (if t * t ≤ n then t else r)

/-- Square root in fixed point of a number below 2^8. -/
def fxSqrt (x : Int) : Int := sqrtBits (fxBits + 5) (x.toNat * 2 ^ fxBits) 0

/-- Σ x^(2n+1)/(2n+1)!!, the series of the normal distribution. -/
def phiSum (x2 : Int) : Nat → Int → Nat → Int
  | 0, _, _ => 0
  | fuel + 1, p, k => p + phiSum x2 fuel (fxMul p x2 / ((k + 2 : Nat) : Int)) (k + 2)

/-- The standard normal distribution function at |x| ≤ 16. -/
def fxPhi (x : Int) : Int :=
  let a := if x < 0 then -x else x
  let dens := fxDiv (fxExp (-(fxMul a a) / 2)) (fxSqrt (2 * fxPi))
  let up := fxOne / 2 + fxMul dens (phiSum (fxMul a a) 900 a 1)
  if x < 0 then fxOne - up else up

/-- Alternating Taylor sum of sine (start p = r, k = 1) or cosine (p = 1, k = 0). -/
def trigSum (r2 : Int) : Nat → Int → Nat → Int
  | 0, _, _ => 0
  | fuel + 1, p, k => p + trigSum r2 fuel (-(fxMul p r2) / (((k + 1) * (k + 2) : Nat) : Int)) (k + 2)

/-- sin(πu) for u in [0, 1/2]. -/
def sinQuarter (u : Int) : Int :=
  let r := fxMul fxPi u
  trigSum (fxMul r r) 90 r 1

/-- sin(πu) for u in [0, 2]. -/
def fxSinPi (u : Int) : Int :=
  let v := if fxOne ≤ u then u - fxOne else u
  let w := if fxOne / 2 ≤ v then fxOne - v else v
  let s := if w = fxOne / 2 then fxOne else sinQuarter w
  if fxOne ≤ u then -s else s

/-- cos(πu) for u in [0, 2]. -/
def fxCosPi (u : Int) : Int :=
  let v := u + fxOne / 2
  fxSinPi (if 2 * fxOne ≤ v then v - 2 * fxOne else v)

/-- The fourteen functions of R94, by their operation codes 0x10–0x1D. -/
inductive SfuFn where
  | exp | exp2 | log | log2 | rcp | rsqrt | sqrt | sigmoid | tanh | silu | gelu | softplus | sinpi | cospi
  deriving DecidableEq, Repr

/-- Function codes (R94). -/
def sfuFnOfCode : Nat → Option SfuFn
  | 0x10 => some .exp | 0x11 => some .exp2 | 0x12 => some .log | 0x13 => some .log2 | 0x14 => some .rcp
  | 0x15 => some .rsqrt | 0x16 => some .sqrt | 0x17 => some .sigmoid | 0x18 => some .tanh | 0x19 => some .silu
  | 0x1A => some .gelu | 0x1B => some .softplus | 0x1C => some .sinpi | 0x1D => some .cospi
  | _ => none

/-- The reduced function g of R437 step 3, in fixed point. -/
def sampleFn (f : SfuFn) (u : Int) : Int :=
  match f with
  | .exp | .exp2 => fxExp (fxMul u fxLn2)
  | .log => fxLn u
  | .log2 => fxDiv (fxLn u) fxLn2
  | .rcp => fxDiv fxOne u
  | .rsqrt => fxDiv fxOne (fxSqrt u)
  | .sqrt => fxSqrt u
  | .sigmoid => fxDiv fxOne (fxOne + fxExp (-u))
  | .tanh => let a := if u < 0 then -u else u
             let q := fxExp (-2 * a)
             let t := fxDiv (fxOne - q) (fxOne + q)
             if u < 0 then -t else t
  | .silu => fxDiv u (fxOne + fxExp (-u))
  | .gelu => fxMul u (fxPhi u)
  | .softplus =>
    let q := fxExp (if u < 0 then u else -u)
    let l := 2 * atanhSum (fxMul (fxDiv q (2 * fxOne + q)) (fxDiv q (2 * fxOne + q))) 180 (fxDiv q (2 * fxOne + q)) 1
    if u < 0 then l else u + l
  | .sinpi => fxSinPi u
  | .cospi => fxCosPi u

/-- A segment (R437 step 2): v in [a, a + w), a = lo × 2^we and w = 2^we, with the rule that gives u back from v. -/
structure Segment where
  lo : Nat
  we : Int
  neg : Bool
  deriving DecidableEq, Repr

/-- u at v = x × 2^e, in fixed point: v itself with the sign of the segment, or 1 ± v where v is |u − 1|. -/
def segPoint (aroundOne : Bool) (g : Segment) (x : Int) (e : Int) : Int :=
  let v := fxOf x e
  if aroundOne then (if g.neg then fxOne - v else fxOne + v) else if g.neg then -v else v

/-- Exponent of the leading bit of a fixed-point magnitude. -/
def fxLead (x : Int) : Int := (Nat.log2 x.natAbs : Nat) - fxBits

/-- A fixed-point number to the nearest multiple of 2^q, ties to even; the result is in units of 2^q. -/
def fxRound (x : Int) (q : Int) : Int :=
  let n : Int := scaleNearest x.natAbs (-(fxBits : Int) - q)
  if x < 0 then -n else n

/-- Rounding step exponent E − 40 of a segment (R437 step 3). -/
def segStep (f : SfuFn) (around : Bool) (g : Segment) : Int :=
  let s := fun x e => sampleFn f (segPoint around g x e)
  let top := max (s g.lo g.we).natAbs (max (s (2 * g.lo + 1) (g.we - 1)).natAbs (s (g.lo + 1) g.we).natAbs)
  fxLead top - 40

/-- y0 of a segment: g at v = a, rounded, in units of 2^(its step). -/
def segStart (f : SfuFn) (around : Bool) (g : Segment) : Int × Int :=
  let q := segStep f around g
  (fxRound (sampleFn f (segPoint around g g.lo g.we)) q, q)

/-- The quadratic of a segment at t = tn × 2^te (R437 steps 4 and 5), as a value. `next` is the adjacent segment. -/
def segEval (f : SfuFn) (around : Bool) (g : Segment) (next : Option Segment) (tn : Nat) (te : Int) : Val :=
  let q := segStep f around g
  let y0 := fxRound (sampleFn f (segPoint around g g.lo g.we)) q
  let y1 := fxRound (sampleFn f (segPoint around g (2 * g.lo + 1) (g.we - 1))) q
  let y2 := match next with
    | some h => segStart f around h
    | none => (fxRound (sampleFn f (segPoint around g (g.lo + 1) g.we)) q, q)
  let e := min q y2.2
  let up := fun (p : Int × Int) => p.1 * ((2 ^ (p.2 - e).toNat : Nat) : Int)
  let a0 := up (y0, q)
  let a1 := up (y1, q)
  let a2 := up y2
  let c0 := a0
  let c1 := 4 * a1 - 3 * a0 - a2
  let c2 := 2 * a0 - 4 * a1 + 2 * a2
  -- te ≤ 0: bring the three terms to the exponent e + 2·te
  let k := ((2 ^ (-te).toNat : Nat) : Int)
  valOfInt (c0 * k * k + c1 * tn * k + c2 * tn * tn) (e + 2 * te)

/-- The segment of v = m × 2^e (m ≠ 0) within its octave: 64 to the octave. Gives the segment and t. -/
def octaveSegment (neg : Bool) (m : Nat) (e : Int) : Segment × Nat × Int :=
  let k : Nat := Nat.log2 m
  -- v = m·2^e, octave [2^(k+e), 2^(k+e+1)), width 2^(k+e−6)
  let m' := m * 2 ^ 6
  let lo := m' / 2 ^ k
  let rest := m' % 2 ^ k
  ({ lo := lo, we := e + k - 6, neg := neg }, rest, -(k : Int))

/-- The segment after g in the same octave, or the first of the next octave. -/
def octaveNext (g : Segment) : Segment :=
  if g.lo + 1 == 128 then { g with lo := 64, we := g.we + 1 } else { g with lo := g.lo + 1 }

/-- The segment of v in [0, N) cut in equal parts of 2^we: v = m × 2^e with e ≤ we. -/
def evenSegment (we : Int) (m : Nat) (e : Int) : Segment × Nat × Int :=
  let k := (we - e).toNat
  ({ lo := m / 2 ^ k, we := we, neg := false }, m % 2 ^ k, -(k : Int))

/-- m × 2^e brought to an exponent at most `top`, exactly. -/
def lowerExp (top : Int) (m : Nat) (e : Int) : Nat × Int :=
  if e ≤ top then (m, e) else (m * 2 ^ (e - top).toNat, top)

/-- Value of 2^n times v. -/
def scaleVal (n : Int) : Val → Val
  | .fin s m e => .fin s m (e + n)
  | v => v

/-- 1 as a value. -/
def oneVal : Val := .fin false 1 0

/-- Zero of a sign. -/
def zeroVal (neg : Bool) : Val := .fin neg 0 0

/-- v compared with 2^k: whether m × 2^e < 2^k. -/
def belowPow (m : Nat) (e k : Int) : Bool := m == 0 || decide (e + (Nat.log2 m : Nat) < k)

/-- Evaluates on [0, 1) cut in 64 (EXP, EXP2): u = m × 2^e. -/
def unitEval (f : SfuFn) (m : Nat) (e : Int) : Val :=
  let p := lowerExp (-6) m e
  let s := evenSegment (-6) p.1 p.2
  segEval f false s.1 (if s.1.lo + 1 == 64 then none else some { s.1 with lo := s.1.lo + 1 }) s.2.1 s.2.2

/-- Evaluates on octaves from 2^kmin up to 2^kmax. -/
def octaveEval (f : SfuFn) (around : Bool) (kmax : Int) (neg : Bool) (m : Nat) (e : Int) : Val :=
  let s := octaveSegment neg m e
  let n := octaveNext s.1
  -- the next segment lies in the range when its start is below 2^kmax
  let inRange := belowPow n.lo n.we kmax || (around && neg && n.lo == 64 && n.we == -7)
  segEval f around s.1 (if inRange then some n else none) s.2.1 s.2.2

/-- Floor and fraction of (−1)^neg m × 2^e with the fraction as num × 2^e' , e' ≤ 0. -/
def floorFrac (neg : Bool) (m : Nat) (e : Int) : Int × Nat × Int :=
  if 0 ≤ e then (signedAt neg m e 0, 0, 0)
  else
    let d : Nat := 2 ^ (-e).toNat
    let x : Int := if neg then -(m : Int) else m
    (x / d, (x % d).toNat, e)

/-- log2 e in fixed point. -/
def fxLog2e : Int := fxDiv fxOne fxLn2

/-- EXP (R437): w = x × log2 e to a multiple of 2^−40, then 2^n times the quadratic at the fraction. -/
def expVal (neg : Bool) (m : Nat) (e : Int) : Val :=
  if m == 0 then oneVal
  -- beyond 2^12 in magnitude every format overflows or underflows to zero
  else if !belowPow m e 12 then (if neg then .fin false 1 (-4096) else .fin false 1 4096)
  else
    let w : Int := scaleNearest (m * fxLog2e.toNat) (e - fxBits + 40)
    let w := if neg then -w else w
    let n := w / ((2 ^ 40 : Nat) : Int)
    let u := (w % ((2 ^ 40 : Nat) : Int)).toNat
    scaleVal n (unitEval .exp u (-40))

/-- EXP2 (R437). -/
def exp2Val (neg : Bool) (m : Nat) (e : Int) : Val :=
  if m == 0 then oneVal
  else if !belowPow m e 12 then (if neg then .fin false 1 (-4096) else .fin false 1 4096)
  else
    let p := floorFrac neg m e
    if p.2.1 == 0 then .fin false 1 p.1 else scaleVal p.1 (unitEval .exp2 p.2.1 p.2.2)

/-- Mantissa in [1, 2) and exponent: m × 2^e = (m × 2^−k) × 2^(e+k). -/
def mantOf (m : Nat) (e : Int) : Nat × Int × Int := let k : Nat := Nat.log2 m; (m, -(k : Int), e + k)

/-- ln 2 rounded to a multiple of 2^−64 (R437 step 5), in units of 2^−64. -/
def ln2At64 : Int := fxRound fxLn2 (-64)

/-- LOG and LOG2 of a positive value (R437). -/
def logVal (two : Bool) (m : Nat) (e : Int) : Val :=
  let f := if two then SfuFn.log2 else .log
  let k := mantOf m e
  let pow2 := m == 2 ^ Nat.log2 m
  if pow2 && k.2.2 == 0 then zeroVal false
  else if two && pow2 then valOfInt k.2.2 0
  else if k.2.2 == 0 then
    -- x in [1, 2): v = x − 1
    let v := m - 2 ^ Nat.log2 m
    octaveEval f true 0 false v k.2.1
  else if k.2.2 == -1 then
    -- x in [0.5, 1): v = 1 − x, at exponent e
    let v := 2 ^ (-e).toNat - m
    octaveEval f true (-1) true v e
  else
    let p := octaveEval f false 1 false k.1 k.2.1
    if two then addVal p (valOfInt k.2.2 0) else addVal p (valOfInt (k.2.2 * ln2At64) (-64))

/-- RCP of a nonzero value. -/
def rcpVal (neg : Bool) (m : Nat) (e : Int) : Val :=
  let k := mantOf m e
  match scaleVal (-k.2.2) (octaveEval .rcp false 1 false k.1 k.2.1) with
  | .fin _ a b => .fin neg a b
  | v => v

/-- SQRT or RSQRT of a positive value: x = m × 4^n with m in [1, 4). -/
def sqrtVal (inv : Bool) (m : Nat) (e : Int) : Val :=
  let k := mantOf m e
  let n := k.2.2 / 2
  let odd := k.2.2 % 2
  let p := octaveEval (if inv then .rsqrt else .sqrt) false 2 false k.1 (k.2.1 + odd)
  scaleVal (if inv then -n else n) p

/-- SINPI and COSPI: x reduced exactly modulo 2, segments of 1/256. -/
def trigVal (cosine : Bool) (neg : Bool) (m : Nat) (e : Int) : Val :=
  let f := if cosine then SfuFn.cospi else .sinpi
  -- u = x mod 2 = num × 2^e'
  let e' := min e 0
  let x : Int := signedAt neg m e e'
  let d : Int := ((2 ^ (1 - e').toNat : Nat) : Int)
  let num := (x % d).toNat
  let half := 2 ^ (-e' - 1).toNat
  let whole := 2 ^ (-e').toNat
  if num % whole == 0 then
    (if cosine then (if num == 0 then oneVal else .fin true 1 0) else zeroVal false)
  else if cosine && num % whole == half then zeroVal false
  else
    let p := lowerExp (-8) num e'
    let s := evenSegment (-8) p.1 p.2
    segEval f false s.1 (if s.1.lo + 1 == 512 then none else some { s.1 with lo := s.1.lo + 1 }) s.2.1 s.2.2

/-- An FP32 rounding of a value, as a value. -/
def roundF32 (v : Val) : Val := decF32 (encF32 v)

/-- A function of R94 on a value, exact before its one rounding to the output format. -/
def sfuFnVal (f : SfuFn) (x : Val) : Val :=
  match x with
  | .nan => .nan
  | .inf neg =>
    match f with
    | .exp | .exp2 => if neg then zeroVal false else .inf false
    | .log | .log2 | .sqrt => if neg then .nan else .inf false
    | .rcp => zeroVal neg
    | .rsqrt => if neg then .nan else zeroVal false
    | .sigmoid => if neg then zeroVal false else oneVal
    | .tanh => .fin neg 1 0
    | .silu | .gelu => if neg then zeroVal true else .inf false
    | .softplus => if neg then zeroVal false else .inf false
    | .sinpi | .cospi => .nan
  | .fin neg m e =>
    match f with
    | .exp => expVal neg m e
    | .exp2 => exp2Val neg m e
    | .log => if m == 0 then .inf true else if neg then .nan else logVal false m e
    | .log2 => if m == 0 then .inf true else if neg then .nan else logVal true m e
    | .rcp => if m == 0 then .inf neg else rcpVal neg m e
    | .rsqrt => if m == 0 then .inf neg else if neg then .nan else sqrtVal true m e
    | .sqrt => if m == 0 then zeroVal neg else if neg then .nan else sqrtVal false m e
    | .sigmoid =>
      if belowPow m e (-12) then addVal (.fin false 1 (-1)) (scaleVal (-2) x)
      else if belowPow m e 5 then octaveEval .sigmoid false 5 neg m e
      else if neg then expVal neg m e else oneVal
    | .tanh =>
      if belowPow m e (-12) then x
      else if belowPow m e 4 then octaveEval .tanh false 4 neg m e else .fin neg 1 0
    | .silu =>
      if belowPow m e (-12) then scaleVal (-1) x
      else if belowPow m e 6 then octaveEval .silu false 6 neg m e
      else if neg then mulVal x (roundF32 (expVal neg m e)) else x
    | .gelu =>
      if belowPow m e (-12) then scaleVal (-1) x
      else if belowPow m e 4 then octaveEval .gelu false 4 neg m e
      else if neg then zeroVal true else x
    | .softplus =>
      if belowPow m e (-12) then addVal (valOfInt fxLn2 (-(fxBits : Int))) (scaleVal (-1) x)
      else if belowPow m e 5 then octaveEval .softplus false 5 neg m e
      else if neg then expVal neg m e else x
    | .sinpi => trigVal false neg m e
    | .cospi => trigVal true neg m e

/-- A function result in BF16, FP16 or FP32 directly, or in FP32 for the other outputs (R91, R437 step 5). -/
def sfuFnCode (f : SfuFn) (out : Fmt) (x : Val) : Nat := encodeFmt out (sfuFnVal f x)

/-- EXP of an FP32 word, rounded to FP32. -/
def expF32 (b : BitVec 32) : BitVec 32 := encF32 (sfuFnVal .exp (decF32 b))

/-- RCP of an FP32 word, rounded to FP32. -/
def rcpF32 (b : BitVec 32) : BitVec 32 := encF32 (sfuFnVal .rcp (decF32 b))

/-- RSQRT of an FP32 word, rounded to FP32. -/
def rsqrtF32 (b : BitVec 32) : BitVec 32 := encF32 (sfuFnVal .rsqrt (decF32 b))

end Sys2Proof.Machine
end

