-- ==== Sys2Proof/Machine/CoreOps.lean ====
section
/-! DEFINITION. What every word of a core shares: the timetable, ownership faults (R78, R439), the engine map (R82, R83), and
activation memory with its banks (R60). -/
namespace Sys2Proof.Machine

/-! ### The timetable -/

/-- Rank of an act within its cycle: results first, then reads, then writes, then what ends the cycle (log entry 8). Fetched words
are ready as the next cycle begins, before a word issues in it (R65). -/
def actRank : Act → Nat
  | .macUpd .. | .accWrite .. | .portBeat .. | .stageBeat .. | .lpBeat .. | .bpReturn .. => 0
  | .macRead .. | .opEntry .. | .drainRead .. | .epiScalar .. | .epiBlock .. | .accRead .. | .sfu .. | .sendBeat ..
  | .sendHeader .. | .recvBeat .. | .beatOut .. | .bpSample .. | .bpSend .. | .ldmaOut .. => 1
  | .putBlock .. | .putBytes .. | .beatIn .. | .bpDeliver .. | .bpPlace .. | .fetchBus | .addResult .. | .ldmaIn .. => 2
  | .portEnd | .bpStart .. | .bpRelease .. => 3
  | .fetchReady .. => 7

/-- Inserts an entry after every entry of the same or an earlier place. -/
def insertTimed (e : Timed) : List Timed → List Timed
  | [] => [e]
  | x :: r => if x.key ≤ e.key then x :: insertTimed e r else e :: x :: r

/-- Puts an act into a core's timetable, for cycle `t`. -/
def at_ (t word : Nat) (a : Act) (x : Core) : Core :=
  { x with agenda := insertTimed ⟨8 * t + actRank a, word, a⟩ x.agenda }

/-- Puts an act into the timetable of a core of the state. -/
def schedule (d : Stack) (c : CoreIx) (t word : Nat) (a : Act) (s : State) : State := updCore d c (at_ t word a) s

/-! ### Step-program words -/

/-- The class of a word (R68). -/
def wordClass (w : BitVec 128) : Nat := wbits w 19 16

/-- The engine mask of a word. -/
def wordEmask (w : BitVec 128) : Nat := wbits w 23 20

/-- The row of the opcode table that a word is. A word that no other row names is a NOP row's word. -/
def rowOf (w : BitVec 128) : WordRow :=
  match wordClass w with
  | 0x1 => .mac
  | 0x2 => .opload
  | 0x3 => .swap
  | 0x4 => .drain
  | 0x5 => .accld
  | 0x6 => .vdma
  | 0x7 =>
    let op := wbits w 29 24
    if (1 ≤ op ∧ op ≤ 8) ∨ (0x10 ≤ op ∧ op ≤ 0x1D) ∨ (0x20 ≤ op ∧ op ≤ 0x22) ∨ (0x28 ≤ op ∧ op ≤ 0x2B) then .sfu op else .nop
  | 0x8 => match wbits w 27 24 with | 1 => .send | 2 => .recv | 3 => .rsend | 4 => .route | _ => .nop
  | 0x9 => match wbits w 27 24 with | 1 => .bpStart | 2 => .bpRelease | _ => .nop
  | 0xA => match wbits w 27 24 with | 1 => .ldmaRead | 2 => .ldmaWrite | 3 => .ldmaGather | _ => .nop
  | 0xF => .endWord
  | _ => .nop

/-! ### Ownership faults -/

/-- The kinds of R78. -/
def fWordLate : Nat := 0x1
def fBadWord : Nat := 0x2
def fIssueConflict : Nat := 0x3
def fEngineAbsent : Nat := 0x4
def fOpsetNotReady : Nat := 0x5
def fOpsetBusy : Nat := 0x6
def fAccHazard : Nat := 0x7
def fWbufRace : Nat := 0x8
def fAmemBank : Nat := 0x9
def fVbusConflict : Nat := 0xA
def fOverrun : Nat := 0xB
def fLaunch : Nat := 0xC

/-- Records an ownership fault of a core (R78): OWN_FAULT if it is free, the core station's unit of R439, and poison. A LAUNCH fault
shows the selector of the running or last step, as every other kind does (DESIGN CHOICE, log entry 76). -/
def ownFault (d : Stack) (c : CoreIx) (kind eng unit word t : Nat) (s : State) : State :=
  let x := getCore s d c
  let off := t - x.start
  let a := r_OWN_FAULT d c
  let s := if getF s a f_OWN_FAULT_VALID = 1 then s else
    putReg s a (BitVec.ofNat 64 (1 + eng % 8 * 2 + kind * 16 + 2 ^ 8 * (off % 2 ^ 24) + 2 ^ 32 * (word % 2 ^ 24) + 2 ^ 56 * (x.sel % 256)))
  noteFault d kind (poisonStep d c (recordErr (.core d c) unit kOwnership x.sel off s))

/-- A fault of the sequencer (unit 4). -/
def seqFault (d : Stack) (c : CoreIx) (kind word t : Nat) (s : State) : State := ownFault d c kind 7 4 word t s

/-! ### Engines -/

/-- The physical engines that serve the logical positions: all four, or three without the omitted one (R82). -/
def enginePositions (s : State) (d : Stack) (c : CoreIx) : List Nat :=
  let m := r_CORE_ENGMAP d c
  if getF s m f_CORE_ENGMAP_GRADE_B = 1 then (List.range 4).filter fun p => p ≠ getF s m f_CORE_ENGMAP_OMIT else List.range 4

/-- The number of logical engines. -/
def engineCount (s : State) (d : Stack) (c : CoreIx) : Nat := (enginePositions s d c).length

/-- The physical engine that serves logical engine `e` (R83). -/
def physEngine (s : State) (d : Stack) (c : CoreIx) (e : Nat) : Nat :=
  let l := enginePositions s d c
  l.getD ((e + getF s (r_CORE_CTRL d c) f_CORE_CTRL_ROT) % l.length) 0

/-- The logical engines that a mask names, in ascending order: their order in the mask is their place in this list. -/
def maskEngines (mask : Nat) : List Nat := (List.range 4).filter fun e => mask.testBit e

/-- A physical engine of a core. -/
def getEng (x : Core) (p : Nat) : Engine :=
  match p with | 0 => x.engines.e0 | 1 => x.engines.e1 | 2 => x.engines.e2 | 3 => x.engines.e3 | _ => Engine.reset

/-- The core with a physical engine changed. -/
def updEng (p : Nat) (f : Engine → Engine) (x : Core) : Core :=
  match p with
  | 0 => { x with engines := { x.engines with e0 := f x.engines.e0 } }
  | 1 => { x with engines := { x.engines with e1 := f x.engines.e1 } }
  | 2 => { x with engines := { x.engines with e2 := f x.engines.e2 } }
  | 3 => { x with engines := { x.engines with e3 := f x.engines.e3 } }
  | _ => x

/-- The value of lane `l` of an accumulator. -/
def getAcc (x : Core) (p a l : Nat) : BitVec 32 := sget 0#32 (getEng x p).acc (128 * a + l)

/-- The core with lanes `l`, `l` + 1, … of an accumulator set. -/
def setAcc (p a l : Nat) (vals : List (BitVec 32)) (x : Core) : Core :=
  updEng p (fun g => { g with acc := (vals.zipIdx l).foldl (fun m v => sput 0#32 m (128 * a + v.2) v.1) g.acc }) x

/-- The core with every lane of an accumulator at +0. -/
def clearAcc (p a : Nat) (x : Core) : Core :=
  updEng p (fun g => { g with acc := g.acc.filter fun q => q.1 / 128 ≠ a }) x

/-! ### Activation memory (R60) -/

/-- The banks that `n` bytes at an activation-memory offset touch. -/
def banksOf (off n : Nat) : List Nat :=
  (List.range ((off + n - 1) / 32 - off / 32 + 1)).map fun i => (off / 32 + i) % 16

/-- One access of activation memory in cycle `t`: true when its banks are free, else an AMEM_BANK fault. -/
def useBanks (d : Stack) (c : CoreIx) (t off n word : Nat) (s : State) : Bool × State :=
  let x := getCore s d c
  let used := if x.bankUse.1 = t then x.bankUse.2 else []
  let bs := banksOf off n
  if bs.any used.contains then (false, ownFault d c fAmemBank 7 6 word t s)
  else (true, putCore s d c { x with bankUse := (t, used ++ bs) })

/-- Reads `n` bytes of activation memory in cycle `t`; none when the access is suppressed. -/
def amemRead (d : Stack) (c : CoreIx) (t off n word : Nat) (s : State) : Option Nat × State :=
  let (ok, s) := useBanks d c t off n word s
  (if ok then some (readMem s (tileKey d c (amemBase + off)) n) else none, s)

/-- Writes `n` bytes of activation memory in cycle `t`, unless the access is suppressed. -/
def amemWrite (d : Stack) (c : CoreIx) (t off n v word : Nat) (s : State) : State :=
  let (ok, s) := useBanks d c t off n word s
  if ok then writeMem (tileKey d c (amemBase + off)) n v s else s

/-- Would an access reach beyond activation memory? -/
def leavesAmem (off n : Nat) : Bool := decide (amemSize < off + n)

/-- Would a write reach the bytes of the poison flag (R218)? -/
def hitsPoison (off n : Nat) : Bool := decide (off < poisonOff + 32) && decide (poisonOff < off + n)

/-! ### Blocks in memory -/

/-- The FP32 values of a block of 32 elements in BF16, FP16 or FP32. -/
def unpackVals (f : Fmt) (n v : Nat) : List (BitVec 32) :=
  (List.range n).map fun i => BitVec.ofNat 32 (convertFmt f .fp32 (v / 2 ^ (fmtBits f * i) % 2 ^ fmtBits f))

/-- The codes and the scale byte of 32 values in a format (R42, R43), and whether a conversion saturated. -/
def packBlock (f : Fmt) (vals : List (BitVec 32)) : Nat × Byte × Bool :=
  match f with
  | .bf16 | .fp16 | .fp32 => (packCodes (fmtBits f) (vals.map fun v => convertFmt .fp32 f v.toNat), 0, false)
  | _ => let (sc, codes, sat) := mxQuant f (vals.map decF32)
         (packCodes (fmtBits f) codes, sc, sat)

/-- Marks in SFU_STATUS what an output block held (R108). -/
def markSfu (d : Stack) (c : CoreIx) (f : Fmt) (codes : Nat) (scale : Byte) (n : Nat) (sat : Bool) (s : State) : State :=
  let vs := (List.range n).map fun i => decodeFmt f (codes / 2 ^ (fmtBits f * i) % 2 ^ fmtBits f)
  let nan := vs.any (· = .nan) || (fmtScaled f && scale == 0xFF#8)
  let inf := vs.any fun v => match v with | .inf _ => true | _ => false
  let a := r_SFU_STATUS d c
  let s := if nan then putF a f_SFU_STATUS_NAN_OUT 1 s else s
  let s := if inf then putF a f_SFU_STATUS_INF_OUT 1 s else s
  if sat then putF a f_SFU_STATUS_SAT 1 s else s

/-- Writes a 32-element block in cycle `t`: its codes, and its scale byte as an access of its own (R60). -/
def putBlockNow (d : Stack) (c : CoreIx) (t word : Nat) (f : Fmt) (dst scl : Nat) (vals : List (BitVec 32)) (sfu : Bool)
    (s : State) : State :=
  let (codes, sc, sat) := packBlock f vals
  let s := amemWrite d c t dst (blockStride f) codes word s
  let s := if fmtScaled f then amemWrite d c t scl 1 sc.toNat word s else s
  if sfu then markSfu d c f codes sc 32 sat s else s

end Sys2Proof.Machine
end

