-- ==== Sys2Proof/Machine/VaultOps.lean ====
section
/-! DEFINITION. The vault as the controller sees it: the stripe-set map (R257, R258), region codes (R286), reading and writing
code words (R282 to R290), FLIPMASK (R289), held cycles (R263) and the use of the vertical bus (R63). -/
namespace Sys2Proof.Machine

/-! ### The map -/

/-- Is bank group `j` NEAR (R147, R148: the reserved roles act as WEIGHT)? -/
def isNear (s : State) (d : Stack) (c : CoreIx) (j : Nat) : Bool := getF s (r_BP_CTRL d j c) f_BP_CTRL_ROLE == 1

/-- The groups of set W, in ascending order (R257). -/
def setW (s : State) (d : Stack) (c : CoreIx) : List Nat := (List.range 24).filter fun j => !isNear s d c j

/-- The groups of set N. -/
def setN (s : State) (d : Stack) (c : CoreIx) : List Nat := (List.range 24).filter fun j => isNear s d c j

/-- The first address above the vault's DRAM. -/
def dramEnd : Nat := 0x60000000

/-- Group and group offset of a vault address below 0x6000_0000 (R258). -/
def mapVault (s : State) (d : Stack) (c : CoreIx) (a : Nat) : Nat × Nat :=
  let w := setW s d c
  let split := 0x4000000 * w.length
  let (base, set) := if a < split then (0, w) else (split, setN s d c)
  let u := (a - base) / 2048
  (set.getD (u % set.length) 0, 2048 * (u / set.length) + a % 2048)

/-- The vault address of an offset of group `j` where `w` and `n` are the sets: the inverse of the map of R258. -/
def unmapBy (w n : List Nat) (j off : Nat) : Nat :=
  let (base, set) := if n.contains j then (0x4000000 * w.length, n) else (0, w)
  base + 2048 * (off / 2048 * set.length + set.idxOf j) + off % 2048

/-- The vault address of a group offset: the inverse of `mapVault`. -/
def unmapVault (s : State) (d : Stack) (c : CoreIx) (j off : Nat) : Nat := unmapBy (setW s d c) (setN s d c) j off

/-- Bank of a group offset (R142). -/
def offBank (off : Nat) : Nat := bits off 12 11

/-- Row of a group offset. -/
def offRow (off : Nat) : Nat := bits off 25 13

/-- The key of the code word at a vault address. -/
def vaultKey (s : State) (d : Stack) (c : CoreIx) (a : Nat) : Nat :=
  let (j, off) := mapVault s d c a
  bankKey d c j off

/-! ### Region codes (R286) -/

/-- Counts a compiled access of `n` units at the layer of a vault address (R391): the controller's activate and beats. -/
def addAcc (d : Stack) (c : CoreIx) (a n : Nat) (s : State) : State :=
  let l := (mapVault s d c a).1 / 4
  updTherm d (fun t => { t with acc := sput 0 t.acc l (sget 0 t.acc l + n) }) s

/-- The first valid descriptor of a list that covers a unit. -/
def regionIn (l : List Word) (unit : Nat) : Option Word :=
  l.find? fun r =>
    fieldOf f_ECC_REGION_VALID r == 1 && decide (fieldOf f_ECC_REGION_BASE r ≤ unit) && decide (unit ≤ fieldOf f_ECC_REGION_LIMIT r)

/-- The descriptors of a block, in index order. -/
def regions (s : State) (base : Nat) : List Word := (List.range 64).map fun n => getReg s (base + 8 * n)

/-- The valid descriptors of a block. -/
def validRegions (s : State) (base : Nat) : List Word := (regions s base).filter fun r => fieldOf f_ECC_REGION_VALID r == 1

/-- The first valid descriptor of a block that covers a unit decides; none means the S-code. -/
def regionOf (s : State) (base : Nat) (unit : Nat) : Option Word := regionIn (regions s base) unit

/-- The code of a descriptor. -/
def regionCode (r : Option Word) : Code :=
  match r with | some r => if fieldOf f_ECC_REGION_CODE r = 1 then .l else .s | none => .s

/-- The code of a vault address. -/
def vaultCode (s : State) (d : Stack) (c : CoreIx) (a : Nat) : Code := regionCode (regionOf s (r_ECC_REGION d c 0) (a / 2048))

/-- The code under which a vault's last initialisation wrote the word at a group offset (R286, log entry 99). -/
def bankInitCode (s : State) (d : Stack) (c : CoreIx) (j off : Nat) : Code :=
  let v := getVc s d c
  regionCode (regionIn v.inits (unmapBy ((List.range 24).filter fun g => !v.initNear.contains g) v.initNear j off / 2048))

/-! ### Merge-buffer forwarding (R288 rule 4) -/

/-- Bytes of `new` under a mask over `old`. -/
def maskBytes (mask : BitVec 64) (old new : BitVec 512) : BitVec 512 :=
  let m := (List.range 64).foldl (fun (a : Nat) i => a + if mask.getLsbD i then 2 ^ (8 * i) * 0xFF else 0) 0
  (old &&& ~~~(BitVec.ofNat 512 m)) ||| (new &&& BitVec.ofNat 512 m)

/-- The live entry for a code word. -/
def liveEntry (m : List MergeEntry) (a : Nat) : Option MergeEntry := m.find? fun e => e.addr == a

/-! ### Reading a code word -/

/-- The symbol that the S-code decoder corrects in a word. -/
def correctedSym (w : CodeWord) : Option Nat :=
  let s := syndromes w
  if s.all (· = 0#16) || s = poisonSyndromes then none else (singleError s).map symOfCoeff

/-- The wires' upsets of word `i` of a beat, XORed into it: symbol lane ℓ carries symbol ℓ mod 36 of word ⌊ℓ/36⌋ (R282, log entry 96). -/
def upsetWord (u : Upsets) (i : Nat) (w : CodeWord) : CodeWord :=
  u.foldl (fun (w : CodeWord) (p : Nat × BitVec 16) =>
    if p.1 / 36 = i then
      let sym := p.1 % 36
      flipSym sym p.2 w
    else w) w

/-- Counts errors of a word per symbol lane (R260). -/
def countLanes (d : Stack) (c : CoreIx) (i : Nat) (w : CodeWord) (o : CodeOutcome) (u : Upsets) (s : State) : State :=
  let lanes := match o with
    | .clean => []
    | .corrected => match correctedSym w with | some y => [36 * i + y] | none => []
    | _ => (u.filter fun (p : Nat × BitVec 16) => p.1 / 36 = i).map (fun (p : Nat × BitVec 16) => p.1)
  updVc d c (fun v => { v with laneErr := lanes.foldl (fun m l => sput 0 m l (sget 0 m l + 1)) v.laneErr }) s

/-- Counts a checked word in ECC_COUNT (R290). -/
def countWord (a : Nat) (o : CodeOutcome) (s : State) : State :=
  match o with
  | .clean => s
  | .corrected => bumpF a f_ECC_COUNT_CORR 1 s
  | _ => bumpF a f_ECC_COUNT_UNCORR 1 s

/-- Reads the code word at a vault address from its bank through the vertical interface: word `i` of its beat, with the transfer's
upsets. -/
def vaultRead (d : Stack) (c : CoreIx) (a i : Nat) (u : Upsets) (s : State) : BitVec 512 × CodeOutcome × State :=
  let (j, off) := mapVault s d c a
  let w := upsetWord u i (readWord s (bankInitCode s d c j off) (bankKey d c j off))
  let (data, o) := decodeWord (vaultCode s d c a) false w
  (data, o, countLanes d c i w o u (countWord (r_ECC_COUNT d c) o s))

/-- What a host, compiled or scrub read of a code word answers: a live merge entry's bytes replace the bank's (R288 rule 4). -/
def vaultLoad (d : Stack) (c : CoreIx) (a i : Nat) (u : Upsets) (s : State) : BitVec 512 × CodeOutcome × State :=
  let (data, o, s) := vaultRead d c a i u s
  (match liveEntry (getVc s d c).merge a with | some e => maskBytes e.mask data e.data | none => data, o, s)

/-! ### Writing a code word -/

/-- Who writes a code word (R289). -/
def wHost : Nat := 1
def wCompiled : Nat := 2
def wBp : Nat := 3
def wOther : Nat := 4

/-- Does an armed FLIPMASK match a write by `who` to bank group `grp`? -/
def flipMatches (m : Word) (who grp : Nat) : Bool :=
  fieldOf f_ECC_FLIPMASK_ARM m == 1 &&
    match fieldOf f_ECC_FLIPMASK_TARGET m with
    | 0 => true
    | 3 => who == wBp && fieldOf f_ECC_FLIPMASK_GRP m == grp
    | t => who == t

/-- Applies the patterns of a FLIPMASK to a word (symbols above 35 act as 35). -/
def flipWord (m : Word) (w : CodeWord) : CodeWord :=
  let p := fun en sy pa (w : CodeWord) =>
    if fieldOf en m = 1 then flipSym (min (fieldOf sy m) 35) (BitVec.ofNat 16 (fieldOf pa m)) w else w
  p f_ECC_FLIPMASK_EN1 f_ECC_FLIPMASK_SYM1 f_ECC_FLIPMASK_PAT1 (p f_ECC_FLIPMASK_EN0 f_ECC_FLIPMASK_SYM0 f_ECC_FLIPMASK_PAT0 w)

/-- Stores a code word of bank group `j` at a group offset, under an armed FLIPMASK that matches. A scrub write-back of the word is
then void (R294). -/
def storeBankWord (d : Stack) (c : CoreIx) (j off who : Nat) (w : CodeWord) (s : State) : State :=
  let a := r_ECC_FLIPMASK d c
  let m := getReg s a
  let s := updVc d c (fun v => { v with writeback := v.writeback.filter fun p => p.1 ≠ unmapVault s d c j off }) s
  if flipMatches m who j then writeWord (bankKey d c j off) (flipWord m w) (putF a f_ECC_FLIPMASK_ARM 0 s)
  else writeWord (bankKey d c j off) w s

/-- The place of a code word among the four that cross the interface in one cc. -/
def laneWord (a : Nat) : Nat := a / 64 % 4

/-- A transfer over the vertical interface is detected as bad and not corrected: it is recorded as VBUS at unit 10, and a step that
runs is poisoned (R260, R296). -/
def vbusError (d : Stack) (c : CoreIx) (s : State) : State :=
  let x := getCore s d c
  let s := recordErr (.core d c) 10 kVbus x.sel (if x.running then x.now - x.start else 0) s
  if x.running then poisonStep d c s else s

/-- A code word crosses the interface as word `i` of its beat, with the wires' upsets, and its receiver checks it (R260): the data it
takes, none where it finds an error that it cannot correct. -/
def crossWord (d : Stack) (c : CoreIx) (code : Code) (i : Nat) (u : Upsets) (data : BitVec 512) (s : State) : Option (BitVec 512) × State :=
  match u with
  | [] => (some data, s)
  | u =>
    let w := upsetWord u i (encodeWord code data)
    let (v, o) := decodeWord code false w
    let s := countLanes d c i w o u s
    if badOutcome o then (none, vbusError d c s) else (some v, s)

/-- The layer stores a word that has crossed the interface with upsets, encoded under its region's code. One that its check refuses is
not stored (R260, log entry 92). -/
def vaultStore (d : Stack) (c : CoreIx) (a who : Nat) (u : Upsets) (data : BitVec 512) (s : State) : State :=
  let (j, off) := mapVault s d c a
  match crossWord d c (vaultCode s d c a) (laneWord a) u data s with
  | (some v, s) => storeBankWord d c j off who (encodeWord (vaultCode s d c a) v) s
  | (none, s) => s

/-- Writes a poison word at a vault address (R288 rule 6). -/
def vaultPoison (d : Stack) (c : CoreIx) (a : Nat) (data : BitVec 512) (s : State) : State :=
  let (j, off) := mapVault s d c a
  storeBankWord d c j off wOther (poisonWord (vaultCode s d c a) data) s

/-- A compiled whole-word write: it discards a live merge entry (R288 rule 5). -/
def compiledStore (d : Stack) (c : CoreIx) (a : Nat) (u : Upsets) (data : BitVec 512) (s : State) : State :=
  let s := if (liveEntry (getVc s d c).merge a).isSome then
      satF (r_ECC_MERGE_CTRL d c) f_ECC_MERGE_CTRL_DISCARD 1
        (updVc d c (fun v => { v with merge := v.merge.filter fun e => e.addr ≠ a }) s)
    else s
  vaultStore d c a wCompiled u data s

/-! ### Pause segments (R114, R132, R275, R295) -/

/-- Requests a pause segment at the root of a die's partition (R132). -/
def requestSegment (d : Stack) (n : Nat) (s : State) : State :=
  match partOf s d with
  | some p => match stackIx p.root with
    | some r => let a := r_FLASH_PAUSE r
                putF a f_FLASH_PAUSE_SEG (max n (getF s a f_FLASH_PAUSE_SEG)) s
    | none => s
  | none => s

/-- May a segment of a die run now: in a pause that has consumed a request, or while nothing is launched on the die (R114, R132,
R275, R295, log entry 84)? -/
def segmentOpen (s : State) (d : Stack) : Bool :=
  (getDie s d).segNow || partOf s d == none || getF s (r_FLASH_STATUS d) f_FLASH_STATUS_HALTED == 1

/-! ### Errors of stored data (R290, R295) -/

/-- The error kind of a bad outcome, for host, transit, BP and Drizzle reads. -/
def outcomeKind (o : CodeOutcome) : Nat :=
  match o with | .poisoned => kPoisoned | .mismatch => kLCrc | _ => kSUe

/-- The number of a row of a vault: (4 × group + bank) × 8192 + row. -/
def rowNo (j off : Nat) : Nat := 8192 * (4 * j + offBank off) + offRow off

/-- A row in which a read found an uncorrectable word becomes a candidate for the row test, for which the die manager requests a pause
segment of 1.5 µs (R295, log entry 101). -/
def markRow (d : Stack) (c : CoreIx) (j off : Nat) (s : State) : State :=
  if (getVc s d c).candidates.contains (rowNo j off) then s
  else requestSegment d 15 (updVc d c (fun v => { v with candidates := v.candidates ++ [rowNo j off] }) s)

/-- A compiled read found a bad word: DMA_UE and a halted channel with a recheck for the S-code, L_CRC otherwise (R290). -/
def compiledBad (d : Stack) (c : CoreIx) (ch a : Nat) (o : CodeOutcome) (s : State) : State :=
  let x := getCore s d c
  let s := poisonStep d c s
  match o with
  | .mismatch => recordErr (.core d c) 8 kLCrc x.sel a s
  | _ =>
    let (j, off) := mapVault s d c a
    let s := recordErr (.core d c) 8 kDmaUe x.sel (ch + 4 * a) (if o = .uncorrectable then markRow d c j off s else s)
    updVc d c (fun v => { v with rechecks := v.rechecks ++ [⟨a, false⟩] })
      (updCore d c (fun x => { x with chHalted := if x.chHalted.contains ch then x.chHalted else x.chHalted ++ [ch] }) s)

/-! ### BP faults (R152) -/

/-- Records a BP fault: BP_FAULT if it is free, the core station's unit 16 + j, and poison. -/
def bpFault (d : Stack) (c : CoreIx) (j kind cause pc mcycle : Nat) (s : State) : State :=
  let x := getCore s d c
  let a := r_BP_FAULT d j c
  let s := if getF s a f_BP_FAULT_VALID = 1 then s else
    putReg s a (BitVec.ofNat 64 (1 + kind * 2 + cause * 16 + 2 ^ 8 * (pc / 2 % 2 ^ 14) + 2 ^ 32 * (mcycle % 2 ^ 24) + 2 ^ 56 * (x.sel % 256)))
  let s := if kind = 7 ∧ 5 ≤ cause then s else noteFault d kind s
  poisonStep d c (recordErr (.core d c) (16 + j) kOwnership x.sel ((getCore s d c).now - x.start) s)

/-- BP fault kinds. -/
def bfBusy : Nat := 1
def bfRole : Nat := 2
def bfBankOwned : Nat := 3
def bfProgRunning : Nat := 4
def bfScratch : Nat := 5
def bfOverrun : Nat := 6
def bfTrap : Nat := 7

/-- Is a BP running in mc `m` of the step? One that has halted or trapped runs until the mc in which that took effect (R151). -/
def bpRunsAt (b : Bp) (m : Nat) : Bool := decide (b.run = .running) || (b.owned && decide (m < b.mc))

/-- Is a group owned by its BP? -/
def bpOwns (s : State) (d : Stack) (c : CoreIx) (j : Nat) : Bool := (getBp s d c j).owned

/-! ### The vertical bus (R63, R263) -/

/-- The step offset of a cycle. -/
def offsetOf (x : Core) (t : Nat) : Nat := t - x.start

/-- Is mc `m` of the step held for host window `k` data of a BP (offsets 34–53 of its windows, R153, R263)? -/
def bpHolds (b : Bp) (m : Nat) : Bool :=
  b.owned && decide (b.w0 + 4096 ≤ m + 64) &&
    decide (34 ≤ (m + 64 - b.w0) % 4096) && decide ((m + 64 - b.w0) % 4096 ≤ 53)

/-- Does the controller hold the bus in cycle `t` (R263)? -/
def busHeld (s : State) (d : Stack) (c : CoreIx) (t : Nat) : Bool :=
  let off := offsetOf (getCore s d c) t
  (decide (68 ≤ off % 8192) && decide (off % 8192 ≤ 107)) ||
    (List.range 24).any fun j => bpHolds (getBp s d c j) (off / 2)

/-- Is an act a compiled use of the bus in its cycle? -/
def compiledBus : Act → Bool
  | .beatIn .. | .beatOut .. | .bpDeliver .. | .bpSend .. => true
  | _ => false

/-- Is an act a fetch's or an adder result's use of the bus in its cycle? -/
def fixedBus : Act → Bool
  | .fetchBus | .addResult .. => true
  | _ => false

/-- Cycles between beats: 2 at half width (R261). -/
def beatCycles (s : State) (d : Stack) (c : CoreIx) : Nat :=
  if getF s (r_VC_STATUS d c) f_VC_STATUS_WIDTH = 0 then 1 else 2

/-- A compiled beat takes the bus in cycle `t`, and at half width in the next one too (R261, log entry 93): true when it may, else a
VBUS_CONFLICT. -/
def takeBus (d : Stack) (c : CoreIx) (t word : Nat) (s : State) : Bool × State :=
  let x := getCore s d c
  let n := beatCycles s d c
  let used := x.busUse.2 ≠ 0 && decide (t ≤ x.busUse.1)
  let other := x.agenda.any fun e => (e.key / 8 == t && compiledBus e.act) ||
    (decide (t ≤ e.key / 8) && decide (e.key / 8 < t + n) && fixedBus e.act)
  let held := (List.range n).any fun i => busHeld s d c (t + i)
  let s := updCore d c (fun x => { x with busUse := (t + n - 1, 1) }) s
  if used || other || held then (false, ownFault d c fVbusConflict 7 8 word t s) else (true, s)

/-- A fetch or an adder result uses the bus in cycle `t`. -/
def noteBus (d : Stack) (c : CoreIx) (t : Nat) (s : State) : State := updCore d c (fun x => { x with busUse := (t, 1) }) s

end Sys2Proof.Machine
end

