-- ==== Sys2Proof/Machine/Adder.lean ====
section
/-! DEFINITION. The memory-side adder of a vault controller (R126, R127, R277, R278): contributions, the checks on them, the
sum in contributor order, and the result beats. The arithmetic serves the LPDDR adder too. -/
namespace Sys2Proof.Machine

/-! ### Faults -/

/-- Kinds of VC_FAULT and LP_FAULT. -/
def vfSched : Nat := 1
def vfChanOut : Nat := 2
def vfAddCnt : Nat := 3
def vfAddDup : Nat := 4
def vfAddEarly : Nat := 5
def vfAddOff : Nat := 6
def vfAddHdr : Nat := 7
def vfAddBuf : Nat := 8
def vfAddAddr : Nat := 9

/-- The content of a controller's fault record. -/
def vfWord (kind off grp cidx sel : Nat) : Word :=
  BitVec.ofNat 64 (1 + kind * 2 + 2 ^ 8 * (off % 2 ^ 24) + 2 ^ 32 * (grp % 1024) + 2 ^ 42 * (cidx % 64) + 2 ^ 48 * (sel % 256))

/-- Records an adder fault of a vault controller: VC_FAULT if it is free, the core station's unit 11, and poison (R127, R439). -/
def vcFault (d : Stack) (c : CoreIx) (kind grp cidx t : Nat) (s : State) : State :=
  let x := getCore s d c
  let a := r_VC_FAULT d c
  let s := if getF s a f_VC_FAULT_VALID = 1 then s else putReg s a (vfWord kind (t - x.start) grp cidx x.sel)
  noteFault d kind
    (poisonStep d c (recordErr (.core d c) 11 kOwnership x.sel (t - x.start) s))

/-! ### Sums (R50, R51, R278) -/

/-- Bits of an element of a group's format. -/
def addBits (fmt : Nat) : Nat := match fmt with | 1 => 16 | 3 => 64 | _ => 32

/-- The sum of two elements: FP32 and BF16 round, integers wrap. -/
def addElem (fmt a b : Nat) : Nat :=
  match fmt with
  | 0 => (addF32 (BitVec.ofNat 32 a) (BitVec.ofNat 32 b)).toNat
  | 1 => (addBf16 (BitVec.ofNat 16 a) (BitVec.ofNat 16 b)).toNat
  | _ => (a + b) % 2 ^ addBits fmt

/-- The sum of two beats. -/
def addBeats (fmt : Nat) (a b : BitVec 1024) : BitVec 1024 :=
  let n := addBits fmt
  let at' := fun (v : BitVec 1024) i => v.toNat / 2 ^ (n * i) % 2 ^ n
  BitVec.ofNat 1024 (packCodes n ((List.range (1024 / n)).map fun i => addElem fmt (at' a i) (at' b i)))

/-- The sum of the slots' beats in contributor order: ((slot 0 + slot 1) + slot 2) + … -/
def sumBeats (fmt : Nat) : List (BitVec 1024) → BitVec 1024
  | [] => 0
  | x :: r => r.foldl (addBeats fmt) x

/-- Result beat `b` of a group whose slots stand in a buffer. -/
def resultBeat (buf : SMap (BitVec 1024)) (ent : Word) (b : Nat) : BitVec 1024 :=
  let len := fieldOf f_VC_RGRPA_LEN ent
  sumBeats (fieldOf f_VC_RGRPA_FMT ent)
    ((List.range (fieldOf f_VC_RGRPA_CNT ent)).map fun n => sget 0 buf (fieldOf f_VC_RGRPA_BBASE ent + n * len + b))

/-- The cycle in which result beat `b` leaves, counted from the last contribution (R278). -/
def resultDelay (cnt b : Nat) : Nat := 4 + 4 * (32 * ((cnt + 31) / 32)) * (b / 4 + 1) + b % 4

/-! ### Contributions -/

/-- Which check a contribution beat fails, for a buffer of `cap` beats (R127, R277). -/
def contribFault (ent : Word) (g : AddGroup) (cap cidx off : Nat) : Option Nat :=
  let len := fieldOf f_VC_RGRPA_LEN ent
  if fieldOf f_VC_RGRPA_VALID ent = 0 ∨ fieldOf f_VC_RGRPA_CNT ent ≤ cidx then some vfAddCnt
  else if len ≤ off then some vfAddOff
  else if cap ≤ fieldOf f_VC_RGRPA_BBASE ent + cidx * len + off then some vfAddBuf
  else if g.arrived.contains (cidx, off) then some vfAddDup
  else none

/-- The arrival state with one more beat. -/
def arrive (g : AddGroup) (cidx off t : Nat) : AddGroup :=
  { g with arrived := g.arrived ++ [(cidx, off)], first := if g.first.isSome then g.first else some t, lastAt := t }

/-- Have all beats of all slots arrived? -/
def groupFull (ent : Word) (g : AddGroup) : Bool :=
  decide (fieldOf f_VC_RGRPA_CNT ent * fieldOf f_VC_RGRPA_LEN ent ≤ g.arrived.length)

/-- A contribution beat reaches a vault adder in cycle `t` (R126); the last one sets the result beats on their way. -/
def vaultContribution (d : Stack) (c : CoreIx) (t grp cidx off : Nat) (data : BitVec 1024) (s : State) : State :=
  let ent := getReg s (r_VC_RGRPA d c grp)
  let g := sget AddGroup.reset (getVc s d c).groups grp
  match contribFault ent g 1024 cidx off with
  | some k => vcFault d c k grp cidx t s
  | none =>
    let len := fieldOf f_VC_RGRPA_LEN ent
    let slot := fieldOf f_VC_RGRPA_BBASE ent + cidx * len + off
    let g := arrive g cidx off t
    let full := groupFull ent g
    let cnt := fieldOf f_VC_RGRPA_CNT ent
    let g := if full then { g with resultEnd := t + resultDelay cnt (len - 1) + 63 } else g
    let s := updVc d c (fun v => { v with groups := sput AddGroup.reset v.groups grp g, buffer := sput 0 v.buffer slot data }) s
    if full then forAll (List.range len) (fun b s => schedule d c (t + resultDelay cnt b) 0 (.addResult grp b) s) s else s

/-! ### Results -/

/-- Ends a group's sum: its arrival state is clear, and its result window runs to 63 cc after `t` (R126, R127). -/
def clearGroup (d : Stack) (c : CoreIx) (grp t : Nat) (s : State) : State :=
  updVc d c (fun v => { v with groups := sput AddGroup.reset v.groups grp { AddGroup.reset with lastAt := t, resultEnd := t + 63 } }) s

/-- Is an entry a result beat of a group? -/
def isResult (grp : Nat) (e : Timed) : Bool := match e.act with | .addResult g _ => g == grp | _ => false

/-- Result beat `b` of a group leaves for memory in cycle `t` (R278), with the upsets of its transfer. -/
def addResultNow (d : Stack) (c : CoreIx) (t grp b : Nat) (u : Upsets) (s : State) : State :=
  let ent := getReg s (r_VC_RGRPA d c grp)
  let len := fieldOf f_VC_RGRPA_LEN ent
  let base := 128 * fieldOf f_VC_RGRPB_RADDR (getReg s (r_VC_RGRPB d c grp))
  if dramEnd < base + 128 * len then
    clearGroup d c grp t (updCore d c (fun x => { x with agenda := x.agenda.filter fun e => !isResult grp e })
      (vcFault d c vfAddAddr grp 0 t s))
  else
    let x := getCore s d c
    let (j, _) := mapVault s d c (base + 128 * b)
    let data := resultBeat (getVc s d c).buffer ent b
    let s :=
      if busHeld s d c t then ownFault d c fVbusConflict 7 9 0 t s
      else if bpOwns s d c j then noteBus d c t (bpFault d c j bfBankOwned 0 0 ((t - x.start) / 2 - (getBp s d c j).started) s)
      else noteBus d c t (compiledStore d c (base + 128 * b + 64) u (data.extractLsb' 512 512)
        (compiledStore d c (base + 128 * b) u (data.extractLsb' 0 512) (addAcc d c (base + 128 * b) (96 + 30) s)))
    if b + 1 = len then clearGroup d c grp t s else s

/-- Is cycle `t` in a group's result window (R127)? -/
def inResultWindow (g : AddGroup) (t : Nat) : Bool := g.first.isSome || (g.resultEnd ≠ 0 && decide (t ≤ g.resultEnd))

/-- The group whose result window a read of a vault range in cycle `t` would break. -/
def earlyGroup (s : State) (d : Stack) (c : CoreIx) (a n t : Nat) : Option Nat :=
  ((getVc s d c).groups.find? fun p =>
    let base := 128 * fieldOf f_VC_RGRPB_RADDR (getReg s (r_VC_RGRPB d c p.1))
    let len := 128 * fieldOf f_VC_RGRPA_LEN (getReg s (r_VC_RGRPA d c p.1))
    inResultWindow p.2 t && decide (a < base + len) && decide (base < a + n)).map (·.1)

end Sys2Proof.Machine
end

