-- ==== Sys2Proof/Machine/Lane.lean ====
section
/-! DEFINITION. The lane engines (chapter 3): MAC, OPLOAD, SWAP, DRAIN and ACCLD words, and what each does in later cycles. -/
namespace Sys2Proof.Machine

/-! ### The weight buffer (R58, R59) -/

/-- Byte `b` of lane `l`'s column: granule b ÷ 16 lies in the beat row that the skew of R58 gives. -/
def colByte (s : State) (d : Stack) (c : CoreIx) (l b : Nat) : Byte :=
  let g := l / 8
  let r := 8 * (b / 16) + (l % 8 + 16 - g) % 8
  readByte s (tileKey d c (256 * r + 16 * g + b % 16))

/-- `n` bytes of a lane column as one number. -/
def colBytes (s : State) (d : Stack) (c : CoreIx) (l b : Nat) : Nat → Nat
  | 0 => 0
  | n + 1 => (colByte s d c l b).toNat + 256 * colBytes s d c l (b + 1) n


/-- The granule that a beat of an act writes into the weight buffer, if it writes one. -/
def actGranule : Act → Option Nat
  | .beatIn _ _ ta _ | .bpSample _ _ ta | .bpDeliver _ ta _ => if ta < amemBase then some (ta / 2048) else none
  | _ => none

/-- Has an inbound channel beat rows of some granule still to write (R64)? -/
def granulePending (x : Core) (gs : List Nat) : Bool :=
  x.agenda.any fun e => match actGranule e.act with | some g => gs.contains g | none => false

/-- The granules of its codes that a block reads, one per cc from its first cycle on (R55). -/
def codeGranules (fw : Fmt) (code : Nat) : List Nat :=
  (List.range ((code + blockStride fw - 1) / 16 - code / 16 + 1)).map (code / 16 + ·)

/-- The granules that a block's read port takes in its `i`-th cycle: one of codes, and in the first that of the scale (log entry
77). -/
def portGranules (fw : Fmt) (code scl i : Nat) : List Nat :=
  ((codeGranules fw code)[i]?).toList ++ if i = 0 ∧ fmtScaled fw then [scl / 16] else []

/-- The granules that a read of a block, at its granule `i`, has still to take, with the cycles until then. -/
def granulesLeft (fw : Fmt) (code scl i : Nat) : List (Nat × Nat) :=
  (List.range (codeGranules fw code).length).flatMap fun k => if k < i then [] else (portGranules fw code scl k).map (·, k - i)

/-- Has an issued MAC still to read a granule (R64)? -/
def granuleUnread (x : Core) (g : Nat) : Bool :=
  x.agenda.any fun e => match e.act with
    | .macRead _ _ _ _ fw code scl _ _ i _ _ => (granulesLeft fw code scl i).any (·.1 == g)
    | _ => false

/-! ### MAC (R70, R76) -/

/-- Will an issued MAC still update an accumulator of a physical engine after cycle `t` (R77)? -/
def accPending (x : Core) (p a t : Nat) : Bool :=
  x.agenda.any fun e => match e.act with
    | .macRead p' a' .. => p' == p && a' == a
    | .macUpd p' a' .. => p' == p && a' == a && decide (8 * t < e.key)
    | _ => false

/-- Is an entry a block of the MAC word with index `word`, still to be read? -/
def isMacRead (word : Nat) (e : Timed) : Bool :=
  match e.act with | .macRead .. => e.word == word | _ => false

/-- The block result of every lane from its scale byte and code bytes (R45 to R47). -/
def blockResults (fa fw : Fmt) (e : OpEntry) (got : List (Byte × Nat)) : List (BitVec 32) :=
  let a := blockOp fa e.codes.toNat e.scale
  got.map fun g => blockResult (pairAligned fa fw) a (blockOp fw g.2 g.1)

/-- What the lanes hold of a block once the read port has taken granule `i`: the bytes of the block in that granule join those
read before. -/
def takeGranule (s : State) (d : Stack) (c : CoreIx) (fw : Fmt) (code scl i : Nat) (got : List (Byte × Nat)) : List (Byte × Nat) :=
  let lo := max code (16 * (code / 16 + i))
  let hi := min (code + blockStride fw) (16 * (code / 16 + i + 1))
  (List.range 128).map fun l =>
    let g := if i = 0 then (colByte s d c l scl, 0) else got.getD l (0, 0)
    (g.1, g.2 + 2 ^ (8 * (lo - code)) * colBytes s d c l lo (hi - lo))

/-- A MAC block reads a granule (R55); one not yet written makes the MAC a WBUF_RACE and ends it (R64). The block's last granule
completes its operands, and its update follows 7 cc after its last broadcast cycle (R76). -/
def macReadNow (d : Stack) (c : CoreIx) (t word p acc : Nat) (init : Bool) (fa fw : Fmt) (code scl entry cyc i : Nat)
    (op : OpEntry) (got : List (Byte × Nat)) (s : State) : State :=
  let x := getCore s d c
  if !x.elastic && granulePending x (portGranules fw code scl i) then
    updCore d c (fun x => { x with agenda := x.agenda.filter fun e => !isMacRead word e }) (ownFault d c fWbufRace 7 5 word t s)
  else
    let op := if i = 0 then sget ⟨0, 0⟩ (getEng x p).fg entry else op
    let got := takeGranule s d c fw code scl i got
    if i + 1 < (codeGranules fw code).length then
      schedule d c (t + 1) word (.macRead p acc init fa fw code scl entry cyc (i + 1) op got) s
    else schedule d c (t - i + cyc + 9) word (.macUpd p acc init (blockResults fa fw op got)) s

/-- A block's result is added into its accumulator (R49, R76); INIT starts it from +0. -/
def macUpdNow (d : Stack) (c : CoreIx) (p acc : Nat) (init : Bool) (vals : List (BitVec 32)) (s : State) : State :=
  updCore d c (fun x => setAcc p acc 0
    (vals.zipIdx.map fun v => addF32 (if init then 0#32 else getAcc x p acc v.2) v.1) x) s

/-- The formats that a MAC or an OPLOAD may name (R75): every code but FP32. -/
def laneFmt (code : Nat) : Option Fmt :=
  match fmtOfCode code with | some .fp32 => none | r => r

/-- Is a MAC word malformed (R69, R70, R75)? -/
def badMac (w : BitVec 128) : Bool :=
  match laneFmt (wbits w 27 24), laneFmt (wbits w 31 28) with
  | some _, some fw =>
    let count := wbits w 74 69
    let wcode := wbits w 42 32
    wbits w 127 75 ≠ 0 || count == 0 || decide (32 < wbits w 62 58 + count) || decide (1279 < wcode) ||
      decide (20480 < wcode * 16 + count * blockStride fw) || (fmtScaled fw && decide (20480 < wbits w 57 43 + count))
  | _, _ => true

/-- The counters of ENG_STATUS for a MAC's blocks. -/
def countBlocks (d : Stack) (c : CoreIx) (e n : Nat) (s : State) : State := bumpF (r_ENG_STATUS d c e) f_ENG_STATUS_BLOCKS n s

/-- A MAC word issues in cycle `t` on each engine of its mask. -/
def issueMac (d : Stack) (c : CoreIx) (w : BitVec 128) (word t : Nat) (s : State) : State :=
  let fa := (laneFmt (wbits w 27 24)).getD .e2m1
  let fw := (laneFmt (wbits w 31 28)).getD .e2m1
  let cyc := pairCycles fa fw
  let count := wbits w 74 69
  forAll (maskEngines (wordEmask w)) (fun e s =>
    let p := physEngine s d c e
    let s := updCore d c (updEng p fun g => { g with busyUntil := t + count * cyc }) (countBlocks d c e count s)
    forAll (List.range count) (fun k s =>
      schedule d c (t + k * cyc) word
        (.macRead p (wbits w 67 63) (w.getLsbD 68 && k == 0) fa fw (wbits w 42 32 * 16 + k * blockStride fw)
          (wbits w 57 43 + k) (wbits w 62 58 + k) cyc 0 ⟨0, 0⟩ []) s) s) s

/-! ### OPLOAD and SWAP (R61, R62, R71) -/

/-- Is an OPLOAD word malformed (R69, R71)? -/
def badOpload (w : BitVec 128) : Bool :=
  match laneFmt (wbits w 27 24) with
  | some f =>
    let count := wbits w 75 70
    wbits w 127 115 ≠ 0 || count == 0 || decide (32 < wbits w 80 76 + count) || decide (wbits w 48 28 % 16 ≠ 0) ||
      (List.range (maskEngines (wordEmask w)).length).any fun e =>
        leavesAmem (wbits w 48 28 + e * wbits w 97 81 * 16) (count * blockStride f) ||
          (fmtScaled f && leavesAmem (wbits w 69 49 + e * wbits w 114 98) count)
  | none => true

/-- An OPLOAD word issues: each engine's background entries are written one per cc, unless its set is busy. One that a SWAP of this
cycle follows is taken back by the SWAP (`dropLoad`). -/
def issueOpload (d : Stack) (c : CoreIx) (w : BitVec 128) (word t : Nat) (s : State) : State :=
  let f := (laneFmt (wbits w 27 24)).getD .e2m1
  let count := wbits w 75 70
  forAll ((maskEngines (wordEmask w)).zipIdx) (fun ei s =>
    let p := physEngine s d c ei.1
    let g := getEng (getCore s d c) p
    if g.swapAt = t + 1 ∨ t < g.bgEnd then ownFault d c fOpsetBusy ei.1 p word t s
    else
      let a := r_ENG_STATUS d c ei.1
      let n := getF s a f_ENG_STATUS_BG_COUNT
      let s := putF a f_ENG_STATUS_BG_COUNT 0 (putF a f_ENG_STATUS_BG_LOADING 1 s)
      let s := updCore d c (updEng p fun g =>
        { g with bgEnd := t + count, loadAt := t + 1, loadWord := word, loadCount := n }) s
      forAll (List.range count) (fun i s =>
        schedule d c (t + i) word
          (.opEntry p ei.1 (wbits w 80 76 + i) f (wbits w 48 28 + ei.2 * wbits w 97 81 * 16 + i * blockStride f)
            (wbits w 69 49 + ei.2 * wbits w 114 98 + i) (i + 1 == count)) s) s) s

/-- One background entry is written from activation memory (R61). -/
def opEntryNow (d : Stack) (c : CoreIx) (t word p e ix : Nat) (f : Fmt) (code scl : Nat) (last : Bool) (s : State) : State :=
  let (cv, s) := amemRead d c t code (blockStride f) word s
  let (sv, s) := if fmtScaled f then amemRead d c t scl 1 word s else (some 0, s)
  let a := r_ENG_STATUS d c e
  let s := match cv, sv with
    | some cv, some sv => bumpF a f_ENG_STATUS_BG_COUNT 1 (updCore d c (updEng p fun g =>
        { g with bg := sput ⟨0, 0⟩ g.bg ix ⟨BitVec.ofNat 512 cv, BitVec.ofNat 8 sv⟩ }) s)
    | _, _ => s
  if last then putF a f_ENG_STATUS_BG_LOADING 0 s else s

/-- Is an entry of the timetable a write of a physical engine's background set by the word with index `word`? -/
def isOpEntry (word p : Nat) (e : Timed) : Bool :=
  match e.act with | .opEntry q .. => q == p && e.word == word | _ => false

/-- An OPLOAD that has issued in the cycle of a SWAP of its engine is OPSET_BUSY wherever it stands among the words of that cycle,
and takes no effect (R62). -/
def dropLoad (d : Stack) (c : CoreIx) (e p t : Nat) (s : State) : State :=
  let g := getEng (getCore s d c) p
  if g.loadAt = t + 1 then
    let a := r_ENG_STATUS d c e
    let s := putF a f_ENG_STATUS_BG_COUNT g.loadCount (putF a f_ENG_STATUS_BG_LOADING 0 s)
    let s := updCore d c (fun x => updEng p (fun g => { g with bgEnd := t, loadAt := 0 })
      { x with agenda := x.agenda.filter fun y => !isOpEntry g.loadWord p y }) s
    ownFault d c fOpsetBusy e p g.loadWord t s
  else s

/-- A SWAP word issues: the two sets of each engine change places, unless a load is incomplete (R62). -/
def issueSwap (d : Stack) (c : CoreIx) (w : BitVec 128) (word t : Nat) (s : State) : State :=
  forAll (maskEngines (wordEmask w)) (fun e s =>
    let p := physEngine s d c e
    let s := dropLoad d c e p t s
    let g := getEng (getCore s d c) p
    if t < g.bgEnd then ownFault d c fOpsetNotReady e p word t s
    else updCore d c (updEng p fun g => { g with fg := g.bg, bg := g.fg, swapAt := t + 1 }) s) s

/-! ### DRAIN and ACCLD (R72, R73, R77) -/

/-- The enabled stages of an epilogue descriptor (R105, R106). -/
def epiFunction (desc : Word) : Bool := decide (0x10 ≤ fieldOf f_EPI_DESC_ACT desc)

/-- Is an epilogue descriptor one that a DRAIN may not use (R105, R106, R108)? -/
def badEpi (desc : Word) : Bool :=
  let g := fun f => fieldOf f desc
  let act := g f_EPI_DESC_ACT
  let mode := g f_EPI_DESC_SCL_MODE
  g f_EPI_DESC_VALID == 0 ||
    (g f_EPI_DESC_BIAS_EN == 1 && (decide (g f_EPI_DESC_BIAS_ADDR % 16 ≠ 0) ||
      leavesAmem (g f_EPI_DESC_BIAS_ADDR) (if g f_EPI_DESC_BIAS_FMT = 1 then 256 else 512))) ||
    ((mode == 1 || mode == 2) && (decide (g f_EPI_DESC_SCL_ADDR % 16 ≠ 0) ||
      leavesAmem (g f_EPI_DESC_SCL_ADDR) (if mode = 1 then 4 else 512))) ||
    mode == 3 || !(act == 0 || act == 8 || (sfuFnOfCode act).isSome)

/-- The output format of a DRAIN: any code but K4 (R72, R75). -/
def drainFmt (w : BitVec 128) : Option Fmt :=
  match fmtOfCode (wbits w 32 29) with | some .k4 => none | r => r

/-- Is a DRAIN word malformed (R69, R72, R105, R218)? -/
def badDrain (x : Core) (w : BitVec 128) : Bool :=
  match drainFmt w with
  | some f =>
    let epi := wbits w 83 76
    wbits w 127 118 ≠ 0 || decide (wbits w 53 33 % 16 ≠ 0) ||
      ((List.range (maskEngines (wordEmask w)).length).any fun e =>
        let o := wbits w 53 33 + e * wbits w 100 84 * 16
        let sc := wbits w 74 54 + e * wbits w 117 101
        leavesAmem o (4 * blockStride f) || hitsPoison o (4 * blockStride f) ||
          (fmtScaled f && (leavesAmem sc 4 || hitsPoison sc 4))) ||
      (epi ≠ 0 && badEpi (sget 0 x.epi epi))
  | none => true

/-- SFU occupancy of an epilogue for `n` engines (R106). -/
def epiCycles (desc : Word) (n : Nat) : Nat := if epiFunction desc then 16 * n + 16 else 4 * n + 8

/-- The engines of a mask whose accumulator no issued MAC will still update; the others are ACC_HAZARD (R77). -/
def accFree (d : Stack) (c : CoreIx) (w : BitVec 128) (acc word t : Nat) (s : State) : List Nat × State :=
  let hit := fun (e : Nat) => accPending (getCore s d c) (physEngine s d c e) acc t
  ((maskEngines (wordEmask w)).filter fun e => !hit e,
   forAll ((maskEngines (wordEmask w)).filter hit) (fun e u => ownFault d c fAccHazard e (physEngine s d c e) word t u) s)

/-- A DRAIN word issues; its accumulators are read in this cycle. An epilogue holds the SFU (R88). -/
def issueDrain (d : Stack) (c : CoreIx) (w : BitVec 128) (word t : Nat) (s : State) : State :=
  let x := getCore s d c
  let n := (maskEngines (wordEmask w)).length
  if n = 0 then s
  else if wbits w 83 76 = 0 then
    let (ok, s) := accFree d c w (wbits w 28 24) word t s
    schedule d c t word (.drainRead w ok) s
  else
    let desc := sget 0 x.epi (wbits w 83 76)
    if t < x.sfuEnd then ownFault d c fIssueConflict 7 7 word t s
    else
      let a := r_SFU_STATUS d c
      let s := putF a f_SFU_STATUS_LAST_OP (fieldOf f_EPI_DESC_ACT desc) (bumpF a f_SFU_STATUS_OPS 1 s)
      let (ok, s) := accFree d c w (wbits w 28 24) word t s
      schedule d c t word (.drainRead w ok) (updCore d c (fun x => { x with sfuEnd := t + epiCycles desc n }) s)

/-- Where block `u` of the `e`-th engine of a DRAIN goes: offsets of its codes and of its scale. -/
def drainDst (w : BitVec 128) (f : Fmt) (e u : Nat) : Nat × Nat :=
  (wbits w 53 33 + e * wbits w 100 84 * 16 + u * blockStride f, wbits w 74 54 + e * wbits w 117 101 + u)

/-- A DRAIN reads accumulator ACC of every engine of its mask, and its blocks set out (R72, R107). -/
def drainReadNow (d : Stack) (c : CoreIx) (t word : Nat) (w : BitVec 128) (ok : List Nat) (s : State) : State :=
  let f := (drainFmt w).getD .fp32
  let acc := wbits w 28 24
  let desc := sget 0 (getCore s d c).epi (wbits w 83 76)
  let s := if wbits w 83 76 ≠ 0 ∧ fieldOf f_EPI_DESC_SCL_MODE desc = 1 ∧ ok ≠ [] then schedule d c (t + 4) word (.epiScalar w) s else s
  forAll ((maskEngines (wordEmask w)).zipIdx) (fun ei s =>
    let x := getCore s d c
    let p := physEngine s d c ei.1
    if !ok.contains ei.1 then s
    else
      let s := forAll (List.range 4) (fun u s =>
        let vals := (List.range 32).map fun i => getAcc x p acc (32 * u + i)
        let b := 4 * ei.2 + u
        let (dst, scl) := drainDst w f ei.2 u
        if wbits w 83 76 = 0 then schedule d c (t + 4 + b) word (.putBlock f dst scl vals false) s
        else schedule d c (if epiFunction desc then t + 4 + 4 * b else t + 4 + b) word (.epiBlock w ei.2 u vals) s) s
      if w.getLsbD 75 then updCore d c (clearAcc p acc) s else s) s

/-- The activation stage of an epilogue. -/
def epiAct (act : Nat) (v : BitVec 32) : BitVec 32 :=
  match sfuFnOfCode act with
  | some f => encF32 (sfuFnVal f (decF32 v))
  | none => if act = 8 then (if ltVal (.fin false 0 0) (decF32 v) then v else if isNaN32 v then 0x7FC00000#32 else 0#32) else v

/-- An epilogue reads its scalar scale in cc 4 (R107), whichever engine's block is the first to enter. -/
def epiScalarNow (d : Stack) (c : CoreIx) (t word : Nat) (w : BitVec 128) (s : State) : State :=
  let desc := sget 0 (getCore s d c).epi (wbits w 83 76)
  let (v, s) := amemRead d c t (fieldOf f_EPI_DESC_SCL_ADDR desc) 4 word s
  updCore d c (fun x => { x with epiScale := v }) s

/-- A block enters the SFU: bias, activation and scale in order, then its write (R105, R107). -/
def epiBlockNow (d : Stack) (c : CoreIx) (t word : Nat) (w : BitVec 128) (e u : Nat) (vals : List (BitVec 32)) (s : State) : State :=
  let f := (drainFmt w).getD .fp32
  let desc := sget 0 (getCore s d c).epi (wbits w 83 76)
  let g := fun f => fieldOf f desc
  let bf : Fmt := if g f_EPI_DESC_BIAS_FMT = 1 then .bf16 else .fp32
  let (bias, s) := if g f_EPI_DESC_BIAS_EN = 1
    then amemRead d c t (g f_EPI_DESC_BIAS_ADDR + 32 * u * (fmtBits bf / 8)) (4 * fmtBits bf) word s else (some 0, s)
  let mode := g f_EPI_DESC_SCL_MODE
  let (scale, s) :=
    if mode = 2 then amemRead d c t (g f_EPI_DESC_SCL_ADDR + 128 * u) 128 word s
    else if mode = 1 then ((getCore s d c).epiScale, s)
    else (some 0, s)
  match bias, scale with
  | some bias, some scale =>
    let bs := unpackVals bf 32 bias
    let out := vals.zipIdx.map fun v =>
      let x := if g f_EPI_DESC_BIAS_EN = 1 then addF32 v.1 (bs.getD v.2 0#32) else v.1
      let x := epiAct (g f_EPI_DESC_ACT) x
      let sc := BitVec.ofNat 32 (if mode = 2 then scale / 2 ^ (32 * v.2) else scale)
      if mode = 0 then x else mulF32 x sc
    let (dst, scl) := drainDst w f e u
    schedule d c (if epiFunction desc then t + 15 else t + 4) word (.putBlock f dst scl out true) s
  | _, _ => s

/-- Is an ACCLD word malformed (R69, R73)? -/
def badAccld (w : BitVec 128) : Bool :=
  wbits w 127 67 ≠ 0 || decide (wbits w 49 29 % 16 ≠ 0) ||
    (List.range (maskEngines (wordEmask w)).length).any fun e => leavesAmem (wbits w 49 29 + e * wbits w 66 50 * 16) 512

/-- An ACCLD word issues: block β is read in cycle t + β (R73). -/
def issueAccld (d : Stack) (c : CoreIx) (w : BitVec 128) (word t : Nat) (s : State) : State :=
  forAll ((maskEngines (wordEmask w)).zipIdx) (fun ei s =>
    let p := physEngine s d c ei.1
    let acc := wbits w 28 24
    if accPending (getCore s d c) p acc t then ownFault d c fAccHazard ei.1 p word t s
    else forAll (List.range 4) (fun u s => schedule d c (t + 4 * ei.2 + u) word
        (.accRead p acc (wbits w 49 29 + ei.2 * wbits w 66 50 * 16 + 128 * u) u) s) s) s

/-- An ACCLD reads 32 lanes' values; the lanes hold them 4 cc later. -/
def accReadNow (d : Stack) (c : CoreIx) (t word p acc off u : Nat) (s : State) : State :=
  match amemRead d c t off 128 word s with
  | (some v, s) => schedule d c (t + 4) word (.accWrite p acc u (unpackVals .fp32 32 v)) s
  | (none, s) => s

end Sys2Proof.Machine
end

