-- ==== Sys2Proof/Machine/Vdma.lean ====
section
/-! DEFINITION. The vault DMA engine (R63, R64, R74, R145): the VDMA word and its beats between vault or BP space and tile
memory. -/
namespace Sys2Proof.Machine

def vdmaCh (w : BitVec 128) : Nat := wbits w 26 25
def vdmaDir (w : BitVec 128) : Nat := wbits w 28 27
def vdmaVaddr (w : BitVec 128) : Nat := 256 * wbits w 51 29
def vdmaTaddr (w : BitVec 128) : Nat := 256 * wbits w 65 52
def vdmaBeats (w : BitVec 128) : Nat := wbits w 81 66

/-- What a BP-space address names: the scratch or the program memory of a BP, with the byte (R145). -/
inductive BpPlace where
  | scratch (j a : Nat)
  | prog (j a : Nat)
  deriving DecidableEq, Repr

/-- The place of a vault byte address in BP space. -/
def bpPlaceOf (a : Nat) : Option BpPlace :=
  if 0x60000000 ≤ a ∧ a < 0x60180000 then some (.scratch ((a - 0x60000000) / 0x10000) (a % 0x10000))
  else if 0x61000000 ≤ a ∧ a < 0x610C0000 then some (.prog ((a - 0x61000000) / 0x8000) (a % 0x8000))
  else none

/-- Is a VDMA word malformed (R69, R74, R145, R218)? -/
def badVdma (w : BitVec 128) : Bool :=
  let n := 256 * vdmaBeats w
  let v := vdmaVaddr w
  let t := vdmaTaddr w
  wordEmask w ≠ 0 || w.getLsbD 24 || wbits w 127 82 ≠ 0 || vdmaBeats w == 0 || decide (1 < vdmaDir w) ||
    decide (0x400000 < t + n) || (decide (t < amemBase) && decide (amemBase < t + n)) ||
    (decide (amemBase ≤ t) && vdmaDir w == 0 && hitsPoison (t - amemBase) n) ||
    !(decide (v + n ≤ dramEnd) ||
      (decide (0x60000000 ≤ v) && decide (v + n ≤ 0x60180000)) || (decide (0x61000000 ≤ v) && decide (v + n ≤ 0x610C0000)))


/-- A VDMA word issues in cycle `t`; `ups`: the upsets that its beats meet in leaving the core (R260). On a halted channel it does
nothing (R290). -/
def issueVdma (d : Stack) (c : CoreIx) (ups : List Upsets) (w : BitVec 128) (word t : Nat) (s : State) : State :=
  let x := getCore s d c
  let ch := vdmaCh w
  let v := vdmaVaddr w
  let ta := vdmaTaddr w
  let n := vdmaBeats w
  let k := beatCycles s d c
  if x.chHalted.contains ch then s
  else
    let rd := vdmaDir w = 0
    match if rd then earlyGroup s d c v (256 * n) t else none with
    | some g => vcFault d c vfAddEarly g 0 t s
    | none =>
      let s := updCore d c (fun x => { x with written := x.written.filter fun p => decide (t < p.2 + 131300) }) s
      forAll (List.range n) (fun i s =>
        let va := v + 256 * i
        let tb := ta + 256 * i
        if v < dramEnd then
          if rd then schedule d c (t + 92 + k * i) word (.beatIn ch va tb t) s
          else schedule d c (t + 3 + k * i) word (.beatOut ch va tb (t + 3 + k * (n - 1)) (ups.getD i [])) s
        else if rd then schedule d c (t + 20 + k * i) word (.bpSample ch va tb) s
        else schedule d c (t + 3 + k * i) word (.bpSend ch va tb (ups.getD i [])) s) s

/-- Does an act belong to a channel? -/
def actChannel : Act → Option Nat
  | .beatIn ch .. | .beatOut ch .. | .bpSample ch .. | .bpDeliver ch .. | .bpSend ch .. | .bpPlace ch .. => some ch
  | _ => none

/-- A halted channel moves no further beat until the next step start (R290). -/
def dropChannel (ch : Nat) (x : Core) : Core := { x with agenda := x.agenda.filter fun e => decide (actChannel e.act ≠ some ch) }

/-- The latest cycle in which an issued MAC reads a granule. -/
def lastGranuleRead (x : Core) (g : Nat) : Nat :=
  x.agenda.foldl (fun m e => match e.act with
    | .macRead _ _ _ _ fw code scl _ _ i _ _ =>
      (granulesLeft fw code scl i).foldl (fun m k => if k.1 = g then max m (e.key / 8 + k.2) else m) m
    | _ => m) 0

/-- A beat is written to tile memory. A weight-buffer granule that an issued MAC has not read is a WBUF_RACE; in elastic mode
the beat waits for that read (R64, R79). -/
def putBeat (d : Stack) (c : CoreIx) (t word ta data : Nat) (again : Act) (s : State) : State :=
  let x := getCore s d c
  if ta < amemBase then
    if granuleUnread x (ta / 2048) then
      if x.elastic then schedule d c (max (t + 1) (lastGranuleRead x (ta / 2048) + 1)) word again s
      else ownFault d c fWbufRace 7 5 word t s
    else writeMem (tileKey d c ta) 256 data s
  else amemWrite d c t (ta - amemBase) 256 data word s

/-- A beat is read from tile memory; none when its access is suppressed. -/
def takeBeat (d : Stack) (c : CoreIx) (t word ta : Nat) (s : State) : Option Nat × State :=
  if ta < amemBase then (some (readMem s (tileKey d c ta) 256), s) else amemRead d c t (ta - amemBase) 256 word s

/-- Reads `n` code words of a beat from word `i` on: their data as one number, and the words that failed their check. -/
def loadWords (d : Stack) (c : CoreIx) (va : Nat) (u : Upsets) : Nat → Nat → State → Nat × List (Nat × CodeOutcome) × State
  | _, 0, s => (0, [], s)
  | i, n + 1, s =>
    let (data, o, s) := vaultLoad d c (va + 64 * i) i u s
    let (v, bad, s) := loadWords d c va u (i + 1) n s
    (data.toNat + 2 ^ 512 * v, if badOutcome o then (va + 64 * i, o) :: bad else bad, s)

/-- Reads the four code words of a beat. -/
def loadBeat (d : Stack) (c : CoreIx) (va : Nat) (u : Upsets) (s : State) : Nat × List (Nat × CodeOutcome) × State :=
  loadWords d c va u 0 4 (addAcc d c va (96 + 2 * 22) s)

/-- A beat of BP space crosses the interface as four S-code words, the code of an address that no descriptor covers (R286): the data
its receiver takes, none where a check fails (R260, log entry 92). -/
def crossBeat (d : Stack) (c : CoreIx) (u : Upsets) : Nat → Nat → Nat → State → Option Nat × State
  | _, 0, _, s => (some 0, s)
  | i, n + 1, v, s =>
    let (a, s) := crossWord d c .s i u (BitVec.ofNat 512 v) s
    let (b, s) := crossBeat d c u (i + 1) n (v / 2 ^ 512) s
    (match a, b with | some a, some b => some (a.toNat + 2 ^ 512 * b) | _, _ => none, s)

/-- `n` bytes from an address that a compiled read takes too early after their write, as one number (log entry 3). -/
def earlyBytes (unit sel word a : Nat) : Nat → Nat
  | 0 => 0
  | n + 1 => (Config.earlyRead unit sel word a).toNat + 256 * earlyBytes unit sel word (a + 1) n

/-- Beat of a vault read reaches tile memory in cycle `t` (R63); the words it carries are checked (R290). A read issued less
than 64 cc after a write of the same beat has no stated data: free bytes. -/
def beatInNow (d : Stack) (c : CoreIx) (t word ch va ta issue : Nat) (u : Upsets) (s : State) : State :=
  let (j, _) := mapVault s d c va
  if bpOwns s d c j then bpFault d c j bfBankOwned 0 0 ((t - (getCore s d c).start) / 2 - (getBp s d c j).started) s
  else
    let (ok, s) := takeBus d c t word s
    if !ok then s
    else if (getCore s d c).written.any fun p => p.1 == va && decide (issue < p.2 + 64) then
      putBeat d c t word ta (earlyBytes (coreNo d c) (getCore s d c).sel word va 256) (.beatIn ch va ta issue) s
    else
      let (v, bad, s) := loadBeat d c va u s
      let s := forAll bad (fun p s => compiledBad d c ch p.1 p.2 s) s
      if bad.any fun p => p.2 ≠ .mismatch then updCore d c (dropChannel ch) s else putBeat d c t word ta v (.beatIn ch va ta issue) s

/-- Beat of a vault write leaves tile memory in cycle `t` and is stored. -/
def beatOutNow (d : Stack) (c : CoreIx) (t word va ta last : Nat) (u : Upsets) (s : State) : State :=
  let (j, _) := mapVault s d c va
  if bpOwns s d c j then bpFault d c j bfBankOwned 0 0 ((t - (getCore s d c).start) / 2 - (getBp s d c j).started) s
  else
    let (ok, s) := takeBus d c t word s
    if !ok then s
    else match takeBeat d c t word ta s with
      | (none, s) => s
      | (some v, s) =>
        let s := forAll (List.range 4) (fun i s => compiledStore d c (va + 64 * i) u (BitVec.ofNat 512 (v / 2 ^ (512 * i))) s)
          (addAcc d c va (96 + 2 * 30) s)
        updCore d c (fun x => { x with written := (x.written.filter fun p => p.1 ≠ va) ++ [(va, last)] }) s

/-- Does a DMA beat meet a BP access to the same scratch half in cycle `t`'s mc (R145)? -/
def scratchBusy (s : State) (d : Stack) (c : CoreIx) (t j a : Nat) : Bool :=
  (getBp s d c j).scratchUse.contains (a / 0x8000, (t - (getCore s d c).start) / 2)

/-- The mc of cycle `t` counted from a BP's last START. -/
def sinceStart (s : State) (d : Stack) (c : CoreIx) (j t : Nat) : Nat :=
  (t - (getCore s d c).start) / 2 - (getBp s d c j).started

/-- A beat of a BP-space read is sampled (R145). -/
def bpSampleNow (d : Stack) (c : CoreIx) (t word ch va ta : Nat) (s : State) : State :=
  match bpPlaceOf va with
  | some (.scratch j a) =>
    if scratchBusy s d c t j a then bpFault d c j bfScratch 0 0 (sinceStart s d c j t) s
    else schedule d c (t + 20) word (.bpDeliver ch ta (BitVec.ofNat 2048 (readMem s (scratchKey d c j a) 256))) s
  | some (.prog j a) => schedule d c (t + 20) word (.bpDeliver ch ta (BitVec.ofNat 2048 (readMem s (progKey d c j a) 256))) s
  | none => s

/-- A sampled beat crosses the vertical bus and is written to tile memory. -/
def bpDeliverNow (d : Stack) (c : CoreIx) (t word ch ta : Nat) (data : BitVec 2048) (u : Upsets) (s : State) : State :=
  let (ok, s) := takeBus d c t word s
  if !ok then s
  else match crossBeat d c u 0 4 data.toNat s with
    | (some v, s) => putBeat d c t word ta v (.bpDeliver ch ta (BitVec.ofNat 2048 v)) s
    | (none, s) => s

/-- A beat of a BP-space write leaves tile memory; 16 cc later it is in BP space. -/
def bpSendNow (d : Stack) (c : CoreIx) (t word ch va ta : Nat) (u : Upsets) (s : State) : State :=
  let (ok, s) := takeBus d c t word s
  if !ok then s
  else match takeBeat d c t word ta s with
    | (none, s) => s
    | (some v, s) => match crossBeat d c u 0 4 v s with
      | (some v, s) => schedule d c (t + 16) word (.bpPlace ch va (BitVec.ofNat 2048 v)) s
      | (none, s) => s

/-- A beat is placed in BP space: a scratch half in use is SCRATCH_CONFLICT, a running BP's program PROG_RUNNING (R150). -/
def bpPlaceNow (d : Stack) (c : CoreIx) (t va : Nat) (data : BitVec 2048) (s : State) : State :=
  match bpPlaceOf va with
  | some (.scratch j a) =>
    if scratchBusy s d c t j a then bpFault d c j bfScratch 0 0 (sinceStart s d c j t) s
    else writeMem (scratchKey d c j a) 256 data.toNat s
  | some (.prog j a) =>
    if bpRunsAt (getBp s d c j) ((t - (getCore s d c).start) / 2) then bpFault d c j bfProgRunning 0 0 (sinceStart s d c j t) s
    else writeMem (progKey d c j a) 256 data.toNat s
  | none => s

end Sys2Proof.Machine
end

