-- ==== Sys2Proof/Machine/LpOps.lean ====
section
/-! DEFINITION. The LPDDR tier (R267 to R273): where a data sector lies, reading and writing its code word, and the compiled
transfers of the LDMA word with their burst and activate slots. -/
namespace Sys2Proof.Machine

/-! ### Layout (R268, R269) -/

/-- Channel rows of a device. -/
def lpRows : Nat := 4194304

/-- The active channels, in ascending order. -/
def lpActive (s : State) (d : Stack) : List Nat := (List.range 8).filter fun n => (getF s (r_LP_STATUS d) f_LP_STATUS_ACTIVE).testBit n

/-- Has a channel failed (R276)? -/
def lpChanFailed (s : State) (d : Stack) (ch : Nat) : Bool := (getF s (r_LP_STATUS d) f_LP_STATUS_FAILED).testBit ch

/-- The number of failed channels. -/
def lpFailures (s : State) (d : Stack) : Nat := ((List.range 8).filter (lpChanFailed s d)).length

/-- The descriptor of a channel row. -/
def lpRegion (s : State) (d : Stack) (row : Nat) : Option Word := regionOf s (r_ECC_REGION_LP d 0) row

/-- The code of a channel row. -/
def lpCode (s : State) (d : Stack) (row : Nat) : Code := regionCode (lpRegion s d row)

/-- Data sectors of a row under a code. -/
def rowCap (c : Code) : Nat := match c with | .s => 28 | .l => 31

/-- Inserts a number into a rising list without repeats. -/
def insNat (a : Nat) : List Nat → List Nat
  | [] => [a]
  | x :: r => if a < x then a :: x :: r else if a = x then x :: r else x :: insNat a r

/-- The rows at which the code can change. -/
def lpBounds (s : State) (d : Stack) : List Nat :=
  (List.range 64).foldl (fun l n =>
    let r := getReg s (r_ECC_REGION_LP d n)
    if fieldOf f_ECC_REGION_VALID r = 1
    then insNat (min lpRows (fieldOf f_ECC_REGION_BASE r)) (insNat (min lpRows (fieldOf f_ECC_REGION_LIMIT r + 1)) l) else l) [0, lpRows]

/-- Row and sector of data index `i` of a channel, walking the pieces of one code between the bounds. -/
def lpWalk (code : Nat → Code) : List Nat → Nat → Option (Nat × Nat)
  | a :: b :: r, i =>
    let cap := rowCap (code a)
    if i < (b - a) * cap then some (a + i / cap, i % cap) else lpWalk code (b :: r) (i - (b - a) * cap)
  | _, _ => none

/-- Data sectors of a channel in the rows below `row`. -/
def lpBelow (code : Nat → Code) : List Nat → Nat → Nat
  | a :: b :: r, row =>
    if row ≤ a then 0 else (min b row - a) * rowCap (code a) + lpBelow code (b :: r) row
  | _, _ => 0

/-- The data sectors of a channel row (R269); none while the channel is not active. -/
def lpRowSectors (s : State) (d : Stack) (ch row : Nat) : List Nat :=
  let act := lpActive s d
  match act.findIdx? (· == ch) with
  | none => []
  | some i => (List.range (rowCap (lpCode s d row))).map fun n =>
      (lpBelow (lpCode s d) (lpBounds s d) row + n) * act.length + i

/-- The data capacity of a device in sectors (R268, R276). -/
def lpCapacity (s : State) (d : Stack) : Nat :=
  if 2 ≤ lpFailures s d then 0
  else (lpActive s d).length * lpBelow (lpCode s d) (lpBounds s d) lpRows

/-- Channel, row and sector of data sector `k`. -/
def lpPlace (s : State) (d : Stack) (k : Nat) : Option (Nat × Nat × Nat) :=
  let act := lpActive s d
  if k < lpCapacity s d then
    (lpWalk (lpCode s d) (lpBounds s d) (k / act.length)).map fun p => (act.getD (k % act.length) 0, p.1, p.2)
  else none

/-! ### Code words -/

/-- The pattern of a FLIPMASK on an LPDDR L-code word: only the data and the CRC byte have a place (R289). -/
def flipLp (c : Code) (m : Word) (w : CodeWord) : CodeWord :=
  let v := flipWord m w
  match c with
  | .s => v
  | .l => { v with check := (w.check &&& ~~~0xFF#64) ||| (v.check &&& 0xFF#64) }

/-- Stores a code word of a device, under an armed FLIPMASK that matches. A scrub write-back of the word is then void (R294). -/
def storeLpWord (d : Stack) (ch row sec who : Nat) (w : CodeWord) (s : State) : State :=
  let a := r_ECC_FLIPMASK_LP d
  let m := getReg s a
  let key := lpKey d ch row (64 * sec)
  let s := updLp d (fun p => { p with writeback := p.writeback.filter fun x => lpPlace s d (x.1 / 64) ≠ some (ch, row, sec) }) s
  if flipMatches m who 99 then writeWord key (flipLp (lpCode s d row) m w) (putF a f_ECC_FLIPMASK_ARM 0 s) else writeWord key w s

/-- The code under which a device's last initialisation wrote a channel row (R286). -/
def lpInitCode (s : State) (d : Stack) (row : Nat) : Code := regionCode (regionIn (getLp s d).inits row)

/-- Reads data sector `k` from its row, with the upsets of its transfer as word `i`: a failed or missing one is none. -/
def lpRead (d : Stack) (k i : Nat) (u : Upsets) (s : State) : Option (BitVec 512 × CodeOutcome) × State :=
  match lpPlace s d k with
  | none => (none, s)
  | some (ch, row, sec) =>
    if lpChanFailed s d ch then (none, s)
    else
      let (data, o) := decodeWord (lpCode s d row) true (upsetWord u i (readWord s (lpInitCode s d row) (lpKey d ch row (64 * sec))))
      let s := countWord (r_ECC_COUNT_LP d) o s
      (some (data, o), if o = .corrected then updLp d (fun p => { p with corr := sput 0 p.corr ch (sget 0 p.corr ch + 1) }) s else s)

/-- What a host, compiled or scrub read of a sector answers: a live merge entry's bytes replace the row's (R288 rule 4). -/
def lpLoad (d : Stack) (k i : Nat) (u : Upsets) (s : State) : Option (BitVec 512 × CodeOutcome) × State :=
  let (r, s) := lpRead d k i u s
  (r.map fun x => (match liveEntry (getLp s d).merge (64 * k) with | some e => maskBytes e.mask x.1 e.data | none => x.1, x.2), s)

/-- Writes data sector `k`, encoded under its row's code; a failed or missing one takes nothing. -/
def lpStore (d : Stack) (k who : Nat) (data : BitVec 512) (s : State) : State :=
  match lpPlace s d k with
  | none => s
  | some (ch, row, sec) =>
    if lpChanFailed s d ch then s
    else storeLpWord d ch row sec who (encodeWord (lpCode s d row) data) s

/-- Writes data sector `k` as poison. -/
def lpPoison (d : Stack) (k : Nat) (data : BitVec 512) (s : State) : State :=
  match lpPlace s d k with
  | none => s
  | some (ch, row, sec) => storeLpWord d ch row sec wOther (poisonWord (lpCode s d row) data) s

/-- A compiled whole-word write of a sector: it discards a live merge entry (R288 rule 5). -/
def lpCompiled (d : Stack) (k : Nat) (data : BitVec 512) (s : State) : State :=
  let s := if (liveEntry (getLp s d).merge (64 * k)).isSome then
      satF (r_ECC_MERGE_CTRL_LP d) f_ECC_MERGE_CTRL_DISCARD 1
        (updLp d (fun p => { p with merge := p.merge.filter fun e => e.addr ≠ 64 * k }) s)
    else s
  lpStore d k wCompiled data s

/-- The number of a row of a device: channel × 2^22 + row. -/
def lpRowNo (ch row : Nat) : Nat := ch * lpRows + row

/-- Units of 256 cc that a segment of a device asks for: 1.5 µs, or 0.72 µs in the extended band (R275). -/
def lpSegUnits (s : State) (d : Stack) : Nat := if getF s (r_LP_STATUS d) f_LP_STATUS_EXTBAND = 1 then 7 else 15

/-- The row of a sector becomes a candidate for the row test, for which the die manager requests a segment (R295, log entry 101). -/
def lpMark (d : Stack) (k : Nat) (s : State) : State :=
  match lpPlace s d k with
  | some (ch, row, _) =>
    if (getLp s d).candidates.contains (lpRowNo ch row) then s
    else requestSegment d (lpSegUnits s d) (updLp d (fun p => { p with candidates := p.candidates ++ [lpRowNo ch row] }) s)
  | none => s

/-! ### Faults -/

/-- Records an ownership fault of the LPDDR controller: LP_FAULT if it is free, the die station's unit 4 (R439). -/
def lpFault (d : Stack) (kind grp cidx off sel : Nat) (s : State) : State :=
  let a := r_LP_FAULT d
  let s := if getF s a f_VC_FAULT_VALID = 1 then s else putReg s a (vfWord kind off grp cidx sel)
  noteFault d kind (recordErr (.die d) 4 kOwnership sel off s)

/-! ### The burst schedule (R271, R273) -/

/-- Banks refreshed at a refresh point: frame and order within it; `n` points a frame. -/
def refreshBank (p : Lp) (ch n frame i : Nat) : Nat := (sget 0 p.refresh ch + (frame + 16 - p.frame % 16) * n + i) % 16

/-- Refresh points in a frame: 1 in the normal band, 2 in the extended band; Thaw doubles both (R271). -/
def refreshPoints (s : State) (d : Stack) (thaw : Bool) : Nat :=
  (if getF s (r_LP_STATUS d) f_LP_STATUS_EXTBAND = 1 then 2 else 1) * (if thaw then 2 else 1)

/-- The cycles for which a refresh blocks its bank: 160 lc, which 9 cc count as 4 lc at nominal clocks and as 8 under Thaw. -/
def refreshCycles (thaw : Bool) : Nat := if thaw then 180 else 360

/-- Does a refresh block a bank at step offset `off`, for `len` cycles after it? -/
def refreshBlocks (p : Lp) (ch n len bank off : Nat) : Bool :=
  let f := off / 432
  [f - 1, f].any fun g => (List.range n).any fun i =>
    let r := 432 * g + i * (432 / n)
    decide (r ≤ off) && decide (off < r + len) && refreshBank p ch n g i == bank

/-- The first compiled burst slot of a channel at or after slot index `i` that is not taken. -/
def freeBurst (taken : List Nat) (ch : Nat) : Nat → Nat → Nat
  | 0, i => i
  | n + 1, i => if 44 ≤ i % 48 || taken.contains (8 * i + ch) then freeBurst taken ch n (i + 1) else i

/-- The latest free compiled activate slot of a channel at least 27 cc before a burst and within 432 cc of it. -/
def freeActivate (p : Lp) (taken : List Nat) (ch n len bank burst : Nat) : Option Nat :=
  (List.range 17).findSome? fun k =>
    let last := (9 * burst - 27) / 27
    let i := last - k
    if 9 * burst < 27 ∨ last < k ∨ 9 * burst > 27 * i + 432 ∨ i % 16 = 7 ∨ taken.contains (8 * i + ch) ∨
      refreshBlocks p ch n len bank (27 * i)
    then none else some i

/-- The state of a slot assignment: burst and activate slots taken, bursts under the open activate of each channel and its
row, and the slots of the data sectors in order; none after LP_SCHED. -/
structure LdmaPlan where
  bursts : List Nat
  activates : List Nat
  openRow : SMap (Nat × Nat)
  seen : List Nat
  slots : List Nat
  deriving DecidableEq, Repr

/-- Gives one burst of a channel row its slot, with an activate for each new row and for every eighth burst. -/
def planBurst (p : Lp) (n len ch row from_ : Nat) (q : LdmaPlan) : Option (Nat × LdmaPlan) :=
  let b := freeBurst q.bursts ch (q.bursts.length + 8 * from_ + 400000) from_
  let (r, used) := sget (lpRows, 0) q.openRow ch
  let q := { q with bursts := q.bursts ++ [8 * b + ch] }
  if r = row ∧ used < 8 then some (b, { q with openRow := sput (lpRows, 0) q.openRow ch (row, used + 1) })
  else match freeActivate p q.activates ch n len (row % 16) b with
    | some a => some (b, { q with activates := q.activates ++ [8 * a + ch], openRow := sput (lpRows, 0) q.openRow ch (row, 1) })
    | none => none

/-- The check sectors that a data sector's read needs: one of 28 to 31 for the S-code, 31 for the L-code. -/
def checkSector (c : Code) (sec : Nat) : Nat := match c with | .s => 28 + sec / 8 | .l => 31

/-- Gives `m` bursts of a channel row their slots. -/
def planBursts (p : Lp) (n len ch row from_ : Nat) : Nat → LdmaPlan → Option LdmaPlan
  | 0, q => some q
  | m + 1, q => (planBurst p n len ch row from_ q).bind fun r => planBursts p n len ch row from_ m r.2

/-- The check sectors of a row that the sectors placed there need. -/
def rowChecks (s : State) (d : Stack) (ch row : Nat) (l : List (Option (Nat × Nat × Nat))) : List Nat :=
  (l.filterMap fun p => p.bind fun x => if x.1 = ch ∧ x.2.1 = row then some (checkSector (lpCode s d row) x.2.2) else none).eraseDups

/-- Plans the sectors of a transfer in order: every check sector of a row that the transfer needs comes before the row's first
data sector. -/
def planSectors (s : State) (d : Stack) (n len from_ : Nat) : List (Option (Nat × Nat × Nat)) → LdmaPlan → Option LdmaPlan
  | [], q => some q
  | none :: ks, q => planSectors s d n len from_ ks { q with slots := q.slots ++ [from_] }
  | some (ch, row, sec) :: ks, q =>
    let r := lpRowNo ch row
    let q1 := if q.seen.contains r then some q
      else planBursts (getLp s d) n len ch row from_ (rowChecks s d ch row (some (ch, row, sec) :: ks)).length { q with seen := q.seen ++ [r] }
    match q1.bind (planBurst (getLp s d) n len ch row from_) with
    | none => none
    | some (b, q) => planSectors s d n len from_ ks { q with slots := q.slots ++ [b] }

/-- Plans the bursts of sectors from a step offset on, after the slots that earlier transfers took; none after LP_SCHED. -/
def lpPlan (s : State) (d : Stack) (thaw : Bool) (off : Nat) (ks : List Nat) : Option LdmaPlan :=
  planSectors s d (refreshPoints s d thaw) (refreshCycles thaw) ((off + 8) / 9) (ks.map (lpPlace s d))
    ⟨(getLp s d).bursts, (getLp s d).activates, [], [], []⟩

/-! ### The LDMA word (R272) -/

def ldmaOp (w : BitVec 128) : Nat := wbits w 27 24
def ldmaSect (w : BitVec 128) : Nat := wbits w 57 28
def ldmaSoff (w : BitVec 128) : Nat := wbits w 74 58 * 64
def ldmaN (w : BitVec 128) : Nat := wbits w 90 75
def ldmaLoff (w : BitVec 128) : Nat := wbits w 107 91 * 64

/-- Bytes of a cluster's staging memory. -/
def stagingSize : Nat := 0x800000

/-- Is an LDMA word malformed at step offset `off` (R69, R272, R273)? In elastic mode its handshake has moved it to a multiple of
9 (log entry 80). -/
def badLdma (w : BitVec 128) (off : Nat) : Bool :=
  wordEmask w ≠ 0 || wbits w 127 108 ≠ 0 || ldmaN w == 0 || decide (off % 9 ≠ 0) ||
    decide (stagingSize < ldmaSoff w + 64 * ldmaN w) || (ldmaOp w == 3 && decide (stagingSize < ldmaLoff w + 4 * ldmaN w))

/-- The sectors of an LDMA word in order. -/
def ldmaSectors (s : State) (d : Stack) (k : Cluster) (w : BitVec 128) : List Nat :=
  (List.range (ldmaN w)).map fun i =>
    if ldmaOp w = 3 then readMem s (stagingKey d k.val (ldmaLoff w + 4 * i)) 4 else ldmaSect w + i

/-- The LPDDR group whose result window a read of data sectors at step offset `off` would break (R127). -/
def lpEarlyGroup (s : State) (d : Stack) (ks : List Nat) (off : Nat) : Option Nat :=
  ((getLp s d).groups.find? fun p =>
    let base := fieldOf f_VC_RGRPB_RADDR (getReg s (r_LP_RGRPB d p.1))
    let len := 2 * fieldOf f_VC_RGRPA_LEN (getReg s (r_LP_RGRPA d p.1))
    inResultWindow p.2 off && ks.any fun k => decide (base ≤ k) && decide (k < base + len)).map (·.1)

/-- An LDMA word issues in cycle `t`: its bursts take their slots and each sector moves at its own time, a sector that is read with
its upsets of `ups` (R283). A halted channel
does nothing; a read of a result in its window is ADD_EARLY (R127), and a word without slots is LP_SCHED. -/
def issueLdma (d : Stack) (c : CoreIx) (ups : List Upsets) (w : BitVec 128) (word t : Nat) (thaw : Bool) (s : State) : State :=
  let x := getCore s d c
  let off := t - x.start
  let lp := getLp s d
  if lp.halted then s
  else
    let ks := ldmaSectors s d (clusterOf c) w
    match (if ldmaOp w = 2 then none else lpEarlyGroup s d ks off), lpPlan s d thaw off ks with
    | some g, _ => poisonStep d c (lpFault d vfAddEarly g 0 off x.sel s)
    | none, none => poisonStep d c (lpFault d vfSched 0 0 off x.sel s)
    | none, some q =>
      let s := updLp d (fun p => { p with bursts := q.bursts, activates := q.activates }) s
      let lastB := q.slots.foldl max 0
      forAll ((ks.zip q.slots).zipIdx) (fun e s =>
        let k := e.1.1
        let b := x.start + 9 * e.1.2
        let sa := ldmaSoff w + 64 * e.2
        if ldmaOp w = 2 then schedule d c (b - 9) word (.ldmaOut k sa (x.start + 9 * lastB)) s
        else schedule d c (b + 312) word (.ldmaIn k sa (ups.getD e.2 [])) s) s

/-- A compiled LPDDR read found a bad word (R290). -/
def lpCompiledBad (d : Stack) (c : CoreIx) (k : Nat) (o : CodeOutcome) (s : State) : State :=
  let x := getCore s d c
  let s := poisonStep d c s
  match o with
  | .mismatch => recordErr (.die d) 4 kLCrc x.sel k s
  | _ =>
    updLp d (fun p => { p with rechecks := p.rechecks ++ [⟨64 * k, false⟩], halted := true })
      (recordErr (.die d) 4 kDmaUe x.sel (4 * k) (if o = .uncorrectable then lpMark d k s else s))

/-- A compiled access of a failed channel or beyond the capacity completes with an error response: the step is poisoned (R276), and
LP_FAULT records LP_CHAN_OUT for a channel that is out (R281). -/
def lpNoSector (d : Stack) (c : CoreIx) (t k : Nat) (s : State) : State :=
  let x := getCore s d c
  poisonStep d c (if (lpPlace s d k).isSome then lpFault d vfChanOut 0 0 (t - x.start) x.sel s else s)

/-- A sector of an LDMA read reaches staging memory, unless its controller has halted (R290). A failed channel or a sector beyond
the capacity poisons the step and reads as zero (R256, R276, log entry 80); a burst less than 64 cc after the last of a write of
the sector brings free bytes (R273). -/
def ldmaInNow (d : Stack) (c : CoreIx) (t word k sa : Nat) (u : Upsets) (s : State) : State :=
  let key := stagingKey d (clusterOf c).val sa
  if (getLp s d).halted then s
  else if (getLp s d).written.any fun p => p.1 == k && decide (t - 312 < p.2 + 64) then
    writeMem key 64 (earlyBytes (384 + d.val) (getCore s d c).sel word (64 * k) 64) s
  else match lpLoad d k 0 u s with
    | (none, s) => writeMem key 64 0 (lpNoSector d c t k s)
    | (some (data, o), s) =>
      let s := if badOutcome o then lpCompiledBad d c k o s else s
      if badOutcome o && o ≠ .mismatch then s else writeMem key 64 data.toNat s

/-- A sector of an LDMA write leaves staging memory, unless its controller has halted (R290). -/
def ldmaOutNow (d : Stack) (c : CoreIx) (t k sa last : Nat) (s : State) : State :=
  if (getLp s d).halted then s
  else match lpPlace s d k with
  | some (ch, _, _) =>
    if lpChanFailed s d ch then lpNoSector d c t k s
    else updLp d (fun p => { p with written := (p.written.filter fun q => q.1 ≠ k) ++ [(k, last)] })
      (lpCompiled d k (BitVec.ofNat 512 (readMem s (stagingKey d (clusterOf c).val sa) 64)) s)
  | none => lpNoSector d c t k s

end Sys2Proof.Machine
end

