-- ==== Sys2Proof/Machine/MemCtl.lean ====
section
/-! DEFINITION. The memory controllers beside compiled traffic: host accesses and their queues (R150, R155, R157, R264, R274),
merge buffers (R288), refresh and its crediting (R161, R162), windows (R153, R154, R262), layer activity (R163), rechecks
(R291), Drizzle (R294), row tests and retirement (R295, R296). A memory unit of a stack is a core's vault (0–15) or the LPDDR
device (16). -/
namespace Sys2Proof.Machine

/-! ### A memory unit -/

/-- The core of a vault unit; none for the LPDDR device. -/
def unitCore (u : Fin 17) : Option CoreIx := if h : u.val < 16 then some ⟨u.val, h⟩ else none

/-- Reads the code word at byte address `a` of a unit from its bank, with the upsets `e` of its transfer; none where the unit has no
such word. -/
def uRead (d : Stack) (u : Fin 17) (a : Nat) (e : Upsets) (s : State) : Option (BitVec 512 × CodeOutcome) × State :=
  match unitCore u with
  | some c => if a < dramEnd then let (v, o, s) := vaultRead d c a (laneWord a) e s; (some (v, o), s) else (none, s)
  | none => lpRead d (a / 64) (laneWord a) e s

/-- What a host or scrub read of the code word at byte address `a` of a unit answers (R288 rule 4). -/
def uLoad (d : Stack) (u : Fin 17) (a : Nat) (e : Upsets) (s : State) : Option (BitVec 512 × CodeOutcome) × State :=
  match unitCore u with
  | some c => if a < dramEnd then let (v, o, s) := vaultLoad d c a (laneWord a) e s; (some (v, o), s) else (none, s)
  | none => lpLoad d (a / 64) (laneWord a) e s

/-- Writes the code word at byte address `a` of a unit, with the upsets of its transfer. -/
def uStore (d : Stack) (u : Fin 17) (a who : Nat) (e : Upsets) (v : BitVec 512) (s : State) : State :=
  match unitCore u with
  | some c => if a < dramEnd then vaultStore d c a who e v s else s
  | none => lpStore d (a / 64) who v s

/-- Writes the code word at byte address `a` as poison. -/
def uPoison (d : Stack) (u : Fin 17) (a : Nat) (v : BitVec 512) (s : State) : State :=
  match unitCore u with
  | some c => if a < dramEnd then vaultPoison d c a v s else s
  | none => lpPoison d (a / 64) v s

/-- The unit and byte address that a device address names on a stack, none outside vaults and LPDDR (R255, R270). -/
def devTarget (s : State) (a : Nat) : Option (Stack × Fin 17 × Nat) :=
  if a < 0xC000000000 then
    (stackIx (a / 0x800000000)).map fun d => (d, ⟨a / 0x80000000 % 16, by omega⟩, a % 0x80000000)
  else if 0x10000000000 ≤ a ∧ a < 0x28000000000 then
    (stackIx ((a - 0x10000000000) / 0x1000000000)).map fun d => (d, 16, (a - 0x10000000000) % 0x1000000000)
  else if 0x40000000000 ≤ a ∧ a < 0x58000000000 then
    let x := a - 0x40000000000
    let low := allStacks.foldl (fun m d => min m (64 * lpCapacity s d)) (2 ^ 40)
    if 24 * low ≤ x then none
    else (stackIx (x / 512 % 24)).map fun d => (d, 16, 512 * (x / 512 / 24) + x % 512)
  else none

/-- The merge buffer of a unit. -/
def uMerge (s : State) (d : Stack) (u : Fin 17) : List MergeEntry :=
  match unitCore u with | some c => (getVc s d c).merge | none => (getLp s d).merge

/-- The state with a unit's merge buffer set. -/
def setMerge (d : Stack) (u : Fin 17) (m : List MergeEntry) (s : State) : State :=
  match unitCore u with | some c => updVc d c (fun v => { v with merge := m }) s | none => updLp d (fun p => { p with merge := m }) s

/-- ECC_MERGE_CTRL of a unit. -/
def uMergeReg (d : Stack) (u : Fin 17) : Nat :=
  match unitCore u with | some c => r_ECC_MERGE_CTRL d c | none => r_ECC_MERGE_CTRL_LP d

/-- DRIZZLE_CTRL of a unit. -/
def uDrizzleReg (d : Stack) (u : Fin 17) : Nat :=
  match unitCore u with | some c => r_DRIZZLE_CTRL d c | none => r_DRIZZLE_CTRL_LP d

/-- RETIRE entry `n` of a unit. -/
def uRetireReg (d : Stack) (u : Fin 17) (n : Nat) : Nat :=
  match unitCore u with | some c => r_RETIRE d c n | none => r_RETIRE_LP d n

/-- The device address of byte `a` of a unit (R255). -/
def devAddr (d : Stack) (u : Fin 17) (a : Nat) : Nat :=
  match unitCore u with | some c => 0x80000000 * coreNo d c + a | none => 0x10000000000 + 0x1000000000 * d.val + a

/-- Station and unit of stored data (R290): 9, or the BP of a NEAR group; unit 4 of the die for LPDDR. -/
def uStation (s : State) (d : Stack) (u : Fin 17) (a : Nat) : Station × Nat :=
  match unitCore u with
  | some c => let (j, _) := mapVault s d c a
              (.core d c, if isNear s d c j then 16 + j else 9)
  | none => (.die d, 4)

/-- INFO of a memory error: the vault address or the data sector. -/
def uInfo (u : Fin 17) (a : Nat) : Nat := match unitCore u with | some _ => a | none => a / 64

/-- The row of a word becomes a candidate for the row test (R295). -/
def uMark (d : Stack) (u : Fin 17) (a : Nat) (s : State) : State :=
  match unitCore u with
  | some c => let (j, off) := mapVault s d c a
              markRow d c j off s
  | none => lpMark d (a / 64) s

/-- Records a bad word that a host, transit, BP or Drizzle access found (R290); an uncorrectable one makes its row a candidate
(R295: a POISONED word is one written as poison, log entry 17). -/
def uBad (d : Stack) (u : Fin 17) (a : Nat) (o : CodeOutcome) (s : State) : State :=
  let (st, un) := uStation s d u a
  let s := recordErr st un (outcomeKind o) 0 (uInfo u a) s
  if o = .uncorrectable then uMark d u a s else s

/-! ### Activity and refresh (R161 to R163) -/

/-- Counts activity units at the layer of a bank group. -/
def addAct (d : Stack) (j n : Nat) (s : State) : State :=
  updDie d (fun x => { x with act := sput 0 x.act (j / 4) (sget 0 x.act (j / 4) + n) }) s

/-- Credits a row that a BP activate has restored, with CREDIT_EN (R162). -/
def creditRow (d : Stack) (c : CoreIx) (j off : Nat) (s : State) : State :=
  if getF s (r_BP_CTRL d j c) f_BP_CTRL_CREDIT_EN = 1
  then updVc d c (fun v => { v with credit := sput 0 v.credit (rowNo j off) 1 }) s else s

/-- A bank's refresh slot reaches its next refresh group: issued, or skipped where all four rows are credited (R161, R162).
True when a refresh is issued. -/
def refreshStep (d : Stack) (c : CoreIx) (j b : Nat) (s : State) : Bool × State :=
  let v := getVc s d c
  let p := sget 0 v.refresh (4 * j + b)
  let rows := fun (g : Nat) => (List.range 4).map fun i => 8192 * (4 * j + b) + 4 * (g % 2048) + i
  let credited := getF s (r_BP_CTRL d j c) f_BP_CTRL_CREDIT_EN == 1 && (rows p).all fun r => sget 0 v.credit r == 1
  let clear := fun (g : Nat) (m : SMap Nat) => (rows g).foldl (fun m r => sput 0 m r 0) m
  let s := updVc d c (fun v =>
    { v with refresh := sput 0 v.refresh (4 * j + b) ((p + 1) % 2048),
             credit := if credited then clear p (clear (p + 128) v.credit) else clear (p + 128) v.credit }) s
  let a := r_BP_REF d j c
  if credited then (false, bumpF a f_BP_REF_SKIPPED 1 s) else (true, addAct d j 320 (bumpF a f_BP_REF_ISSUED 1 s))

/-! ### Merge buffers (R288) -/

/-- Reads the bank's word for a read-modify-write, merges bytes into it and writes it back, with the upsets of that transfer; a bad
word makes it poison. -/
def rmwWord (d : Stack) (u : Fin 17) (a : Nat) (mask : BitVec 64) (e : Upsets) (data : BitVec 512) (s : State) : State :=
  match uRead d u a [] s with
  | (none, s) => s
  | (some (old, o), s) =>
    let v := maskBytes mask old data
    if badOutcome o then uPoison d u a v (uBad d u a o s) else uStore d u a wHost e v s

/-- Writes one entry back: whole where its mask is full, else by read-modify-write; `p`: the upsets of the transfer. -/
def writeBack (d : Stack) (u : Fin 17) (e : MergeEntry) (p : Upsets) (s : State) : State :=
  let s := setMerge d u ((uMerge s d u).filter fun x => x.addr ≠ e.addr) s
  let r := uMergeReg d u
  if e.mask = BitVec.allOnes 64 then satF r f_ECC_MERGE_CTRL_WHOLE 1 (uStore d u e.addr wHost p e.data s)
  else satF r f_ECC_MERGE_CTRL_RMW 1 (rmwWord d u e.addr e.mask p e.data s)

/-- A write merges into the buffer: into its word's entry, or a free one, or the oldest one's after its write-back. -/
def mergeWrite (d : Stack) (u : Fin 17) (a : Nat) (mask : BitVec 64) (data : BitVec 512) (s : State) : State :=
  let m := uMerge s d u
  match liveEntry m a with
  | some e =>
    let e := { e with data := maskBytes mask e.data data, mask := e.mask ||| mask }
    if e.mask = BitVec.allOnes 64 then writeBack d u e [] s else setMerge d u (m.map fun x => if x.addr = a then e else x) s
  | none =>
    let s := match m with
      | o :: _ => if 16 ≤ m.length then writeBack d u o [] s else s
      | [] => s
    let e : MergeEntry := ⟨a, data, mask, 0⟩
    if mask = BitVec.allOnes 64 then writeBack d u e [] s else setMerge d u (uMerge s d u ++ [e]) s

/-! ### Host accesses -/

/-- The code words that `n` bytes from `a` touch. -/
def wordsOf (a n : Nat) : List Nat := (List.range ((a + n + 63) / 64 - a / 64)).map fun i => (a / 64 + i) * 64

/-- The mask of the bytes of word `w` that lie in `n` bytes from `a`. -/
def maskFor (w a n : Nat) : BitVec 64 :=
  BitVec.ofNat 64 ((List.range 64).foldl (fun m i => if a ≤ w + i ∧ w + i < a + n then m + 2 ^ i else m) 0)

/-- Data placed at byte `a` as the content of word `w`. -/
def dataFor (w a v : Nat) : BitVec 512 :=
  BitVec.ofNat 512 (if a ≤ w then v / 2 ^ (8 * (w - a)) else v * 2 ^ (8 * (a - w)))

/-- A host or transit read, with the upsets of its transfer: the data, or none with an error response (R290). -/
def hostRead (d : Stack) (u : Fin 17) (a n : Nat) (e : Upsets) (s : State) : Option Nat × State :=
  let (ok, v, s) := (wordsOf a n).foldr (fun w (r : Bool × Nat × State) =>
    match uLoad d u w e r.2.2 with
    | (some (x, o), s) => if badOutcome o then (false, 0, uBad d u w o s) else (r.1, x.toNat + 2 ^ 512 * r.2.1, s)
    | (none, s) => (false, 0, s)) (true, 0, s)
  (if ok then some (v / 2 ^ (8 * (a % 64)) % 2 ^ (8 * n)) else none, s)

/-- Is the word's group NEAR, so that a narrow write is done inside its own slot (R288)? -/
def uNear (s : State) (d : Stack) (u : Fin 17) (w : Nat) : Bool :=
  match unitCore u with | some c => isNear s d c (mapVault s d c w).1 | none => false

/-- Does a write of a code word's bytes go to the merge buffer: a narrow one while it is enabled, or any to a word with a live entry,
outside NEAR groups (R288)? -/
def toMerge (s : State) (d : Stack) (u : Fin 17) (w : Nat) (mask : BitVec 64) : Bool :=
  !uNear s d u w && ((liveEntry (uMerge s d u) w).isSome ||
    (mask ≠ BitVec.allOnes 64 && getF s (uMergeReg d u) f_ECC_MERGE_CTRL_EN == 1))

/-- A host or transit write of the bytes of one code word, with the upsets of its transfer. -/
def hostWriteWord (d : Stack) (u : Fin 17) (w a n v : Nat) (e : Upsets) (s : State) : State :=
  let mask := maskFor w a n
  let data := dataFor w a v
  if toMerge s d u w mask then mergeWrite d u w mask data s
  else if mask = BitVec.allOnes 64 then uStore d u w wHost e data s
  else rmwWord d u w mask e data s

/-- Does the layer refuse a word that a host write transfers? The codes are linear, so its check depends on the upsets alone. -/
def writeLost (s : State) (d : Stack) (r : HostReq) (u : Fin 17) (w : Nat) : Bool :=
  !r.upsets.isEmpty && !toMerge s d u w (maskFor w r.addr r.len) &&
    match unitCore u with
    | some c =>
      let code := vaultCode s d c w
      badOutcome (decodeWord code false (upsetWord r.upsets (laneWord w) (encodeWord code 0))).2
    | none => false

/-- Would a host write touch a word with a live entry in its BP's merge buffer (R157)? -/
def hostConflict (s : State) (d : Stack) (u : Fin 17) (a n : Nat) : Bool :=
  match unitCore u with
  | some c => (wordsOf a n).any fun w =>
      let (j, off) := mapVault s d c w
      (liveEntry (getBp s d c j).merge off).isSome
  | none => false

/-- Adds an answer to a unit. -/
def addAnswer (d : Stack) (u : Fin 17) (x : HostAns) (s : State) : State :=
  match unitCore u with
  | some c => updVc d c (fun v => { v with answers := v.answers ++ [x] }) s
  | none => updLp d (fun p => { p with answers := p.answers ++ [x] }) s

/-- Is an access one that a unit can serve: 1 to 256 bytes in one row, inside the unit's data? -/
def hostInside (s : State) (d : Stack) (u : Fin 17) (a n : Nat) : Bool :=
  n ≠ 0 && decide (n ≤ 256) &&
    match unitCore u with
    | some _ => decide (a + n ≤ dramEnd) && decide (a / 2048 = (a + n - 1) / 2048)
    | none => (wordsOf a n).all fun w => match lpPlace s d (w / 64) with | some p => !lpChanFailed s d p.1 | none => false

/-- Serves one host request: its answer, an error where the unit cannot serve it now (R256, R276). `act` counts the access's activity
at its layer. -/
def hostAnswer (d : Stack) (u : Fin 17) (r : HostReq) (s : State) : HostAns × State :=
  let beats := (r.addr + r.len + 127) / 128 - r.addr / 128
  let act := fun (n : Nat) (s : State) => match unitCore u with
    | some c => addAct d (mapVault s d c r.addr).1 n s
    | none => s
  if !hostInside s d u r.addr r.len then (⟨r.id, true, 0⟩, s)
  else if r.write then
    if hostConflict s d u r.addr r.len then
      (⟨r.id, true, 0⟩, match unitCore u with
        | some c => satF (r_BP_HOST d (mapVault s d c r.addr).1 c) f_BP_HOST_HCONF 1 s
        | none => s)
    else
      let part := (wordsOf r.addr r.len).filter fun w => maskFor w r.addr r.len ≠ BitVec.allOnes 64
      let read := ((part.map (· / 128)).eraseDups).length
      let s := act ((if part.isEmpty then 96 else 192) + 30 * beats + 22 * read) s
      (⟨r.id, (wordsOf r.addr r.len).any (writeLost s d r u), 0⟩,
        forAll (wordsOf r.addr r.len) (fun w s => hostWriteWord d u w r.addr r.len r.data r.upsets s) s)
  else
    match hostRead d u r.addr r.len r.upsets (act (96 + 22 * beats) s) with
    | (some v, s) => (⟨r.id, false, v⟩, s)
    | (none, s) => (⟨r.id, true, 0⟩, s)

/-- Serves one host request and answers it. -/
def serveHost (d : Stack) (u : Fin 17) (r : HostReq) (s : State) : State :=
  let (x, s) := hostAnswer d u r s
  addAnswer d u x s

/-- Does the partition of a die have a graph loaded? Otherwise host accesses are served at once (R264, R274). -/
def partLoaded (s : State) (d : Stack) : Bool :=
  s.present.contains d.val && s.loadedParts.any fun n => match s.parts[n]? with | some p => inRect p d.val | none => false

/-- The part of a host access of an LPDDR device that lies in one sector (log entry 98). -/
def sectorPart (r : HostReq) (w : Nat) : HostReq :=
  let lo := max r.addr w
  { r with addr := lo, len := min (r.addr + r.len) (w + 64) - lo, data := r.data / 2 ^ (8 * (lo - r.addr)) }

/-- The queue of a request: 4 × group + bank in a vault, the channel in the LPDDR device. -/
def hostQueueKey (s : State) (d : Stack) (u : Fin 17) (a : Nat) : Nat :=
  match unitCore u with
  | some c => let (j, off) := mapVault s d c a
              4 * j + offBank off
  | none => match lpPlace s d (a / 64) with | some p => p.1 | none => 0

/-- The key of a byte of BP space: scratch or program memory (R145). -/
def bpSpaceKey (d : Stack) (c : CoreIx) (a : Nat) : Option Nat :=
  (bpPlaceOf a).map fun p => match p with | .scratch j o => scratchKey d c j o | .prog j o => progKey d c j o

/-- A host or transit request reaches a controller: it enters its queue (R155, R264), is served at once while the die runs no
graph, or is answered with an error where no such memory is (R256). Requests to BP space are served on arrival (log entry 16). -/
def hostArrive (d : Stack) (u : Fin 17) (r : HostReq) (s : State) : State :=
  match unitCore u with
  | some c =>
    match bpSpaceKey d c r.addr, bpSpaceKey d c (r.addr + r.len - 1) with
    | some k, some k' =>
      if r.len = 0 ∨ k' ≠ k + r.len - 1 then addAnswer d u ⟨r.id, true, 0⟩ s
      else if r.write then addAnswer d u ⟨r.id, false, 0⟩ (writeMem k r.len r.data s)
      else addAnswer d u ⟨r.id, false, readMem s k r.len⟩ s
    | _, _ =>
      if !hostInside s d u r.addr r.len then addAnswer d u ⟨r.id, true, 0⟩ s
      else if !partLoaded s d && !bpOwns s d c (mapVault s d c r.addr).1 then serveHost d u r s
      else
        let q := hostQueueKey s d u r.addr
        let s := updVc d c (fun v => { v with queue := sput [] v.queue q (sget [] v.queue q ++ [r]) }) s
        let a := r_BP_HOST d (q / 4) c
        let occ := (List.range 4).foldl (fun n b => n + min 4 (sget [] (getVc s d c).queue (q / 4 * 4 + b)).length) 0
        if getF s a f_BP_HOST_QMAX < occ then putF a f_BP_HOST_QMAX occ s else s
  | none =>
    if !hostInside s d u r.addr r.len then addAnswer d u ⟨r.id, true, 0⟩ s
    else if !partLoaded s d then serveHost d u r s
    else
      let ws := wordsOf r.addr r.len
      let s := updLp d (fun p => { p with joins := p.joins ++ [⟨r.id, r.addr, ws.length, false, 0⟩] }) s
      forAll ws (fun w s =>
        let q := hostQueueKey s d u w
        updLp d (fun p => { p with queue := sput [] p.queue q (sget [] p.queue q ++ [sectorPart r w]) }) s) s

/-- Serves the first request of a vault bank's queue if it arrived by mc `m` (R155). -/
def serveBank (d : Stack) (c : CoreIx) (q m : Nat) (s : State) : State :=
  match sget [] (getVc s d c).queue q with
  | r :: rest =>
    if r.arrived ≤ m then
      let s := updVc d c (fun v => { v with queue := sput [] v.queue q rest }) s
      serveHost d ⟨c.val, by omega⟩ r s
    else s
  | [] => s

/-! ### Windows -/

/-- Is slot `b` of window `k` reserved for refresh (R155, R262)? -/
def refreshSlot (ext : Bool) (k b : Nat) : Bool := if ext then k % 2 == b % 2 else k % 4 == b % 4

/-- The next host window of a BP-owned group (R153 to R155): each bank's slot refreshes or serves one waiting request. -/
def hostWindow (d : Stack) (c : CoreIx) (j : Nat) (s : State) : State :=
  let b := getBp s d c j
  if !b.owned then s
  else
    let ext := getF s (r_BP_CTRL d j c) f_BP_CTRL_REFBAND == 1
    let m0 := b.w0 + 4096 * b.win - 64
    let s := updBp d c j (fun b => { b with win := b.win + 1 }) s
    forAll (List.range 4) (fun bk s =>
      let (issued, s) := if refreshSlot ext b.win bk then refreshStep d c j bk s else (false, s)
      if issued then s
      else
        let n := (getVc s d c).answers.length
        let s := serveBank d c (4 * j + bk) (m0 + 4 * bk) s
        if n < (getVc s d c).answers.length then bumpF (r_BP_HOST d j c) f_BP_HOST_SERVED 1 s else s) s

/-- The controller-owned groups of a vault. -/
def ctlGroups (s : State) (d : Stack) (c : CoreIx) : List Nat := (List.range 24).filter fun j => !bpOwns s d c j

/-- The slot of a bank number stays free for a scrub read, a write-back or a recheck (log entry 97). -/
def leaveSlot (d : Stack) (c : CoreIx) (b : Nat) (s : State) : State := updVc d c (fun v => { v with slots := v.slots ++ [b] }) s

/-- Does a recheck wait for a bank number of a vault's controller-owned groups (R291)? -/
def recheckWaits (s : State) (d : Stack) (c : CoreIx) (b : Nat) : Bool :=
  (getVc s d c).rechecks.any fun r =>
    let (j, off) := mapVault s d c r.addr
    !bpOwns s d c j && offBank off == b

/-- The next controller window of a vault (R262): each bank number refreshes in every controller-owned group, or serves one
host request in one group, in ascending order after the group last served. A recheck goes first (R291). -/
def controllerWindow (d : Stack) (c : CoreIx) (s : State) : State :=
  let k := (getVc s d c).win
  let ext := getF s (r_VC_CTRL d c) f_VC_CTRL_REFBAND == 1
  let s := updVc d c (fun v => { v with win := v.win + 1, slots := [] }) s
  forAll (List.range 4) (fun b s =>
    if refreshSlot ext k b then forAll (ctlGroups s d c) (fun j s => (refreshStep d c j b s).2) s
    else if recheckWaits s d c b then leaveSlot d c b s
    else
      let v := getVc s d c
      let m := 4096 * k + 4 * b
      let ready := (ctlGroups s d c).filter fun j =>
        match sget [] v.queue (4 * j + b) with | r :: _ => decide (r.arrived ≤ m) | [] => false
      let last := sget 24 v.lastGroup b
      let next := match ready.find? fun j => decide (last < 24) && decide (last < j) with | some j => some j | none => ready.head?
      match next with
      | some j => serveBank d c (4 * j + b) m (updVc d c (fun v => { v with lastGroup := sput 24 v.lastGroup b j }) s)
      | none => leaveSlot d c b s) s

/-- Does a host request wait for a bank number of a vault (R262)? -/
def hostWaits (s : State) (d : Stack) (c : CoreIx) (b : Nat) : Bool :=
  (ctlGroups s d c).any fun j => !(sget [] (getVc s d c).queue (4 * j + b)).isEmpty

/-- The answer to a part of an access joins the others; the last one answers the access. -/
def joinPart (d : Stack) (r : HostReq) (x : HostAns) (s : State) : State :=
  match (getLp s d).joins.find? fun j => j.id == r.id with
  | none => addAnswer d 16 x s
  | some j =>
    let j := { j with left := j.left - 1, err := j.err || x.err, data := j.data + 2 ^ (8 * (r.addr - j.addr)) * x.data }
    if j.left = 0 then
      addAnswer d 16 ⟨j.id, j.err, if j.err then 0 else j.data⟩ (updLp d (fun p => { p with joins := p.joins.filter fun y => y.id ≠ j.id }) s)
    else updLp d (fun p => { p with joins := p.joins.map fun y => if y.id = j.id then j else y }) s

/-- Serves the part of a host access that waits for a channel. -/
def servePart (d : Stack) (r : HostReq) (s : State) : State :=
  let (x, s) := hostAnswer d 16 r s
  joinPart d r x s

/-- Does a recheck wait for a channel of an LPDDR device (R291)? -/
def lpRecheckWaits (s : State) (d : Stack) (ch : Nat) : Bool :=
  (getLp s d).rechecks.any fun r => match lpPlace s d (r.addr / 64) with | some p => p.1 == ch | none => false

/-- The next schedule frame of an LPDDR device (R271, R274): its per-bank refreshes, and one access of each channel. A recheck goes
first (R291). -/
def lpFrame (d : Stack) (thaw : Bool) (s : State) : State :=
  let n := refreshPoints s d thaw
  let s := updLp d (fun p => { p with frame := p.frame + 1, slots := [],
                                      refresh := (List.range 8).foldl (fun m ch => sput 0 m ch ((sget 0 m ch + n) % 16)) p.refresh }) s
  let leave := fun (ch : Nat) (s : State) => updLp d (fun p => { p with slots := p.slots ++ [ch] }) s
  forAll (List.range 8) (fun ch s =>
    if lpRecheckWaits s d ch then leave ch s
    else match sget [] (getLp s d).queue ch with
      | r :: rest => servePart d r (updLp d (fun p => { p with queue := sput [] p.queue ch rest }) s)
      | [] => leave ch s) s

/-- The slot that an access to a code word takes: the bank number in a vault, the channel in an LPDDR device. -/
def slotKey (s : State) (d : Stack) (u : Fin 17) (a : Nat) : Nat :=
  match unitCore u with
  | some c => offBank (mapVault s d c a).2
  | none => match lpPlace s d (a / 64) with | some p => p.1 | none => 8

/-- The slots of a unit that are free in its current window or frame. -/
def freeSlots (s : State) (d : Stack) (u : Fin 17) : List Nat :=
  match unitCore u with | some c => (getVc s d c).slots | none => (getLp s d).slots

/-- Takes the slots that accesses to code words need (R262, R274): false where one of them is not free. -/
def takeSlots (d : Stack) (u : Fin 17) (as : List Nat) (s : State) : Bool × State :=
  let ks := (as.map (slotKey s d u)).eraseDups
  if ks.all (freeSlots s d u).contains then
    (true, match unitCore u with
      | some c => updVc d c (fun v => { v with slots := v.slots.filter fun k => !ks.contains k }) s
      | none => updLp d (fun p => { p with slots := p.slots.filter fun k => !ks.contains k }) s)
  else (false, s)

/-! ### Rechecks (R291) -/

/-- Reports an uncorrectable word of memory to the hub: how it was found, and its device address. -/
def reportWord (how a : Nat) (s : State) : State := updHub (fun h => { h with badWords := h.badWords ++ [(a, how)] }) s

/-- The outstanding rechecks of a unit. -/
def getRechecks (s : State) (d : Stack) (u : Fin 17) : List Recheck :=
  match unitCore u with | some c => (getVc s d c).rechecks | none => (getLp s d).rechecks

/-- The state with a unit's outstanding rechecks set. -/
def setRechecks (d : Stack) (u : Fin 17) (l : List Recheck) (s : State) : State :=
  match unitCore u with
  | some c => updVc d c (fun v => { v with rechecks := l }) s
  | none => updLp d (fun p => { p with rechecks := l }) s

/-- Is a vault's code word in a group that its BP owns? -/
def uOwned (s : State) (d : Stack) (u : Fin 17) (a : Nat) : Bool :=
  match unitCore u with | some c => bpOwns s d c (mapVault s d c a).1 | none => false

/-- The first outstanding recheck of a unit reads its word again in its slot: a word still bad is a stored error, which is recorded
where the word is stored, stops the partition and is reported. In a group that a BP owns, the slot is one of a host window. -/
def recheckNow (d : Stack) (u : Fin 17) (e : Upsets) (s : State) : State :=
  match getRechecks s d u with
  | [] => s
  | r :: rest =>
    let (ok, s) := if uOwned s d u r.addr then (true, s) else takeSlots d u [r.addr] s
    if !ok then s
    else match uLoad d u r.addr e (setRechecks d u rest s) with
      | (some (_, o), s) =>
        if badOutcome o then reportWord (if r.fetch then 2 else 1) (devAddr d u r.addr) (stopPartition d (uBad d u r.addr o s)) else s
      | (none, s) => s

/-! ### Drizzle (R294) -/

/-- May Drizzle read a unit of region (a 2 KiB unit, a channel row) under its deciding descriptor? -/
def scrubbed (r : Option Word) : Bool :=
  match r with | some r => fieldOf f_ECC_REGION_CODE r == 0 && fieldOf f_ECC_REGION_NOSCRUB r == 0 | none => false

/-- The first unit of region at or after `pos` that Drizzle reads. -/
def nextScrubUnit (s : State) (base limit pos : Nat) : Option Nat :=
  let cand := (List.range 64).foldl (fun l n =>
    let r := getReg s (base + 8 * n)
    insNat (max pos (fieldOf f_ECC_REGION_BASE r)) (insNat (max pos (fieldOf f_ECC_REGION_LIMIT r + 1)) l)) [pos]
  cand.find? fun x => decide (x < limit) && scrubbed (regionOf s base x)

/-- The address of the next word that Drizzle reads at or after byte address `pos` of a unit, none at the end of the pass. -/
def nextScrub (s : State) (d : Stack) (u : Fin 17) (pos : Nat) : Option Nat :=
  match unitCore u with
  | some c => (nextScrubUnit s (r_ECC_REGION d c 0) (dramEnd / 2048) (pos / 2048)).map fun x => max pos (2048 * x)
  | none =>
    match lpPlace s d (pos / 64) with
    | none => none
    | some (_, row, _) =>
      (nextScrubUnit s (r_ECC_REGION_LP d 0) lpRows row).bind fun r =>
        let k := if r = row then pos / 64 else (lpActive s d).length * lpBelow (lpCode s d) (lpBounds s d) r
        if k < lpCapacity s d then some (64 * k) else none

/-- The number of the row that holds a word of a unit. -/
def uRow (s : State) (d : Stack) (u : Fin 17) (a : Nat) : Nat :=
  match unitCore u with
  | some c => let (j, off) := mapVault s d c a
              rowNo j off
  | none => match lpPlace s d (a / 64) with | some (ch, row, _) => lpRowNo ch row | none => 0

/-- Scrub state of a unit: position, words to write back, rows corrected in the last pass and in this one. -/
def getScrub (s : State) (d : Stack) (u : Fin 17) : Nat × List (Nat × BitVec 512) × List Nat × List Nat :=
  match unitCore u with
  | some c => let v := getVc s d c
              (v.scrub, v.writeback, v.corrLast, v.corrNow)
  | none => let p := getLp s d
            (p.scrub, p.writeback, p.corrLast, p.corrNow)

/-- The state with a unit's scrub state set. -/
def setScrub (d : Stack) (u : Fin 17) (x : Nat × List (Nat × BitVec 512) × List Nat × List Nat) (s : State) : State :=
  match unitCore u with
  | some c => updVc d c (fun v => { v with scrub := x.1, writeback := x.2.1, corrLast := x.2.2.1, corrNow := x.2.2.2 }) s
  | none => updLp d (fun p => { p with scrub := x.1, writeback := x.2.1, corrLast := x.2.2.1, corrNow := x.2.2.2 }) s

/-- One scrubbed word, with the upsets of its transfer: a corrected one waits for its write-back, and its row is a candidate when the
last pass corrected it too; a bad one is recorded and reported. -/
def scrubWord (d : Stack) (u : Fin 17) (a : Nat) (e : Upsets) (s : State) : State :=
  match uRead d u a e s with
  | (none, s) => s
  | (some (v, o), s) =>
    match o with
    | .clean => s
    | .corrected =>
      let (p, wb, cl, cn) := getScrub s d u
      let r := uRow s d u a
      let s := setScrub d u (p, (wb.filter fun x => x.1 ≠ a) ++ [(a, v)], cl, if cn.contains r then cn else cn ++ [r]) s
      if cl.contains r then uMark d u a s else s
    | o => reportWord 0 (devAddr d u a) (uBad d u a o s)

/-- May Drizzle use a slot at an address now (R150, R262, R291)? -/
def scrubAllowed (s : State) (d : Stack) (u : Fin 17) (a : Nat) : Bool :=
  match unitCore u with
  | some c => let (j, off) := mapVault s d c a
              !bpOwns s d c j && !hostWaits s d c (offBank off) && !recheckWaits s d c (offBank off)
  | none => match lpPlace s d (a / 64) with
    | some (ch, _, _) => (sget [] (getLp s d).queue ch).isEmpty && !lpRecheckWaits s d ch
    | none => false

/-- Drizzle reads four code words in a scrub slot, with the upsets of their transfer; past the last word a pass ends. `late`: the pass
is behind its period. -/
def drizzleRead (d : Stack) (u : Fin 17) (late : Bool) (e : Upsets) (s : State) : State :=
  let r := uDrizzleReg d u
  if getF s r f_DRIZZLE_CTRL_EN = 0 then s
  else
    let s := putF r f_DRIZZLE_CTRL_LATE (if late then 1 else 0) s
    let (p, wb, _, cn) := getScrub s d u
    match nextScrub s d u p with
    | none => bumpF r f_DRIZZLE_CTRL_PASSES 1 (setScrub d u (0, wb, cn, []) s)
    | some a =>
      let ws := (List.range 4).map fun i => a + 64 * i
      if !(ws.all (scrubAllowed s d u)) then s
      else
        let (ok, s) := takeSlots d u ws s
        if !ok then s
        else
          let s := forAll ws (fun w s => scrubWord d u w e s) s
          let (_, wb, cl, cn) := getScrub s d u
          setScrub d u (a + 256, wb, cl, cn) s

/-- A corrected word is written back whole in a later slot; a write of it meanwhile has taken it off the list. -/
def drizzleWriteback (d : Stack) (u : Fin 17) (e : Upsets) (s : State) : State :=
  let (p, wb, cl, cn) := getScrub s d u
  match wb with
  | [] => s
  | (a, v) :: rest =>
    if !scrubAllowed s d u a then s
    else
      let (ok, s) := takeSlots d u [a] s
      if ok then uStore d u a wOther e v (setScrub d u (p, rest, cl, cn) s) else s

/-! ### Failing rows (R295, R296) -/

/-- The word to write back for one that stood in a row: corrected data, a poison word for one that was uncorrectable. -/
def savedWord (code : Code) (pins : Bool) (w : CodeWord) : CodeWord :=
  let (v, o) := decodeWord code pins w
  match o with | .uncorrectable | .poisoned => poisonWord code v | .mismatch => w | _ => encodeWord code v

/-- Writes a row back, word by word, as the controller writes code words (R289). -/
def rewriteRow (d : Stack) (u : Fin 17) (row : Nat) (s : State) : State :=
  match unitCore u with
  | some c =>
    let j := row / 8192 / 4
    let base := 8192 * (row % 8192) + 2048 * (row / 8192 % 4)
    forAll (List.range 32) (fun i s =>
      let off := base + 64 * i
      storeBankWord d c j off wOther (savedWord (vaultCode s d c (unmapVault s d c j off)) false
        (readWord s (bankInitCode s d c j off) (bankKey d c j off))) s) s
  | none =>
    let ch := row / lpRows
    let r := row % lpRows
    forAll (List.range (rowCap (lpCode s d r))) (fun i s =>
      storeLpWord d ch r i wOther (savedWord (lpCode s d r) true (readWord s (lpInitCode s d r) (lpKey d ch r (64 * i)))) s) s

/-- ECC_FLIPMASK of a unit. -/
def uFlipReg (d : Stack) (u : Fin 17) : Nat := match unitCore u with | some c => r_ECC_FLIPMASK d c | none => r_ECC_FLIPMASK_LP d

/-- An armed mask that matches every write corrupts the first test pattern of a row test, which then does not read back clean (R289,
R295, log entry 94): does the test find the row sound? -/
def testPattern (d : Stack) (u : Fin 17) (sound : Bool) (s : State) : Bool × State :=
  let m := getReg s (uFlipReg d u)
  if flipMatches m wOther 99 then (sound && flipWord m ⟨0, 0⟩ == ⟨0, 0⟩, putF (uFlipReg d u) f_ECC_FLIPMASK_ARM 0 s) else (sound, s)

/-- The bank of a row of a unit. -/
def rowBank (u : Fin 17) (row : Nat) : Nat :=
  match unitCore u with | some _ => row / 8192 | none => row / lpRows * 16 + row % 16

/-- The remaps of a unit's banks. -/
def getRemaps (s : State) (d : Stack) (u : Fin 17) : SMap Nat :=
  match unitCore u with | some c => (getVc s d c).remaps | none => (getLp s d).remaps

/-- Counts a remap in a bank of a unit. -/
def addRemap (d : Stack) (u : Fin 17) (bank : Nat) (s : State) : State :=
  let m := sput 0 (getRemaps s d u) bank (sget 0 (getRemaps s d u) bank + 1)
  match unitCore u with
  | some c => updVc d c (fun v => { v with remaps := m }) s
  | none => updLp d (fun p => { p with remaps := m }) s

/-- The candidate rows of a unit. -/
def getCandidates (s : State) (d : Stack) (u : Fin 17) : List Nat :=
  match unitCore u with | some c => (getVc s d c).candidates | none => (getLp s d).candidates

/-- The state with a unit's candidate rows set. -/
def setCandidates (d : Stack) (u : Fin 17) (l : List Nat) (s : State) : State :=
  match unitCore u with
  | some c => updVc d c (fun v => { v with candidates := l }) s
  | none => updLp d (fun p => { p with candidates := l }) s

/-- Adds an entry to the repair log. -/
def logRepair (d : Stack) (u : Fin 17) (row what : Nat) (s : State) : State :=
  updHub (fun h => { h with repairLog := h.repairLog ++ [(17 * d.val + u.val, row, what)] }) s

/-- Retires a row in the next free RETIRE entry, or raises RETIRE_FULL (R296, log entry 107). `frame`: the row belongs to a page frame whose
first unit has that vault address. -/
def retireRow (d : Stack) (u : Fin 17) (row : Nat) (frame : Option Nat) (s : State) : State :=
  let addr := match unitCore u with
    | some c => unmapVault s d c (row / 8192 / 4) (8192 * (row % 8192) + 2048 * (row / 8192 % 4)) / 2048
    | none => row % lpRows
  let kind := match unitCore u with | some _ => if frame.isSome then 2 else 1 | none => 3
  let addr := match frame with | some a => a / 2048 | none => addr
  let ch := match unitCore u with | some _ => 0 | none => row / lpRows
  match (List.range 64).find? fun n => getF s (uRetireReg d u n) f_RETIRE_VALID = 0 with
  | some n => logRepair d u row (match frame with | none => 2 | some a => 3 + a)
      (putReg s (uRetireReg d u n) (BitVec.ofNat 64 (1 + kind * 2 + ch * 8 + 256 * (addr % 2 ^ 22))))
  | none => postEvent evRetireFull (subj2 (dieNo d) (match unitCore u with | some c => 0x20 + c.val | none => 0x30)) addr s

/-- The first candidate row of a unit is tested in a pause segment, or while the die belongs to no partition (R295): a sound row is
written back, a failing one remapped while its bank has a spare row (32 in a vault; `spare` says so for an LPDDR device), else
retired. -/
def rowTest (d : Stack) (u : Fin 17) (sound spare : Bool) (frame : Option Nat) (s : State) : State :=
  match getCandidates s d u with
  | [] => s
  | row :: rest =>
    if !segmentOpen s d then s
    else
    let (sound, s) := testPattern d u sound (setCandidates d u rest s)
    if sound then rewriteRow d u row s
    else
      let bank := rowBank u row
      let free := match unitCore u with | some _ => decide (sget 0 (getRemaps s d u) bank < 32) | none => spare
      if free then logRepair d u row 1 (addRemap d u bank (rewriteRow d u row s)) else retireRow d u row frame s

end Sys2Proof.Machine
end

