-- ==== Sys2Proof/Machine/PageOps.lean ====
section
/-! DEFINITION. Sessions and their pages in memory (R175 to R198): slot tables, home lists, session roots, frames and decode
state blocks, which the hub and the maintenance tasks read and write in the vaults. -/
namespace Sys2Proof.Machine

/-! ### The hub's tables -/

/-- The state with what the hub holds in service changed. -/
def updSvc (f : Svc → Svc) (s : State) : State := { s with svc := f s.svc }

/-- The graph in a position of the load order. -/
def getGraph (s : State) (k : Nat) : Option Graph := sget none s.svc.graphs k

/-- Sets or clears a position of the load order. -/
def putGraph (k : Nat) (g : Option Graph) (s : State) : State := updSvc (fun v => { v with graphs := sput none v.graphs k g }) s

/-- Changes a loaded graph. -/
def updGraph (k : Nat) (f : Graph → Graph) (s : State) : State :=
  match getGraph s k with | some g => putGraph k (some (f g)) s | none => s

/-- Positions of the load order in use. -/
def graphKeys (s : State) : List Nat := (List.range 16).filter fun k => (getGraph s k).isSome

/-- The position of the graph with a handle. -/
def findGraph (s : State) (handle : Nat) : Option Nat :=
  (graphKeys s).find? fun k => match getGraph s k with | some g => g.handle == handle | none => false

/-- The session in a slot; none where the entry is FREE. -/
def getSess (s : State) (slot : Nat) : Option Sess := sget none s.svc.sess slot

/-- Sets or frees a slot. -/
def putSess (slot : Nat) (x : Option Sess) (s : State) : State := updSvc (fun v => { v with sess := sput none v.sess slot x }) s

/-- Changes a session. -/
def updSess (slot : Nat) (f : Sess → Sess) (s : State) : State :=
  match getSess s slot with | some x => putSess slot (some (f x)) s | none => s

/-- The slots in use, lowest first. -/
def sessSlots (s : State) : List Nat := s.svc.sess.map (·.1)

/-- The slot of the session with an id. -/
def findSess (s : State) (sid : Nat) : Option Nat :=
  (sessSlots s).find? fun n => match getSess s n with | some x => x.sid == sid | none => false

/-- An instance by its entry of the instance store. -/
def getInst (s : State) (i : Nat) : Option Inst := sget none s.svc.insts i

/-- Sets or frees an entry of the instance store. -/
def putInst (i : Nat) (x : Option Inst) (s : State) : State := updSvc (fun v => { v with insts := sput none v.insts i x }) s

/-- Changes an instance. -/
def updInst (i : Nat) (f : Inst → Inst) (s : State) : State :=
  match getInst s i with | some x => putInst i (some (f x)) s | none => s

/-- The instances in the store, by entry. -/
def instIds (s : State) : List Nat := s.svc.insts.map (·.1)

/-- A ring of the ring table (R313). -/
def getRing (s : State) (n : Nat) : Option Ring := sget none s.svc.rings n

/-- Sets a ring. -/
def putRing (n : Nat) (r : Option Ring) (s : State) : State := updSvc (fun v => { v with rings := sput none v.rings n r }) s

/-- The root stack of a partition, by number. -/
def partRoot (s : State) (p : Nat) : Option Stack := match s.parts[p]? with | some x => stackIx x.root | none => none

/-- The partition's launch count: LAUNCHES of its flash root. -/
def partLaunches (s : State) (p : Nat) : Nat :=
  match partRoot s p with | some d => getF s (r_FLASH_STATUS d) f_FLASH_STATUS_LAUNCHES | none => 0

/-- The graph of an instance serves a partition. -/
def instPart (s : State) (x : Inst) : Option Nat := (getGraph s x.graph).map (·.part)


/-! ### Bytes of vaults and devices, as the hub's transit accesses see them -/

/-- The unit of a core's vault. -/
def vaultUnit (c : CoreIx) : Fin 17 := ⟨c.val, by omega⟩

/-- `n` bytes of a unit; zero where the read ends in an error response. -/
def unitPeek (s : State) (d : Stack) (u : Fin 17) (a n : Nat) : Nat := ((hostRead d u a n [] s).1).getD 0

/-- Writes `n` bytes of a unit. -/
def unitWrite (d : Stack) (u : Fin 17) (a n v : Nat) (s : State) : State :=
  forAll (wordsOf a n) (fun w s => hostWriteWord d u w a n v [] s) s

/-- Stack, core and BP number of a package index (R184). -/
def grpPlace (p : Nat) : Option (Stack × CoreIx × Nat) :=
  match stackIx (p / 384) with | some d => some (d, coreIx (p % 384 / 24), p % 24) | none => none

/-- The parts of `n` bytes from a group offset that lie in one 2 KiB unit each. -/
def rowParts (off n : Nat) : List (Nat × Nat) :=
  (List.range ((off + n + 2047) / 2048 - off / 2048)).map fun i =>
    let b := 2048 * (off / 2048 + i)
    (max off b, min (off + n) (b + 2048) - max off b)

/-- `n` bytes of a bank group from a group offset. -/
def grpPeek (s : State) (p off n : Nat) : Nat :=
  match grpPlace p with
  | some (d, c, j) => (rowParts off n).foldr (fun x v => unitPeek s d (vaultUnit c) (unmapVault s d c j x.1) x.2 + 2 ^ (8 * x.2) * v) 0
  | none => 0

/-- Writes `n` bytes of a bank group from a group offset. -/
def grpWrite (p off n v : Nat) (s : State) : State :=
  match grpPlace p with
  | some (d, c, j) => forAll (rowParts off n) (fun x s =>
      unitWrite d (vaultUnit c) (unmapVault s d c j x.1) x.2 (v / 2 ^ (8 * (x.1 - off)) % 2 ^ (8 * x.2)) s) s
  | none => s

/-- The parts of `n` bytes from a device address that lie in one code word each: address and length. -/
def wordParts (a n : Nat) : List (Nat × Nat) :=
  (wordsOf a n).map fun w => (max a w, min (a + n) (w + 64) - max a w)

/-- The key of a byte of BP space that a device address names (R145). -/
def bpTarget (t : Stack × Fin 17 × Nat) : Option Nat := (unitCore t.2.1).bind fun c => bpSpaceKey t.1 c t.2.2

/-- Writes bytes of one code word, or of BP space, at a device address; one that no unit holds takes nothing (R256). -/
def devWritePart (a n v : Nat) (s : State) : State :=
  match devTarget s a with
  | some t => match bpTarget t with
    | some k => writeMem k n v s
    | none => unitWrite t.1 t.2.1 t.2.2 n v s
  | none => s

/-- Writes bytes at a device address (R255). -/
def devWrite (a n v : Nat) (s : State) : State :=
  forAll (wordParts a n) (fun x s => devWritePart x.1 x.2 (v / 2 ^ (8 * (x.1 - a)) % 2 ^ (8 * x.2)) s) s

/-- Reads bytes of one code word, or of BP space, at a device address by transit: none for an error response (R256, R290). -/
def devReadPart (a n : Nat) (s : State) : Option Nat × State :=
  match devTarget s a with
  | some t => match bpTarget t with
    | some k => (some (readMem s k n), s)
    | none => hostRead t.1 t.2.1 t.2.2 n [] s
  | none => (none, s)

/-- Reads bytes at a device address by transit: the data, or none where a part of the read ends in an error response (R290). -/
def devRead (a n : Nat) (s : State) : Option Nat × State :=
  (wordParts a n).foldr (fun x (r : Option Nat × State) =>
    let (v, s) := devReadPart x.1 x.2 r.2
    (match r.1, v with | some hi, some lo => some (lo + 2 ^ (8 * x.2) * hi) | _, _ => none, s)) (some 0, s)

/-- `n` bytes at a device address; zero where the read ends in an error response. -/
def devPeek (s : State) (a n : Nat) : Nat := ((devRead a n s).1).getD 0

/-- Reads bytes of a bank group by transit: the data, or none where a read ends in an error response (R290). -/
def grpRead (p off n : Nat) (s : State) : Option Nat × State :=
  match grpPlace p with
  | some (d, c, j) => (rowParts off n).foldr (fun x (r : Option Nat × State) =>
      let (v, s) := hostRead d (vaultUnit c) (unmapVault s d c j x.1) x.2 [] r.2
      (match r.1, v with | some hi, some lo => some (lo + 2 ^ (8 * x.2) * hi) | _, _ => none, s)) (some 0, s)
  | none => (none, s)


/-! ### Slot tables (R187) -/

def tVault : Nat := 0
def tLpddr : Nat := 1
def tComp : Nat := 2
def tDropped : Nat := 3

/-- Bytes of a page frame. -/
def frameBytes : Nat := 73728

/-- The package index of a NEAR list entry. -/
def nearGrp (g : Graph) (e : Nat) : Nat := g.place.near.getD e 0

/-- A slot-table entry. -/
def slotPeek (s : State) (g : Graph) (e slot : Nat) : Nat := grpPeek s (nearGrp g e) (g.place.slots + 8 * slot) 8

/-- Writes bytes `b` to `b + n - 1` of a slot-table entry. -/
def slotWrite (g : Graph) (e slot b n v : Nat) (s : State) : State := grpWrite (nearGrp g e) (g.place.slots + 8 * slot + b) n v s

def slTier (w : Nat) : Nat := bits w 1 0
def slMoving (w : Nat) : Bool := w.testBit 2
def slUsed (w : Nat) : Bool := w.testBit 3
def slHold (w : Nat) : Bool := w.testBit 4
def slRef (w : Nat) : Nat := bits w 23 8
def slAge (w : Nat) : Nat := bits w 39 24
def slLoc (w : Nat) : Nat := bits w 63 40

/-- Byte 0 of a slot-table entry. -/
def slByte0 (tier : Nat) (moving used hold : Bool) : Nat :=
  tier + (if moving then 4 else 0) + (if used then 8 else 0) + (if hold then 16 else 0)

/-- A page ID (R184). -/
def pageId (g : Graph) (e slot : Nat) : Nat := 2 ^ 18 * nearGrp g e + slot

def noPage : Nat := 0xFFFFFFFF

/-- NEAR list entry and slot of a page ID. -/
def pagePlace (g : Graph) (id : Nat) : Nat × Nat := (g.place.near.idxOf (id / 2 ^ 18), id % 2 ^ 18)

/-- The NEAR list entry in which a page is homed (R185). -/
def homeEntry (g : Graph) (l h idx : Nat) : Nat := (idx + g.place.hoff.getD (16 * l + h) 0) % g.place.near.length

/-- What the hub has allocated in a NEAR group. -/
def getNear (g : Graph) (e : Nat) : NearGroup := sget NearGroup.none g.near e

/-- Changes what is allocated in a NEAR group. -/
def updNear (k e : Nat) (f : NearGroup → NearGroup) (s : State) : State :=
  updGraph k (fun g => { g with near := sput NearGroup.none g.near e (f (getNear g e)) }) s

/-- One of the numbers below `n` that are not in use: the spec does not say which (log entry 3). -/
def pickFree (used : List Nat) (n : Nat) (s : State) : Option Nat × State :=
  let l := (List.range n).filter fun x => !used.contains x
  if l.isEmpty then (none, s) else
    let (i, s) := takeFreeNat l.length s
    (l[i]?, s)

/-! ### Frames -/

/-- Group offset of a frame of the pool. -/
def frameOff (g : Graph) (f : Nat) : Nat := g.place.frames + frameBytes * f

/-- Device address of an LPDDR frame of the stack of a NEAR entry. -/
def lpFrameAddr (g : Graph) (e f : Nat) : Nat := 0x10000000000 + 2 ^ 36 * (nearGrp g e / 384) + g.place.lpFrames + frameBytes * f

/-- Does a frame lie in a retired area: a vault frame that RETIRE names, or an LPDDR frame with a retired sector (R296)? -/
def frameRetired (s : State) (g : Graph) (e tier frame : Nat) : Bool :=
  match grpPlace (nearGrp g e) with
  | none => false
  | some (d, c, j) =>
    if tier = tVault then (List.range 64).any fun n =>
      let r := getReg s (uRetireReg d (vaultUnit c) n)
      fieldOf f_RETIRE_VALID r == 1 && fieldOf f_RETIRE_KIND r == 2 &&
        mapVault s d c (2048 * fieldOf f_RETIRE_ADDR r) == (j, frameOff g frame)
    else if tier = tLpddr then
      let rows := (List.range 64).filterMap fun n =>
        let r := getReg s (uRetireReg d 16 n)
        if fieldOf f_RETIRE_VALID r = 1 ∧ fieldOf f_RETIRE_KIND r = 3 then some (fieldOf f_RETIRE_CH r, fieldOf f_RETIRE_ADDR r) else none
      !rows.isEmpty && (List.range (frameBytes / 64)).any fun i =>
        match lpPlace s d (lpFrameAddr g e frame % 2 ^ 36 / 64 + i) with
        | some (ch, row, _) => rows.contains (ch, row)
        | none => false
    else false

/-- The vault frames of a NEAR entry that are not free: in use, or retired (R296). -/
def usedVault (s : State) (g : Graph) (e : Nat) : List Nat :=
  let used := (getNear g e).frames
  match grpPlace (nearGrp g e) with
  | none => used
  | some (d, c, j) => used ++ ((List.range 64).filterMap fun n =>
      let r := getReg s (uRetireReg d (vaultUnit c) n)
      let (i, off) := mapVault s d c (2048 * fieldOf f_RETIRE_ADDR r)
      if fieldOf f_RETIRE_VALID r = 1 ∧ fieldOf f_RETIRE_KIND r = 2 ∧ i = j ∧ g.place.frames ≤ off ∧ off < frameOff g g.place.nframes
      then some ((off - g.place.frames) / frameBytes) else none).eraseDups.filter (!used.contains ·)

/-- The LPDDR frames of a stack that are not free. -/
def usedLp (s : State) (g : Graph) (d : Nat) : List Nat :=
  let used := sget [] g.lpUsed d
  match stackIx d, (List.range g.place.near.length).find? fun e => nearGrp g e / 384 == d with
  | some d, some e =>
    if (List.range 64).any fun n => getF s (uRetireReg d 16 n) f_RETIRE_VALID == 1
    then used ++ (List.range g.place.nlp).filter fun f => !used.contains f && frameRetired s g e tLpddr f else used
  | _, _ => used

/-- `n` bytes from byte `off` of the frame of a page in the vault or the LPDDR tier. -/
def framePeek (s : State) (g : Graph) (e slot off n : Nat) : Nat :=
  let w := slotPeek s g e slot
  if slTier w = tVault then grpPeek s (nearGrp g e) (frameOff g (slLoc w) + off) n
  else if slTier w = tLpddr then devPeek s (lpFrameAddr g e (slLoc w) + off) n
  else 0

/-- Writes bytes of the frame of a page in the vault or the LPDDR tier. -/
def frameWrite (g : Graph) (e slot off n v : Nat) (s : State) : State :=
  let w := slotPeek s g e slot
  if slTier w = tVault then grpWrite (nearGrp g e) (frameOff g (slLoc w) + off) n v s
  else if slTier w = tLpddr then devWrite (lpFrameAddr g e (slLoc w) + off) n v s
  else s

def oOffsets : Nat := 0x11000
def oSummary : Nat := 0x11400
def oState : Nat := 0x11C00
def oRef : Nat := 0x11C08
def oTent : Nat := 0x11C10
def oId : Nat := 0x11C20
def oBase : Nat := 0x11C24
def oSid : Nat := 0x11C28

/-- Fields of a page's state word (R181). -/
def pgState (w : Nat) : Nat := bits w 2 0
def pgValid (w : Nat) : Nat := bits w 11 4
def pgPins (w : Nat) : Nat := bits w 15 12

/-- The state word of a page. -/
def pageState (s : State) (g : Graph) (e slot : Nat) : Nat := framePeek s g e slot oState 8

/-- Is a position of a page readable: below VALID, with its tentative bit clear (R181)? -/
def pageReadable (s : State) (g : Graph) (e slot p : Nat) : Bool :=
  decide (p < pgValid (pageState s g e slot)) && !(framePeek s g e slot oTent 16).testBit p

/-- Sets PINS of a page. -/
def setPins (g : Graph) (e slot n : Nat) (s : State) : State :=
  let w := pageState s g e slot
  frameWrite g e slot oState 8 (w - 4096 * pgPins w + 4096 * (n % 16)) s

/-- Changes the reference count of a page, in the slot entry and, in the vault, in the frame (R189). -/
def setRef (g : Graph) (e slot n : Nat) (s : State) : State :=
  let s := if slTier (slotPeek s g e slot) = tVault then frameWrite g e slot oRef 2 n s else s
  slotWrite g e slot 1 2 n s

/-! ### Home lists (R186, R188) -/

/-- The homes of a session's list for a NEAR entry: group, directory and block offsets; the partner holds a copy with RIDX = 2. -/
def homeCopies (g : Graph) (e : Nat) : List (Nat × Nat × Nat) :=
  (nearGrp g e, g.place.dir, g.place.blocks) ::
    (if g.ridx = 2 then [(nearGrp g (g.place.partner.getD e e), g.place.dir2, g.place.blocks2)] else [])

/-- The block numbers and entries of a home list, from a block's offset ÷ 256. -/
def homeWalk (s : State) (g : Graph) (e : Nat) : Nat → Nat → List Nat × List Nat
  | 0, _ => ([], [])
  | n + 1, x =>
    if x = 0 then ([], [])
    else
      let off := 256 * x
      let cnt := grpPeek s (nearGrp g e) (off + 252) 4
      let es := (List.range (min cnt 31)).map fun i => grpPeek s (nearGrp g e) (off + 8 * i) 8
      let (bs, rest) := homeWalk s g e n (grpPeek s (nearGrp g e) (off + 248) 4)
      ((off - g.place.blocks) / 256 :: bs, es ++ rest)

/-- Blocks and entries of a session's home list in a NEAR entry. -/
def homeList (s : State) (g : Graph) (e slot : Nat) : List Nat × List Nat :=
  homeWalk s g e g.place.nblocks (grpPeek s (nearGrp g e) (g.place.dir + 4 * slot) 4)

/-- Page ID, index, layer and head group of a home entry. -/
def heId (w : Nat) : Nat := bits w 31 0
def heIdx (w : Nat) : Nat := bits w 50 32
def heLayer (w : Nat) : Nat := bits w 57 51
def heGroup (w : Nat) : Nat := bits w 61 58

/-- A home entry. -/
def homeWord (id idx l h : Nat) : Nat := id + 2 ^ 32 * (idx % 2 ^ 19) + 2 ^ 51 * (l % 128) + 2 ^ 58 * (h % 16)

/-- The order of home entries: layer, head group, page index. -/
def homeOrder (w : Nat) : Nat := 2 ^ 23 * heLayer w + 2 ^ 19 * heGroup w + heIdx w

/-- An entry in its place in a home list. -/
def homeInsert (w : Nat) : List Nat → List Nat
  | [] => [w]
  | x :: l => if homeOrder w < homeOrder x then w :: x :: l else x :: homeInsert w l

/-- Writes the blocks of a home list, 31 entries each, into one of its homes. -/
def writeBlocks (p blocks : Nat) : List Nat → List Nat → State → State
  | [], _, s => s
  | b :: bs, es, s =>
    let here := es.take 31
    let off := blocks + 256 * b
    let next := match bs with | b' :: _ => (blocks + 256 * b') / 256 | [] => 0
    let s := grpWrite p off 248 (here.foldr (fun w v => w + 2 ^ 64 * v) 0) s
    writeBlocks p blocks bs (es.drop 31) (grpWrite p (off + 252) 4 here.length (grpWrite p (off + 248) 4 next s))

/-- Takes or returns blocks until a list of `n` entries has its blocks; none when the group has too few. -/
def fitBlocks (k e : Nat) (g : Graph) (have_ : List Nat) (n : Nat) (s : State) : Option (List Nat × State) :=
  let want := (n + 30) / 31
  if want ≤ have_.length then
    let drop := have_.drop want
    some (have_.take want, updNear k e (fun x => { x with blocks := x.blocks.filter fun b => !drop.contains b }) s)
  else
    (List.range (want - have_.length)).foldl (fun r _ =>
      match r with
      | none => none
      | some (bs, s) =>
        let used := match getGraph s k with | some g => (getNear g e).blocks | none => []
        match pickFree used g.place.nblocks s with
        | (some b, s) => some (bs ++ [b], updNear k e (fun x => { x with blocks := x.blocks ++ [b] }) s)
        | (none, _) => none) (some (have_, s))

/-- Replaces a session's home list in a NEAR entry, in all its copies; unchanged where no block is free. -/
def setHome (k e slot : Nat) (g : Graph) (es : List Nat) (s : State) : State :=
  match fitBlocks k e g (homeList s g e slot).1 es.length s with
  | none => s
  | some (bs, s) =>
    forAll (homeCopies g e) (fun x s =>
      let first := match bs with | b :: _ => (x.2.2 + 256 * b) / 256 | [] => 0
      writeBlocks x.1 x.2.2 bs es (grpWrite x.1 (x.2.1 + 4 * slot) 4 first s)) s

/-- The pages of a session: NEAR entry and home entry (its page table, R186). -/
def sessPages (s : State) (g : Graph) (slot : Nat) : List (Nat × Nat) :=
  (List.range g.place.near.length).flatMap fun e => (homeList s g e slot).2.map fun w => (e, w)

/-- The number of pages of a session in each tier (R175). -/
def countFrames (s : State) (g : Graph) (slot : Nat) : Nat × Nat × Nat :=
  (sessPages s g slot).foldl (fun r x =>
    let t := slTier (slotPeek s g x.1 (heId x.2 % 2 ^ 18))
    if t = tVault then (r.1 + 1, r.2.1, r.2.2) else if t = tLpddr then (r.1, r.2.1 + 1, r.2.2)
    else if t = tComp then (r.1, r.2.1, r.2.2 + 1) else r) (0, 0, 0)

/-! ### Session roots -/

/-- The group and group offset of a session's root block (R186). -/
def rootPlace (g : Graph) (slot : Nat) : Nat × Nat :=
  (nearGrp g (slot % g.place.near.length), g.place.root + 16384 * (slot / g.place.near.length))

/-- The device address of a session's root block. -/
def rootAddr (s : State) (g : Graph) (slot : Nat) : Nat :=
  match grpPlace (rootPlace g slot).1 with
  | some (d, c, j) => 2 ^ 31 * coreNo d c + unmapVault s d c j (rootPlace g slot).2
  | none => 0

/-- The root entry of a layer and head group: tail page and next page. -/
def rootPeek (s : State) (g : Graph) (slot l h : Nat) : Nat × Nat :=
  let (p, off) := rootPlace g slot
  let w := grpPeek s p (off + 8 * (max 4 g.hgroups * l + h)) 8
  (bits w 31 0, bits w 63 32)

/-- Writes a root entry. -/
def rootWrite (g : Graph) (slot l h tail next : Nat) (s : State) : State :=
  let (p, off) := rootPlace g slot
  grpWrite p (off + 8 * (max 4 g.hgroups * l + h)) 8 (tail + 2 ^ 32 * next) s

/-- The layer and head group pairs of a graph. -/
def layerPairs (g : Graph) : List (Nat × Nat) :=
  (List.range g.layers).flatMap fun l => (List.range g.hgroups).map fun h => (l, h)

/-- A root block that names no page. -/
def clearRoot (g : Graph) (slot : Nat) (s : State) : State :=
  forAll (layerPairs g) (fun x s => rootWrite g slot x.1 x.2 noPage noPage s) s

/-! ### Tentative frames (R210, R211) -/

/-- Group offset of a tentative frame. -/
def tentOff (g : Graph) (t : Nat) : Nat := g.place.tent + 10240 * t

/-- The tentative frames of a session in a NEAR entry, from an offset ÷ 256. -/
def tentWalk (s : State) (g : Graph) (e : Nat) : Nat → Nat → List Nat
  | 0, _ => []
  | n + 1, x =>
    if x = 0 then [] else (256 * x - g.place.tent) / 10240 :: tentWalk s g e n (grpPeek s (nearGrp g e) (256 * x + 0x2210) 4)

/-- The tentative frames of a session in a NEAR entry. -/
def tentList (s : State) (g : Graph) (e slot : Nat) : List Nat :=
  tentWalk s g e g.place.ntent (grpPeek s (nearGrp g e) (g.place.tentDir + 4 * slot) 4)

/-- Chains a session's tentative frames in a NEAR entry. -/
def chainTents (g : Graph) (e slot : Nat) (l : List Nat) (s : State) : State :=
  let link := fun (t : Option Nat) => match t with | some t => tentOff g t / 256 | none => 0
  let s := grpWrite (nearGrp g e) (g.place.tentDir + 4 * slot) 4 (link l.head?) s
  forAll (l.zip ((l.drop 1).map some ++ [none])) (fun x s => grpWrite (nearGrp g e) (tentOff g x.1 + 0x2210) 4 (link x.2) s) s

/-- The tentative frame of a session that serves a page. -/
def tentServes (s : State) (g : Graph) (e slot id : Nat) : Option Nat :=
  (tentList s g e slot).find? fun t => grpPeek s (nearGrp g e) (tentOff g t + 0x2208) 4 == id

/-- Places a tentative frame for a page of a session. -/
def placeTent (k e slot : Nat) (g : Graph) (sid id l h : Nat) (next : Bool) (t : Nat) (s : State) : State :=
  let p := nearGrp g e
  let o := tentOff g t
  let s := updNear k e (fun x => { x with tents := x.tents ++ [t] }) s
  let s := grpWrite p (o + 0x2200) 8 sid (grpWrite p (o + 0x2208) 4 id (grpWrite p (o + 0x220C) 2 (l + 256 * h) s))
  let s := grpWrite p (o + 0x220E) 2 (if next then 1 else 0) s
  chainTents g e slot (t :: tentList s g e slot) s

/-- Reclaims the tentative frames of a session whose page is neither a tail nor a next page any more (R211). -/
def reclaimTents (k slot : Nat) (s : State) : State :=
  match getGraph s k with
  | none => s
  | some g =>
    forAll (List.range g.place.near.length) (fun e s =>
      let l := tentList s g e slot
      let use_ := fun (t : Nat) =>
        let p := nearGrp g e
        let id := grpPeek s p (tentOff g t + 0x2208) 4
        let lh := grpPeek s p (tentOff g t + 0x220C) 2
        let (tail, next) := rootPeek s g slot (bits lh 6 0) (bits lh 11 8)
        id == tail || id == next
      let gone := l.filter fun t => !use_ t
      if gone.isEmpty then s
      else chainTents g e slot (l.filter use_) (updNear k e (fun x => { x with tents := x.tents.filter fun t => !gone.contains t }) s)) s

/-! ### Allocation (R194) -/

/-- Prepares an allocated frame as an empty FILLING page, its summary region zero (R181, R183, R194). -/
def initFrame (g : Graph) (e slot sid id l h idx ref valid : Nat) (s : State) : State :=
  let s := frameWrite g e slot oState 8 (1 + valid * 16 + 2 ^ 16 * l + 2 ^ 24 * h) (frameWrite g e slot oSummary 2048 0 s)
  let s := frameWrite g e slot oRef 2 ref (frameWrite g e slot oTent 16 0 s)
  frameWrite g e slot oId 4 id (frameWrite g e slot oBase 4 (128 * idx) (frameWrite g e slot oSid 8 sid s))

/-- Allocates page `idx` of a layer and head group for the session `sid` of a slot: slot, frame, tentative frame, home entry and root entry; none
where its home group is exhausted. -/
def allocFor (k slot sid l h idx : Nat) (s : State) : Option State :=
  match getGraph s k with
  | some g =>
    let e := homeEntry g l h idx
    let n := getNear g e
    match pickFree n.slots g.nslots s with
    | (none, _) => none
    | (some sl, s) =>
      match pickFree (usedVault s g e) g.place.nframes s with
      | (none, _) => none
      | (some f, s) =>
        match pickFree n.tents g.place.ntent s with
        | (none, _) => none
        | (some t, s) =>
          let es := (homeList s g e slot).2
          match fitBlocks k e g (homeList s g e slot).1 (es.length + 1) s with
          | none => none
          | some _ =>
            let id := pageId g e sl
            let s := updNear k e (fun x => { x with slots := x.slots ++ [sl], frames := x.frames ++ [f] }) s
            let (age, s) := takeFreeNat 65536 s
            let s := slotWrite g e sl 0 8 (slByte0 tVault false true false + 1 * 2 ^ 8 + 2 ^ 24 * age + 2 ^ 40 * f) s
            let s := initFrame g e sl sid id l h idx 1 0 s
            let s := setHome k e slot g (homeInsert (homeWord id idx l h) es) s
            let s := placeTent k e slot g sid id l h true t s
            some (rootWrite g slot l h (rootPeek s g slot l h).1 id s)
  | none => none

/-- Allocates a page for the session in a slot. -/
def allocPage (k slot l h idx : Nat) (s : State) : Option State :=
  match getSess s slot with
  | some x => allocFor k slot x.sid l h idx s
  | none => none

/-- The launches of a session that are outstanding. -/
def sessOut (s : State) (slot : Nat) : Nat :=
  (instIds s).foldl (fun n i => match getInst s i with | some x => if x.slot = some slot then n + x.out else n | none => n) 0

/-- Does a task of a session run: a step that has started and not ended? -/
def sessRuns (s : State) (slot : Nat) : Bool :=
  s.svc.launches.any fun l => l.started && !l.ended && match getInst s l.inst with | some x => x.slot == some slot | none => false

/-- The page that a layer and head group of a session needs before its next launch: the next page once the largest tree may fill
the tail, the first page where there is none (R194, R222). -/
def pageNeeded (s : State) (g : Graph) (slot l h : Nat) : Option Nat :=
  match getSess s slot with
  | none => none
  | some x =>
    let (tail, next) := rootPeek s g slot l h
    if next ≠ noPage then none
    else if tail = noPage then some (x.cpos / 128)
    else
      let base := let (e, sl) := pagePlace g tail; framePeek s g e sl oBase 4
      if x.cpos + g.treeMax * sessOut s slot + g.treeMax > base + 128 then some (base / 128 + 1) else none

/-- The tail page of a layer and head group that has no tentative frame (R186). -/
def tentNeeded (s : State) (g : Graph) (slot l h : Nat) : Option Nat :=
  let (tail, _) := rootPeek s g slot l h
  if tail = noPage then none
  else if (tentServes s g (pagePlace g tail).1 slot tail).isSome then none else some tail

/-- Places a tentative frame for the tail page of a layer and head group; none where its group has none left. -/
def giveTent (k slot sid l h tail : Nat) (s : State) : Option State :=
  match getGraph s k with
  | none => none
  | some g =>
    let (e, _) := pagePlace g tail
    match pickFree (getNear g e).tents g.place.ntent s with
    | (some t, s) => some (placeTent k e slot g sid tail l h false t s)
    | (none, _) => none

/-! ### Freeing pages (R193) -/

/-- Takes a frame of a tier off the list of frames in use. -/
def returnFrame (k e tier frame : Nat) (s : State) : State :=
  match getGraph s k with
  | none => s
  | some g =>
    if tier = tVault then updNear k e (fun x => { x with frames := x.frames.filter (· ≠ frame) }) s
    else if tier = tLpddr then
      let d := nearGrp g e / 384
      updGraph k (fun g => { g with lpUsed := sput [] g.lpUsed d ((sget [] g.lpUsed d).filter (· ≠ frame)) }) s
    else if tier = tComp then updSvc (fun v => { v with compUsed := v.compUsed.filter (· ≠ frame) }) s
    else s

/-- Ends the moves of a page that is freed while it moves; the frames they were to fill are free again (log entry 5). -/
def endMoves (k e slot : Nat) (s : State) : State :=
  let mine := fun (m : Move) => m.graph == k && m.entry == e && m.slot == slot
  let l := s.svc.moves.filter mine
  forAll l (fun m s => returnFrame k e m.dstTier m.dst s) (updSvc (fun v => { v with moves := v.moves.filter fun m => !mine m }) s)

/-- Returns a slot and the frame of its page. -/
def freeSlot (k e slot : Nat) (s : State) : State :=
  match getGraph s k with
  | none => s
  | some g =>
    let w := slotPeek s g e slot
    let s := slotWrite g e slot 0 1 0 s
    let s := updNear k e (fun x => { x with slots := x.slots.filter (· ≠ slot) }) s
    returnFrame k e (slTier w) (slLoc w) (endMoves k e slot s)

/-- A session leaves a page: the count falls, PINS too if the session was PINNED, and a page that none names is freed. -/
def dropRef (k e : Nat) (g : Graph) (wasPinned : Bool) (id : Nat) (s : State) : State :=
  let slot := id % 2 ^ 18
  let n := slRef (slotPeek s g e slot) - 1
  let s := if wasPinned then setPins g e slot (pgPins (pageState s g e slot) - 1) s else s
  let s := setRef g e slot n s
  if n = 0 then freeSlot k e slot s else s

/-- Releases the pages of a session from a position base on (R193). -/
def releaseFrom (k slot base : Nat) (wasPinned : Bool) (s : State) : State :=
  match getGraph s k with
  | none => s
  | some g =>
    forAll (List.range g.place.near.length) (fun e s =>
      let es := (homeList s g e slot).2
      let gone := es.filter fun w => base ≤ 128 * heIdx w
      if gone.isEmpty then s
      else
        let s := forAll gone (fun w s => dropRef k e g wasPinned (heId w) s) s
        setHome k e slot g (es.filter fun w => !(base ≤ 128 * heIdx w)) s) s

/-- After pages have been released, each root names the last page left as its tail, and no next page. -/
def fixRoots (k slot : Nat) (s : State) : State :=
  match getGraph s k with
  | none => s
  | some g =>
    let ps := sessPages s g slot
    forAll (layerPairs g) (fun x s =>
      let mine := ps.filter fun p => heLayer p.2 == x.1 && heGroup p.2 == x.2
      let tail := mine.foldl (fun (b : Option Nat) p => match b with
        | some w => if heIdx w < heIdx p.2 then some p.2 else b
        | none => some p.2) none
      rootWrite g slot x.1 x.2 (match tail with | some w => heId w | none => noPage) noPage s) s

/-! ### Decode state blocks (R205) -/

/-- The cores of a partition. -/
def partCores (s : State) (p : Nat) : List (Stack × CoreIx) :=
  match s.parts[p]? with
  | some x => (members s x).flatMap fun d => allCores.map fun c => (d, c)
  | none => []

/-- Writes a DSB into every core's copy. -/
def writeDsb (g : Graph) (slot dsb : Nat) (s : State) : State :=
  forAll (partCores s g.part) (fun x s => unitWrite x.1 (vaultUnit x.2) (g.place.dsb + 256 * slot) 256 dsb s) s

/-- The DSB of a session, from the root core's copy. -/
def readDsb (s : State) (g : Graph) (slot : Nat) : Nat :=
  match s.parts[g.part]? with
  | some p => match stackIx p.root with
    | some d => unitPeek s d (vaultUnit (coreIx p.rootCore)) (g.place.dsb + 256 * slot) 256
    | none => 0
  | none => 0

/-- The hub writes the DSB of a slot whose session is `x`: a tree of the root alone, whose token the spec leaves open (R205, R226,
log entry 24). -/
def rootDsb (g : Graph) (slot : Nat) (x : Sess) (s : State) : State :=
  let (tok, s) := takeFreeNat (2 ^ 18) s
  writeDsb g slot (x.sid % 2 ^ 64 + 2 ^ 64 * (x.cpos % 2 ^ 32) + 2 ^ 128 * (x.sampler % 2 ^ 128) + 2 ^ 512 * (1 + 2 ^ 128 * tok + 1 * 2 ^ 640)) s

/-- The same for the session in a slot. -/
def hubDsb (g : Graph) (slot : Nat) (s : State) : State :=
  match getSess s slot with
  | none => s
  | some x => rootDsb g slot x s

/-- The hub rewrites only the sampler settings of a DSB (R205). -/
def dsbSampler (g : Graph) (slot : Nat) (s : State) : State :=
  match getSess s slot with
  | none => s
  | some x =>
    let v := readDsb s g slot
    writeDsb g slot (v - 2 ^ 128 * bits v 255 128 - 2 ^ 96 * bits v 127 96 + 2 ^ 128 * (x.sampler % 2 ^ 128)) s

/-! ### Points at which no task of a session runs (R205, R211, R248) -/

/-- The sampler settings reach the DSB while no task of the session runs (R205). -/
def syncSampler (slot : Nat) (s : State) : State :=
  match getSess s slot with
  | none => s
  | some x => match getGraph s x.graph with
    | none => s
    | some g => if sessRuns s slot = false ∧ bits (readDsb s g slot) 255 128 ≠ x.sampler % 2 ^ 128 then dsbSampler g slot s else s

/-- What the hub does for a session at a point at which no task of it runs: the DSB takes new sampler settings, and tentative
frames that serve neither a tail nor a next page are reclaimed. -/
def idlePoint (slot : Nat) (s : State) : State :=
  match getSess s slot with
  | none => s
  | some x => if sessRuns s slot then s else syncSampler slot (reclaimTents x.graph slot s)

/-- A partition halts: its outstanding launches are forgotten, so that each interrupted instance is ready again (R248); their
places in the commit rings are free again. -/
def forgetLaunches (p : Nat) (s : State) : State :=
  let gone := s.svc.launches.filter fun l => l.part == p
  let s := forAll (instIds s) (fun i s => updInst i (fun x => if instPart s x = some p then { x with out := 0 } else x) s) s
  let s := forAll gone.reverse (fun l s => updGraph l.graph (fun g => { g with nextCommit := l.record }) s) s
  let s := updSvc (fun v => { v with launches := v.launches.filter fun l => l.part ≠ p }) s
  forAll (sessSlots s) (fun n s => match getSess s n with
    | some x => if x.part = p then idlePoint n s else s
    | none => s) s

end Sys2Proof.Machine
end

