-- ==== Sys2Proof/Machine/KvCommit.lean ====
section
/-! DEFINITION. What a step of a session does to its pages, roots and decode state beside its own words' stores: the check of its
candidate tree (R206 to R208), the stage and publish phases of its commit (R182, R183, R194, R211, R212, R217, R220), and the draft
ring (R226, R227). A graph's BP and step programs do this work; the model applies its result with the start and the end of the step,
so that it stands whatever the programs' words are, and stands once where they have done it (log entry 89). -/
namespace Sys2Proof.Machine

/-! ### The candidate tree (R206, R207) -/

/-- The tree descriptor of a DSB. -/
def dsbTree (dsb : Nat) : Nat := bits dsb 1535 512

/-- Node `n` of a tree descriptor. -/
def treeNode (t n : Nat) : CandNode :=
  ⟨bits t (128 + 32 * n + 17) (128 + 32 * n), bits t (128 + 32 * n + 21) (128 + 32 * n + 18), bits t (128 + 32 * n + 25) (128 + 32 * n + 22)⟩

/-- The nodes of a tree descriptor. -/
def treeNodes (t : Nat) : List CandNode := (List.range (bits t 7 0)).map (treeNode t)

/-- The ancestor masks that the parent links give. -/
def ancMasks (l : List CandNode) : List Nat :=
  l.foldl (fun m x => m ++ [if m.isEmpty then 1 else m.getD x.parent 0 ||| 2 ^ m.length]) []

/-- Does node `n` have its parent before it, and its parent's depth plus one? The root has depth 0. -/
def linkOk (l : List CandNode) (n : Nat) (x : CandNode) : Bool :=
  n == 0 || (decide (x.parent < n) && x.depth == (if x.parent = 0 then 0 else (l.getD x.parent ⟨0, 0, 0⟩).depth) + 1)

/-- Do no two children of one node of a list carry the same token? -/
def siblingsDiffer : List CandNode → Bool
  | [] => true
  | x :: l => l.all (fun y => x.parent ≠ y.parent || x.token ≠ y.token) && siblingsDiffer l

/-- Is a tree descriptor valid for `limit` nodes and a vocabulary (R207)? -/
def treeValid (limit vocab t : Nat) : Bool :=
  let l := treeNodes t
  decide (1 ≤ l.length) && decide (l.length ≤ min limit 16) && l.zipIdx.all (fun p => linkOk l p.2 p.1) &&
    (ancMasks l).zipIdx.all (fun p => p.1 == bits t (640 + 16 * p.2 + 15) (640 + 16 * p.2)) && siblingsDiffer (l.drop 1) &&
    l.all fun x => decide (x.token < vocab)

/-- The tree that a step verifies: an invalid one is verified as its root alone. -/
def stepTree (limit vocab t : Nat) : List CandNode :=
  if treeValid limit vocab t then treeNodes t else [⟨(treeNode t 0).token, 0, 0⟩]

/-! ### The launch of a running step -/

/-- The partition whose flash root is a core. -/
def rootPart (s : State) (d : Stack) (c : CoreIx) : Option Nat :=
  s.parts.findIdx? fun p => p.root == d.val && p.rootCore == c.val

/-- The session and the kind of a launch. -/
def launchOf (s : State) (l : Launch) : Option (Nat × Nat) :=
  match getInst s l.inst, getGraph s l.graph with
  | some x, some g => match x.slot, g.tasks[x.task]? with
    | some n, some t => some (n, t.kind)
    | _, _ => none
  | _, _ => none

/-- The state with a launch replaced. -/
def putLaunch (l l' : Launch) (s : State) : State :=
  updSvc (fun v => { v with launches := v.launches.map fun x => if x = l then l' else x }) s

/-- The next launch of a partition starts its step: the verify kernel checks the DSB's tree for `engines` logical engines. -/
def beginLaunch (p engines : Nat) (s : State) : State :=
  match s.svc.launches.find? fun l => l.part == p && !l.started with
  | none => s
  | some l =>
    let l' := { l with started := true, stamp := partLaunches s p % 65536 }
    match getGraph s l.graph, launchOf s l with
    | some g, some (slot, kind) =>
      if kind = 2 then
        let t := dsbTree (readDsb s g slot)
        putLaunch l { l' with tree := stepTree (4 * engines) g.place.vocab t, treeBad := !treeValid (4 * engines) g.place.vocab t } s
      else putLaunch l l' s
    | _, _ => putLaunch l l' s

/-- The place of record `n` of a graph's commit ring: unit of the root core's vault, and byte. -/
def recordPlace (s : State) (g : Graph) (n : Nat) : Option (Stack × Fin 17 × Nat) :=
  match s.parts[g.part]? with
  | some p => (stackIx p.root).map fun d => (d, vaultUnit (coreIx p.rootCore), g.place.commit + 128 * n)
  | none => none

/-- Record `n` of a graph's commit ring, 128 B (R221). -/
def commitRecord (s : State) (g : Graph) (n : Nat) : Nat :=
  match recordPlace s g n with | some (d, u, a) => unitPeek s d u a 128 | none => 0

/-! ### Pages of a commit (R217, R220) -/

/-- A session's page of a layer and head group at an index: NEAR entry and slot. -/
def sessPage (s : State) (g : Graph) (slot l h idx : Nat) : Option (Nat × Nat) :=
  let e := homeEntry g l h idx
  ((homeList s g e slot).2.find? fun w => heIdx w == idx && heLayer w == l && heGroup w == h).map fun w => (e, heId w % 2 ^ 18)

/-- Bytes of one position's codes and of its scales for one head. -/
def codeBytes (hpp : Nat) : Nat := 0x10000 / hpp / 256
def scaleBytes (hpp : Nat) : Nat := 0x1000 / hpp / 256

/-- Bytes from a tentative frame to a page frame. -/
def fromTent (g : Graph) (e sl t src dst n : Nat) (s : State) : State :=
  frameWrite g e sl dst n (grpPeek s (nearGrp g e) (tentOff g t + src) n) s

/-- The stage phase of one accepted node: its codes and scales go from slot `n` of tentative frame `t` to position `p` of the page,
and a page-start node's staged offsets become the page's key offsets (R210, R212, R217). -/
def stageNode (g : Graph) (e sl t n p : Nat) (s : State) : State :=
  let k := g.hpp
  let cb := codeBytes k
  let sb := scaleBytes k
  forAll (List.range k) (fun h s =>
    let s := fromTent g e sl t (0x1000 / k * h + cb * n) (0x10000 / k * h + cb * p) cb s
    let s := fromTent g e sl t (0x1000 + 0x1000 / k * h + cb * n) (0x10000 / k * h + 0x8000 / k + cb * p) cb s
    let s := fromTent g e sl t (0x2000 + 0x100 / k * h + sb * n) (0x10000 + 0x1000 / k * h + sb * p) sb s
    let s := fromTent g e sl t (0x2100 + 0x100 / k * h + sb * n) (0x10000 + 0x1000 / k * h + 0x800 / k + sb * p) sb s
    if p = 0 then
      frameWrite g e sl (oOffsets + 0x400 / k * h) (4 * cb) (framePeek s g e sl (0x10000 / k * h + cb * (64 + 4 * n)) (4 * cb)) s
    else s) s

/-- The decoded key of channel `c` of head `h` at position `p` of a frame image (R38, R182). -/
def keyVal (img k h p c : Nat) : Val :=
  let at_ := fun (b n : Nat) => img / 2 ^ (8 * b) % 2 ^ n
  let code := at_ (0x10000 / k * h + codeBytes k * p + c / 2) 8 / 2 ^ (4 * (c % 2)) % 16
  addVal (decodeFmt .bf16 (at_ (oOffsets + 0x400 / k * h + 2 * c) 16))
    (k4Value (BitVec.ofNat 8 (at_ (0x10000 + 0x1000 / k * h + scaleBytes k * p + c / 32) 8)) code)

/-- The coarse summary of a frame image: for each head the minima and the maxima of its channels over 128 positions, in BF16
(R180, R183). An index entry has the same bytes (R186). -/
def pageSummary (img k : Nat) : Nat :=
  let extreme := fun (f : Val → Val → Val) (h c : Nat) =>
    encodeFmt .bf16 ((List.range 127).foldl (fun v p => f v (keyVal img k h (p + 1) c)) (keyVal img k h 0 c))
  packCodes 16 ((List.range k).flatMap fun h =>
    (List.range (512 / k)).map (extreme minVal h) ++ (List.range (512 / k)).map (extreme maxVal h))

/-- Writes bytes of a page's coarse summary to the side data and to every copy of its index entry (R183, R188). -/
def writeSummary (g : Graph) (e sl off n v : Nat) (s : State) : State :=
  let s := grpWrite (nearGrp g e) (g.place.index + 2048 * sl + off) n v (frameWrite g e sl (oSummary + off) n v s)
  if g.ridx = 2 then grpWrite (nearGrp g (g.place.partner.getD e e)) (g.place.index2 + 2048 * sl + off) n v s else s

/-- A page's state beat after a commit that leaves it `valid` positions: VALID, FULL at 128 with its summary, no tentative bit. -/
def publishPage (g : Graph) (e sl valid : Nat) (s : State) : State :=
  let s := if valid = 128 then writeSummary g e sl 0 2048 (pageSummary (framePeek s g e sl 0 oState) g.hpp) s else s
  let w := pageState s g e sl
  frameWrite g e sl oTent 16 0 (frameWrite g e sl oState 8 (w - pgState w - 16 * pgValid w + (if valid = 128 then 2 else 1) + 16 * valid) s)

/-- The commit of a layer and head group from position `old` to `new - 1` along the accepted nodes: the stage phase, the pages'
state beats, and the root entry, in which a page that the commit has reached is the tail page (R194, R220). -/
def publishPair (g : Graph) (slot old new : Nat) (path : List Nat) (l h : Nat) (s : State) : State :=
  let s := forAll path.zipIdx (fun q s =>
    let pos := old + q.2
    match sessPage s g slot l h (pos / 128) with
    | some (e, sl) => match tentServes s g e slot (pageId g e sl) with
      | some t => stageNode g e sl t q.1 (pos % 128) s
      | none => s
    | none => s) s
  let first := old / 128
  let last := (new - 1) / 128
  let s := forAll (List.range (last + 1 - first)) (fun i s => match sessPage s g slot l h (first + i) with
    | some (e, sl) => publishPage g e sl (min 128 (new - 128 * (first + i))) s
    | none => s) s
  let id := fun (i : Nat) => match sessPage s g slot l h i with | some (e, sl) => pageId g e sl | none => noPage
  if id last = noPage then s else rootWrite g slot l h (id last) (id (last + 1)) s

/-! ### Decode state and the draft ring (R220, R226, R227) -/

/-- Fields of a commit record (R221). -/
def crOld (r : Nat) : Nat := bits r 95 64
def crNew (r : Nat) : Nat := bits r 127 96
def crStatus (r : Nat) : Nat := bits r 167 160
def crEmit (r : Nat) : Nat := bits r 175 168
def crFlags (r : Nat) : Nat := bits r 183 176
def crPath (r : Nat) : Nat := bits r 207 192
def crToken (r i : Nat) : Nat := bits r (256 + 32 * i + 31) (256 + 32 * i)

/-- The descriptor of a tree of the root alone. -/
def rootTree (token : Nat) : Nat := 1 + 2 ^ 128 * (token % 2 ^ 18) + 2 ^ 640

/-- The next tree: on a run-ahead hit the draft model's, which the spec leaves to the graph's draft model; else the root alone,
with the bonus token, or after a prefill step a token that the spec leaves open (R226, log entries 24, 89). -/
def nextTree (x : Sess) (rec_ : Nat) (s : State) : Nat × State :=
  if crEmit rec_ = 0 then let (t, s) := takeFreeNat (2 ^ 18) s; (rootTree t, s)
  else if (crFlags rec_).testBit 0 ∧ !x.sampler.testBit 80 then
    let (t, s) := takeFree 128 s
    (t - bits t 15 8 * 2 ^ 8 + 2 ^ 8, s)
  else (rootTree (crToken rec_ (crEmit rec_ - 1)), s)

/-- Every core's copy of the DSB takes the new CPOS, GEN + 1 and the next tree, once. -/
def publishDsb (g : Graph) (slot : Nat) (x : Sess) (rec_ : Nat) (s : State) : State :=
  let v := readDsb s g slot
  if bits v 95 64 = crNew rec_ then s
  else
    let (t, s) := nextTree x rec_ s
    writeDsb g slot (bits v 63 0 + 2 ^ 64 * crNew rec_ + 2 ^ 96 * ((bits v 127 96 + 1) % 2 ^ 32) + 2 ^ 128 * bits v 511 128 + 2 ^ 512 * t) s

/-- The positions that a session's draft ring holds at a committed position: the sink and the last 4,096. -/
def ringPositions (cpos : Nat) : List Nat :=
  if cpos ≤ 4096 then List.range cpos else 0 :: (List.range 4096).map (· + (cpos - 4096))

/-- The draft ring after a commit from `old`: entries below `old` stay, the others are computed by the draft model, whose results
the spec does not give (R227). -/
def refillDraft (slot old new : Nat) (s : State) : State :=
  match getSess s slot with
  | none => s
  | some x =>
    let (l, s) := (ringPositions new).foldl (fun (r : List (Nat × Nat) × State) p =>
      match x.draft.find? fun e => e.1 == p && decide (p < old) with
      | some e => (r.1 ++ [e], r.2)
      | none => let (v, s) := takeFree 256 r.2; (r.1 ++ [(p, v)], s)) ([], s)
    updSess slot (fun x => { x with draft := l }) s

/-! ### The end of a step -/

/-- The publish of a committed session step (R217 to R220). -/
def publishStep (l : Launch) (g : Graph) (slot kind rec_ : Nat) (s : State) : State :=
  match getSess s slot with
  | none => s
  | some x =>
    if crStatus rec_ ≠ 0 ∨ bits rec_ 63 0 ≠ x.sid % 2 ^ 64 ∨ crNew rec_ ≤ crOld rec_ then s
    else
      let path := if kind = 2 then (List.range l.tree.length).filter fun n => (crPath rec_).testBit n else []
      let s := forAll (layerPairs g) (fun p s => publishPair g slot (crOld rec_) (crNew rec_) path p.1 p.2 s) s
      refillDraft slot (crOld rec_) (crNew rec_) (publishDsb g slot x rec_ s)

/-- The first running step of a partition ends: TREE_INVALID is in its record where its tree was invalid, and a committed step of
a session has published. No task of the session runs then. -/
def endLaunch (p : Nat) (s : State) : State :=
  match s.svc.launches.find? fun l => l.part == p && l.started && !l.ended with
  | none => s
  | some l =>
    let s := putLaunch l { l with ended := true } s
    match getGraph s l.graph, launchOf s l with
    | some g, some (slot, kind) =>
      let s := match recordPlace s g l.record with
        | some (d, u, a) => if l.treeBad then unitWrite d u (a + 22) 1 (crFlags (commitRecord s g l.record) ||| 2) s else s
        | none => s
      idlePoint slot (if kind = 1 ∨ kind = 2 then publishStep l g slot kind (commitRecord s g l.record) s else s)
    | _, _ => s

/-- FRAMES of a partition's sessions follow the pages at a step boundary (R175). -/
def boundaryFrames (p : Nat) (s : State) : State :=
  forAll (sessSlots s) (fun n s => match getSess s n with
    | some x => match getGraph s x.graph with
      | some g => if x.part = p then updSess n (fun x => { x with frames := countFrames s g n }) s else s
      | none => s
    | none => s) s

/-- A step of a flash root's core has ended, when its core runs no more. -/
def stepClosed (d : Stack) (c : CoreIx) (s : State) : State :=
  match rootPart s d c with
  | some p => if (getCore s d c).running then s else boundaryFrames p (endLaunch p s)
  | none => s

/-- A step of a flash root's core has started, when its core runs. -/
def stepOpened (d : Stack) (c : CoreIx) (s : State) : State :=
  match rootPart s d c with
  | some p => if (getCore s d c).running then beginLaunch p (engineCount s d c) s else s
  | none => s

end Sys2Proof.Machine
end

