-- ==== Sys2Proof/Machine/Fabric.lean ====
section
/-! DEFINITION. The package fabric (chapter 5): routers with their slot and transit tables (R116 to R122), links and their CRC
(R110 to R114), isolation of ports (R136), core ports and the FABRIC word (R123 to R125), and transit endpoints. -/
namespace Sys2Proof.Machine

/-! ### Router faults -/

def rfStray : Nat := 1
def rfUnselected : Nat := 2
def rfNonmember : Nat := 3
def rfMissing : Nat := 4
def rfUnclaimed : Nat := 5
def rfOverflow : Nat := 6

/-- The step selector of a die's current or last launch. -/
def dieSel (s : State) (d : Stack) : Nat := getF s (r_FLASH_STATUS d) f_FLASH_STATUS_SEL

/-- Does a step run on a die? -/
def dieRuns (s : State) (d : Stack) : Bool := allCores.any fun c => (getCore s d c).running

/-- Records a router fault: RT_FAULT if it is free, the cluster station's unit 4 (R439). CYCLE is the step offset, or the slot
phase when no step runs. -/
def routerRecord (d : Stack) (k : Cluster) (kind port off : Nat) (s : State) : State :=
  let a := r_RT_FAULT d k
  let off := if dieRuns s d then off else ((getDie s d).phase + off) % 4096
  let s := if getF s a f_RT_FAULT_VALID = 1 then s else
    putReg s a (BitVec.ofNat 64 (1 + kind * 2 + port % 16 * 32 + 2 ^ 16 * (off % 2 ^ 24) + 2 ^ 40 * (dieSel s d % 256)))
  recordErr (.cluster d k) 4 kOwnership (dieSel s d) off s

/-- A router fault of a step's data, which poisons the step (R119, R125). -/
def routerFault (d : Stack) (k : Cluster) (kind port off : Nat) (s : State) : State :=
  poisonDie d (noteFault d kind (routerRecord d k kind port off s))

/-! ### Slots -/

/-- The transit period of a router in cc (R120). -/
def tper (s : State) (d : Stack) (k : Cluster) : Nat := 8 * 2 ^ getF s (r_RT_CTRL d k) f_RT_CTRL_TPER

/-- SLOTPH at a step offset. -/
def slotPhase (s : State) (d : Stack) (off : Nat) : Nat := ((getDie s d).phase + off) % 4096

/-- Is a step offset a transit slot (R120)? -/
def transitSlot (s : State) (d : Stack) (k : Cluster) (off : Nat) : Bool := slotPhase s d off % tper s d k == tper s d k - 1

/-- The run a ROUTE has announced takes effect once its offset is reached (R118). -/
def routerSync (d : Stack) (k : Cluster) (off : Nat) (s : State) : State :=
  match (getRouter s d k).next with
  | some (eff, b, l) =>
    if eff ≤ off then
      let a := r_RT_CTRL d k
      let s := putF a f_RT_CTRL_RLEN l (putF a f_RT_CTRL_RBASE b (putF a f_RT_CTRL_TONLY 0 s))
      updRouter d k (fun r => { r with runAt := eff, active := true, next := none }) s
    else s
  | none => s

/-- A router follows the transit-only schedule again (R118, R121). -/
def routerIdle (d : Stack) (k : Cluster) (s : State) : State :=
  putF (r_RT_CTRL d k) f_RT_CTRL_TONLY 1 (updRouter d k (fun r => { r with active := false, next := none }) s)

/-- The slot-table entry in effect at a step offset, none in the transit-only schedule. -/
def slotEntry (s : State) (d : Stack) (k : Cluster) (off : Nat) : Option Word :=
  let r := getRouter s d k
  let a := r_RT_CTRL d k
  if r.active && decide (r.runAt ≤ off) then
    some (getReg s (r_RT_SLOT d k (getF s a f_RT_CTRL_RBASE + (off - r.runAt) % max 1 (getF s a f_RT_CTRL_RLEN))))
  else none

/-- The outputs that an entry feeds from input `p`. -/
def outputsOf (e : Word) (p : Nat) : List Nat := (List.range 9).filter fun o => e.toNat / 16 ^ o % 16 = p

/-- Is the edge port of a router a member port (R119)? -/
def memberPort (s : State) (d : Stack) (k : Cluster) : Bool :=
  (getF s (r_FLASH_CTRL d) f_FLASH_CTRL_MEMBER).testBit (routerPort k).val && !facesHub d (routerPort k)

/-- Is an edge port isolated? -/
def portIsolated (s : State) (d : Stack) (p : Port) : Bool := getF s (r_PORT_CTRL d p) f_PORT_CTRL_ISOLATE == 1

/-! ### Core ports (R124, R125) -/

/-- A header beat's fields: GRP, CIDX, BOFF, NBEATS (the layout inside the beat is the model's, log entry 18). -/
def headerBeat (grp cidx boff n : Nat) : BitVec 1024 :=
  BitVec.ofNat 1024 (grp % 1024 + 2 ^ 10 * (cidx % 64) + 2 ^ 16 * (boff % 65536) + 2 ^ 32 * (n % 65536))

/-- The contribution that a header beat opens. -/
def openHeader (v : BitVec 1024) : OpenHeader :=
  ⟨v.toNat % 1024, v.toNat / 2 ^ 10 % 64, v.toNat / 2 ^ 16 % 65536, v.toNat / 2 ^ 32 % 65536⟩

/-- A beat is written to activation memory for a RECV; one with ERR poisons the step, and is noted where it is the gate result
(R110, R219). -/
def recvPut (d : Stack) (c : CoreIx) (t word off : Nat) (b : Beat) (s : State) : State :=
  let s := if b.err then updCore d c (fun x => { x with gateErr := x.gateErr || x.gateWord == some word }) (poisonStep d c s) else s
  amemWrite d c t off 128 b.data.toNat word s

/-- A beat arrives at a core port in cycle `t`: a header beat and its data beats go to the vault controller, another beat waits
for a RECV (R124). -/
def portBeatNow (d : Stack) (c : CoreIx) (t : Nat) (b : Beat) (s : State) : State :=
  let x := getCore s d c
  if b.tag then
    let openLeft : Bool := match x.header with | some h => decide (h.left ≠ 0) | none => false
    let s := match x.header with
      | some h => if openLeft then vcFault d c vfAddHdr h.grp h.cidx t s else s
      | none => s
    if b.err then updCore d c (fun x => { x with header := none, portLost := true }) (poisonStep d c s)
    else updCore d c (fun x => { x with header := some (openHeader b.data), portLost := false }) s
  else
    match x.header with
    | some h =>
      if h.left ≠ 0 then
        let s := updCore d c (fun x => { x with header := some { h with boff := h.boff + 1, left := h.left - 1 } }) s
        vaultContribution d c t h.grp h.cidx h.boff b.data (if b.err then poisonStep d c s else s)
      else schedule d c t 0 .portEnd (updCore d c (fun x => { x with port := some b }) s)
    | none => schedule d c t 0 .portEnd (updCore d c (fun x => { x with port := some b }) s)

/-- A RECV takes the beat of this cycle; in normal mode a cycle without one is MISSING_BEAT (R125). -/
def recvBeatNow (d : Stack) (c : CoreIx) (t word off : Nat) (last : Bool) (s : State) : State :=
  let x := getCore s d c
  match x.portQ, x.port with
  | b :: q, _ => if x.recvWait.isEmpty then recvPut d c t word off b (updCore d c (fun x => { x with portQ := q }) s)
                 else updCore d c (fun x => { x with recvWait := x.recvWait ++ [(off, last, word)] }) s
  | [], some b => if x.recvWait.isEmpty then recvPut d c t word off b (updCore d c (fun x => { x with port := none }) s)
                  else updCore d c (fun x => { x with recvWait := x.recvWait ++ [(off, last, word)] }) s
  | [], none =>
    if x.elastic then updCore d c (fun x => { x with recvWait := x.recvWait ++ [(off, last, word)] }) s
    else routerFault d (clusterOf c) rfMissing (c.val % 4) (t - x.start) s

/-- The cycle of an arrival ends: a beat that no RECV took waits in elastic mode, is discarded after a bad header, and is
UNCLAIMED_BEAT otherwise. -/
def portEndNow (d : Stack) (c : CoreIx) (t : Nat) (s : State) : State :=
  let x := getCore s d c
  match x.port with
  | none => s
  | some b =>
    let s := updCore d c (fun x => { x with port := none }) s
    match x.recvWait with
    | (off, _, word) :: rest => recvPut d c t word off b (updCore d c (fun x => { x with recvWait := rest }) s)
    | [] =>
      if x.portLost then s
      else if x.elastic then updCore d c (fun x => { x with portQ := x.portQ ++ [b] }) s
      else routerFault d (clusterOf c) rfUnclaimed (c.val % 4) (t - x.start) s

/-! ### The LPDDR adder's side of router port 8 -/

/-- A contribution beat reaches the LPDDR adder at step offset `off`; a full group writes its result, in the compiled burst
slots that follow (R126, R278). -/
def lpContribution (d : Stack) (off grp cidx boff : Nat) (data : BitVec 1024) (s : State) : State :=
  let ent := getReg s (r_LP_RGRPA d grp)
  let g := sget AddGroup.reset (getLp s d).groups grp
  match contribFault ent g 2048 cidx boff with
  | some k => poisonDie d (lpFault d k grp cidx off (dieSel s d) s)
  | none =>
    let slot := fieldOf f_VC_RGRPA_BBASE ent + cidx * fieldOf f_VC_RGRPA_LEN ent + boff
    updLp d (fun p => { p with groups := sput AddGroup.reset p.groups grp (arrive g cidx boff off), buffer := sput 0 p.buffer slot data }) s

/-- The first group of the LPDDR adder whose beats have all arrived. -/
def lpFullGroup (s : State) (d : Stack) : Option Nat :=
  ((getLp s d).groups.find? fun p => p.2.first.isSome && groupFull (getReg s (r_LP_RGRPA d p.1)) p.2).map (·.1)

/-- Ends a group's sum in the LPDDR adder: its arrival state is clear, and its result window ends 63 cc after the last burst slot,
at `off` (R126, R127). -/
def lpClearGroup (d : Stack) (grp off : Nat) (s : State) : State :=
  updLp d (fun p => { p with groups := sput AddGroup.reset p.groups grp { AddGroup.reset with lastAt := off, resultEnd := off + 63 } }) s

/-- Gives result beats `b`, `b` + 1, … of a group their burst slots: two data sectors a beat, in the next compiled slots after the
beat is summed (R273, R278). None after LP_SCHED. -/
def planResult (d : Stack) (thaw : Bool) (grp base cnt last : Nat) : Nat → Nat → State → Option State
  | 0, _, s => some s
  | n + 1, b, s =>
    (lpPlan s d thaw (last + resultDelay cnt b) [base + 2 * b, base + 2 * b + 1]).bind fun q =>
      planResult d thaw grp base cnt last n (b + 1) (updLp d (fun p =>
        { p with bursts := q.bursts, activates := q.activates, out := p.out ++ [(grp, b, 9 * q.slots.foldl max 0)] }) s)

/-- The LPDDR adder has a full group: its result beats get their slots, or the result is ADD_ADDR or LP_SCHED and none of it is
written (R277, R278). -/
def lpResult (d : Stack) (thaw : Bool) (grp : Nat) (s : State) : State :=
  let ent := getReg s (r_LP_RGRPA d grp)
  let len := fieldOf f_VC_RGRPA_LEN ent
  let base := fieldOf f_VC_RGRPB_RADDR (getReg s (r_LP_RGRPB d grp))
  let last := (sget AddGroup.reset (getLp s d).groups grp).lastAt
  let fail := fun kind => poisonDie d (lpFault d kind grp 0 last (dieSel s d) (lpClearGroup d grp last s))
  if lpCapacity s d < base + 2 * len then fail vfAddAddr
  else (planResult d thaw grp base (fieldOf f_VC_RGRPA_CNT ent) last len 0 s).getD (fail vfSched)

/-- The next result beat of the LPDDR adder is written in its burst slots. A failed channel takes nothing, and poisons the step
(R276). -/
def lpResultBeat (d : Stack) (s : State) : State :=
  match (getLp s d).out with
  | [] => s
  | (grp, b, off) :: rest =>
    let ent := getReg s (r_LP_RGRPA d grp)
    let base := fieldOf f_VC_RGRPB_RADDR (getReg s (r_LP_RGRPB d grp))
    let v := resultBeat (getLp s d).buffer ent b
    let s := updLp d (fun p => { p with out := rest }) s
    let put := fun (k : Nat) (v : BitVec 512) (s : State) =>
      match lpPlace s d k with
      | some (ch, _, _) => if lpChanFailed s d ch then poisonDie d (lpFault d vfChanOut grp 0 off (dieSel s d) s) else lpCompiled d k v s
      | none => poisonDie d s
    let s := put (base + 2 * b + 1) (v.extractLsb' 512 512) (put (base + 2 * b) (v.extractLsb' 0 512) s)
    if b + 1 = fieldOf f_VC_RGRPA_LEN ent then lpClearGroup d grp off s else s

/-- A beat leaves router output 8 of a router at a step offset. -/
def lpPortBeat (d : Stack) (k : Cluster) (off : Nat) (b : Beat) (s : State) : State :=
  if b.tag then
    if b.err then updLp d (fun p => { p with headers := sput ⟨0, 0, 0, 0⟩ p.headers k.val ⟨0, 0, 0, 0⟩ }) (poisonDie d s)
    else updLp d (fun p => { p with headers := sput ⟨0, 0, 0, 0⟩ p.headers k.val (openHeader b.data) }) s
  else
    let h := sget ⟨0, 0, 0, 0⟩ (getLp s d).headers k.val
    if h.left = 0 then s
    else
      let s := updLp d (fun p => { p with headers := sput ⟨0, 0, 0, 0⟩ p.headers k.val { h with boff := h.boff + 1, left := h.left - 1 } }) s
      lpContribution d off h.grp h.cidx h.boff b.data (if b.err then poisonDie d s else s)

/-! ### Transit endpoints (R122) -/

/-- A step's beat is delivered to staging memory, at a place that the spec does not state (log entry 3); one with ERR poisons the
step (R110). -/
def stageBeatNow (d : Stack) (k : Cluster) (b : Beat) (s : State) : State :=
  let r := getRouter s d k
  let n := Config.stagePlace (4 * d.val + k.val) (dieSel s d) r.stagedIn false % 0x10000
  let s := updRouter d k (fun r => { r with stagedIn := r.stagedIn + 1 }) s
  writeMem (stagingKey d k.val (128 * n)) 128 b.data.toNat (if b.err then poisonDie d s else s)

/-- The beat that staging memory supplies in a slot that selects it. -/
def stagedBeat (d : Stack) (k : Cluster) (s : State) : Beat × State :=
  let r := getRouter s d k
  let n := Config.stagePlace (4 * d.val + k.val) (dieSel s d) r.stagedOut true % 0x10000
  (⟨BitVec.ofNat 1024 (readMem s (stagingKey d k.val (128 * n)) 128), false, false⟩,
   updRouter d k (fun r => { r with stagedOut := r.stagedOut + 1 }) s)


/-- An error response for a transfer reaches the hub (R122, R136, R256). -/
def noteXferErr (id : Nat) (s : State) : State :=
  updHub (fun h => { h with xferErr := if h.xferErr.contains id then h.xferErr else h.xferErr ++ [id] }) s

/-- An isolated port discards a transit beat: it answers the transfer with an error response, once, and counts the answer (R136). -/
def refuseTransit (d : Stack) (p : Port) (id : Nat) (s : State) : State :=
  if s.hub.xferErr.contains id then s else noteXferErr id (satF (r_PORT_STATUS d p) f_PORT_STATUS_ERR_RESP 1 s)

/-- The data beats of a transfer. -/
def xferBeats (x : Xfer) : Nat := if x.write then (x.len + 127) / 128 else 0

/-- A transit beat reaches the transit endpoint of its die; with the last beat of its transfer the access goes to its
controller. A beat with ERR set starts no access: the endpoint answers the transfer with an error (R110, R122). -/
def endpointBeat (d : Stack) (xfer : Nat) (err : Bool) (s : State) : State :=
  match s.hub.xfers.find? fun x => x.id == xfer with
  | none => s
  | some x =>
    if err then
      let s := updDie d (fun y => { y with endpoint := sput 0 y.endpoint xfer 0 }) s
      match devTarget s x.addr with
      | some (_, u, _) => addAnswer d u ⟨x.id, true, 0⟩ s
      | none => s
    else
    let n := sget 0 (getDie s d).endpoint xfer + 1
    if n < 1 + xferBeats x then updDie d (fun y => { y with endpoint := sput 0 y.endpoint xfer n }) s
    else
      let s := updDie d (fun y => { y with endpoint := sput 0 y.endpoint xfer 0 }) s
      match devTarget s x.addr with
      | some (_, u, a) => hostArrive d u ⟨x.id, x.write, a, x.len, x.data, 0, []⟩ s
      | none => noteXferErr x.id s

/-! ### Moving a beat -/

/-- The router reached from output 5 (clockwise) or 6 of a router, in the order 0, 1, 3, 2 (R116). -/
def ringNext (k : Cluster) (cw : Bool) : Cluster :=
  match k.val, cw with
  | 0, true => 1 | 1, true => 3 | 3, true => 2 | 2, true => 0
  | 0, false => 2 | 2, false => 3 | 3, false => 1 | _, _ => 0

/-- The flight time of a die crossing (R113). -/
def crossing (s : State) (d : Stack) (p : Port) : Nat := if getF s (r_PORT_STATUS d p) f_PORT_STATUS_HALF = 1 then 23 else 22

/-- The stack number that stands for the hub as a beat's destination. -/
def hubDie : Nat := 24

/-- A beat leaves an edge port 3 cc after it reached the router, or once a half-width link has finished with the beat before it
(R112, log entry 81). An isolated port discards it, with an error response for a transit beat (R136). -/
def edgeOut (d : Stack) (k : Cluster) (f : Flight) (s : State) : State :=
  let p := routerPort k
  if portIsolated s d p then
    if f.transit then refuseTransit d p f.xfer s else s
  else
    let half := getF s (r_PORT_STATUS d p) f_PORT_STATUS_HALF = 1
    let start := if half then max (f.off + 3) (sget 0 (getDie s d).linkFree p.val) else f.off + 3
    let s := if half then updDie d (fun y => { y with linkFree := sput 0 y.linkFree p.val (start + 2) }) s else s
    let off := start + crossing s d p
    if facesHub d p then { s with crossings := s.crossings ++ [{ f with die := hubDie, router := d.val, port := p.val, off := off }] }
    else match neighbour d p with
      | some e => { s with crossings := s.crossings ++ [{ f with die := e.val, router := (portRouter (opposite p)).val, port := (opposite p).val, off := off }] }
      | none => s

/-- A beat that a router moves to output `o` (R116, R117). It leaves the router 3 cc after its arrival. The timetable of the
cluster's first core holds the beats that leave for staging memory and for the LPDDR adder. -/
def moveBeat (d : Stack) (k : Cluster) (o : Nat) (f : Flight) (s : State) : State :=
  let t := (getDie s d).stepStart + f.off + 3
  if o < 4 then schedule d (coreIx (4 * k.val + o)) t 0 (.portBeat f.beat) s
  else if o = 4 then schedule d (coreIx (4 * k.val)) t 0 (.stageBeat f.beat) s
  else if o = 5 then
    { s with flights := s.flights ++ [{ f with router := (ringNext k true).val, port := 6, off := f.off + 3 }] }
  else if o = 6 then
    { s with flights := s.flights ++ [{ f with router := (ringNext k false).val, port := 5, off := f.off + 3 }] }
  else if o = 7 then edgeOut d k f s
  else if f.transit then endpointBeat d f.xfer f.beat.err s
  else schedule d (coreIx (4 * k.val)) t 0 (.lpBeat f.beat) s

/-- Does a die run its step in elastic mode? -/
def dieElastic (s : State) (d : Stack) : Bool := getF s (r_FLASH_STATUS d) f_FLASH_STATUS_ELASTIC_STEP == 1

/-- The first offset from `off` on, within `n` cycles, whose table entry selects an input. -/
def nextSelected (s : State) (d : Stack) (k : Cluster) (p : Nat) : Nat → Nat → Option Nat
  | 0, _ => none
  | n + 1, off =>
    match slotEntry s d k off with
    | none => none
    | some e => if !transitSlot s d k off && !(outputsOf e p).isEmpty then some off else nextSelected s d k p n (off + 1)

/-- The table offset that moves a beat which reaches an input at `off`: that offset, or in elastic mode the first one after the
entry that the beat before it used, in or before whose cycle the beat may wait (R53, R133, log entry 79). -/
def beatSlot (s : State) (d : Stack) (k : Cluster) (p off : Nat) : Nat :=
  if dieElastic s d then
    let r := getRouter s d k
    (nextSelected s d k p (2 * getF s (r_RT_CTRL d k) f_RT_CTRL_RLEN + 1) (max r.runAt (sget 0 r.moved p))).getD off
  else off

/-- The step beat at a router input is moved by the slot table at its offset (R119, R122). -/
def slotMove (d : Stack) (k : Cluster) (p : Nat) (f : Flight) (s : State) : State :=
  let s := routerSync d k f.off s
  let slot := beatSlot s d k p f.off
  let s := if dieElastic s d then updRouter d k (fun r => { r with moved := sput 0 r.moved p (slot + 1) }) s else s
  let f := { f with off := max f.off slot }
  if transitSlot s d k slot then routerFault d k rfUnselected p f.off s
  else match slotEntry s d k slot with
    | none => routerFault d k rfUnselected p f.off s
    | some e =>
      let os := outputsOf e p
      if os.isEmpty then routerFault d k rfUnselected p f.off s
      else if p = 7 ∧ !memberPort s d k then routerFault d k rfNonmember 7 f.off s
      else forAll os (fun o s =>
        if o = 7 ∧ !memberPort s d k then routerFault d k rfNonmember 7 f.off s else moveBeat d k o f s) s

/-- The earliest flight of a list that satisfies a condition, and the list without it. -/
def takeFlight (ok : Flight → Bool) (l : List Flight) : Option (Flight × List Flight) :=
  let c := l.filter ok
  match c with
  | [] => none
  | f :: r =>
    let m := r.foldl (fun m x => if x.off < m.off then x else m) f
    some (m, l.erase m)

/-- A zero beat with ERR, which an isolated port delivers in every slot assigned to it (R136). -/
def errBeat : Beat := ⟨0, false, true⟩

/-- A beat arrives at a router input. A transit beat enters the input's transit buffer of four; a beat of the step is moved by
the slot table. With no beat on its way, an isolated port and staging memory supply one in the slots that select them, and an entry
that uses an edge port which is no member port is NONMEMBER (R119). -/
def inputBeat (d : Stack) (k : Cluster) (p off : Nat) (s : State) : State :=
  match takeFlight (fun f => f.die == d.val && f.router == k.val && f.port == p) s.flights with
  | some (f, rest) =>
    let s := { s with flights := rest }
    if f.transit then
      let b := sget [] (getRouter s d k).buffers p
      if 4 ≤ b.length then routerRecord d k rfOverflow p f.off s
      else updRouter d k (fun r => { r with buffers := sput [] r.buffers p (b ++ [f]) }) s
    else slotMove d k p f s
  | none =>
    let s := routerSync d k off s
    let outs := if transitSlot s d k off then [] else match slotEntry s d k off with | some e => outputsOf e p | none => []
    if outs.isEmpty then s
    else if p = 7 ∧ portIsolated s d (routerPort k) then slotMove d k p ⟨d.val, k.val, p, off, false, errBeat, 0⟩ s
    else if p = 4 then
      let (b, s) := stagedBeat d k s
      slotMove d k p ⟨d.val, k.val, p, off, false, b, 0⟩ s
    else if (p = 7 ∨ outs.contains 7) ∧ !memberPort s d k then routerFault d k rfNonmember 7 off s
    else s

/-- A transit slot: every router of the die applies its transit-table entry to the transit buffers (R120, R122). The buffers
are read before any output takes effect, since a beat moves one router in one slot. -/
def transitSlotNow (d : Stack) (n : Nat) (s : State) : State :=
  let moves : List (Cluster × Nat × Nat × Flight) := allClusters.flatMap fun (k : Cluster) =>
    let e := getReg s (r_TR_SLOT d k n)
    (List.range 9).flatMap fun o =>
      let p := e.toNat / 16 ^ o % 16
      match sget [] (getRouter s d k).buffers p with
      | f :: _ => if p < 9 then [(k, p, o, f)] else []
      | [] => []
  let s := forAll (moves.map fun m => (m.1, m.2.1)).eraseDups (fun m s => updRouter d m.1 (fun r =>
    { r with buffers := sput [] r.buffers m.2 ((sget [] r.buffers m.2).drop 1) }) s) s
  forAll moves (fun m s => moveBeat d m.1 m.2.2.1 m.2.2.2 s) s

/-! ### Links (R110, R114) -/

/-- A beat arrives over a link with the wires' upsets: a CRC mismatch sets ERR, counts, and poisons a step's data. The wires carry
the data bits in ascending order, wire ℓ the bits 2ℓ and 2ℓ + 1 (DESIGN CHOICE, log entry 82: R110 names no bits). -/
def linkReceive (d : Stack) (p : Port) (flips : BitVec 1024) (crcFlip : Byte) (s : State) : State :=
  match takeFlight (fun f => f.die == d.val && f.port == p.val) s.crossings with
  | none => s
  | some (f, rest) =>
    let s := { s with crossings := rest }
    if portIsolated s d p then (if f.transit then refuseTransit d p f.xfer s else s)
    else
      let data := f.beat.data ^^^ flips
      let bad := crc8 1024 data ≠ crc8 1024 f.beat.data ^^^ crcFlip
      let s := if bad then
          satF (r_PORT_STATUS d p) f_PORT_STATUS_CRC_ERRS 1
            (updDie d (fun x => { x with crcRound := sput 0 x.crcRound p.val (sget 0 x.crcRound p.val + 1) })
              (recordErr (.die d) (5 + p.val) kLinkCrc (dieSel s d) f.off s))
        else s
      let f := { f with beat := { f.beat with data := data, err := f.beat.err || bad }, port := 7 }
      let s := if f.beat.err && !f.transit then poisonDie d s else s
      { s with flights := s.flights ++ [f] }

/-! ### The FABRIC word (R123) -/

def fabAddr (w : BitVec 128) : Nat := 128 * wbits w 41 28
def fabBeats (w : BitVec 128) : Nat := wbits w 58 43

/-- Is a SEND, RECV or RSEND word malformed (R69, R123, R218)? -/
def badFabric (w : BitVec 128) : Bool :=
  wordEmask w ≠ 0 || wbits w 127 116 ≠ 0 || w.getLsbD 42 || fabBeats w == 0 || leavesAmem (fabAddr w) (128 * fabBeats w) ||
    (wbits w 27 24 == 2 && hitsPoison (fabAddr w) (128 * fabBeats w))

/-- Is a ROUTE word malformed? -/
def badRoute (s : State) (d : Stack) (c : CoreIx) (w : BitVec 128) : Bool :=
  let len := wbits w 115 103
  let tp := tper s d (clusterOf c)
  wordEmask w ≠ 0 || wbits w 127 116 ≠ 0 || decide (c.val % 4 ≠ 0) || decide (len % tp ≠ 0) || decide (len < tp) ||
    decide (4096 < len) || decide (4096 < wbits w 102 91 + len)

/-- A ROUTE word issues in cycle `t`: its run takes effect at the next step offset that is a multiple of TPER (R118). -/
def issueRoute (d : Stack) (c : CoreIx) (w : BitVec 128) (t : Nat) (s : State) : State :=
  let off := t - (getCore s d c).start
  let k := clusterOf c
  let tp := tper s d k
  let s := routerSync d k off s
  updRouter d k (fun r => { r with next := some ((off + tp - 1) / tp * tp, wbits w 102 91, wbits w 115 103) }) s

/-- A SEND word issues: beat n leaves in cycle t + n. Two that overlap are ISSUE_CONFLICT (R125). -/
def issueSend (d : Stack) (c : CoreIx) (w : BitVec 128) (word t : Nat) (s : State) : State :=
  if t < (getCore s d c).sendEnd then seqFault d c fIssueConflict word t s
  else forAll (List.range (fabBeats w)) (fun n s => schedule d c (t + n) word (.sendBeat (fabAddr w + 128 * n) (c.val % 4)) s)
    (updCore d c (fun x => { x with sendEnd := t + fabBeats w }) s)

/-- An RSEND word issues: its header leaves in cycle t, beat n in cycle t + 1 + n. One that overlaps a SEND or an RSEND of the core
is ISSUE_CONFLICT (DESIGN CHOICE, log entry 83: R125 names only two SENDs; both put beats on the one router port). -/
def issueRsend (d : Stack) (c : CoreIx) (w : BitVec 128) (word t : Nat) (s : State) : State :=
  if t < (getCore s d c).sendEnd then seqFault d c fIssueConflict word t s
  else
    let s := updCore d c (fun x => { x with sendEnd := t + 1 + fabBeats w }) s
    let s := schedule d c t word (.sendHeader (wbits w 74 65) (wbits w 64 59) (wbits w 90 75) (fabBeats w)) s
    forAll (List.range (fabBeats w)) (fun n s => schedule d c (t + 1 + n) word (.sendBeat (fabAddr w + 128 * n) (c.val % 4)) s) s

/-- A RECV word issues: it takes the beats of cycles t, t + 1, … -/
def issueRecv (d : Stack) (c : CoreIx) (w : BitVec 128) (word t : Nat) (s : State) : State :=
  if t < (getCore s d c).recvEnd then seqFault d c fIssueConflict word t s
  else forAll (List.range (fabBeats w)) (fun n s =>
      schedule d c (t + n) word (.recvBeat (fabAddr w + 128 * n) (n + 1 == fabBeats w)) s)
    (updCore d c (fun x => { x with recvEnd := t + fabBeats w }) s)

/-- A beat is put on the router port of a core in cycle `t`. -/
def putOnRouter (d : Stack) (c : CoreIx) (t : Nat) (b : Beat) (s : State) : State :=
  { s with flights := s.flights ++ [⟨d.val, (clusterOf c).val, c.val % 4, t - (getCore s d c).start, false, b, 0⟩] }

/-- A SEND or RSEND data beat leaves activation memory. -/
def sendBeatNow (d : Stack) (c : CoreIx) (t word off : Nat) (s : State) : State :=
  match amemRead d c t off 128 word s with
  | (some v, s) => putOnRouter d c t ⟨BitVec.ofNat 1024 v, false, false⟩ s
  | (none, s) => s

/-- An RSEND header beat leaves. -/
def sendHeaderNow (d : Stack) (c : CoreIx) (t grp cidx boff n : Nat) (s : State) : State :=
  putOnRouter d c t ⟨headerBeat grp cidx boff n, true, false⟩ s

/-! ### The end of a step (R119) -/

/-- The router that holds a beat on its way in a die at the end offset, and its port there: the one that the beat has reached, or
the one before it on the ring while the beat has not yet left that (R119). -/
def strayAt (len : Nat) (f : Flight) : Cluster × Nat :=
  let k : Cluster := ⟨f.router % 4, by omega⟩
  if f.off < len then (k, f.port)
  else if f.port = 6 then (ringNext k false, 5)
  else if f.port = 5 then (ringNext k true, 6)
  else (k, f.port)

/-- The die and router that hold a beat on its way over a link at the end offset, and its port there: the receiving one, or the
sending one while the beat has not yet left it (R119). -/
def strayCrossing (s : State) (d : Stack) (len : Nat) (f : Flight) : Stack × Cluster × Nat :=
  let p : Port := ⟨f.port % 4, by omega⟩
  match neighbour d p with
  | some e => if len + crossing s e (opposite p) ≤ f.off then (e, portRouter (opposite p), 7) else (d, portRouter p, 7)
  | none => (d, portRouter p, 7)

/-- At the end offset the beats still in the die's routers and inbound crossings are discarded as STRAY, and the routers
revert to the transit-only schedule. -/
def fabricStepEnd (d : Stack) (len : Nat) (s : State) : State :=
  let mine := fun (f : Flight) => f.die == d.val && !f.transit
  let lost : List (Stack × Cluster × Nat) := (s.flights.filter mine).map (fun f => (d, strayAt len f)) ++
    (s.crossings.filter mine).map (strayCrossing s d len)
  let s := { s with flights := s.flights.filter fun f => !mine f, crossings := s.crossings.filter fun f => !mine f }
  let s := forAll lost (fun f s => routerFault f.1 f.2.1 rfStray f.2.2 len s) s
  forAll allClusters (fun k s => routerIdle d k s) s

/-- The beats of the step on a die are discarded without a record (R139). -/
def dropStepBeats (d : Stack) (s : State) : State :=
  let mine := fun (f : Flight) => f.die == d.val && !f.transit
  { s with flights := s.flights.filter fun f => !mine f, crossings := s.crossings.filter fun f => !mine f }

end Sys2Proof.Machine
end

