-- ==== Sys2Proof/Machine/Sfu.lean ====
section
/-! DEFINITION. The special function unit (chapter 4): the SFU word's checks, its timetable (R87, R438), and what each stage
computes (R90 to R103). -/
namespace Sys2Proof.Machine

/-! ### The SFU word (R89) -/

def sfuOp (w : BitVec 128) : Nat := wbits w 29 24
def sfuFin (w : BitVec 128) : Fmt := (fmtOfCode (wbits w 33 30)).getD .fp32
def sfuFout (w : BitVec 128) : Fmt := (fmtOfCode (wbits w 37 34)).getD .fp32
def sfuSrc (w : BitVec 128) : Nat := wbits w 58 38
def sfuSrc2 (w : BitVec 128) : Nat := wbits w 79 59
def sfuDst (w : BitVec 128) : Nat := wbits w 100 80
def sfuN (w : BitVec 128) : Nat := wbits w 114 101
def sfuScal (w : BitVec 128) : Bool := w.getLsbD 115
def sfuAux (w : BitVec 128) : Nat := wbits w 125 116
def sfuRaw (w : BitVec 128) : Bool := w.getLsbD 126

/-- Bytes of one block of the input format. -/
def finBytes (w : BitVec 128) : Nat := blockStride (sfuFin w)

/-- The element-wise operations with a second operand. -/
def sfuBinary (op : Nat) : Bool := decide (2 ≤ op) && decide (op ≤ 7)

/-- Is the operation a function of R94? -/
def sfuIsFn (op : Nat) : Bool := (sfuFnOfCode op).isSome

/-- Bytes that `n` blocks of the output format take, scale bytes included (R90). -/
def foutBytes (w : BitVec 128) (n : Nat) : Nat := n * blockStride (sfuFout w) + if fmtScaled (sfuFout w) then n else 0

/-- The output range's length of an SFU word. -/
def sfuOutLen (w : BitVec 128) : Nat :=
  match sfuOp w with
  | 0x20 | 0x21 | 0x22 => 4
  | 0x28 => 128 * sfuN w
  | 0x2B => if sfuRaw w then 32 + 4 * sfuAux w else foutBytes w (sfuAux w / 32)
  | _ => foutBytes w (sfuN w)

/-- Input ranges of an SFU word, offset, length, and whether they are elements of the input format. -/
def sfuInputs (w : BitVec 128) : List (Nat × Nat × Bool) :=
  let n := sfuN w
  let op := sfuOp w
  let src := if op = 0x2B then (sfuSrc w, n * (32 + 4 * sfuAux w), true) else (sfuSrc w, n * finBytes w, true)
  src ::
    if sfuBinary op then [(sfuSrc2 w, if sfuScal w then 4 else n * finBytes w, !sfuScal w)]
    else if op = 0x28 && sfuScal w then [(sfuSrc2 w, 4, false)]
    else if op = 0x29 then [(sfuSrc2 w, 16 + 64 * n, false)]
    else if op = 0x2A then [(sfuSrc2 w, 16 + 128 * n, false)]
    else []

/-- Bits per output element, for the in-place rule of R90 (SOFTMAX writes FP32 in pass 2). -/
def sfuOutBits (w : BitVec 128) : Nat := if sfuOp w = 0x28 then 32 else fmtBits (sfuFout w)

/-- Does the output overlap an input in a way R89 or R90 forbids? R90's rule on element widths, which names DST equal to SRC, is
taken for DST equal to SRC2 too (DESIGN CHOICE, log entry 85). -/
def badOverlap (w : BitVec 128) : Bool :=
  let o := sfuDst w
  let ol := sfuOutLen w
  (sfuInputs w).any fun r =>
    decide (o < r.1 + r.2.1) && decide (r.1 < o + ol) &&
      (decide (o ≠ r.1) || (r.2.2 && decide (fmtBits (sfuFin w) < sfuOutBits w)))

/-- Is an SFU word malformed (R69, R89, R90, R218)? -/
def badSfu (w : BitVec 128) : Bool :=
  let op := sfuOp w
  let fin := wbits w 33 30
  let fout := fmtOfCode (wbits w 37 34)
  wordEmask w ≠ 0 || w.getLsbD 127 || !(fin == 8 || fin == 9 || fin == 10) || fout == none || fout == some .k4 ||
    (op == 0x2B && fin ≠ 10) ||
    ((op == 0x20 || op == 0x21 || op == 0x22 || (op == 0x2B && sfuRaw w)) && fout ≠ some .fp32) ||
    decide (sfuSrc w % 16 ≠ 0) || decide (sfuSrc2 w % 16 ≠ 0) || decide (sfuDst w % 16 ≠ 0) || sfuN w == 0 ||
    (sfuScal w && !(sfuBinary op || op == 0x28)) ||
    (if op = 0x2B then decide (sfuAux w % 32 ≠ 0) || sfuAux w == 0 else sfuAux w ≠ 0 || sfuRaw w) ||
    (sfuInputs w).any (fun r => leavesAmem r.1 r.2.1) || leavesAmem (sfuDst w) (sfuOutLen w) ||
    hitsPoison (sfuDst w) (sfuOutLen w) || badOverlap w

/-- q of R87: the cycles between records of an SMERGE. -/
def smergeQ (w : BitVec 128) : Nat := max (sfuAux w / 32) 4

/-- The cycle of the last result write, counted from the issue (R87). -/
def sfuDone (w : BitVec 128) : Nat :=
  let n := sfuN w
  let op := sfuOp w
  if op ≤ 8 then n + 3
  else if sfuIsFn op then 4 * n + 11
  else match op with
    | 0x28 => 6 * n + 91
    | 0x29 => 2 * n + 55
    | 0x2A => 3 * n + 91
    | 0x2B =>
      let b := sfuAux w / 32
      n + (n + 7) / 8 + (n - 1) * smergeQ w + (if sfuRaw w then b + 15 else 2 * b + 30)
    | _ => n + 32

/-- The stages of an SFU word with the cycles from its issue in which they act (R438). -/
def sfuStages (w : BitVec 128) : List (Nat × SfuStage × Nat) :=
  let n := sfuN w
  let op := sfuOp w
  let each := fun (m : Nat) (g : Nat → Nat × SfuStage × Nat) => (List.range m).map g
  let scal := if sfuScal w || op = 0x29 || op = 0x2A then [(0, SfuStage.scalar, 0)] else []
  let rows := each n fun k => (k, SfuStage.row, k)
  scal ++
    if op ≤ 8 then each n fun k => (k, .elem, k)
    else if sfuIsFn op then each n fun k => (4 * k, .func, k)
    else match op with
      | 0x28 => rows ++ [(n + 31, .rowEnd, 0)] ++ each n (fun k => (n + 32 + 4 * k, .pass2, k)) ++
          [(5 * n + 87, .pass2End, 0)] ++ each n fun k => (5 * n + 88 + k, .pass3, k)
      | 0x29 => rows ++ [(n + 47, .rowEnd, 0)] ++ each n fun k => (n + 48 + k, .pass3, k)
      | 0x2A => rows ++ [(n + 35, .rowEnd, 0)] ++ each n (fun k => (n + 36 + k, .pass2, k)) ++
          [(2 * n + 79, .pass2End, 0)] ++ each n fun k => (2 * n + 80 + k, .pass3, k)
      | 0x2B =>
        let b := sfuAux w / 32
        let t := sfuDone w
        each n (fun i => (i, .head, i)) ++
          (List.range n).flatMap (fun i => each b fun k => (n + (n + 7) / 8 + 12 + smergeQ w * i + k, .merge, 32 * i + k)) ++
          each b fun k => (t - b + 1 + k, .out, k)
      | _ => rows ++ [(n + 32, .rowEnd, 0)]

/-- An SFU word issues in cycle `t`: it holds the SFU until its last result is written (R88). -/
def issueSfu (d : Stack) (c : CoreIx) (w : BitVec 128) (word t : Nat) (s : State) : State :=
  if t < (getCore s d c).sfuEnd then ownFault d c fIssueConflict 7 7 word t s
  else
    let a := r_SFU_STATUS d c
    let s := putF a f_SFU_STATUS_LAST_OP (sfuOp w) (bumpF a f_SFU_STATUS_OPS 1 s)
    let run : SfuRun := { w := w, start := t, row := [], row2 := [], scalar := 0, stat := 0, stat2 := 0,
                          outs := List.replicate (sfuAux w) 0, word := word }
    let s := updCore d c (fun x => { x with sfuEnd := t + sfuDone w + 1, sfu := some run }) s
    forAll (sfuStages w) (fun g s => schedule d c (t + g.1) word (.sfu g.2.1 g.2.2) s) s

/-! ### Values -/

/-- Reads block `k` of the input. -/
def readIn (d : Stack) (c : CoreIx) (t word off : Nat) (w : BitVec 128) (s : State) : Option (List (BitVec 32)) × State :=
  let (v, s) := amemRead d c t off (finBytes w) word s
  (v.map (unpackVals (sfuFin w) 32), s)

/-- The FP32 values of a stored output block, its scale applied (MULADD's prior content). -/
def priorVals (f : Fmt) (codes : Nat) (scale : Byte) : List (BitVec 32) :=
  if fmtScaled f then (blockElems f codes).map fun v => encF32 (mulVal (blockScale f scale) v)
  else unpackVals f 32 codes

/-- The canonical FP32 NaN. -/
def nan32 : BitVec 32 := 0x7FC00000#32

/-- The larger of two FP32 values; a NaN gives the canonical NaN. -/
def max32 (a b : BitVec 32) : BitVec 32 := encF32 (maxVal (decF32 a) (decF32 b))

/-- The smaller of two FP32 values; a NaN gives the canonical NaN. -/
def min32 (a b : BitVec 32) : BitVec 32 := encF32 (minVal (decF32 a) (decF32 b))

/-- RELU: x if x > 0, otherwise +0; a NaN gives the canonical NaN. -/
def relu32 (a : BitVec 32) : BitVec 32 :=
  if isNaN32 a then nan32 else if ltVal (.fin false 0 0) (decF32 a) then a else 0#32

/-- An element-wise operation of R90. -/
def elemOp (op : Nat) (x y z : BitVec 32) : BitVec 32 :=
  match op with
  | 0x02 => addF32 x y
  | 0x03 => subF32 x y
  | 0x04 => mulF32 x y
  | 0x05 => addF32 (mulF32 x y) z
  | 0x06 => max32 x y
  | 0x07 => min32 x y
  | 0x08 => relu32 x
  | _ => encF32 (decF32 x)

/-- Adds pairs of neighbours: one level of the tree of R96. -/
def pairSum : List (BitVec 32) → List (BitVec 32)
  | a :: b :: r => addF32 a b :: pairSum r
  | l => l

/-- The seven levels over 128 partials. -/
def treeSum (l : List (BitVec 32)) : BitVec 32 := ((7).repeat pairSum l).headD 0#32

/-- RSUM (R96): element i goes to partial i mod 128, partials from +0 in ascending i, then the tree. -/
def rsum (xs : List (BitVec 32)) : BitVec 32 :=
  treeSum ((List.range 128).map fun p =>
    ((List.range ((xs.length + 127 - p) / 128)).map fun i => xs.getD (128 * i + p) 0#32).foldl addF32 0#32)

/-- RSUMSQ (R96): the sum of the rounded squares. -/
def rsumSq (xs : List (BitVec 32)) : BitVec 32 := rsum (xs.map fun x => mulF32 x x)

/-- RMAX (R96). -/
def rmax (xs : List (BitVec 32)) : BitVec 32 := xs.foldl max32 negInf32

/-- 1/n rounded to FP32 (R101). -/
def invN (n : Nat) : BitVec 32 := encF32 (.fin false (divNearest (2 ^ 120) n) (-120))

/-- Are two FP32 values numerically equal? -/
def eqF32 (a b : BitVec 32) : Bool :=
  !isNaN32 a && !isNaN32 b && !ltVal (decF32 a) (decF32 b) && !ltVal (decF32 b) (decF32 a)

/-- The exponential of a SOFTMAX element (R97, R98). -/
def softExp (m x : BitVec 32) : BitVec 32 :=
  if m = negInf32 then 0#32
  else if m = 0x7F800000#32 then (if isNaN32 x then nan32 else if x = 0x7F800000#32 then 0x3F800000#32 else 0#32)
  else expF32 (subF32 x m)

/-- The weight of a record in SMERGE (R100). -/
def mergeWeight (big m : BitVec 32) : BitVec 32 :=
  if m = negInf32 then 0#32 else if eqF32 m big then 0x3F800000#32 else expF32 (subF32 m big)

/-! ### The stages -/

/-- Changes the SFU word in progress. -/
def updRun (d : Stack) (c : CoreIx) (f : SfuRun → SfuRun) (s : State) : State :=
  updCore d c (fun x => { x with sfu := x.sfu.map f }) s

/-- Sends result block `k` on its way to DST, `delay` cycles after `t`. -/
def putResult (d : Stack) (c : CoreIx) (t word k : Nat) (w : BitVec 128) (vals : List (BitVec 32)) (s : State) : State :=
  schedule d c t word (.putBlock (sfuFout w) (sfuDst w + k * blockStride (sfuFout w))
    (sfuDst w + sfuN w * blockStride (sfuFout w) + k) vals true) s

/-- One block of an element-wise operation. -/
def sfuElem (d : Stack) (c : CoreIx) (t k : Nat) (r : SfuRun) (s : State) : State :=
  let w := r.w
  let op := sfuOp w
  let (xs, s) := readIn d c t r.word (sfuSrc w + k * finBytes w) w s
  let (ys, s) := if sfuBinary op && !sfuScal w then readIn d c t r.word (sfuSrc2 w + k * finBytes w) w s
    else (some (List.replicate 32 r.scalar), s)
  let f := sfuFout w
  let (zs, s) := if op = 0x05 then
      let (v, s) := amemRead d c t (sfuDst w + k * blockStride f) (blockStride f) r.word s
      let (sc, s) := if fmtScaled f then amemRead d c t (sfuDst w + sfuN w * blockStride f + k) 1 r.word s else (some 0, s)
      (match v, sc with | some v, some sc => some (priorVals f v (BitVec.ofNat 8 sc)) | _, _ => none, s)
    else (some (List.replicate 32 0#32), s)
  match xs, ys, zs with
  | some xs, some ys, some zs =>
    putResult d c (t + 4) r.word k w ((xs.zip (ys.zip zs)).map fun v => elemOp op v.1 v.2.1 v.2.2) s
  | _, _, _ => s

/-- One block of a function: four groups of 8 elements, or the whole block in a scaled format (R438). -/
def sfuFuncBlock (d : Stack) (c : CoreIx) (t k : Nat) (r : SfuRun) (s : State) : State :=
  let w := r.w
  match readIn d c t r.word (sfuSrc w + k * finBytes w) w s, sfuFnOfCode (sfuOp w) with
  | (some xs, s), some fn =>
    let f := sfuFout w
    if fmtScaled f then putResult d c (t + 15) r.word k w (xs.map fun x => encF32 (sfuFnVal fn (decF32 x))) s
    else
      let bytes := fmtBits f
      forAll (List.range 4) (fun g s =>
        let codes := packCodes (fmtBits f) (((xs.drop (8 * g)).take 8).map fun x => sfuFnCode fn f (decF32 x))
        let s := markSfu d c f codes 0 8 false s
        schedule d c (t + 12 + g) r.word (.putBytes (sfuDst w + k * blockStride f + g * bytes) bytes codes) s) s
  | (_, s), _ => s

/-- A row element as the soft maximum sees it: scaled by τ with S2SCAL = 1 (R97). -/
def softIn (w : BitVec 128) (tau x : BitVec 32) : BitVec 32 :=
  if sfuOp w = 0x28 && sfuScal w then mulF32 x tau else x

/-- The statistic formed at the end of a pass over the row. -/
def sfuRowEnd (d : Stack) (c : CoreIx) (t : Nat) (r : SfuRun) (s : State) : State :=
  let w := r.w
  let inv := invN (32 * sfuN w)
  let put := fun (v : BitVec 32) (s : State) =>
    markSfu d c .fp32 v.toNat 0 1 false (amemWrite d c t (sfuDst w) 4 v.toNat r.word s)
  match sfuOp w with
  | 0x20 => put (rsum r.row) s
  | 0x21 => put (rsumSq r.row) s
  | 0x22 => put (rmax r.row) s
  | 0x28 => updRun d c (fun r => { r with stat := rmax r.row }) s
  | 0x29 => updRun d c (fun r => { r with stat := rsqrtF32 (addF32 (mulF32 (rsumSq r.row) inv) r.scalar) }) s
  | _ =>
    let x0 := r.row.headD 0#32
    updRun d c (fun r => { r with stat := mulF32 (rsum (r.row.map fun x => subF32 x x0)) inv }) s

/-- A block of pass 2: the exponentials of SOFTMAX, or the deviations of LAYERNORM. -/
def sfuPass2 (d : Stack) (c : CoreIx) (t k : Nat) (r : SfuRun) (s : State) : State :=
  let w := r.w
  match readIn d c t r.word (sfuSrc w + k * finBytes w) w s with
  | (some xs, s) =>
    if sfuOp w = 0x28 then
      let es := xs.map fun x => softExp r.stat (softIn w r.scalar x)
      schedule d c (t + 16) r.word (.putBytes (sfuDst w + 128 * k) 128 (packCodes 32 (es.map (·.toNat))))
        (updRun d c (fun r => { r with row2 := r.row2 ++ es }) s)
    else
      let x0 := r.row.headD 0#32
      updRun d c (fun r => { r with row2 := r.row2 ++ xs.map fun x => subF32 (subF32 x x0) r.stat }) s
  | (none, s) => s

/-- A value clamped at +0: a −0 becomes +0, a NaN stays (R102). -/
def clampZero (v : BitVec 32) : BitVec 32 :=
  if isNaN32 v then v else if ltVal (decF32 v) (.fin false 0 0) || v = 0x80000000#32 then 0#32 else v

/-- The end of pass 2: the reciprocal of the sum, or the inverse deviation. -/
def sfuPass2End (d : Stack) (c : CoreIx) (r : SfuRun) (s : State) : State :=
  let w := r.w
  if sfuOp w = 0x28 then updRun d c (fun r => { r with stat2 := rcpF32 (rsum r.row2) }) s
  else
    let var := clampZero (mulF32 (rsumSq r.row2) (invN (32 * sfuN w)))
    updRun d c (fun r => { r with stat2 := rsqrtF32 (addF32 var r.scalar) }) s

/-- A block of the last pass: scaling of SOFTMAX, gains of RMSNORM, gains and offsets of LAYERNORM. -/
def sfuPass3 (d : Stack) (c : CoreIx) (t k : Nat) (r : SfuRun) (s : State) : State :=
  let w := r.w
  if sfuOp w = 0x28 then
    match amemRead d c t (sfuDst w + 128 * k) 128 r.word s with
    | (some v, s) =>
      let es := unpackVals .fp32 32 v
      putResult d c (t + 4) r.word k w (if r.stat = negInf32 then List.replicate 32 0#32 else es.map fun e => mulF32 e r.stat2) s
    | (none, s) => s
  else
    let (xs, s) := readIn d c t r.word (sfuSrc w + k * finBytes w) w s
    let (gs, s) := amemRead d c t (sfuSrc2 w + 16 + 64 * k) 64 r.word s
    if sfuOp w = 0x29 then
      match xs, gs with
      | some xs, some gs =>
        putResult d c (t + 8) r.word k w
          ((xs.zip (unpackVals .bf16 32 gs)).map fun v => mulF32 (mulF32 v.1 r.stat) v.2) s
      | _, _ => s
    else
      let (bs, s) := amemRead d c t (sfuSrc2 w + 16 + 64 * sfuN w + 64 * k) 64 r.word s
      let x0 := r.row.headD 0#32
      match xs, gs, bs with
      | some xs, some gs, some bs =>
        putResult d c (t + 12) r.word k w
          ((xs.zip ((unpackVals .bf16 32 gs).zip (unpackVals .bf16 32 bs))).map fun v =>
            addF32 (mulF32 (mulF32 (subF32 (subF32 v.1 x0) r.stat) r.stat2) v.2.1) v.2.2) s
      | _, _, _ => s

/-- Block `k` of record `i` joins the running outputs of SMERGE (R100). -/
def sfuMerge (d : Stack) (c : CoreIx) (t ik : Nat) (r : SfuRun) (s : State) : State :=
  let w := r.w
  let i := ik / 32
  let k := ik % 32
  match amemRead d c t (sfuSrc w + i * (32 + 4 * sfuAux w) + 32 + 128 * k) 128 r.word s with
  | (some v, s) =>
    let wt := mergeWeight (rmax r.row) (r.row.getD i negInf32)
    let os := unpackVals .fp32 32 v
    updRun d c (fun r => { r with outs := r.outs.zipIdx.map fun o =>
      if 32 * k ≤ o.2 ∧ o.2 < 32 * k + 32 then addF32 (mulF32 wt (os.getD (o.2 - 32 * k) 0#32)) o.1 else o.1 }) s
  | (none, s) => s

/-- The merged sum of SMERGE. -/
def mergedSum (r : SfuRun) : BitVec 32 :=
  (r.row.zip r.row2).foldl (fun l ml => addF32 (mulF32 (mergeWeight (rmax r.row) ml.1) ml.2) l) 0#32

/-- Result block `k` of SMERGE is written, with RAW = 1 also the header (R99, R100). -/
def sfuOut (d : Stack) (c : CoreIx) (t k : Nat) (r : SfuRun) (s : State) : State :=
  let w := r.w
  let os := (r.outs.drop (32 * k)).take 32
  let l := mergedSum r
  if sfuRaw w then
    let head := (rmax r.row).toNat + 2 ^ 32 * l.toNat
    let s := if k = 0 then markSfu d c .fp32 head 0 2 false (amemWrite d c t (sfuDst w) 32 head r.word s) else s
    let codes := packCodes 32 (os.map (·.toNat))
    markSfu d c .fp32 codes 0 32 false (amemWrite d c t (sfuDst w + 32 + 128 * k) 128 codes r.word s)
  else
    let rc := if isZeroVal (decF32 l) then 0#32 else rcpF32 l
    let f := sfuFout w
    putBlockNow d c t r.word f (sfuDst w + k * blockStride f) (sfuDst w + sfuAux w / 32 * blockStride f + k)
      (os.map fun o => mulF32 o rc) true s

/-- One stage of the SFU word in progress, in cycle `t`. -/
def sfuNow (d : Stack) (c : CoreIx) (t : Nat) (st : SfuStage) (k : Nat) (s : State) : State :=
  match (getCore s d c).sfu with
  | none => s
  | some r =>
    match st with
    | .scalar => match amemRead d c t (sfuSrc2 r.w) 4 r.word s with
      | (some v, s) => updRun d c (fun r => { r with scalar := BitVec.ofNat 32 v }) s
      | (none, s) => s
    | .elem => sfuElem d c t k r s
    | .func => sfuFuncBlock d c t k r s
    | .row => match readIn d c t r.word (sfuSrc r.w + k * finBytes r.w) r.w s with
      | (some xs, s) => updRun d c (fun r => { r with row := r.row ++ xs.map (softIn r.w r.scalar) }) s
      | (none, s) => s
    | .rowEnd => sfuRowEnd d c t r s
    | .pass2 => sfuPass2 d c t k r s
    | .pass2End => sfuPass2End d c r s
    | .pass3 => sfuPass3 d c t k r s
    | .head => match amemRead d c t (sfuSrc r.w + k * (32 + 4 * sfuAux r.w)) 8 r.word s with
      | (some v, s) => updRun d c (fun r =>
          { r with row := r.row ++ [BitVec.ofNat 32 v], row2 := r.row2 ++ [BitVec.ofNat 32 (v / 2 ^ 32)] }) s
      | (none, s) => s
    | .merge => sfuMerge d c t k r s
    | .out => sfuOut d c t k r s

end Sys2Proof.Machine
end

