-- ==== Sys2Proof/Machine/Timetable.lean ====
section
/-! DEFINITION. Starting and releasing BPs from a step program (R148, R149, R263), and the timetable of a core: what every
entry does, and running the entries up to a cycle or up to the next one of a kind. -/
namespace Sys2Proof.Machine

/-! ### BPSTART words -/

/-- Is a START or RELEASE word malformed (R148)? -/
def badBpWord (w : BitVec 128) : Bool :=
  wordEmask w ≠ 0 || wbits w 127 98 ≠ 0 || (wbits w 27 24 == 2 && (wbits w 65 52 ≠ 0 || wbits w 97 66 ≠ 0))

/-- The BPs that a mask names. -/
def bpMask (w : BitVec 128) : List Nat := (List.range 24).filter fun j => (wbits w 51 28).testBit j

/-- The cycle of the mc in which a word issued in cycle `t` reaches a BP: mc ⌈(t + 4) ÷ 2⌉ of the step (R149). -/
def bpReach (x : Core) (t : Nat) : Nat := x.start + (t - x.start + 5) / 2 * 2

/-- Would a grid that starts in mc `w0` put a fifth group's window data into an mc (R263)? -/
def gridFull (s : State) (d : Stack) (c : CoreIx) (j w0 : Nat) : Bool :=
  (List.range 20).any fun i =>
    let m := (w0 + 4096 - 64 + 34 + i) % 4096
    decide (4 ≤ ((List.range 24).filter fun n =>
      let b := getBp s d c n
      n ≠ j && b.owned && decide ((m + 4096 + 64 - b.w0 % 4096) % 4096 ≥ 34) && decide ((m + 4096 + 64 - b.w0 % 4096) % 4096 ≤ 53)).length)

/-- A START word issues in cycle `t`: BPs of groups that are not NEAR fault, the others start when the word reaches them. -/
def issueBpStart (d : Stack) (c : CoreIx) (w : BitVec 128) (word t : Nat) (s : State) : State :=
  forAll (bpMask w) (fun j s =>
    if !isNear s d c j then bpFault d c j bfRole 0 0 0 s
    else schedule d c (bpReach (getCore s d c) t) word (.bpStart j (wbits w 65 52 * 2) (wbits w 97 66)) s) s

/-- A RELEASE word issues. -/
def issueBpRelease (d : Stack) (c : CoreIx) (w : BitVec 128) (word t : Nat) (s : State) : State :=
  forAll (bpMask w) (fun j s => schedule d c (bpReach (getCore s d c) t) word (.bpRelease j) s) s

/-- A START reaches a BP in cycle `t`: a running one faults BP_BUSY; the others start, and take ownership of their group. What an
earlier program of the step left pending (results, banks not ready, runs of the group bus) stays so (R142, R149, R169). -/
def bpStartNow (d : Stack) (c : CoreIx) (t word j entry arg : Nat) (s : State) : State :=
  let x := getCore s d c
  let b := getBp s d c j
  let m := (t - x.start) / 2
  if bpRunsAt b m then bpFault d c j bfBusy 0 0 (m - b.started) s
  else if !b.owned && gridFull s d c j m then ownFault d c fVbusConflict 7 8 word t s
  else
    updBp d c j (fun b =>
      { b with run := .running, pc := BitVec.ofNat 32 entry, sel := x.sel, started := m, mc := m,
               x := sput 0 (sput 0 (sput 0 b.x 10 (BitVec.ofNat 32 arg)) 11 (BitVec.ofNat 32 j)) 12 (BitVec.ofNat 32 x.sel),
               owned := true, w0 := if b.owned then b.w0 else m, win := if b.owned then b.win else 1 }) s

/-- A RELEASE reaches a BP: a running one faults BP_BUSY; a group that is owned returns in the mc after, another is left alone. -/
def bpReleaseNow (d : Stack) (c : CoreIx) (t word j : Nat) (s : State) : State :=
  let b := getBp s d c j
  let m := (t - (getCore s d c).start) / 2
  if bpRunsAt b m then bpFault d c j bfBusy 0 0 (m - b.started) s
  else if b.owned then schedule d c (t + 2) word (.bpReturn j) s else s

/-- A released group returns to the controller, unless a START has reached its BP meanwhile. -/
def bpReturnNow (d : Stack) (c : CoreIx) (j : Nat) (s : State) : State :=
  if (getBp s d c j).run = .running then s else updBp d c j (fun b => { b with owned := false }) s

/-! ### Fetches (R65, R290) -/

/-- A bad code word of a fetch is recorded at unit 4; one of the S-code is read again. -/
def fetchBad (d : Stack) (c : CoreIx) (a : Nat) (o : CodeOutcome) (s : State) : State :=
  let x := getCore s d c
  match o with
  | .mismatch => recordErr (.core d c) 4 kLCrc x.sel a s
  | _ =>
    let (j, off) := mapVault s d c a
    let s := recordErr (.core d c) 4 kFetchUe x.sel a (if o = .uncorrectable then markRow d c j off s else s)
    updVc d c (fun v => { v with rechecks := v.rechecks ++ [⟨a, true⟩] }) s

/-- The words of a fetch are ready: an error in one of their code words traps the sequencer and poisons the step. -/
def fetchReadyNow (d : Stack) (c : CoreIx) (bad : List (Nat × CodeOutcome)) (s : State) : State :=
  if bad.isEmpty then s
  else forAll bad (fun p s => fetchBad d c p.1 p.2 s) (updCore d c (fun x => { x with trapped := true }) (poisonStep d c s))

/-! ### The timetable -/

/-- What an entry of the timetable does in its cycle; `u`: upsets on the vertical interface for the beat that it moves. -/
def runAct (d : Stack) (c : CoreIx) (u : Upsets) (e : Timed) (s : State) : State :=
  let t := e.key / 8
  let w := e.word
  match e.act with
  | .macRead p acc init fa fw code scl entry cyc i op got => macReadNow d c t w p acc init fa fw code scl entry cyc i op got s
  | .macUpd p acc init vals => macUpdNow d c p acc init vals s
  | .opEntry p n ix f code scl last => opEntryNow d c t w p n ix f code scl last s
  | .drainRead v ok => drainReadNow d c t w v ok s
  | .epiScalar v => epiScalarNow d c t w v s
  | .epiBlock v n q vals => epiBlockNow d c t w v n q vals s
  | .putBlock f dst scl vals sfu => putBlockNow d c t w f dst scl vals sfu s
  | .putBytes dst n v => amemWrite d c t dst n v w s
  | .accRead p acc off q => accReadNow d c t w p acc off q s
  | .accWrite p acc q vals => updCore d c (setAcc p acc (32 * q) vals) s
  | .beatIn ch va ta issue => beatInNow d c t w ch va ta issue u s
  | .beatOut _ va ta last u => beatOutNow d c t w va ta last u s
  | .bpSample ch va ta => bpSampleNow d c t w ch va ta s
  | .bpDeliver ch ta data => bpDeliverNow d c t w ch ta data u s
  | .bpSend ch va ta u => bpSendNow d c t w ch va ta u s
  | .bpPlace _ va data => bpPlaceNow d c t va data s
  | .fetchReady bad => fetchReadyNow d c bad s
  | .fetchBus => noteBus d c t s
  | .sfu st k => sfuNow d c t st k s
  | .sendBeat off _ => sendBeatNow d c t w off s
  | .sendHeader grp cidx boff n => sendHeaderNow d c t grp cidx boff n s
  | .recvBeat off last => recvBeatNow d c t w off last s
  | .portBeat b => portBeatNow d c t b s
  | .portEnd => portEndNow d c t s
  | .bpStart j entry arg => bpStartNow d c t w j entry arg s
  | .bpRelease j => bpReleaseNow d c t w j s
  | .bpReturn j => bpReturnNow d c j s
  | .addResult grp b => addResultNow d c t grp b u s
  | .ldmaIn k sa u => ldmaInNow d c t w k sa u s
  | .ldmaOut k sa last => ldmaOutNow d c t k sa last s
  | .stageBeat b => stageBeatNow d (clusterOf c) b s
  | .lpBeat b => lpPortBeat d (clusterOf c) (t - (getDie s d).stepStart) b s

/-- Takes the first entry off a core's timetable and runs it. -/
def runFirst (d : Stack) (c : CoreIx) (u : Upsets) (e : Timed) (rest : List Timed) (s : State) : State :=
  runAct d c u e (updCore d c (fun x => { x with agenda := rest }) s)

/-- Runs entries below the place `lim`, at most `n` of them. -/
def settleN (d : Stack) (c : CoreIx) (lim : Nat) : Nat → State → State
  | 0, s => s
  | n + 1, s =>
    match (getCore s d c).agenda with
    | e :: r => if e.key < lim then settleN d c lim n (runFirst d c [] e r s) else s
    | [] => s

/-- Runs every entry of a core before cycle `t`. An entry makes at most a few new ones. -/
def settle (d : Stack) (c : CoreIx) (t : Nat) (s : State) : State :=
  settleN d c (8 * t) (8 * (getCore s d c).agenda.length + 64) s

/-- Runs entries up to and with the first one of a kind, which takes the upsets. -/
def runUntilN (d : Stack) (c : CoreIx) (u : Upsets) (ok : Act → Bool) : Nat → State → State
  | 0, s => s
  | n + 1, s =>
    match (getCore s d c).agenda with
    | e :: r =>
      if ok e.act then updCore d c (fun x => { x with now := max x.now (e.key / 8) }) (runFirst d c u e r s)
      else runUntilN d c u ok n (runFirst d c [] e r s)
    | [] => s

/-- Runs a core's timetable up to and with its next entry of a kind; without one nothing happens. -/
def runUntil (d : Stack) (c : CoreIx) (u : Upsets) (ok : Act → Bool) (s : State) : State :=
  if (getCore s d c).agenda.any fun e => ok e.act
  then runUntilN d c u ok (8 * (getCore s d c).agenda.length + 64) s else s

end Sys2Proof.Machine
end

