-- ==== Sys2Proof/Machine/Sequencer.lean ====
section
/-! DEFINITION. The core sequencer: launching a step (R66, R83), fetching (R65), issuing words in normal and elastic mode (R67
to R69, R79), and the end of a step (R78, R119, R149, R151). -/
namespace Sys2Proof.Machine

/-! ### Words of the running program -/

/-- The next word of a program with the cycle in which it is ready: the head store's first 16 words, then the fetch queue. -/
def nextWord (s : State) (d : Stack) (c : CoreIx) : Option (Nat × BitVec 128) :=
  let x := getCore s d c
  if x.progWords ≤ x.wordIx then none
  else if x.wordIx < 16 then
    let n := 32 * x.sel + 2 * x.wordIx
    some (0, getReg s (r_HEAD_STORE d c (n + 1)) ++ getReg s (r_HEAD_STORE d c n))
  else x.queue.head?

/-- The words of 256 bytes of a program. -/
def splitWords (n v : Nat) : List (BitVec 128) := (List.range n).map fun i => BitVec.ofNat 128 (v / 2 ^ (128 * i))

/-- A fetch slot comes (R65). It fetches the next 16 words when the queue has room and its bus cycle is free. -/
def fetchSlot (d : Stack) (c : CoreIx) (u : Upsets) (s : State) : State :=
  let x := getCore s d c
  if !x.running || x.trapped || x.stopped then s
  else
    let t := x.nextSlot
    let s := updCore d c (fun x => { x with nextSlot := t + x.fper, now := max x.now t }) (settle d c t s)
    let x := getCore s d c
    let left := x.progWords - x.nextFetch
    let adder := x.agenda.any fun e => e.key / 8 == t + 92 && match e.act with | .addResult .. => true | _ => false
    if left = 0 ∨ 2048 < x.queue.length + 16 ∨ busHeld s d c (t + 92) ∨ adder then s
    else
      let n := min 16 left
      let va := x.progAddr + 16 * x.nextFetch
      let (v, bad, s) := loadBeat d c va u s
      let s := updCore d c (fun x => { x with queue := x.queue ++ (splitWords n v).map fun w => (t + 93, w), nextFetch := x.nextFetch + n }) s
      schedule d c (t + 92) 0 (.fetchReady bad) (schedule d c (t + 92) 0 .fetchBus s)

/-! ### Launch (R66, R83, R131) -/

/-- A launch reaches a core in cycle `t` (R131): it waits for its start; one before INIT_DONE (R85) and a second one are LAUNCH
faults. A core that is not enabled ignores launches. -/
def coreLaunch (d : Stack) (c : CoreIx) (sel : Nat) (elastic : Bool) (t : Nat) (s : State) : State :=
  if getF s (r_CORE_CTRL d c) f_CORE_CTRL_EN = 0 then s
  else
    let x := getCore s d c
    if getF s (r_CORE_STATUS d c) f_CORE_STATUS_INIT_DONE = 0 ∨ x.held.isSome then seqFault d c fLaunch x.wordIx x.now s
    else updCore d c (fun x => { x with held := some ⟨sel, elastic, t, getF s (r_FLASH_THUNDER d) f_FLASH_THUNDER_COUNT⟩ }) s

/-- May a step-table entry launch (R66)? -/
def entryValid (e : Word) : Bool :=
  fieldOf f_STEP_TABLE_VALID e == 1 && decide (16 ≤ fieldOf f_STEP_TABLE_FPER e) &&
    decide (256 * fieldOf f_STEP_TABLE_ADDR e + 16 * fieldOf f_STEP_TABLE_NWORDS e ≤ dramEnd)

/-- The first multiple of `p` at or after `t`. -/
def roundUp (t p : Nat) : Nat := (t + p - 1) / p * p

/-- The latest cycle that a core of a die has reached. -/
def dieNow (s : State) (d : Stack) : Nat := allCores.foldl (fun m c => max m (getCore s d c).now) 0

/-- The cycle in which a core starts the step of a launch that it holds: in normal mode the arrival plus the thunder count (R129);
in elastic mode the arrival, or the end of the die's last step, and up to two cycles that the crossings may add (R133). -/
def startCycle (s : State) (d : Stack) (h : HeldLaunch) (gap : Nat) : Nat :=
  if h.elastic then max h.arrive (dieNow s d) + min gap 2 else h.arrive + h.thunder

/-- The epilogue descriptors as a launch finds them (R108). -/
def epiSnapshot (s : State) (d : Stack) (c : CoreIx) : SMap Word :=
  (List.range 256).foldl (fun m n => sput 0 m n (getReg s (r_EPI_DESC d c n))) []

/-- A request's arrival, counted in mc from a step start that is `n` mc later. -/
def rebaseReq (n : Nat) (r : HostReq) : HostReq := { r with arrived := r.arrived - n }

/-- A group's arrival state with its result window counted from a step start that is `n` cycles later. -/
def rebaseGroup (n : Nat) (g : AddGroup) : AddGroup :=
  { g with first := g.first.map (· - n), lastAt := g.lastAt - n, resultEnd := g.resultEnd - n }

/-- A BP's pending times counted from a step start that is `n` mc later. -/
def rebaseBp (n : Nat) (b : Bp) : Bp :=
  { b with ready := b.ready.foldl (fun m e => sput 0 m e.1 (e.2 - n)) [],
           busTaken := (b.busTaken.filter fun r => decide (n < r.1 + r.2)).map fun r => (r.1 - n, r.2 - (n - r.1)), scratchUse := [] }

/-- A die's controllers restart their grids with a step (R262, R271): windows and LPDDR frames; what waits or is still on its way
keeps its time. SLOTPH runs on, and the routers' and links' counts of the step start anew. -/
def dieStepStart (d : Stack) (t : Nat) (s : State) : State :=
  let old := (getDie s d).stepStart
  if old = t then s
  else
    let s := updDie d (fun y => { y with stepStart := t, phase := (y.phase + (t - old)) % 4096, linkFree := [], segNow := false }) s
    let s := updLp d (fun p => { p with frame := 0, bursts := [], activates := [], written := [], halted := false,
                                        groups := p.groups.map fun g => (g.1, rebaseGroup (t - old) g.2) }) s
    let s := forAll allClusters (fun k s => updRouter d k (fun r => { r with stagedIn := 0, stagedOut := 0, moved := [] }) s) s
    let s := forAll allCores (fun c s => forAll (List.range 24) (fun j s => updBp d c j (rebaseBp ((t - old) / 2)) s) s) s
    forAll allCores (fun c s => updVc d c (fun v =>
      { v with win := 0, queue := v.queue.map fun q => (q.1, q.2.map (rebaseReq ((t - old) / 2))) }) s) s

/-- The core starts the step of launch `h`: step program STEP_TABLE[selector] (R66), in cycle `t`. A core disabled meanwhile, or
whose stack has left its partition, starts nothing (R29, R86). -/
def startStep (d : Stack) (c : CoreIx) (h : HeldLaunch) (t : Nat) (s : State) : State :=
  let s := updCore d c (fun x => { x with held := none }) s
  if getF s (r_CORE_CTRL d c) f_CORE_CTRL_EN = 0 ∨ partOf s d = none then s else
  let s := dieStepStart d t (settle d c t s)
  let a := r_CORE_CTRL d c
  let st := r_CORE_STATUS d c
  let s := bumpF st f_CORE_STATUS_STEPS 1 s
  let s := if getF s a f_CORE_CTRL_ROT_EN = 1
    then putF a f_CORE_CTRL_ROT ((getF s a f_CORE_CTRL_ROT + 1) % max 1 (engineCount s d c)) s else s
  let e := getReg s (r_STEP_TABLE d c h.sel)
  let s := updCore d c (fun x => { x with start := t, now := max x.now t }) s
  if !entryValid e then seqFault d c fLaunch 0 t s
  else
    let s := putF st f_CORE_STATUS_SEL h.sel (putF st f_CORE_STATUS_ELASTIC (if h.elastic then 1 else 0) (putF st f_CORE_STATUS_RUNNING 1 s))
    let s := forAll (List.range 4) (fun n s =>
      let g := r_ENG_STATUS d c n
      putF g f_ENG_STATUS_BLOCKS 0 (putF g f_ENG_STATUS_PHYS (if n < engineCount s d c then physEngine s d c n else 0) s)) s
    let s := writeByte (tileKey d c (amemBase + poisonOff)) 0#8 s
    updCore d c (fun x =>
      { x with running := true, ended := false, trapped := false, stopped := false, poisoned := false, elastic := h.elastic, sel := h.sel,
               progAddr := 256 * fieldOf f_STEP_TABLE_ADDR e, progWords := fieldOf f_STEP_TABLE_NWORDS e,
               fper := fieldOf f_STEP_TABLE_FPER e, wordIx := 0, base := t, classes := [], queue := [], nextFetch := 16, nextSlot := t,
               chHalted := [], port := none, portQ := [], recvWait := [], header := none, portLost := false, gateWord := none,
               epi := epiSnapshot s d c }) s

/-! ### Issue -/

/-- The class place of a word, and the mask of logical engines that the core lacks. -/
def engineAbsent (s : State) (d : Stack) (c : CoreIx) (w : BitVec 128) : Bool :=
  (maskEngines (wordEmask w)).any fun e => decide (engineCount s d c ≤ e)

/-- Is a word of class 0x1 to 0x5? -/
def isEngineWord (w : BitVec 128) : Bool := decide (1 ≤ wordClass w) && decide (wordClass w ≤ 5)

/-- Does an earlier MAC occupy an engine of the mask, or does a SWAP of this cycle leave it no block (R62, R67)? A load may
proceed during any MAC stream (R62, R80). -/
def engineBusy (s : State) (d : Stack) (c : CoreIx) (w : BitVec 128) (t : Nat) : Bool :=
  wordClass w ≠ 2 && (maskEngines (wordEmask w)).any fun e =>
    let g := getEng (getCore s d c) (physEngine s d c e)
    decide (t < g.busyUntil) || (wordClass w == 1 && g.swapAt == t + 1)

/-- Is a word malformed (R69)? A word that no row of the table other than NOP names is one unless it is a NOP. -/
def badWord (s : State) (d : Stack) (c : CoreIx) (w : BitVec 128) (t : Nat) : Bool :=
  match rowOf w with
  | .nop => wordClass w ≠ 0 || wbits w 127 20 ≠ 0
  | .endWord => wbits w 127 20 ≠ 0
  | .mac => badMac w
  | .opload => badOpload w
  | .swap => wbits w 127 24 ≠ 0
  | .drain => badDrain (getCore s d c) w
  | .accld => badAccld w
  | .vdma => badVdma w
  | .sfu _ => badSfu w
  | .send | .recv | .rsend => badFabric w
  | .route => badRoute s d c w
  | .bpStart | .bpRelease => badBpWord w
  | .ldmaRead | .ldmaWrite | .ldmaGather => badLdma w (t - (getCore s d c).start)

/-- The module runs at the Thaw rate until the full-rate switch (R369, R371). -/
def thawed (s : State) : Bool := !s.bring.full

/-- A well-formed word of a free class place issues in cycle `t` and has its effect; `ups`: the upsets that its beats or sectors meet. The
engines of a core whose EN firmware has cleared stay idle (R86, log entry 78). -/
def issueWord (d : Stack) (c : CoreIx) (ups : List Upsets) (w : BitVec 128) (ix t : Nat) (s : State) : State :=
  if isEngineWord w && getF s (r_CORE_CTRL d c) f_CORE_CTRL_EN == 0 then s
  else if isEngineWord w && engineAbsent s d c w then seqFault d c fEngineAbsent ix t s
  else if isEngineWord w && engineBusy s d c w t then seqFault d c fIssueConflict ix t s
  else match rowOf w with
    | .nop => s
    | .endWord => updCore d c (fun x => { x with ended := true }) s
    | .mac => issueMac d c w ix t s
    | .opload => issueOpload d c w ix t s
    | .swap => issueSwap d c w ix t s
    | .drain => issueDrain d c w ix t s
    | .accld => issueAccld d c w ix t s
    | .vdma => issueVdma d c ups w ix t s
    | .sfu _ => issueSfu d c w ix t s
    | .send => issueSend d c w ix t s
    | .recv => issueRecv d c w ix t s
    | .rsend => issueRsend d c w ix t s
    | .route => issueRoute d c w t s
    | .bpStart => issueBpStart d c w ix t s
    | .bpRelease => issueBpRelease d c w ix t s
    | .ldmaRead | .ldmaWrite | .ldmaGather => issueLdma d c ups w ix t (thawed s) s

/-- The checks on a word in the cycle of its issue, in order: BAD_WORD, which takes no class place; a class that has issued
in this cycle; then the word itself, with what else its issue brings (`also`). A class 0x1 to 0x5 word with EMASK = 0
that is also malformed is BAD_WORD (DESIGN CHOICE, log entry 32: R68 says that EMASK = 0 raises no fault, R69 that a malformed word of any class does). -/
def checkWord (d : Stack) (c : CoreIx) (also : State → State) (ups : List Upsets) (w : BitVec 128) (ix t : Nat) (s : State) : State :=
  if badWord s d c w t then seqFault d c fBadWord ix t s
  else if (getCore s d c).classes.contains (wordClass w) then seqFault d c fIssueConflict ix t s
  else also (issueWord d c ups w ix t (updCore d c (fun x => { x with classes := x.classes ++ [wordClass w] }) s))

/-! ### Waits of elastic mode (R79) -/

/-- The ranges of activation memory that an epilogue reads beside its accumulators (R105, R106). -/
def epiReads (desc : Word) : List (Nat × Nat) :=
  let g := fun f => fieldOf f desc
  (if g f_EPI_DESC_BIAS_EN = 1 then [(g f_EPI_DESC_BIAS_ADDR, if g f_EPI_DESC_BIAS_FMT = 1 then 256 else 512)] else []) ++
    match g f_EPI_DESC_SCL_MODE with
    | 1 => [(g f_EPI_DESC_SCL_ADDR, 4)]
    | 2 => [(g f_EPI_DESC_SCL_ADDR, 512)]
    | _ => []

/-- The ranges of activation memory that a word reads. -/
def amemReads (x : Core) (w : BitVec 128) : List (Nat × Nat) :=
  match rowOf w with
  | .opload =>
    let f := (laneFmt (wbits w 27 24)).getD .e2m1
    (List.range (maskEngines (wordEmask w)).length).flatMap fun e =>
      [(wbits w 48 28 + e * wbits w 97 81 * 16, wbits w 75 70 * blockStride f), (wbits w 69 49 + e * wbits w 114 98, wbits w 75 70)]
  | .drain => if wbits w 83 76 = 0 then [] else epiReads (sget 0 x.epi (wbits w 83 76))
  | .accld => (List.range (maskEngines (wordEmask w)).length).map fun e => (wbits w 49 29 + e * wbits w 66 50 * 16, 512)
  | .sfu op => (sfuInputs w).map (fun r => (r.1, r.2.1)) ++ if op = 0x05 then [(sfuDst w, sfuOutLen w)] else []
  | .send | .rsend => [(fabAddr w, 128 * fabBeats w)]
  | _ => []

/-- The ranges of tile memory that a word reads. -/
def wordReads (x : Core) (w : BitVec 128) : List (Nat × Nat) :=
  if rowOf w = .vdma then (if vdmaDir w = 1 then [(vdmaTaddr w, 256 * vdmaBeats w)] else [])
  else (amemReads x w).map fun r => (amemBase + r.1, r.2)

/-- The ranges of its cluster's staging memory that a word reads. -/
def stagingReads (w : BitVec 128) : List (Nat × Nat) :=
  match rowOf w with
  | .ldmaWrite => [(ldmaSoff w, 64 * ldmaN w)]
  | .ldmaGather => [(ldmaLoff w, 4 * ldmaN w)]
  | _ => []

/-- The bytes of tile memory that an act of an inbound transfer brings. -/
def actBrings : Act → Option (Nat × Nat)
  | .beatIn _ _ ta _ | .bpSample _ _ ta | .bpDeliver _ ta _ => some (ta, 256)
  | .recvBeat off _ => some (amemBase + off, 128)
  | _ => none

/-- The bytes of staging memory that an act of an inbound transfer brings. A beat of the fabric may go to any place in it (log
entry 3). -/
def actStages : Act → Option (Nat × Nat)
  | .ldmaIn _ sa _ => some (sa, 64)
  | .stageBeat _ => some (0, stagingSize)
  | _ => none

/-- Do two ranges meet? -/
def rangesMeet (a b : Nat × Nat) : Bool := decide (a.1 < b.1 + b.2) && decide (b.1 < a.1 + a.2)

/-- The cycle after the last inbound transfer of data that a word needs, or the granules that a MAC needs. -/
def transferEnd (x : Core) (w : BitVec 128) : Nat :=
  let rs := wordReads x w
  let gs := if rowOf w = .mac then
      let fw := (laneFmt (wbits w 31 28)).getD .e2m1
      (List.range (wbits w 74 69)).flatMap fun k =>
        codeGranules fw (wbits w 42 32 * 16 + k * blockStride fw) ++ if fmtScaled fw then [(wbits w 57 43 + k) / 16] else []
    else []
  x.agenda.foldl (fun m e =>
    let data := match actBrings e.act with | some r => rs.any (rangesMeet r) | none => false
    let gran := match actGranule e.act with | some g => gs.contains g | none => false
    if data || gran then max m (e.key / 8 + 1) else m) 0

/-- The cycle after the last transfer that brings staging data which a word needs, over the cores of its cluster. -/
def stagingEnd (s : State) (d : Stack) (c : CoreIx) (w : BitVec 128) : Nat :=
  let rs := stagingReads w
  if rs.isEmpty then 0
  else allCores.foldl (fun m e =>
    if clusterOf e ≠ clusterOf c then m
    else (getCore s d e).agenda.foldl (fun m a =>
      match actStages a.act with
      | some r => if rs.any (rangesMeet r) then max m (a.key / 8 + 1) else m
      | none => m) m) 0

/-- The first cycle from `t` on whose step offset is a multiple of 9 (R273). -/
def nextBurst (x : Core) (t : Nat) : Nat := x.start + roundUp (t - x.start) 9

/-- The earliest cycle in which an elastic word may issue: not before its nominal cycle or its arrival in the queue, after the
load that a SWAP waits for, the result that a VDMA read waits for, and the transfers whose data it needs. -/
def elasticCycle (s : State) (d : Stack) (c : CoreIx) (w : BitVec 128) (nominal ready : Nat) : Nat :=
  let x := getCore s d c
  let t := max (max nominal ready) (max (transferEnd x w) (stagingEnd s d c w))
  match rowOf w with
  | .swap => (maskEngines (wordEmask w)).foldl (fun m e => max m (getEng x (physEngine s d c e)).bgEnd) t
  | .vdma =>
    if vdmaDir w = 0 then
      match earlyGroup s d c (vdmaVaddr w) (256 * vdmaBeats w) t with
      | some g => max t ((sget AddGroup.reset (getVc s d c).groups g).resultEnd + 1)
      | none => t
    else t
  | .ldmaRead | .ldmaGather =>
    match lpEarlyGroup s d (ldmaSectors s d (clusterOf c) w) (t - x.start) with
    | some g => nextBurst x (max t (x.start + (sget AddGroup.reset (getLp s d).groups g).resultEnd + 1))
    | none => nextBurst x t
  | .ldmaWrite => nextBurst x t
  | _ => t

/-- Must an elastic word still wait for something whose time is not known: a RECV's beats, an unfinished reduction? -/
def elasticBlocked (s : State) (d : Stack) (c : CoreIx) (w : BitVec 128) (t : Nat) : Bool :=
  let x := getCore s d c
  (x.recvWait.any fun r => (wordReads x w).any (rangesMeet (amemBase + r.1, 128))) ||
    (rowOf w = .vdma && vdmaDir w == 0 && (earlyGroup s d c (vdmaVaddr w) (256 * vdmaBeats w) t).isSome) ||
    ((rowOf w == .ldmaRead || rowOf w == .ldmaGather) && (lpEarlyGroup s d (ldmaSectors s d (clusterOf c) w) (t - x.start)).isSome)

/-- The sequencer passes on to the next word: the word's cycle is the base of the next one's DELTA (R67). -/
def passWord (d : Stack) (c : CoreIx) (t : Nat) (s : State) : State :=
  updCore d c (fun x =>
    { x with queue := if x.wordIx < 16 then x.queue else x.queue.drop 1, wordIx := x.wordIx + 1, base := t, now := max x.now t,
             classes := if t = x.base then x.classes else [] }) s

/-- The next word of a core issues if it is one of row `row`; else the command finds nothing to do; `ups`: the upsets that its beats or
sectors meet; `also`: what else the issue of the word brings. -/
def issueRow (d : Stack) (c : CoreIx) (row : BitVec 128 → Bool) (also : State → State) (ups : List Upsets) (s : State) : State :=
  let x := getCore s d c
  if !x.running || x.ended || x.trapped || x.stopped then s
  else match nextWord s d c with
    | none => s
    | some (ready, w) =>
      if !row w then s
      else
        let nominal := x.base + wbits w 15 0
        let ix := x.wordIx
        if x.elastic then
          let t := elasticCycle s d c w nominal ready
          let s := settle d c t s
          if (getCore s d c).trapped || elasticBlocked s d c w t then s else checkWord d c also ups w ix t (passWord d c t s)
        else
          let s := settle d c nominal s
          if (getCore s d c).trapped then s
          else if nominal < ready then seqFault d c fWordLate ix nominal (passWord d c nominal s)
          else checkWord d c also ups w ix nominal (passWord d c nominal s)

/-! ### The end of a step -/

/-- Is a BP of a core running in mc `m` of the step? -/
def bpsRunning (s : State) (d : Stack) (c : CoreIx) (m : Nat) : Bool := (List.range 24).any fun j => bpRunsAt (getBp s d c j) m

/-- A BP is stopped: its merge entries are discarded and its group returns to the controller (R151). -/
def stopBp (d : Stack) (c : CoreIx) (j : Nat) (s : State) : State :=
  updBp d c j (fun b => { b with run := if b.run = .running then .halted else b.run, merge := [], owned := false }) s

/-- The end offset of a core's step: END not issued is OVERRUN, a running BP is BP_OVERRUN; both are waits in elastic mode. -/
def coreStepEnd (d : Stack) (c : CoreIx) (len : Nat) (s : State) : State :=
  let x := getCore s d c
  if !x.running then s
  else if x.elastic && (!x.ended || bpsRunning s d c (len / 2) || !x.recvWait.isEmpty) && !x.trapped then s
  else
    let t := x.start + len
    let s := settle d c t s
    let x := getCore s d c
    let s := if !x.ended && !x.trapped then seqFault d c fOverrun x.wordIx t s else s
    let s := forAll (List.range 24) (fun j s =>
      let b := getBp s d c j
      let s := if bpRunsAt b (len / 2) then bpFault d c j bfOverrun 0 b.pc.toNat (len / 2 - b.started) s else s
      if b.run = .running || b.owned then stopBp d c j s else s) s
    putF (r_CORE_STATUS d c) f_CORE_STATUS_RUNNING 0
      (updCore d c (fun x => { x with running := false, ended := true, now := max x.now t, portQ := [], recvWait := [] }) s)

/-- The router port of a beat that has not left its router for a core, staging memory or the LPDDR adder. -/
def leavingPort (c : CoreIx) : Act → Option Nat
  | .portBeat _ => some (c.val % 4)
  | .stageBeat _ => some 4
  | .lpBeat _ => some 8
  | _ => none

/-- At a die's end offset, beats that have not left its routers for their destinations are discarded as STRAY (R119). -/
def leavingStrays (d : Stack) (c : CoreIx) (len : Nat) (s : State) : State :=
  let s := settle d c ((getDie s d).stepStart + len) s
  let ps := (getCore s d c).agenda.filterMap fun e => leavingPort c e.act
  let s := updCore d c (fun x => { x with agenda := x.agenda.filter fun e => (leavingPort c e.act).isNone }) s
  forAll ps (fun p s => routerFault d (clusterOf c) rfStray p len s) s

/-- A step of a die reaches its end offset (R119, R149). In elastic mode a die whose step is not complete waits (R79). -/
def stepEnd (d : Stack) (len : Nat) (s : State) : State :=
  if dieElastic s d then
    let s := forAll allCores (fun c s => coreStepEnd d c len s) s
    let mine := fun (f : Flight) => f.die == d.val && !f.transit
    if dieRuns s d || s.flights.any mine || s.crossings.any mine then s else forAll allClusters (fun k s => routerIdle d k s) s
  else
    let s := forAll allCores (fun c s => leavingStrays d c len s) s
    fabricStepEnd d len (forAll allCores (fun c s => coreStepEnd d c len s) s)

end Sys2Proof.Machine
end

