-- ==== Sys2Proof/Machine/Flash.lean ====
section
/-! DEFINITION. The flash tree (R128 to R135, R139): die nodes, the root's launch queue and pauses, elastic mode, ABORT, and the
isolation of ports with what it floods (R136 to R138). -/
namespace Sys2Proof.Machine

/-! ### Messages between nodes -/

/-- The ports of a die that a mask names. -/
def maskPorts (m : Nat) : List Port := allPorts.filter fun p => m.testBit p.val

/-- A flash message leaves a die's node in cycle `cyc` through a port, to arrive 16 cycles later (R113, R128); an isolated port
drives its wires idle (R136). -/
def sendFlash (d : Stack) (k : FlashKind) (sel cyc : Nat) (p : Port) (s : State) : State :=
  if portIsolated s d p then s
  else match neighbour d p with
    | some e => { s with flash := s.flash ++ [⟨e.val, (opposite p).val, k, sel, 0, cyc + 16⟩] }
    | none => s

/-- Takes the first message of some kinds for a die. -/
def takeFlash (d : Stack) (ok : FlashKind → Bool) (s : State) : Option (FlashMsg × State) :=
  match s.flash.find? fun m => m.die == d.val && ok m.kind with
  | some m => some (m, { s with flash := s.flash.erase m })
  | none => none

/-- Does a message come in through a port that is isolated? Its wires are ignored (R136). -/
def closedTo (s : State) (d : Stack) (m : FlashMsg) : Bool := if h : m.port < 4 then portIsolated s d ⟨m.port, h⟩ else false

/-! ### ABORT (R139) -/

/-- The causes of FLASH_STATUS. -/
def cClockLoss : Nat := 1
def cParity : Nat := 2
def cDieReset : Nat := 3
def cLinkDown : Nat := 4
def cAbort : Nat := 5

/-- The number of the partition of a die. -/
def partIndex (s : State) (d : Stack) : Option Nat :=
  if s.present.contains d.val then s.parts.findIdx? fun p => inRect p d.val else none

/-- Does an act belong to a fabric transfer? -/
def fabricAct : Act → Bool
  | .sendBeat .. | .sendHeader .. | .recvBeat .. | .portBeat _ | .portEnd | .stageBeat _ | .lpBeat _ => true
  | _ => false

/-- A core stops issuing, and its BPs stop (R139, R151). -/
def stopCore (d : Stack) (c : CoreIx) (s : State) : State :=
  let s := if (getCore s d c).running then poisonStep d c s else s
  let s := forAll (List.range 24) (fun j s =>
    let b := getBp s d c j
    if b.run = .running || b.owned then stopBp d c j s else s) s
  putF (r_CORE_STATUS d c) f_CORE_STATUS_RUNNING 0 (updCore d c (fun x =>
    { x with running := false, stopped := true, held := none, portQ := [], recvWait := [], header := none,
             agenda := x.agenda.filter fun e => !fabricAct e.act }) s)

/-- The root die of a partition reports its halt: every lane of the partition stops, and PARTITION_HALTED is posted. -/
def reportHalt (d : Stack) (cause : Nat) (s : State) : State :=
  match partIndex s d with
  | some n =>
    if s.hub.haltedParts.contains n then s
    else raiseAlert alHalt (postEvent evPartitionHalted (subj2 n (dieNo d)) cause
      (forgetLaunches n (updHub (fun h => { h with haltedParts := h.haltedParts ++ [n] }) s)))
  | none => s

/-- A die node halts: its cores stop, the step's transfers are discarded, its routers carry transit only, HALTED is set. -/
def haltDie (d : Stack) (cause : Nat) (s : State) : State :=
  let a := r_FLASH_STATUS d
  let s := forAll allCores (fun c s => stopCore d c s) s
  let s := forAll allClusters (fun k s => routerIdle d k s) (dropStepBeats d s)
  let s := putF a f_FLASH_STATUS_CAUSE cause (putF a f_FLASH_STATUS_HALTED 1 s)
  let s := updDie d (fun y => { y with taken := none, sampled := none, segNow := false, done := [] }) s
  if getF s (r_FLASH_CTRL d) f_FLASH_CTRL_ROOT = 1 then reportHalt d cause s else s

/-- A die node floods ABORT on its member ports but `except`, and halts. A halted node floods nothing more. -/
def floodAbort (d : Stack) (cause : Nat) (except : Option Port) (s : State) : State :=
  if getF s (r_FLASH_STATUS d) f_FLASH_STATUS_HALTED = 1 then s
  else
    let s := forAll (maskPorts (getF s (r_FLASH_CTRL d) f_FLASH_CTRL_MEMBER)) (fun p s =>
      if except = some p then s else sendFlash d .abort 0 (dieNow s d) p s) s
    haltDie d cause s

/-- ABORT arrives at a die node (R139); one with a parity error makes the node flood ABORT itself (R130). -/
def abortArrive (d : Stack) (parityOk : Bool) (s : State) : State :=
  match takeFlash d (fun k => k == .abort) s with
  | some (m, s) =>
    if closedTo s d m then s
    else if !parityOk then floodAbort d cParity none s
    else floodAbort d cAbort (if h : m.port < 4 then some ⟨m.port, h⟩ else none) s
  | none => s

/-! ### LAUNCH (R128 to R130, R133) -/

/-- A launch arrives at a die node. A parity error floods ABORT; a halted die discards it; one that is not from IN is a stray; a die
of no partition runs no step (R29); else it is forwarded, and reaches every core 2 cycles later. -/
def launchArrive (d : Stack) (elastic parityOk : Bool) (s : State) : State :=
  match takeFlash d (fun k => k == (if elastic then .launchElastic else .launch)) s with
  | none => s
  | some (m, s) =>
    let a := r_FLASH_STATUS d
    if closedTo s d m then s
    else if !parityOk then floodAbort d cParity none s
    else if getF s a f_FLASH_STATUS_HALTED = 1 then s
    else if getF s (r_FLASH_CTRL d) f_FLASH_CTRL_IN ≠ m.port then satF a f_FLASH_STATUS_STRAY 1 s
    else if partOf s d = none then s
    else
      let s := bumpF a f_FLASH_STATUS_LAUNCHES 1 (putF a f_FLASH_STATUS_SEL m.sel
        (putF a f_FLASH_STATUS_ELASTIC_STEP (if elastic then 1 else 0) s))
      let s := updDie d (fun y => { y with done := [] }) s
      let s := forAll (maskPorts (getF s (r_FLASH_CTRL d) f_FLASH_CTRL_OUT)) (fun p s => sendFlash d m.kind m.sel m.cyc p s) s
      forAll allCores (fun c s => coreLaunch d c m.sel elastic (m.cyc + 2) s) s

/-- A die whose own station has asked for a stop floods ABORT in the first cycle of the next step start (R302). -/
def stopAtStart (d : Stack) (s : State) : State :=
  if (getDie s d).stopPending then floodAbort d cAbort none (updDie d (fun y => { y with stopPending := false }) s) else s

/-- A core starts the step of a launch; the flash root's core begins the partition's launch (R207). -/
def beginStep (d : Stack) (c : CoreIx) (h : HeldLaunch) (t : Nat) (s : State) : State := stepOpened d c (startStep d c h t s)

/-- The cores of a die whose elastic launch waits and whose step has ended start (R133). -/
def elasticStarts (d : Stack) (s : State) : State :=
  forAll allCores (fun c s =>
    let x := getCore s d c
    match x.held with
    | some h => if h.elastic && !x.running then beginStep d c h (startCycle s d h 0) s else s
    | none => s) s

/-! ### The root (R131, R132) -/

/-- FLASH_STATUS.LQ_COUNT follows the launch queue. -/
def showQueue (d : Stack) (s : State) : State := putF (r_FLASH_STATUS d) f_FLASH_STATUS_LQ_COUNT (getDie s d).lq.length s

/-- A write of FLASH_LQ enters an entry (R140): a bad length or a full queue enters nothing. -/
def queueWrite (d : Stack) (v : Word) (s : State) : State :=
  let a := r_FLASH_STATUS d
  let len := fieldOf f_FLASH_LQ_LEN16 v
  if len = 0 ∨ len * 16 % tper s d 0 ≠ 0 then putF a f_FLASH_STATUS_LQ_BAD 1 s
  else if 4 ≤ (getDie s d).lq.length then putF a f_FLASH_STATUS_LQ_OVF 1 s
  else showQueue d (updDie d (fun y => { y with lq := y.lq ++ [⟨fieldOf f_FLASH_LQ_SEL v, len * 16, fieldOf f_FLASH_LQ_TAG v⟩] }) s)

/-- The dies that start their steps together with a root: its partition's members. -/
def stepDies (s : State) (d : Stack) : List Stack := match partOf s d with | some p => members s p | none => []

/-- The pause P of R132 in units of 256 cc, and SEG consumed: the pause is then one in which the partition's dies may retrain. -/
def samplePause (d : Stack) (s : State) : Nat × State :=
  let a := r_FLASH_PAUSE d
  let g := fun f => getF s a f
  let seg := g f_FLASH_PAUSE_SEG
  let s := if seg = 0 then s else forAll (stepDies s d) (fun e s => updDie e (fun y => { y with segNow := true }) s) s
  (max (g f_FLASH_PAUSE_THERM) (max (g f_FLASH_PAUSE_POWER) (g f_FLASH_PAUSE_LAG)) + seg, putF a f_FLASH_PAUSE_SEG 0 s)


/-- May a die's root take or send launches? -/
def rootActive (s : State) (d : Stack) : Bool :=
  getF s (r_FLASH_CTRL d) f_FLASH_CTRL_ROOT == 1 && getF s (r_FLASH_STATUS d) f_FLASH_STATUS_HALTED == 0 &&
    !(getDie s d).quiet

/-- The root takes the next entry of its launch queue. The pause is the one sampled in this cycle or, where the queue was empty at
the sampling cycle of R131, the one sampled then. -/
def takeEntry (d : Stack) (first : Bool) (s : State) : State :=
  let y := getDie s d
  if !rootActive s d || y.taken.isSome || y.firstNext != first then s
  else match y.lq, y.sampled with
    | [], _ => s
    | e :: rest, some p =>
      showQueue d (updDie d (fun y => { y with lq := rest, sampled := none, taken := some ⟨e, p, first, true⟩ }) s)
    | e :: rest, none =>
      let (p, s) := samplePause d s
      showQueue d (updDie d (fun y => { y with lq := rest, taken := some ⟨e, p, first, false⟩ }) s)

/-- The sampling cycle of R131 comes and finds the launch queue empty: the pause is sampled all the same (log entry 72). -/
def sampleEmpty (d : Stack) (s : State) : State :=
  let y := getDie s d
  if !rootActive s d || y.taken.isSome || y.firstNext || !y.lq.isEmpty || y.sampled.isSome then s
  else
    let (p, s) := samplePause d s
    updDie d (fun y => { y with sampled := some p }) s

/-- Is a launch on its way to a die's node? -/
def launchComing (s : State) (d : Stack) : Bool :=
  s.flash.any fun m => m.die == d.val && (m.kind == .launch || m.kind == .launchElastic)

/-- Has every enabled core of a die issued END of the last step launched, with no transfer of the die outstanding (R133)? -/
def dieEnded (s : State) (d : Stack) : Bool :=
  !launchComing s d &&
  (allCores.all fun c =>
    let x := getCore s d c
    getF s (r_CORE_CTRL d c) f_CORE_CTRL_EN == 0 ||
      (x.ended && x.held.isNone && x.portQ.isEmpty && x.recvWait.isEmpty && x.agenda.all fun e => !fabricAct e.act)) &&
    s.flights.all (fun f => f.die ≠ d.val || f.transit) && s.crossings.all fun f => f.die ≠ d.val || f.transit

/-- Has DONE come from every OUT port and from the die itself? -/
def treeDone (s : State) (d : Stack) : Bool :=
  dieEnded s d && (maskPorts (getF s (r_FLASH_CTRL d) f_FLASH_CTRL_OUT)).all fun p => (getDie s d).done.contains p.val

/-- The first cycle from `t` on that meets the phase rule of R130 for a root's launch: SLOTPH ≡ −Lmax (mod TPER). -/
def phaseCycle (s : State) (d : Stack) (t : Nat) : Nat :=
  let y := getDie s d
  let n := tper s d 0
  t + (n - (y.phase + t + (n - y.stepStart % n) + getF s (r_FLASH_CTRL d) f_FLASH_CTRL_LMAX) % n) % n

/-- The latest cycle that a core of a root's partition has reached. -/
def partNow (s : State) (d : Stack) : Nat := (stepDies s d).foldl (fun m e => max m (dieNow s e)) (dieNow s d)

/-- The cycle in which a root sends a launch (R131 to R133): LEN cycles after its last launch plus the pause; where the entry came
late, where no step runs before it, or in elastic mode, the first cycle of the phase rule that is `gap` cycles after everything
the partition has reached and not before that. -/
def sendCycle (s : State) (d : Stack) (l : RootLaunch) (elastic : Bool) (gap : Nat) : Nat :=
  let y := getDie s d
  let due := y.sentAt + y.stepLen + 256 * l.pause
  if l.first || elastic then phaseCycle s d (partNow s d + gap + 256 * l.pause)
  else if l.late then phaseCycle s d (max due (partNow s d + gap)) else due

/-- The root sends the launch it has taken: in elastic mode only after DONE of the step before. Its own node has it 2 cycles later
(R128). -/
def sendLaunch (d : Stack) (gap : Nat) (s : State) : State :=
  match (getDie s d).taken with
  | none => s
  | some l =>
    let elastic := getF s (r_FLASH_CTRL d) f_FLASH_CTRL_ELASTIC == 1
    if !rootActive s d || (!l.first && getF s (r_FLASH_STATUS d) f_FLASH_STATUS_ELASTIC_STEP == 1 && !treeDone s d) then s
    else
      let f := sendCycle s d l (elastic || getF s (r_FLASH_STATUS d) f_FLASH_STATUS_ELASTIC_STEP == 1) gap
      let s := updDie d (fun y => { y with taken := none, firstNext := false, sentAt := f, stepLen := l.entry.len }) s
      let s := updTherm d (fun t => { t with lenSum := t.lenSum + l.entry.len, lenCount := t.lenCount + 1 }) s
      let s := updHub (fun h => { h with launchReports := h.launchReports ++ [(d.val, l.entry.sel, l.entry.tag)] }) s
      { s with flash := s.flash ++ [⟨d.val, 4, if elastic then .launchElastic else .launch, l.entry.sel, l.entry.tag, f + 2⟩] }

/-- DONE in elastic mode (R133): one that has arrived is noted, unless its parity is wrong (R130); a die whose tree is done sends its
own toward the root. -/
def doneStep (d : Stack) (parityOk : Bool) (s : State) : State :=
  let s := match takeFlash d (fun k => k == .done) s with
    | some (m, s) =>
      if closedTo s d m then s
      else if !parityOk then floodAbort d cParity none s
      else updDie d (fun y => { y with done := y.done ++ [m.port] }) s
    | none => s
  let i := getF s (r_FLASH_CTRL d) f_FLASH_CTRL_IN
  if treeDone s d && !(getDie s d).done.contains 5 && getF s (r_FLASH_STATUS d) f_FLASH_STATUS_ELASTIC_STEP == 1 &&
      getF s (r_FLASH_STATUS d) f_FLASH_STATUS_HALTED == 0 then
    let s := updDie d (fun y => { y with done := y.done ++ [5] }) s
    if h : i < 4 then sendFlash d .done 0 (dieNow s d) ⟨i, h⟩ s else s
  else s

/-- A write of FLASH_CTRL.REARM (R139, R140): HALTED is cleared, the launch queue is emptied, and a first launch follows. -/
def rearmDie (d : Stack) (s : State) : State :=
  let a := r_FLASH_STATUS d
  let s := putF a f_FLASH_STATUS_CAUSE 0 (putF a f_FLASH_STATUS_HALTED 0 s)
  showQueue d (updDie d (fun y =>
    { y with lq := [], taken := none, sampled := none, firstNext := true, done := [], stopPending := false }) s)

/-! ### Isolation (R136 to R138) -/

/-- States and causes of PORT_STATUS. -/
def psDown : Nat := 0
def psTraining : Nat := 1
def psOpen : Nat := 2
def psIsolated : Nat := 3
def icLdown : Nat := 1
def icClock : Nat := 2
def icOwnReset : Nat := 3
def icFirmware : Nat := 4
def icErrors : Nat := 5

/-- Is a port on the outer boundary of the grid? It is unconnected and held in reset (R21). -/
def outerPort (d : Stack) (p : Port) : Bool := (neighbour d p).isNone && !facesHub d p

/-- The wrapper isolates a port and records the cause; all but a firmware write and an own reset post LINK_DEGRADED. Its link must
train again before the port may open (R138). -/
def isolatePort (d : Stack) (p : Port) (cause : Nat) (s : State) : State :=
  if outerPort d p then s else
  let a := r_PORT_STATUS d p
  let s := updDie d (fun y => { y with trained := y.trained.filter (· ≠ p.val) }) s
  let s := putF (r_PORT_CTRL d p) f_PORT_CTRL_ISOLATE 1 (putF a f_PORT_STATUS_ISO_CAUSE cause (putF a f_PORT_STATUS_STATE psIsolated s))
  let s := if cause = icFirmware then s else putF (r_PORT_CTRL d p) f_PORT_CTRL_EN 0 s
  if cause = icFirmware ∨ cause = icOwnReset then s else postEvent evLinkDegraded (subj2 (dieNo d) p.val) 0 s

/-- Has a stack lost its clock: does every neighbour's port toward it show the loss (R136, log entry 86)? -/
def clockLost (s : State) (d : Stack) : Bool :=
  let l := allPorts.filterMap fun p => (neighbour d p).map fun e => getF s (r_PORT_STATUS e (opposite p)) f_PORT_STATUS_ISO_CAUSE == icClock
  !l.isEmpty && l.all id

/-- Is a port a member port of its die's partition? -/
def isMember (s : State) (d : Stack) (p : Port) : Bool := (getF s (r_FLASH_CTRL d) f_FLASH_CTRL_MEMBER).testBit p.val

/-- A port isolates for LDOWN, a lost clock or a persistent failure; on a member port the node floods ABORT (R139). -/
def losePort (d : Stack) (p : Port) (iso abort : Nat) (s : State) : State :=
  let s := isolatePort d p iso s
  if isMember s d p then floodAbort d abort (some p) s else s

/-- A write of PORT_CTRL.ISOLATE: 1 isolates; 0 opens the port again if its link has trained since it was isolated (R138). -/
def writeIsolate (d : Stack) (p : Port) (v : Bool) (s : State) : State :=
  if v then isolatePort d p icFirmware s
  else if outerPort d p ∨ getF s (r_PORT_CTRL d p) f_PORT_CTRL_EN = 0 ∨ !(getDie s d).trained.contains p.val then s
  else
    let a := r_PORT_STATUS d p
    putF (r_PORT_CTRL d p) f_PORT_CTRL_ISOLATE 0 (putF a f_PORT_STATUS_ISO_CAUSE 0 (putF a f_PORT_STATUS_STATE psOpen s))

/-! ### Retraining a link (R111, R114) -/

/-- The data spares that a direction uses (R111): one for each group with one failed wire, in the groups of its width. -/
def dataSpares (t : WireTest) (width : Nat) : Nat :=
  ((List.range 32).filter fun g =>
    decide ((t.groups.filter fun x => x.val = g).length = 1) &&
      match width with | 0 => true | 1 => decide (g < 16) | 2 => decide (16 ≤ g) | _ => false).length

/-- Can half `h` of a direction run: has each of its groups at most one failed wire? -/
def halfTrains (t : WireTest) (h : Nat) : Bool :=
  (List.range 16).all fun g => decide ((t.groups.filter fun x => x.val = 16 * h + g).length ≤ 1)

/-- Can every failed control wire be replaced? A failed FCLK takes two of the eight spares. -/
def controlTrains (t : WireTest) : Bool := decide (t.control + (if t.fclk then 2 else 0) ≤ 8)

/-- The width to which a direction trains: 0 full, 1 half on groups 0–15, 2 half on groups 16–31, 3 none. -/
def wireWidth (t : WireTest) : Nat :=
  if !controlTrains t then 3
  else if halfTrains t 0 && halfTrains t 1 then 0
  else if halfTrains t 0 then 1 else if halfTrains t 1 then 2 else 3

/-- The width of a link from the tests of its two directions: half width uses one half in both directions. -/
def linkWidth (a b : WireTest) : Nat :=
  if wireWidth a = 0 ∧ wireWidth b = 0 then 0
  else if !controlTrains a || !controlTrains b then 3
  else if halfTrains a 0 && halfTrains b 0 then 1
  else if halfTrains a 1 && halfTrains b 1 then 2 else 3

/-- The spares of an inbound direction are switched in: PORT_STATUS shows those in use (R111, R114). -/
def showSpares (d : Stack) (p : Port) (t : WireTest) (width : Nat) (s : State) : State :=
  let a := r_PORT_STATUS d p
  putF a f_PORT_STATUS_DSPARES (dataSpares t width) (putF a f_PORT_STATUS_CSPARES (min 8 (t.control + if t.fclk then 2 else 0)) s)

/-- A port's link has trained: EN is set, and the port may leave isolation (R138, R140). -/
def portTrained (d : Stack) (p : Port) (s : State) : State :=
  putF (r_PORT_CTRL d p) f_PORT_CTRL_EN 1
    (updDie d (fun y => { y with trained := if y.trained.contains p.val then y.trained else y.trained ++ [p.val] }) s)

/-- The hub sets FLASH_CTRL.ELASTIC at the root of a die's partition (R133). -/
def setElastic (d : Stack) (s : State) : State :=
  match (partOf s d).bind fun p => stackIx p.root with
  | some r => putF (r_FLASH_CTRL r) f_FLASH_CTRL_ELASTIC 1 s
  | none => s

/-- The hub clears FLASH_CTRL.ELASTIC of a root: the quiet interval follows (R135). -/
def elasticClear (d : Stack) (s : State) : State :=
  if getF s (r_FLASH_CTRL d) f_FLASH_CTRL_ELASTIC = 1
  then updDie d (fun y => { y with quiet := true }) (putF (r_FLASH_CTRL d) f_FLASH_CTRL_ELASTIC 0 s) else s

/-- The quiet interval of a partition ends: every member's SLOTPH is the root's again, in the root's cycles (R135). -/
def realign (d : Stack) (s : State) : State :=
  let y := getDie s d
  let n := partNow s d
  forAll (stepDies s d) (fun e s => updDie e (fun z => { z with stepStart := n, phase := (y.phase + (n - y.stepStart)) % 4096 })
    (forAll allCores (fun c s => updCore e c (fun x => { x with now := max x.now n }) s) s)) s

/-- Graphs of a partition. -/
def partGraphs (s : State) (p : Nat) : List Nat :=
  (graphKeys s).filter fun k => match getGraph s k with | some g => g.part == p | none => false

/-- Puts the partition of a die into elastic mode until programs for the degraded topology are loaded (R114, R133, R261). -/
def makeElastic (d : Stack) (s : State) : State :=
  match partIndex s d with
  | some p => setElastic d (updHub (fun h => { h with degraded := (p, partGraphs s p) :: h.degraded.filter fun x => x.1 ≠ p }) s)
  | none => s

/-- A core or link of a die has left the topology: the graphs of its partition are compiled for another one, so that the partition stays
halted until they are replaced (R261, R374). -/
def markOutdated (d : Stack) (s : State) : State :=
  match partIndex s d with
  | some p => updHub (fun h => { h with outdated := h.outdated ++ (partGraphs s p).filter fun k => !h.outdated.contains k }) s
  | none => s

/-- Is a die in Frost, or asked to be (R387)? -/
def inFrost (s : State) (d : Stack) : Bool :=
  (getTherm s d).frost ≠ 0 || getF s (r_FROST_CTRL d) f_FROST_CTRL_LEVEL ≠ 0

/-- Once no member is in Frost and no lost width forbids it, the hub clears ELASTIC of a partition. -/
def settleElastic (p : Nat) (s : State) : State :=
  match s.parts[p]? with
  | none => s
  | some x =>
    if s.hub.degraded.any (fun e => e.1 == p) || (members s x).any (inFrost s) then s
    else match stackIx x.root with | some r => elasticClear r s | none => s

/-- A graph of a partition has been loaded or unloaded: where every graph loaded since the loss of width knows of it, elastic mode
ends. -/
def graphsChanged (p : Nat) (s : State) : State :=
  match s.hub.degraded.find? fun e => e.1 == p with
  | none => s
  | some (_, old) =>
    let now := partGraphs s p
    if now.isEmpty || now.any old.contains then s
    else settleElastic p (updHub (fun h => { h with degraded := h.degraded.filter fun e => e.1 ≠ p }) s)

/-- A retraining segment of a port runs, in a pause that has consumed a request or while the port carries nothing (R114): spares are
switched in; a link left at half width drops at the next step boundary; one that cannot run fails persistently. -/
def retrainPort (d : Stack) (p : Port) (here there : WireTest) (s : State) : State :=
  if !(getDie s d).retrain.contains p.val ∨ !(segmentOpen s d || portIsolated s d p) then s
  else
    let a := r_PORT_STATUS d p
    let w := linkWidth here there
    let s := updDie d (fun y => { y with retrain := y.retrain.filter (· ≠ p.val) }) s
    let s := showSpares d p here w s
    let s := match neighbour d p with | some e => showSpares e (opposite p) there w s | none => s
    match w with
    | 0 => portTrained d p s
    | 1 | 2 =>
      let s := portTrained d p s
      if getF s a f_PORT_STATUS_HALF = 1 then s
      else updDie d (fun y => { y with halfNext := y.halfNext ++ [p.val] }) (recordErr (.die d) (5 + p.val) kSpareOut (dieSel s d) 0 s)
    | _ => losePort d p icErrors cLinkDown (recordErr (.die d) (5 + p.val) kSpareOut (dieSel s d) 0 s)

/-- A link drops to half width at a step boundary, while neither of its dies runs a step; the partitions that use it go elastic,
and LINK_DEGRADED reports width 1. -/
def halfDrop (d : Stack) (p : Port) (s : State) : State :=
  if !(getDie s d).halfNext.contains p.val ∨ dieRuns s d ∨ ((neighbour d p).map (dieRuns s)).getD false then s
  else
    let s := updDie d (fun y => { y with halfNext := y.halfNext.filter (· ≠ p.val) }) s
    let s := putF (r_PORT_STATUS d p) f_PORT_STATUS_HALF 1 s
    let s := match neighbour d p with
      | some e => putF (r_PORT_STATUS e (opposite p)) f_PORT_STATUS_HALF 1 s
      | none => s
    postEvent evLinkDegraded (subj2 (dieNo d) p.val) 1 (if isMember s d p then makeElastic d s else s)

/-- Background retraining of a port is requested: it runs in a pause segment of 15 units of 256 cc, 1.5 µs, the length that the spec
gives for a vault's or a channel's segment (DESIGN CHOICE, log entry 84: R114 gives a link's segment no length). -/
def requestRetrain (d : Stack) (p : Port) (s : State) : State :=
  requestSegment d 15 (updDie d (fun y => { y with retrain := if y.retrain.contains p.val then y.retrain else y.retrain ++ [p.val] }) s)

end Sys2Proof.Machine
end

