-- ==== Sys2Proof/Machine/BpCore.lean ====
section
/-! DEFINITION. The scalar core of a near-bank processor (R143, R144, R169): fetching, the scoreboard, traps, and the RV32I base
with M and C of the RISC-V unprivileged specification. -/
namespace Sys2Proof.Machine

/-! ### Registers and the scoreboard -/

/-- Scalar register `n`; x0 reads as zero. -/
def bpX (b : Bp) (n : Nat) : BitVec 32 := if n = 0 then 0 else sget 0 b.x n

/-- The BP with a scalar register written; a write of x0 is discarded. -/
def setX (n : Nat) (v : BitVec 32) (b : Bp) : Bp := if n = 0 then b else { b with x := sput 0 b.x n v }

/-- Vector register `n`. -/
def bpV (b : Bp) (n : Nat) : BitVec 1024 := sget 0 b.v n

/-- The BP with a vector register written. -/
def setV (n : Nat) (v : BitVec 1024) (b : Bp) : Bp := { b with v := sput 0 b.v n v }

/-- Scoreboard keys: scalar register, vector register, QF, SR, OACC, bank, scratch beat. -/
def kX (n : Nat) : Nat := n
def kV (n : Nat) : Nat := 32 + n
def kQf : Nat := 48
def kSr : Nat := 49
def kOacc : Nat := 50
def kBank (n : Nat) : Nat := 64 + n
def kScratch (a : Nat) : Nat := 1000 + a / 128

/-- The mc in which an instruction that needs these sources may issue (R169). -/
def bpWait (b : Bp) (keys : List Nat) : Nat := keys.foldl (fun m k => max m (sget 0 b.ready k)) b.mc

/-- The BP with a result ready at an mc; x0 is always ready. -/
def readyAt (k m : Nat) (b : Bp) : Bp := if k = 0 then b else { b with ready := sput 0 b.ready k m }

/-- The scoreboard keys of scratch beats that `n` bytes at scratch offset `a` touch. -/
def scratchKeys (a n : Nat) : List Nat := (List.range ((a + n - 1) / 128 - a / 128 + 1)).map fun i => 1000 + a / 128 + i

/-- The BP has used, in an mc, every scratch half that `n` bytes at scratch offset `a` touch (R145). -/
def useScratch (a n m : Nat) (b : Bp) : Bp :=
  let lo := a / 0x8000
  let hi := (a + n - 1) / 0x8000
  { b with scratchUse := b.scratchUse ++ if lo = hi then [(lo, m)] else [(lo, m), (hi, m)] }

/-- The BP with the scratch beats that `n` bytes at offset `a` touch ready at an mc. -/
def scratchReadyAt (a n m : Nat) (b : Bp) : Bp := (scratchKeys a n).foldl (fun b k => readyAt k m b) b

/-! ### Memory of the BP (R144) -/

/-- The scratch offset of `n` bytes at an address of the BP's own space. -/
def inScratch (a n : Nat) : Option Nat := if 0x10000000 ≤ a ∧ a + n ≤ 0x10010000 then some (a - 0x10000000) else none

/-- The key of `n` bytes that a load reaches: program memory or scratch. -/
def loadKey (d : Stack) (c : CoreIx) (j a n : Nat) : Option Nat :=
  if a + n ≤ 0x8000 then some (progKey d c j a) else (inScratch a n).map (scratchKey d c j)

/-! ### Fetch and traps -/

/-- Trap causes (R152). -/
def tIllegal : Nat := 0
def tMisaligned : Nat := 1
def tAccess : Nat := 2
def tEcall : Nat := 3
def tEbreak : Nat := 4
def tFetchUe : Nat := 5
def tStopped : Nat := 6

/-- The die manager writes a BP's program memory again from its image: the BPIMG bytes of the loaded graphs, in load order (R152,
R231; log entry 88). -/
def reloadProgram (d : Stack) (c : CoreIx) (j : Nat) (s : State) : State :=
  let base := devAddr d ⟨c.val, by omega⟩ (0x61000000 + 0x8000 * j)
  forAll s.svc.graphs (fun g s => match g.2 with
    | some g => forAll g.place.bytes (fun b s =>
        if base ≤ b.1 ∧ b.1 < base + 0x8000 then writeByte (progKey d c j (b.1 - base)) b.2 s else s) s
    | none => s) s

/-- A trap halts the BP and is a fault of kind BP_TRAP (R143, R152). STOPPED discards the merge entries and returns the group
(R151); FETCH_UE has the program memory loaded again. -/
def bpTrap (d : Stack) (c : CoreIx) (j cause : Nat) (s : State) : State :=
  let b := getBp s d c j
  let s := bpFault d c j bfTrap cause b.pc.toNat (b.mc - b.started) s
  let s := if cause = tFetchUe then reloadProgram d c j s else s
  updBp d c j (fun b => if cause = tStopped then { b with run := .trapped, merge := [], owned := false } else { b with run := .trapped }) s

/-- A trap of an instruction whose sources are written in mc `m`, for which it has waited (R143). -/
def bpTrapAt (d : Stack) (c : CoreIx) (j m cause : Nat) (s : State) : State :=
  bpTrap d c j cause (updBp d c j (fun b => { b with mc := m }) s)

/-- The instruction at the BP's pc with its length, none outside program memory. -/
def bpFetch (s : State) (d : Stack) (c : CoreIx) (j : Nat) : Option (Nat × Nat) :=
  let pc := (getBp s d c j).pc.toNat
  if 0x8000 < pc + 2 then none
  else
    let lo := readMem s (progKey d c j pc) 2
    if lo % 4 ≠ 3 then some (lo, 2) else if 0x8000 < pc + 4 then none else some (readMem s (progKey d c j pc) 4, 4)

/-! ### Compressed instructions -/

/-- Sign extension of an n-bit field. -/
def sext (n v : Nat) : Int := signedOf n v

/-- Two's complement of an integer in n bits. -/
def unsext (n : Nat) (v : Int) : Nat := (v % (2 ^ n : Nat)).toNat

/-- Instruction words of the base formats. -/
def encR (f7 rs2 rs1 f3 rd op : Nat) : Nat := 2 ^ 25 * f7 + 2 ^ 20 * rs2 + 2 ^ 15 * rs1 + 2 ^ 12 * f3 + 2 ^ 7 * rd + op
def encI (imm : Int) (rs1 f3 rd op : Nat) : Nat := 2 ^ 20 * unsext 12 imm + 2 ^ 15 * rs1 + 2 ^ 12 * f3 + 2 ^ 7 * rd + op
def encS (imm : Int) (rs2 rs1 f3 : Nat) : Nat :=
  let v := unsext 12 imm
  2 ^ 25 * (v / 32) + 2 ^ 20 * rs2 + 2 ^ 15 * rs1 + 2 ^ 12 * f3 + 2 ^ 7 * (v % 32) + 0x23
def encB (imm : Int) (rs1 f3 : Nat) : Nat :=
  let v := unsext 13 imm
  2 ^ 31 * bits v 12 12 + 2 ^ 25 * bits v 10 5 + 2 ^ 15 * rs1 + 2 ^ 12 * f3 + 2 ^ 8 * bits v 4 1 + 2 ^ 7 * bits v 11 11 + 0x63
def encJ (imm : Int) (rd : Nat) : Nat :=
  let v := unsext 21 imm
  2 ^ 31 * bits v 20 20 + 2 ^ 21 * bits v 10 1 + 2 ^ 20 * bits v 11 11 + 2 ^ 12 * bits v 19 12 + 2 ^ 7 * rd + 0x6F

/-- The immediate of CI: bit 12 the sign, bits 6 to 2 below it. -/
def ciImm (w : Nat) : Int := sext 6 (bits w 12 12 * 32 + bits w 6 2)

/-- The offset of C.J and C.JAL. -/
def cjImm (w : Nat) : Int :=
  sext 12 (2 ^ 11 * bits w 12 12 + 2 ^ 4 * bits w 11 11 + 2 ^ 8 * bits w 10 9 + 2 ^ 10 * bits w 8 8 + 2 ^ 6 * bits w 7 7 +
    2 ^ 7 * bits w 6 6 + bits w 5 3 * 2 + 2 ^ 5 * bits w 2 2)

/-- The offset of C.BEQZ and C.BNEZ. -/
def cbImm (w : Nat) : Int :=
  sext 9 (2 ^ 8 * bits w 12 12 + 2 ^ 3 * bits w 11 10 + 2 ^ 6 * bits w 6 5 + bits w 4 3 * 2 + 2 ^ 5 * bits w 2 2)

/-- Quadrant 0 of the C extension without floating point. -/
def expandC0 (w : Nat) : Option Nat :=
  let rd := 8 + bits w 4 2
  let rs1 := 8 + bits w 9 7
  let lw := bits w 12 10 * 8 + bits w 6 6 * 4 + bits w 5 5 * 64
  match bits w 15 13 with
  | 0 =>
    let imm := bits w 12 11 * 16 + bits w 10 7 * 64 + bits w 6 6 * 4 + bits w 5 5 * 8
    if imm = 0 then none else some (encI imm 2 0 rd 0x13)
  | 2 => some (encI lw rs1 2 rd 0x03)
  | 6 => some (encS lw rd rs1 2)
  | _ => none

/-- The arithmetic of quadrant 1 on the eight popular registers. -/
def expandCAlu (w : Nat) : Option Nat :=
  let rd := 8 + bits w 9 7
  let rs2 := 8 + bits w 4 2
  match bits w 11 10 with
  | 0 => if w.testBit 12 then none else some (encR 0 (bits w 6 2) rd 5 rd 0x13)
  | 1 => if w.testBit 12 then none else some (encR 0x20 (bits w 6 2) rd 5 rd 0x13)
  | 2 => some (encI (ciImm w) rd 7 rd 0x13)
  | _ =>
    if w.testBit 12 then none
    else match bits w 6 5 with
      | 0 => some (encR 0x20 rs2 rd 0 rd 0x33)
      | 1 => some (encR 0 rs2 rd 4 rd 0x33)
      | 2 => some (encR 0 rs2 rd 6 rd 0x33)
      | _ => some (encR 0 rs2 rd 7 rd 0x33)

/-- Quadrant 1 of the C extension. -/
def expandC1 (w : Nat) : Option Nat :=
  let rd := bits w 11 7
  let imm := ciImm w
  match bits w 15 13 with
  | 0 => some (encI imm rd 0 rd 0x13)
  | 1 => some (encJ (cjImm w) 1)
  | 2 => some (encI imm 0 0 rd 0x13)
  | 3 =>
    if rd = 2 then
      let v := sext 10 (512 * bits w 12 12 + bits w 6 6 * 16 + bits w 5 5 * 64 + 128 * bits w 4 3 + bits w 2 2 * 32)
      if v = 0 then none else some (encI v 2 0 2 0x13)
    else if imm = 0 then none
    else some (2 ^ 12 * unsext 20 imm + 2 ^ 7 * rd + 0x37)
  | 4 => expandCAlu w
  | 5 => some (encJ (cjImm w) 0)
  | 6 => some (encB (cbImm w) (8 + bits w 9 7) 0)
  | _ => some (encB (cbImm w) (8 + bits w 9 7) 1)

/-- Quadrant 2 of the C extension without floating point. -/
def expandC2 (w : Nat) : Option Nat :=
  let rd := bits w 11 7
  let rs2 := bits w 6 2
  match bits w 15 13 with
  | 0 => if w.testBit 12 then none else some (encR 0 rs2 rd 1 rd 0x13)
  | 2 => if rd = 0 then none
         else some (encI (bits w 12 12 * 32 + bits w 6 4 * 4 + bits w 3 2 * 64) 2 2 rd 0x03)
  | 4 =>
    if w.testBit 12 then
      if rs2 = 0 then (if rd = 0 then some 0x00100073 else some (encI 0 rd 0 1 0x67)) else some (encR 0 rs2 rd 0 rd 0x33)
    else if rs2 = 0 then (if rd = 0 then none else some (encI 0 rd 0 0 0x67)) else some (encR 0 rs2 0 0 rd 0x33)
  | 6 => some (encS (bits w 12 9 * 4 + bits w 8 7 * 64) rs2 2 2)
  | _ => none

/-- The 32-bit instruction that a 16-bit one stands for, none where the encoding is outside RV32C. -/
def expandC (w : Nat) : Option Nat := match w % 4 with | 0 => expandC0 w | 1 => expandC1 w | _ => expandC2 w

/-! ### The 32-bit instructions -/

/-- What a scalar instruction does. -/
inductive ScalarOut where
  | trap (cause : Nat)
  /-- Writes a register, goes on at an address; issue cycles, result latency. -/
  | step (rd : Nat) (v : BitVec 32) (pc : BitVec 32) (issue lat : Nat)
  | load (rd a n : Nat) (signed : Bool)
  | store (a n : Nat) (v : BitVec 32)
  deriving DecidableEq, Repr

def iImm (w : Nat) : Int := sext 12 (bits w 31 20)
def sImm (w : Nat) : Int := sext 12 (bits w 31 25 * 32 + bits w 11 7)
def bImm (w : Nat) : Int := sext 13 (2 ^ 12 * bits w 31 31 + 2 ^ 11 * bits w 7 7 + bits w 30 25 * 32 + bits w 11 8 * 2)
def jImm (w : Nat) : Int := sext 21 (2 ^ 20 * bits w 31 31 + 2 ^ 12 * bits w 19 12 + 2 ^ 11 * bits w 20 20 + bits w 30 21 * 2)

/-- A 32-bit word of an integer. -/
def w32 (x : Int) : BitVec 32 := BitVec.ofInt 32 x

/-- The base ALU operations; `alt` is SUB and SRA. -/
def aluOp (f3 : Nat) (alt : Bool) (a b : BitVec 32) : BitVec 32 :=
  match f3 with
  | 0 => if alt then a - b else a + b
  | 1 => a <<< (b.toNat % 32)
  | 2 => if a.slt b then 1 else 0
  | 3 => if a.ult b then 1 else 0
  | 4 => a ^^^ b
  | 5 => if alt then a.sshiftRight (b.toNat % 32) else a >>> (b.toNat % 32)
  | 6 => a ||| b
  | _ => a &&& b

/-- The operations of the M extension. -/
def mulOp (f3 : Nat) (a b : BitVec 32) : BitVec 32 :=
  match f3 with
  | 0 => a * b
  | 1 => w32 (a.toInt * b.toInt / 2 ^ 32)
  | 2 => w32 (a.toInt * b.toNat / 2 ^ 32)
  | 3 => BitVec.ofNat 32 (a.toNat * b.toNat / 2 ^ 32)
  | 4 => if b = 0 then 0xFFFFFFFF#32 else w32 (a.toInt.tdiv b.toInt)
  | 5 => if b = 0 then 0xFFFFFFFF#32 else BitVec.ofNat 32 (a.toNat / b.toNat)
  | 6 => if b = 0 then a else w32 (a.toInt.tmod b.toInt)
  | _ => if b = 0 then a else BitVec.ofNat 32 (a.toNat % b.toNat)

/-- The branch conditions. -/
def branchTaken (f3 : Nat) (a b : BitVec 32) : Option Bool :=
  match f3 with
  | 0 => some (a = b) | 1 => some (a ≠ b) | 4 => some (a.slt b) | 5 => some (!a.slt b)
  | 6 => some (a.ult b) | 7 => some (!a.ult b) | _ => none

/-- The meaning of a 32-bit scalar instruction of length `len` on register values (R143, R169). R169 gives no time for a FENCE
and for the link result of JAL and JALR: 1 mc, and the 2 mc of the issue (DESIGN CHOICE, log entry 87). -/
def scalarOp (b : Bp) (w len : Nat) : ScalarOut :=
  let rd := bits w 11 7
  let f3 := bits w 14 12
  let f7 := bits w 31 25
  let x1 := bpX b (bits w 19 15)
  let x2 := bpX b (bits w 24 20)
  let next := b.pc + BitVec.ofNat 32 len
  match w % 128 with
  | 0x37 => .step rd (BitVec.ofNat 32 (4096 * (w / 4096))) next 1 1
  | 0x17 => .step rd (b.pc + BitVec.ofNat 32 (4096 * (w / 4096))) next 1 1
  | 0x6F => .step rd next (b.pc + w32 (jImm w)) 2 2
  | 0x67 => if f3 = 0 then .step rd next ((x1 + w32 (iImm w)) &&& ~~~1#32) 2 2 else .trap tIllegal
  | 0x63 => match branchTaken f3 x1 x2 with
    | some true => .step 0 0 (b.pc + w32 (bImm w)) 2 2
    | some false => .step 0 0 next 1 1
    | none => .trap tIllegal
  | 0x03 =>
    let a := (x1 + w32 (iImm w)).toNat
    match f3 with
    | 0 => .load rd a 1 true | 1 => .load rd a 2 true | 2 => .load rd a 4 true
    | 4 => .load rd a 1 false | 5 => .load rd a 2 false | _ => .trap tIllegal
  | 0x23 =>
    let a := (x1 + w32 (sImm w)).toNat
    match f3 with | 0 => .store a 1 x2 | 1 => .store a 2 x2 | 2 => .store a 4 x2 | _ => .trap tIllegal
  | 0x13 =>
    if f3 = 1 then (if f7 = 0 then .step rd (aluOp 1 false x1 (BitVec.ofNat 32 (bits w 24 20))) next 1 1 else .trap tIllegal)
    else if f3 = 5 then
      (if f7 = 0 ∨ f7 = 0x20 then .step rd (aluOp 5 (f7 == 0x20) x1 (BitVec.ofNat 32 (bits w 24 20))) next 1 1 else .trap tIllegal)
    else .step rd (aluOp f3 false x1 (w32 (iImm w))) next 1 1
  | 0x33 =>
    if f7 = 0 then .step rd (aluOp f3 false x1 x2) next 1 1
    else if f7 = 0x20 ∧ (f3 = 0 ∨ f3 = 5) then .step rd (aluOp f3 true x1 x2) next 1 1
    else if f7 = 1 then (if f3 < 4 then .step rd (mulOp f3 x1 x2) next 1 3 else .step rd (mulOp f3 x1 x2) next 18 18)
    else .trap tIllegal
  | 0x0F => if f3 = 0 ∨ f3 = 1 then .step 0 0 next 1 1 else .trap tIllegal
  | 0x73 => if w = 0x00000073 then .trap tEcall else if w = 0x00100073 then .trap tEbreak else .trap tIllegal
  | _ => .trap tIllegal

/-- The BP goes on after an instruction that issued in mc `m`. -/
def bpNext (m issue : Nat) (pc : BitVec 32) (b : Bp) : Bp := { b with mc := m + issue, pc := pc }

/-- The scalar registers that an instruction reads. -/
def scalarSources (w : Nat) : List Nat :=
  match w % 128 with
  | 0x37 | 0x17 | 0x6F | 0x0F | 0x73 => []
  | 0x67 | 0x03 | 0x13 => [kX (bits w 19 15)]
  | _ => [kX (bits w 19 15), kX (bits w 24 20)]

/-- Executes a 32-bit scalar instruction. A trapping load or store has waited for its sources; an encoding that is no instruction,
ECALL and EBREAK need none. A misaligned access traps MISALIGNED wherever it lies, and a store issues in 1 mc, its bytes there in
the next (DESIGN CHOICE, log entry 87). -/
def bpScalar (d : Stack) (c : CoreIx) (j w len : Nat) (s : State) : State :=
  let b := getBp s d c j
  let m := bpWait b (scalarSources w)
  let next := b.pc + BitVec.ofNat 32 len
  match scalarOp b w len with
  | .trap cause => bpTrap d c j cause s
  | .step rd v pc issue lat => addAct d j 1 (updBp d c j (fun b => bpNext m issue pc (readyAt (kX rd) (m + lat) (setX rd v b))) s)
  | .load rd a n signed =>
    if a % n ≠ 0 then bpTrapAt d c j m tMisaligned s
    else match loadKey d c j a n with
      | none => bpTrapAt d c j m tAccess s
      | some k =>
        let m := match inScratch a n with | some o => max m (bpWait b (scratchKeys o n)) | none => m
        let v := readMem s k n
        let v := if signed then w32 (sext (8 * n) v) else BitVec.ofNat 32 v
        addAct d j 1 (updBp d c j (fun b =>
          let b := bpNext m 1 next (readyAt (kX rd) (m + 2) (setX rd v b))
          match inScratch a n with | some o => useScratch o n m b | none => b) s)
  | .store a n v =>
    if a % n ≠ 0 then bpTrapAt d c j m tMisaligned s
    else match inScratch a n with
      | none => bpTrapAt d c j m tAccess s
      | some o =>
        let m := max m (bpWait b (scratchKeys o n))
        addAct d j 1 (updBp d c j (fun b => useScratch o n m (bpNext m 1 next b)) (writeMem (scratchKey d c j o) n v.toNat s))

end Sys2Proof.Machine
end

