-- ==== Sys2Proof/Machine/BpVec.lean ====
section
/-! DEFINITION. The bank-vector extension's vector instructions (R165 to R167, R169). -/
namespace Sys2Proof.Machine

/-- The instructions of the custom opcodes, as the opcode table's rows name them. -/
inductive BpOp where
  | vld | vst | vfadd | vfsub | vfmul | vfmax | vfmin | vfmac | vfexp | vfrcp
  | sfadd | sfsub | sfmul | sfmax | sfmin | vsplat | vlim | vmsk | redSum | redMax | cvtLo | cvtHi | cvtPack
  | k4qk | k4av | k4q | qoff | qbnd | qld | sld | sst | oaccrd | oaccscl | oaccclr
  | bvLdr | bvStr | bvStp | bvCpy | bvFence | bvHalt
  deriving DecidableEq, Repr

def fRd (w : Nat) : Nat := bits w 11 7
def fRs1 (w : Nat) : Nat := bits w 19 15
def fRs2 (w : Nat) : Nat := bits w 24 20
def fF7 (w : Nat) : Nat := bits w 31 25

/-- The vector instruction that a word of opcode custom-0 encodes, none where it is ILLEGAL (R165 to R167). -/
def vecOp (w : Nat) : Option BpOp :=
  let rd := fRd w
  let rs1 := fRs1 w
  let rs2 := fRs2 w
  let f7 := fF7 w
  let vd := rd < 16
  let v1 := rs1 < 16
  let v2 := rs2 < 16
  let give := fun (ok : Bool) (o : BpOp) => if ok then some o else none
  match bits w 14 12 with
  | 0 => give (vd && rs2 == 0 && decide (f7 < 2)) .vld
  | 1 => give (v2 && rd == 0 && decide (f7 < 2)) .vst
  | 2 => match f7 with
    | 0 => give (vd && v1 && v2) .vfadd | 1 => give (vd && v1 && v2) .vfsub | 2 => give (vd && v1 && v2) .vfmul
    | 3 => give (vd && v1 && v2) .vfmax | 4 => give (vd && v1 && v2) .vfmin | 5 => give (vd && v1 && v2) .vfmac
    | 8 => give (vd && v1 && rs2 == 0) .vfexp | 9 => give (vd && v1 && rs2 == 0) .vfrcp | _ => none
  | 3 => match f7 with
    | 0 => give (vd && v1) .sfadd | 1 => give (vd && v1) .sfsub | 2 => give (vd && v1) .sfmul
    | 3 => give (vd && v1) .sfmax | 4 => give (vd && v1) .sfmin
    | 0x10 => give (vd && rs1 == 0) .vsplat | 0x11 => give (vd && v1) .vlim | 0x12 => give (vd && v1) .vmsk | _ => none
  | 4 => match f7 with | 0 => give (v1 && rs2 == 0) .redSum | 1 => give (v1 && rs2 == 0) .redMax | _ => none
  | 5 => match f7 with
    | 0 => give (vd && v1 && rs2 == 0) .cvtLo | 1 => give (vd && v1 && rs2 == 0) .cvtHi
    | 2 => give (vd && v1 && v2) .cvtPack | _ => none
  | 6 => match f7 / 16 with
    | 0 => give (vd && v1 && decide (f7 % 16 < 2)) .k4qk
    | 1 => give (rd == 0 && v1 && v2 && decide (f7 % 16 < 2)) .k4av
    | 2 => give (vd && v1 && (if f7.testBit 3 then v2 else rs2 == 0)) .k4q
    | 3 => give (vd && v1 && rs2 == 0 && decide (f7 % 16 < 4)) .qoff
    | 4 => give (vd && v1 && v2 && decide (f7 % 16 < 4)) .qbnd
    | _ => none
  | _ => match f7 with
    | 0 => give (decide (rd < 8) && rs2 == 0) .qld
    | 1 => give (rd == 0 && rs2 == 0) .sld
    | 2 => give (rd == 0 && rs2 == 0) .sst
    | 3 => give (vd && rs2 == 0) .oaccrd
    | 4 => give (rd == 0) .oaccscl
    | 5 => give (rd == 0 && rs1 == 0 && rs2 == 0) .oaccclr
    | _ => none

/-- The bank instruction that a word of opcode custom-1 encodes, none where it is ILLEGAL (R168). -/
def bankOp (w : Nat) : Option BpOp :=
  let give := fun (ok : Bool) (o : BpOp) => if ok then some o else none
  match bits w 14 12 with
  | 0 => give (fRd w == 0 && decide (fF7 w < 16)) .bvLdr
  | 1 => give (fRd w == 0 && decide (fF7 w < 16)) .bvStr
  | 2 => give (fRd w == 0 && decide (fF7 w < 64)) .bvStp
  | 3 => give (fRd w == 0 && decide (fF7 w < 16)) .bvCpy
  | 4 => give (fRd w == 0 && fRs1 w == 0 && fRs2 w == 0 && fF7 w == 0) .bvFence
  | 5 => give (fRd w == 0 && fRs1 w == 0 && fRs2 w == 0 && fF7 w == 0) .bvHalt
  | _ => none

/-- The custom instruction that a 32-bit word encodes. -/
def customOp (w : Nat) : Option BpOp :=
  match w % 128 with | 0x0B => vecOp w | 0x2B => bankOp w | _ => none

/-! ### Elements -/

/-- The 32 FP32 elements of a vector register. -/
def vElems (v : BitVec 1024) : List (BitVec 32) := (List.range 32).map fun i => v.extractLsb' (32 * i) 32

/-- A vector register of 32 elements. -/
def vPack (l : List (BitVec 32)) : BitVec 1024 := BitVec.ofNat 1024 (packCodes 32 (l.map (·.toNat)))

/-- Element by element. -/
def vMap2 (f : BitVec 32 → BitVec 32 → BitVec 32) (a b : BitVec 1024) : BitVec 1024 :=
  vPack (List.zipWith f (vElems a) (vElems b))

/-- The 64 BF16 elements of a vector register, as values. -/
def vBf16 (v : BitVec 1024) : List Val := (List.range 64).map fun i => decodeFmt .bf16 (v.toNat / 2 ^ (16 * i) % 2 ^ 16)

/-- Pairwise sums of FP32 values in `n` levels (R166). -/
def pairTree (n : Nat) (l : List (BitVec 32)) : BitVec 32 := (n.repeat pairSum l).headD 0#32

/-- Pairs of exact values added, each sum rounded once to FP32. -/
def pairSumVal : List Val → List (BitVec 32)
  | a :: b :: r => encF32 (addVal a b) :: pairSumVal r
  | [a] => [encF32 a]
  | [] => []

/-- The sum of 64 exact terms in six pairwise levels (R167). -/
def sumTerms (l : List Val) : BitVec 32 := pairTree 5 (pairSumVal l)

/-- QF channel `c` of row `r`. -/
def qfVal (b : Bp) (r c : Nat) : Val := decodeFmt .bf16 ((sget 0 b.qf r).toNat / 2 ^ (16 * c) % 2 ^ 16)

/-- An element as an operation passes it on: a NaN becomes the canonical NaN (R35). -/
def plainF32 (x : BitVec 32) : BitVec 32 := encF32 (decF32 x)

/-- Replaces elements of a vector register. -/
def vSet (v : BitVec 1024) (f : Nat → Option (BitVec 32)) : BitVec 1024 :=
  vPack ((vElems v).zipIdx.map fun e => (f e.2).getD e.1)

/-! ### The K4 group (R167) -/

/-- Code of channel `c` of position `p` of a pair. -/
def k4At (v : BitVec 1024) (p c : Nat) : Nat := v.toNat / 2 ^ (512 * p + 4 * c) % 16

/-- The scale of block `n` of position `p` of pair `k`. -/
def srScale (b : Bp) (k p n : Nat) : Byte := b.sr.extractLsb' (8 * (8 * k + 4 * p + n)) 8

/-- One attention score: four block results added in order. -/
def k4Score (b : Bp) (v : BitVec 1024) (k p r : Nat) : BitVec 32 :=
  let blk := fun (n : Nat) =>
    blockResult true (blockOp .bf16 ((sget 0 b.qf r).toNat / 2 ^ (512 * n)) 0)
      (blockOp .k4 (v.toNat / 2 ^ (512 * p + 128 * n)) (srScale b k p n))
  addF32 (addF32 (addF32 (blk 0) (blk 1)) (blk 2)) (blk 3)

/-- The scores of two positions against eight rows, in elements 16j to 16j + 15. -/
def k4qkVal (b : Bp) (old v : BitVec 1024) (k j : Nat) : BitVec 1024 :=
  vSet old fun i => if 16 * j ≤ i ∧ i < 16 * j + 16 then some (k4Score b v k ((i - 16 * j) / 8) (i % 8)) else none

/-- OACC element `d` of row `r`. -/
def oaccAt (b : Bp) (r d : Nat) : BitVec 32 := sget 0 b.oacc (128 * r + d)

/-- The BP with an OACC element set. -/
def setOacc (r d : Nat) (v : BitVec 32) (b : Bp) : Bp := { b with oacc := sput 0 b.oacc (128 * r + d) v }

/-- One position of K4AV: every row and dimension. -/
def k4avPos (v wts : BitVec 1024) (k j p : Nat) (b : Bp) : Bp :=
  (List.range 1024).foldl (fun (a : Bp) i =>
    let r := i / 128
    let d := i % 128
    let w := decF32 (wts.extractLsb' (32 * (16 * j + 8 * p + r)) 32)
    let t := encF32 (mulVal w (k4Value (srScale b k p (d / 32)) (k4At v p d)))
    setOacc r d (addF32 (oaccAt a r d) t) a) b

/-- K4Q: codes into bytes 16m to 16m + 15 of the register, the scale into SR byte m. -/
def k4qVal (old a b : BitVec 1024) (sub : Bool) (m : Nat) : BitVec 1024 × Byte :=
  let vs := (List.zipWith (fun x y => if sub then addVal (decF32 x) (negVal (decF32 y)) else decF32 x) (vElems a) (vElems b))
  let (sc, codes) := k4Quant vs
  let cleared := old &&& ~~~(BitVec.ofNat 1024 (2 ^ (128 * m) * (2 ^ 128 - 1)))
  (cleared ||| BitVec.ofNat 1024 (2 ^ (128 * m) * packCodes 4 codes), sc)

/-- QOFF and QBND: a term for each of 64 channels, the sum in element r, added to it when `acc`; else elements 8 to 31 take
`rest`. -/
def qRows (old : BitVec 1024) (term : Nat → List Val) (acc : Bool) (rest : BitVec 32) : BitVec 1024 :=
  vSet old fun i =>
    if i < 8 then
      let t := sumTerms (term i)
      some (if acc then addF32 (old.extractLsb' (32 * i) 32) t else t)
    else if acc then none else some rest

/-! ### Executing a vector instruction -/

/-- What a vector instruction does: a trap, or a new BP with issue cycles and activity, and the scratch bytes it writes. -/
inductive VecOut where
  | trap (cause : Nat)
  | done (b : Bp) (issue act : Nat)
  | store (b : Bp) (off n v act : Nat)

/-- The sources of a vector instruction on the scoreboard. K4QK, K4Q, QOFF and QBND write only a part of vd, K4Q of SR too, and
wait for what they leave as it was, in every form (DESIGN CHOICE, log entry 87). -/
def vecSources (o : BpOp) (w : Nat) : List Nat :=
  let v1 := kV (fRs1 w)
  let v2 := kV (fRs2 w)
  let vd := kV (fRd w)
  let x1 := kX (fRs1 w)
  let x2 := kX (fRs2 w)
  match o with
  | .vld | .qld | .sld => [x1]
  | .vst => [x1, v2]
  | .vfadd | .vfsub | .vfmul | .vfmax | .vfmin | .cvtPack => [v1, v2]
  | .vfmac => [v1, v2, vd]
  | .vfexp | .vfrcp | .redSum | .redMax | .cvtLo | .cvtHi => [v1]
  | .sfadd | .sfsub | .sfmul | .sfmax | .sfmin | .vlim | .vmsk => [v1, x2]
  | .vsplat => [x2]
  | .k4qk => [v1, x2, vd, kQf, kSr]
  | .k4av => [v1, v2, x2, kSr, kOacc]
  | .k4q => [v1, vd, kSr] ++ if (fF7 w).testBit 3 then [v2] else []
  | .qoff => [v1, vd, kQf]
  | .qbnd => [v1, v2, vd, kQf]
  | .sst => [x1, kSr]
  | .oaccrd => [x1, kOacc]
  | .oaccscl => [x1, x2, kOacc]
  | .oaccclr => []
  | _ => []

/-- The scratch bytes that a vector instruction reads or writes: offset and count. -/
def vecScratch (o : BpOp) (b : Bp) (w : Nat) : Option (Option Nat × Nat) :=
  let a := (bpX b (fRs1 w)).toNat
  match o with
  | .vld | .vst | .sld | .sst => some (inScratch a 128, 128)
  | .qld => some (inScratch a 256, 256)
  | _ => none

/-- A result for a vector register, ready `lat` mc after mc `m`. -/
def giveV (w : Nat) (v : BitVec 1024) (m lat issue act : Nat) (b : Bp) : VecOut :=
  .done (readyAt (kV (fRd w)) (m + lat) (setV (fRd w) v b)) issue act

/-- VLD and VST with i = 1 move x[rs1] on by 128. -/
def bumpX (w : Nat) (m : Nat) (b : Bp) : Bp :=
  if (fF7 w).testBit 0 then readyAt (kX (fRs1 w)) (m + 1) (setX (fRs1 w) (bpX b (fRs1 w) + 128) b) else b

/-- The effect of a vector instruction that issues in mc `m`; `off`: its scratch offset, `mem`: the bytes there, `free`: the
bytes of an OACCRD that names no quarter. -/
def vecEffect (o : BpOp) (b : Bp) (w m off mem : Nat) (free : BitVec 1024) : VecOut :=
  let v1 := bpV b (fRs1 w)
  let v2 := bpV b (fRs2 w)
  let vd := bpV b (fRd w)
  let plain := vPack ((vElems v1).map plainF32)
  let x1 := bpX b (fRs1 w)
  let x2 := bpX b (fRs2 w)
  let sc := BitVec.ofNat 1024 (packCodes 32 (List.replicate 32 x2.toNat))
  let f7 := fF7 w
  match o with
  | .vld => giveV w (BitVec.ofNat 1024 mem) m 2 1 2 (bumpX w m b)
  | .vst => .store (bumpX w m b) off 128 v2.toNat 2
  | .vfadd => giveV w (vMap2 addF32 v1 v2) m 4 1 2 b
  | .vfsub => giveV w (vMap2 subF32 v1 v2) m 4 1 2 b
  | .vfmul => giveV w (vMap2 mulF32 v1 v2) m 4 1 2 b
  | .vfmax => giveV w (vMap2 max32 v1 v2) m 4 1 2 b
  | .vfmin => giveV w (vMap2 min32 v1 v2) m 4 1 2 b
  | .vfmac => giveV w (vMap2 addF32 (vMap2 mulF32 v1 v2) vd) m 4 1 2 b
  | .vfexp => giveV w (vPack ((vElems v1).map expF32)) m 12 4 6 b
  | .vfrcp => giveV w (vPack ((vElems v1).map rcpF32)) m 12 4 6 b
  | .sfadd => giveV w (vMap2 addF32 v1 sc) m 4 1 2 b
  | .sfsub => giveV w (vMap2 subF32 v1 sc) m 4 1 2 b
  | .sfmul => giveV w (vMap2 mulF32 v1 sc) m 4 1 2 b
  | .sfmax => giveV w (vMap2 max32 v1 sc) m 4 1 2 b
  | .sfmin => giveV w (vMap2 min32 v1 sc) m 4 1 2 b
  | .vsplat => giveV w sc m 4 1 2 b
  | .vlim => giveV w (vSet plain fun i => if i < x2.toNat then none else some negInf32) m 4 1 2 b
  | .vmsk => giveV w (vSet plain fun i => if x2.getLsbD i then none else some negInf32) m 4 1 2 b
  | .redSum => .done (readyAt (kX (fRd w)) (m + 6) (setX (fRd w) (pairTree 5 (vElems v1)) b)) 1 2
  | .redMax => .done (readyAt (kX (fRd w)) (m + 6) (setX (fRd w) (rmax (vElems v1)) b)) 1 2
  | .cvtLo => giveV w (vPack (unpackVals .bf16 32 v1.toNat)) m 4 1 2 b
  | .cvtHi => giveV w (vPack (unpackVals .bf16 32 (v1.toNat / 2 ^ 512))) m 4 1 2 b
  | .cvtPack => giveV w (BitVec.ofNat 1024 (packCodes 16 ((vElems v1 ++ vElems v2).map fun e => convertFmt .fp32 .bf16 e.toNat))) m 4 1 2 b
  | .k4qk => giveV w (k4qkVal b vd v1 (x2.toNat % 16) (f7 % 2)) m 6 1 8 b
  | .k4av => .done (readyAt kOacc (m + 6) (k4avPos v1 v2 (x2.toNat % 16) (f7 % 2) 1 (k4avPos v1 v2 (x2.toNat % 16) (f7 % 2) 0 b))) 1 8
  | .k4q =>
    let (v, sb) := k4qVal vd v1 v2 (f7.testBit 3) (f7 % 8)
    let sr := (b.sr &&& ~~~(BitVec.ofNat 1024 (0xFF * 2 ^ (8 * (f7 % 8))))) ||| BitVec.ofNat 1024 (sb.toNat * 2 ^ (8 * (f7 % 8)))
    giveV w v m 6 1 8 (readyAt kSr (m + 6) { b with sr := sr })
  | .qoff =>
    let h := f7 % 2
    giveV w (qRows vd (fun r => (vBf16 v1).zipIdx.map fun e => mulVal (qfVal b r (64 * h + e.2)) e.1) (f7.testBit 1) 0#32) m 6 1 8 b
  | .qbnd =>
    let h := f7 % 2
    giveV w (qRows vd (fun r => ((vBf16 v1).zip (vBf16 v2)).zipIdx.map fun e =>
      let q := qfVal b r (64 * h + e.2)
      maxVal (mulVal q e.1.1) (mulVal q e.1.2)) (f7.testBit 1) negInf32) m 6 1 8 b
  | .qld => .done (readyAt kQf (m + 2) { b with qf := sput 0 b.qf (fRd w) (BitVec.ofNat 2048 mem) }) 2 2
  | .sld => .done (readyAt kSr (m + 2) { b with sr := BitVec.ofNat 1024 mem }) 1 2
  | .sst => .store b off 128 b.sr.toNat 2
  | .oaccrd =>
    let n := x1.toNat
    giveV w (if n < 32 then vPack ((List.range 32).map fun i => oaccAt b (n / 4) (32 * (n % 4) + i)) else free) m 4 1 2 b
  | .oaccscl =>
    let r := x1.toNat % 8
    .done (readyAt kOacc (m + 6) ((List.range 128).foldl (fun a d => setOacc r d (mulF32 (oaccAt b r d) x2) a) b)) 4 2
  | .oaccclr => .done (readyAt kOacc (m + 1) { b with oacc := [] }) 1 2
  | _ => .trap tIllegal

/-- Executes a vector instruction: a scratch address outside scratch is an ACCESS trap (R144). QLD reads its 256 B in its two
issue cycles. -/
def bpVector (d : Stack) (c : CoreIx) (j : Nat) (o : BpOp) (w : Nat) (s : State) : State :=
  let b := getBp s d c j
  let next := b.pc + 4
  let m := bpWait b (vecSources o w)
  let touch := fun (off m : Nat) (b : Bp) =>
    if o = .qld then useScratch (off + 128) 128 (m + 1) (useScratch off 128 m b) else useScratch off 128 m b
  let finish := fun (m off mem : Nat) (used : Bool) (s : State) =>
    let (free, s) := if o = .oaccrd ∧ 32 ≤ (bpX b (fRs1 w)).toNat then takeFree 128 s else (0, s)
    match vecEffect o b w m off mem (BitVec.ofNat 1024 free) with
    | .trap cause => bpTrap d c j cause s
    | .done b' issue act => addAct d j act (updBp d c j (fun _ => if used then touch off m (bpNext m issue next b') else bpNext m issue next b') s)
    | .store b' off n v act =>
      addAct d j act (updBp d c j (fun _ => scratchReadyAt off n (m + 2) (touch off m (bpNext m 1 next b')))
        (writeMem (scratchKey d c j off) n v s))
  match vecScratch o b w with
  | none => finish m 0 0 false s
  | some (none, _) => bpTrapAt d c j m tAccess s
  | some (some off, n) => finish (max m (bpWait b (scratchKeys off n))) off (readMem s (scratchKey d c j off) n) true s

end Sys2Proof.Machine
end

