-- ==== Sys2Proof/Machine/BpBank.lean ====
section
/-! DEFINITION. The bank instructions of a near-bank processor (R142, R154, R158 to R160, R168 to R170), its merge buffer, and
the next instruction of a program. -/
namespace Sys2Proof.Machine

/-! ### Activates and the group bus -/

/-- Scoreboard key: the mc by which every bank write so far has reached the bank. -/
def kWrite : Nat := 60

/-- The first mc from `m` on in which no host window holds activates (R154). -/
def pastHold (b : Bp) (m : Nat) : Nat :=
  let p := (m - b.w0) % 4096
  if 3984 ≤ p then m + (4096 - p) else m

/-- The end of a run of the group bus that meets `n` beats from mc `m`. -/
def busEnd (b : Bp) (m n : Nat) : Option Nat :=
  (b.busTaken.find? fun r => decide (r.1 < m + n) && decide (m < r.1 + r.2)).map fun r => r.1 + r.2

/-- The mc of an activate: from `m` on, outside held cycles, with the group bus free for each run of (offset, beats). -/
def activateAt (b : Bp) (runs : List (Nat × Nat)) : Nat → Nat → Nat
  | 0, m => m
  | f + 1, m =>
    let m := pastHold b m
    match runs.findSome? fun r => (busEnd b (m + r.1) r.2).map fun e => e - r.1 with
    | some e => activateAt b runs f e
    | none => m

/-- The mc of an activate of a bank that wants to start in mc `m`. -/
def bankAct (b : Bp) (bank : Nat) (runs : List (Nat × Nat)) (m : Nat) : Nat :=
  activateAt b runs (4 * b.busTaken.length + 8) (max m (sget 0 b.ready (kBank bank)))

/-- The BP has activated a bank in mc `a`, and its beats take the group bus. -/
def noteAct (bank a busy : Nat) (runs : List (Nat × Nat)) (b : Bp) : Bp :=
  readyAt (kBank bank) (a + busy)
    { b with busTaken := (b.busTaken.filter fun r => decide (b.mc < r.1 + r.2)) ++ runs.map fun r => (a + r.1, r.2) }

/-- Bank writes reach the bank by mc `m`: when the bank is ready again, 48 mc after the activate, 96 for a read-modify-write
(DESIGN CHOICE, log entry 87). -/
def noteWrite (m : Nat) (b : Bp) : Bp := readyAt kWrite (max m (sget 0 b.ready kWrite)) b

/-! ### Code words at the bank (R158, R159) -/

/-- The BP reads the code word at a group offset: a bad one is recorded and poisons the step. -/
def bpLoad (d : Stack) (c : CoreIx) (j off : Nat) (s : State) : BitVec 512 × CodeOutcome × State :=
  let a := unmapVault s d c j off
  let code := vaultCode s d c a
  let (v, o) := decodeWord code false (readWord s (bankInitCode s d c j off) (bankKey d c j off))
  let s := countWord (r_ECC_COUNT d c) o s
  if badOutcome o then
    let s := recordErr (.core d c) (16 + j) (outcomeKind o) (getCore s d c).sel a s
    (v, o, poisonStep d c (if o = .uncorrectable then markRow d c j off s else s))
  else (v, o, s)

/-- The BP writes a whole code word at a group offset. -/
def bpStore (d : Stack) (c : CoreIx) (j off : Nat) (v : BitVec 512) (s : State) : State :=
  vaultStore d c (unmapVault s d c j off) wBp [] v s

/-- A read-modify-write of the bytes that an entry's mask names; a bad word becomes poison (R290). -/
def bpRmw (d : Stack) (c : CoreIx) (j : Nat) (e : MergeEntry) (s : State) : State :=
  let (old, o, s) := bpLoad d c j e.addr s
  let v := maskBytes e.mask old e.data
  if badOutcome o then vaultPoison d c (unmapVault s d c j e.addr) v s else bpStore d c j e.addr v s

/-! ### The merge buffer (R160) -/

/-- Writes an entry back from mc `m` on: whole where its mask is full, else by read-modify-write, for which the bank is busy
96 mc. Answers the mc of its activate. A whole write takes the group bus 20 mc after its activate; of a read-modify-write, the
read beat 38 mc and the written beat 68 mc after it (DESIGN CHOICE, log entry 87). -/
def bpWriteBack (d : Stack) (c : CoreIx) (j m : Nat) (e : MergeEntry) (s : State) : Nat × State :=
  let b := getBp s d c j
  let bank := offBank e.addr
  let full := e.mask = BitVec.allOnes 64
  let runs := if full then [(20, 1)] else [(38, 1), (68, 1)]
  let busy := if full then 48 else 96
  let a := bankAct b bank runs m
  let s := updBp d c j (fun b =>
    noteWrite (a + busy) (noteAct bank a busy runs { b with merge := b.merge.filter fun x => x.addr ≠ e.addr })) s
  let s := creditRow d c j e.addr s
  if full then (a, addAct d j (96 + 30) (bpStore d c j e.addr e.data s))
  else (a, addAct d j (192 + 22 + 30) (bpRmw d c j e s))

/-- Writes entries back in order. -/
def bpWriteBacks (d : Stack) (c : CoreIx) (j m : Nat) (l : List MergeEntry) (s : State) : State :=
  forAll l (fun e s => (bpWriteBack d c j m e s).2) s

/-- The entries whose words lie in `n` bytes from a group offset. -/
def entriesIn (m : List MergeEntry) (off n : Nat) : List MergeEntry :=
  m.filter fun e => decide (off < e.addr + 64) && decide (e.addr < off + n)

/-! ### Bank instructions (R168) -/

/-- Is a range of beats a legal one of a bank: aligned, inside its row and its group? -/
def bankRange (off n : Nat) : Bool :=
  decide (off % 128 = 0) && decide (off % 2048 + 128 * n ≤ 2048) && decide (off < 2 ^ 26)

/-- The beats of a bank instruction. -/
def bvBeats (w : Nat) : Nat := fF7 w % 16 + 1

/-- The words of `n` beats from a group offset. -/
def beatWords (n : Nat) : List Nat := List.range (2 * n)

/-- BV.LDR: beats from a bank to scratch. Live entries of its words are written back first. -/
def bvLdr (d : Stack) (c : CoreIx) (j w : Nat) (s : State) : State :=
  let b := getBp s d c j
  let off := (bpX b (fRs1 w)).toNat
  let n := bvBeats w
  match bankRange off n, inScratch (bpX b (fRs2 w)).toNat (128 * n) with
  | true, some sc =>
    let m := bpWait b [kX (fRs1 w), kX (fRs2 w)]
    let s := bpWriteBacks d c j m (entriesIn b.merge off (128 * n)) s
    let b := getBp s d c j
    let a := bankAct b (offBank off) [(38, n)] m
    let s := forAll (beatWords n) (fun i s =>
      let (v, _, s) := bpLoad d c j (off + 64 * i) s
      writeMem (scratchKey d c j (sc + 64 * i)) 64 v.toNat s) s
    let s := creditRow d c j off (addAct d j (96 + 22 * n) s)
    updBp d c j (fun b =>
      let b := (List.range n).foldl (fun b i => (scratchKeys (sc + 128 * i) 128).foldl (fun b k => readyAt k (a + 38 + i) b)
        (useScratch (sc + 128 * i) 128 (a + 38 + i) b)) (noteAct (offBank off) a 48 [(38, n)] b)
      bpNext a 1 (b.pc + 4) b) s
  | _, _ => bpTrapAt d c j (bpWait b [kX (fRs1 w), kX (fRs2 w)]) tAccess s

/-- BV.STR: beats from scratch to a bank. Whole words discard live entries. -/
def bvStr (d : Stack) (c : CoreIx) (j w : Nat) (s : State) : State :=
  let b := getBp s d c j
  let off := (bpX b (fRs1 w)).toNat
  let n := bvBeats w
  match bankRange off n, inScratch (bpX b (fRs2 w)).toNat (128 * n) with
  | true, some sc =>
    let m := bpWait b ([kX (fRs1 w), kX (fRs2 w)] ++ scratchKeys sc (128 * n))
    let a := bankAct b (offBank off) [(20, n)] m
    let gone := entriesIn b.merge off (128 * n)
    let s := forAll (beatWords n) (fun i s =>
      bpStore d c j (off + 64 * i) (BitVec.ofNat 512 (readMem s (scratchKey d c j (sc + 64 * i)) 64)) s) s
    let s := creditRow d c j off (addAct d j (96 + 30 * n) s)
    updBp d c j (fun b =>
      let b := { b with merge := b.merge.filter fun e => !gone.contains e }
      let b := (List.range n).foldl (fun b i => useScratch (sc + 128 * i) 128 (a + 20 + i) b) (noteAct (offBank off) a 48 [(20, n)] b)
      bpNext a 1 (b.pc + 4) (noteWrite (a + 48) b)) s
  | _, _ => bpTrapAt d c j (bpWait b [kX (fRs1 w), kX (fRs2 w)]) tAccess s

/-- BV.STP: bytes of scratch into the merge buffer. -/
def bvStp (d : Stack) (c : CoreIx) (j w : Nat) (s : State) : State :=
  let b := getBp s d c j
  let off := (bpX b (fRs1 w)).toNat
  let n := fF7 w + 1
  match decide (off % 64 + n ≤ 64) && decide (off < 2 ^ 26), inScratch (bpX b (fRs2 w)).toNat n with
  | true, some sc =>
    let m := bpWait b ([kX (fRs1 w), kX (fRs2 w)] ++ scratchKeys sc n)
    let word := off / 64 * 64
    let mask := maskFor word off n
    let data := dataFor word off (readMem s (scratchKey d c j sc) n)
    let (m, e, s) : Nat × MergeEntry × State := match liveEntry b.merge word with
      | some e => (m, { e with data := maskBytes mask e.data data, mask := e.mask ||| mask }, s)
      | none =>
        let (m, s) := match b.merge with
          | o :: _ => if 4 ≤ b.merge.length then
              let (a, s) := bpWriteBack d c j m o s
              (max m a, s) else (m, s)
          | [] => (m, s)
        (m, ⟨word, maskBytes mask 0 data, mask, m⟩, s)
    let s := updBp d c j (fun b =>
      let l := if (liveEntry b.merge word).isSome then b.merge.map (fun x => if x.addr = word then e else x) else b.merge ++ [e]
      bpNext m 1 (b.pc + 4) (useScratch sc n m { b with merge := l })) s
    if e.mask = BitVec.allOnes 64 then (bpWriteBack d c j (m + 2) e s).2 else s
  | _, _ => bpTrapAt d c j (bpWait b [kX (fRs1 w), kX (fRs2 w)]) tAccess s

/-- BV.CPY: beats from a bank to a bank of the group; a word whose source is bad is not written. A live merge entry of a
destination word that is written is discarded, as by a BV.STR (DESIGN CHOICE, log entry 87). -/
def bvCpy (d : Stack) (c : CoreIx) (j w : Nat) (s : State) : State :=
  let b := getBp s d c j
  let src := (bpX b (fRs1 w)).toNat
  let dst := (bpX b (fRs2 w)).toNat
  let n := bvBeats w
  if bankRange src n && bankRange dst n then
    let m := bpWait b [kX (fRs1 w), kX (fRs2 w)]
    let s := bpWriteBacks d c j m (entriesIn b.merge src (128 * n)) s
    let a := bankAct (getBp s d c j) (offBank src) [(38, n)] m
    let s := updBp d c j (noteAct (offBank src) a 48 [(38, n)]) s
    let a' := bankAct (getBp s d c j) (offBank dst) [(20, n)] (a + 38)
    let s := updBp d c j (fun b => noteWrite (a' + 48) (noteAct (offBank dst) a' 48 [(20, n)] b)) s
    let gone := entriesIn (getBp s d c j).merge dst (128 * n)
    let (words, s) := (beatWords n).foldl (fun (r : List (Nat × BitVec 512) × State) i =>
      let (v, o, s) := bpLoad d c j (src + 64 * i) r.2
      (if badOutcome o then r.1 else r.1 ++ [(i, v)], s)) ([], s)
    let s := forAll words (fun p s => bpStore d c j (dst + 64 * p.1) p.2 s) s
    let written := words.map fun p => dst + 64 * p.1
    let s := creditRow d c j dst (creditRow d c j src (addAct d j (192 + 52 * n) s))
    updBp d c j (fun b => bpNext a 1 (b.pc + 4)
      { b with merge := b.merge.filter fun e => !(gone.contains e && written.contains e.addr) }) s
  else bpTrapAt d c j (bpWait b [kX (fRs1 w), kX (fRs2 w)]) tAccess s

/-- BV.FENCE and BV.HALT: every entry is written back, oldest first, and every bank write has reached the bank. -/
def bvFence (d : Stack) (c : CoreIx) (j : Nat) (halt : Bool) (s : State) : State :=
  let b := getBp s d c j
  let s := bpWriteBacks d c j b.mc b.merge s
  updBp d c j (fun b =>
    let m := max b.mc (sget 0 b.ready kWrite)
    if halt then { b with mc := m, run := .halted } else bpNext m 1 (b.pc + 4) b) s

/-- The oldest entry has been live for MTO × 4 mc (0 acts as 1) and is written back (R160). -/
def bpMergeTimeout (d : Stack) (c : CoreIx) (j : Nat) (s : State) : State :=
  match (getBp s d c j).merge with
  | e :: _ => (bpWriteBack d c j (e.taken + 4 * max 1 (getF s (r_BP_CTRL d j c) f_BP_CTRL_MTO)) e s).2
  | [] => s

/-! ### The next instruction -/

/-- A parity error that an instruction of a BP detected in its scratch or registers is recorded at the BP's unit and poisons the step
(R287, R297); `s`: the state after the instruction. -/
def bpParity (d : Stack) (c : CoreIx) (j : Nat) (parity : Bool) (s : State) : State :=
  if parity then poisonStep d c (recordErr (.core d c) (16 + j) kParity (getCore s d c).sel (2 * (getBp s d c j).mc) s) else s

/-- The effect of an instruction of a custom opcode. -/
def bpCustomRun (d : Stack) (c : CoreIx) (j : Nat) (o : BpOp) (w : Nat) (s : State) : State :=
  match o with
  | .bvLdr => bvLdr d c j w s
  | .bvStr => bvStr d c j w s
  | .bvStp => bvStp d c j w s
  | .bvCpy => bvCpy d c j w s
  | .bvFence => bvFence d c j false s
  | .bvHalt => bvFence d c j true s
  | o => bpVector d c j o w s

/-- Executes the instruction of a custom opcode that stands at the pc of a running BP, if it is an `o`, with the parity check of what
it reads. -/
def bpCustom (d : Stack) (c : CoreIx) (j : Nat) (o : BpOp) (parity : Bool) (s : State) : State :=
  if (getBp s d c j).run = .running then
    match bpFetch s d c j with
    | some (w, 4) => if customOp w = some o then bpParity d c j parity (bpCustomRun d c j o w s) else s
    | _ => s
  else s

/-- Executes the scalar instruction at the pc of a running BP; encodings that are no instruction at all trap. `ue`: the
program-memory word is uncorrectable; `parity`: what it reads of scratch has a parity error. -/
def bpScalarRow (d : Stack) (c : CoreIx) (j : Nat) (ue parity : Bool) (s : State) : State :=
  if (getBp s d c j).run = .running then
    match bpFetch s d c j with
    | none => bpTrap d c j tAccess s
    | some (w, len) =>
      if ue then bpTrap d c j tFetchUe s
      else if len = 2 then
        match expandC w with
        | some w' => bpParity d c j parity (bpScalar d c j w' 2 s)
        | none => bpTrap d c j tIllegal s
      else match customOp w with
        | some _ => s
        | none => bpParity d c j parity (bpScalar d c j w 4 s)
  else s

/-- BP_CTRL.STOP stops a running BP at its next instruction boundary (R174). -/
def bpStop (d : Stack) (c : CoreIx) (j : Nat) (s : State) : State :=
  if (getBp s d c j).run = .running then bpTrap d c j tStopped s else s

end Sys2Proof.Machine
end

