-- ==== Sys2Proof/Machine/CoreCmds.lean ====
section
/-! DEFINITION. The commands of a core: launches, the sequencer's slots, and one meaning for each kind of step-program word. A
word's command issues the core's next word if it is of that kind (log entry 2). -/
namespace Sys2Proof.Machine

/-- After anything a core has done: a gate result that came with ERR makes the die node flood ABORT (R219). -/
def gateCheck (d : Stack) (c : CoreIx) (s : State) : State :=
  if (getCore s d c).gateErr then floodAbort d cAbort none (updCore d c (fun x => { x with gateErr := false }) s) else s

/-- A detected error of a core's datapath is recorded and poisons the step (R51, R88, R297). -/
def coreError (d : Stack) (c : CoreIx) (st : Station) (unit kind : Nat) (s : State) : State :=
  let x := getCore s d c
  poisonStep d c (recordErr st unit kind x.sel (x.now - x.start) s)

/-- The next word of a core issues if it is of a kind; `errs`: station, unit and kind of the checks that failed on what it read; `ups`:
the upsets that its beats or sectors meet. -/
def issueWith (d : Stack) (c : CoreIx) (row : WordRow → Bool) (errs : List (Station × Nat × Nat)) (ups : List Upsets) (s : State) : State :=
  gateCheck d c (issueRow d c (fun w => row (rowOf w)) (forAll errs fun e => coreError d c e.1 e.2.1 e.2.2) ups s)

/-- The next word of a core issues if it is of a kind; `bad`: parity or a check failed on what it read. -/
def issueKind (d : Stack) (c : CoreIx) (row : WordRow → Bool) (bad : Bool) (unit kind : Nat) (s : State) : State :=
  issueWith d c row (if bad then [(.core d c, unit, kind)] else []) [] s

/-- Parity errors that the head stores of cores showed as a command started their steps (R287): `t` is the state after it. -/
def headCheck (d : Stack) (heads : List CoreIx) (s t : State) : State :=
  forAll heads (fun c t =>
    let x := getCore s d c
    let y := getCore t d c
    if y.running && (!x.running || x.start ≠ y.start) then gateCheck d c (coreError d c (.core d c) 4 kParity t) else t) t

/-- The next word issues if it is an SFU word of operation `op`. -/
def issueSfuOp (d : Stack) (c : CoreIx) (op : Nat) (bad : Bool) (s : State) : State :=
  issueKind d c (fun r => r == .sfu op) bad 7 kSfuCheck s

/-- A die node accepts a LAUNCH (R128). -/
def execLaunch (d : Stack) (parityOk : Bool) (s : State) : Host.Outcome State Fault Refusal :=
  done (launchArrive d false parityOk s)

/-- A LAUNCH_ELASTIC arrives; a core whose step has ended starts (R133); `heads`: the cores that start with a parity error in their
head store. -/
def execLaunchElastic (d : Stack) (parityOk : Bool) (heads : List CoreIx) (s : State) : Host.Outcome State Fault Refusal :=
  done (headCheck d heads s (elasticStarts d (launchArrive d true parityOk s)))

/-- A core's thunder count expires: a step still running ends, and the launch that waits starts (R66, R129); `gap`: the cycles by
which the crossings delay an elastic start (R133); `parity`: the head store has a parity error. -/
def execThunderCountExpiry (d : Stack) (c : CoreIx) (gap : Nat) (parity : Bool) (s : State) : Host.Outcome State Fault Refusal :=
  let x := getCore s d c
  match x.held with
  | some h =>
    let t := startCycle s d h gap
    done (headCheck d (if parity then [c] else []) s
      (beginStep d c h t (if x.running then stepClosed d c (gateCheck d c (coreStepEnd d c (t - x.start) s)) else s)))
  | none => done s

/-- A fetch slot comes (R65). -/
def execFetchSlot (d : Stack) (c : CoreIx) (upsets : Upsets) (s : State) : Host.Outcome State Fault Refusal :=
  done (gateCheck d c (fetchSlot d c upsets s))

/-- The words of a fetching slot are ready (R65). -/
def execFetchWordsReady (d : Stack) (c : CoreIx) (s : State) : Host.Outcome State Fault Refusal :=
  done (gateCheck d c (runUntil d c [] (fun a => match a with | .fetchReady .. => true | _ => false) s))

/-- A MAC block's result is added into its accumulator (R76); `bad`: the lane group whose residue check fails. -/
def execMacBlockUpdate (d : Stack) (c : CoreIx) (bad : Option (Fin 16)) (s : State) : Host.Outcome State Fault Refusal :=
  let upd := fun (a : Act) => match a with | .macUpd .. => true | _ => false
  let p := ((getCore s d c).agenda.find? fun e => upd e.act).bind fun e => match e.act with | .macUpd p .. => some p | _ => none
  let s := runUntil d c [] upd s
  match bad, p with
  | some g, some p => done (gateCheck d c (coreError d c (.engine d c p) g.val kResidue s))
  | _, _ => done (gateCheck d c s)

/-- The last entry of an OPLOAD is written (R61). -/
def execOploadComplete (d : Stack) (c : CoreIx) (s : State) : Host.Outcome State Fault Refusal :=
  done (gateCheck d c (runUntil d c [] (fun a => match a with | .opEntry _ _ _ _ _ _ l => l | _ => false) s))

/-- The next beat of a vault or BP-space read reaches tile memory, with the transfer's upsets (R63, R145). -/
def execVaultReadBeat (d : Stack) (c : CoreIx) (upsets : Upsets) (s : State) : Host.Outcome State Fault Refusal :=
  done (gateCheck d c (runUntil d c upsets (fun a => match a with | .beatIn .. | .bpDeliver .. => true | _ => false) s))

/-- A step of a die reaches its end offset (R119, R149, R151); an elastic launch that waits then starts; `heads`: the cores that start
with a parity error in their head store. -/
def execStepEndOffset (d : Stack) (len : Nat) (heads : List CoreIx) (s : State) : Host.Outcome State Fault Refusal :=
  done (headCheck d heads s
    (elasticStarts d (forAll allCores (fun c s => stepClosed d c s) (forAll allCores (fun c s => gateCheck d c s) (stepEnd d len s)))))

/-- Tile memory has been zeroed and INIT_DONE is set (R85). -/
def execTileInitDone (d : Stack) (c : CoreIx) (s : State) : Host.Outcome State Fault Refusal :=
  if (getCore s d c).initialising then
    done (putF (r_CORE_STATUS d c) f_CORE_STATUS_INIT_DONE 1 (updCore d c (fun x => { x with initialising := false }) s))
  else done s

/-- The core's next word issues if it is a RECV; `gate`: it takes the beat of the gate result (R124, R219). -/
def execRecv (d : Stack) (c : CoreIx) (gate : Bool) (s : State) : Host.Outcome State Fault Refusal :=
  let ix := (getCore s d c).wordIx
  done (gateCheck d c (issueRow d c (fun w => rowOf w == .recv)
    (fun s => if gate then updCore d c (fun x => { x with gateWord := some ix }) s else s) [] s))

/-- The core's next word issues if it is a NOP word (R67). -/
def execNop (d : Stack) (c : CoreIx) (s : State) : Host.Outcome State Fault Refusal :=
  done (issueKind d c (fun r => r == .nop) false 0 0 s)

/-- The core's next word issues if it is a MAC word (R70); `parity`: what it read of the weight buffer had a parity error; `sets`: the
engine whose operand set had one (R287). -/
def execMac (d : Stack) (c : CoreIx) (parity : Bool) (sets : Option (Fin 4)) (s : State) : Host.Outcome State Fault Refusal :=
  done (issueWith d c (fun r => r == .mac)
    ((sets.toList.map fun e => (.engine d c e.val, 16, kParity)) ++ (if parity then [(.core d c, 5, kParity)] else [])) [] s)

/-- The core's next word issues if it is an OPLOAD word (R61); `parity`: what it read had a parity error. -/
def execOpload (d : Stack) (c : CoreIx) (parity : Bool) (s : State) : Host.Outcome State Fault Refusal :=
  done (issueKind d c (fun r => r == .opload) parity 6 kParity s)

/-- The core's next word issues if it is a SWAP word (R62). -/
def execSwap (d : Stack) (c : CoreIx) (s : State) : Host.Outcome State Fault Refusal :=
  done (issueKind d c (fun r => r == .swap) false 0 0 s)

/-- The core's next word issues if it is a DRAIN word (R72); `parity`: what it read had a parity error; `check`: the SFU's residue or
table parity check failed in its epilogue (R88). -/
def execDrain (d : Stack) (c : CoreIx) (parity check : Bool) (s : State) : Host.Outcome State Fault Refusal :=
  let epi := match nextWord s d c with | some (_, w) => wbits w 83 76 ≠ 0 | none => false
  done (issueKind d c (fun r => r == .drain) (parity || (check && epi)) (if check && epi then 7 else 6)
    (if check && epi then kSfuCheck else kParity) s)

/-- The core's next word issues if it is an ACCLD word (R73); `parity`: what it read had a parity error. -/
def execAccld (d : Stack) (c : CoreIx) (parity : Bool) (s : State) : Host.Outcome State Fault Refusal :=
  done (issueKind d c (fun r => r == .accld) parity 6 kParity s)

/-- The core's next word issues if it is a VDMA word (R74); `parity`: what it read of tile memory had a parity error; `upsets`: those of
a write's beats on the vertical interface. -/
def execVdma (d : Stack) (c : CoreIx) (parity : Bool) (upsets : List Upsets) (s : State) : Host.Outcome State Fault Refusal :=
  done (issueWith d c (fun r => r == .vdma) (if parity then [(.core d c, 6, kParity)] else []) upsets s)

/-- The core's next word issues if it is an END word (R67). -/
def execEndWord (d : Stack) (c : CoreIx) (s : State) : Host.Outcome State Fault Refusal :=
  done (issueKind d c (fun r => r == .endWord) false 0 0 s)

/-- The core's next word issues if it is a ROUTE word (R118). -/
def execRoute (d : Stack) (c : CoreIx) (s : State) : Host.Outcome State Fault Refusal :=
  done (issueKind d c (fun r => r == .route) false 0 0 s)

/-- The core's next word issues if it is a SEND word (R124); `parity`: what it read had a parity error. -/
def execSend (d : Stack) (c : CoreIx) (parity : Bool) (s : State) : Host.Outcome State Fault Refusal :=
  done (issueKind d c (fun r => r == .send) parity 6 kParity s)

/-- The core's next word issues if it is a RSEND word (R124); `parity`: what it read had a parity error. -/
def execRsend (d : Stack) (c : CoreIx) (parity : Bool) (s : State) : Host.Outcome State Fault Refusal :=
  done (issueKind d c (fun r => r == .rsend) parity 6 kParity s)

/-- The core's next word issues if it is a BP_START word (R149). -/
def execBpStart (d : Stack) (c : CoreIx) (s : State) : Host.Outcome State Fault Refusal :=
  done (issueKind d c (fun r => r == .bpStart) false 0 0 s)

/-- The core's next word issues if it is a BP_RELEASE word (R149). -/
def execBpRelease (d : Stack) (c : CoreIx) (s : State) : Host.Outcome State Fault Refusal :=
  done (issueKind d c (fun r => r == .bpRelease) false 0 0 s)

/-- What a parity error in staging memory records: unit 5 of the core's cluster (R287, R297). -/
def stagingParity (d : Stack) (c : CoreIx) (parity : Bool) : List (Station × Nat × Nat) :=
  if parity then [(.cluster d (clusterOf c), 5, kParity)] else []

/-- The core's next word issues if it is a LDMA_READ word (R273); `upsets`: those of its sectors' bursts (symbol and pattern). -/
def execLdmaRead (d : Stack) (c : CoreIx) (upsets : List Upsets) (s : State) : Host.Outcome State Fault Refusal :=
  done (issueWith d c (fun r => r == .ldmaRead) [] upsets s)

/-- The core's next word issues if it is a LDMA_WRITE word (R273); `parity`: what it read of staging memory had a parity error. -/
def execLdmaWrite (d : Stack) (c : CoreIx) (parity : Bool) (s : State) : Host.Outcome State Fault Refusal :=
  done (issueWith d c (fun r => r == .ldmaWrite) (stagingParity d c parity) [] s)

/-- The core's next word issues if it is a LDMA_GATHER word (R273); `parity`: its list in staging memory had a parity error; `upsets`:
those of its sectors' bursts. -/
def execLdmaGather (d : Stack) (c : CoreIx) (parity : Bool) (upsets : List Upsets) (s : State) : Host.Outcome State Fault Refusal :=
  done (issueWith d c (fun r => r == .ldmaGather) (stagingParity d c parity) upsets s)

/-- The core's next word issues if it is a CONVERT word (R90); `check`: the SFU's residue or table parity check failed. -/
def execConvert (d : Stack) (c : CoreIx) (check : Bool) (s : State) : Host.Outcome State Fault Refusal :=
  done (issueSfuOp d c 0x01 check s)

/-- The core's next word issues if it is an ADD word (R90); `check`: the SFU's residue or table parity check failed. -/
def execAdd (d : Stack) (c : CoreIx) (check : Bool) (s : State) : Host.Outcome State Fault Refusal :=
  done (issueSfuOp d c 0x02 check s)

/-- The core's next word issues if it is a SUB word (R90); `check`: the SFU's residue or table parity check failed. -/
def execSub (d : Stack) (c : CoreIx) (check : Bool) (s : State) : Host.Outcome State Fault Refusal :=
  done (issueSfuOp d c 0x03 check s)

/-- The core's next word issues if it is a MUL word (R90); `check`: the SFU's residue or table parity check failed. -/
def execMul (d : Stack) (c : CoreIx) (check : Bool) (s : State) : Host.Outcome State Fault Refusal :=
  done (issueSfuOp d c 0x04 check s)

/-- The core's next word issues if it is a MULADD word (R90); `check`: the SFU's residue or table parity check failed. -/
def execMuladd (d : Stack) (c : CoreIx) (check : Bool) (s : State) : Host.Outcome State Fault Refusal :=
  done (issueSfuOp d c 0x05 check s)

/-- The core's next word issues if it is a MAX word (R90); `check`: the SFU's residue or table parity check failed. -/
def execMax (d : Stack) (c : CoreIx) (check : Bool) (s : State) : Host.Outcome State Fault Refusal :=
  done (issueSfuOp d c 0x06 check s)

/-- The core's next word issues if it is a MIN word (R90); `check`: the SFU's residue or table parity check failed. -/
def execMin (d : Stack) (c : CoreIx) (check : Bool) (s : State) : Host.Outcome State Fault Refusal :=
  done (issueSfuOp d c 0x07 check s)

/-- The core's next word issues if it is a RELU word (R90); `check`: the SFU's residue or table parity check failed. -/
def execRelu (d : Stack) (c : CoreIx) (check : Bool) (s : State) : Host.Outcome State Fault Refusal :=
  done (issueSfuOp d c 0x08 check s)

/-- The core's next word issues if it is an EXP word (R94); `check`: the SFU's residue or table parity check failed. -/
def execExp (d : Stack) (c : CoreIx) (check : Bool) (s : State) : Host.Outcome State Fault Refusal :=
  done (issueSfuOp d c 0x10 check s)

/-- The core's next word issues if it is an EXP2 word (R94); `check`: the SFU's residue or table parity check failed. -/
def execExp2 (d : Stack) (c : CoreIx) (check : Bool) (s : State) : Host.Outcome State Fault Refusal :=
  done (issueSfuOp d c 0x11 check s)

/-- The core's next word issues if it is an LOG word (R94); `check`: the SFU's residue or table parity check failed. -/
def execLog (d : Stack) (c : CoreIx) (check : Bool) (s : State) : Host.Outcome State Fault Refusal :=
  done (issueSfuOp d c 0x12 check s)

/-- The core's next word issues if it is an LOG2 word (R94); `check`: the SFU's residue or table parity check failed. -/
def execLog2 (d : Stack) (c : CoreIx) (check : Bool) (s : State) : Host.Outcome State Fault Refusal :=
  done (issueSfuOp d c 0x13 check s)

/-- The core's next word issues if it is an RCP word (R94); `check`: the SFU's residue or table parity check failed. -/
def execRcp (d : Stack) (c : CoreIx) (check : Bool) (s : State) : Host.Outcome State Fault Refusal :=
  done (issueSfuOp d c 0x14 check s)

/-- The core's next word issues if it is an RSQRT word (R94); `check`: the SFU's residue or table parity check failed. -/
def execRsqrt (d : Stack) (c : CoreIx) (check : Bool) (s : State) : Host.Outcome State Fault Refusal :=
  done (issueSfuOp d c 0x15 check s)

/-- The core's next word issues if it is an SQRT word (R94); `check`: the SFU's residue or table parity check failed. -/
def execSqrt (d : Stack) (c : CoreIx) (check : Bool) (s : State) : Host.Outcome State Fault Refusal :=
  done (issueSfuOp d c 0x16 check s)

/-- The core's next word issues if it is a SIGMOID word (R94); `check`: the SFU's residue or table parity check failed. -/
def execSigmoid (d : Stack) (c : CoreIx) (check : Bool) (s : State) : Host.Outcome State Fault Refusal :=
  done (issueSfuOp d c 0x17 check s)

/-- The core's next word issues if it is a TANH word (R94); `check`: the SFU's residue or table parity check failed. -/
def execTanh (d : Stack) (c : CoreIx) (check : Bool) (s : State) : Host.Outcome State Fault Refusal :=
  done (issueSfuOp d c 0x18 check s)

/-- The core's next word issues if it is an SILU word (R94); `check`: the SFU's residue or table parity check failed. -/
def execSilu (d : Stack) (c : CoreIx) (check : Bool) (s : State) : Host.Outcome State Fault Refusal :=
  done (issueSfuOp d c 0x19 check s)

/-- The core's next word issues if it is a GELU word (R94); `check`: the SFU's residue or table parity check failed. -/
def execGelu (d : Stack) (c : CoreIx) (check : Bool) (s : State) : Host.Outcome State Fault Refusal :=
  done (issueSfuOp d c 0x1A check s)

/-- The core's next word issues if it is a SOFTPLUS word (R94); `check`: the SFU's residue or table parity check failed. -/
def execSoftplus (d : Stack) (c : CoreIx) (check : Bool) (s : State) : Host.Outcome State Fault Refusal :=
  done (issueSfuOp d c 0x1B check s)

/-- The core's next word issues if it is a SINPI word (R94); `check`: the SFU's residue or table parity check failed. -/
def execSinpi (d : Stack) (c : CoreIx) (check : Bool) (s : State) : Host.Outcome State Fault Refusal :=
  done (issueSfuOp d c 0x1C check s)

/-- The core's next word issues if it is a COSPI word (R94); `check`: the SFU's residue or table parity check failed. -/
def execCospi (d : Stack) (c : CoreIx) (check : Bool) (s : State) : Host.Outcome State Fault Refusal :=
  done (issueSfuOp d c 0x1D check s)

/-- The core's next word issues if it is an RSUM word (R96); `check`: the SFU's residue or table parity check failed. -/
def execRsum (d : Stack) (c : CoreIx) (check : Bool) (s : State) : Host.Outcome State Fault Refusal :=
  done (issueSfuOp d c 0x20 check s)

/-- The core's next word issues if it is an RSUMSQ word (R96); `check`: the SFU's residue or table parity check failed. -/
def execRsumsq (d : Stack) (c : CoreIx) (check : Bool) (s : State) : Host.Outcome State Fault Refusal :=
  done (issueSfuOp d c 0x21 check s)

/-- The core's next word issues if it is an RMAX word (R96); `check`: the SFU's residue or table parity check failed. -/
def execRmax (d : Stack) (c : CoreIx) (check : Bool) (s : State) : Host.Outcome State Fault Refusal :=
  done (issueSfuOp d c 0x22 check s)

/-- The core's next word issues if it is a SOFTMAX word (R97); `check`: the SFU's residue or table parity check failed. -/
def execSoftmax (d : Stack) (c : CoreIx) (check : Bool) (s : State) : Host.Outcome State Fault Refusal :=
  done (issueSfuOp d c 0x28 check s)

/-- The core's next word issues if it is an RMSNORM word (R101); `check`: the SFU's residue or table parity check failed. -/
def execRmsnorm (d : Stack) (c : CoreIx) (check : Bool) (s : State) : Host.Outcome State Fault Refusal :=
  done (issueSfuOp d c 0x29 check s)

/-- The core's next word issues if it is an LAYERNORM word (R102); `check`: the SFU's residue or table parity check failed. -/
def execLayernorm (d : Stack) (c : CoreIx) (check : Bool) (s : State) : Host.Outcome State Fault Refusal :=
  done (issueSfuOp d c 0x2A check s)

/-- The core's next word issues if it is an SMERGE word (R100); `check`: the SFU's residue or table parity check failed. -/
def execSmerge (d : Stack) (c : CoreIx) (check : Bool) (s : State) : Host.Outcome State Fault Refusal :=
  done (issueSfuOp d c 0x2B check s)

end Sys2Proof.Machine
end

