-- ==== Sys2Proof/Machine/Disp.lean ====
section
/-! DEFINITION. The hub dispatcher (R234 to R254): objects, instances, gates, readiness, choice and launch, with the output rings
(R313, R316). -/
namespace Sys2Proof.Machine

/-! ### Synchronisation objects (R236, R240 to R242) -/

/-- The number of a local object among the observed values: package objects stand below 2^14. -/
def localKey (d : Stack) (i : Nat) : Nat := 2 ^ 14 + 4096 * d.val + i

/-- The object that a reference names for an instance's graph and session. -/
def objKey (g : Graph) (slot : Option Nat) (ref : Nat) : Nat :=
  match bits ref 15 14 with
  | 0 => bits ref 13 0
  | 1 => g.objBase + bits ref 13 0
  | 2 => 3 * slot.getD 0 + bits ref 13 0
  | _ => 2 ^ 14 + 4096 * bits ref 20 16 + bits ref 13 0

/-- The register of an object. -/
def objReg (key : Nat) : Nat :=
  if key < 2 ^ 14 then r_SYNC_OBJ key
  else match stackIx ((key - 2 ^ 14) / 4096) with
    | some d => r_LSYNC_OBJ d (key % 4096)
    | none => r_SYNC_OBJ 0

/-- An object's value. -/
def objValue (s : State) (key : Nat) : Nat := (getReg s (objReg key)).toNat

/-- Sets an object: a package object's change goes to the dispatcher, a local one waits for its die's ring slot. -/
def setObj (key v : Nat) (s : State) : State :=
  let s := putReg s (objReg key) (BitVec.ofNat 64 v)
  if key < 2 ^ 14 then updSvc (fun x => { x with changes := x.changes ++ [(key, v % 2 ^ 64)] }) s
  else match stackIx ((key - 2 ^ 14) / 4096) with
    | some d => updDie d (fun x => { x with forward := x.forward ++ [key % 4096] }) s
    | none => s

/-- Adds to an object, modulo 2^64. -/
def addObj (key n : Nat) (s : State) : State := setObj key ((objValue s key + n) % 2 ^ 64) s

/-- The session objects of a slot. -/
def oStepDone (slot : Nat) : Nat := 3 * slot
def oPagesReady (slot : Nat) : Nat := 3 * slot + 1
def oMaintDone (slot : Nat) : Nat := 3 * slot + 2

/-! ### Output rings (R311, R313, R316) -/

/-- Free records of a ring. -/
def ringFree (r : Ring) : Nat := 2 ^ r.k - (r.prod + 2 ^ 32 - r.cons) % 2 ^ 32

/-- Writes one record into a session's output ring, and the producer index behind it. -/
def putOut (slot : Nat) (data : Nat) (s : State) : State :=
  match getSess s slot with
  | none => s
  | some x =>
    match getRing s x.outRing with
    | none => s
    | some r =>
      let p := (r.prod + 1) % 2 ^ 32
      let s := sendStore (r.base + 0x80 + 128 * (r.prod % 2 ^ r.k)) 128 data s
      let s := putRing x.outRing (some { r with prod := p }) (updSess slot (fun x => { x with outProd := p }) s)
      sendIndex r.base 64 p s

/-- Room of a session's output ring in records. -/
def outRoom (s : State) (slot : Nat) : Nat :=
  match getSess s slot with
  | some x => match getRing s x.outRing with | some r => ringFree r | none => 0
  | none => 0

/-- The bytes of an EVENT record. -/
def eventRecord (cpos code subject data : Nat) : Nat :=
  3 + 2 ^ 32 * (cpos % 2 ^ 32) + 2 ^ 640 * (code % 2 ^ 16) + 2 ^ 672 * (subject % 2 ^ 32) + 2 ^ 704 * (data % 2 ^ 64)

/-- A record for a session's output ring: written, or held behind the records that already wait for room (R316). A full ring holds
up its own session only (R251). -/
def writeOut (slot : Nat) (data : Nat) (s : State) : State :=
  match getSess s slot with
  | none => s
  | some x =>
    if outRoom s slot = 0 ∨ x.heldOut ≠ [] then updSess slot (fun x => { x with heldOut := x.heldOut ++ [data] }) s
    else putOut slot data s

/-- Posts a session event (R316). -/
def postSess (slot code data subject : Nat) (s : State) : State :=
  match getSess s slot with
  | none => s
  | some x => writeOut slot (eventRecord x.cpos code subject data) s

/-- Writes held records while the ring has room; `n` bounds them. -/
def flushSess : Nat → Nat → State → State
  | 0, _, s => s
  | n + 1, slot, s =>
    match getSess s slot with
    | none => s
    | some x => match x.heldOut with
      | [] => s
      | r :: rest =>
        if outRoom s slot = 0 then s
        else flushSess n slot (putOut slot r (updSess slot (fun x => { x with heldOut := rest }) s))

def seDropped : Nat := 0x0100
def seLaneHalted : Nat := 0x0101
def seDecodeEnd : Nat := 0x0102
def seStale : Nat := 0x0103
def seClosed : Nat := 0x0104

/-! ### Records and lanes -/

def kGeneric : Nat := 0
def kPrefill : Nat := 1
def kDecode : Nat := 2
def kCopy : Nat := 3
def kFork : Nat := 4
def kClose : Nat := 5
def kTruncate : Nat := 6

/-- A record that no index names. -/
def noTask : TaskRec := ⟨0, 0, 0, 0, 0, 0, 0, 0, 0, 0, 0, [], []⟩

/-- The task record of an instance. -/
def taskOf (g : Graph) (x : Inst) : TaskRec := g.tasks.getD x.task noTask

/-- The lane entry of a record. -/
def laneRecOf (g : Graph) (t : TaskRec) : LaneRec := g.lanes.getD t.lane ⟨0, 4⟩

/-- AHEAD of a record's lane: zero acts as 4. -/
def aheadOf (g : Graph) (t : TaskRec) : Nat := let a := (laneRecOf g t).ahead; if a = 0 then 4 else a

/-- The package lane number (R234). -/
def laneNo (k lane : Nat) : Nat := 16 * k + lane

/-- Is a record's kind one of the MAINT kinds? -/
def isMaint (t : TaskRec) : Bool := decide (kCopy ≤ t.kind)

/-- Instances of a session. -/
def instsOf (s : State) (slot : Nat) : List (Nat × Inst) :=
  (instIds s).filterMap fun i => match getInst s i with | some x => if x.slot = some slot then some (i, x) else none | none => none

/-- Kind of an instance. -/
def kindOf (s : State) (x : Inst) : Nat := match getGraph s x.graph with | some g => (taskOf g x).kind | none => 0

/-- Does a session have an instance of a kind? -/
def hasKind (s : State) (slot kind : Nat) : Bool := (instsOf s slot).any fun p => kindOf s p.2 == kind

/-- The first MAINT instance of a kind of a session. -/
def maintInst (s : State) (slot kind : Nat) : Option (Nat × Inst) := (instsOf s slot).find? fun p => kindOf s p.2 == kind

/-! ### Creating instances (R238) -/

/-- The lowest free entry of the instance store (log entry 26). -/
def freeInst : Nat → Nat → SMap (Option Inst) → Nat
  | 0, i, _ => i
  | _ + 1, i, [] => i
  | n + 1, i, (j, _) :: m => if i = j then freeInst n (i + 1) m else i

/-- Creates an instance of a record; its GE_REL waits start from the objects' present values (R237). -/
def createInst (k task : Nat) (slot : Option Nat) (arg : Nat) (supplied : List (Nat × Nat × Nat × Nat)) (s : State) : State :=
  match getGraph s k with
  | none => s
  | some g =>
    match g.tasks[task]? with
    | none => s
    | some t =>
      let i := freeInst 98304 0 s.svc.insts
      putInst i (some { graph := k, task := task, slot := slot, left := t.count, standing := t.flags.testBit 1, out := 0, last := 0,
                        base := t.waits.map fun w => objValue s (objKey g slot w.ref), poisons := 0, arg := arg,
                        supplied := supplied, worked := false, unused := [], pinFail := false }) s

/-- The records of a graph that meet a condition. -/
def tasksWhere (g : Graph) (p : TaskRec → Bool) : List Nat :=
  (List.range g.tasks.length).filter fun i => match g.tasks[i]? with | some t => p t | none => false

/-- One instance of every DECODE and PREFILL template for a session. -/
def createTemplates (k slot : Nat) (s : State) : State :=
  match getGraph s k with
  | none => s
  | some g => forAll (tasksWhere g fun t => t.flags.testBit 0 && (t.kind == kDecode || t.kind == kPrefill))
      (fun i s => createInst k i (some slot) 0 [] s) s

/-- The parameter block of a record for a slot: PADDR, plus PSTRIDE × slot for a template (R246). -/
def blockAddr (t : TaskRec) (slot : Option Nat) : Nat :=
  t.paddr + (match slot with | some n => if t.flags.testBit 0 then t.pstride * n else 0 | none => 0)

/-- The supplied slots of a COPY task as its parameters: NEAR entry, layer and head group, slot and frame, 4 B each. -/
def suppliedBytes (l : List (Nat × Nat × Nat × Nat)) : Nat :=
  packCodes 32 (l.flatMap fun q => [q.1, q.2.1, q.2.2.1, q.2.2.2])

/-- One instance of the MAINT template of a kind for a session; the hub writes its parameters, as many bytes as the record's
parameter block has, into the block (R238, log entry 90). -/
def createMaint (k kind slot arg : Nat) (supplied : List (Nat × Nat × Nat × Nat)) (params : Nat) (s : State) : State :=
  match getGraph s k with
  | none => s
  | some g => match tasksWhere g fun t => t.flags.testBit 0 && t.kind == kind with
    | i :: _ =>
      let t := g.tasks.getD i noTask
      let n := min t.psize (if kind = kCopy then 16 * supplied.length else 32)
      createInst k i (some slot) arg supplied (if n = 0 then s else devWrite (blockAddr t (some slot)) n (params % 2 ^ (8 * n)) s)
    | [] => s

/-- A SET 1 to a trigger object creates an instance of the record it names, or adds COUNT to the instance that exists. -/
def fireTrigger (k obj : Nat) (s : State) : State :=
  match getGraph s k with
  | none => s
  | some g =>
    match g.place.triggers.find? fun x => x.1 == obj with
    | none => s
    | some (_, task) =>
      match (instIds s).find? fun i => match getInst s i with | some x => x.graph == k && x.task == task && x.slot.isNone | none => false with
      | some i => updInst i (fun x => { x with left := min (x.left + (taskOf g x).count) 65535 }) s
      | none => createInst k task none 0 [] s

/-- The loaded graph that owns a pool object, and the object's index in it (R240). -/
def objOwner (s : State) (key : Nat) : Option (Nat × Nat) :=
  (graphKeys s).findSome? fun k => match getGraph s k with
    | some g => if g.objBase ≤ key ∧ key < g.objBase + g.nobj then some (k, key - g.objBase) else none
    | none => none

/-- A signal entry of an instance applies (R237). A SET 1 that reaches a trigger object by any reference fires it (R238). -/
def applySig (k : Nat) (slot : Option Nat) (e : ObjOp) (s : State) : State :=
  match getGraph s k with
  | none => s
  | some g =>
    let key := objKey g slot e.ref
    if e.op = 1 then addObj key e.value s
    else
      let s := setObj key e.value s
      if e.value = 1 then match objOwner s key with | some (j, n) => fireTrigger j n s | none => s else s

/-! ### Readiness (R239, R243) -/

/-- Pending input tokens of a session. -/
def pendTokens (x : Sess) : Nat := x.pend.foldl (fun n p => n + p.2.length) 0

/-- Does a gate mask hold for a session? -/
def gatesHold (s : State) (g : Graph) (t : TaskRec) (slot : Nat) : Bool :=
  match getSess s slot with
  | none => false
  | some x =>
    (!t.gates.testBit 0 || x.pend ≠ []) && (!t.gates.testBit 1 || x.pend.isEmpty) && (!t.gates.testBit 2 || decide (0 < x.budget)) &&
      (!t.gates.testBit 3 || decide (aheadOf g t ≤ outRoom s slot)) &&
      (t.kind != kPrefill || x.pend ≠ []) && (t.kind != kDecode || (x.pend.isEmpty && decide (0 < x.budget)))

/-- Has the dispatcher a value of an object that waits may use? A local object of a die that has been in reset or bypassed counts
again once the die has forwarded a new value (R242). -/
def keyLive (s : State) (key : Nat) : Bool :=
  key < 2 ^ 14 || match sget none s.svc.renewed ((key - 2 ^ 14) / 4096) with
    | some l => l.contains (key % 4096)
    | none => true

/-- A die goes into reset or is bypassed: what it has forwarded reaches the dispatcher, and its objects' values wait for new ones
(R242). -/
def staleObjs (d : Stack) (s : State) : State :=
  let mine := fun (c : Nat × Nat) => decide (2 ^ 14 ≤ c.1) && (c.1 - 2 ^ 14) / 4096 == d.val
  updSvc (fun v => { v with seen := (v.changes.filter mine).foldl (fun m c => sput 0 m c.1 c.2) v.seen,
                            changes := v.changes.filter (fun c => !mine c), renewed := sput none v.renewed d.val (some []) }) s

/-- The dispatcher observes an object's value (R242). -/
def observe (key v : Nat) (s : State) : State :=
  let d := (key - 2 ^ 14) / 4096
  updSvc (fun x => { x with seen := sput 0 x.seen key v, renewed :=
    if key < 2 ^ 14 then x.renewed else match sget none x.renewed d with
      | some l => sput none x.renewed d (some (key % 4096 :: l.filter (· ≠ key % 4096)))
      | none => x.renewed }) s

/-- The value that wait entry `i` of an instance expects: GE_REL counts from the value at the last launch (R237). -/
def waitValue (x : Inst) (i : Nat) (w : ObjOp) : Nat := w.value + (if w.op = 2 then x.base.getD i 0 else 0)

/-- The first wait entry of an instance that the values observed by the dispatcher do not meet, with its place. -/
def unmetEntry (s : State) (g : Graph) (x : Inst) : Option (ObjOp × Nat) :=
  (taskOf g x).waits.zipIdx.find? fun p =>
    let key := objKey g x.slot p.1.ref
    !keyLive s key || decide (sget 0 s.svc.seen key < waitValue x p.2 p.1)

/-- Is every wait entry met? -/
def waitsMet (s : State) (g : Graph) (x : Inst) : Bool := (unmetEntry s g x).isNone

/-- Is a lane halted (R248)? -/
def laneHalted (s : State) (n : Nat) : Bool := getF s (r_DISP_LANE n) f_DISP_LANE_HALTED == 1

/-- Has every page of a PINNED prefix come to the vault (R192)? -/
def prefixInVault (s : State) (g : Graph) (parent f : Nat) : Bool :=
  (sessPages s g parent).all fun p =>
    let w := slotPeek s g p.1 (heId p.2 % 2 ^ 18)
    decide ((f + 127) / 128 ≤ heIdx p.2) || (slTier w == tVault && !slMoving w)

/-- The pages that a step of a session may start to fill are allocated, and every tail page has its tentative frame (R186, R194). -/
def pagesReady (s : State) (g : Graph) (slot : Nat) : Bool :=
  (layerPairs g).all fun p => (pageNeeded s g slot p.1 p.2).isNone && (tentNeeded s g slot p.1 p.2).isNone

/-- Does a fork of a session run or wait (R191)? -/
def forkPending (s : State) (slot : Nat) : Bool :=
  match getSess s slot with
  | none => false
  | some x => (sessSlots s).any fun c => match getSess s c with
    | some y => y.parent == x.sid && hasKind s c kFork
    | none => false

/-- May a session's instance launch (R243)? The session is ACTIVE, or FORKING or CLOSING for its own MAINT instance; no
suppressed-miss hold is in force; a fork of the session holds its launches until it ends (R191). -/
def sessionReady (s : State) (g : Graph) (t : TaskRec) (x : Inst) (slot : Nat) : Bool :=
  match getSess s slot with
  | none => false
  | some y =>
    let others := (instsOf s slot).filter fun p => p.2 ≠ x
    !y.missHold && if isMaint t then
      (y.state == .active || y.state == .forking || y.state == .closing) && others.all (fun p => p.2.out == 0) &&
        (t.kind == kFork || (!hasKind s slot kFork && !forkPending s slot)) &&
        (t.kind != kFork || match findSess s y.parent with
          | some p => sessOut s p == 0 && (!y.pin || prefixInVault s g p y.forkPos)
          | none => true)
    else
      y.state == .active && y.dropped.isNone && !y.pagesWait && !forkPending s slot &&
        (t.kind == kGeneric || (!(others.any fun p => decide (kCopy ≤ kindOf s p.2)) && pagesReady s g slot))

/-- Everything but waits, gates and AHEAD. -/
def unblocked (s : State) (i : Nat) (x : Inst) (g : Graph) : Bool :=
  let t := taskOf g x
  !s.hub.haltedParts.contains g.part && !laneHalted s (laneNo x.graph t.lane) && decide (i < 98304) &&
    match x.slot with | some slot => sessionReady s g t x slot | none => true

/-- Do an instance's gates hold? -/
def instGates (s : State) (g : Graph) (x : Inst) : Bool :=
  match x.slot with | some slot => gatesHold s g (taskOf g x) slot | none => true

/-- Are its outstanding launches below AHEAD? A one-shot instance launches no more than its remaining count. -/
def aheadOk (g : Graph) (x : Inst) : Bool :=
  decide (x.out < aheadOf g (taskOf g x)) && (x.standing || decide (x.out < x.left))

/-- Is an instance ready (R243)? -/
def instReady (s : State) (i : Nat) : Bool :=
  match getInst s i with
  | none => false
  | some x => match getGraph s x.graph with
    | none => false
    | some g => unblocked s i x g && instGates s g x && waitsMet s g x && aheadOk g x

/-- Does R252 count an instance: ready, or blocked only by unmet waits or by AHEAD? -/
def instCounted (s : State) (i : Nat) : Bool :=
  match getInst s i with
  | none => false
  | some x => match getGraph s x.graph with
    | none => false
    | some g => unblocked s i x g && instGates s g x

/-- The instances of a package lane. -/
def laneInsts (s : State) (n : Nat) : List Nat :=
  (instIds s).filter fun i => match getInst s i with
    | some x => match getGraph s x.graph with | some g => laneNo x.graph (taskOf g x).lane == n | none => false
    | none => false

/-! ### Choice and launch (R244 to R246) -/

/-- Lexicographic order. -/
def lexLt : List Nat → List Nat → Bool
  | a :: l, b :: m => decide (a < b) || (a == b && lexLt l m)
  | _, _ => false

/-- The place of an instance in the order of R244: smaller goes first. -/
def instOrder (s : State) (p i : Nat) : List Nat :=
  match getInst s i with
  | none => []
  | some x => match getGraph s x.graph with
    | none => []
    | some g =>
      let t := taskOf g x
      let every := getF s r_DISP_CTRL f_DISP_CTRL_PEVERY
      let cls := (laneRecOf g t).cls
      let share := every ≠ 0 && cls = 2 && decide (every - 1 ≤ sget 0 s.svc.sincePre p)
      let prio := match x.slot with | some n => (match getSess s n with | some y => y.prio | none => 0) | none => 0
      [if share then 0 else 1, cls, 15 - prio, 15 - t.prio, x.last, x.slot.getD 0, laneNo x.graph t.lane, x.task]

/-- The instances of a partition that are ready. -/
def readyInsts (s : State) (p : Nat) : List Nat :=
  (instIds s).filter fun i => instReady s i && match getInst s i with | some x => instPart s x == some p | none => false

/-- The instance that the dispatcher chooses for a partition. -/
def chooseInst (s : State) (p : Nat) : Option Nat :=
  (readyInsts s p).foldl (fun b i => match b with
    | none => some i
    | some j => if lexLt (instOrder s p i) (instOrder s p j) then some i else some j) none

/-- The length bucket of a position (R178). -/
def bucketOf (n : Nat) : Nat :=
  if n < 4096 then 0 else if n < 16384 then 1 else if n < 65536 then 2 else if n < 262144 then 3
  else if n < 1048576 then 4 else if n < 4194304 then 5 else if n < 16777216 then 6 else 7

/-- Selector of a launch (R246): the bucket follows the largest position from which the step can start. -/
def launchSel (s : State) (g : Graph) (x : Inst) : Nat :=
  let t := taskOf g x
  if t.flags.testBit 3 then
    match x.slot with
    | some n => match getSess s n with
      | some y => t.sel + bucketOf (y.cpos + g.treeMax * sessOut s n)
      | none => t.sel
    | none => t.sel
  else t.sel

/-- RET_CFG and TIER_CFG as they are in effect in a partition: a write takes effect at the partition's next launch (R203; the launch
is the write to the launch queue, log entry 91). -/
def cfgOf (s : State) (p : Nat) : Word × Word := sget (regReset r_RET_CFG, regReset r_TIER_CFG) s.svc.cfg p

/-- The registers take effect in a partition. -/
def takeCfg (p : Nat) (s : State) : State :=
  updSvc (fun v => { v with cfg := sput (regReset r_RET_CFG, regReset r_TIER_CFG) v.cfg p (getReg s r_RET_CFG, getReg s r_TIER_CFG) }) s

/-- Writes an instance to its root's launch queue. The tag is a number that goes with the entry (log entry 26). -/
def launchInst (p i : Nat) (s : State) : State :=
  match getInst s i, partRoot s p with
  | some x, some d =>
    match getGraph s x.graph with
    | none => s
    | some g =>
      let t := taskOf g x
      let v := launchSel s g x % 256 + 2 ^ 8 * (t.len16 % 2 ^ 22) + 2 ^ 48 * (Config.freeNat i % 2 ^ 16)
      let w := s.svc.writes + 1
      let n := laneNo x.graph t.lane
      let s := updInst i (fun x => { x with out := x.out + 1, last := w, base := t.waits.map fun e => objValue s (objKey g x.slot e.ref) }) s
      let s := updSvc (fun v => { v with writes := w, launches := v.launches ++ [⟨p, i, x.graph, g.nextCommit, false, false, 0, [], false⟩] })
        (takeCfg p s)
      let s := updGraph x.graph (fun g => { g with nextCommit := if g.nextCommit + 1 < g.place.ncommit then g.nextCommit + 1 else 0 }) s
      let since := if (laneRecOf g t).cls = 2 then 0 else sget 0 s.svc.sincePre p + 1
      let s := updSvc (fun v => { v with sincePre := sput 0 v.sincePre p since, dolded := v.dolded.filter (· ≠ n) }) s
      let s := bumpF r_DISP_STATUS f_DISP_STATUS_LAUNCHES 1 (putF (r_DISP_LANE n) f_DISP_LANE_IDLE_MS 0 s)
      queueWrite d (BitVec.ofNat 64 v) s
  | _, _ => s

/-- The page of each layer and head group that a shared tail makes a session copy: layer, head group and the tail's ID (R190). -/
def sharedTails (s : State) (g : Graph) (slot : Nat) : List (Nat × Nat × Nat) :=
  match getSess s slot with
  | none => []
  | some x => if x.cpos % 128 = 0 then [] else
    (layerPairs g).filterMap fun p =>
      let (tail, _) := rootPeek s g slot p.1 p.2
      if tail = noPage then none else some (p.1, p.2, tail)

/-- Supplies a frame and a slot for a shared tail page: NEAR entry, layer × 16 + head group, slot, frame; none where its home group
has none. -/
def supplyCopy (k : Nat) (p : Nat × Nat × Nat) (s : State) : Option ((Nat × Nat × Nat × Nat) × State) :=
  match getGraph s k with
  | none => none
  | some g =>
    let (e, _) := pagePlace g p.2.2
    match pickFree (getNear g e).slots g.nslots s with
    | (none, _) => none
    | (some sl, s) => match pickFree (usedVault s g e) g.place.nframes s with
      | (none, _) => none
      | (some f, s) =>
        let s := updNear k e (fun x => { x with slots := x.slots ++ [sl], frames := x.frames ++ [f] }) s
        some ((e, 16 * p.1 + p.2.1, sl, f), slotWrite g e sl 0 8 (slByte0 tVault false true false + 2 ^ 40 * f) s)

/-- Supplies a frame and a slot for each shared tail page, and queues the copy task; a session for whose copies a group has no frame
or slot left waits (R190, R198). -/
def queueCopy (k slot : Nat) (s : State) : State :=
  match getGraph s k with
  | none => s
  | some g =>
    match (sharedTails s g slot).foldl (fun (r : Option (List (Nat × Nat × Nat × Nat) × State)) p =>
      r.bind fun r => (supplyCopy k p r.2).map fun q => (r.1 ++ [q.1], q.2)) (some ([], s)) with
    | some (l, s) => createMaint k kCopy slot 0 l (suppliedBytes l) s
    | none => updSess slot (fun x => { x with pagesWait := true }) s

/-- Before a session's task that writes a shared tail page, the copy task is queued in its place (R190). -/
def needCopy (s : State) (i : Nat) : Option (Nat × Nat) :=
  match getInst s i with
  | some x => match x.slot with
    | some n => match getSess s n with
      | some y => if (kindOf s x = kDecode ∨ kindOf s x = kPrefill) ∧ y.flags.testBit 2 then some (x.graph, n) else none
      | none => none
    | none => none
  | none => none

/-- The dispatcher writes one instance of a partition, when one is ready; a detached module runs no steps (R336), and none is
written while the hub quiets the module for the switch to full rate (R371); `n` bounds the copy tasks put in front. -/
def dispatchN : Nat → Nat → State → State
  | 0, _, s => s
  | n + 1, p, s =>
    if getF s r_DISP_CTRL f_DISP_CTRL_EN = 0 ∨ getF s r_TWIN_STATUS f_TWIN_STATUS_DETACHED = 1 ∨ s.hub.frQuiet = true then s
    else match chooseInst s p with
      | none => s
      | some i => match needCopy s i with
        | some (k, slot) => dispatchN n p (queueCopy k slot s)
        | none => launchInst p i s

/-- The dispatcher writes one instance of a partition, when one is ready (R244). -/
def dispatch (p : Nat) (s : State) : State := dispatchN ((instIds s).length + 2) p s

/-- Launch-queue entries that the dispatcher keeps (DISP_CTRL.LQFILL). -/
def lqFill (s : State) : Nat := let n := getF s r_DISP_CTRL f_DISP_CTRL_LQFILL; if n = 0 then 1 else min n 4

/-- Is a partition's launch queue short? -/
def queueShort (s : State) (p : Nat) : Bool :=
  match partRoot s p with | some d => decide ((getDie s d).lq.length < lqFill s) | none => false

/-- Sessions that wait for a frame of a graph learn that one is free (R198, R249). -/
def framesFreed (k : Nat) (s : State) : State :=
  forAll (sessSlots s) (fun n s => match getSess s n with
    | some x => if x.graph = k ∧ x.pagesWait then addObj (oPagesReady n) 1 (updSess n (fun x => { x with pagesWait := false }) s) else s
    | none => s) s

end Sys2Proof.Machine
end

