-- ==== Sys2Proof/Machine/FabricCmds.lean ====
section
/-! DEFINITION. The commands of the fabric and the flash tree: links, routers, transit, adders, launches, aborts, ports. -/
namespace Sys2Proof.Machine

/-! ### Links -/

/-- A beat arrives over a link with the wires' upsets, and its CRC is checked (R110). -/
def execLinkBeatReceive (d : Stack) (p : Port) (flips : BitVec 1024) (crcFlip : Byte) (s : State) :
    Host.Outcome State Fault Refusal := done (linkReceive d p flips crcFlip s)

/-- A retraining segment of a port ends (R114). -/
def execLinkRetrainSegment (d : Stack) (p : Port) (here there : WireTest) (s : State) : Host.Outcome State Fault Refusal :=
  done (retrainPort d p here there s)

/-! ### Routers -/

/-- The run that a ROUTE has announced takes effect (R118). -/
def execRouteTakesEffect (d : Stack) (k : Cluster) (s : State) : Host.Outcome State Fault Refusal :=
  match (getRouter s d k).next with
  | some n => done (routerSync d k n.1 s)
  | none => done s

/-- A beat arrives at a router input (R119, R122); `parity`: the beat that staging memory supplied had a parity error, which is recorded
at unit 5 of the cluster and poisons the step (R287). -/
def execRouterInputBeat (d : Stack) (k : Cluster) (p : Fin 9) (off : Nat) (parity : Bool) (s : State) : Host.Outcome State Fault Refusal :=
  let t := inputBeat d k p.val off s
  done (if parity && (getRouter t d k).stagedOut ≠ (getRouter s d k).stagedOut
    then poisonDie d (recordErr (.cluster d k) 5 kParity (dieSel s d) off t) else t)

/-- A transit slot comes round at step offset `off`: entry (SLOTPH ÷ TPER) mod 64 of every router's transit table is applied (R120).
At any other offset nothing happens. -/
def execTransitSlot (d : Stack) (off : Nat) (s : State) : Host.Outcome State Fault Refusal :=
  if transitSlot s d 0 off then done (transitSlotNow d (slotPhase s d off / tper s d 0 % 64) s) else done s

/-! ### Transit transfers of the hub (R122) -/

/-- The hub-facing port of a stack, if it has one that is not isolated. -/
def openEntry (s : State) (e : Stack) : Option (Stack × Port) :=
  (allPorts.find? fun p => facesHub e p && !portIsolated s e p).map (e, ·)

/-- The port at which a transfer enters the package: the chosen stack's, or another stack's where that one is isolated (R122). -/
def entryPort (s : State) (e : Stack) : Option (Stack × Port) :=
  match openEntry s e with
  | some r => some r
  | none => allStacks.findSome? (openEntry s)

/-- The beats of a transfer enter the package at a hub-facing port that is not isolated: a header beat with TAG and the data beats. -/
def sendXfer (entry : Stack) (x : Xfer) (s : State) : State :=
  match entryPort s entry with
  | some (e, p) =>
    let beat : Nat → Flight := fun n =>
      let b : Beat := if n = 0 then ⟨BitVec.ofNat 1024 (x.addr % 2 ^ 48 + 2 ^ 48 * x.len + (if x.write then 2 ^ 80 else 0)), true, false⟩
        else ⟨BitVec.ofNat 1024 (x.data / 2 ^ (1024 * (n - 1))), false, false⟩
      ⟨e.val, (portRouter p).val, p.val, 0, true, b, x.id⟩
    { s with crossings := s.crossings ++ (List.range (1 + xferBeats x)).map beat }
  | none => noteXferErr x.id s

/-- The hub starts a transit transfer, unless it has stopped new ones (R122, R137). -/
def execHubTransitTransfer (e : Stack) (write : Bool) (addr len data owner : Nat) (page : Bool) (s : State) :
    Host.Outcome State Fault Refusal :=
  if s.hub.transitStopped then done s
  else
    let x : Xfer := ⟨s.hub.nextXfer, e.val, write, addr, len, data, 1, owner, page⟩
    done (sendXfer e x (updHub (fun h => { h with xfers := h.xfers ++ [x], nextXfer := h.nextXfer + 1 }) s))

/-- The outstanding transfer of a number. -/
def findXfer (s : State) (id : Nat) : Option Xfer := s.hub.xfers.find? fun x => x.id == id

/-- The answer that a controller holds for a transfer. -/
def xferAnswer (s : State) (x : Xfer) : Option (Stack × Fin 17 × HostAns) :=
  match devTarget s x.addr with
  | some (d, u, _) =>
    let l := match unitCore u with | some c => (getVc s d c).answers | none => (getLp s d).answers
    (l.find? fun a => a.id == x.id).map fun a => (d, u, a)
  | none => none

/-- Takes the answer of a transfer away from its controller. -/
def dropAnswer (x : Xfer) (s : State) : State :=
  match devTarget s x.addr with
  | some (d, u, _) =>
    let f := fun (l : List HostAns) => l.filter fun a => a.id ≠ x.id
    match unitCore u with
    | some c => updVc d c (fun v => { v with answers := f v.answers }) s
    | none => updLp d (fun p => { p with answers := f p.answers }) s
  | none => s

/-- The state with the Camner link's state changed. -/
def updCam (f : Camner → Camner) (s : State) : State := { s with camner := f s.camner }

/-- The device answers a request of the companion (R308). -/
def winAnswer (op tag status len data : Nat) (s : State) : State :=
  updCam (fun c => { c with answers := c.answers ++ [⟨op, tag, status, len, data⟩] }) s

def opDone : Nat := 0x50
def opDoneData : Nat := 0x51
def opRecalled : Nat := 0x52

/-- A transfer that carries an access of the companion answers it: OK with the data, or ERR (R122, R308). -/
def answerWin (id : Nat) (ok : Bool) (data : Nat) (s : State) : State :=
  match s.camner.xfers.find? fun w => w.id == id with
  | none => s
  | some w =>
    let s := updCam (fun c => { c with xfers := c.xfers.filter fun y => y.id ≠ id }) s
    if !ok then winAnswer opDone w.tag 2 0 0 s
    else if w.write then winAnswer opDone w.tag 0 0 0 s
    else winAnswer opDoneData w.tag 0 w.len (data % 2 ^ (8 * w.len)) s

/-- A transfer ends. -/
def endXfer (x : Xfer) (ok : Bool) (data : Nat) (s : State) : State :=
  answerWin x.id ok data
    (updHub (fun h => { h with xfers := h.xfers.filter (fun y => y.id ≠ x.id), xferDone := h.xferDone ++ [(x.id, ok, data)],
                               xferErr := h.xferErr.filter (· ≠ x.id) }) (dropAnswer x s))

/-- The hub may start transit transfers again; accesses of the companion that have waited start (R137, R371). -/
def resumeTransit (s : State) : State :=
  let l := s.camner.waits
  let s := updCam (fun c => { c with waits := [] }) (updHub (fun h => { h with transitStopped := false }) s)
  forAll l (fun x s => match stackIx x.entry with
    | some e => sendXfer e x (updHub (fun h => { h with xfers := h.xfers ++ [x] }) s)
    | none => s) s

/-- The completion beat of a transfer arrives at the hub (log entry 20). -/
def execTransitCompletion (id : Nat) (s : State) : Host.Outcome State Fault Refusal :=
  match findXfer s id with
  | none => done s
  | some x => match xferAnswer s x with
    | some (_, _, a) => if a.err then done s else done (endXfer x true a.data s)
    | none => done s

/-- A transfer is retried on another route, up to eight tries; after the eighth failure TRANSIT_FAIL is raised (R122). Beats of
the failed try that are still on their way no longer belong to a transfer of the hub. -/
def retryXfer (entry : Stack) (x : Xfer) (s : State) : State :=
  let s := dropAnswer x s
  if 8 ≤ x.tries then postEvent evTransitFail x.owner x.addr (endXfer x false 0 s)
  else
    let y := { x with tries := x.tries + 1, entry := entry.val }
    let gone := fun (f : Flight) => f.xfer ≠ x.id
    let s := { s with crossings := s.crossings.filter gone, flights := s.flights.filter gone }
    let s := forAll allStacks (fun d s => updDie d (fun z => { z with endpoint := sput 0 z.endpoint x.id 0 }) s) s
    sendXfer entry y (updHub (fun h => { h with xfers := h.xfers.map (fun z => if z.id = x.id then y else z),
                                                xferErr := h.xferErr.filter (· ≠ x.id) }) s)

/-- Has an error response, or a beat with ERR, come for a transfer? -/
def xferFailed (s : State) (x : Xfer) : Bool :=
  s.hub.xferErr.contains x.id || match xferAnswer s x with | some (_, _, a) => a.err | none => false

/-- An error response or an ERR beat arrives for a transfer (R122). Without one nothing happens. -/
def execTransitErrorResponse (id : Nat) (entry : Stack) (s : State) : Host.Outcome State Fault Refusal :=
  match findXfer s id with
  | some x => done (if xferFailed s x then retryXfer entry x s else s)
  | none => done s

/-- A completion has not arrived within 200 µs (R122). -/
def execTransitTimeout (id : Nat) (entry : Stack) (s : State) : Host.Outcome State Fault Refusal :=
  match findXfer s id with
  | some x => done (retryXfer entry x s)
  | none => done s

/-- A transit-table entry of a router as the hub writes it: a route never leaves through an isolated port, so it meets no die whose
fabric is in reset (R30, R137). -/
def routeEntry (s : State) (d : Stack) (k : Cluster) (v : Word) : Word :=
  if portIsolated s d (routerPort k) then v ||| 0xF0000000#64 else v

/-- Does a transit table move a beat through an isolated port? -/
def routeBlocked (s : State) (d : Stack) (k : Cluster) (n : Nat) : Bool :=
  let v := getReg s (r_TR_SLOT d k n)
  decide (v.toNat / 16 ^ 7 % 16 < 9) && portIsolated s d (routerPort k)

/-- With every outstanding transfer settled, the hub rewrites transit tables around the isolated ports and resumes transit (R137). An
entry that it leaves as it was is cleared where it leads through an isolated port. -/
def execTransitReroute (entries : List (Stack × Cluster × Fin 64 × Word)) (s : State) : Host.Outcome State Fault Refusal :=
  if s.hub.xfers.isEmpty then
    let s := forAll entries (fun e s => softWrite (r_TR_SLOT e.1 e.2.1 e.2.2.1.val) (routeEntry s e.1 e.2.1 e.2.2.2) s) s
    done (resumeTransit (forAll allStacks (fun d s => forAll allClusters (fun k s => forAll (List.range 64) (fun n s =>
      if routeBlocked s d k n then let a := r_TR_SLOT d k n; putReg s a (routeEntry s d k (getReg s a)) else s) s) s) s))
  else done s

/-! ### Reductions -/

/-- A header beat with TAG arrives at a core port (R124). -/
def execCorePortHeader (d : Stack) (c : CoreIx) (s : State) : Host.Outcome State Fault Refusal :=
  done (gateCheck d c (runUntil d c [] (fun a => match a with | .portBeat b => b.tag | _ => false) s))

/-- A data beat arrives at a core port; while a contribution is open it fills its contributor's slot (R126). -/
def execAdderContributionBeat (d : Stack) (c : CoreIx) (s : State) : Host.Outcome State Fault Refusal :=
  done (gateCheck d c (runUntil d c [] (fun a => match a with | .portBeat b => !b.tag | _ => false) s))

/-- An adder slot or result failed its check: it is recorded at the adder's unit and poisons the step (R290, log entry 95). -/
def adderError (d : Stack) (u : Fin 17) (s : State) : State :=
  match unitCore u with
  | some c => coreError d c (.core d c) 11 kSUe s
  | none => poisonDie d (recordErr (.die d) 4 kSUe (dieSel s d) 0 s)

/-- An adder's next result beat leaves for memory: a vault's (0–15), or the LPDDR adder's (16) (R278); `bad`: a slot or the result
failed its check; `upsets`: those of the beat on the vertical interface. -/
def execAdderResult (d : Stack) (u : Fin 17) (bad : Bool) (upsets : Upsets) (s : State) : Host.Outcome State Fault Refusal :=
  let err := fun (s : State) => if bad then adderError d u s else s
  match unitCore u with
  | some c =>
    if (getCore s d c).agenda.any fun e => match e.act with | .addResult .. => true | _ => false
    then done (err (runUntil d c upsets (fun a => match a with | .addResult .. => true | _ => false) s)) else done s
  | none =>
    if !(getLp s d).out.isEmpty then done (err (lpResultBeat d s))
    else match lpFullGroup s d with
      | some g => done (err (lpResultBeat d (lpResult d (thawed s) g s)))
      | none => done s

/-! ### The flash tree -/

/-- The root takes an entry, and the dispatcher then writes the next choice for its partition (R131, R244). -/
def takeAndFill (d : Stack) (first : Bool) (s : State) : State :=
  let n := (getDie s d).lq.length
  let s := takeEntry d first s
  match partIndex s d with
  | some p => if (getDie s d).lq.length < n ∧ queueShort s p then dispatch p s else s
  | none => s

/-- The root's sampling cycle: it takes the next launch-queue entry and samples the pause, which it samples without an entry too
(R131, R132). -/
def execLaunchQueueTake (d : Stack) (s : State) : Host.Outcome State Fault Refusal := done (sampleEmpty d (takeAndFill d false s))

/-- The root sends the launch it has taken, or takes one that came after the sampling cycle and sends it, `gap` cycles after all
that its partition has reached where the rules leave the cycle to that (R131). -/
def execRootLaunchSend (d : Stack) (gap : Nat) (s : State) : Host.Outcome State Fault Refusal :=
  done (sendLaunch d gap (if (getDie s d).sampled.isSome then takeAndFill d false s else s))

/-- The root takes an entry that arrives `gap` cycles after all that its partition has reached, and sends its launch (R131). -/
def execFirstLaunch (d : Stack) (gap : Nat) (s : State) : Host.Outcome State Fault Refusal :=
  done (sendLaunch d gap (takeAndFill d true s))

/-- A write of FLASH_LQ (R140). -/
def execFlashLqWrite (d : Stack) (v : Word) (s : State) : Host.Outcome State Fault Refusal := done (queueWrite d v s)

/-- DONE arrives at a die node, or the die's own step has ended (R133). -/
def execFlashDone (d : Stack) (parityOk : Bool) (s : State) : Host.Outcome State Fault Refusal := done (doneStep d parityOk s)

/-- ABORT arrives at a die node; without one, a pending stop floods it at the step start (R139, R302). -/
def execAbort (d : Stack) (parityOk : Bool) (s : State) : Host.Outcome State Fault Refusal := done (abortArrive d parityOk s)

/-- FLASH_CTRL.REARM is written (R139, R140). -/
def execRearm (d : Stack) (s : State) : Host.Outcome State Fault Refusal := done (rearmDie d s)

/-- ELASTIC is cleared (R135). -/
def execElasticClear (d : Stack) (s : State) : Host.Outcome State Fault Refusal := done (elasticClear d s)

/-- The quiet interval of a root ends, once DONE of the last elastic step has come (R135). -/
def execQuietIntervalEnd (d : Stack) (s : State) : Host.Outcome State Fault Refusal :=
  if (getDie s d).quiet && (treeDone s d || getF s (r_FLASH_STATUS d) f_FLASH_STATUS_ELASTIC_STEP == 0)
  then done (realign d (updDie d (fun y => { y with quiet := false }) s)) else done s

/-! ### Ports -/

/-- A wrapper sees LDOWN from its neighbour (R136). -/
def execLdownReceived (d : Stack) (p : Port) (s : State) : Host.Outcome State Fault Refusal := done (losePort d p icLdown cDieReset s)

/-- The neighbour's forwarded clock is lost (R136); a die that has lost its clock everywhere is bypassed (R26, R242). -/
def execNeighbourClockLoss (d : Stack) (p : Port) (s : State) : Host.Outcome State Fault Refusal :=
  let s := losePort d p icClock cClockLoss (recordErr (.die d) (5 + p.val) kClockLoss (dieSel s d) 0 s)
  match neighbour d p with
  | some e => done (if clockLost s e then staleObjs e s else s)
  | none => done s

/-- A link fails persistently (R136). -/
def execPersistentLinkFailure (d : Stack) (p : Port) (s : State) : Host.Outcome State Fault Refusal :=
  done (losePort d p icErrors cLinkDown s)

/-- PORT_CTRL.ISOLATE is written (R138). -/
def execPortIsolateWrite (d : Stack) (p : Port) (v : Bool) (s : State) : Host.Outcome State Fault Refusal := done (writeIsolate d p v s)

/-- PORT_CTRL.RETRAIN is written (R140). -/
def execPortRetrain (d : Stack) (p : Port) (s : State) : Host.Outcome State Fault Refusal := done (requestRetrain d p s)

/-- PORT_CTRL.CLRCNT clears the port's counts (R140). -/
def clearPortCounts (d : Stack) (p : Port) (s : State) : State :=
  putF (r_PORT_STATUS d p) f_PORT_STATUS_CRC_ERRS 0 (putF (r_PORT_STATUS d p) f_PORT_STATUS_ERR_RESP 0 s)

/-- PORT_CTRL.CLRCNT is written (R140). -/
def execPortClrcnt (d : Stack) (p : Port) (s : State) : Host.Outcome State Fault Refusal := done (clearPortCounts d p s)

end Sys2Proof.Machine
end

