-- ==== Sys2Proof/Machine/BpCmds.lean ====
section
/-! DEFINITION. The commands of a near-bank processor: each runs the instruction at the pc of a running BP if it is of its kind
(log entry 2); `parity`: a parity error was detected in what it read of the BP's scratch or registers (R287). -/
namespace Sys2Proof.Machine

/-- The BP's scalar core executes one instruction (R143); `ue`: its program-memory word is uncorrectable. -/
def execRv32imcInstruction (d : Stack) (c : CoreIx) (j : BpIx) (ue parity : Bool) (s : State) : Host.Outcome State Fault Refusal :=
  done (bpScalarRow d c j.val ue parity s)

/-- The instruction at the pc, if it is VLD (R166). -/
def execVld (d : Stack) (c : CoreIx) (j : BpIx) (parity : Bool) (s : State) : Host.Outcome State Fault Refusal :=
  done (bpCustom d c j.val .vld parity s)

/-- The instruction at the pc, if it is VST (R166). -/
def execVst (d : Stack) (c : CoreIx) (j : BpIx) (parity : Bool) (s : State) : Host.Outcome State Fault Refusal :=
  done (bpCustom d c j.val .vst parity s)

/-- The instruction at the pc, if it is VOP_FADD (R166). -/
def execVopFadd (d : Stack) (c : CoreIx) (j : BpIx) (parity : Bool) (s : State) : Host.Outcome State Fault Refusal :=
  done (bpCustom d c j.val .vfadd parity s)

/-- The instruction at the pc, if it is VOP_FSUB (R166). -/
def execVopFsub (d : Stack) (c : CoreIx) (j : BpIx) (parity : Bool) (s : State) : Host.Outcome State Fault Refusal :=
  done (bpCustom d c j.val .vfsub parity s)

/-- The instruction at the pc, if it is VOP_FMUL (R166). -/
def execVopFmul (d : Stack) (c : CoreIx) (j : BpIx) (parity : Bool) (s : State) : Host.Outcome State Fault Refusal :=
  done (bpCustom d c j.val .vfmul parity s)

/-- The instruction at the pc, if it is VOP_FMAX (R166). -/
def execVopFmax (d : Stack) (c : CoreIx) (j : BpIx) (parity : Bool) (s : State) : Host.Outcome State Fault Refusal :=
  done (bpCustom d c j.val .vfmax parity s)

/-- The instruction at the pc, if it is VOP_FMIN (R166). -/
def execVopFmin (d : Stack) (c : CoreIx) (j : BpIx) (parity : Bool) (s : State) : Host.Outcome State Fault Refusal :=
  done (bpCustom d c j.val .vfmin parity s)

/-- The instruction at the pc, if it is VOP_FMAC (R166). -/
def execVopFmac (d : Stack) (c : CoreIx) (j : BpIx) (parity : Bool) (s : State) : Host.Outcome State Fault Refusal :=
  done (bpCustom d c j.val .vfmac parity s)

/-- The instruction at the pc, if it is VOP_FEXP (R166). -/
def execVopFexp (d : Stack) (c : CoreIx) (j : BpIx) (parity : Bool) (s : State) : Host.Outcome State Fault Refusal :=
  done (bpCustom d c j.val .vfexp parity s)

/-- The instruction at the pc, if it is VOP_FRCP (R166). -/
def execVopFrcp (d : Stack) (c : CoreIx) (j : BpIx) (parity : Bool) (s : State) : Host.Outcome State Fault Refusal :=
  done (bpCustom d c j.val .vfrcp parity s)

/-- The instruction at the pc, if it is VOPS_FADD (R166). -/
def execVopsFadd (d : Stack) (c : CoreIx) (j : BpIx) (parity : Bool) (s : State) : Host.Outcome State Fault Refusal :=
  done (bpCustom d c j.val .sfadd parity s)

/-- The instruction at the pc, if it is VOPS_FSUB (R166). -/
def execVopsFsub (d : Stack) (c : CoreIx) (j : BpIx) (parity : Bool) (s : State) : Host.Outcome State Fault Refusal :=
  done (bpCustom d c j.val .sfsub parity s)

/-- The instruction at the pc, if it is VOPS_FMUL (R166). -/
def execVopsFmul (d : Stack) (c : CoreIx) (j : BpIx) (parity : Bool) (s : State) : Host.Outcome State Fault Refusal :=
  done (bpCustom d c j.val .sfmul parity s)

/-- The instruction at the pc, if it is VOPS_FMAX (R166). -/
def execVopsFmax (d : Stack) (c : CoreIx) (j : BpIx) (parity : Bool) (s : State) : Host.Outcome State Fault Refusal :=
  done (bpCustom d c j.val .sfmax parity s)

/-- The instruction at the pc, if it is VOPS_FMIN (R166). -/
def execVopsFmin (d : Stack) (c : CoreIx) (j : BpIx) (parity : Bool) (s : State) : Host.Outcome State Fault Refusal :=
  done (bpCustom d c j.val .sfmin parity s)

/-- The instruction at the pc, if it is VSPLAT (R166). -/
def execVsplat (d : Stack) (c : CoreIx) (j : BpIx) (parity : Bool) (s : State) : Host.Outcome State Fault Refusal :=
  done (bpCustom d c j.val .vsplat parity s)

/-- The instruction at the pc, if it is VLIM (R166). -/
def execVlim (d : Stack) (c : CoreIx) (j : BpIx) (parity : Bool) (s : State) : Host.Outcome State Fault Refusal :=
  done (bpCustom d c j.val .vlim parity s)

/-- The instruction at the pc, if it is VMSK (R166). -/
def execVmsk (d : Stack) (c : CoreIx) (j : BpIx) (parity : Bool) (s : State) : Host.Outcome State Fault Refusal :=
  done (bpCustom d c j.val .vmsk parity s)

/-- The instruction at the pc, if it is VRED_RSUM (R166). -/
def execVredRsum (d : Stack) (c : CoreIx) (j : BpIx) (parity : Bool) (s : State) : Host.Outcome State Fault Refusal :=
  done (bpCustom d c j.val .redSum parity s)

/-- The instruction at the pc, if it is VRED_RMAX (R166). -/
def execVredRmax (d : Stack) (c : CoreIx) (j : BpIx) (parity : Bool) (s : State) : Host.Outcome State Fault Refusal :=
  done (bpCustom d c j.val .redMax parity s)

/-- The instruction at the pc, if it is VCVT_LO (R166). -/
def execVcvtLo (d : Stack) (c : CoreIx) (j : BpIx) (parity : Bool) (s : State) : Host.Outcome State Fault Refusal :=
  done (bpCustom d c j.val .cvtLo parity s)

/-- The instruction at the pc, if it is VCVT_HI (R166). -/
def execVcvtHi (d : Stack) (c : CoreIx) (j : BpIx) (parity : Bool) (s : State) : Host.Outcome State Fault Refusal :=
  done (bpCustom d c j.val .cvtHi parity s)

/-- The instruction at the pc, if it is VCVT_PACK (R166). -/
def execVcvtPack (d : Stack) (c : CoreIx) (j : BpIx) (parity : Bool) (s : State) : Host.Outcome State Fault Refusal :=
  done (bpCustom d c j.val .cvtPack parity s)

/-- The instruction at the pc, if it is K4QK (R167). -/
def execK4qk (d : Stack) (c : CoreIx) (j : BpIx) (parity : Bool) (s : State) : Host.Outcome State Fault Refusal :=
  done (bpCustom d c j.val .k4qk parity s)

/-- The instruction at the pc, if it is K4AV (R167). -/
def execK4av (d : Stack) (c : CoreIx) (j : BpIx) (parity : Bool) (s : State) : Host.Outcome State Fault Refusal :=
  done (bpCustom d c j.val .k4av parity s)

/-- The instruction at the pc, if it is K4Q (R167). -/
def execK4q (d : Stack) (c : CoreIx) (j : BpIx) (parity : Bool) (s : State) : Host.Outcome State Fault Refusal :=
  done (bpCustom d c j.val .k4q parity s)

/-- The instruction at the pc, if it is QOFF (R167). -/
def execQoff (d : Stack) (c : CoreIx) (j : BpIx) (parity : Bool) (s : State) : Host.Outcome State Fault Refusal :=
  done (bpCustom d c j.val .qoff parity s)

/-- The instruction at the pc, if it is QBND (R167). -/
def execQbnd (d : Stack) (c : CoreIx) (j : BpIx) (parity : Bool) (s : State) : Host.Outcome State Fault Refusal :=
  done (bpCustom d c j.val .qbnd parity s)

/-- The instruction at the pc, if it is QLD (R166). -/
def execQld (d : Stack) (c : CoreIx) (j : BpIx) (parity : Bool) (s : State) : Host.Outcome State Fault Refusal :=
  done (bpCustom d c j.val .qld parity s)

/-- The instruction at the pc, if it is SLD (R166). -/
def execSld (d : Stack) (c : CoreIx) (j : BpIx) (parity : Bool) (s : State) : Host.Outcome State Fault Refusal :=
  done (bpCustom d c j.val .sld parity s)

/-- The instruction at the pc, if it is SST (R166). -/
def execSst (d : Stack) (c : CoreIx) (j : BpIx) (parity : Bool) (s : State) : Host.Outcome State Fault Refusal :=
  done (bpCustom d c j.val .sst parity s)

/-- The instruction at the pc, if it is OACCRD (R166). -/
def execOaccrd (d : Stack) (c : CoreIx) (j : BpIx) (parity : Bool) (s : State) : Host.Outcome State Fault Refusal :=
  done (bpCustom d c j.val .oaccrd parity s)

/-- The instruction at the pc, if it is OACCSCL (R166). -/
def execOaccscl (d : Stack) (c : CoreIx) (j : BpIx) (parity : Bool) (s : State) : Host.Outcome State Fault Refusal :=
  done (bpCustom d c j.val .oaccscl parity s)

/-- The instruction at the pc, if it is OACCCLR (R166). -/
def execOaccclr (d : Stack) (c : CoreIx) (j : BpIx) (parity : Bool) (s : State) : Host.Outcome State Fault Refusal :=
  done (bpCustom d c j.val .oaccclr parity s)

/-- The instruction at the pc, if it is BV.LDR (R168). -/
def execBvLdr (d : Stack) (c : CoreIx) (j : BpIx) (parity : Bool) (s : State) : Host.Outcome State Fault Refusal :=
  done (bpCustom d c j.val .bvLdr parity s)

/-- The instruction at the pc, if it is BV.STR (R168). -/
def execBvStr (d : Stack) (c : CoreIx) (j : BpIx) (parity : Bool) (s : State) : Host.Outcome State Fault Refusal :=
  done (bpCustom d c j.val .bvStr parity s)

/-- The instruction at the pc, if it is BV.STP (R160). -/
def execBvStp (d : Stack) (c : CoreIx) (j : BpIx) (parity : Bool) (s : State) : Host.Outcome State Fault Refusal :=
  done (bpCustom d c j.val .bvStp parity s)

/-- The instruction at the pc, if it is BV.CPY (R168). -/
def execBvCpy (d : Stack) (c : CoreIx) (j : BpIx) (parity : Bool) (s : State) : Host.Outcome State Fault Refusal :=
  done (bpCustom d c j.val .bvCpy parity s)

/-- The instruction at the pc, if it is BV.FENCE (R168). -/
def execBvFence (d : Stack) (c : CoreIx) (j : BpIx) (parity : Bool) (s : State) : Host.Outcome State Fault Refusal :=
  done (bpCustom d c j.val .bvFence parity s)

/-- The instruction at the pc, if it is BV.HALT (R168). -/
def execBvHalt (d : Stack) (c : CoreIx) (j : BpIx) (parity : Bool) (s : State) : Host.Outcome State Fault Refusal :=
  done (bpCustom d c j.val .bvHalt parity s)

/-- The oldest entry of a BP's merge buffer times out (R160). -/
def execBpMergeTimeout (d : Stack) (c : CoreIx) (j : BpIx) (s : State) : Host.Outcome State Fault Refusal :=
  done (bpMergeTimeout d c j.val s)

/-- BP_CTRL.STOP is written (R174). -/
def execBpStop (d : Stack) (c : CoreIx) (j : BpIx) (s : State) : Host.Outcome State Fault Refusal := done (bpStop d c j.val s)

/-- The next host window of a BP-owned group (R153 to R155). -/
def execHostWindow (d : Stack) (c : CoreIx) (j : BpIx) (s : State) : Host.Outcome State Fault Refusal := done (hostWindow d c j.val s)

end Sys2Proof.Machine
end

