-- ==== Sys2Proof/Machine/MemCmds.lean ====
section
/-! DEFINITION. The commands of the memory controllers: windows and frames, host requests, retraining, rechecks, Drizzle, row
tests, merge buffers, error records. -/
namespace Sys2Proof.Machine

/-! ### Windows and host requests -/

/-- A controller window begins (R262). -/
def execControllerWindow (d : Stack) (c : CoreIx) (s : State) : Host.Outcome State Fault Refusal := done (controllerWindow d c s)

/-- A host or transit request enters the host queue of a BP-owned or controller-owned bank (R155); `upsets`: those that its data meets
on the vertical interface (R260). -/
def execHostQueueArrival (d : Stack) (c : CoreIx) (id : Nat) (write : Bool) (addr len data arrived : Nat) (upsets : Upsets) (s : State) :
    Host.Outcome State Fault Refusal := done (hostArrive d ⟨c.val, by omega⟩ ⟨id, write, addr, len, data, arrived, upsets⟩ s)

/-- A host or transit access arrives at a vault controller (R264); `upsets` as in HOST_QUEUE_ARRIVAL. -/
def execVaultHostRequest (d : Stack) (c : CoreIx) (id : Nat) (write : Bool) (addr len data arrived : Nat) (upsets : Upsets) (s : State) :
    Host.Outcome State Fault Refusal := done (hostArrive d ⟨c.val, by omega⟩ ⟨id, write, addr, len, data, arrived, upsets⟩ s)

/-- An LPDDR frame begins: its refreshes, and one waiting access of each channel (R271, R274). -/
def execLpddrFrame (d : Stack) (s : State) : Host.Outcome State Fault Refusal := done (lpFrame d (thawed s) s)

/-- A host or transit access arrives at an LPDDR controller; the next frames serve its parts (R274, log entry 21); `upsets`: those of a
read's bursts. -/
def execLpddrHostRequest (d : Stack) (id : Nat) (write : Bool) (addr len data : Nat) (upsets : Upsets) (s : State) :
    Host.Outcome State Fault Refusal := done (hostArrive d 16 ⟨id, write, addr, len, data, 0, upsets⟩ s)

/-! ### LPDDR retraining (R275, R276) -/


/-- A channel needs full retraining, in up to 32 segments. -/
def lpFullRetrain (d : Stack) (ch : Nat) (s : State) : State :=
  requestSegment d (lpSegUnits s d) (putF (r_LP_CHAN d ch) f_LP_CHAN_STATE 2 (updLp d (fun p => { p with fullLeft := sput 0 p.fullLeft ch 32 }) s))

/-- A segment of a channel has ended well. -/
def lpSegDone (d : Stack) (ch : Nat) (s : State) : State :=
  bumpF (r_LP_STATUS d) f_LP_STATUS_SEGS 1 (putF (r_LP_CHAN d ch) f_LP_CHAN_SINCE 0 s)

/-- A channel has failed: its accesses are answered with errors until the next warm reset, and the hub drops the stack's
LPDDR-tier pages. -/
def lpChanFail (d : Stack) (ch : Nat) (s : State) : State :=
  let a := r_LP_STATUS d
  let s := putF a f_LP_STATUS_FAILED (getF s a f_LP_STATUS_FAILED ||| 2 ^ ch) (putF (r_LP_CHAN d ch) f_LP_CHAN_STATE 3 s)
  updHub (fun h => { h with lpLost := if h.lpLost.contains d.val then h.lpLost else h.lpLost ++ [d.val] }) s

/-- A retraining segment of a device, in a pause or while the die belongs to no partition (R275): of a channel under full retraining,
else of the next active channel in turn. -/
def lpSegment (d : Stack) (ok : Bool) (s : State) : State :=
  if !segmentOpen s d then s
  else match (List.range 8).find? fun ch => sget 0 (getLp s d).fullLeft ch ≠ 0 with
  | some ch =>
    let n := sget 0 (getLp s d).fullLeft ch - 1
    if ok then lpSegDone d ch (putF (r_LP_CHAN d ch) f_LP_CHAN_STATE 1 (updLp d (fun p => { p with fullLeft := sput 0 p.fullLeft ch 0 }) s))
    else
      let s := updLp d (fun p => { p with fullLeft := sput 0 p.fullLeft ch n }) s
      if n = 0 then lpChanFail d ch s else requestSegment d (lpSegUnits s d) s
  | none =>
    if !(getLp s d).due then s
    else
    let up := (lpActive s d).filter fun ch => !lpChanFailed s d ch
    match (match up.find? fun ch => decide ((getLp s d).nextChan ≤ ch) with | some ch => some ch | none => up.head?) with
    | none => s
    | some ch =>
      let s := updLp d (fun p => { p with nextChan := ch + 1, due := false }) s
      if ok then lpSegDone d ch s else lpFullRetrain d ch s

/-- A retraining segment of an LPDDR device ends; `ok`: the channel passed it (R275). -/
def execLpddrRetrainSegment (d : Stack) (ok : Bool) (s : State) : Host.Outcome State Fault Refusal := done (lpSegment d ok s)

/-- LP_CTRL.RETRAIN requests full retraining of a channel (R281). -/
def execLpddrChannelRetrain (d : Stack) (ch : Fin 8) (s : State) : Host.Outcome State Fault Refusal :=
  if lpChanFailed s d ch.val then done s else done (lpFullRetrain d ch.val s)

/-! ### Vault retraining (R259 to R261) -/

/-- Background retraining of a vault is requested. -/
def vaultRetrain (d : Stack) (c : CoreIx) (s : State) : State :=
  requestSegment d 15 (putF (r_VC_STATUS d c) f_VC_STATUS_RETRAINING 1 (updVc d c (fun v => { v with retrainReq := true }) s))

/-- The width to which training sets a vault: 0 full, 1 half on half 0, 2 half on half 1, 3 failed (R259). -/
def vaultWidth (t : VaultTest) : Nat :=
  if 16 < t.command then 3
  else if t.half0 ≤ 40 ∧ t.half1 ≤ 40 then 0 else if t.half0 ≤ 40 then 1 else if t.half1 ≤ 40 then 2 else 3

/-- The spares that training switches in. -/
def vaultSpares (d : Stack) (c : CoreIx) (t : VaultTest) (s : State) : State :=
  putF (r_VC_STATUS d c) f_VC_STATUS_DSPARES (min 40 t.half0 + min 40 t.half1) (putF (r_VC_STATUS d c) f_VC_STATUS_CSPARES (min 16 t.command) s)

/-- A retraining segment of a vault ends with what its test found: spares are switched in, a half-width vault changes at the
next step boundary, and a failed one leaves its core out and halts the partition with cause DIE_RESET. It runs only in a pause (R260). -/
def vaultSegment (d : Stack) (c : CoreIx) (t : VaultTest) (s : State) : State :=
  if !(getVc s d c).retrainReq ∨ !segmentOpen s d then s
  else
    let a := r_VC_STATUS d c
    let s := vaultSpares d c t (putF a f_VC_STATUS_RETRAINING 0 (updVc d c (fun v => { v with retrainReq := false }) s))
    match vaultWidth t with
    | 0 => s
    | 3 => floodAbort d cDieReset none (putF a f_VC_STATUS_WIDTH 3 (recordErr (.core d c) 10 kSpareOut (dieSel s d) 0 s))
    | w => if getF s a f_VC_STATUS_WIDTH = w then s
           else updVc d c (fun v => { v with nextWidth := some w }) (recordErr (.core d c) 10 kSpareOut (dieSel s d) 0 s)

/-- Vault retraining is requested (R260). -/
def execVaultRetrain (d : Stack) (c : CoreIx) (s : State) : Host.Outcome State Fault Refusal := done (vaultRetrain d c s)

/-- A vault changes to half width at a step boundary: its partition goes elastic and VAULT_HALF is posted (R261). -/
def vaultHalf (d : Stack) (c : CoreIx) (s : State) : State :=
  match (getVc s d c).nextWidth with
  | none => s
  | some w =>
    if dieRuns s d then s
    else
    let s := putF (r_VC_STATUS d c) f_VC_STATUS_WIDTH w (updVc d c (fun v => { v with nextWidth := none }) s)
    postEvent evVaultHalf (subj2 (dieNo d) c.val) 0 (makeElastic d s)

/-! ### Errors of stored data -/

/-- The first outstanding recheck of a unit (R291), with the upsets of its transfer. -/
def execRecheck (d : Stack) (u : Fin 17) (upsets : Upsets) (s : State) : Host.Outcome State Fault Refusal := done (recheckNow d u upsets s)

/-- Drizzle reads four code words, with the upsets of their transfer; `late`: it is behind its period (R294). -/
def execDrizzleRead (d : Stack) (u : Fin 17) (late : Bool) (upsets : Upsets) (s : State) : Host.Outcome State Fault Refusal :=
  done (drizzleRead d u late upsets s)

/-- A corrected word is written back (R294). -/
def execDrizzleWriteback (d : Stack) (u : Fin 17) (upsets : Upsets) (s : State) : Host.Outcome State Fault Refusal :=
  done (drizzleWriteback d u upsets s)

/-- The first candidate row of a unit is tested (R295, R296); `spare`: an LPDDR bank has a repair left; `frame`: the page frame
to which a retired row belongs. -/
def execRowTest (d : Stack) (u : Fin 17) (sound spare : Bool) (frame : Option Nat) (s : State) : Host.Outcome State Fault Refusal :=
  done (rowTest d u sound spare frame s)

/-- The oldest entry of a controller's merge buffer is written back (R288), with the upsets of its transfer. -/
def execMergeEntryTimeout (d : Stack) (u : Fin 17) (upsets : Upsets) (s : State) : Host.Outcome State Fault Refusal :=
  match uMerge s d u with
  | e :: _ => done (writeBack d u e upsets s)
  | [] => done s

/-- ERR_STATUS.PV is written with 1: the secondary record, if one is held, moves to the primary (R298). -/
def primaryClear (st : Station) (s : State) : State :=
  let b := stBase st
  if getF s b f_ERR_STATUS_SV = 1 then putF b f_ERR_STATUS_SV 0 (putReg (putReg s (b + 0x08) (getReg s (b + 0x10))) (b + 0x10) 0)
  else putF b f_ERR_STATUS_PV 0 (putReg s (b + 0x08) 0)

/-- ERR_STATUS.PV is written (R298). -/
def execErrPrimaryClear (st : Station) (s : State) : Host.Outcome State Fault Refusal := done (primaryClear st s)

/-- ERR_ESCALATE.STOP is written (R302). -/
def execStopPartition (d : Stack) (s : State) : Host.Outcome State Fault Refusal := done (stopPartition d s)

/-- A step start at which a stop is pending (R302). -/
def execStopAbort (d : Stack) (s : State) : Host.Outcome State Fault Refusal := done (stopAtStart d s)

/-- ECC_FLIPMASK of a unit is written (R289). -/
def execEccFlipmaskArm (d : Stack) (u : Fin 17) (v : Word) (s : State) : Host.Outcome State Fault Refusal :=
  match unitCore u with
  | some c => done (softWrite (r_ECC_FLIPMASK d c) v s)
  | none => done (softWrite (r_ECC_FLIPMASK_LP d) v s)

end Sys2Proof.Machine
end

