-- ==== Sys2Proof/Machine/Sha3.lean ====
section
/-! DEFINITION. SHA3-256 (R362, R427): the spec names the function and the model takes it from FIPS 202 (PRESUMED, log entry
22). A state is a number of 1,600 bits; lane (x, y) is the 64 bits from bit 64(5y + x) on. -/
namespace Sys2Proof.Machine

/-! ### The permutation -/

/-- Lane `i` of a state. -/
def lane (a i : Nat) : Word := BitVec.ofNat 64 (a >>> (64 * i))

/-- The state whose first `n` lanes are given. -/
def lanes (n : Nat) (f : Nat → Word) : Nat := (List.range n).foldl (fun a i => a ||| (f i).toNat <<< (64 * i)) 0

/-- The parity of the five lanes of sheet `x`. -/
def sheetParity (a x : Nat) : Word := (List.range 5).foldl (fun w y => w ^^^ lane a (5 * y + x)) 0

/-- θ: a lane takes the parity of the sheet before it and, one place up, of the sheet after it. -/
def mixSheets (a : Nat) : Nat :=
  let p := lanes 5 (sheetParity a)
  let d := lanes 5 fun x => lane p ((x + 4) % 5) ^^^ (lane p ((x + 1) % 5)).rotateLeft 1
  lanes 25 fun i => lane a i ^^^ lane d (i % 5)

/-- Where π takes the lane at `i`: (x, y) goes to (y, 2x + 3y). -/
def piNext (i : Nat) : Nat := i / 5 + 5 * ((2 * (i % 5) + 3 * (i / 5)) % 5)

/-- ρ and π together. π leads from lane (1, 0) through every lane but (0, 0), and ρ turns the lane at place `t` of that walk by the
triangular number (t + 1)(t + 2) / 2. -/
def walkLanes (a : Nat) : Nat :=
  ((List.range 24).foldl (fun (r : Nat × Nat) t =>
    (piNext r.1, r.2 ||| ((lane a r.1).rotateLeft ((t + 1) * (t + 2) / 2 % 64)).toNat <<< (64 * piNext r.1))) (1, (lane a 0).toNat)).2

/-- χ: on each plane, a lane takes the next but one where the next has a zero. -/
def mixPlanes (a : Nat) : Nat :=
  lanes 25 fun i => lane a i ^^^ (lane a (i / 5 * 5 + (i + 2) % 5) &&& ~~~lane a (i / 5 * 5 + (i + 1) % 5))

/-- One step of the register that gives the round constants: x^8 + x^6 + x^5 + x^4 + 1. -/
def rcStep (r : Byte) : Byte := (r <<< 1) ^^^ if r.msb then 0x71#8 else 0#8

/-- ι: seven bits of that register go to bits 2^j − 1 of the first lane; the register follows. -/
def roundBits (r : Byte) : Word × Byte :=
  (List.range 7).foldl (fun c j => (if c.2.getLsbD 0 then c.1 ||| BitVec.twoPow 64 (2 ^ j - 1) else c.1, rcStep c.2)) (0, r)

/-- One round of a state, with the register of its constant. -/
def permRound (s : Nat × Byte) : Nat × Byte :=
  let c := roundBits s.2
  (mixPlanes (walkLanes (mixSheets s.1)) ^^^ c.1.toNat, c.2)

/-- The permutation: 24 rounds. -/
def permute (a : Nat) : Nat := ((List.range 24).foldl (fun s _ => permRound s) (a, 1#8)).1

/-! ### The sponge -/

/-- A message's bytes with the suffix of SHA-3 and its padding, to whole blocks of 136 bytes. -/
def spongeBytes (m : List Byte) : List Byte :=
  let n := (m.length / 136 + 1) * 136
  ((m ++ [0x06]) ++ List.replicate (n - m.length - 1) 0).modify (n - 1) (· ||| 0x80)

/-- A little-endian number in a list of bytes. -/
def leNat (l : List Byte) : Nat := l.foldr (fun b n => b.toNat + 256 * n) 0

/-- `n` bytes of a list from index `a`, little-endian. -/
def leAt (l : List Byte) (a n : Nat) : Nat := leNat ((l.drop a).take n)

/-- A state takes block `b` of the padded message into its first 17 lanes. -/
def takeBlock (p : List Byte) (a b : Nat) : Nat := permute (a ^^^ leAt p (136 * b) 136)

/-- SHA3-256 of a list of bytes: the first 32 bytes of the state after the last block. -/
def sha3 (m : List Byte) : List Byte :=
  let p := spongeBytes m
  let a := (List.range (p.length / 136)).foldl (takeBlock p) 0
  (List.range 32).map fun k => BitVec.ofNat 8 (a >>> (8 * k))

end Sys2Proof.Machine
end

