-- ==== Sys2Proof/Machine/Topo.lean ====
section
/-! DEFINITION. The found topology descriptor (R360 to R362), its changes in service, and the topology hashes. -/
namespace Sys2Proof.Machine

/-- Byte `i` of the descriptor. -/
def topoByte (s : State) (i : Nat) : Byte := sget 0#8 s.topo i

/-- The state with a byte of the descriptor set. -/
def putTopo (i v : Nat) (s : State) : State := { s with topo := sput 0#8 s.topo i (BitVec.ofNat 8 v) }

/-- Sets `n` bytes of the descriptor, little-endian. -/
def putTopoN (i n v : Nat) (s : State) : State := forAll (List.range n) (fun k s => putTopo (i + k) (v / 2 ^ (8 * k)) s) s

/-- The stack-to-stack links: stack A, its port, stack B, its port; A is the lower stack (R360). -/
def stackLinks : List (Stack × Port × Stack × Port) :=
  allStacks.flatMap fun a => allPorts.filterMap fun p =>
    match neighbour a p with
    | some b => if a.val < b.val then some (a, p, b, opposite p) else none
    | none => none

/-- The hub links, in record order. -/
def hubLinks : List (Stack × Port) := [(7, 2), (11, 1), (12, 3), (16, 0)]

/-- The two ends of link record `j`: the hub's end is none. -/
def linkRecord (j : Nat) : Option ((Stack × Port) × Option (Stack × Port)) :=
  match stackLinks[j]? with
  | some (a, p, b, q) => some ((a, p), some (b, q))
  | none => (hubLinks[j - stackLinks.length]?).map fun e => (e, none)

/-- The record of a port's link. -/
def recordOf (d : Stack) (p : Port) : Option Nat :=
  (List.range 40).find? fun j => match linkRecord j with
    | some (a, b) => a == (d, p) || b == some (d, p)
    | none => false

/-- Widths in a link record. -/
def lwAbsent : Nat := 0
def lwHalf : Nat := 1
def lwFull : Nat := 2

/-- Sets the width of a link record. -/
def topoLink (j w : Nat) (s : State) : State := putTopo (448 + 8 * j + 4) w s

/-- Sets a vault's width in its stack record: 0 full, 1 half, 3 failed. -/
def topoVault (d : Stack) (c : CoreIx) (w : Nat) (s : State) : State :=
  let i := 64 + 16 * d.val + 8 + c.val / 4
  let old := (topoByte s i).toNat
  let sh := 4 ^ (c.val % 4)
  putTopo i (old - old / sh % 4 * sh + w * sh) s

/-- Takes a core out of its stack record's core mask. -/
def topoDropCore (d : Stack) (c : CoreIx) (s : State) : State :=
  let i := 64 + 16 * d.val + 4 + c.val / 8
  putTopo i ((topoByte s i).toNat &&& (255 - 2 ^ (c.val % 8))) s

/-- Bytes `i` to `i + n - 1` of the descriptor. -/
def topoBytes (s : State) (i n : Nat) : List Byte := (List.range n).map fun k => topoByte s (i + k)

/-- The descriptor with HASH set to zero. -/
def topoNoHash (s : State) : List Byte := topoBytes s 0 32 ++ List.replicate 32 0 ++ topoBytes s 64 704

/-- Computes the package hash into TOPO_HASH and bytes 32 to 63 (R362). -/
def topoHash (s : State) : State :=
  let h := sha3 (topoNoHash s)
  let s := forAll (h.zipIdx) (fun e s => putTopo (32 + e.2) e.1.toNat s) s
  forAll (List.range 4) (fun w s => putReg s (r_TOPO_HASH w) (BitVec.ofNat 64 (leAt h (8 * w) 8))) s

/-- A change of the topology in service: TOPO_HASH follows once step 11 has made it valid (R367). -/
def topoChanged (s : State) : State := if 11 ≤ s.bring.last then topoHash s else s

/-- The mask of a partition's member stacks. -/
def memberMask (s : State) (p : Partition) : Nat := (members s p).foldl (fun m d => m + 2 ^ d.val) 0

/-- A partition's topology hash (R362). -/
def partHash (s : State) (p : Partition) : List Byte :=
  let ms := members s p
  let recs := ms.flatMap fun d => topoBytes s (64 + 16 * d.val) 16
  let links := (List.range 36).flatMap fun j => match linkRecord j with
    | some ((a, _), some (b, _)) => if ms.contains a && ms.contains b then topoBytes s (448 + 8 * j) 8 else []
    | _ => []
  let size := 64 + recs.length + links.length
  let num := fun (n v : Nat) => (List.range n).map fun k => BitVec.ofNat 8 (v / 2 ^ (8 * k))
  sha3 (topoBytes s 0 6 ++ num 2 size ++ topoBytes s 8 4 ++ num 4 (memberMask s p) ++ List.replicate 48 0 ++ recs ++ links)

/-! ### Changes in service (R114, R261) -/

/-- A link drops to half width at a step boundary (R114). -/
def execLinkHalfWidthDrop (d : Stack) (p : Port) (s : State) : Host.Outcome State Fault Refusal :=
  let t := halfDrop d p s
  match (getDie s d).halfNext.contains p.val, recordOf d p with
  | true, some j => done (topoChanged (topoLink j lwHalf t))
  | _, _ => done t

/-- A vault drops to half width (R261). -/
def execVaultHalfWidth (d : Stack) (c : CoreIx) (s : State) : Host.Outcome State Fault Refusal :=
  let t := vaultHalf d c s
  if (getVc s d c).nextWidth.isSome && (getVc t d c).nextWidth.isNone then done (topoChanged (topoVault d c 1 t)) else done t

/-- A retraining segment of a vault ends; a vault that fails leaves its core out of the topology (R260, R261). -/
def execVaultRetrainSegment (d : Stack) (c : CoreIx) (t : VaultTest) (s : State) : Host.Outcome State Fault Refusal :=
  let s' := vaultSegment d c t s
  if getF s (r_VC_STATUS d c) f_VC_STATUS_WIDTH ≠ 3 ∧ getF s' (r_VC_STATUS d c) f_VC_STATUS_WIDTH = 3
  then done (topoChanged (topoDropCore d c (topoVault d c 3 (markOutdated d s')))) else done s'

end Sys2Proof.Machine
end

