-- ==== Sys2Proof/Machine/Bring.lean ====
section
/-! DEFINITION. Bring-up (R355 to R375): the steps that BRING_STEP starts, their work, and the switch to full rate. What a
training, a load or a calibration finds comes with the command. -/
namespace Sys2Proof.Machine

/-- The state with bring-up's own state changed. -/
def updBring (f : Bring → Bring) (s : State) : State := { s with bring := f s.bring }

/-! ### Outcome codes -/

def bcOk : Nat := 0x00
def bcDegraded : Nat := 0x01
def bcTimeout : Nat := 0x02
def bcCamner : Nat := 0x10
def bcFwAuth : Nat := 0x20
def bcFwRollback : Nat := 0x21
def bcFwSource : Nat := 0x22
def bcRevision : Nat := 0x30
def bcIsolated : Nat := 0x31
def bcHubOnly : Nat := 0x32
def bcGaleAuth : Nat := 0x40
def bcGaleFail : Nat := 0x41
def bcInitUe : Nat := 0x50
def bcThermal : Nat := 0x60
def bcTopoMismatch : Nat := 0x70
def bcTopoDegraded : Nat := 0x71
def bcParamFault : Nat := 0x72
def bcFrFail : Nat := 0x80

/-- A field of BRING_STATUS. -/
def bringF (s : State) (f : Fld) : Nat := getF s r_BRING_STATUS f

/-- Sets a field of BRING_STATUS. -/
def setBringF (f : Fld) (n : Nat) (s : State) : State := putF r_BRING_STATUS f n s

/-- How a write of the window completes (R307, R312). -/
inductive WinStatus where
  | ok | na | err
  deriving DecidableEq, Repr

/-- A step starts. -/
def startBring (code : Nat) (v : Word) (s : State) : State :=
  let s := updBring (fun b => { b with accept := fieldOf f_BRING_STEP_ACCEPT v == 1, src := fieldOf f_BRING_STEP_SRC v,
                                       arg := fieldOf f_BRING_STEP_ARG v, outcome := none }) s
  let s := putReg s r_BRING_STATUS (BitVec.ofNat 64 (code + 0x100 + 0x400 * bringF s f_BRING_STATUS_FR))
  if code = 13 then
    if s.bring.warm && s.bring.full then setBringF f_BRING_STATUS_FR 2 (updBring (fun b => { b with outcome := some (bcOk, 0, 0) }) s)
    else setBringF f_BRING_STATUS_FR 1 (updBring (fun b => { b with frReady := false }) s)
  else s

/-- A write of BRING_STEP (R355). -/
def bringWrite (v : Word) (s : State) : WinStatus × State :=
  let code := fieldOf f_BRING_STEP_STEP v
  let running := bringF s f_BRING_STATUS_STATE == 1
  if running then (if code = 14 ∧ bringF s f_BRING_STATUS_STEP = 13 then (.ok, startBring code v s) else (.na, s))
  else if code ≠ 0 ∧ code ≤ 14 ∧ code = s.bring.last + 1 then (.ok, startBring code v s)
  else if code = 13 ∧ s.bring.last = 14 ∧ bringF s f_BRING_STATUS_FR = 3 then (.ok, startBring code v s)
  else (.err, s)

/-- Does step `n` run, with its work still to do? -/
def bringAt (s : State) (n : Nat) : Bool :=
  bringF s f_BRING_STATUS_STATE == 1 && bringF s f_BRING_STATUS_STEP == n && s.bring.outcome.isNone

/-- The work of the running step has an outcome. -/
def outcome (code die unit : Nat) (s : State) : State := updBring (fun b => { b with outcome := some (code, die, unit) }) s

/-- The running step ends: done for OK and DEGRADED, else failed. -/
def endBring (code die unit ms : Nat) (s : State) : State :=
  let n := bringF s f_BRING_STATUS_STEP
  let ok := code ≤ 1
  let fr := bringF s f_BRING_STATUS_FR
  let s := putReg s r_BRING_STATUS (BitVec.ofNat 64 (n + 0x100 * (if ok then 2 else 3) + 0x400 * fr + 2 ^ 16 * (code % 256) +
    2 ^ 24 * (die % 256) + 2 ^ 32 * (unit % 256) + 2 ^ 48 * min ms 0xFFFF))
  updBring (fun b => { b with outcome := none, last := if ok then max b.last n else b.last }) s

/-- A running step finishes its work (R355); `ms`: how long it took. -/
def execBringStepDone (ms : Nat) (s : State) : Host.Outcome State Fault Refusal :=
  match s.bring.outcome with
  | some (c, d, u) => if bringF s f_BRING_STATUS_STATE = 1 then done (endBring c d u ms s) else done s
  | none => done s

/-- A step exceeds its maximum time (R355). -/
def execBringStepTimeout (ms : Nat) (s : State) : Host.Outcome State Fault Refusal :=
  if bringF s f_BRING_STATUS_STATE = 1 then done (endBring bcTimeout 0 0 ms s) else done s

/-! ### Steps 1 to 4 -/

/-- Step 1: the Camner link trains at full rate on 16 lanes, on lanes 0–7 or 8–15, or not at all (R304, R356). -/
def execCamnerTrain (lanes : Option (Fin 3)) (s : State) : Host.Outcome State Fault Refusal :=
  if !bringAt s 1 then done s
  else match lanes with
    | none => done (outcome bcCamner 0 0 (putF r_CAMNER_STATUS f_CAMNER_STATUS_STATE 2 s))
    | some w =>
      let s := updCam (fun c => { c with fullRate := true, flits := FlitSide.reset }) s
      let s := putF r_CAMNER_STATUS f_CAMNER_STATUS_WIDTH (if w = 0 then 0 else 1) (putF r_CAMNER_STATUS f_CAMNER_STATUS_STATE 3 s)
      done (outcome (if w = 0 then bcOk else bcDegraded) 0 0 (flushEvents (putF r_CAMNER_STATUS f_CAMNER_STATUS_UPPER (if w = 2 then 1 else 0) s)))

/-- Is a stack's revision code listed with hub A1 (R359)? -/
def revListed (code : Nat) : Bool := code == 0x01 || code == 0x10

/-- Step 3: the stacks that answer on the ring, with their revision codes; every listed revision has feature level 1 (R358, R359). -/
def execRingEnumeration (found : List (Stack × Nat)) (s : State) : Host.Outcome State Fault Refusal :=
  if !bringAt s 3 then done s
  else
    let here := allStacks.filter fun d => found.any fun x => x.1 == d
    let s := { s with present := here.map (·.val) }
    let s := forAll allStacks (fun d s => putTopo (64 + 16 * d.val + 1) (((found.find? fun x => x.1 == d).map (·.2)).getD 0) s) s
    if here.isEmpty then done (outcome bcHubOnly 0 0 s)
    else match here.find? fun d => !revListed (topoByte s (64 + 16 * d.val + 1)).toNat with
      | some d => done (outcome bcRevision (dieNo d) 0 s)
      | none => done (outcome bcOk 0 0 (putF r_SB_ID f_SB_ID_FLEVEL 1 s))

/-- A stack record of the found descriptor before training (R360). -/
def putStackRecord (d : Stack) (rev mask engines : Nat) (s : State) : State :=
  let i := 64 + 16 * d.val
  putTopoN (i + 4) 2 mask (putTopo (i + 6) engines (putTopo i d.val (putTopo (i + 1) rev (putTopo (i + 2) 1 (putTopo (i + 3) 1 s)))))

/-- The logical engines per core of a stack, as its cores' fuses give them (R2, R4, R5). -/
def stackEngines (s : State) (d : Stack) : Nat := allCores.foldl (fun n c => min n (engineCount s d c)) 4

/-- Step 4: the found descriptor from the fuses of every die present: the package's grade of SB_ID, the engines per core of
CORE_ENGMAP, and the core masks, which no register shows: a stack that is not listed has all its cores (R4, R360). -/
def execTopologyDiscovery (maps : List (Stack × BitVec 16)) (s : State) : Host.Outcome State Fault Refusal :=
  if !bringAt s 4 then done s
  else
    let revs := allStacks.map fun d => (d, (topoByte s (64 + 16 * d.val + 1)).toNat)
    let here := fun (d : Stack) => s.present.contains d.val
    let s := putTopoN 0 4 0x4F504F54 (putTopoN 4 2 1 (putTopoN 6 2 768 { s with topo := [] }))
    let s := putTopo 8 (getF s r_SB_ID f_SB_ID_GRADE) (putTopo 9 1 (putTopo 10 1 s))
    let s := putTopoN 12 4 (s.present.foldl (fun m n => m + 2 ^ n) 0) s
    let s := forAll revs (fun r s => if !here r.1 then s else
      let m := ((maps.find? fun x => x.1 == r.1).map (·.2)).getD 0xFFFF
      putStackRecord r.1 r.2 m.toNat (stackEngines s r.1) s) s
    let s := forAll (List.range 40) (fun j s => match linkRecord j with
      | some ((a, p), e) =>
        let i := 448 + 8 * j
        let b : Nat × Nat := match e with | some (b, q) => (b.val, q.val) | none => (0xFF, (opposite p).val)
        putTopo i a.val (putTopo (i + 1) p.val (putTopo (i + 2) b.1 (putTopo (i + 3) b.2 s)))
      | none => s) s
    let reduced := s.present.length < 24 || maps.any fun x => here x.1 && x.2 ≠ 0xFFFF
    done (outcome (if reduced then bcDegraded else bcOk) 0 0 s)

/-! ### Steps 5 to 7 -/

/-- A direction without a failed wire. -/
def goodWires : WireTest := ⟨[], 0, false⟩

/-- The tests of a link's two directions in a list. -/
def foundTests (l : List (Nat × WireTest × WireTest)) (j : Nat) : WireTest × WireTest :=
  ((l.find? fun x => x.1 == j).map (·.2)).getD (goodWires, goodWires)

/-- The width in a link record for a width of `linkWidth`. -/
def recordWidth (w : Nat) : Nat := match w with | 0 => lwFull | 1 | 2 => lwHalf | _ => lwAbsent

/-- An end of a trained link opens at a width, with the spares of its inbound direction switched in; the end of a link that fails to
train stays isolated (R363). -/
def openPort (d : Stack) (p : Port) (t : WireTest) (w : Nat) (s : State) : State :=
  let c := r_PORT_CTRL d p
  let a := r_PORT_STATUS d p
  let s := putF a f_PORT_STATUS_HUB_FACING (if facesHub d p then 1 else 0) s
  if w = 3 then putF c f_PORT_CTRL_EN 0 s
  else putF a f_PORT_STATUS_HALF (if w = 0 then 0 else 1) (putF a f_PORT_STATUS_STATE psOpen
    (putF a f_PORT_STATUS_ISO_CAUSE 0 (putF c f_PORT_CTRL_ISOLATE 0 (portTrained d p (showSpares d p t w s)))))

/-- Trains the link of record `j`, whose two directions were tested (R111); a link with an absent stack is absent. -/
def trainLink (j : Nat) (t : WireTest × WireTest) (s : State) : State :=
  match linkRecord j with
  | none => s
  | some ((a, p), e) =>
    let here := s.present.contains a.val && match e with | some (b, _) => s.present.contains b.val | none => true
    let w := if here then linkWidth t.1 t.2 else 3
    let s := topoLink j (recordWidth w) (openPort a p t.1 w s)
    match e with | some (b, q) => openPort b q t.2 w s | none => s

/-- Training aligns a die's slot phase with the hub's (R115, log entry 106). -/
def alignPhase (d : Stack) (s : State) : State :=
  updDie d (fun y => { y with phase := s.hub.phase, stepStart := dieNow s d }) s

/-- Is a stack without a trained link? -/
def isolated (s : State) (d : Stack) : Bool :=
  allPorts.all fun p => match recordOf d p with | some j => topoByte s (448 + 8 * j + 4) == 0#8 | none => true

/-- The first present stack none of whose connected ports trained (R363). -/
def isolatedStack (s : State) : Option Stack := allStacks.find? fun d => s.present.contains d.val && isolated s d

/-- Does the found descriptor hold a link that is not of full width? -/
def linksReduced (s : State) : Bool := (List.range 40).any fun j => topoByte s (448 + 8 * j + 4) != 2#8

/-- Does it hold a present stack with a vault that is not of full width? -/
def vaultsReduced (s : State) : Bool :=
  s.present.any fun n => (List.range 4).any fun k => topoByte s (64 + 16 * n + 8 + k) != 0#8

/-- Does it hold a present stack with an LPDDR channel that is not active? -/
def channelsReduced (s : State) : Bool := s.present.any fun n => topoByte s (64 + 16 * n + 12) != 0xFF#8

/-- The tests of a command by record number. -/
def testList (l : LinkTests) : List (Nat × WireTest × WireTest) := l.map fun x => (x.1.val, x.2)

/-- Step 5: every link trains, with the failed wires listed, and the slot phase is aligned outward from the hub (R111, R115, R363). -/
def execDieToDieTraining (tests : LinkTests) (s : State) : Host.Outcome State Fault Refusal :=
  if !bringAt s 5 then done s
  else
    let s := forAll (List.range 40) (fun j s => trainLink j (foundTests (testList tests) j) s) s
    let s := forAll allStacks (fun d s => if s.present.contains d.val && !isolated s d then alignPhase d s else s) s
    match isolatedStack s with
    | some d => done (outcome bcIsolated (dieNo d) 0 s)
    | none => done (outcome (if linksReduced s then bcDegraded else bcOk) 0 0 s)

/-- A vault takes the width that training found. -/
def setVaultWidth (d : Stack) (c : CoreIx) (t : VaultTest) (s : State) : State :=
  let w := vaultWidth t
  let s := putF (r_VC_STATUS d c) f_VC_STATUS_WIDTH w (vaultSpares d c t s)
  let s := topoVault d c (match w with | 0 => 0 | 3 => 3 | _ => 1) s
  if w = 3 then topoDropCore d c s else s

/-- Restores the remaps and retirements of the repair log that some units have (R295, R296). -/
def restoreRepairs (ok : Nat → Bool) (s : State) : State :=
  let log := s.hub.repairLog
  let s := forAll log (fun e s =>
    let (n, row, what) := e
    if !ok n then s
    else match stackIx (n / 17) with
      | some d =>
        let u : Fin 17 := ⟨n % 17, by omega⟩
        if what = 1 then addRemap d u (rowBank u row) s else retireRow d u row (if what = 2 then none else some (what - 3)) s
      | none => s) s
  updHub (fun h => { h with repairLog := log }) s

/-- The vaults of a stack train, those listed with failed wires; after a warm reset the kept training of the others stands. -/
def trainVaults (d : Stack) (tests : List (CoreIx × VaultTest)) (warm : Bool) (s : State) : State :=
  forAll allCores (fun c s =>
    match tests.find? fun x => x.1 == c with
    | some x => setVaultWidth d c x.2 s
    | none => if warm then topoVault d c (match getF s (r_VC_STATUS d c) f_VC_STATUS_WIDTH with | 0 => 0 | 3 => 3 | _ => 1) s
              else setVaultWidth d c ⟨0, 0, 0⟩ s) s

/-- Step 6: every vault's vertical interface trains, with the failed wires listed; repairs are restored (R363). After a warm
reset the kept training is only checked (R375). -/
def execVaultVerticalTraining (tests : List (Stack × CoreIx × VaultTest)) (s : State) : Host.Outcome State Fault Refusal :=
  if !bringAt s 6 then done s
  else
    let s := forAll allStacks (fun d s => if s.present.contains d.val then
      trainVaults d ((tests.filter fun x => x.1 == d).map (·.2)) s.bring.warm s else s) s
    let s := if s.bring.warm then s else restoreRepairs (fun n => n % 17 < 16) s
    done (outcome (if vaultsReduced s then bcDegraded else bcOk) 0 0 s)

/-- A device takes its active channels: all but the failed ones, none where two or more failed (R276, R363). -/
def setChannels (d : Stack) (bad : List (Fin 8)) (s : State) : State :=
  let mask := if 2 ≤ bad.length then 0 else 0xFF - bad.foldl (fun m c => m + 2 ^ c.val) 0
  let s := putF (r_LP_STATUS d) f_LP_STATUS_ACTIVE mask (putF (r_LP_STATUS d) f_LP_STATUS_FAILED 0 s)
  let s := forAll (List.finRange 8) (fun ch s => putF (r_LP_CHAN d ch) f_LP_CHAN_STATE (if bad.contains ch then 3 else 1) s) s
  putTopo (64 + 16 * d.val + 12) mask s

/-- A device trains but for some channels; was its data map built anew? After a warm reset it is only where a channel has failed
(R276, R375). -/
def trainDevice (d : Stack) (new : List (Fin 8)) (warm : Bool) (s : State) : Bool × State :=
  let old := if warm then (List.finRange 8).filter fun ch => lpChanFailed s d ch.val || !(lpActive s d).contains ch.val else []
  let rebuild := !warm || lpFailures s d ≠ 0 || !new.isEmpty
  (rebuild, if rebuild then setChannels d (old ++ new).eraseDups s
            else putTopo (64 + 16 * d.val + 12) (getF s (r_LP_STATUS d) f_LP_STATUS_ACTIVE) s)

/-- Step 7: every LPDDR channel trains, but for the failed ones; the data map is built and LPDDR repairs are restored (R363).
After a warm reset a device's map is rebuilt only where a channel had failed (R276, R375). -/
def execLpddrTraining (failed : List (Stack × Fin 8)) (s : State) : Host.Outcome State Fault Refusal :=
  if !bringAt s 7 then done s
  else
    let warm := s.bring.warm
    let s := forAll allStacks (fun d s =>
      if !s.present.contains d.val then s
      else
        let (rebuild, s) := trainDevice d ((failed.filter fun x => x.1 == d).map (·.2)) warm s
        if warm && rebuild then updBring (fun b => { b with rebuilt := b.rebuilt ++ [d.val] }) s else s) s
    let s := if warm then s else restoreRepairs (fun n => n % 17 = 16) s
    done (outcome (if channelsReduced s then bcDegraded else bcOk) 0 0 s)

/-! ### Steps 8 to 10 -/

/-- Clears the region descriptors of a unit. -/
def clearRegions (d : Stack) (u : Fin 17) (s : State) : State :=
  forAll (List.range 64) (fun n s => putReg s (match unitCore u with | some c => r_ECC_REGION d c n | none => r_ECC_REGION_LP d n) 0) s

/-- An armed FLIPMASK that matches every write corrupts the first word that the initialisation of a unit writes, at its lowest address
(R289, log entry 94). -/
def initFlip (d : Stack) (u : Fin 17) (s : State) : State :=
  if !flipMatches (getReg s (uFlipReg d u)) wOther 99 then s
  else match unitCore u with
    | some c => let (j, off) := mapVault s d c 0
                storeBankWord d c j off wOther (encodeWord (vaultCode s d c 0) 0) s
    | none => match lpPlace s d 0 with
      | some (ch, row, sec) => storeLpWord d ch row sec wOther (encodeWord (lpCode s d row) 0) s
      | none => s

/-- Initialises the DRAM of a stack's vaults with zero data and a valid code. -/
def initVaults (d : Stack) (s : State) : State :=
  forAll allCores (fun c s => initFlip d (vaultUnit c)
      (updVc d c (fun v => { v with inits := validRegions s (r_ECC_REGION d c 0), initNear := setN s d c }) s))
    (initMem (bankKey d 0 0 0) (16 * 2 ^ 31) s)

/-- Initialises a stack's LPDDR device. -/
def initLpddr (d : Stack) (s : State) : State :=
  initFlip d 16 (updLp d (fun p => { p with inits := validRegions s (r_ECC_REGION_LP d 0) }) (initMem (lpKey d 0 0 0) (2 ^ 36) s))

/-- Initialises the DRAM of a stack; after a warm reset only a device whose map was rebuilt. -/
def initStack (d : Stack) (warm rebuilt : Bool) (s : State) : State :=
  if warm then (if rebuilt then initLpddr d (clearRegions d 16 s) else s)
  else initLpddr d (initVaults d (forAll (List.finRange 17) (fun u s => clearRegions d u s) s))

/-- Step 9: region descriptors are cleared and every DRAM address is written with zero data; `bad`: a word that reads back
uncorrectable (R365). After a warm reset only devices whose map was rebuilt are initialised. -/
def execMemoryInitialisation (bad : Option (Stack × Fin 17 × Nat)) (s : State) : Host.Outcome State Fault Refusal :=
  if !bringAt s 9 then done s
  else
    let warm := s.bring.warm
    let s := forAll allStacks (fun d s =>
      initStack d warm (s.bring.rebuilt.contains d.val) s) s
    match bad with
    | some (d, u, a) => done (outcome bcInitUe (dieNo d) (if u.val < 16 then 9 else 4) (uMark d u a s))
    | none => done (outcome bcOk 0 0 s)

/-- The estimates of a stack's layers take their measured values, and VOFFSET is restored from flash (R391, R398). -/
def calibrate (d : Stack) (meas : List (Fin 6 × Nat)) (s : State) : State :=
  let s := updTherm d (fun t => { t with frac := [] }) (putF (r_MARGIN d) f_MARGIN_VOFFSET (sget 0 s.voff d.val) s)
  forAll meas (fun m s => putF (r_THERM_EST d m.1) f_THERM_EST_MEAS m.2 (putF (r_THERM_EST d m.1) f_THERM_EST_EST m.2 s)) s

/-- Step 10: sensors and activity estimates are calibrated; `bad`: a sensor outside its calibration range (R366). -/
def execThermalCalibration (bad : Option (Stack × Nat)) (meas : List (Stack × Fin 6 × Nat)) (s : State) :
    Host.Outcome State Fault Refusal :=
  if !bringAt s 10 then done s
  else match bad with
    | some (d, n) => done (outcome bcThermal (dieNo d) n s)
    | none => done (outcome bcOk 0 0 (forAll allStacks (fun d s => if s.present.contains d.val then
        calibrate d ((meas.filter fun m => m.1 == d).map (·.2)) s else s) s))

/-! ### Step 11 (R367) -/

/-- How a byte of the expected descriptor compares with the found one. -/
inductive TopoCmp where
  | same | reduced | other
  deriving DecidableEq, Repr

/-- Compares two bytes whose `n`-bit fields order resources from `wide` down: fields may only go toward less. -/
def cmpMask (e f : Nat) : TopoCmp := if e = f then .same else if e &&& f = f then .reduced else .other

/-- Compares two-bit vault widths: 0 full, 1 half, 3 failed. -/
def cmpWidths (e f : Nat) : TopoCmp :=
  if e = f then .same else if (List.range 4).all fun i => decide (e / 4 ^ i % 4 ≤ f / 4 ^ i % 4) then .reduced else .other

/-- Is the stack of a stack record absent from the found descriptor but expected? -/
def recordGone (e f : Nat → Nat) (i : Nat) : Bool :=
  let r := 64 + (i - 64) / 16 * 16
  e (r + 3) % 2 == 1 && f (r + 3) % 2 == 0

/-- Compares byte `i` of the expected and the found descriptor. -/
def cmpByte (e f : Nat → Nat) (i : Nat) : TopoCmp :=
  if e i = f i then .same
  else if 32 ≤ i ∧ i < 64 then .same
  else if 12 ≤ i ∧ i < 16 then cmpMask (e i) (f i)
  else if i < 64 then .other
  else if i < 448 then
    if recordGone e f i && f i == 0 then .reduced
    else match i % 16 with
      | 4 | 5 | 12 => cmpMask (e i) (f i)
      | 8 | 9 | 10 | 11 => cmpWidths (e i) (f i)
      | _ => .other
  else if i < 768 then (if i % 8 = 4 ∧ f i < e i then .reduced else .other)
  else .other

/-- DIE and UNIT of a difference in byte `i`. -/
def diffPlace (e f : Nat → Nat) (i : Nat) : Nat × Nat :=
  if i < 64 then (0, i)
  else if i < 448 then ((i - 64) / 16 + 1, i % 16)
  else
    let j := (i - 448) / 8
    ((match linkRecord j with | some ((a, _), _) => dieNo a | none => max (e (448 + 8 * j)) (f (448 + 8 * j)) + 1), j)

/-- Step 11: the found topology against the expected descriptor; `read`: the bytes at TOPO_EXPECTED, none where the read
completes with ERR. -/
def execTopologyCheck (read : Option (List Byte)) (s : State) : Host.Outcome State Fault Refusal :=
  if !bringAt s 11 then done s
  else
    let len := getF s r_TOPO_EXPECTED f_TOPO_EXPECTED_LEN
    let badPlace := getF s r_TOPO_EXPECTED f_TOPO_EXPECTED_ADDR % 8 ≠ 0 || len = 0 || decide (2048 < len)
    match badPlace, read with
    | true, _ | _, none => done (outcome bcParamFault 0 0 s)
    | false, some bytes =>
      let e := fun (i : Nat) => if i < len then (bytes.getD i 0).toNat else 0
      if leNat (bytes.take 4) ≠ 0x4F504F54 ∨ e 4 + 256 * e 5 ≠ 1 ∨ e 6 + 256 * e 7 ≠ len then done (outcome bcParamFault 0 0 s)
      else
        let s' := topoHash s
        let f := fun (i : Nat) => (topoByte s' i).toNat
        let cmps := (List.range (max len 768)).map fun i => (i, cmpByte e f i)
        match cmps.find? fun x => x.2 ≠ .same with
        | none =>
          if (List.range 32).all fun i => e (32 + i) == f (32 + i) then done (outcome bcOk 0 0 s')
          else done (outcome bcTopoMismatch 0 32 s)
        | some (i, _) =>
          let (d, u) := diffPlace e f i
          if cmps.any fun x => x.2 == .other then done (outcome bcTopoMismatch d u s)
          else if s.bring.accept then done (outcome bcDegraded 0 0 s') else done (outcome bcTopoDegraded d u s)

/-! ### Steps 12 to 14 -/

/-- Step 12: service at the Thaw rate is prepared: the transit tables of the hub's choice, Drizzle, FR (R369). -/
def execThaw (tables : List (Stack × Cluster × Fin 64 × Word)) (s : State) : Host.Outcome State Fault Refusal :=
  if !bringAt s 12 then done s
  else
    let s := forAll tables (fun e s => softWrite (r_TR_SLOT e.1 e.2.1 e.2.2.1.val) e.2.2.2 s) s
    let s := forAll allStacks (fun d s => forAll (List.finRange 17) (fun u s => putF (uDrizzleReg d u) f_DRIZZLE_CTRL_EN 1 s) s) s
    done (outcome bcOk 0 0 (setBringF f_BRING_STATUS_FR 0 s))

/-- Launches and new transit transfers stop for the switch (R371). -/
def frStop (s : State) : State := updHub (fun h => { h with frQuiet := true, transitStopped := true }) s

/-- Service resumes. -/
def frResume (s : State) : State := resumeTransit (updHub (fun h => { h with frQuiet := false }) s)

/-- Step 13: training at full rate is complete on every die, with the links and vaults that train narrower (R370, R371). -/
def execFullRateTraining (links : LinkTests) (tests : List (Stack × CoreIx × VaultTest)) (s : State) :
    Host.Outcome State Fault Refusal :=
  if bringF s f_BRING_STATUS_FR ≠ 1 ∨ s.bring.frReady then done s
  else done (frStop (updBring (fun b => { b with
    frReady := true, frLinks := testList links,
    frVaults := tests.foldl (fun m x => sput 0 m (coreNo x.1 x.2.1) (vaultWidth x.2.2)) [] }) s))

/-- Has every queued step ended and every transfer been settled, with no die in Frost (R371)? -/
def frQuiesced (s : State) : Bool :=
  s.hub.xfers.isEmpty && allStacks.all fun d =>
    !dieRuns s d && (getDie s d).lq.isEmpty && (getDie s d).taken.isNone && !inFrost s d &&
      allCores.all fun c => (getCore s d c).held.isNone

/-- A link switches at the width it trained to at full rate, with the spares found then; one that did not train is isolated and its
partitions halt. A link that has not trained at the Thaw rate stays as it is. -/
def switchLink (j : Nat) (s : State) : State :=
  match linkRecord j with
  | none => s
  | some (a, e) =>
    let old := (topoByte s (448 + 8 * j + 4)).toNat
    let t := foundTests s.bring.frLinks j
    let n := linkWidth t.1 t.2
    let w := min old (recordWidth n)
    let ends := (a, t.1) :: match e with | some b => [(b, t.2)] | none => []
    if old = lwAbsent then s
    else
      let s := topoLink j w s
      if w = lwAbsent then forAll ends (fun x s => losePort x.1.1 x.1.2 icErrors cLinkDown (markOutdated x.1.1 s)) s
      else
        let s := forAll ends (fun x s => showSpares x.1.1 x.1.2 x.2 n s) s
        if w = old then s
        else forAll ends (fun x s =>
          let (d, p) := x.1
          let s := putF (r_PORT_STATUS d p) f_PORT_STATUS_HALF 1 s
          postEvent evLinkDegraded (subj2 (dieNo d) p.val) 1 (if isMember s d p then makeElastic d s else s)) s

/-- A vault switches at the width it trained to at full rate. -/
def switchVault (d : Stack) (c : CoreIx) (s : State) : State :=
  let a := r_VC_STATUS d c
  let old := getF s a f_VC_STATUS_WIDTH
  let w := sget 0 s.bring.frVaults (coreNo d c)
  if w = 0 ∨ w = old ∨ old = 3 then s
  else if w = 3 then topoDropCore d c (topoVault d c 3 (floodAbort d cDieReset none (putF a f_VC_STATUS_WIDTH 3 (markOutdated d s))))
  else postEvent evVaultHalf (subj2 (dieNo d) c.val) 0 (makeElastic d (topoVault d c 1 (putF a f_VC_STATUS_WIDTH w s)))

/-- Step 13's outcome reaches BRING_STATUS while it is still the step reported. -/
def frOutcome (code : Nat) (s : State) : State := if bringAt s 13 then outcome code 0 0 s else s

/-- The switch to full rate at a step boundary (R371, R372, R374); `ok`: every crossing reached its trained latency. -/
def execFullRateSwitch (ok : Bool) (s : State) : Host.Outcome State Fault Refusal :=
  if !s.bring.frReady || !s.hub.frQuiet || !frQuiesced s then done s
  else if !ok then
    done (frResume (frOutcome bcFrFail (setBringF f_BRING_STATUS_FR 3 (updBring (fun b => { b with frReady := false }) s))))
  else
    let s := forAll (List.range 40) switchLink s
    let s := forAll allStacks (fun d s => if s.present.contains d.val then forAll allCores (fun c s => switchVault d c s) s else s) s
    let s := forAll allStacks (fun d s => updDie d (fun y => { y with firstNext := true }) (alignPhase d s)) s
    let s := updBring (fun b => { b with frReady := false, full := true }) s
    done (frResume (frOutcome bcOk (setBringF f_BRING_STATUS_FR 2 (topoChanged s))))

/-- Quiescence has not come within 50 ms: the hub resumes service and tries again later (R371). -/
def execQuietPeriodTimeout (s : State) : Host.Outcome State Fault Refusal :=
  if s.bring.frReady && s.hub.frQuiet then done (frResume s) else done s

/-- Step 14: the dispatcher is enabled (R373). -/
def execReady (s : State) : Host.Outcome State Fault Refusal :=
  if bringAt s 14 then done (outcome bcOk 0 0 (putF r_DISP_CTRL f_DISP_CTRL_EN 1 s)) else done s

end Sys2Proof.Machine
end

