-- ==== Sys2Proof/Machine/Mirror.lean ====
section
/-! DEFINITION. The sending half of the twin mirror (R327, R329, R332, R338): which sessions are mirrored, session operations, the
burst of a commit, and the pages of the background copy. -/
namespace Sys2Proof.Machine

/-- The state with the twin state changed. -/
def updTwin (f : Twin → Twin) (s : State) : State := { s with twin := f s.twin }

/-- A field of TWIN_STATUS. -/
def twinF (s : State) (f : Fld) : Nat := getF s r_TWIN_STATUS f

/-- The twin mode: 0 Off, 1 Mirror, 2 Standby (R327). -/
def twinMode (s : State) : Nat := getF s r_TWIN_CTRL f_TWIN_CTRL_MODE

/-- Is the twin link up? -/
def twinUp (s : State) : Bool := twinF s f_TWIN_STATUS_LINK == 2

/-- Do the twin's heartbeats report Mirror or Standby? -/
def peerHolds (s : State) : Bool := twinF s f_TWIN_STATUS_PEER_MODE == 1 || twinF s f_TWIN_STATUS_PEER_MODE == 2

/-- Does this module send mirror traffic now? -/
def mirActive (s : State) : Bool :=
  twinMode s == 1 && twinUp s && peerHolds s && !s.twin.stopped && twinF s f_TWIN_STATUS_FENCED == 0 &&
    twinF s f_TWIN_STATUS_DETACHED == 0

/-- Queues a message to the twin. -/
def sendTwin (m : TwinMsg) (s : State) : State := updTwin (fun t => { t with tx := t.tx ++ [m] }) s

/-- A session operation is mirrored while the session is held at the receiver (R329). -/
def mirrorOp (slot : Nat) (op : MirOp) (s : State) : State :=
  match getSess s slot with
  | some x => if mirActive s && x.flags.testBit 0 && x.mir != .unmirrored then sendTwin (.mirOp slot op) s else s
  | none => s

/-- Sends bytes of a page in pieces of at most 256 B. -/
def sendPage (g : Graph) (e slot l h idx : Nat) : List (Nat × Nat) → State → State
  | [], s => s
  | (off, n) :: rest, s =>
    let s := forAll (List.range ((n + 255) / 256)) (fun i s =>
      let o := off + 256 * i
      let m := min 256 (n - 256 * i)
      sendTwin (.mirData (o + 2 ^ 17 * idx + 2 ^ 36 * l + 2 ^ 43 * h) m (framePeek s g e slot o m)) s) s
    sendPage g e slot l h idx rest s

/-- The parts of a frame that hold the codes and scales of positions `p0` to `p1 - 1` of a page, for every head (R180). -/
def posParts (g : Graph) (p0 p1 : Nat) : List (Nat × Nat) :=
  let n := g.hpp
  let cb := 0x10000 / n / 256
  let sb := 0x1000 / n / 256
  (List.range n).flatMap fun h =>
    [(0x10000 / n * h + cb * p0, cb * (p1 - p0)), (0x10000 / n * h + 0x8000 / n + cb * p0, cb * (p1 - p0)),
     (0x10000 + 0x1000 / n * h + sb * p0, sb * (p1 - p0)), (0x10000 + 0x1000 / n * h + 0x800 / n + sb * p0, sb * (p1 - p0))]

/-- The state beat, key offsets and coarse summary of a frame. -/
def stateBeat : List (Nat × Nat) := [(0x11C00, 128)]
def keyOffsets : List (Nat × Nat) := [(0x11000, 1024)]
def summaryPart : List (Nat × Nat) := [(0x11400, 2048)]

/-- Where the readable positions of a page from `p0` on end, `p1` at most (R181). -/
def readableEnd (s : State) (g : Graph) (e slot p0 p1 : Nat) : Nat :=
  p0 + ((List.range (p1 - p0)).find? fun i => !pageReadable s g e slot (p0 + i)).getD (p1 - p0)

/-- The burst of a commit from position `old` to `new - 1`, with the draft-ring entries of those positions (R227, R329). With `tail`, the tail
page's committed positions go in place of the commit's own (R338). -/
def sendBurst (k slot gen old new : Nat) (tail : Bool) (s : State) : State :=
  match getGraph s k, getSess s slot with
  | some g, some x =>
    let seq := s.twin.nextSeq + 1
    let s := updTwin (fun t => { t with nextSeq := seq }) s
    let s := sendTwin (.mirBegin x.sid gen old new seq) s
    let i0 := old / 128
    let i1 := (new - 1) / 128
    let s := if new ≤ old then s else
      forAll (sessPages s g slot) (fun p s =>
        let idx := heIdx p.2
        if idx < i0 ∨ i1 < idx then s
        else
          let sl := heId p.2 % 2 ^ 18
          let p0 := if tail ∧ idx = i1 then 0 else if idx = i0 then old % 128 else 0
          let p1 := readableEnd s g p.1 sl p0 (if idx = i1 then (new - 1) % 128 + 1 else 128)
          let parts := posParts g p0 p1 ++ stateBeat ++ (if p0 = 0 then keyOffsets else []) ++ (if p1 = 128 then summaryPart else [])
          sendPage g p.1 sl (heLayer p.2) (heGroup p.2) idx parts s) s
    let s := forAll (x.draft.filter fun e => decide (old ≤ e.1) && decide (e.1 < new)) (fun e s =>
      sendTwin (.mirData (2 ^ 47 + e.1 % 2 ^ 17) 256 e.2) s) s
    let s := sendTwin (.mirEnd (readDsb s g slot)) s
    updSess slot (fun x => { x with unacked := some seq, mirPos := new, mirSeq := seq }) s
  | _, _ => s

/-- Must a commit record of a session wait for the twin (R332, R338)? -/
def mirrorHolds (s : State) (x : Sess) : Bool :=
  mirActive s && match x.mir with
    | .unmirrored => false
    | .inStep => x.unacked.isSome
    | .building => x.unacked.isSome || x.copyLeft ≠ []

/-- Sessions of a resynchronisation that are not yet IN_STEP. -/
def building (s : State) : List Nat :=
  (sessSlots s).filter fun n => match getSess s n with | some x => x.mir == .building | none => false

/-- TWIN_SYNCED is posted when every covered session is IN_STEP (R338). -/
def checkSynced (s : State) : State :=
  match s.twin.resync with
  | some n => if (building s).isEmpty then postEvent evTwinSynced 0 n (updTwin (fun t => { t with resync := none }) s) else s
  | none => s

/-- A processed commit is mirrored (R222, R329, R338). -/
def mirrorCommit (k slot gen old new : Nat) (s : State) : State :=
  match getSess s slot with
  | none => s
  | some x =>
    if !mirActive s then s
    else match x.mir with
      | .unmirrored => s
      | .inStep => sendBurst k slot gen old new false s
      | .building =>
        checkSynced (updSess slot (fun x => { x with mir := .inStep }) (sendBurst k slot gen old new true s))

end Sys2Proof.Machine
end

