-- ==== Sys2Proof/Machine/Select.lean ====
section
/-! DEFINITION. Retrieval (R172, R188, R199 to R202, R204): the pages that a decode step attends, the ranking of the candidates by
their index entries, the prefetch band, the missing pages and the stamps. -/
namespace Sys2Proof.Machine

/-! ### Scores (R172, R200) -/

/-- The 64 BF16 values of half `i` of a row of channels. -/
def halfVals (row i : Nat) : List Val := (List.range 64).map fun c => decodeFmt .bf16 (row / 2 ^ (16 * (64 * i + c)) % 2 ^ 16)

/-- QBND over one half: the 64 terms max(q × min, q × max), added pairwise. -/
def boundHalf (q lo hi i : Nat) : BitVec 32 :=
  sumTerms (List.zipWith (fun q e => maxVal (mulVal q e.1) (mulVal q e.2)) (halfVals q i) ((halfVals lo i).zip (halfVals hi i)))

/-- The bound of one query row over `n` halves: the halves' sums added in order (R172). -/
def boundRow (q lo hi n : Nat) : BitVec 32 :=
  (List.range (n - 1)).foldl (fun t i => addF32 t (boundHalf q lo hi (i + 1))) (boundHalf q lo hi 0)

/-- The score of an index entry for the query sets of its heads, 8 rows each: the largest bound of any row of any head. A NaN bound
gives the canonical NaN, as VRED_RMAX does. -/
def entryScore (hpp : Nat) (q : List Nat) (entry : Nat) : BitVec 32 :=
  let d := 512 / hpp
  rmax ((List.range hpp).flatMap fun h =>
    let lo := entry / 2 ^ (8 * (2048 / hpp * h)) % 2 ^ (16 * d)
    let hi := entry / 2 ^ (8 * (2048 / hpp * h + 1024 / hpp)) % 2 ^ (16 * d)
    (List.range 8).map fun r => boundRow (q.getD (8 * h + r) 0) lo hi (d / 64))

/-- A page's index entry as its scoring BP reads it: in an even step from the home group, in an odd one, with RIDX = 2, from the
partner's copy (R188). -/
def indexEntry (s : State) (g : Graph) (odd : Bool) (e sl : Nat) : Nat :=
  if odd && g.ridx == 2 then grpPeek s (nearGrp g (g.place.partner.getD e e)) (g.place.index2 + 2048 * sl) 2048
  else grpPeek s (nearGrp g e) (g.place.index + 2048 * sl) 2048

/-- The rank of a score: NaN above every number, both zeros equal. -/
def scoreRank (x : BitVec 32) : Nat :=
  if isNaN32 x then 2 ^ 33 else if x.getLsbD 31 then 2 ^ 32 - (x.toNat - 2 ^ 31) else 2 ^ 32 + x.toNat

/-- A candidate in its place: the higher score first, then the lower page index. -/
def insertRank (x : BitVec 32 × Nat) : List (BitVec 32 × Nat) → List (BitVec 32 × Nat)
  | [] => [x]
  | y :: l =>
    if scoreRank y.1 < scoreRank x.1 ∨ (scoreRank y.1 = scoreRank x.1 ∧ heIdx x.2 < heIdx y.2) then x :: y :: l
    else y :: insertRank x l

/-- Candidates in ranked order (R200). -/
def ranking (l : List (BitVec 32 × Nat)) : List Nat := (l.foldl (fun r x => insertRank x r) []).map (·.2)

/-! ### The attention set (R199) -/

/-- The home entries of a session's pages of a layer and head group. -/
def pairPages (s : State) (g : Graph) (slot l h : Nat) : List (Nat × Nat) :=
  (sessPages s g slot).filter fun p => heLayer p.2 == l && heGroup p.2 == h

/-- Does a decode step at a position attend to every page? -/
def exactStep (cfg : Word) (x : Sess) (cpos : Nat) : Bool :=
  decide (cpos ≤ 4096 * fieldOf f_RET_CFG_RET_MIN cfg) || x.flags.testBit 1

/-- Is a page index in the sink set or in the window set, which also holds the tentative positions? -/
def sinkOrWindow (cfg : Word) (cpos idx : Nat) : Bool :=
  let win := 128 * max 1 (fieldOf f_RET_CFG_WIN cfg)
  decide (idx < fieldOf f_RET_CFG_SINK cfg) || decide ((cpos - win) / 128 ≤ idx)

/-- The candidates of a layer and head group: FULL pages outside the sink and window sets. -/
def candidates (s : State) (g : Graph) (cfg : Word) (slot cpos l h : Nat) : List (Nat × Nat) :=
  (pairPages s g slot l h).filter fun p =>
    !sinkOrWindow cfg cpos (heIdx p.2) && pgState (pageState s g p.1 (heId p.2 % 2 ^ 18)) == 2

/-- ⌈n × f ÷ 256⌉. -/
def ceil256 (n f : Nat) : Nat := (n * f + 255) / 256

/-- The candidates of a layer and head group in ranked order, for its query sets `q`. -/
def ranked (s : State) (g : Graph) (cfg : Word) (odd : Bool) (slot cpos : Nat) (q : List Nat) (l h : Nat) : List Nat :=
  ranking ((candidates s g cfg slot cpos l h).map fun p => (entryScore g.hpp q (indexEntry s g odd p.1 (heId p.2 % 2 ^ 18)), p.2))

/-- The query sets of a layer and head group among those of a step. -/
def queriesOf (g : Graph) (q : List (List Nat)) (l h : Nat) : List Nat := q.getD (g.hgroups * l + h) []

/-- The home entries that a decode step of a session attends in a layer and head group, and those of its prefetch band (R199, R202).
`odd`: the launch count of the step is odd. -/
def stepPages (s : State) (g : Graph) (x : Sess) (odd : Bool) (slot cpos : Nat) (q : List (List Nat)) (l h : Nat) :
    List Nat × List Nat :=
  let cfg := (cfgOf s g.part).1
  let all := (pairPages s g slot l h).map (·.2)
  if exactStep cfg x cpos then (all, [])
  else
    let r := ranked s g cfg odd slot cpos (queriesOf g q l h) l h
    let p := ceil256 r.length (fieldOf f_RET_CFG_FRAC cfg)
    (all.filter (fun w => sinkOrWindow cfg cpos (heIdx w)) ++ r.take p, (r.drop p).take (ceil256 p (fieldOf f_RET_CFG_PX cfg)))

/-! ### What the BPs report and stamp (R201, R202) -/

/-- Is a page in the vault with MOVING clear (R201)? -/
def pageHere (s : State) (g : Graph) (id : Nat) : Bool :=
  let (e, sl) := pagePlace g id
  let w := slotPeek s g e sl
  slTier w == tVault && !slMoving w

/-- A BP stamps a page that a step attends, while the page is in the vault (R187, R202). -/
def stampPage (g : Graph) (stamp id : Nat) (s : State) : State :=
  let (e, sl) := pagePlace g id
  if slTier (slotPeek s g e sl) = tVault then slotWrite g e sl 3 2 stamp s else s

/-- What a session's step leaves beside its commit: the attended pages are stamped, the pages that it lacks are the session's missing
pages, and the prefetch band's pages that are not in the vault stand in the page-manager rings. A prefill step attends to every page.
`q`: for each layer and head group the query rows of the tree's root node, 8 for each head (log entry 102). -/
def attend (k slot kind cpos stamp : Nat) (q : List (List Nat)) (s : State) : State :=
  match getGraph s k, getSess s slot with
  | some g, some x =>
    let pages := (layerPairs g).map fun p =>
      if kind = kDecode then stepPages s g x (stamp % 2 == 1) slot cpos q p.1 p.2 else ((pairPages s g slot p.1 p.2).map (·.2), [])
    let ids := pages.flatMap fun p => p.1.map heId
    let band := (pages.flatMap fun p => p.2.map heId).filter fun id => let (e, sl) := pagePlace g id; slTier (slotPeek s g e sl) ≠ tVault
    let lacking := ids.filter fun id => !pageHere s g id
    let s := forAll ids (fun id s => stampPage g stamp id s) s
    updSess slot (fun x => { x with missing := lacking }) (updGraph k (fun g => { g with prefetch := g.prefetch ++ band }) s)
  | _, _ => s

end Sys2Proof.Machine
end

