-- ==== Sys2Proof/Machine/Sessions.lean ====
section
/-! DEFINITION. Sessions in service: maintenance tasks (R190 to R193), page allocation and movement (R194 to R202), commit records
(R221 to R228, R247), objects and instances (R241 to R252), and the input and output rings (R313 to R316). -/
namespace Sys2Proof.Machine

/-! ### Maintenance tasks -/

/-- The launched instance of a MAINT kind of a session whose work is still to be done. -/
def taskToDo (s : State) (slot kind : Nat) : Option (Nat × Inst) :=
  (instsOf s slot).find? fun p => kindOf s p.2 == kind && decide (0 < p.2.out) && !p.2.worked

/-- A fork shares its parent's pages of one NEAR entry below a page index: home entries, and in each page its count, with PIN its
PINS; nothing where the child's home list finds no block. -/
def shareEntry (k p slot lim : Nat) (g : Graph) (pin : Bool) (e : Nat) (s : State) : State :=
  let es := ((homeList s g e p).2).filter fun w => decide (heIdx w < lim)
  if es.isEmpty ∨ (fitBlocks k e g (homeList s g e slot).1 es.length s).isNone then s
  else forAll es (fun w s =>
    let sl := heId w % 2 ^ 18
    let s := setRef g e sl (slRef (slotPeek s g e sl) + 1) s
    if pin then setPins g e sl (pgPins (pageState s g e sl) + 1) s else s) (setHome k e slot g es s)

/-- A fork shares its parent's pages below a position, with tentative frames of the child's own for the tail pages (R191). -/
def sharePages (k p slot : Nat) (g : Graph) (sid f : Nat) (pin : Bool) (s : State) : State :=
  let s := forAll (List.range g.place.near.length) (fun e s => shareEntry k p slot ((f + 127) / 128) g pin e s) s
  let s := fixRoots k slot s
  if f % 128 = 0 then s else forAll (layerPairs g) (fun q s =>
    let (tail, _) := rootPeek s g slot q.1 q.2
    if tail = noPage then s else (giveTent k slot sid q.1 q.2 tail s).getD s) s

/-- The draft ring that a fork's child starts with: the parent's entries below the fork position, when that lies within the parent's
ring (R227). -/
def forkDraft (p : Sess) (f : Nat) : List (Nat × Nat) :=
  if p.cpos ≤ f + 4096 then p.draft.filter fun e => decide (e.1 < f) else []

/-- A loss below a position that a session has not acted on yet. -/
def lossBelow (x : Sess) (pos : Nat) : Option Nat := x.dropped.filter fun d => decide (d < pos)

/-- Would a fork with PIN take a page's PINS above 15? -/
def pinsFull (s : State) (g : Graph) (p f : Nat) : Bool :=
  ((sessPages s g p).filter fun q => decide (heIdx q.2 < (f + 127) / 128)).any fun q =>
    decide (15 ≤ pgPins (pageState s g q.1 (heId q.2 % 2 ^ 18)))

/-- The fork task (R191). A child whose parent has lost a page that they share has lost it too. -/
def forkWork (k slot i : Nat) (s : State) : State :=
  match getGraph s k, getSess s slot with
  | some g, some x =>
    match findSess s x.parent with
    | none => s
    | some p =>
      if x.pin && pinsFull s g p x.forkPos then updInst i (fun y => { y with worked := true, pinFail := true }) s
      else
        let s := sharePages k p slot g x.sid x.forkPos x.pin s
        let s := match getSess s p with
          | some y => updSess slot (fun x => { x with draft := forkDraft y x.forkPos, dropped := lossBelow y x.forkPos }) s
          | none => s
        let share := fun (x : Sess) => { x with flags := x.flags ||| 4 }
        let s := if x.forkPos % 128 = 0 then s else updSess p share (updSess slot share s)
        updInst i (fun y => { y with worked := true }) s
  | _, _ => s

/-- A session's copy of a shared tail page (R190): the supplied frame `sl` takes the page's image under the new ID, its count, PINS
and VALID are the session's own, the session's home entry, root entry and tentative frame name it, and the old page loses a reference. -/
def copyPage (k slot e l h sl tail next cpos sid : Nat) (g : Graph) (s : State) : State :=
  let (_, old) := pagePlace g tail
  let n := slRef (slotPeek s g e old)
  let img := framePeek s g e old 0 frameBytes
  let id := pageId g e sl
  let base := framePeek s g e old oBase 4
  let s := frameWrite g e sl 0 frameBytes img s
  let w := pageState s g e sl
  let s := frameWrite g e sl oState 8 (w - pgValid w * 16 - pgPins w * 4096 + (cpos - base) % 256 * 16) s
  let s := frameWrite g e sl oRef 2 1 (frameWrite g e sl oTent 16 0 (frameWrite g e sl oId 4 id (frameWrite g e sl oSid 8 sid s)))
  let s := slotWrite g e sl 1 2 1 s
  let es := ((homeList s g e slot).2).map fun w => if heId w = tail then w - tail + id else w
  let s := setRef g e old (n - 1) (setHome k e slot g es s)
  let s := match tentServes s g e slot tail with
    | some t => grpWrite (nearGrp g e) (tentOff g t + 0x2208) 4 id s
    | none => s
  rootWrite g slot l h id next s

/-- The copy task (R190): each supplied slot receives a copy of the shared page, or is listed as unused. -/
def copyWork (k slot i : Nat) (s : State) : State :=
  match getGraph s k, getSess s slot, getInst s i with
  | some g, some x, some y =>
    let s := forAll y.supplied (fun q s =>
      let l := q.2.1 / 16
      let h := q.2.1 % 16
      let (tail, next) := rootPeek s g slot l h
      if slRef (slotPeek s g q.1 (pagePlace g tail).2) ≤ 1 then
        updInst i (fun y => { y with unused := y.unused ++ [(q.1, q.2.2.1, q.2.2.2)] }) s
      else copyPage k slot q.1 l h q.2.2.1 tail next x.cpos x.sid g s) s
    updInst i (fun y => { y with worked := true }) s
  | _, _, _ => s

/-- The fork task runs (R191). -/
def execForkTask (slot : Fin 4096) (s : State) : Host.Outcome State Fault Refusal :=
  match taskToDo s slot.val kFork with
  | some (i, x) => done (forkWork x.graph slot.val i s)
  | none => done s

/-- The close task runs: every page of the session loses a reference, and its home-list blocks are freed (R193). -/
def execCloseTask (slot : Fin 4096) (s : State) : Host.Outcome State Fault Refusal :=
  match taskToDo s slot.val kClose, getSess s slot.val with
  | some (i, x), some y =>
    let s := releaseFrom x.graph slot.val 0 y.wasPinned s
    done (framesFreed x.graph (updInst i (fun z => { z with worked := true }) (reclaimTents x.graph slot.val (fixRoots x.graph slot.val s))))
  | _, _ => done s

/-- The truncate task runs: the pages at or beyond T are released (R193). -/
def execTruncateTask (slot : Fin 4096) (s : State) : Host.Outcome State Fault Refusal :=
  match taskToDo s slot.val kTruncate with
  | some (i, x) =>
    let s := releaseFrom x.graph slot.val x.arg false s
    let s := updSess slot.val (fun y => { y with cpos := x.arg, bucket := bucketOf x.arg }) (fixRoots x.graph slot.val s)
    done (framesFreed x.graph (updInst i (fun z => { z with worked := true }) (reclaimTents x.graph slot.val s)))
  | none => done s

/-- The copy task runs (R190). -/
def execCopyTask (slot : Fin 4096) (s : State) : Host.Outcome State Fault Refusal :=
  match taskToDo s slot.val kCopy with
  | some (i, x) => done (copyWork x.graph slot.val i s)
  | none => done s

/-! ### Allocation before a launch (R194, R198) -/

/-- Allocates what a layer and head group of a session needs for its next step; none where a group is exhausted. -/
def allocPair (k slot : Nat) (p : Nat × Nat) (s : State) : Option State :=
  match getGraph s k, getSess s slot with
  | some g, some x =>
    let paged := match pageNeeded s g slot p.1 p.2 with
      | some idx => allocPage k slot p.1 p.2 idx s
      | none => some s
    paged.bind fun s => match tentNeeded s g slot p.1 p.2 with
      | some tail => giveTent k slot x.sid p.1 p.2 tail s
      | none => some s
  | _, _ => some s

/-- Allocates the pages that the next step of a session may start to fill, and the tentative frames of its tail pages, while no task of
the session runs (R186); a session whose home group is exhausted waits. -/
def execPageAllocation (slot : Fin 4096) (s : State) : Host.Outcome State Fault Refusal :=
  match getSess s slot.val with
  | none => done s
  | some x =>
    match getGraph s x.graph with
    | none => done s
    | some g =>
      if x.state ≠ .active ∨ sessRuns s slot.val = true then done s
      else done (forAll (layerPairs g) (fun p s => match allocPair x.graph slot.val p s with
        | some s => s
        | none => updSess slot.val (fun x => { x with pagesWait := true }) s) s)

/-! ### Movement between tiers (R195 to R202) -/

/-- The stamp of a partition: the low 16 bits of its launch count (R196). -/
def stampOf (s : State) (g : Graph) : Nat := partLaunches s g.part % 65536

/-- A field of TIER_CFG as it is in effect in a partition (R203). -/
def tierCfg (s : State) (p : Nat) (f : Fld) : Nat := fieldOf f (cfgOf s p).2

/-- Free frames below which a NEAR group demotes, and at which it stops. -/
def freeLow (s : State) (p : Nat) : Nat := tierCfg s p f_TIER_CFG_FREE_LOW
def freeHigh (s : State) (p : Nat) : Nat := max (freeLow s p) (tierCfg s p f_TIER_CFG_FREE_HIGH)

/-- Is the companion tier in use for a partition (R195, COMP_FRAMES)? -/
def compOn (s : State) (p : Nat) : Bool := tierCfg s p f_TIER_CFG_COMP_EN == 1 && getF s r_COMP_FRAMES f_COMP_FRAMES_FRAMES ≠ 0

/-- The sessions of this module and those held for the twin, by slot (R330). -/
def allSess (s : State) : List (Nat × Sess) :=
  ((sessSlots s).filterMap fun n => (getSess s n).map fun x => (n, x)) ++ s.twin.held.filterMap fun p => p.2.map fun h => (p.1, h.sess)

/-- The tail and next pages of the sessions of a graph. -/
def rootIds (s : State) (k : Nat) (g : Graph) : List Nat :=
  (allSess s).flatMap fun x =>
    if x.2.graph = k then (layerPairs g).flatMap fun p => let (a, b) := rootPeek s g x.1 p.1 p.2; [a, b] else []

/-- A page at a position is lost to a session: its lowest lost position is kept, in STALE_POS once the session is STALE. -/
def losePos (pos : Nat) (x : Sess) : Sess :=
  if x.state = .stale then { x with stalePos := min x.stalePos pos }
  else { x with dropped := some (min (x.dropped.getD pos) pos) }

/-- The state with a session of a slot changed, one of this module or a held one. -/
def updAny (slot : Nat) (f : Sess → Sess) (s : State) : State :=
  match sget none s.twin.held slot with
  | some h => updTwin (fun t => { t with held := sput none t.held slot (some { h with sess := f h.sess }) }) s
  | none => updSess slot f s

/-- The pages of NEAR entries of a graph that R196 allows to leave a tier: graph, entry and slot. -/
def eligible (s : State) (k : Nat) (g : Graph) (tier : Nat) (es : List Nat) : List (Nat × Nat × Nat) :=
  let roots := rootIds s k g
  es.flatMap fun e => ((getNear g e).slots.filter fun sl =>
    let w := slotPeek s g e sl
    slUsed w && slTier w == tier && !slMoving w && !slHold w && !roots.contains (pageId g e sl) &&
      (tier == tComp || (pgState (pageState s g e sl) == 2 && pgPins (pageState s g e sl) == 0))).map fun sl => (k, e, sl)

/-- The age of a page's stamp (R196). -/
def pageAge (s : State) (x : Nat × Nat × Nat) : Nat :=
  match getGraph s x.1 with
  | some g => (stampOf s g + 65536 - slAge (slotPeek s g x.2.1 x.2.2)) % 65536
  | none => 0

/-- Victim order (R196): the oldest stamp first, then the lowest slot; the order among pages with both equal is log entry 103's. -/
def olderPage (s : State) (a b : Nat × Nat × Nat) : Bool :=
  let key := fun (x : Nat × Nat × Nat) => [65536 - pageAge s x, x.2.2, x.2.1, x.1]
  lexLt (key a) (key b)

/-- The first victim of a list. -/
def firstVictim (s : State) (l : List (Nat × Nat × Nat)) : Option (Nat × Nat × Nat) :=
  l.foldl (fun b x => match b with | none => some x | some y => if olderPage s x y then some x else some y) none

/-- Starts a move: MOVING is set (R197). -/
def startMove (k e sl dstTier dst : Nat) (s : State) : State :=
  match getGraph s k with
  | none => s
  | some g =>
    let w := slotPeek s g e sl
    updSvc (fun v => { v with moves := v.moves ++ [⟨k, e, sl, slTier w, slLoc w, dstTier, dst⟩] })
      (slotWrite g e sl 0 1 (slByte0 (slTier w) true (slUsed w) (slHold w)) s)

/-- A frame waits for two further launches before it is free again. -/
def freeLater (k e tier frame : Nat) (s : State) : State :=
  match getGraph s k with
  | some g => updSvc (fun v => { v with frees := v.frees ++ [⟨k, e, tier, frame, partLaunches s g.part⟩] }) s
  | none => s

/-- A page is dropped: its sessions become STALE at their next launch (R197). -/
def dropPage (k e sl : Nat) (s : State) : State :=
  match getGraph s k with
  | none => s
  | some g =>
    let w := slotPeek s g e sl
    let id := pageId g e sl
    let s := forAll (allSess s) (fun x s =>
      if x.2.graph ≠ k then s else
        match (homeList s g e x.1).2.find? fun w => heId w == id with
        | some h => updAny x.1 (losePos (128 * heIdx h)) s
        | none => s) s
    let s := bumpF r_PAGE_LOSS f_PAGE_LOSS_DROPPED 1 (bumpF r_PAGE_MOVES f_PAGE_MOVES_DEMOTED 1 s)
    freeLater k e (slTier w) (slLoc w) (slotWrite g e sl 0 1 (slByte0 tDropped false true (slHold w)) s)

/-- A page leaves its tier downward: into a frame of the next tier, or dropped; unchanged where that tier has no frame. -/
def demotePage (k e sl : Nat) (s : State) : State :=
  match getGraph s k with
  | none => s
  | some g =>
    let t := slTier (slotPeek s g e sl)
    let d := nearGrp g e / 384
    if t = tVault then
      match pickFree (usedLp s g d) g.place.nlp s with
      | (some f, s) => startMove k e sl tLpddr f (updGraph k (fun g => { g with lpUsed := sput [] g.lpUsed d (sget [] g.lpUsed d ++ [f]) }) s)
      | (none, s) => s
    else if t = tLpddr then
      if compOn s g.part then
        match pickFree s.svc.compUsed (getF s r_COMP_FRAMES f_COMP_FRAMES_FRAMES) s with
        | (some f, s) => startMove k e sl tComp f (updSvc (fun v => { v with compUsed := v.compUsed ++ [f] }) s)
        | (none, s) => s
      else dropPage k e sl s
    else if t = tComp then dropPage k e sl s
    else s

/-- The free frames of a pool. -/
def poolFree (s : State) (g : Graph) : Pool → Nat
  | .near e => g.place.nframes - (usedVault s g e).length
  | .lpddr d => g.place.nlp - (usedLp s g d.val).length
  | .companion => getF s r_COMP_FRAMES f_COMP_FRAMES_FRAMES - s.svc.compUsed.length

/-- The frames of a pool that a move under way, or one that has ended, is still to free. -/
def poolSoon (s : State) (k : Nat) (g : Graph) : Pool → Nat
  | .near e => (s.svc.moves.filter fun m => m.graph == k && m.entry == e && m.srcTier == tVault).length +
      (s.svc.frees.filter fun f => f.graph == k && f.entry == e && f.tier == tVault).length
  | .lpddr d => (s.svc.moves.filter fun m => m.graph == k && m.srcTier == tLpddr && nearGrp g m.entry / 384 == d.val).length +
      (s.svc.frees.filter fun f => f.graph == k && f.tier == tLpddr && nearGrp g f.entry / 384 == d.val).length
  | .companion => (s.svc.moves.filter fun m => m.srcTier == tComp).length + (s.svc.frees.filter fun f => f.tier == tComp).length

/-- The pages that may leave a pool; the companion region serves every graph. -/
def poolVictims (s : State) (k : Nat) (g : Graph) : Pool → List (Nat × Nat × Nat)
  | .near e => eligible s k g tVault [e]
  | .lpddr d => eligible s k g tLpddr ((List.range g.place.near.length).filter fun e => nearGrp g e / 384 == d.val)
  | .companion => (graphKeys s).flatMap fun j => match getGraph s j with
      | some g => eligible s j g tComp (List.range g.place.near.length)
      | none => []

/-- Demotes victims until a pool has, or is to have, `high` free frames; `n` bounds them. -/
def demoteUntil (k : Nat) (pool : Pool) (high : Nat) : Nat → State → State
  | 0, s => s
  | n + 1, s =>
    match getGraph s k with
    | none => s
    | some g =>
      if high ≤ poolFree s g pool + poolSoon s k g pool then s
      else match firstVictim s (poolVictims s k g pool) with
        | some (j, e, sl) => demoteUntil k pool high n (demotePage j e sl s)
        | none => s

/-- Demotion of a pool whose free frames have fallen below its limit (R196). -/
def execDemotion (k : Fin 16) (pool : Pool) (s : State) : Host.Outcome State Fault Refusal :=
  match getGraph s k.val with
  | none => done s
  | some g =>
    let low := match pool with
      | .near _ => freeLow s g.part
      | .lpddr _ => tierCfg s g.part f_TIER_CFG_LP_LOW
      | .companion => 1
    let high := match pool with | .near _ => freeHigh s g.part | _ => low
    if poolFree s g pool < low then done (demoteUntil k.val pool high (g.place.nframes + g.place.nlp) s) else done s

/-- A promotion of a page to its home vault starts, if a frame is free (R195). -/
def promotePage (k e sl : Nat) (s : State) : State :=
  match getGraph s k with
  | none => s
  | some g =>
    let w := slotPeek s g e sl
    if !slUsed w || slMoving w || slTier w = tVault || slTier w = tDropped then s
    else match pickFree (usedVault s g e) g.place.nframes s with
      | (some f, s) => startMove k e sl tVault f (updNear k e (fun x => { x with frames := x.frames ++ [f] }) s)
      | (none, s) => s

/-- The pages of a graph whose promotion something waits for: the pages that a missed step lacked (R201), and those of a prefix that
a fork with PIN is to share (R192). -/
def wantedPages (s : State) (k : Nat) (g : Graph) : List Nat :=
  (sessSlots s).flatMap fun n => match getSess s n with
    | some x =>
      if x.graph ≠ k then []
      else (if x.missHold then x.missing else []) ++
        (if x.pin ∧ x.state = .forking then match findSess s x.parent with
          | some p => ((sessPages s g p).filter fun q => decide (heIdx q.2 < (x.forkPos + 127) / 128)).map fun q => heId q.2
          | none => []
        else [])
    | none => []

/-- The promotions that wait start, those that a move under way or the want of a frame has held up among them. -/
def promoteWanted (k : Nat) (s : State) : State :=
  match getGraph s k with
  | none => s
  | some g => forAll (wantedPages s k g) (fun id s => let (e, sl) := pagePlace g id; promotePage k e sl s) s

/-- Sets or clears HOLD of a page. -/
def setHold (g : Graph) (id : Nat) (v : Bool) (s : State) : State :=
  let (e, sl) := pagePlace g id
  let w := slotPeek s g e sl
  slotWrite g e sl 0 1 (slByte0 (slTier w) (slMoving w) (slUsed w) v) s

/-- Has a page's promotion ended: it is in the vault, or has been dropped, so that its session is STALE at its next launch (log entry
103)? -/
def promotionOver (s : State) (g : Graph) (id : Nat) : Bool :=
  pageHere s g id || slTier (slotPeek s g (pagePlace g id).1 (pagePlace g id).2) == tDropped

/-- Sessions whose missing pages have all arrived are released for relaunch (R201, R249). -/
def releaseMisses (k : Nat) (s : State) : State :=
  match getGraph s k with
  | none => s
  | some g => forAll (sessSlots s) (fun n s => match getSess s n with
    | some x =>
      if x.graph = k && x.missHold && x.missing.all (promotionOver s g) then
        addObj (oPagesReady n) 1 (bumpF r_PAGE_LOSS f_PAGE_LOSS_MISSES 1 (updSess n (fun x => { x with missHold := false, missing := [] }) s))
      else s
    | none => s) s

/-- Bytes of a page image on its way to the companion: STORE messages of 256 B. -/
def storeFrame (a img : Nat) (s : State) : State :=
  forAll (List.range (frameBytes / 256)) (fun i s => sendStore (a + 256 * i) 256 (img / 2 ^ (2048 * i) % 2 ^ 2048) s) s

/-- The companion address of a companion frame. -/
def compAddr (s : State) (f : Nat) : Nat := 4096 * getF s r_COMP_BASE f_COMP_BASE_BASE + frameBytes * f

/-- Returns a frame to its free list, unless it has been retired (R296). -/
def freeFrame (k e tier frame : Nat) (s : State) : State :=
  match getGraph s k with
  | none => s
  | some g =>
    if frameRetired s g e tier frame then s
    else if tier = tVault then framesFreed k (updNear k e (fun x => { x with frames := x.frames.filter (· ≠ frame) }) s)
    else if tier = tLpddr then
      let d := nearGrp g e / 384
      updGraph k (fun g => { g with lpUsed := sput [] g.lpUsed d ((sget [] g.lpUsed d).filter (· ≠ frame)) }) s
    else updSvc (fun v => { v with compUsed := v.compUsed.filter (· ≠ frame) }) s

/-- The image of a page that moves, none where its frame holds a word that cannot be read (R290). -/
def moveImage (g : Graph) (m : Move) (image : Nat) (s : State) : Option Nat × State :=
  if m.srcTier = tVault then grpRead (nearGrp g m.entry) (frameOff g m.src) frameBytes s
  else if m.srcTier = tLpddr then devRead (lpFrameAddr g m.entry m.src) frameBytes s else (some image, s)

/-- A page move runs to its end (R197). `image`: what the companion returns for a page that comes from its memory. A page whose
frame cannot be read is dropped (R290). -/
def execPageMove (n : Nat) (image : Nat) (s : State) : Host.Outcome State Fault Refusal :=
  match s.svc.moves[n]? with
  | none => done s
  | some m =>
    match getGraph s m.graph with
    | none => done s
    | some g =>
      let p := nearGrp g m.entry
      match moveImage g m image s with
      | (none, s) => done (releaseMisses m.graph (freeFrame m.graph m.entry m.dstTier m.dst (dropPage m.graph m.entry m.slot
          (updSvc (fun v => { v with moves := v.moves.eraseIdx n }) s))))
      | (some img, s) =>
      let w := slotPeek s g m.entry m.slot
      let s := if m.dstTier = tVault then
          let s := grpWrite p (frameOff g m.dst) frameBytes img s
          slotWrite g m.entry m.slot 3 2 (stampOf s g) (grpWrite p (frameOff g m.dst + oRef) 2 (slRef w) s)
        else if m.dstTier = tLpddr then devWrite (lpFrameAddr g m.entry m.dst) frameBytes img s
        else storeFrame (compAddr s m.dst) img s
      let s := slotWrite g m.entry m.slot 0 1 (slByte0 m.dstTier true (slUsed w) (slHold w)) (slotWrite g m.entry m.slot 5 3 m.dst s)
      let s := slotWrite g m.entry m.slot 0 1 (slByte0 m.dstTier false (slUsed w) (slHold w)) s
      let s := bumpF r_PAGE_MOVES (if m.dstTier = tVault then f_PAGE_MOVES_PROMOTED else f_PAGE_MOVES_DEMOTED) 1 s
      let s := freeLater m.graph m.entry m.srcTier m.src (updSvc (fun v => { v with moves := v.moves.eraseIdx n }) s)
      done (promoteWanted m.graph (releaseMisses m.graph s))

/-- Source frames whose partition has launched twice since are freed (R197). -/
def execSourceFrameFree (s : State) : Host.Outcome State Fault Refusal :=
  let due := fun (f : FrameFree) => match getGraph s f.graph with
    | some g => decide (2 ≤ (partLaunches s g.part + 2 ^ 32 - f.since) % 2 ^ 32)
    | none => true
  let l := s.svc.frees.filter due
  let s := forAll l (fun f s => freeFrame f.graph f.entry f.tier f.frame s)
    (updSvc (fun v => { v with frees := v.frees.filter fun f => !due f }) s)
  done (forAll (graphKeys s) (fun k s => promoteWanted k s) s)

/-- A session that references a dropped page enters STALE at its next launch (R176, R197). -/
def execSessionStale (slot : Fin 4096) (s : State) : Host.Outcome State Fault Refusal :=
  match getSess s slot.val with
  | some x => match x.dropped with
    | some pos =>
      if x.state = .active then
        done (postSess slot.val seDropped pos slot.val
          (updSess slot.val (fun x => { x with state := .stale, stalePos := pos, dropped := none }) s))
      else done s
    | none => done s
  | none => done s

/-- The pages that a missed step lacked are held and promoted (R201). -/
def execMissPromotion (slot : Fin 4096) (s : State) : Host.Outcome State Fault Refusal :=
  match getSess s slot.val with
  | none => done s
  | some x =>
    match getGraph s x.graph with
    | none => done s
    | some g =>
      if !x.missHold then done s
      else
        let s := forAll x.missing (fun id s => setHold g id true s) s
        let s := updSess slot.val (fun y => { y with heldPages := y.heldPages ++ x.missing.filter (!y.heldPages.contains ·) }) s
        done (releaseMisses x.graph (promoteWanted x.graph s))

/-- The prefetch candidates of the page-manager rings are promoted in ring order; their stamps are written on arrival (R202). -/
def execPrefetchPromotion (k : Fin 16) (s : State) : Host.Outcome State Fault Refusal :=
  match getGraph s k.val with
  | none => done s
  | some g =>
    let s := forAll g.prefetch (fun id s => let (e, sl) := pagePlace g id; promotePage k.val e sl s) s
    done (updGraph k.val (fun g => { g with prefetch := [] }) s)

/-! ### Input rings (R313 to R315) -/

/-- The session that reads a ring. -/
def inputOwner (s : State) (n : Nat) : Option Nat :=
  (sessSlots s).find? fun i => match getSess s i with | some x => x.inRing == n | none => false

/-- The session that writes a ring. -/
def outputOwner (s : State) (n : Nat) : Option Nat :=
  (sessSlots s).find? fun i => match getSess s i with | some x => x.outRing == n | none => false

/-- The hub reads a line of companion memory with FETCH_HOLD, and holds it once the answer has come (R308, R314). -/
def holdLine (a : Nat) (s : State) : State := sendMsg ⟨.fetchHold, a, 64, 0⟩ s

/-- The hub stops holding a line (R308). -/
def dropLine (a : Nat) (s : State) : State :=
  sendMsg ⟨.release, a, 0, 0⟩ (updHub (fun h => { h with lines := h.lines.filter (· ≠ a) }) s)

/-- The consumer index of a session's input ring moves past the records whose tokens are all consumed (R315). -/
def moveCons (slot : Nat) (s : State) : State :=
  match getSess s slot with
  | none => s
  | some x => match getRing s x.inRing with
    | none => s
    | some r =>
      let c := match x.pend with | (i, _) :: _ => i | [] => r.read
      if c = r.cons then s
      else sendIndex (r.base + 0x40) 64 c (putRing x.inRing (some { r with cons := c }) (updSess slot (fun x => { x with inCons := c }) s))

/-- RING_ERROR: the ring, its index and the reason. -/
def ringError (n idx why : Nat) (s : State) : State := postEvent evRingError n (subj2 idx why) s

/-- The doorbell of an input ring: the producer index that the hub then reads, and a FETCH of each new record. -/
def execInputRingDoorbell (ring : Fin 8192) (prod : BitVec 32) (s : State) : Host.Outcome State Fault Refusal :=
  match getRing s ring.val with
  | none => done s
  | some r =>
    if r.kind ≠ 0 then done s
    else if 2 ^ r.k < (prod.toNat + 2 ^ 32 - r.cons) % 2 ^ 32 then done (ringError ring.val prod.toNat 1 s)
    else
      let n := (prod.toNat + 2 ^ 32 - r.prod) % 2 ^ 32
      if 2 ^ r.k < n then done s else
      let s := forAll (List.range n) (fun i s => sendMsg ⟨.fetch, r.base + 0x80 + (r.prod + i) % 2 ^ r.k * 64, 64, 0⟩ s) s
      done (putRing ring.val (some { r with prod := prod.toNat }) s)

/-- The next unread record of an input ring with a session, when it is of a type that a row handles: reserved types too. -/
def inputRecord (s : State) (n : Nat) (rec : BitVec 512) (type : Nat) : Option (Nat × Ring × Nat) :=
  match getRing s n, inputOwner s n with
  | some r, some slot =>
    let t := rec.toNat % 256
    if r.kind ≠ 0 ∨ r.read = r.prod ∨ (t ≠ type ∧ 1 ≤ t ∧ t ≤ 3) then none else some (slot, r, t)
  | _, _ => none

/-- The record is read: the ring's read index moves on. -/
def recordRead (n : Nat) (r : Ring) (s : State) : State := putRing n (some { r with read := (r.read + 1) % 2 ^ 32 }) s

/-- The vocabulary size of a session's graph. -/
def vocabOf (s : State) (slot : Nat) : Nat :=
  match getSess s slot with
  | some x => match getGraph s x.graph with | some g => g.place.vocab | none => 0
  | none => 0

/-- A TOKENS record appends its tokens to the session's pending input; a bad record is skipped (R315). -/
def execInputTokens (ring : Fin 8192) (rec : BitVec 512) (s : State) : Host.Outcome State Fault Refusal :=
  match inputRecord s ring.val rec 1 with
  | none => done s
  | some (slot, r, t) =>
    let cnt := bits rec.toNat 15 8
    let toks := (List.range cnt).map fun i => bits rec.toNat (64 + 32 * i + 31) (64 + 32 * i)
    let s' := recordRead ring.val r s
    if t = 1 ∧ 1 ≤ cnt ∧ cnt ≤ 14 ∧ toks.all (fun x => decide (x < min (vocabOf s slot) (2 ^ 18))) then
      done (updSess slot (fun x => { x with pend := x.pend ++ [(r.read, toks)] }) s')
    else done (moveCons slot (ringError ring.val r.read 2 s'))

/-- A budget record acts when it is read (R315). -/
def budgetRecord (n type : Nat) (rec : BitVec 512) (f : Nat → Nat → Nat) (s : State) : State :=
  match inputRecord s n rec type with
  | none => s
  | some (slot, r, t) =>
    let s' := recordRead n r s
    if t = type ∧ bits rec.toNat 15 8 = 0 then
      moveCons slot (updSess slot (fun x => { x with budget := f x.budget (bits rec.toNat 95 64) }) s')
    else moveCons slot (ringError n r.read 2 s')

/-- BUDGET_ADD saturates at 2^32 − 1. -/
def execBudgetAdd (ring : Fin 8192) (rec : BitVec 512) (s : State) : Host.Outcome State Fault Refusal :=
  done (budgetRecord ring.val 2 rec (fun a b => satAdd 32 a b) s)

/-- BUDGET_SET replaces the budget. -/
def execBudgetSet (ring : Fin 8192) (rec : BitVec 512) (s : State) : Host.Outcome State Fault Refusal :=
  done (budgetRecord ring.val 3 rec (fun _ b => b) s)

/-- The companion has consumed records of an output ring, or of the event ring (no number): its consumer index is read again,
and held records go out (R249, R316). -/
def execOutputRingDoorbell (ring : Option (Fin 8192)) (cons : BitVec 32) (s : State) : Host.Outcome State Fault Refusal :=
  match ring with
  | none =>
    if eventRingSize s < (s.hub.evProd + 2 ^ 32 - cons.toNat) % 2 ^ 32 then done (ringError 0xFFFF cons.toNat 1 s)
    else done (updHub (fun h => { h with evCons := cons.toNat }) s)
  | some n => match getRing s n.val with
    | none => done s
    | some r =>
      if r.kind ≠ 1 then done s
      else if 2 ^ r.k < (r.prod + 2 ^ 32 - cons.toNat) % 2 ^ 32 then done (ringError n.val cons.toNat 1 s)
      else
        let s := putRing n.val (some { r with cons := cons.toNat }) s
        match outputOwner s n.val with
        | some slot => done (flushSess (match getSess s slot with | some x => x.heldOut.length | none => 0) slot s)
        | none => done s

/-! ### Commit records (R221, R222, R247) -/

/-- A TOKENS or a PREFILL record (R316). -/
def tokensRecord (rec : Nat) : Nat :=
  1 + 2 ^ 8 * bits rec 175 168 + 2 ^ 16 * bits rec 183 176 + 2 ^ 32 * ((bits rec 95 64 + 1) % 2 ^ 32) + 2 ^ 64 * bits rec 159 128 +
    2 ^ 128 * bits rec 767 256

def prefillRecord (rec : Nat) : Nat := 2 + 2 ^ 32 * bits rec 127 96 + 2 ^ 64 * bits rec 159 128

/-- Takes `n` tokens from the front of the pending input; a record leaves when its last token goes. -/
def takeTokens : Nat → List (Nat × List Nat) → List (Nat × List Nat)
  | _, [] => []
  | n, (i, l) :: rest => if l.length ≤ n then takeTokens (n - l.length) rest else (i, l.drop n) :: rest

/-- A fork ends: the child becomes ACTIVE or PINNED with its template instances (R191). A fork whose pins ran out fails with
PIN_LIMIT and leaves the child as it is, without an instance (log entry 27). -/
def endFork (k slot : Nat) (failed : Bool) (s : State) : State :=
  match getSess s slot, getGraph s k with
  | some x, some g =>
    if failed then updSess slot (fun y => { y with taskStatus := 0x0C }) s
    else
      let s := updSess slot (fun y => { y with wasPinned := y.wasPinned || y.pin }) s
      let s := if x.state = .forking then updSess slot (fun y => { y with state := if y.pin then .pinned else .active, wasPinned := y.pin }) s else s
      createTemplates k slot (hubDsb g slot s)
  | _, _ => s

/-- A close ends: CLOSED is posted, and the slot is FREE again. -/
def endClose (slot : Nat) (s : State) : State :=
  let s := postSess slot seClosed 0 slot s
  let s := forAll (instsOf s slot) (fun p s => putInst p.1 none s) s
  checkSynced (putSess slot none s)

/-- A maintenance task has committed (R190 to R193). -/
def endMaint (k slot kind : Nat) (x : Inst) (s : State) : State :=
  let s := addObj (oMaintDone slot) 1 s
  if kind = kFork then endFork k slot x.pinFail s
  else if kind = kCopy then
    let s := forAll x.unused (fun u s => freeSlot k u.1 u.2.1 s) s
    framesFreed k (updSess slot (fun y => { y with flags := y.flags &&& 0xFB }) s)
  else if kind = kTruncate then
    match getGraph s k with
    | some g => hubDsb g slot (updSess slot (fun y => { y with cpos := x.arg, bucket := bucketOf x.arg }) s)
    | none => s
  else s

/-- Is a page among those that a session holds? -/
def heldBySome (s : State) (id : Nat) : Bool :=
  (sessSlots s).any fun n => match getSess s n with | some x => x.heldPages.contains id | none => false

/-- HOLD of a session's pages is cleared, but for the pages that another session's missed step holds (R201). -/
def clearHolds (g : Graph) (slot : Nat) (s : State) : State :=
  match getSess s slot with
  | none => s
  | some x =>
    let s := updSess slot (fun x => { x with heldPages := [] }) s
    forAll (x.heldPages.filter fun id => !heldBySome s id) (fun id s => setHold g id false s) s

/-- What a COMMITTED record does to a session (R222). -/
def commitSession (k slot kind rec : Nat) (s : State) : State :=
  let old := crOld rec
  let new := crNew rec
  let s := updSess slot (fun x => { x with cpos := new, bucket := bucketOf new, budget := x.budget - crEmit rec }) s
  let s := if kind = kPrefill then
      writeOut slot (prefillRecord rec) (moveCons slot (updSess slot (fun x => { x with pend := takeTokens (new - old) x.pend }) s))
    else if kind = kDecode then writeOut slot (tokensRecord rec) s
    else s
  let s := addObj (oStepDone slot) 1 s
  let s := if kCopy ≤ kind then s else mirrorCommit k slot (bits rec 159 128) old new s
  match getGraph s k with
  | some g => clearHolds g slot s
  | none => s

/-- A COMMITTED record counts one launch of its instance; a one-shot instance with none left is removed. -/
def countLaunch (i : Nat) (s : State) : State :=
  match getInst s i with
  | some x => if x.standing then putInst i (some { x with poisons := 0 }) s
    else if x.left ≤ 1 then putInst i none s
    else putInst i (some { x with left := x.left - 1, poisons := 0, worked := false }) s
  | none => s

/-- The launch and its record are done with. -/
def popLaunch (l : Launch) (s : State) : State :=
  let s := updSvc (fun v => { v with launches := v.launches.erase l }) s
  let s := updInst l.inst (fun x => { x with out := x.out - 1 }) s
  updHub (fun h => { h with launchReports := match s.parts[l.part]? with
    | some p => let r := h.launchReports.findIdx fun x => x.1 == p.root; h.launchReports.eraseIdx r
    | none => h.launchReports }) s

/-- The last error that was recorded on a partition's dies (R293): class, unit, kind, selector and INFO of its record. -/
def lastError (s : State) (p : Nat) : Nat :=
  let mine := fun (e : Station × Word) => match stDie e.1 with | some d => partIndex s d == some p | none => false
  match (s.hub.errLog ++ s.hub.errNew).reverse.find? mine with | some e => e.2.toNat | none => 0

/-- A SUPPRESSED_POISON record: the eighth in a row of an instance stops its partition (R293). The work of a maintenance task that
its launch has done is not done again (log entry 89). -/
def poisonRecord (l : Launch) (s : State) : State :=
  match getInst s l.inst with
  | none => s
  | some x =>
    let s := putInst l.inst (some { x with poisons := x.poisons + 1 }) s
    if x.poisons + 1 = 8 then
      match partRoot s l.part with
      | some d => postEvent evRecomputeLimit l.inst (lastError s l.part) (stopPartition d s)
      | none => s
    else s

/-- The session of a launch. -/
def launchSlot (s : State) (l : Launch) : Option Nat := (getInst s l.inst).bind fun x => x.slot

/-- May the record of a launch be processed now: its step has ended, and its session's mirror is not behind (R332)? -/
def recordMayGo (s : State) (l : Launch) : Bool :=
  l.ended && match launchSlot s l with
    | none => true
    | some slot => match getSess s slot with
      | none => true
      | some y => !mirrorHolds s y

/-- The first launch of a list whose record may be processed. A record that waits for the twin holds back the later ones of its own
session only (R332); `held` are the sessions of earlier launches. -/
def nextRecord (s : State) : List (Option Nat) → List Launch → Option Launch
  | _, [] => none
  | held, l :: rest =>
    let slot := launchSlot s l
    if recordMayGo s l && (slot.isNone || !held.contains slot) then some l else nextRecord s (slot :: held) rest

/-- The effect of a COMMITTED record (R247). -/
def recordCommitted (l : Launch) (g : Graph) (x : Inst) (rec_ : Nat) (s : State) : State :=
  let t := taskOf g x
  let s := match x.slot with
    | some slot =>
      let s := commitSession l.graph slot t.kind rec_ s
      if isMaint t then endMaint l.graph slot t.kind x s else s
    | none => s
  let s := countLaunch l.inst (forAll t.sigs (fun e s => applySig l.graph x.slot e s) s)
  match x.slot with | some slot => if t.kind = kClose then endClose slot s else s | none => s

/-- The effect of a record on its instance and session by its status (R218, R228, R247). -/
def recordEffect (l : Launch) (g : Graph) (x : Inst) (rec_ : Nat) (s : State) : State :=
  match crStatus rec_, x.slot with
  | 0, _ => recordCommitted l g x rec_ s
  | 1, _ => poisonRecord l s
  | 2, some slot => updSess slot (fun y => { y with missHold := true }) s
  | _, some slot => postSess slot seDecodeEnd 1 slot (updSess slot (fun y => { y with budget := 0 }) s)
  | _, none => s

/-- The hub processes the next commit record of a partition (R222, R247). `q`: the query sets that the record's step scored its
candidates with (R200). -/
def processRecord (p : Nat) (q : List (List Nat)) (s : State) : State :=
  match nextRecord s [] (s.svc.launches.filter fun l => l.part == p) with
  | none => s
  | some l =>
    match getGraph s l.graph, getInst s l.inst with
    | some g, some x =>
      if s.hub.haltedParts.contains p then s
      else
        let rec_ := commitRecord s g l.record
        let kind := (taskOf g x).kind
        let s := popLaunch l s
        match x.slot with
        | none => recordEffect l g x rec_ s
        | some slot =>
          let s := if kind = kPrefill ∨ kind = kDecode then attend l.graph slot kind (crOld rec_) l.stamp q s else s
          idlePoint slot (recordEffect l g x rec_ s)
    | _, _ => s

/-- The hub reads and processes a commit record (R222). -/
def execCommitRecordProcessing (p : Fin 24) (q : List (List Nat)) (s : State) : Host.Outcome State Fault Refusal :=
  done (processRecord p.val q s)

/-- A session enters STALE from a position on; one that is closing or forking keeps its state (R176, log entry
104). -/
def makeStale (pos : Nat) (x : Sess) : Sess :=
  match x.state with
  | .active => { x with state := .stale, stalePos := pos }
  | .stale => { x with stalePos := min x.stalePos pos }
  | _ => x

/-- A detected error during publish: the publish runs to its end, the session is STALE from the step's OLD_CPOS, and no token is
written (R223). -/
def execPublishError (p : Fin 24) (s : State) : Host.Outcome State Fault Refusal :=
  match s.svc.launches.find? fun l => l.part == p.val && l.started with
  | none => done s
  | some l => match launchSlot s l, getGraph s l.graph with
    | some slot, some g =>
      let old := crOld (commitRecord s g l.record)
      let s := popLaunch { l with ended := true } (if l.ended then s else endLaunch p.val s)
      done (idlePoint slot (postSess slot seStale old slot (updSess slot (makeStale old) s)))
    | _, _ => done s

/-! ### Objects and the dispatcher -/

/-- A write of SYNC_OBJ sets a package object (R254). -/
def execSyncObjWrite (n : Fin 16384) (v : Word) (s : State) : Host.Outcome State Fault Refusal := done (setObj n.val v.toNat s)

/-- A write of SYNC_SIGNAL adds N to a package object. -/
def execSyncSignal (v : Word) (s : State) : Host.Outcome State Fault Refusal :=
  done (addObj (fieldOf f_SYNC_SIGNAL_OBJ v) (fieldOf f_SYNC_SIGNAL_N v) s)

/-- A write of LSYNC_OBJ sets a local object. -/
def execLsyncObjWrite (d : Stack) (n : Fin 4096) (v : Word) (s : State) : Host.Outcome State Fault Refusal :=
  done (setObj (localKey d n.val) v.toNat s)

/-- A write of LSYNC_SIGNAL adds N to a local object. -/
def execLsyncSignal (d : Stack) (v : Word) (s : State) : Host.Outcome State Fault Refusal :=
  done (addObj (localKey d (fieldOf f_LSYNC_SIGNAL_OBJ v)) (fieldOf f_LSYNC_SIGNAL_N v) s)

/-- The dispatcher observes the next change of an object (R242). -/
def execObjectObserved (s : State) : Host.Outcome State Fault Refusal :=
  match s.svc.changes with
  | [] => done s
  | (k, v) :: rest => done (observe k v (updSvc (fun x => { x with changes := rest }) s))

/-- With a short launch queue, the first instance to become ready is written (R244). -/
def execInstanceReady (p : Fin 24) (s : State) : Host.Outcome State Fault Refusal :=
  if queueShort s p.val then done (dispatch p.val s) else done s

/-- The first wait entry of an instance that is not met: object reference and expected value. -/
def unmetWait (s : State) (g : Graph) (x : Inst) : Nat × Nat :=
  match unmetEntry s g x with
  | some (w, i) => (w.ref, waitValue x i w)
  | none => (0, 0)

/-- Doldrums fires for a lane that has had counted instances and no launch for LIMIT hub ms (R252). -/
def execDoldrums (n : Fin 256) (s : State) : Host.Outcome State Fault Refusal :=
  let l := (laneInsts s n.val).filter (instCounted s)
  let limit := getF s r_DISP_DOLD f_DISP_DOLD_LIMIT
  let oldest := l.foldl (fun (b : Option Nat) i => match b with
    | none => some i
    | some j => if (match getInst s i, getInst s j with | some x, some y => decide (x.last < y.last) | _, _ => false) then some i else some j) none
  match oldest with
  | none => done s
  | some i =>
    if limit = 0 ∨ s.svc.dolded.contains n.val then done s
    else
      let (r, v) := match getInst s i with
        | some x => match getGraph s x.graph with | some g => unmetWait s g x | none => (0, 0)
        | none => (0, 0)
      let s := putF (r_DISP_LANE n.val) f_DISP_LANE_DOLD 1 (putF (r_DISP_LANE n.val) f_DISP_LANE_IDLE_MS limit s)
      let s := bumpF r_DISP_DOLD f_DISP_DOLD_FIRED 1 (updSvc (fun v => { v with dolded := v.dolded ++ [n.val] }) s)
      done (postEvent evDoldrums (subj2 n.val i) (r + 2 ^ 64 * v) s)

end Sys2Proof.Machine
end

