-- ==== Sys2Proof/Machine/CmdPort.lean ====
section
/-! DEFINITION. The command port (R317 to R322): the packet, acceptance, the reply, and the checks that every command shares. -/
namespace Sys2Proof.Machine

/-! ### Statuses (R322) -/

def stOk : Nat := 0x00
def stInProgress : Nat := 0x01
def stBadOpcode : Nat := 0x02
def stBadParam : Nat := 0x03
def stBadState : Nat := 0x04
def stNotFound : Nat := 0x05
def stParamFault : Nat := 0x06
def stNotReady : Nat := 0x07
def stBusyPartition : Nat := 0x08
def stSaturated : Nat := 0x09
def stSidInUse : Nat := 0x0A
def stNoSlot : Nat := 0x0B
def stPinLimit : Nat := 0x0C
def stBadImage : Nat := 0x0D
def stBadTopology : Nat := 0x0E
def stFuseFail : Nat := 0x0F
def stTwinAbsent : Nat := 0x10
def stTwinMismatch : Nat := 0x11
def stTransitFail : Nat := 0x12

/-! ### The packet (R318) -/

/-- The command packet: the content of HUB_CMD_SLOT. -/
def packet (s : State) : Nat := (List.range 8).foldr (fun w n => (getReg s (r_HUB_CMD_SLOT w)).toNat + 2 ^ 64 * n) 0

/-- `n` bytes of a packet from byte `b`. -/
def pkBytes (p b n : Nat) : Nat := p / 2 ^ (8 * b) % 2 ^ (8 * n)

/-- `n` bytes of the packet being executed, from byte `b`. -/
def pk (s : State) (b n : Nat) : Nat := pkBytes (packet s) b n

/-- A flag bit of the packet being executed. -/
def pkFlag (s : State) (b : Nat) : Bool := (pk s 2 1).testBit b

def pkLen (s : State) : Nat := pk s 4 4
def pkAddr (s : State) : Nat := pk s 8 8

/-- What an opcode takes: the inline bytes it names, its flag bits, the least block length (none: it takes no block). -/
structure OpForm where
  op : Nat
  named : List (Nat × Nat)
  flags : Nat
  block : Option Nat
  deriving DecidableEq, Repr

/-- The opcodes of R321. -/
def opForms : List OpForm :=
  [⟨0x0101, [], 0, none⟩, ⟨0x0102, [], 0, some 1312⟩, ⟨0x0103, [(16, 48)], 0x10, some 4212⟩, ⟨0x0104, [(16, 20)], 0, none⟩,
   ⟨0x0105, [(16, 17), (20, 24)], 0, none⟩, ⟨0x0201, [(16, 18)], 0, some 8⟩, ⟨0x0202, [(16, 17)], 0x10, none⟩,
   ⟨0x0203, [(16, 20), (24, 32)], 0, none⟩, ⟨0x0204, [(16, 22)], 0, none⟩, ⟨0x0301, [(16, 17)], 0, some 1⟩,
   ⟨0x0302, [(16, 18)], 0, none⟩, ⟨0x0303, [(16, 18), (24, 32)], 0, some 1⟩] ++
  [⟨0x0401, [(16, 48)], 0, none⟩, ⟨0x0402, [(16, 40)], 0x10, none⟩, ⟨0x0403, [(16, 24)], 0, none⟩, ⟨0x0404, [(16, 28)], 0, none⟩,
   ⟨0x0405, [(16, 24), (30, 31), (32, 48)], 0, none⟩, ⟨0x0406, [(16, 24)], 0, none⟩, ⟨0x0501, [], 0, none⟩, ⟨0x0502, [], 0, none⟩,
   ⟨0x0503, [(16, 17)], 0, none⟩, ⟨0x0504, [], 0, none⟩, ⟨0x0505, [(16, 17)], 0, none⟩, ⟨0x0601, [(16, 18)], 0, none⟩,
   ⟨0x0602, [(16, 18), (24, 36)], 0, none⟩, ⟨0x0603, [(16, 19)], 0, none⟩, ⟨0x0701, [], 0, some 1⟩, ⟨0x0702, [], 0, some 1⟩,
   ⟨0x0703, [(16, 17), (20, 24)], 0, some 1⟩]

/-- Are the flag bits and inline bytes that an opcode does not name zero (R318, log entry 28)? -/
def reservedClear (f : OpForm) (p : Nat) : Bool :=
  let fl := pkBytes p 2 1
  (List.range 7).all (fun i => !fl.testBit (i + 1) || f.flags.testBit (i + 1)) &&
    (List.range 48).all fun i => pkBytes p (16 + i) 1 == 0 || f.named.any fun r => decide (r.1 ≤ 16 + i) && decide (16 + i < r.2)

/-- The status with which a command ends before any work, if it does: BAD_OPCODE, NOT_READY, BAD_PARAM or PARAM_FAULT. -/
def earlyStatus (s : State) (p : Nat) : Option Nat :=
  match opForms.find? fun f => f.op == pkBytes p 0 2 with
  | none => some stBadOpcode
  | some f =>
    if s.bring.last < 14 ∧ f.op / 256 ≠ 1 ∧ f.op / 256 ≠ 7 then some stNotReady
    else if !reservedClear f p then some stBadParam
    else match f.block with
      | none => none
      | some n =>
        let len := pkBytes p 4 4
        let a := pkBytes p 8 8
        if len < n ∨ (len ≠ 0 ∧ a % 8 ≠ 0) then some stBadParam
        else if 2 ^ 47 < a + len then some stParamFault
        else none

/-- A command's work is done: its status and RESULT (bytes 8 to 31 of the reply) wait to be written. -/
def answer (status result : Nat) (s : State) : State := updSvc (fun v => { v with reply := some ⟨status, result⟩ }) s

/-- A refused command changes nothing. -/
def refuse (status : Nat) (s : State) : Host.Outcome State Fault Refusal := done (answer status 0 s)

/-- Does the port execute an opcode, with its work still to be done? -/
def portRuns (s : State) (op : Nat) : Bool :=
  getF s r_HUB_CMD_STATUS f_HUB_CMD_STATUS_BUSY == 1 && getF s r_HUB_CMD_STATUS f_HUB_CMD_STATUS_OPCODE == op && s.svc.reply.isNone

/-- Is the port busy? -/
def portBusy (s : State) : Bool := getF s r_HUB_CMD_STATUS f_HUB_CMD_STATUS_BUSY == 1

/-- A write to the port that finds it busy is refused with NA (R319). -/
def refuseWrite (s : State) : State := satF r_HUB_CMD_STATUS f_HUB_CMD_STATUS_REFUSED 1 s

/-- The command in HUB_CMD_SLOT is accepted. -/
def acceptCommand (s : State) : State :=
  let p := packet s
  let s := putF r_HUB_CMD_STATUS f_HUB_CMD_STATUS_BUSY 1 (putF r_HUB_CMD_STATUS f_HUB_CMD_STATUS_SEQ (pkBytes p 3 1)
    (putF r_HUB_CMD_STATUS f_HUB_CMD_STATUS_OPCODE (pkBytes p 0 2) s))
  match earlyStatus s p with
  | some st => answer st 0 s
  | none => updSvc (fun v => { v with reply := none }) s

/-- A write of HUB_CMD_DOORBELL (R319). -/
def doorbell (v : Word) (s : State) : WinStatus × State :=
  if portBusy s then (.na, refuseWrite s)
  else if getF s r_HUB_CMD_STATUS f_HUB_CMD_STATUS_READY = 0 then (.err, s)
  else if fieldOf f_HUB_CMD_DOORBELL_GO v = 0 then (.ok, s)
  else (.ok, acceptCommand s)

/-- A write of GO (R319). -/
def execGo (s : State) : Host.Outcome State Fault Refusal := done (doorbell 1 s).2

/-- The reply (R318): opcode, SEQ, STATUS, BUSY_US, RESULT. -/
def replyBytes (s : State) (r : Reply) (us : Nat) : Nat :=
  getF s r_HUB_CMD_STATUS f_HUB_CMD_STATUS_OPCODE + 2 ^ 16 * getF s r_HUB_CMD_STATUS f_HUB_CMD_STATUS_SEQ + 2 ^ 24 * (r.status % 256) +
    2 ^ 32 * (us % 2 ^ 32) + 2 ^ 64 * (r.result % 2 ^ 192)

/-- The hub writes the whole reply and clears BUSY; NOTIFY posts CMD_DONE (R319, R324). `us`: how long the command took. -/
def execCommandCompletion (us : Nat) (s : State) : Host.Outcome State Fault Refusal :=
  match s.svc.reply with
  | none => done s
  | some r =>
    if !portBusy s then done s
    else
      let b := replyBytes s r us
      let s := forAll (List.range 4) (fun w s => putReg s (r_HUB_CMD_REPLY w) (BitVec.ofNat 64 (b / 2 ^ (64 * w)))) s
      let s := putF r_HUB_CMD_STATUS f_HUB_CMD_STATUS_BUSY 0 (putF r_HUB_CMD_STATUS f_HUB_CMD_STATUS_LAST_STATUS r.status s)
      let s := updSvc (fun v => { v with reply := none }) s
      done (if pkFlag s 0 then postEvent evCmdDone (subj2 (pk s 0 2) (pk s 3 1)) (b % 2 ^ 128) s else s)

/-- Writes a result block at the command's PADDR with STORE messages of at most 256 B. -/
def storeBlock (len v : Nat) (s : State) : State :=
  forAll (List.range ((len + 255) / 256)) (fun i s =>
    sendStore (pkAddr s + 256 * i) (min 256 (len - 256 * i)) (v / 2 ^ (2048 * i) % 2 ^ (8 * min 256 (len - 256 * i))) s) s

/-! ### Sessions (R176, R177, R191 to R193, R198) -/

/-- The code of a session state in the entry. -/
def stateCode : SessState → Nat
  | .active => 1
  | .forking => 2
  | .pinned => 3
  | .stale => 4
  | .closing => 5

/-- The lowest slot in use neither by a session of this module nor by one held for the twin. -/
def freeSlotNo (s : State) : Option Nat :=
  (List.range 4096).find? fun n => (getSess s n).isNone && (sget none s.twin.held n).isNone

/-- What an instance adds to its partition's prefill backlog: its session's pending input in steps, where it is a PREFILL instance that
is ready or held up by its gates alone. -/
def instBacklog (s : State) (p i : Nat) : Nat :=
  match getInst s i with
  | none => 0
  | some x => match getGraph s x.graph, x.slot with
    | some g, some slot =>
      if (taskOf g x).kind = kPrefill ∧ g.part = p ∧ unblocked s i x g ∧ waitsMet s g x ∧ aheadOk g x then
        match getSess s slot with
        | some y => (pendTokens y + g.pchunk - 1) / g.pchunk
        | none => 0
      else 0
    | _, _ => 0

/-- The prefill backlog of a partition (R250). -/
def backlog (s : State) (p : Nat) : Nat := (instIds s).foldl (fun n i => n + instBacklog s p i) 0

/-- Pages of index `idx` that are homed in a NEAR entry: the first pages of a new session that starts there. -/
def firstPages (g : Graph) (idx e : Nat) : Nat := ((layerPairs g).filter fun p => homeEntry g p.1 p.2 idx == e).length

/-- The frames of a NEAR group that hold pinned or FILLING pages, next pages among them. -/
def fixedFrames (s : State) (g : Graph) (e : Nat) : Nat :=
  ((getNear g e).slots.filter fun sl =>
    let w := slotPeek s g e sl
    slTier w == tVault && (pgState (pageState s g e sl) == 1 || pgPins (pageState s g e sl) ≠ 0)).length

/-- Would a new session leave a NEAR group short (R198)? `first` and `copied`: its first pages in an entry, and the home entries that a
fork gives it there. -/
def pagesShort (s : State) (g : Graph) (first copied : Nat → Nat) : Bool :=
  (List.range g.place.near.length).any fun e =>
    let n := getNear g e
    let k := first e
    decide (g.place.nframes < fixedFrames s g e + k + freeHigh s g.part) || decide (g.nslots < n.slots.length + k + 64) ||
      decide (g.place.nblocks < n.blocks.length + (copied e + k + 30) / 31 + 64)

/-- The home entries of a parent in a NEAR entry that a fork at position `f` copies. -/
def forkCopies (s : State) (g : Graph) (parent f e : Nat) : Nat :=
  ((homeList s g e parent).2.filter fun w => decide (heIdx w < (f + 127) / 128)).length

/-- The first pages of a fork's child in a NEAR entry; a PINNED one writes none (R192). -/
def forkPages (g : Graph) (f : Nat) (pin : Bool) (e : Nat) : Nat := if pin then 0 else firstPages g (f / 128) e

/-- Would a fork with PIN pin too many frames of a group (R198)? -/
def pinsOver (s : State) (g : Graph) (parent f : Nat) : Bool :=
  (List.range g.place.near.length).any fun e =>
    let mine := ((homeList s g e parent).2.filter fun w => decide (heIdx w < f / 128)).map fun w => heId w % 2 ^ 18
    let pinned := (getNear g e).slots.filter fun sl => pgPins (pageState s g e sl) ≠ 0 || mine.contains sl
    decide (tierCfg s g.part f_TIER_CFG_PIN_LIMIT < pinned.length)

/-- May a ring serve a new session: set, of its kind, and read or written by no other? -/
def ringUsable (s : State) (n kind : Nat) : Bool :=
  match getRing s n with
  | some r => r.kind == kind && (if kind = 0 then inputOwner s n else outputOwner s n).isNone
  | none => false

/-- Refuses admission: SATURATED counts in DISP_SAT (R250). -/
def saturated (s : State) : Host.Outcome State Fault Refusal := refuse stSaturated (bumpF r_DISP_SAT f_DISP_SAT_REFUSED 1 s)

/-- Sampler settings without their reserved bytes. -/
def samplerOk (v : Nat) : Bool := v / 2 ^ 96 == 0

/-- A new session entry. -/
def newSess (sid : Nat) (st : SessState) (prio flags k part cpos sampler inRing outRing : Nat) : Sess where
  sid := sid
  state := st
  bucket := bucketOf cpos
  prio := prio
  flags := flags
  graph := k
  part := part
  cpos := cpos
  stalePos := 0
  ptroot := 0
  sampler := sampler
  inRing := inRing
  outRing := outRing
  inCons := 0
  outProd := 0
  mirPos := 0
  mirSeq := 0
  parent := 0
  forkPos := 0
  frames := (0, 0, 0)
  pin := false
  wasPinned := false
  pend := []
  budget := 0
  missHold := false
  pagesWait := false
  missing := []
  heldPages := []
  heldOut := []
  draft := []
  taskStatus := 0
  dropped := none
  mir := .unmirrored
  unacked := none
  copyLeft := []

/-- Ring indices that a session starts from. -/
def withRings (s : State) (x : Sess) : Sess :=
  { x with inCons := match getRing s x.inRing with | some r => r.cons | none => 0,
           outProd := match getRing s x.outRing with | some r => r.prod | none => 0 }

/-- Sets a slot's three objects to 0 (R240). -/
def clearObjs (slot : Nat) (s : State) : State :=
  setObj (oStepDone slot) 0 (setObj (oPagesReady slot) 0 (setObj (oMaintDone slot) 0 s))

/-- A session is placed in a slot: entry, objects, an empty root block. -/
def placeSess (slot : Nat) (g : Graph) (x : Sess) (s : State) : State :=
  let s := putSess slot (some { withRings s x with ptroot := rootAddr s g slot }) s
  clearRoot g slot s

/-- Marks a session as mirrored when mirror traffic is sent, and mirrors the operation (R329). -/
def mirrorNew (slot : Nat) (op : MirOp) (ok : Bool) (s : State) : State :=
  match getSess s slot with
  | some x => if mirActive s && x.flags.testBit 0 && ok then mirrorOp slot op (updSess slot (fun x => { x with mir := .inStep }) s) else s
  | none => s

/-- Mirrors a fork: at once where its parent is IN_STEP; while the copy of a resynchronisation has still to end for the parent, the
child joins the copy (R329, R338, log entry 105). -/
def mirrorFork (slot : Nat) (parent : MirState) (op : MirOp) (s : State) : State :=
  match getSess s slot with
  | some x =>
    if mirActive s && x.flags.testBit 0 && parent == .building then
      sendTwin (.mirOp slot op) (updSess slot (fun x => { x with mir := .building, copyLeft := [noPage] }) s)
    else mirrorNew slot op (parent == .inStep) s
  | none => s

/-- OPEN_SESSION (R177). -/
def execOpenSession (s : State) : Host.Outcome State Fault Refusal :=
  if !portRuns s 0x0401 then done s
  else
    let sid := pk s 16 8
    let inR := pk s 26 2
    let outR := pk s 28 2
    let prio := pk s 30 1
    let flags := pk s 31 1
    let sampler := pk s 32 16
    if sid = 0 || decide (15 < prio) || decide (7 < flags) || !samplerOk sampler || !ringUsable s inR 0 || !ringUsable s outR 1 then
      refuse stBadParam s
    else match findGraph s (pk s 24 2) with
      | none => refuse stNotFound s
      | some k => match getGraph s k with
        | none => refuse stNotFound s
        | some g =>
          if (findSess s sid).isSome then refuse stSidInUse s
          else match freeSlotNo s with
            | none => refuse stNoSlot s
            | some slot =>
              if getF s r_DISP_SAT f_DISP_SAT_THRESH < backlog s g.part || pagesShort s g (firstPages g 0) (fun _ => 0) then saturated s
              else
                let s := placeSess slot g (newSess sid .active prio flags k g.part 0 sampler inR outR) s
                let s := hubDsb g slot (clearObjs slot s)
                let s := createTemplates k slot s
                let c := match getSess s slot with | some x => x.inCons | none => 0
                let s := mirrorNew slot (.openS sid g.handle prio flags sampler inR outR c 0) true s
                done (answer stOk slot s)

/-- FORK_SESSION (R191). -/
def execForkSession (s : State) : Host.Outcome State Fault Refusal :=
  if !portRuns s 0x0402 then done s
  else
    let child := pk s 24 8
    let f := pk s 32 4
    let inR := pk s 36 2
    let outR := pk s 38 2
    let pin := pkFlag s 4
    match findSess s (pk s 16 8) with
    | none => refuse stNotFound s
    | some p => match getSess s p with
      | none => refuse stNotFound s
      | some x => match getGraph s x.graph with
        | none => refuse stNotFound s
        | some g =>
          if x.state ≠ .active ∧ x.state ≠ .pinned then refuse stBadState s
          else if child = 0 || decide (x.cpos < f) || (pin && (f % 128 ≠ 0 || inR ≠ 0xFFFF || outR ≠ 0xFFFF)) ||
              (!pin && (!ringUsable s inR 0 || !ringUsable s outR 1)) then refuse stBadParam s
          else if (findSess s child).isSome then refuse stSidInUse s
          else match freeSlotNo s with
            | none => refuse stNoSlot s
            | some slot =>
              if getF s r_DISP_SAT f_DISP_SAT_THRESH < backlog s g.part ||
                  pagesShort s g (forkPages g f pin) (forkCopies s g p f) then saturated s
              else if pin && pinsOver s g p f then refuse stPinLimit s
              else
                let y := newSess child .forking x.prio (x.flags &&& 3) x.graph x.part f x.sampler inR outR
                let s := placeSess slot g { y with parent := x.sid, forkPos := f, pin := pin } s
                let s := promoteWanted x.graph (createMaint x.graph kFork slot f [] (pk s 16 32) s)
                let s := mirrorFork slot x.mir (.fork x.sid child f pin inR outR) s
                done (answer stOk slot s)

/-- CLOSE_SESSION (R193). -/
def execCloseSession (s : State) : Host.Outcome State Fault Refusal :=
  if !portRuns s 0x0403 then done s
  else match findSess s (pk s 16 8) with
    | none => refuse stNotFound s
    | some slot => match getSess s slot with
      | none => refuse stNotFound s
      | some x =>
        if x.state = .closing ∨ hasKind s slot kClose then refuse stBadState s
        else
          let s := mirrorOp slot (.close x.sid) s
          let s := updSess slot (fun x => { x with state := .closing, wasPinned := x.state == .pinned }) s
          done (answer stOk 0 (createMaint x.graph kClose slot 0 [] (pk s 16 32) s))

/-- TRUNCATE_SESSION (R193): CPOS becomes T, and the truncate task releases the pages from T on. -/
def execTruncateSession (s : State) : Host.Outcome State Fault Refusal :=
  if !portRuns s 0x0404 then done s
  else match findSess s (pk s 16 8) with
    | none => refuse stNotFound s
    | some slot => match getSess s slot with
      | none => refuse stNotFound s
      | some x =>
        let t := pk s 24 4
        if (x.state ≠ .active ∧ x.state ≠ .stale) ∨ hasKind s slot kTruncate then refuse stBadState s
        else if x.cpos < t ∨ (x.state = .stale ∧ x.stalePos < t) then refuse stBadParam s
        else
          let s := mirrorOp slot (.truncate x.sid t) s
          let s := updSess slot (fun x => { x with state := .active, stalePos := 0, cpos := t, bucket := bucketOf t,
                                                   dropped := lossBelow x t, draft := x.draft.filter (fun e => decide (e.1 < t)),
                                                   flags := if t % 128 = 0 then x.flags else x.flags ||| 4 }) s
          done (answer stOk 0 (createMaint x.graph kTruncate slot t [] (pk s 16 32) s))

/-- SET_SESSION: priority and sampler settings. -/
def execSetSession (s : State) : Host.Outcome State Fault Refusal :=
  if !portRuns s 0x0405 then done s
  else match findSess s (pk s 16 8) with
    | none => refuse stNotFound s
    | some slot => match getSess s slot with
      | none => refuse stNotFound s
      | some x =>
        let prio := pk s 30 1
        let sampler := pk s 32 16
        if x.state = .closing then refuse stBadState s
        else if 15 < prio ∨ !samplerOk sampler then refuse stBadParam s
        else
          let s := updSess slot (fun x => { x with prio := prio, sampler := sampler }) s
          done (answer stOk 0 (syncSampler slot (mirrorOp slot (.setS x.sid prio sampler) s)))

/-- SESSION_INFO. -/
def execSessionInfo (s : State) : Host.Outcome State Fault Refusal :=
  if !portRuns s 0x0406 then done s
  else match findSess s (pk s 16 8) with
    | none => refuse stNotFound s
    | some slot => match getSess s slot with
      | none => refuse stNotFound s
      | some x => done (answer stOk (x.cpos % 2 ^ 32 + 2 ^ 32 * stateCode x.state + 2 ^ 40 * x.bucket + 2 ^ 64 * (pendTokens x % 2 ^ 32) +
          2 ^ 96 * (x.budget % 2 ^ 32)) s)

/-- SET_RING (R313): a ring's kind, size and base; the hub holds the line that the companion writes. -/
def execSetRing (s : State) : Host.Outcome State Fault Refusal :=
  if !portRuns s 0x0203 then done s
  else
    let n := pk s 16 2
    let kind := pk s 18 1
    let k := pk s 19 1
    let base := pk s 24 8
    if 8192 ≤ n ∨ 1 < kind ∨ k < 4 ∨ 16 < k ∨ base % 4096 ≠ 0 ∨ 2 ^ 47 ≤ base then refuse stBadParam s
    else if (inputOwner s n).isSome ∨ (outputOwner s n).isSome then refuse stBadState s
    else
      let s := match getRing s n with
        | some r => dropLine (if r.kind = 0 then r.base else r.base + 0x40) s
        | none => s
      let s := putRing n (some ⟨kind, k, base, 0, 0, 0⟩) s
      done (answer stOk 0 (holdLine (if kind = 0 then base else base + 0x40) s))

end Sys2Proof.Machine
end

