-- ==== Sys2Proof/Machine/GraphCmds.lean ====
section
/-! DEFINITION. Partitions (R29 to R31, R129), signed images (R424 to R427), and the loading of graphs and weights (R230 to R237,
R266, R321, R434). -/
namespace Sys2Proof.Machine

/-! ### Partitions -/

/-- Is the link of two neighbouring members trained, with both its ports open? -/
def linkOpen (s : State) (d : Stack) (p : Port) : Bool :=
  match neighbour d p with
  | some e => getF s (r_PORT_STATUS d p) f_PORT_STATUS_STATE == 2 && getF s (r_PORT_STATUS e (opposite p)) f_PORT_STATUS_STATE == 2
  | none => false

/-- The ports of a die that lead to members of a list over open links. -/
def memberPorts (s : State) (ms : List Stack) (d : Stack) : List Port :=
  allPorts.filter fun p => linkOpen s d p && match neighbour d p with | some e => ms.contains e | none => false

/-- A node of a flash tree: die, depth, port to its parent. -/
structure TreeNode where
  die : Stack
  depth : Nat
  up : Option Port
  deriving DecidableEq, Repr

/-- One more level of the flash tree: a die reached from two parents takes the one with the lower stack number (R129). -/
def growTree (s : State) (ms : List Stack) (t : List TreeNode) (h : Nat) : List TreeNode :=
  t ++ ms.filterMap fun n =>
    if t.any fun x => x.die == n then none
    else
      let ups := (memberPorts s ms n).filter fun p => match neighbour n p with
        | some e => t.any fun x => x.die == e && x.depth == h
        | none => false
      let lower := fun (b : Option Port) (p : Port) => match b with
        | none => some p
        | some q => match neighbour n p, neighbour n q with
          | some e, some f => if e < f then some p else some q
          | _, _ => some q
      match ups.foldl lower none with
      | some p => some ⟨n, h + 1, some p⟩
      | none => none

/-- The flash tree of the members reached from a root. -/
def flashTree (s : State) (ms : List Stack) (root : Stack) : List TreeNode := (List.range 24).foldl (growTree s ms) [⟨root, 0, none⟩]

/-- Are all members reached from the root? -/
def treeCovers (s : State) (ms : List Stack) (root : Stack) : Bool := ms.all fun d => (flashTree s ms root).any fun x => x.die == d

/-- A mask of ports. -/
def portMask (l : List Port) : Nat := l.foldl (fun m p => m + 2 ^ p.val) 0

/-- Writes the flash registers of a partition's dies from its tree (R129). -/
def writeTree (p : Partition) (s : State) : State :=
  match stackIx p.root with
  | none => s
  | some root =>
    let ms := members s p
    let t := flashTree s ms root
    let hmax := t.foldl (fun m x => max m x.depth) 0
    forAll t (fun x s =>
      let kids := (t.filter fun y => match y.up with | some q => neighbour y.die q == some x.die | none => false).filterMap fun y => y.up.map opposite
      let a := r_FLASH_CTRL x.die
      let s := putF a f_FLASH_CTRL_ROOT (if x.depth = 0 then 1 else 0) (putF a f_FLASH_CTRL_ROOT_CORE p.rootCore s)
      let s := putF a f_FLASH_CTRL_IN (match x.up with | some q => q.val | none => 4) (putF a f_FLASH_CTRL_OUT (portMask kids) s)
      let s := putF a f_FLASH_CTRL_MEMBER (portMask (memberPorts s ms x.die)) (putF a f_FLASH_CTRL_LMAX (16 * hmax + 4) s)
      putF (r_FLASH_THUNDER x.die) f_FLASH_THUNDER_COUNT (16 * (hmax - x.depth)) s) s

/-- Is a task of a partition running or queued? -/
def partBusy (s : State) (p : Nat) : Bool :=
  s.svc.launches.any (fun l => l.part == p) ||
    match s.parts[p]? with
    | some x => (members s x).any fun d => !(getDie s d).lq.isEmpty || (getDie s d).taken.isSome || allCores.any fun c =>
        (getCore s d c).running && !(getCore s d c).ended
    | none => false

/-- Is a graph of a partition being loaded? -/
def partLoading (s : State) (p : Nat) : Bool := s.svc.loading.any fun l => l.part == p

/-- The transit period of the package: RT_CTRL.TPER. -/
def pkgTper (s : State) : Nat :=
  match allStacks.find? fun d => s.present.contains d.val with | some d => getF s (r_RT_CTRL d 0) f_RT_CTRL_TPER | none => 1

/-- The partitions that a SET_PARTITIONS block describes. -/
def partitionList (s : State) (n : Nat) (b : List Byte) : List Partition :=
  (List.range n).map fun i =>
    let f := fun k => leAt b (8 * i + k) 1
    let p : Partition := ⟨f 0, f 1, f 2, f 3, f 4, f 5, []⟩
    { p with mem := (members s p).map (·.val) }

/-- Does an entry keep the rules of R29 and R31 that concern it alone? -/
def partitionOk (s : State) (p : Partition) : Bool :=
  let hub := decide (p.col0 ≤ 2) && decide (2 ≤ p.col1) && decide (p.row0 ≤ 2) && decide (2 ≤ p.row1)
  decide (p.col0 ≤ p.col1) && decide (p.col1 ≤ 4) && decide (p.row0 ≤ p.row1) && decide (p.row1 ≤ 4) &&
    (!hub || (decide (p.col0 < p.col1) && decide (p.row0 < p.row1))) && !(members s p).isEmpty &&
    match stackIx p.root with
    | some r => (members s p).contains r && decide (p.rootCore < 16) &&
        (topoByte s (64 + 16 * r.val + 4 + p.rootCore / 8)).getLsbD (p.rootCore % 8) && treeCovers s (members s p) r
    | none => false

/-- Do two rectangles overlap? -/
def overlap (p q : Partition) : Bool :=
  decide (p.col0 ≤ q.col1) && decide (q.col0 ≤ p.col1) && decide (p.row0 ≤ q.row1) && decide (q.row0 ≤ p.row1)

/-- Does no rectangle of a list overlap a later one? -/
def disjointRects : List Partition → Bool
  | [] => true
  | p :: l => l.all (fun q => !overlap p q) && disjointRects l

/-- The partitions of the package change: the dies of each changed partition take its flash tree, those of none are alone. -/
def setParts (new : List Partition) (s : State) : State :=
  let old := s.parts
  let s := { s with parts := new }
  let changed := (List.range new.length).filter fun i => new[i]? ≠ old[i]?
  let s := forAll allStacks (fun d s =>
    if (partOf s d).isSome then s
    else putF (r_FLASH_CTRL d) f_FLASH_CTRL_ROOT 0 (putF (r_FLASH_CTRL d) f_FLASH_CTRL_OUT 0 (putF (r_FLASH_CTRL d) f_FLASH_CTRL_MEMBER 0 s))) s
  let s := forAll changed (fun i s => match new[i]? with
    | some p => forAll (members s p) (fun d s => updDie d (fun y => { y with lq := [], taken := none, firstNext := true, done := [] }) s) (writeTree p s)
    | none => s) s
  let halted := (List.range new.length).filter fun i => match new[i]? with
    | some p => (members s p).any fun d => getF s (r_FLASH_STATUS d) f_FLASH_STATUS_HALTED == 1
    | none => false
  updHub (fun h => { h with haltedParts := halted, degraded := h.degraded.filter fun e => !changed.contains e.1 }) s

/-- SET_PARTITIONS (R31). `block`: what the FETCH of the parameter block returns, none for an error. `tables`: the transit tables
that the hub chooses for a new period (R120). -/
def execSetPartitions (block : Option (List Byte)) (tables : List (Stack × Cluster × Fin 64 × Word)) (s : State) :
    Host.Outcome State Fault Refusal :=
  if !portRuns s 0x0201 then done s
  else
    let n := pk s 16 1
    let per := pk s 17 1
    if n = 0 ∨ 24 < n ∨ 3 < per ∨ pkLen s < 8 * n then refuse stBadParam s
    else match block with
      | none => refuse stParamFault s
      | some b =>
        let new := partitionList s n b
        let spare := (List.range n).any fun i => leAt b (8 * i + 6) 2 ≠ 0
        if spare || !new.all (partitionOk s) || !disjointRects new then refuse stBadParam s
        else
          let same := fun (i : Nat) => new[i]? = s.parts[i]?
          let touched := (List.range s.parts.length).filter fun i => !same i
          if ((graphKeys s).length ≠ 0 && per ≠ pkgTper s) || touched.any (fun i => partBusy s i || partLoading s i) then
            refuse stBusyPartition s
          else
            let s := if per = pkgTper s then s else
              forAll tables (fun t s => putReg s (r_TR_SLOT t.1 t.2.1 t.2.2.1) t.2.2.2)
                (forAll allStacks (fun d s => if s.present.contains d.val then
                  forAll allClusters (fun k s => putF (r_RT_CTRL d k) f_RT_CTRL_TPER per s) s else s) s)
            done (answer stOk 0 (setParts new s))

/-- Is a stack in a reset that is not over, or in recovery? -/
def stackDown (s : State) (d : Nat) : Bool :=
  s.rst.recovering.any (fun x => x.1 == d) || s.rst.failed.contains d || s.rst.seqs.any fun q => q.scope == 0 || q.scope == d + 1

/-- REARM_PARTITION (R321): the dies' HALTED is cleared with FLASH_CTRL.REARM, and the dispatcher may launch again, once no
graph is outdated (log entry 100). -/
def execRearmPartition (s : State) : Host.Outcome State Fault Refusal :=
  if !portRuns s 0x0202 then done s
  else
    let n := pk s 16 1
    match s.parts[n]? with
    | none => refuse stNotFound s
    | some p =>
      let ms := members s p
      let squall := ms.any fun d => getF s (r_ERR_STATUS_die d) f_ERR_STATUS_SQUALL == 1
      let rootOk := match stackIx p.root with
        | some r => (topoByte s (64 + 16 * r.val + 4 + p.rootCore / 8)).getLsbD (p.rootCore % 8) && treeCovers s ms r
        | none => false
      if partLoading s n then refuse stBusyPartition s
      else if !s.hub.haltedParts.contains n || ms.any (fun d => stackDown s d.val) || ms.map (·.val) ≠ p.mem || !rootOk ||
          (squall && !pkFlag s 4) || (partGraphs s n).any s.hub.outdated.contains then refuse stBadState s
      else
        let s := if pkFlag s 4 then forAll ms (fun d s => putF (r_ERR_STATUS_die d) f_ERR_STATUS_SQUALL 0 s) s else s
        let s := forAll ms rearmDie (writeTree p s)
        done (answer stOk 0 (updHub (fun h => { h with haltedParts := h.haltedParts.filter (· ≠ n) }) s))

/-! ### Signed images (R424 to R427) -/

/-- The field of an anti-rollback counter (R427). -/
def counterField (i : Nat) : Fld :=
  match i with
  | 0 => f_SEC_ROLLBACK_HUB
  | 1 => f_SEC_ROLLBACK_DIE
  | 2 => f_SEC_ROLLBACK_GRAPH
  | 3 => f_SEC_ROLLBACK_KEYMIN_V
  | _ => f_SEC_ROLLBACK_KEYMIN_O

/-- Value of an anti-rollback counter. -/
def rollback (s : State) (i : Nat) : Nat := getF s r_SEC_ROLLBACK (counterField i)

/-- The counter of an image type. -/
def imageCounter (type : Nat) : Nat := if type ≤ 2 then 0 else if type ≤ 4 then 1 else 2

/-- The fused hash of a key slot. -/
def keyHash (s : State) (slot : Nat) : Nat := (List.range 4).foldr (fun w n => (getReg s (r_SEC_KEYHASH (4 * slot + w))).toNat + 2 ^ 64 * n) 0

def imType (i : List Byte) : Nat := leAt i 6 1
def imSlot (i : List Byte) : Nat := leAt i 7 1
def imSvn (i : List Byte) : Nat := leAt i 10 2
def imLen (i : List Byte) : Nat := leAt i 16 8

/-- Bytes of an image's payload with its padding. -/
def imPadded (i : List Byte) : Nat := (imLen i + 15) / 16 * 16

/-- Check 1 of R425: form and reserved bytes. -/
def imageForm (types : List Nat) (i : List Byte) : Bool :=
  leAt i 0 4 == 0x474D4946 && leAt i 4 2 == 1 && types.contains (imType i) && leAt i 8 1 / 2 == 0 && leAt i 9 1 == 0 &&
    leAt i 12 4 == 0 && leAt i 24 40 == 0 && decide (i.length = 1376 + imPadded i + 2420) &&
    leAt i (1376 + imLen i) (imPadded i - imLen i) == 0

/-- Check 2: the key. -/
def imageKey (s : State) (i : List Byte) : Bool :=
  let slot := imSlot i
  decide (slot < 8) && (imType i == 5 || decide (slot < 4)) && keyHash s slot ≠ 0 && leNat (sha3 ((i.drop 64).take 1312)) == keyHash s slot

/-- Check 3: the slot is not revoked. -/
def slotValid (s : State) (slot : Nat) : Bool := if slot < 4 then decide (rollback s 3 ≤ slot) else decide (rollback s 4 ≤ slot - 4)

/-- How a signed image fails R425: false for checks 1 to 4, true for the security version. `sig`: the signature is valid under
FIPS 204 (log entry 29). -/
def imageFail (s : State) (types : List Nat) (sig : Bool) (i : List Byte) : Option Bool :=
  if !imageForm types i || !imageKey s i || !slotValid s (imSlot i) || !sig then some false
  else if imSvn i < rollback s (imageCounter (imType i)) then some true
  else none

/-- The payload. -/
def imPayload (i : List Byte) : List Byte := (i.drop 1376).take (imLen i)

/-! ### The payload of a graph (R231 to R237) -/

/-- Offset and size of a section. -/
def section_ (p : List Byte) (type : Nat) : Option (Nat × Nat) :=
  ((List.range 11).find? fun k => leAt p (80 + 16 * k) 2 == type).map fun k => (leAt p (80 + 16 * k + 8) 8, leAt p (80 + 16 * k + 4) 4)

/-- The bytes of a section. -/
def sectionBytes (p : List Byte) (type : Nat) : List Byte :=
  match section_ p type with | some (o, n) => (p.drop o).take n | none => []

/-- The section rules of R231 and R232. -/
def sectionsOk (p : List Byte) : Bool :=
  let ty := fun k => leAt p (80 + 16 * k) 2
  ((List.range 11).all fun k =>
    ty k == 0 || (decide (ty k ≤ 11) && leAt p (80 + 16 * k + 2) 2 == 0 &&
      decide (leAt p (80 + 16 * k + 8) 8 + leAt p (80 + 16 * k + 4) 4 ≤ p.length) &&
      ((List.range 11).filter fun j => ty j == ty k).length == 1)) &&
    [1, 2, 3, 4, 9].all fun t => (section_ p t).isSome

/-- MAGIC, VERSION, HSIZE, SIZE, reserved bytes and sections of a payload. -/
def payloadForm (p : List Byte) : Bool :=
  leAt p 0 4 == 0x52475146 && leAt p 4 2 == 1 && leAt p 6 2 == 256 && leAt p 8 8 == p.length && leAt p 59 1 == 0 && leAt p 63 1 == 0 &&
    leAt p 73 1 == 0 && leAt p 76 4 == 0 && sectionsOk p && decide (16 * leAt p 72 1 ≤ (sectionBytes p 1).length) &&
    decide (192 * leAt p 68 2 ≤ (sectionBytes p 2).length) && decide (8 * leAt p 70 2 ≤ (sectionBytes p 3).length)

/-- The lane table. -/
def lanesOf (p : List Byte) : List LaneRec :=
  (List.range (leAt p 72 1)).map fun i => ⟨leAt (sectionBytes p 1) (16 * i + 1) 1, leAt (sectionBytes p 1) (16 * i + 2) 1⟩

/-- A wait or signal entry. -/
def objOpAt (b : List Byte) (a : Nat) : ObjOp := ⟨leAt b a 4, leAt b (a + 4) 1, leAt b (a + 8) 8⟩

/-- A task record. -/
def taskAt (b : List Byte) (i : Nat) : TaskRec :=
  let a := 192 * i
  { lane := leAt b (a + 2) 1, prio := leAt b (a + 3) 1, kind := leAt b (a + 4) 1, flags := leAt b (a + 5) 1, sel := leAt b (a + 6) 1,
    count := leAt b (a + 7) 1, len16 := leAt b (a + 8) 4, psize := leAt b (a + 12) 4, paddr := leAt b (a + 16) 8,
    pstride := leAt b (a + 24) 4, gates := leAt b (a + 30) 1,
    waits := (List.range (leAt b (a + 28) 1)).map fun k => objOpAt b (a + 32 + 16 * k),
    sigs := (List.range (leAt b (a + 29) 1)).map fun k => objOpAt b (a + 96 + 16 * k) }

/-- The task records. -/
def tasksOf (p : List Byte) : List TaskRec := (List.range (leAt p 68 2)).map (taskAt (sectionBytes p 2))

/-- The weight map (R266). -/
def weightsOf (p : List Byte) : List WeightRec :=
  let b := sectionBytes p 11
  (List.range (b.length / 32)).map fun i =>
    ⟨leAt b (32 * i) 1, leAt b (32 * i + 1) 1, leAt b (32 * i + 8) 4, leAt b (32 * i + 16) 8, leAt b (32 * i + 24) 8⟩

/-- The MAINT lanes of a payload. -/
def maintLanes (p : List Byte) : Nat := ((lanesOf p).filter fun l => l.cls == 0).length

/-- Lane rules of R234: number, class, AHEAD, no second MAINT lane. -/
def lanesOk (p : List Byte) : Bool :=
  let b := sectionBytes p 1
  decide (1 ≤ leAt p 72 1) && decide (leAt p 72 1 ≤ 16) &&
    ((List.range (leAt p 72 1)).all fun i => leAt b (16 * i) 1 == i && leAt b (16 * i + 3) 13 == 0) &&
    (lanesOf p).all (fun l => decide (l.cls ≤ 3) && decide (l.ahead ≤ 6)) && decide (maintLanes p ≤ 1)

/-- Has a payload a MAINT lane with a template of every maintenance kind (R233)? -/
def maintOk (p : List Byte) : Bool :=
  maintLanes p == 1 && ([3, 4, 5, 6] : List Nat).all fun k => (tasksOf p).any fun t => t.kind == k && t.flags.testBit 0

/-- Is an object reference in range (R236)? -/
def refOk (nobj : Nat) (template : Bool) (r : Nat) : Bool :=
  match bits r 15 14 with
  | 0 => r / 2 ^ 16 == 0
  | 1 => r / 2 ^ 16 == 0 && decide (bits r 13 0 < nobj)
  | 2 => r / 2 ^ 16 == 0 && template && decide (bits r 13 0 ≤ 2)
  | _ => r / 2 ^ 21 == 0 && decide (bits r 20 16 < 24) && decide (bits r 13 0 < 4096)

/-- Task record rules of R235 to R237. -/
def taskOk (lanes : List LaneRec) (nobj tper16 : Nat) (t : TaskRec) : Bool :=
  let tmpl := t.flags.testBit 0
  let maint := match lanes[t.lane]? with | some l => l.cls == 0 | none => false
  decide (t.lane < lanes.length) && decide (t.prio ≤ 15) && decide (t.kind ≤ 6) && decide (t.flags < 16) &&
    (decide (1 ≤ t.count) || t.flags.testBit 1) && decide (1 ≤ t.len16) && decide (t.len16 ≤ 4194303) && t.len16 * 16 % tper16 == 0 &&
    decide (t.waits.length ≤ 4) && decide (t.sigs.length ≤ 4) && decide (t.gates < 16) && (tmpl || t.gates == 0) &&
    (!t.flags.testBit 3 || decide (t.sel ≤ 248)) && (maint == decide (3 ≤ t.kind)) && (tmpl || !(t.kind == 1 || t.kind == 2)) &&
    t.waits.all (fun w => (w.op == 1 || w.op == 2) && refOk nobj tmpl w.ref) &&
    t.sigs.all fun w => (w.op == 1 || w.op == 2) && refOk nobj tmpl w.ref

/-- The form of the task records: TASK equals the index, and reserved bytes are zero (R235). -/
def taskForms (p : List Byte) : Bool :=
  let b := sectionBytes p 2
  (List.range (leAt p 68 2)).all fun i => leAt b (192 * i) 2 == i && leAt b (192 * i + 31) 1 == 0 && leAt b (192 * i + 160) 32 == 0

/-- The unit whose controller holds a register of the reduction-group table, with the entry; `b`: of word A's block. -/
def groupEntry (a : Nat) : Option (Fin 17) :=
  let blk := a / 2 ^ 24 % 256
  if h : 0x20 ≤ blk ∧ blk ≤ 0x30 ∧ 0x8000 ≤ a % 2 ^ 24 ∧ a % 2 ^ 24 < 0xC000 ∧ a % 16 = 0 then some ⟨blk - 0x20, by omega⟩ else none

/-- Do the slots of a placement's reduction groups stay in their adder's buffer: 1,024 beats of a vault's, 2,048 of the LPDDR's
(R277)? -/
def groupsOk (pl : Place) : Bool :=
  pl.regs.all fun r => match groupEntry r.1 with
    | some u => fieldOf f_VC_RGRPA_VALID r.2 == 0 ||
        decide (fieldOf f_VC_RGRPA_BBASE r.2 + fieldOf f_VC_RGRPA_CNT r.2 * fieldOf f_VC_RGRPA_LEN r.2 ≤ if u.val < 16 then 1024 else 2048)
    | none => true

/-- Geometry (R179, R257, R277) and the largest tree (R233). -/
def geometryOk (p : List Byte) (pl : Place) : Bool :=
  let hpp := leAt p 58 1
  let hd := leAt p 60 2
  let cores := (pl.near.map fun x => x / 24).eraseDups
  ((hpp == 8 && hd == 64) || (hpp == 4 && hd == 128) || (hpp == 2 && hd == 256)) && decide (1 ≤ leAt p 56 1) && decide (leAt p 56 1 ≤ 128) &&
    decide (1 ≤ leAt p 57 1) && decide (leAt p 57 1 ≤ 16) && decide (1 ≤ leAt p 62 1) && decide (leAt p 62 1 ≤ 4 * leAt p 51 1) &&
    decide (64 ≤ leAt p 66 2) && leAt p 64 2 == pl.near.length && decide (1 ≤ leAt p 74 2) && (leAt p 50 1 == 1 || leAt p 50 1 == 2) &&
    (cores.all fun c => let n := (pl.near.filter fun x => x / 24 == c).length; decide (6 ≤ n) && (n == 24 || decide (n ≤ 18))) &&
    groupsOk pl

/-- Does a weight-map record or a placement use a retired unit (R296)? -/
def usesRetired (s : State) (p : List Byte) (g : Place) : Bool :=
  let retired := fun (d : Stack) (u : Fin 17) => (List.range 64).filterMap fun n =>
    let r := getReg s (uRetireReg d u n)
    if fieldOf f_RETIRE_VALID r = 1 ∧ fieldOf f_RETIRE_KIND r ≠ 3 then some (2048 * fieldOf f_RETIRE_ADDR r) else none
  (weightsOf p).any fun w => match stackIx w.stack with
    | some d => (retired d (vaultUnit (coreIx w.core))).any fun a => decide (a < w.vaddr + w.len) && decide (w.vaddr < a + 2048)
    | none => true
  || g.near.any fun x => match grpPlace x with
    | some (d, c, j) => (List.range 64).any fun n =>
        let r := getReg s (uRetireReg d (vaultUnit c) n)
        fieldOf f_RETIRE_VALID r == 1 && fieldOf f_RETIRE_KIND r == 1 && (mapVault s d c (2048 * fieldOf f_RETIRE_ADDR r)).1 == j
    | none => true

/-- Does the partition of a graph rotate (R389)? -/
def rotates (s : State) (n : Nat) (p : Partition) : Bool :=
  let k := (members s p).length
  decide (12 ≤ k) || (decide (7 ≤ k) && (getF s r_THERM_POLICY f_THERM_POLICY_ROTATE).testBit n)

/-- The lowest run of free graph objects (R240). -/
def objRun (s : State) (n : Nat) : Option Nat :=
  let free := fun (a : Nat) => (graphKeys s).all fun k => match getGraph s k with
    | some g => decide (a + n ≤ g.objBase) || decide (g.objBase + g.nobj ≤ a)
    | none => true
  (List.range (4097 - n)).map (· + 0x3000) |>.find? free

/-- A cycle count of the transit period code. -/
def tperCycles (code : Nat) : Nat := 8 * 2 ^ code

/-- The checks of R233 in order: the status of the first that fails. -/
def graphStatus (s : State) (part : Nat) (i : List Byte) (sig : Bool) (pl : Place) : Option Nat :=
  let p := imPayload i
  if (imageFail s [5] sig i).isSome || !payloadForm p then some stBadImage
  else match s.parts[part]? with
    | none => some stBusyPartition
    | some q =>
      let rect := [q.col0, q.row0, q.col1, q.row1]
      if (List.range 4).map (fun k => leAt p (52 + k) 1) ≠ rect || partBusy s part then some stBusyPartition
      else if (p.drop 16).take 32 ≠ partHash s q then some stBadTopology
      else if leAt p 48 1 ≠ (topoByte s 9).toNat ∨ leAt p 51 1 ≠ (if topoByte s 8 = 0 then 4 else 3) then some stBadTopology
      else if leAt p 49 1 ≠ pkgTper s then some stBadParam
      else if !geometryOk p pl || usesRetired s p pl || (rotates s part q && leAt p 50 1 == 1) then some stBadParam
      else if !lanesOk p || !taskForms p || leAt p 68 2 = 0 || decide (1024 < leAt p 68 2) || decide (4096 < leAt p 70 2) ||
          !((tasksOf p).all (taskOk (lanesOf p) (leAt p 70 2) (tperCycles (leAt p 49 1)))) ||
          decide (16 < ((tasksOf p).filter fun t => t.flags.testBit 0).length) then some stBadParam
      else if 16 ≤ (graphKeys s).length || (objRun s (leAt p 70 2)).isNone then some stNoSlot
      else if !maintOk p then some stBadParam
      else none

/-! ### Loading and unloading -/

/-- LOAD_GRAPH (R321): a handle is reserved and the partition is loading. The handle is one not in use (log entry 3). -/
def execLoadGraph (s : State) : Host.Outcome State Fault Refusal :=
  if !portRuns s 0x0301 then done s
  else
    let p := pk s 16 1
    if s.parts.length ≤ p then refuse stBadParam s
    else if partLoading s p then refuse stBusyPartition s
    else
      let used := 0 :: s.svc.loading.map (·.handle) ++ (graphKeys s).filterMap fun k => (getGraph s k).map (·.handle)
      match pickFree used 65536 s with
      | (none, s) => refuse stNoSlot s
      | (some h, s) =>
        let l : Loading := ⟨h, p, pkAddr s, pkLen s⟩
        done (answer stInProgress h (updSvc (fun v => { v with loading := v.loading ++ [l] }) s))

/-- The roles of the bank groups of a partition follow its NEAR list (R147, R185). -/
def setRoles (part : Nat) (near : List Nat) (s : State) : State :=
  forAll (partCores s part) (fun x s => forAll (List.range 24) (fun j s =>
    putF (r_BP_CTRL x.1 j x.2) f_BP_CTRL_ROLE (if near.contains (24 * coreNo x.1 x.2 + j) then 1 else 0) s) s) s

/-- The hub's structures in a graph's NEAR groups start empty: slot tables and directories (R186). -/
def clearTables (g : Graph) (s : State) : State :=
  forAll (List.range g.place.near.length) (fun e s =>
    let p := nearGrp g e
    let s := grpWrite p g.place.slots (8 * g.nslots) 0 (grpWrite p g.place.dir 16384 0 (grpWrite p g.place.tentDir 16384 0 s))
    if g.ridx = 2 then grpWrite p g.place.dir2 16384 0 s else s) s

/-- The lane registers of a graph (R254). -/
def showLanes (k : Nat) (g : Graph) (s : State) : State :=
  forAll (List.range g.lanes.length) (fun l s => match g.lanes[l]? with
    | some r => putReg s (r_DISP_LANE (laneNo k l)) (BitVec.ofNat 64 (1 + r.cls % 4 * 16 + 256 * (g.part % 32)))
    | none => s) s

/-- Does a register belong to what sets the codes of a unit's addresses: its region descriptors, a vault's roles (R257, R286)? -/
def codeReg (d : Stack) (u : Fin 17) (a : Nat) : Bool :=
  match unitCore u with
  | some c => (decide (r_ECC_REGION d c 0 ≤ a) && decide (a < r_ECC_REGION d c 0 + 512)) || (List.range 24).any fun j => a == r_BP_CTRL d j c
  | none => decide (r_ECC_REGION_LP d 0 ≤ a) && decide (a < r_ECC_REGION_LP d 0 + 512)


/-- The words of a unit that something has written and whose code is not the one under which they were last initialised, by key and
with their length in memory. -/
def recoded (s : State) (d : Stack) (u : Fin 17) : List Nat :=
  (s.chk.map (·.1)).filter fun k => match unitCore u with
    | some c =>
      let a := k - bankKey d c 0 0
      decide (bankKey d c 0 0 ≤ k) && decide (a < 24 * 2 ^ 26) &&
        vaultCode s d c (unmapVault s d c (a / 2 ^ 26) (a % 2 ^ 26)) ≠ bankInitCode s d c (a / 2 ^ 26) (a % 2 ^ 26)
    | none =>
      let a := k - lpKey d 0 0 0
      decide (lpKey d 0 0 0 ≤ k) && decide (a < 2 ^ 36) && lpCode s d (a / 2048 % lpRows) ≠ lpInitCode s d (a / 2048 % lpRows)

/-- Firmware initialises every range of a unit whose code LOAD_GRAPH has changed with zero data under the new code (R286, log entry
99). -/
def initChanged (d : Stack) (u : Fin 17) (s : State) : State :=
  let s := forAll (recoded s d u) (fun k s => initMem k 64 s) s
  match unitCore u with
  | some c => updVc d c (fun v => { v with inits := validRegions s (r_ECC_REGION d c 0), initNear := setN s d c }) s
  | none => updLp d (fun p => { p with inits := validRegions s (r_ECC_REGION_LP d 0) }) s

/-- The units of a partition whose codes LOAD_GRAPH sets are initialised where they changed. -/
def initCodes (part : Nat) (pl : Place) (s : State) : State :=
  match s.parts[part]? with
  | none => s
  | some p => forAll (members s p) (fun d s => forAll (List.finRange 17) (fun u s =>
      if (pl.regs.any fun r => codeReg d u r.1) || (u.val < 16 && pl.near.any fun x => x / 24 == 16 * d.val + u.val)
      then initChanged d u s else s) s) s

/-- Installs a graph that has passed every check. -/
def installGraph (l : Loading) (i : List Byte) (pl : Place) (s : State) : State :=
  let p := imPayload i
  match (List.range 16).find? fun k => (getGraph s k).isNone with
  | none => s
  | some k =>
    let nobj := leAt p 70 2
    let base := (objRun s nobj).getD 0x3000
    let g : Graph := {
      handle := l.handle, part := l.part, layers := leAt p 56 1, hgroups := leAt p 57 1, hpp := leAt p 58 1,
      treeMax := leAt p 62 1, nslots := leAt p 66 2, ridx := leAt p 50 1, pchunk := leAt p 74 2, lanes := lanesOf p,
      tasks := tasksOf p, objBase := base, nobj := nobj, weights := weightsOf p, place := pl, near := [], lpUsed := [],
      nextCommit := 0, prefetch := [], svn := imSvn i, keySlot := imSlot i, measure := sha3 i, wmeasure := List.replicate 32 0 }
    let s := putGraph k (some g) s
    let s := { s with loadedParts := if s.loadedParts.contains l.part then s.loadedParts else s.loadedParts ++ [l.part] }
    let s := initCodes l.part pl (forAll pl.regs (fun r s => putReg s r.1 r.2) (setRoles l.part pl.near s))
    let s := clearTables g s
    let s := forAll pl.bytes (fun b s => devWrite b.1 1 b.2.toNat s) s
    let s := forAll (List.range nobj) (fun n s => setObj (base + n) (leAt (sectionBytes p 3) (8 * n) 8) s) s
    let rot := match s.parts[l.part]? with | some q => rotates s l.part q | none => false
    let s := forAll (partCores s l.part) (fun x s =>
      putF (r_CORE_CTRL x.1 x.2) f_CORE_CTRL_ROT_EN (if rot then 1 else 0) (putF (r_CORE_CTRL x.1 x.2) f_CORE_CTRL_ROT 0 s)) s
    graphsChanged l.part
      (forAll (tasksWhere g fun t => t.flags.testBit 2 && !t.flags.testBit 0) (fun t s => createInst k t none 0 [] s) (showLanes k g s))

/-- The verification and distribution of a graph end; GRAPH_LOADED carries the status (R233, R321). `img`: the signed image that
the FETCHes return, none for an error. -/
def execGraphLoadComplete (handle : BitVec 16) (img : Option (List Byte)) (sig : Bool) (pl : Place) (s : State) :
    Host.Outcome State Fault Refusal :=
  match s.svc.loading.find? fun l => l.handle == handle.toNat with
  | none => done s
  | some l =>
    let s := updSvc (fun v => { v with loading := v.loading.filter fun x => x ≠ l }) s
    let post := fun (st : Nat) (s : State) => done (postEvent evGraphLoaded (subj2 l.handle l.part) st s)
    match img with
    | none => post stParamFault s
    | some i => match graphStatus s l.part i sig pl with
      | some st => post st s
      | none => post stOk (installGraph l i pl s)

/-- Removes a graph with its instances and the twin's sessions held in it; its objects return to the pool (R240, R248). -/
def unloadGraph (k : Nat) (s : State) : State :=
  match getGraph s k with
  | none => s
  | some g =>
    let s := forAll (instIds s) (fun i s => match getInst s i with
      | some x => if x.graph = k then putInst i none s else s
      | none => s) s
    let s := updSvc (fun v => { v with launches := v.launches.filter fun l => l.graph ≠ k }) s
    let s := updSvc (fun v =>
      let comp := (v.frees.filter fun f => f.graph == k && f.tier == tComp).map (·.frame) ++
        (v.moves.filter fun m => m.graph == k && m.dstTier == tComp).map (·.dst)
      { v with moves := v.moves.filter (fun m => m.graph ≠ k), frees := v.frees.filter (fun f => f.graph ≠ k),
               compUsed := v.compUsed.filter (fun f => !comp.contains f), dolded := v.dolded.filter fun n => n / 16 ≠ k }) s
    let s := forAll (List.range 16) (fun l s => putReg s (r_DISP_LANE (laneNo k l)) 0) s
    let s := updTwin (fun t => { t with held := t.held.filter fun p => match p.2 with | some h => h.sess.graph != k | none => true }) s
    let s := putGraph k none s
    let still := (graphKeys s).any fun j => match getGraph s j with | some h => h.part == g.part | none => false
    let s := updHub (fun h =>
      { h with degraded := h.degraded.map (fun e => (e.1, e.2.filter (· ≠ k))), outdated := h.outdated.filter (· ≠ k) }) s
    graphsChanged g.part (if still then s else { s with loadedParts := s.loadedParts.filter (· ≠ g.part) })

/-- UNLOAD_GRAPH: refused while a session names the graph or a launch of it is outstanding (log entry 30). -/
def execUnloadGraph (s : State) : Host.Outcome State Fault Refusal :=
  if !portRuns s 0x0302 then done s
  else match findGraph s (pk s 16 2) with
    | none => refuse stNotFound s
    | some k =>
      let used := (allSess s).any (fun x => x.2.graph == k) ||
        s.svc.launches.any fun l => l.graph == k
      if used then refuse stBadState s else done (answer stOk 0 (unloadGraph k s))

/-- `n` bytes of a number, the lowest first. -/
def natBytes : Nat → Nat → List Byte
  | 0, _ => []
  | n + 1, v => BitVec.ofNat 8 v :: natBytes n (v / 256)

/-- Copies the part of a chunk that a weight-map record covers; how many bytes that is. -/
def placeWeights (off : Nat) (chunk : List Byte) (w : WeightRec) (s : State) : Nat × State :=
  let lo := max off w.src
  let hi := min (off + chunk.length) (w.src + w.len)
  match stackIx w.stack with
  | some d => if lo < hi then
      (hi - lo, unitWrite d (vaultUnit (coreIx w.core)) (w.vaddr + (lo - w.src)) (hi - lo) (leAt chunk (lo - off) (hi - lo)) s)
    else (0, s)
  | none => (0, s)

/-- LOAD_WEIGHTS (R266, R321, R434). `chunk`: what the FETCHes return, none for an error; `reached`: every transfer of the
broadcast arrived. -/
def execLoadWeights (chunk : Option (List Byte)) (reached : Bool) (s : State) : Host.Outcome State Fault Refusal :=
  if !portRuns s 0x0303 then done s
  else match findGraph s (pk s 16 2) with
    | none => refuse stNotFound s
    | some k => match getGraph s k with
      | none => refuse stNotFound s
      | some g =>
        let off := pk s 24 8
        if pkLen s % 256 ≠ 0 then refuse stBadParam s
        else if partBusy s g.part || partLoading s g.part then refuse stBusyPartition s
        else match chunk with
          | none => refuse stParamFault s
          | some c =>
            if !reached then refuse stTransitFail s
            else
              let (n, s) := g.weights.foldl (fun (r : Nat × State) w => let (m, s) := placeWeights off c w r.2; (r.1 + m, s)) (0, s)
              let s := updGraph k (fun g => { g with wmeasure := sha3 (g.wmeasure ++ natBytes 8 off ++ natBytes 8 c.length ++ sha3 c) }) s
              done (answer stOk n s)

end Sys2Proof.Machine
end

