-- ==== Sys2Proof/Machine/Reset.lean ====
section
/-! DEFINITION. Resets (R341 to R353): what each level clears, acceptance, merging, release, and the rows of the reset sources. -/
namespace Sys2Proof.Machine

/-- The state with the reset controller changed. -/
def updRst (f : ResetCtl → ResetCtl) (s : State) : State := { s with rst := f s.rst }

/-! ### Levels and domains (R341, R343, R352) -/

def lvPower : Nat := 0
def lvSystem : Nat := 1
def lvWarm : Nat := 2
def lvCore : Nat := 3

/-- The causes of R342. -/
def rcPower : Nat := 1
def rcRefclk : Nat := 2
def rcPin : Nat := 3
def rcCommand : Nat := 4
def rcWatchdog : Nat := 5
def rcThermal : Nat := 6
def rcFatal : Nat := 7
def rcDebug : Nat := 8

/-- The domains that a level clears, by their order in R352; 0 stands for the RWS registers and the debug logic. -/
def levelDomains (level : Nat) : List Nat :=
  match level with
  | 0 => [0, 1, 2, 3, 4, 5, 6, 7]
  | 1 => [1, 2, 3, 4, 5, 6, 7]
  | 2 => [1, 2, 3, 4, 6, 7]
  | _ => [6, 7]

/-- The domain of a register: the hub, a die manager with its sensors and error block, the fabric, a controller, the BPs, the
cores. The group tables of the controllers are cleared at every level. -/
def regDomain (a : Nat) : Nat :=
  let die := a / 2 ^ 32
  let blk := a / 2 ^ 24 % 256
  let off := a % 2 ^ 24
  if die = 0 then 1
  else if blk < 8 then 3
  else if blk < 0x10 then (if 0x100 ≤ off ∧ off < 0x8000 then 7 else 4)
  else if blk < 0x20 then 7
  else if blk ≤ 0x30 then (if 0x8000 ≤ off then 7 else 5)
  else if blk < 0x40 then 4
  else if blk < 0x60 then (if off < 0x800 ∧ off % 0x40 < 0x18 then 6 else 5)
  else 4

/-- The fuse-loaded fields of a register (FUS of R13): no reset changes a fuse. -/
def fusedBits (a : Nat) : Word :=
  let die := a / 2 ^ 32
  let blk := a / 2 ^ 24 % 256
  let off := a % 2 ^ 24
  let all := fun (f : Fld) (v : Word) => withField f v (2 ^ f.width - 1)
  if die = 0 then
    if a = r_SEC_STATUS then all f_SEC_STATUS_DEBUG_CLOSED 0
    else if a = r_SEC_ROLLBACK ∨ (r_SEC_KEYHASH 0 ≤ a ∧ a ≤ r_SEC_KEYHASH 31) then BitVec.allOnes 64
    else if a = r_FUSE_PINMAP then all f_FUSE_PINMAP_PIN0 0
    else if a = r_PKG_POWER then all f_PKG_POWER_LIMIT 0
    else if a = r_SB_ID then all f_SB_ID_GRADE (all f_SB_ID_SERIAL 0)
    else 0
  else if 0x10 ≤ blk ∧ blk < 0x20 ∧ off = 0x10 then all f_CORE_ENGMAP_GOOD (all f_CORE_ENGMAP_OMIT (all f_CORE_ENGMAP_GRADE_B 0))
  else if blk = 3 ∧ off = 0x28 then all f_MARGIN_VMAXSTEP 0
  else if blk = 3 ∧ 0x40 ≤ off ∧ off < 0x70 then all f_THERM_EST_K 0
  else if blk = 3 ∧ 0x300 ≤ off ∧ off < 0x380 then all f_RO_MON_FRESH (all f_RO_MON_VSTRIM 0)
  else 0

/-- The bits of a register that a level keeps: fuses, RWS fields but at power-on, and BP_CTRL.REFBAND at the levels that spare the
memory side. -/
def keptBits (level a : Nat) : Word :=
  let rws : Word := if level = lvPower then 0 else match regRow a with | some r => r.rws | none => 0
  let kept := rws ||| fusedBits a
  if regDomain a = 6 ∧ a % 2 ^ 24 % 0x40 = 0 ∧ lvWarm ≤ level then kept ||| withField f_BP_CTRL_REFBAND 0 1 else kept

/-- Does a reset with a scope clear a register? A core reset of the package clears the dispatcher's registers too (R253). -/
def regCleared (level scope a : Nat) : Bool :=
  let die := a / 2 ^ 32
  if level = lvCore ∧ scope = 0 ∧ die = 0 then a / 2 ^ 24 % 256 == 0x84
  else (scope == 0 || die == scope) && (levelDomains level).contains (regDomain a)

/-- Clears the registers of a level and scope. -/
def clearRegs (level scope : Nat) (s : State) : State :=
  forAll s.regs (fun e s =>
    if regCleared level scope e.1 then putReg s e.1 ((e.2 &&& keptBits level e.1) ||| (regReset e.1 &&& ~~~keptBits level e.1))
    else s) s

/-! ### The logic die and its layers (R85, R173, R280, R343) -/

/-- Clears the memories of a die: DRAM at the levels that lose it, tile and staging memory and the BPs' memories always. -/
def clearDieMem (level : Nat) (d : Stack) (s : State) : State :=
  let s := clearMem (tileKey d 0 0) (16 * 2 ^ 22) s
  let s := clearMem (stagingKey d 0 0) (4 * 2 ^ 23) s
  let s := clearMem (scratchKey d 0 0 0) (2 ^ 16 * (16 * 24)) s
  let s := clearMem (progKey d 0 0 0) (2 ^ 15 * (16 * 24)) s
  if level ≤ lvSystem then initMem (bankKey d 0 0 0) (16 * 2 ^ 31) (initMem (lpKey d 0 0 0) (2 ^ 36) s) else s

/-- Removes the entries of a die from a map with `n` keys for each die. -/
def dropDie {α : Type} (n : Nat) (d : Stack) (m : SMap α) : SMap α := m.filter fun p => decide (p.1 / n ≠ d.val)

/-- Clears what a level clears of a die beside its registers and memories. -/
def clearDieParts (level : Nat) (d : Stack) (s : State) : State :=
  let s := { s with cores := dropDie 16 d s.cores, bps := dropDie 384 d s.bps }
  let s := if level ≤ lvSystem then { s with vcs := dropDie 16 d s.vcs, lps := dropDie 1 d s.lps }
    else updLp d (fun p => { p with groups := [], headers := [] }) (forAll allCores (fun c s => updVc d c (fun v => { v with groups := [] }) s) s)
  if level = lvCore then s
  else { s with
    routers := dropDie 4 d s.routers, dies := dropDie 1 d s.dies, therm := dropDie 1 d s.therm,
    flights := s.flights.filter (fun f => f.die ≠ d.val), crossings := s.crossings.filter (fun f => f.die ≠ d.val),
    flash := s.flash.filter fun m => m.die ≠ d.val }

/-- The beats on their way to the core ports of a die are discarded by a core reset, UNCLAIMED_BEAT (R137). -/
def dropPortBeats (d : Stack) (s : State) : State :=
  forAll allCores (fun c s =>
    let x := getCore s d c
    forAll (x.agenda.filter fun a => match a.act with | .portBeat _ => true | _ => false) (fun a s =>
      routerFault d (clusterOf c) rfUnclaimed (c.val % 4) (a.key / 8 - x.start) s) s) s

/-- A logic die clears the domains of a level. A core reset keeps its fabric domain running (R137). -/
def clearDie (level : Nat) (d : Stack) (s : State) : State :=
  clearDieParts level d (clearDieMem level d (clearRegs level (dieNo d) (if level = lvCore then dropPortBeats d s else s)))

/-! ### The hub -/

/-- Every session that names a graph becomes FREE, and CLOSED is posted to its output ring (R344). -/
def discardSessions (k : Nat) (s : State) : State :=
  forAll (sessSlots s) (fun n s => match getSess s n with
    | some x => if x.graph = k then putSess n none (postSess n seClosed 0 n s) else s
    | none => s) s

/-- The graphs of a partition are unloaded with their sessions (R253, R344). -/
def unloadPart (p : Nat) (s : State) : State :=
  forAll (graphKeys s) (fun k s => match getGraph s k with
    | some g => if g.part = p then unloadGraph k (discardSessions k s) else s
    | none => s) s

/-- A reset of one stack halts its partition and unloads that partition's graphs (R137, R253, R344). One that resets its fabric domain
stops new transit transfers, whether or not the stack belongs to a partition (R30), and its die's objects wait for new values (R242). -/
def haltForReset (d : Stack) (core : Bool) (s : State) : State :=
  let s := if core then s else staleObjs d (updHub (fun h => { h with transitStopped := true }) s)
  match partIndex s d with
  | none => s
  | some p => unloadPart p (reportHalt d cDieReset (if core then floodAbort d cDieReset none s else poisonDie d s))

/-- SEC_ROLLBACK takes the fuses that an interrupted ADVANCE_ROLLBACK has blown (R428). -/
def settleFuses (s : State) : State :=
  match s.sec.advance with
  | some (i, v) => putF r_SEC_ROLLBACK (counterField i) v s
  | none => s

/-- A power-on, system or warm reset of the package clears the hub; the repair log, the stored firmware and VOFFSET lie in
flash, and what a warm reset leaves running is remembered (R375). -/
def clearHub (level : Nat) (s : State) : State :=
  let full := s.bring.full && level == lvWarm
  let s := settleFuses s
  { s with
    hub := { Hub.reset with repairLog := s.hub.repairLog }, svc := Svc.reset, twin := Twin.reset, camner := Camner.reset,
    twinFlits := FlitSide.reset, hubTherm := HubTherm.reset, pins := Pins.reset, topo := [], parts := [], present := [],
    loadedParts := [], bring := { Bring.reset with full := full, warm := level == lvWarm },
    sec := { Sec.reset with copyA := s.sec.copyA, copyB := s.sec.copyB, debugFuses := s.sec.debugFuses, pulse := s.sec.pulse } }

/-- A core reset of the package discards every session and clears the dispatcher, the graphs and the instances (R253, R344). -/
def clearService (s : State) : State :=
  let s := forAll (graphKeys s) (fun k s => unloadGraph k (discardSessions k s)) s
  updSvc (fun v => { v with insts := [], launches := [], loading := [], dolded := [], sincePre := [] }) s

/-! ### Acceptance (R346 to R349) -/

/-- Do two scopes overlap? -/
def scopesMeet (a b : Nat) : Bool := a == 0 || b == 0 || a == b

/-- Does a reset in progress still hold a domain of its scope? -/
def stillHeld (q : RstSeq) (dom : Nat) : Bool := (levelDomains q.level).contains dom && (q.asserted || decide (q.released < dom))

/-- Is a new reset absorbed by those in progress? -/
def absorbed (l : List RstSeq) (level scope : Nat) : Bool :=
  (levelDomains level).all fun dom => (scope ≠ 0 && dom < 3) || l.any fun q => (q.scope == 0 || q.scope == scope) && stillHeld q dom

/-- A reset takes hold: the clears of the package at once; a single stack, and every stack of a core reset, when its die acts. -/
def beginReset (q : RstSeq) (s : State) : State :=
  let dies := if q.scope = 0 then allStacks else allStacks.filter fun d => dieNo d == q.scope
  if q.scope = 0 ∧ q.level ≠ lvCore then
    let s := clearHub q.level (clearRegs q.level 0 s)
    let s := forAll dies (fun d s => clearDieParts q.level d (clearDieMem q.level d s)) s
    updRst (fun r => { r with seqs := [q], recovering := [], failed := [], command := none, trip := r.trip && q.level ≠ lvPower }) s
  else
    let core := q.level == lvCore
    let s := forAll dies (fun d s => haltForReset d core s) s
    let s := if q.scope = 0 then clearService (clearRegs q.level 0 s) else s
    updRst (fun r => { r with seqs := r.seqs ++ [{ q with todo := dies.map (·.val) }] }) s

/-- A reset source is accepted (R348, R349): it waits for the end of a write pulse, is absorbed, or takes hold at the level and
scope that cover it and the resets that it overlaps. -/
def acceptWith (delayed : Bool) (level scope cause : Nat) (latched : Bool) (s : State) : State :=
  if s.sec.pulse.isSome then
    updRst (fun r => { r with waiting := r.waiting ++ [⟨level, scope, cause, true, 0, true, latched, []⟩] }) s
  else
    let meet := s.rst.seqs.filter fun q => scopesMeet q.scope scope
    if !latched && absorbed meet level scope then s
    else
      let lv := meet.foldl (fun m q => min m q.level) level
      let sc := if meet.all fun q => q.scope == scope then scope else 0
      beginReset ⟨lv, sc, cause, true, 0, delayed, latched, []⟩
        (updRst (fun r => { r with seqs := r.seqs.filter fun q => !scopesMeet q.scope scope }) s)

/-- A reset source is accepted. -/
def acceptReset (level scope cause : Nat) (latched : Bool) (s : State) : State := acceptWith false level scope cause latched s

/-- May a program pulse start (R349)? None starts while another runs, or while a reset is delayed or asserted. -/
def mayPulse (s : State) : Bool := s.sec.pulse.isNone && s.rst.waiting.isEmpty && s.rst.seqs.all fun q => !q.asserted

/-- The resets that waited for a write pulse are accepted in their order, with DELAYED set. -/
def acceptWaiting (s : State) : State :=
  let l := s.rst.waiting
  forAll l (fun q s => acceptWith true q.level q.scope q.cause q.latched s) (updRst (fun r => { r with waiting := [] }) s)

/-! ### Sources (R342, R345, R350, R351, R378, R405 to R407, R412) -/

/-- PWR_GOOD is recognised inactive (R412). -/
def execPwrGoodInactive (s : State) : Host.Outcome State Fault Refusal :=
  done (acceptReset lvPower 0 rcPower s.rst.trip (updRst (fun r => { r with pwrBad := true }) s))

/-- PWR_GOOD is recognised active (R412). -/
def execPwrGoodActive (s : State) : Host.Outcome State Fault Refusal := done (updRst (fun r => { r with pwrBad := false }) s)

/-- The reference clock is absent (R342). -/
def execRefclkAbsent (s : State) : Host.Outcome State Fault Refusal :=
  done (acceptReset lvPower 0 rcRefclk s.rst.trip (updRst (fun r => { r with refBad := true }) s))

/-- The reference clock is measured in range for one window (R346). -/
def execRefclkReturn (s : State) : Host.Outcome State Fault Refusal := done (updRst (fun r => { r with refBad := false }) s)

/-- RESET_L is accepted; it clears the thermal-trip latch (R345, R351). -/
def execResetLAccepted (s : State) : Host.Outcome State Fault Refusal :=
  done (acceptReset lvSystem 0 rcPin s.rst.trip (updRst (fun r => { r with pinLow := true, trip := false }) s))

/-- RESET_L is inactive (R346). -/
def execResetLRelease (s : State) : Host.Outcome State Fault Refusal := done (updRst (fun r => { r with pinLow := false }) s)

/-- The watchdog fires when its period has passed without a KICK (R350). `ms`: the hub millisecond. -/
def execWatchdogExpiry (ms : Nat) (s : State) : Host.Outcome State Fault Refusal :=
  let per := max 1 (getF s r_RST_CTRL f_RST_CTRL_WDOG_MS)
  let due := match s.rst.kick with | some t => decide (t + per ≤ ms) | none => true
  if getF s r_RST_CTRL f_RST_CTRL_WDOG_EN == 1 && due then done (acceptReset lvSystem 0 rcWatchdog false s) else done s

/-- Hub firmware writes RST_CTRL.KICK (R350). -/
def execKick (ms : Nat) (s : State) : Host.Outcome State Fault Refusal := done (updRst (fun r => { r with kick := some ms }) s)

/-- A thermal trip sets the latch (R351). -/
def thermalTrip (s : State) : State := acceptReset lvSystem 0 rcThermal false (updRst (fun r => { r with trip := true }) s)

/-- A thermal trip (R351). -/
def execThermalTrip (s : State) : Host.Outcome State Fault Refusal := done (thermalTrip s)

/-- The open debug port applies a reset (R342, R435). A power-on reset always covers the package. -/
def execDebugReset (level : Fin 4) (scope : Option Stack) (s : State) : Host.Outcome State Fault Refusal :=
  if getF s r_SEC_STATUS f_SEC_STATUS_DEBUG_CLOSED = 1 then done s
  else
    let sc := match scope with | some d => if level = 0 then 0 else dieNo d | none => 0
    done (acceptReset level.val sc rcDebug false s)

/-- Conversion stops, and the module is held in power-on reset (R378, R407). -/
def powerLost (rail : Bool) (s : State) : State :=
  acceptReset lvPower 0 rcPower s.rst.trip { s with power := { running := false, railFault := s.power.railFault || rail } }

/-- A rail leaves its window or exceeds its current limit (R378). -/
def execRailFault (s : State) : Host.Outcome State Fault Refusal := done (powerLost true s)

/-- The input is below 38 V for more than 20 µs (R405). -/
def execUndervoltage (s : State) : Host.Outcome State Fault Refusal := done (powerLost false s)

/-- The input is above 62 V for more than 10 µs (R405). -/
def execOvervoltage (s : State) : Host.Outcome State Fault Refusal := done (powerLost false s)

/-- Conversion starts; after a rail fault only once the input has been removed and applied again (R378, R405). The PWR_GOOD
filter starts with PWR_GOOD recognised inactive (R412). -/
def execConversionStart (applied : Bool) (s : State) : Host.Outcome State Fault Refusal :=
  if s.power.running || (s.power.railFault && !applied) then done s
  else done (updRst (fun r => { r with pwrBad := true }) { s with power := ⟨true, false⟩ })

/-- An uncorrectable error of a SEC-DED memory is recorded (R292). One of a die manager makes the hub reset that die; one of the hub is a
fatal escalation, which resets the package. -/
def execDieManagerUe (site : UeSite) (s : State) : Host.Outcome State Fault Refusal :=
  match site with
  | .die d => done (acceptReset lvSystem (dieNo d) rcFatal false (recordErr (.die d) 10 kSramUe 0 0 s))
  | .hub n => done (acceptReset lvSystem 0 rcFatal false (recordErr .package (35 + n.val) kSramUe 0 0 s))

/-! ### RESET_DOMAIN (R321) -/

/-- The level that RESET_DOMAIN's byte 17 names. -/
def commandLevel (n : Nat) : Option Nat := match n with | 1 => some lvSystem | 2 => some lvCore | 3 => some lvWarm | _ => none

/-- RESET_DOMAIN: a die at once; the package 10 µs after the reply. -/
def execResetDomain (s : State) : Host.Outcome State Fault Refusal :=
  if !portRuns s 0x0601 then done s
  else
    let die := pk s 16 1
    match commandLevel (pk s 17 1) with
    | none => refuse stBadParam s
    | some lv =>
      if die = 0 then done (answer stOk 0 (updRst (fun r => { r with command := some lv }) s))
      else if !s.present.contains (die - 1) then refuse stBadParam s
      else done (answer stOk 0 (acceptReset lv die rcCommand false s))

/-- The package reset of an answered RESET_DOMAIN takes effect. -/
def execPackageResetTakesEffect (s : State) : Host.Outcome State Fault Refusal :=
  match s.rst.command with
  | some lv =>
    if portBusy s then done s
    else done (acceptReset lv 0 rcCommand false (updRst (fun r => { r with command := none }) s))
  | none => done s

/-! ### The dies act (R85, R137) -/

/-- Does an accepted reset of some levels wait for a die to clear its domains? -/
def dieDue (ok : Nat → Bool) (d : Stack) (q : RstSeq) : Bool := ok q.level && q.todo.contains d.val

/-- A die clears the domains of the resets that wait for it. -/
def dieActs (ok : Nat → Bool) (d : Stack) (s : State) : State :=
  let l := s.rst.seqs.filter (dieDue ok d)
  let s := forAll l (fun q s => clearDie q.level d s) s
  updRst (fun r => { r with seqs := r.seqs.map fun q => if dieDue ok d q then { q with todo := q.todo.filter (· ≠ d.val) } else q }) s

/-- A core reset of a die clears its cores, BPs and group tables, and tile-memory initialisation starts (R85, R173, R280). -/
def execCoreReset (d : Stack) (s : State) : Host.Outcome State Fault Refusal := done (dieActs (fun l => l == lvCore) d s)

/-- A system or warm reset of one die clears its domains 64 cc after its acceptance (R136, R137). -/
def execDieSystemReset (d : Stack) (s : State) : Host.Outcome State Fault Refusal := done (dieActs (fun l => l != lvCore) d s)

/-! ### Release (R346, R352) -/

/-- The number of a scope. -/
def scopeNo (scope : Option Stack) : Nat := match scope with | some d => dieNo d | none => 0

/-- The reset in progress of a scope. -/
def seqOf (s : State) (scope : Nat) : Option RstSeq := s.rst.seqs.find? fun q => q.scope == scope

/-- Replaces the reset in progress of a scope. -/
def putSeq (q : RstSeq) (s : State) : State := updRst (fun r => { r with seqs := r.seqs.map fun x => if x.scope = q.scope then q else x }) s

/-- The content of RST_CAUSE for a reset (R376). -/
def causeWord (q : RstSeq) : Word :=
  BitVec.ofNat 64 (q.cause % 16 + q.level % 4 * 16 + 256 * (q.scope % 256) + (if q.delayed then 2 ^ 16 else 0) + (if q.latched then 2 ^ 17 else 0))

/-- RST_CAUSE of every die that a reset covers. -/
def writeDieCauses (q : RstSeq) (s : State) : State :=
  forAll allStacks (fun d s => if q.scope = 0 ∨ q.scope = dieNo d then putReg s (r_RST_CAUSE_DIE d) (causeWord q) else s) s

/-- Are all sources that hold a reset of the package inactive? -/
def sourcesQuiet (s : State) : Bool := !s.rst.pwrBad && !s.rst.refBad && !s.rst.pinLow && !s.rst.trip && s.power.running

/-- The assertion of a reset ends (R346). A core reset then writes RST_CAUSE and releases the BPs (R352, R376). -/
def execResetAssertionEnd (scope : Option Stack) (s : State) : Host.Outcome State Fault Refusal :=
  match seqOf s (scopeNo scope) with
  | none => done s
  | some q =>
    if !q.asserted || !q.todo.isEmpty || (q.scope == 0 && !sourcesQuiet s) then done s
    else
      let core := q.level == lvCore
      let q := { q with asserted := false, released := if core then 6 else if q.scope = 0 then 0 else 2 }
      let s := putSeq q s
      done (if core then writeDieCauses q (if q.scope = 0 then putReg s r_RST_CAUSE (causeWord q) else s) else s)

/-- Releases the next domain of a reset: domain `n` follows domain `n - 1`. -/
def release (scope n : Nat) (f : RstSeq → State → State) (s : State) : State :=
  match seqOf s scope with
  | some q => if !q.asserted && q.released + 1 == n then f q (putSeq { q with released := n } s) else s
  | none => s

/-- The hub is released: RST_CAUSE is written, the Camner link runs at the ROM rate, and the identity key pair is derived (R304,
R352, R433). -/
def execHubRelease (s : State) : Host.Outcome State Fault Refusal :=
  done (release 0 1 (fun q s => putF r_CAMNER_STATUS f_CAMNER_STATUS_STATE 2 (putReg s r_RST_CAUSE (causeWord q))) s)

/-- The management ring is released. -/
def execRingRelease (s : State) : Host.Outcome State Fault Refusal := done (release 0 2 (fun _ s => s) s)

/-- The die managers are released, and each stack's RST_CAUSE is written (R376). -/
def execDieManagerRelease (scope : Option Stack) (s : State) : Host.Outcome State Fault Refusal :=
  done (release (scopeNo scope) 3 writeDieCauses s)

/-- The ports of the dies of a reset are isolated for their own die's reset (R136, R352). -/
def isolateAll (q : RstSeq) (s : State) : State :=
  forAll allStacks (fun d s => if q.scope = 0 ∨ q.scope = dieNo d then forAll allPorts (fun p s => isolatePort d p icOwnReset s) s else s) s

/-- The fabric domains are released with every port isolated. -/
def execFabricRelease (scope : Option Stack) (s : State) : Host.Outcome State Fault Refusal :=
  done (release (scopeNo scope) 4 isolateAll s)

/-- The controllers are released. -/
def execControllerRelease (scope : Option Stack) (s : State) : Host.Outcome State Fault Refusal :=
  done (release (scopeNo scope) 5 (fun _ s => s) s)

/-- The DRAM layers and BPs are released. -/
def execDramBpRelease (scope : Option Stack) (s : State) : Host.Outcome State Fault Refusal :=
  done (release (scopeNo scope) 6 (fun _ s => s) s)

/-- The reset is over; the hub brings a stack up again that was reset alone at system or warm level (R353). -/
def endReset (q : RstSeq) (s : State) : State :=
  let s := updRst (fun r => { r with seqs := r.seqs.filter fun x => x.scope ≠ q.scope }) s
  if q.scope = 0 ∨ q.level = lvCore then s
  else updRst (fun r => { r with failed := r.failed.filter (· ≠ q.scope - 1),
                                 recovering := (r.recovering.filter fun x => x.1 ≠ q.scope - 1) ++ [(q.scope - 1, q.level == lvWarm)] }) s

/-- Clusters and cores are released, and initialise their memory (R85). -/
def execCoreRelease (scope : Option Stack) (s : State) : Host.Outcome State Fault Refusal :=
  done (release (scopeNo scope) 7 endReset s)

end Sys2Proof.Machine
end

