-- ==== Sys2Proof/Machine/MgmtCmds.lean ====
section
/-! DEFINITION. The management commands of the port (R321): identity, power caps, scrubbing, retraining, telemetry, memory map and
logs, and the hold-off of message-signalled writes (R323). -/
namespace Sys2Proof.Machine

/-- Is a stack present, by its management die number? -/
def presentDie (s : State) (n : Nat) : Option Stack :=
  match stackIx (n - 1) with | some d => if n ≠ 0 ∧ s.present.contains d.val then some d else none | none => none

/-- IDENTIFY: serial, grade, feature level, firmware version, the first 8 bytes of the package topology hash. -/
def execIdentify (s : State) : Host.Outcome State Fault Refusal :=
  if !portRuns s 0x0101 then done s
  else
    let serial := getF s r_SB_ID f_SB_ID_SERIAL
    let grade := getF s r_SB_ID f_SB_ID_GRADE
    let level := getF s r_SB_ID f_SB_ID_FLEVEL
    done (answer stOk (serial + 2 ^ 64 * grade + 2 ^ 72 * level + 2 ^ 80 * (s.sec.version % 2 ^ 16) +
      2 ^ 128 * (getReg s (r_TOPO_HASH 0)).toNat) s)

/-- The power caps of the present stacks after a change. -/
def capSum (s : State) (mask cap : Nat) : Nat :=
  s.present.foldl (fun n d => n + if mask.testBit d then cap else getF s (r_PWR_CAP d) f_PWR_CAP_CAP) 0

/-- SET_POWER_CAP (R379). -/
def execSetPowerCap (s : State) : Host.Outcome State Fault Refusal :=
  if !portRuns s 0x0204 then done s
  else
    let mask := pk s 16 4
    let cap := pk s 20 2
    if 2 ^ 24 ≤ mask ∨ cap < 40 ∨ 75 < cap ∨ 1509 < capSum s mask cap then refuse stBadParam s
    else done (answer stOk 0 (forAll allStacks (fun d s => if mask.testBit d.val then putF (r_PWR_CAP d) f_PWR_CAP_CAP cap s else s) s))

/-! ### SCRUB_REGION -/

/-- The unit that a block number names: a vault 0x20–0x2F or the LPDDR device 0x30. -/
def blockUnit (b : Nat) : Option (Fin 17) := if h : 0x20 ≤ b ∧ b ≤ 0x30 then some ⟨b - 0x20, by omega⟩ else none

/-- Scrubs one word: counts of corrected and uncorrectable words with the state. -/
def scrubCount (d : Stack) (u : Fin 17) (r : Nat × Nat × State) (a : Nat) : Nat × Nat × State :=
  let (c, b, s) := r
  let s' := scrubWord d u a [] s
  match (uRead d u a [] s).1 with
  | some (_, .corrected) => (c + 1, b, s')
  | some (_, .clean) => (c, b, s')
  | some _ => (c, b + 1, s')
  | none => (c, b, s')

/-- SCRUB_REGION: the words of a region are read as Drizzle reads them, and the counts are reported. -/
def execScrubRegion (s : State) : Host.Outcome State Fault Refusal :=
  if !portRuns s 0x0602 then done s
  else match presentDie s (pk s 16 1), blockUnit (pk s 17 1) with
    | some d, some u =>
      let first := if u.val < 16 then pk s 24 8 else pk s 24 8 * 64
      let len := pk s 32 4
      let top := if u.val < 16 then dramEnd else lpCapacity s d * 64
      if 2 ^ 26 < len ∨ top < first + len then refuse stBadParam s
      else
        let (c, b, s) := (wordsOf first len).foldl (scrubCount d u) (0, 0, s)
        done (answer stOk (c % 2 ^ 32 + 2 ^ 32 * (b % 2 ^ 32)) s)
    | _, _ => refuse stBadParam s

/-! ### RETRAIN -/

/-- What RETRAIN names: an edge port, a vault, an LPDDR channel. -/
inductive RetrainTarget where
  | port (d : Stack) (p : Port)
  | vault (d : Stack) (c : CoreIx)
  | channel (d : Stack) (ch : Fin 8)
  deriving DecidableEq, Repr

/-- The target of a die, a block and a channel. -/
def retrainTarget (s : State) (die blk ch : Nat) : Option RetrainTarget :=
  match presentDie s die with
  | none => none
  | some d =>
    if h : 0x38 ≤ blk ∧ blk < 0x3C then some (.port d ⟨blk - 0x38, by omega⟩)
    else if h : 0x20 ≤ blk ∧ blk < 0x30 then some (.vault d ⟨blk - 0x20, by omega⟩)
    else if h : blk = 0x30 ∧ ch < 8 then some (.channel d ⟨ch, h.2⟩)
    else none

/-- Requests a retraining. -/
def startRetrain (t : RetrainTarget) (s : State) : State :=
  match t with
  | .port d p => requestRetrain d p s
  | .vault d c => vaultRetrain d c s
  | .channel d ch => if lpChanFailed s d ch.val then s else lpFullRetrain d ch.val s

/-- Has a retraining ended? -/
def retrainOver (s : State) (t : RetrainTarget) : Bool :=
  match t with
  | .port d p => !(getDie s d).retrain.contains p.val
  | .vault d c => !(getVc s d c).retrainReq
  | .channel d ch => sget 0 (getLp s d).fullLeft ch.val == 0

/-- The resulting width or state: a link record's width, VC_STATUS.WIDTH, LP_CHAN.STATE. -/
def retrainResult (s : State) (t : RetrainTarget) : Nat :=
  match t with
  | .port d p => if getF s (r_PORT_STATUS d p) f_PORT_STATUS_STATE ≠ psOpen then 0
                 else 2 - getF s (r_PORT_STATUS d p) f_PORT_STATUS_HALF
  | .vault d c => getF s (r_VC_STATUS d c) f_VC_STATUS_WIDTH
  | .channel d ch => getF s (r_LP_CHAN d ch) f_LP_CHAN_STATE

/-- RETRAIN: the retraining is requested; the command ends with it, or with IN_PROGRESS where it has not ended 200 ms after
acceptance (`late`). -/
def execRetrain (late : Bool) (s : State) : Host.Outcome State Fault Refusal :=
  if !portRuns s 0x0603 then done s
  else
    let e := (pk s 16 1, pk s 17 1, pk s 18 1)
    match retrainTarget s e.1 e.2.1 e.2.2 with
    | none => refuse stBadParam s
    | some t =>
      if !s.svc.retrains.contains e then done (startRetrain t (updSvc (fun v => { v with retrains := v.retrains ++ [e] }) s))
      else if retrainOver s t then
        done (answer stOk (retrainResult s t) (updSvc (fun v => { v with retrains := v.retrains.filter (· ≠ e) }) s))
      else if late then done (answer stInProgress 0 s)
      else done s

/-- A retraining that outlived its command ends: RETRAIN_DONE. -/
def execRetrainComplete (n : Nat) (s : State) : Host.Outcome State Fault Refusal :=
  match s.svc.retrains[n]? with
  | none => done s
  | some e => match retrainTarget s e.1 e.2.1 e.2.2 with
    | none => done (updSvc (fun v => { v with retrains := v.retrains.filter (· ≠ e) }) s)
    | some t =>
      if !retrainOver s t || (portRuns s 0x0603 && (pk s 16 1, pk s 17 1, pk s 18 1) == e) then done s
      else done (postEvent evRetrainDone (subj3 e.1 e.2.1 e.2.2) (retrainResult s t)
        (updSvc (fun v => { v with retrains := v.retrains.filter (· ≠ e) }) s))

/-! ### Telemetry, memory map, logs -/

/-- Entries of `n` bytes as one number, the first lowest. -/
def entriesNat (n : Nat) (l : List Nat) : Nat := l.foldr (fun e v => e % 2 ^ (8 * n) + 2 ^ (8 * n) * v) 0

/-- One telemetry record: die, block, channel, 2 bytes each, the FP32 value of a reading in units of 0.125, the round count. -/
def telemetryRecord (s : State) (die blk ch reading : Nat) : Nat :=
  die + 2 ^ 16 * blk + 2 ^ 32 * ch + 2 ^ 64 * (encF32 (.fin false reading (-3))).toNat + 2 ^ 96 * getF s r_HK_ROUND f_HK_ROUND_ROUND

/-- The snapshot (log entry 34): the 56 sensors of every present stack, then the hub's eight. -/
def telemetry (s : State) : List Nat :=
  (s.present.flatMap fun d => (List.range 56).map fun n => telemetryRecord s (d + 1) 0x03 n (getF s (r_SENSOR d n) f_SENSOR_READ)) ++
    (List.range 8).map fun n => telemetryRecord s 0 0x89 n (sget 0 s.hubTherm.reading n)

/-- Writes as many of a list's entries as the block takes; the result is `unit` for each entry written. -/
def writeEntries (size unit : Nat) (l : List Nat) (ok : Bool) (s : State) : Host.Outcome State Fault Refusal :=
  let l := l.take (pkLen s / size)
  if !ok then refuse stParamFault s else done (answer stOk (unit * l.length) (storeBlock (size * l.length) (entriesNat size l) s))

/-- GET_TELEMETRY; `ok`: every STORE of the result is answered OK. -/
def execGetTelemetry (ok : Bool) (s : State) : Host.Outcome State Fault Refusal :=
  if !portRuns s 0x0701 then done s else writeEntries 16 16 (telemetry s) ok s

/-- One entry of the memory map. -/
def mapEntry (addr len kind : Nat) : Nat := addr + 2 ^ 64 * (len % 2 ^ 32) + 2 ^ 96 * kind

/-- The retired areas of a unit (R296): a unit of 2 KiB, a page frame, an LPDDR row's data sectors. -/
def retiredEntries (s : State) (d : Stack) (u : Fin 17) : List Nat :=
  (List.range 64).flatMap fun n =>
    let r := getReg s (uRetireReg d u n)
    if fieldOf f_RETIRE_VALID r = 0 then []
    else if fieldOf f_RETIRE_KIND r = 3 then
      (lpRowSectors s d (fieldOf f_RETIRE_CH r) (fieldOf f_RETIRE_ADDR r)).map fun k => mapEntry (devAddr d u (64 * k)) 64 1
    else [mapEntry (devAddr d u (2048 * fieldOf f_RETIRE_ADDR r)) (if fieldOf f_RETIRE_KIND r = 2 then frameBytes else 2048) 1]

/-- The map of a stack: retired areas, failed channels, half-width vaults, absent cores (log entry 34). -/
def stackMap (s : State) (d : Stack) : List Nat :=
  ((List.finRange 17).flatMap fun u => retiredEntries s d u) ++
    ((List.range 8).filterMap fun ch => if lpChanFailed s d ch then some (mapEntry (devAddr d 16 0) 0 2) else none) ++
    (allCores.filterMap fun c =>
      if !(topoByte s (64 + 16 * d.val + 4 + c.val / 8)).getLsbD (c.val % 8) then some (mapEntry (devAddr d (vaultUnit c) 0) dramEnd 4)
      else
        let w := getF s (r_VC_STATUS d c) f_VC_STATUS_WIDTH
        if w = 1 ∨ w = 2 then some (mapEntry (devAddr d (vaultUnit c) 0) dramEnd 3) else none)

/-- GET_MEMMAP. -/
def execGetMemmap (ok : Bool) (s : State) : Host.Outcome State Fault Refusal :=
  if !portRuns s 0x0702 then done s
  else writeEntries 16 1 ((allStacks.filter fun d => s.present.contains d.val).flatMap (stackMap s)) ok s

/-- GET_LOG: the entries of the repair log or the error log from a start entry on; their bytes are free (log entry 35). -/
def execGetLog (ok : Bool) (s : State) : Host.Outcome State Fault Refusal :=
  if !portRuns s 0x0703 then done s
  else
    let which := pk s 16 1
    let have_ := if which = 0 then s.hub.repairLog.length else s.hub.errLog.length
    let size := Config.logEntryBytes
    let n := min (have_ - pk s 20 4) (pkLen s / size)
    if 1 < which then refuse stBadParam s
    else if !ok then refuse stParamFault s
    else
      let (v, s) := takeFree (n * size) s
      done (answer stOk n (storeBlock (n * size) v s))

/-- The hold-off ends: a suppressed message-signalled write is sent (R323). -/
def execMsiHoldoffExpiry (s : State) : Host.Outcome State Fault Refusal :=
  if !s.hub.msiHold then done s
  else
    let waits := s.hub.msiWait
    let s := updHub (fun h => { h with msiHold := false, msiWait := false }) s
    done (if waits then signalMsi s else s)

end Sys2Proof.Machine
end

