-- ==== Sys2Proof/Machine/Security.lean ====
section
/-! DEFINITION. Firmware, fuses and attestation (R357, R364, R424 to R435). Whether a signature is valid, whether a fuse or a copy
reads back, and what the companion holds come with the command (log entry 29). -/
namespace Sys2Proof.Machine

/-- The state with the firmware and fuses changed. -/
def updSec (f : Sec → Sec) (s : State) : State := { s with sec := f s.sec }

/-! ### Bundles (R429) -/

/-- Bytes of an image up to the next multiple of 16. -/
def imageSpan (i : List Byte) : Nat := 1376 + imPadded i + 2432

/-- The image at the front of the rest of a bundle, in the place of a type: it fits, and an image of another type is out of
order. -/
def imageAt (type : Nat) (b : List Byte) : Option (List Byte) :=
  let n := 1376 + imPadded b + 2420
  if b.length < 1376 ∨ b.length < n then none
  else if leAt b 0 4 == 0x474D4946 && imType b ≠ type then none
  else some (b.take n)

/-- The images of a bundle in the places of some types, none where one is missing or out of order. -/
def imagesFrom : List Nat → List Byte → Option (List (List Byte))
  | [], _ => some []
  | t :: ts, b => match imageAt t b with
    | some i => (imagesFrom ts (b.drop (imageSpan i))).map (i :: ·)
    | none => none

/-- The four images of a bundle of at most 16 MiB. -/
def bundleImages (b : List Byte) : Option (List (List Byte)) := if 2 ^ 24 < b.length then none else imagesFrom [1, 2, 3, 4] b

/-- Image `n` of a bundle. -/
def bundleImage (b : List Byte) (n : Nat) : List Byte := ((bundleImages b).getD []).getD n []

/-! ### Step 2 (R357) -/

/-- How a source fails, if it does: FW_SOURCE, FW_AUTH or FW_ROLLBACK. -/
def sourceFail (s : State) (b : List Byte) (sig1 sig2 : Bool) : Option Nat :=
  match bundleImages b with
  | none => some bcFwSource
  | some l =>
    let f1 := imageFail s [1] sig1 (l.getD 0 [])
    let f2 := imageFail s [2] sig2 (l.getD 1 [])
    if f1 = some false ∨ f2 = some false then some bcFwAuth
    else if f1 = some true ∨ f2 = some true then some bcFwRollback
    else none

/-- The code and the source that a failure of every tried source reports: FW_AUTH before FW_ROLLBACK before FW_SOURCE. -/
def worstSource (fails : List (Nat × Nat)) : Nat × Nat :=
  match fails.find? (·.2 = bcFwAuth), fails.find? (·.2 = bcFwRollback), fails with
  | some f, _, _ => (f.2, f.1)
  | none, some f, _ => (f.2, f.1)
  | none, none, f :: _ => (f.2, f.1)
  | none, none, [] => (bcFwSource, 0)

/-- The lower security version of two images of a bundle. -/
def imagesSvn (b : List Byte) (n m : Nat) : Nat := min (imSvn (bundleImage b n)) (imSvn (bundleImage b m))

/-- Firmware of a source runs. -/
def startFirmware (src : Nat) (b : List Byte) (s : State) : State :=
  let i1 := bundleImage b 0
  let i2 := bundleImage b 1
  let (v, s) := takeFreeNat (2 ^ 16) s
  let s := updSec (fun x => { x with
    bundle := b, install := src == 2 && (leAt i1 8 1).testBit 0, version := v, mhf := sha3 (sha3 i1 ++ sha3 i2),
    hubSvn := some (imagesSvn b 0 1) }) s
  let s := putF r_SEC_STATUS f_SEC_STATUS_HUB_SLOT (imSlot i2) (putF r_SEC_STATUS f_SEC_STATUS_HUB_SVN (imSvn i2)
    (putF r_SEC_STATUS f_SEC_STATUS_BOOT_SRC src s))
  let s := putF r_HUB_CMD_STATUS f_HUB_CMD_STATUS_READY 1 (putF r_RST_CTRL f_RST_CTRL_WDOG_EN 1 s)
  { s with pins := { s.pins with i3c := { s.pins.i3c with enabled := true, ibi := true, hotJoin := true, joined := true } } }

/-- Step 2: copy A and then copy B, or the bundle that the companion holds (none: it cannot be read); `sigs`: which signatures
are valid, stage 1 and 2 of each source in order. -/
def execHubFirmwareLoad (ext : Option (List Byte)) (sigs : List Bool) (s : State) : Host.Outcome State Fault Refusal :=
  if !bringAt s 2 then done s
  else
    let sg := fun n => sigs.getD n false
    if s.bring.src = 1 then
      let b := ext.getD []
      match sourceFail s b (sg 0) (sg 1) with
      | none => done (outcome bcOk 0 0 (startFirmware 2 b s))
      | some c => done (outcome c 0 2 s)
    else match sourceFail s s.sec.copyA (sg 0) (sg 1) with
      | none => done (outcome bcOk 0 0 (putF r_SEC_STATUS f_SEC_STATUS_COPY_A_OK 1 (startFirmware 0 s.sec.copyA s)))
      | some ca => match sourceFail s s.sec.copyB (sg 2) (sg 3) with
        | none => done (outcome bcOk 0 0 (putF r_SEC_STATUS f_SEC_STATUS_COPY_B_OK 1 (startFirmware 1 s.sec.copyB s)))
        | some cb => let w := worstSource [(0, ca), (1, cb)]; done (outcome w.1 0 w.2 s)

/-! ### Step 8 (R364) -/

/-- Step 8: the die-manager firmware and the service programs of the bundle that runs are verified and broadcast; `auth`: both
signatures are valid; the first die whose digest does not match or that does not confirm. -/
def execGale (auth : Bool) (bad : Option Stack) (s : State) : Host.Outcome State Fault Refusal :=
  if !bringAt s 8 then done s
  else
    let die := bundleImage s.sec.bundle 2
    let svc := bundleImage s.sec.bundle 3
    if (imageFail s [3] auth die).isSome || (imageFail s [4] auth svc).isSome then done (outcome bcGaleAuth 0 0 s)
    else match bad with
      | some d => done (outcome bcGaleFail (dieNo d) 0 s)
      | none => done (outcome bcOk 0 0 (updSec (fun x => { x with
          md := sha3 die, ms := sha3 svc, dieSvn := some (imagesSvn s.sec.bundle 2 3) }) s))

/-! ### Install (R431, R432) -/

/-- SEC_STATUS.INSTALL. -/
def installStage (s : State) : Nat := getF s r_SEC_STATUS f_SEC_STATUS_INSTALL

/-- Sets it. -/
def setInstall (n : Nat) (s : State) : State := putF r_SEC_STATUS f_SEC_STATUS_INSTALL n s

/-- The install fails. -/
def failInstall (s : State) : State := setInstall 3 (updSec (fun x => { x with install := false }) s)

/-- The install starts with copy B, and goes on to copy A once B reads back and verifies (`ok`). The first page-program pulse of
each copy starts here (log entry 36). -/
def execInstall (ok : Bool) (s : State) : Host.Outcome State Fault Refusal :=
  if !s.sec.install || !mayPulse s || decide (s.bring.last < 2) then done s
  else if installStage s = 0 then
    done (setInstall 1 (putF r_SEC_STATUS f_SEC_STATUS_COPY_B_OK 0 (updSec (fun x => { x with copyB := [], pulse := some 6 }) s)))
  else if installStage s = 1 then
    if !ok then done (failInstall s)
    else done (setInstall 2 (putF r_SEC_STATUS f_SEC_STATUS_COPY_A_OK 0 (putF r_SEC_STATUS f_SEC_STATUS_COPY_B_OK 1
      (updSec (fun x => { x with copyB := x.bundle, copyA := [], pulse := some 6 }) s))))
  else done s

/-- The install ends: copy A reads back and verifies, or not. -/
def execInstallComplete (ok : Bool) (s : State) : Host.Outcome State Fault Refusal :=
  if !s.sec.install || s.sec.pulse.isSome || installStage s ≠ 2 then done s
  else if !ok then done (failInstall s)
  else done (setInstall 0 (putF r_SEC_STATUS f_SEC_STATUS_COPY_A_OK 1 (updSec (fun x => { x with copyA := x.bundle, install := false }) s)))

/-! ### Fuses (R428, R435) -/

/-- A program pulse starts. -/
def startPulse (n : Nat) (s : State) : State := updSec (fun x => { x with pulse := some n }) s

/-- Largest value of a counter. -/
def counterMax (i : Nat) : Nat := if i < 3 then 64 else 3

/-- Fuses of a counter that are blown: SEC_ROLLBACK follows at the end of the command. -/
def fusedValue (s : State) (i : Nat) : Nat :=
  match s.sec.advance with
  | some (j, v) => if i = j then v else rollback s i
  | none => rollback s i

/-- The checks of R428: may a counter rise to a value? -/
def advanceOk (s : State) (i v : Nat) : Bool :=
  let gs := (graphKeys s).filterMap (getGraph s)
  let below := fun (o : Option Nat) => match o with | some n => decide (v ≤ n) | none => true
  decide (i ≤ 4) && decide (v ≤ counterMax i) && decide (v ≤ rollback s i + 8) &&
    match i with
    | 0 => below s.sec.hubSvn
    | 1 => below s.sec.dieSvn
    | 2 => !gs.isEmpty && gs.all fun g => decide (v ≤ g.svn)
    | 3 => decide (v ≤ getF s r_SEC_STATUS f_SEC_STATUS_HUB_SLOT)
    | _ => gs.all fun g => decide (g.keySlot < 4) || decide (v + 4 ≤ g.keySlot)

/-- ADVANCE_ROLLBACK ends: the register takes the fused value, which is also the result. -/
def endAdvance (status i : Nat) (s : State) : State :=
  let v := fusedValue s i
  answer status v (updSec (fun x => { x with advance := none }) (putF r_SEC_ROLLBACK (counterField i) v s))

/-- ADVANCE_ROLLBACK (R428): one fuse for each program pulse, up to the value. -/
def execAdvanceRollback (s : State) : Host.Outcome State Fault Refusal :=
  if !portRuns s 0x0105 then done s
  else
    let i := pk s 16 1
    let v := pk s 20 4
    if s.sec.advance.isNone && !advanceOk s i v then refuse stBadParam s
    else if s.sec.pulse.isSome then done s
    else if v ≤ fusedValue s i then done (endAdvance stOk i s)
    else if !mayPulse s then done s
    else done (startPulse i (updSec (fun x => { x with advance := some (i, fusedValue s i) }) s))

/-- CLOSE_DEBUG (R435): the three DEBUG_CLOSE fuses, one for each pulse. -/
def execCloseDebug (s : State) : Host.Outcome State Fault Refusal :=
  if !portRuns s 0x0104 then done s
  else if pk s 16 4 ≠ 0xDEB0C105 then refuse stBadParam s
  else if s.sec.pulse.isSome then done s
  else if 3 ≤ s.sec.debugFuses then done (answer stOk 0 s)
  else if !mayPulse s then done s
  else done (startPulse 5 s)

/-- What the end of a pulse leaves: a fuse that reads back as blown counts, another ends the command with FUSE_FAIL. -/
def pulseResult (p : Nat) (ok : Bool) (s : State) : State :=
  if p = 6 then s
  else if p = 5 then
    if !ok then (if portRuns s 0x0104 then answer stFuseFail 0 s else s)
    else
      let n := s.sec.debugFuses + 1
      putF r_SEC_STATUS f_SEC_STATUS_DEBUG_CLOSED (if 2 ≤ n then 1 else 0) (updSec (fun x => { x with debugFuses := n }) s)
  else if ok then updSec (fun x => { x with advance := some (p, fusedValue s p + 1) }) s
  else if portRuns s 0x0105 then endAdvance stFuseFail p s else s

/-- A program pulse ends; resets that waited for it are accepted (R349). -/
def execWritePulseEnd (ok : Bool) (s : State) : Host.Outcome State Fault Refusal :=
  match s.sec.pulse with
  | none => done s
  | some p => done (acceptWaiting (updSec (fun x => { x with pulse := none }) (pulseResult p ok s)))

/-! ### Identity and attestation (R433, R434) -/

/-- GET_ID_KEY; `ok`: every STORE of the key is answered OK. -/
def execGetIdKey (ok : Bool) (s : State) : Host.Outcome State Fault Refusal :=
  if !portRuns s 0x0102 then done s
  else if !ok then refuse stParamFault s
  else done (answer stOk 0 (storeBlock 1312 (leNat ((List.range 1312).map Config.idKey)) s))

/-- A graph put in its place in a list that rises by handle. -/
def insertGraph (g : Graph) : List Graph → List Graph
  | [] => [g]
  | h :: l => if g.handle ≤ h.handle then g :: h :: l else h :: insertGraph g l

/-- The loaded graphs in the order of their handles. -/
def graphsByHandle (s : State) : List Graph := ((graphKeys s).filterMap (getGraph s)).foldr insertGraph []

/-- Zero bytes. -/
def zeroBytes (n : Nat) : List Byte := List.replicate n 0

/-- An entry of the report: handle, partition, whether the weight measurement is present, measurements. -/
def attestEntry (weights : Bool) (g : Graph) : List Byte :=
  natBytes 2 g.handle ++ natBytes 1 g.part ++ natBytes 1 (if weights then 1 else 0) ++ zeroBytes 28 ++ g.measure ++
    (if weights then g.wmeasure else noHash)

/-- The report without its signature. -/
def attestBody (s : State) : List Byte :=
  let gs := graphsByHandle s
  let weights := pkFlag s 4
  let flags := getF s r_SEC_STATUS f_SEC_STATUS_DEBUG_CLOSED + (if weights then 2 else 0) +
    (if getF s r_SEC_STATUS f_SEC_STATUS_BOOT_SRC = 2 then 4 else 0)
  natBytes 4 0x54535441 ++ natBytes 2 1 ++ natBytes 2 gs.length ++ natBytes 4 (2676 + 96 * gs.length) ++
    natBytes 1 (getF s r_SB_ID f_SB_ID_GRADE) ++ natBytes 1 (getF s r_SB_ID f_SB_ID_FLEVEL) ++ natBytes 1 flags ++ zeroBytes 1 ++
    natBytes 8 (getF s r_SB_ID f_SB_ID_SERIAL) ++ (List.range 5).flatMap (fun i => natBytes 1 (rollback s i)) ++ zeroBytes 3 ++
    natBytes 32 (pk s 16 32) ++ s.sec.mhf ++ s.sec.md ++ s.sec.ms ++
    (List.range 4).flatMap (fun w => natBytes 8 (getReg s (r_TOPO_HASH w)).toNat) ++ zeroBytes 64 ++ gs.flatMap (attestEntry weights)

/-- ATTEST; `ok`: every STORE of the report is answered OK. -/
def execAttest (ok : Bool) (s : State) : Host.Outcome State Fault Refusal :=
  if !portRuns s 0x0103 then done s
  else if !ok then refuse stParamFault s
  else
    let b := attestBody s
    let r := b ++ (List.range 2420).map (Config.attestSig b)
    done (answer stOk r.length (storeBlock r.length (leNat r) s))

end Sys2Proof.Machine
end

