-- ==== Sys2Proof/Machine/Twin.lean ====
section
/-! DEFINITION. Twin pairing (R325 to R340): link, heartbeats and loss, modes, the receiving half of the mirror, failover, detach
and resynchronisation. -/
namespace Sys2Proof.Machine

/-- Sets a field of TWIN_STATUS. -/
def setTwinF (f : Fld) (n : Nat) (s : State) : State := putF r_TWIN_STATUS f n s

/-! ### Loss (R333) -/

/-- A session mirrors no more. -/
def unmirror (x : Sess) : Sess := { x with mir := .unmirrored, unacked := none, copyLeft := [] }

/-- Every session of this module mirrors no more, and a resynchronisation ends. -/
def unmirrorAll (s : State) : State :=
  updTwin (fun t => { t with resync := none }) (forAll (sessSlots s) (fun n s => updSess n unmirror s) s)

/-- The twin is declared lost: LOST, TWIN_LOST with the missed heartbeats, and mirroring stops until RESYNC_TWIN; held sessions
stay. -/
def declareLost (s : State) : State :=
  let s := raiseAlert alTwinLost (postEvent evTwinLost 0 s.twin.missed (setTwinF f_TWIN_STATUS_LOST 1 s))
  unmirrorAll (updTwin (fun t => { t with stopped := true }) s)

/-- The twin link goes down. -/
def twinLinkDown (s : State) : State := setTwinF f_TWIN_STATUS_LINK 0 s

/-- Is TWIN_PRESENT recognised active, or masked (R414)? -/
def twinPresent (s : State) : Bool := s.pins.present.active || s.pins.present.masked

/-- An attempt to train the twin link ends; the hub trains it from step Ready on while TWIN_PRESENT is active (R325). -/
def execTwinLinkTrainRetry (ok : Bool) (s : State) : Host.Outcome State Fault Refusal :=
  if twinUp s || !twinPresent s || decide (s.bring.last < 14) then done s
  else if !ok then done (twinLinkDown s)
  else done { setTwinF f_TWIN_STATUS_LINK 2 s with twinFlits := FlitSide.reset }

/-! ### Heartbeats (R326, R333) -/

/-- A heartbeat is sent while the link is up. -/
def execHeartbeatSend (s : State) : Host.Outcome State Fault Refusal :=
  if !twinUp s then done s
  else
    let n := s.twin.hbSeq
    let a := n % 2 ^ 16 + 2 ^ 16 * twinMode s + 2 ^ 18 * getF s r_SB_ID f_SB_ID_FLEVEL + 2 ^ 26 * (s.twin.ackedSeq % 2 ^ 32)
    done (sendTwin (.heartbeat a) (updTwin (fun t => { t with hbSeq := (n + 1) % 2 ^ 16 }) s))

/-- A heartbeat arrives: mode, feature level. -/
def heartbeatIn (mode flevel : Nat) (s : State) : State :=
  let s := bumpF r_TWIN_STATUS f_TWIN_STATUS_HB_RX 1 (setTwinF f_TWIN_STATUS_PEER_FLEVEL flevel (setTwinF f_TWIN_STATUS_PEER_MODE mode s))
  updTwin (fun t => { t with missed := 0 }) s

/-- A heartbeat arrives over the link. Its sequence number and the mirror sequence that it acknowledges change nothing: MIR_ACK
releases commit records (R332). -/
def execHeartbeat (_seq : BitVec 16) (mode : Fin 3) (flevel : Byte) (_ack : BitVec 32) (s : State) : Host.Outcome State Fault Refusal :=
  if !twinUp s then done s else done (heartbeatIn mode.val flevel.toNat s)

/-- A heartbeat fails to arrive; HB_MISS in a row declare the twin lost. In mode Off heartbeats are checked only while the link is
up (R327). -/
def execHeartbeatMiss (s : State) : Host.Outcome State Fault Refusal :=
  if twinMode s = 0 ∧ !twinUp s then done s
  else
    let n := s.twin.missed + 1
    let s := updTwin (fun t => { t with missed := n }) s
    done (if n = max 1 (getF s r_TWIN_CTRL f_TWIN_CTRL_HB_MISS) then declareLost s else s)

/-! ### Held sessions (R330, R331) -/

/-- Does this module receive and hold the twin's mirror now (R327, R334)? -/
def mirAccepts (s : State) : Bool := twinUp s && twinMode s ≠ 0 && !s.twin.promoted

/-- A session held in a slot. -/
def getHeld (s : State) (slot : Nat) : Option Held := sget none s.twin.held slot

/-- Sets or frees it. -/
def putHeld (slot : Nat) (h : Option Held) (s : State) : State := updTwin (fun t => { t with held := sput none t.held slot h }) s

/-- The slot of the held session with an id. -/
def findHeld (s : State) (sid : Nat) : Option Nat :=
  (s.twin.held.find? fun p => match p.2 with | some h => h.sess.sid == sid | none => false).map (·.1)

/-- A held session is discarded with its pages. -/
def discardHeld (slot : Nat) (s : State) : State :=
  match getHeld s slot with
  | none => s
  | some h =>
    let k := h.sess.graph
    let s := releaseFrom k slot 0 (h.sess.state == .pinned) s
    putHeld slot none (framesFreed k (reclaimTents k slot (fixRoots k slot s)))

/-- The receiver stops holding a session, and counts it. -/
def dropHeld (slot : Nat) (s : State) : State := satF r_TWIN_MIRROR f_TWIN_MIRROR_DROPPED 1 (discardHeld slot s)

/-- The graph that serves the twin's sessions of a handle: the lowest valid entry of TWIN_GMAP names it (R328). -/
def mappedGraph (s : State) (handle : Nat) : Option Nat :=
  match (List.range 16).find? fun n => getF s (r_TWIN_GMAP n) f_TWIN_GMAP_VALID == 1 && getF s (r_TWIN_GMAP n) f_TWIN_GMAP_PEER == handle with
  | some n => findGraph s (getF s (r_TWIN_GMAP n) f_TWIN_GMAP_LOCAL)
  | none => none

/-- A session is held in a free slot with an empty root block; without a free slot it is dropped. -/
def holdSess (g : Graph) (x : Sess) (inStep : Bool) (s : State) : State :=
  match freeSlotNo s with
  | none => satF r_TWIN_MIRROR f_TWIN_MIRROR_DROPPED 1 s
  | some n => clearRoot g n (putHeld n (some ⟨x, inStep, 0⟩) s)

/-- The state without the held session of an id. -/
def forgetSid (sid : Nat) (s : State) : State := match findHeld s sid with | some n => discardHeld n s | none => s

/-- A mirrored OPEN: a new session is held; `how` says whether it is being resynchronised and PINNED (log entry 25). -/
def heldOpen (sid handle prio flags sampler inRing outRing inCons how : Nat) (s : State) : State :=
  let s := forgetSid sid s
  match mappedGraph s handle with
  | none => satF r_TWIN_MIRROR f_TWIN_MIRROR_UNMAPPED 1 s
  | some k => match getGraph s k with
    | none => satF r_TWIN_MIRROR f_TWIN_MIRROR_UNMAPPED 1 s
    | some g =>
      let x := newSess sid (if how = 2 then .pinned else .active) prio flags k g.part 0 sampler inRing outRing
      holdSess g { x with inCons := inCons } (how == 0) s

/-- A mirrored FORK: the child shares its parent's pages here (R330). A child whose parent is not held, or whose pins would run
out, is not held. -/
def heldFork (parent sid f : Nat) (pin : Bool) (inRing outRing : Nat) (s : State) : State :=
  let wasIn := match findHeld s sid with | some n => (getHeld s n).any (·.inStep) | none => true
  let s := forgetSid sid s
  match findHeld s parent with
  | none => s
  | some p => match getHeld s p with
    | none => s
    | some h => match getGraph s h.sess.graph with
      | none => s
      | some g =>
        let x := newSess sid (if pin then .pinned else .active) h.sess.prio (h.sess.flags &&& 3) h.sess.graph g.part f h.sess.sampler inRing outRing
        if pin && pinsFull s g p f then satF r_TWIN_MIRROR f_TWIN_MIRROR_DROPPED 1 s
        else
          let s := holdSess g { x with parent := parent, forkPos := f, pin := pin, draft := forkDraft h.sess f, dropped := lossBelow h.sess f }
            (h.inStep && wasIn) s
          match findHeld s sid with
          | none => s
          | some n =>
            let s := sharePages h.sess.graph p n g sid f pin s
            rootDsb g n { x with cpos := f } s

/-- A mirrored TRUNCATE. -/
def heldTruncate (sid t : Nat) (s : State) : State :=
  match findHeld s sid with
  | none => s
  | some n => match getHeld s n with
    | none => s
    | some h => match getGraph s h.sess.graph with
      | none => s
      | some g =>
        let k := h.sess.graph
        let s := reclaimTents k n (fixRoots k n (releaseFrom k n t false s))
        let x := { h.sess with cpos := t, bucket := bucketOf t, dropped := lossBelow h.sess t,
                               draft := h.sess.draft.filter fun e => decide (e.1 < t) }
        let s := rootDsb g n x s
        framesFreed k (putHeld n (some { h with sess := x, dsb := readDsb s g n }) s)

/-- The receiver applies one session operation (R330). -/
def applyMirOp (op : MirOp) (s : State) : State :=
  match op with
  | .openS sid handle prio flags sampler inR outR c how => heldOpen sid handle prio flags sampler inR outR c how s
  | .fork parent sid f pin inR outR => heldFork parent sid f pin inR outR s
  | .truncate sid t => heldTruncate sid t s
  | .setS sid prio sampler => match findHeld s sid with
    | some n => updAny n (fun x => { x with prio := prio, sampler := sampler }) s
    | none => s
  | .close sid => forgetSid sid s

/-- A session operation arrives. `_slot` is the sender's slot; the receiver chooses its own (R331). -/
def execMirOp (_slot : Fin 4096) (op : MirOp) (s : State) : Host.Outcome State Fault Refusal :=
  if !mirAccepts s then done s else done (applyMirOp op s)

/-! ### Bursts (R330, R332) -/

/-- Acknowledges a burst. -/
def ackBurst (seq : Nat) (s : State) : State := sendTwin (.mirAck seq) (updTwin (fun t => { t with ackedSeq := seq }) s)

/-- A burst opens. One for a session that is not held is acknowledged at once. -/
def burstOpen (sid gen old new seq : Nat) (s : State) : State :=
  match findHeld s sid with
  | none => ackBurst seq (updTwin (fun t => { t with burst := none }) s)
  | some _ => updTwin (fun t => { t with burst := some ⟨sid, gen, old, new, seq, []⟩ }) s

/-- A burst opens. -/
def execMirBegin (sid : Word) (gen old new : BitVec 32) (seq : Word) (s : State) : Host.Outcome State Fault Refusal :=
  if !mirAccepts s then done s else done (burstOpen sid.toNat gen.toNat old.toNat new.toNat seq.toNat s)

/-- Bytes of a burst arrive. -/
def burstData (addr len data : Nat) (s : State) : State :=
  match s.twin.burst with
  | some b => updTwin (fun t => { t with burst := some { b with data := b.data ++ [(addr, len, data)] } }) s
  | none => s

/-- Bytes of a burst arrive; they reach the frames when the burst closes, so that an incomplete burst can be discarded (R334). -/
def execMirData (addr : BitVec 48) (len : Fin 257) (data : BitVec 2048) (s : State) : Host.Outcome State Fault Refusal :=
  if !mirAccepts s then done s else done (burstData addr.toNat len.val (data.toNat % 2 ^ (8 * len.val)) s)

/-- The page of a held session at an index, its own: a shared page is copied first (R190), a missing one is allocated (R194). -/
def heldPage (k slot sid l h idx : Nat) (s : State) : Option (Nat × Nat × State) :=
  match getGraph s k with
  | none => none
  | some g =>
    let find := fun (s : State) => (sessPages s g slot).find? fun p => heIdx p.2 == idx && heLayer p.2 == l && heGroup p.2 == h
    let fresh := fun (s : State) => match allocFor k slot sid l h idx s with
      | some s => match getGraph s k with
        | some _ => (find s).map fun p => (p.1, heId p.2 % 2 ^ 18, s)
        | none => none
      | none => none
    match find s with
    | none => fresh s
    | some (e, w) =>
      let sl := heId w % 2 ^ 18
      let n := slRef (slotPeek s g e sl)
      if n ≤ 1 then some (e, sl, s)
      else
        let img := framePeek s g e sl 0 0x11C00
        let st := pageState s g e sl
        match fresh (setRef g e sl (n - 1) (setHome k e slot g ((homeList s g e slot).2.filter (· ≠ w)) s)) with
        | none => none
        | some (e', sl', s) =>
          let s := frameWrite g e' sl' oState 8 (st - 4096 * pgPins st) (frameWrite g e' sl' 0 0x11C00 img s)
          some (e', sl', s)

/-- Writes bytes of a burst into a page. A state beat leaves the page its own ID, counts and tentative map; a coarse summary also
goes to the index (R183, R188). -/
def heldWrite (g : Graph) (e sl off len data : Nat) (s : State) : State :=
  if off = oState then
    let w := pageState s g e sl
    let v := data % 2 ^ 64
    frameWrite g e sl oBase 4 (bits data 319 288) (frameWrite g e sl oState 8 (v - 4096 * pgPins v + 4096 * pgPins w) s)
  else
    let s := frameWrite g e sl off len data s
    if 0x11400 ≤ off ∧ off < 0x11C00 then
      let o := 2048 * sl + (off - 0x11400)
      let s := grpWrite (nearGrp g e) (g.place.index + o) len data s
      if g.ridx = 2 then grpWrite (nearGrp g (g.place.partner.getD e e)) (g.place.index2 + o) len data s else s
    else s

/-- An entry of a draft ring at a position. -/
def draftPut (pos v : Nat) (x : Sess) : Sess := { x with draft := x.draft.filter (fun e => e.1 ≠ pos) ++ [(pos, v)] }

/-- Writes one message's bytes for a held session; none where no frame is free. The position of a draft-ring entry is the first from
`old`, where the commit began, with the 17 bits that its address gives. -/
def heldBytes (k slot sid old : Nat) (s : State) (m : Nat × Nat × Nat) : Option State :=
  let (a, len, data) := m
  if a.testBit 47 then some (updAny slot (draftPut (old + (bits a 16 0 + 2 ^ 17 - old % 2 ^ 17) % 2 ^ 17) data) s)
  else match heldPage k slot sid (bits a 42 36) (bits a 46 43) (bits a 35 17) s with
    | some (e, sl, s) => (getGraph s k).map fun g => heldWrite g e sl (bits a 16 0) len data s
    | none => none

/-- A closed burst is written: frames, roots, the DSB in every core; the session is IN_STEP after a commit, and a PINNED one after
its copy (R330, R338, log entry 37). -/
def writeBurst (b : Burst) (slot dsb : Nat) (h : Held) (s : State) : State :=
  let k := h.sess.graph
  match b.data.foldl (fun (r : Option State) m => r.bind fun s => heldBytes k slot b.sid b.old s m) (some s) with
  | none => dropHeld slot s
  | some s => match getGraph s k with
    | none => dropHeld slot s
    | some g =>
      let s := writeDsb g slot dsb (reclaimTents k slot (fixRoots k slot s))
      match getHeld s slot with
      | none => s
      | some h =>
        let x := { h.sess with cpos := b.new, bucket := bucketOf b.new, mirPos := b.new, mirSeq := b.seq,
                               draft := h.sess.draft.filter fun e => (ringPositions b.new).contains e.1 }
        putHeld slot (some { h with sess := x, dsb := dsb, inStep := h.inStep || decide (b.old < b.new) || h.sess.state == .pinned }) s

/-- The burst closes. -/
def burstClose (dsb : Nat) (s : State) : State :=
  match s.twin.burst with
  | none => s
  | some b =>
    let s := updTwin (fun t => { t with burst := none }) s
    match findHeld s b.sid with
    | none => ackBurst b.seq s
    | some n => match getHeld s n with
      | some h => ackBurst b.seq (writeBurst b n dsb h s)
      | none => ackBurst b.seq s

/-- The burst closes with the DSB, and MIR_ACK is sent. -/
def execMirEnd (dsb : BitVec 2048) (s : State) : Host.Outcome State Fault Refusal :=
  if !mirAccepts s then done s else done (burstClose dsb.toNat s)

/-- A mirror sequence is acknowledged: the commit record that waited for it may be processed; a PINNED session whose copy it covers
is IN_STEP. -/
def ackIn (seq : Nat) (s : State) : State :=
  checkSynced (forAll (sessSlots s) (fun n s => updSess n (fun x =>
    if x.unacked ≠ some seq then x
    else { x with unacked := none, mir := if x.mir = .building ∧ x.state = .pinned ∧ x.copyLeft = [] then .inStep else x.mir }) s) s)

/-- MIR_ACK arrives (R332). -/
def execMirAck (seq : Word) (s : State) : Host.Outcome State Fault Refusal := if !twinUp s then done s else done (ackIn seq.toNat s)

/-- Every held session is discarded. -/
def discardAll (s : State) : State :=
  updTwin (fun t => { t with burst := none }) (forAll (s.twin.held.map (·.1)) discardHeld s)

/-- MIR_STOP arrives (R326); a promoted module holds none. -/
def execMirStop (s : State) : Host.Outcome State Fault Refusal := if !twinUp s then done s else done (discardAll s)

/-- FENCE arrives: this module mirrors no more until a system reset (R335). -/
def fenceIn (s : State) : State := unmirrorAll (setTwinF f_TWIN_STATUS_FENCED 1 s)

/-- FENCE arrives; its number of promoted sessions changes nothing here. -/
def execFence (_n : BitVec 32) (s : State) : Host.Outcome State Fault Refusal := if !twinUp s then done s else done (fenceIn s)

/-- DETACH arrives from the twin (R336). -/
def execTwinDetachMsg (s : State) : Host.Outcome State Fault Refusal :=
  if !twinUp s then done s else done (setTwinF f_TWIN_STATUS_PEER_DETACHED 1 s)

/-! ### Commands of the companion -/

/-- PAIR_TWIN (R328). -/
def execPairTwin (s : State) : Host.Outcome State Fault Refusal :=
  if !portRuns s 0x0501 then done s
  else if !twinPresent s || !twinUp s then refuse stTwinAbsent s
  else
    let lv := twinF s f_TWIN_STATUS_PEER_FLEVEL
    if twinF s f_TWIN_STATUS_HB_RX = 0 ∨ lv ≠ getF s r_SB_ID f_SB_ID_FLEVEL then refuse stTwinMismatch s
    else done (answer stOk lv (setTwinF f_TWIN_STATUS_PAIRED 1 s))

/-- Has this module detached or been fenced? -/
def twinGone (s : State) : Bool := twinF s f_TWIN_STATUS_DETACHED == 1 || twinF s f_TWIN_STATUS_FENCED == 1

/-- SET_TWIN_MODE (R327). -/
def execSetTwinMode (s : State) : Host.Outcome State Fault Refusal :=
  if !portRuns s 0x0505 then done s
  else
    let m := pk s 16 1
    if 2 < m then refuse stBadParam s
    else if !twinUp s then refuse stTwinAbsent s
    else if twinF s f_TWIN_STATUS_PAIRED = 0 ∨ twinGone s then refuse stBadState s
    else
      let s := if twinMode s = 1 ∧ m ≠ 1 then unmirrorAll (sendTwin .mirStop s) else s
      done (answer stOk 0 (putF r_TWIN_CTRL f_TWIN_CTRL_MODE m s))

/-- The FULL pages of a session in page-index order: NEAR entry and home entry. -/
def fullPages (s : State) (g : Graph) (slot : Nat) : List (Nat × Nat) :=
  let l := (sessPages s g slot).filter fun p => pgState (pageState s g p.1 (heId p.2 % 2 ^ 18)) == 2
  (List.range ((l.foldl (fun n p => max n (heIdx p.2)) 0) + 1)).flatMap fun i => l.filter fun p => heIdx p.2 == i

/-- RESYNC_TWIN marks a session BUILDING, with its copy still to be sent, and sends its OPEN (R337). -/
def markBuilding (slot : Nat) (s : State) : State :=
  match getSess s slot with
  | none => s
  | some x => match getGraph s x.graph with
    | none => s
    | some g =>
      let ids := (fullPages s g slot).map fun p => heId p.2
      let s := updSess slot (fun x => { x with mir := .building, unacked := none, copyLeft := if ids.isEmpty then [noPage] else ids }) s
      sendTwin (.mirOp slot (.openS x.sid g.handle x.prio x.flags x.sampler x.inRing x.outRing x.inCons (if x.state = .pinned then 2 else 1))) s

/-- RESYNC_TWIN. -/
def execResyncTwin (s : State) : Host.Outcome State Fault Refusal :=
  if !portRuns s 0x0502 then done s
  else if !twinUp s then refuse stTwinAbsent s
  else if twinMode s ≠ 1 ∨ !peerHolds s ∨ twinGone s then refuse stBadState s
  else
    let l := (sessSlots s).filter fun n => match getSess s n with | some x => x.flags.testBit 0 | none => false
    let s := updTwin (fun t => { t with stopped := false, resync := some l.length }) s
    done (answer stOk l.length (checkSynced (forAll l markBuilding s)))

/-- The slot of a fork child's parent, where the twin holds it already. -/
def heldParent (s : State) (x : Sess) : Option Nat :=
  if x.parent = 0 then none
  else match findSess s x.parent with
    | some p => match getSess s p with
      | some y => if y.mir = .inStep ∨ (y.mir = .building ∧ y.copyLeft = []) then some p else none
      | none => none
    | none => none

/-- The copy of one session: its FULL pages, or a FORK and those that differ from its parent's (R338). -/
def sendCopy (slot : Nat) (s : State) : State :=
  match getSess s slot with
  | none => s
  | some x => match getGraph s x.graph with
    | none => s
    | some g =>
      let p := heldParent s x
      let theirs : List Nat := match p with | some n => (sessPages s g n).map (·.2) | none => []
      let l := (fullPages s g slot).filter fun q => !theirs.contains q.2
      let s := match p with
        | some _ => sendTwin (.mirOp slot (.fork x.parent x.sid x.forkPos (x.state == .pinned) x.inRing x.outRing)) s
        | none => s
      let dsb := readDsb s g slot
      let seq := s.twin.nextSeq + 1
      let s := updTwin (fun t => { t with nextSeq := seq }) s
      let s := sendTwin (.mirBegin x.sid (bits dsb 127 96) x.cpos x.cpos seq) s
      let s := forAll l (fun q s =>
        sendPage g q.1 (heId q.2 % 2 ^ 18) (heLayer q.2) (heGroup q.2) (heIdx q.2) (posParts g 0 128 ++ stateBeat ++ keyOffsets ++ summaryPart) s) s
      updSess slot (fun x => { x with copyLeft := [], unacked := some seq }) (sendTwin (.mirEnd dsb) s)

/-- The next session of the background copy: PINNED first, then the lowest slot; a fork's child once its fork task has ended. -/
def nextCopy (s : State) : Option Nat :=
  let l := (sessSlots s).filter fun n => match getSess s n with
    | some x => x.mir == .building && x.copyLeft ≠ [] && x.state ≠ .forking
    | none => false
  match l.find? fun n => match getSess s n with | some x => x.state == .pinned | none => false with
  | some n => some n
  | none => l.head?

/-- The background copy goes on with its next session. -/
def execBackgroundCopy (s : State) : Host.Outcome State Fault Refusal :=
  if !mirActive s then done s
  else match nextCopy s with
    | some n => done (sendCopy n s)
    | none => done s

/-- The ring lines that the companion holds for a promoted session: the output ring goes on from its producer index, and input
records are read from the consumed index on. -/
def readLines (lines : List (Fin 8192 × BitVec 32 × BitVec 32)) (x : Sess) (s : State) : State :=
  let line := fun n => (lines.find? fun l => l.1.val == n).map fun l => (l.2.1.toNat, l.2.2.toNat)
  let s := match getRing s x.inRing, line x.inRing with
    | some r, some (p, _) => putRing x.inRing (some { r with prod := p, cons := x.inCons, read := x.inCons }) s
    | _, _ => s
  match getRing s x.outRing, line x.outRing with
  | some r, some (p, c) => putRing x.outRing (some { r with prod := p, cons := c }) s
  | _, _ => s

/-- Promotes one held session (R334); one that is not IN_STEP is discarded and counted. -/
def promote (lines : List (Fin 8192 × BitVec 32 × BitVec 32)) (slot : Nat) (s : State) : State :=
  match getHeld s slot with
  | none => s
  | some h =>
    if !h.inStep then dropHeld slot s
    else match getGraph s h.sess.graph with
      | none => dropHeld slot s
      | some g =>
        let cpos := if h.dsb = 0 then h.sess.cpos else bits h.dsb 95 64
        let s := readLines lines h.sess s
        let outProd := match getRing s h.sess.outRing with | some r => r.prod | none => 0
        let x := { h.sess with cpos := cpos, bucket := bucketOf cpos, ptroot := rootAddr s g slot, outProd := outProd,
                               wasPinned := h.sess.state == .pinned }
        let s := putSess slot (some x) (putHeld slot none s)
        let s := updSess slot (fun y => { y with frames := countFrames s g slot }) (clearObjs slot s)
        let s := if h.dsb = 0 then hubDsb g slot s else s
        syncSampler slot (createTemplates h.sess.graph slot s)

/-- Held sessions that a FAILOVER would promote. -/
def promotable (s : State) : List Nat :=
  (s.twin.held.filter fun p => match p.2 with | some h => h.inStep | none => false).map (·.1)

/-- FAILOVER (R334). `lines`: producer and consumer index of each ring as companion memory holds them. -/
def execFailover (lines : List (Fin 8192 × BitVec 32 × BitVec 32)) (s : State) : Host.Outcome State Fault Refusal :=
  if !portRuns s 0x0503 then done s
  else if pk s 16 1 ≠ 1 then refuse stBadParam s
  else if s.twin.held.isEmpty || s.twin.promoted then refuse stBadState s
  else
    let n := (promotable s).length
    let s := updTwin (fun t => { t with burst := none, promoted := true }) s
    let s := if twinUp s then sendTwin (.fence n) s else s
    let s := forAll (s.twin.held.map (·.1)) (promote lines) s
    let s := if twinMode s = 1 then unmirrorAll (if twinUp s then sendTwin .mirStop s else s) else s
    done (answer stOk 0 (putF r_TWIN_CTRL f_TWIN_CTRL_MODE 0 s))

/-- Does a session still wait for the acknowledgement of a processed commit? -/
def acksOutstanding (s : State) : Bool := mirActive s && (sessSlots s).any fun n => match getSess s n with | some x => x.unacked.isSome | none => false

/-- Steps that have not ended after 40 ms are stopped by ABORT (R336). -/
def abortRest (s : State) : State :=
  forAll (List.range s.parts.length) (fun p s =>
    if !partBusy s p then s
    else match partRoot s p with
      | some d => updDie d (fun y => { y with lq := [] }) (floodAbort d cAbort none s)
      | none => s) s

/-- DETACH (R336): launches stop; the queued steps end, or are stopped once 40 ms have passed (`late`); every processed commit is
acknowledged; then the twin is told. -/
def execDetach (late : Bool) (s : State) : Host.Outcome State Fault Refusal :=
  if !portRuns s 0x0504 then done s
  else if twinF s f_TWIN_STATUS_PAIRED = 0 ∨ !peerHolds s ∨ twinMode s ≠ 1 ∨ twinGone s then refuse stBadState s
  else
    let s := putF r_DISP_CTRL f_DISP_CTRL_EN 0 s
    let busy := (List.range s.parts.length).any (partBusy s)
    if busy && !late then done s
    else
      let s := if busy then abortRest s else s
      if acksOutstanding s then done s
      else done (answer stOk 0 (setTwinF f_TWIN_STATUS_DETACHED 1 (sendTwin .detach s)))

end Sys2Proof.Machine
end

