-- ==== Sys2Proof/Machine/Pins.lean ====
section
/-! DEFINITION. The alert-type inputs TWIN_PRESENT and TWIN_ALIVE (R413, R414). Times are hub microseconds. -/
namespace Sys2Proof.Machine

/-- One of the two inputs. -/
def getIn (s : State) (alive : Bool) : AlertIn := if alive then s.pins.alive else s.pins.present

/-- The state with an input changed. -/
def putIn (alive : Bool) (x : AlertIn) (s : State) : State :=
  { s with pins := if alive then { s.pins with alive := x } else { s.pins with present := x } }

/-- The fields of SB_INPUT of an input: masked, re-arms, changes; its pin number (R403). -/
def inMasked (alive : Bool) : Fld := if alive then f_SB_INPUT_ALIVE_MASKED else f_SB_INPUT_PRES_MASKED
def inRearms (alive : Bool) : Fld := if alive then f_SB_INPUT_ALIVE_REARMS else f_SB_INPUT_PRES_REARMS
def inChanges (alive : Bool) : Fld := if alive then f_SB_INPUT_ALIVE_CHANGES else f_SB_INPUT_PRES_CHANGES
def inPin (alive : Bool) : Nat := if alive then 5 else 4

/-- An input re-arms; the sixteenth time within 1,000 hub milliseconds masks it. -/
def rearm (alive : Bool) (us : Nat) (s : State) : State :=
  let x := getIn s alive
  let l := (x.rearms.filter fun t => decide (us < t + 1000000)) ++ [us]
  let s := satF r_SB_INPUT (inRearms alive) 1 s
  if l.length < 16 then putIn alive { x with armed := true, rearms := l } s
  else
    let s := putF r_SB_INPUT (inMasked alive) 1 (putIn alive { x with masked := true, armed := false, rearms := l } s)
    raiseAlert alMasked (postEvent evInputMasked (inPin alive) 0 s)

/-- May an input re-arm: it is disarmed, not masked, active, and 1 ms has passed since its last event? -/
def mayRearm (x : AlertIn) (us : Nat) : Bool :=
  !x.armed && !x.masked && x.active && !x.waiting && match x.event with | some t => decide (t + 1000 ≤ us) | none => true

/-- The event of an input: the loss of the twin, or the twin link going down. -/
def inputEvent (alive : Bool) (s : State) : State :=
  if alive then declareLost s else raiseAlert alTwinPres (twinLinkDown s)

/-- A recognised change of an input. -/
def inputChange (alive active : Bool) (us : Nat) (s : State) : State :=
  let x := getIn s alive
  if x.active == active then s
  else
    let s := satF r_SB_INPUT (inChanges alive) 1 s
    if active then
      let x := { x with active := true, waiting := false }
      let s := putIn alive x s
      if mayRearm x us then rearm alive us s else s
    else if x.armed && !x.masked then inputEvent alive (putIn alive { x with active := false, armed := false, event := some us } s)
    else putIn alive { x with active := false } s

/-- A recognised change of TWIN_PRESENT. -/
def execTwinPresentChange (active : Bool) (us : Nat) (s : State) : Host.Outcome State Fault Refusal := done (inputChange false active us s)

/-- A recognised change of TWIN_ALIVE. -/
def execTwinAliveChange (active : Bool) (us : Nat) (s : State) : Host.Outcome State Fault Refusal := done (inputChange true active us s)

/-- 1 ms has passed since the last event of an input that is active. -/
def execInputRearm (alive : Bool) (us : Nat) (s : State) : Host.Outcome State Fault Refusal :=
  done (if mayRearm (getIn s alive) us then rearm alive us s else s)

/-- Unmasks an input: it stays disarmed until it is next recognised active. -/
def unmask (alive : Bool) (s : State) : State :=
  let x := getIn s alive
  if !x.masked then s
  else putF r_SB_INPUT (inMasked alive) 0 (putIn alive { x with masked := false, armed := false, waiting := true } s)

/-- A write of 1 to SB_INPUT.UNMASK_PRES. -/
def execUnmaskPres (s : State) : Host.Outcome State Fault Refusal := done (unmask false s)

/-- A write of 1 to SB_INPUT.UNMASK_ALIVE. -/
def execUnmaskAlive (s : State) : Host.Outcome State Fault Refusal := done (unmask true s)

/-- A write of SB_INLET: the inlet temperature, and age 0 (R420). -/
def inletWrite (v : Word) (s : State) : State :=
  putF r_SB_INLET f_SB_INLET_AGE 0 (putF r_SB_INLET f_SB_INLET_INLET (fieldOf f_SB_INLET_INLET v) s)

/-- A write of SB_INLET. -/
def execInletWrite (v : Word) (s : State) : Host.Outcome State Fault Refusal := done (inletWrite v s)

end Sys2Proof.Machine
end

