-- ==== Sys2Proof/Machine/Regs.lean ====
section
/-! DEFINITION. Register accesses over the management space (R11 to R14): what a read returns where a field follows other state, and
what a write does where it does more than its access codes say. -/
namespace Sys2Proof.Machine

/-! ### Addresses -/

/-- Die, block and offset of a management address. -/
def adDie (a : Nat) : Nat := a / 2 ^ 32 % 256
def adBlk (a : Nat) : Nat := a / 2 ^ 24 % 256
def adOff (a : Nat) : Nat := a % 2 ^ 24


/-- Does a stack answer on the management ring: present, with its clock, and its station not in reset (R26)? -/
def onRing (s : State) (d : Stack) : Bool :=
  s.present.contains d.val && !clockLost s d && !s.rst.seqs.any fun q => (q.scope == 0 || q.scope == dieNo d) && stillHeld q 3

/-! ### Reads -/

/-- The session-table view of a slot (R175, R203). -/
def sessEntry (s : State) (slot : Nat) : Nat :=
  match getSess s slot with
  | none => 0
  | some x =>
    let handle := match getGraph s x.graph with | some g => g.handle | none => 0
    x.sid + 2 ^ 64 * stateCode x.state + 2 ^ 72 * x.bucket + 2 ^ 80 * x.prio + 2 ^ 88 * x.flags + 2 ^ 96 * handle + 2 ^ 112 * x.part +
      2 ^ 128 * (x.cpos + 2 ^ 32 * x.stalePos + 2 ^ 64 * x.ptroot) +
      2 ^ 256 * (x.sampler + 2 ^ 128 * x.inRing + 2 ^ 144 * x.outRing + 2 ^ 160 * x.inCons + 2 ^ 192 * x.outProd) +
      2 ^ 512 * (x.mirPos + 2 ^ 32 * (x.mirSeq % 2 ^ 32)) +
      2 ^ 640 * (x.parent + 2 ^ 64 * x.forkPos + 2 ^ 96 * x.frames.1 + 2 ^ 128 * x.frames.2.1 + 2 ^ 160 * x.frames.2.2) +
      2 ^ 832 * (oStepDone slot + 2 ^ 16 * oPagesReady slot + 2 ^ 32 * oMaintDone slot)

/-- Sessions in a state. -/
def countState (s : State) (ok : SessState → Bool) : Nat :=
  ((sessSlots s).filter fun n => match getSess s n with | some x => ok x.state | none => false).length

/-- SESS_STATUS. -/
def sessStatus (s : State) : Nat :=
  countState s (fun t => t == .active || t == .forking) + 2 ^ 16 * countState s (· == .pinned) +
    2 ^ 32 * (4096 - countState s fun _ => true) + 2 ^ 48 * countState s (· == .stale)

/-- A register's word with a field shown at a value. -/
def shown (f : Fld) (n : Nat) (v : Word) : Word := withField f v n

/-- DISP_LANE: its instances that are ready, and those that R252 counts but are not. -/
def laneView (s : State) (n : Nat) (v : Word) : Word :=
  let l := laneInsts s n
  let r := (l.filter (instReady s)).length
  shown f_DISP_LANE_READY (min r 0xFFFF) (shown f_DISP_LANE_WAITING (min (l.filter fun i => instCounted s i && !instReady s i).length 0xFFFF) v)

/-- CORE_STATUS: the copy of OWN_FAULT.VALID, and the engines from INIT_DONE on. -/
def coreView (s : State) (d : Stack) (c : CoreIx) (v : Word) : Word :=
  shown f_CORE_STATUS_FAULT (getF s (r_OWN_FAULT d c) f_OWN_FAULT_VALID)
    (if fieldOf f_CORE_STATUS_INIT_DONE v = 1 then shown f_CORE_STATUS_ENGINES (engineCount s d c) v else v)

/-- BP_STATUS. -/
def bpView (b : Bp) : Word :=
  let st := match b.run with | .idle => 0 | .running => 1 | .halted => 2 | .trapped => 3
  BitVec.ofNat 64 (st + (if b.owned then 4 else 0) + (if b.merge.isEmpty then 0 else 8) + b.pc.toNat / 2 % 2 ^ 14 * 16 +
    2 ^ 24 * (b.sel % 256) + 2 ^ 32 * ((b.mc - b.started) % 2 ^ 32))

/-- SB_STATUS. -/
def sbStatus (s : State) (v : Word) : Word :=
  let lvl := fun (x : AlertIn) => if x.active || x.masked then 1 else 0
  shown f_SB_STATUS_BSTEP (bringF s f_BRING_STATUS_STEP) (shown f_SB_STATUS_BSTATE (bringF s f_BRING_STATUS_STATE)
    (shown f_SB_STATUS_FR (bringF s f_BRING_STATUS_FR) (shown f_SB_STATUS_READY (if 14 ≤ s.bring.last then 1 else 0)
    (shown f_SB_STATUS_PRESENT (lvl s.pins.present) (shown f_SB_STATUS_ALIVE (lvl s.pins.alive)
    (shown f_SB_STATUS_TWIN_MODE (twinMode s) (shown f_SB_STATUS_ROUND (getF s r_HK_ROUND f_HK_ROUND_ROUND) v)))))))

/-- TWIN_MIRROR. -/
def mirrorView (s : State) (v : Word) : Word :=
  let n := ((sessSlots s).filter fun n => match getSess s n with | some x => x.mir == .inStep | none => false).length
  shown f_TWIN_MIRROR_INSTEP n (shown f_TWIN_MIRROR_HELD s.twin.held.length v)

/-- What a hub register shows beside its stored content. -/
def hubView (s : State) (a : Nat) (v : Word) : Word :=
  if a = r_SESS_STATUS then BitVec.ofNat 64 (sessStatus s)
  else if r_SESS_ENTRY 0 ≤ a ∧ a ≤ r_SESS_ENTRY 131071 then
    let n := (a - r_SESS_ENTRY 0) / 8
    BitVec.ofNat 64 (sessEntry s (n / 32) / 2 ^ (64 * (n % 32)))
  else if r_TOPO_FOUND 0 ≤ a ∧ a ≤ r_TOPO_FOUND 95 then
    BitVec.ofNat 64 (leNat ((List.range 8).map fun i => topoByte s (a - r_TOPO_FOUND 0 + i)))
  else if r_DISP_LANE 0 ≤ a ∧ a ≤ r_DISP_LANE 255 then laneView s ((a - r_DISP_LANE 0) / 8) v
  else if a = r_DISP_STATUS then
    shown f_DISP_STATUS_INST (instIds s).length (shown f_DISP_STATUS_GRAPHS (graphKeys s).length v)
  else if a = r_TWIN_MIRROR then mirrorView s v
  else if a = r_SB_STATUS then sbStatus s v
  else if a = r_SB_THERM then
    shown f_SB_THERM_DEMAND (getF s r_AIR f_AIR_DEMAND) (shown f_SB_THERM_TARGET (getF s r_AIR f_AIR_TARGET) v)
  else if a = r_SB_POWER then
    shown f_SB_POWER_PIN (getF s r_PKG_POWER f_PKG_POWER_INPUT) (shown f_SB_POWER_LIMIT (getF s r_PKG_POWER f_PKG_POWER_LIMIT) v)
  else v

/-- What a stack register shows beside its stored content. -/
def dieView (s : State) (d : Stack) (blk off : Nat) (v : Word) : Word :=
  if 0x10 ≤ blk ∧ blk < 0x20 then
    let c := coreIx (blk - 0x10)
    if off = 0x8 then coreView s d c v
    else if 0x20 ≤ off ∧ off < 0x40 then
      let up := getF s (r_CORE_STATUS d c) f_CORE_STATUS_INIT_DONE = 1
      shown f_ENG_STATUS_PRESENT (if up ∧ (off - 0x20) / 8 < engineCount s d c then 1 else 0) v
    else if off = 0x40 then shown f_SFU_STATUS_BUSY (if (getCore s d c).now < (getCore s d c).sfuEnd then 1 else 0) v
    else v
  else if 0x20 ≤ blk ∧ blk < 0x30 ∧ off = 8 then
    let c := coreIx (blk - 0x20)
    shown f_VC_STATUS_NW (setW s d c).length (shown f_VC_STATUS_NN (setN s d c).length v)
  else if 0x40 ≤ blk ∧ blk < 0x58 ∧ off < 0x400 ∧ off % 0x40 = 8 then bpView (getBp s d (coreIx (off / 0x40)) (blk - 0x40))
  else v

/-- A read of a register over the management space; none is an address-error response, whose data is zero (R12). -/
def readReg (s : State) (a : Nat) : Option Word :=
  match regRow a with
  | none => none
  | some r =>
    let v := getReg s a &&& ~~~r.wo
    if adDie a = 0 then some (hubView s a v)
    else match stackIx (adDie a - 1) with
      | some d => if onRing s d then some (dieView s d (adBlk a) (adOff a) v) else none
      | none => none

/-! ### Writes -/

/-- The station whose record set starts at an address. -/
def stationAt (a : Nat) : Option Station :=
  let blk := adBlk a
  let off := adOff a
  if adDie a = 0 then (if a = r_ERR_STATUS_package then some .package else none)
  else match stackIx (adDie a - 1) with
    | none => none
    | some d =>
      if 0x10 ≤ blk ∧ blk < 0x20 then
        if off = 0x200 then some (.core d (coreIx blk))
        else if 0x100 ≤ off ∧ off < 0x200 ∧ off % 0x40 = 0 then some (.engine d (coreIx blk) ((off - 0x100) / 0x40))
        else none
      else if h : 0x8 ≤ blk ∧ blk < 0xC ∧ off = 0x100 then some (.cluster d ⟨blk - 8, by omega⟩)
      else if blk = 4 ∧ off = 0 then some (.die d)
      else none

/-- A write of ERR_STATUS: PV moves the records, other W1C bits clear (R298). -/
def errWrite (st : Station) (a : Nat) (v : Word) (s : State) : State :=
  let s := softWrite a (v &&& ~~~1#64) s
  if v.getLsbD 0 then primaryClear st s else s

/-- A write of EVT_CTRL: while the ring is enabled, the hub holds its consumer line (R314). -/
def evtWrite (v : Word) (s : State) : State :=
  let line := fun (s : State) => eventRingBase s + 0x40
  let on := fun (s : State) => getF s r_EVT_CTRL f_EVT_CTRL_EN == 1
  let t := softWrite r_EVT_CTRL v s
  if on s == on t && line s == line t then t
  else
    let t := if on s then dropLine (line s) t else t
    if on t then holdLine (line t) t else t

/-- How a write of a hub register completes, and what it does. -/
def hubWrite (a : Nat) (v : Word) (s : State) : WinStatus × State :=
  if a < r_HUB_CMD_SLOT 0 + 0x80 ∧ r_HUB_CMD_SLOT 0 ≤ a then
    if a = r_HUB_CMD_DOORBELL then doorbell v s
    else if portBusy s then (.na, refuseWrite s)
    else (.ok, softWrite a v s)
  else if a = r_BRING_STEP then bringWrite v s
  else if a = r_EVT_CTRL then (.ok, evtWrite v s)
  else if a = r_SB_INLET then (.ok, inletWrite v s)
  else if a = r_SB_INPUT then
    let s := if fieldOf f_SB_INPUT_UNMASK_PRES v = 1 then unmask false s else s
    (.ok, if fieldOf f_SB_INPUT_UNMASK_ALIVE v = 1 then unmask true s else s)
  else if r_SYNC_OBJ 0 ≤ a ∧ a ≤ r_SYNC_OBJ 16383 then (.ok, setObj ((a - r_SYNC_OBJ 0) / 8) v.toNat s)
  else if a = r_SYNC_SIGNAL then (.ok, addObj (fieldOf f_SYNC_SIGNAL_OBJ v) (fieldOf f_SYNC_SIGNAL_N v) s)
  else match stationAt a with
    | some st => (.ok, errWrite st a v s)
    | none => (.ok, softWrite a v s)

/-- A write of PORT_CTRL: the enables, and the actions of ISOLATE, RETRAIN and CLRCNT. A port on the outer boundary is held in reset
(R21). -/
def portWrite (d : Stack) (p : Port) (v : Word) (s : State) : State :=
  if outerPort d p then s else
  let a := r_PORT_CTRL d p
  let old := getF s a f_PORT_CTRL_ISOLATE
  let new := fieldOf f_PORT_CTRL_ISOLATE v
  let s := softWrite a (withField f_PORT_CTRL_ISOLATE v old) s
  let s := if new = old then s else writeIsolate d p (new == 1) s
  let s := if fieldOf f_PORT_CTRL_RETRAIN v = 1 then requestRetrain d p s else s
  if fieldOf f_PORT_CTRL_CLRCNT v = 1 then clearPortCounts d p s else s

/-- A write of a stack register. -/
def dieWrite (d : Stack) (a : Nat) (v : Word) (s : State) : State :=
  let blk := adBlk a
  let off := adOff a
  if blk = 0 then
    if off = 0x48000 then addObj (localKey d (fieldOf f_LSYNC_SIGNAL_OBJ v)) (fieldOf f_LSYNC_SIGNAL_N v) s
    else if 0x40000 ≤ off ∧ off < 0x48000 then setObj (localKey d ((off - 0x40000) / 8)) v.toNat s
    else softWrite a v s
  else if a = r_FLASH_LQ d then queueWrite d v s
  else if a = r_FLASH_CTRL d then
    let s := if fieldOf f_FLASH_CTRL_ELASTIC v = 0 then elasticClear d s else s
    let s := softWrite a v s
    if fieldOf f_FLASH_CTRL_REARM v = 1 then rearmDie d s else s
  else if h : 0x38 ≤ blk ∧ blk < 0x3C ∧ off = 0 then portWrite d ⟨blk - 0x38, by omega⟩ v s
  else if 0x40 ≤ blk ∧ blk < 0x58 ∧ off < 0x400 ∧ off % 0x40 = 0 then
    let s := softWrite a v s
    if fieldOf f_BP_CTRL_STOP v = 1 then bpStop d (coreIx (off / 0x40)) (blk - 0x40) s else s
  else if 0x20 ≤ blk ∧ blk < 0x30 ∧ off = 0 then
    let s := softWrite a v s
    if fieldOf f_VC_CTRL_RETRAIN v = 1 then vaultRetrain d (coreIx (blk - 0x20)) s else s
  else if a = r_LP_CTRL d then
    forAll (List.finRange 8) (fun ch s => if v.getLsbD (8 + ch.val) && !lpChanFailed s d ch.val then lpFullRetrain d ch.val s else s)
      (softWrite a v s)
  else if a = r_ERR_ESCALATE_die d then
    let s := softWrite a v s
    if fieldOf f_ERR_ESCALATE_STOP v = 1 then stopPartition d s else s
  else match stationAt a with
    | some st => errWrite st a v s
    | none => softWrite a v s

/-- A write over the management space: how it completes, and what it does (R12). -/
def writeReg (a : Nat) (v : Word) (s : State) : WinStatus × State :=
  if adDie a = 0xFF then
    let at_ := fun (d : Stack) => a % 2 ^ 32 + 2 ^ 32 * dieNo d
    if allStacks.all fun d => (regRow (at_ d)).isNone then (.err, s)
    else (.ok, forAll (allStacks.filter (onRing s)) (fun d s => if (regRow (at_ d)).isSome then dieWrite d (at_ d) v s else s) s)
  else if (regRow a).isNone then (.err, s)
  else if adDie a = 0 then hubWrite a v s
  else match stackIx (adDie a - 1) with
    | some d => if onRing s d then (.ok, dieWrite d a v s) else (.err, s)
    | none => (.err, s)

/-- A write of a register (R13). -/
def execRegisterWrite (a : BitVec 40) (v : Word) (s : State) : Host.Outcome State Fault Refusal := done (writeReg a.toNat v s).2

end Sys2Proof.Machine
end

