-- ==== Sys2Proof/Machine/Sideband.lean ====
section
/-! DEFINITION. The I3C target (R416 to R419) and the states of the sideband pins (R354). A command here is a transfer of the controller that reaches the target; what the target
returns stands in the target's output. -/
namespace Sys2Proof.Machine

/-- The state with the target changed. -/
def updI3c (f : I3c → I3c) (s : State) : State := { s with pins := { s.pins with i3c := f s.pins.i3c } }

/-- Is the target enabled, with a dynamic address? -/
def i3cReady (s : State) : Bool := s.pins.i3c.enabled && s.pins.i3c.addr.isSome

/-- The target returns bytes. -/
def i3cReturn (l : List Byte) (s : State) : State := updI3c (fun t => { t with out := l }) s

/-- The management address of a register index. -/
def sbReg (i : Nat) : Nat := hubReg 0x86 (8 * i)

/-- A private write (R418). -/
def execI3cPrivateWrite (bytes : List Byte) (s : State) : Host.Outcome State Fault Refusal :=
  if !i3cReady s then done s
  else match bytes with
    | [] => done (satF r_SB_STATUS f_SB_STATUS_BADXFER 1 s)
    | i :: data =>
      if data.length = 8 then done (writeReg (sbReg i.toNat) (BitVec.ofNat 64 (leNat data)) s).2
      else if data.isEmpty then done (updI3c (fun t => { t with ptr := i.toNat }) s)
      else done (satF r_SB_STATUS f_SB_STATUS_BADXFER 1 s)

/-- The 8 bytes of a register index; an unimplemented one reads zero. -/
def sbBytes (s : State) (i : Nat) : List Byte := natBytes 8 ((readReg s (sbReg i)).getD 0).toNat

/-- A private read of `n` bytes (R418): the pointer advances by one register after each 8 bytes. -/
def execI3cPrivateRead (n : Nat) (s : State) : Host.Outcome State Fault Refusal :=
  if !i3cReady s then done s
  else
    let p := s.pins.i3c.ptr
    let l := ((List.range ((n + 7) / 8)).flatMap fun i => sbBytes s (p + i)).take n
    done (i3cReturn l (updI3c (fun t => { t with ptr := p + n / 8 }) s))

/-- ENTDAA assigns the dynamic address of an enabled target that has none. -/
def execEntdaa (addr : BitVec 7) (s : State) : Host.Outcome State Fault Refusal :=
  if s.pins.i3c.enabled && s.pins.i3c.addr.isNone then done (updI3c (fun t => { t with addr := some addr.toNat }) s) else done s

/-- RSTDAA removes it. -/
def execRstdaa (s : State) : Host.Outcome State Fault Refusal :=
  if s.pins.i3c.enabled then done (updI3c (fun t => { t with addr := none }) s) else done s

/-- SETNEWDA changes it. -/
def execSetnewda (addr : BitVec 7) (s : State) : Host.Outcome State Fault Refusal :=
  if i3cReady s then done (updI3c (fun t => { t with addr := some addr.toNat }) s) else done s

/-- ENEC enables in-band interrupts or Hot-Join. -/
def execEnec (ibi hj : Bool) (s : State) : Host.Outcome State Fault Refusal :=
  if s.pins.i3c.enabled then done (updI3c (fun t => { t with ibi := t.ibi || ibi, hotJoin := t.hotJoin || hj }) s) else done s

/-- DISEC disables them. -/
def execDisec (ibi hj : Bool) (s : State) : Host.Outcome State Fault Refusal :=
  if s.pins.i3c.enabled then done (updI3c (fun t => { t with ibi := t.ibi && !ibi, hotJoin := t.hotJoin && !hj }) s) else done s

/-- Bytes of a number, the highest first, as I3C sends the data of a CCC (log entry 38). -/
def msbBytes (n v : Nat) : List Byte := (natBytes n v).reverse

/-- The Provisioned ID (R416). -/
def provisionedId (s : State) : Nat := 2 ^ 33 * 0x0FA5 + 2 ^ 32 + getF s r_SB_ID f_SB_ID_SERIAL % 2 ^ 32

/-- The target answers a GET of the controller. -/
def i3cGet (l : List Byte) (s : State) : Host.Outcome State Fault Refusal := if i3cReady s then done (i3cReturn l s) else done s

/-- GETPID. -/
def execGetpid (s : State) : Host.Outcome State Fault Refusal := i3cGet (msbBytes 6 (provisionedId s)) s

/-- GETBCR: capable of in-band interrupts, with a data byte. -/
def execGetbcr (s : State) : Host.Outcome State Fault Refusal := i3cGet [0x06] s

/-- GETDCR. -/
def execGetdcr (s : State) : Host.Outcome State Fault Refusal := i3cGet [0x00] s

/-- Is ALERT_L driven low (R419)? -/
def alertLow (s : State) : Bool := getReg s r_SB_ALERT &&& getReg s r_SB_ALERT_EN != 0

/-- GETSTATUS: bit 0 is set while any enabled SB_ALERT bit is set (R417). -/
def execGetstatus (s : State) : Host.Outcome State Fault Refusal := i3cGet (msbBytes 2 (if alertLow s then 1 else 0)) s

/-- GETMWL: 9 bytes. -/
def execGetmwl (s : State) : Host.Outcome State Fault Refusal := i3cGet (msbBytes 2 9) s

/-- GETMRL: 256 bytes. -/
def execGetmrl (s : State) : Host.Outcome State Fault Refusal := i3cGet (msbBytes 2 256) s

/-- I3C_SCL has been low for 1 ms: the target's protocol state is reset, and its dynamic address stays (R415). -/
def execSclLowTimeout (s : State) : Host.Outcome State Fault Refusal :=
  done (updI3c (fun t => { t with out := [] }) s)

/-- The lowest bit set of a number below 2^11. -/
def lowestBit (v : Nat) : Option Nat := (List.range 11).find? v.testBit

/-- An in-band interrupt: its data byte is the lowest newly set enabled cause; at most one per 1 ms (R419). `us`: hub time. -/
def execInBandInterrupt (us : Nat) (s : State) : Host.Outcome State Fault Refusal :=
  let t := s.pins.i3c
  let soon := match t.lastIbi with | some u => decide (us < u + 1000) | none => false
  if !i3cReady s || !t.ibi || soon then done s
  else match lowestBit t.newly with
    | some b => done (updI3c (fun t => { t with newly := 0, lastIbi := some us, ibiByte := some b }) s)
    | none => done s

/-! ### The sideband pins (R354, R403) -/

/-- The fuse-mapped state of pin `n`: on an input 0b01 and 0b10 act as Hi-Z, and 0b10 does on an open-drain pin. -/
def fusedPin (s : State) (n : Nat) : PinDrive :=
  let input := n != 2 && n != 3 && n != 7 && n != 11
  match bits (getReg s r_FUSE_PINMAP).toNat (2 * n + 1) (2 * n) with
  | 0 => .hiZ
  | 1 => if input then .hiZ else .low
  | 2 => if input || n == 2 || n == 3 then .hiZ else .high
  | _ => .pullUp

/-- Is the hub held by a reset in progress, or without power? -/
def hubHeld (s : State) : Bool := !s.power.running || s.rst.seqs.any fun q => q.scope == 0 && stillHeld q 1

/-- Is the package between the power-up of its input and the end of fuse sense? -/
def beforeSense (s : State) : Bool :=
  !s.power.running || s.rst.seqs.any fun q => q.scope == 0 && q.level == lvPower && q.cause == rcPower && stillHeld q 1

/-- The state of pin `n`: Hi-Z until fuse sense ends, then fuse-mapped until its owner has it; the trip latch drives THERM_TRIP_L
low, and after DEBUG_CLOSE pins 8 to 12 stay fuse-mapped (log entry 7). -/
def pinState (s : State) (n : Fin 13) : PinDrive :=
  if beforeSense s then .hiZ
  else if n = 3 ∧ s.rst.trip then .low
  else if n = 2 then (if hubHeld s then fusedPin s 2 else if alertLow s then .low else .hiZ)
  else if n = 3 then (if hubHeld s then fusedPin s 3 else .hiZ)
  else if n = 6 ∨ n = 7 then (if hubHeld s || !s.pins.i3c.enabled then fusedPin s n.val else .target)
  else if 8 ≤ n.val then
    if getF s r_SEC_STATUS f_SEC_STATUS_DEBUG_CLOSED = 1 || s.rst.seqs.any (fun q => q.scope == 0 && stillHeld q 0) then fusedPin s n.val
    else .debug
  else fusedPin s n.val

end Sys2Proof.Machine
end

