-- ==== Sys2Proof/Machine/Camner.lean ====
section
/-! DEFINITION. The Camner link (R304 to R314) and the flit layer that the twin link shares: flits, replay and retraining, the device
window, and the messages of both directions. -/
namespace Sys2Proof.Machine

/-! ### The FEC of a flit (R305): two shortened RS(144,140) codes over GF(2^8) -/

/-- Multiplication by α in GF(2^8), with x^8 + x^4 + x^3 + x^2 + 1. -/
def g8TimesX (a : Byte) : Byte := (a <<< 1) ^^^ (if a.getLsbD 7 then 0x1D#8 else 0#8)

/-- The product of two elements. -/
def g8Mul (a b : Byte) : Byte := (List.range 8).foldl (fun r i => g8TimesX r ^^^ (if b.getLsbD (7 - i) then a else 0#8)) 0#8

/-- α^n. -/
def g8Pow (n : Nat) : Byte := n.repeat g8TimesX 1#8

/-- a^254, the inverse of a nonzero element. -/
def g8Inv (a : Byte) : Byte :=
  ((List.range 7).foldl (fun (p : Byte × Byte) _ => let q := g8Mul p.1 p.1; (q, g8Mul p.2 q)) (a, 1#8)).2

/-- Syndrome `j` of a code word whose first byte is the highest coefficient (log entry 39). -/
def rsSyndrome (l : List Byte) (j : Nat) : Byte := l.foldl (fun r b => g8Mul r (g8Pow j) ^^^ b) 0#8

/-- The errors that four syndromes show, as coefficient and value: at most two; none where no two explain them. -/
def rsErrors (n : Nat) (s0 s1 s2 s3 : Byte) : Option (List (Nat × Byte)) :=
  if s0 = 0#8 ∧ s1 = 0#8 ∧ s2 = 0#8 ∧ s3 = 0#8 then some []
  else
    let det := g8Mul s0 s2 ^^^ g8Mul s1 s1
    if det = 0#8 then
      match (List.range n).find? fun p => s0 ≠ 0#8 ∧ s1 = g8Mul s0 (g8Pow p) ∧ s2 = g8Mul s1 (g8Pow p) ∧ s3 = g8Mul s2 (g8Pow p) with
      | some p => some [(p, s0)]
      | none => none
    else
      let i := g8Inv det
      let a := g8Mul (g8Mul s0 s3 ^^^ g8Mul s1 s2) i
      let b := g8Mul (g8Mul s1 s3 ^^^ g8Mul s2 s2) i
      match (List.range n).filter fun p => let x := g8Pow p; g8Mul x x ^^^ g8Mul a x ^^^ b = 0#8 with
      | [p, q] =>
        let x := g8Pow p
        let y := g8Pow q
        let e2 := g8Mul (s1 ^^^ g8Mul x s0) (g8Inv (x ^^^ y))
        some [(p, s0 ^^^ e2), (q, e2)]
      | _ => none

/-- A code word with up to two byte errors corrected, and whether one was; unchanged where more are found. -/
def rsCorrect (l : List Byte) : Bool × List Byte :=
  match rsErrors l.length (rsSyndrome l 0) (rsSyndrome l 1) (rsSyndrome l 2) (rsSyndrome l 3) with
  | none => (false, l)
  | some es => (!es.isEmpty, (List.range l.length).map fun i =>
      l.getD i 0 ^^^ ((es.find? fun e => e.1 + i + 1 == l.length).map (·.2)).getD 0)

/-- The bytes of one interleave. -/
def interleave (l : List Byte) (i : Nat) : List Byte := (List.range (l.length / 2)).map fun k => l.getD (2 * k + i) 0

/-- A flit of 288 bytes after the FEC. -/
def fecCorrect (l : List Byte) : Bool × List Byte :=
  let (c0, a) := rsCorrect (interleave l 0)
  let (c1, b) := rsCorrect (interleave l 1)
  (c0 || c1, (List.range l.length).map fun i => if i % 2 = 0 then a.getD (i / 2) 0 else b.getD (i / 2) 0)

/-- One bit into the reflected CRC-32 register. -/
def crc32Bit (c : BitVec 32) (d : Bool) : BitVec 32 := (c >>> 1) ^^^ (if c.getLsbD 0 != d then 0xEDB88320#32 else 0#32)

/-- The CRC-32 of bytes. -/
def crc32 (l : List Byte) : BitVec 32 :=
  l.foldl (fun c b => (List.range 8).foldl (fun c i => crc32Bit c (b.getLsbD i)) c) 0xFFFFFFFF#32 ^^^ 0xFFFFFFFF#32

/-! ### The flit layer (R306) -/

/-- The flit layer of the Camner or of the twin link. -/
def flitSide (s : State) (twin : Bool) : FlitSide := if twin then s.twinFlits else s.camner.flits

/-- The state with it changed. -/
def updFlits (twin : Bool) (f : FlitSide → FlitSide) (s : State) : State :=
  if twin then { s with twinFlits := f s.twinFlits } else updCam (fun c => { c with flits := f c.flits }) s

/-- Is a link up? -/
def flitsUp (s : State) (twin : Bool) : Bool := if twin then twinUp s else linkUp s

/-- Counts an event of the Camner link in CAMNER_STATUS. -/
def countCam (twin : Bool) (f : Fld) (s : State) : State := if twin then s else satF r_CAMNER_STATUS f 1 s

/-- A link starts to retrain, with every message held. -/
def startTraining (twin : Bool) (s : State) : State :=
  let s := updFlits twin (fun x => { x with resends := 0 }) s
  if twin then setTwinF f_TWIN_STATUS_LINK 1 s
  else countCam false f_CAMNER_STATUS_RETRAINS (putF r_CAMNER_STATUS f_CAMNER_STATUS_STATE 1 s)

/-- A RESEND request: the carrier flits after FACK are sent again; the eighth in a row that names one FACK retrains the link. -/
def resendIn (twin : Bool) (fack : Nat) (s : State) : State :=
  let x := flitSide s twin
  let n := if x.resends ≠ 0 ∧ x.lastFack = fack then x.resends + 1 else 1
  let again := x.store.drop (match x.store.findIdx? (· == fack) with | some i => i + 1 | none => 0)
  let s := updFlits twin (fun x => { x with resends := n, lastFack := fack, replayed := again }) (countCam twin f_CAMNER_STATUS_REPLAYS s)
  if n = 8 then startTraining twin s else s

/-- A RESEND request arrives. -/
def execResend (twin : Bool) (fack : BitVec 12) (s : State) : Host.Outcome State Fault Refusal :=
  if !flitsUp s twin then done s else done (resendIn twin fack.toNat s)

/-- Is a link retraining? -/
def flitsTraining (s : State) (twin : Bool) : Bool :=
  if twin then twinF s f_TWIN_STATUS_LINK == 1 else getF s r_CAMNER_STATUS f_CAMNER_STATUS_STATE == 1

/-- STATE of a Camner link that is up. -/
def upState (s : State) : Nat := if s.camner.fullRate then 3 else 2

/-- The Camner link comes up: held events flow again (R311). -/
def camnerUp (s : State) : State := flushEvents (putF r_CAMNER_STATUS f_CAMNER_STATUS_STATE (upState s) s)

/-- A retrain ends: up, or failed, and after the third failure in a row the link is down. -/
def execCamnerRetrainEnd (twin ok : Bool) (s : State) : Host.Outcome State Fault Refusal :=
  if !flitsTraining s twin then done s
  else if ok then
    let s := updFlits twin (fun x => { x with badTrains := 0 }) s
    done (if twin then setTwinF f_TWIN_STATUS_LINK 2 s else camnerUp s)
  else
    let n := (flitSide s twin).badTrains + 1
    let s := updFlits twin (fun x => { x with badTrains := if n < 3 then n else 0 }) s
    if n < 3 then done (countCam twin f_CAMNER_STATUS_RETRAINS s)
    else done (if twin then twinLinkDown s else putF r_CAMNER_STATUS f_CAMNER_STATUS_STATE 0 s)

/-- A link that was down has no credits or sequence in flight; requests without an answer are sent again (log entry 40). -/
def relink (s : State) : State :=
  updHub (fun h => { h with tx := h.sent ++ h.tx, sent := [] }) (updCam (fun c => { c with flits := FlitSide.reset, asked := [] }) s)

/-- The hub trains the Camner link again: on 16 lanes, on lanes 0–7 or 8–15, or not at all. -/
def execCamnerLinkDownRetry (lanes : Option (Fin 3)) (s : State) : Host.Outcome State Fault Refusal :=
  if getF s r_CAMNER_STATUS f_CAMNER_STATUS_STATE ≠ 0 then done s
  else match lanes with
    | none => done s
    | some w =>
      let s := putF r_CAMNER_STATUS f_CAMNER_STATUS_WIDTH (if w = 0 then 0 else 1) (relink s)
      done (camnerUp (putF r_CAMNER_STATUS f_CAMNER_STATUS_UPPER (if w = 2 then 1 else 0) s))

/-! ### Messages of the device (R308, R309) -/

def opWinRead : Nat := 0x11
def opWinWrite : Nat := 0x12
def opFetch : Nat := 0x21
def opFetchHold : Nat := 0x22
def opStore : Nat := 0x23
def opRelease : Nat := 0x24
def opRecall : Nat := 0x31

/-- Sends the front message of the queue as a request with a fresh tag, in a carrier flit of its own (log entry 41). -/
def sendFront (op : Nat) (m : OutMsg) (s : State) : State :=
  let tag := s.camner.flits.nextTag
  let seq := s.camner.flits.txSeq
  let s := updFlits false (fun x => { x with credits := x.credits - 1, nextTag := (tag + 1) % 4096, txSeq := (seq + 1) % 4096,
                                             store := (x.store ++ [seq]).drop (x.store.length - 1023) }) s
  let s := updCam (fun c => { c with asked := c.asked ++ [(tag, op)] }) s
  updHub (fun h => { h with tx := h.tx.drop 1, sent := h.sent ++ [m] }) s

/-- Sends the front message if it is of the kinds of a row, the link is up, and an ASK credit is left. -/
def sendKind (op : Nat) (ok : OutMsg → Bool) (s : State) : State :=
  match s.hub.tx with
  | [] => s
  | m :: _ => if linkUp s && decide (0 < s.camner.flits.credits) && ok m then sendFront op m s else s

/-- FETCH. -/
def execFetch (s : State) : Host.Outcome State Fault Refusal := done (sendKind opFetch (fun m => m.kind == .fetch) s)

/-- FETCH_HOLD. -/
def execFetchHold (s : State) : Host.Outcome State Fault Refusal := done (sendKind opFetchHold (fun m => m.kind == .fetchHold) s)

/-- STORE; an index update waits until every STORE before it has been answered. -/
def execStore (s : State) : Host.Outcome State Fault Refusal :=
  let open_ := s.camner.asked.any fun a => a.2 == opStore
  done (sendKind opStore (fun m => m.kind == .store || (m.kind == .storeIndex && !open_)) s)

/-- RELEASE. -/
def execRelease (s : State) : Host.Outcome State Fault Refusal := done (sendKind opRelease (fun m => m.kind == .release) s)

/-- A request of the device is answered: it is outstanding no more, and a line read with FETCH_HOLD is held. -/
def answered (tag status : Nat) (s : State) : State :=
  match s.camner.asked.findIdx? fun a => a.1 == tag with
  | none => s
  | some i =>
    let m := s.hub.sent[i]?
    let op := (s.camner.asked.getD i (0, 0)).2
    let s := updCam (fun c => { c with asked := c.asked.eraseIdx i }) s
    let s := updHub (fun h => { h with sent := h.sent.eraseIdx i }) s
    match m with
    | some m => if op = opFetchHold ∧ status = 0 ∧ !s.hub.lines.contains m.addr then updHub (fun h => { h with lines := h.lines ++ [m.addr] }) s else s
    | none => s

/-- DONE. -/
def execDoneMsg (tag : BitVec 12) (status : Fin 3) (s : State) : Host.Outcome State Fault Refusal :=
  if !linkUp s then done s else done (answered tag.toNat status.val s)

/-- DONE_DATA. What the data mean to the hub comes with the row of the event that they are for (log entry 42). -/
def execDoneData (tag : BitVec 12) (status : Fin 3) (_data : BitVec 2048) (s : State) : Host.Outcome State Fault Refusal :=
  if !linkUp s then done s else done (answered tag.toNat status.val s)

/-- RECALL: the hub holds the line no more, answers, and reads it again (R309, R314). -/
def recallIn (tag addr : Nat) (s : State) : State :=
  let line := addr / 64 * 64
  let held := s.hub.lines.contains line
  let s := winAnswer opRecalled tag 0 0 0 (updHub (fun h => { h with lines := h.lines.filter (· ≠ line) }) s)
  if held then holdLine line s else s

/-- RECALL. -/
def execRecall (tag : BitVec 12) (addr : BitVec 64) (s : State) : Host.Outcome State Fault Refusal :=
  if !linkUp s then done s else done (recallIn tag.toNat addr.toNat s)

/-! ### The device window (R312) -/

/-- What an offset of the device window names: a register, device memory, nothing that is available. -/
inductive WinTarget where
  | reg (a : Nat)
  | mem (a : Nat)
  | none
  deriving DecidableEq, Repr

/-- The content of the window at an offset. -/
def winTarget (s : State) (o : Nat) : WinTarget :=
  let n := s.bring.last
  if o < 0x1000 then .reg (hubReg 0x87 o)
  else if o < 0x2000 then (if 2 ≤ n then .reg (hubReg 0x80 (o - 0x1000)) else .none)
  else if 2 ^ 40 ≤ o ∧ o < 2 ^ 41 then (if 3 ≤ n then .reg (o - 2 ^ 40) else .none)
  else if 2 ^ 48 ≤ o ∧ o < 2 ^ 48 + 2 ^ 47 then (if 9 ≤ n then .mem (o - 2 ^ 48) else .none)
  else .none

/-- Completes a request without data. -/
def winDone (tag : Nat) (r : WinStatus) (s : State) : State :=
  winAnswer opDone tag (match r with | .ok => 0 | .na => 1 | .err => 2) 0 0 s

/-- An access to device memory: a transit transfer carries it, or waits while the hub starts none; one that leaves device memory
completes with ERR (R256). -/
def winMemory (tag a len data : Nat) (write : Bool) (e : Stack) (s : State) : State :=
  if len = 0 ∨ (devTarget s a).isNone ∨ (devTarget s (a + len - 1)).isNone then winDone tag .err s
  else
    let id := s.hub.nextXfer
    let x : Xfer := ⟨id, e.val, write, a, len, data % 2 ^ (8 * len), 1, 0, false⟩
    let s := updCam (fun c => { c with xfers := c.xfers ++ [⟨id, tag, write, len⟩] }) (updHub (fun h => { h with nextXfer := id + 1 }) s)
    if s.hub.transitStopped then updCam (fun c => { c with waits := c.waits ++ [x] }) s
    else sendXfer e x (updHub (fun h => { h with xfers := h.xfers ++ [x] }) s)

/-- WIN_READ. -/
def winRead (tag addr len : Nat) (e : Stack) (s : State) : State :=
  match winTarget s addr with
  | .none => winDone tag .err s
  | .mem a => winMemory tag a len 0 false e s
  | .reg a =>
    if len ≠ 8 ∨ addr % 8 ≠ 0 then winDone tag .err s
    else match readReg s a with
      | some v => winAnswer opDoneData tag 0 8 v.toNat s
      | none => winDone tag .err s

/-- A write of the eight words of HUB_CMD_SLOT in one message (R312, R319). -/
def slotWriteWin (data : Nat) (s : State) : WinStatus × State :=
  if portBusy s then (.na, refuseWrite s)
  else (.ok, forAll (List.range 8) (fun w s => softWrite (r_HUB_CMD_SLOT w) (BitVec.ofNat 64 (data / 2 ^ (64 * w))) s) s)

/-- A write of a register through the window; RST_CTRL belongs to hub firmware (R350). -/
def winRegWrite (a addr len data : Nat) (s : State) : WinStatus × State :=
  if len = 64 ∧ a = r_HUB_CMD_SLOT 0 then slotWriteWin data s
  else if len ≠ 8 ∨ addr % 8 ≠ 0 ∨ a = r_RST_CTRL then (.err, s)
  else writeReg a (BitVec.ofNat 64 data) s

/-- WIN_WRITE. -/
def winWrite (tag addr len data : Nat) (e : Stack) (s : State) : State :=
  match winTarget s addr with
  | .none => winDone tag .err s
  | .mem a => winMemory tag a len data true e s
  | .reg a => let (r, s) := winRegWrite a addr len data s; winDone tag r s

/-- WIN_READ; `e`: the stack at whose hub-facing port a transit transfer enters. -/
def execWinRead (tag : BitVec 12) (addr : BitVec 64) (len : Fin 257) (e : Stack) (s : State) : Host.Outcome State Fault Refusal :=
  if !linkUp s then done s else done (winRead tag.toNat addr.toNat len.val e s)

/-- WIN_WRITE. -/
def execWinWrite (tag : BitVec 12) (addr : BitVec 64) (len : Fin 257) (data : BitVec 2048) (e : Stack) (s : State) :
    Host.Outcome State Fault Refusal :=
  if !linkUp s then done s else done (winWrite tag.toNat addr.toNat len.val (data.toNat % 2 ^ (8 * len.val)) e s)

/-! ### Messages in carrier flits (R307, R308, R326) -/

/-- A message of the companion with its data; one of another opcode is refused and counted. -/
def camnerMessage (e : Stack) (h data : Nat) (s : State) : State :=
  let op := bits h 7 0
  let tag := bits h 27 16
  let len := bits h 36 28
  let addr := bits h 103 40
  if op = opWinRead then winRead tag addr len e s
  else if op = opWinWrite then winWrite tag addr len data e s
  else if op = opRecall then recallIn tag addr s
  else if op = opDone ∨ op = opDoneData then answered tag (bits h 111 104) s
  else
    let s := satF r_CAMNER_STATUS f_CAMNER_STATUS_BADMSG 1 s
    if bits h 9 8 = 0 then winDone tag .err s else s

/-- A message of the twin with its data; `ops` are the session operations that its MIR_OP messages carry, in order (log entry 25). -/
def twinMessage (h data : Nat) (ops : List (Fin 4096 × MirOp)) (s : State) : List (Fin 4096 × MirOp) × State :=
  let op := bits h 7 0
  let len := bits h 36 28
  let a := bits h 103 40
  let acc := mirAccepts s
  if op = 0x40 then (ops, heartbeatIn (bits a 17 16) (bits a 25 18) s)
  else if op = 0x41 then match ops with
    | (_, o) :: rest => (rest, if acc then applyMirOp o s else s)
    | [] => ([], s)
  else if op = 0x42 then
    (ops, if acc then burstOpen (bits data 63 0) (bits data 95 64) (bits data 127 96) (bits data 159 128) (bits data 255 192) s else s)
  else if op = 0x43 then (ops, if acc then burstData (a % 2 ^ 48) len data s else s)
  else if op = 0x44 then (ops, if acc then burstClose data s else s)
  else if op = 0x45 then (ops, ackIn a s)
  else if op = 0x46 then (ops, discardAll s)
  else if op = 0x47 then (ops, fenceIn s)
  else if op = 0x48 then (ops, setTwinF f_TWIN_STATUS_PEER_DETACHED 1 s)
  else (ops, satF r_TWIN_STATUS f_TWIN_STATUS_BADMSG 1 s)

/-- Takes the whole messages at the front of a list of 16-byte units; what is left belongs to a message that continues. A zero unit
in a header's place is padding. `n` bounds the units. -/
def takeMessages (twin : Bool) (e : Stack) : Nat → List (Fin 4096 × MirOp) → List Nat → State → List Nat × State
  | 0, _, l, s => (l, s)
  | _, _, [], s => ([], s)
  | n + 1, ops, h :: l, s =>
    if h = 0 then takeMessages twin e n ops l s
    else
      let len := bits h 36 28
      let k := (len + 15) / 16
      if l.length < k then (h :: l, s)
      else
        let data := (l.take k).foldr (fun u v => u + 2 ^ 128 * v) 0 % 2 ^ (8 * len)
        if twin then
          let (ops, s) := twinMessage h data ops s
          takeMessages twin e n ops (l.drop k) s
        else takeMessages twin e n ops (l.drop k) (camnerMessage e h data s)

/-- The 17 units of a carrier flit's payload. -/
def flitUnits (l : List Byte) : List Nat := (List.range 17).map fun i => leAt l (4 + 16 * i) 16

/-- An accepted carrier flit: its messages are taken. -/
def carrierIn (twin : Bool) (e : Stack) (ops : List (Fin 4096 × MirOp)) (seq : Nat) (l : List Byte) (s : State) : State :=
  let us := (flitSide s twin).units ++ flitUnits l
  let s := updFlits twin (fun x => { x with rxSeq := seq, discarding := false, units := [] }) s
  let (rest, s) := takeMessages twin e us.length ops us s
  updFlits twin (fun x => { x with units := rest }) s

/-- A flit after the FEC whose CRC holds: returned credits, a RESEND request, and a carrier flit in its order. A gap is asked for
again; a flit that came before is dropped. -/
def flitIn (twin : Bool) (e : Stack) (ops : List (Fin 4096 × MirOp)) (l : List Byte) (s : State) : State :=
  let h := leAt l 0 4
  let seq := bits h 11 0
  let s := if bits h 28 27 = 0 then updFlits twin (fun x => { x with credits := x.credits + 4 * bits h 31 29 }) s else s
  let s := if bits h 26 26 = 1 then resendIn twin (bits h 23 12) s else s
  if bits h 25 24 ≠ 0 then s
  else
    let x := flitSide s twin
    if seq = (x.rxSeq + 1) % 4096 then carrierIn twin e ops seq l s
    else if (seq + 4096 - x.rxSeq) % 4096 < 2048 ∧ seq ≠ x.rxSeq then updFlits twin (fun x => { x with discarding := true }) s
    else s

/-- A flit arrives: FEC, CRC, and its messages (R305, R306). A flit whose CRC fails is discarded, and carrier flits are asked for
again from the last one accepted. -/
def execCarrierFlitReceive (twin : Bool) (flit : BitVec 2304) (e : Stack) (ops : List (Fin 4096 × MirOp)) (s : State) :
    Host.Outcome State Fault Refusal :=
  if !flitsUp s twin then done s
  else
    let (fixed, l) := fecCorrect (natBytes 288 flit.toNat)
    let s := if fixed then countCam twin f_CAMNER_STATUS_FEC_CORR s else s
    if crc32 (l.take 276) ≠ BitVec.ofNat 32 (leAt l 276 4) then done (updFlits twin (fun x => { x with discarding := true }) s)
    else done (flitIn twin e ops l s)

end Sys2Proof.Machine
end

