-- ==== Sys2Proof/Machine/Recovery.lean ====
section
/-! DEFINITION. The recovery of one stack after a system or warm reset of it (R353): bring-up steps 4 to 10 for that stack. -/
namespace Sys2Proof.Machine

/-- Steps 4 and 5: the stack's record, and the training of its links. -/
def recoverLinks (d : Stack) (f : StackFound) (s : State) : State :=
  let s := putStackRecord d (topoByte s (64 + 16 * d.val + 1)).toNat f.mask.toNat (stackEngines s d) s
  alignPhase d (forAll allPorts (fun p s => match recordOf d p with
    | some j => trainLink j (foundTests (testList f.links) j) s
    | none => s) s)

/-- Steps 6, 7 and 9: the stack's memory; after a warm reset as R375 states. -/
def recoverMemory (d : Stack) (warm : Bool) (f : StackFound) (s : State) : State :=
  let s := trainVaults d f.vaults warm s
  let s := if warm then s else restoreRepairs (fun n => n / 17 = d.val ∧ n % 17 < 16) s
  let (rebuilt, s) := trainDevice d f.failed warm s
  let s := if warm then s else restoreRepairs (fun n => n / 17 = d.val ∧ n % 17 = 16) s
  let s := initStack d warm rebuilt s
  match f.badWord with | some (u, a) => uMark d u a s | none => s

/-- The measured values of the stack's layers. -/
def foundLayers (f : StackFound) : List (Fin 6 × Nat) := (List.finRange 6).filterMap fun l => (f.layers[l.val]?).map fun v => (l, v)

/-- Recovery of a stack: RETRAIN_DONE with block 0x01 reports success (0) or failure (3). -/
def recoverStack (d : Stack) (warm : Bool) (f : StackFound) (s : State) : State :=
  let s := recoverMemory d warm f (recoverLinks d f s)
  let ok := !isolated s d && f.images && f.badWord.isNone && f.badSensor.isNone
  let s := if ok then calibrate d (foundLayers f) s else s
  let s := updRst (fun r => { r with recovering := r.recovering.filter fun x => x.1 ≠ d.val,
                                     failed := if ok then r.failed else r.failed ++ [d.val] }) (topoChanged s)
  postEvent evRetrainDone (subj3 (dieNo d) 0x01 0) (if ok then 0 else 3) s

/-- The hub brings a stack up again that was reset alone (R353). -/
def execStackRecovery (d : Stack) (found : StackFound) (s : State) : Host.Outcome State Fault Refusal :=
  match s.rst.recovering.find? fun x => x.1 == d.val with
  | some (_, warm) => done (recoverStack d warm found s)
  | none => done s

end Sys2Proof.Machine
end

