-- ==== Sys2Proof/Machine/Ring.lean ====
section
/-! DEFINITION. The management ring (R26): what a die exchanges with the hub in its slot (escalations, changes of its objects,
ownership faults, bad words, pages to move off retired frames), and beats that reach the hub without a transfer (R22). -/
namespace Sys2Proof.Machine

/-! ### Errors at the package station (R300) -/

/-- Records an error of a stack at the package station. A second one while the stack is in service is fatal: that die is reset. -/
def packageErr (d : Stack) (kind info : Nat) (s : State) : State :=
  let fatal := inService s .package d.val
  let s := recordErr .package d.val kind 0 info s
  if fatal then acceptReset lvSystem (dieNo d) rcFatal false s else s

/-- An escalation of a die reaches the package; one that is recorded there is posted as DIE_ERROR. -/
def packageEscalation (d : Stack) (e : Escalation) (s : State) : State :=
  let info := e.unit + 64 * e.kind
  let fatal := inService s .package d.val
  let s := packageErr d kEscalated info (satF (r_ERR_STATUS_package + 0x20) f_ERR_ESCALATE_RECEIVED 1 s)
  if fatal then s else postEvent evDieError (dieNo d) (errWord d.val kEscalated 0 info).toNat s

/-! ### Ownership faults (R248) -/

/-- The launch that ran a step of a partition in which a fault was found: `ago` steps before the last one that its root sent. -/
def faultLaunch (s : State) (p : Nat) (root : Nat) (ago : Nat) : Option Launch :=
  let l := s.svc.launches.filter fun l => l.part == p
  let sent := (s.hub.launchReports.filter fun r => r.1 == root).length
  match l[sent - 1 - ago]? with | some x => some x | none => l.head?

/-- A lane halts; the event goes to the companion and to every session with an instance in the lane. -/
def haltLane (k : Nat) (g : Graph) (task kind : Nat) (s : State) : State :=
  let n := laneNo k (g.tasks.getD task noTask).lane
  let slots := ((laneInsts s n).filterMap fun i => (getInst s i).bind fun x => x.slot).eraseDups
  let s := putF (r_DISP_LANE n) f_DISP_LANE_HALTED 1 s
  let s := postEvent evLaneHalted (subj2 n task) kind s
  forAll slots (fun slot s => postSess slot seLaneHalted task n s) s

/-- An ownership fault of a die's step halts the lane that ran the step. -/
def ownershipHalt (d : Stack) (kind at_ : Nat) (s : State) : State :=
  match partIndex s d with
  | none => s
  | some p =>
    let ago := (getF s (r_FLASH_STATUS d) f_FLASH_STATUS_LAUNCHES + 2 ^ 32 - at_) % 2 ^ 32
    match (s.parts[p]?).bind fun x => faultLaunch s p x.root ago with
    | none => s
    | some l => match getGraph s l.graph, getInst s l.inst with
      | some g, some x => haltLane l.graph g x.task kind s
      | _, _ => s

/-! ### Bad words and lost contents (R276, R290, R291) -/

/-- The page whose frame holds a device address: graph, NEAR entry, slot. -/
def pageAt (s : State) (a : Nat) : Option (Nat × Nat × Nat) :=
  match devTarget s a with
  | none => none
  | some (d, u, off) =>
    (graphKeys s).findSome? fun k => match getGraph s k with
      | none => none
      | some g =>
        let spot : Option (List Nat × Nat × Nat) := match unitCore u with
          | some c => let (j, o) := mapVault s d c off
                      if g.place.frames ≤ o ∧ o < g.place.frames + frameBytes * g.place.nframes then
                        some ((List.range g.place.near.length).filter fun e => nearGrp g e == 24 * coreNo d c + j, tVault, (o - g.place.frames) / frameBytes)
                      else none
          | none => if g.place.lpFrames ≤ off ∧ off < g.place.lpFrames + frameBytes * g.place.nlp then
                      some ((List.range g.place.near.length).filter fun e => nearGrp g e / 384 == d.val, tLpddr, (off - g.place.lpFrames) / frameBytes)
                    else none
        match spot with
        | none => none
        | some (es, tier, f) => es.findSome? fun e =>
            ((getNear g e).slots.find? fun sl => let w := slotPeek s g e sl
              slUsed w && slTier w == tier && slLoc w == f).map fun sl => (k, e, sl)

/-- The hub learns of a bad word: `how` 0 for a scrub, 1 for a confirmed compiled read, 2 for a confirmed fetch. -/
def hearWord (a how : Nat) (s : State) : State :=
  let page := pageAt s a
  let s := match page with | some (k, e, sl) => dropPage k e sl s | none => s
  if how = 2 then
    match devTarget s a with
    | some (d, u, off) => postEvent evProgramUe (subj2 (dieNo d) u.val) off s
    | none => s
  else if how = 0 ∧ page.isSome then s
  else postEvent evMemUe 0 a s

/-- The die of a device address. -/
def addrDie (s : State) (a : Nat) : Option Stack := (devTarget s a).map (·.1)

/-- The pages of a stack whose LPDDR tier has lost its contents are dropped (R276). -/
def dropLpPages (d : Stack) (s : State) : State :=
  forAll (graphKeys s) (fun k s => match getGraph s k with
    | none => s
    | some g => forAll ((List.range g.place.near.length).filter fun e => nearGrp g e / 384 == d.val) (fun e s =>
        forAll (getNear g e).slots (fun sl s =>
          let w := slotPeek s g e sl
          if slUsed w && slTier w == tLpddr then dropPage k e sl s else s) s) s) s

/-! ### Retired frames (R296) -/

/-- A page leaves a retired frame for a free one of the same pool; it stays while there is none. -/
def leaveFrame (k e sl : Nat) (s : State) : State :=
  match getGraph s k with
  | none => s
  | some g =>
    let w := slotPeek s g e sl
    let d := nearGrp g e / 384
    if !slUsed w || slMoving w || !frameRetired s g e (slTier w) (slLoc w) then s
    else if slTier w = tVault then
      match pickFree (usedVault s g e) g.place.nframes s with
      | (some f, s) => startMove k e sl tVault f (updNear k e (fun x => { x with frames := x.frames ++ [f] }) s)
      | (none, s) => s
    else
      match pickFree (usedLp s g d) g.place.nlp s with
      | (some f, s) => startMove k e sl tLpddr f (updGraph k (fun g => { g with lpUsed := sput [] g.lpUsed d (sget [] g.lpUsed d ++ [f]) }) s)
      | (none, s) => s

/-- The pages of a stack leave their retired frames. -/
def leaveRetired (d : Stack) (s : State) : State :=
  forAll (graphKeys s) (fun k s => match getGraph s k with
    | none => s
    | some g => forAll ((List.range g.place.near.length).filter fun e => nearGrp g e / 384 == d.val) (fun e s =>
        forAll (getNear g e).slots (fun sl s => leaveFrame k e sl s) s) s) s

/-! ### The slot -/

/-- Changes of a die's objects go to the dispatcher (R242). -/
def forwardObjs (d : Stack) (s : State) : State :=
  let l := (getDie s d).forward
  let s := updDie d (fun y => { y with forward := [] }) s
  forAll l (fun i s => updSvc (fun v => { v with changes := v.changes ++ [(localKey d i, objValue s (localKey d i))] }) s) s

/-- A die's slot comes round: it exchanges its traffic with the hub. -/
def ringSlot (d : Stack) (s : State) : State :=
  let y := getDie s d
  let s := forwardObjs d s
  let s := updDie d (fun y => { y with escal := [], ownFault := none }) s
  let s := match y.ownFault with | some (k, n) => ownershipHalt d k n s | none => s
  let mine := s.hub.badWords.filter fun x => addrDie s x.1 == some d
  let s := updHub (fun h => { h with badWords := h.badWords.filter fun x => addrDie s x.1 != some d }) s
  let s := forAll mine (fun x s => hearWord x.1 x.2 s) s
  let s := if s.hub.lpLost.contains d.val then dropLpPages d (updHub (fun h => { h with lpLost := h.lpLost.filter (· ≠ d.val) }) s) else s
  forAll y.escal (fun e s => packageEscalation d e s) (leaveRetired d s)

/-- The die whose slot of the ring comes next: hub, then stacks 0 to 23, with the dies that the bypass switches pass over left out
(R26). -/
def nextOnRing (s : State) : Option Stack :=
  match allStacks.find? fun e => decide (s.hub.ringPos ≤ e.val) && onRing s e with
  | some e => some e
  | none => allStacks.find? (onRing s)

/-- A die's fixed slot of the ring revolution, in the ring's order; a die that is passed over has none (R26). -/
def execManagementRingSlot (d : Stack) (s : State) : Host.Outcome State Fault Refusal :=
  if nextOnRing s = some d then done (ringSlot d (updHub (fun h => { h with ringPos := d.val + 1 }) s)) else done s

/-- The next beat from a stack reaches its hub stack port. One of a transfer of the hub is the hub's, with its ERR; any other beat is
discarded and recorded at the unit of the stack (R22). -/
def execHubPortBeat (d : Stack) (s : State) : Host.Outcome State Fault Refusal :=
  match takeFlight (fun f => f.die == hubDie && f.router == d.val) s.crossings with
  | none => done s
  | some (f, rest) =>
    let s := { s with crossings := rest }
    if f.transit && s.hub.xfers.any fun x => x.id == f.xfer then done (if f.beat.err then noteXferErr f.xfer s else s)
    else done (packageErr d kTransit 0 s)

end Sys2Proof.Machine
end

