-- ==== Sys2Proof/Machine/Thermal.lean ====
section
/-! DEFINITION. The measurement round of a stack (R163, R164, R260, R267, R275, R299, R301, R377 to R400): activity, sensors, the
layer estimates, duties, Frost, refresh bands, ageing, and the handling of error records. Temperatures are in units of 0.125 °C,
powers in units of 0.125 W. -/
namespace Sys2Proof.Machine

/-- ⌈a / b⌉. -/
def ceilDiv (a b : Nat) : Nat := (a + b - 1) / b

/-! ### Parameters (R385, R400) -/

def riseF (s : State) (d : Stack) (f : Fld) : Nat := getF s (r_THERM_RISE_LIMIT d) f
def lookF (s : State) (d : Stack) (f : Fld) : Nat := getF s (r_THERM_LOOKAHEAD d) f

/-- The ceiling of a logic die. -/
def ceilLogic (s : State) (d : Stack) : Nat := 8 * min 105 (riseF s d f_THERM_RISE_LIMIT_CEIL_LOGIC)

/-- Is a stack in the extended refresh band? -/
def extBand (s : State) (d : Stack) : Bool := getF s (r_VC_CTRL d 0) f_VC_CTRL_REFBAND == 1

/-- The ceiling of a layer in its band. -/
def ceilLayer (s : State) (d : Stack) : Nat :=
  if extBand s d then 8 * min 105 (riseF s d f_THERM_RISE_LIMIT_CEIL_EXT) else 8 * min 95 (riseF s d f_THERM_RISE_LIMIT_CEIL_DRAM)

/-- L1, L2, HYST and the largest duty. -/
def lookL1 (s : State) (d : Stack) : Nat := max 1 (lookF s d f_THERM_LOOKAHEAD_L1)
def lookL2 (s : State) (d : Stack) : Nat := min (lookL1 s d) (max 1 (lookF s d f_THERM_LOOKAHEAD_L2))
def hyst (s : State) (d : Stack) : Nat := 8 * riseF s d f_THERM_RISE_LIMIT_HYST
def dutyMax (s : State) (d : Stack) : Nat := min 224 (lookF s d f_THERM_LOOKAHEAD_DUTY_MAX)

/-! ### Rise and thresholds (R385) -/

/-- A unit of R385: the number that PAUSE_REQ.HOT shows for it, its used temperature, that of four rounds earlier, its ceiling. -/
structure UnitTemp where
  hot : Nat
  now : Nat
  prev : Nat
  ceil : Nat
  deriving DecidableEq, Repr

/-- Does a unit reach its ceiling within `l` rounds at its rise? -/
def UnitTemp.within (u : UnitTemp) (l : Nat) : Bool :=
  decide ((4 * u.ceil : Int) ≤ 4 * u.now + ((u.now : Int) - u.prev) * l)

/-- Threshold 2. -/
def UnitTemp.atTwo (u : UnitTemp) (l2 : Nat) : Bool := u.within l2 || decide (u.ceil ≤ u.now)

/-- Is a unit cooling, below its ceiling less HYST? -/
def UnitTemp.cooling (u : UnitTemp) (hyst : Nat) : Bool := decide (u.now ≤ u.prev) && decide (u.now + hyst < u.ceil)

/-- The temperature of four rounds earlier, of a history that ends with the current round; the current one while there is none
(log entry 44). -/
def prevOf (l : List Nat) : Nat := match l with | [a, _, _, _, _] => a | _ => l.getLast?.getD 0

/-- A history of at most `n` rounds with one more. -/
def pushHist (n : Nat) (l : List Nat) (v : Nat) : List Nat := (if l.length < n then l else l.drop 1) ++ [v]

/-! ### Sensor pairs (R393, R394) -/

/-- A reading as a register shows it; outside the field's range the value is free. -/
def readingBits (v : Int) (s : State) : Nat × State := if 0 ≤ v ∧ v < 4096 then (v.toNat, s) else takeFreeNat 4096 s

/-- Is a reading outside 0–150 °C? -/
def outOfRange (v : Int) : Bool := decide (v < 0) || decide (1200 < v)

/-- Rounds in a row in which a pair differs by more than 4 °C. -/
def pairApart (a b : Nat) (fa fb : Bool) (n : Nat) : Nat :=
  if !fa && !fb && (decide (a + 32 < b) || decide (b + 32 < a)) then min 255 (n + 1) else 0

/-- The value of a pair: the higher reading, or the one that has not failed. -/
def pairValue (a b : Nat) (fa fb : Bool) : Option Nat :=
  match fa, fb with
  | true, true => none
  | true, false => some b
  | false, true => some a
  | false, false => some (max a b)

/-- SENSOR_SUSPECT of a sensor, with two readings. -/
def suspectEvent (die n a b : Nat) (s : State) : State := raiseAlert alSensor (postEvent evSensorSuspect (subj2 die n) (a + 2 ^ 64 * b) s)

/-- THERM_ALERT of a sensor. -/
def thermAlert (die n v : Nat) (s : State) : State := raiseAlert alTherm (postEvent evThermAlert (subj2 die n) v s)

def sensorRead (s : State) (d : Stack) (n : Nat) : Nat := getF s (r_SENSOR d n) f_SENSOR_READ
def sensorFailed (s : State) (d : Stack) (n : Nat) : Bool := getF s (r_SENSOR d n) f_SENSOR_FAILED == 1

/-- One sensor of a stack takes its reading. -/
def readSensor (d : Stack) (n : Nat) (v : Int) (s : State) : State :=
  let a := r_SENSOR d n
  let h := sget [] (getTherm s d).sensors n
  let (x, s) := readingBits v s
  let s := if h.length = 4 then putF a f_SENSOR_PREV4 (h.headD 0) s else s
  let s := updTherm d (fun t => { t with sensors := sput [] t.sensors n (pushHist 4 h x) }) (putF a f_SENSOR_READ x s)
  if outOfRange v then putF a f_SENSOR_FAILED 1 s else s

/-- One pair of a stack, sensors `n` and `n + 1`. -/
def readPair (d : Stack) (n : Nat) (va vb : Int) (s : State) : State :=
  let was := sensorFailed s d n && sensorFailed s d (n + 1)
  let s := readSensor d (n + 1) vb (readSensor d n va s)
  let a := sensorRead s d n
  let b := sensorRead s d (n + 1)
  let fa := sensorFailed s d n
  let fb := sensorFailed s d (n + 1)
  let k := pairApart a b fa fb (getF s (r_SENSOR d n) f_SENSOR_DIFF)
  let s := putF (r_SENSOR d n) f_SENSOR_DIFF k (putF (r_SENSOR d (n + 1)) f_SENSOR_DIFF k s)
  let low := if a < b then n else n + 1
  let s := if k = 4 ∧ getF s (r_SENSOR d low) f_SENSOR_SUSPECT = 0
    then suspectEvent (dieNo d) low a b (putF (r_SENSOR d low) f_SENSOR_SUSPECT 1 s) else s
  if fa && fb && !was then thermAlert (dieNo d) n ((if n < 32 then ceilLogic s d else ceilLayer s d) - hyst s d) s else s

/-- The value of a pair of a stack; with both sensors failed its unit's ceiling less HYST, in a layer the estimate when higher. -/
def diePair (s : State) (d : Stack) (n : Nat) : Nat :=
  match pairValue (sensorRead s d n) (sensorRead s d (n + 1)) (sensorFailed s d n) (sensorFailed s d (n + 1)) with
  | some v => v
  | none => if n < 32 then ceilLogic s d - hyst s d else max (ceilLayer s d - hyst s d) (getF s (r_THERM_EST d ((n - 32) / 4)) f_THERM_EST_EST)

/-- The sensor that gives a pair its value. -/
def pairHot (s : State) (d : Stack) (n : Nat) : Nat :=
  if sensorFailed s d n || (!sensorFailed s d (n + 1) && decide (sensorRead s d n < sensorRead s d (n + 1))) then n + 1 else n

/-! ### Layer activity and estimates (R163, R164, R391, R392) -/

def layers : List (Fin 6) := List.finRange 6

/-- Closes a layer's activity count. -/
def closeLayer (d : Stack) (l : Fin 6) (s : State) : State :=
  let a := r_LAYER_ACT d l
  let n := min (sget 0 (getDie s d).act l.val) (2 ^ 32 - 1)
  let s := putF a f_LAYER_ACT_LAST n s
  if getF s (r_LAYER_BUDGET d l) f_LAYER_BUDGET_BUDGET < n then putF a f_LAYER_ACT_OVER 1 s else s

/-- The used temperature of a layer in the round before. -/
def layerBefore (s : State) (d : Stack) (l : Nat) : Nat :=
  ((sget [] (getTherm s d).used (0x60 + l)).getLast?).getD (getF s (r_THERM_EST d l) f_THERM_EST_EST)

/-- The mean used temperature of a logic die in the round before, in 1/65536 of a unit. -/
def logicBefore (s : State) (d : Stack) : Nat :=
  (List.range 16).foldl (fun n c => n + 4096 * ((sget [] (getTherm s d).used (2 * c)).getLast?.getD (layerBefore s d 0))) 0

/-- What stands above a layer in the estimate, in 1/65536 of a unit: the layer above, or the heat sink. -/
def aboveLayer (d : Stack) (l power : Nat) (s : State) : Nat × State :=
  if l = 5 then
    let demand := getF s r_AIR f_AIR_DEMAND
    let inlet := 65536 * getF s r_AIR f_AIR_INLET
    if demand = 0 then takeFreeNat (2 ^ 28) s else (inlet + 65536 * (sget 0 s.theta d.val * power) / demand, s)
  else (65536 * layerBefore s d (l + 1), s)

/-- The new estimate of a layer in 1/65536 of a unit (log entry 43). -/
def newEstimate (d : Stack) (l power : Nat) (s : State) : Nat × State :=
  let n := getF s (r_LAYER_ACT d l) f_LAYER_ACT_LAST + sget 0 (getTherm s d).acc l
  let heat := getF s (r_THERM_EST d l) f_THERM_EST_K * n / 200000
  let below := if l = 0 then logicBefore s d else 65536 * layerBefore s d (l - 1)
  let (above, s) := aboveLayer d l power s
  let old := 65536 * getF s (r_THERM_EST d l) f_THERM_EST_EST + sget 0 (getTherm s d).frac l
  ((7 * old + (below + above) / 2 + heat) / 8, s)

/-- The six new estimates, all from the values of the round before. -/
def newEstimates (d : Stack) (power : Nat) (s : State) : List Nat × State :=
  layers.foldl (fun (r : List Nat × State) l => let (x, s) := newEstimate d l.val power r.2; (r.1 ++ [x], s)) ([], s)

/-- A counter of rounds in a row. -/
def countRow (ok : Bool) (l : Nat) (m : SMap Nat) : SMap Nat := sput 0 m l (if ok then sget 0 m l + 1 else 0)

/-- A layer takes its estimate and its measured value: EST above M by more than 6 °C twice sets DISTRUST, M within 2 °C for 16
rounds clears it; an estimate of 110 °C is counted. -/
def layerRound (d : Stack) (l x : Nat) (s : State) : State :=
  let a := r_THERM_EST d l
  let est := min 4095 (x / 65536)
  let s := updTherm d (fun t => { t with frac := sput 0 t.frac l (x % 65536) }) (putF a f_THERM_EST_EST est s)
  let p := diePair s d (32 + 4 * l)
  let q := diePair s d (34 + 4 * l)
  let m := max p q
  let s := putF a f_THERM_EST_MEAS m s
  let s := updTherm d (fun t => { t with
    estHot := countRow (decide (880 ≤ est)) l t.estHot, estOver := countRow (decide (m + 48 < est)) l t.estOver,
    estNear := countRow (decide (est ≤ m + 16)) l t.estNear }) s
  let t := getTherm s d
  if getF s a f_THERM_EST_DISTRUST = 0 then
    if sget 0 t.estOver l = 2 then suspectEvent (dieNo d) (32 + 4 * l) p q (putF a f_THERM_EST_DISTRUST 1 s) else s
  else if 16 ≤ sget 0 t.estNear l then putF a f_THERM_EST_DISTRUST 0 s else s

/-- The used temperature of a layer. -/
def layerUsed (s : State) (d : Stack) (l : Nat) : Nat :=
  let a := r_THERM_EST d l
  if getF s a f_THERM_EST_DISTRUST = 1 then getF s a f_THERM_EST_EST else getF s a f_THERM_EST_MEAS

/-- The number that HOT shows for a layer. -/
def layerHot (s : State) (d : Stack) (l : Nat) : Nat :=
  if getF s (r_THERM_EST d l) f_THERM_EST_DISTRUST = 1 then 0x60 + l
  else if diePair s d (32 + 4 * l) < diePair s d (34 + 4 * l) then pairHot s d (34 + 4 * l) else pairHot s d (32 + 4 * l)

/-- A unit's used temperature joins its history. -/
def pushUsed (d : Stack) (k v : Nat) (s : State) : State :=
  updTherm d (fun t => { t with used := sput [] t.used k (pushHist 5 (sget [] t.used k) v) }) s

/-- The units of a stack with their temperatures: 16 pairs and 6 layers. -/
def dieUnits (s : State) (d : Stack) : List UnitTemp :=
  let h := fun k => sget [] (getTherm s d).used k
  let u := fun (hot k ceil : Nat) => UnitTemp.mk hot ((h k).getLast?.getD 0) (prevOf (h k)) ceil
  (List.range 16).map (fun c => u (pairHot s d (2 * c)) (2 * c) (ceilLogic s d)) ++
    (List.range 6).map fun l => u (layerHot s d l) (0x60 + l) (ceilLayer s d)

/-! ### Refresh bands (R390) -/

/-- Puts every vault and group of a stack into a refresh band. -/
def setBand (d : Stack) (v : Nat) (s : State) : State :=
  forAll allCores (fun c s => putF (r_VC_CTRL d c) f_VC_CTRL_REFBAND v
    (forAll (List.range 24) (fun j s => putF (r_BP_CTRL d j c) f_BP_CTRL_REFBAND v s) s)) s

/-- The band of a stack follows its layers. -/
def bandRound (d : Stack) (s : State) : State :=
  let all := (List.range 6).map (layerUsed s d)
  let entry := 8 * (min 95 (riseF s d f_THERM_RISE_LIMIT_CEIL_DRAM) - riseF s d f_THERM_RISE_LIMIT_EXT_MARGIN)
  let cool := all.all fun v => decide (v < 8 * riseF s d f_THERM_RISE_LIMIT_EXT_EXIT)
  let s := updTherm d (fun t => { t with extCool := if cool then t.extCool + 1 else 0 }) s
  if extBand s d then (if 16 ≤ (getTherm s d).extCool then setBand d 0 s else s)
  else if riseF s d f_THERM_RISE_LIMIT_EXT_EN = 1 ∧ all.any fun v => decide (entry ≤ v) then
    updTherm d (fun t => { t with extCool := 0 }) (setBand d 1 s)
  else s

/-! ### Duties (R380, R386) -/

/-- Did a layer's count exceed its budget in the round that has just ended? -/
def layerOver (s : State) (d : Stack) (l : Fin 6) : Bool :=
  decide (getF s (r_LAYER_BUDGET d l) f_LAYER_BUDGET_BUDGET < getF s (r_LAYER_ACT d l) f_LAYER_ACT_LAST)

/-- A layer's excess over its budget: LAST and BUDGET of the layer that exceeds it most. -/
def worstLayer (s : State) (d : Stack) : Option (Nat × Nat) :=
  (layers.filter (layerOver s d)).foldl (fun (b : Option (Nat × Nat)) (l : Fin 6) =>
    let x := (getF s (r_LAYER_ACT d l) f_LAYER_ACT_LAST, getF s (r_LAYER_BUDGET d l) f_LAYER_BUDGET_BUDGET)
    match b with | none => some x | some y => if y.1 - y.2 < x.1 - x.2 then some x else some y) none

/-- The power duty of a stack. -/
def powerDuty (s : State) (d : Stack) (power : Nat) : Nat :=
  let cap := 8 * getF s (r_PWR_CAP d) f_PWR_CAP_CAP
  let duty := getF s (r_PAUSE_REQ d) f_PAUSE_REQ_PDUTY
  let e1 := if cap < power then ceilDiv (256 * (power - cap)) power else 0
  let e2 := match worstLayer s d with | some (n, b) => ceilDiv (256 * (n - b)) n | none => 0
  let x := if 0 < max e1 e2 then duty + max e1 e2
    else if power + 16 < cap then duty - lookF s d f_THERM_LOOKAHEAD_DOWN else duty
  min (dutyMax s d) x

/-- PDUTY, and what PWR_CAP shows of the round. -/
def powerRound (d : Stack) (power : Nat) (s : State) : State :=
  let hot := layers.foldl (fun m (l : Fin 6) => if layerOver s d l then m + 2 ^ l.val else m) 0
  let duty := powerDuty s d power
  putF (r_PWR_CAP d) f_PWR_CAP_MEAS power (putF (r_PWR_CAP d) f_PWR_CAP_OVER hot (putF (r_PAUSE_REQ d) f_PAUSE_REQ_PDUTY duty s))

/-- TDUTY and the unit that decides it; `mr4`: an LPDDR channel is above its rated range. -/
def thermDuty (s : State) (d : Stack) (mr4 : Bool) : Nat × Nat :=
  let us := dieUnits s d
  let duty := getF s (r_PAUSE_REQ d) f_PAUSE_REQ_TDUTY
  let cap := fun n => min (dutyMax s d) n
  match us.find? fun u => u.atTwo (lookL2 s d) with
  | some u => (cap (duty + lookF s d f_THERM_LOOKAHEAD_UP2), u.hot)
  | none => match us.find? fun u => u.within (lookL1 s d) with
    | some u => (cap (duty + lookF s d f_THERM_LOOKAHEAD_UP1), u.hot)
    | none =>
      if mr4 then (cap (duty + lookF s d f_THERM_LOOKAHEAD_UP1), 0xFF)
      else match us.find? fun u => !u.cooling (hyst s d) with
        | none => (cap (duty - lookF s d f_THERM_LOOKAHEAD_DOWN), 0xFF)
        | some u => (cap duty, u.hot)

/-! ### Frost (R387) -/

/-- The Frost level in effect becomes FROST_CTRL.LEVEL; when the last member leaves Frost, the hub clears ELASTIC. -/
def applyFrost (d : Stack) (s : State) : State :=
  let n := getF s (r_FROST_CTRL d) f_FROST_CTRL_LEVEL
  let was := (getTherm s d).frost
  let s := updTherm d (fun t => { t with frost := n }) s
  let s := if was = 0 ∧ n ≠ 0 then raiseAlert alFrost s else s
  if was ≠ 0 ∧ n = 0 then (match partIndex s d with | some p => settleElastic p s | none => s) else s

/-- Sets FROST_CTRL.LEVEL; a die outside every partition changes its clock at once. -/
def setFrost (d : Stack) (n : Nat) (s : State) : State :=
  let s := putF (r_FROST_CTRL d) f_FROST_CTRL_LEVEL n s
  if (partOf s d).isSome then s else applyFrost d s

/-- Threshold 2 asks for Frost or raises its level; EXIT rounds without it lower the level. -/
def frostRound (d : Stack) (two : Bool) (s : State) : State :=
  let a := r_FROST_CTRL d
  let n := getF s a f_FROST_CTRL_LEVEL
  if two then
    let s := updTherm d (fun t => { t with cool := 0 }) s
    if getF s a f_FROST_CTRL_EN = 0 then s
    else setFrost d (min (max 1 (getF s a f_FROST_CTRL_MAXLEVEL)) (n + 1)) (setElastic d s)
  else
    let k := (getTherm s d).cool + 1
    if n ≠ 0 ∧ max 1 (getF s a f_FROST_CTRL_EXIT) ≤ k then setFrost d (n - 1) (updTherm d (fun t => { t with cool := 0 }) s)
    else updTherm d (fun t => { t with cool := k }) s

/-- A Frost level takes effect between elastic steps, or in the first cycle of an elastic step that engages it (R133). -/
def execFrostLevelChange (d : Stack) (s : State) : Host.Outcome State Fault Refusal :=
  let elastic := match (partOf s d).bind fun p => stackIx p.root with
    | some r => getF s (r_FLASH_CTRL r) f_FLASH_CTRL_ELASTIC == 1
    | none => true
  let enter := (getTherm s d).frost == 0 && getF s (r_FLASH_STATUS d) f_FLASH_STATUS_ELASTIC_STEP == 1
  if elastic && (!dieRuns s d || enter) then done (applyFrost d s) else done s

/-! ### Ageing (R398) -/

/-- A core's margin is below a number of 0.01 %: COUNT against 0.94 × FRESH. -/
def marginBelow (count fresh warn : Nat) : Bool := decide (10000 * (100 * count) < (10000 + warn) * (94 * fresh))

/-- A core's margin in units of 0.01 %, rounded down; free where it is negative or FRESH is zero. -/
def marginOf (count fresh : Nat) (s : State) : Nat × State :=
  if fresh = 0 ∨ 100 * count < 94 * fresh then takeFreeNat 65536 s
  else (10000 * (100 * count - 94 * fresh) / (94 * fresh), s)

/-- Is one core's margin lower than another's? -/
def marginLess (c1 f1 c2 f2 : Nat) : Bool := decide (c1 * f2 < c2 * f1)

/-- The core with the lowest margin. -/
def worstCore (s : State) (d : Stack) : CoreIx :=
  allCores.foldl (fun b c =>
    let x := fun (k : CoreIx) (f : Fld) => getF s (r_RO_MON d k) f
    if marginLess (x c f_RO_MON_COUNT) (x c f_RO_MON_FRESH) (x b f_RO_MON_COUNT) (x b f_RO_MON_FRESH) then c else b) 0

/-- The ageing monitors of a stack: below WARN, VDD_CORE rises by one step at most once in 1,024 rounds; at VMAXSTEP, MARGIN_LOW
is posted at most once in 1,024 rounds. -/
def marginRound (d : Stack) (counts : List Nat) (s : State) : State :=
  let a := r_MARGIN d
  let s := forAll allCores (fun c s => match counts[c.val]? with | some n => putF (r_RO_MON d c) f_RO_MON_COUNT n s | none => s) s
  let w := worstCore s d
  let count := getF s (r_RO_MON d w) f_RO_MON_COUNT
  let fresh := getF s (r_RO_MON d w) f_RO_MON_FRESH
  let (m, s) := marginOf count fresh s
  let s := putF a f_MARGIN_WORSTMARGIN m (putF a f_MARGIN_WORST w.val s)
  let s := updTherm d (fun t => { t with sinceRaise := t.sinceRaise + 1, sinceLow := t.sinceLow + 1 }) s
  let low := marginBelow count fresh (getF s a f_MARGIN_WARN)
  let v := getF s a f_MARGIN_VOFFSET
  if !low then s
  else if v < getF s a f_MARGIN_VMAXSTEP then
    if 1024 ≤ (getTherm s d).sinceRaise then
      let s := putF a f_MARGIN_VOFFSET (v + 1) (updTherm d (fun t => { t with sinceRaise := 0 }) s)
      { s with voff := sput 0 s.voff d.val (v + 1) }
    else s
  else if 1024 ≤ (getTherm s d).sinceLow then
    raiseAlert alMargin (postEvent evMarginLow (subj2 (dieNo d) w.val) m (updTherm d (fun t => { t with sinceLow := 0 }) s))
  else s

/-! ### Vaults, LPDDR channels and ports (R114, R260, R267, R275, R395) -/

/-- The symbol lanes of a vault: too many errors in one lane start background retraining. -/
def vaultRound (d : Stack) (c : CoreIx) (s : State) : State :=
  let a := r_VC_STATUS d c
  let l := (getVc s d c).laneErr
  let total := l.foldl (fun n e => n + e.2) 0
  let worst := l.foldl (fun (b : Nat × Nat) e => if b.2 < e.2 then e else b) (0, 0)
  let s := putF a f_VC_STATUS_SYMERR (min 0xFFFF total) (putF a f_VC_STATUS_WORSTLANE worst.1 s)
  let s := updVc d c (fun v => { v with laneErr := [] }) s
  if max 1 (getF s (r_VC_CTRL d c) f_VC_CTRL_VTHR) ≤ worst.2 then vaultRetrain d c s else s

/-- The LPDDR device of a stack: MR4, the refresh rate, corrected symbols, and every RTINT rounds a retraining segment. -/
def lpRound (d : Stack) (mr4 : List (Nat × Bool × Bool)) (round : Nat) (s : State) : State :=
  let s := forAll (List.range 8) (fun ch s =>
    let a := r_LP_CHAN d ch
    let s := satF a f_LP_CHAN_SINCE 1 (putF a f_LP_CHAN_CORR (min 0xFFFF (sget 0 (getLp s d).corr ch)) s)
    match mr4[ch]? with | some x => putF a f_LP_CHAN_MR4 x.1 s | none => s) s
  let s := putF (r_LP_STATUS d) f_LP_STATUS_EXTBAND (if mr4.any fun x => x.2.1 then 1 else 0) (updLp d (fun p => { p with corr := [] }) s)
  let n := getF s (r_LP_CTRL d) f_LP_CTRL_RTINT
  if n ≠ 0 ∧ round % n = 0 then requestSegment d (lpSegUnits s d) (updLp d (fun p => { p with due := true }) s) else s

/-- A port with 16 or more CRC mismatches in the round starts background retraining. -/
def portRound (d : Stack) (s : State) : State :=
  let l := (getDie s d).crcRound
  forAll allPorts (fun p s => if 16 ≤ sget 0 l p.val then requestRetrain d p s else s) (updDie d (fun y => { y with crcRound := [] }) s)

/-! ### Error records (R299, R301) -/

/-- Is a die stopped under R302? -/
def dieStopped (s : State) (d : Stack) : Bool :=
  (getDie s d).stopPending ||
    (getF s (r_ERR_STATUS_die d) f_ERR_STATUS_STOPPED == 1 && getF s (r_FLASH_STATUS d) f_FLASH_STATUS_HALTED == 1)

/-- Has the handling of a unit not ended? -/
def stillHandled (s : State) (st : Station) (u : Nat) : Bool :=
  match st with
  | .engine d _ _ | .cluster d _ => dieStopped s d
  | .core d c => dieStopped s d || match u with
    | 8 => (getCore s d c).chHalted ≠ [] || (getVc s d c).rechecks.any fun r => !r.fetch
    | 4 => (getVc s d c).rechecks.any fun r => r.fetch
    | 10 => (getVc s d c).retrainReq
    | _ => false
  | .die d => dieStopped s d || match u with
    | 4 => (getLp s d).halted || !(getLp s d).rechecks.isEmpty || (getLp s d).fullLeft.any fun e => e.2 ≠ 0
    | 5 | 6 | 7 | 8 => (getDie s d).retrain.contains (u - 5)
    | _ => false
  | .package => match stackIx u with | some d => dieStopped s d | none => false

/-- A handler clears the INSERVICE bits of the units of a station whose handling has ended. -/
def clearUnits (st : Station) (s : State) : State :=
  let a := stBase st
  let v := getReg s a
  let keep := (List.range 48).foldl (fun m u => if v.getLsbD (16 + u) && stillHandled s st u then m + 2 ^ (16 + u) else m) 0
  if v.toNat < 2 ^ 16 then s else putReg s a (BitVec.ofNat 64 (v.toNat % 2 ^ 16 + keep))

/-- The stations of a die. -/
def dieStations (d : Stack) : List Station :=
  (allCores.flatMap fun c => ((List.range 4).map fun n => Station.engine d c n) ++ [.core d c]) ++
    (allClusters.map fun k => Station.cluster d k) ++ [.die d]

/-- ROUND moves into LAST; above 64 it is a Squall, which stops the partition. -/
def squallRound (d : Stack) (s : State) : State :=
  let a := r_ERR_OVERFLOW_die d
  let n := getF s a f_ERR_OVERFLOW_ROUND
  let s := putF a f_ERR_OVERFLOW_ROUND 0 (putF a f_ERR_OVERFLOW_LAST n s)
  if 64 < n then postEvent evSquall (dieNo d) n (stopPartition d (putF (r_ERR_STATUS_die d) f_ERR_STATUS_SQUALL 1 s)) else s

/-! ### A stack's round -/

/-- What a die manager does at the end of a round. `round`: HK_ROUND. -/
def dieRound (r : StackReading) (round : Nat) (s : State) : State :=
  let d := r.die
  let at_ := fun n => r.sensors.getD n 0
  let s := forAll layers (fun l s => closeLayer d l s) s
  let est := newEstimates d r.power s
  let s := updTherm d (fun t => { t with acc := [] }) (updDie d (fun y => { y with act := [] }) est.2)
  let s := forAll (List.range 28) (fun i s => readPair d (2 * i) (at_ (2 * i)) (at_ (2 * i + 1)) s) s
  let s := forAll layers (fun l s => layerRound d l.val (est.1.getD l.val 0) s) s
  let s := forAll (List.range 16) (fun c s => pushUsed d (2 * c) (diePair s d (2 * c)) s) s
  let s := forAll (List.range 6) (fun l s => pushUsed d (0x60 + l) (layerUsed s d l) s) s
  let s := lpRound d r.mr4 round (bandRound d s)
  let hot := r.mr4.any fun x => x.2.2
  let us := dieUnits s d
  let two := us.any fun u => u.atTwo (lookL2 s d)
  let one := hot || us.any fun u => u.within (lookL1 s d)
  let duty := thermDuty s d hot
  let a := r_PAUSE_REQ d
  let s := putF a f_PAUSE_REQ_T1 (if one then 1 else 0) (putF a f_PAUSE_REQ_T2 (if two then 1 else 0)
    (putF a f_PAUSE_REQ_TDUTY duty.1 (putF a f_PAUSE_REQ_HOT duty.2 s)))
  let s := if one then raiseAlert alTherm s else s
  let s := if hot then (let (v, s) := takeFreeNat (2 ^ 128) s; thermAlert (dieNo d) 0xFE v s) else s
  let s := frostRound d two (powerRound d r.power s)
  let s := marginRound d r.monitors s
  let s := portRound d (forAll allCores (fun c s => vaultRound d c s) s)
  squallRound d (forAll (dieStations d) clearUnits s)

/-- Has an estimate of a stack stood at 110 °C for two rounds (R388)? -/
def estimateTrip (s : State) (d : Stack) : Bool := (getTherm s d).estHot.any fun e => decide (2 ≤ e.2)

/-! ### Pauses (R382) -/

/-- U(d): the pause that takes d/256 of a step period of S cycles. -/
def pauseUnits (len duty : Nat) : Nat := min 0xFFFF (ceilDiv (len * duty) (256 * (256 - duty)))

/-- The root of a partition writes FLASH_PAUSE from the requests of the members. -/
def pauseRound (p : Partition) (s : State) : State :=
  match stackIx p.root with
  | none => s
  | some r =>
    let t := getTherm s r
    let a := r_PAUSE_REQ r
    let s := if t.lenCount = 0 then s else putF a f_PAUSE_REQ_S16 (t.lenSum / t.lenCount / 16) s
    let len := 16 * getF s a f_PAUSE_REQ_S16
    let top := fun (f : Fld) => (members s p).foldl (fun n (d : Stack) => max n (getF s (r_PAUSE_REQ d) f)) 0
    let power := max (top f_PAUSE_REQ_PDUTY) (getF s r_PKG_POWER f_PKG_POWER_DUTY)
    putF (r_FLASH_PAUSE r) f_FLASH_PAUSE_THERM (pauseUnits len (top f_PAUSE_REQ_TDUTY))
      (putF (r_FLASH_PAUSE r) f_FLASH_PAUSE_POWER (pauseUnits len power) s)

end Sys2Proof.Machine
end

