-- ==== Sys2Proof/Machine/Round.lean ====
section
/-! DEFINITION. The measurement round of the package (R381, R384, R388, R394 to R397, R420), and the trip comparators. -/
namespace Sys2Proof.Machine

/-! ### The hub's diodes (R393 to R395) -/

/-- The state with the hub's sensors changed. -/
def updHubTherm (f : HubTherm → HubTherm) (s : State) : State := { s with hubTherm := f s.hubTherm }

def hubFailed (s : State) (n : Nat) : Bool := sget 0 s.hubTherm.failed n == 1

/-- The hub's parameters: the reset values of the dies' registers (log entry 45). -/
def hubCeil : Nat := 8 * 105
def hubL1 : Nat := 32
def hubL2 : Nat := 4
def hubUp2 : Nat := 32
def hubDown : Nat := 2
def hubHyst : Nat := 8 * 3
def hubDutyMax : Nat := 224

/-- One of the hub's diodes takes its reading. -/
def readHubSensor (n : Nat) (v : Int) (s : State) : State :=
  let (x, s) := readingBits v s
  updHubTherm (fun t => { t with reading := sput 0 t.reading n x, failed := if outOfRange v then sput 0 t.failed n 1 else t.failed }) s

/-- The value of a pair of the hub's diodes. -/
def hubPair (s : State) (n : Nat) : Nat :=
  (pairValue (sget 0 s.hubTherm.reading n) (sget 0 s.hubTherm.reading (n + 1)) (hubFailed s n) (hubFailed s (n + 1))).getD (hubCeil - hubHyst)

/-- One pair of the hub's diodes, `n` and `n + 1`. -/
def readHubPair (n : Nat) (va vb : Int) (s : State) : State :=
  let was := hubFailed s n && hubFailed s (n + 1)
  let s := readHubSensor (n + 1) vb (readHubSensor n va s)
  let a := sget 0 s.hubTherm.reading n
  let b := sget 0 s.hubTherm.reading (n + 1)
  let k := pairApart a b (hubFailed s n) (hubFailed s (n + 1)) (sget 0 s.hubTherm.apart n)
  let s := updHubTherm (fun t => { t with apart := sput 0 t.apart n k }) s
  let low := if a < b then n else n + 1
  let s := if k = 4 ∧ sget 0 s.hubTherm.suspect low = 0
    then suspectEvent 0 low a b (updHubTherm (fun t => { t with suspect := sput 0 t.suspect low 1 }) s) else s
  let s := if hubFailed s n && hubFailed s (n + 1) && !was then thermAlert 0 n (hubCeil - hubHyst) s else s
  updHubTherm (fun t => { t with used := sput [] t.used n (pushHist 5 (sget [] t.used n) (hubPair s n)) }) s

/-- The hub's four pairs as units of R385. -/
def hubUnits (s : State) : List UnitTemp :=
  (List.range 4).map fun i =>
    let h := sget [] s.hubTherm.used (2 * i)
    ⟨2 * i, h.getLast?.getD 0, prevOf h, hubCeil⟩

/-! ### Input power (R381) -/

/-- The package duty and what PKG_POWER and SB_POWER show; `two`: the hub meets threshold 2. -/
def packagePower (r : RoundReading) (two : Bool) (s : State) : State :=
  let limit := 8 * getF s r_PKG_POWER f_PKG_POWER_LIMIT
  let duty := getF s r_PKG_POWER f_PKG_POWER_DUTY
  let x := if limit < r.power then duty + ceilDiv (256 * (r.power - limit)) r.power else duty - hubDown
  let x := min hubDutyMax (if two then x + hubUp2 else x)
  let s := putF r_PKG_POWER f_PKG_POWER_DUTY x (putF r_PKG_POWER f_PKG_POWER_INPUT r.power s)
  let s := putF r_SB_POWER f_SB_POWER_VIN r.vin (putF r_SB_POWER f_SB_POWER_IIN r.iin s)
  let s := putF r_SB_POWER f_SB_POWER_PIN r.power (putF r_SB_POWER f_SB_POWER_LIMIT (getF s r_PKG_POWER f_PKG_POWER_LIMIT) s)
  if limit < r.power then raiseAlert alPower s else s

/-! ### Air (R396, R397) -/

/-- The inlet temperature of the round: the last value written, or 45 °C once it is older than 64 rounds. -/
def inletRound (s : State) : State :=
  let s := satF r_SB_INLET f_SB_INLET_AGE 1 s
  let stale := decide (64 < getF s r_SB_INLET f_SB_INLET_AGE)
  let was := getF s r_AIR f_AIR_STALE
  let s := putF r_AIR f_AIR_STALE (if stale then 1 else 0) s
  let s := putF r_AIR f_AIR_INLET (if stale then 360 else getF s r_SB_INLET f_SB_INLET_INLET) s
  if stale && was == 0 then raiseAlert alStale s else s

/-- The demand that a stack's power asks for, in %. -/
def stackDemand (s : State) (d : Stack) : Nat :=
  ceilDiv (sget 0 s.theta d.val * getF s (r_PWR_CAP d) f_PWR_CAP_MEAS)
    (8 * getF s r_AIR f_AIR_TARGET - getF s r_AIR f_AIR_INLET)

/-- The demand of the round; `one`: the hub meets threshold 1. -/
def airDemand (s : State) (one : Bool) : Nat :=
  if one || decide (8 * getF s r_AIR f_AIR_TARGET ≤ getF s r_AIR f_AIR_INLET) then 100
  else
    let most := (allStacks.filter fun d => s.present.contains d.val).foldl (fun m d => max m (stackDemand s d)) 0
    min 100 (max (min 100 (getF s r_AIR f_AIR_DEMAND_MIN)) most)

/-- The published demand: a higher one at once, a lower one by 1 % once it has held for 64 rounds. -/
def airRound (one : Bool) (s : State) : State :=
  let want := airDemand s one
  let now := getF s r_AIR f_AIR_DEMAND
  if now < want then raiseAlert alDemand (putF r_AIR f_AIR_DEMAND want (updHubTherm (fun t => { t with lower := 0 }) s))
  else if want < now then
    let k := s.hubTherm.lower + 1
    if 64 ≤ k then putF r_AIR f_AIR_DEMAND (now - 1) (updHubTherm (fun t => { t with lower := 0 }) s)
    else updHubTherm (fun t => { t with lower := k }) s
  else updHubTherm (fun t => { t with lower := 0 }) s

/-! ### The thermal summary (SB_THERM) -/

/-- The hottest of some units with their die numbers: temperature, ceiling, die; the first of equal ones. -/
def hottest (l : List (Nat × UnitTemp)) : Nat × Nat × Nat :=
  l.foldl (fun b x => if b.1 < x.2.now then (x.2.now, x.2.ceil, x.1) else b) (0, 0, 0)

/-- SB_THERM at the end of a round; `one`, `two`: a threshold held on some unit. -/
def summary (one two : Bool) (s : State) : State :=
  let here := allStacks.filter fun d => s.present.contains d.val
  let dies := here.flatMap fun d => (dieUnits s d).map fun u => (dieNo d, u)
  let inLayer := fun (u : UnitTemp) => decide (32 ≤ u.hot)
  let logic := hottest ((dies.filter fun x => !inLayer x.2) ++ (hubUnits s).map fun u => (0, u))
  let dram := hottest (dies.filter fun x => inLayer x.2)
  let nearLogic := decide (logic.2.1 + dram.1 ≤ dram.2.1 + logic.1)
  let b := fun (x : Bool) => if x then 1 else 0
  let f := fun (fld : Fld) (n : Nat) (s : State) => putF r_SB_THERM fld n s
  let s := f f_SB_THERM_DEMAND (getF s r_AIR f_AIR_DEMAND) (f f_SB_THERM_TARGET (getF s r_AIR f_AIR_TARGET) s)
  let s := f f_SB_THERM_TLOGIC logic.1 (f f_SB_THERM_TDRAM dram.1 s)
  let s := f f_SB_THERM_HOTDIE (if nearLogic then logic.2.2 else dram.2.2) s
  let s := f f_SB_THERM_T1 (b one) (f f_SB_THERM_T2 (b two) s)
  f f_SB_THERM_FROST (b (here.any fun d => (getTherm s d).frost ≠ 0)) (f f_SB_THERM_EXTBAND (b (here.any fun d => extBand s d)) s)

/-! ### The round -/

/-- The handlers report the new records of the round (R299). -/
def reportErrors (s : State) : State :=
  clearUnits .package (updHub (fun h => { h with errLog := h.errLog ++ h.errNew, errNew := [] }) s)

/-- The hub tries a switch to full rate that is ready again at the end of a measurement round (R371). -/
def frAgain (s : State) : State :=
  if s.bring.frReady && !s.hub.frQuiet then updHub (fun h => { h with frQuiet := true, transitStopped := true }) s else s

/-- A measurement round ends: the dies, the hub, then the roots of the partitions (log entry 46). -/
def measurementRound (r : RoundReading) (s : State) : State :=
  let s := inletRound (bumpF r_HK_ROUND f_HK_ROUND_ROUND 1 s)
  let rs := r.dies.filter fun x => onRing s x.die
  let s := forAll rs (fun x s => dieRound x (getF s r_HK_ROUND f_HK_ROUND_ROUND) s) s
  let s := forAll (List.range 4) (fun i s => readHubPair (2 * i) (r.hub.getD (2 * i) 0) (r.hub.getD (2 * i + 1) 0) s) s
  let us := hubUnits s
  let two := us.any fun u => u.atTwo hubL2
  let one := us.any fun u => u.within hubL1
  let s := if one then raiseAlert alTherm s else s
  let s := airRound one (packagePower r two s)
  let s := forAll s.parts pauseRound s
  let s := forAll rs (fun x s => updTherm x.die (fun t => { t with lenSum := 0, lenCount := 0 }) s) s
  let held := fun (f : Fld) => rs.any fun x => getF s (r_PAUSE_REQ x.die) f == 1
  let s := reportErrors (summary (one || held f_PAUSE_REQ_T1) (two || held f_PAUSE_REQ_T2) s)
  frAgain (if rs.any fun x => estimateTrip s x.die then thermalTrip s else s)

/-- The housekeeping sequencer ends a measurement round (R384). -/
def execMeasurementRound (r : RoundReading) (s : State) : Host.Outcome State Fault Refusal := done (measurementRound r s)

/-- The trip level of a sensor: 118 °C on logic dies and the hub, 110 °C on layers (R388). -/
def tripLevel (die : Option Stack) (n : Nat) : Int := match die with | some _ => if n < 32 then 944 else 880 | none => 944

/-- A reading at or above its trip level asserts the thermal trip without firmware (R388). -/
def execTripComparator (die : Option Stack) (n : Fin 56) (reading : Int) (s : State) : Host.Outcome State Fault Refusal :=
  if die = none ∧ 8 ≤ n.val then done s
  else if tripLevel die n.val ≤ reading then done (thermalTrip s) else done s

end Sys2Proof.Machine
end

