-- ==== Sys2Proof/Machine/Dispatch.lean ====
section
/-! DEFINITION. One arm for each command: the direct call of its meaning, or its refusal by name. -/
namespace Sys2Proof.Machine

/-- The effect of a command on everything but the queue. -/
def exec (i : Instr) (s : State) : Host.Outcome State Fault Refusal :=
  match i with
  | .registerWrite a v => Sys2Proof.Machine.execRegisterWrite a v s
  | .managementRingSlot d => Sys2Proof.Machine.execManagementRingSlot d s
  | .hubPortBeat d => Sys2Proof.Machine.execHubPortBeat d s
  | .launch d parityOk => Sys2Proof.Machine.execLaunch d parityOk s
  | .launchElastic d parityOk heads => Sys2Proof.Machine.execLaunchElastic d parityOk heads s
  | .thunderCountExpiry d c gap parity => Sys2Proof.Machine.execThunderCountExpiry d c gap parity s
  | .fetchSlot d c upsets => Sys2Proof.Machine.execFetchSlot d c upsets s
  | .fetchWordsReady d c => Sys2Proof.Machine.execFetchWordsReady d c s
  | .nop d c => Sys2Proof.Machine.execNop d c s
  | .mac d c parity sets => Sys2Proof.Machine.execMac d c parity sets s
  | .macBlockUpdate d c bad => Sys2Proof.Machine.execMacBlockUpdate d c bad s
  | .opload d c parity => Sys2Proof.Machine.execOpload d c parity s
  | .oploadComplete d c => Sys2Proof.Machine.execOploadComplete d c s
  | .swap d c => Sys2Proof.Machine.execSwap d c s
  | .drain d c parity check => Sys2Proof.Machine.execDrain d c parity check s
  | .accld d c parity => Sys2Proof.Machine.execAccld d c parity s
  | .vdma d c parity upsets => Sys2Proof.Machine.execVdma d c parity upsets s
  | .vaultReadBeat d c upsets => Sys2Proof.Machine.execVaultReadBeat d c upsets s
  | .endWord d c => Sys2Proof.Machine.execEndWord d c s
  | .stepEndOffset d len heads => Sys2Proof.Machine.execStepEndOffset d len heads s
  | .coreReset d => Sys2Proof.Machine.execCoreReset d s
  | .tileInitDone d c => Sys2Proof.Machine.execTileInitDone d c s
  | .convert d c check => Sys2Proof.Machine.execConvert d c check s
  | .add d c check => Sys2Proof.Machine.execAdd d c check s
  | .sub d c check => Sys2Proof.Machine.execSub d c check s
  | .mul d c check => Sys2Proof.Machine.execMul d c check s
  | .muladd d c check => Sys2Proof.Machine.execMuladd d c check s
  | .max d c check => Sys2Proof.Machine.execMax d c check s
  | .min d c check => Sys2Proof.Machine.execMin d c check s
  | .relu d c check => Sys2Proof.Machine.execRelu d c check s
  | .exp d c check => Sys2Proof.Machine.execExp d c check s
  | .exp2 d c check => Sys2Proof.Machine.execExp2 d c check s
  | .log d c check => Sys2Proof.Machine.execLog d c check s
  | .log2 d c check => Sys2Proof.Machine.execLog2 d c check s
  | .rcp d c check => Sys2Proof.Machine.execRcp d c check s
  | .rsqrt d c check => Sys2Proof.Machine.execRsqrt d c check s
  | .sqrt d c check => Sys2Proof.Machine.execSqrt d c check s
  | .sigmoid d c check => Sys2Proof.Machine.execSigmoid d c check s
  | .tanh d c check => Sys2Proof.Machine.execTanh d c check s
  | .silu d c check => Sys2Proof.Machine.execSilu d c check s
  | .gelu d c check => Sys2Proof.Machine.execGelu d c check s
  | .softplus d c check => Sys2Proof.Machine.execSoftplus d c check s
  | .sinpi d c check => Sys2Proof.Machine.execSinpi d c check s
  | .cospi d c check => Sys2Proof.Machine.execCospi d c check s
  | .rsum d c check => Sys2Proof.Machine.execRsum d c check s
  | .rsumsq d c check => Sys2Proof.Machine.execRsumsq d c check s
  | .rmax d c check => Sys2Proof.Machine.execRmax d c check s
  | .softmax d c check => Sys2Proof.Machine.execSoftmax d c check s
  | .rmsnorm d c check => Sys2Proof.Machine.execRmsnorm d c check s
  | .layernorm d c check => Sys2Proof.Machine.execLayernorm d c check s
  | .smerge d c check => Sys2Proof.Machine.execSmerge d c check s
  | .linkBeatReceive d p flips crcFlip => Sys2Proof.Machine.execLinkBeatReceive d p flips crcFlip s
  | .linkRetrainSegment d p here there => Sys2Proof.Machine.execLinkRetrainSegment d p here there s
  | .linkHalfWidthDrop d p => Sys2Proof.Machine.execLinkHalfWidthDrop d p s
  | .route d c => Sys2Proof.Machine.execRoute d c s
  | .routeTakesEffect d k => Sys2Proof.Machine.execRouteTakesEffect d k s
  | .send d c parity => Sys2Proof.Machine.execSend d c parity s
  | .recv d c gate => Sys2Proof.Machine.execRecv d c gate s
  | .rsend d c parity => Sys2Proof.Machine.execRsend d c parity s
  | .routerInputBeat d k p off parity => Sys2Proof.Machine.execRouterInputBeat d k p off parity s
  | .transitSlot d off => Sys2Proof.Machine.execTransitSlot d off s
  | .hubTransitTransfer e write addr len data owner page => Sys2Proof.Machine.execHubTransitTransfer e write addr len data owner page s
  | .transitCompletion id => Sys2Proof.Machine.execTransitCompletion id s
  | .transitErrorResponse id e => Sys2Proof.Machine.execTransitErrorResponse id e s
  | .transitTimeout id e => Sys2Proof.Machine.execTransitTimeout id e s
  | .corePortHeader d c => Sys2Proof.Machine.execCorePortHeader d c s
  | .adderContributionBeat d c => Sys2Proof.Machine.execAdderContributionBeat d c s
  | .adderResult d u bad upsets => Sys2Proof.Machine.execAdderResult d u bad upsets s
  | .launchQueueTake d => Sys2Proof.Machine.execLaunchQueueTake d s
  | .rootLaunchSend d gap => Sys2Proof.Machine.execRootLaunchSend d gap s
  | .firstLaunch d gap => Sys2Proof.Machine.execFirstLaunch d gap s
  | .flashLqWrite d v => Sys2Proof.Machine.execFlashLqWrite d v s
  | .flashDone d parityOk => Sys2Proof.Machine.execFlashDone d parityOk s
  | .abort d parityOk => Sys2Proof.Machine.execAbort d parityOk s
  | .rearm d => Sys2Proof.Machine.execRearm d s
  | .elasticClear d => Sys2Proof.Machine.execElasticClear d s
  | .quietIntervalEnd d => Sys2Proof.Machine.execQuietIntervalEnd d s
  | .ldownReceived d p => Sys2Proof.Machine.execLdownReceived d p s
  | .neighbourClockLoss d p => Sys2Proof.Machine.execNeighbourClockLoss d p s
  | .persistentLinkFailure d p => Sys2Proof.Machine.execPersistentLinkFailure d p s
  | .portIsolateWrite d p v => Sys2Proof.Machine.execPortIsolateWrite d p v s
  | .portRetrain d p => Sys2Proof.Machine.execPortRetrain d p s
  | .portClrcnt d p => Sys2Proof.Machine.execPortClrcnt d p s
  | .dieSystemReset d => Sys2Proof.Machine.execDieSystemReset d s
  | .transitReroute entries => Sys2Proof.Machine.execTransitReroute entries s
  | .bpStart d c => Sys2Proof.Machine.execBpStart d c s
  | .bpRelease d c => Sys2Proof.Machine.execBpRelease d c s
  | .rv32imcInstruction d c j ue parity => Sys2Proof.Machine.execRv32imcInstruction d c j ue parity s
  | .vld d c j parity => Sys2Proof.Machine.execVld d c j parity s
  | .vst d c j parity => Sys2Proof.Machine.execVst d c j parity s
  | .vopFadd d c j parity => Sys2Proof.Machine.execVopFadd d c j parity s
  | .vopFsub d c j parity => Sys2Proof.Machine.execVopFsub d c j parity s
  | .vopFmul d c j parity => Sys2Proof.Machine.execVopFmul d c j parity s
  | .vopFmax d c j parity => Sys2Proof.Machine.execVopFmax d c j parity s
  | .vopFmin d c j parity => Sys2Proof.Machine.execVopFmin d c j parity s
  | .vopFmac d c j parity => Sys2Proof.Machine.execVopFmac d c j parity s
  | .vopFexp d c j parity => Sys2Proof.Machine.execVopFexp d c j parity s
  | .vopFrcp d c j parity => Sys2Proof.Machine.execVopFrcp d c j parity s
  | .vopsFadd d c j parity => Sys2Proof.Machine.execVopsFadd d c j parity s
  | .vopsFsub d c j parity => Sys2Proof.Machine.execVopsFsub d c j parity s
  | .vopsFmul d c j parity => Sys2Proof.Machine.execVopsFmul d c j parity s
  | .vopsFmax d c j parity => Sys2Proof.Machine.execVopsFmax d c j parity s
  | .vopsFmin d c j parity => Sys2Proof.Machine.execVopsFmin d c j parity s
  | .vsplat d c j parity => Sys2Proof.Machine.execVsplat d c j parity s
  | .vlim d c j parity => Sys2Proof.Machine.execVlim d c j parity s
  | .vmsk d c j parity => Sys2Proof.Machine.execVmsk d c j parity s
  | .vredRsum d c j parity => Sys2Proof.Machine.execVredRsum d c j parity s
  | .vredRmax d c j parity => Sys2Proof.Machine.execVredRmax d c j parity s
  | .vcvtLo d c j parity => Sys2Proof.Machine.execVcvtLo d c j parity s
  | .vcvtHi d c j parity => Sys2Proof.Machine.execVcvtHi d c j parity s
  | .vcvtPack d c j parity => Sys2Proof.Machine.execVcvtPack d c j parity s
  | .k4qk d c j parity => Sys2Proof.Machine.execK4qk d c j parity s
  | .k4av d c j parity => Sys2Proof.Machine.execK4av d c j parity s
  | .k4q d c j parity => Sys2Proof.Machine.execK4q d c j parity s
  | .qoff d c j parity => Sys2Proof.Machine.execQoff d c j parity s
  | .qbnd d c j parity => Sys2Proof.Machine.execQbnd d c j parity s
  | .qld d c j parity => Sys2Proof.Machine.execQld d c j parity s
  | .sld d c j parity => Sys2Proof.Machine.execSld d c j parity s
  | .sst d c j parity => Sys2Proof.Machine.execSst d c j parity s
  | .oaccrd d c j parity => Sys2Proof.Machine.execOaccrd d c j parity s
  | .oaccscl d c j parity => Sys2Proof.Machine.execOaccscl d c j parity s
  | .oaccclr d c j parity => Sys2Proof.Machine.execOaccclr d c j parity s
  | .bvLdr d c j parity => Sys2Proof.Machine.execBvLdr d c j parity s
  | .bvStr d c j parity => Sys2Proof.Machine.execBvStr d c j parity s
  | .bvStp d c j parity => Sys2Proof.Machine.execBvStp d c j parity s
  | .bvCpy d c j parity => Sys2Proof.Machine.execBvCpy d c j parity s
  | .bvFence d c j parity => Sys2Proof.Machine.execBvFence d c j parity s
  | .bvHalt d c j parity => Sys2Proof.Machine.execBvHalt d c j parity s
  | .bpMergeTimeout d c j => Sys2Proof.Machine.execBpMergeTimeout d c j s
  | .bpStop d c j => Sys2Proof.Machine.execBpStop d c j s
  | .hostWindow d c j => Sys2Proof.Machine.execHostWindow d c j s
  | .hostQueueArrival d c id write addr len data arrived upsets => Sys2Proof.Machine.execHostQueueArrival d c id write addr len data arrived upsets s
  | .openSession => Sys2Proof.Machine.execOpenSession s
  | .forkSession => Sys2Proof.Machine.execForkSession s
  | .closeSession => Sys2Proof.Machine.execCloseSession s
  | .truncateSession => Sys2Proof.Machine.execTruncateSession s
  | .setSession => Sys2Proof.Machine.execSetSession s
  | .sessionInfo => Sys2Proof.Machine.execSessionInfo s
  | .forkTask slot => Sys2Proof.Machine.execForkTask slot s
  | .closeTask slot => Sys2Proof.Machine.execCloseTask slot s
  | .truncateTask slot => Sys2Proof.Machine.execTruncateTask slot s
  | .copyTask slot => Sys2Proof.Machine.execCopyTask slot s
  | .pageAllocation slot => Sys2Proof.Machine.execPageAllocation slot s
  | .demotion k pool => Sys2Proof.Machine.execDemotion k pool s
  | .pageMove n image => Sys2Proof.Machine.execPageMove n image s
  | .sourceFrameFree => Sys2Proof.Machine.execSourceFrameFree s
  | .sessionStale slot => Sys2Proof.Machine.execSessionStale slot s
  | .missPromotion slot => Sys2Proof.Machine.execMissPromotion slot s
  | .prefetchPromotion k => Sys2Proof.Machine.execPrefetchPromotion k s
  | .commitRecordProcessing p q => Sys2Proof.Machine.execCommitRecordProcessing p q s
  | .publishError p => Sys2Proof.Machine.execPublishError p s
  | .loadGraph => Sys2Proof.Machine.execLoadGraph s
  | .graphLoadComplete handle img sig pl => Sys2Proof.Machine.execGraphLoadComplete handle img sig pl s
  | .unloadGraph => Sys2Proof.Machine.execUnloadGraph s
  | .syncObjWrite n v => Sys2Proof.Machine.execSyncObjWrite n v s
  | .syncSignal v => Sys2Proof.Machine.execSyncSignal v s
  | .lsyncObjWrite d n v => Sys2Proof.Machine.execLsyncObjWrite d n v s
  | .lsyncSignal d v => Sys2Proof.Machine.execLsyncSignal d v s
  | .objectObserved => Sys2Proof.Machine.execObjectObserved s
  | .instanceReady p => Sys2Proof.Machine.execInstanceReady p s
  | .doldrums n => Sys2Proof.Machine.execDoldrums n s
  | .inputRingDoorbell ring prod => Sys2Proof.Machine.execInputRingDoorbell ring prod s
  | .inputTokens ring rec => Sys2Proof.Machine.execInputTokens ring rec s
  | .budgetAdd ring rec => Sys2Proof.Machine.execBudgetAdd ring rec s
  | .budgetSet ring rec => Sys2Proof.Machine.execBudgetSet ring rec s
  | .outputRingDoorbell ring cons => Sys2Proof.Machine.execOutputRingDoorbell ring cons s
  | .controllerWindow d c => Sys2Proof.Machine.execControllerWindow d c s
  | .vaultHostRequest d c id write addr len data arrived upsets => Sys2Proof.Machine.execVaultHostRequest d c id write addr len data arrived upsets s
  | .ldmaRead d c upsets => Sys2Proof.Machine.execLdmaRead d c upsets s
  | .ldmaWrite d c parity => Sys2Proof.Machine.execLdmaWrite d c parity s
  | .ldmaGather d c parity upsets => Sys2Proof.Machine.execLdmaGather d c parity upsets s
  | .lpddrFrame d => Sys2Proof.Machine.execLpddrFrame d s
  | .lpddrHostRequest d id write addr len data upsets => Sys2Proof.Machine.execLpddrHostRequest d id write addr len data upsets s
  | .lpddrRetrainSegment d ok => Sys2Proof.Machine.execLpddrRetrainSegment d ok s
  | .lpddrChannelRetrain d ch => Sys2Proof.Machine.execLpddrChannelRetrain d ch s
  | .vaultRetrain d c => Sys2Proof.Machine.execVaultRetrain d c s
  | .vaultRetrainSegment d c t => Sys2Proof.Machine.execVaultRetrainSegment d c t s
  | .vaultHalfWidth d c => Sys2Proof.Machine.execVaultHalfWidth d c s
  | .loadWeights chunk reached => Sys2Proof.Machine.execLoadWeights chunk reached s
  | .recheck d u upsets => Sys2Proof.Machine.execRecheck d u upsets s
  | .dieManagerUe site => Sys2Proof.Machine.execDieManagerUe site s
  | .drizzleRead d u late upsets => Sys2Proof.Machine.execDrizzleRead d u late upsets s
  | .drizzleWriteback d u upsets => Sys2Proof.Machine.execDrizzleWriteback d u upsets s
  | .rowTest d u sound spare frame => Sys2Proof.Machine.execRowTest d u sound spare frame s
  | .mergeEntryTimeout d u upsets => Sys2Proof.Machine.execMergeEntryTimeout d u upsets s
  | .errPrimaryClear st => Sys2Proof.Machine.execErrPrimaryClear st s
  | .stopPartition d => Sys2Proof.Machine.execStopPartition d s
  | .stopAbort d => Sys2Proof.Machine.execStopAbort d s
  | .eccFlipmaskArm d u v => Sys2Proof.Machine.execEccFlipmaskArm d u v s
  | .carrierFlitReceive twin flit e ops => Sys2Proof.Machine.execCarrierFlitReceive twin flit e ops s
  | .resend twin fack => Sys2Proof.Machine.execResend twin fack s
  | .camnerLinkDownRetry lanes => Sys2Proof.Machine.execCamnerLinkDownRetry lanes s
  | .winRead tag addr len e => Sys2Proof.Machine.execWinRead tag addr len e s
  | .winWrite tag addr len data e => Sys2Proof.Machine.execWinWrite tag addr len data e s
  | .fetch => Sys2Proof.Machine.execFetch s
  | .fetchHold => Sys2Proof.Machine.execFetchHold s
  | .store => Sys2Proof.Machine.execStore s
  | .release => Sys2Proof.Machine.execRelease s
  | .recall tag addr => Sys2Proof.Machine.execRecall tag addr s
  | .doneMsg tag status => Sys2Proof.Machine.execDoneMsg tag status s
  | .doneData tag status data => Sys2Proof.Machine.execDoneData tag status data s
  | .go => Sys2Proof.Machine.execGo s
  | .commandCompletion us => Sys2Proof.Machine.execCommandCompletion us s
  | .identify => Sys2Proof.Machine.execIdentify s
  | .getIdKey ok => Sys2Proof.Machine.execGetIdKey ok s
  | .attest ok => Sys2Proof.Machine.execAttest ok s
  | .closeDebug => Sys2Proof.Machine.execCloseDebug s
  | .advanceRollback => Sys2Proof.Machine.execAdvanceRollback s
  | .setPartitions block tables => Sys2Proof.Machine.execSetPartitions block tables s
  | .rearmPartition => Sys2Proof.Machine.execRearmPartition s
  | .setRing => Sys2Proof.Machine.execSetRing s
  | .setPowerCap => Sys2Proof.Machine.execSetPowerCap s
  | .pairTwin => Sys2Proof.Machine.execPairTwin s
  | .resyncTwin => Sys2Proof.Machine.execResyncTwin s
  | .failover lines => Sys2Proof.Machine.execFailover lines s
  | .detach late => Sys2Proof.Machine.execDetach late s
  | .setTwinMode => Sys2Proof.Machine.execSetTwinMode s
  | .resetDomain => Sys2Proof.Machine.execResetDomain s
  | .scrubRegion => Sys2Proof.Machine.execScrubRegion s
  | .retrain late => Sys2Proof.Machine.execRetrain late s
  | .retrainComplete n => Sys2Proof.Machine.execRetrainComplete n s
  | .getTelemetry ok => Sys2Proof.Machine.execGetTelemetry ok s
  | .getMemmap ok => Sys2Proof.Machine.execGetMemmap ok s
  | .getLog ok => Sys2Proof.Machine.execGetLog ok s
  | .msiHoldoffExpiry => Sys2Proof.Machine.execMsiHoldoffExpiry s
  | .heartbeatSend => Sys2Proof.Machine.execHeartbeatSend s
  | .heartbeat seq mode flevel ack => Sys2Proof.Machine.execHeartbeat seq mode flevel ack s
  | .heartbeatMiss => Sys2Proof.Machine.execHeartbeatMiss s
  | .twinLinkTrainRetry ok => Sys2Proof.Machine.execTwinLinkTrainRetry ok s
  | .mirOp slot op => Sys2Proof.Machine.execMirOp slot op s
  | .mirBegin sid gen old new seq => Sys2Proof.Machine.execMirBegin sid gen old new seq s
  | .mirData addr len data => Sys2Proof.Machine.execMirData addr len data s
  | .mirEnd dsb => Sys2Proof.Machine.execMirEnd dsb s
  | .mirAck seq => Sys2Proof.Machine.execMirAck seq s
  | .mirStop => Sys2Proof.Machine.execMirStop s
  | .fence n => Sys2Proof.Machine.execFence n s
  | .twinDetachMsg => Sys2Proof.Machine.execTwinDetachMsg s
  | .backgroundCopy => Sys2Proof.Machine.execBackgroundCopy s
  | .pwrGoodInactive => Sys2Proof.Machine.execPwrGoodInactive s
  | .pwrGoodActive => Sys2Proof.Machine.execPwrGoodActive s
  | .refclkAbsent => Sys2Proof.Machine.execRefclkAbsent s
  | .refclkReturn => Sys2Proof.Machine.execRefclkReturn s
  | .resetLAccepted => Sys2Proof.Machine.execResetLAccepted s
  | .resetLRelease => Sys2Proof.Machine.execResetLRelease s
  | .watchdogExpiry ms => Sys2Proof.Machine.execWatchdogExpiry ms s
  | .kick ms => Sys2Proof.Machine.execKick ms s
  | .thermalTrip => Sys2Proof.Machine.execThermalTrip s
  | .debugReset level scope => Sys2Proof.Machine.execDebugReset level scope s
  | .resetAssertionEnd scope => Sys2Proof.Machine.execResetAssertionEnd scope s
  | .hubRelease => Sys2Proof.Machine.execHubRelease s
  | .ringRelease => Sys2Proof.Machine.execRingRelease s
  | .dieManagerRelease scope => Sys2Proof.Machine.execDieManagerRelease scope s
  | .fabricRelease scope => Sys2Proof.Machine.execFabricRelease scope s
  | .controllerRelease scope => Sys2Proof.Machine.execControllerRelease scope s
  | .dramBpRelease scope => Sys2Proof.Machine.execDramBpRelease scope s
  | .coreRelease scope => Sys2Proof.Machine.execCoreRelease scope s
  | .stackRecovery d found => Sys2Proof.Machine.execStackRecovery d found s
  | .camnerTrain lanes => Sys2Proof.Machine.execCamnerTrain lanes s
  | .hubFirmwareLoad ext sigs => Sys2Proof.Machine.execHubFirmwareLoad ext sigs s
  | .ringEnumeration found => Sys2Proof.Machine.execRingEnumeration found s
  | .topologyDiscovery maps => Sys2Proof.Machine.execTopologyDiscovery maps s
  | .dieToDieTraining tests => Sys2Proof.Machine.execDieToDieTraining tests s
  | .vaultVerticalTraining tests => Sys2Proof.Machine.execVaultVerticalTraining tests s
  | .lpddrTraining failed => Sys2Proof.Machine.execLpddrTraining failed s
  | .gale auth bad => Sys2Proof.Machine.execGale auth bad s
  | .memoryInitialisation bad => Sys2Proof.Machine.execMemoryInitialisation bad s
  | .thermalCalibration bad meas => Sys2Proof.Machine.execThermalCalibration bad meas s
  | .topologyCheck read => Sys2Proof.Machine.execTopologyCheck read s
  | .thaw tables => Sys2Proof.Machine.execThaw tables s
  | .fullRateTraining links tests => Sys2Proof.Machine.execFullRateTraining links tests s
  | .ready => Sys2Proof.Machine.execReady s
  | .bringStepTimeout ms => Sys2Proof.Machine.execBringStepTimeout ms s
  | .fullRateSwitch ok => Sys2Proof.Machine.execFullRateSwitch ok s
  | .quietPeriodTimeout => Sys2Proof.Machine.execQuietPeriodTimeout s
  | .install ok => Sys2Proof.Machine.execInstall ok s
  | .measurementRound r => Sys2Proof.Machine.execMeasurementRound r s
  | .frostLevelChange d => Sys2Proof.Machine.execFrostLevelChange d s
  | .tripComparator die n reading => Sys2Proof.Machine.execTripComparator die n reading s
  | .railFault => Sys2Proof.Machine.execRailFault s
  | .undervoltage => Sys2Proof.Machine.execUndervoltage s
  | .overvoltage => Sys2Proof.Machine.execOvervoltage s
  | .conversionStart applied => Sys2Proof.Machine.execConversionStart applied s
  | .twinPresentChange active us => Sys2Proof.Machine.execTwinPresentChange active us s
  | .twinAliveChange active us => Sys2Proof.Machine.execTwinAliveChange active us s
  | .inputRearm alive us => Sys2Proof.Machine.execInputRearm alive us s
  | .unmaskPres => Sys2Proof.Machine.execUnmaskPres s
  | .unmaskAlive => Sys2Proof.Machine.execUnmaskAlive s
  | .i3cPrivateWrite bytes => Sys2Proof.Machine.execI3cPrivateWrite bytes s
  | .i3cPrivateRead n => Sys2Proof.Machine.execI3cPrivateRead n s
  | .entdaa addr => Sys2Proof.Machine.execEntdaa addr s
  | .rstdaa => Sys2Proof.Machine.execRstdaa s
  | .setnewda addr => Sys2Proof.Machine.execSetnewda addr s
  | .enec ibi hj => Sys2Proof.Machine.execEnec ibi hj s
  | .disec ibi hj => Sys2Proof.Machine.execDisec ibi hj s
  | .getpid => Sys2Proof.Machine.execGetpid s
  | .getbcr => Sys2Proof.Machine.execGetbcr s
  | .getdcr => Sys2Proof.Machine.execGetdcr s
  | .getstatus => Sys2Proof.Machine.execGetstatus s
  | .getmwl => Sys2Proof.Machine.execGetmwl s
  | .getmrl => Sys2Proof.Machine.execGetmrl s
  | .sclLowTimeout => Sys2Proof.Machine.execSclLowTimeout s
  | .inBandInterrupt us => Sys2Proof.Machine.execInBandInterrupt us s
  | .inletWrite v => Sys2Proof.Machine.execInletWrite v s
  | .bringStepDone ms => Sys2Proof.Machine.execBringStepDone ms s
  | .camnerRetrainEnd twin ok => Sys2Proof.Machine.execCamnerRetrainEnd twin ok s
  | .writePulseEnd ok => Sys2Proof.Machine.execWritePulseEnd ok s
  | .packageResetTakesEffect => Sys2Proof.Machine.execPackageResetTakesEffect s
  | .installComplete ok => Sys2Proof.Machine.execInstallComplete ok s

end Sys2Proof.Machine
end

