-- ==== Sys2Proof/Laws/SMap.lean ====
section
/-! SUPPORT. What the operations of sparse data do: a key reads what was put there, other keys read as before, and every operation
keeps the canonical form. -/
namespace Sys2Proof.Machine

variable {α : Type}

theorem keysAbove_cons {a : Nat} {p : Nat × α} {m : SMap α} : keysAbove a (p :: m) ↔ a < p.1 ∧ keysAbove a m := by
  simp [keysAbove]

theorem keysAbove_mono {a b : Nat} {m : SMap α} (h : a ≤ b) (hm : keysAbove b m) : keysAbove a m :=
  fun p hp => Nat.lt_of_le_of_lt h (hm p hp)

theorem srising_cons {p : Nat × α} {m : SMap α} : srising (p :: m) = true ↔ keysAbove p.1 m ∧ srising m = true := by
  induction m generalizing p with
  | nil => simp [srising, keysAbove]
  | cons q m ih =>
    obtain ⟨k, v⟩ := p
    obtain ⟨k', v'⟩ := q
    simp only [srising, Bool.and_eq_true, decide_eq_true_eq, keysAbove_cons, ih]
    constructor
    · rintro ⟨h, h1, h2⟩
      exact ⟨⟨h, keysAbove_mono (Nat.le_of_lt h) h1⟩, h1, h2⟩
    · rintro ⟨⟨h, _⟩, h1, h2⟩
      exact ⟨h, h1, h2⟩

/-- A key that is not listed reads the default. -/
theorem sget_of_not_mem {d : α} {m : SMap α} {a : Nat} (h : ∀ p ∈ m, p.1 ≠ a) : sget d m a = d := by
  induction m with
  | nil => rfl
  | cons p m ih =>
    obtain ⟨k, v⟩ := p
    simp only [sget]
    rw [if_neg (h (k, v) (by simp)), ih fun q hq => h q (by simp [hq])]

theorem keysAbove_sget {d : α} {m : SMap α} {a : Nat} (h : keysAbove a m) : sget d m a = d :=
  sget_of_not_mem fun p hp => Nat.ne_of_gt (h p hp)

theorem keysAbove_serase {a b : Nat} {m : SMap α} (h : keysAbove a m) : keysAbove a (serase m b) := by
  induction m with
  | nil => exact h
  | cons p m ih =>
    obtain ⟨k, v⟩ := p
    rw [keysAbove_cons] at h
    simp only [serase]
    split
    · exact h.2
    · split
      · exact keysAbove_cons.2 h
      · exact keysAbove_cons.2 ⟨h.1, ih h.2⟩

theorem keysAbove_sinsert {a b : Nat} {x : α} {m : SMap α} (hb : a < b) (h : keysAbove a m) : keysAbove a (sinsert m b x) := by
  induction m with
  | nil => simpa [sinsert, keysAbove] using hb
  | cons p m ih =>
    obtain ⟨k, v⟩ := p
    rw [keysAbove_cons] at h
    simp only [sinsert]
    split
    · exact keysAbove_cons.2 ⟨hb, keysAbove_cons.2 h⟩
    · split
      · exact keysAbove_cons.2 ⟨hb, h.2⟩
      · exact keysAbove_cons.2 ⟨h.1, ih h.2⟩

theorem srising_serase {a : Nat} {m : SMap α} (h : srising m = true) : srising (serase m a) = true := by
  induction m with
  | nil => exact h
  | cons p m ih =>
    obtain ⟨k, v⟩ := p
    have h' := srising_cons.1 h
    simp only [serase]
    split
    · exact h'.2
    · split
      · exact h
      · exact srising_cons.2 ⟨keysAbove_serase h'.1, ih h'.2⟩

theorem srising_sinsert {a : Nat} {x : α} {m : SMap α} (h : srising m = true) : srising (sinsert m a x) = true := by
  induction m with
  | nil => rfl
  | cons p m ih =>
    obtain ⟨k, v⟩ := p
    have h' := srising_cons.1 h
    simp only [sinsert]
    split
    · next hlt => exact srising_cons.2 ⟨keysAbove_cons.2 ⟨hlt, keysAbove_mono (Nat.le_of_lt hlt) h'.1⟩, h⟩
    · next hlt =>
      split
      · next he => exact srising_cons.2 ⟨he ▸ h'.1, h'.2⟩
      · next he => exact srising_cons.2 ⟨keysAbove_sinsert (by omega) h'.1, ih h'.2⟩

/-- A key reads what was inserted there. -/
theorem sget_sinsert_same {d x : α} {m : SMap α} {a : Nat} (h : srising m = true) : sget d (sinsert m a x) a = x := by
  induction m with
  | nil => simp [sinsert, sget]
  | cons p m ih =>
    obtain ⟨k, v⟩ := p
    simp only [sinsert]
    split
    · simp [sget]
    · split
      · simp [sget]
      · next he => simp only [sget, if_neg he]; exact ih (srising_cons.1 h).2

/-- Other keys read as before an insertion. -/
theorem sget_sinsert_other {d x : α} {m : SMap α} {a b : Nat} (hb : b ≠ a) : sget d (sinsert m a x) b = sget d m b := by
  induction m with
  | nil => simp [sinsert, sget, hb.symm]
  | cons p m ih =>
    obtain ⟨k, v⟩ := p
    simp only [sinsert]
    split
    · simp [sget, hb.symm]
    · split
      · next he => simp [sget, he, hb.symm]
      · simp only [sget, ih]

/-- An erased key reads the default. -/
theorem sget_serase_same {d : α} {m : SMap α} {a : Nat} (h : srising m = true) : sget d (serase m a) a = d := by
  induction m with
  | nil => rfl
  | cons p m ih =>
    obtain ⟨k, v⟩ := p
    have h' := srising_cons.1 h
    simp only [serase]
    split
    · next he => exact keysAbove_sget (he ▸ h'.1)
    · next he =>
      split
      · next hlt => exact keysAbove_sget (keysAbove_cons.2 ⟨hlt, keysAbove_mono (Nat.le_of_lt hlt) h'.1⟩)
      · simp only [sget, if_neg he]; exact ih h'.2

/-- Other keys read as before an erasure. -/
theorem sget_serase_other {d : α} {m : SMap α} {a b : Nat} (hb : b ≠ a) : sget d (serase m a) b = sget d m b := by
  induction m with
  | nil => rfl
  | cons p m ih =>
    obtain ⟨k, v⟩ := p
    simp only [serase]
    split
    · next he => simp [sget, he, hb.symm]
    · split
      · rfl
      · simp only [sget, ih]

section
variable [DecidableEq α]

/-- A key reads the value put there. -/
theorem sget_sput_same {d x : α} {m : SMap α} {a : Nat} (h : srising m = true) : sget d (sput d m a x) a = x := by
  unfold sput
  split
  · next hx => rw [sget_serase_same h, hx]
  · exact sget_sinsert_same h

/-- Other keys read as before. -/
@[simp] theorem sget_sput_other {d d' x : α} {m : SMap α} {a b : Nat} (hb : b ≠ a) : sget d (sput d' m a x) b = sget d m b := by
  unfold sput
  split
  · exact sget_serase_other hb
  · exact sget_sinsert_other hb

theorem srising_sput {d x : α} {m : SMap α} {a : Nat} (h : srising m = true) : srising (sput d m a x) = true := by
  unfold sput
  split
  · exact srising_serase h
  · exact srising_sinsert h

omit [DecidableEq α] in
theorem srising_filter {m : SMap α} {p : Nat × α → Bool} (h : srising m = true) : srising (m.filter p) = true := by
  induction m with
  | nil => exact h
  | cons q m ih =>
    have h' := srising_cons.1 h
    simp only [List.filter_cons]
    split
    · exact srising_cons.2 ⟨fun r hr => h'.1 r (List.mem_filter.1 hr).1, ih h'.2⟩
    · exact ih h'.2

omit [DecidableEq α] in
theorem mem_serase {m : SMap α} {a : Nat} {p : Nat × α} (h : p ∈ serase m a) : p ∈ m := by
  induction m with
  | nil => exact h
  | cons q m ih =>
    obtain ⟨k, v⟩ := q
    simp only [serase] at h
    split at h
    · exact List.mem_cons_of_mem _ h
    · split at h
      · exact h
      · rcases List.mem_cons.1 h with h | h
        · exact h ▸ List.mem_cons_self
        · exact List.mem_cons_of_mem _ (ih h)

omit [DecidableEq α] in
theorem mem_sinsert {m : SMap α} {a : Nat} {x : α} {p : Nat × α} (h : p ∈ sinsert m a x) : p = (a, x) ∨ p ∈ m := by
  induction m with
  | nil => exact .inl (List.mem_singleton.1 h)
  | cons q m ih =>
    obtain ⟨k, v⟩ := q
    simp only [sinsert] at h
    split at h
    · exact List.mem_cons.1 h
    · split at h
      · rcases List.mem_cons.1 h with h | h
        · exact .inl h
        · exact .inr (List.mem_cons_of_mem _ h)
      · rcases List.mem_cons.1 h with h | h
        · exact .inr (h ▸ List.mem_cons_self)
        · rcases ih h with h | h
          · exact .inl h
          · exact .inr (List.mem_cons_of_mem _ h)

theorem canonical_iff {d : Nat → α} {m : SMap α} : canonical d m = true ↔ srising m = true ∧ ∀ p ∈ m, p.2 ≠ d p.1 := by
  simp [canonical]

/-- Putting a value keeps the canonical form. -/
theorem canonical_sput {d : Nat → α} {m : SMap α} {a : Nat} {x : α} (h : canonical d m = true) :
    canonical d (sput (d a) m a x) = true := by
  rw [canonical_iff] at h ⊢
  refine ⟨srising_sput h.1, fun p hp => ?_⟩
  unfold sput at hp
  split at hp
  · exact h.2 p (mem_serase hp)
  · next hx =>
    rcases mem_sinsert hp with rfl | hp
    · exact hx
    · exact h.2 p hp

/-- Dropping entries keeps the canonical form. -/
theorem canonical_filter {d : Nat → α} {m : SMap α} {p : Nat × α → Bool} (h : canonical d m = true) :
    canonical d (m.filter p) = true := by
  rw [canonical_iff] at h ⊢
  exact ⟨srising_filter h.1, fun q hq => h.2 q (List.mem_filter.1 hq).1⟩

/-- In canonical form a map is known by what it reads: equal contents are equal lists. -/
theorem canonical_ext {d : Nat → α} {m n : SMap α} (hm : canonical d m = true) (hn : canonical d n = true)
    (h : ∀ a, sget (d a) m a = sget (d a) n a) : m = n := by
  induction m generalizing n with
  | nil =>
    cases n with
    | nil => rfl
    | cons q n =>
      have := h q.1
      simp only [sget, if_true] at this
      exact absurd this.symm ((canonical_iff.1 hn).2 q List.mem_cons_self)
  | cons p m ih =>
    obtain ⟨k, v⟩ := p
    have hm' := canonical_iff.1 hm
    have rm := srising_cons.1 hm'.1
    cases n with
    | nil =>
      have := h k
      simp only [sget, if_true] at this
      exact absurd this (hm'.2 (k, v) List.mem_cons_self)
    | cons q n =>
      obtain ⟨k', v'⟩ := q
      have hn' := canonical_iff.1 hn
      have rn := srising_cons.1 hn'.1
      have hk : k = k' := by
        rcases Nat.lt_trichotomy k k' with hlt | he | hlt
        · have := h k
          rw [keysAbove_sget (d := d k) (m := (k', v') :: n) (keysAbove_cons.2 ⟨hlt, keysAbove_mono (Nat.le_of_lt hlt) rn.1⟩)] at this
          simp only [sget, if_true] at this
          exact absurd this (hm'.2 (k, v) List.mem_cons_self)
        · exact he
        · have := h k'
          rw [keysAbove_sget (d := d k') (m := (k, v) :: m) (keysAbove_cons.2 ⟨hlt, keysAbove_mono (Nat.le_of_lt hlt) rm.1⟩)] at this
          simp only [sget, if_true] at this
          exact absurd this.symm (hn'.2 (k', v') List.mem_cons_self)
      subst hk
      have hv : v = v' := by simpa [sget] using h k
      subst hv
      have cm : canonical d m = true := canonical_iff.2 ⟨rm.2, fun p hp => hm'.2 p (List.mem_cons_of_mem _ hp)⟩
      have cn : canonical d n = true := canonical_iff.2 ⟨rn.2, fun p hp => hn'.2 p (List.mem_cons_of_mem _ hp)⟩
      rw [ih cm cn fun a => ?_]
      by_cases ha : k = a
      · subst ha
        rw [keysAbove_sget rm.1, keysAbove_sget rn.1]
      · simpa [sget, ha] using h a

end

end Sys2Proof.Machine
end

