-- ==== Sys2Proof/Safety.lean ====
section
/-! DEFINITION. What counts as a safe state: registers, memories and the tables of the parts of the module in canonical form
(so that states with equal contents are equal data), no conversion while a rail fault holds the module (R378), and at most 24
partitions (R31). -/
namespace Sys2Proof.Machine

/-- Registers, memory, check fields and the tables of the parts of the module are in canonical form. -/
def State.canon (s : State) : Bool :=
  canonical regReset s.regs && memWf s.mem && canonical (fun _ => none) s.chk && canonical (fun _ => Core.reset) s.cores &&
    canonical (fun _ => Bp.reset) s.bps && canonical (fun _ => Vc.reset) s.vcs && canonical (fun _ => Lp.reset) s.lps &&
    canonical (fun _ => Router.reset) s.routers && canonical (fun _ => Die.reset) s.dies &&
    canonical (fun _ => DieTherm.reset) s.therm && canonical (fun _ => 0#8) s.topo && canonical (fun _ => 0) s.voff

/-- While a rail fault holds the module, conversion does not run (R378). -/
def railHeld (s : State) : Bool := !(s.power.railFault && s.power.running)

/-- A safe state. -/
def State.safe (s : State) : Bool := s.canon && railHeld s && decide (s.parts.length ≤ 24)

end Sys2Proof.Machine
end

