-- ==== Sys2Proof/Laws/Keeps.lean ====
section
/-! SUPPORT. What every operation of the machine leaves alone or keeps, with its lemmas for the operations of Ops.lean. -/
namespace Sys2Proof.Machine

/-- `s` has the queue and the fused resistances of `z`; what is safe in `z` is safe in `s`; and no DEBUG_CLOSE fuse of `z` is
unblown in `s`. -/
structure Keeps (z s : State) : Prop where
  queue : s.pending = z.pending
  fused : s.theta = z.theta
  debug : z.sec.debugFuses ≤ s.sec.debugFuses
  canon : z.canon = true → s.canon = true
  rail : railHeld z = true → railHeld s = true
  parts : z.parts.length ≤ 24 → s.parts.length ≤ 24

theorem Keeps.refl (s : State) : Keeps s s := ⟨rfl, rfl, Nat.le_refl _, id, id, id⟩

theorem Keeps.trans {a b c : State} (h : Keeps a b) (k : Keeps b c) : Keeps a c :=
  ⟨k.queue.trans h.queue, k.fused.trans h.fused, Nat.le_trans h.debug k.debug, fun x => k.canon (h.canon x),
   fun x => k.rail (h.rail x), fun x => k.parts (h.parts x)⟩

/-- What is safe stays safe. -/
theorem Keeps.safe {z s : State} (h : Keeps z s) (hz : z.safe = true) : s.safe = true := by
  simp only [State.safe, Bool.and_eq_true, decide_eq_true_eq] at hz ⊢
  exact ⟨⟨h.canon hz.1.1, h.rail hz.1.2⟩, h.parts hz.2⟩

theorem canon_iff {s : State} : s.canon = true ↔ canonical regReset s.regs = true ∧ memWf s.mem = true ∧ canonical (fun _ =>
    none) s.chk = true ∧ canonical (fun _ => Core.reset) s.cores = true ∧ canonical (fun _ => Bp.reset) s.bps = true ∧ canonical
    (fun _ => Vc.reset) s.vcs = true ∧ canonical (fun _ => Lp.reset) s.lps = true ∧ canonical (fun _ => Router.reset) s.routers
    = true ∧ canonical (fun _ => Die.reset) s.dies = true ∧ canonical (fun _ => DieTherm.reset) s.therm = true ∧ canonical (fun
    _ => 0#8) s.topo = true ∧ canonical (fun _ => 0) s.voff = true := by
  simp only [State.canon, Bool.and_eq_true, and_assoc]

variable {z s : State}

/-- A state that differs only in other parts of the module. -/
theorem Keeps.of {t : State} (h : Keeps z s) (hp : t.pending = s.pending) (ht : t.theta = s.theta)
    (hs : t.sec.debugFuses = s.sec.debugFuses) (hw : t.power = s.power) (hq : t.parts = s.parts)
    (hc : s.canon = true → t.canon = true) : Keeps z t := by
  refine ⟨hp.trans h.queue, ht.trans h.fused, hs ▸ h.debug, fun x => hc (h.canon x), fun x => ?_, fun x => hq ▸ h.parts x⟩
  have := h.rail x
  unfold railHeld at this ⊢
  rw [hw]; exact this

/-- A record update of the other parts of the module. -/
theorem mk_keeps {present : List Nat} {loadedParts : List Nat} {flights : List Flight} {crossings : List Flight} {flash : List
    FlashMsg} {hub : Hub} {rst : ResetCtl} {bring : Bring} {svc : Svc} {twin : Twin} {camner : Camner} {twinFlits : FlitSide}
    {hubTherm : HubTherm} {pins : Pins} {freeCtr : Nat} :
    Keeps z ⟨s.pending, s.regs, s.mem, s.chk, s.cores, s.bps, s.vcs, s.lps, s.routers, s.dies, s.parts, present, loadedParts,
    flights, crossings, flash, hub, rst, bring, s.topo, svc, twin, camner, twinFlits, s.sec, s.power, s.therm, hubTherm, s.voff,
    s.theta, pins, freeCtr⟩ ↔ Keeps z s :=
  ⟨fun h => h.of rfl rfl rfl rfl rfl fun x => canon_iff.2 (canon_iff.1 x), fun h => h.of rfl rfl rfl rfl rfl fun x =>
    canon_iff.2 (canon_iff.1 x)⟩

/-- A record update that also changes the security controller. -/
theorem mkSec_keeps {sec : Sec} {present : List Nat} {loadedParts : List Nat} {flights : List Flight} {crossings : List Flight}
    {flash : List FlashMsg} {hub : Hub} {rst : ResetCtl} {bring : Bring} {svc : Svc} {twin : Twin} {camner : Camner} {twinFlits
    : FlitSide} {hubTherm : HubTherm} {pins : Pins} {freeCtr : Nat}
    (hs : sec.debugFuses = s.sec.debugFuses) :
    Keeps z ⟨s.pending, s.regs, s.mem, s.chk, s.cores, s.bps, s.vcs, s.lps, s.routers, s.dies, s.parts, present, loadedParts,
    flights, crossings, flash, hub, rst, bring, s.topo, svc, twin, camner, twinFlits, sec, s.power, s.therm, hubTherm, s.voff,
    s.theta, pins, freeCtr⟩ ↔ Keeps z s :=
  ⟨fun h => h.of rfl rfl hs.symm rfl rfl fun x => canon_iff.2 (canon_iff.1 x), fun h => h.of rfl rfl hs rfl rfl fun x =>
    canon_iff.2 (canon_iff.1 x)⟩

theorem ite_keeps {c : Prop} [Decidable c] {a b : State} (ha : c → Keeps z a) (hb : ¬c → Keeps z b) : Keeps z (if c then a else
    b) := by
  split
  · exact ha ‹_›
  · exact hb ‹_›

theorem putReg_keeps (a : Nat) (v : Word) (h : Keeps z s) : Keeps z (putReg s a v) := by
  refine h.of rfl rfl rfl rfl rfl fun x => ?_
  obtain ⟨h0, h1, h2, h3, h4, h5, h6, h7, h8, h9, h10, h11⟩ := canon_iff.1 x
  exact canon_iff.2 ⟨canonical_sput h0, h1, h2, h3, h4, h5, h6, h7, h8, h9, h10, h11⟩

theorem writeByte_keeps (k : Nat) (b : Byte) (h : Keeps z s) : Keeps z (writeByte k b s) := by
  refine h.of rfl rfl rfl rfl rfl fun x => ?_
  obtain ⟨h0, h1, h2, h3, h4, h5, h6, h7, h8, h9, h10, h11⟩ := canon_iff.1 x
  exact canon_iff.2 ⟨h0, canonical_sput (d := fun _ => (0#8)) h1, h2, h3, h4, h5, h6, h7, h8, h9, h10, h11⟩

theorem clearMem_keeps (k n : Nat) (h : Keeps z s) : Keeps z (clearMem k n s) := by
  refine h.of rfl rfl rfl rfl rfl fun x => ?_
  obtain ⟨h0, h1, h2, h3, h4, h5, h6, h7, h8, h9, h10, h11⟩ := canon_iff.1 x
  exact canon_iff.2 ⟨h0, canonical_filter (d := fun _ => (0#8)) h1, h2, h3, h4, h5, h6, h7, h8, h9, h10, h11⟩

theorem writeChk_keeps (k : Nat) (v : BitVec 64) (h : Keeps z s) : Keeps z (writeChk k v s) := by
  refine h.of rfl rfl rfl rfl rfl fun x => ?_
  obtain ⟨h0, h1, h2, h3, h4, h5, h6, h7, h8, h9, h10, h11⟩ := canon_iff.1 x
  exact canon_iff.2 ⟨h0, h1, canonical_sput (d := fun _ => none) (x := some v) h2, h3, h4, h5, h6, h7, h8, h9, h10, h11⟩

theorem initMem_keeps (k n : Nat) (h : Keeps z s) : Keeps z (initMem k n s) := by
  refine (clearMem_keeps k n h).of rfl rfl rfl rfl rfl fun x => ?_
  obtain ⟨h0, h1, h2, h3, h4, h5, h6, h7, h8, h9, h10, h11⟩ := canon_iff.1 x
  exact canon_iff.2 ⟨h0, h1, canonical_filter (d := fun _ => none) h2, h3, h4, h5, h6, h7, h8, h9, h10, h11⟩

theorem putCore_keeps (d : Stack) (c : CoreIx) (x : Core) (h : Keeps z s) : Keeps z (putCore s d c x) := by
  refine h.of rfl rfl rfl rfl rfl fun x => ?_
  obtain ⟨h0, h1, h2, h3, h4, h5, h6, h7, h8, h9, h10, h11⟩ := canon_iff.1 x
  exact canon_iff.2 ⟨h0, h1, h2, canonical_sput (d := fun _ => Core.reset) h3, h4, h5, h6, h7, h8, h9, h10, h11⟩

theorem putBp_keeps (d : Stack) (c : CoreIx) (j : Nat) (b : Bp) (h : Keeps z s) : Keeps z (putBp s d c j b) := by
  refine h.of rfl rfl rfl rfl rfl fun x => ?_
  obtain ⟨h0, h1, h2, h3, h4, h5, h6, h7, h8, h9, h10, h11⟩ := canon_iff.1 x
  exact canon_iff.2 ⟨h0, h1, h2, h3, canonical_sput (d := fun _ => Bp.reset) h4, h5, h6, h7, h8, h9, h10, h11⟩

theorem updVc_keeps (d : Stack) (c : CoreIx) (f : Vc → Vc) (h : Keeps z s) : Keeps z (updVc d c f s) := by
  refine h.of rfl rfl rfl rfl rfl fun x => ?_
  obtain ⟨h0, h1, h2, h3, h4, h5, h6, h7, h8, h9, h10, h11⟩ := canon_iff.1 x
  exact canon_iff.2 ⟨h0, h1, h2, h3, h4, canonical_sput (d := fun _ => Vc.reset) h5, h6, h7, h8, h9, h10, h11⟩

theorem updLp_keeps (d : Stack) (f : Lp → Lp) (h : Keeps z s) : Keeps z (updLp d f s) := by
  refine h.of rfl rfl rfl rfl rfl fun x => ?_
  obtain ⟨h0, h1, h2, h3, h4, h5, h6, h7, h8, h9, h10, h11⟩ := canon_iff.1 x
  exact canon_iff.2 ⟨h0, h1, h2, h3, h4, h5, canonical_sput (d := fun _ => Lp.reset) h6, h7, h8, h9, h10, h11⟩

theorem updRouter_keeps (d : Stack) (k : Cluster) (f : Router → Router) (h : Keeps z s) : Keeps z (updRouter d k f s) := by
  refine h.of rfl rfl rfl rfl rfl fun x => ?_
  obtain ⟨h0, h1, h2, h3, h4, h5, h6, h7, h8, h9, h10, h11⟩ := canon_iff.1 x
  exact canon_iff.2 ⟨h0, h1, h2, h3, h4, h5, h6, canonical_sput (d := fun _ => Router.reset) h7, h8, h9, h10, h11⟩

theorem updDie_keeps (d : Stack) (f : Die → Die) (h : Keeps z s) : Keeps z (updDie d f s) := by
  refine h.of rfl rfl rfl rfl rfl fun x => ?_
  obtain ⟨h0, h1, h2, h3, h4, h5, h6, h7, h8, h9, h10, h11⟩ := canon_iff.1 x
  exact canon_iff.2 ⟨h0, h1, h2, h3, h4, h5, h6, h7, canonical_sput (d := fun _ => Die.reset) h8, h9, h10, h11⟩

theorem updTherm_keeps (d : Stack) (f : DieTherm → DieTherm) (h : Keeps z s) : Keeps z (updTherm d f s) := by
  refine h.of rfl rfl rfl rfl rfl fun x => ?_
  obtain ⟨h0, h1, h2, h3, h4, h5, h6, h7, h8, h9, h10, h11⟩ := canon_iff.1 x
  exact canon_iff.2 ⟨h0, h1, h2, h3, h4, h5, h6, h7, h8, canonical_sput (d := fun _ => DieTherm.reset) h9, h10, h11⟩

theorem forAll_keeps {α : Type} (l : List α) (f : α → State → State) (hf : ∀ x t, Keeps z t → Keeps z (f x t)) (h : Keeps z s) :
    Keeps z (forAll l f s) := by
  unfold forAll
  induction l generalizing s with
  | nil => exact h
  | cons x l ih => exact ih (hf x s h)

/-- A fold whose accumulator carries the state. -/
theorem foldl_keeps {α β : Type} (P : β → Prop) (l : List α) (f : β → α → β) (b : β) (hf : ∀ r x, P r → P (f r x)) (h : P b) :
    P (l.foldl f b) := by
  induction l generalizing b with
  | nil => exact h
  | cons x l ih => exact ih _ (hf b x h)

theorem foldr_keeps {α β : Type} (P : β → Prop) (l : List α) (f : α → β → β) (b : β) (hf : ∀ x r, P r → P (f x r)) (h : P b) :
    P (l.foldr f b) := by
  induction l with
  | nil => exact h
  | cons x l ih => exact hf x _ ih

theorem getD_keeps {o : Option State} {t : State} (ho : ∀ u, o = some u → Keeps z u) (ht : Keeps z t) : Keeps z (o.getD t) := by
  cases o with
  | none => exact ht
  | some u => exact ho u rfl

/-- A fold that stops at the first step that gives nothing. -/
theorem foldBind_keeps {α β : Type} {P : β → Prop} {f : β → α → Option β} {b : β} (l : List α) (hb : P b)
    (hf : ∀ r x, P r → ∀ y, f r x = some y → P y) {y : β}
    (e : l.foldl (fun r x => r.bind fun r => f r x) (some b) = some y) : P y := by
  induction l generalizing b with
  | nil => cases e; exact hb
  | cons x l ih =>
    simp only [List.foldl_cons, Option.bind_some] at e
    cases h : f b x with
    | none =>
      rw [h] at e
      have : ∀ l : List α, l.foldl (fun r x => Option.bind r fun r => f r x) none = none := by
        intro l; induction l with
        | nil => rfl
        | cons x l ih => simpa using ih
      rw [this] at e; cases e
    | some c => rw [h] at e; exact ih (hf b x hb c h) e

/-- The state of a result that is known. -/
theorem keepsE2 {α : Type} {p : α × State} {x : α} {t : State} (h : Keeps z p.2) (e : p = (x, t)) : Keeps z t := by
  subst e; exact h

theorem keepsE3 {α β : Type} {p : α × β × State} {x : α} {y : β} {t : State} (h : Keeps z p.2.2) (e : p = (x, y, t)) :
    Keeps z t := by
  subst e; exact h

theorem foldl_keeps2 {α β : Type} (l : List α) (f : β × State → α → β × State) (b : β × State)
    (hf : ∀ r x, Keeps z r.2 → Keeps z (f r x).2) (h : Keeps z b.2) : Keeps z (l.foldl f b).2 :=
  foldl_keeps (fun r => Keeps z r.2) l f b hf h

theorem foldl_keeps3 {α β γ : Type} (l : List α) (f : β × γ × State → α → β × γ × State) (b : β × γ × State)
    (hf : ∀ r x, Keeps z r.2.2 → Keeps z (f r x).2.2) (h : Keeps z b.2.2) : Keeps z (l.foldl f b).2.2 :=
  foldl_keeps (fun r => Keeps z r.2.2) l f b hf h

theorem foldr_keeps2 {α β : Type} (l : List α) (f : α → β × State → β × State) (b : β × State)
    (hf : ∀ x r, Keeps z r.2 → Keeps z (f x r).2) (h : Keeps z b.2) : Keeps z (l.foldr f b).2 :=
  foldr_keeps (fun r => Keeps z r.2) l f b hf h

theorem foldr_keeps3 {α β γ : Type} (l : List α) (f : α → β × γ × State → β × γ × State) (b : β × γ × State)
    (hf : ∀ x r, Keeps z r.2.2 → Keeps z (f x r).2.2) (h : Keeps z b.2.2) : Keeps z (l.foldr f b).2.2 :=
  foldr_keeps (fun r => Keeps z r.2.2) l f b hf h

theorem writeMem_keeps (n : Nat) : ∀ (k v : Nat) {s : State}, Keeps z s → Keeps z (writeMem k n v s) := by
  induction n with
  | zero => intro k v s h; exact h
  | succ n ih => intro k v s h; exact ih (k + 1) (v / 256) (writeByte_keeps k _ h)

theorem done_keeps {t : State} (h : Keeps z s) (e : done s = .next t) : Keeps z t := by
  unfold done at e
  injection e with e
  exact e ▸ h

end Sys2Proof.Machine
end

