-- ==== Sys2Proof/Laws/KeepsOps.lean ====
section
/-! SUPPORT. What the definitions of Ops.lean keep. -/
namespace Sys2Proof.Machine

variable {z s : State}

theorem putF_keeps (a : Nat) (f : Fld) (n : Nat) (hk : Keeps z s) : Keeps z (putF a f n s) := by
  unfold putF
  try dsimp only
  repeat' first
      | with_reducible assumption | with_reducible apply putReg_keeps | with_reducible apply ite_keeps
      | (with_reducible intro _) | simp only [mk_keeps] | simp only [mkSec_keeps] | split

theorem bumpF_keeps (a : Nat) (f : Fld) (n : Nat) (hk : Keeps z s) : Keeps z (bumpF a f n s) := by
  unfold bumpF
  try dsimp only
  repeat' first
      | with_reducible assumption | with_reducible apply putF_keeps | with_reducible apply ite_keeps
      | (with_reducible intro _) | simp only [mk_keeps] | simp only [mkSec_keeps] | split

theorem satF_keeps (a : Nat) (f : Fld) (n : Nat) (hk : Keeps z s) : Keeps z (satF a f n s) := by
  unfold satF
  try dsimp only
  repeat' first
      | with_reducible assumption | with_reducible apply putF_keeps | with_reducible apply ite_keeps
      | (with_reducible intro _) | simp only [mk_keeps] | simp only [mkSec_keeps] | split

theorem softWrite_keeps (a : Nat) (v : Word) (h : Keeps z s) : Keeps z (softWrite a v s) := by
  unfold softWrite
  split
  · exact putReg_keeps _ _ h
  · exact h

theorem updCore_keeps (d : Stack) (c : CoreIx) (f : Core → Core) (hk : Keeps z s) : Keeps z (updCore d c f s) := by
  unfold updCore
  try dsimp only
  repeat' first
      | with_reducible assumption | with_reducible apply putCore_keeps | with_reducible apply ite_keeps
      | (with_reducible intro _) | simp only [mk_keeps] | simp only [mkSec_keeps] | split

theorem updBp_keeps (d : Stack) (c : CoreIx) (j : Nat) (f : Bp → Bp) (hk : Keeps z s) : Keeps z (updBp d c j f s) := by
  unfold updBp
  try dsimp only
  repeat' first
      | with_reducible assumption | with_reducible apply putBp_keeps | with_reducible apply ite_keeps
      | (with_reducible intro _) | simp only [mk_keeps] | simp only [mkSec_keeps] | split

theorem writeWord_keeps (k : Nat) (w : CodeWord) (hk : Keeps z s) : Keeps z (writeWord k w s) := by
  unfold writeWord
  try dsimp only
  repeat' first
      | with_reducible assumption | with_reducible apply writeChk_keeps | with_reducible apply writeMem_keeps
      | with_reducible apply ite_keeps | (with_reducible intro _) | simp only [mk_keeps] | simp only [mkSec_keeps] | split

theorem fresh_keeps (hk : Keeps z s) : Keeps z (fresh s).2 := by
  unfold fresh
  try dsimp only
  repeat' first
      | with_reducible assumption | with_reducible apply ite_keeps | (with_reducible intro _) | simp only [mk_keeps]
      | simp only [mkSec_keeps] | split
theorem fresh_keepsE {x0 : _} {s₁ : State} (hk : Keeps z s) (he : fresh s = (x0, s₁)) : Keeps z s₁ := by
  have k₁ := fresh_keeps hk
  rw [he] at k₁
  exact k₁

theorem takeFree_keeps (n : Nat) (hk : Keeps z s) : Keeps z (takeFree n s).2 := by
  unfold takeFree
  try dsimp only
  repeat' first
      | with_reducible assumption | with_reducible apply ite_keeps | (with_reducible intro _) | simp only [mk_keeps]
      | simp only [mkSec_keeps] | split
theorem takeFree_keepsE {n : Nat} {x0 : _} {s₁ : State} (hk : Keeps z s) (he : takeFree n s = (x0, s₁)) : Keeps z s₁ := by
  have k₁ := takeFree_keeps n hk
  rw [he] at k₁
  exact k₁

theorem takeFreeNat_keeps (n : Nat) (hk : Keeps z s) : Keeps z (takeFreeNat n s).2 := by
  unfold takeFreeNat
  try dsimp only
  repeat' first
      | with_reducible assumption | with_reducible apply ite_keeps | (with_reducible intro _) | simp only [mk_keeps]
      | simp only [mkSec_keeps] | split
theorem takeFreeNat_keepsE {n : Nat} {x0 : _} {s₁ : State} (hk : Keeps z s) (he : takeFreeNat n s = (x0, s₁)) :
    Keeps z s₁ := by
  have k₁ := takeFreeNat_keeps n hk
  rw [he] at k₁
  exact k₁

end Sys2Proof.Machine
end

