-- ==== Sys2Proof/Laws/KeepsErrors.lean ====
section
/-! SUPPORT. What the definitions of Errors.lean keep. -/
namespace Sys2Proof.Machine

variable {z s : State}

theorem storeError_keeps (st : Station) (unit kind sel info : Nat) (hk : Keeps z s) : Keeps z
    (storeError st unit kind sel info s) := by
  unfold storeError
  try dsimp only
  repeat' first
      | with_reducible assumption | with_reducible apply putReg_keeps | with_reducible apply putF_keeps
      | with_reducible apply bumpF_keeps | with_reducible apply ite_keeps | (with_reducible intro _) | simp only [mk_keeps]
      | simp only [mkSec_keeps] | split

theorem countRound_keeps (st : Station) (kind : Nat) (hk : Keeps z s) : Keeps z (countRound st kind s) := by
  unfold countRound
  try dsimp only
  repeat' first
      | with_reducible assumption | with_reducible apply satF_keeps | with_reducible apply ite_keeps
      | (with_reducible intro _) | simp only [mk_keeps] | simp only [mkSec_keeps] | split

theorem stopPartition_keeps (d : Stack) (hk : Keeps z s) : Keeps z (stopPartition d s) := by
  unfold stopPartition
  try dsimp only
  repeat' first
      | with_reducible assumption | with_reducible apply putF_keeps | with_reducible apply updDie_keeps
      | with_reducible apply ite_keeps | (with_reducible intro _) | simp only [mk_keeps] | simp only [mkSec_keeps] | split

theorem postSuspect_keeps (st : Station) (hk : Keeps z s) : Keeps z (postSuspect st s) := by
  unfold postSuspect
  try dsimp only
  repeat' first
      | with_reducible assumption | with_reducible apply ite_keeps | (with_reducible intro _) | simp only [mk_keeps]
      | simp only [mkSec_keeps] | split

theorem containment_keeps (parent : Station) (hk : Keeps z s) : Keeps z (containment parent s) := by
  unfold containment
  try dsimp only
  repeat' first
      | with_reducible assumption | with_reducible apply postSuspect_keeps | with_reducible apply stopPartition_keeps
      | with_reducible apply ite_keeps | (with_reducible intro _) | simp only [mk_keeps] | simp only [mkSec_keeps] | split

theorem countSent_keeps (st : Station) (unit : Nat) (hk : Keeps z s) : Keeps z (countSent st unit s) := by
  unfold countSent
  try dsimp only
  repeat' first
      | with_reducible assumption | with_reducible apply putF_keeps | with_reducible apply satF_keeps
      | with_reducible apply ite_keeps | (with_reducible intro _) | simp only [mk_keeps] | simp only [mkSec_keeps] | split

theorem recordUp_keeps (n : Nat) : ∀ (st : Station) (unit kind sel info : Nat) {s : State}, Keeps z s →
    Keeps z (recordUp n st unit kind sel info s) := by
  induction n with
  | zero => intro st unit kind sel info s h; exact h
  | succ n ih =>
    intro st unit kind sel info s h
    unfold recordUp
    dsimp only
    refine ite_keeps (fun _ => ?_) fun _ => countRound_keeps _ _ (storeError_keeps _ _ _ _ _ h)
    split
    · exact containment_keeps _ (ih _ _ _ _ _ (satF_keeps _ _ _ (countSent_keeps _ _ h)))
    · split
      · exact updDie_keeps _ _ (countSent_keeps _ _ h)
      · exact countSent_keeps _ _ h

theorem recordErr_keeps (st : Station) (unit kind sel info : Nat) (hk : Keeps z s) : Keeps z
    (recordErr st unit kind sel info s) := by
  unfold recordErr
  try dsimp only
  repeat' first
      | with_reducible assumption | with_reducible apply recordUp_keeps | with_reducible apply ite_keeps
      | (with_reducible intro _) | simp only [mk_keeps] | simp only [mkSec_keeps] | split

theorem noteFault_keeps (d : Stack) (kind : Nat) (hk : Keeps z s) : Keeps z (noteFault d kind s) := by
  unfold noteFault
  try dsimp only
  repeat' first
      | with_reducible assumption | with_reducible apply updDie_keeps | with_reducible apply ite_keeps
      | (with_reducible intro _) | simp only [mk_keeps] | simp only [mkSec_keeps] | split

theorem poisonStep_keeps (d : Stack) (c : CoreIx) (hk : Keeps z s) : Keeps z (poisonStep d c s) := by
  unfold poisonStep
  try dsimp only
  repeat' first
      | with_reducible assumption | with_reducible apply writeByte_keeps | with_reducible apply updCore_keeps
      | with_reducible apply ite_keeps | (with_reducible intro _) | simp only [mk_keeps] | simp only [mkSec_keeps] | split

theorem poisonDie_keeps (d : Stack) (hk : Keeps z s) : Keeps z (poisonDie d s) := by
  unfold poisonDie
  try dsimp only
  repeat' first
      | with_reducible assumption | with_reducible apply forAll_keeps | with_reducible apply forAll_keeps
      | with_reducible apply poisonStep_keeps | with_reducible apply ite_keeps | (with_reducible intro _)
      | simp only [mk_keeps] | simp only [mkSec_keeps] | split

end Sys2Proof.Machine
end

