-- ==== Sys2Proof/Laws/KeepsEvents.lean ====
section
/-! SUPPORT. What the definitions of Events.lean keep. -/
namespace Sys2Proof.Machine

variable {z s : State}

theorem updHub_keeps (f : Hub → Hub) (hk : Keeps z s) : Keeps z (updHub f s) := by
  unfold updHub
  try dsimp only
  repeat' first
      | with_reducible assumption | with_reducible apply ite_keeps | (with_reducible intro _) | simp only [mk_keeps]
      | simp only [mkSec_keeps] | split

theorem sendMsg_keeps (m : OutMsg) (hk : Keeps z s) : Keeps z (sendMsg m s) := by
  unfold sendMsg
  try dsimp only
  repeat' first
      | with_reducible assumption | with_reducible apply updHub_keeps | with_reducible apply ite_keeps
      | (with_reducible intro _) | simp only [mk_keeps] | simp only [mkSec_keeps] | split

theorem sendStore_keeps (addr len data : Nat) (hk : Keeps z s) : Keeps z (sendStore addr len data s) := by
  unfold sendStore
  try dsimp only
  repeat' first
      | with_reducible assumption | with_reducible apply sendMsg_keeps | with_reducible apply ite_keeps
      | (with_reducible intro _) | simp only [mk_keeps] | simp only [mkSec_keeps] | split

theorem sendIndex_keeps (addr len data : Nat) (hk : Keeps z s) : Keeps z (sendIndex addr len data s) := by
  unfold sendIndex
  try dsimp only
  repeat' first
      | with_reducible assumption | with_reducible apply sendMsg_keeps | with_reducible apply ite_keeps
      | (with_reducible intro _) | simp only [mk_keeps] | simp only [mkSec_keeps] | split

theorem raiseAlert_keeps (b : Nat) (hk : Keeps z s) : Keeps z (raiseAlert b s) := by
  unfold raiseAlert
  try dsimp only
  repeat' first
      | with_reducible assumption | with_reducible apply putReg_keeps | with_reducible apply ite_keeps
      | (with_reducible intro _) | simp only [mk_keeps] | simp only [mkSec_keeps] | split

theorem dropEvent_keeps (hk : Keeps z s) : Keeps z (dropEvent s) := by
  unfold dropEvent
  try dsimp only
  repeat' first
      | with_reducible assumption | with_reducible apply updHub_keeps | with_reducible apply satF_keeps
      | with_reducible apply ite_keeps | (with_reducible intro _) | simp only [mk_keeps] | simp only [mkSec_keeps] | split

theorem signalMsi_keeps (hk : Keeps z s) : Keeps z (signalMsi s) := by
  unfold signalMsi
  try dsimp only
  repeat' first
      | with_reducible assumption | with_reducible apply updHub_keeps | with_reducible apply sendIndex_keeps
      | with_reducible apply ite_keeps | (with_reducible intro _) | simp only [mk_keeps] | simp only [mkSec_keeps] | split

theorem writeEvent_keeps (e : EventRec) (hk : Keeps z s) : Keeps z (writeEvent e s) := by
  unfold writeEvent
  try dsimp only
  repeat' first
      | with_reducible assumption | with_reducible apply dropEvent_keeps | with_reducible apply sendStore_keeps
      | with_reducible apply updHub_keeps | with_reducible apply signalMsi_keeps | with_reducible apply bumpF_keeps
      | with_reducible apply sendIndex_keeps | with_reducible apply ite_keeps | (with_reducible intro _)
      | simp only [mk_keeps] | simp only [mkSec_keeps] | split

theorem postEvent_keeps (code subject data : Nat) (hk : Keeps z s) : Keeps z (postEvent code subject data s) := by
  unfold postEvent
  try dsimp only
  repeat' first
      | with_reducible assumption | with_reducible apply updHub_keeps | with_reducible apply dropEvent_keeps
      | with_reducible apply writeEvent_keeps | with_reducible apply putF_keeps | with_reducible apply ite_keeps
      | (with_reducible intro _) | simp only [mk_keeps] | simp only [mkSec_keeps] | split

theorem flushEvents_keeps (hk : Keeps z s) : Keeps z (flushEvents s) := by
  unfold flushEvents
  try dsimp only
  repeat' first
      | with_reducible assumption | with_reducible apply forAll_keeps | with_reducible apply putF_keeps
      | with_reducible apply forAll_keeps | with_reducible apply writeEvent_keeps | with_reducible apply updHub_keeps
      | with_reducible apply ite_keeps | (with_reducible intro _) | simp only [mk_keeps] | simp only [mkSec_keeps] | split

end Sys2Proof.Machine
end

