-- ==== Sys2Proof/Laws/KeepsCoreOps.lean ====
section
/-! SUPPORT. What the definitions of CoreOps.lean keep. -/
namespace Sys2Proof.Machine

variable {z s : State}

theorem schedule_keeps (d : Stack) (c : CoreIx) (t word : Nat) (a : Act) (hk : Keeps z s) : Keeps z
    (schedule d c t word a s) := by
  unfold schedule
  try dsimp only
  repeat' first
      | with_reducible assumption | with_reducible apply updCore_keeps | with_reducible apply ite_keeps
      | (with_reducible intro _) | simp only [mk_keeps] | simp only [mkSec_keeps] | split

theorem ownFault_keeps (d : Stack) (c : CoreIx) (kind eng unit word t : Nat) (hk : Keeps z s) : Keeps z
    (ownFault d c kind eng unit word t s) := by
  unfold ownFault
  try dsimp only
  repeat' first
      | with_reducible assumption | with_reducible apply putReg_keeps | with_reducible apply noteFault_keeps
      | with_reducible apply poisonStep_keeps | with_reducible apply recordErr_keeps | with_reducible apply ite_keeps
      | (with_reducible intro _) | simp only [mk_keeps] | simp only [mkSec_keeps] | split

theorem seqFault_keeps (d : Stack) (c : CoreIx) (kind word t : Nat) (hk : Keeps z s) : Keeps z
    (seqFault d c kind word t s) := by
  unfold seqFault
  try dsimp only
  repeat' first
      | with_reducible assumption | with_reducible apply ownFault_keeps | with_reducible apply ite_keeps
      | (with_reducible intro _) | simp only [mk_keeps] | simp only [mkSec_keeps] | split

theorem useBanks_keeps (d : Stack) (c : CoreIx) (t off n word : Nat) (hk : Keeps z s) : Keeps z
    (useBanks d c t off n word s).2 := by
  unfold useBanks
  try dsimp only
  repeat' first
      | with_reducible assumption | with_reducible apply ownFault_keeps | with_reducible apply putCore_keeps
      | with_reducible apply ite_keeps | (with_reducible intro _) | simp only [mk_keeps] | simp only [mkSec_keeps] | split
theorem useBanks_keepsE {d : Stack} {c : CoreIx} {t : Nat} {off : Nat} {n : Nat} {word : Nat} {x0 : _} {s₁ : State} (hk :
    Keeps z s) (he : useBanks d c t off n word s = (x0, s₁)) : Keeps z s₁ := by
  have k₁ := useBanks_keeps d c t off n word hk
  rw [he] at k₁
  exact k₁

theorem amemRead_keeps (d : Stack) (c : CoreIx) (t off n word : Nat) (hk : Keeps z s) : Keeps z
    (amemRead d c t off n word s).2 := by
  unfold amemRead
  try dsimp only
  repeat' first
      | with_reducible assumption | with_reducible apply useBanks_keeps
      | (refine useBanks_keepsE ?_ (by with_reducible assumption)) | with_reducible apply ite_keeps | (with_reducible intro _)
      | simp only [mk_keeps] | simp only [mkSec_keeps] | split
theorem amemRead_keepsE {d : Stack} {c : CoreIx} {t : Nat} {off : Nat} {n : Nat} {word : Nat} {x0 : _} {s₁ : State} (hk :
    Keeps z s) (he : amemRead d c t off n word s = (x0, s₁)) : Keeps z s₁ := by
  have k₁ := amemRead_keeps d c t off n word hk
  rw [he] at k₁
  exact k₁

theorem amemWrite_keeps (d : Stack) (c : CoreIx) (t off n v word : Nat) (hk : Keeps z s) : Keeps z
    (amemWrite d c t off n v word s) := by
  unfold amemWrite
  try dsimp only
  repeat' first
      | with_reducible assumption | with_reducible apply useBanks_keeps
      | (refine useBanks_keepsE ?_ (by with_reducible assumption)) | with_reducible apply writeMem_keeps
      | with_reducible apply ite_keeps | (with_reducible intro _) | simp only [mk_keeps] | simp only [mkSec_keeps] | split

theorem markSfu_keeps (d : Stack) (c : CoreIx) (f : Fmt) (codes : Nat) (scale : Byte) (n : Nat) (sat : Bool) (hk :
    Keeps z s) : Keeps z (markSfu d c f codes scale n sat s) := by
  unfold markSfu
  try dsimp only
  repeat' first
      | with_reducible assumption | with_reducible apply putF_keeps | with_reducible apply ite_keeps
      | (with_reducible intro _) | simp only [mk_keeps] | simp only [mkSec_keeps] | split

theorem putBlockNow_keeps (d : Stack) (c : CoreIx) (t word : Nat) (f : Fmt) (dst scl : Nat) (vals : List (BitVec 32)) (sfu :
    Bool) (hk : Keeps z s) : Keeps z (putBlockNow d c t word f dst scl vals sfu s) := by
  unfold putBlockNow
  try dsimp only
  repeat' first
      | with_reducible assumption | with_reducible apply amemWrite_keeps | with_reducible apply markSfu_keeps
      | with_reducible apply ite_keeps | (with_reducible intro _) | simp only [mk_keeps] | simp only [mkSec_keeps] | split

end Sys2Proof.Machine
end

