-- ==== Sys2Proof/Laws/KeepsLane.lean ====
section
/-! SUPPORT. What the definitions of Lane.lean keep. -/
namespace Sys2Proof.Machine

variable {z s : State}

theorem macReadNow_keeps (d : Stack) (c : CoreIx) (t word p acc : Nat) (init : Bool) (fa fw : Fmt) (code scl entry cyc i :
    Nat) (op : OpEntry) (got : List (Byte × Nat)) (hk : Keeps z s) : Keeps z (macReadNow d c t word p acc init fa fw code scl
    entry cyc i op got s) := by
  unfold macReadNow
  try dsimp only
  repeat' first
      | with_reducible assumption | with_reducible apply updCore_keeps | with_reducible apply ownFault_keeps
      | with_reducible apply schedule_keeps | with_reducible apply ite_keeps | (with_reducible intro _) | simp only [mk_keeps]
      | simp only [mkSec_keeps] | split

theorem macUpdNow_keeps (d : Stack) (c : CoreIx) (p acc : Nat) (init : Bool) (vals : List (BitVec 32)) (hk : Keeps z s) :
    Keeps z (macUpdNow d c p acc init vals s) := by
  unfold macUpdNow
  try dsimp only
  repeat' first
      | with_reducible assumption | with_reducible apply updCore_keeps | with_reducible apply ite_keeps
      | (with_reducible intro _) | simp only [mk_keeps] | simp only [mkSec_keeps] | split

theorem countBlocks_keeps (d : Stack) (c : CoreIx) (e n : Nat) (hk : Keeps z s) : Keeps z (countBlocks d c e n s) := by
  unfold countBlocks
  try dsimp only
  repeat' first
      | with_reducible assumption | with_reducible apply bumpF_keeps | with_reducible apply ite_keeps
      | (with_reducible intro _) | simp only [mk_keeps] | simp only [mkSec_keeps] | split

theorem issueMac_keeps (d : Stack) (c : CoreIx) (w : BitVec 128) (word t : Nat) (hk : Keeps z s) : Keeps z (issueMac d c w
    word t s) := by
  unfold issueMac
  try dsimp only
  repeat' first
      | with_reducible assumption | with_reducible apply forAll_keeps | with_reducible apply updCore_keeps
      | with_reducible apply countBlocks_keeps | with_reducible apply schedule_keeps | with_reducible apply getD_keeps
      | with_reducible apply ite_keeps | (with_reducible intro _) | simp only [mk_keeps] | simp only [mkSec_keeps] | split

theorem issueOpload_keeps (d : Stack) (c : CoreIx) (w : BitVec 128) (word t : Nat) (hk : Keeps z s) : Keeps z (issueOpload d c
    w word t s) := by
  unfold issueOpload
  try dsimp only
  repeat' first
      | with_reducible assumption | with_reducible apply forAll_keeps | with_reducible apply ownFault_keeps
      | with_reducible apply putF_keeps | with_reducible apply updCore_keeps | with_reducible apply schedule_keeps
      | with_reducible apply getD_keeps | with_reducible apply ite_keeps | (with_reducible intro _) | simp only [mk_keeps]
      | simp only [mkSec_keeps] | split

theorem opEntryNow_keeps (d : Stack) (c : CoreIx) (t word p e ix : Nat) (f : Fmt) (code scl : Nat) (last : Bool) (hk :
    Keeps z s) : Keeps z (opEntryNow d c t word p e ix f code scl last s) := by
  unfold opEntryNow
  try dsimp only
  repeat' first
      | with_reducible assumption | with_reducible apply amemRead_keeps
      | (refine amemRead_keepsE ?_ (by with_reducible assumption)) | with_reducible apply bumpF_keeps
      | with_reducible apply updCore_keeps | with_reducible apply putF_keeps | with_reducible apply ite_keeps
      | (with_reducible intro _) | simp only [mk_keeps] | simp only [mkSec_keeps] | split

theorem dropLoad_keeps (d : Stack) (c : CoreIx) (e p t : Nat) (hk : Keeps z s) : Keeps z (dropLoad d c e p t s) := by
  unfold dropLoad
  try dsimp only
  repeat' first
      | with_reducible assumption | with_reducible apply putF_keeps | with_reducible apply updCore_keeps
      | with_reducible apply ownFault_keeps | with_reducible apply ite_keeps | (with_reducible intro _) | simp only [mk_keeps]
      | simp only [mkSec_keeps] | split

theorem issueSwap_keeps (d : Stack) (c : CoreIx) (w : BitVec 128) (word t : Nat) (hk : Keeps z s) : Keeps z (issueSwap d c w
    word t s) := by
  unfold issueSwap
  try dsimp only
  repeat' first
      | with_reducible assumption | with_reducible apply forAll_keeps | with_reducible apply dropLoad_keeps
      | with_reducible apply ownFault_keeps | with_reducible apply updCore_keeps | with_reducible apply ite_keeps
      | (with_reducible intro _) | simp only [mk_keeps] | simp only [mkSec_keeps] | split

theorem accFree_keeps (d : Stack) (c : CoreIx) (w : BitVec 128) (acc word t : Nat) (hk : Keeps z s) : Keeps z
    (accFree d c w acc word t s).2 := by
  unfold accFree
  try dsimp only
  repeat' first
      | with_reducible assumption | with_reducible apply forAll_keeps | with_reducible apply forAll_keeps
      | with_reducible apply ownFault_keeps | with_reducible apply ite_keeps | (with_reducible intro _) | simp only [mk_keeps]
      | simp only [mkSec_keeps] | split
theorem accFree_keepsE {d : Stack} {c : CoreIx} {w : BitVec 128} {acc : Nat} {word : Nat} {t : Nat} {x0 : _} {s₁ : State}
    (hk : Keeps z s) (he : accFree d c w acc word t s = (x0, s₁)) : Keeps z s₁ := by
  have k₁ := accFree_keeps d c w acc word t hk
  rw [he] at k₁
  exact k₁

theorem issueDrain_keeps (d : Stack) (c : CoreIx) (w : BitVec 128) (word t : Nat) (hk : Keeps z s) : Keeps z
    (issueDrain d c w word t s) := by
  unfold issueDrain
  try dsimp only
  repeat' first
      | with_reducible assumption | with_reducible apply accFree_keeps
      | (refine accFree_keepsE ?_ (by with_reducible assumption)) | with_reducible apply schedule_keeps
      | with_reducible apply ownFault_keeps | with_reducible apply putF_keeps | with_reducible apply bumpF_keeps
      | with_reducible apply updCore_keeps | with_reducible apply ite_keeps | (with_reducible intro _) | simp only [mk_keeps]
      | simp only [mkSec_keeps] | split

theorem drainReadNow_keeps (d : Stack) (c : CoreIx) (t word : Nat) (w : BitVec 128) (ok : List Nat) (hk : Keeps z s) : Keeps z
    (drainReadNow d c t word w ok s) := by
  unfold drainReadNow
  try dsimp only
  repeat' first
      | with_reducible assumption | with_reducible apply schedule_keeps | with_reducible apply forAll_keeps
      | with_reducible apply updCore_keeps | with_reducible apply getD_keeps | with_reducible apply ite_keeps
      | (with_reducible intro _) | simp only [mk_keeps] | simp only [mkSec_keeps] | split

theorem epiScalarNow_keeps (d : Stack) (c : CoreIx) (t word : Nat) (w : BitVec 128) (hk : Keeps z s) : Keeps z (epiScalarNow d
    c t word w s) := by
  unfold epiScalarNow
  try dsimp only
  repeat' first
      | with_reducible assumption | with_reducible apply amemRead_keeps
      | (refine amemRead_keepsE ?_ (by with_reducible assumption)) | with_reducible apply updCore_keeps
      | with_reducible apply ite_keeps | (with_reducible intro _) | simp only [mk_keeps] | simp only [mkSec_keeps] | split

theorem epiBlockNow_keeps (d : Stack) (c : CoreIx) (t word : Nat) (w : BitVec 128) (e u : Nat) (vals : List (BitVec 32)) (hk :
    Keeps z s) : Keeps z (epiBlockNow d c t word w e u vals s) := by
  unfold epiBlockNow
  try dsimp only
  repeat' first
      | with_reducible assumption | with_reducible apply amemRead_keeps
      | (refine amemRead_keepsE ?_ (by with_reducible assumption)) | with_reducible apply schedule_keeps
      | with_reducible apply getD_keeps | with_reducible apply ite_keeps | (with_reducible intro _) | simp only [mk_keeps]
      | simp only [mkSec_keeps] | split

theorem issueAccld_keeps (d : Stack) (c : CoreIx) (w : BitVec 128) (word t : Nat) (hk : Keeps z s) : Keeps z
    (issueAccld d c w word t s) := by
  unfold issueAccld
  try dsimp only
  repeat' first
      | with_reducible assumption | with_reducible apply forAll_keeps | with_reducible apply forAll_keeps
      | with_reducible apply ownFault_keeps | with_reducible apply schedule_keeps | with_reducible apply ite_keeps
      | (with_reducible intro _) | simp only [mk_keeps] | simp only [mkSec_keeps] | split

theorem accReadNow_keeps (d : Stack) (c : CoreIx) (t word p acc off u : Nat) (hk : Keeps z s) : Keeps z
    (accReadNow d c t word p acc off u s) := by
  unfold accReadNow
  try dsimp only
  repeat' first
      | with_reducible assumption | with_reducible apply amemRead_keeps
      | (refine amemRead_keepsE ?_ (by with_reducible assumption)) | with_reducible apply schedule_keeps
      | with_reducible apply ite_keeps | (with_reducible intro _) | simp only [mk_keeps] | simp only [mkSec_keeps] | split

end Sys2Proof.Machine
end

