-- ==== Sys2Proof/Laws/KeepsSfu.lean ====
section
/-! SUPPORT. What the definitions of Sfu.lean keep. -/
namespace Sys2Proof.Machine

variable {z s : State}

theorem issueSfu_keeps (d : Stack) (c : CoreIx) (w : BitVec 128) (word t : Nat) (hk : Keeps z s) : Keeps z
    (issueSfu d c w word t s) := by
  unfold issueSfu
  try dsimp only
  repeat' first
      | with_reducible assumption | with_reducible apply forAll_keeps | with_reducible apply ownFault_keeps
      | with_reducible apply putF_keeps | with_reducible apply bumpF_keeps | with_reducible apply updCore_keeps
      | with_reducible apply forAll_keeps | with_reducible apply schedule_keeps | with_reducible apply ite_keeps
      | (with_reducible intro _) | simp only [mk_keeps] | simp only [mkSec_keeps] | split

theorem readIn_keeps (d : Stack) (c : CoreIx) (t word off : Nat) (w : BitVec 128) (hk : Keeps z s) : Keeps z
    (readIn d c t word off w s).2 := by
  unfold readIn
  try dsimp only
  repeat' first
      | with_reducible assumption | with_reducible apply amemRead_keeps
      | (refine amemRead_keepsE ?_ (by with_reducible assumption)) | with_reducible apply ite_keeps | (with_reducible intro _)
      | simp only [mk_keeps] | simp only [mkSec_keeps] | split
theorem readIn_keepsE {d : Stack} {c : CoreIx} {t : Nat} {word : Nat} {off : Nat} {w : BitVec 128} {x0 : _} {s₁ : State}
    (hk : Keeps z s) (he : readIn d c t word off w s = (x0, s₁)) : Keeps z s₁ := by
  have k₁ := readIn_keeps d c t word off w hk
  rw [he] at k₁
  exact k₁

theorem updRun_keeps (d : Stack) (c : CoreIx) (f : SfuRun → SfuRun) (hk : Keeps z s) : Keeps z (updRun d c f s) := by
  unfold updRun
  try dsimp only
  repeat' first
      | with_reducible assumption | with_reducible apply updCore_keeps | with_reducible apply ite_keeps
      | (with_reducible intro _) | simp only [mk_keeps] | simp only [mkSec_keeps] | split

theorem putResult_keeps (d : Stack) (c : CoreIx) (t word k : Nat) (w : BitVec 128) (vals : List (BitVec 32)) (hk :
    Keeps z s) : Keeps z (putResult d c t word k w vals s) := by
  unfold putResult
  try dsimp only
  repeat' first
      | with_reducible assumption | with_reducible apply schedule_keeps | with_reducible apply ite_keeps
      | (with_reducible intro _) | simp only [mk_keeps] | simp only [mkSec_keeps] | split

theorem sfuElem_keeps (d : Stack) (c : CoreIx) (t k : Nat) (r : SfuRun) (hk : Keeps z s) : Keeps z (sfuElem d c t k r s) := by
  unfold sfuElem
  try dsimp only
  repeat' first
      | with_reducible assumption | with_reducible apply readIn_keeps
      | (refine readIn_keepsE ?_ (by with_reducible assumption)) | with_reducible apply amemRead_keeps
      | (refine amemRead_keepsE ?_ (by with_reducible assumption)) | with_reducible apply putResult_keeps
      | with_reducible apply ite_keeps | (with_reducible intro _) | simp only [mk_keeps] | simp only [mkSec_keeps] | split

theorem sfuFuncBlock_keeps (d : Stack) (c : CoreIx) (t k : Nat) (r : SfuRun) (hk : Keeps z s) : Keeps z
    (sfuFuncBlock d c t k r s) := by
  unfold sfuFuncBlock
  try dsimp only
  repeat' first
      | with_reducible assumption | with_reducible apply forAll_keeps | with_reducible apply readIn_keeps
      | (refine readIn_keepsE ?_ (by with_reducible assumption)) | with_reducible apply putResult_keeps
      | with_reducible apply forAll_keeps | with_reducible apply markSfu_keeps | with_reducible apply schedule_keeps
      | with_reducible apply ite_keeps | (with_reducible intro _) | simp only [mk_keeps] | simp only [mkSec_keeps] | split

theorem sfuRowEnd_keeps (d : Stack) (c : CoreIx) (t : Nat) (r : SfuRun) (hk : Keeps z s) : Keeps z (sfuRowEnd d c t r s) := by
  unfold sfuRowEnd
  try dsimp only
  repeat' first
      | with_reducible assumption | with_reducible apply markSfu_keeps | with_reducible apply amemWrite_keeps
      | with_reducible apply updRun_keeps | with_reducible apply ite_keeps | (with_reducible intro _) | simp only [mk_keeps]
      | simp only [mkSec_keeps] | split

theorem sfuPass2_keeps (d : Stack) (c : CoreIx) (t k : Nat) (r : SfuRun) (hk : Keeps z s) : Keeps z
    (sfuPass2 d c t k r s) := by
  unfold sfuPass2
  try dsimp only
  repeat' first
      | with_reducible assumption | with_reducible apply readIn_keeps
      | (refine readIn_keepsE ?_ (by with_reducible assumption)) | with_reducible apply schedule_keeps
      | with_reducible apply updRun_keeps | with_reducible apply ite_keeps | (with_reducible intro _) | simp only [mk_keeps]
      | simp only [mkSec_keeps] | split

theorem sfuPass2End_keeps (d : Stack) (c : CoreIx) (r : SfuRun) (hk : Keeps z s) : Keeps z (sfuPass2End d c r s) := by
  unfold sfuPass2End
  try dsimp only
  repeat' first
      | with_reducible assumption | with_reducible apply updRun_keeps | with_reducible apply ite_keeps
      | (with_reducible intro _) | simp only [mk_keeps] | simp only [mkSec_keeps] | split

theorem sfuPass3_keeps (d : Stack) (c : CoreIx) (t k : Nat) (r : SfuRun) (hk : Keeps z s) : Keeps z
    (sfuPass3 d c t k r s) := by
  unfold sfuPass3
  try dsimp only
  repeat' first
      | with_reducible assumption | with_reducible apply amemRead_keeps
      | (refine amemRead_keepsE ?_ (by with_reducible assumption)) | with_reducible apply putResult_keeps
      | with_reducible apply readIn_keeps | (refine readIn_keepsE ?_ (by with_reducible assumption))
      | with_reducible apply ite_keeps | (with_reducible intro _) | simp only [mk_keeps] | simp only [mkSec_keeps] | split

theorem sfuMerge_keeps (d : Stack) (c : CoreIx) (t ik : Nat) (r : SfuRun) (hk : Keeps z s) : Keeps z
    (sfuMerge d c t ik r s) := by
  unfold sfuMerge
  try dsimp only
  repeat' first
      | with_reducible assumption | with_reducible apply amemRead_keeps
      | (refine amemRead_keepsE ?_ (by with_reducible assumption)) | with_reducible apply updRun_keeps
      | with_reducible apply ite_keeps | (with_reducible intro _) | simp only [mk_keeps] | simp only [mkSec_keeps] | split

theorem sfuOut_keeps (d : Stack) (c : CoreIx) (t k : Nat) (r : SfuRun) (hk : Keeps z s) : Keeps z (sfuOut d c t k r s) := by
  unfold sfuOut
  try dsimp only
  repeat' first
      | with_reducible assumption | with_reducible apply markSfu_keeps | with_reducible apply amemWrite_keeps
      | with_reducible apply putBlockNow_keeps | with_reducible apply ite_keeps | (with_reducible intro _)
      | simp only [mk_keeps] | simp only [mkSec_keeps] | split

theorem sfuNow_keeps (d : Stack) (c : CoreIx) (t : Nat) (st : SfuStage) (k : Nat) (hk : Keeps z s) : Keeps z
    (sfuNow d c t st k s) := by
  unfold sfuNow
  try dsimp only
  repeat' first
      | with_reducible assumption | with_reducible apply amemRead_keeps
      | (refine amemRead_keepsE ?_ (by with_reducible assumption)) | with_reducible apply updRun_keeps
      | with_reducible apply sfuElem_keeps | with_reducible apply sfuFuncBlock_keeps | with_reducible apply readIn_keeps
      | (refine readIn_keepsE ?_ (by with_reducible assumption)) | with_reducible apply sfuRowEnd_keeps
      | with_reducible apply sfuPass2_keeps | with_reducible apply sfuPass2End_keeps | with_reducible apply sfuPass3_keeps
      | with_reducible apply sfuMerge_keeps | with_reducible apply sfuOut_keeps | with_reducible apply ite_keeps
      | (with_reducible intro _) | simp only [mk_keeps] | simp only [mkSec_keeps] | split

end Sys2Proof.Machine
end

