-- ==== Sys2Proof/Laws/KeepsVaultOps.lean ====
section
/-! SUPPORT. What the definitions of VaultOps.lean keep. -/
namespace Sys2Proof.Machine

variable {z s : State}

theorem addAcc_keeps (d : Stack) (c : CoreIx) (a n : Nat) (hk : Keeps z s) : Keeps z (addAcc d c a n s) := by
  unfold addAcc
  try dsimp only
  repeat' first
      | with_reducible assumption | with_reducible apply updTherm_keeps | with_reducible apply ite_keeps
      | (with_reducible intro _) | simp only [mk_keeps] | simp only [mkSec_keeps] | split

theorem countLanes_keeps (d : Stack) (c : CoreIx) (i : Nat) (w : CodeWord) (o : CodeOutcome) (u : Upsets) (hk : Keeps z s) :
    Keeps z (countLanes d c i w o u s) := by
  unfold countLanes
  try dsimp only
  repeat' first
      | with_reducible assumption | (with_reducible refine foldl_keeps (Keeps z) _ _ _ (fun _ _ _ => ?_) ?_)
      | (with_reducible refine foldr_keeps (Keeps z) _ _ _ (fun _ _ _ => ?_) ?_) | with_reducible apply foldl_keeps2
      | with_reducible apply foldr_keeps2 | with_reducible apply foldl_keeps3 | with_reducible apply foldr_keeps3
      | with_reducible apply updVc_keeps | with_reducible apply ite_keeps | (with_reducible intro _) | simp only [mk_keeps]
      | simp only [mkSec_keeps] | split

theorem countWord_keeps (a : Nat) (o : CodeOutcome) (hk : Keeps z s) : Keeps z (countWord a o s) := by
  unfold countWord
  try dsimp only
  repeat' first
      | with_reducible assumption | with_reducible apply bumpF_keeps | with_reducible apply ite_keeps
      | (with_reducible intro _) | simp only [mk_keeps] | simp only [mkSec_keeps] | split

theorem vaultRead_keeps (d : Stack) (c : CoreIx) (a i : Nat) (u : Upsets) (hk : Keeps z s) : Keeps z (vaultRead d c a i u
    s).2.2 := by
  unfold vaultRead
  try dsimp only
  repeat' first
      | with_reducible assumption | with_reducible apply countLanes_keeps | with_reducible apply countWord_keeps
      | with_reducible apply ite_keeps | (with_reducible intro _) | simp only [mk_keeps] | simp only [mkSec_keeps] | split
theorem vaultRead_keepsE {d : Stack} {c : CoreIx} {a i : Nat} {u : Upsets} {x0 : _} {x1 : _} {s₁ : State} (hk : Keeps z s) (he
    : vaultRead d c a i u s = (x0, x1, s₁)) : Keeps z s₁ := by
  have k₁ := vaultRead_keeps d c a i u hk
  rw [he] at k₁
  exact k₁

theorem vaultLoad_keeps (d : Stack) (c : CoreIx) (a i : Nat) (u : Upsets) (hk : Keeps z s) : Keeps z (vaultLoad d c a i u
    s).2.2 := by
  unfold vaultLoad
  try dsimp only
  repeat' first
      | with_reducible assumption | with_reducible apply vaultRead_keeps
      | (refine vaultRead_keepsE ?_ (by with_reducible assumption)) | with_reducible apply ite_keeps
      | (with_reducible intro _) | simp only [mk_keeps] | simp only [mkSec_keeps] | split
theorem vaultLoad_keepsE {d : Stack} {c : CoreIx} {a i : Nat} {u : Upsets} {x0 : _} {x1 : _} {s₁ : State} (hk : Keeps z s) (he
    : vaultLoad d c a i u s = (x0, x1, s₁)) : Keeps z s₁ := by
  have k₁ := vaultLoad_keeps d c a i u hk
  rw [he] at k₁
  exact k₁

theorem storeBankWord_keeps (d : Stack) (c : CoreIx) (j off who : Nat) (w : CodeWord) (hk : Keeps z s) : Keeps z
    (storeBankWord d c j off who w s) := by
  unfold storeBankWord
  try dsimp only
  repeat' first
      | with_reducible assumption | with_reducible apply updVc_keeps | with_reducible apply writeWord_keeps
      | with_reducible apply putF_keeps | with_reducible apply ite_keeps | (with_reducible intro _) | simp only [mk_keeps]
      | simp only [mkSec_keeps] | split

theorem vbusError_keeps (d : Stack) (c : CoreIx) (hk : Keeps z s) : Keeps z (vbusError d c s) := by
  unfold vbusError
  try dsimp only
  repeat' first
      | with_reducible assumption | with_reducible apply recordErr_keeps | with_reducible apply poisonStep_keeps
      | with_reducible apply ite_keeps | (with_reducible intro _) | simp only [mk_keeps] | simp only [mkSec_keeps] | split

theorem crossWord_keeps (d : Stack) (c : CoreIx) (code : Code) (i : Nat) (u : Upsets) (data : BitVec 512) (hk : Keeps z s) :
    Keeps z (crossWord d c code i u data s).2 := by
  unfold crossWord
  try dsimp only
  repeat' first
      | with_reducible assumption | with_reducible apply countLanes_keeps | with_reducible apply vbusError_keeps
      | with_reducible apply ite_keeps | (with_reducible intro _) | simp only [mk_keeps] | simp only [mkSec_keeps] | split
theorem crossWord_keepsE {d : Stack} {c : CoreIx} {code : Code} {i : Nat} {u : Upsets} {data : BitVec 512} {x0 : _} {s₁ :
    State} (hk : Keeps z s) (he : crossWord d c code i u data s = (x0, s₁)) : Keeps z s₁ := by
  have k₁ := crossWord_keeps d c code i u data hk
  rw [he] at k₁
  exact k₁

theorem vaultStore_keeps (d : Stack) (c : CoreIx) (a who : Nat) (u : Upsets) (data : BitVec 512) (hk : Keeps z s) : Keeps z
    (vaultStore d c a who u data s) := by
  unfold vaultStore
  try dsimp only
  repeat' first
      | with_reducible assumption | with_reducible apply crossWord_keeps
      | (refine crossWord_keepsE ?_ (by with_reducible assumption)) | with_reducible apply storeBankWord_keeps
      | with_reducible apply ite_keeps | (with_reducible intro _) | simp only [mk_keeps] | simp only [mkSec_keeps] | split

theorem vaultPoison_keeps (d : Stack) (c : CoreIx) (a : Nat) (data : BitVec 512) (hk : Keeps z s) : Keeps z
    (vaultPoison d c a data s) := by
  unfold vaultPoison
  try dsimp only
  repeat' first
      | with_reducible assumption | with_reducible apply storeBankWord_keeps | with_reducible apply ite_keeps
      | (with_reducible intro _) | simp only [mk_keeps] | simp only [mkSec_keeps] | split

theorem compiledStore_keeps (d : Stack) (c : CoreIx) (a : Nat) (u : Upsets) (data : BitVec 512) (hk : Keeps z s) : Keeps z
    (compiledStore d c a u data s) := by
  unfold compiledStore
  try dsimp only
  repeat' first
      | with_reducible assumption | with_reducible apply satF_keeps | with_reducible apply updVc_keeps
      | with_reducible apply vaultStore_keeps | with_reducible apply ite_keeps | (with_reducible intro _)
      | simp only [mk_keeps] | simp only [mkSec_keeps] | split

theorem requestSegment_keeps (d : Stack) (n : Nat) (hk : Keeps z s) : Keeps z (requestSegment d n s) := by
  unfold requestSegment
  try dsimp only
  repeat' first
      | with_reducible assumption | with_reducible apply putF_keeps | with_reducible apply ite_keeps
      | (with_reducible intro _) | simp only [mk_keeps] | simp only [mkSec_keeps] | split

theorem markRow_keeps (d : Stack) (c : CoreIx) (j off : Nat) (hk : Keeps z s) : Keeps z (markRow d c j off s) := by
  unfold markRow
  try dsimp only
  repeat' first
      | with_reducible assumption | with_reducible apply requestSegment_keeps | with_reducible apply updVc_keeps
      | with_reducible apply ite_keeps | (with_reducible intro _) | simp only [mk_keeps] | simp only [mkSec_keeps] | split

theorem compiledBad_keeps (d : Stack) (c : CoreIx) (ch a : Nat) (o : CodeOutcome) (hk : Keeps z s) : Keeps z (compiledBad d c
    ch a o s) := by
  unfold compiledBad
  try dsimp only
  repeat' first
      | with_reducible assumption | with_reducible apply poisonStep_keeps | with_reducible apply recordErr_keeps
      | with_reducible apply markRow_keeps | with_reducible apply updVc_keeps | with_reducible apply updCore_keeps
      | with_reducible apply ite_keeps | (with_reducible intro _) | simp only [mk_keeps] | simp only [mkSec_keeps] | split

theorem bpFault_keeps (d : Stack) (c : CoreIx) (j kind cause pc mcycle : Nat) (hk : Keeps z s) : Keeps z
    (bpFault d c j kind cause pc mcycle s) := by
  unfold bpFault
  try dsimp only
  repeat' first
      | with_reducible assumption | with_reducible apply putReg_keeps | with_reducible apply noteFault_keeps
      | with_reducible apply poisonStep_keeps | with_reducible apply recordErr_keeps | with_reducible apply ite_keeps
      | (with_reducible intro _) | simp only [mk_keeps] | simp only [mkSec_keeps] | split

theorem takeBus_keeps (d : Stack) (c : CoreIx) (t word : Nat) (hk : Keeps z s) : Keeps z (takeBus d c t word s).2 := by
  unfold takeBus
  try dsimp only
  repeat' first
      | with_reducible assumption | with_reducible apply updCore_keeps | with_reducible apply ownFault_keeps
      | with_reducible apply ite_keeps | (with_reducible intro _) | simp only [mk_keeps] | simp only [mkSec_keeps] | split
theorem takeBus_keepsE {d : Stack} {c : CoreIx} {t word : Nat} {x0 : _} {s₁ : State} (hk : Keeps z s) (he : takeBus d c t word
    s = (x0, s₁)) : Keeps z s₁ := by
  have k₁ := takeBus_keeps d c t word hk
  rw [he] at k₁
  exact k₁

theorem noteBus_keeps (d : Stack) (c : CoreIx) (t : Nat) (hk : Keeps z s) : Keeps z (noteBus d c t s) := by
  unfold noteBus
  try dsimp only
  repeat' first
      | with_reducible assumption | with_reducible apply updCore_keeps | with_reducible apply ite_keeps
      | (with_reducible intro _) | simp only [mk_keeps] | simp only [mkSec_keeps] | split

end Sys2Proof.Machine
end

