-- ==== Sys2Proof/Laws/KeepsAdder.lean ====
section
/-! SUPPORT. What the definitions of Adder.lean keep. -/
namespace Sys2Proof.Machine

variable {z s : State}

theorem vcFault_keeps (d : Stack) (c : CoreIx) (kind grp cidx t : Nat) (hk : Keeps z s) : Keeps z
    (vcFault d c kind grp cidx t s) := by
  unfold vcFault
  try dsimp only
  repeat' first
      | with_reducible assumption | with_reducible apply putReg_keeps | with_reducible apply noteFault_keeps
      | with_reducible apply poisonStep_keeps | with_reducible apply recordErr_keeps | with_reducible apply ite_keeps
      | (with_reducible intro _) | simp only [mk_keeps] | simp only [mkSec_keeps] | split

theorem vaultContribution_keeps (d : Stack) (c : CoreIx) (t grp cidx off : Nat) (data : BitVec 1024) (hk : Keeps z s) : Keeps
    z (vaultContribution d c t grp cidx off data s) := by
  unfold vaultContribution
  try dsimp only
  repeat' first
      | with_reducible assumption | with_reducible apply vcFault_keeps | with_reducible apply updVc_keeps
      | with_reducible apply forAll_keeps | with_reducible apply schedule_keeps | with_reducible apply ite_keeps
      | (with_reducible intro _) | simp only [mk_keeps] | simp only [mkSec_keeps] | split

theorem clearGroup_keeps (d : Stack) (c : CoreIx) (grp t : Nat) (hk : Keeps z s) : Keeps z (clearGroup d c grp t s) := by
  unfold clearGroup
  try dsimp only
  repeat' first
      | with_reducible assumption | with_reducible apply updVc_keeps | with_reducible apply ite_keeps
      | (with_reducible intro _) | simp only [mk_keeps] | simp only [mkSec_keeps] | split

theorem addResultNow_keeps (d : Stack) (c : CoreIx) (t grp b : Nat) (u : Upsets) (hk : Keeps z s) : Keeps z (addResultNow d c
    t grp b u s) := by
  unfold addResultNow
  try dsimp only
  repeat' first
      | with_reducible assumption | with_reducible apply clearGroup_keeps | with_reducible apply updCore_keeps
      | with_reducible apply vcFault_keeps | with_reducible apply ownFault_keeps | with_reducible apply noteBus_keeps
      | with_reducible apply bpFault_keeps | with_reducible apply compiledStore_keeps | with_reducible apply addAcc_keeps
      | with_reducible apply ite_keeps | (with_reducible intro _) | simp only [mk_keeps] | simp only [mkSec_keeps] | split

end Sys2Proof.Machine
end

