-- ==== Sys2Proof/Laws/KeepsVdma.lean ====
section
/-! SUPPORT. What the definitions of Vdma.lean keep. -/
namespace Sys2Proof.Machine

variable {z s : State}

theorem issueVdma_keeps (d : Stack) (c : CoreIx) (ups : List Upsets) (w : BitVec 128) (word t : Nat) (hk : Keeps z s) : Keeps
    z (issueVdma d c ups w word t s) := by
  unfold issueVdma
  try dsimp only
  repeat' first
      | with_reducible assumption | with_reducible apply vcFault_keeps | with_reducible apply updCore_keeps
      | with_reducible apply forAll_keeps | with_reducible apply schedule_keeps | with_reducible apply getD_keeps
      | with_reducible apply ite_keeps | (with_reducible intro _) | simp only [mk_keeps] | simp only [mkSec_keeps] | split

theorem putBeat_keeps (d : Stack) (c : CoreIx) (t word ta data : Nat) (again : Act) (hk : Keeps z s) : Keeps z
    (putBeat d c t word ta data again s) := by
  unfold putBeat
  try dsimp only
  repeat' first
      | with_reducible assumption | with_reducible apply schedule_keeps | with_reducible apply ownFault_keeps
      | with_reducible apply writeMem_keeps | with_reducible apply amemWrite_keeps | with_reducible apply ite_keeps
      | (with_reducible intro _) | simp only [mk_keeps] | simp only [mkSec_keeps] | split

theorem takeBeat_keeps (d : Stack) (c : CoreIx) (t word ta : Nat) (hk : Keeps z s) : Keeps z
    (takeBeat d c t word ta s).2 := by
  unfold takeBeat
  try dsimp only
  repeat' first
      | with_reducible assumption | with_reducible apply amemRead_keeps
      | (refine amemRead_keepsE ?_ (by with_reducible assumption)) | with_reducible apply ite_keeps | (with_reducible intro _)
      | simp only [mk_keeps] | simp only [mkSec_keeps] | split
theorem takeBeat_keepsE {d : Stack} {c : CoreIx} {t : Nat} {word : Nat} {ta : Nat} {x0 : _} {s₁ : State} (hk : Keeps z s)
    (he : takeBeat d c t word ta s = (x0, s₁)) : Keeps z s₁ := by
  have k₁ := takeBeat_keeps d c t word ta hk
  rw [he] at k₁
  exact k₁

theorem loadWords_keeps (d : Stack) (c : CoreIx) (va : Nat) (u : Upsets) : ∀ (a0 : Nat) (a1 : Nat) {s : State}, Keeps z s →
    Keeps z (loadWords d c va u a0 a1 s).2.2 := by
  intro a0 a1 s hk
  induction a1 generalizing a0 s with
  | zero => unfold loadWords; exact hk
  | succ n ih =>
    unfold loadWords
    try dsimp only
    repeat' first
        | with_reducible assumption | with_reducible apply ih | (refine keepsE3 (ih _ ?_) (by with_reducible assumption))
        | with_reducible apply vaultLoad_keeps | (refine vaultLoad_keepsE ?_ (by with_reducible assumption))
        | with_reducible apply ite_keeps | (with_reducible intro _) | simp only [mk_keeps] | simp only [mkSec_keeps] | split
theorem loadWords_keepsE {d : Stack} {c : CoreIx} {va : Nat} {u : Upsets} {a0 : Nat} {a1 : Nat} {x0 : _} {x1 : _} {s₁ : State}
    (hk : Keeps z s) (he : loadWords d c va u a0 a1 s = (x0, x1, s₁)) : Keeps z s₁ := by
  have k₁ := loadWords_keeps d c va u a0 a1 hk
  rw [he] at k₁
  exact k₁

theorem loadBeat_keeps (d : Stack) (c : CoreIx) (va : Nat) (u : Upsets) (hk : Keeps z s) : Keeps z (loadBeat d c va u s).2.2
    := by
  unfold loadBeat
  try dsimp only
  repeat' first
      | with_reducible assumption | with_reducible apply loadWords_keeps
      | (refine loadWords_keepsE ?_ (by with_reducible assumption)) | with_reducible apply addAcc_keeps
      | with_reducible apply ite_keeps | (with_reducible intro _) | simp only [mk_keeps] | simp only [mkSec_keeps] | split
theorem loadBeat_keepsE {d : Stack} {c : CoreIx} {va : Nat} {u : Upsets} {x0 : _} {x1 : _} {s₁ : State} (hk : Keeps z s) (he :
    loadBeat d c va u s = (x0, x1, s₁)) : Keeps z s₁ := by
  have k₁ := loadBeat_keeps d c va u hk
  rw [he] at k₁
  exact k₁

theorem crossBeat_keeps (d : Stack) (c : CoreIx) (u : Upsets) : ∀ (a0 : Nat) (a1 : Nat) (a2 : Nat) {s : State}, Keeps z s →
    Keeps z (crossBeat d c u a0 a1 a2 s).2 := by
  intro a0 a1 a2 s hk
  induction a1 generalizing a0 a2 s with
  | zero => unfold crossBeat; exact hk
  | succ n ih =>
    unfold crossBeat
    try dsimp only
    repeat' first
        | with_reducible assumption | with_reducible apply ih | (refine keepsE2 (ih _ _ ?_) (by with_reducible assumption))
        | with_reducible apply crossWord_keeps | (refine crossWord_keepsE ?_ (by with_reducible assumption))
        | with_reducible apply ite_keeps | (with_reducible intro _) | simp only [mk_keeps] | simp only [mkSec_keeps] | split
theorem crossBeat_keepsE {d : Stack} {c : CoreIx} {u : Upsets} {a0 : Nat} {a1 : Nat} {a2 : Nat} {x0 : _} {s₁ : State} (hk :
    Keeps z s) (he : crossBeat d c u a0 a1 a2 s = (x0, s₁)) : Keeps z s₁ := by
  have k₁ := crossBeat_keeps d c u a0 a1 a2 hk
  rw [he] at k₁
  exact k₁

theorem beatInNow_keeps (d : Stack) (c : CoreIx) (t word ch va ta issue : Nat) (u : Upsets) (hk : Keeps z s) : Keeps z
    (beatInNow d c t word ch va ta issue u s) := by
  unfold beatInNow
  try dsimp only
  repeat' first
      | with_reducible assumption | with_reducible apply bpFault_keeps | with_reducible apply takeBus_keeps
      | (refine takeBus_keepsE ?_ (by with_reducible assumption)) | with_reducible apply putBeat_keeps
      | with_reducible apply loadBeat_keeps | (refine loadBeat_keepsE ?_ (by with_reducible assumption))
      | with_reducible apply forAll_keeps | with_reducible apply compiledBad_keeps | with_reducible apply updCore_keeps
      | with_reducible apply ite_keeps | (with_reducible intro _) | simp only [mk_keeps] | simp only [mkSec_keeps] | split

theorem beatOutNow_keeps (d : Stack) (c : CoreIx) (t word va ta last : Nat) (u : Upsets) (hk : Keeps z s) : Keeps z
    (beatOutNow d c t word va ta last u s) := by
  unfold beatOutNow
  try dsimp only
  repeat' first
      | with_reducible assumption | with_reducible apply bpFault_keeps | with_reducible apply takeBus_keeps
      | (refine takeBus_keepsE ?_ (by with_reducible assumption)) | with_reducible apply takeBeat_keeps
      | (refine takeBeat_keepsE ?_ (by with_reducible assumption)) | with_reducible apply forAll_keeps
      | with_reducible apply compiledStore_keeps | with_reducible apply addAcc_keeps | with_reducible apply updCore_keeps
      | with_reducible apply ite_keeps | (with_reducible intro _) | simp only [mk_keeps] | simp only [mkSec_keeps] | split

theorem bpSampleNow_keeps (d : Stack) (c : CoreIx) (t word ch va ta : Nat) (hk : Keeps z s) : Keeps z
    (bpSampleNow d c t word ch va ta s) := by
  unfold bpSampleNow
  try dsimp only
  repeat' first
      | with_reducible assumption | with_reducible apply bpFault_keeps | with_reducible apply schedule_keeps
      | with_reducible apply ite_keeps | (with_reducible intro _) | simp only [mk_keeps] | simp only [mkSec_keeps] | split

theorem bpDeliverNow_keeps (d : Stack) (c : CoreIx) (t word ch ta : Nat) (data : BitVec 2048) (u : Upsets) (hk : Keeps z s) :
    Keeps z (bpDeliverNow d c t word ch ta data u s) := by
  unfold bpDeliverNow
  try dsimp only
  repeat' first
      | with_reducible assumption | with_reducible apply takeBus_keeps
      | (refine takeBus_keepsE ?_ (by with_reducible assumption)) | with_reducible apply crossBeat_keeps
      | (refine crossBeat_keepsE ?_ (by with_reducible assumption)) | with_reducible apply putBeat_keeps
      | with_reducible apply ite_keeps | (with_reducible intro _) | simp only [mk_keeps] | simp only [mkSec_keeps] | split

theorem bpSendNow_keeps (d : Stack) (c : CoreIx) (t word ch va ta : Nat) (u : Upsets) (hk : Keeps z s) : Keeps z (bpSendNow d
    c t word ch va ta u s) := by
  unfold bpSendNow
  try dsimp only
  repeat' first
      | with_reducible assumption | with_reducible apply takeBus_keeps
      | (refine takeBus_keepsE ?_ (by with_reducible assumption)) | with_reducible apply takeBeat_keeps
      | (refine takeBeat_keepsE ?_ (by with_reducible assumption)) | with_reducible apply crossBeat_keeps
      | (refine crossBeat_keepsE ?_ (by with_reducible assumption)) | with_reducible apply schedule_keeps
      | with_reducible apply ite_keeps | (with_reducible intro _) | simp only [mk_keeps] | simp only [mkSec_keeps] | split

theorem bpPlaceNow_keeps (d : Stack) (c : CoreIx) (t va : Nat) (data : BitVec 2048) (hk : Keeps z s) : Keeps z (bpPlaceNow d c
    t va data s) := by
  unfold bpPlaceNow
  try dsimp only
  repeat' first
      | with_reducible assumption | with_reducible apply bpFault_keeps | with_reducible apply writeMem_keeps
      | with_reducible apply ite_keeps | (with_reducible intro _) | simp only [mk_keeps] | simp only [mkSec_keeps] | split

end Sys2Proof.Machine
end

