-- ==== Sys2Proof/Laws/KeepsLpOps.lean ====
section
/-! SUPPORT. What the definitions of LpOps.lean keep. -/
namespace Sys2Proof.Machine

variable {z s : State}

theorem storeLpWord_keeps (d : Stack) (ch row sec who : Nat) (w : CodeWord) (hk : Keeps z s) : Keeps z (storeLpWord d ch row
    sec who w s) := by
  unfold storeLpWord
  try dsimp only
  repeat' first
      | with_reducible assumption | with_reducible apply updLp_keeps | with_reducible apply writeWord_keeps
      | with_reducible apply putF_keeps | with_reducible apply ite_keeps | (with_reducible intro _) | simp only [mk_keeps]
      | simp only [mkSec_keeps] | split

theorem lpRead_keeps (d : Stack) (k i : Nat) (u : Upsets) (hk : Keeps z s) : Keeps z (lpRead d k i u s).2 := by
  unfold lpRead
  try dsimp only
  repeat' first
      | with_reducible assumption | with_reducible apply countWord_keeps | with_reducible apply updLp_keeps
      | with_reducible apply ite_keeps | (with_reducible intro _) | simp only [mk_keeps] | simp only [mkSec_keeps] | split
theorem lpRead_keepsE {d : Stack} {k i : Nat} {u : Upsets} {x0 : _} {s₁ : State} (hk : Keeps z s) (he : lpRead d k i u s =
    (x0, s₁)) : Keeps z s₁ := by
  have k₁ := lpRead_keeps d k i u hk
  rw [he] at k₁
  exact k₁

theorem lpLoad_keeps (d : Stack) (k i : Nat) (u : Upsets) (hk : Keeps z s) : Keeps z (lpLoad d k i u s).2 := by
  unfold lpLoad
  try dsimp only
  repeat' first
      | with_reducible assumption | with_reducible apply lpRead_keeps
      | (refine lpRead_keepsE ?_ (by with_reducible assumption)) | with_reducible apply ite_keeps | (with_reducible intro _)
      | simp only [mk_keeps] | simp only [mkSec_keeps] | split
theorem lpLoad_keepsE {d : Stack} {k i : Nat} {u : Upsets} {x0 : _} {s₁ : State} (hk : Keeps z s) (he : lpLoad d k i u s =
    (x0, s₁)) : Keeps z s₁ := by
  have k₁ := lpLoad_keeps d k i u hk
  rw [he] at k₁
  exact k₁

theorem lpStore_keeps (d : Stack) (k who : Nat) (data : BitVec 512) (hk : Keeps z s) : Keeps z (lpStore d k who data s) := by
  unfold lpStore
  try dsimp only
  repeat' first
      | with_reducible assumption | with_reducible apply storeLpWord_keeps | with_reducible apply ite_keeps
      | (with_reducible intro _) | simp only [mk_keeps] | simp only [mkSec_keeps] | split

theorem lpPoison_keeps (d : Stack) (k : Nat) (data : BitVec 512) (hk : Keeps z s) : Keeps z (lpPoison d k data s) := by
  unfold lpPoison
  try dsimp only
  repeat' first
      | with_reducible assumption | with_reducible apply storeLpWord_keeps | with_reducible apply ite_keeps
      | (with_reducible intro _) | simp only [mk_keeps] | simp only [mkSec_keeps] | split

theorem lpCompiled_keeps (d : Stack) (k : Nat) (data : BitVec 512) (hk : Keeps z s) : Keeps z (lpCompiled d k data s) := by
  unfold lpCompiled
  try dsimp only
  repeat' first
      | with_reducible assumption | with_reducible apply satF_keeps | with_reducible apply updLp_keeps
      | with_reducible apply lpStore_keeps | with_reducible apply ite_keeps | (with_reducible intro _) | simp only [mk_keeps]
      | simp only [mkSec_keeps] | split

theorem lpMark_keeps (d : Stack) (k : Nat) (hk : Keeps z s) : Keeps z (lpMark d k s) := by
  unfold lpMark
  try dsimp only
  repeat' first
      | with_reducible assumption | with_reducible apply requestSegment_keeps | with_reducible apply updLp_keeps
      | with_reducible apply ite_keeps | (with_reducible intro _) | simp only [mk_keeps] | simp only [mkSec_keeps] | split

theorem lpFault_keeps (d : Stack) (kind grp cidx off sel : Nat) (hk : Keeps z s) : Keeps z
    (lpFault d kind grp cidx off sel s) := by
  unfold lpFault
  try dsimp only
  repeat' first
      | with_reducible assumption | with_reducible apply putReg_keeps | with_reducible apply noteFault_keeps
      | with_reducible apply recordErr_keeps | with_reducible apply ite_keeps | (with_reducible intro _)
      | simp only [mk_keeps] | simp only [mkSec_keeps] | split

theorem issueLdma_keeps (d : Stack) (c : CoreIx) (ups : List Upsets) (w : BitVec 128) (word t : Nat) (thaw : Bool) (hk : Keeps
    z s) : Keeps z (issueLdma d c ups w word t thaw s) := by
  unfold issueLdma
  try dsimp only
  repeat' first
      | with_reducible assumption | (with_reducible refine foldl_keeps (Keeps z) _ _ _ (fun _ _ _ => ?_) ?_)
      | (with_reducible refine foldr_keeps (Keeps z) _ _ _ (fun _ _ _ => ?_) ?_) | with_reducible apply foldl_keeps2
      | with_reducible apply foldr_keeps2 | with_reducible apply foldl_keeps3 | with_reducible apply foldr_keeps3
      | with_reducible apply poisonStep_keeps | with_reducible apply lpFault_keeps | with_reducible apply updLp_keeps
      | with_reducible apply forAll_keeps | with_reducible apply schedule_keeps | with_reducible apply getD_keeps
      | with_reducible apply ite_keeps | (with_reducible intro _) | simp only [mk_keeps] | simp only [mkSec_keeps] | split

theorem lpCompiledBad_keeps (d : Stack) (c : CoreIx) (k : Nat) (o : CodeOutcome) (hk : Keeps z s) : Keeps z
    (lpCompiledBad d c k o s) := by
  unfold lpCompiledBad
  try dsimp only
  repeat' first
      | with_reducible assumption | with_reducible apply poisonStep_keeps | with_reducible apply recordErr_keeps
      | with_reducible apply updLp_keeps | with_reducible apply lpMark_keeps | with_reducible apply ite_keeps
      | (with_reducible intro _) | simp only [mk_keeps] | simp only [mkSec_keeps] | split

theorem lpNoSector_keeps (d : Stack) (c : CoreIx) (t k : Nat) (hk : Keeps z s) : Keeps z (lpNoSector d c t k s) := by
  unfold lpNoSector
  try dsimp only
  repeat' first
      | with_reducible assumption | with_reducible apply poisonStep_keeps | with_reducible apply lpFault_keeps
      | with_reducible apply ite_keeps | (with_reducible intro _) | simp only [mk_keeps] | simp only [mkSec_keeps] | split

theorem ldmaInNow_keeps (d : Stack) (c : CoreIx) (t word k sa : Nat) (u : Upsets) (hk : Keeps z s) : Keeps z (ldmaInNow d c t
    word k sa u s) := by
  unfold ldmaInNow
  try dsimp only
  repeat' first
      | with_reducible assumption | with_reducible apply writeMem_keeps | with_reducible apply lpLoad_keeps
      | (refine lpLoad_keepsE ?_ (by with_reducible assumption)) | with_reducible apply lpNoSector_keeps
      | with_reducible apply lpCompiledBad_keeps | with_reducible apply ite_keeps | (with_reducible intro _)
      | simp only [mk_keeps] | simp only [mkSec_keeps] | split

theorem ldmaOutNow_keeps (d : Stack) (c : CoreIx) (t k sa last : Nat) (hk : Keeps z s) : Keeps z (ldmaOutNow d c t k sa last
    s) := by
  unfold ldmaOutNow
  try dsimp only
  repeat' first
      | with_reducible assumption | with_reducible apply lpNoSector_keeps | with_reducible apply updLp_keeps
      | with_reducible apply lpCompiled_keeps | with_reducible apply ite_keeps | (with_reducible intro _)
      | simp only [mk_keeps] | simp only [mkSec_keeps] | split

end Sys2Proof.Machine
end

