-- ==== Sys2Proof/Laws/KeepsMemCtl.lean ====
section
/-! SUPPORT. What the definitions of MemCtl.lean keep. -/
namespace Sys2Proof.Machine

variable {z s : State}

theorem uRead_keeps (d : Stack) (u : Fin 17) (a : Nat) (e : Upsets) (hk : Keeps z s) : Keeps z (uRead d u a e s).2 := by
  unfold uRead
  try dsimp only
  repeat' first
      | with_reducible assumption | with_reducible apply vaultRead_keeps
      | (refine vaultRead_keepsE ?_ (by with_reducible assumption)) | with_reducible apply lpRead_keeps
      | (refine lpRead_keepsE ?_ (by with_reducible assumption)) | with_reducible apply ite_keeps | (with_reducible intro _)
      | simp only [mk_keeps] | simp only [mkSec_keeps] | split
theorem uRead_keepsE {d : Stack} {u : Fin 17} {a : Nat} {e : Upsets} {x0 : _} {s₁ : State} (hk : Keeps z s) (he : uRead d u a
    e s = (x0, s₁)) : Keeps z s₁ := by
  have k₁ := uRead_keeps d u a e hk
  rw [he] at k₁
  exact k₁

theorem uLoad_keeps (d : Stack) (u : Fin 17) (a : Nat) (e : Upsets) (hk : Keeps z s) : Keeps z (uLoad d u a e s).2 := by
  unfold uLoad
  try dsimp only
  repeat' first
      | with_reducible assumption | with_reducible apply vaultLoad_keeps
      | (refine vaultLoad_keepsE ?_ (by with_reducible assumption)) | with_reducible apply lpLoad_keeps
      | (refine lpLoad_keepsE ?_ (by with_reducible assumption)) | with_reducible apply ite_keeps | (with_reducible intro _)
      | simp only [mk_keeps] | simp only [mkSec_keeps] | split
theorem uLoad_keepsE {d : Stack} {u : Fin 17} {a : Nat} {e : Upsets} {x0 : _} {s₁ : State} (hk : Keeps z s) (he : uLoad d u a
    e s = (x0, s₁)) : Keeps z s₁ := by
  have k₁ := uLoad_keeps d u a e hk
  rw [he] at k₁
  exact k₁

theorem uStore_keeps (d : Stack) (u : Fin 17) (a who : Nat) (e : Upsets) (v : BitVec 512) (hk : Keeps z s) : Keeps z (uStore d
    u a who e v s) := by
  unfold uStore
  try dsimp only
  repeat' first
      | with_reducible assumption | with_reducible apply vaultStore_keeps | with_reducible apply lpStore_keeps
      | with_reducible apply ite_keeps | (with_reducible intro _) | simp only [mk_keeps] | simp only [mkSec_keeps] | split

theorem uPoison_keeps (d : Stack) (u : Fin 17) (a : Nat) (v : BitVec 512) (hk : Keeps z s) : Keeps z (uPoison d u a v s) := by
  unfold uPoison
  try dsimp only
  repeat' first
      | with_reducible assumption | with_reducible apply vaultPoison_keeps | with_reducible apply lpPoison_keeps
      | with_reducible apply ite_keeps | (with_reducible intro _) | simp only [mk_keeps] | simp only [mkSec_keeps] | split

theorem setMerge_keeps (d : Stack) (u : Fin 17) (m : List MergeEntry) (hk : Keeps z s) : Keeps z (setMerge d u m s) := by
  unfold setMerge
  try dsimp only
  repeat' first
      | with_reducible assumption | with_reducible apply updVc_keeps | with_reducible apply updLp_keeps
      | with_reducible apply ite_keeps | (with_reducible intro _) | simp only [mk_keeps] | simp only [mkSec_keeps] | split

theorem uMark_keeps (d : Stack) (u : Fin 17) (a : Nat) (hk : Keeps z s) : Keeps z (uMark d u a s) := by
  unfold uMark
  try dsimp only
  repeat' first
      | with_reducible assumption | with_reducible apply markRow_keeps | with_reducible apply lpMark_keeps
      | with_reducible apply ite_keeps | (with_reducible intro _) | simp only [mk_keeps] | simp only [mkSec_keeps] | split

theorem uBad_keeps (d : Stack) (u : Fin 17) (a : Nat) (o : CodeOutcome) (hk : Keeps z s) : Keeps z (uBad d u a o s) := by
  unfold uBad
  try dsimp only
  repeat' first
      | with_reducible assumption | with_reducible apply recordErr_keeps | with_reducible apply uMark_keeps
      | with_reducible apply ite_keeps | (with_reducible intro _) | simp only [mk_keeps] | simp only [mkSec_keeps] | split

theorem addAct_keeps (d : Stack) (j n : Nat) (hk : Keeps z s) : Keeps z (addAct d j n s) := by
  unfold addAct
  try dsimp only
  repeat' first
      | with_reducible assumption | with_reducible apply updDie_keeps | with_reducible apply ite_keeps
      | (with_reducible intro _) | simp only [mk_keeps] | simp only [mkSec_keeps] | split

theorem creditRow_keeps (d : Stack) (c : CoreIx) (j off : Nat) (hk : Keeps z s) : Keeps z (creditRow d c j off s) := by
  unfold creditRow
  try dsimp only
  repeat' first
      | with_reducible assumption | with_reducible apply updVc_keeps | with_reducible apply ite_keeps
      | (with_reducible intro _) | simp only [mk_keeps] | simp only [mkSec_keeps] | split

theorem refreshStep_keeps (d : Stack) (c : CoreIx) (j b : Nat) (hk : Keeps z s) : Keeps z (refreshStep d c j b s).2 := by
  unfold refreshStep
  try dsimp only
  repeat' first
      | with_reducible assumption | (with_reducible refine foldl_keeps (Keeps z) _ _ _ (fun _ _ _ => ?_) ?_)
      | (with_reducible refine foldr_keeps (Keeps z) _ _ _ (fun _ _ _ => ?_) ?_) | with_reducible apply foldl_keeps2
      | with_reducible apply foldr_keeps2 | with_reducible apply foldl_keeps3 | with_reducible apply foldr_keeps3
      | with_reducible apply updVc_keeps | with_reducible apply bumpF_keeps | with_reducible apply addAct_keeps
      | with_reducible apply ite_keeps | (with_reducible intro _) | simp only [mk_keeps] | simp only [mkSec_keeps] | split
theorem refreshStep_keepsE {d : Stack} {c : CoreIx} {j : Nat} {b : Nat} {x0 : _} {s₁ : State} (hk : Keeps z s) (he :
    refreshStep d c j b s = (x0, s₁)) : Keeps z s₁ := by
  have k₁ := refreshStep_keeps d c j b hk
  rw [he] at k₁
  exact k₁

theorem rmwWord_keeps (d : Stack) (u : Fin 17) (a : Nat) (mask : BitVec 64) (e : Upsets) (data : BitVec 512) (hk : Keeps z s)
    : Keeps z (rmwWord d u a mask e data s) := by
  unfold rmwWord
  try dsimp only
  repeat' first
      | with_reducible assumption | with_reducible apply uRead_keeps | (refine uRead_keepsE ?_ (by with_reducible assumption))
      | with_reducible apply uPoison_keeps | with_reducible apply uBad_keeps | with_reducible apply uStore_keeps
      | with_reducible apply ite_keeps | (with_reducible intro _) | simp only [mk_keeps] | simp only [mkSec_keeps] | split

theorem writeBack_keeps (d : Stack) (u : Fin 17) (e : MergeEntry) (p : Upsets) (hk : Keeps z s) : Keeps z (writeBack d u e p
    s) := by
  unfold writeBack
  try dsimp only
  repeat' first
      | with_reducible assumption | with_reducible apply setMerge_keeps | with_reducible apply satF_keeps
      | with_reducible apply uStore_keeps | with_reducible apply rmwWord_keeps | with_reducible apply ite_keeps
      | (with_reducible intro _) | simp only [mk_keeps] | simp only [mkSec_keeps] | split

theorem mergeWrite_keeps (d : Stack) (u : Fin 17) (a : Nat) (mask : BitVec 64) (data : BitVec 512) (hk : Keeps z s) : Keeps z
    (mergeWrite d u a mask data s) := by
  unfold mergeWrite
  try dsimp only
  repeat' first
      | with_reducible assumption | with_reducible apply writeBack_keeps | with_reducible apply setMerge_keeps
      | with_reducible apply ite_keeps | (with_reducible intro _) | simp only [mk_keeps] | simp only [mkSec_keeps] | split

theorem hostRead_keeps (d : Stack) (u : Fin 17) (a n : Nat) (e : Upsets) (hk : Keeps z s) : Keeps z (hostRead d u a n e s).2
    := by
  unfold hostRead
  try dsimp only
  repeat' first
      | with_reducible assumption | (with_reducible refine foldl_keeps (Keeps z) _ _ _ (fun _ _ _ => ?_) ?_)
      | (with_reducible refine foldr_keeps (Keeps z) _ _ _ (fun _ _ _ => ?_) ?_) | with_reducible apply foldl_keeps2
      | with_reducible apply foldr_keeps2 | with_reducible apply foldl_keeps3 | with_reducible apply foldr_keeps3
      | with_reducible apply uLoad_keeps | (refine uLoad_keepsE ?_ (by with_reducible assumption))
      | with_reducible apply uBad_keeps | with_reducible apply ite_keeps | (with_reducible intro _) | simp only [mk_keeps]
      | simp only [mkSec_keeps] | split
theorem hostRead_keepsE {d : Stack} {u : Fin 17} {a n : Nat} {e : Upsets} {x0 : _} {s₁ : State} (hk : Keeps z s) (he :
    hostRead d u a n e s = (x0, s₁)) : Keeps z s₁ := by
  have k₁ := hostRead_keeps d u a n e hk
  rw [he] at k₁
  exact k₁

theorem hostWriteWord_keeps (d : Stack) (u : Fin 17) (w a n v : Nat) (e : Upsets) (hk : Keeps z s) : Keeps z (hostWriteWord d
    u w a n v e s) := by
  unfold hostWriteWord
  try dsimp only
  repeat' first
      | with_reducible assumption | with_reducible apply mergeWrite_keeps | with_reducible apply uStore_keeps
      | with_reducible apply rmwWord_keeps | with_reducible apply ite_keeps | (with_reducible intro _) | simp only [mk_keeps]
      | simp only [mkSec_keeps] | split

theorem addAnswer_keeps (d : Stack) (u : Fin 17) (x : HostAns) (hk : Keeps z s) : Keeps z (addAnswer d u x s) := by
  unfold addAnswer
  try dsimp only
  repeat' first
      | with_reducible assumption | with_reducible apply updVc_keeps | with_reducible apply updLp_keeps
      | with_reducible apply ite_keeps | (with_reducible intro _) | simp only [mk_keeps] | simp only [mkSec_keeps] | split

theorem hostAnswer_keeps (d : Stack) (u : Fin 17) (r : HostReq) (hk : Keeps z s) : Keeps z (hostAnswer d u r s).2 := by
  unfold hostAnswer
  try dsimp only
  repeat' first
      | with_reducible assumption | with_reducible apply addAct_keeps | with_reducible apply satF_keeps
      | with_reducible apply forAll_keeps | with_reducible apply hostWriteWord_keeps | with_reducible apply hostRead_keeps
      | (refine hostRead_keepsE ?_ (by with_reducible assumption)) | with_reducible apply ite_keeps | (with_reducible intro _)
      | simp only [mk_keeps] | simp only [mkSec_keeps] | split
theorem hostAnswer_keepsE {d : Stack} {u : Fin 17} {r : HostReq} {x0 : _} {s₁ : State} (hk : Keeps z s) (he : hostAnswer d u r
    s = (x0, s₁)) : Keeps z s₁ := by
  have k₁ := hostAnswer_keeps d u r hk
  rw [he] at k₁
  exact k₁

theorem serveHost_keeps (d : Stack) (u : Fin 17) (r : HostReq) (hk : Keeps z s) : Keeps z (serveHost d u r s) := by
  unfold serveHost
  try dsimp only
  repeat' first
      | with_reducible assumption | with_reducible apply hostAnswer_keeps
      | (refine hostAnswer_keepsE ?_ (by with_reducible assumption)) | with_reducible apply addAnswer_keeps
      | with_reducible apply ite_keeps | (with_reducible intro _) | simp only [mk_keeps] | simp only [mkSec_keeps] | split

theorem hostArrive_keeps (d : Stack) (u : Fin 17) (r : HostReq) (hk : Keeps z s) : Keeps z (hostArrive d u r s) := by
  unfold hostArrive
  try dsimp only
  repeat' first
      | with_reducible assumption | (with_reducible refine foldl_keeps (Keeps z) _ _ _ (fun _ _ _ => ?_) ?_)
      | (with_reducible refine foldr_keeps (Keeps z) _ _ _ (fun _ _ _ => ?_) ?_) | with_reducible apply foldl_keeps2
      | with_reducible apply foldr_keeps2 | with_reducible apply foldl_keeps3 | with_reducible apply foldr_keeps3
      | with_reducible apply addAnswer_keeps | with_reducible apply writeMem_keeps | with_reducible apply serveHost_keeps
      | with_reducible apply updVc_keeps | with_reducible apply putF_keeps | with_reducible apply updLp_keeps
      | with_reducible apply forAll_keeps | with_reducible apply ite_keeps | (with_reducible intro _) | simp only [mk_keeps]
      | simp only [mkSec_keeps] | split

theorem serveBank_keeps (d : Stack) (c : CoreIx) (q m : Nat) (hk : Keeps z s) : Keeps z (serveBank d c q m s) := by
  unfold serveBank
  try dsimp only
  repeat' first
      | with_reducible assumption | with_reducible apply updVc_keeps | with_reducible apply serveHost_keeps
      | with_reducible apply ite_keeps | (with_reducible intro _) | simp only [mk_keeps] | simp only [mkSec_keeps] | split

theorem hostWindow_keeps (d : Stack) (c : CoreIx) (j : Nat) (hk : Keeps z s) : Keeps z (hostWindow d c j s) := by
  unfold hostWindow
  try dsimp only
  repeat' first
      | with_reducible assumption | with_reducible apply forAll_keeps | with_reducible apply updBp_keeps
      | with_reducible apply forAll_keeps | with_reducible apply refreshStep_keeps
      | (refine refreshStep_keepsE ?_ (by with_reducible assumption)) | with_reducible apply serveBank_keeps
      | with_reducible apply bumpF_keeps | with_reducible apply ite_keeps | (with_reducible intro _) | simp only [mk_keeps]
      | simp only [mkSec_keeps] | split

theorem leaveSlot_keeps (d : Stack) (c : CoreIx) (b : Nat) (hk : Keeps z s) : Keeps z (leaveSlot d c b s) := by
  unfold leaveSlot
  try dsimp only
  repeat' first
      | with_reducible assumption | with_reducible apply updVc_keeps | with_reducible apply ite_keeps
      | (with_reducible intro _) | simp only [mk_keeps] | simp only [mkSec_keeps] | split

theorem controllerWindow_keeps (d : Stack) (c : CoreIx) (hk : Keeps z s) : Keeps z (controllerWindow d c s) := by
  unfold controllerWindow
  try dsimp only
  repeat' first
      | with_reducible assumption | with_reducible apply updVc_keeps | with_reducible apply forAll_keeps
      | with_reducible apply refreshStep_keeps | (refine refreshStep_keepsE ?_ (by with_reducible assumption))
      | with_reducible apply leaveSlot_keeps | with_reducible apply serveBank_keeps | with_reducible apply ite_keeps
      | (with_reducible intro _) | simp only [mk_keeps] | simp only [mkSec_keeps] | split

theorem joinPart_keeps (d : Stack) (r : HostReq) (x : HostAns) (hk : Keeps z s) : Keeps z (joinPart d r x s) := by
  unfold joinPart
  try dsimp only
  repeat' first
      | with_reducible assumption | with_reducible apply addAnswer_keeps | with_reducible apply updLp_keeps
      | with_reducible apply ite_keeps | (with_reducible intro _) | simp only [mk_keeps] | simp only [mkSec_keeps] | split

theorem servePart_keeps (d : Stack) (r : HostReq) (hk : Keeps z s) : Keeps z (servePart d r s) := by
  unfold servePart
  try dsimp only
  repeat' first
      | with_reducible assumption | with_reducible apply hostAnswer_keeps
      | (refine hostAnswer_keepsE ?_ (by with_reducible assumption)) | with_reducible apply joinPart_keeps
      | with_reducible apply ite_keeps | (with_reducible intro _) | simp only [mk_keeps] | simp only [mkSec_keeps] | split

theorem lpFrame_keeps (d : Stack) (thaw : Bool) (hk : Keeps z s) : Keeps z (lpFrame d thaw s) := by
  unfold lpFrame
  try dsimp only
  repeat' first
      | with_reducible assumption | (with_reducible refine foldl_keeps (Keeps z) _ _ _ (fun _ _ _ => ?_) ?_)
      | (with_reducible refine foldr_keeps (Keeps z) _ _ _ (fun _ _ _ => ?_) ?_) | with_reducible apply foldl_keeps2
      | with_reducible apply foldr_keeps2 | with_reducible apply foldl_keeps3 | with_reducible apply foldr_keeps3
      | with_reducible apply updLp_keeps | with_reducible apply forAll_keeps | with_reducible apply servePart_keeps
      | with_reducible apply ite_keeps | (with_reducible intro _) | simp only [mk_keeps] | simp only [mkSec_keeps] | split

theorem takeSlots_keeps (d : Stack) (u : Fin 17) (as : List Nat) (hk : Keeps z s) : Keeps z (takeSlots d u as s).2 := by
  unfold takeSlots
  try dsimp only
  repeat' first
      | with_reducible assumption | with_reducible apply updVc_keeps | with_reducible apply updLp_keeps
      | with_reducible apply ite_keeps | (with_reducible intro _) | simp only [mk_keeps] | simp only [mkSec_keeps] | split
theorem takeSlots_keepsE {d : Stack} {u : Fin 17} {as : List Nat} {x0 : _} {s₁ : State} (hk : Keeps z s) (he : takeSlots d u
    as s = (x0, s₁)) : Keeps z s₁ := by
  have k₁ := takeSlots_keeps d u as hk
  rw [he] at k₁
  exact k₁

theorem reportWord_keeps (how a : Nat) (hk : Keeps z s) : Keeps z (reportWord how a s) := by
  unfold reportWord
  try dsimp only
  repeat' first
      | with_reducible assumption | with_reducible apply updHub_keeps | with_reducible apply ite_keeps
      | (with_reducible intro _) | simp only [mk_keeps] | simp only [mkSec_keeps] | split

theorem setRechecks_keeps (d : Stack) (u : Fin 17) (l : List Recheck) (hk : Keeps z s) : Keeps z (setRechecks d u l s) := by
  unfold setRechecks
  try dsimp only
  repeat' first
      | with_reducible assumption | with_reducible apply updVc_keeps | with_reducible apply updLp_keeps
      | with_reducible apply ite_keeps | (with_reducible intro _) | simp only [mk_keeps] | simp only [mkSec_keeps] | split

theorem recheckNow_keeps (d : Stack) (u : Fin 17) (e : Upsets) (hk : Keeps z s) : Keeps z (recheckNow d u e s) := by
  unfold recheckNow
  try dsimp only
  repeat' first
      | with_reducible assumption | with_reducible apply takeSlots_keeps
      | (refine takeSlots_keepsE ?_ (by with_reducible assumption)) | with_reducible apply uLoad_keeps
      | (refine uLoad_keepsE ?_ (by with_reducible assumption)) | with_reducible apply setRechecks_keeps
      | with_reducible apply reportWord_keeps | with_reducible apply stopPartition_keeps | with_reducible apply uBad_keeps
      | with_reducible apply ite_keeps | (with_reducible intro _) | simp only [mk_keeps] | simp only [mkSec_keeps] | split

theorem setScrub_keeps (d : Stack) (u : Fin 17) (x : Nat × List (Nat × BitVec 512) × List Nat × List Nat) (hk : Keeps z s) :
    Keeps z (setScrub d u x s) := by
  unfold setScrub
  try dsimp only
  repeat' first
      | with_reducible assumption | with_reducible apply updVc_keeps | with_reducible apply updLp_keeps
      | with_reducible apply ite_keeps | (with_reducible intro _) | simp only [mk_keeps] | simp only [mkSec_keeps] | split

theorem scrubWord_keeps (d : Stack) (u : Fin 17) (a : Nat) (e : Upsets) (hk : Keeps z s) : Keeps z (scrubWord d u a e s) := by
  unfold scrubWord
  try dsimp only
  repeat' first
      | with_reducible assumption | with_reducible apply uRead_keeps | (refine uRead_keepsE ?_ (by with_reducible assumption))
      | with_reducible apply setScrub_keeps | with_reducible apply uMark_keeps | with_reducible apply reportWord_keeps
      | with_reducible apply uBad_keeps | with_reducible apply ite_keeps | (with_reducible intro _) | simp only [mk_keeps]
      | simp only [mkSec_keeps] | split

theorem drizzleRead_keeps (d : Stack) (u : Fin 17) (late : Bool) (e : Upsets) (hk : Keeps z s) : Keeps z (drizzleRead d u late
    e s) := by
  unfold drizzleRead
  try dsimp only
  repeat' first
      | with_reducible assumption | with_reducible apply putF_keeps | with_reducible apply bumpF_keeps
      | with_reducible apply setScrub_keeps | with_reducible apply takeSlots_keeps
      | (refine takeSlots_keepsE ?_ (by with_reducible assumption)) | with_reducible apply forAll_keeps
      | with_reducible apply scrubWord_keeps | with_reducible apply ite_keeps | (with_reducible intro _)
      | simp only [mk_keeps] | simp only [mkSec_keeps] | split

theorem drizzleWriteback_keeps (d : Stack) (u : Fin 17) (e : Upsets) (hk : Keeps z s) : Keeps z (drizzleWriteback d u e s) :=
    by
  unfold drizzleWriteback
  try dsimp only
  repeat' first
      | with_reducible assumption | with_reducible apply takeSlots_keeps
      | (refine takeSlots_keepsE ?_ (by with_reducible assumption)) | with_reducible apply uStore_keeps
      | with_reducible apply setScrub_keeps | with_reducible apply ite_keeps | (with_reducible intro _) | simp only [mk_keeps]
      | simp only [mkSec_keeps] | split

theorem rewriteRow_keeps (d : Stack) (u : Fin 17) (row : Nat) (hk : Keeps z s) : Keeps z (rewriteRow d u row s) := by
  unfold rewriteRow
  try dsimp only
  repeat' first
      | with_reducible assumption | with_reducible apply forAll_keeps | with_reducible apply storeBankWord_keeps
      | with_reducible apply storeLpWord_keeps | with_reducible apply ite_keeps | (with_reducible intro _)
      | simp only [mk_keeps] | simp only [mkSec_keeps] | split

theorem testPattern_keeps (d : Stack) (u : Fin 17) (sound : Bool) (hk : Keeps z s) : Keeps z (testPattern d u sound s).2 := by
  unfold testPattern
  try dsimp only
  repeat' first
      | with_reducible assumption | with_reducible apply putF_keeps | with_reducible apply ite_keeps
      | (with_reducible intro _) | simp only [mk_keeps] | simp only [mkSec_keeps] | split
theorem testPattern_keepsE {d : Stack} {u : Fin 17} {sound : Bool} {x0 : _} {s₁ : State} (hk : Keeps z s) (he : testPattern d
    u sound s = (x0, s₁)) : Keeps z s₁ := by
  have k₁ := testPattern_keeps d u sound hk
  rw [he] at k₁
  exact k₁

theorem addRemap_keeps (d : Stack) (u : Fin 17) (bank : Nat) (hk : Keeps z s) : Keeps z (addRemap d u bank s) := by
  unfold addRemap
  try dsimp only
  repeat' first
      | with_reducible assumption | with_reducible apply updVc_keeps | with_reducible apply updLp_keeps
      | with_reducible apply ite_keeps | (with_reducible intro _) | simp only [mk_keeps] | simp only [mkSec_keeps] | split

theorem setCandidates_keeps (d : Stack) (u : Fin 17) (l : List Nat) (hk : Keeps z s) : Keeps z (setCandidates d u l s) := by
  unfold setCandidates
  try dsimp only
  repeat' first
      | with_reducible assumption | with_reducible apply updVc_keeps | with_reducible apply updLp_keeps
      | with_reducible apply ite_keeps | (with_reducible intro _) | simp only [mk_keeps] | simp only [mkSec_keeps] | split

theorem logRepair_keeps (d : Stack) (u : Fin 17) (row what : Nat) (hk : Keeps z s) : Keeps z (logRepair d u row what s) := by
  unfold logRepair
  try dsimp only
  repeat' first
      | with_reducible assumption | with_reducible apply updHub_keeps | with_reducible apply ite_keeps
      | (with_reducible intro _) | simp only [mk_keeps] | simp only [mkSec_keeps] | split

theorem retireRow_keeps (d : Stack) (u : Fin 17) (row : Nat) (frame : Option Nat) (hk : Keeps z s) : Keeps z
    (retireRow d u row frame s) := by
  unfold retireRow
  try dsimp only
  repeat' first
      | with_reducible assumption | with_reducible apply logRepair_keeps | with_reducible apply putReg_keeps
      | with_reducible apply postEvent_keeps | with_reducible apply ite_keeps | (with_reducible intro _)
      | simp only [mk_keeps] | simp only [mkSec_keeps] | split

theorem rowTest_keeps (d : Stack) (u : Fin 17) (sound spare : Bool) (frame : Option Nat) (hk : Keeps z s) : Keeps z (rowTest d
    u sound spare frame s) := by
  unfold rowTest
  try dsimp only
  repeat' first
      | with_reducible assumption | with_reducible apply testPattern_keeps
      | (refine testPattern_keepsE ?_ (by with_reducible assumption)) | with_reducible apply setCandidates_keeps
      | with_reducible apply rewriteRow_keeps | with_reducible apply logRepair_keeps | with_reducible apply addRemap_keeps
      | with_reducible apply retireRow_keeps | with_reducible apply ite_keeps | (with_reducible intro _)
      | simp only [mk_keeps] | simp only [mkSec_keeps] | split

end Sys2Proof.Machine
end

