-- ==== Sys2Proof/Laws/KeepsPageOps.lean ====
section
/-! SUPPORT. What the definitions of PageOps.lean keep. -/
namespace Sys2Proof.Machine

variable {z s : State}

theorem updSvc_keeps (f : Svc → Svc) (hk : Keeps z s) : Keeps z (updSvc f s) := by
  unfold updSvc
  try dsimp only
  repeat' first
      | with_reducible assumption | with_reducible apply ite_keeps | (with_reducible intro _) | simp only [mk_keeps]
      | simp only [mkSec_keeps] | split

theorem putGraph_keeps (k : Nat) (g : Option Graph) (hk : Keeps z s) : Keeps z (putGraph k g s) := by
  unfold putGraph
  try dsimp only
  repeat' first
      | with_reducible assumption | with_reducible apply updSvc_keeps | with_reducible apply ite_keeps
      | (with_reducible intro _) | simp only [mk_keeps] | simp only [mkSec_keeps] | split

theorem updGraph_keeps (k : Nat) (f : Graph → Graph) (hk : Keeps z s) : Keeps z (updGraph k f s) := by
  unfold updGraph
  try dsimp only
  repeat' first
      | with_reducible assumption | with_reducible apply putGraph_keeps | with_reducible apply ite_keeps
      | (with_reducible intro _) | simp only [mk_keeps] | simp only [mkSec_keeps] | split

theorem putSess_keeps (slot : Nat) (x : Option Sess) (hk : Keeps z s) : Keeps z (putSess slot x s) := by
  unfold putSess
  try dsimp only
  repeat' first
      | with_reducible assumption | with_reducible apply updSvc_keeps | with_reducible apply ite_keeps
      | (with_reducible intro _) | simp only [mk_keeps] | simp only [mkSec_keeps] | split

theorem updSess_keeps (slot : Nat) (f : Sess → Sess) (hk : Keeps z s) : Keeps z (updSess slot f s) := by
  unfold updSess
  try dsimp only
  repeat' first
      | with_reducible assumption | with_reducible apply putSess_keeps | with_reducible apply ite_keeps
      | (with_reducible intro _) | simp only [mk_keeps] | simp only [mkSec_keeps] | split

theorem putInst_keeps (i : Nat) (x : Option Inst) (hk : Keeps z s) : Keeps z (putInst i x s) := by
  unfold putInst
  try dsimp only
  repeat' first
      | with_reducible assumption | with_reducible apply updSvc_keeps | with_reducible apply ite_keeps
      | (with_reducible intro _) | simp only [mk_keeps] | simp only [mkSec_keeps] | split

theorem updInst_keeps (i : Nat) (f : Inst → Inst) (hk : Keeps z s) : Keeps z (updInst i f s) := by
  unfold updInst
  try dsimp only
  repeat' first
      | with_reducible assumption | with_reducible apply putInst_keeps | with_reducible apply ite_keeps
      | (with_reducible intro _) | simp only [mk_keeps] | simp only [mkSec_keeps] | split

theorem putRing_keeps (n : Nat) (r : Option Ring) (hk : Keeps z s) : Keeps z (putRing n r s) := by
  unfold putRing
  try dsimp only
  repeat' first
      | with_reducible assumption | with_reducible apply updSvc_keeps | with_reducible apply ite_keeps
      | (with_reducible intro _) | simp only [mk_keeps] | simp only [mkSec_keeps] | split

theorem unitWrite_keeps (d : Stack) (u : Fin 17) (a n v : Nat) (hk : Keeps z s) : Keeps z (unitWrite d u a n v s) := by
  unfold unitWrite
  try dsimp only
  repeat' first
      | with_reducible assumption | with_reducible apply forAll_keeps | with_reducible apply hostWriteWord_keeps
      | with_reducible apply ite_keeps | (with_reducible intro _) | simp only [mk_keeps] | simp only [mkSec_keeps] | split

theorem grpWrite_keeps (p off n v : Nat) (hk : Keeps z s) : Keeps z (grpWrite p off n v s) := by
  unfold grpWrite
  try dsimp only
  repeat' first
      | with_reducible assumption | with_reducible apply forAll_keeps | with_reducible apply forAll_keeps
      | with_reducible apply unitWrite_keeps | with_reducible apply ite_keeps | (with_reducible intro _)
      | simp only [mk_keeps] | simp only [mkSec_keeps] | split

theorem devWritePart_keeps (a n v : Nat) (hk : Keeps z s) : Keeps z (devWritePart a n v s) := by
  unfold devWritePart
  try dsimp only
  repeat' first
      | with_reducible assumption | with_reducible apply writeMem_keeps | with_reducible apply unitWrite_keeps
      | with_reducible apply ite_keeps | (with_reducible intro _) | simp only [mk_keeps] | simp only [mkSec_keeps] | split

theorem devWrite_keeps (a n v : Nat) (hk : Keeps z s) : Keeps z (devWrite a n v s) := by
  unfold devWrite
  try dsimp only
  repeat' first
      | with_reducible assumption | with_reducible apply forAll_keeps | with_reducible apply devWritePart_keeps
      | with_reducible apply ite_keeps | (with_reducible intro _) | simp only [mk_keeps] | simp only [mkSec_keeps] | split

theorem devReadPart_keeps (a n : Nat) (hk : Keeps z s) : Keeps z (devReadPart a n s).2 := by
  unfold devReadPart
  try dsimp only
  repeat' first
      | with_reducible assumption | with_reducible apply hostRead_keeps
      | (refine hostRead_keepsE ?_ (by with_reducible assumption)) | with_reducible apply ite_keeps | (with_reducible intro _)
      | simp only [mk_keeps] | simp only [mkSec_keeps] | split
theorem devReadPart_keepsE {a n : Nat} {x0 : _} {s₁ : State} (hk : Keeps z s) (he : devReadPart a n s = (x0, s₁)) : Keeps z s₁
    := by
  have k₁ := devReadPart_keeps a n hk
  rw [he] at k₁
  exact k₁

theorem devRead_keeps (a n : Nat) (hk : Keeps z s) : Keeps z (devRead a n s).2 := by
  unfold devRead
  try dsimp only
  repeat' first
      | with_reducible assumption | (with_reducible refine foldl_keeps (Keeps z) _ _ _ (fun _ _ _ => ?_) ?_)
      | (with_reducible refine foldr_keeps (Keeps z) _ _ _ (fun _ _ _ => ?_) ?_) | with_reducible apply foldl_keeps2
      | with_reducible apply foldr_keeps2 | with_reducible apply foldl_keeps3 | with_reducible apply foldr_keeps3
      | with_reducible apply devReadPart_keeps | (refine devReadPart_keepsE ?_ (by with_reducible assumption))
      | with_reducible apply ite_keeps | (with_reducible intro _) | simp only [mk_keeps] | simp only [mkSec_keeps] | split
theorem devRead_keepsE {a n : Nat} {x0 : _} {s₁ : State} (hk : Keeps z s) (he : devRead a n s = (x0, s₁)) : Keeps z s₁ := by
  have k₁ := devRead_keeps a n hk
  rw [he] at k₁
  exact k₁

theorem grpRead_keeps (p off n : Nat) (hk : Keeps z s) : Keeps z (grpRead p off n s).2 := by
  unfold grpRead
  try dsimp only
  repeat' first
      | with_reducible assumption | (with_reducible refine foldl_keeps (Keeps z) _ _ _ (fun _ _ _ => ?_) ?_)
      | (with_reducible refine foldr_keeps (Keeps z) _ _ _ (fun _ _ _ => ?_) ?_) | with_reducible apply foldl_keeps2
      | with_reducible apply foldr_keeps2 | with_reducible apply foldl_keeps3 | with_reducible apply foldr_keeps3
      | with_reducible apply hostRead_keeps | (refine hostRead_keepsE ?_ (by with_reducible assumption))
      | with_reducible apply ite_keeps | (with_reducible intro _) | simp only [mk_keeps] | simp only [mkSec_keeps] | split
theorem grpRead_keepsE {p off n : Nat} {x0 : _} {s₁ : State} (hk : Keeps z s) (he : grpRead p off n s = (x0, s₁)) : Keeps z s₁
    := by
  have k₁ := grpRead_keeps p off n hk
  rw [he] at k₁
  exact k₁

theorem slotWrite_keeps (g : Graph) (e slot b n v : Nat) (hk : Keeps z s) : Keeps z (slotWrite g e slot b n v s) := by
  unfold slotWrite
  try dsimp only
  repeat' first
      | with_reducible assumption | with_reducible apply grpWrite_keeps | with_reducible apply ite_keeps
      | (with_reducible intro _) | simp only [mk_keeps] | simp only [mkSec_keeps] | split

theorem updNear_keeps (k e : Nat) (f : NearGroup → NearGroup) (hk : Keeps z s) : Keeps z (updNear k e f s) := by
  unfold updNear
  try dsimp only
  repeat' first
      | with_reducible assumption | with_reducible apply updGraph_keeps | with_reducible apply ite_keeps
      | (with_reducible intro _) | simp only [mk_keeps] | simp only [mkSec_keeps] | split

theorem pickFree_keeps (used : List Nat) (n : Nat) (hk : Keeps z s) : Keeps z (pickFree used n s).2 := by
  unfold pickFree
  try dsimp only
  repeat' first
      | with_reducible assumption | with_reducible apply takeFreeNat_keeps
      | (refine takeFreeNat_keepsE ?_ (by with_reducible assumption)) | with_reducible apply ite_keeps
      | (with_reducible intro _) | simp only [mk_keeps] | simp only [mkSec_keeps] | split
theorem pickFree_keepsE {used : List Nat} {n : Nat} {x0 : _} {s₁ : State} (hk : Keeps z s) (he : pickFree used n s =
    (x0, s₁)) : Keeps z s₁ := by
  have k₁ := pickFree_keeps used n hk
  rw [he] at k₁
  exact k₁

theorem frameWrite_keeps (g : Graph) (e slot off n v : Nat) (hk : Keeps z s) : Keeps z (frameWrite g e slot off n v s) := by
  unfold frameWrite
  try dsimp only
  repeat' first
      | with_reducible assumption | with_reducible apply grpWrite_keeps | with_reducible apply devWrite_keeps
      | with_reducible apply ite_keeps | (with_reducible intro _) | simp only [mk_keeps] | simp only [mkSec_keeps] | split

theorem setPins_keeps (g : Graph) (e slot n : Nat) (hk : Keeps z s) : Keeps z (setPins g e slot n s) := by
  unfold setPins
  try dsimp only
  repeat' first
      | with_reducible assumption | with_reducible apply frameWrite_keeps | with_reducible apply ite_keeps
      | (with_reducible intro _) | simp only [mk_keeps] | simp only [mkSec_keeps] | split

theorem setRef_keeps (g : Graph) (e slot n : Nat) (hk : Keeps z s) : Keeps z (setRef g e slot n s) := by
  unfold setRef
  try dsimp only
  repeat' first
      | with_reducible assumption | with_reducible apply frameWrite_keeps | with_reducible apply slotWrite_keeps
      | with_reducible apply ite_keeps | (with_reducible intro _) | simp only [mk_keeps] | simp only [mkSec_keeps] | split

theorem writeBlocks_keeps (p blocks : Nat) : ∀ (bs es : List Nat) {s : State}, Keeps z s → Keeps z
    (writeBlocks p blocks bs es s) := by
  intro bs
  induction bs with
  | nil => intro es s h; exact h
  | cons b bs ih =>
    intro es s h
    exact ih _ (grpWrite_keeps _ _ _ _ (grpWrite_keeps _ _ _ _ (grpWrite_keeps _ _ _ _ h)))

theorem fitBlocks_keeps {k e : Nat} {g : Graph} {old : List Nat} {n : Nat} {l : List Nat} {s₁ : State} (hk : Keeps z s)
    (e₁ : fitBlocks k e g old n s = some (l, s₁)) : Keeps z s₁ := by
  unfold fitBlocks at e₁
  dsimp only at e₁
  split at e₁
  · cases e₁
    exact updNear_keeps _ _ _ hk
  · exact foldl_keeps (fun r => ∀ l s₁, r = some (l, s₁) → Keeps z s₁) _ _ _ (by
      intro r x hr l s₁ hs
      split at hs
      · cases hs
      · have h₁ := hr _ _ rfl
        split at hs
        · cases hs
          exact updNear_keeps _ _ _ (pickFree_keepsE h₁ ‹_›)
        · cases hs) (by intro l s₁ hs; cases hs; exact hk) _ _ e₁

theorem setHome_keeps (k e slot : Nat) (g : Graph) (es : List Nat) (hk : Keeps z s) : Keeps z (setHome k e slot g es s) := by
  unfold setHome
  try dsimp only
  repeat' first
      | with_reducible assumption | with_reducible apply forAll_keeps
      | (refine fitBlocks_keeps ?_ (by with_reducible assumption)) | with_reducible apply forAll_keeps
      | with_reducible apply writeBlocks_keeps | with_reducible apply grpWrite_keeps | with_reducible apply ite_keeps
      | (with_reducible intro _) | simp only [mk_keeps] | simp only [mkSec_keeps] | split

theorem rootWrite_keeps (g : Graph) (slot l h tail next : Nat) (hk : Keeps z s) : Keeps z (rootWrite g slot l h tail next s)
    := by
  unfold rootWrite
  try dsimp only
  repeat' first
      | with_reducible assumption | with_reducible apply grpWrite_keeps | with_reducible apply ite_keeps
      | (with_reducible intro _) | simp only [mk_keeps] | simp only [mkSec_keeps] | split

theorem clearRoot_keeps (g : Graph) (slot : Nat) (hk : Keeps z s) : Keeps z (clearRoot g slot s) := by
  unfold clearRoot
  try dsimp only
  repeat' first
      | with_reducible assumption | with_reducible apply forAll_keeps | with_reducible apply forAll_keeps
      | with_reducible apply rootWrite_keeps | with_reducible apply ite_keeps | (with_reducible intro _)
      | simp only [mk_keeps] | simp only [mkSec_keeps] | split

theorem chainTents_keeps (g : Graph) (e slot : Nat) (l : List Nat) (hk : Keeps z s) : Keeps z (chainTents g e slot l s) := by
  unfold chainTents
  try dsimp only
  repeat' first
      | with_reducible assumption | with_reducible apply forAll_keeps | with_reducible apply grpWrite_keeps
      | with_reducible apply forAll_keeps | with_reducible apply ite_keeps | (with_reducible intro _) | simp only [mk_keeps]
      | simp only [mkSec_keeps] | split

theorem placeTent_keeps (k e slot : Nat) (g : Graph) (sid id l h : Nat) (next : Bool) (t : Nat) (hk : Keeps z s) : Keeps z
    (placeTent k e slot g sid id l h next t s) := by
  unfold placeTent
  try dsimp only
  repeat' first
      | with_reducible assumption | with_reducible apply updNear_keeps | with_reducible apply grpWrite_keeps
      | with_reducible apply chainTents_keeps | with_reducible apply ite_keeps | (with_reducible intro _)
      | simp only [mk_keeps] | simp only [mkSec_keeps] | split

theorem reclaimTents_keeps (k slot : Nat) (hk : Keeps z s) : Keeps z (reclaimTents k slot s) := by
  unfold reclaimTents
  try dsimp only
  repeat' first
      | with_reducible assumption | with_reducible apply forAll_keeps | with_reducible apply forAll_keeps
      | with_reducible apply chainTents_keeps | with_reducible apply updNear_keeps | with_reducible apply ite_keeps
      | (with_reducible intro _) | simp only [mk_keeps] | simp only [mkSec_keeps] | split

theorem initFrame_keeps (g : Graph) (e slot sid id l h idx ref valid : Nat) (hk : Keeps z s) : Keeps z (initFrame g e slot sid
    id l h idx ref valid s) := by
  unfold initFrame
  try dsimp only
  repeat' first
      | with_reducible assumption | with_reducible apply frameWrite_keeps | with_reducible apply ite_keeps
      | (with_reducible intro _) | simp only [mk_keeps] | simp only [mkSec_keeps] | split

theorem allocFor_keeps {k slot sid l h idx : Nat} {s₁ : State} (hk : Keeps z s) (e :
    allocFor k slot sid l h idx s = some s₁) :
    Keeps z s₁ := by
  unfold allocFor at e
  split at e
  · dsimp only at e
    split at e
    · cases e
    · have h₁ := pickFree_keepsE hk ‹_›
      split at e
      · cases e
      · have h₂ := pickFree_keepsE h₁ ‹_›
        split at e
        · cases e
        · have h₃ := pickFree_keepsE h₂ ‹_›
          split at e
          · cases e
          · cases e
            exact rootWrite_keeps _ _ _ _ _ _ (placeTent_keeps _ _ _ _ _ _ _ _ _ _ (setHome_keeps _ _ _ _ _ (initFrame_keeps _ _ _ _ _ _ _ _ _ _
              (slotWrite_keeps _ _ _ _ _ _ (takeFreeNat_keeps _ (updNear_keeps _ _ _ h₃))))))
  · cases e

theorem allocPage_keeps {k slot l h idx : Nat} {s₁ : State} (hk : Keeps z s) (e : allocPage k slot l h idx s = some s₁) :
    Keeps z s₁ := by
  unfold allocPage at e
  split at e
  · exact allocFor_keeps hk e
  · cases e

theorem giveTent_keeps {k slot sid l h tail : Nat} {s₁ : State} (hk : Keeps z s) (e : giveTent k slot sid l h tail s = some
    s₁) : Keeps z s₁ := by
  unfold giveTent at e
  try dsimp only at e
  repeat' split at e
  all_goals first
      | (injection e with e; subst e) | cases e
  all_goals (repeat' first
      | with_reducible assumption | with_reducible apply pickFree_keeps
      | (refine pickFree_keepsE ?_ (by with_reducible assumption)) | with_reducible apply placeTent_keeps
      | with_reducible apply ite_keeps | (with_reducible intro _) | simp only [mk_keeps] | simp only [mkSec_keeps] | split)

theorem returnFrame_keeps (k e tier frame : Nat) (hk : Keeps z s) : Keeps z (returnFrame k e tier frame s) := by
  unfold returnFrame
  try dsimp only
  repeat' first
      | with_reducible assumption | with_reducible apply updNear_keeps | with_reducible apply updGraph_keeps
      | with_reducible apply updSvc_keeps | with_reducible apply ite_keeps | (with_reducible intro _) | simp only [mk_keeps]
      | simp only [mkSec_keeps] | split

theorem endMoves_keeps (k e slot : Nat) (hk : Keeps z s) : Keeps z (endMoves k e slot s) := by
  unfold endMoves
  try dsimp only
  repeat' first
      | with_reducible assumption | with_reducible apply forAll_keeps | with_reducible apply forAll_keeps
      | with_reducible apply returnFrame_keeps | with_reducible apply updSvc_keeps | with_reducible apply ite_keeps
      | (with_reducible intro _) | simp only [mk_keeps] | simp only [mkSec_keeps] | split

theorem freeSlot_keeps (k e slot : Nat) (hk : Keeps z s) : Keeps z (freeSlot k e slot s) := by
  unfold freeSlot
  try dsimp only
  repeat' first
      | with_reducible assumption | with_reducible apply slotWrite_keeps | with_reducible apply updNear_keeps
      | with_reducible apply returnFrame_keeps | with_reducible apply endMoves_keeps | with_reducible apply ite_keeps
      | (with_reducible intro _) | simp only [mk_keeps] | simp only [mkSec_keeps] | split

theorem dropRef_keeps (k e : Nat) (g : Graph) (wasPinned : Bool) (id : Nat) (hk : Keeps z s) : Keeps z
    (dropRef k e g wasPinned id s) := by
  unfold dropRef
  try dsimp only
  repeat' first
      | with_reducible assumption | with_reducible apply setPins_keeps | with_reducible apply setRef_keeps
      | with_reducible apply freeSlot_keeps | with_reducible apply ite_keeps | (with_reducible intro _) | simp only [mk_keeps]
      | simp only [mkSec_keeps] | split

theorem releaseFrom_keeps (k slot base : Nat) (wasPinned : Bool) (hk : Keeps z s) : Keeps z
    (releaseFrom k slot base wasPinned s) := by
  unfold releaseFrom
  try dsimp only
  repeat' first
      | with_reducible assumption | with_reducible apply forAll_keeps | with_reducible apply forAll_keeps
      | with_reducible apply dropRef_keeps | with_reducible apply setHome_keeps | with_reducible apply ite_keeps
      | (with_reducible intro _) | simp only [mk_keeps] | simp only [mkSec_keeps] | split

theorem fixRoots_keeps (k slot : Nat) (hk : Keeps z s) : Keeps z (fixRoots k slot s) := by
  unfold fixRoots
  try dsimp only
  repeat' first
      | with_reducible assumption | with_reducible apply forAll_keeps
      | (with_reducible refine foldl_keeps (Keeps z) _ _ _ (fun _ _ _ => ?_) ?_)
      | (with_reducible refine foldr_keeps (Keeps z) _ _ _ (fun _ _ _ => ?_) ?_) | with_reducible apply foldl_keeps2
      | with_reducible apply foldr_keeps2 | with_reducible apply foldl_keeps3 | with_reducible apply foldr_keeps3
      | with_reducible apply forAll_keeps | with_reducible apply rootWrite_keeps | with_reducible apply ite_keeps
      | (with_reducible intro _) | simp only [mk_keeps] | simp only [mkSec_keeps] | split

theorem writeDsb_keeps (g : Graph) (slot dsb : Nat) (hk : Keeps z s) : Keeps z (writeDsb g slot dsb s) := by
  unfold writeDsb
  try dsimp only
  repeat' first
      | with_reducible assumption | with_reducible apply forAll_keeps | with_reducible apply forAll_keeps
      | with_reducible apply unitWrite_keeps | with_reducible apply ite_keeps | (with_reducible intro _)
      | simp only [mk_keeps] | simp only [mkSec_keeps] | split

theorem rootDsb_keeps (g : Graph) (slot : Nat) (x : Sess) (hk : Keeps z s) : Keeps z (rootDsb g slot x s) := by
  unfold rootDsb
  try dsimp only
  repeat' first
      | with_reducible assumption | with_reducible apply takeFreeNat_keeps
      | (refine takeFreeNat_keepsE ?_ (by with_reducible assumption)) | with_reducible apply writeDsb_keeps
      | with_reducible apply ite_keeps | (with_reducible intro _) | simp only [mk_keeps] | simp only [mkSec_keeps] | split

theorem hubDsb_keeps (g : Graph) (slot : Nat) (hk : Keeps z s) : Keeps z (hubDsb g slot s) := by
  unfold hubDsb
  try dsimp only
  repeat' first
      | with_reducible assumption | with_reducible apply rootDsb_keeps | with_reducible apply ite_keeps
      | (with_reducible intro _) | simp only [mk_keeps] | simp only [mkSec_keeps] | split

theorem dsbSampler_keeps (g : Graph) (slot : Nat) (hk : Keeps z s) : Keeps z (dsbSampler g slot s) := by
  unfold dsbSampler
  try dsimp only
  repeat' first
      | with_reducible assumption | with_reducible apply writeDsb_keeps | with_reducible apply ite_keeps
      | (with_reducible intro _) | simp only [mk_keeps] | simp only [mkSec_keeps] | split

theorem syncSampler_keeps (slot : Nat) (hk : Keeps z s) : Keeps z (syncSampler slot s) := by
  unfold syncSampler
  try dsimp only
  repeat' first
      | with_reducible assumption | with_reducible apply dsbSampler_keeps | with_reducible apply ite_keeps
      | (with_reducible intro _) | simp only [mk_keeps] | simp only [mkSec_keeps] | split

theorem idlePoint_keeps (slot : Nat) (hk : Keeps z s) : Keeps z (idlePoint slot s) := by
  unfold idlePoint
  try dsimp only
  repeat' first
      | with_reducible assumption | with_reducible apply syncSampler_keeps | with_reducible apply reclaimTents_keeps
      | with_reducible apply ite_keeps | (with_reducible intro _) | simp only [mk_keeps] | simp only [mkSec_keeps] | split

theorem forgetLaunches_keeps (p : Nat) (hk : Keeps z s) : Keeps z (forgetLaunches p s) := by
  unfold forgetLaunches
  try dsimp only
  repeat' first
      | with_reducible assumption | with_reducible apply forAll_keeps | with_reducible apply updInst_keeps
      | with_reducible apply updGraph_keeps | with_reducible apply updSvc_keeps | with_reducible apply idlePoint_keeps
      | with_reducible apply ite_keeps | (with_reducible intro _) | simp only [mk_keeps] | simp only [mkSec_keeps] | split

end Sys2Proof.Machine
end

