-- ==== Sys2Proof/Laws/KeepsKvCommit.lean ====
section
/-! SUPPORT. What the definitions of KvCommit.lean keep. -/
namespace Sys2Proof.Machine

variable {z s : State}

theorem putLaunch_keeps (l l' : Launch) (hk : Keeps z s) : Keeps z (putLaunch l l' s) := by
  unfold putLaunch
  try dsimp only
  repeat' first
      | with_reducible assumption | with_reducible apply updSvc_keeps | with_reducible apply ite_keeps
      | (with_reducible intro _) | simp only [mk_keeps] | simp only [mkSec_keeps] | split

theorem beginLaunch_keeps (p engines : Nat) (hk : Keeps z s) : Keeps z (beginLaunch p engines s) := by
  unfold beginLaunch
  try dsimp only
  repeat' first
      | with_reducible assumption | with_reducible apply putLaunch_keeps | with_reducible apply ite_keeps
      | (with_reducible intro _) | simp only [mk_keeps] | simp only [mkSec_keeps] | split

theorem fromTent_keeps (g : Graph) (e sl t src dst n : Nat) (hk : Keeps z s) : Keeps z (fromTent g e sl t src dst n s) := by
  unfold fromTent
  try dsimp only
  repeat' first
      | with_reducible assumption | with_reducible apply frameWrite_keeps | with_reducible apply ite_keeps
      | (with_reducible intro _) | simp only [mk_keeps] | simp only [mkSec_keeps] | split

theorem stageNode_keeps (g : Graph) (e sl t n p : Nat) (hk : Keeps z s) : Keeps z (stageNode g e sl t n p s) := by
  unfold stageNode
  try dsimp only
  repeat' first
      | with_reducible assumption | with_reducible apply forAll_keeps | with_reducible apply fromTent_keeps
      | with_reducible apply frameWrite_keeps | with_reducible apply ite_keeps | (with_reducible intro _)
      | simp only [mk_keeps] | simp only [mkSec_keeps] | split

theorem writeSummary_keeps (g : Graph) (e sl off n v : Nat) (hk : Keeps z s) : Keeps z (writeSummary g e sl off n v s) := by
  unfold writeSummary
  try dsimp only
  repeat' first
      | with_reducible assumption | with_reducible apply grpWrite_keeps | with_reducible apply frameWrite_keeps
      | with_reducible apply getD_keeps | with_reducible apply ite_keeps | (with_reducible intro _) | simp only [mk_keeps]
      | simp only [mkSec_keeps] | split

theorem publishPage_keeps (g : Graph) (e sl valid : Nat) (hk : Keeps z s) : Keeps z (publishPage g e sl valid s) := by
  unfold publishPage
  try dsimp only
  repeat' first
      | with_reducible assumption | with_reducible apply writeSummary_keeps | with_reducible apply frameWrite_keeps
      | with_reducible apply ite_keeps | (with_reducible intro _) | simp only [mk_keeps] | simp only [mkSec_keeps] | split

theorem publishPair_keeps (g : Graph) (slot old new : Nat) (path : List Nat) (l h : Nat) (hk : Keeps z s) : Keeps z
    (publishPair g slot old new path l h s) := by
  unfold publishPair
  try dsimp only
  repeat' first
      | with_reducible assumption | with_reducible apply forAll_keeps | with_reducible apply stageNode_keeps
      | with_reducible apply publishPage_keeps | with_reducible apply rootWrite_keeps | with_reducible apply ite_keeps
      | (with_reducible intro _) | simp only [mk_keeps] | simp only [mkSec_keeps] | split

theorem nextTree_keeps (x : Sess) (rec_ : Nat) (hk : Keeps z s) : Keeps z (nextTree x rec_ s).2 := by
  unfold nextTree
  try dsimp only
  repeat' first
      | with_reducible assumption | with_reducible apply takeFreeNat_keeps
      | (refine takeFreeNat_keepsE ?_ (by with_reducible assumption)) | with_reducible apply takeFree_keeps
      | (refine takeFree_keepsE ?_ (by with_reducible assumption)) | with_reducible apply ite_keeps | (with_reducible intro _)
      | simp only [mk_keeps] | simp only [mkSec_keeps] | split
theorem nextTree_keepsE {x : Sess} {rec_ : Nat} {x0 : _} {s₁ : State} (hk : Keeps z s) (he : nextTree x rec_ s = (x0, s₁)) :
    Keeps z s₁ := by
  have k₁ := nextTree_keeps x rec_ hk
  rw [he] at k₁
  exact k₁

theorem publishDsb_keeps (g : Graph) (slot : Nat) (x : Sess) (rec_ : Nat) (hk : Keeps z s) : Keeps z (publishDsb g slot x rec_
    s) := by
  unfold publishDsb
  try dsimp only
  repeat' first
      | with_reducible assumption | with_reducible apply nextTree_keeps
      | (refine nextTree_keepsE ?_ (by with_reducible assumption)) | with_reducible apply writeDsb_keeps
      | with_reducible apply ite_keeps | (with_reducible intro _) | simp only [mk_keeps] | simp only [mkSec_keeps] | split

theorem refillDraft_keeps (slot old new : Nat) (hk : Keeps z s) : Keeps z (refillDraft slot old new s) := by
  unfold refillDraft
  try dsimp only
  repeat' first
      | with_reducible assumption | (with_reducible refine foldl_keeps (Keeps z) _ _ _ (fun _ _ _ => ?_) ?_)
      | (with_reducible refine foldr_keeps (Keeps z) _ _ _ (fun _ _ _ => ?_) ?_) | with_reducible apply foldl_keeps2
      | with_reducible apply foldr_keeps2 | with_reducible apply foldl_keeps3 | with_reducible apply foldr_keeps3
      | with_reducible apply takeFree_keeps | (refine takeFree_keepsE ?_ (by with_reducible assumption))
      | with_reducible apply updSess_keeps | with_reducible apply ite_keeps | (with_reducible intro _) | simp only [mk_keeps]
      | simp only [mkSec_keeps] | split

theorem publishStep_keeps (l : Launch) (g : Graph) (slot kind rec_ : Nat) (hk : Keeps z s) : Keeps z (publishStep l g slot
    kind rec_ s) := by
  unfold publishStep
  try dsimp only
  repeat' first
      | with_reducible assumption | with_reducible apply forAll_keeps | with_reducible apply publishPair_keeps
      | with_reducible apply refillDraft_keeps | with_reducible apply publishDsb_keeps | with_reducible apply ite_keeps
      | (with_reducible intro _) | simp only [mk_keeps] | simp only [mkSec_keeps] | split

theorem endLaunch_keeps (p : Nat) (hk : Keeps z s) : Keeps z (endLaunch p s) := by
  unfold endLaunch
  try dsimp only
  repeat' first
      | with_reducible assumption | with_reducible apply putLaunch_keeps | with_reducible apply unitWrite_keeps
      | with_reducible apply idlePoint_keeps | with_reducible apply publishStep_keeps | with_reducible apply ite_keeps
      | (with_reducible intro _) | simp only [mk_keeps] | simp only [mkSec_keeps] | split

theorem boundaryFrames_keeps (p : Nat) (hk : Keeps z s) : Keeps z (boundaryFrames p s) := by
  unfold boundaryFrames
  try dsimp only
  repeat' first
      | with_reducible assumption | with_reducible apply forAll_keeps | with_reducible apply updSess_keeps
      | with_reducible apply ite_keeps | (with_reducible intro _) | simp only [mk_keeps] | simp only [mkSec_keeps] | split

theorem stepClosed_keeps (d : Stack) (c : CoreIx) (hk : Keeps z s) : Keeps z (stepClosed d c s) := by
  unfold stepClosed
  try dsimp only
  repeat' first
      | with_reducible assumption | with_reducible apply boundaryFrames_keeps | with_reducible apply endLaunch_keeps
      | with_reducible apply ite_keeps | (with_reducible intro _) | simp only [mk_keeps] | simp only [mkSec_keeps] | split

theorem stepOpened_keeps (d : Stack) (c : CoreIx) (hk : Keeps z s) : Keeps z (stepOpened d c s) := by
  unfold stepOpened
  try dsimp only
  repeat' first
      | with_reducible assumption | with_reducible apply beginLaunch_keeps | with_reducible apply ite_keeps
      | (with_reducible intro _) | simp only [mk_keeps] | simp only [mkSec_keeps] | split

end Sys2Proof.Machine
end

