-- ==== Sys2Proof/Laws/KeepsFabric.lean ====
section
/-! SUPPORT. What the definitions of Fabric.lean keep. -/
namespace Sys2Proof.Machine

variable {z s : State}

theorem routerRecord_keeps (d : Stack) (k : Cluster) (kind port off : Nat) (hk : Keeps z s) : Keeps z
    (routerRecord d k kind port off s) := by
  unfold routerRecord
  try dsimp only
  repeat' first
      | with_reducible assumption | with_reducible apply putReg_keeps | with_reducible apply recordErr_keeps
      | with_reducible apply ite_keeps | (with_reducible intro _) | simp only [mk_keeps] | simp only [mkSec_keeps] | split

theorem routerFault_keeps (d : Stack) (k : Cluster) (kind port off : Nat) (hk : Keeps z s) : Keeps z
    (routerFault d k kind port off s) := by
  unfold routerFault
  try dsimp only
  repeat' first
      | with_reducible assumption | with_reducible apply poisonDie_keeps | with_reducible apply noteFault_keeps
      | with_reducible apply routerRecord_keeps | with_reducible apply ite_keeps | (with_reducible intro _)
      | simp only [mk_keeps] | simp only [mkSec_keeps] | split

theorem routerSync_keeps (d : Stack) (k : Cluster) (off : Nat) (hk : Keeps z s) : Keeps z (routerSync d k off s) := by
  unfold routerSync
  try dsimp only
  repeat' first
      | with_reducible assumption | with_reducible apply putF_keeps | with_reducible apply updRouter_keeps
      | with_reducible apply ite_keeps | (with_reducible intro _) | simp only [mk_keeps] | simp only [mkSec_keeps] | split

theorem routerIdle_keeps (d : Stack) (k : Cluster) (hk : Keeps z s) : Keeps z (routerIdle d k s) := by
  unfold routerIdle
  try dsimp only
  repeat' first
      | with_reducible assumption | with_reducible apply putF_keeps | with_reducible apply updRouter_keeps
      | with_reducible apply ite_keeps | (with_reducible intro _) | simp only [mk_keeps] | simp only [mkSec_keeps] | split

theorem recvPut_keeps (d : Stack) (c : CoreIx) (t word off : Nat) (b : Beat) (hk : Keeps z s) : Keeps z
    (recvPut d c t word off b s) := by
  unfold recvPut
  try dsimp only
  repeat' first
      | with_reducible assumption | with_reducible apply updCore_keeps | with_reducible apply poisonStep_keeps
      | with_reducible apply amemWrite_keeps | with_reducible apply ite_keeps | (with_reducible intro _)
      | simp only [mk_keeps] | simp only [mkSec_keeps] | split

theorem portBeatNow_keeps (d : Stack) (c : CoreIx) (t : Nat) (b : Beat) (hk : Keeps z s) : Keeps z
    (portBeatNow d c t b s) := by
  unfold portBeatNow
  try dsimp only
  repeat' first
      | with_reducible assumption | with_reducible apply vcFault_keeps | with_reducible apply updCore_keeps
      | with_reducible apply poisonStep_keeps | with_reducible apply vaultContribution_keeps
      | with_reducible apply schedule_keeps | with_reducible apply ite_keeps | (with_reducible intro _) | simp only [mk_keeps]
      | simp only [mkSec_keeps] | split

theorem recvBeatNow_keeps (d : Stack) (c : CoreIx) (t word off : Nat) (last : Bool) (hk : Keeps z s) : Keeps z
    (recvBeatNow d c t word off last s) := by
  unfold recvBeatNow
  try dsimp only
  repeat' first
      | with_reducible assumption | with_reducible apply recvPut_keeps | with_reducible apply updCore_keeps
      | with_reducible apply routerFault_keeps | with_reducible apply ite_keeps | (with_reducible intro _)
      | simp only [mk_keeps] | simp only [mkSec_keeps] | split

theorem portEndNow_keeps (d : Stack) (c : CoreIx) (t : Nat) (hk : Keeps z s) : Keeps z (portEndNow d c t s) := by
  unfold portEndNow
  try dsimp only
  repeat' first
      | with_reducible assumption | with_reducible apply updCore_keeps | with_reducible apply recvPut_keeps
      | with_reducible apply routerFault_keeps | with_reducible apply ite_keeps | (with_reducible intro _)
      | simp only [mk_keeps] | simp only [mkSec_keeps] | split

theorem lpContribution_keeps (d : Stack) (off grp cidx boff : Nat) (data : BitVec 1024) (hk : Keeps z s) : Keeps z
    (lpContribution d off grp cidx boff data s) := by
  unfold lpContribution
  try dsimp only
  repeat' first
      | with_reducible assumption | with_reducible apply poisonDie_keeps | with_reducible apply lpFault_keeps
      | with_reducible apply updLp_keeps | with_reducible apply ite_keeps | (with_reducible intro _) | simp only [mk_keeps]
      | simp only [mkSec_keeps] | split

theorem lpClearGroup_keeps (d : Stack) (grp off : Nat) (hk : Keeps z s) : Keeps z (lpClearGroup d grp off s) := by
  unfold lpClearGroup
  try dsimp only
  repeat' first
      | with_reducible assumption | with_reducible apply updLp_keeps | with_reducible apply ite_keeps
      | (with_reducible intro _) | simp only [mk_keeps] | simp only [mkSec_keeps] | split

theorem planResult_keeps {d : Stack} {thaw : Bool} {grp base cnt last n b : Nat} {s₁ : State} (hk : Keeps z s)
    (e : planResult d thaw grp base cnt last n b s = some s₁) : Keeps z s₁ := by
  induction n generalizing b s with
  | zero => cases e; exact hk
  | succ n ih =>
    unfold planResult at e
    rw [Option.bind_eq_some_iff] at e
    obtain ⟨q, _, e⟩ := e
    exact ih (updLp_keeps _ _ hk) e

theorem lpResult_keeps (d : Stack) (thaw : Bool) (grp : Nat) (hk : Keeps z s) : Keeps z (lpResult d thaw grp s) := by
  unfold lpResult
  try dsimp only
  repeat' first
      | with_reducible assumption | with_reducible apply poisonDie_keeps | with_reducible apply lpFault_keeps
      | with_reducible apply lpClearGroup_keeps | (refine planResult_keeps ?_ (by with_reducible assumption))
      | with_reducible apply getD_keeps | with_reducible apply ite_keeps | (with_reducible intro _) | simp only [mk_keeps]
      | simp only [mkSec_keeps] | split

theorem lpResultBeat_keeps (d : Stack) (hk : Keeps z s) : Keeps z (lpResultBeat d s) := by
  unfold lpResultBeat
  try dsimp only
  repeat' first
      | with_reducible assumption | with_reducible apply updLp_keeps | with_reducible apply poisonDie_keeps
      | with_reducible apply lpFault_keeps | with_reducible apply lpCompiled_keeps | with_reducible apply lpClearGroup_keeps
      | with_reducible apply ite_keeps | (with_reducible intro _) | simp only [mk_keeps] | simp only [mkSec_keeps] | split

theorem lpPortBeat_keeps (d : Stack) (k : Cluster) (off : Nat) (b : Beat) (hk : Keeps z s) : Keeps z
    (lpPortBeat d k off b s) := by
  unfold lpPortBeat
  try dsimp only
  repeat' first
      | with_reducible assumption | with_reducible apply updLp_keeps | with_reducible apply poisonDie_keeps
      | with_reducible apply lpContribution_keeps | with_reducible apply ite_keeps | (with_reducible intro _)
      | simp only [mk_keeps] | simp only [mkSec_keeps] | split

theorem stageBeatNow_keeps (d : Stack) (k : Cluster) (b : Beat) (hk : Keeps z s) : Keeps z (stageBeatNow d k b s) := by
  unfold stageBeatNow
  try dsimp only
  repeat' first
      | with_reducible assumption | with_reducible apply updRouter_keeps | with_reducible apply writeMem_keeps
      | with_reducible apply poisonDie_keeps | with_reducible apply ite_keeps | (with_reducible intro _)
      | simp only [mk_keeps] | simp only [mkSec_keeps] | split

theorem stagedBeat_keeps (d : Stack) (k : Cluster) (hk : Keeps z s) : Keeps z (stagedBeat d k s).2 := by
  unfold stagedBeat
  try dsimp only
  repeat' first
      | with_reducible assumption | with_reducible apply updRouter_keeps | with_reducible apply ite_keeps
      | (with_reducible intro _) | simp only [mk_keeps] | simp only [mkSec_keeps] | split
theorem stagedBeat_keepsE {d : Stack} {k : Cluster} {x0 : _} {s₁ : State} (hk : Keeps z s) (he : stagedBeat d k s = (x0, s₁))
    : Keeps z s₁ := by
  have k₁ := stagedBeat_keeps d k hk
  rw [he] at k₁
  exact k₁

theorem noteXferErr_keeps (id : Nat) (hk : Keeps z s) : Keeps z (noteXferErr id s) := by
  unfold noteXferErr
  try dsimp only
  repeat' first
      | with_reducible assumption | with_reducible apply updHub_keeps | with_reducible apply ite_keeps
      | (with_reducible intro _) | simp only [mk_keeps] | simp only [mkSec_keeps] | split

theorem refuseTransit_keeps (d : Stack) (p : Port) (id : Nat) (hk : Keeps z s) : Keeps z (refuseTransit d p id s) := by
  unfold refuseTransit
  try dsimp only
  repeat' first
      | with_reducible assumption | with_reducible apply noteXferErr_keeps | with_reducible apply satF_keeps
      | with_reducible apply ite_keeps | (with_reducible intro _) | simp only [mk_keeps] | simp only [mkSec_keeps] | split

theorem endpointBeat_keeps (d : Stack) (xfer : Nat) (err : Bool) (hk : Keeps z s) : Keeps z (endpointBeat d xfer err s) := by
  unfold endpointBeat
  try dsimp only
  repeat' first
      | with_reducible assumption | with_reducible apply updDie_keeps | with_reducible apply addAnswer_keeps
      | with_reducible apply hostArrive_keeps | with_reducible apply noteXferErr_keeps | with_reducible apply ite_keeps
      | (with_reducible intro _) | simp only [mk_keeps] | simp only [mkSec_keeps] | split

theorem edgeOut_keeps (d : Stack) (k : Cluster) (f : Flight) (hk : Keeps z s) : Keeps z (edgeOut d k f s) := by
  unfold edgeOut
  try dsimp only
  repeat' first
      | with_reducible assumption | with_reducible apply refuseTransit_keeps | with_reducible apply updDie_keeps
      | with_reducible apply ite_keeps | (with_reducible intro _) | simp only [mk_keeps] | simp only [mkSec_keeps] | split

theorem moveBeat_keeps (d : Stack) (k : Cluster) (o : Nat) (f : Flight) (hk : Keeps z s) : Keeps z (moveBeat d k o f s) := by
  unfold moveBeat
  try dsimp only
  repeat' first
      | with_reducible assumption | with_reducible apply schedule_keeps | with_reducible apply edgeOut_keeps
      | with_reducible apply endpointBeat_keeps | with_reducible apply ite_keeps | (with_reducible intro _)
      | simp only [mk_keeps] | simp only [mkSec_keeps] | split

theorem slotMove_keeps (d : Stack) (k : Cluster) (p : Nat) (f : Flight) (hk : Keeps z s) : Keeps z (slotMove d k p f s) := by
  unfold slotMove
  try dsimp only
  repeat' first
      | with_reducible assumption | with_reducible apply routerSync_keeps | with_reducible apply updRouter_keeps
      | with_reducible apply routerFault_keeps | with_reducible apply forAll_keeps | with_reducible apply moveBeat_keeps
      | with_reducible apply ite_keeps | (with_reducible intro _) | simp only [mk_keeps] | simp only [mkSec_keeps] | split

theorem inputBeat_keeps (d : Stack) (k : Cluster) (p off : Nat) (hk : Keeps z s) : Keeps z (inputBeat d k p off s) := by
  unfold inputBeat
  try dsimp only
  repeat' first
      | with_reducible assumption | with_reducible apply routerRecord_keeps | with_reducible apply updRouter_keeps
      | with_reducible apply slotMove_keeps | with_reducible apply routerSync_keeps | with_reducible apply stagedBeat_keeps
      | (refine stagedBeat_keepsE ?_ (by with_reducible assumption)) | with_reducible apply routerFault_keeps
      | with_reducible apply ite_keeps | (with_reducible intro _) | simp only [mk_keeps] | simp only [mkSec_keeps] | split

theorem transitSlotNow_keeps (d : Stack) (n : Nat) (hk : Keeps z s) : Keeps z (transitSlotNow d n s) := by
  unfold transitSlotNow
  try dsimp only
  repeat' first
      | with_reducible assumption | with_reducible apply forAll_keeps | with_reducible apply forAll_keeps
      | with_reducible apply updRouter_keeps | with_reducible apply moveBeat_keeps | with_reducible apply ite_keeps
      | (with_reducible intro _) | simp only [mk_keeps] | simp only [mkSec_keeps] | split

theorem linkReceive_keeps (d : Stack) (p : Port) (flips : BitVec 1024) (crcFlip : Byte) (hk : Keeps z s) : Keeps z
    (linkReceive d p flips crcFlip s) := by
  unfold linkReceive
  try dsimp only
  repeat' first
      | with_reducible assumption | with_reducible apply refuseTransit_keeps | with_reducible apply satF_keeps
      | with_reducible apply updDie_keeps | with_reducible apply recordErr_keeps | with_reducible apply poisonDie_keeps
      | with_reducible apply ite_keeps | (with_reducible intro _) | simp only [mk_keeps] | simp only [mkSec_keeps] | split

theorem issueRoute_keeps (d : Stack) (c : CoreIx) (w : BitVec 128) (t : Nat) (hk : Keeps z s) : Keeps z
    (issueRoute d c w t s) := by
  unfold issueRoute
  try dsimp only
  repeat' first
      | with_reducible assumption | with_reducible apply routerSync_keeps | with_reducible apply updRouter_keeps
      | with_reducible apply ite_keeps | (with_reducible intro _) | simp only [mk_keeps] | simp only [mkSec_keeps] | split

theorem issueSend_keeps (d : Stack) (c : CoreIx) (w : BitVec 128) (word t : Nat) (hk : Keeps z s) : Keeps z
    (issueSend d c w word t s) := by
  unfold issueSend
  try dsimp only
  repeat' first
      | with_reducible assumption | with_reducible apply forAll_keeps | with_reducible apply seqFault_keeps
      | with_reducible apply forAll_keeps | with_reducible apply schedule_keeps | with_reducible apply updCore_keeps
      | with_reducible apply ite_keeps | (with_reducible intro _) | simp only [mk_keeps] | simp only [mkSec_keeps] | split

theorem issueRsend_keeps (d : Stack) (c : CoreIx) (w : BitVec 128) (word t : Nat) (hk : Keeps z s) : Keeps z
    (issueRsend d c w word t s) := by
  unfold issueRsend
  try dsimp only
  repeat' first
      | with_reducible assumption | with_reducible apply forAll_keeps | with_reducible apply seqFault_keeps
      | with_reducible apply updCore_keeps | with_reducible apply schedule_keeps | with_reducible apply forAll_keeps
      | with_reducible apply ite_keeps | (with_reducible intro _) | simp only [mk_keeps] | simp only [mkSec_keeps] | split

theorem issueRecv_keeps (d : Stack) (c : CoreIx) (w : BitVec 128) (word t : Nat) (hk : Keeps z s) : Keeps z
    (issueRecv d c w word t s) := by
  unfold issueRecv
  try dsimp only
  repeat' first
      | with_reducible assumption | with_reducible apply forAll_keeps | with_reducible apply seqFault_keeps
      | with_reducible apply forAll_keeps | with_reducible apply schedule_keeps | with_reducible apply updCore_keeps
      | with_reducible apply ite_keeps | (with_reducible intro _) | simp only [mk_keeps] | simp only [mkSec_keeps] | split

theorem putOnRouter_keeps (d : Stack) (c : CoreIx) (t : Nat) (b : Beat) (hk : Keeps z s) : Keeps z
    (putOnRouter d c t b s) := by
  unfold putOnRouter
  try dsimp only
  repeat' first
      | with_reducible assumption | with_reducible apply ite_keeps | (with_reducible intro _) | simp only [mk_keeps]
      | simp only [mkSec_keeps] | split

theorem sendBeatNow_keeps (d : Stack) (c : CoreIx) (t word off : Nat) (hk : Keeps z s) : Keeps z
    (sendBeatNow d c t word off s) := by
  unfold sendBeatNow
  try dsimp only
  repeat' first
      | with_reducible assumption | with_reducible apply amemRead_keeps
      | (refine amemRead_keepsE ?_ (by with_reducible assumption)) | with_reducible apply putOnRouter_keeps
      | with_reducible apply ite_keeps | (with_reducible intro _) | simp only [mk_keeps] | simp only [mkSec_keeps] | split

theorem sendHeaderNow_keeps (d : Stack) (c : CoreIx) (t grp cidx boff n : Nat) (hk : Keeps z s) : Keeps z
    (sendHeaderNow d c t grp cidx boff n s) := by
  unfold sendHeaderNow
  try dsimp only
  repeat' first
      | with_reducible assumption | with_reducible apply putOnRouter_keeps | with_reducible apply ite_keeps
      | (with_reducible intro _) | simp only [mk_keeps] | simp only [mkSec_keeps] | split

theorem fabricStepEnd_keeps (d : Stack) (len : Nat) (hk : Keeps z s) : Keeps z (fabricStepEnd d len s) := by
  unfold fabricStepEnd
  try dsimp only
  repeat' first
      | with_reducible assumption | with_reducible apply forAll_keeps | with_reducible apply routerFault_keeps
      | with_reducible apply routerIdle_keeps | with_reducible apply ite_keeps | (with_reducible intro _)
      | simp only [mk_keeps] | simp only [mkSec_keeps] | split

theorem dropStepBeats_keeps (d : Stack) (hk : Keeps z s) : Keeps z (dropStepBeats d s) := by
  unfold dropStepBeats
  try dsimp only
  repeat' first
      | with_reducible assumption | with_reducible apply ite_keeps | (with_reducible intro _) | simp only [mk_keeps]
      | simp only [mkSec_keeps] | split

end Sys2Proof.Machine
end

