-- ==== Sys2Proof/Laws/KeepsTimetable.lean ====
section
/-! SUPPORT. What the definitions of Timetable.lean keep. -/
namespace Sys2Proof.Machine

variable {z s : State}

theorem issueBpStart_keeps (d : Stack) (c : CoreIx) (w : BitVec 128) (word t : Nat) (hk : Keeps z s) : Keeps z
    (issueBpStart d c w word t s) := by
  unfold issueBpStart
  try dsimp only
  repeat' first
      | with_reducible assumption | with_reducible apply forAll_keeps | with_reducible apply forAll_keeps
      | with_reducible apply bpFault_keeps | with_reducible apply schedule_keeps | with_reducible apply ite_keeps
      | (with_reducible intro _) | simp only [mk_keeps] | simp only [mkSec_keeps] | split

theorem issueBpRelease_keeps (d : Stack) (c : CoreIx) (w : BitVec 128) (word t : Nat) (hk : Keeps z s) : Keeps z
    (issueBpRelease d c w word t s) := by
  unfold issueBpRelease
  try dsimp only
  repeat' first
      | with_reducible assumption | with_reducible apply forAll_keeps | with_reducible apply forAll_keeps
      | with_reducible apply schedule_keeps | with_reducible apply ite_keeps | (with_reducible intro _) | simp only [mk_keeps]
      | simp only [mkSec_keeps] | split

theorem bpStartNow_keeps (d : Stack) (c : CoreIx) (t word j entry arg : Nat) (hk : Keeps z s) : Keeps z (bpStartNow d c t word
    j entry arg s) := by
  unfold bpStartNow
  try dsimp only
  repeat' first
      | with_reducible assumption | with_reducible apply bpFault_keeps | with_reducible apply ownFault_keeps
      | with_reducible apply updBp_keeps | with_reducible apply ite_keeps | (with_reducible intro _) | simp only [mk_keeps]
      | simp only [mkSec_keeps] | split

theorem bpReleaseNow_keeps (d : Stack) (c : CoreIx) (t word j : Nat) (hk : Keeps z s) : Keeps z (bpReleaseNow d c t word j s)
    := by
  unfold bpReleaseNow
  try dsimp only
  repeat' first
      | with_reducible assumption | with_reducible apply bpFault_keeps | with_reducible apply schedule_keeps
      | with_reducible apply ite_keeps | (with_reducible intro _) | simp only [mk_keeps] | simp only [mkSec_keeps] | split

theorem bpReturnNow_keeps (d : Stack) (c : CoreIx) (j : Nat) (hk : Keeps z s) : Keeps z (bpReturnNow d c j s) := by
  unfold bpReturnNow
  try dsimp only
  repeat' first
      | with_reducible assumption | with_reducible apply updBp_keeps | with_reducible apply ite_keeps
      | (with_reducible intro _) | simp only [mk_keeps] | simp only [mkSec_keeps] | split

theorem fetchBad_keeps (d : Stack) (c : CoreIx) (a : Nat) (o : CodeOutcome) (hk : Keeps z s) : Keeps z (fetchBad d c a o s) :=
    by
  unfold fetchBad
  try dsimp only
  repeat' first
      | with_reducible assumption | with_reducible apply recordErr_keeps | with_reducible apply markRow_keeps
      | with_reducible apply updVc_keeps | with_reducible apply ite_keeps | (with_reducible intro _) | simp only [mk_keeps]
      | simp only [mkSec_keeps] | split

theorem fetchReadyNow_keeps (d : Stack) (c : CoreIx) (bad : List (Nat × CodeOutcome)) (hk : Keeps z s) : Keeps z
    (fetchReadyNow d c bad s) := by
  unfold fetchReadyNow
  try dsimp only
  repeat' first
      | with_reducible assumption | with_reducible apply forAll_keeps | with_reducible apply fetchBad_keeps
      | with_reducible apply updCore_keeps | with_reducible apply poisonStep_keeps | with_reducible apply ite_keeps
      | (with_reducible intro _) | simp only [mk_keeps] | simp only [mkSec_keeps] | split

theorem runAct_keeps (d : Stack) (c : CoreIx) (u : Upsets) (e : Timed) (hk : Keeps z s) : Keeps z (runAct d c u e s) := by
  unfold runAct
  try dsimp only
  repeat' first
      | with_reducible assumption | with_reducible apply macReadNow_keeps | with_reducible apply macUpdNow_keeps
      | with_reducible apply opEntryNow_keeps | with_reducible apply drainReadNow_keeps
      | with_reducible apply epiScalarNow_keeps | with_reducible apply epiBlockNow_keeps
      | with_reducible apply putBlockNow_keeps | with_reducible apply amemWrite_keeps | with_reducible apply accReadNow_keeps
      | with_reducible apply updCore_keeps | with_reducible apply beatInNow_keeps | with_reducible apply beatOutNow_keeps
      | with_reducible apply bpSampleNow_keeps | with_reducible apply bpDeliverNow_keeps
      | with_reducible apply bpSendNow_keeps | with_reducible apply bpPlaceNow_keeps
      | with_reducible apply fetchReadyNow_keeps | with_reducible apply noteBus_keeps | with_reducible apply sfuNow_keeps
      | with_reducible apply sendBeatNow_keeps | with_reducible apply sendHeaderNow_keeps
      | with_reducible apply recvBeatNow_keeps | with_reducible apply portBeatNow_keeps
      | with_reducible apply portEndNow_keeps | with_reducible apply bpStartNow_keeps
      | with_reducible apply bpReleaseNow_keeps | with_reducible apply bpReturnNow_keeps
      | with_reducible apply addResultNow_keeps | with_reducible apply ldmaInNow_keeps | with_reducible apply ldmaOutNow_keeps
      | with_reducible apply stageBeatNow_keeps | with_reducible apply lpPortBeat_keeps | with_reducible apply ite_keeps
      | (with_reducible intro _) | simp only [mk_keeps] | simp only [mkSec_keeps] | split

theorem runFirst_keeps (d : Stack) (c : CoreIx) (u : Upsets) (e : Timed) (rest : List Timed) (hk : Keeps z s) : Keeps z
    (runFirst d c u e rest s) := by
  unfold runFirst
  try dsimp only
  repeat' first
      | with_reducible assumption | with_reducible apply runAct_keeps | with_reducible apply updCore_keeps
      | with_reducible apply ite_keeps | (with_reducible intro _) | simp only [mk_keeps] | simp only [mkSec_keeps] | split

theorem settleN_keeps (d : Stack) (c : CoreIx) (lim n : Nat) : ∀ {s : State}, Keeps z s → Keeps z (settleN d c lim n s) := by
  induction n with
  | zero => intro s h; exact h
  | succ n ih =>
    intro s h
    unfold settleN
    split
    · exact ite_keeps (fun _ => ih (runFirst_keeps _ _ _ _ _ h)) fun _ => h
    · exact h

theorem settle_keeps (d : Stack) (c : CoreIx) (t : Nat) (hk : Keeps z s) : Keeps z (settle d c t s) := by
  unfold settle
  try dsimp only
  repeat' first
      | with_reducible assumption | with_reducible apply settleN_keeps | with_reducible apply ite_keeps
      | (with_reducible intro _) | simp only [mk_keeps] | simp only [mkSec_keeps] | split

theorem runUntilN_keeps (d : Stack) (c : CoreIx) (u : Upsets) (ok : Act → Bool) (n : Nat) : ∀ {s : State}, Keeps z s →
    Keeps z (runUntilN d c u ok n s) := by
  induction n with
  | zero => intro s h; exact h
  | succ n ih =>
    intro s h
    unfold runUntilN
    split
    · exact ite_keeps (fun _ => updCore_keeps _ _ _ (runFirst_keeps _ _ _ _ _ h)) fun _ => ih (runFirst_keeps _ _ _ _ _ h)
    · exact h

theorem runUntil_keeps (d : Stack) (c : CoreIx) (u : Upsets) (ok : Act → Bool) (hk : Keeps z s) : Keeps z
    (runUntil d c u ok s) := by
  unfold runUntil
  try dsimp only
  repeat' first
      | with_reducible assumption | with_reducible apply runUntilN_keeps | with_reducible apply ite_keeps
      | (with_reducible intro _) | simp only [mk_keeps] | simp only [mkSec_keeps] | split

end Sys2Proof.Machine
end

