-- ==== Sys2Proof/Laws/KeepsSequencer.lean ====
section
/-! SUPPORT. What the definitions of Sequencer.lean keep. -/
namespace Sys2Proof.Machine

variable {z s : State}

theorem fetchSlot_keeps (d : Stack) (c : CoreIx) (u : Upsets) (hk : Keeps z s) : Keeps z (fetchSlot d c u s) := by
  unfold fetchSlot
  try dsimp only
  repeat' first
      | with_reducible assumption | with_reducible apply updCore_keeps | with_reducible apply settle_keeps
      | with_reducible apply loadBeat_keeps | (refine loadBeat_keepsE ?_ (by with_reducible assumption))
      | with_reducible apply schedule_keeps | with_reducible apply ite_keeps | (with_reducible intro _) | simp only [mk_keeps]
      | simp only [mkSec_keeps] | split

theorem coreLaunch_keeps (d : Stack) (c : CoreIx) (sel : Nat) (elastic : Bool) (t : Nat) (hk : Keeps z s) : Keeps z
    (coreLaunch d c sel elastic t s) := by
  unfold coreLaunch
  try dsimp only
  repeat' first
      | with_reducible assumption | with_reducible apply seqFault_keeps | with_reducible apply updCore_keeps
      | with_reducible apply ite_keeps | (with_reducible intro _) | simp only [mk_keeps] | simp only [mkSec_keeps] | split

theorem dieStepStart_keeps (d : Stack) (t : Nat) (hk : Keeps z s) : Keeps z (dieStepStart d t s) := by
  unfold dieStepStart
  try dsimp only
  repeat' first
      | with_reducible assumption | with_reducible apply updDie_keeps | with_reducible apply updLp_keeps
      | with_reducible apply forAll_keeps | with_reducible apply updRouter_keeps | with_reducible apply updBp_keeps
      | with_reducible apply updVc_keeps | with_reducible apply ite_keeps | (with_reducible intro _) | simp only [mk_keeps]
      | simp only [mkSec_keeps] | split

theorem startStep_keeps (d : Stack) (c : CoreIx) (h : HeldLaunch) (t : Nat) (hk : Keeps z s) : Keeps z (startStep d c h t s)
    := by
  unfold startStep
  try dsimp only
  repeat' first
      | with_reducible assumption | with_reducible apply updCore_keeps | with_reducible apply dieStepStart_keeps
      | with_reducible apply settle_keeps | with_reducible apply bumpF_keeps | with_reducible apply putF_keeps
      | with_reducible apply seqFault_keeps | with_reducible apply forAll_keeps | with_reducible apply writeByte_keeps
      | with_reducible apply ite_keeps | (with_reducible intro _) | simp only [mk_keeps] | simp only [mkSec_keeps] | split

theorem issueWord_keeps (d : Stack) (c : CoreIx) (ups : List Upsets) (w : BitVec 128) (ix t : Nat) (hk : Keeps z s) : Keeps z
    (issueWord d c ups w ix t s) := by
  unfold issueWord
  try dsimp only
  repeat' first
      | with_reducible assumption | with_reducible apply seqFault_keeps | with_reducible apply updCore_keeps
      | with_reducible apply issueMac_keeps | with_reducible apply issueOpload_keeps | with_reducible apply issueSwap_keeps
      | with_reducible apply issueDrain_keeps | with_reducible apply issueAccld_keeps | with_reducible apply issueVdma_keeps
      | with_reducible apply issueSfu_keeps | with_reducible apply issueSend_keeps | with_reducible apply issueRecv_keeps
      | with_reducible apply issueRsend_keeps | with_reducible apply issueRoute_keeps
      | with_reducible apply issueBpStart_keeps | with_reducible apply issueBpRelease_keeps
      | with_reducible apply issueLdma_keeps | with_reducible apply ite_keeps | (with_reducible intro _)
      | simp only [mk_keeps] | simp only [mkSec_keeps] | split

theorem checkWord_keeps (d : Stack) (c : CoreIx) {also : State → State} (ups : List Upsets) (w : BitVec 128) (ix t : Nat)
    (hal : ∀ x, Keeps z x → Keeps z (also x)) (hk : Keeps z s) : Keeps z (checkWord d c also ups w ix t s) := by
  unfold checkWord
  repeat' first
      | with_reducible assumption | with_reducible apply seqFault_keeps | with_reducible apply issueWord_keeps
      | with_reducible apply updCore_keeps | with_reducible apply hal | split

theorem passWord_keeps (d : Stack) (c : CoreIx) (t : Nat) (hk : Keeps z s) : Keeps z (passWord d c t s) := by
  unfold passWord
  try dsimp only
  repeat' first
      | with_reducible assumption | with_reducible apply updCore_keeps | with_reducible apply ite_keeps
      | (with_reducible intro _) | simp only [mk_keeps] | simp only [mkSec_keeps] | split

theorem issueRow_keeps (d : Stack) (c : CoreIx) (row : BitVec 128 → Bool) {also : State → State} (ups : List Upsets)
    (hal : ∀ x, Keeps z x → Keeps z (also x)) (hk : Keeps z s) : Keeps z (issueRow d c row also ups s) := by
  unfold issueRow
  try dsimp only
  repeat' first
      | with_reducible assumption | with_reducible apply settle_keeps | with_reducible refine checkWord_keeps _ _ _ _ _ _ hal ?_
      | with_reducible apply passWord_keeps | with_reducible apply seqFault_keeps | with_reducible apply ite_keeps
      | (with_reducible intro _) | split

theorem stopBp_keeps (d : Stack) (c : CoreIx) (j : Nat) (hk : Keeps z s) : Keeps z (stopBp d c j s) := by
  unfold stopBp
  try dsimp only
  repeat' first
      | with_reducible assumption | with_reducible apply updBp_keeps | with_reducible apply ite_keeps
      | (with_reducible intro _) | simp only [mk_keeps] | simp only [mkSec_keeps] | split

theorem coreStepEnd_keeps (d : Stack) (c : CoreIx) (len : Nat) (hk : Keeps z s) : Keeps z (coreStepEnd d c len s) := by
  unfold coreStepEnd
  try dsimp only
  repeat' first
      | with_reducible assumption | with_reducible apply settle_keeps | with_reducible apply seqFault_keeps
      | with_reducible apply forAll_keeps | with_reducible apply bpFault_keeps | with_reducible apply stopBp_keeps
      | with_reducible apply putF_keeps | with_reducible apply updCore_keeps | with_reducible apply ite_keeps
      | (with_reducible intro _) | simp only [mk_keeps] | simp only [mkSec_keeps] | split

theorem leavingStrays_keeps (d : Stack) (c : CoreIx) (len : Nat) (hk : Keeps z s) : Keeps z (leavingStrays d c len s) := by
  unfold leavingStrays
  try dsimp only
  repeat' first
      | with_reducible assumption | with_reducible apply settle_keeps | with_reducible apply updCore_keeps
      | with_reducible apply forAll_keeps | with_reducible apply routerFault_keeps | with_reducible apply ite_keeps
      | (with_reducible intro _) | simp only [mk_keeps] | simp only [mkSec_keeps] | split

theorem stepEnd_keeps (d : Stack) (len : Nat) (hk : Keeps z s) : Keeps z (stepEnd d len s) := by
  unfold stepEnd
  try dsimp only
  repeat' first
      | with_reducible assumption | with_reducible apply forAll_keeps | with_reducible apply coreStepEnd_keeps
      | with_reducible apply routerIdle_keeps | with_reducible apply leavingStrays_keeps
      | with_reducible apply fabricStepEnd_keeps | with_reducible apply ite_keeps | (with_reducible intro _)
      | simp only [mk_keeps] | simp only [mkSec_keeps] | split

end Sys2Proof.Machine
end

