-- ==== Sys2Proof/Laws/KeepsFlash.lean ====
section
/-! SUPPORT. What the definitions of Flash.lean keep. -/
namespace Sys2Proof.Machine

variable {z s : State}

theorem sendFlash_keeps (d : Stack) (k : FlashKind) (sel cyc : Nat) (p : Port) (hk : Keeps z s) : Keeps z (sendFlash d k sel
    cyc p s) := by
  unfold sendFlash
  try dsimp only
  repeat' first
      | with_reducible assumption | with_reducible apply ite_keeps | (with_reducible intro _) | simp only [mk_keeps]
      | simp only [mkSec_keeps] | split

theorem takeFlash_keeps {d : Stack} {ok : FlashKind → Bool} {m : FlashMsg} {s₁ : State} (hk : Keeps z s)
    (e : takeFlash d ok s = some (m, s₁)) : Keeps z s₁ := by
  unfold takeFlash at e
  split at e
  · cases e
    exact mk_keeps.2 hk
  · cases e

theorem stopCore_keeps (d : Stack) (c : CoreIx) (hk : Keeps z s) : Keeps z (stopCore d c s) := by
  unfold stopCore
  try dsimp only
  repeat' first
      | with_reducible assumption | with_reducible apply forAll_keeps | with_reducible apply poisonStep_keeps
      | with_reducible apply forAll_keeps | with_reducible apply stopBp_keeps | with_reducible apply putF_keeps
      | with_reducible apply updCore_keeps | with_reducible apply ite_keeps | (with_reducible intro _) | simp only [mk_keeps]
      | simp only [mkSec_keeps] | split

theorem reportHalt_keeps (d : Stack) (cause : Nat) (hk : Keeps z s) : Keeps z (reportHalt d cause s) := by
  unfold reportHalt
  try dsimp only
  repeat' first
      | with_reducible assumption | with_reducible apply raiseAlert_keeps | with_reducible apply postEvent_keeps
      | with_reducible apply forgetLaunches_keeps | with_reducible apply updHub_keeps | with_reducible apply ite_keeps
      | (with_reducible intro _) | simp only [mk_keeps] | simp only [mkSec_keeps] | split

theorem haltDie_keeps (d : Stack) (cause : Nat) (hk : Keeps z s) : Keeps z (haltDie d cause s) := by
  unfold haltDie
  try dsimp only
  repeat' first
      | with_reducible assumption | with_reducible apply forAll_keeps | with_reducible apply stopCore_keeps
      | with_reducible apply routerIdle_keeps | with_reducible apply dropStepBeats_keeps | with_reducible apply putF_keeps
      | with_reducible apply updDie_keeps | with_reducible apply reportHalt_keeps | with_reducible apply ite_keeps
      | (with_reducible intro _) | simp only [mk_keeps] | simp only [mkSec_keeps] | split

theorem floodAbort_keeps (d : Stack) (cause : Nat) (except : Option Port) (hk : Keeps z s) : Keeps z (floodAbort d cause
    except s) := by
  unfold floodAbort
  try dsimp only
  repeat' first
      | with_reducible assumption | with_reducible apply forAll_keeps | with_reducible apply sendFlash_keeps
      | with_reducible apply haltDie_keeps | with_reducible apply ite_keeps | (with_reducible intro _) | simp only [mk_keeps]
      | simp only [mkSec_keeps] | split

theorem abortArrive_keeps (d : Stack) (parityOk : Bool) (hk : Keeps z s) : Keeps z (abortArrive d parityOk s) := by
  unfold abortArrive
  try dsimp only
  repeat' first
      | with_reducible assumption | (refine takeFlash_keeps ?_ (by with_reducible assumption))
      | with_reducible apply floodAbort_keeps | with_reducible apply ite_keeps | (with_reducible intro _)
      | simp only [mk_keeps] | simp only [mkSec_keeps] | split

theorem launchArrive_keeps (d : Stack) (elastic parityOk : Bool) (hk : Keeps z s) : Keeps z (launchArrive d elastic parityOk
    s) := by
  unfold launchArrive
  try dsimp only
  repeat' first
      | with_reducible assumption | (refine takeFlash_keeps ?_ (by with_reducible assumption))
      | with_reducible apply floodAbort_keeps | with_reducible apply satF_keeps | with_reducible apply bumpF_keeps
      | with_reducible apply putF_keeps | with_reducible apply updDie_keeps | with_reducible apply forAll_keeps
      | with_reducible apply sendFlash_keeps | with_reducible apply coreLaunch_keeps | with_reducible apply ite_keeps
      | (with_reducible intro _) | simp only [mk_keeps] | simp only [mkSec_keeps] | split

theorem stopAtStart_keeps (d : Stack) (hk : Keeps z s) : Keeps z (stopAtStart d s) := by
  unfold stopAtStart
  try dsimp only
  repeat' first
      | with_reducible assumption | with_reducible apply floodAbort_keeps | with_reducible apply updDie_keeps
      | with_reducible apply ite_keeps | (with_reducible intro _) | simp only [mk_keeps] | simp only [mkSec_keeps] | split

theorem beginStep_keeps (d : Stack) (c : CoreIx) (h : HeldLaunch) (t : Nat) (hk : Keeps z s) : Keeps z (beginStep d c h t s)
    := by
  unfold beginStep
  try dsimp only
  repeat' first
      | with_reducible assumption | with_reducible apply stepOpened_keeps | with_reducible apply startStep_keeps
      | with_reducible apply ite_keeps | (with_reducible intro _) | simp only [mk_keeps] | simp only [mkSec_keeps] | split

theorem elasticStarts_keeps (d : Stack) (hk : Keeps z s) : Keeps z (elasticStarts d s) := by
  unfold elasticStarts
  try dsimp only
  repeat' first
      | with_reducible assumption | with_reducible apply forAll_keeps | with_reducible apply beginStep_keeps
      | with_reducible apply ite_keeps | (with_reducible intro _) | simp only [mk_keeps] | simp only [mkSec_keeps] | split

theorem showQueue_keeps (d : Stack) (hk : Keeps z s) : Keeps z (showQueue d s) := by
  unfold showQueue
  try dsimp only
  repeat' first
      | with_reducible assumption | with_reducible apply putF_keeps | with_reducible apply ite_keeps
      | (with_reducible intro _) | simp only [mk_keeps] | simp only [mkSec_keeps] | split

theorem queueWrite_keeps (d : Stack) (v : Word) (hk : Keeps z s) : Keeps z (queueWrite d v s) := by
  unfold queueWrite
  try dsimp only
  repeat' first
      | with_reducible assumption | with_reducible apply putF_keeps | with_reducible apply showQueue_keeps
      | with_reducible apply updDie_keeps | with_reducible apply ite_keeps | (with_reducible intro _) | simp only [mk_keeps]
      | simp only [mkSec_keeps] | split

theorem samplePause_keeps (d : Stack) (hk : Keeps z s) : Keeps z (samplePause d s).2 := by
  unfold samplePause
  try dsimp only
  repeat' first
      | with_reducible assumption | with_reducible apply forAll_keeps | with_reducible apply updDie_keeps
      | with_reducible apply putF_keeps | with_reducible apply ite_keeps | (with_reducible intro _) | simp only [mk_keeps]
      | simp only [mkSec_keeps] | split
theorem samplePause_keepsE {d : Stack} {x0 : _} {s₁ : State} (hk : Keeps z s) (he : samplePause d s = (x0, s₁)) : Keeps z s₁
    := by
  have k₁ := samplePause_keeps d hk
  rw [he] at k₁
  exact k₁

theorem takeEntry_keeps (d : Stack) (first : Bool) (hk : Keeps z s) : Keeps z (takeEntry d first s) := by
  unfold takeEntry
  try dsimp only
  repeat' first
      | with_reducible assumption | with_reducible apply showQueue_keeps | with_reducible apply updDie_keeps
      | with_reducible apply samplePause_keeps | (refine samplePause_keepsE ?_ (by with_reducible assumption))
      | with_reducible apply ite_keeps | (with_reducible intro _) | simp only [mk_keeps] | simp only [mkSec_keeps] | split

theorem sampleEmpty_keeps (d : Stack) (hk : Keeps z s) : Keeps z (sampleEmpty d s) := by
  unfold sampleEmpty
  try dsimp only
  repeat' first
      | with_reducible assumption | with_reducible apply samplePause_keeps
      | (refine samplePause_keepsE ?_ (by with_reducible assumption)) | with_reducible apply updDie_keeps
      | with_reducible apply ite_keeps | (with_reducible intro _) | simp only [mk_keeps] | simp only [mkSec_keeps] | split

theorem sendLaunch_keeps (d : Stack) (gap : Nat) (hk : Keeps z s) : Keeps z (sendLaunch d gap s) := by
  unfold sendLaunch
  try dsimp only
  repeat' first
      | with_reducible assumption | with_reducible apply updDie_keeps | with_reducible apply updTherm_keeps
      | with_reducible apply updHub_keeps | with_reducible apply ite_keeps | (with_reducible intro _) | simp only [mk_keeps]
      | simp only [mkSec_keeps] | split

theorem doneStep_keeps (d : Stack) (parityOk : Bool) (hk : Keeps z s) : Keeps z (doneStep d parityOk s) := by
  unfold doneStep
  try dsimp only
  repeat' first
      | with_reducible assumption | (refine takeFlash_keeps ?_ (by with_reducible assumption))
      | with_reducible apply floodAbort_keeps | with_reducible apply updDie_keeps | with_reducible apply sendFlash_keeps
      | with_reducible apply ite_keeps | (with_reducible intro _) | simp only [mk_keeps] | simp only [mkSec_keeps] | split

theorem rearmDie_keeps (d : Stack) (hk : Keeps z s) : Keeps z (rearmDie d s) := by
  unfold rearmDie
  try dsimp only
  repeat' first
      | with_reducible assumption | with_reducible apply putF_keeps | with_reducible apply showQueue_keeps
      | with_reducible apply updDie_keeps | with_reducible apply ite_keeps | (with_reducible intro _) | simp only [mk_keeps]
      | simp only [mkSec_keeps] | split

theorem isolatePort_keeps (d : Stack) (p : Port) (cause : Nat) (hk : Keeps z s) : Keeps z (isolatePort d p cause s) := by
  unfold isolatePort
  try dsimp only
  repeat' first
      | with_reducible assumption | with_reducible apply updDie_keeps | with_reducible apply putF_keeps
      | with_reducible apply postEvent_keeps | with_reducible apply ite_keeps | (with_reducible intro _)
      | simp only [mk_keeps] | simp only [mkSec_keeps] | split

theorem losePort_keeps (d : Stack) (p : Port) (iso abort : Nat) (hk : Keeps z s) : Keeps z (losePort d p iso abort s) := by
  unfold losePort
  try dsimp only
  repeat' first
      | with_reducible assumption | with_reducible apply isolatePort_keeps | with_reducible apply floodAbort_keeps
      | with_reducible apply ite_keeps | (with_reducible intro _) | simp only [mk_keeps] | simp only [mkSec_keeps] | split

theorem writeIsolate_keeps (d : Stack) (p : Port) (v : Bool) (hk : Keeps z s) : Keeps z (writeIsolate d p v s) := by
  unfold writeIsolate
  try dsimp only
  repeat' first
      | with_reducible assumption | with_reducible apply isolatePort_keeps | with_reducible apply putF_keeps
      | with_reducible apply ite_keeps | (with_reducible intro _) | simp only [mk_keeps] | simp only [mkSec_keeps] | split

theorem showSpares_keeps (d : Stack) (p : Port) (t : WireTest) (width : Nat) (hk : Keeps z s) : Keeps z (showSpares d p t
    width s) := by
  unfold showSpares
  try dsimp only
  repeat' first
      | with_reducible assumption | with_reducible apply putF_keeps | with_reducible apply ite_keeps
      | (with_reducible intro _) | simp only [mk_keeps] | simp only [mkSec_keeps] | split

theorem portTrained_keeps (d : Stack) (p : Port) (hk : Keeps z s) : Keeps z (portTrained d p s) := by
  unfold portTrained
  try dsimp only
  repeat' first
      | with_reducible assumption | with_reducible apply putF_keeps | with_reducible apply updDie_keeps
      | with_reducible apply ite_keeps | (with_reducible intro _) | simp only [mk_keeps] | simp only [mkSec_keeps] | split

theorem setElastic_keeps (d : Stack) (hk : Keeps z s) : Keeps z (setElastic d s) := by
  unfold setElastic
  try dsimp only
  repeat' first
      | with_reducible assumption | with_reducible apply putF_keeps | with_reducible apply ite_keeps
      | (with_reducible intro _) | simp only [mk_keeps] | simp only [mkSec_keeps] | split

theorem elasticClear_keeps (d : Stack) (hk : Keeps z s) : Keeps z (elasticClear d s) := by
  unfold elasticClear
  try dsimp only
  repeat' first
      | with_reducible assumption | with_reducible apply updDie_keeps | with_reducible apply putF_keeps
      | with_reducible apply ite_keeps | (with_reducible intro _) | simp only [mk_keeps] | simp only [mkSec_keeps] | split

theorem realign_keeps (d : Stack) (hk : Keeps z s) : Keeps z (realign d s) := by
  unfold realign
  try dsimp only
  repeat' first
      | with_reducible assumption | with_reducible apply forAll_keeps | with_reducible apply updDie_keeps
      | with_reducible apply updCore_keeps | with_reducible apply ite_keeps | (with_reducible intro _) | simp only [mk_keeps]
      | simp only [mkSec_keeps] | split

theorem makeElastic_keeps (d : Stack) (hk : Keeps z s) : Keeps z (makeElastic d s) := by
  unfold makeElastic
  try dsimp only
  repeat' first
      | with_reducible assumption | with_reducible apply setElastic_keeps | with_reducible apply updHub_keeps
      | with_reducible apply ite_keeps | (with_reducible intro _) | simp only [mk_keeps] | simp only [mkSec_keeps] | split

theorem markOutdated_keeps (d : Stack) (hk : Keeps z s) : Keeps z (markOutdated d s) := by
  unfold markOutdated
  try dsimp only
  repeat' first
      | with_reducible assumption | with_reducible apply updHub_keeps | with_reducible apply ite_keeps
      | (with_reducible intro _) | simp only [mk_keeps] | simp only [mkSec_keeps] | split

theorem settleElastic_keeps (p : Nat) (hk : Keeps z s) : Keeps z (settleElastic p s) := by
  unfold settleElastic
  try dsimp only
  repeat' first
      | with_reducible assumption | with_reducible apply elasticClear_keeps | with_reducible apply ite_keeps
      | (with_reducible intro _) | simp only [mk_keeps] | simp only [mkSec_keeps] | split

theorem graphsChanged_keeps (p : Nat) (hk : Keeps z s) : Keeps z (graphsChanged p s) := by
  unfold graphsChanged
  try dsimp only
  repeat' first
      | with_reducible assumption | with_reducible apply settleElastic_keeps | with_reducible apply updHub_keeps
      | with_reducible apply ite_keeps | (with_reducible intro _) | simp only [mk_keeps] | simp only [mkSec_keeps] | split

theorem retrainPort_keeps (d : Stack) (p : Port) (here there : WireTest) (hk : Keeps z s) : Keeps z (retrainPort d p here
    there s) := by
  unfold retrainPort
  try dsimp only
  repeat' first
      | with_reducible assumption | with_reducible apply updDie_keeps | with_reducible apply showSpares_keeps
      | with_reducible apply portTrained_keeps | with_reducible apply recordErr_keeps | with_reducible apply losePort_keeps
      | with_reducible apply ite_keeps | (with_reducible intro _) | simp only [mk_keeps] | simp only [mkSec_keeps] | split

theorem halfDrop_keeps (d : Stack) (p : Port) (hk : Keeps z s) : Keeps z (halfDrop d p s) := by
  unfold halfDrop
  try dsimp only
  repeat' first
      | with_reducible assumption | with_reducible apply updDie_keeps | with_reducible apply putF_keeps
      | with_reducible apply postEvent_keeps | with_reducible apply makeElastic_keeps | with_reducible apply getD_keeps
      | with_reducible apply ite_keeps | (with_reducible intro _) | simp only [mk_keeps] | simp only [mkSec_keeps] | split

theorem requestRetrain_keeps (d : Stack) (p : Port) (hk : Keeps z s) : Keeps z (requestRetrain d p s) := by
  unfold requestRetrain
  try dsimp only
  repeat' first
      | with_reducible assumption | with_reducible apply requestSegment_keeps | with_reducible apply updDie_keeps
      | with_reducible apply ite_keeps | (with_reducible intro _) | simp only [mk_keeps] | simp only [mkSec_keeps] | split

end Sys2Proof.Machine
end

