-- ==== Sys2Proof/Laws/KeepsDisp.lean ====
section
/-! SUPPORT. What the definitions of Disp.lean keep. -/
namespace Sys2Proof.Machine

variable {z s : State}

theorem setObj_keeps (key v : Nat) (hk : Keeps z s) : Keeps z (setObj key v s) := by
  unfold setObj
  try dsimp only
  repeat' first
      | with_reducible assumption | with_reducible apply putReg_keeps | with_reducible apply updSvc_keeps
      | with_reducible apply updDie_keeps | with_reducible apply ite_keeps | (with_reducible intro _) | simp only [mk_keeps]
      | simp only [mkSec_keeps] | split

theorem addObj_keeps (key n : Nat) (hk : Keeps z s) : Keeps z (addObj key n s) := by
  unfold addObj
  try dsimp only
  repeat' first
      | with_reducible assumption | with_reducible apply setObj_keeps | with_reducible apply ite_keeps
      | (with_reducible intro _) | simp only [mk_keeps] | simp only [mkSec_keeps] | split

theorem putOut_keeps (slot data : Nat) (hk : Keeps z s) : Keeps z (putOut slot data s) := by
  unfold putOut
  try dsimp only
  repeat' first
      | with_reducible assumption | with_reducible apply sendStore_keeps | with_reducible apply putRing_keeps
      | with_reducible apply updSess_keeps | with_reducible apply sendIndex_keeps | with_reducible apply ite_keeps
      | (with_reducible intro _) | simp only [mk_keeps] | simp only [mkSec_keeps] | split

theorem writeOut_keeps (slot data : Nat) (hk : Keeps z s) : Keeps z (writeOut slot data s) := by
  unfold writeOut
  try dsimp only
  repeat' first
      | with_reducible assumption | with_reducible apply updSess_keeps | with_reducible apply putOut_keeps
      | with_reducible apply ite_keeps | (with_reducible intro _) | simp only [mk_keeps] | simp only [mkSec_keeps] | split

theorem postSess_keeps (slot code data subject : Nat) (hk : Keeps z s) : Keeps z (postSess slot code data subject s) := by
  unfold postSess
  try dsimp only
  repeat' first
      | with_reducible assumption | with_reducible apply writeOut_keeps | with_reducible apply ite_keeps
      | (with_reducible intro _) | simp only [mk_keeps] | simp only [mkSec_keeps] | split

theorem flushSess_keeps : ∀ (a0 : Nat) (a1 : Nat) {s : State}, Keeps z s → Keeps z (flushSess a0 a1 s) := by
  intro a0 a1 s hk
  induction a0 generalizing a1 s with
  | zero => unfold flushSess; exact hk
  | succ n ih =>
    unfold flushSess
    try dsimp only
    repeat' first
        | with_reducible assumption | with_reducible apply ih | with_reducible apply putOut_keeps
        | with_reducible apply updSess_keeps | with_reducible apply ite_keeps | (with_reducible intro _)
        | simp only [mk_keeps] | simp only [mkSec_keeps] | split

theorem createInst_keeps (k task : Nat) (slot : Option Nat) (arg : Nat) (supplied : List (Nat × Nat × Nat × Nat)) (hk :
    Keeps z s) : Keeps z (createInst k task slot arg supplied s) := by
  unfold createInst
  try dsimp only
  repeat' first
      | with_reducible assumption | with_reducible apply putInst_keeps | with_reducible apply ite_keeps
      | (with_reducible intro _) | simp only [mk_keeps] | simp only [mkSec_keeps] | split

theorem createTemplates_keeps (k slot : Nat) (hk : Keeps z s) : Keeps z (createTemplates k slot s) := by
  unfold createTemplates
  try dsimp only
  repeat' first
      | with_reducible assumption | with_reducible apply forAll_keeps | with_reducible apply forAll_keeps
      | with_reducible apply createInst_keeps | with_reducible apply ite_keeps | (with_reducible intro _)
      | simp only [mk_keeps] | simp only [mkSec_keeps] | split

theorem createMaint_keeps (k kind slot arg : Nat) (supplied : List (Nat × Nat × Nat × Nat)) (params : Nat) (hk : Keeps z s) :
    Keeps z (createMaint k kind slot arg supplied params s) := by
  unfold createMaint
  try dsimp only
  repeat' first
      | with_reducible assumption | with_reducible apply createInst_keeps | with_reducible apply devWrite_keeps
      | with_reducible apply getD_keeps | with_reducible apply ite_keeps | (with_reducible intro _) | simp only [mk_keeps]
      | simp only [mkSec_keeps] | split

theorem fireTrigger_keeps (k obj : Nat) (hk : Keeps z s) : Keeps z (fireTrigger k obj s) := by
  unfold fireTrigger
  try dsimp only
  repeat' first
      | with_reducible assumption | with_reducible apply updInst_keeps | with_reducible apply createInst_keeps
      | with_reducible apply ite_keeps | (with_reducible intro _) | simp only [mk_keeps] | simp only [mkSec_keeps] | split

theorem applySig_keeps (k : Nat) (slot : Option Nat) (e : ObjOp) (hk : Keeps z s) : Keeps z (applySig k slot e s) := by
  unfold applySig
  try dsimp only
  repeat' first
      | with_reducible assumption | with_reducible apply addObj_keeps | with_reducible apply setObj_keeps
      | with_reducible apply fireTrigger_keeps | with_reducible apply ite_keeps | (with_reducible intro _)
      | simp only [mk_keeps] | simp only [mkSec_keeps] | split

theorem staleObjs_keeps (d : Stack) (hk : Keeps z s) : Keeps z (staleObjs d s) := by
  unfold staleObjs
  try dsimp only
  repeat' first
      | with_reducible assumption | (with_reducible refine foldl_keeps (Keeps z) _ _ _ (fun _ _ _ => ?_) ?_)
      | (with_reducible refine foldr_keeps (Keeps z) _ _ _ (fun _ _ _ => ?_) ?_) | with_reducible apply foldl_keeps2
      | with_reducible apply foldr_keeps2 | with_reducible apply foldl_keeps3 | with_reducible apply foldr_keeps3
      | with_reducible apply updSvc_keeps | with_reducible apply ite_keeps | (with_reducible intro _) | simp only [mk_keeps]
      | simp only [mkSec_keeps] | split

theorem observe_keeps (key v : Nat) (hk : Keeps z s) : Keeps z (observe key v s) := by
  unfold observe
  try dsimp only
  repeat' first
      | with_reducible assumption | with_reducible apply updSvc_keeps | with_reducible apply ite_keeps
      | (with_reducible intro _) | simp only [mk_keeps] | simp only [mkSec_keeps] | split

theorem takeCfg_keeps (p : Nat) (hk : Keeps z s) : Keeps z (takeCfg p s) := by
  unfold takeCfg
  try dsimp only
  repeat' first
      | with_reducible assumption | with_reducible apply updSvc_keeps | with_reducible apply ite_keeps
      | (with_reducible intro _) | simp only [mk_keeps] | simp only [mkSec_keeps] | split

theorem launchInst_keeps (p i : Nat) (hk : Keeps z s) : Keeps z (launchInst p i s) := by
  unfold launchInst
  try dsimp only
  repeat' first
      | with_reducible assumption | with_reducible apply updInst_keeps | with_reducible apply updSvc_keeps
      | with_reducible apply takeCfg_keeps | with_reducible apply updGraph_keeps | with_reducible apply bumpF_keeps
      | with_reducible apply putF_keeps | with_reducible apply queueWrite_keeps | with_reducible apply ite_keeps
      | (with_reducible intro _) | simp only [mk_keeps] | simp only [mkSec_keeps] | split

theorem supplyCopy_keeps {k : Nat} {p : Nat × Nat × Nat} {q : Nat × Nat × Nat × Nat} {s₁ : State} (hk : Keeps z s)
    (e : supplyCopy k p s = some (q, s₁)) : Keeps z s₁ := by
  unfold supplyCopy at e
  split at e
  · cases e
  · dsimp only at e
    split at e
    · cases e
    · have h₁ := pickFree_keepsE hk ‹_›
      split at e
      · cases e
      · have h₂ := pickFree_keepsE h₁ ‹_›
        cases e
        exact slotWrite_keeps _ _ _ _ _ _ (updNear_keeps _ _ _ h₂)

theorem queueCopy_keeps (k slot : Nat) (hk : Keeps z s) : Keeps z (queueCopy k slot s) := by
  unfold queueCopy
  split
  · exact hk
  · split
    · rename_i e
      refine createMaint_keeps _ _ _ _ _ _ (foldBind_keeps (P := fun r => Keeps z r.2) _ hk (fun r x h y e => ?_) e)
      rw [Option.map_eq_some_iff] at e
      obtain ⟨q, e, rfl⟩ := e
      exact supplyCopy_keeps h e
    · exact updSess_keeps _ _ hk

theorem dispatchN_keeps : ∀ (a0 : Nat) (a1 : Nat) {s : State}, Keeps z s → Keeps z (dispatchN a0 a1 s) := by
  intro a0 a1 s hk
  induction a0 generalizing a1 s with
  | zero => unfold dispatchN; exact hk
  | succ n ih =>
    unfold dispatchN
    try dsimp only
    repeat' first
        | with_reducible assumption | with_reducible apply ih | with_reducible apply queueCopy_keeps
        | with_reducible apply launchInst_keeps | with_reducible apply ite_keeps | (with_reducible intro _)
        | simp only [mk_keeps] | simp only [mkSec_keeps] | split

theorem dispatch_keeps (p : Nat) (hk : Keeps z s) : Keeps z (dispatch p s) := by
  unfold dispatch
  try dsimp only
  repeat' first
      | with_reducible assumption | with_reducible apply dispatchN_keeps | with_reducible apply ite_keeps
      | (with_reducible intro _) | simp only [mk_keeps] | simp only [mkSec_keeps] | split

theorem framesFreed_keeps (k : Nat) (hk : Keeps z s) : Keeps z (framesFreed k s) := by
  unfold framesFreed
  try dsimp only
  repeat' first
      | with_reducible assumption | with_reducible apply forAll_keeps | with_reducible apply forAll_keeps
      | with_reducible apply addObj_keeps | with_reducible apply updSess_keeps | with_reducible apply ite_keeps
      | (with_reducible intro _) | simp only [mk_keeps] | simp only [mkSec_keeps] | split

end Sys2Proof.Machine
end

