-- ==== Sys2Proof/Laws/KeepsBpCore.lean ====
section
/-! SUPPORT. What the definitions of BpCore.lean keep. -/
namespace Sys2Proof.Machine

variable {z s : State}

theorem reloadProgram_keeps (d : Stack) (c : CoreIx) (j : Nat) (hk : Keeps z s) : Keeps z (reloadProgram d c j s) := by
  unfold reloadProgram
  try dsimp only
  repeat' first
      | with_reducible assumption | with_reducible apply forAll_keeps | with_reducible apply writeByte_keeps
      | with_reducible apply ite_keeps | (with_reducible intro _) | simp only [mk_keeps] | simp only [mkSec_keeps] | split

theorem bpTrap_keeps (d : Stack) (c : CoreIx) (j cause : Nat) (hk : Keeps z s) : Keeps z (bpTrap d c j cause s) := by
  unfold bpTrap
  try dsimp only
  repeat' first
      | with_reducible assumption | with_reducible apply bpFault_keeps | with_reducible apply reloadProgram_keeps
      | with_reducible apply updBp_keeps | with_reducible apply ite_keeps | (with_reducible intro _) | simp only [mk_keeps]
      | simp only [mkSec_keeps] | split

theorem bpTrapAt_keeps (d : Stack) (c : CoreIx) (j m cause : Nat) (hk : Keeps z s) : Keeps z (bpTrapAt d c j m cause s) := by
  unfold bpTrapAt
  try dsimp only
  repeat' first
      | with_reducible assumption | with_reducible apply bpTrap_keeps | with_reducible apply updBp_keeps
      | with_reducible apply ite_keeps | (with_reducible intro _) | simp only [mk_keeps] | simp only [mkSec_keeps] | split

theorem bpScalar_keeps (d : Stack) (c : CoreIx) (j w len : Nat) (hk : Keeps z s) : Keeps z (bpScalar d c j w len s) := by
  unfold bpScalar
  try dsimp only
  repeat' first
      | with_reducible assumption | with_reducible apply bpTrap_keeps | with_reducible apply addAct_keeps
      | with_reducible apply updBp_keeps | with_reducible apply bpTrapAt_keeps | with_reducible apply writeMem_keeps
      | with_reducible apply ite_keeps | (with_reducible intro _) | simp only [mk_keeps] | simp only [mkSec_keeps] | split

end Sys2Proof.Machine
end

