-- ==== Sys2Proof/Laws/KeepsBpVec.lean ====
section
/-! SUPPORT. What the definitions of BpVec.lean keep. -/
namespace Sys2Proof.Machine

variable {z s : State}

theorem bpVector_keeps (d : Stack) (c : CoreIx) (j : Nat) (o : BpOp) (w : Nat) (hk : Keeps z s) : Keeps z (bpVector d c j o w
    s) := by
  unfold bpVector
  try dsimp only
  repeat' first
      | with_reducible assumption | with_reducible apply takeFree_keeps
      | (refine takeFree_keepsE ?_ (by with_reducible assumption)) | with_reducible apply bpTrap_keeps
      | with_reducible apply addAct_keeps | with_reducible apply updBp_keeps | with_reducible apply writeMem_keeps
      | with_reducible apply bpTrapAt_keeps | with_reducible apply ite_keeps | (with_reducible intro _) | simp only [mk_keeps]
      | simp only [mkSec_keeps] | split

end Sys2Proof.Machine
end

