-- ==== Sys2Proof/Laws/KeepsBpBank.lean ====
section
/-! SUPPORT. What the definitions of BpBank.lean keep. -/
namespace Sys2Proof.Machine

variable {z s : State}

theorem bpLoad_keeps (d : Stack) (c : CoreIx) (j off : Nat) (hk : Keeps z s) : Keeps z (bpLoad d c j off s).2.2 := by
  unfold bpLoad
  try dsimp only
  repeat' first
      | with_reducible assumption | with_reducible apply countWord_keeps | with_reducible apply recordErr_keeps
      | with_reducible apply poisonStep_keeps | with_reducible apply markRow_keeps | with_reducible apply ite_keeps
      | (with_reducible intro _) | simp only [mk_keeps] | simp only [mkSec_keeps] | split
theorem bpLoad_keepsE {d : Stack} {c : CoreIx} {j off : Nat} {x0 : _} {x1 : _} {s₁ : State} (hk : Keeps z s) (he : bpLoad d c
    j off s = (x0, x1, s₁)) : Keeps z s₁ := by
  have k₁ := bpLoad_keeps d c j off hk
  rw [he] at k₁
  exact k₁

theorem bpStore_keeps (d : Stack) (c : CoreIx) (j off : Nat) (v : BitVec 512) (hk : Keeps z s) : Keeps z (bpStore d c j off v
    s) := by
  unfold bpStore
  try dsimp only
  repeat' first
      | with_reducible assumption | with_reducible apply vaultStore_keeps | with_reducible apply ite_keeps
      | (with_reducible intro _) | simp only [mk_keeps] | simp only [mkSec_keeps] | split

theorem bpRmw_keeps (d : Stack) (c : CoreIx) (j : Nat) (e : MergeEntry) (hk : Keeps z s) : Keeps z (bpRmw d c j e s) := by
  unfold bpRmw
  try dsimp only
  repeat' first
      | with_reducible assumption | with_reducible apply bpLoad_keeps
      | (refine bpLoad_keepsE ?_ (by with_reducible assumption)) | with_reducible apply vaultPoison_keeps
      | with_reducible apply bpStore_keeps | with_reducible apply ite_keeps | (with_reducible intro _) | simp only [mk_keeps]
      | simp only [mkSec_keeps] | split

theorem bpWriteBack_keeps (d : Stack) (c : CoreIx) (j m : Nat) (e : MergeEntry) (hk : Keeps z s) : Keeps z
    (bpWriteBack d c j m e s).2 := by
  unfold bpWriteBack
  try dsimp only
  repeat' first
      | with_reducible assumption | with_reducible apply updBp_keeps | with_reducible apply creditRow_keeps
      | with_reducible apply addAct_keeps | with_reducible apply bpStore_keeps | with_reducible apply bpRmw_keeps
      | with_reducible apply ite_keeps | (with_reducible intro _) | simp only [mk_keeps] | simp only [mkSec_keeps] | split
theorem bpWriteBack_keepsE {d : Stack} {c : CoreIx} {j : Nat} {m : Nat} {e : MergeEntry} {x0 : _} {s₁ : State} (hk :
    Keeps z s) (he : bpWriteBack d c j m e s = (x0, s₁)) : Keeps z s₁ := by
  have k₁ := bpWriteBack_keeps d c j m e hk
  rw [he] at k₁
  exact k₁

theorem bpWriteBacks_keeps (d : Stack) (c : CoreIx) (j m : Nat) (l : List MergeEntry) (hk : Keeps z s) : Keeps z
    (bpWriteBacks d c j m l s) := by
  unfold bpWriteBacks
  try dsimp only
  repeat' first
      | with_reducible assumption | with_reducible apply forAll_keeps | with_reducible apply forAll_keeps
      | with_reducible apply bpWriteBack_keeps | (refine bpWriteBack_keepsE ?_ (by with_reducible assumption))
      | with_reducible apply ite_keeps | (with_reducible intro _) | simp only [mk_keeps] | simp only [mkSec_keeps] | split

theorem bvLdr_keeps (d : Stack) (c : CoreIx) (j w : Nat) (hk : Keeps z s) : Keeps z (bvLdr d c j w s) := by
  unfold bvLdr
  try dsimp only
  repeat' first
      | with_reducible assumption | (with_reducible refine foldl_keeps (Keeps z) _ _ _ (fun _ _ _ => ?_) ?_)
      | (with_reducible refine foldr_keeps (Keeps z) _ _ _ (fun _ _ _ => ?_) ?_) | with_reducible apply foldl_keeps2
      | with_reducible apply foldr_keeps2 | with_reducible apply foldl_keeps3 | with_reducible apply foldr_keeps3
      | with_reducible apply bpWriteBacks_keeps | with_reducible apply forAll_keeps | with_reducible apply bpLoad_keeps
      | (refine bpLoad_keepsE ?_ (by with_reducible assumption)) | with_reducible apply writeMem_keeps
      | with_reducible apply creditRow_keeps | with_reducible apply addAct_keeps | with_reducible apply updBp_keeps
      | with_reducible apply bpTrapAt_keeps | with_reducible apply ite_keeps | (with_reducible intro _) | simp only [mk_keeps]
      | simp only [mkSec_keeps] | split

theorem bvStr_keeps (d : Stack) (c : CoreIx) (j w : Nat) (hk : Keeps z s) : Keeps z (bvStr d c j w s) := by
  unfold bvStr
  try dsimp only
  repeat' first
      | with_reducible assumption | (with_reducible refine foldl_keeps (Keeps z) _ _ _ (fun _ _ _ => ?_) ?_)
      | (with_reducible refine foldr_keeps (Keeps z) _ _ _ (fun _ _ _ => ?_) ?_) | with_reducible apply foldl_keeps2
      | with_reducible apply foldr_keeps2 | with_reducible apply foldl_keeps3 | with_reducible apply foldr_keeps3
      | with_reducible apply forAll_keeps | with_reducible apply bpStore_keeps | with_reducible apply creditRow_keeps
      | with_reducible apply addAct_keeps | with_reducible apply updBp_keeps | with_reducible apply bpTrapAt_keeps
      | with_reducible apply ite_keeps | (with_reducible intro _) | simp only [mk_keeps] | simp only [mkSec_keeps] | split

theorem bvStp_keeps (d : Stack) (c : CoreIx) (j w : Nat) (hk : Keeps z s) : Keeps z (bvStp d c j w s) := by
  unfold bvStp
  try dsimp only
  repeat' first
      | with_reducible assumption | with_reducible apply bpWriteBack_keeps
      | (refine bpWriteBack_keepsE ?_ (by with_reducible assumption)) | with_reducible apply updBp_keeps
      | with_reducible apply bpTrapAt_keeps | with_reducible apply ite_keeps | (with_reducible intro _) | simp only [mk_keeps]
      | simp only [mkSec_keeps] | split

theorem bvCpy_keeps (d : Stack) (c : CoreIx) (j w : Nat) (hk : Keeps z s) : Keeps z (bvCpy d c j w s) := by
  unfold bvCpy
  try dsimp only
  repeat' first
      | with_reducible assumption | (with_reducible refine foldl_keeps (Keeps z) _ _ _ (fun _ _ _ => ?_) ?_)
      | (with_reducible refine foldr_keeps (Keeps z) _ _ _ (fun _ _ _ => ?_) ?_) | with_reducible apply foldl_keeps2
      | with_reducible apply foldr_keeps2 | with_reducible apply foldl_keeps3 | with_reducible apply foldr_keeps3
      | with_reducible apply bpWriteBacks_keeps | with_reducible apply updBp_keeps | with_reducible apply bpLoad_keeps
      | (refine bpLoad_keepsE ?_ (by with_reducible assumption)) | with_reducible apply forAll_keeps
      | with_reducible apply bpStore_keeps | with_reducible apply creditRow_keeps | with_reducible apply addAct_keeps
      | with_reducible apply bpTrapAt_keeps | with_reducible apply ite_keeps | (with_reducible intro _) | simp only [mk_keeps]
      | simp only [mkSec_keeps] | split

theorem bvFence_keeps (d : Stack) (c : CoreIx) (j : Nat) (halt : Bool) (hk : Keeps z s) : Keeps z (bvFence d c j halt s) := by
  unfold bvFence
  try dsimp only
  repeat' first
      | with_reducible assumption | with_reducible apply bpWriteBacks_keeps | with_reducible apply updBp_keeps
      | with_reducible apply ite_keeps | (with_reducible intro _) | simp only [mk_keeps] | simp only [mkSec_keeps] | split

theorem bpMergeTimeout_keeps (d : Stack) (c : CoreIx) (j : Nat) (hk : Keeps z s) : Keeps z (bpMergeTimeout d c j s) := by
  unfold bpMergeTimeout
  try dsimp only
  repeat' first
      | with_reducible assumption | with_reducible apply bpWriteBack_keeps
      | (refine bpWriteBack_keepsE ?_ (by with_reducible assumption)) | with_reducible apply ite_keeps
      | (with_reducible intro _) | simp only [mk_keeps] | simp only [mkSec_keeps] | split

theorem bpParity_keeps (d : Stack) (c : CoreIx) (j : Nat) (parity : Bool) (hk : Keeps z s) : Keeps z (bpParity d c j parity s)
    := by
  unfold bpParity
  try dsimp only
  repeat' first
      | with_reducible assumption | with_reducible apply poisonStep_keeps | with_reducible apply recordErr_keeps
      | with_reducible apply ite_keeps | (with_reducible intro _) | simp only [mk_keeps] | simp only [mkSec_keeps] | split

theorem bpCustomRun_keeps (d : Stack) (c : CoreIx) (j : Nat) (o : BpOp) (w : Nat) (hk : Keeps z s) : Keeps z (bpCustomRun d c
    j o w s) := by
  unfold bpCustomRun
  try dsimp only
  repeat' first
      | with_reducible assumption | with_reducible apply bvLdr_keeps | with_reducible apply bvStr_keeps
      | with_reducible apply bvStp_keeps | with_reducible apply bvCpy_keeps | with_reducible apply bvFence_keeps
      | with_reducible apply bpVector_keeps | with_reducible apply ite_keeps | (with_reducible intro _) | simp only [mk_keeps]
      | simp only [mkSec_keeps] | split

theorem bpCustom_keeps (d : Stack) (c : CoreIx) (j : Nat) (o : BpOp) (parity : Bool) (hk : Keeps z s) : Keeps z (bpCustom d c
    j o parity s) := by
  unfold bpCustom
  try dsimp only
  repeat' first
      | with_reducible assumption | with_reducible apply bpParity_keeps | with_reducible apply bpCustomRun_keeps
      | with_reducible apply ite_keeps | (with_reducible intro _) | simp only [mk_keeps] | simp only [mkSec_keeps] | split

theorem bpScalarRow_keeps (d : Stack) (c : CoreIx) (j : Nat) (ue parity : Bool) (hk : Keeps z s) : Keeps z (bpScalarRow d c j
    ue parity s) := by
  unfold bpScalarRow
  try dsimp only
  repeat' first
      | with_reducible assumption | with_reducible apply bpTrap_keeps | with_reducible apply bpParity_keeps
      | with_reducible apply bpScalar_keeps | with_reducible apply ite_keeps | (with_reducible intro _) | simp only [mk_keeps]
      | simp only [mkSec_keeps] | split

theorem bpStop_keeps (d : Stack) (c : CoreIx) (j : Nat) (hk : Keeps z s) : Keeps z (bpStop d c j s) := by
  unfold bpStop
  try dsimp only
  repeat' first
      | with_reducible assumption | with_reducible apply bpTrap_keeps | with_reducible apply ite_keeps
      | (with_reducible intro _) | simp only [mk_keeps] | simp only [mkSec_keeps] | split

end Sys2Proof.Machine
end

