-- ==== Sys2Proof/Laws/KeepsCoreCmds.lean ====
section
/-! SUPPORT. What the definitions of CoreCmds.lean keep. -/
namespace Sys2Proof.Machine

variable {z s : State}

theorem gateCheck_keeps (d : Stack) (c : CoreIx) (hk : Keeps z s) : Keeps z (gateCheck d c s) := by
  unfold gateCheck
  try dsimp only
  repeat' first
      | with_reducible assumption | with_reducible apply floodAbort_keeps | with_reducible apply updCore_keeps
      | with_reducible apply ite_keeps | (with_reducible intro _) | simp only [mk_keeps] | simp only [mkSec_keeps] | split

theorem coreError_keeps (d : Stack) (c : CoreIx) (st : Station) (unit kind : Nat) (hk : Keeps z s) : Keeps z
    (coreError d c st unit kind s) := by
  unfold coreError
  try dsimp only
  repeat' first
      | with_reducible assumption | with_reducible apply poisonStep_keeps | with_reducible apply recordErr_keeps
      | with_reducible apply ite_keeps | (with_reducible intro _) | simp only [mk_keeps] | simp only [mkSec_keeps] | split

theorem issueWith_keeps (d : Stack) (c : CoreIx) (row : WordRow → Bool) (errs : List (Station × Nat × Nat)) (ups : List Upsets)
    (hk : Keeps z s) : Keeps z (issueWith d c row errs ups s) := by
  unfold issueWith
  exact gateCheck_keeps _ _ (issueRow_keeps _ _ _ _ (fun _ h => forAll_keeps _ _ (fun _ _ h => coreError_keeps _ _ _ _ _ h) h) hk)

theorem issueKind_keeps (d : Stack) (c : CoreIx) (row : WordRow → Bool) (bad : Bool) (unit kind : Nat) (hk : Keeps z s) :
    Keeps z (issueKind d c row bad unit kind s) := by
  unfold issueKind
  try dsimp only
  repeat' first
      | with_reducible assumption | with_reducible apply issueWith_keeps | with_reducible apply ite_keeps
      | (with_reducible intro _) | simp only [mk_keeps] | simp only [mkSec_keeps] | split

theorem headCheck_keeps (d : Stack) (heads : List CoreIx) (s : State) {t : State} (hk : Keeps z t) : Keeps z (headCheck d
    heads s t) := by
  unfold headCheck
  try dsimp only
  repeat' first
      | with_reducible assumption | with_reducible apply forAll_keeps | with_reducible apply gateCheck_keeps
      | with_reducible apply coreError_keeps | with_reducible apply ite_keeps | (with_reducible intro _)
      | simp only [mk_keeps] | simp only [mkSec_keeps] | split

theorem issueSfuOp_keeps (d : Stack) (c : CoreIx) (op : Nat) (bad : Bool) (hk : Keeps z s) : Keeps z
    (issueSfuOp d c op bad s) := by
  unfold issueSfuOp
  try dsimp only
  repeat' first
      | with_reducible assumption | with_reducible apply issueKind_keeps | with_reducible apply ite_keeps
      | (with_reducible intro _) | simp only [mk_keeps] | simp only [mkSec_keeps] | split

theorem execLaunch_keeps {d : Stack} {parityOk : Bool} {s₁ : State} (hk : Keeps z s) (e :
    execLaunch d parityOk s = .next s₁) : Keeps z s₁ := by
  unfold execLaunch at e
  with_reducible refine done_keeps ?_ e
  repeat' first
      | with_reducible assumption | with_reducible apply launchArrive_keeps | with_reducible apply ite_keeps
      | (with_reducible intro _) | simp only [mk_keeps] | simp only [mkSec_keeps] | split

theorem execLaunchElastic_keeps {d : Stack} {parityOk : Bool} {heads : List CoreIx} {s₁ : State} (hk : Keeps z s) (e :
    execLaunchElastic d parityOk heads s = .next s₁) : Keeps z s₁ := by
  unfold execLaunchElastic at e
  with_reducible refine done_keeps ?_ e
  repeat' first
      | with_reducible assumption | with_reducible apply headCheck_keeps | with_reducible apply elasticStarts_keeps
      | with_reducible apply launchArrive_keeps | with_reducible apply ite_keeps | (with_reducible intro _)
      | simp only [mk_keeps] | simp only [mkSec_keeps] | split

theorem execThunderCountExpiry_keeps {d : Stack} {c : CoreIx} {gap : Nat} {parity : Bool} {s₁ : State} (hk : Keeps z s) (e :
    execThunderCountExpiry d c gap parity s = .next s₁) : Keeps z s₁ := by
  unfold execThunderCountExpiry at e
  try dsimp only at e
  repeat' split at e
  all_goals first
      | with_reducible refine done_keeps ?_ e | (injection e with e; subst e) | cases e
  all_goals (repeat' first
      | with_reducible assumption | with_reducible apply headCheck_keeps | with_reducible apply beginStep_keeps
      | with_reducible apply stepClosed_keeps | with_reducible apply gateCheck_keeps | with_reducible apply coreStepEnd_keeps
      | with_reducible apply ite_keeps | (with_reducible intro _) | simp only [mk_keeps] | simp only [mkSec_keeps] | split)

theorem execFetchSlot_keeps {d : Stack} {c : CoreIx} {upsets : Upsets} {s₁ : State} (hk : Keeps z s) (e :
    execFetchSlot d c upsets s = .next s₁) : Keeps z s₁ := by
  unfold execFetchSlot at e
  with_reducible refine done_keeps ?_ e
  repeat' first
      | with_reducible assumption | with_reducible apply gateCheck_keeps | with_reducible apply fetchSlot_keeps
      | with_reducible apply ite_keeps | (with_reducible intro _) | simp only [mk_keeps] | simp only [mkSec_keeps] | split

theorem execFetchWordsReady_keeps {d : Stack} {c : CoreIx} {s₁ : State} (hk : Keeps z s) (e :
    execFetchWordsReady d c s = .next s₁) : Keeps z s₁ := by
  unfold execFetchWordsReady at e
  with_reducible refine done_keeps ?_ e
  repeat' first
      | with_reducible assumption | with_reducible apply gateCheck_keeps | with_reducible apply runUntil_keeps
      | with_reducible apply ite_keeps | (with_reducible intro _) | simp only [mk_keeps] | simp only [mkSec_keeps] | split

theorem execMacBlockUpdate_keeps {d : Stack} {c : CoreIx} {bad : Option (Fin 16)} {s₁ : State} (hk : Keeps z s) (e :
    execMacBlockUpdate d c bad s = .next s₁) : Keeps z s₁ := by
  unfold execMacBlockUpdate at e
  try dsimp only at e
  repeat' split at e
  all_goals first | with_reducible refine done_keeps ?_ e | with_reducible refine done_keeps ?_ e
  all_goals (repeat' first
      | with_reducible assumption | with_reducible apply runUntil_keeps | with_reducible apply gateCheck_keeps
      | with_reducible apply coreError_keeps | with_reducible apply ite_keeps | (with_reducible intro _)
      | simp only [mk_keeps] | simp only [mkSec_keeps] | split)

theorem execOploadComplete_keeps {d : Stack} {c : CoreIx} {s₁ : State} (hk : Keeps z s) (e :
    execOploadComplete d c s = .next s₁) : Keeps z s₁ := by
  unfold execOploadComplete at e
  with_reducible refine done_keeps ?_ e
  repeat' first
      | with_reducible assumption | with_reducible apply gateCheck_keeps | with_reducible apply runUntil_keeps
      | with_reducible apply ite_keeps | (with_reducible intro _) | simp only [mk_keeps] | simp only [mkSec_keeps] | split

theorem execVaultReadBeat_keeps {d : Stack} {c : CoreIx} {upsets : Upsets} {s₁ : State} (hk : Keeps z s) (e :
    execVaultReadBeat d c upsets s = .next s₁) : Keeps z s₁ := by
  unfold execVaultReadBeat at e
  with_reducible refine done_keeps ?_ e
  repeat' first
      | with_reducible assumption | with_reducible apply gateCheck_keeps | with_reducible apply runUntil_keeps
      | with_reducible apply ite_keeps | (with_reducible intro _) | simp only [mk_keeps] | simp only [mkSec_keeps] | split

theorem execStepEndOffset_keeps {d : Stack} {len : Nat} {heads : List CoreIx} {s₁ : State} (hk : Keeps z s) (e :
    execStepEndOffset d len heads s = .next s₁) : Keeps z s₁ := by
  unfold execStepEndOffset at e
  with_reducible refine done_keeps ?_ e
  repeat' first
      | with_reducible assumption | with_reducible apply headCheck_keeps | with_reducible apply elasticStarts_keeps
      | with_reducible apply forAll_keeps | with_reducible apply stepClosed_keeps | with_reducible apply gateCheck_keeps
      | with_reducible apply stepEnd_keeps | with_reducible apply ite_keeps | (with_reducible intro _) | simp only [mk_keeps]
      | simp only [mkSec_keeps] | split

theorem execTileInitDone_keeps {d : Stack} {c : CoreIx} {s₁ : State} (hk : Keeps z s) (e :
    execTileInitDone d c s = .next s₁) : Keeps z s₁ := by
  unfold execTileInitDone at e
  try dsimp only at e
  repeat' split at e
  all_goals first | with_reducible refine done_keeps ?_ e | with_reducible refine done_keeps ?_ e
  all_goals (repeat' first
      | with_reducible assumption | with_reducible apply putF_keeps | with_reducible apply updCore_keeps
      | with_reducible apply ite_keeps | (with_reducible intro _) | simp only [mk_keeps] | simp only [mkSec_keeps] | split)

theorem execRecv_keeps {d : Stack} {c : CoreIx} {gate : Bool} {s₁ : State} (hk : Keeps z s) (e : execRecv d c gate s = .next s₁) :
    Keeps z s₁ := by
  unfold execRecv at e
  refine done_keeps (gateCheck_keeps _ _ (issueRow_keeps _ _ _ _ (fun _ h => ?_) hk)) e
  split
  · exact updCore_keeps _ _ _ h
  · exact h

theorem execNop_keeps {d : Stack} {c : CoreIx} {s₁ : State} (hk : Keeps z s) (e : execNop d c s = .next s₁) : Keeps z s₁ := by
  unfold execNop at e
  with_reducible refine done_keeps ?_ e
  repeat' first
      | with_reducible assumption | with_reducible apply issueKind_keeps | with_reducible apply ite_keeps
      | (with_reducible intro _) | simp only [mk_keeps] | simp only [mkSec_keeps] | split

theorem execMac_keeps {d : Stack} {c : CoreIx} {parity : Bool} {sets : Option (Fin 4)} {s₁ : State} (hk : Keeps z s) (e :
    execMac d c parity sets s = .next s₁) : Keeps z s₁ := by
  unfold execMac at e
  with_reducible refine done_keeps ?_ e
  repeat' first
      | with_reducible assumption | with_reducible apply issueWith_keeps | with_reducible apply ite_keeps
      | (with_reducible intro _) | simp only [mk_keeps] | simp only [mkSec_keeps] | split

theorem execOpload_keeps {d : Stack} {c : CoreIx} {parity : Bool} {s₁ : State} (hk : Keeps z s) (e :
    execOpload d c parity s = .next s₁) : Keeps z s₁ := by
  unfold execOpload at e
  with_reducible refine done_keeps ?_ e
  repeat' first
      | with_reducible assumption | with_reducible apply issueKind_keeps | with_reducible apply ite_keeps
      | (with_reducible intro _) | simp only [mk_keeps] | simp only [mkSec_keeps] | split

theorem execSwap_keeps {d : Stack} {c : CoreIx} {s₁ : State} (hk : Keeps z s) (e : execSwap d c s = .next s₁) :
    Keeps z s₁ := by
  unfold execSwap at e
  with_reducible refine done_keeps ?_ e
  repeat' first
      | with_reducible assumption | with_reducible apply issueKind_keeps | with_reducible apply ite_keeps
      | (with_reducible intro _) | simp only [mk_keeps] | simp only [mkSec_keeps] | split

theorem execDrain_keeps {d : Stack} {c : CoreIx} {parity check : Bool} {s₁ : State} (hk : Keeps z s) (e : execDrain d c parity
    check s = .next s₁) : Keeps z s₁ := by
  unfold execDrain at e
  try dsimp only at e
  repeat' split at e
  all_goals first
      | with_reducible refine done_keeps ?_ e | (injection e with e; subst e) | cases e
  all_goals (repeat' first
      | with_reducible assumption | with_reducible apply issueKind_keeps | with_reducible apply ite_keeps
      | (with_reducible intro _) | simp only [mk_keeps] | simp only [mkSec_keeps] | split)

theorem execAccld_keeps {d : Stack} {c : CoreIx} {parity : Bool} {s₁ : State} (hk : Keeps z s) (e :
    execAccld d c parity s = .next s₁) : Keeps z s₁ := by
  unfold execAccld at e
  with_reducible refine done_keeps ?_ e
  repeat' first
      | with_reducible assumption | with_reducible apply issueKind_keeps | with_reducible apply ite_keeps
      | (with_reducible intro _) | simp only [mk_keeps] | simp only [mkSec_keeps] | split

theorem execVdma_keeps {d : Stack} {c : CoreIx} {parity : Bool} {upsets : List Upsets} {s₁ : State} (hk : Keeps z s) (e :
    execVdma d c parity upsets s = .next s₁) : Keeps z s₁ := by
  unfold execVdma at e
  with_reducible refine done_keeps ?_ e
  repeat' first
      | with_reducible assumption | with_reducible apply issueWith_keeps | with_reducible apply ite_keeps
      | (with_reducible intro _) | simp only [mk_keeps] | simp only [mkSec_keeps] | split

theorem execEndWord_keeps {d : Stack} {c : CoreIx} {s₁ : State} (hk : Keeps z s) (e : execEndWord d c s = .next s₁) :
    Keeps z s₁ := by
  unfold execEndWord at e
  with_reducible refine done_keeps ?_ e
  repeat' first
      | with_reducible assumption | with_reducible apply issueKind_keeps | with_reducible apply ite_keeps
      | (with_reducible intro _) | simp only [mk_keeps] | simp only [mkSec_keeps] | split

theorem execRoute_keeps {d : Stack} {c : CoreIx} {s₁ : State} (hk : Keeps z s) (e : execRoute d c s = .next s₁) :
    Keeps z s₁ := by
  unfold execRoute at e
  with_reducible refine done_keeps ?_ e
  repeat' first
      | with_reducible assumption | with_reducible apply issueKind_keeps | with_reducible apply ite_keeps
      | (with_reducible intro _) | simp only [mk_keeps] | simp only [mkSec_keeps] | split

theorem execSend_keeps {d : Stack} {c : CoreIx} {parity : Bool} {s₁ : State} (hk : Keeps z s) (e :
    execSend d c parity s = .next s₁) : Keeps z s₁ := by
  unfold execSend at e
  with_reducible refine done_keeps ?_ e
  repeat' first
      | with_reducible assumption | with_reducible apply issueKind_keeps | with_reducible apply ite_keeps
      | (with_reducible intro _) | simp only [mk_keeps] | simp only [mkSec_keeps] | split

theorem execRsend_keeps {d : Stack} {c : CoreIx} {parity : Bool} {s₁ : State} (hk : Keeps z s) (e :
    execRsend d c parity s = .next s₁) : Keeps z s₁ := by
  unfold execRsend at e
  with_reducible refine done_keeps ?_ e
  repeat' first
      | with_reducible assumption | with_reducible apply issueKind_keeps | with_reducible apply ite_keeps
      | (with_reducible intro _) | simp only [mk_keeps] | simp only [mkSec_keeps] | split

theorem execBpStart_keeps {d : Stack} {c : CoreIx} {s₁ : State} (hk : Keeps z s) (e : execBpStart d c s = .next s₁) :
    Keeps z s₁ := by
  unfold execBpStart at e
  with_reducible refine done_keeps ?_ e
  repeat' first
      | with_reducible assumption | with_reducible apply issueKind_keeps | with_reducible apply ite_keeps
      | (with_reducible intro _) | simp only [mk_keeps] | simp only [mkSec_keeps] | split

theorem execBpRelease_keeps {d : Stack} {c : CoreIx} {s₁ : State} (hk : Keeps z s) (e : execBpRelease d c s = .next s₁) :
    Keeps z s₁ := by
  unfold execBpRelease at e
  with_reducible refine done_keeps ?_ e
  repeat' first
      | with_reducible assumption | with_reducible apply issueKind_keeps | with_reducible apply ite_keeps
      | (with_reducible intro _) | simp only [mk_keeps] | simp only [mkSec_keeps] | split

theorem execLdmaRead_keeps {d : Stack} {c : CoreIx} {upsets : List Upsets} {s₁ : State} (hk : Keeps z s) (e : execLdmaRead d c
    upsets s = .next s₁) : Keeps z s₁ := by
  unfold execLdmaRead at e
  with_reducible refine done_keeps ?_ e
  repeat' first
      | with_reducible assumption | with_reducible apply issueWith_keeps | with_reducible apply ite_keeps
      | (with_reducible intro _) | simp only [mk_keeps] | simp only [mkSec_keeps] | split

theorem execLdmaWrite_keeps {d : Stack} {c : CoreIx} {parity : Bool} {s₁ : State} (hk : Keeps z s) (e : execLdmaWrite d c
    parity s = .next s₁) : Keeps z s₁ := by
  unfold execLdmaWrite at e
  with_reducible refine done_keeps ?_ e
  repeat' first
      | with_reducible assumption | with_reducible apply issueWith_keeps | with_reducible apply ite_keeps
      | (with_reducible intro _) | simp only [mk_keeps] | simp only [mkSec_keeps] | split

theorem execLdmaGather_keeps {d : Stack} {c : CoreIx} {parity : Bool} {upsets : List Upsets} {s₁ : State} (hk : Keeps z s) (e
    : execLdmaGather d c parity upsets s = .next s₁) : Keeps z s₁ := by
  unfold execLdmaGather at e
  with_reducible refine done_keeps ?_ e
  repeat' first
      | with_reducible assumption | with_reducible apply issueWith_keeps | with_reducible apply ite_keeps
      | (with_reducible intro _) | simp only [mk_keeps] | simp only [mkSec_keeps] | split

theorem execConvert_keeps {d : Stack} {c : CoreIx} {check : Bool} {s₁ : State} (hk : Keeps z s) (e :
    execConvert d c check s = .next s₁) : Keeps z s₁ := by
  unfold execConvert at e
  with_reducible refine done_keeps ?_ e
  repeat' first
      | with_reducible assumption | with_reducible apply issueSfuOp_keeps | with_reducible apply ite_keeps
      | (with_reducible intro _) | simp only [mk_keeps] | simp only [mkSec_keeps] | split

theorem execAdd_keeps {d : Stack} {c : CoreIx} {check : Bool} {s₁ : State} (hk : Keeps z s) (e :
    execAdd d c check s = .next s₁) : Keeps z s₁ := by
  unfold execAdd at e
  with_reducible refine done_keeps ?_ e
  repeat' first
      | with_reducible assumption | with_reducible apply issueSfuOp_keeps | with_reducible apply ite_keeps
      | (with_reducible intro _) | simp only [mk_keeps] | simp only [mkSec_keeps] | split

theorem execSub_keeps {d : Stack} {c : CoreIx} {check : Bool} {s₁ : State} (hk : Keeps z s) (e :
    execSub d c check s = .next s₁) : Keeps z s₁ := by
  unfold execSub at e
  with_reducible refine done_keeps ?_ e
  repeat' first
      | with_reducible assumption | with_reducible apply issueSfuOp_keeps | with_reducible apply ite_keeps
      | (with_reducible intro _) | simp only [mk_keeps] | simp only [mkSec_keeps] | split

theorem execMul_keeps {d : Stack} {c : CoreIx} {check : Bool} {s₁ : State} (hk : Keeps z s) (e :
    execMul d c check s = .next s₁) : Keeps z s₁ := by
  unfold execMul at e
  with_reducible refine done_keeps ?_ e
  repeat' first
      | with_reducible assumption | with_reducible apply issueSfuOp_keeps | with_reducible apply ite_keeps
      | (with_reducible intro _) | simp only [mk_keeps] | simp only [mkSec_keeps] | split

theorem execMuladd_keeps {d : Stack} {c : CoreIx} {check : Bool} {s₁ : State} (hk : Keeps z s) (e :
    execMuladd d c check s = .next s₁) : Keeps z s₁ := by
  unfold execMuladd at e
  with_reducible refine done_keeps ?_ e
  repeat' first
      | with_reducible assumption | with_reducible apply issueSfuOp_keeps | with_reducible apply ite_keeps
      | (with_reducible intro _) | simp only [mk_keeps] | simp only [mkSec_keeps] | split

theorem execMax_keeps {d : Stack} {c : CoreIx} {check : Bool} {s₁ : State} (hk : Keeps z s) (e :
    execMax d c check s = .next s₁) : Keeps z s₁ := by
  unfold execMax at e
  with_reducible refine done_keeps ?_ e
  repeat' first
      | with_reducible assumption | with_reducible apply issueSfuOp_keeps | with_reducible apply ite_keeps
      | (with_reducible intro _) | simp only [mk_keeps] | simp only [mkSec_keeps] | split

theorem execMin_keeps {d : Stack} {c : CoreIx} {check : Bool} {s₁ : State} (hk : Keeps z s) (e :
    execMin d c check s = .next s₁) : Keeps z s₁ := by
  unfold execMin at e
  with_reducible refine done_keeps ?_ e
  repeat' first
      | with_reducible assumption | with_reducible apply issueSfuOp_keeps | with_reducible apply ite_keeps
      | (with_reducible intro _) | simp only [mk_keeps] | simp only [mkSec_keeps] | split

theorem execRelu_keeps {d : Stack} {c : CoreIx} {check : Bool} {s₁ : State} (hk : Keeps z s) (e :
    execRelu d c check s = .next s₁) : Keeps z s₁ := by
  unfold execRelu at e
  with_reducible refine done_keeps ?_ e
  repeat' first
      | with_reducible assumption | with_reducible apply issueSfuOp_keeps | with_reducible apply ite_keeps
      | (with_reducible intro _) | simp only [mk_keeps] | simp only [mkSec_keeps] | split

theorem execExp_keeps {d : Stack} {c : CoreIx} {check : Bool} {s₁ : State} (hk : Keeps z s) (e :
    execExp d c check s = .next s₁) : Keeps z s₁ := by
  unfold execExp at e
  with_reducible refine done_keeps ?_ e
  repeat' first
      | with_reducible assumption | with_reducible apply issueSfuOp_keeps | with_reducible apply ite_keeps
      | (with_reducible intro _) | simp only [mk_keeps] | simp only [mkSec_keeps] | split

theorem execExp2_keeps {d : Stack} {c : CoreIx} {check : Bool} {s₁ : State} (hk : Keeps z s) (e :
    execExp2 d c check s = .next s₁) : Keeps z s₁ := by
  unfold execExp2 at e
  with_reducible refine done_keeps ?_ e
  repeat' first
      | with_reducible assumption | with_reducible apply issueSfuOp_keeps | with_reducible apply ite_keeps
      | (with_reducible intro _) | simp only [mk_keeps] | simp only [mkSec_keeps] | split

theorem execLog_keeps {d : Stack} {c : CoreIx} {check : Bool} {s₁ : State} (hk : Keeps z s) (e :
    execLog d c check s = .next s₁) : Keeps z s₁ := by
  unfold execLog at e
  with_reducible refine done_keeps ?_ e
  repeat' first
      | with_reducible assumption | with_reducible apply issueSfuOp_keeps | with_reducible apply ite_keeps
      | (with_reducible intro _) | simp only [mk_keeps] | simp only [mkSec_keeps] | split

theorem execLog2_keeps {d : Stack} {c : CoreIx} {check : Bool} {s₁ : State} (hk : Keeps z s) (e :
    execLog2 d c check s = .next s₁) : Keeps z s₁ := by
  unfold execLog2 at e
  with_reducible refine done_keeps ?_ e
  repeat' first
      | with_reducible assumption | with_reducible apply issueSfuOp_keeps | with_reducible apply ite_keeps
      | (with_reducible intro _) | simp only [mk_keeps] | simp only [mkSec_keeps] | split

theorem execRcp_keeps {d : Stack} {c : CoreIx} {check : Bool} {s₁ : State} (hk : Keeps z s) (e :
    execRcp d c check s = .next s₁) : Keeps z s₁ := by
  unfold execRcp at e
  with_reducible refine done_keeps ?_ e
  repeat' first
      | with_reducible assumption | with_reducible apply issueSfuOp_keeps | with_reducible apply ite_keeps
      | (with_reducible intro _) | simp only [mk_keeps] | simp only [mkSec_keeps] | split

theorem execRsqrt_keeps {d : Stack} {c : CoreIx} {check : Bool} {s₁ : State} (hk : Keeps z s) (e :
    execRsqrt d c check s = .next s₁) : Keeps z s₁ := by
  unfold execRsqrt at e
  with_reducible refine done_keeps ?_ e
  repeat' first
      | with_reducible assumption | with_reducible apply issueSfuOp_keeps | with_reducible apply ite_keeps
      | (with_reducible intro _) | simp only [mk_keeps] | simp only [mkSec_keeps] | split

theorem execSqrt_keeps {d : Stack} {c : CoreIx} {check : Bool} {s₁ : State} (hk : Keeps z s) (e :
    execSqrt d c check s = .next s₁) : Keeps z s₁ := by
  unfold execSqrt at e
  with_reducible refine done_keeps ?_ e
  repeat' first
      | with_reducible assumption | with_reducible apply issueSfuOp_keeps | with_reducible apply ite_keeps
      | (with_reducible intro _) | simp only [mk_keeps] | simp only [mkSec_keeps] | split

theorem execSigmoid_keeps {d : Stack} {c : CoreIx} {check : Bool} {s₁ : State} (hk : Keeps z s) (e :
    execSigmoid d c check s = .next s₁) : Keeps z s₁ := by
  unfold execSigmoid at e
  with_reducible refine done_keeps ?_ e
  repeat' first
      | with_reducible assumption | with_reducible apply issueSfuOp_keeps | with_reducible apply ite_keeps
      | (with_reducible intro _) | simp only [mk_keeps] | simp only [mkSec_keeps] | split

theorem execTanh_keeps {d : Stack} {c : CoreIx} {check : Bool} {s₁ : State} (hk : Keeps z s) (e :
    execTanh d c check s = .next s₁) : Keeps z s₁ := by
  unfold execTanh at e
  with_reducible refine done_keeps ?_ e
  repeat' first
      | with_reducible assumption | with_reducible apply issueSfuOp_keeps | with_reducible apply ite_keeps
      | (with_reducible intro _) | simp only [mk_keeps] | simp only [mkSec_keeps] | split

theorem execSilu_keeps {d : Stack} {c : CoreIx} {check : Bool} {s₁ : State} (hk : Keeps z s) (e :
    execSilu d c check s = .next s₁) : Keeps z s₁ := by
  unfold execSilu at e
  with_reducible refine done_keeps ?_ e
  repeat' first
      | with_reducible assumption | with_reducible apply issueSfuOp_keeps | with_reducible apply ite_keeps
      | (with_reducible intro _) | simp only [mk_keeps] | simp only [mkSec_keeps] | split

theorem execGelu_keeps {d : Stack} {c : CoreIx} {check : Bool} {s₁ : State} (hk : Keeps z s) (e :
    execGelu d c check s = .next s₁) : Keeps z s₁ := by
  unfold execGelu at e
  with_reducible refine done_keeps ?_ e
  repeat' first
      | with_reducible assumption | with_reducible apply issueSfuOp_keeps | with_reducible apply ite_keeps
      | (with_reducible intro _) | simp only [mk_keeps] | simp only [mkSec_keeps] | split

theorem execSoftplus_keeps {d : Stack} {c : CoreIx} {check : Bool} {s₁ : State} (hk : Keeps z s) (e :
    execSoftplus d c check s = .next s₁) : Keeps z s₁ := by
  unfold execSoftplus at e
  with_reducible refine done_keeps ?_ e
  repeat' first
      | with_reducible assumption | with_reducible apply issueSfuOp_keeps | with_reducible apply ite_keeps
      | (with_reducible intro _) | simp only [mk_keeps] | simp only [mkSec_keeps] | split

theorem execSinpi_keeps {d : Stack} {c : CoreIx} {check : Bool} {s₁ : State} (hk : Keeps z s) (e :
    execSinpi d c check s = .next s₁) : Keeps z s₁ := by
  unfold execSinpi at e
  with_reducible refine done_keeps ?_ e
  repeat' first
      | with_reducible assumption | with_reducible apply issueSfuOp_keeps | with_reducible apply ite_keeps
      | (with_reducible intro _) | simp only [mk_keeps] | simp only [mkSec_keeps] | split

theorem execCospi_keeps {d : Stack} {c : CoreIx} {check : Bool} {s₁ : State} (hk : Keeps z s) (e :
    execCospi d c check s = .next s₁) : Keeps z s₁ := by
  unfold execCospi at e
  with_reducible refine done_keeps ?_ e
  repeat' first
      | with_reducible assumption | with_reducible apply issueSfuOp_keeps | with_reducible apply ite_keeps
      | (with_reducible intro _) | simp only [mk_keeps] | simp only [mkSec_keeps] | split

theorem execRsum_keeps {d : Stack} {c : CoreIx} {check : Bool} {s₁ : State} (hk : Keeps z s) (e :
    execRsum d c check s = .next s₁) : Keeps z s₁ := by
  unfold execRsum at e
  with_reducible refine done_keeps ?_ e
  repeat' first
      | with_reducible assumption | with_reducible apply issueSfuOp_keeps | with_reducible apply ite_keeps
      | (with_reducible intro _) | simp only [mk_keeps] | simp only [mkSec_keeps] | split

theorem execRsumsq_keeps {d : Stack} {c : CoreIx} {check : Bool} {s₁ : State} (hk : Keeps z s) (e :
    execRsumsq d c check s = .next s₁) : Keeps z s₁ := by
  unfold execRsumsq at e
  with_reducible refine done_keeps ?_ e
  repeat' first
      | with_reducible assumption | with_reducible apply issueSfuOp_keeps | with_reducible apply ite_keeps
      | (with_reducible intro _) | simp only [mk_keeps] | simp only [mkSec_keeps] | split

theorem execRmax_keeps {d : Stack} {c : CoreIx} {check : Bool} {s₁ : State} (hk : Keeps z s) (e :
    execRmax d c check s = .next s₁) : Keeps z s₁ := by
  unfold execRmax at e
  with_reducible refine done_keeps ?_ e
  repeat' first
      | with_reducible assumption | with_reducible apply issueSfuOp_keeps | with_reducible apply ite_keeps
      | (with_reducible intro _) | simp only [mk_keeps] | simp only [mkSec_keeps] | split

theorem execSoftmax_keeps {d : Stack} {c : CoreIx} {check : Bool} {s₁ : State} (hk : Keeps z s) (e :
    execSoftmax d c check s = .next s₁) : Keeps z s₁ := by
  unfold execSoftmax at e
  with_reducible refine done_keeps ?_ e
  repeat' first
      | with_reducible assumption | with_reducible apply issueSfuOp_keeps | with_reducible apply ite_keeps
      | (with_reducible intro _) | simp only [mk_keeps] | simp only [mkSec_keeps] | split

theorem execRmsnorm_keeps {d : Stack} {c : CoreIx} {check : Bool} {s₁ : State} (hk : Keeps z s) (e :
    execRmsnorm d c check s = .next s₁) : Keeps z s₁ := by
  unfold execRmsnorm at e
  with_reducible refine done_keeps ?_ e
  repeat' first
      | with_reducible assumption | with_reducible apply issueSfuOp_keeps | with_reducible apply ite_keeps
      | (with_reducible intro _) | simp only [mk_keeps] | simp only [mkSec_keeps] | split

theorem execLayernorm_keeps {d : Stack} {c : CoreIx} {check : Bool} {s₁ : State} (hk : Keeps z s) (e :
    execLayernorm d c check s = .next s₁) : Keeps z s₁ := by
  unfold execLayernorm at e
  with_reducible refine done_keeps ?_ e
  repeat' first
      | with_reducible assumption | with_reducible apply issueSfuOp_keeps | with_reducible apply ite_keeps
      | (with_reducible intro _) | simp only [mk_keeps] | simp only [mkSec_keeps] | split

theorem execSmerge_keeps {d : Stack} {c : CoreIx} {check : Bool} {s₁ : State} (hk : Keeps z s) (e :
    execSmerge d c check s = .next s₁) : Keeps z s₁ := by
  unfold execSmerge at e
  with_reducible refine done_keeps ?_ e
  repeat' first
      | with_reducible assumption | with_reducible apply issueSfuOp_keeps | with_reducible apply ite_keeps
      | (with_reducible intro _) | simp only [mk_keeps] | simp only [mkSec_keeps] | split

end Sys2Proof.Machine
end

