-- ==== Sys2Proof/Laws/KeepsFabricCmds.lean ====
section
/-! SUPPORT. What the definitions of FabricCmds.lean keep. -/
namespace Sys2Proof.Machine

variable {z s : State}

theorem execLinkBeatReceive_keeps {d : Stack} {p : Port} {flips : BitVec 1024} {crcFlip : Byte} {s₁ : State} (hk :
    Keeps z s) (e : execLinkBeatReceive d p flips crcFlip s = .next s₁) : Keeps z s₁ := by
  unfold execLinkBeatReceive at e
  with_reducible refine done_keeps ?_ e
  repeat' first
      | with_reducible assumption | with_reducible apply linkReceive_keeps | with_reducible apply ite_keeps
      | (with_reducible intro _) | simp only [mk_keeps] | simp only [mkSec_keeps] | split

theorem execLinkRetrainSegment_keeps {d : Stack} {p : Port} {here : WireTest} {there : WireTest} {s₁ : State} (hk :
    Keeps z s) (e : execLinkRetrainSegment d p here there s = .next s₁) : Keeps z s₁ := by
  unfold execLinkRetrainSegment at e
  with_reducible refine done_keeps ?_ e
  repeat' first
      | with_reducible assumption | with_reducible apply retrainPort_keeps | with_reducible apply ite_keeps
      | (with_reducible intro _) | simp only [mk_keeps] | simp only [mkSec_keeps] | split

theorem execRouteTakesEffect_keeps {d : Stack} {k : Cluster} {s₁ : State} (hk : Keeps z s) (e :
    execRouteTakesEffect d k s = .next s₁) : Keeps z s₁ := by
  unfold execRouteTakesEffect at e
  try dsimp only at e
  repeat' split at e
  all_goals first | with_reducible refine done_keeps ?_ e | with_reducible refine done_keeps ?_ e
  all_goals (repeat' first
      | with_reducible assumption | with_reducible apply routerSync_keeps | with_reducible apply ite_keeps
      | (with_reducible intro _) | simp only [mk_keeps] | simp only [mkSec_keeps] | split)

theorem execRouterInputBeat_keeps {d : Stack} {k : Cluster} {p : Fin 9} {off : Nat} {parity : Bool} {s₁ : State} (hk : Keeps z
    s) (e : execRouterInputBeat d k p off parity s = .next s₁) : Keeps z s₁ := by
  unfold execRouterInputBeat at e
  try dsimp only at e
  repeat' split at e
  all_goals first
      | with_reducible refine done_keeps ?_ e | (injection e with e; subst e) | cases e
  all_goals (repeat' first
      | with_reducible assumption | with_reducible apply inputBeat_keeps | with_reducible apply poisonDie_keeps
      | with_reducible apply recordErr_keeps | with_reducible apply ite_keeps | (with_reducible intro _)
      | simp only [mk_keeps] | simp only [mkSec_keeps] | split)

theorem execTransitSlot_keeps {d : Stack} {off : Nat} {s₁ : State} (hk : Keeps z s) (e : execTransitSlot d off s = .next s₁) :
    Keeps z s₁ := by
  unfold execTransitSlot at e
  try dsimp only at e
  repeat' split at e
  all_goals first
      | with_reducible refine done_keeps ?_ e | (injection e with e; subst e) | cases e
  all_goals (repeat' first
      | with_reducible assumption | with_reducible apply transitSlotNow_keeps | with_reducible apply ite_keeps
      | (with_reducible intro _) | simp only [mk_keeps] | simp only [mkSec_keeps] | split)

theorem sendXfer_keeps (entry : Stack) (x : Xfer) (hk : Keeps z s) : Keeps z (sendXfer entry x s) := by
  unfold sendXfer
  try dsimp only
  repeat' first
      | with_reducible assumption | with_reducible apply noteXferErr_keeps | with_reducible apply ite_keeps
      | (with_reducible intro _) | simp only [mk_keeps] | simp only [mkSec_keeps] | split

theorem execHubTransitTransfer_keeps {e : Stack} {write : Bool} {addr : Nat} {len : Nat} {data : Nat} {owner : Nat} {page :
    Bool} {s₁ : State} (hk : Keeps z s) (e : execHubTransitTransfer e write addr len data owner page s = .next s₁) : Keeps z s₁ := by
  unfold execHubTransitTransfer at e
  try dsimp only at e
  repeat' split at e
  all_goals first | with_reducible refine done_keeps ?_ e | with_reducible refine done_keeps ?_ e
  all_goals (repeat' first
      | with_reducible assumption | with_reducible apply sendXfer_keeps | with_reducible apply updHub_keeps
      | with_reducible apply ite_keeps | (with_reducible intro _) | simp only [mk_keeps] | simp only [mkSec_keeps] | split)

theorem dropAnswer_keeps (x : Xfer) (hk : Keeps z s) : Keeps z (dropAnswer x s) := by
  unfold dropAnswer
  try dsimp only
  repeat' first
      | with_reducible assumption | with_reducible apply updVc_keeps | with_reducible apply updLp_keeps
      | with_reducible apply ite_keeps | (with_reducible intro _) | simp only [mk_keeps] | simp only [mkSec_keeps] | split

theorem updCam_keeps (f : Camner → Camner) (hk : Keeps z s) : Keeps z (updCam f s) := by
  unfold updCam
  try dsimp only
  repeat' first
      | with_reducible assumption | with_reducible apply ite_keeps | (with_reducible intro _) | simp only [mk_keeps]
      | simp only [mkSec_keeps] | split

theorem winAnswer_keeps (op tag status len data : Nat) (hk : Keeps z s) : Keeps z (winAnswer op tag status len data s) := by
  unfold winAnswer
  try dsimp only
  repeat' first
      | with_reducible assumption | with_reducible apply updCam_keeps | with_reducible apply ite_keeps
      | (with_reducible intro _) | simp only [mk_keeps] | simp only [mkSec_keeps] | split

theorem answerWin_keeps (id : Nat) (ok : Bool) (data : Nat) (hk : Keeps z s) : Keeps z (answerWin id ok data s) := by
  unfold answerWin
  try dsimp only
  repeat' first
      | with_reducible assumption | with_reducible apply updCam_keeps | with_reducible apply winAnswer_keeps
      | with_reducible apply ite_keeps | (with_reducible intro _) | simp only [mk_keeps] | simp only [mkSec_keeps] | split

theorem endXfer_keeps (x : Xfer) (ok : Bool) (data : Nat) (hk : Keeps z s) : Keeps z (endXfer x ok data s) := by
  unfold endXfer
  try dsimp only
  repeat' first
      | with_reducible assumption | with_reducible apply answerWin_keeps | with_reducible apply updHub_keeps
      | with_reducible apply dropAnswer_keeps | with_reducible apply ite_keeps | (with_reducible intro _)
      | simp only [mk_keeps] | simp only [mkSec_keeps] | split

theorem resumeTransit_keeps (hk : Keeps z s) : Keeps z (resumeTransit s) := by
  unfold resumeTransit
  try dsimp only
  repeat' first
      | with_reducible assumption | with_reducible apply forAll_keeps | with_reducible apply updCam_keeps
      | with_reducible apply updHub_keeps | with_reducible apply forAll_keeps | with_reducible apply sendXfer_keeps
      | with_reducible apply ite_keeps | (with_reducible intro _) | simp only [mk_keeps] | simp only [mkSec_keeps] | split

theorem execTransitCompletion_keeps {id : Nat} {s₁ : State} (hk : Keeps z s) (e : execTransitCompletion id s = .next s₁) :
    Keeps z s₁ := by
  unfold execTransitCompletion at e
  try dsimp only at e
  repeat' split at e
  all_goals first | with_reducible refine done_keeps ?_ e | with_reducible refine done_keeps ?_ e
  all_goals (repeat' first
      | with_reducible assumption | with_reducible apply endXfer_keeps | with_reducible apply ite_keeps
      | (with_reducible intro _) | simp only [mk_keeps] | simp only [mkSec_keeps] | split)

theorem retryXfer_keeps (entry : Stack) (x : Xfer) (hk : Keeps z s) : Keeps z (retryXfer entry x s) := by
  unfold retryXfer
  try dsimp only
  repeat' first
      | with_reducible assumption | with_reducible apply dropAnswer_keeps | with_reducible apply postEvent_keeps
      | with_reducible apply endXfer_keeps | with_reducible apply forAll_keeps | with_reducible apply updDie_keeps
      | with_reducible apply sendXfer_keeps | with_reducible apply updHub_keeps | with_reducible apply ite_keeps
      | (with_reducible intro _) | simp only [mk_keeps] | simp only [mkSec_keeps] | split

theorem execTransitErrorResponse_keeps {id : Nat} {entry : Stack} {s₁ : State} (hk : Keeps z s) (e : execTransitErrorResponse
    id entry s = .next s₁) : Keeps z s₁ := by
  unfold execTransitErrorResponse at e
  try dsimp only at e
  repeat' split at e
  all_goals first
      | with_reducible refine done_keeps ?_ e | (injection e with e; subst e) | cases e
  all_goals (repeat' first
      | with_reducible assumption | with_reducible apply retryXfer_keeps | with_reducible apply ite_keeps
      | (with_reducible intro _) | simp only [mk_keeps] | simp only [mkSec_keeps] | split)

theorem execTransitTimeout_keeps {id : Nat} {entry : Stack} {s₁ : State} (hk : Keeps z s) (e :
    execTransitTimeout id entry s = .next s₁) : Keeps z s₁ := by
  unfold execTransitTimeout at e
  try dsimp only at e
  repeat' split at e
  all_goals first | with_reducible refine done_keeps ?_ e | with_reducible refine done_keeps ?_ e
  all_goals (repeat' first
      | with_reducible assumption | with_reducible apply retryXfer_keeps | with_reducible apply ite_keeps
      | (with_reducible intro _) | simp only [mk_keeps] | simp only [mkSec_keeps] | split)

theorem execTransitReroute_keeps {entries : List (Stack × Cluster × Fin 64 × Word)} {s₁ : State} (hk : Keeps z s) (e :
    execTransitReroute entries s = .next s₁) : Keeps z s₁ := by
  unfold execTransitReroute at e
  try dsimp only at e
  repeat' split at e
  all_goals first
      | with_reducible refine done_keeps ?_ e | (injection e with e; subst e) | cases e
  all_goals (repeat' first
      | with_reducible assumption | with_reducible apply forAll_keeps | with_reducible apply softWrite_keeps
      | with_reducible apply resumeTransit_keeps | with_reducible apply putReg_keeps | with_reducible apply ite_keeps
      | (with_reducible intro _) | simp only [mk_keeps] | simp only [mkSec_keeps] | split)

theorem execCorePortHeader_keeps {d : Stack} {c : CoreIx} {s₁ : State} (hk : Keeps z s) (e :
    execCorePortHeader d c s = .next s₁) : Keeps z s₁ := by
  unfold execCorePortHeader at e
  with_reducible refine done_keeps ?_ e
  repeat' first
      | with_reducible assumption | with_reducible apply gateCheck_keeps | with_reducible apply runUntil_keeps
      | with_reducible apply ite_keeps | (with_reducible intro _) | simp only [mk_keeps] | simp only [mkSec_keeps] | split

theorem execAdderContributionBeat_keeps {d : Stack} {c : CoreIx} {s₁ : State} (hk : Keeps z s) (e :
    execAdderContributionBeat d c s = .next s₁) : Keeps z s₁ := by
  unfold execAdderContributionBeat at e
  with_reducible refine done_keeps ?_ e
  repeat' first
      | with_reducible assumption | with_reducible apply gateCheck_keeps | with_reducible apply runUntil_keeps
      | with_reducible apply ite_keeps | (with_reducible intro _) | simp only [mk_keeps] | simp only [mkSec_keeps] | split

theorem adderError_keeps (d : Stack) (u : Fin 17) (hk : Keeps z s) : Keeps z (adderError d u s) := by
  unfold adderError
  try dsimp only
  repeat' first
      | with_reducible assumption | with_reducible apply coreError_keeps | with_reducible apply poisonDie_keeps
      | with_reducible apply recordErr_keeps | with_reducible apply ite_keeps | (with_reducible intro _)
      | simp only [mk_keeps] | simp only [mkSec_keeps] | split

theorem execAdderResult_keeps {d : Stack} {u : Fin 17} {bad : Bool} {upsets : Upsets} {s₁ : State} (hk : Keeps z s) (e :
    execAdderResult d u bad upsets s = .next s₁) : Keeps z s₁ := by
  unfold execAdderResult at e
  try dsimp only at e
  repeat' split at e
  all_goals first
      | with_reducible refine done_keeps ?_ e | (injection e with e; subst e) | cases e
  all_goals (repeat' first
      | with_reducible assumption | with_reducible apply adderError_keeps | with_reducible apply runUntil_keeps
      | with_reducible apply lpResultBeat_keeps | with_reducible apply lpResult_keeps | with_reducible apply ite_keeps
      | (with_reducible intro _) | simp only [mk_keeps] | simp only [mkSec_keeps] | split)

theorem takeAndFill_keeps (d : Stack) (first : Bool) (hk : Keeps z s) : Keeps z (takeAndFill d first s) := by
  unfold takeAndFill
  try dsimp only
  repeat' first
      | with_reducible assumption | with_reducible apply takeEntry_keeps | with_reducible apply dispatch_keeps
      | with_reducible apply ite_keeps | (with_reducible intro _) | simp only [mk_keeps] | simp only [mkSec_keeps] | split

theorem execLaunchQueueTake_keeps {d : Stack} {s₁ : State} (hk : Keeps z s) (e : execLaunchQueueTake d s = .next s₁) : Keeps z
    s₁ := by
  unfold execLaunchQueueTake at e
  with_reducible refine done_keeps ?_ e
  repeat' first
      | with_reducible assumption | with_reducible apply sampleEmpty_keeps | with_reducible apply takeAndFill_keeps
      | with_reducible apply ite_keeps | (with_reducible intro _) | simp only [mk_keeps] | simp only [mkSec_keeps] | split

theorem execRootLaunchSend_keeps {d : Stack} {gap : Nat} {s₁ : State} (hk : Keeps z s) (e : execRootLaunchSend d gap s = .next
    s₁) : Keeps z s₁ := by
  unfold execRootLaunchSend at e
  with_reducible refine done_keeps ?_ e
  repeat' first
      | with_reducible assumption | with_reducible apply sendLaunch_keeps | with_reducible apply takeAndFill_keeps
      | with_reducible apply ite_keeps | (with_reducible intro _) | simp only [mk_keeps] | simp only [mkSec_keeps] | split

theorem execFirstLaunch_keeps {d : Stack} {gap : Nat} {s₁ : State} (hk : Keeps z s) (e : execFirstLaunch d gap s = .next s₁) :
    Keeps z s₁ := by
  unfold execFirstLaunch at e
  with_reducible refine done_keeps ?_ e
  repeat' first
      | with_reducible assumption | with_reducible apply sendLaunch_keeps | with_reducible apply takeAndFill_keeps
      | with_reducible apply ite_keeps | (with_reducible intro _) | simp only [mk_keeps] | simp only [mkSec_keeps] | split

theorem execFlashLqWrite_keeps {d : Stack} {v : Word} {s₁ : State} (hk : Keeps z s) (e : execFlashLqWrite d v s = .next s₁) :
    Keeps z s₁ := by
  unfold execFlashLqWrite at e
  with_reducible refine done_keeps ?_ e
  repeat' first
      | with_reducible assumption | with_reducible apply queueWrite_keeps | with_reducible apply ite_keeps
      | (with_reducible intro _) | simp only [mk_keeps] | simp only [mkSec_keeps] | split

theorem execFlashDone_keeps {d : Stack} {parityOk : Bool} {s₁ : State} (hk : Keeps z s) (e : execFlashDone d parityOk s =
    .next s₁) : Keeps z s₁ := by
  unfold execFlashDone at e
  with_reducible refine done_keeps ?_ e
  repeat' first
      | with_reducible assumption | with_reducible apply doneStep_keeps | with_reducible apply ite_keeps
      | (with_reducible intro _) | simp only [mk_keeps] | simp only [mkSec_keeps] | split

theorem execAbort_keeps {d : Stack} {parityOk : Bool} {s₁ : State} (hk : Keeps z s) (e : execAbort d parityOk s = .next s₁) :
    Keeps z s₁ := by
  unfold execAbort at e
  with_reducible refine done_keeps ?_ e
  repeat' first
      | with_reducible assumption | with_reducible apply abortArrive_keeps | with_reducible apply ite_keeps
      | (with_reducible intro _) | simp only [mk_keeps] | simp only [mkSec_keeps] | split

theorem execRearm_keeps {d : Stack} {s₁ : State} (hk : Keeps z s) (e : execRearm d s = .next s₁) : Keeps z s₁ := by
  unfold execRearm at e
  with_reducible refine done_keeps ?_ e
  repeat' first
      | with_reducible assumption | with_reducible apply rearmDie_keeps | with_reducible apply ite_keeps
      | (with_reducible intro _) | simp only [mk_keeps] | simp only [mkSec_keeps] | split

theorem execElasticClear_keeps {d : Stack} {s₁ : State} (hk : Keeps z s) (e : execElasticClear d s = .next s₁) :
    Keeps z s₁ := by
  unfold execElasticClear at e
  with_reducible refine done_keeps ?_ e
  repeat' first
      | with_reducible assumption | with_reducible apply elasticClear_keeps | with_reducible apply ite_keeps
      | (with_reducible intro _) | simp only [mk_keeps] | simp only [mkSec_keeps] | split

theorem execQuietIntervalEnd_keeps {d : Stack} {s₁ : State} (hk : Keeps z s) (e : execQuietIntervalEnd d s = .next s₁) : Keeps
    z s₁ := by
  unfold execQuietIntervalEnd at e
  try dsimp only at e
  repeat' split at e
  all_goals first
      | with_reducible refine done_keeps ?_ e | (injection e with e; subst e) | cases e
  all_goals (repeat' first
      | with_reducible assumption | with_reducible apply realign_keeps | with_reducible apply updDie_keeps
      | with_reducible apply ite_keeps | (with_reducible intro _) | simp only [mk_keeps] | simp only [mkSec_keeps] | split)

theorem execLdownReceived_keeps {d : Stack} {p : Port} {s₁ : State} (hk : Keeps z s) (e :
    execLdownReceived d p s = .next s₁) : Keeps z s₁ := by
  unfold execLdownReceived at e
  with_reducible refine done_keeps ?_ e
  repeat' first
      | with_reducible assumption | with_reducible apply losePort_keeps | with_reducible apply ite_keeps
      | (with_reducible intro _) | simp only [mk_keeps] | simp only [mkSec_keeps] | split

theorem execNeighbourClockLoss_keeps {d : Stack} {p : Port} {s₁ : State} (hk : Keeps z s) (e : execNeighbourClockLoss d p s =
    .next s₁) : Keeps z s₁ := by
  unfold execNeighbourClockLoss at e
  try dsimp only at e
  repeat' split at e
  all_goals first
      | with_reducible refine done_keeps ?_ e | (injection e with e; subst e) | cases e
  all_goals (repeat' first
      | with_reducible assumption | with_reducible apply losePort_keeps | with_reducible apply recordErr_keeps
      | with_reducible apply staleObjs_keeps | with_reducible apply ite_keeps | (with_reducible intro _)
      | simp only [mk_keeps] | simp only [mkSec_keeps] | split)

theorem execPersistentLinkFailure_keeps {d : Stack} {p : Port} {s₁ : State} (hk : Keeps z s) (e :
    execPersistentLinkFailure d p s = .next s₁) : Keeps z s₁ := by
  unfold execPersistentLinkFailure at e
  with_reducible refine done_keeps ?_ e
  repeat' first
      | with_reducible assumption | with_reducible apply losePort_keeps | with_reducible apply ite_keeps
      | (with_reducible intro _) | simp only [mk_keeps] | simp only [mkSec_keeps] | split

theorem execPortIsolateWrite_keeps {d : Stack} {p : Port} {v : Bool} {s₁ : State} (hk : Keeps z s) (e :
    execPortIsolateWrite d p v s = .next s₁) : Keeps z s₁ := by
  unfold execPortIsolateWrite at e
  with_reducible refine done_keeps ?_ e
  repeat' first
      | with_reducible assumption | with_reducible apply writeIsolate_keeps | with_reducible apply ite_keeps
      | (with_reducible intro _) | simp only [mk_keeps] | simp only [mkSec_keeps] | split

theorem execPortRetrain_keeps {d : Stack} {p : Port} {s₁ : State} (hk : Keeps z s) (e : execPortRetrain d p s = .next s₁) :
    Keeps z s₁ := by
  unfold execPortRetrain at e
  with_reducible refine done_keeps ?_ e
  repeat' first
      | with_reducible assumption | with_reducible apply requestRetrain_keeps | with_reducible apply ite_keeps
      | (with_reducible intro _) | simp only [mk_keeps] | simp only [mkSec_keeps] | split

theorem clearPortCounts_keeps (d : Stack) (p : Port) (hk : Keeps z s) : Keeps z (clearPortCounts d p s) := by
  unfold clearPortCounts
  try dsimp only
  repeat' first
      | with_reducible assumption | with_reducible apply putF_keeps | with_reducible apply ite_keeps
      | (with_reducible intro _) | simp only [mk_keeps] | simp only [mkSec_keeps] | split

theorem execPortClrcnt_keeps {d : Stack} {p : Port} {s₁ : State} (hk : Keeps z s) (e : execPortClrcnt d p s = .next s₁) :
    Keeps z s₁ := by
  unfold execPortClrcnt at e
  with_reducible refine done_keeps ?_ e
  repeat' first
      | with_reducible assumption | with_reducible apply clearPortCounts_keeps | with_reducible apply ite_keeps
      | (with_reducible intro _) | simp only [mk_keeps] | simp only [mkSec_keeps] | split

end Sys2Proof.Machine
end

