-- ==== Sys2Proof/Laws/KeepsBpCmds.lean ====
section
/-! SUPPORT. What the definitions of BpCmds.lean keep. -/
namespace Sys2Proof.Machine

variable {z s : State}

theorem execRv32imcInstruction_keeps {d : Stack} {c : CoreIx} {j : BpIx} {ue parity : Bool} {s₁ : State} (hk : Keeps z s) (e :
    execRv32imcInstruction d c j ue parity s = .next s₁) : Keeps z s₁ := by
  unfold execRv32imcInstruction at e
  with_reducible refine done_keeps ?_ e
  repeat' first
      | with_reducible assumption | with_reducible apply bpScalarRow_keeps | with_reducible apply ite_keeps
      | (with_reducible intro _) | simp only [mk_keeps] | simp only [mkSec_keeps] | split

theorem execVld_keeps {d : Stack} {c : CoreIx} {j : BpIx} {parity : Bool} {s₁ : State} (hk : Keeps z s) (e : execVld d c j
    parity s = .next s₁) : Keeps z s₁ := by
  unfold execVld at e
  with_reducible refine done_keeps ?_ e
  repeat' first
      | with_reducible assumption | with_reducible apply bpCustom_keeps | with_reducible apply ite_keeps
      | (with_reducible intro _) | simp only [mk_keeps] | simp only [mkSec_keeps] | split

theorem execVst_keeps {d : Stack} {c : CoreIx} {j : BpIx} {parity : Bool} {s₁ : State} (hk : Keeps z s) (e : execVst d c j
    parity s = .next s₁) : Keeps z s₁ := by
  unfold execVst at e
  with_reducible refine done_keeps ?_ e
  repeat' first
      | with_reducible assumption | with_reducible apply bpCustom_keeps | with_reducible apply ite_keeps
      | (with_reducible intro _) | simp only [mk_keeps] | simp only [mkSec_keeps] | split

theorem execVopFadd_keeps {d : Stack} {c : CoreIx} {j : BpIx} {parity : Bool} {s₁ : State} (hk : Keeps z s) (e : execVopFadd d
    c j parity s = .next s₁) : Keeps z s₁ := by
  unfold execVopFadd at e
  with_reducible refine done_keeps ?_ e
  repeat' first
      | with_reducible assumption | with_reducible apply bpCustom_keeps | with_reducible apply ite_keeps
      | (with_reducible intro _) | simp only [mk_keeps] | simp only [mkSec_keeps] | split

theorem execVopFsub_keeps {d : Stack} {c : CoreIx} {j : BpIx} {parity : Bool} {s₁ : State} (hk : Keeps z s) (e : execVopFsub d
    c j parity s = .next s₁) : Keeps z s₁ := by
  unfold execVopFsub at e
  with_reducible refine done_keeps ?_ e
  repeat' first
      | with_reducible assumption | with_reducible apply bpCustom_keeps | with_reducible apply ite_keeps
      | (with_reducible intro _) | simp only [mk_keeps] | simp only [mkSec_keeps] | split

theorem execVopFmul_keeps {d : Stack} {c : CoreIx} {j : BpIx} {parity : Bool} {s₁ : State} (hk : Keeps z s) (e : execVopFmul d
    c j parity s = .next s₁) : Keeps z s₁ := by
  unfold execVopFmul at e
  with_reducible refine done_keeps ?_ e
  repeat' first
      | with_reducible assumption | with_reducible apply bpCustom_keeps | with_reducible apply ite_keeps
      | (with_reducible intro _) | simp only [mk_keeps] | simp only [mkSec_keeps] | split

theorem execVopFmax_keeps {d : Stack} {c : CoreIx} {j : BpIx} {parity : Bool} {s₁ : State} (hk : Keeps z s) (e : execVopFmax d
    c j parity s = .next s₁) : Keeps z s₁ := by
  unfold execVopFmax at e
  with_reducible refine done_keeps ?_ e
  repeat' first
      | with_reducible assumption | with_reducible apply bpCustom_keeps | with_reducible apply ite_keeps
      | (with_reducible intro _) | simp only [mk_keeps] | simp only [mkSec_keeps] | split

theorem execVopFmin_keeps {d : Stack} {c : CoreIx} {j : BpIx} {parity : Bool} {s₁ : State} (hk : Keeps z s) (e : execVopFmin d
    c j parity s = .next s₁) : Keeps z s₁ := by
  unfold execVopFmin at e
  with_reducible refine done_keeps ?_ e
  repeat' first
      | with_reducible assumption | with_reducible apply bpCustom_keeps | with_reducible apply ite_keeps
      | (with_reducible intro _) | simp only [mk_keeps] | simp only [mkSec_keeps] | split

theorem execVopFmac_keeps {d : Stack} {c : CoreIx} {j : BpIx} {parity : Bool} {s₁ : State} (hk : Keeps z s) (e : execVopFmac d
    c j parity s = .next s₁) : Keeps z s₁ := by
  unfold execVopFmac at e
  with_reducible refine done_keeps ?_ e
  repeat' first
      | with_reducible assumption | with_reducible apply bpCustom_keeps | with_reducible apply ite_keeps
      | (with_reducible intro _) | simp only [mk_keeps] | simp only [mkSec_keeps] | split

theorem execVopFexp_keeps {d : Stack} {c : CoreIx} {j : BpIx} {parity : Bool} {s₁ : State} (hk : Keeps z s) (e : execVopFexp d
    c j parity s = .next s₁) : Keeps z s₁ := by
  unfold execVopFexp at e
  with_reducible refine done_keeps ?_ e
  repeat' first
      | with_reducible assumption | with_reducible apply bpCustom_keeps | with_reducible apply ite_keeps
      | (with_reducible intro _) | simp only [mk_keeps] | simp only [mkSec_keeps] | split

theorem execVopFrcp_keeps {d : Stack} {c : CoreIx} {j : BpIx} {parity : Bool} {s₁ : State} (hk : Keeps z s) (e : execVopFrcp d
    c j parity s = .next s₁) : Keeps z s₁ := by
  unfold execVopFrcp at e
  with_reducible refine done_keeps ?_ e
  repeat' first
      | with_reducible assumption | with_reducible apply bpCustom_keeps | with_reducible apply ite_keeps
      | (with_reducible intro _) | simp only [mk_keeps] | simp only [mkSec_keeps] | split

theorem execVopsFadd_keeps {d : Stack} {c : CoreIx} {j : BpIx} {parity : Bool} {s₁ : State} (hk : Keeps z s) (e : execVopsFadd
    d c j parity s = .next s₁) : Keeps z s₁ := by
  unfold execVopsFadd at e
  with_reducible refine done_keeps ?_ e
  repeat' first
      | with_reducible assumption | with_reducible apply bpCustom_keeps | with_reducible apply ite_keeps
      | (with_reducible intro _) | simp only [mk_keeps] | simp only [mkSec_keeps] | split

theorem execVopsFsub_keeps {d : Stack} {c : CoreIx} {j : BpIx} {parity : Bool} {s₁ : State} (hk : Keeps z s) (e : execVopsFsub
    d c j parity s = .next s₁) : Keeps z s₁ := by
  unfold execVopsFsub at e
  with_reducible refine done_keeps ?_ e
  repeat' first
      | with_reducible assumption | with_reducible apply bpCustom_keeps | with_reducible apply ite_keeps
      | (with_reducible intro _) | simp only [mk_keeps] | simp only [mkSec_keeps] | split

theorem execVopsFmul_keeps {d : Stack} {c : CoreIx} {j : BpIx} {parity : Bool} {s₁ : State} (hk : Keeps z s) (e : execVopsFmul
    d c j parity s = .next s₁) : Keeps z s₁ := by
  unfold execVopsFmul at e
  with_reducible refine done_keeps ?_ e
  repeat' first
      | with_reducible assumption | with_reducible apply bpCustom_keeps | with_reducible apply ite_keeps
      | (with_reducible intro _) | simp only [mk_keeps] | simp only [mkSec_keeps] | split

theorem execVopsFmax_keeps {d : Stack} {c : CoreIx} {j : BpIx} {parity : Bool} {s₁ : State} (hk : Keeps z s) (e : execVopsFmax
    d c j parity s = .next s₁) : Keeps z s₁ := by
  unfold execVopsFmax at e
  with_reducible refine done_keeps ?_ e
  repeat' first
      | with_reducible assumption | with_reducible apply bpCustom_keeps | with_reducible apply ite_keeps
      | (with_reducible intro _) | simp only [mk_keeps] | simp only [mkSec_keeps] | split

theorem execVopsFmin_keeps {d : Stack} {c : CoreIx} {j : BpIx} {parity : Bool} {s₁ : State} (hk : Keeps z s) (e : execVopsFmin
    d c j parity s = .next s₁) : Keeps z s₁ := by
  unfold execVopsFmin at e
  with_reducible refine done_keeps ?_ e
  repeat' first
      | with_reducible assumption | with_reducible apply bpCustom_keeps | with_reducible apply ite_keeps
      | (with_reducible intro _) | simp only [mk_keeps] | simp only [mkSec_keeps] | split

theorem execVsplat_keeps {d : Stack} {c : CoreIx} {j : BpIx} {parity : Bool} {s₁ : State} (hk : Keeps z s) (e : execVsplat d c
    j parity s = .next s₁) : Keeps z s₁ := by
  unfold execVsplat at e
  with_reducible refine done_keeps ?_ e
  repeat' first
      | with_reducible assumption | with_reducible apply bpCustom_keeps | with_reducible apply ite_keeps
      | (with_reducible intro _) | simp only [mk_keeps] | simp only [mkSec_keeps] | split

theorem execVlim_keeps {d : Stack} {c : CoreIx} {j : BpIx} {parity : Bool} {s₁ : State} (hk : Keeps z s) (e : execVlim d c j
    parity s = .next s₁) : Keeps z s₁ := by
  unfold execVlim at e
  with_reducible refine done_keeps ?_ e
  repeat' first
      | with_reducible assumption | with_reducible apply bpCustom_keeps | with_reducible apply ite_keeps
      | (with_reducible intro _) | simp only [mk_keeps] | simp only [mkSec_keeps] | split

theorem execVmsk_keeps {d : Stack} {c : CoreIx} {j : BpIx} {parity : Bool} {s₁ : State} (hk : Keeps z s) (e : execVmsk d c j
    parity s = .next s₁) : Keeps z s₁ := by
  unfold execVmsk at e
  with_reducible refine done_keeps ?_ e
  repeat' first
      | with_reducible assumption | with_reducible apply bpCustom_keeps | with_reducible apply ite_keeps
      | (with_reducible intro _) | simp only [mk_keeps] | simp only [mkSec_keeps] | split

theorem execVredRsum_keeps {d : Stack} {c : CoreIx} {j : BpIx} {parity : Bool} {s₁ : State} (hk : Keeps z s) (e : execVredRsum
    d c j parity s = .next s₁) : Keeps z s₁ := by
  unfold execVredRsum at e
  with_reducible refine done_keeps ?_ e
  repeat' first
      | with_reducible assumption | with_reducible apply bpCustom_keeps | with_reducible apply ite_keeps
      | (with_reducible intro _) | simp only [mk_keeps] | simp only [mkSec_keeps] | split

theorem execVredRmax_keeps {d : Stack} {c : CoreIx} {j : BpIx} {parity : Bool} {s₁ : State} (hk : Keeps z s) (e : execVredRmax
    d c j parity s = .next s₁) : Keeps z s₁ := by
  unfold execVredRmax at e
  with_reducible refine done_keeps ?_ e
  repeat' first
      | with_reducible assumption | with_reducible apply bpCustom_keeps | with_reducible apply ite_keeps
      | (with_reducible intro _) | simp only [mk_keeps] | simp only [mkSec_keeps] | split

theorem execVcvtLo_keeps {d : Stack} {c : CoreIx} {j : BpIx} {parity : Bool} {s₁ : State} (hk : Keeps z s) (e : execVcvtLo d c
    j parity s = .next s₁) : Keeps z s₁ := by
  unfold execVcvtLo at e
  with_reducible refine done_keeps ?_ e
  repeat' first
      | with_reducible assumption | with_reducible apply bpCustom_keeps | with_reducible apply ite_keeps
      | (with_reducible intro _) | simp only [mk_keeps] | simp only [mkSec_keeps] | split

theorem execVcvtHi_keeps {d : Stack} {c : CoreIx} {j : BpIx} {parity : Bool} {s₁ : State} (hk : Keeps z s) (e : execVcvtHi d c
    j parity s = .next s₁) : Keeps z s₁ := by
  unfold execVcvtHi at e
  with_reducible refine done_keeps ?_ e
  repeat' first
      | with_reducible assumption | with_reducible apply bpCustom_keeps | with_reducible apply ite_keeps
      | (with_reducible intro _) | simp only [mk_keeps] | simp only [mkSec_keeps] | split

theorem execVcvtPack_keeps {d : Stack} {c : CoreIx} {j : BpIx} {parity : Bool} {s₁ : State} (hk : Keeps z s) (e : execVcvtPack
    d c j parity s = .next s₁) : Keeps z s₁ := by
  unfold execVcvtPack at e
  with_reducible refine done_keeps ?_ e
  repeat' first
      | with_reducible assumption | with_reducible apply bpCustom_keeps | with_reducible apply ite_keeps
      | (with_reducible intro _) | simp only [mk_keeps] | simp only [mkSec_keeps] | split

theorem execK4qk_keeps {d : Stack} {c : CoreIx} {j : BpIx} {parity : Bool} {s₁ : State} (hk : Keeps z s) (e : execK4qk d c j
    parity s = .next s₁) : Keeps z s₁ := by
  unfold execK4qk at e
  with_reducible refine done_keeps ?_ e
  repeat' first
      | with_reducible assumption | with_reducible apply bpCustom_keeps | with_reducible apply ite_keeps
      | (with_reducible intro _) | simp only [mk_keeps] | simp only [mkSec_keeps] | split

theorem execK4av_keeps {d : Stack} {c : CoreIx} {j : BpIx} {parity : Bool} {s₁ : State} (hk : Keeps z s) (e : execK4av d c j
    parity s = .next s₁) : Keeps z s₁ := by
  unfold execK4av at e
  with_reducible refine done_keeps ?_ e
  repeat' first
      | with_reducible assumption | with_reducible apply bpCustom_keeps | with_reducible apply ite_keeps
      | (with_reducible intro _) | simp only [mk_keeps] | simp only [mkSec_keeps] | split

theorem execK4q_keeps {d : Stack} {c : CoreIx} {j : BpIx} {parity : Bool} {s₁ : State} (hk : Keeps z s) (e : execK4q d c j
    parity s = .next s₁) : Keeps z s₁ := by
  unfold execK4q at e
  with_reducible refine done_keeps ?_ e
  repeat' first
      | with_reducible assumption | with_reducible apply bpCustom_keeps | with_reducible apply ite_keeps
      | (with_reducible intro _) | simp only [mk_keeps] | simp only [mkSec_keeps] | split

theorem execQoff_keeps {d : Stack} {c : CoreIx} {j : BpIx} {parity : Bool} {s₁ : State} (hk : Keeps z s) (e : execQoff d c j
    parity s = .next s₁) : Keeps z s₁ := by
  unfold execQoff at e
  with_reducible refine done_keeps ?_ e
  repeat' first
      | with_reducible assumption | with_reducible apply bpCustom_keeps | with_reducible apply ite_keeps
      | (with_reducible intro _) | simp only [mk_keeps] | simp only [mkSec_keeps] | split

theorem execQbnd_keeps {d : Stack} {c : CoreIx} {j : BpIx} {parity : Bool} {s₁ : State} (hk : Keeps z s) (e : execQbnd d c j
    parity s = .next s₁) : Keeps z s₁ := by
  unfold execQbnd at e
  with_reducible refine done_keeps ?_ e
  repeat' first
      | with_reducible assumption | with_reducible apply bpCustom_keeps | with_reducible apply ite_keeps
      | (with_reducible intro _) | simp only [mk_keeps] | simp only [mkSec_keeps] | split

theorem execQld_keeps {d : Stack} {c : CoreIx} {j : BpIx} {parity : Bool} {s₁ : State} (hk : Keeps z s) (e : execQld d c j
    parity s = .next s₁) : Keeps z s₁ := by
  unfold execQld at e
  with_reducible refine done_keeps ?_ e
  repeat' first
      | with_reducible assumption | with_reducible apply bpCustom_keeps | with_reducible apply ite_keeps
      | (with_reducible intro _) | simp only [mk_keeps] | simp only [mkSec_keeps] | split

theorem execSld_keeps {d : Stack} {c : CoreIx} {j : BpIx} {parity : Bool} {s₁ : State} (hk : Keeps z s) (e : execSld d c j
    parity s = .next s₁) : Keeps z s₁ := by
  unfold execSld at e
  with_reducible refine done_keeps ?_ e
  repeat' first
      | with_reducible assumption | with_reducible apply bpCustom_keeps | with_reducible apply ite_keeps
      | (with_reducible intro _) | simp only [mk_keeps] | simp only [mkSec_keeps] | split

theorem execSst_keeps {d : Stack} {c : CoreIx} {j : BpIx} {parity : Bool} {s₁ : State} (hk : Keeps z s) (e : execSst d c j
    parity s = .next s₁) : Keeps z s₁ := by
  unfold execSst at e
  with_reducible refine done_keeps ?_ e
  repeat' first
      | with_reducible assumption | with_reducible apply bpCustom_keeps | with_reducible apply ite_keeps
      | (with_reducible intro _) | simp only [mk_keeps] | simp only [mkSec_keeps] | split

theorem execOaccrd_keeps {d : Stack} {c : CoreIx} {j : BpIx} {parity : Bool} {s₁ : State} (hk : Keeps z s) (e : execOaccrd d c
    j parity s = .next s₁) : Keeps z s₁ := by
  unfold execOaccrd at e
  with_reducible refine done_keeps ?_ e
  repeat' first
      | with_reducible assumption | with_reducible apply bpCustom_keeps | with_reducible apply ite_keeps
      | (with_reducible intro _) | simp only [mk_keeps] | simp only [mkSec_keeps] | split

theorem execOaccscl_keeps {d : Stack} {c : CoreIx} {j : BpIx} {parity : Bool} {s₁ : State} (hk : Keeps z s) (e : execOaccscl d
    c j parity s = .next s₁) : Keeps z s₁ := by
  unfold execOaccscl at e
  with_reducible refine done_keeps ?_ e
  repeat' first
      | with_reducible assumption | with_reducible apply bpCustom_keeps | with_reducible apply ite_keeps
      | (with_reducible intro _) | simp only [mk_keeps] | simp only [mkSec_keeps] | split

theorem execOaccclr_keeps {d : Stack} {c : CoreIx} {j : BpIx} {parity : Bool} {s₁ : State} (hk : Keeps z s) (e : execOaccclr d
    c j parity s = .next s₁) : Keeps z s₁ := by
  unfold execOaccclr at e
  with_reducible refine done_keeps ?_ e
  repeat' first
      | with_reducible assumption | with_reducible apply bpCustom_keeps | with_reducible apply ite_keeps
      | (with_reducible intro _) | simp only [mk_keeps] | simp only [mkSec_keeps] | split

theorem execBvLdr_keeps {d : Stack} {c : CoreIx} {j : BpIx} {parity : Bool} {s₁ : State} (hk : Keeps z s) (e : execBvLdr d c j
    parity s = .next s₁) : Keeps z s₁ := by
  unfold execBvLdr at e
  with_reducible refine done_keeps ?_ e
  repeat' first
      | with_reducible assumption | with_reducible apply bpCustom_keeps | with_reducible apply bvLdr_keeps
      | with_reducible apply ite_keeps | (with_reducible intro _) | simp only [mk_keeps] | simp only [mkSec_keeps] | split

theorem execBvStr_keeps {d : Stack} {c : CoreIx} {j : BpIx} {parity : Bool} {s₁ : State} (hk : Keeps z s) (e : execBvStr d c j
    parity s = .next s₁) : Keeps z s₁ := by
  unfold execBvStr at e
  with_reducible refine done_keeps ?_ e
  repeat' first
      | with_reducible assumption | with_reducible apply bpCustom_keeps | with_reducible apply bvStr_keeps
      | with_reducible apply ite_keeps | (with_reducible intro _) | simp only [mk_keeps] | simp only [mkSec_keeps] | split

theorem execBvStp_keeps {d : Stack} {c : CoreIx} {j : BpIx} {parity : Bool} {s₁ : State} (hk : Keeps z s) (e : execBvStp d c j
    parity s = .next s₁) : Keeps z s₁ := by
  unfold execBvStp at e
  with_reducible refine done_keeps ?_ e
  repeat' first
      | with_reducible assumption | with_reducible apply bpCustom_keeps | with_reducible apply bvStp_keeps
      | with_reducible apply ite_keeps | (with_reducible intro _) | simp only [mk_keeps] | simp only [mkSec_keeps] | split

theorem execBvCpy_keeps {d : Stack} {c : CoreIx} {j : BpIx} {parity : Bool} {s₁ : State} (hk : Keeps z s) (e : execBvCpy d c j
    parity s = .next s₁) : Keeps z s₁ := by
  unfold execBvCpy at e
  with_reducible refine done_keeps ?_ e
  repeat' first
      | with_reducible assumption | with_reducible apply bpCustom_keeps | with_reducible apply bvCpy_keeps
      | with_reducible apply ite_keeps | (with_reducible intro _) | simp only [mk_keeps] | simp only [mkSec_keeps] | split

theorem execBvFence_keeps {d : Stack} {c : CoreIx} {j : BpIx} {parity : Bool} {s₁ : State} (hk : Keeps z s) (e : execBvFence d
    c j parity s = .next s₁) : Keeps z s₁ := by
  unfold execBvFence at e
  with_reducible refine done_keeps ?_ e
  repeat' first
      | with_reducible assumption | with_reducible apply bpCustom_keeps | with_reducible apply bvFence_keeps
      | with_reducible apply ite_keeps | (with_reducible intro _) | simp only [mk_keeps] | simp only [mkSec_keeps] | split

theorem execBvHalt_keeps {d : Stack} {c : CoreIx} {j : BpIx} {parity : Bool} {s₁ : State} (hk : Keeps z s) (e : execBvHalt d c
    j parity s = .next s₁) : Keeps z s₁ := by
  unfold execBvHalt at e
  with_reducible refine done_keeps ?_ e
  repeat' first
      | with_reducible assumption | with_reducible apply bpCustom_keeps | with_reducible apply ite_keeps
      | (with_reducible intro _) | simp only [mk_keeps] | simp only [mkSec_keeps] | split

theorem execBpMergeTimeout_keeps {d : Stack} {c : CoreIx} {j : BpIx} {s₁ : State} (hk : Keeps z s) (e :
    execBpMergeTimeout d c j s = .next s₁) : Keeps z s₁ := by
  unfold execBpMergeTimeout at e
  with_reducible refine done_keeps ?_ e
  repeat' first
      | with_reducible assumption | with_reducible apply bpMergeTimeout_keeps | with_reducible apply ite_keeps
      | (with_reducible intro _) | simp only [mk_keeps] | simp only [mkSec_keeps] | split

theorem execBpStop_keeps {d : Stack} {c : CoreIx} {j : BpIx} {s₁ : State} (hk : Keeps z s) (e :
    execBpStop d c j s = .next s₁) : Keeps z s₁ := by
  unfold execBpStop at e
  with_reducible refine done_keeps ?_ e
  repeat' first
      | with_reducible assumption | with_reducible apply bpStop_keeps | with_reducible apply ite_keeps
      | (with_reducible intro _) | simp only [mk_keeps] | simp only [mkSec_keeps] | split

theorem execHostWindow_keeps {d : Stack} {c : CoreIx} {j : BpIx} {s₁ : State} (hk : Keeps z s) (e :
    execHostWindow d c j s = .next s₁) : Keeps z s₁ := by
  unfold execHostWindow at e
  with_reducible refine done_keeps ?_ e
  repeat' first
      | with_reducible assumption | with_reducible apply hostWindow_keeps | with_reducible apply ite_keeps
      | (with_reducible intro _) | simp only [mk_keeps] | simp only [mkSec_keeps] | split

end Sys2Proof.Machine
end

