-- ==== Sys2Proof/Laws/KeepsMemCmds.lean ====
section
/-! SUPPORT. What the definitions of MemCmds.lean keep. -/
namespace Sys2Proof.Machine

variable {z s : State}

theorem execControllerWindow_keeps {d : Stack} {c : CoreIx} {s₁ : State} (hk : Keeps z s) (e :
    execControllerWindow d c s = .next s₁) : Keeps z s₁ := by
  unfold execControllerWindow at e
  with_reducible refine done_keeps ?_ e
  repeat' first
      | with_reducible assumption | with_reducible apply controllerWindow_keeps | with_reducible apply ite_keeps
      | (with_reducible intro _) | simp only [mk_keeps] | simp only [mkSec_keeps] | split

theorem execHostQueueArrival_keeps {d : Stack} {c : CoreIx} {id : Nat} {write : Bool} {addr len data arrived : Nat} {upsets :
    Upsets} {s₁ : State} (hk : Keeps z s) (e : execHostQueueArrival d c id write addr len data arrived upsets s = .next s₁) :
    Keeps z s₁ := by
  unfold execHostQueueArrival at e
  with_reducible refine done_keeps ?_ e
  repeat' first
      | with_reducible assumption | with_reducible apply hostArrive_keeps | with_reducible apply ite_keeps
      | (with_reducible intro _) | simp only [mk_keeps] | simp only [mkSec_keeps] | split

theorem execVaultHostRequest_keeps {d : Stack} {c : CoreIx} {id : Nat} {write : Bool} {addr len data arrived : Nat} {upsets :
    Upsets} {s₁ : State} (hk : Keeps z s) (e : execVaultHostRequest d c id write addr len data arrived upsets s = .next s₁) :
    Keeps z s₁ := by
  unfold execVaultHostRequest at e
  with_reducible refine done_keeps ?_ e
  repeat' first
      | with_reducible assumption | with_reducible apply hostArrive_keeps | with_reducible apply ite_keeps
      | (with_reducible intro _) | simp only [mk_keeps] | simp only [mkSec_keeps] | split

theorem execLpddrFrame_keeps {d : Stack} {s₁ : State} (hk : Keeps z s) (e : execLpddrFrame d s = .next s₁) : Keeps z s₁ := by
  unfold execLpddrFrame at e
  with_reducible refine done_keeps ?_ e
  repeat' first
      | with_reducible assumption | with_reducible apply lpFrame_keeps | with_reducible apply ite_keeps
      | (with_reducible intro _) | simp only [mk_keeps] | simp only [mkSec_keeps] | split

theorem execLpddrHostRequest_keeps {d : Stack} {id : Nat} {write : Bool} {addr len data : Nat} {upsets : Upsets} {s₁ : State}
    (hk : Keeps z s) (e : execLpddrHostRequest d id write addr len data upsets s = .next s₁) : Keeps z s₁ := by
  unfold execLpddrHostRequest at e
  with_reducible refine done_keeps ?_ e
  repeat' first
      | with_reducible assumption | with_reducible apply hostArrive_keeps | with_reducible apply ite_keeps
      | (with_reducible intro _) | simp only [mk_keeps] | simp only [mkSec_keeps] | split

theorem lpFullRetrain_keeps (d : Stack) (ch : Nat) (hk : Keeps z s) : Keeps z (lpFullRetrain d ch s) := by
  unfold lpFullRetrain
  try dsimp only
  repeat' first
      | with_reducible assumption | with_reducible apply requestSegment_keeps | with_reducible apply putF_keeps
      | with_reducible apply updLp_keeps | with_reducible apply ite_keeps | (with_reducible intro _) | simp only [mk_keeps]
      | simp only [mkSec_keeps] | split

theorem lpSegDone_keeps (d : Stack) (ch : Nat) (hk : Keeps z s) : Keeps z (lpSegDone d ch s) := by
  unfold lpSegDone
  try dsimp only
  repeat' first
      | with_reducible assumption | with_reducible apply bumpF_keeps | with_reducible apply putF_keeps
      | with_reducible apply ite_keeps | (with_reducible intro _) | simp only [mk_keeps] | simp only [mkSec_keeps] | split

theorem lpChanFail_keeps (d : Stack) (ch : Nat) (hk : Keeps z s) : Keeps z (lpChanFail d ch s) := by
  unfold lpChanFail
  try dsimp only
  repeat' first
      | with_reducible assumption | with_reducible apply putF_keeps | with_reducible apply updHub_keeps
      | with_reducible apply ite_keeps | (with_reducible intro _) | simp only [mk_keeps] | simp only [mkSec_keeps] | split

theorem lpSegment_keeps (d : Stack) (ok : Bool) (hk : Keeps z s) : Keeps z (lpSegment d ok s) := by
  unfold lpSegment
  try dsimp only
  repeat' first
      | with_reducible assumption | with_reducible apply lpSegDone_keeps | with_reducible apply putF_keeps
      | with_reducible apply updLp_keeps | with_reducible apply lpChanFail_keeps | with_reducible apply requestSegment_keeps
      | with_reducible apply lpFullRetrain_keeps | with_reducible apply ite_keeps | (with_reducible intro _)
      | simp only [mk_keeps] | simp only [mkSec_keeps] | split

theorem execLpddrRetrainSegment_keeps {d : Stack} {ok : Bool} {s₁ : State} (hk : Keeps z s) (e :
    execLpddrRetrainSegment d ok s = .next s₁) : Keeps z s₁ := by
  unfold execLpddrRetrainSegment at e
  with_reducible refine done_keeps ?_ e
  repeat' first
      | with_reducible assumption | with_reducible apply lpSegment_keeps | with_reducible apply ite_keeps
      | (with_reducible intro _) | simp only [mk_keeps] | simp only [mkSec_keeps] | split

theorem execLpddrChannelRetrain_keeps {d : Stack} {ch : Fin 8} {s₁ : State} (hk : Keeps z s) (e :
    execLpddrChannelRetrain d ch s = .next s₁) : Keeps z s₁ := by
  unfold execLpddrChannelRetrain at e
  try dsimp only at e
  repeat' split at e
  all_goals first | with_reducible refine done_keeps ?_ e | with_reducible refine done_keeps ?_ e
  all_goals (repeat' first
      | with_reducible assumption | with_reducible apply lpFullRetrain_keeps | with_reducible apply ite_keeps
      | (with_reducible intro _) | simp only [mk_keeps] | simp only [mkSec_keeps] | split)

theorem vaultRetrain_keeps (d : Stack) (c : CoreIx) (hk : Keeps z s) : Keeps z (vaultRetrain d c s) := by
  unfold vaultRetrain
  try dsimp only
  repeat' first
      | with_reducible assumption | with_reducible apply requestSegment_keeps | with_reducible apply putF_keeps
      | with_reducible apply updVc_keeps | with_reducible apply ite_keeps | (with_reducible intro _) | simp only [mk_keeps]
      | simp only [mkSec_keeps] | split

theorem vaultSpares_keeps (d : Stack) (c : CoreIx) (t : VaultTest) (hk : Keeps z s) : Keeps z (vaultSpares d c t s) := by
  unfold vaultSpares
  try dsimp only
  repeat' first
      | with_reducible assumption | with_reducible apply putF_keeps | with_reducible apply ite_keeps
      | (with_reducible intro _) | simp only [mk_keeps] | simp only [mkSec_keeps] | split

theorem vaultSegment_keeps (d : Stack) (c : CoreIx) (t : VaultTest) (hk : Keeps z s) : Keeps z (vaultSegment d c t s) := by
  unfold vaultSegment
  try dsimp only
  repeat' first
      | with_reducible assumption | with_reducible apply vaultSpares_keeps | with_reducible apply putF_keeps
      | with_reducible apply updVc_keeps | with_reducible apply floodAbort_keeps | with_reducible apply recordErr_keeps
      | with_reducible apply ite_keeps | (with_reducible intro _) | simp only [mk_keeps] | simp only [mkSec_keeps] | split

theorem execVaultRetrain_keeps {d : Stack} {c : CoreIx} {s₁ : State} (hk : Keeps z s) (e :
    execVaultRetrain d c s = .next s₁) : Keeps z s₁ := by
  unfold execVaultRetrain at e
  with_reducible refine done_keeps ?_ e
  repeat' first
      | with_reducible assumption | with_reducible apply vaultRetrain_keeps | with_reducible apply ite_keeps
      | (with_reducible intro _) | simp only [mk_keeps] | simp only [mkSec_keeps] | split

theorem vaultHalf_keeps (d : Stack) (c : CoreIx) (hk : Keeps z s) : Keeps z (vaultHalf d c s) := by
  unfold vaultHalf
  try dsimp only
  repeat' first
      | with_reducible assumption | with_reducible apply putF_keeps | with_reducible apply updVc_keeps
      | with_reducible apply postEvent_keeps | with_reducible apply makeElastic_keeps | with_reducible apply ite_keeps
      | (with_reducible intro _) | simp only [mk_keeps] | simp only [mkSec_keeps] | split

theorem execRecheck_keeps {d : Stack} {u : Fin 17} {upsets : Upsets} {s₁ : State} (hk : Keeps z s) (e : execRecheck d u upsets
    s = .next s₁) : Keeps z s₁ := by
  unfold execRecheck at e
  with_reducible refine done_keeps ?_ e
  repeat' first
      | with_reducible assumption | with_reducible apply recheckNow_keeps | with_reducible apply ite_keeps
      | (with_reducible intro _) | simp only [mk_keeps] | simp only [mkSec_keeps] | split

theorem execDrizzleRead_keeps {d : Stack} {u : Fin 17} {late : Bool} {upsets : Upsets} {s₁ : State} (hk : Keeps z s) (e :
    execDrizzleRead d u late upsets s = .next s₁) : Keeps z s₁ := by
  unfold execDrizzleRead at e
  with_reducible refine done_keeps ?_ e
  repeat' first
      | with_reducible assumption | with_reducible apply drizzleRead_keeps | with_reducible apply ite_keeps
      | (with_reducible intro _) | simp only [mk_keeps] | simp only [mkSec_keeps] | split

theorem execDrizzleWriteback_keeps {d : Stack} {u : Fin 17} {upsets : Upsets} {s₁ : State} (hk : Keeps z s) (e :
    execDrizzleWriteback d u upsets s = .next s₁) : Keeps z s₁ := by
  unfold execDrizzleWriteback at e
  with_reducible refine done_keeps ?_ e
  repeat' first
      | with_reducible assumption | with_reducible apply drizzleWriteback_keeps | with_reducible apply ite_keeps
      | (with_reducible intro _) | simp only [mk_keeps] | simp only [mkSec_keeps] | split

theorem execRowTest_keeps {d : Stack} {u : Fin 17} {sound : Bool} {spare : Bool} {frame : Option Nat} {s₁ : State} (hk :
    Keeps z s) (e : execRowTest d u sound spare frame s = .next s₁) : Keeps z s₁ := by
  unfold execRowTest at e
  with_reducible refine done_keeps ?_ e
  repeat' first
      | with_reducible assumption | with_reducible apply rowTest_keeps | with_reducible apply ite_keeps
      | (with_reducible intro _) | simp only [mk_keeps] | simp only [mkSec_keeps] | split

theorem execMergeEntryTimeout_keeps {d : Stack} {u : Fin 17} {upsets : Upsets} {s₁ : State} (hk : Keeps z s) (e :
    execMergeEntryTimeout d u upsets s = .next s₁) : Keeps z s₁ := by
  unfold execMergeEntryTimeout at e
  try dsimp only at e
  repeat' split at e
  all_goals first
      | with_reducible refine done_keeps ?_ e | (injection e with e; subst e) | cases e
  all_goals (repeat' first
      | with_reducible assumption | with_reducible apply writeBack_keeps | with_reducible apply ite_keeps
      | (with_reducible intro _) | simp only [mk_keeps] | simp only [mkSec_keeps] | split)

theorem primaryClear_keeps (st : Station) (hk : Keeps z s) : Keeps z (primaryClear st s) := by
  unfold primaryClear
  try dsimp only
  repeat' first
      | with_reducible assumption | with_reducible apply putF_keeps | with_reducible apply putReg_keeps
      | with_reducible apply ite_keeps | (with_reducible intro _) | simp only [mk_keeps] | simp only [mkSec_keeps] | split

theorem execErrPrimaryClear_keeps {st : Station} {s₁ : State} (hk : Keeps z s) (e : execErrPrimaryClear st s = .next s₁) :
    Keeps z s₁ := by
  unfold execErrPrimaryClear at e
  with_reducible refine done_keeps ?_ e
  repeat' first
      | with_reducible assumption | with_reducible apply primaryClear_keeps | with_reducible apply ite_keeps
      | (with_reducible intro _) | simp only [mk_keeps] | simp only [mkSec_keeps] | split

theorem execStopPartition_keeps {d : Stack} {s₁ : State} (hk : Keeps z s) (e : execStopPartition d s = .next s₁) :
    Keeps z s₁ := by
  unfold execStopPartition at e
  with_reducible refine done_keeps ?_ e
  repeat' first
      | with_reducible assumption | with_reducible apply stopPartition_keeps | with_reducible apply ite_keeps
      | (with_reducible intro _) | simp only [mk_keeps] | simp only [mkSec_keeps] | split

theorem execStopAbort_keeps {d : Stack} {s₁ : State} (hk : Keeps z s) (e : execStopAbort d s = .next s₁) : Keeps z s₁ := by
  unfold execStopAbort at e
  with_reducible refine done_keeps ?_ e
  repeat' first
      | with_reducible assumption | with_reducible apply stopAtStart_keeps | with_reducible apply ite_keeps
      | (with_reducible intro _) | simp only [mk_keeps] | simp only [mkSec_keeps] | split

theorem execEccFlipmaskArm_keeps {d : Stack} {u : Fin 17} {v : Word} {s₁ : State} (hk : Keeps z s) (e :
    execEccFlipmaskArm d u v s = .next s₁) : Keeps z s₁ := by
  unfold execEccFlipmaskArm at e
  try dsimp only at e
  repeat' split at e
  all_goals first | with_reducible refine done_keeps ?_ e | with_reducible refine done_keeps ?_ e
  all_goals (repeat' first
      | with_reducible assumption | with_reducible apply softWrite_keeps | with_reducible apply ite_keeps
      | (with_reducible intro _) | simp only [mk_keeps] | simp only [mkSec_keeps] | split)

end Sys2Proof.Machine
end

