-- ==== Sys2Proof/Laws/KeepsTopo.lean ====
section
/-! SUPPORT. What the definitions of Topo.lean keep. -/
namespace Sys2Proof.Machine

variable {z s : State}

theorem putTopo_keeps (i v : Nat) (hk : Keeps z s) : Keeps z (putTopo i v s) := by
  refine hk.of rfl rfl rfl rfl rfl fun x => ?_
  obtain ⟨h0, h1, h2, h3, h4, h5, h6, h7, h8, h9, h10, h11⟩ := canon_iff.1 x
  exact canon_iff.2 ⟨h0, h1, h2, h3, h4, h5, h6, h7, h8, h9, canonical_sput (d := fun _ => (0#8)) h10, h11⟩

theorem emptyTopo_keeps (hk : Keeps z s) : Keeps z { s with topo := [] } := by
  refine hk.of rfl rfl rfl rfl rfl fun x => ?_
  obtain ⟨h0, h1, h2, h3, h4, h5, h6, h7, h8, h9, h10, h11⟩ := canon_iff.1 x
  exact canon_iff.2 ⟨h0, h1, h2, h3, h4, h5, h6, h7, h8, h9, rfl, h11⟩
theorem putTopoN_keeps (i n v : Nat) (hk : Keeps z s) : Keeps z (putTopoN i n v s) := by
  unfold putTopoN
  try dsimp only
  repeat' first
      | with_reducible assumption | with_reducible apply forAll_keeps | with_reducible apply forAll_keeps
      | with_reducible apply putTopo_keeps | with_reducible apply ite_keeps | (with_reducible intro _) | simp only [mk_keeps]
      | simp only [mkSec_keeps] | split

theorem topoLink_keeps (j w : Nat) (hk : Keeps z s) : Keeps z (topoLink j w s) := by
  unfold topoLink
  try dsimp only
  repeat' first
      | with_reducible assumption | with_reducible apply putTopo_keeps | with_reducible apply ite_keeps
      | (with_reducible intro _) | simp only [mk_keeps] | simp only [mkSec_keeps] | split

theorem topoVault_keeps (d : Stack) (c : CoreIx) (w : Nat) (hk : Keeps z s) : Keeps z (topoVault d c w s) := by
  unfold topoVault
  try dsimp only
  repeat' first
      | with_reducible assumption | with_reducible apply putTopo_keeps | with_reducible apply ite_keeps
      | (with_reducible intro _) | simp only [mk_keeps] | simp only [mkSec_keeps] | split

theorem topoDropCore_keeps (d : Stack) (c : CoreIx) (hk : Keeps z s) : Keeps z (topoDropCore d c s) := by
  unfold topoDropCore
  try dsimp only
  repeat' first
      | with_reducible assumption | with_reducible apply putTopo_keeps | with_reducible apply ite_keeps
      | (with_reducible intro _) | simp only [mk_keeps] | simp only [mkSec_keeps] | split

theorem topoHash_keeps (hk : Keeps z s) : Keeps z (topoHash s) := by
  unfold topoHash
  try dsimp only
  repeat' first
      | with_reducible assumption | with_reducible apply forAll_keeps | with_reducible apply putTopo_keeps
      | with_reducible apply putReg_keeps | with_reducible apply ite_keeps | (with_reducible intro _) | simp only [mk_keeps]
      | simp only [mkSec_keeps] | split

theorem topoChanged_keeps (hk : Keeps z s) : Keeps z (topoChanged s) := by
  unfold topoChanged
  try dsimp only
  repeat' first
      | with_reducible assumption | with_reducible apply topoHash_keeps | with_reducible apply ite_keeps
      | (with_reducible intro _) | simp only [mk_keeps] | simp only [mkSec_keeps] | split

theorem execLinkHalfWidthDrop_keeps {d : Stack} {p : Port} {s₁ : State} (hk : Keeps z s) (e :
    execLinkHalfWidthDrop d p s = .next s₁) : Keeps z s₁ := by
  unfold execLinkHalfWidthDrop at e
  try dsimp only at e
  repeat' split at e
  all_goals first | with_reducible refine done_keeps ?_ e | with_reducible refine done_keeps ?_ e
  all_goals (repeat' first
      | with_reducible assumption | with_reducible apply halfDrop_keeps | with_reducible apply topoChanged_keeps
      | with_reducible apply topoLink_keeps | with_reducible apply ite_keeps | (with_reducible intro _) | simp only [mk_keeps]
      | simp only [mkSec_keeps] | split)

theorem execVaultHalfWidth_keeps {d : Stack} {c : CoreIx} {s₁ : State} (hk : Keeps z s) (e : execVaultHalfWidth d c s = .next
    s₁) : Keeps z s₁ := by
  unfold execVaultHalfWidth at e
  try dsimp only at e
  repeat' split at e
  all_goals first
      | with_reducible refine done_keeps ?_ e | (injection e with e; subst e) | cases e
  all_goals (repeat' first
      | with_reducible assumption | with_reducible apply vaultHalf_keeps | with_reducible apply topoChanged_keeps
      | with_reducible apply topoVault_keeps | with_reducible apply ite_keeps | (with_reducible intro _)
      | simp only [mk_keeps] | simp only [mkSec_keeps] | split)

theorem execVaultRetrainSegment_keeps {d : Stack} {c : CoreIx} {t : VaultTest} {s₁ : State} (hk : Keeps z s) (e :
    execVaultRetrainSegment d c t s = .next s₁) : Keeps z s₁ := by
  unfold execVaultRetrainSegment at e
  try dsimp only at e
  repeat' split at e
  all_goals first
      | with_reducible refine done_keeps ?_ e | (injection e with e; subst e) | cases e
  all_goals (repeat' first
      | with_reducible assumption | with_reducible apply vaultSegment_keeps | with_reducible apply topoChanged_keeps
      | with_reducible apply topoDropCore_keeps | with_reducible apply topoVault_keeps
      | with_reducible apply markOutdated_keeps | with_reducible apply ite_keeps | (with_reducible intro _)
      | simp only [mk_keeps] | simp only [mkSec_keeps] | split)

end Sys2Proof.Machine
end

