-- ==== Sys2Proof/Laws/KeepsBring.lean ====
section
/-! SUPPORT. What the definitions of Bring.lean keep. -/
namespace Sys2Proof.Machine

variable {z s : State}

theorem updBring_keeps (f : Bring → Bring) (hk : Keeps z s) : Keeps z (updBring f s) := by
  unfold updBring
  try dsimp only
  repeat' first
      | with_reducible assumption | with_reducible apply ite_keeps | (with_reducible intro _) | simp only [mk_keeps]
      | simp only [mkSec_keeps] | split

theorem setBringF_keeps (f : Fld) (n : Nat) (hk : Keeps z s) : Keeps z (setBringF f n s) := by
  unfold setBringF
  try dsimp only
  repeat' first
      | with_reducible assumption | with_reducible apply putF_keeps | with_reducible apply ite_keeps
      | (with_reducible intro _) | simp only [mk_keeps] | simp only [mkSec_keeps] | split

theorem startBring_keeps (code : Nat) (v : Word) (hk : Keeps z s) : Keeps z (startBring code v s) := by
  unfold startBring
  try dsimp only
  repeat' first
      | with_reducible assumption | with_reducible apply updBring_keeps | with_reducible apply putReg_keeps
      | with_reducible apply setBringF_keeps | with_reducible apply ite_keeps | (with_reducible intro _)
      | simp only [mk_keeps] | simp only [mkSec_keeps] | split

theorem bringWrite_keeps (v : Word) (hk : Keeps z s) : Keeps z (bringWrite v s).2 := by
  unfold bringWrite
  try dsimp only
  repeat' first
      | with_reducible assumption | with_reducible apply startBring_keeps | with_reducible apply ite_keeps
      | (with_reducible intro _) | simp only [mk_keeps] | simp only [mkSec_keeps] | split
theorem bringWrite_keepsE {v : Word} {x0 : _} {s₁ : State} (hk : Keeps z s) (he : bringWrite v s = (x0, s₁)) :
    Keeps z s₁ := by
  have k₁ := bringWrite_keeps v hk
  rw [he] at k₁
  exact k₁

theorem outcome_keeps (code die unit : Nat) (hk : Keeps z s) : Keeps z (outcome code die unit s) := by
  unfold outcome
  try dsimp only
  repeat' first
      | with_reducible assumption | with_reducible apply updBring_keeps | with_reducible apply ite_keeps
      | (with_reducible intro _) | simp only [mk_keeps] | simp only [mkSec_keeps] | split

theorem endBring_keeps (code die unit ms : Nat) (hk : Keeps z s) : Keeps z (endBring code die unit ms s) := by
  unfold endBring
  try dsimp only
  repeat' first
      | with_reducible assumption | with_reducible apply putReg_keeps | with_reducible apply updBring_keeps
      | with_reducible apply outcome_keeps | with_reducible apply ite_keeps | (with_reducible intro _) | simp only [mk_keeps]
      | simp only [mkSec_keeps] | split

theorem execBringStepDone_keeps {ms : Nat} {s₁ : State} (hk : Keeps z s) (e : execBringStepDone ms s = .next s₁) :
    Keeps z s₁ := by
  unfold execBringStepDone at e
  try dsimp only at e
  repeat' split at e
  all_goals first | with_reducible refine done_keeps ?_ e | with_reducible refine done_keeps ?_ e
  all_goals (repeat' first
      | with_reducible assumption | with_reducible apply endBring_keeps | with_reducible apply ite_keeps
      | (with_reducible intro _) | simp only [mk_keeps] | simp only [mkSec_keeps] | split)

theorem execBringStepTimeout_keeps {ms : Nat} {s₁ : State} (hk : Keeps z s) (e : execBringStepTimeout ms s = .next s₁) :
    Keeps z s₁ := by
  unfold execBringStepTimeout at e
  try dsimp only at e
  repeat' split at e
  all_goals first | with_reducible refine done_keeps ?_ e | with_reducible refine done_keeps ?_ e
  all_goals (repeat' first
      | with_reducible assumption | with_reducible apply endBring_keeps | with_reducible apply ite_keeps
      | (with_reducible intro _) | simp only [mk_keeps] | simp only [mkSec_keeps] | split)

theorem execCamnerTrain_keeps {lanes : Option (Fin 3)} {s₁ : State} (hk : Keeps z s) (e :
    execCamnerTrain lanes s = .next s₁) : Keeps z s₁ := by
  unfold execCamnerTrain at e
  try dsimp only at e
  repeat' split at e
  all_goals first | with_reducible refine done_keeps ?_ e | with_reducible refine done_keeps ?_ e
  all_goals (repeat' first
      | with_reducible assumption | with_reducible apply outcome_keeps | with_reducible apply putF_keeps
      | with_reducible apply updCam_keeps | with_reducible apply flushEvents_keeps | with_reducible apply ite_keeps
      | (with_reducible intro _) | simp only [mk_keeps] | simp only [mkSec_keeps] | split)

theorem execRingEnumeration_keeps {found : List (Stack × Nat)} {s₁ : State} (hk : Keeps z s) (e :
    execRingEnumeration found s = .next s₁) : Keeps z s₁ := by
  unfold execRingEnumeration at e
  try dsimp only at e
  repeat' split at e
  all_goals first | with_reducible refine done_keeps ?_ e | with_reducible refine done_keeps ?_ e
  all_goals (repeat' first
      | with_reducible assumption | with_reducible apply forAll_keeps | with_reducible apply forAll_keeps
      | with_reducible apply putTopo_keeps | with_reducible apply outcome_keeps | with_reducible apply putF_keeps
      | with_reducible apply ite_keeps | (with_reducible intro _) | simp only [mk_keeps] | simp only [mkSec_keeps] | split)

theorem putStackRecord_keeps (d : Stack) (rev mask engines : Nat) (hk : Keeps z s) : Keeps z
    (putStackRecord d rev mask engines s) := by
  unfold putStackRecord
  try dsimp only
  repeat' first
      | with_reducible assumption | with_reducible apply putTopoN_keeps | with_reducible apply putTopo_keeps
      | with_reducible apply ite_keeps | (with_reducible intro _) | simp only [mk_keeps] | simp only [mkSec_keeps] | split

theorem execTopologyDiscovery_keeps {maps : List (Stack × BitVec 16)} {s₁ : State} (hk : Keeps z s) (e : execTopologyDiscovery
    maps s = .next s₁) : Keeps z s₁ := by
  unfold execTopologyDiscovery at e
  try dsimp only at e
  repeat' split at e
  all_goals first
      | with_reducible refine done_keeps ?_ e | (injection e with e; subst e) | cases e
  all_goals (repeat' first
      | with_reducible assumption | (with_reducible refine foldl_keeps (Keeps z) _ _ _ (fun _ _ _ => ?_) ?_)
      | (with_reducible refine foldr_keeps (Keeps z) _ _ _ (fun _ _ _ => ?_) ?_) | with_reducible apply foldl_keeps2
      | with_reducible apply foldr_keeps2 | with_reducible apply foldl_keeps3 | with_reducible apply foldr_keeps3
      | with_reducible apply putTopoN_keeps | with_reducible apply putTopo_keeps | with_reducible apply forAll_keeps
      | with_reducible apply putStackRecord_keeps | with_reducible apply outcome_keeps | with_reducible apply emptyTopo_keeps
      | with_reducible apply getD_keeps | with_reducible apply ite_keeps | (with_reducible intro _) | simp only [mk_keeps]
      | simp only [mkSec_keeps] | split)

theorem openPort_keeps (d : Stack) (p : Port) (t : WireTest) (w : Nat) (hk : Keeps z s) : Keeps z (openPort d p t w s) := by
  unfold openPort
  try dsimp only
  repeat' first
      | with_reducible assumption | with_reducible apply putF_keeps | with_reducible apply portTrained_keeps
      | with_reducible apply showSpares_keeps | with_reducible apply ite_keeps | (with_reducible intro _)
      | simp only [mk_keeps] | simp only [mkSec_keeps] | split

theorem trainLink_keeps (j : Nat) (t : WireTest × WireTest) (hk : Keeps z s) : Keeps z (trainLink j t s) := by
  unfold trainLink
  try dsimp only
  repeat' first
      | with_reducible assumption | with_reducible apply topoLink_keeps | with_reducible apply openPort_keeps
      | with_reducible apply ite_keeps | (with_reducible intro _) | simp only [mk_keeps] | simp only [mkSec_keeps] | split

theorem alignPhase_keeps (d : Stack) (hk : Keeps z s) : Keeps z (alignPhase d s) := by
  unfold alignPhase
  try dsimp only
  repeat' first
      | with_reducible assumption | with_reducible apply updDie_keeps | with_reducible apply ite_keeps
      | (with_reducible intro _) | simp only [mk_keeps] | simp only [mkSec_keeps] | split

theorem execDieToDieTraining_keeps {tests : LinkTests} {s₁ : State} (hk : Keeps z s) (e : execDieToDieTraining tests s = .next
    s₁) : Keeps z s₁ := by
  unfold execDieToDieTraining at e
  try dsimp only at e
  repeat' split at e
  all_goals first
      | with_reducible refine done_keeps ?_ e | (injection e with e; subst e) | cases e
  all_goals (repeat' first
      | with_reducible assumption | with_reducible apply forAll_keeps | with_reducible apply trainLink_keeps
      | with_reducible apply alignPhase_keeps | with_reducible apply outcome_keeps | with_reducible apply ite_keeps
      | (with_reducible intro _) | simp only [mk_keeps] | simp only [mkSec_keeps] | split)

theorem setVaultWidth_keeps (d : Stack) (c : CoreIx) (t : VaultTest) (hk : Keeps z s) : Keeps z (setVaultWidth d c t s) := by
  unfold setVaultWidth
  try dsimp only
  repeat' first
      | with_reducible assumption | with_reducible apply putF_keeps | with_reducible apply vaultSpares_keeps
      | with_reducible apply topoVault_keeps | with_reducible apply topoDropCore_keeps | with_reducible apply ite_keeps
      | (with_reducible intro _) | simp only [mk_keeps] | simp only [mkSec_keeps] | split

theorem restoreRepairs_keeps (ok : Nat → Bool) (hk : Keeps z s) : Keeps z (restoreRepairs ok s) := by
  unfold restoreRepairs
  try dsimp only
  repeat' first
      | with_reducible assumption | with_reducible apply forAll_keeps | with_reducible apply forAll_keeps
      | with_reducible apply addRemap_keeps | with_reducible apply retireRow_keeps | with_reducible apply updHub_keeps
      | with_reducible apply ite_keeps | (with_reducible intro _) | simp only [mk_keeps] | simp only [mkSec_keeps] | split

theorem trainVaults_keeps (d : Stack) (tests : List (CoreIx × VaultTest)) (warm : Bool) (hk : Keeps z s) : Keeps z
    (trainVaults d tests warm s) := by
  unfold trainVaults
  try dsimp only
  repeat' first
      | with_reducible assumption | with_reducible apply forAll_keeps | with_reducible apply forAll_keeps
      | with_reducible apply setVaultWidth_keeps | with_reducible apply topoVault_keeps | with_reducible apply ite_keeps
      | (with_reducible intro _) | simp only [mk_keeps] | simp only [mkSec_keeps] | split

theorem execVaultVerticalTraining_keeps {tests : List (Stack × CoreIx × VaultTest)} {s₁ : State} (hk : Keeps z s) (e :
    execVaultVerticalTraining tests s = .next s₁) : Keeps z s₁ := by
  unfold execVaultVerticalTraining at e
  try dsimp only at e
  repeat' split at e
  all_goals first | with_reducible refine done_keeps ?_ e | with_reducible refine done_keeps ?_ e
  all_goals (repeat' first
      | with_reducible assumption | with_reducible apply forAll_keeps | with_reducible apply forAll_keeps
      | with_reducible apply trainVaults_keeps | with_reducible apply restoreRepairs_keeps
      | with_reducible apply outcome_keeps | with_reducible apply ite_keeps | (with_reducible intro _) | simp only [mk_keeps]
      | simp only [mkSec_keeps] | split)

theorem setChannels_keeps (d : Stack) (bad : List (Fin 8)) (hk : Keeps z s) : Keeps z (setChannels d bad s) := by
  unfold setChannels
  try dsimp only
  repeat' first
      | with_reducible assumption | with_reducible apply forAll_keeps
      | (with_reducible refine foldl_keeps (Keeps z) _ _ _ (fun _ _ _ => ?_) ?_)
      | (with_reducible refine foldr_keeps (Keeps z) _ _ _ (fun _ _ _ => ?_) ?_) | with_reducible apply foldl_keeps2
      | with_reducible apply foldr_keeps2 | with_reducible apply foldl_keeps3 | with_reducible apply foldr_keeps3
      | with_reducible apply putF_keeps | with_reducible apply forAll_keeps | with_reducible apply putTopo_keeps
      | with_reducible apply ite_keeps | (with_reducible intro _) | simp only [mk_keeps] | simp only [mkSec_keeps] | split

theorem trainDevice_keeps (d : Stack) (new : List (Fin 8)) (warm : Bool) (hk : Keeps z s) : Keeps z
    (trainDevice d new warm s).2 := by
  unfold trainDevice
  try dsimp only
  repeat' first
      | with_reducible assumption | with_reducible apply setChannels_keeps | with_reducible apply putTopo_keeps
      | with_reducible apply ite_keeps | (with_reducible intro _) | simp only [mk_keeps] | simp only [mkSec_keeps] | split
theorem trainDevice_keepsE {d : Stack} {new : List (Fin 8)} {warm : Bool} {x0 : _} {s₁ : State} (hk : Keeps z s) (he :
    trainDevice d new warm s = (x0, s₁)) : Keeps z s₁ := by
  have k₁ := trainDevice_keeps d new warm hk
  rw [he] at k₁
  exact k₁

theorem execLpddrTraining_keeps {failed : List (Stack × Fin 8)} {s₁ : State} (hk : Keeps z s) (e :
    execLpddrTraining failed s = .next s₁) : Keeps z s₁ := by
  unfold execLpddrTraining at e
  try dsimp only at e
  repeat' split at e
  all_goals first | with_reducible refine done_keeps ?_ e | with_reducible refine done_keeps ?_ e
  all_goals (repeat' first
      | with_reducible assumption | with_reducible apply forAll_keeps | with_reducible apply forAll_keeps
      | with_reducible apply trainDevice_keeps | (refine trainDevice_keepsE ?_ (by with_reducible assumption))
      | with_reducible apply updBring_keeps | with_reducible apply restoreRepairs_keeps | with_reducible apply outcome_keeps
      | with_reducible apply ite_keeps | (with_reducible intro _) | simp only [mk_keeps] | simp only [mkSec_keeps] | split)

theorem clearRegions_keeps (d : Stack) (u : Fin 17) (hk : Keeps z s) : Keeps z (clearRegions d u s) := by
  unfold clearRegions
  try dsimp only
  repeat' first
      | with_reducible assumption | with_reducible apply forAll_keeps | with_reducible apply forAll_keeps
      | with_reducible apply putReg_keeps | with_reducible apply ite_keeps | (with_reducible intro _) | simp only [mk_keeps]
      | simp only [mkSec_keeps] | split

theorem initFlip_keeps (d : Stack) (u : Fin 17) (hk : Keeps z s) : Keeps z (initFlip d u s) := by
  unfold initFlip
  try dsimp only
  repeat' first
      | with_reducible assumption | with_reducible apply storeBankWord_keeps | with_reducible apply storeLpWord_keeps
      | with_reducible apply ite_keeps | (with_reducible intro _) | simp only [mk_keeps] | simp only [mkSec_keeps] | split

theorem initVaults_keeps (d : Stack) (hk : Keeps z s) : Keeps z (initVaults d s) := by
  unfold initVaults
  try dsimp only
  repeat' first
      | with_reducible assumption | with_reducible apply forAll_keeps | with_reducible apply initFlip_keeps
      | with_reducible apply updVc_keeps | with_reducible apply initMem_keeps | with_reducible apply ite_keeps
      | (with_reducible intro _) | simp only [mk_keeps] | simp only [mkSec_keeps] | split

theorem initLpddr_keeps (d : Stack) (hk : Keeps z s) : Keeps z (initLpddr d s) := by
  unfold initLpddr
  try dsimp only
  repeat' first
      | with_reducible assumption | with_reducible apply initFlip_keeps | with_reducible apply updLp_keeps
      | with_reducible apply initMem_keeps | with_reducible apply ite_keeps | (with_reducible intro _) | simp only [mk_keeps]
      | simp only [mkSec_keeps] | split

theorem initStack_keeps (d : Stack) (warm rebuilt : Bool) (hk : Keeps z s) : Keeps z (initStack d warm rebuilt s) := by
  unfold initStack
  try dsimp only
  repeat' first
      | with_reducible assumption | with_reducible apply forAll_keeps | with_reducible apply initLpddr_keeps
      | with_reducible apply clearRegions_keeps | with_reducible apply initVaults_keeps | with_reducible apply forAll_keeps
      | with_reducible apply ite_keeps | (with_reducible intro _) | simp only [mk_keeps] | simp only [mkSec_keeps] | split

theorem execMemoryInitialisation_keeps {bad : Option (Stack × Fin 17 × Nat)} {s₁ : State} (hk : Keeps z s) (e :
    execMemoryInitialisation bad s = .next s₁) : Keeps z s₁ := by
  unfold execMemoryInitialisation at e
  try dsimp only at e
  repeat' split at e
  all_goals first | with_reducible refine done_keeps ?_ e | with_reducible refine done_keeps ?_ e
  all_goals (repeat' first
      | with_reducible assumption | with_reducible apply forAll_keeps | with_reducible apply forAll_keeps
      | with_reducible apply initStack_keeps | with_reducible apply outcome_keeps | with_reducible apply uMark_keeps
      | with_reducible apply ite_keeps | (with_reducible intro _) | simp only [mk_keeps] | simp only [mkSec_keeps] | split)

theorem calibrate_keeps (d : Stack) (meas : List (Fin 6 × Nat)) (hk : Keeps z s) : Keeps z (calibrate d meas s) := by
  unfold calibrate
  try dsimp only
  repeat' first
      | with_reducible assumption | with_reducible apply forAll_keeps | with_reducible apply updTherm_keeps
      | with_reducible apply putF_keeps | with_reducible apply forAll_keeps | with_reducible apply ite_keeps
      | (with_reducible intro _) | simp only [mk_keeps] | simp only [mkSec_keeps] | split

theorem execThermalCalibration_keeps {bad : Option (Stack × Nat)} {meas : List (Stack × Fin 6 × Nat)} {s₁ : State} (hk :
    Keeps z s) (e : execThermalCalibration bad meas s = .next s₁) : Keeps z s₁ := by
  unfold execThermalCalibration at e
  try dsimp only at e
  repeat' split at e
  all_goals first | with_reducible refine done_keeps ?_ e | with_reducible refine done_keeps ?_ e
  all_goals (repeat' first
      | with_reducible assumption | with_reducible apply forAll_keeps | with_reducible apply outcome_keeps
      | with_reducible apply forAll_keeps | with_reducible apply calibrate_keeps | with_reducible apply ite_keeps
      | (with_reducible intro _) | simp only [mk_keeps] | simp only [mkSec_keeps] | split)

theorem execTopologyCheck_keeps {read : Option (List Byte)} {s₁ : State} (hk : Keeps z s) (e :
    execTopologyCheck read s = .next s₁) : Keeps z s₁ := by
  unfold execTopologyCheck at e
  try dsimp only at e
  repeat' split at e
  all_goals first | with_reducible refine done_keeps ?_ e | with_reducible refine done_keeps ?_ e
  all_goals (repeat' first
      | with_reducible assumption | with_reducible apply outcome_keeps | with_reducible apply topoHash_keeps
      | with_reducible apply ite_keeps | (with_reducible intro _) | simp only [mk_keeps] | simp only [mkSec_keeps] | split)

theorem execThaw_keeps {tables : List (Stack × Cluster × Fin 64 × Word)} {s₁ : State} (hk : Keeps z s) (e :
    execThaw tables s = .next s₁) : Keeps z s₁ := by
  unfold execThaw at e
  try dsimp only at e
  repeat' split at e
  all_goals first | with_reducible refine done_keeps ?_ e | with_reducible refine done_keeps ?_ e
  all_goals (repeat' first
      | with_reducible assumption | with_reducible apply forAll_keeps | with_reducible apply forAll_keeps
      | with_reducible apply softWrite_keeps | with_reducible apply putF_keeps | with_reducible apply outcome_keeps
      | with_reducible apply setBringF_keeps | with_reducible apply ite_keeps | (with_reducible intro _)
      | simp only [mk_keeps] | simp only [mkSec_keeps] | split)

theorem frStop_keeps (hk : Keeps z s) : Keeps z (frStop s) := by
  unfold frStop
  try dsimp only
  repeat' first
      | with_reducible assumption | with_reducible apply updHub_keeps | with_reducible apply ite_keeps
      | (with_reducible intro _) | simp only [mk_keeps] | simp only [mkSec_keeps] | split

theorem frResume_keeps (hk : Keeps z s) : Keeps z (frResume s) := by
  unfold frResume
  try dsimp only
  repeat' first
      | with_reducible assumption | with_reducible apply resumeTransit_keeps | with_reducible apply updHub_keeps
      | with_reducible apply ite_keeps | (with_reducible intro _) | simp only [mk_keeps] | simp only [mkSec_keeps] | split

theorem execFullRateTraining_keeps {links : LinkTests} {tests : List (Stack × CoreIx × VaultTest)} {s₁ : State} (hk : Keeps z
    s) (e : execFullRateTraining links tests s = .next s₁) : Keeps z s₁ := by
  unfold execFullRateTraining at e
  try dsimp only at e
  repeat' split at e
  all_goals first
      | with_reducible refine done_keeps ?_ e | (injection e with e; subst e) | cases e
  all_goals (repeat' first
      | with_reducible assumption | (with_reducible refine foldl_keeps (Keeps z) _ _ _ (fun _ _ _ => ?_) ?_)
      | (with_reducible refine foldr_keeps (Keeps z) _ _ _ (fun _ _ _ => ?_) ?_) | with_reducible apply foldl_keeps2
      | with_reducible apply foldr_keeps2 | with_reducible apply foldl_keeps3 | with_reducible apply foldr_keeps3
      | with_reducible apply frStop_keeps | with_reducible apply updBring_keeps | with_reducible apply ite_keeps
      | (with_reducible intro _) | simp only [mk_keeps] | simp only [mkSec_keeps] | split)

theorem switchLink_keeps (j : Nat) (hk : Keeps z s) : Keeps z (switchLink j s) := by
  unfold switchLink
  try dsimp only
  repeat' first
      | with_reducible assumption | with_reducible apply topoLink_keeps | with_reducible apply forAll_keeps
      | with_reducible apply losePort_keeps | with_reducible apply markOutdated_keeps | with_reducible apply showSpares_keeps
      | with_reducible apply putF_keeps | with_reducible apply postEvent_keeps | with_reducible apply makeElastic_keeps
      | with_reducible apply ite_keeps | (with_reducible intro _) | simp only [mk_keeps] | simp only [mkSec_keeps] | split

theorem switchVault_keeps (d : Stack) (c : CoreIx) (hk : Keeps z s) : Keeps z (switchVault d c s) := by
  unfold switchVault
  try dsimp only
  repeat' first
      | with_reducible assumption | with_reducible apply topoDropCore_keeps | with_reducible apply topoVault_keeps
      | with_reducible apply floodAbort_keeps | with_reducible apply putF_keeps | with_reducible apply markOutdated_keeps
      | with_reducible apply postEvent_keeps | with_reducible apply makeElastic_keeps | with_reducible apply ite_keeps
      | (with_reducible intro _) | simp only [mk_keeps] | simp only [mkSec_keeps] | split

theorem frOutcome_keeps (code : Nat) (hk : Keeps z s) : Keeps z (frOutcome code s) := by
  unfold frOutcome
  try dsimp only
  repeat' first
      | with_reducible assumption | with_reducible apply outcome_keeps | with_reducible apply ite_keeps
      | (with_reducible intro _) | simp only [mk_keeps] | simp only [mkSec_keeps] | split

theorem execFullRateSwitch_keeps {ok : Bool} {s₁ : State} (hk : Keeps z s) (e : execFullRateSwitch ok s = .next s₁) : Keeps z
    s₁ := by
  unfold execFullRateSwitch at e
  try dsimp only at e
  repeat' split at e
  all_goals first
      | with_reducible refine done_keeps ?_ e | (injection e with e; subst e) | cases e
  all_goals (repeat' first
      | with_reducible assumption | with_reducible apply frResume_keeps | with_reducible apply frOutcome_keeps
      | with_reducible apply setBringF_keeps | with_reducible apply updBring_keeps | with_reducible apply forAll_keeps
      | with_reducible apply switchLink_keeps | with_reducible apply switchVault_keeps | with_reducible apply updDie_keeps
      | with_reducible apply alignPhase_keeps | with_reducible apply topoChanged_keeps | with_reducible apply ite_keeps
      | (with_reducible intro _) | simp only [mk_keeps] | simp only [mkSec_keeps] | split)

theorem execQuietPeriodTimeout_keeps {s₁ : State} (hk : Keeps z s) (e : execQuietPeriodTimeout s = .next s₁) :
    Keeps z s₁ := by
  unfold execQuietPeriodTimeout at e
  try dsimp only at e
  repeat' split at e
  all_goals first | with_reducible refine done_keeps ?_ e | with_reducible refine done_keeps ?_ e
  all_goals (repeat' first
      | with_reducible assumption | with_reducible apply frResume_keeps | with_reducible apply ite_keeps
      | (with_reducible intro _) | simp only [mk_keeps] | simp only [mkSec_keeps] | split)

theorem execReady_keeps {s₁ : State} (hk : Keeps z s) (e : execReady s = .next s₁) : Keeps z s₁ := by
  unfold execReady at e
  try dsimp only at e
  repeat' split at e
  all_goals first | with_reducible refine done_keeps ?_ e | with_reducible refine done_keeps ?_ e
  all_goals (repeat' first
      | with_reducible assumption | with_reducible apply outcome_keeps | with_reducible apply putF_keeps
      | with_reducible apply ite_keeps | (with_reducible intro _) | simp only [mk_keeps] | simp only [mkSec_keeps] | split)

end Sys2Proof.Machine
end

