-- ==== Sys2Proof/Laws/KeepsMirror.lean ====
section
/-! SUPPORT. What the definitions of Mirror.lean keep. -/
namespace Sys2Proof.Machine

variable {z s : State}

theorem updTwin_keeps (f : Twin → Twin) (hk : Keeps z s) : Keeps z (updTwin f s) := by
  unfold updTwin
  try dsimp only
  repeat' first
      | with_reducible assumption | with_reducible apply ite_keeps | (with_reducible intro _) | simp only [mk_keeps]
      | simp only [mkSec_keeps] | split

theorem sendTwin_keeps (m : TwinMsg) (hk : Keeps z s) : Keeps z (sendTwin m s) := by
  unfold sendTwin
  try dsimp only
  repeat' first
      | with_reducible assumption | with_reducible apply updTwin_keeps | with_reducible apply ite_keeps
      | (with_reducible intro _) | simp only [mk_keeps] | simp only [mkSec_keeps] | split

theorem mirrorOp_keeps (slot : Nat) (op : MirOp) (hk : Keeps z s) : Keeps z (mirrorOp slot op s) := by
  unfold mirrorOp
  try dsimp only
  repeat' first
      | with_reducible assumption | with_reducible apply sendTwin_keeps | with_reducible apply ite_keeps
      | (with_reducible intro _) | simp only [mk_keeps] | simp only [mkSec_keeps] | split

theorem sendPage_keeps (g : Graph) (e slot l h idx : Nat) : ∀ (a0 : List (Nat × Nat)) {s : State}, Keeps z s → Keeps z
    (sendPage g e slot l h idx a0 s) := by
  intro a0
  induction a0 with
  | nil => intros; assumption
  | cons x l ih =>
    intro s hk
    unfold sendPage
    try dsimp only
    repeat' first
        | with_reducible assumption | with_reducible apply ih | with_reducible apply forAll_keeps
        | with_reducible apply forAll_keeps | with_reducible apply sendTwin_keeps | with_reducible apply ite_keeps
        | (with_reducible intro _) | simp only [mk_keeps] | simp only [mkSec_keeps] | split

theorem sendBurst_keeps (k slot gen old new : Nat) (tail : Bool) (hk : Keeps z s) : Keeps z (sendBurst k slot gen old new tail
    s) := by
  unfold sendBurst
  try dsimp only
  repeat' first
      | with_reducible assumption | with_reducible apply updTwin_keeps | with_reducible apply sendTwin_keeps
      | with_reducible apply forAll_keeps | with_reducible apply sendPage_keeps | with_reducible apply updSess_keeps
      | with_reducible apply ite_keeps | (with_reducible intro _) | simp only [mk_keeps] | simp only [mkSec_keeps] | split

theorem checkSynced_keeps (hk : Keeps z s) : Keeps z (checkSynced s) := by
  unfold checkSynced
  try dsimp only
  repeat' first
      | with_reducible assumption | with_reducible apply postEvent_keeps | with_reducible apply updTwin_keeps
      | with_reducible apply ite_keeps | (with_reducible intro _) | simp only [mk_keeps] | simp only [mkSec_keeps] | split

theorem mirrorCommit_keeps (k slot gen old new : Nat) (hk : Keeps z s) : Keeps z (mirrorCommit k slot gen old new s) := by
  unfold mirrorCommit
  try dsimp only
  repeat' first
      | with_reducible assumption | with_reducible apply sendBurst_keeps | with_reducible apply checkSynced_keeps
      | with_reducible apply updSess_keeps | with_reducible apply ite_keeps | (with_reducible intro _) | simp only [mk_keeps]
      | simp only [mkSec_keeps] | split

end Sys2Proof.Machine
end

