-- ==== Sys2Proof/Laws/KeepsSelect.lean ====
section
/-! SUPPORT. What the definitions of Select.lean keep. -/
namespace Sys2Proof.Machine

variable {z s : State}

theorem stampPage_keeps (g : Graph) (stamp id : Nat) (hk : Keeps z s) : Keeps z (stampPage g stamp id s) := by
  unfold stampPage
  try dsimp only
  repeat' first
      | with_reducible assumption | with_reducible apply slotWrite_keeps | with_reducible apply ite_keeps
      | (with_reducible intro _) | simp only [mk_keeps] | simp only [mkSec_keeps] | split

theorem attend_keeps (k slot kind cpos stamp : Nat) (q : List (List Nat)) (hk : Keeps z s) : Keeps z (attend k slot kind cpos
    stamp q s) := by
  unfold attend
  try dsimp only
  repeat' first
      | with_reducible assumption | with_reducible apply forAll_keeps | with_reducible apply stampPage_keeps
      | with_reducible apply updSess_keeps | with_reducible apply updGraph_keeps | with_reducible apply ite_keeps
      | (with_reducible intro _) | simp only [mk_keeps] | simp only [mkSec_keeps] | split

end Sys2Proof.Machine
end

