-- ==== Sys2Proof/Laws/KeepsSessions.lean ====
section
/-! SUPPORT. What the definitions of Sessions.lean keep. -/
namespace Sys2Proof.Machine

variable {z s : State}

theorem shareEntry_keeps (k p slot lim : Nat) (g : Graph) (pin : Bool) (e : Nat) (hk : Keeps z s) : Keeps z (shareEntry k p
    slot lim g pin e s) := by
  unfold shareEntry
  try dsimp only
  repeat' first
      | with_reducible assumption | (refine fitBlocks_keeps ?_ (by with_reducible assumption))
      | with_reducible apply forAll_keeps | with_reducible apply setRef_keeps | with_reducible apply setPins_keeps
      | with_reducible apply setHome_keeps | with_reducible apply ite_keeps | (with_reducible intro _) | simp only [mk_keeps]
      | simp only [mkSec_keeps] | split

theorem sharePages_keeps (k p slot : Nat) (g : Graph) (sid f : Nat) (pin : Bool) (hk : Keeps z s) : Keeps z (sharePages k p
    slot g sid f pin s) := by
  unfold sharePages
  try dsimp only
  repeat' first
      | with_reducible assumption | with_reducible apply forAll_keeps | with_reducible apply shareEntry_keeps
      | with_reducible apply fixRoots_keeps | (refine giveTent_keeps ?_ (by with_reducible assumption))
      | with_reducible apply getD_keeps | with_reducible apply ite_keeps | (with_reducible intro _) | simp only [mk_keeps]
      | simp only [mkSec_keeps] | split

theorem forkWork_keeps (k slot i : Nat) (hk : Keeps z s) : Keeps z (forkWork k slot i s) := by
  unfold forkWork
  try dsimp only
  repeat' first
      | with_reducible assumption | with_reducible apply updInst_keeps | with_reducible apply sharePages_keeps
      | with_reducible apply updSess_keeps | with_reducible apply ite_keeps | (with_reducible intro _) | simp only [mk_keeps]
      | simp only [mkSec_keeps] | split

theorem copyPage_keeps (k slot e l h sl tail next cpos sid : Nat) (g : Graph) (hk : Keeps z s) : Keeps z (copyPage k slot e l
    h sl tail next cpos sid g s) := by
  unfold copyPage
  try dsimp only
  repeat' first
      | with_reducible assumption | with_reducible apply frameWrite_keeps | with_reducible apply slotWrite_keeps
      | with_reducible apply setRef_keeps | with_reducible apply setHome_keeps | with_reducible apply grpWrite_keeps
      | with_reducible apply rootWrite_keeps | with_reducible apply ite_keeps | (with_reducible intro _)
      | simp only [mk_keeps] | simp only [mkSec_keeps] | split

theorem copyWork_keeps (k slot i : Nat) (hk : Keeps z s) : Keeps z (copyWork k slot i s) := by
  unfold copyWork
  try dsimp only
  repeat' first
      | with_reducible assumption | with_reducible apply forAll_keeps | with_reducible apply updInst_keeps
      | with_reducible apply copyPage_keeps | with_reducible apply ite_keeps | (with_reducible intro _) | simp only [mk_keeps]
      | simp only [mkSec_keeps] | split

theorem execForkTask_keeps {slot : Fin 4096} {s₁ : State} (hk : Keeps z s) (e : execForkTask slot s = .next s₁) :
    Keeps z s₁ := by
  unfold execForkTask at e
  try dsimp only at e
  repeat' split at e
  all_goals first | with_reducible refine done_keeps ?_ e | with_reducible refine done_keeps ?_ e
  all_goals (repeat' first
      | with_reducible assumption | with_reducible apply forkWork_keeps | with_reducible apply ite_keeps
      | (with_reducible intro _) | simp only [mk_keeps] | simp only [mkSec_keeps] | split)

theorem execCloseTask_keeps {slot : Fin 4096} {s₁ : State} (hk : Keeps z s) (e : execCloseTask slot s = .next s₁) :
    Keeps z s₁ := by
  unfold execCloseTask at e
  try dsimp only at e
  repeat' split at e
  all_goals first | with_reducible refine done_keeps ?_ e | with_reducible refine done_keeps ?_ e
  all_goals (repeat' first
      | with_reducible assumption | with_reducible apply releaseFrom_keeps | with_reducible apply framesFreed_keeps
      | with_reducible apply updInst_keeps | with_reducible apply reclaimTents_keeps | with_reducible apply fixRoots_keeps
      | with_reducible apply ite_keeps | (with_reducible intro _) | simp only [mk_keeps] | simp only [mkSec_keeps] | split)

theorem execTruncateTask_keeps {slot : Fin 4096} {s₁ : State} (hk : Keeps z s) (e : execTruncateTask slot s = .next s₁) :
    Keeps z s₁ := by
  unfold execTruncateTask at e
  try dsimp only at e
  repeat' split at e
  all_goals first | with_reducible refine done_keeps ?_ e | with_reducible refine done_keeps ?_ e
  all_goals (repeat' first
      | with_reducible assumption | with_reducible apply releaseFrom_keeps | with_reducible apply updSess_keeps
      | with_reducible apply fixRoots_keeps | with_reducible apply framesFreed_keeps | with_reducible apply updInst_keeps
      | with_reducible apply reclaimTents_keeps | with_reducible apply ite_keeps | (with_reducible intro _)
      | simp only [mk_keeps] | simp only [mkSec_keeps] | split)

theorem execCopyTask_keeps {slot : Fin 4096} {s₁ : State} (hk : Keeps z s) (e : execCopyTask slot s = .next s₁) :
    Keeps z s₁ := by
  unfold execCopyTask at e
  try dsimp only at e
  repeat' split at e
  all_goals first | with_reducible refine done_keeps ?_ e | with_reducible refine done_keeps ?_ e
  all_goals (repeat' first
      | with_reducible assumption | with_reducible apply copyWork_keeps | with_reducible apply ite_keeps
      | (with_reducible intro _) | simp only [mk_keeps] | simp only [mkSec_keeps] | split)

theorem allocPair_keeps {k slot : Nat} {p : Nat × Nat} {s₁ : State} (hk : Keeps z s) (e : allocPair k slot p s = some s₁) :
    Keeps z s₁ := by
  unfold allocPair at e
  split at e
  · rw [Option.bind_eq_some_iff] at e
    obtain ⟨t, e₁, e₂⟩ := e
    have ht : Keeps z t := by
      split at e₁
      · exact allocPage_keeps hk e₁
      · cases e₁; exact hk
    split at e₂
    · exact giveTent_keeps ht e₂
    · cases e₂; exact ht
  · cases e; exact hk

theorem execPageAllocation_keeps {slot : Fin 4096} {s₁ : State} (hk : Keeps z s) (e : execPageAllocation slot s = .next s₁) :
    Keeps z s₁ := by
  unfold execPageAllocation at e
  try dsimp only at e
  repeat' split at e
  all_goals first
      | with_reducible refine done_keeps ?_ e | (injection e with e; subst e) | cases e
  all_goals (repeat' first
      | with_reducible assumption | with_reducible apply forAll_keeps
      | (refine allocPair_keeps ?_ (by with_reducible assumption)) | with_reducible apply updSess_keeps
      | with_reducible apply ite_keeps | (with_reducible intro _) | simp only [mk_keeps] | simp only [mkSec_keeps] | split)

theorem updAny_keeps (slot : Nat) (f : Sess → Sess) (hk : Keeps z s) : Keeps z (updAny slot f s) := by
  unfold updAny
  try dsimp only
  repeat' first
      | with_reducible assumption | with_reducible apply updTwin_keeps | with_reducible apply updSess_keeps
      | with_reducible apply ite_keeps | (with_reducible intro _) | simp only [mk_keeps] | simp only [mkSec_keeps] | split

theorem startMove_keeps (k e sl dstTier dst : Nat) (hk : Keeps z s) : Keeps z (startMove k e sl dstTier dst s) := by
  unfold startMove
  try dsimp only
  repeat' first
      | with_reducible assumption | with_reducible apply updSvc_keeps | with_reducible apply slotWrite_keeps
      | with_reducible apply ite_keeps | (with_reducible intro _) | simp only [mk_keeps] | simp only [mkSec_keeps] | split

theorem freeLater_keeps (k e tier frame : Nat) (hk : Keeps z s) : Keeps z (freeLater k e tier frame s) := by
  unfold freeLater
  try dsimp only
  repeat' first
      | with_reducible assumption | with_reducible apply updSvc_keeps | with_reducible apply ite_keeps
      | (with_reducible intro _) | simp only [mk_keeps] | simp only [mkSec_keeps] | split

theorem dropPage_keeps (k e sl : Nat) (hk : Keeps z s) : Keeps z (dropPage k e sl s) := by
  unfold dropPage
  try dsimp only
  repeat' first
      | with_reducible assumption | with_reducible apply forAll_keeps | with_reducible apply forAll_keeps
      | with_reducible apply updAny_keeps | with_reducible apply bumpF_keeps | with_reducible apply freeLater_keeps
      | with_reducible apply slotWrite_keeps | with_reducible apply ite_keeps | (with_reducible intro _)
      | simp only [mk_keeps] | simp only [mkSec_keeps] | split

theorem demotePage_keeps (k e sl : Nat) (hk : Keeps z s) : Keeps z (demotePage k e sl s) := by
  unfold demotePage
  try dsimp only
  repeat' first
      | with_reducible assumption | with_reducible apply pickFree_keeps
      | (refine pickFree_keepsE ?_ (by with_reducible assumption)) | with_reducible apply startMove_keeps
      | with_reducible apply updGraph_keeps | with_reducible apply updSvc_keeps | with_reducible apply dropPage_keeps
      | with_reducible apply ite_keeps | (with_reducible intro _) | simp only [mk_keeps] | simp only [mkSec_keeps] | split

theorem demoteUntil_keeps (k : Nat) (pool : Pool) (high : Nat) : ∀ (a0 : Nat) {s : State}, Keeps z s → Keeps z (demoteUntil k
    pool high a0 s) := by
  intro a0 s hk
  induction a0 generalizing  s with
  | zero => unfold demoteUntil; exact hk
  | succ n ih =>
    unfold demoteUntil
    try dsimp only
    repeat' first
        | with_reducible assumption | with_reducible apply ih | with_reducible apply demotePage_keeps
        | with_reducible apply ite_keeps | (with_reducible intro _) | simp only [mk_keeps] | simp only [mkSec_keeps] | split

theorem execDemotion_keeps {k : Fin 16} {pool : Pool} {s₁ : State} (hk : Keeps z s) (e : execDemotion k pool s = .next s₁) :
    Keeps z s₁ := by
  unfold execDemotion at e
  try dsimp only at e
  repeat' split at e
  all_goals first
      | with_reducible refine done_keeps ?_ e | (injection e with e; subst e) | cases e
  all_goals (repeat' first
      | with_reducible assumption | with_reducible apply demoteUntil_keeps | with_reducible apply ite_keeps
      | (with_reducible intro _) | simp only [mk_keeps] | simp only [mkSec_keeps] | split)

theorem promotePage_keeps (k e sl : Nat) (hk : Keeps z s) : Keeps z (promotePage k e sl s) := by
  unfold promotePage
  try dsimp only
  repeat' first
      | with_reducible assumption | with_reducible apply pickFree_keeps
      | (refine pickFree_keepsE ?_ (by with_reducible assumption)) | with_reducible apply startMove_keeps
      | with_reducible apply updNear_keeps | with_reducible apply ite_keeps | (with_reducible intro _) | simp only [mk_keeps]
      | simp only [mkSec_keeps] | split

theorem promoteWanted_keeps (k : Nat) (hk : Keeps z s) : Keeps z (promoteWanted k s) := by
  unfold promoteWanted
  try dsimp only
  repeat' first
      | with_reducible assumption | with_reducible apply forAll_keeps | with_reducible apply promotePage_keeps
      | with_reducible apply ite_keeps | (with_reducible intro _) | simp only [mk_keeps] | simp only [mkSec_keeps] | split

theorem setHold_keeps (g : Graph) (id : Nat) (v : Bool) (hk : Keeps z s) : Keeps z (setHold g id v s) := by
  unfold setHold
  try dsimp only
  repeat' first
      | with_reducible assumption | with_reducible apply slotWrite_keeps | with_reducible apply ite_keeps
      | (with_reducible intro _) | simp only [mk_keeps] | simp only [mkSec_keeps] | split

theorem releaseMisses_keeps (k : Nat) (hk : Keeps z s) : Keeps z (releaseMisses k s) := by
  unfold releaseMisses
  try dsimp only
  repeat' first
      | with_reducible assumption | with_reducible apply forAll_keeps | with_reducible apply addObj_keeps
      | with_reducible apply bumpF_keeps | with_reducible apply updSess_keeps | with_reducible apply ite_keeps
      | (with_reducible intro _) | simp only [mk_keeps] | simp only [mkSec_keeps] | split

theorem storeFrame_keeps (a img : Nat) (hk : Keeps z s) : Keeps z (storeFrame a img s) := by
  unfold storeFrame
  try dsimp only
  repeat' first
      | with_reducible assumption | with_reducible apply forAll_keeps | with_reducible apply forAll_keeps
      | with_reducible apply sendStore_keeps | with_reducible apply ite_keeps | (with_reducible intro _)
      | simp only [mk_keeps] | simp only [mkSec_keeps] | split

theorem freeFrame_keeps (k e tier frame : Nat) (hk : Keeps z s) : Keeps z (freeFrame k e tier frame s) := by
  unfold freeFrame
  try dsimp only
  repeat' first
      | with_reducible assumption | with_reducible apply framesFreed_keeps | with_reducible apply updNear_keeps
      | with_reducible apply updGraph_keeps | with_reducible apply updSvc_keeps | with_reducible apply ite_keeps
      | (with_reducible intro _) | simp only [mk_keeps] | simp only [mkSec_keeps] | split

theorem moveImage_keeps (g : Graph) (m : Move) (image : Nat) (hk : Keeps z s) : Keeps z (moveImage g m image s).2 := by
  unfold moveImage
  try dsimp only
  repeat' first
      | with_reducible assumption | with_reducible apply grpRead_keeps
      | (refine grpRead_keepsE ?_ (by with_reducible assumption)) | with_reducible apply devRead_keeps
      | (refine devRead_keepsE ?_ (by with_reducible assumption)) | with_reducible apply ite_keeps | (with_reducible intro _)
      | simp only [mk_keeps] | simp only [mkSec_keeps] | split
theorem moveImage_keepsE {g : Graph} {m : Move} {image : Nat} {x0 : _} {s₁ : State} (hk : Keeps z s) (he :
    moveImage g m image s = (x0, s₁)) : Keeps z s₁ := by
  have k₁ := moveImage_keeps g m image hk
  rw [he] at k₁
  exact k₁

theorem execPageMove_keeps {n image : Nat} {s₁ : State} (hk : Keeps z s) (e : execPageMove n image s = .next s₁) : Keeps z s₁
    := by
  unfold execPageMove at e
  try dsimp only at e
  repeat' split at e
  all_goals first
      | with_reducible refine done_keeps ?_ e | (injection e with e; subst e) | cases e
  all_goals (repeat' first
      | with_reducible assumption | with_reducible apply moveImage_keeps
      | (refine moveImage_keepsE ?_ (by with_reducible assumption)) | with_reducible apply releaseMisses_keeps
      | with_reducible apply freeFrame_keeps | with_reducible apply dropPage_keeps | with_reducible apply updSvc_keeps
      | with_reducible apply grpWrite_keeps | with_reducible apply slotWrite_keeps | with_reducible apply devWrite_keeps
      | with_reducible apply storeFrame_keeps | with_reducible apply bumpF_keeps | with_reducible apply freeLater_keeps
      | with_reducible apply promoteWanted_keeps | with_reducible apply ite_keeps | (with_reducible intro _)
      | simp only [mk_keeps] | simp only [mkSec_keeps] | split)

theorem execSourceFrameFree_keeps {s₁ : State} (hk : Keeps z s) (e : execSourceFrameFree s = .next s₁) : Keeps z s₁ := by
  unfold execSourceFrameFree at e
  try dsimp only at e
  repeat' split at e
  all_goals first
      | with_reducible refine done_keeps ?_ e | (injection e with e; subst e) | cases e
  all_goals (repeat' first
      | with_reducible assumption | with_reducible apply forAll_keeps | with_reducible apply freeFrame_keeps
      | with_reducible apply updSvc_keeps | with_reducible apply promoteWanted_keeps | with_reducible apply ite_keeps
      | (with_reducible intro _) | simp only [mk_keeps] | simp only [mkSec_keeps] | split)

theorem execSessionStale_keeps {slot : Fin 4096} {s₁ : State} (hk : Keeps z s) (e : execSessionStale slot s = .next s₁) :
    Keeps z s₁ := by
  unfold execSessionStale at e
  try dsimp only at e
  repeat' split at e
  all_goals first | with_reducible refine done_keeps ?_ e | with_reducible refine done_keeps ?_ e
  all_goals (repeat' first
      | with_reducible assumption | with_reducible apply postSess_keeps | with_reducible apply updSess_keeps
      | with_reducible apply ite_keeps | (with_reducible intro _) | simp only [mk_keeps] | simp only [mkSec_keeps] | split)

theorem execMissPromotion_keeps {slot : Fin 4096} {s₁ : State} (hk : Keeps z s) (e : execMissPromotion slot s = .next s₁) :
    Keeps z s₁ := by
  unfold execMissPromotion at e
  try dsimp only at e
  repeat' split at e
  all_goals first
      | with_reducible refine done_keeps ?_ e | (injection e with e; subst e) | cases e
  all_goals (repeat' first
      | with_reducible assumption | with_reducible apply forAll_keeps | with_reducible apply setHold_keeps
      | with_reducible apply updSess_keeps | with_reducible apply releaseMisses_keeps
      | with_reducible apply promoteWanted_keeps | with_reducible apply ite_keeps | (with_reducible intro _)
      | simp only [mk_keeps] | simp only [mkSec_keeps] | split)

theorem execPrefetchPromotion_keeps {k : Fin 16} {s₁ : State} (hk : Keeps z s) (e : execPrefetchPromotion k s = .next s₁) :
    Keeps z s₁ := by
  unfold execPrefetchPromotion at e
  try dsimp only at e
  repeat' split at e
  all_goals first
      | with_reducible refine done_keeps ?_ e | (injection e with e; subst e) | cases e
  all_goals (repeat' first
      | with_reducible assumption | with_reducible apply forAll_keeps | with_reducible apply promotePage_keeps
      | with_reducible apply updGraph_keeps | with_reducible apply ite_keeps | (with_reducible intro _) | simp only [mk_keeps]
      | simp only [mkSec_keeps] | split)

theorem holdLine_keeps (a : Nat) (hk : Keeps z s) : Keeps z (holdLine a s) := by
  unfold holdLine
  try dsimp only
  repeat' first
      | with_reducible assumption | with_reducible apply sendMsg_keeps | with_reducible apply ite_keeps
      | (with_reducible intro _) | simp only [mk_keeps] | simp only [mkSec_keeps] | split

theorem dropLine_keeps (a : Nat) (hk : Keeps z s) : Keeps z (dropLine a s) := by
  unfold dropLine
  try dsimp only
  repeat' first
      | with_reducible assumption | with_reducible apply sendMsg_keeps | with_reducible apply updHub_keeps
      | with_reducible apply ite_keeps | (with_reducible intro _) | simp only [mk_keeps] | simp only [mkSec_keeps] | split

theorem moveCons_keeps (slot : Nat) (hk : Keeps z s) : Keeps z (moveCons slot s) := by
  unfold moveCons
  try dsimp only
  repeat' first
      | with_reducible assumption | with_reducible apply sendIndex_keeps | with_reducible apply putRing_keeps
      | with_reducible apply updSess_keeps | with_reducible apply ite_keeps | (with_reducible intro _) | simp only [mk_keeps]
      | simp only [mkSec_keeps] | split

theorem ringError_keeps (n idx why : Nat) (hk : Keeps z s) : Keeps z (ringError n idx why s) := by
  unfold ringError
  try dsimp only
  repeat' first
      | with_reducible assumption | with_reducible apply postEvent_keeps | with_reducible apply ite_keeps
      | (with_reducible intro _) | simp only [mk_keeps] | simp only [mkSec_keeps] | split

theorem execInputRingDoorbell_keeps {ring : Fin 8192} {prod : BitVec 32} {s₁ : State} (hk : Keeps z s) (e :
    execInputRingDoorbell ring prod s = .next s₁) : Keeps z s₁ := by
  unfold execInputRingDoorbell at e
  try dsimp only at e
  repeat' split at e
  all_goals first
      | with_reducible refine done_keeps ?_ e | (injection e with e; subst e) | cases e
  all_goals (repeat' first
      | with_reducible assumption | with_reducible apply ringError_keeps | with_reducible apply forAll_keeps
      | with_reducible apply sendMsg_keeps | with_reducible apply putRing_keeps | with_reducible apply ite_keeps
      | (with_reducible intro _) | simp only [mk_keeps] | simp only [mkSec_keeps] | split)

theorem recordRead_keeps (n : Nat) (r : Ring) (hk : Keeps z s) : Keeps z (recordRead n r s) := by
  unfold recordRead
  try dsimp only
  repeat' first
      | with_reducible assumption | with_reducible apply putRing_keeps | with_reducible apply ite_keeps
      | (with_reducible intro _) | simp only [mk_keeps] | simp only [mkSec_keeps] | split

theorem execInputTokens_keeps {ring : Fin 8192} {rec : BitVec 512} {s₁ : State} (hk : Keeps z s) (e :
    execInputTokens ring rec s = .next s₁) : Keeps z s₁ := by
  unfold execInputTokens at e
  try dsimp only at e
  repeat' split at e
  all_goals first | with_reducible refine done_keeps ?_ e | with_reducible refine done_keeps ?_ e
  all_goals (repeat' first
      | with_reducible assumption | with_reducible apply recordRead_keeps | with_reducible apply updSess_keeps
      | with_reducible apply moveCons_keeps | with_reducible apply ringError_keeps | with_reducible apply ite_keeps
      | (with_reducible intro _) | simp only [mk_keeps] | simp only [mkSec_keeps] | split)

theorem budgetRecord_keeps (n type : Nat) (rec : BitVec 512) (f : Nat → Nat → Nat) (hk : Keeps z s) : Keeps z
    (budgetRecord n type rec f s) := by
  unfold budgetRecord
  try dsimp only
  repeat' first
      | with_reducible assumption | with_reducible apply recordRead_keeps | with_reducible apply moveCons_keeps
      | with_reducible apply updSess_keeps | with_reducible apply ringError_keeps | with_reducible apply ite_keeps
      | (with_reducible intro _) | simp only [mk_keeps] | simp only [mkSec_keeps] | split

theorem execBudgetAdd_keeps {ring : Fin 8192} {rec : BitVec 512} {s₁ : State} (hk : Keeps z s) (e :
    execBudgetAdd ring rec s = .next s₁) : Keeps z s₁ := by
  unfold execBudgetAdd at e
  with_reducible refine done_keeps ?_ e
  repeat' first
      | with_reducible assumption | with_reducible apply budgetRecord_keeps | with_reducible apply ite_keeps
      | (with_reducible intro _) | simp only [mk_keeps] | simp only [mkSec_keeps] | split

theorem execBudgetSet_keeps {ring : Fin 8192} {rec : BitVec 512} {s₁ : State} (hk : Keeps z s) (e :
    execBudgetSet ring rec s = .next s₁) : Keeps z s₁ := by
  unfold execBudgetSet at e
  with_reducible refine done_keeps ?_ e
  repeat' first
      | with_reducible assumption | with_reducible apply budgetRecord_keeps | with_reducible apply ite_keeps
      | (with_reducible intro _) | simp only [mk_keeps] | simp only [mkSec_keeps] | split

theorem execOutputRingDoorbell_keeps {ring : Option (Fin 8192)} {cons : BitVec 32} {s₁ : State} (hk : Keeps z s) (e :
    execOutputRingDoorbell ring cons s = .next s₁) : Keeps z s₁ := by
  unfold execOutputRingDoorbell at e
  try dsimp only at e
  repeat' split at e
  all_goals first
      | with_reducible refine done_keeps ?_ e | (injection e with e; subst e) | cases e
  all_goals (repeat' first
      | with_reducible assumption | with_reducible apply ringError_keeps | with_reducible apply updHub_keeps
      | with_reducible apply putRing_keeps | with_reducible apply flushSess_keeps | with_reducible apply ite_keeps
      | (with_reducible intro _) | simp only [mk_keeps] | simp only [mkSec_keeps] | split)

theorem endFork_keeps (k slot : Nat) (failed : Bool) (hk : Keeps z s) : Keeps z (endFork k slot failed s) := by
  unfold endFork
  try dsimp only
  repeat' first
      | with_reducible assumption | with_reducible apply updSess_keeps | with_reducible apply createTemplates_keeps
      | with_reducible apply hubDsb_keeps | with_reducible apply ite_keeps | (with_reducible intro _) | simp only [mk_keeps]
      | simp only [mkSec_keeps] | split

theorem endClose_keeps (slot : Nat) (hk : Keeps z s) : Keeps z (endClose slot s) := by
  unfold endClose
  try dsimp only
  repeat' first
      | with_reducible assumption | with_reducible apply postSess_keeps | with_reducible apply forAll_keeps
      | with_reducible apply putInst_keeps | with_reducible apply checkSynced_keeps | with_reducible apply putSess_keeps
      | with_reducible apply ite_keeps | (with_reducible intro _) | simp only [mk_keeps] | simp only [mkSec_keeps] | split

theorem endMaint_keeps (k slot kind : Nat) (x : Inst) (hk : Keeps z s) : Keeps z (endMaint k slot kind x s) := by
  unfold endMaint
  try dsimp only
  repeat' first
      | with_reducible assumption | with_reducible apply forAll_keeps | with_reducible apply addObj_keeps
      | with_reducible apply endFork_keeps | with_reducible apply forAll_keeps | with_reducible apply freeSlot_keeps
      | with_reducible apply framesFreed_keeps | with_reducible apply updSess_keeps | with_reducible apply hubDsb_keeps
      | with_reducible apply ite_keeps | (with_reducible intro _) | simp only [mk_keeps] | simp only [mkSec_keeps] | split

theorem clearHolds_keeps (g : Graph) (slot : Nat) (hk : Keeps z s) : Keeps z (clearHolds g slot s) := by
  unfold clearHolds
  try dsimp only
  repeat' first
      | with_reducible assumption | with_reducible apply updSess_keeps | with_reducible apply forAll_keeps
      | with_reducible apply setHold_keeps | with_reducible apply ite_keeps | (with_reducible intro _) | simp only [mk_keeps]
      | simp only [mkSec_keeps] | split

theorem commitSession_keeps (k slot kind rec : Nat) (hk : Keeps z s) : Keeps z (commitSession k slot kind rec s) := by
  unfold commitSession
  try dsimp only
  repeat' first
      | with_reducible assumption | with_reducible apply updSess_keeps | with_reducible apply writeOut_keeps
      | with_reducible apply moveCons_keeps | with_reducible apply addObj_keeps | with_reducible apply mirrorCommit_keeps
      | with_reducible apply clearHolds_keeps | with_reducible apply ite_keeps | (with_reducible intro _)
      | simp only [mk_keeps] | simp only [mkSec_keeps] | split

theorem countLaunch_keeps (i : Nat) (hk : Keeps z s) : Keeps z (countLaunch i s) := by
  unfold countLaunch
  try dsimp only
  repeat' first
      | with_reducible assumption | with_reducible apply putInst_keeps | with_reducible apply ite_keeps
      | (with_reducible intro _) | simp only [mk_keeps] | simp only [mkSec_keeps] | split

theorem popLaunch_keeps (l : Launch) (hk : Keeps z s) : Keeps z (popLaunch l s) := by
  unfold popLaunch
  try dsimp only
  repeat' first
      | with_reducible assumption | with_reducible apply updSvc_keeps | with_reducible apply updInst_keeps
      | with_reducible apply updHub_keeps | with_reducible apply ite_keeps | (with_reducible intro _) | simp only [mk_keeps]
      | simp only [mkSec_keeps] | split

theorem poisonRecord_keeps (l : Launch) (hk : Keeps z s) : Keeps z (poisonRecord l s) := by
  unfold poisonRecord
  try dsimp only
  repeat' first
      | with_reducible assumption | with_reducible apply putInst_keeps | with_reducible apply postEvent_keeps
      | with_reducible apply stopPartition_keeps | with_reducible apply ite_keeps | (with_reducible intro _)
      | simp only [mk_keeps] | simp only [mkSec_keeps] | split

theorem recordCommitted_keeps (l : Launch) (g : Graph) (x : Inst) (rec_ : Nat) (hk : Keeps z s) : Keeps z (recordCommitted l g
    x rec_ s) := by
  unfold recordCommitted
  try dsimp only
  repeat' first
      | with_reducible assumption | with_reducible apply commitSession_keeps | with_reducible apply endMaint_keeps
      | with_reducible apply countLaunch_keeps | with_reducible apply forAll_keeps | with_reducible apply applySig_keeps
      | with_reducible apply endClose_keeps | with_reducible apply ite_keeps | (with_reducible intro _) | simp only [mk_keeps]
      | simp only [mkSec_keeps] | split

theorem recordEffect_keeps (l : Launch) (g : Graph) (x : Inst) (rec_ : Nat) (hk : Keeps z s) : Keeps z (recordEffect l g x
    rec_ s) := by
  unfold recordEffect
  try dsimp only
  repeat' first
      | with_reducible assumption | with_reducible apply recordCommitted_keeps | with_reducible apply poisonRecord_keeps
      | with_reducible apply updSess_keeps | with_reducible apply postSess_keeps | with_reducible apply ite_keeps
      | (with_reducible intro _) | simp only [mk_keeps] | simp only [mkSec_keeps] | split

theorem processRecord_keeps (p : Nat) (q : List (List Nat)) (hk : Keeps z s) : Keeps z (processRecord p q s) := by
  unfold processRecord
  try dsimp only
  repeat' first
      | with_reducible assumption | with_reducible apply popLaunch_keeps | with_reducible apply recordEffect_keeps
      | with_reducible apply attend_keeps | with_reducible apply idlePoint_keeps | with_reducible apply ite_keeps
      | (with_reducible intro _) | simp only [mk_keeps] | simp only [mkSec_keeps] | split

theorem execCommitRecordProcessing_keeps {p : Fin 24} {q : List (List Nat)} {s₁ : State} (hk : Keeps z s) (e :
    execCommitRecordProcessing p q s = .next s₁) : Keeps z s₁ := by
  unfold execCommitRecordProcessing at e
  with_reducible refine done_keeps ?_ e
  repeat' first
      | with_reducible assumption | with_reducible apply processRecord_keeps | with_reducible apply ite_keeps
      | (with_reducible intro _) | simp only [mk_keeps] | simp only [mkSec_keeps] | split

theorem execPublishError_keeps {p : Fin 24} {s₁ : State} (hk : Keeps z s) (e : execPublishError p s = .next s₁) : Keeps z s₁
    := by
  unfold execPublishError at e
  try dsimp only at e
  repeat' split at e
  all_goals first
      | with_reducible refine done_keeps ?_ e | (injection e with e; subst e) | cases e
  all_goals (repeat' first
      | with_reducible assumption | with_reducible apply popLaunch_keeps | with_reducible apply endLaunch_keeps
      | with_reducible apply idlePoint_keeps | with_reducible apply postSess_keeps | with_reducible apply updSess_keeps
      | with_reducible apply ite_keeps | (with_reducible intro _) | simp only [mk_keeps] | simp only [mkSec_keeps] | split)

theorem execSyncObjWrite_keeps {n : Fin 16384} {v : Word} {s₁ : State} (hk : Keeps z s) (e :
    execSyncObjWrite n v s = .next s₁) : Keeps z s₁ := by
  unfold execSyncObjWrite at e
  with_reducible refine done_keeps ?_ e
  repeat' first
      | with_reducible assumption | with_reducible apply setObj_keeps | with_reducible apply ite_keeps
      | (with_reducible intro _) | simp only [mk_keeps] | simp only [mkSec_keeps] | split

theorem execSyncSignal_keeps {v : Word} {s₁ : State} (hk : Keeps z s) (e : execSyncSignal v s = .next s₁) : Keeps z s₁ := by
  unfold execSyncSignal at e
  with_reducible refine done_keeps ?_ e
  repeat' first
      | with_reducible assumption | with_reducible apply addObj_keeps | with_reducible apply ite_keeps
      | (with_reducible intro _) | simp only [mk_keeps] | simp only [mkSec_keeps] | split

theorem execLsyncObjWrite_keeps {d : Stack} {n : Fin 4096} {v : Word} {s₁ : State} (hk : Keeps z s) (e :
    execLsyncObjWrite d n v s = .next s₁) : Keeps z s₁ := by
  unfold execLsyncObjWrite at e
  with_reducible refine done_keeps ?_ e
  repeat' first
      | with_reducible assumption | with_reducible apply setObj_keeps | with_reducible apply ite_keeps
      | (with_reducible intro _) | simp only [mk_keeps] | simp only [mkSec_keeps] | split

theorem execLsyncSignal_keeps {d : Stack} {v : Word} {s₁ : State} (hk : Keeps z s) (e : execLsyncSignal d v s = .next s₁) :
    Keeps z s₁ := by
  unfold execLsyncSignal at e
  with_reducible refine done_keeps ?_ e
  repeat' first
      | with_reducible assumption | with_reducible apply addObj_keeps | with_reducible apply ite_keeps
      | (with_reducible intro _) | simp only [mk_keeps] | simp only [mkSec_keeps] | split

theorem execObjectObserved_keeps {s₁ : State} (hk : Keeps z s) (e : execObjectObserved s = .next s₁) : Keeps z s₁ := by
  unfold execObjectObserved at e
  try dsimp only at e
  repeat' split at e
  all_goals first
      | with_reducible refine done_keeps ?_ e | (injection e with e; subst e) | cases e
  all_goals (repeat' first
      | with_reducible assumption | with_reducible apply observe_keeps | with_reducible apply updSvc_keeps
      | with_reducible apply ite_keeps | (with_reducible intro _) | simp only [mk_keeps] | simp only [mkSec_keeps] | split)

theorem execInstanceReady_keeps {p : Fin 24} {s₁ : State} (hk : Keeps z s) (e : execInstanceReady p s = .next s₁) : Keeps z s₁
    := by
  unfold execInstanceReady at e
  try dsimp only at e
  repeat' split at e
  all_goals first
      | with_reducible refine done_keeps ?_ e | (injection e with e; subst e) | cases e
  all_goals (repeat' first
      | with_reducible assumption | with_reducible apply dispatch_keeps | with_reducible apply ite_keeps
      | (with_reducible intro _) | simp only [mk_keeps] | simp only [mkSec_keeps] | split)

theorem execDoldrums_keeps {n : Fin 256} {s₁ : State} (hk : Keeps z s) (e : execDoldrums n s = .next s₁) : Keeps z s₁ := by
  unfold execDoldrums at e
  try dsimp only at e
  repeat' split at e
  all_goals first | with_reducible refine done_keeps ?_ e | with_reducible refine done_keeps ?_ e
  all_goals (repeat' first
      | with_reducible assumption | (with_reducible refine foldl_keeps (Keeps z) _ _ _ (fun _ _ _ => ?_) ?_)
      | (with_reducible refine foldr_keeps (Keeps z) _ _ _ (fun _ _ _ => ?_) ?_) | with_reducible apply foldl_keeps2
      | with_reducible apply foldr_keeps2 | with_reducible apply foldl_keeps3 | with_reducible apply foldr_keeps3
      | with_reducible apply putF_keeps | with_reducible apply bumpF_keeps | with_reducible apply updSvc_keeps
      | with_reducible apply postEvent_keeps | with_reducible apply ite_keeps | (with_reducible intro _)
      | simp only [mk_keeps] | simp only [mkSec_keeps] | split)

end Sys2Proof.Machine
end

