-- ==== Sys2Proof/Laws/KeepsCmdPort.lean ====
section
/-! SUPPORT. What the definitions of CmdPort.lean keep. -/
namespace Sys2Proof.Machine

variable {z s : State}

theorem answer_keeps (status result : Nat) (hk : Keeps z s) : Keeps z (answer status result s) := by
  unfold answer
  try dsimp only
  repeat' first
      | with_reducible assumption | with_reducible apply updSvc_keeps | with_reducible apply ite_keeps
      | (with_reducible intro _) | simp only [mk_keeps] | simp only [mkSec_keeps] | split

theorem refuse_keeps {status : Nat} {s₁ : State} (hk : Keeps z s) (e : refuse status s = .next s₁) : Keeps z s₁ := by
  unfold refuse at e
  with_reducible refine done_keeps ?_ e
  repeat' first
      | with_reducible assumption | with_reducible apply answer_keeps | with_reducible apply ite_keeps
      | (with_reducible intro _) | simp only [mk_keeps] | simp only [mkSec_keeps] | split

theorem refuseWrite_keeps (hk : Keeps z s) : Keeps z (refuseWrite s) := by
  unfold refuseWrite
  try dsimp only
  repeat' first
      | with_reducible assumption | with_reducible apply satF_keeps | with_reducible apply ite_keeps
      | (with_reducible intro _) | simp only [mk_keeps] | simp only [mkSec_keeps] | split

theorem acceptCommand_keeps (hk : Keeps z s) : Keeps z (acceptCommand s) := by
  unfold acceptCommand
  try dsimp only
  repeat' first
      | with_reducible assumption | with_reducible apply putF_keeps | with_reducible apply answer_keeps
      | with_reducible apply updSvc_keeps | with_reducible apply ite_keeps | (with_reducible intro _) | simp only [mk_keeps]
      | simp only [mkSec_keeps] | split

theorem doorbell_keeps (v : Word) (hk : Keeps z s) : Keeps z (doorbell v s).2 := by
  unfold doorbell
  try dsimp only
  repeat' first
      | with_reducible assumption | with_reducible apply refuseWrite_keeps | with_reducible apply acceptCommand_keeps
      | with_reducible apply ite_keeps | (with_reducible intro _) | simp only [mk_keeps] | simp only [mkSec_keeps] | split
theorem doorbell_keepsE {v : Word} {x0 : _} {s₁ : State} (hk : Keeps z s) (he : doorbell v s = (x0, s₁)) : Keeps z s₁ := by
  have k₁ := doorbell_keeps v hk
  rw [he] at k₁
  exact k₁

theorem execGo_keeps {s₁ : State} (hk : Keeps z s) (e : execGo s = .next s₁) : Keeps z s₁ := by
  unfold execGo at e
  with_reducible refine done_keeps ?_ e
  repeat' first
      | with_reducible assumption | with_reducible apply doorbell_keeps
      | (refine doorbell_keepsE ?_ (by with_reducible assumption)) | with_reducible apply ite_keeps | (with_reducible intro _)
      | simp only [mk_keeps] | simp only [mkSec_keeps] | split

theorem execCommandCompletion_keeps {us : Nat} {s₁ : State} (hk : Keeps z s) (e : execCommandCompletion us s = .next s₁) :
    Keeps z s₁ := by
  unfold execCommandCompletion at e
  try dsimp only at e
  repeat' split at e
  all_goals first | with_reducible refine done_keeps ?_ e | with_reducible refine done_keeps ?_ e
  all_goals (repeat' first
      | with_reducible assumption | with_reducible apply forAll_keeps | with_reducible apply forAll_keeps
      | with_reducible apply putReg_keeps | with_reducible apply putF_keeps | with_reducible apply updSvc_keeps
      | with_reducible apply postEvent_keeps | with_reducible apply ite_keeps | (with_reducible intro _)
      | simp only [mk_keeps] | simp only [mkSec_keeps] | split)

theorem storeBlock_keeps (len v : Nat) (hk : Keeps z s) : Keeps z (storeBlock len v s) := by
  unfold storeBlock
  try dsimp only
  repeat' first
      | with_reducible assumption | with_reducible apply forAll_keeps | with_reducible apply forAll_keeps
      | with_reducible apply sendStore_keeps | with_reducible apply ite_keeps | (with_reducible intro _)
      | simp only [mk_keeps] | simp only [mkSec_keeps] | split

theorem saturated_keeps {s₁ : State} (hk : Keeps z s) (e : saturated s = .next s₁) : Keeps z s₁ := by
  unfold saturated at e
  refine refuse_keeps ?_ e
  repeat' first
      | with_reducible assumption | with_reducible apply bumpF_keeps | with_reducible apply ite_keeps
      | (with_reducible intro _) | simp only [mk_keeps] | simp only [mkSec_keeps] | split

theorem clearObjs_keeps (slot : Nat) (hk : Keeps z s) : Keeps z (clearObjs slot s) := by
  unfold clearObjs
  try dsimp only
  repeat' first
      | with_reducible assumption | with_reducible apply setObj_keeps | with_reducible apply ite_keeps
      | (with_reducible intro _) | simp only [mk_keeps] | simp only [mkSec_keeps] | split

theorem placeSess_keeps (slot : Nat) (g : Graph) (x : Sess) (hk : Keeps z s) : Keeps z (placeSess slot g x s) := by
  unfold placeSess
  try dsimp only
  repeat' first
      | with_reducible assumption | with_reducible apply putSess_keeps | with_reducible apply clearRoot_keeps
      | with_reducible apply ite_keeps | (with_reducible intro _) | simp only [mk_keeps] | simp only [mkSec_keeps] | split

theorem mirrorNew_keeps (slot : Nat) (op : MirOp) (ok : Bool) (hk : Keeps z s) : Keeps z (mirrorNew slot op ok s) := by
  unfold mirrorNew
  try dsimp only
  repeat' first
      | with_reducible assumption | with_reducible apply mirrorOp_keeps | with_reducible apply updSess_keeps
      | with_reducible apply ite_keeps | (with_reducible intro _) | simp only [mk_keeps] | simp only [mkSec_keeps] | split

theorem mirrorFork_keeps (slot : Nat) (parent : MirState) (op : MirOp) (hk : Keeps z s) : Keeps z (mirrorFork slot parent op
    s) := by
  unfold mirrorFork
  try dsimp only
  repeat' first
      | with_reducible assumption | with_reducible apply sendTwin_keeps | with_reducible apply updSess_keeps
      | with_reducible apply mirrorNew_keeps | with_reducible apply ite_keeps | (with_reducible intro _)
      | simp only [mk_keeps] | simp only [mkSec_keeps] | split

theorem execOpenSession_keeps {s₁ : State} (hk : Keeps z s) (e : execOpenSession s = .next s₁) : Keeps z s₁ := by
  unfold execOpenSession at e
  try dsimp only at e
  repeat' split at e
  all_goals first
      | with_reducible refine done_keeps ?_ e | with_reducible refine refuse_keeps ?_ e
      | with_reducible refine saturated_keeps ?_ e | (injection e with e; subst e) | cases e
  all_goals (repeat' first
      | with_reducible assumption | with_reducible apply placeSess_keeps | with_reducible apply hubDsb_keeps
      | with_reducible apply clearObjs_keeps | with_reducible apply createTemplates_keeps
      | with_reducible apply mirrorNew_keeps | with_reducible apply answer_keeps | with_reducible apply ite_keeps
      | (with_reducible intro _) | simp only [mk_keeps] | simp only [mkSec_keeps] | split)

theorem execForkSession_keeps {s₁ : State} (hk : Keeps z s) (e : execForkSession s = .next s₁) : Keeps z s₁ := by
  unfold execForkSession at e
  try dsimp only at e
  repeat' split at e
  all_goals first
      | with_reducible refine done_keeps ?_ e | with_reducible refine refuse_keeps ?_ e
      | with_reducible refine saturated_keeps ?_ e | (injection e with e; subst e) | cases e
  all_goals (repeat' first
      | with_reducible assumption | with_reducible apply placeSess_keeps | with_reducible apply promoteWanted_keeps
      | with_reducible apply createMaint_keeps | with_reducible apply mirrorFork_keeps | with_reducible apply answer_keeps
      | with_reducible apply ite_keeps | (with_reducible intro _) | simp only [mk_keeps] | simp only [mkSec_keeps] | split)

theorem execCloseSession_keeps {s₁ : State} (hk : Keeps z s) (e : execCloseSession s = .next s₁) : Keeps z s₁ := by
  unfold execCloseSession at e
  try dsimp only at e
  repeat' split at e
  all_goals first
      | with_reducible refine done_keeps ?_ e | with_reducible refine refuse_keeps ?_ e | (injection e with e; subst e)
      | cases e
  all_goals (repeat' first
      | with_reducible assumption | with_reducible apply mirrorOp_keeps | with_reducible apply updSess_keeps
      | with_reducible apply answer_keeps | with_reducible apply createMaint_keeps | with_reducible apply ite_keeps
      | (with_reducible intro _) | simp only [mk_keeps] | simp only [mkSec_keeps] | split)

theorem execTruncateSession_keeps {s₁ : State} (hk : Keeps z s) (e : execTruncateSession s = .next s₁) : Keeps z s₁ := by
  unfold execTruncateSession at e
  try dsimp only at e
  repeat' split at e
  all_goals first
      | with_reducible refine done_keeps ?_ e | with_reducible refine refuse_keeps ?_ e | (injection e with e; subst e)
      | cases e
  all_goals (repeat' first
      | with_reducible assumption | with_reducible apply mirrorOp_keeps | with_reducible apply updSess_keeps
      | with_reducible apply answer_keeps | with_reducible apply createMaint_keeps | with_reducible apply ite_keeps
      | (with_reducible intro _) | simp only [mk_keeps] | simp only [mkSec_keeps] | split)

theorem execSetSession_keeps {s₁ : State} (hk : Keeps z s) (e : execSetSession s = .next s₁) : Keeps z s₁ := by
  unfold execSetSession at e
  try dsimp only at e
  repeat' split at e
  all_goals first
      | with_reducible refine done_keeps ?_ e | with_reducible refine refuse_keeps ?_ e
      | with_reducible refine done_keeps ?_ e
  all_goals (repeat' first
      | with_reducible assumption | with_reducible apply updSess_keeps | with_reducible apply answer_keeps
      | with_reducible apply syncSampler_keeps | with_reducible apply mirrorOp_keeps | with_reducible apply ite_keeps
      | (with_reducible intro _) | simp only [mk_keeps] | simp only [mkSec_keeps] | split)

theorem execSessionInfo_keeps {s₁ : State} (hk : Keeps z s) (e : execSessionInfo s = .next s₁) : Keeps z s₁ := by
  unfold execSessionInfo at e
  try dsimp only at e
  repeat' split at e
  all_goals first
      | with_reducible refine done_keeps ?_ e | with_reducible refine refuse_keeps ?_ e
      | with_reducible refine done_keeps ?_ e
  all_goals (repeat' first
      | with_reducible assumption | with_reducible apply answer_keeps | with_reducible apply ite_keeps
      | (with_reducible intro _) | simp only [mk_keeps] | simp only [mkSec_keeps] | split)

theorem execSetRing_keeps {s₁ : State} (hk : Keeps z s) (e : execSetRing s = .next s₁) : Keeps z s₁ := by
  unfold execSetRing at e
  try dsimp only at e
  repeat' split at e
  all_goals first
      | with_reducible refine done_keeps ?_ e | with_reducible refine refuse_keeps ?_ e
      | with_reducible refine done_keeps ?_ e
  all_goals (repeat' first
      | with_reducible assumption | with_reducible apply dropLine_keeps | with_reducible apply putRing_keeps
      | with_reducible apply answer_keeps | with_reducible apply holdLine_keeps | with_reducible apply ite_keeps
      | (with_reducible intro _) | simp only [mk_keeps] | simp only [mkSec_keeps] | split)

end Sys2Proof.Machine
end

