-- ==== Sys2Proof/Laws/KeepsGraphCmds.lean ====
section
/-! SUPPORT. What the definitions of GraphCmds.lean keep. -/
namespace Sys2Proof.Machine

variable {z s : State}

theorem writeTree_keeps (p : Partition) (hk : Keeps z s) : Keeps z (writeTree p s) := by
  unfold writeTree
  try dsimp only
  repeat' first
      | with_reducible assumption | with_reducible apply forAll_keeps
      | (with_reducible refine foldl_keeps (Keeps z) _ _ _ (fun _ _ _ => ?_) ?_)
      | (with_reducible refine foldr_keeps (Keeps z) _ _ _ (fun _ _ _ => ?_) ?_) | with_reducible apply foldl_keeps2
      | with_reducible apply foldr_keeps2 | with_reducible apply foldl_keeps3 | with_reducible apply foldr_keeps3
      | with_reducible apply forAll_keeps | with_reducible apply putF_keeps | with_reducible apply ite_keeps
      | (with_reducible intro _) | simp only [mk_keeps] | simp only [mkSec_keeps] | split

theorem parts_keeps {l : List Partition} (hl : l.length ≤ 24) (hk : Keeps z s) : Keeps z { s with parts := l } := by
  refine ⟨hk.queue, hk.fused, hk.debug, fun x => ?_, hk.rail, fun _ => hl⟩
  exact canon_iff.2 (canon_iff.1 (hk.canon x))
theorem setParts_keeps (new : List Partition) (hl : new.length ≤ 24) (hk : Keeps z s) : Keeps z (setParts new s) := by
  unfold setParts
  dsimp only
  repeat' first
      | with_reducible assumption | with_reducible apply forAll_keeps | with_reducible apply putF_keeps
      | with_reducible apply writeTree_keeps | with_reducible apply updDie_keeps | with_reducible apply updHub_keeps
      | with_reducible apply ite_keeps | (with_reducible intro _) | simp only [mk_keeps] | exact parts_keeps hl hk | split

theorem execSetPartitions_keeps {block : Option (List Byte)} {tables : List (Stack × Cluster × Fin 64 × Word)} {s₁ : State}
    (hk : Keeps z s) (e : execSetPartitions block tables s = .next s₁) : Keeps z s₁ := by
  unfold execSetPartitions at e
  try dsimp only at e
  repeat' split at e
  all_goals first
      | with_reducible refine done_keeps ?_ e | with_reducible refine refuse_keeps ?_ e
      | with_reducible refine done_keeps ?_ e
  all_goals (repeat' first
      | with_reducible assumption | with_reducible apply forAll_keeps | with_reducible apply forAll_keeps
      | with_reducible apply putReg_keeps | with_reducible apply putF_keeps | with_reducible apply answer_keeps
      | with_reducible apply setParts_keeps | (simp only [partitionList, List.length_map, List.length_range]; omega)
      | with_reducible apply ite_keeps | (with_reducible intro _) | simp only [mk_keeps] | simp only [mkSec_keeps] | split)

theorem execRearmPartition_keeps {s₁ : State} (hk : Keeps z s) (e : execRearmPartition s = .next s₁) : Keeps z s₁ := by
  unfold execRearmPartition at e
  try dsimp only at e
  repeat' split at e
  all_goals first
      | with_reducible refine done_keeps ?_ e | with_reducible refine refuse_keeps ?_ e | (injection e with e; subst e)
      | cases e
  all_goals (repeat' first
      | with_reducible assumption | with_reducible apply forAll_keeps | with_reducible apply putF_keeps
      | with_reducible apply rearmDie_keeps | with_reducible apply writeTree_keeps | with_reducible apply answer_keeps
      | with_reducible apply updHub_keeps | with_reducible apply ite_keeps | (with_reducible intro _) | simp only [mk_keeps]
      | simp only [mkSec_keeps] | split)

theorem execLoadGraph_keeps {s₁ : State} (hk : Keeps z s) (e : execLoadGraph s = .next s₁) : Keeps z s₁ := by
  unfold execLoadGraph at e
  try dsimp only at e
  repeat' split at e
  all_goals first
      | with_reducible refine done_keeps ?_ e | with_reducible refine refuse_keeps ?_ e | (injection e with e; subst e)
      | cases e
  all_goals (repeat' first
      | with_reducible assumption | with_reducible apply pickFree_keeps
      | (refine pickFree_keepsE ?_ (by with_reducible assumption)) | with_reducible apply answer_keeps
      | with_reducible apply updSvc_keeps | with_reducible apply ite_keeps | (with_reducible intro _) | simp only [mk_keeps]
      | simp only [mkSec_keeps] | split)

theorem setRoles_keeps (part : Nat) (near : List Nat) (hk : Keeps z s) : Keeps z (setRoles part near s) := by
  unfold setRoles
  try dsimp only
  repeat' first
      | with_reducible assumption | with_reducible apply forAll_keeps | with_reducible apply forAll_keeps
      | with_reducible apply putF_keeps | with_reducible apply ite_keeps | (with_reducible intro _) | simp only [mk_keeps]
      | simp only [mkSec_keeps] | split

theorem clearTables_keeps (g : Graph) (hk : Keeps z s) : Keeps z (clearTables g s) := by
  unfold clearTables
  try dsimp only
  repeat' first
      | with_reducible assumption | with_reducible apply forAll_keeps | with_reducible apply forAll_keeps
      | with_reducible apply grpWrite_keeps | with_reducible apply ite_keeps | (with_reducible intro _) | simp only [mk_keeps]
      | simp only [mkSec_keeps] | split

theorem showLanes_keeps (k : Nat) (g : Graph) (hk : Keeps z s) : Keeps z (showLanes k g s) := by
  unfold showLanes
  try dsimp only
  repeat' first
      | with_reducible assumption | with_reducible apply forAll_keeps | with_reducible apply forAll_keeps
      | with_reducible apply putReg_keeps | with_reducible apply ite_keeps | (with_reducible intro _) | simp only [mk_keeps]
      | simp only [mkSec_keeps] | split

theorem initChanged_keeps (d : Stack) (u : Fin 17) (hk : Keeps z s) : Keeps z (initChanged d u s) := by
  unfold initChanged
  try dsimp only
  repeat' first
      | with_reducible assumption | with_reducible apply forAll_keeps | with_reducible apply initMem_keeps
      | with_reducible apply updVc_keeps | with_reducible apply updLp_keeps | with_reducible apply ite_keeps
      | (with_reducible intro _) | simp only [mk_keeps] | simp only [mkSec_keeps] | split

theorem initCodes_keeps (part : Nat) (pl : Place) (hk : Keeps z s) : Keeps z (initCodes part pl s) := by
  unfold initCodes
  try dsimp only
  repeat' first
      | with_reducible assumption | with_reducible apply forAll_keeps | with_reducible apply initChanged_keeps
      | with_reducible apply ite_keeps | (with_reducible intro _) | simp only [mk_keeps] | simp only [mkSec_keeps] | split

theorem installGraph_keeps (l : Loading) (i : List Byte) (pl : Place) (hk : Keeps z s) : Keeps z (installGraph l i pl s) := by
  unfold installGraph
  try dsimp only
  repeat' first
      | with_reducible assumption | with_reducible apply putGraph_keeps | with_reducible apply initCodes_keeps
      | with_reducible apply forAll_keeps | with_reducible apply putReg_keeps | with_reducible apply setRoles_keeps
      | with_reducible apply clearTables_keeps | with_reducible apply devWrite_keeps | with_reducible apply setObj_keeps
      | with_reducible apply putF_keeps | with_reducible apply graphsChanged_keeps | with_reducible apply createInst_keeps
      | with_reducible apply showLanes_keeps | with_reducible apply getD_keeps | with_reducible apply ite_keeps
      | (with_reducible intro _) | simp only [mk_keeps] | simp only [mkSec_keeps] | split

theorem execGraphLoadComplete_keeps {handle : BitVec 16} {img : Option (List Byte)} {sig : Bool} {pl : Place} {s₁ : State}
    (hk : Keeps z s) (e : execGraphLoadComplete handle img sig pl s = .next s₁) : Keeps z s₁ := by
  unfold execGraphLoadComplete at e
  try dsimp only at e
  repeat' split at e
  all_goals first | with_reducible refine done_keeps ?_ e | with_reducible refine done_keeps ?_ e
  all_goals (repeat' first
      | with_reducible assumption | with_reducible apply updSvc_keeps | with_reducible apply postEvent_keeps
      | with_reducible apply installGraph_keeps | with_reducible apply ite_keeps | (with_reducible intro _)
      | simp only [mk_keeps] | simp only [mkSec_keeps] | split)

theorem unloadGraph_keeps (k : Nat) (hk : Keeps z s) : Keeps z (unloadGraph k s) := by
  unfold unloadGraph
  try dsimp only
  repeat' first
      | with_reducible assumption | with_reducible apply forAll_keeps | with_reducible apply putInst_keeps
      | with_reducible apply updSvc_keeps | with_reducible apply putReg_keeps | with_reducible apply updTwin_keeps
      | with_reducible apply putGraph_keeps | with_reducible apply updHub_keeps | with_reducible apply graphsChanged_keeps
      | with_reducible apply ite_keeps | (with_reducible intro _) | simp only [mk_keeps] | simp only [mkSec_keeps] | split

theorem execUnloadGraph_keeps {s₁ : State} (hk : Keeps z s) (e : execUnloadGraph s = .next s₁) : Keeps z s₁ := by
  unfold execUnloadGraph at e
  try dsimp only at e
  repeat' split at e
  all_goals first
      | with_reducible refine done_keeps ?_ e | with_reducible refine refuse_keeps ?_ e
      | with_reducible refine done_keeps ?_ e
  all_goals (repeat' first
      | with_reducible assumption | with_reducible apply answer_keeps | with_reducible apply unloadGraph_keeps
      | with_reducible apply ite_keeps | (with_reducible intro _) | simp only [mk_keeps] | simp only [mkSec_keeps] | split)

theorem placeWeights_keeps (off : Nat) (chunk : List Byte) (w : WeightRec) (hk : Keeps z s) : Keeps z
    (placeWeights off chunk w s).2 := by
  unfold placeWeights
  try dsimp only
  repeat' first
      | with_reducible assumption | with_reducible apply unitWrite_keeps | with_reducible apply ite_keeps
      | (with_reducible intro _) | simp only [mk_keeps] | simp only [mkSec_keeps] | split
theorem placeWeights_keepsE {off : Nat} {chunk : List Byte} {w : WeightRec} {x0 : _} {s₁ : State} (hk : Keeps z s) (he :
    placeWeights off chunk w s = (x0, s₁)) : Keeps z s₁ := by
  have k₁ := placeWeights_keeps off chunk w hk
  rw [he] at k₁
  exact k₁

theorem execLoadWeights_keeps {chunk : Option (List Byte)} {reached : Bool} {s₁ : State} (hk : Keeps z s) (e :
    execLoadWeights chunk reached s = .next s₁) : Keeps z s₁ := by
  unfold execLoadWeights at e
  try dsimp only at e
  repeat' split at e
  all_goals first
      | with_reducible refine done_keeps ?_ e | with_reducible refine refuse_keeps ?_ e
      | with_reducible refine done_keeps ?_ e
  all_goals (repeat' first
      | with_reducible assumption | (with_reducible refine foldl_keeps (Keeps z) _ _ _ (fun _ _ _ => ?_) ?_)
      | (with_reducible refine foldr_keeps (Keeps z) _ _ _ (fun _ _ _ => ?_) ?_) | with_reducible apply foldl_keeps2
      | with_reducible apply foldr_keeps2 | with_reducible apply foldl_keeps3 | with_reducible apply foldr_keeps3
      | with_reducible apply placeWeights_keeps | (refine placeWeights_keepsE ?_ (by with_reducible assumption))
      | with_reducible apply updGraph_keeps | with_reducible apply answer_keeps | with_reducible apply ite_keeps
      | (with_reducible intro _) | simp only [mk_keeps] | simp only [mkSec_keeps] | split)

end Sys2Proof.Machine
end

