-- ==== Sys2Proof/Laws/KeepsReset.lean ====
section
/-! SUPPORT. What the definitions of Reset.lean keep. -/
namespace Sys2Proof.Machine

variable {z s : State}

theorem updRst_keeps (f : ResetCtl → ResetCtl) (hk : Keeps z s) : Keeps z (updRst f s) := by
  unfold updRst
  try dsimp only
  repeat' first
      | with_reducible assumption | with_reducible apply ite_keeps | (with_reducible intro _) | simp only [mk_keeps]
      | simp only [mkSec_keeps] | split

theorem clearRegs_keeps (level scope : Nat) (hk : Keeps z s) : Keeps z (clearRegs level scope s) := by
  unfold clearRegs
  try dsimp only
  repeat' first
      | with_reducible assumption | with_reducible apply forAll_keeps | with_reducible apply forAll_keeps
      | with_reducible apply putReg_keeps | with_reducible apply ite_keeps | (with_reducible intro _) | simp only [mk_keeps]
      | simp only [mkSec_keeps] | split

theorem clearDieMem_keeps (level : Nat) (d : Stack) (hk : Keeps z s) : Keeps z (clearDieMem level d s) := by
  unfold clearDieMem
  try dsimp only
  repeat' first
      | with_reducible assumption | with_reducible apply clearMem_keeps | with_reducible apply initMem_keeps
      | with_reducible apply ite_keeps | (with_reducible intro _) | simp only [mk_keeps] | simp only [mkSec_keeps] | split

theorem dropCores_keeps (d : Stack) (hk : Keeps z s) :
    Keeps z { s with cores := dropDie 16 d s.cores, bps := dropDie 384 d s.bps } := by
  refine hk.of rfl rfl rfl rfl rfl fun x => ?_
  obtain ⟨h0, h1, h2, h3, h4, h5, h6, h7, h8, h9, h10, h11⟩ := canon_iff.1 x
  exact canon_iff.2 ⟨h0, h1, h2, canonical_filter (d := fun _ => Core.reset) h3, canonical_filter (d := fun _ => Bp.reset) h4, h5, h6, h7,
    h8, h9, h10, h11⟩
theorem dropControllers_keeps (d : Stack) (hk : Keeps z s) :
    Keeps z { s with vcs := dropDie 16 d s.vcs, lps := dropDie 1 d s.lps } := by
  refine hk.of rfl rfl rfl rfl rfl fun x => ?_
  obtain ⟨h0, h1, h2, h3, h4, h5, h6, h7, h8, h9, h10, h11⟩ := canon_iff.1 x
  exact canon_iff.2 ⟨h0, h1, h2, h3, h4, canonical_filter (d := fun _ => Vc.reset) h5, canonical_filter (d := fun _ => Lp.reset) h6, h7,
    h8, h9, h10, h11⟩
theorem dropFabric_keeps (d : Stack) {a b : List Flight} {c : List FlashMsg} (hk : Keeps z s) :
    Keeps z { s with routers := dropDie 4 d s.routers, dies := dropDie 1 d s.dies, therm := dropDie 1 d s.therm, flights := a,
                     crossings := b, flash := c } := by
  refine hk.of rfl rfl rfl rfl rfl fun x => ?_
  obtain ⟨h0, h1, h2, h3, h4, h5, h6, h7, h8, h9, h10, h11⟩ := canon_iff.1 x
  exact canon_iff.2 ⟨h0, h1, h2, h3, h4, h5, h6, canonical_filter (d := fun _ => Router.reset) h7,
    canonical_filter (d := fun _ => Die.reset) h8, canonical_filter (d := fun _ => DieTherm.reset) h9, h10, h11⟩
theorem clearDieParts_keeps (level : Nat) (d : Stack) (hk : Keeps z s) : Keeps z (clearDieParts level d s) := by
  have h := dropCores_keeps d hk
  have h₁ := dropControllers_keeps d h
  have h₂ : Keeps z (updLp d (fun p => { p with groups := [], headers := [] }) (forAll allCores (fun c s =>
      updVc d c (fun v => { v with groups := [] }) s) { s with cores := dropDie 16 d s.cores, bps := dropDie 384 d s.bps })) :=
    updLp_keeps _ _ (forAll_keeps _ _ (fun _ _ => updVc_keeps _ _ _) h)
  unfold clearDieParts
  dsimp only
  refine ite_keeps (fun _ => ite_keeps (fun _ => h₁) fun _ => h₂) fun _ => dropFabric_keeps d ?_
  exact ite_keeps (fun _ => h₁) fun _ => h₂

theorem dropPortBeats_keeps (d : Stack) (hk : Keeps z s) : Keeps z (dropPortBeats d s) := by
  unfold dropPortBeats
  try dsimp only
  repeat' first
      | with_reducible assumption | with_reducible apply forAll_keeps | with_reducible apply routerFault_keeps
      | with_reducible apply ite_keeps | (with_reducible intro _) | simp only [mk_keeps] | simp only [mkSec_keeps] | split

theorem clearDie_keeps (level : Nat) (d : Stack) (hk : Keeps z s) : Keeps z (clearDie level d s) := by
  unfold clearDie
  try dsimp only
  repeat' first
      | with_reducible assumption | with_reducible apply clearDieParts_keeps | with_reducible apply clearDieMem_keeps
      | with_reducible apply clearRegs_keeps | with_reducible apply dropPortBeats_keeps | with_reducible apply ite_keeps
      | (with_reducible intro _) | simp only [mk_keeps] | simp only [mkSec_keeps] | split

theorem discardSessions_keeps (k : Nat) (hk : Keeps z s) : Keeps z (discardSessions k s) := by
  unfold discardSessions
  try dsimp only
  repeat' first
      | with_reducible assumption | with_reducible apply forAll_keeps | with_reducible apply forAll_keeps
      | with_reducible apply putSess_keeps | with_reducible apply postSess_keeps | with_reducible apply ite_keeps
      | (with_reducible intro _) | simp only [mk_keeps] | simp only [mkSec_keeps] | split

theorem unloadPart_keeps (p : Nat) (hk : Keeps z s) : Keeps z (unloadPart p s) := by
  unfold unloadPart
  try dsimp only
  repeat' first
      | with_reducible assumption | with_reducible apply forAll_keeps | with_reducible apply forAll_keeps
      | with_reducible apply unloadGraph_keeps | with_reducible apply discardSessions_keeps | with_reducible apply ite_keeps
      | (with_reducible intro _) | simp only [mk_keeps] | simp only [mkSec_keeps] | split

theorem haltForReset_keeps (d : Stack) (core : Bool) (hk : Keeps z s) : Keeps z (haltForReset d core s) := by
  unfold haltForReset
  try dsimp only
  repeat' first
      | with_reducible assumption | with_reducible apply staleObjs_keeps | with_reducible apply updHub_keeps
      | with_reducible apply unloadPart_keeps | with_reducible apply reportHalt_keeps | with_reducible apply floodAbort_keeps
      | with_reducible apply poisonDie_keeps | with_reducible apply ite_keeps | (with_reducible intro _)
      | simp only [mk_keeps] | simp only [mkSec_keeps] | split

theorem settleFuses_keeps (hk : Keeps z s) : Keeps z (settleFuses s) := by
  unfold settleFuses
  try dsimp only
  repeat' first
      | with_reducible assumption | with_reducible apply putF_keeps | with_reducible apply ite_keeps
      | (with_reducible intro _) | simp only [mk_keeps] | simp only [mkSec_keeps] | split

theorem clearHub_keeps (level : Nat) (hk : Keeps z s) : Keeps z (clearHub level s) := by
  have h := settleFuses_keeps hk
  unfold clearHub
  dsimp only
  generalize settleFuses s = t at h
  refine ⟨h.queue, h.fused, h.debug, fun x => ?_, h.rail, fun _ => Nat.zero_le _⟩
  obtain ⟨h0, h1, h2, h3, h4, h5, h6, h7, h8, h9, h10, h11⟩ := canon_iff.1 (h.canon x)
  exact canon_iff.2 ⟨h0, h1, h2, h3, h4, h5, h6, h7, h8, h9, rfl, h11⟩

theorem clearService_keeps (hk : Keeps z s) : Keeps z (clearService s) := by
  unfold clearService
  try dsimp only
  repeat' first
      | with_reducible assumption | with_reducible apply forAll_keeps | with_reducible apply unloadGraph_keeps
      | with_reducible apply discardSessions_keeps | with_reducible apply updSvc_keeps | with_reducible apply ite_keeps
      | (with_reducible intro _) | simp only [mk_keeps] | simp only [mkSec_keeps] | split

theorem beginReset_keeps (q : RstSeq) (hk : Keeps z s) : Keeps z (beginReset q s) := by
  unfold beginReset
  try dsimp only
  repeat' first
      | with_reducible assumption | with_reducible apply forAll_keeps | with_reducible apply clearHub_keeps
      | with_reducible apply clearRegs_keeps | with_reducible apply forAll_keeps | with_reducible apply clearDieParts_keeps
      | with_reducible apply clearDieMem_keeps | with_reducible apply updRst_keeps | with_reducible apply haltForReset_keeps
      | with_reducible apply clearService_keeps | with_reducible apply ite_keeps | (with_reducible intro _)
      | simp only [mk_keeps] | simp only [mkSec_keeps] | split

theorem acceptWith_keeps (delayed : Bool) (level scope cause : Nat) (latched : Bool) (hk : Keeps z s) : Keeps z (acceptWith
    delayed level scope cause latched s) := by
  unfold acceptWith
  try dsimp only
  repeat' first
      | with_reducible assumption | (with_reducible refine foldl_keeps (Keeps z) _ _ _ (fun _ _ _ => ?_) ?_)
      | (with_reducible refine foldr_keeps (Keeps z) _ _ _ (fun _ _ _ => ?_) ?_) | with_reducible apply foldl_keeps2
      | with_reducible apply foldr_keeps2 | with_reducible apply foldl_keeps3 | with_reducible apply foldr_keeps3
      | with_reducible apply updRst_keeps | with_reducible apply beginReset_keeps | with_reducible apply ite_keeps
      | (with_reducible intro _) | simp only [mk_keeps] | simp only [mkSec_keeps] | split

theorem acceptReset_keeps (level scope cause : Nat) (latched : Bool) (hk : Keeps z s) : Keeps z (acceptReset level scope cause
    latched s) := by
  unfold acceptReset
  try dsimp only
  repeat' first
      | with_reducible assumption | with_reducible apply acceptWith_keeps | with_reducible apply ite_keeps
      | (with_reducible intro _) | simp only [mk_keeps] | simp only [mkSec_keeps] | split

theorem acceptWaiting_keeps (hk : Keeps z s) : Keeps z (acceptWaiting s) := by
  unfold acceptWaiting
  try dsimp only
  repeat' first
      | with_reducible assumption | with_reducible apply forAll_keeps | with_reducible apply acceptWith_keeps
      | with_reducible apply updRst_keeps | with_reducible apply ite_keeps | (with_reducible intro _) | simp only [mk_keeps]
      | simp only [mkSec_keeps] | split

theorem execPwrGoodInactive_keeps {s₁ : State} (hk : Keeps z s) (e : execPwrGoodInactive s = .next s₁) : Keeps z s₁ := by
  unfold execPwrGoodInactive at e
  with_reducible refine done_keeps ?_ e
  repeat' first
      | with_reducible assumption | with_reducible apply acceptReset_keeps | with_reducible apply updRst_keeps
      | with_reducible apply ite_keeps | (with_reducible intro _) | simp only [mk_keeps] | simp only [mkSec_keeps] | split

theorem execPwrGoodActive_keeps {s₁ : State} (hk : Keeps z s) (e : execPwrGoodActive s = .next s₁) : Keeps z s₁ := by
  unfold execPwrGoodActive at e
  with_reducible refine done_keeps ?_ e
  repeat' first
      | with_reducible assumption | with_reducible apply updRst_keeps | with_reducible apply ite_keeps
      | (with_reducible intro _) | simp only [mk_keeps] | simp only [mkSec_keeps] | split

theorem execRefclkAbsent_keeps {s₁ : State} (hk : Keeps z s) (e : execRefclkAbsent s = .next s₁) : Keeps z s₁ := by
  unfold execRefclkAbsent at e
  with_reducible refine done_keeps ?_ e
  repeat' first
      | with_reducible assumption | with_reducible apply acceptReset_keeps | with_reducible apply updRst_keeps
      | with_reducible apply ite_keeps | (with_reducible intro _) | simp only [mk_keeps] | simp only [mkSec_keeps] | split

theorem execRefclkReturn_keeps {s₁ : State} (hk : Keeps z s) (e : execRefclkReturn s = .next s₁) : Keeps z s₁ := by
  unfold execRefclkReturn at e
  with_reducible refine done_keeps ?_ e
  repeat' first
      | with_reducible assumption | with_reducible apply updRst_keeps | with_reducible apply ite_keeps
      | (with_reducible intro _) | simp only [mk_keeps] | simp only [mkSec_keeps] | split

theorem execResetLAccepted_keeps {s₁ : State} (hk : Keeps z s) (e : execResetLAccepted s = .next s₁) : Keeps z s₁ := by
  unfold execResetLAccepted at e
  with_reducible refine done_keeps ?_ e
  repeat' first
      | with_reducible assumption | with_reducible apply acceptReset_keeps | with_reducible apply updRst_keeps
      | with_reducible apply ite_keeps | (with_reducible intro _) | simp only [mk_keeps] | simp only [mkSec_keeps] | split

theorem execResetLRelease_keeps {s₁ : State} (hk : Keeps z s) (e : execResetLRelease s = .next s₁) : Keeps z s₁ := by
  unfold execResetLRelease at e
  with_reducible refine done_keeps ?_ e
  repeat' first
      | with_reducible assumption | with_reducible apply updRst_keeps | with_reducible apply ite_keeps
      | (with_reducible intro _) | simp only [mk_keeps] | simp only [mkSec_keeps] | split

theorem execWatchdogExpiry_keeps {ms : Nat} {s₁ : State} (hk : Keeps z s) (e : execWatchdogExpiry ms s = .next s₁) :
    Keeps z s₁ := by
  unfold execWatchdogExpiry at e
  try dsimp only at e
  repeat' split at e
  all_goals first | with_reducible refine done_keeps ?_ e | with_reducible refine done_keeps ?_ e
  all_goals (repeat' first
      | with_reducible assumption | with_reducible apply acceptReset_keeps | with_reducible apply ite_keeps
      | (with_reducible intro _) | simp only [mk_keeps] | simp only [mkSec_keeps] | split)

theorem execKick_keeps {ms : Nat} {s₁ : State} (hk : Keeps z s) (e : execKick ms s = .next s₁) : Keeps z s₁ := by
  unfold execKick at e
  with_reducible refine done_keeps ?_ e
  repeat' first
      | with_reducible assumption | with_reducible apply updRst_keeps | with_reducible apply ite_keeps
      | (with_reducible intro _) | simp only [mk_keeps] | simp only [mkSec_keeps] | split

theorem thermalTrip_keeps (hk : Keeps z s) : Keeps z (thermalTrip s) := by
  unfold thermalTrip
  try dsimp only
  repeat' first
      | with_reducible assumption | with_reducible apply acceptReset_keeps | with_reducible apply updRst_keeps
      | with_reducible apply ite_keeps | (with_reducible intro _) | simp only [mk_keeps] | simp only [mkSec_keeps] | split

theorem execThermalTrip_keeps {s₁ : State} (hk : Keeps z s) (e : execThermalTrip s = .next s₁) : Keeps z s₁ := by
  unfold execThermalTrip at e
  with_reducible refine done_keeps ?_ e
  repeat' first
      | with_reducible assumption | with_reducible apply thermalTrip_keeps | with_reducible apply ite_keeps
      | (with_reducible intro _) | simp only [mk_keeps] | simp only [mkSec_keeps] | split

theorem execDebugReset_keeps {level : Fin 4} {scope : Option Stack} {s₁ : State} (hk : Keeps z s) (e :
    execDebugReset level scope s = .next s₁) : Keeps z s₁ := by
  unfold execDebugReset at e
  try dsimp only at e
  repeat' split at e
  all_goals first | with_reducible refine done_keeps ?_ e | with_reducible refine done_keeps ?_ e
  all_goals (repeat' first
      | with_reducible assumption | with_reducible apply acceptReset_keeps | with_reducible apply ite_keeps
      | (with_reducible intro _) | simp only [mk_keeps] | simp only [mkSec_keeps] | split)

theorem power_keeps {p : Power} (hp : p.railFault = false ∨ p.running = false) (hk : Keeps z s) : Keeps z
    { s with power := p } := by
  refine ⟨hk.queue, hk.fused, hk.debug, fun x => ?_, fun _ => ?_, hk.parts⟩
  · exact canon_iff.2 (canon_iff.1 (hk.canon x))
  · unfold railHeld
    rcases hp with hp | hp <;> simp [hp]
theorem powerLost_keeps (rail : Bool) (hk : Keeps z s) : Keeps z (powerLost rail s) :=
  acceptReset_keeps _ _ _ _ (power_keeps (.inr rfl) hk)

theorem execRailFault_keeps {s₁ : State} (hk : Keeps z s) (e : execRailFault s = .next s₁) : Keeps z s₁ := by
  unfold execRailFault at e
  with_reducible refine done_keeps ?_ e
  repeat' first
      | with_reducible assumption | with_reducible apply powerLost_keeps | with_reducible apply ite_keeps
      | (with_reducible intro _) | simp only [mk_keeps] | simp only [mkSec_keeps] | split

theorem execUndervoltage_keeps {s₁ : State} (hk : Keeps z s) (e : execUndervoltage s = .next s₁) : Keeps z s₁ := by
  unfold execUndervoltage at e
  with_reducible refine done_keeps ?_ e
  repeat' first
      | with_reducible assumption | with_reducible apply powerLost_keeps | with_reducible apply ite_keeps
      | (with_reducible intro _) | simp only [mk_keeps] | simp only [mkSec_keeps] | split

theorem execOvervoltage_keeps {s₁ : State} (hk : Keeps z s) (e : execOvervoltage s = .next s₁) : Keeps z s₁ := by
  unfold execOvervoltage at e
  with_reducible refine done_keeps ?_ e
  repeat' first
      | with_reducible assumption | with_reducible apply powerLost_keeps | with_reducible apply ite_keeps
      | (with_reducible intro _) | simp only [mk_keeps] | simp only [mkSec_keeps] | split

theorem execConversionStart_keeps {applied : Bool} {s₁ : State} (hk : Keeps z s) (e :
    execConversionStart applied s = .next s₁) :
    Keeps z s₁ := by
  unfold execConversionStart at e
  split at e
  · exact done_keeps hk e
  · exact done_keeps (updRst_keeps _ (power_keeps (.inl rfl) hk)) e

theorem execDieManagerUe_keeps {site : UeSite} {s₁ : State} (hk : Keeps z s) (e : execDieManagerUe site s = .next s₁) : Keeps
    z s₁ := by
  unfold execDieManagerUe at e
  try dsimp only at e
  repeat' split at e
  all_goals first
      | with_reducible refine done_keeps ?_ e | (injection e with e; subst e) | cases e
  all_goals (repeat' first
      | with_reducible assumption | with_reducible apply acceptReset_keeps | with_reducible apply recordErr_keeps
      | with_reducible apply ite_keeps | (with_reducible intro _) | simp only [mk_keeps] | simp only [mkSec_keeps] | split)

theorem execResetDomain_keeps {s₁ : State} (hk : Keeps z s) (e : execResetDomain s = .next s₁) : Keeps z s₁ := by
  unfold execResetDomain at e
  try dsimp only at e
  repeat' split at e
  all_goals first
      | with_reducible refine done_keeps ?_ e | with_reducible refine refuse_keeps ?_ e
      | with_reducible refine done_keeps ?_ e
  all_goals (repeat' first
      | with_reducible assumption | with_reducible apply answer_keeps | with_reducible apply updRst_keeps
      | with_reducible apply acceptReset_keeps | with_reducible apply ite_keeps | (with_reducible intro _)
      | simp only [mk_keeps] | simp only [mkSec_keeps] | split)

theorem execPackageResetTakesEffect_keeps {s₁ : State} (hk : Keeps z s) (e : execPackageResetTakesEffect s = .next s₁) :
    Keeps z s₁ := by
  unfold execPackageResetTakesEffect at e
  try dsimp only at e
  repeat' split at e
  all_goals first | with_reducible refine done_keeps ?_ e | with_reducible refine done_keeps ?_ e
  all_goals (repeat' first
      | with_reducible assumption | with_reducible apply acceptReset_keeps | with_reducible apply updRst_keeps
      | with_reducible apply ite_keeps | (with_reducible intro _) | simp only [mk_keeps] | simp only [mkSec_keeps] | split)

theorem dieActs_keeps (ok : Nat → Bool) (d : Stack) (hk : Keeps z s) : Keeps z (dieActs ok d s) := by
  unfold dieActs
  try dsimp only
  repeat' first
      | with_reducible assumption | with_reducible apply forAll_keeps | with_reducible apply forAll_keeps
      | with_reducible apply clearDie_keeps | with_reducible apply updRst_keeps | with_reducible apply ite_keeps
      | (with_reducible intro _) | simp only [mk_keeps] | simp only [mkSec_keeps] | split

theorem execCoreReset_keeps {d : Stack} {s₁ : State} (hk : Keeps z s) (e : execCoreReset d s = .next s₁) : Keeps z s₁ := by
  unfold execCoreReset at e
  with_reducible refine done_keeps ?_ e
  repeat' first
      | with_reducible assumption | with_reducible apply dieActs_keeps | with_reducible apply ite_keeps
      | (with_reducible intro _) | simp only [mk_keeps] | simp only [mkSec_keeps] | split

theorem execDieSystemReset_keeps {d : Stack} {s₁ : State} (hk : Keeps z s) (e : execDieSystemReset d s = .next s₁) :
    Keeps z s₁ := by
  unfold execDieSystemReset at e
  with_reducible refine done_keeps ?_ e
  repeat' first
      | with_reducible assumption | with_reducible apply dieActs_keeps | with_reducible apply ite_keeps
      | (with_reducible intro _) | simp only [mk_keeps] | simp only [mkSec_keeps] | split

theorem putSeq_keeps (q : RstSeq) (hk : Keeps z s) : Keeps z (putSeq q s) := by
  unfold putSeq
  try dsimp only
  repeat' first
      | with_reducible assumption | with_reducible apply updRst_keeps | with_reducible apply ite_keeps
      | (with_reducible intro _) | simp only [mk_keeps] | simp only [mkSec_keeps] | split

theorem writeDieCauses_keeps (q : RstSeq) (hk : Keeps z s) : Keeps z (writeDieCauses q s) := by
  unfold writeDieCauses
  try dsimp only
  repeat' first
      | with_reducible assumption | with_reducible apply forAll_keeps | with_reducible apply forAll_keeps
      | with_reducible apply putReg_keeps | with_reducible apply ite_keeps | (with_reducible intro _) | simp only [mk_keeps]
      | simp only [mkSec_keeps] | split

theorem execResetAssertionEnd_keeps {scope : Option Stack} {s₁ : State} (hk : Keeps z s) (e :
    execResetAssertionEnd scope s = .next s₁) : Keeps z s₁ := by
  unfold execResetAssertionEnd at e
  try dsimp only at e
  repeat' split at e
  all_goals first | with_reducible refine done_keeps ?_ e | with_reducible refine done_keeps ?_ e
  all_goals (repeat' first
      | with_reducible assumption | with_reducible apply putSeq_keeps | with_reducible apply writeDieCauses_keeps
      | with_reducible apply putReg_keeps | with_reducible apply ite_keeps | (with_reducible intro _) | simp only [mk_keeps]
      | simp only [mkSec_keeps] | split)

theorem release_keeps (scope n : Nat) (f : RstSeq → State → State) (hf : ∀ q t, Keeps z t → Keeps z (f q t)) (hk :
    Keeps z s) :
    Keeps z (release scope n f s) := by
  unfold release
  split
  · exact ite_keeps (fun _ => hf _ _ (putSeq_keeps _ hk)) fun _ => hk
  · exact hk

theorem execHubRelease_keeps {s₁ : State} (hk : Keeps z s) (e : execHubRelease s = .next s₁) : Keeps z s₁ := by
  unfold execHubRelease at e
  with_reducible refine done_keeps ?_ e
  repeat' first
      | with_reducible assumption | with_reducible apply release_keeps | with_reducible apply putF_keeps
      | with_reducible apply putReg_keeps | with_reducible apply ite_keeps | (with_reducible intro _) | simp only [mk_keeps]
      | simp only [mkSec_keeps] | split

theorem execRingRelease_keeps {s₁ : State} (hk : Keeps z s) (e : execRingRelease s = .next s₁) : Keeps z s₁ := by
  unfold execRingRelease at e
  with_reducible refine done_keeps ?_ e
  repeat' first
      | with_reducible assumption | with_reducible apply release_keeps | with_reducible apply ite_keeps
      | (with_reducible intro _) | simp only [mk_keeps] | simp only [mkSec_keeps] | split

theorem execDieManagerRelease_keeps {scope : Option Stack} {s₁ : State} (hk : Keeps z s) (e :
    execDieManagerRelease scope s = .next s₁) : Keeps z s₁ := by
  unfold execDieManagerRelease at e
  with_reducible refine done_keeps ?_ e
  repeat' first
      | with_reducible assumption | with_reducible apply release_keeps | with_reducible apply writeDieCauses_keeps
      | with_reducible apply ite_keeps | (with_reducible intro _) | simp only [mk_keeps] | simp only [mkSec_keeps] | split

theorem isolateAll_keeps (q : RstSeq) (hk : Keeps z s) : Keeps z (isolateAll q s) := by
  unfold isolateAll
  try dsimp only
  repeat' first
      | with_reducible assumption | with_reducible apply forAll_keeps | with_reducible apply isolatePort_keeps
      | with_reducible apply ite_keeps | (with_reducible intro _) | simp only [mk_keeps] | simp only [mkSec_keeps] | split

theorem execFabricRelease_keeps {scope : Option Stack} {s₁ : State} (hk : Keeps z s) (e :
    execFabricRelease scope s = .next s₁) : Keeps z s₁ := by
  unfold execFabricRelease at e
  with_reducible refine done_keeps ?_ e
  repeat' first
      | with_reducible assumption | with_reducible apply release_keeps | with_reducible apply isolateAll_keeps
      | with_reducible apply ite_keeps | (with_reducible intro _) | simp only [mk_keeps] | simp only [mkSec_keeps] | split

theorem execControllerRelease_keeps {scope : Option Stack} {s₁ : State} (hk : Keeps z s) (e :
    execControllerRelease scope s = .next s₁) : Keeps z s₁ := by
  unfold execControllerRelease at e
  with_reducible refine done_keeps ?_ e
  repeat' first
      | with_reducible assumption | with_reducible apply release_keeps | with_reducible apply ite_keeps
      | (with_reducible intro _) | simp only [mk_keeps] | simp only [mkSec_keeps] | split

theorem execDramBpRelease_keeps {scope : Option Stack} {s₁ : State} (hk : Keeps z s) (e :
    execDramBpRelease scope s = .next s₁) : Keeps z s₁ := by
  unfold execDramBpRelease at e
  with_reducible refine done_keeps ?_ e
  repeat' first
      | with_reducible assumption | with_reducible apply release_keeps | with_reducible apply ite_keeps
      | (with_reducible intro _) | simp only [mk_keeps] | simp only [mkSec_keeps] | split

theorem endReset_keeps (q : RstSeq) (hk : Keeps z s) : Keeps z (endReset q s) := by
  unfold endReset
  try dsimp only
  repeat' first
      | with_reducible assumption | with_reducible apply updRst_keeps | with_reducible apply ite_keeps
      | (with_reducible intro _) | simp only [mk_keeps] | simp only [mkSec_keeps] | split

theorem execCoreRelease_keeps {scope : Option Stack} {s₁ : State} (hk : Keeps z s) (e : execCoreRelease scope s = .next s₁) :
    Keeps z s₁ := by
  unfold execCoreRelease at e
  with_reducible refine done_keeps ?_ e
  repeat' first
      | with_reducible assumption | with_reducible apply release_keeps | with_reducible apply endReset_keeps
      | with_reducible apply ite_keeps | (with_reducible intro _) | simp only [mk_keeps] | simp only [mkSec_keeps] | split

end Sys2Proof.Machine
end

