-- ==== Sys2Proof/Laws/KeepsMgmtCmds.lean ====
section
/-! SUPPORT. What the definitions of MgmtCmds.lean keep. -/
namespace Sys2Proof.Machine

variable {z s : State}

theorem execIdentify_keeps {s₁ : State} (hk : Keeps z s) (e : execIdentify s = .next s₁) : Keeps z s₁ := by
  unfold execIdentify at e
  try dsimp only at e
  repeat' split at e
  all_goals first | with_reducible refine done_keeps ?_ e | with_reducible refine done_keeps ?_ e
  all_goals (repeat' first
      | with_reducible assumption | with_reducible apply answer_keeps | with_reducible apply ite_keeps
      | (with_reducible intro _) | simp only [mk_keeps] | simp only [mkSec_keeps] | split)

theorem execSetPowerCap_keeps {s₁ : State} (hk : Keeps z s) (e : execSetPowerCap s = .next s₁) : Keeps z s₁ := by
  unfold execSetPowerCap at e
  try dsimp only at e
  repeat' split at e
  all_goals first
      | with_reducible refine done_keeps ?_ e | with_reducible refine refuse_keeps ?_ e
      | with_reducible refine done_keeps ?_ e
  all_goals (repeat' first
      | with_reducible assumption | with_reducible apply forAll_keeps | with_reducible apply answer_keeps
      | with_reducible apply forAll_keeps | with_reducible apply putF_keeps | with_reducible apply ite_keeps
      | (with_reducible intro _) | simp only [mk_keeps] | simp only [mkSec_keeps] | split)

theorem scrubCount_keeps (d : Stack) (u : Fin 17) (r : Nat × Nat × State) (a : Nat) (hk : Keeps z r.2.2) :
    Keeps z (scrubCount d u r a).2.2 := by
  unfold scrubCount
  obtain ⟨c, b, s⟩ := r
  dsimp only at hk ⊢
  have h := scrubWord_keeps d u a [] hk
  split <;> exact h

theorem execScrubRegion_keeps {s₁ : State} (hk : Keeps z s) (e : execScrubRegion s = .next s₁) : Keeps z s₁ := by
  unfold execScrubRegion at e
  try dsimp only at e
  repeat' split at e
  all_goals first
      | with_reducible refine done_keeps ?_ e | with_reducible refine refuse_keeps ?_ e
      | with_reducible refine done_keeps ?_ e
  all_goals (repeat' first
      | with_reducible assumption | (with_reducible refine foldl_keeps (Keeps z) _ _ _ (fun _ _ _ => ?_) ?_)
      | (with_reducible refine foldr_keeps (Keeps z) _ _ _ (fun _ _ _ => ?_) ?_) | with_reducible apply foldl_keeps2
      | with_reducible apply foldr_keeps2 | with_reducible apply foldl_keeps3 | with_reducible apply foldr_keeps3
      | with_reducible apply scrubCount_keeps | (refine scrubCount_keepsE ?_ (by with_reducible assumption))
      | with_reducible apply answer_keeps | with_reducible apply ite_keeps | (with_reducible intro _) | simp only [mk_keeps]
      | simp only [mkSec_keeps] | split)

theorem startRetrain_keeps (t : RetrainTarget) (hk : Keeps z s) : Keeps z (startRetrain t s) := by
  unfold startRetrain
  try dsimp only
  repeat' first
      | with_reducible assumption | with_reducible apply requestRetrain_keeps | with_reducible apply vaultRetrain_keeps
      | with_reducible apply lpFullRetrain_keeps | with_reducible apply ite_keeps | (with_reducible intro _)
      | simp only [mk_keeps] | simp only [mkSec_keeps] | split

theorem execRetrain_keeps {late : Bool} {s₁ : State} (hk : Keeps z s) (e : execRetrain late s = .next s₁) : Keeps z s₁ := by
  unfold execRetrain at e
  try dsimp only at e
  repeat' split at e
  all_goals first
      | with_reducible refine done_keeps ?_ e | with_reducible refine refuse_keeps ?_ e
      | with_reducible refine done_keeps ?_ e
  all_goals (repeat' first
      | with_reducible assumption | with_reducible apply startRetrain_keeps | with_reducible apply updSvc_keeps
      | with_reducible apply answer_keeps | with_reducible apply ite_keeps | (with_reducible intro _) | simp only [mk_keeps]
      | simp only [mkSec_keeps] | split)

theorem execRetrainComplete_keeps {n : Nat} {s₁ : State} (hk : Keeps z s) (e : execRetrainComplete n s = .next s₁) :
    Keeps z s₁ := by
  unfold execRetrainComplete at e
  try dsimp only at e
  repeat' split at e
  all_goals first | with_reducible refine done_keeps ?_ e | with_reducible refine done_keeps ?_ e
  all_goals (repeat' first
      | with_reducible assumption | with_reducible apply updSvc_keeps | with_reducible apply postEvent_keeps
      | with_reducible apply ite_keeps | (with_reducible intro _) | simp only [mk_keeps] | simp only [mkSec_keeps] | split)

theorem writeEntries_keeps {size : Nat} {unit : Nat} {l : List Nat} {ok : Bool} {s₁ : State} (hk : Keeps z s) (e :
    writeEntries size unit l ok s = .next s₁) : Keeps z s₁ := by
  unfold writeEntries at e
  try dsimp only at e
  repeat' split at e
  all_goals first
      | with_reducible refine refuse_keeps ?_ e | with_reducible refine done_keeps ?_ e
      | with_reducible refine done_keeps ?_ e
  all_goals (repeat' first
      | with_reducible assumption | with_reducible apply answer_keeps | with_reducible apply storeBlock_keeps
      | with_reducible apply ite_keeps | (with_reducible intro _) | simp only [mk_keeps] | simp only [mkSec_keeps] | split)

theorem execGetTelemetry_keeps {ok : Bool} {s₁ : State} (hk : Keeps z s) (e : execGetTelemetry ok s = .next s₁) :
    Keeps z s₁ := by
  unfold execGetTelemetry at e
  try dsimp only at e
  repeat' split at e
  all_goals first
      | with_reducible refine done_keeps ?_ e | with_reducible refine writeEntries_keeps ?_ e
      | with_reducible refine done_keeps ?_ e
  all_goals (repeat' first
      | with_reducible assumption | with_reducible apply ite_keeps | (with_reducible intro _) | simp only [mk_keeps]
      | simp only [mkSec_keeps] | split)

theorem execGetMemmap_keeps {ok : Bool} {s₁ : State} (hk : Keeps z s) (e : execGetMemmap ok s = .next s₁) : Keeps z s₁ := by
  unfold execGetMemmap at e
  try dsimp only at e
  repeat' split at e
  all_goals first
      | with_reducible refine done_keeps ?_ e | with_reducible refine writeEntries_keeps ?_ e
      | with_reducible refine done_keeps ?_ e
  all_goals (repeat' first
      | with_reducible assumption | with_reducible apply ite_keeps | (with_reducible intro _) | simp only [mk_keeps]
      | simp only [mkSec_keeps] | split)

theorem execGetLog_keeps {ok : Bool} {s₁ : State} (hk : Keeps z s) (e : execGetLog ok s = .next s₁) : Keeps z s₁ := by
  unfold execGetLog at e
  try dsimp only at e
  repeat' split at e
  all_goals first
      | with_reducible refine done_keeps ?_ e | with_reducible refine refuse_keeps ?_ e
      | with_reducible refine done_keeps ?_ e
  all_goals (repeat' first
      | with_reducible assumption | with_reducible apply takeFree_keeps
      | (refine takeFree_keepsE ?_ (by with_reducible assumption)) | with_reducible apply answer_keeps
      | with_reducible apply storeBlock_keeps | with_reducible apply ite_keeps | (with_reducible intro _)
      | simp only [mk_keeps] | simp only [mkSec_keeps] | split)

theorem execMsiHoldoffExpiry_keeps {s₁ : State} (hk : Keeps z s) (e : execMsiHoldoffExpiry s = .next s₁) : Keeps z s₁ := by
  unfold execMsiHoldoffExpiry at e
  try dsimp only at e
  repeat' split at e
  all_goals first | with_reducible refine done_keeps ?_ e | with_reducible refine done_keeps ?_ e
  all_goals (repeat' first
      | with_reducible assumption | with_reducible apply updHub_keeps | with_reducible apply signalMsi_keeps
      | with_reducible apply ite_keeps | (with_reducible intro _) | simp only [mk_keeps] | simp only [mkSec_keeps] | split)

end Sys2Proof.Machine
end

