-- ==== Sys2Proof/Laws/KeepsSecurity.lean ====
section
/-! SUPPORT. What the definitions of Security.lean keep. -/
namespace Sys2Proof.Machine

variable {z s : State}

theorem updSec_keeps (f : Sec → Sec) (hf : s.sec.debugFuses ≤ (f s.sec).debugFuses) (hk : Keeps z s) : Keeps z
    (updSec f s) := by
  refine ⟨hk.queue, hk.fused, Nat.le_trans hk.debug hf, fun x => ?_, hk.rail, hk.parts⟩
  exact canon_iff.2 (canon_iff.1 (hk.canon x))

theorem startFirmware_keeps (src : Nat) (b : List Byte) (hk : Keeps z s) : Keeps z (startFirmware src b s) := by
  unfold startFirmware
  try dsimp only
  repeat' first
      | with_reducible assumption | with_reducible apply takeFreeNat_keeps
      | (refine takeFreeNat_keepsE ?_ (by with_reducible assumption)) | with_reducible apply updSec_keeps
      | exact Nat.le_refl _ | exact Nat.le_succ _ | with_reducible apply putF_keeps | with_reducible apply ite_keeps
      | (with_reducible intro _) | simp only [mk_keeps] | simp only [mkSec_keeps] | split

theorem execHubFirmwareLoad_keeps {ext : Option (List Byte)} {sigs : List Bool} {s₁ : State} (hk : Keeps z s) (e :
    execHubFirmwareLoad ext sigs s = .next s₁) : Keeps z s₁ := by
  unfold execHubFirmwareLoad at e
  try dsimp only at e
  repeat' split at e
  all_goals first | with_reducible refine done_keeps ?_ e | with_reducible refine done_keeps ?_ e
  all_goals (repeat' first
      | with_reducible assumption | with_reducible apply outcome_keeps | with_reducible apply startFirmware_keeps
      | with_reducible apply putF_keeps | with_reducible apply ite_keeps | (with_reducible intro _) | simp only [mk_keeps]
      | simp only [mkSec_keeps] | split)

theorem execGale_keeps {auth : Bool} {bad : Option Stack} {s₁ : State} (hk : Keeps z s) (e :
    execGale auth bad s = .next s₁) : Keeps z s₁ := by
  unfold execGale at e
  try dsimp only at e
  repeat' split at e
  all_goals first | with_reducible refine done_keeps ?_ e | with_reducible refine done_keeps ?_ e
  all_goals (repeat' first
      | with_reducible assumption | with_reducible apply outcome_keeps | with_reducible apply updSec_keeps
      | exact Nat.le_refl _ | exact Nat.le_succ _ | with_reducible apply ite_keeps | (with_reducible intro _)
      | simp only [mk_keeps] | simp only [mkSec_keeps] | split)

theorem setInstall_keeps (n : Nat) (hk : Keeps z s) : Keeps z (setInstall n s) := by
  unfold setInstall
  try dsimp only
  repeat' first
      | with_reducible assumption | with_reducible apply putF_keeps | with_reducible apply ite_keeps
      | (with_reducible intro _) | simp only [mk_keeps] | simp only [mkSec_keeps] | split

theorem failInstall_keeps (hk : Keeps z s) : Keeps z (failInstall s) := by
  unfold failInstall
  try dsimp only
  repeat' first
      | with_reducible assumption | with_reducible apply setInstall_keeps | with_reducible apply updSec_keeps
      | exact Nat.le_refl _ | exact Nat.le_succ _ | with_reducible apply ite_keeps | (with_reducible intro _)
      | simp only [mk_keeps] | simp only [mkSec_keeps] | split

theorem execInstall_keeps {ok : Bool} {s₁ : State} (hk : Keeps z s) (e : execInstall ok s = .next s₁) : Keeps z s₁ := by
  unfold execInstall at e
  try dsimp only at e
  repeat' split at e
  all_goals first | with_reducible refine done_keeps ?_ e | with_reducible refine done_keeps ?_ e
  all_goals (repeat' first
      | with_reducible assumption | with_reducible apply setInstall_keeps | with_reducible apply putF_keeps
      | with_reducible apply updSec_keeps | exact Nat.le_refl _ | exact Nat.le_succ _ | with_reducible apply failInstall_keeps
      | with_reducible apply ite_keeps | (with_reducible intro _) | simp only [mk_keeps] | simp only [mkSec_keeps] | split)

theorem execInstallComplete_keeps {ok : Bool} {s₁ : State} (hk : Keeps z s) (e : execInstallComplete ok s = .next s₁) :
    Keeps z s₁ := by
  unfold execInstallComplete at e
  try dsimp only at e
  repeat' split at e
  all_goals first | with_reducible refine done_keeps ?_ e | with_reducible refine done_keeps ?_ e
  all_goals (repeat' first
      | with_reducible assumption | with_reducible apply failInstall_keeps | with_reducible apply setInstall_keeps
      | with_reducible apply putF_keeps | with_reducible apply updSec_keeps | exact Nat.le_refl _ | exact Nat.le_succ _
      | with_reducible apply ite_keeps | (with_reducible intro _) | simp only [mk_keeps] | simp only [mkSec_keeps] | split)

theorem startPulse_keeps (n : Nat) (hk : Keeps z s) : Keeps z (startPulse n s) := by
  unfold startPulse
  try dsimp only
  repeat' first
      | with_reducible assumption | with_reducible apply updSec_keeps | exact Nat.le_refl _ | exact Nat.le_succ _
      | with_reducible apply ite_keeps | (with_reducible intro _) | simp only [mk_keeps] | simp only [mkSec_keeps] | split

theorem endAdvance_keeps (status i : Nat) (hk : Keeps z s) : Keeps z (endAdvance status i s) := by
  unfold endAdvance
  try dsimp only
  repeat' first
      | with_reducible assumption | with_reducible apply answer_keeps | with_reducible apply updSec_keeps
      | exact Nat.le_refl _ | exact Nat.le_succ _ | with_reducible apply putF_keeps | with_reducible apply ite_keeps
      | (with_reducible intro _) | simp only [mk_keeps] | simp only [mkSec_keeps] | split

theorem execAdvanceRollback_keeps {s₁ : State} (hk : Keeps z s) (e : execAdvanceRollback s = .next s₁) : Keeps z s₁ := by
  unfold execAdvanceRollback at e
  try dsimp only at e
  repeat' split at e
  all_goals first
      | with_reducible refine done_keeps ?_ e | with_reducible refine refuse_keeps ?_ e
      | with_reducible refine done_keeps ?_ e
  all_goals (repeat' first
      | with_reducible assumption | with_reducible apply endAdvance_keeps | with_reducible apply startPulse_keeps
      | with_reducible apply updSec_keeps | exact Nat.le_refl _ | exact Nat.le_succ _ | with_reducible apply ite_keeps
      | (with_reducible intro _) | simp only [mk_keeps] | simp only [mkSec_keeps] | split)

theorem execCloseDebug_keeps {s₁ : State} (hk : Keeps z s) (e : execCloseDebug s = .next s₁) : Keeps z s₁ := by
  unfold execCloseDebug at e
  try dsimp only at e
  repeat' split at e
  all_goals first
      | with_reducible refine done_keeps ?_ e | with_reducible refine refuse_keeps ?_ e
      | with_reducible refine done_keeps ?_ e
  all_goals (repeat' first
      | with_reducible assumption | with_reducible apply answer_keeps | with_reducible apply startPulse_keeps
      | with_reducible apply ite_keeps | (with_reducible intro _) | simp only [mk_keeps] | simp only [mkSec_keeps] | split)

theorem pulseResult_keeps (p : Nat) (ok : Bool) (hk : Keeps z s) : Keeps z (pulseResult p ok s) := by
  unfold pulseResult
  try dsimp only
  repeat' first
      | with_reducible assumption | with_reducible apply answer_keeps | with_reducible apply putF_keeps
      | with_reducible apply updSec_keeps | exact Nat.le_refl _ | exact Nat.le_succ _ | with_reducible apply endAdvance_keeps
      | with_reducible apply ite_keeps | (with_reducible intro _) | simp only [mk_keeps] | simp only [mkSec_keeps] | split

theorem execWritePulseEnd_keeps {ok : Bool} {s₁ : State} (hk : Keeps z s) (e : execWritePulseEnd ok s = .next s₁) :
    Keeps z s₁ := by
  unfold execWritePulseEnd at e
  try dsimp only at e
  repeat' split at e
  all_goals first | with_reducible refine done_keeps ?_ e | with_reducible refine done_keeps ?_ e
  all_goals (repeat' first
      | with_reducible assumption | with_reducible apply acceptWaiting_keeps | with_reducible apply updSec_keeps
      | exact Nat.le_refl _ | exact Nat.le_succ _ | with_reducible apply pulseResult_keeps | with_reducible apply ite_keeps
      | (with_reducible intro _) | simp only [mk_keeps] | simp only [mkSec_keeps] | split)

theorem execGetIdKey_keeps {ok : Bool} {s₁ : State} (hk : Keeps z s) (e : execGetIdKey ok s = .next s₁) : Keeps z s₁ := by
  unfold execGetIdKey at e
  try dsimp only at e
  repeat' split at e
  all_goals first
      | with_reducible refine done_keeps ?_ e | with_reducible refine refuse_keeps ?_ e
      | with_reducible refine done_keeps ?_ e
  all_goals (repeat' first
      | with_reducible assumption | with_reducible apply answer_keeps | with_reducible apply storeBlock_keeps
      | with_reducible apply ite_keeps | (with_reducible intro _) | simp only [mk_keeps] | simp only [mkSec_keeps] | split)

theorem execAttest_keeps {ok : Bool} {s₁ : State} (hk : Keeps z s) (e : execAttest ok s = .next s₁) : Keeps z s₁ := by
  unfold execAttest at e
  try dsimp only at e
  repeat' split at e
  all_goals first
      | with_reducible refine done_keeps ?_ e | with_reducible refine refuse_keeps ?_ e
      | with_reducible refine done_keeps ?_ e
  all_goals (repeat' first
      | with_reducible assumption | with_reducible apply answer_keeps | with_reducible apply storeBlock_keeps
      | with_reducible apply ite_keeps | (with_reducible intro _) | simp only [mk_keeps] | simp only [mkSec_keeps] | split)

end Sys2Proof.Machine
end

