-- ==== Sys2Proof/Laws/KeepsTwin.lean ====
section
/-! SUPPORT. What the definitions of Twin.lean keep. -/
namespace Sys2Proof.Machine

variable {z s : State}

theorem setTwinF_keeps (f : Fld) (n : Nat) (hk : Keeps z s) : Keeps z (setTwinF f n s) := by
  unfold setTwinF
  try dsimp only
  repeat' first
      | with_reducible assumption | with_reducible apply putF_keeps | with_reducible apply ite_keeps
      | (with_reducible intro _) | simp only [mk_keeps] | simp only [mkSec_keeps] | split

theorem unmirrorAll_keeps (hk : Keeps z s) : Keeps z (unmirrorAll s) := by
  unfold unmirrorAll
  try dsimp only
  repeat' first
      | with_reducible assumption | with_reducible apply forAll_keeps | with_reducible apply updTwin_keeps
      | with_reducible apply forAll_keeps | with_reducible apply updSess_keeps | with_reducible apply ite_keeps
      | (with_reducible intro _) | simp only [mk_keeps] | simp only [mkSec_keeps] | split

theorem declareLost_keeps (hk : Keeps z s) : Keeps z (declareLost s) := by
  unfold declareLost
  try dsimp only
  repeat' first
      | with_reducible assumption | with_reducible apply raiseAlert_keeps | with_reducible apply postEvent_keeps
      | with_reducible apply setTwinF_keeps | with_reducible apply unmirrorAll_keeps | with_reducible apply updTwin_keeps
      | with_reducible apply ite_keeps | (with_reducible intro _) | simp only [mk_keeps] | simp only [mkSec_keeps] | split

theorem twinLinkDown_keeps (hk : Keeps z s) : Keeps z (twinLinkDown s) := by
  unfold twinLinkDown
  try dsimp only
  repeat' first
      | with_reducible assumption | with_reducible apply setTwinF_keeps | with_reducible apply ite_keeps
      | (with_reducible intro _) | simp only [mk_keeps] | simp only [mkSec_keeps] | split

theorem execTwinLinkTrainRetry_keeps {ok : Bool} {s₁ : State} (hk : Keeps z s) (e : execTwinLinkTrainRetry ok s = .next s₁) :
    Keeps z s₁ := by
  unfold execTwinLinkTrainRetry at e
  try dsimp only at e
  repeat' split at e
  all_goals first | with_reducible refine done_keeps ?_ e | with_reducible refine done_keeps ?_ e
  all_goals (repeat' first
      | with_reducible assumption | with_reducible apply twinLinkDown_keeps | with_reducible apply setTwinF_keeps
      | with_reducible apply ite_keeps | (with_reducible intro _) | simp only [mk_keeps] | simp only [mkSec_keeps] | split)

theorem execHeartbeatSend_keeps {s₁ : State} (hk : Keeps z s) (e : execHeartbeatSend s = .next s₁) : Keeps z s₁ := by
  unfold execHeartbeatSend at e
  try dsimp only at e
  repeat' split at e
  all_goals first | with_reducible refine done_keeps ?_ e | with_reducible refine done_keeps ?_ e
  all_goals (repeat' first
      | with_reducible assumption | with_reducible apply sendTwin_keeps | with_reducible apply updTwin_keeps
      | with_reducible apply ite_keeps | (with_reducible intro _) | simp only [mk_keeps] | simp only [mkSec_keeps] | split)

theorem heartbeatIn_keeps (mode flevel : Nat) (hk : Keeps z s) : Keeps z (heartbeatIn mode flevel s) := by
  unfold heartbeatIn
  try dsimp only
  repeat' first
      | with_reducible assumption | with_reducible apply bumpF_keeps | with_reducible apply setTwinF_keeps
      | with_reducible apply updTwin_keeps | with_reducible apply ite_keeps | (with_reducible intro _) | simp only [mk_keeps]
      | simp only [mkSec_keeps] | split

theorem execHeartbeat_keeps (_seq : BitVec 16) {mode : Fin 3} {flevel : Byte} (_ack : BitVec 32) {s₁ : State} (hk :
    Keeps z s) (e : execHeartbeat _seq mode flevel _ack s = .next s₁) : Keeps z s₁ := by
  unfold execHeartbeat at e
  try dsimp only at e
  repeat' split at e
  all_goals first | with_reducible refine done_keeps ?_ e | with_reducible refine done_keeps ?_ e
  all_goals (repeat' first
      | with_reducible assumption | with_reducible apply heartbeatIn_keeps | with_reducible apply ite_keeps
      | (with_reducible intro _) | simp only [mk_keeps] | simp only [mkSec_keeps] | split)

theorem execHeartbeatMiss_keeps {s₁ : State} (hk : Keeps z s) (e : execHeartbeatMiss s = .next s₁) : Keeps z s₁ := by
  unfold execHeartbeatMiss at e
  try dsimp only at e
  repeat' split at e
  all_goals first | with_reducible refine done_keeps ?_ e | with_reducible refine done_keeps ?_ e
  all_goals (repeat' first
      | with_reducible assumption | with_reducible apply updTwin_keeps | with_reducible apply declareLost_keeps
      | with_reducible apply ite_keeps | (with_reducible intro _) | simp only [mk_keeps] | simp only [mkSec_keeps] | split)

theorem putHeld_keeps (slot : Nat) (h : Option Held) (hk : Keeps z s) : Keeps z (putHeld slot h s) := by
  unfold putHeld
  try dsimp only
  repeat' first
      | with_reducible assumption | with_reducible apply updTwin_keeps | with_reducible apply ite_keeps
      | (with_reducible intro _) | simp only [mk_keeps] | simp only [mkSec_keeps] | split

theorem discardHeld_keeps (slot : Nat) (hk : Keeps z s) : Keeps z (discardHeld slot s) := by
  unfold discardHeld
  try dsimp only
  repeat' first
      | with_reducible assumption | with_reducible apply releaseFrom_keeps | with_reducible apply putHeld_keeps
      | with_reducible apply framesFreed_keeps | with_reducible apply reclaimTents_keeps | with_reducible apply fixRoots_keeps
      | with_reducible apply ite_keeps | (with_reducible intro _) | simp only [mk_keeps] | simp only [mkSec_keeps] | split

theorem dropHeld_keeps (slot : Nat) (hk : Keeps z s) : Keeps z (dropHeld slot s) := by
  unfold dropHeld
  try dsimp only
  repeat' first
      | with_reducible assumption | with_reducible apply satF_keeps | with_reducible apply discardHeld_keeps
      | with_reducible apply ite_keeps | (with_reducible intro _) | simp only [mk_keeps] | simp only [mkSec_keeps] | split

theorem holdSess_keeps (g : Graph) (x : Sess) (inStep : Bool) (hk : Keeps z s) : Keeps z (holdSess g x inStep s) := by
  unfold holdSess
  try dsimp only
  repeat' first
      | with_reducible assumption | with_reducible apply satF_keeps | with_reducible apply clearRoot_keeps
      | with_reducible apply putHeld_keeps | with_reducible apply ite_keeps | (with_reducible intro _) | simp only [mk_keeps]
      | simp only [mkSec_keeps] | split

theorem forgetSid_keeps (sid : Nat) (hk : Keeps z s) : Keeps z (forgetSid sid s) := by
  unfold forgetSid
  try dsimp only
  repeat' first
      | with_reducible assumption | with_reducible apply discardHeld_keeps | with_reducible apply ite_keeps
      | (with_reducible intro _) | simp only [mk_keeps] | simp only [mkSec_keeps] | split

theorem heldOpen_keeps (sid handle prio flags sampler inRing outRing inCons how : Nat) (hk : Keeps z s) : Keeps z
    (heldOpen sid handle prio flags sampler inRing outRing inCons how s) := by
  unfold heldOpen
  try dsimp only
  repeat' first
      | with_reducible assumption | with_reducible apply forgetSid_keeps | with_reducible apply satF_keeps
      | with_reducible apply holdSess_keeps | with_reducible apply ite_keeps | (with_reducible intro _) | simp only [mk_keeps]
      | simp only [mkSec_keeps] | split

theorem heldFork_keeps (parent sid f : Nat) (pin : Bool) (inRing outRing : Nat) (hk : Keeps z s) : Keeps z (heldFork parent
    sid f pin inRing outRing s) := by
  unfold heldFork
  try dsimp only
  repeat' first
      | with_reducible assumption | with_reducible apply forgetSid_keeps | with_reducible apply satF_keeps
      | with_reducible apply holdSess_keeps | with_reducible apply sharePages_keeps | with_reducible apply rootDsb_keeps
      | with_reducible apply ite_keeps | (with_reducible intro _) | simp only [mk_keeps] | simp only [mkSec_keeps] | split

theorem heldTruncate_keeps (sid t : Nat) (hk : Keeps z s) : Keeps z (heldTruncate sid t s) := by
  unfold heldTruncate
  try dsimp only
  repeat' first
      | with_reducible assumption | with_reducible apply reclaimTents_keeps | with_reducible apply fixRoots_keeps
      | with_reducible apply releaseFrom_keeps | with_reducible apply rootDsb_keeps | with_reducible apply framesFreed_keeps
      | with_reducible apply putHeld_keeps | with_reducible apply ite_keeps | (with_reducible intro _) | simp only [mk_keeps]
      | simp only [mkSec_keeps] | split

theorem applyMirOp_keeps (op : MirOp) (hk : Keeps z s) : Keeps z (applyMirOp op s) := by
  unfold applyMirOp
  try dsimp only
  repeat' first
      | with_reducible assumption | with_reducible apply heldOpen_keeps | with_reducible apply heldFork_keeps
      | with_reducible apply heldTruncate_keeps | with_reducible apply updAny_keeps | with_reducible apply forgetSid_keeps
      | with_reducible apply ite_keeps | (with_reducible intro _) | simp only [mk_keeps] | simp only [mkSec_keeps] | split

theorem execMirOp_keeps (_slot : Fin 4096) {op : MirOp} {s₁ : State} (hk : Keeps z s) (e : execMirOp _slot op s = .next s₁) :
    Keeps z s₁ := by
  unfold execMirOp at e
  try dsimp only at e
  repeat' split at e
  all_goals first | with_reducible refine done_keeps ?_ e | with_reducible refine done_keeps ?_ e
  all_goals (repeat' first
      | with_reducible assumption | with_reducible apply applyMirOp_keeps | with_reducible apply ite_keeps
      | (with_reducible intro _) | simp only [mk_keeps] | simp only [mkSec_keeps] | split)

theorem ackBurst_keeps (seq : Nat) (hk : Keeps z s) : Keeps z (ackBurst seq s) := by
  unfold ackBurst
  try dsimp only
  repeat' first
      | with_reducible assumption | with_reducible apply sendTwin_keeps | with_reducible apply updTwin_keeps
      | with_reducible apply ite_keeps | (with_reducible intro _) | simp only [mk_keeps] | simp only [mkSec_keeps] | split

theorem burstOpen_keeps (sid gen old new seq : Nat) (hk : Keeps z s) : Keeps z (burstOpen sid gen old new seq s) := by
  unfold burstOpen
  try dsimp only
  repeat' first
      | with_reducible assumption | with_reducible apply ackBurst_keeps | with_reducible apply updTwin_keeps
      | with_reducible apply ite_keeps | (with_reducible intro _) | simp only [mk_keeps] | simp only [mkSec_keeps] | split

theorem execMirBegin_keeps {sid : Word} {gen : BitVec 32} {old : BitVec 32} {new : BitVec 32} {seq : Word} {s₁ : State} (hk :
    Keeps z s) (e : execMirBegin sid gen old new seq s = .next s₁) : Keeps z s₁ := by
  unfold execMirBegin at e
  try dsimp only at e
  repeat' split at e
  all_goals first | with_reducible refine done_keeps ?_ e | with_reducible refine done_keeps ?_ e
  all_goals (repeat' first
      | with_reducible assumption | with_reducible apply burstOpen_keeps | with_reducible apply ite_keeps
      | (with_reducible intro _) | simp only [mk_keeps] | simp only [mkSec_keeps] | split)

theorem burstData_keeps (addr len data : Nat) (hk : Keeps z s) : Keeps z (burstData addr len data s) := by
  unfold burstData
  try dsimp only
  repeat' first
      | with_reducible assumption | with_reducible apply updTwin_keeps | with_reducible apply ite_keeps
      | (with_reducible intro _) | simp only [mk_keeps] | simp only [mkSec_keeps] | split

theorem execMirData_keeps {addr : BitVec 48} {len : Fin 257} {data : BitVec 2048} {s₁ : State} (hk : Keeps z s) (e :
    execMirData addr len data s = .next s₁) : Keeps z s₁ := by
  unfold execMirData at e
  try dsimp only at e
  repeat' split at e
  all_goals first | with_reducible refine done_keeps ?_ e | with_reducible refine done_keeps ?_ e
  all_goals (repeat' first
      | with_reducible assumption | with_reducible apply burstData_keeps | with_reducible apply ite_keeps
      | (with_reducible intro _) | simp only [mk_keeps] | simp only [mkSec_keeps] | split)

theorem heldPage_keeps {k slot sid l h idx a b : Nat} {s₁ : State} (hk : Keeps z s)
    (e : heldPage k slot sid l h idx s = some (a, b, s₁)) : Keeps z s₁ := by
  have fresh : ∀ {g : Graph} {t : State} {p : Nat × Nat × State}, Keeps z t →
      (match allocFor k slot sid l h idx t with
      | some s => match getGraph s k with
        | some _ => ((sessPages s g slot).find? fun p => heIdx p.2 == idx && heLayer p.2 == l && heGroup p.2 == h).map fun p =>
            (p.1, heId p.2 % 2 ^ 18, s)
        | none => none
      | none => none) = some p → Keeps z p.2.2 := by
    intro g t p ht hp
    split at hp
    · have h₁ := allocFor_keeps ht ‹_›
      split at hp
      · rw [Option.map_eq_some_iff] at hp
        obtain ⟨q, _, rfl⟩ := hp
        exact h₁
      · cases hp
    · cases hp
  unfold heldPage at e
  split at e
  · cases e
  · dsimp only at e
    split at e
    · exact fresh hk e
    · split at e
      · cases e
        exact hk
      · split at e
        · cases e
        · have h₁ := fresh (setRef_keeps _ _ _ _ (setHome_keeps _ _ _ _ _ hk)) ‹_›
          cases e
          exact frameWrite_keeps _ _ _ _ _ _ (frameWrite_keeps _ _ _ _ _ _ h₁)

theorem heldWrite_keeps (g : Graph) (e sl off len data : Nat) (hk : Keeps z s) : Keeps z
    (heldWrite g e sl off len data s) := by
  unfold heldWrite
  try dsimp only
  repeat' first
      | with_reducible assumption | with_reducible apply frameWrite_keeps | with_reducible apply grpWrite_keeps
      | with_reducible apply ite_keeps | (with_reducible intro _) | simp only [mk_keeps] | simp only [mkSec_keeps] | split

theorem heldBytes_keeps {k slot sid old : Nat} {m : Nat × Nat × Nat} {s₁ : State} (hk : Keeps z s)
    (e : heldBytes k slot sid old s m = some s₁) : Keeps z s₁ := by
  obtain ⟨a, len, data⟩ := m
  unfold heldBytes at e
  dsimp only at e
  split at e
  · cases e
    exact updAny_keeps _ _ hk
  · split at e
    · have h₁ := heldPage_keeps hk ‹_›
      rw [Option.map_eq_some_iff] at e
      obtain ⟨g, _, rfl⟩ := e
      exact heldWrite_keeps _ _ _ _ _ _ h₁
    · cases e

theorem writeBurst_keeps (b : Burst) (slot dsb : Nat) (h : Held) (hk : Keeps z s) : Keeps z (writeBurst b slot dsb h s) := by
  unfold writeBurst
  dsimp only
  split
  · exact dropHeld_keeps _ hk
  · rename_i t e
    have ht : Keeps z t := foldBind_keeps _ hk (fun _ _ hu _ ht => heldBytes_keeps hu ht) e
    repeat' first
        | with_reducible assumption | with_reducible apply dropHeld_keeps | with_reducible apply putHeld_keeps
        | with_reducible apply writeDsb_keeps | with_reducible apply reclaimTents_keeps | with_reducible apply fixRoots_keeps
        | with_reducible apply updTwin_keeps | with_reducible apply updAny_keeps | split

theorem burstClose_keeps (dsb : Nat) (hk : Keeps z s) : Keeps z (burstClose dsb s) := by
  unfold burstClose
  try dsimp only
  repeat' first
      | with_reducible assumption | with_reducible apply updTwin_keeps | with_reducible apply ackBurst_keeps
      | with_reducible apply writeBurst_keeps | with_reducible apply ite_keeps | (with_reducible intro _)
      | simp only [mk_keeps] | simp only [mkSec_keeps] | split

theorem execMirEnd_keeps {dsb : BitVec 2048} {s₁ : State} (hk : Keeps z s) (e : execMirEnd dsb s = .next s₁) :
    Keeps z s₁ := by
  unfold execMirEnd at e
  try dsimp only at e
  repeat' split at e
  all_goals first | with_reducible refine done_keeps ?_ e | with_reducible refine done_keeps ?_ e
  all_goals (repeat' first
      | with_reducible assumption | with_reducible apply burstClose_keeps | with_reducible apply ite_keeps
      | (with_reducible intro _) | simp only [mk_keeps] | simp only [mkSec_keeps] | split)

theorem ackIn_keeps (seq : Nat) (hk : Keeps z s) : Keeps z (ackIn seq s) := by
  unfold ackIn
  try dsimp only
  repeat' first
      | with_reducible assumption | with_reducible apply forAll_keeps | with_reducible apply checkSynced_keeps
      | with_reducible apply forAll_keeps | with_reducible apply updSess_keeps | with_reducible apply ite_keeps
      | (with_reducible intro _) | simp only [mk_keeps] | simp only [mkSec_keeps] | split

theorem execMirAck_keeps {seq : Word} {s₁ : State} (hk : Keeps z s) (e : execMirAck seq s = .next s₁) : Keeps z s₁ := by
  unfold execMirAck at e
  try dsimp only at e
  repeat' split at e
  all_goals first | with_reducible refine done_keeps ?_ e | with_reducible refine done_keeps ?_ e
  all_goals (repeat' first
      | with_reducible assumption | with_reducible apply ackIn_keeps | with_reducible apply ite_keeps
      | (with_reducible intro _) | simp only [mk_keeps] | simp only [mkSec_keeps] | split)

theorem discardAll_keeps (hk : Keeps z s) : Keeps z (discardAll s) := by
  unfold discardAll
  try dsimp only
  repeat' first
      | with_reducible assumption | with_reducible apply forAll_keeps | with_reducible apply updTwin_keeps
      | with_reducible apply forAll_keeps | with_reducible apply discardHeld_keeps | with_reducible apply ite_keeps
      | (with_reducible intro _) | simp only [mk_keeps] | simp only [mkSec_keeps] | split

theorem execMirStop_keeps {s₁ : State} (hk : Keeps z s) (e : execMirStop s = .next s₁) : Keeps z s₁ := by
  unfold execMirStop at e
  try dsimp only at e
  repeat' split at e
  all_goals first | with_reducible refine done_keeps ?_ e | with_reducible refine done_keeps ?_ e
  all_goals (repeat' first
      | with_reducible assumption | with_reducible apply discardAll_keeps | with_reducible apply ite_keeps
      | (with_reducible intro _) | simp only [mk_keeps] | simp only [mkSec_keeps] | split)

theorem fenceIn_keeps (hk : Keeps z s) : Keeps z (fenceIn s) := by
  unfold fenceIn
  try dsimp only
  repeat' first
      | with_reducible assumption | with_reducible apply unmirrorAll_keeps | with_reducible apply setTwinF_keeps
      | with_reducible apply ite_keeps | (with_reducible intro _) | simp only [mk_keeps] | simp only [mkSec_keeps] | split

theorem execFence_keeps (_n : BitVec 32) {s₁ : State} (hk : Keeps z s) (e : execFence _n s = .next s₁) : Keeps z s₁ := by
  unfold execFence at e
  try dsimp only at e
  repeat' split at e
  all_goals first | with_reducible refine done_keeps ?_ e | with_reducible refine done_keeps ?_ e
  all_goals (repeat' first
      | with_reducible assumption | with_reducible apply fenceIn_keeps | with_reducible apply ite_keeps
      | (with_reducible intro _) | simp only [mk_keeps] | simp only [mkSec_keeps] | split)

theorem execTwinDetachMsg_keeps {s₁ : State} (hk : Keeps z s) (e : execTwinDetachMsg s = .next s₁) : Keeps z s₁ := by
  unfold execTwinDetachMsg at e
  try dsimp only at e
  repeat' split at e
  all_goals first | with_reducible refine done_keeps ?_ e | with_reducible refine done_keeps ?_ e
  all_goals (repeat' first
      | with_reducible assumption | with_reducible apply setTwinF_keeps | with_reducible apply ite_keeps
      | (with_reducible intro _) | simp only [mk_keeps] | simp only [mkSec_keeps] | split)

theorem execPairTwin_keeps {s₁ : State} (hk : Keeps z s) (e : execPairTwin s = .next s₁) : Keeps z s₁ := by
  unfold execPairTwin at e
  try dsimp only at e
  repeat' split at e
  all_goals first
      | with_reducible refine done_keeps ?_ e | with_reducible refine refuse_keeps ?_ e
      | with_reducible refine done_keeps ?_ e
  all_goals (repeat' first
      | with_reducible assumption | with_reducible apply answer_keeps | with_reducible apply setTwinF_keeps
      | with_reducible apply ite_keeps | (with_reducible intro _) | simp only [mk_keeps] | simp only [mkSec_keeps] | split)

theorem execSetTwinMode_keeps {s₁ : State} (hk : Keeps z s) (e : execSetTwinMode s = .next s₁) : Keeps z s₁ := by
  unfold execSetTwinMode at e
  try dsimp only at e
  repeat' split at e
  all_goals first
      | with_reducible refine done_keeps ?_ e | with_reducible refine refuse_keeps ?_ e
      | with_reducible refine done_keeps ?_ e
  all_goals (repeat' first
      | with_reducible assumption | with_reducible apply unmirrorAll_keeps | with_reducible apply sendTwin_keeps
      | with_reducible apply answer_keeps | with_reducible apply putF_keeps | with_reducible apply ite_keeps
      | (with_reducible intro _) | simp only [mk_keeps] | simp only [mkSec_keeps] | split)

theorem markBuilding_keeps (slot : Nat) (hk : Keeps z s) : Keeps z (markBuilding slot s) := by
  unfold markBuilding
  try dsimp only
  repeat' first
      | with_reducible assumption | with_reducible apply updSess_keeps | with_reducible apply sendTwin_keeps
      | with_reducible apply ite_keeps | (with_reducible intro _) | simp only [mk_keeps] | simp only [mkSec_keeps] | split

theorem execResyncTwin_keeps {s₁ : State} (hk : Keeps z s) (e : execResyncTwin s = .next s₁) : Keeps z s₁ := by
  unfold execResyncTwin at e
  try dsimp only at e
  repeat' split at e
  all_goals first
      | with_reducible refine done_keeps ?_ e | with_reducible refine refuse_keeps ?_ e
      | with_reducible refine done_keeps ?_ e
  all_goals (repeat' first
      | with_reducible assumption | with_reducible apply forAll_keeps | with_reducible apply updTwin_keeps
      | with_reducible apply answer_keeps | with_reducible apply checkSynced_keeps | with_reducible apply forAll_keeps
      | with_reducible apply markBuilding_keeps | with_reducible apply ite_keeps | (with_reducible intro _)
      | simp only [mk_keeps] | simp only [mkSec_keeps] | split)

theorem sendCopy_keeps (slot : Nat) (hk : Keeps z s) : Keeps z (sendCopy slot s) := by
  unfold sendCopy
  try dsimp only
  repeat' first
      | with_reducible assumption | with_reducible apply forAll_keeps | with_reducible apply sendTwin_keeps
      | with_reducible apply updTwin_keeps | with_reducible apply forAll_keeps | with_reducible apply sendPage_keeps
      | with_reducible apply updSess_keeps | with_reducible apply ite_keeps | (with_reducible intro _) | simp only [mk_keeps]
      | simp only [mkSec_keeps] | split

theorem execBackgroundCopy_keeps {s₁ : State} (hk : Keeps z s) (e : execBackgroundCopy s = .next s₁) : Keeps z s₁ := by
  unfold execBackgroundCopy at e
  try dsimp only at e
  repeat' split at e
  all_goals first | with_reducible refine done_keeps ?_ e | with_reducible refine done_keeps ?_ e
  all_goals (repeat' first
      | with_reducible assumption | with_reducible apply sendCopy_keeps | with_reducible apply ite_keeps
      | (with_reducible intro _) | simp only [mk_keeps] | simp only [mkSec_keeps] | split)

theorem readLines_keeps (lines : List (Fin 8192 × BitVec 32 × BitVec 32)) (x : Sess) (hk : Keeps z s) : Keeps z
    (readLines lines x s) := by
  unfold readLines
  try dsimp only
  repeat' first
      | with_reducible assumption | with_reducible apply putRing_keeps | with_reducible apply ite_keeps
      | (with_reducible intro _) | simp only [mk_keeps] | simp only [mkSec_keeps] | split

theorem promote_keeps (lines : List (Fin 8192 × BitVec 32 × BitVec 32)) (slot : Nat) (hk : Keeps z s) : Keeps z
    (promote lines slot s) := by
  unfold promote
  try dsimp only
  repeat' first
      | with_reducible assumption | with_reducible apply dropHeld_keeps | with_reducible apply readLines_keeps
      | with_reducible apply putSess_keeps | with_reducible apply putHeld_keeps | with_reducible apply updSess_keeps
      | with_reducible apply clearObjs_keeps | with_reducible apply hubDsb_keeps | with_reducible apply syncSampler_keeps
      | with_reducible apply createTemplates_keeps | with_reducible apply ite_keeps | (with_reducible intro _)
      | simp only [mk_keeps] | simp only [mkSec_keeps] | split

theorem execFailover_keeps {lines : List (Fin 8192 × BitVec 32 × BitVec 32)} {s₁ : State} (hk : Keeps z s) (e : execFailover
    lines s = .next s₁) : Keeps z s₁ := by
  unfold execFailover at e
  try dsimp only at e
  repeat' split at e
  all_goals first
      | with_reducible refine done_keeps ?_ e | with_reducible refine refuse_keeps ?_ e | (injection e with e; subst e)
      | cases e
  all_goals (repeat' first
      | with_reducible assumption | with_reducible apply updTwin_keeps | with_reducible apply sendTwin_keeps
      | with_reducible apply forAll_keeps | with_reducible apply promote_keeps | with_reducible apply unmirrorAll_keeps
      | with_reducible apply answer_keeps | with_reducible apply putF_keeps | with_reducible apply ite_keeps
      | (with_reducible intro _) | simp only [mk_keeps] | simp only [mkSec_keeps] | split)

theorem abortRest_keeps (hk : Keeps z s) : Keeps z (abortRest s) := by
  unfold abortRest
  try dsimp only
  repeat' first
      | with_reducible assumption | with_reducible apply forAll_keeps | with_reducible apply forAll_keeps
      | with_reducible apply updDie_keeps | with_reducible apply floodAbort_keeps | with_reducible apply ite_keeps
      | (with_reducible intro _) | simp only [mk_keeps] | simp only [mkSec_keeps] | split

theorem execDetach_keeps {late : Bool} {s₁ : State} (hk : Keeps z s) (e : execDetach late s = .next s₁) : Keeps z s₁ := by
  unfold execDetach at e
  try dsimp only at e
  repeat' split at e
  all_goals first
      | with_reducible refine done_keeps ?_ e | with_reducible refine refuse_keeps ?_ e
      | with_reducible refine done_keeps ?_ e
  all_goals (repeat' first
      | with_reducible assumption | with_reducible apply putF_keeps | with_reducible apply abortRest_keeps
      | with_reducible apply answer_keeps | with_reducible apply setTwinF_keeps | with_reducible apply sendTwin_keeps
      | with_reducible apply ite_keeps | (with_reducible intro _) | simp only [mk_keeps] | simp only [mkSec_keeps] | split)

end Sys2Proof.Machine
end

