-- ==== Sys2Proof/Laws/KeepsPins.lean ====
section
/-! SUPPORT. What the definitions of Pins.lean keep. -/
namespace Sys2Proof.Machine

variable {z s : State}

theorem putIn_keeps (alive : Bool) (x : AlertIn) (hk : Keeps z s) : Keeps z (putIn alive x s) := by
  unfold putIn
  try dsimp only
  repeat' first
      | with_reducible assumption | with_reducible apply ite_keeps | (with_reducible intro _) | simp only [mk_keeps]
      | simp only [mkSec_keeps] | split

theorem rearm_keeps (alive : Bool) (us : Nat) (hk : Keeps z s) : Keeps z (rearm alive us s) := by
  unfold rearm
  try dsimp only
  repeat' first
      | with_reducible assumption | with_reducible apply satF_keeps | with_reducible apply putIn_keeps
      | with_reducible apply putF_keeps | with_reducible apply raiseAlert_keeps | with_reducible apply postEvent_keeps
      | with_reducible apply ite_keeps | (with_reducible intro _) | simp only [mk_keeps] | simp only [mkSec_keeps] | split

theorem inputEvent_keeps (alive : Bool) (hk : Keeps z s) : Keeps z (inputEvent alive s) := by
  unfold inputEvent
  try dsimp only
  repeat' first
      | with_reducible assumption | with_reducible apply declareLost_keeps | with_reducible apply raiseAlert_keeps
      | with_reducible apply twinLinkDown_keeps | with_reducible apply ite_keeps | (with_reducible intro _)
      | simp only [mk_keeps] | simp only [mkSec_keeps] | split

theorem inputChange_keeps (alive active : Bool) (us : Nat) (hk : Keeps z s) : Keeps z (inputChange alive active us s) := by
  unfold inputChange
  try dsimp only
  repeat' first
      | with_reducible assumption | with_reducible apply satF_keeps | with_reducible apply putIn_keeps
      | with_reducible apply rearm_keeps | with_reducible apply inputEvent_keeps | with_reducible apply ite_keeps
      | (with_reducible intro _) | simp only [mk_keeps] | simp only [mkSec_keeps] | split

theorem execTwinPresentChange_keeps {active : Bool} {us : Nat} {s₁ : State} (hk : Keeps z s) (e :
    execTwinPresentChange active us s = .next s₁) : Keeps z s₁ := by
  unfold execTwinPresentChange at e
  with_reducible refine done_keeps ?_ e
  repeat' first
      | with_reducible assumption | with_reducible apply inputChange_keeps | with_reducible apply ite_keeps
      | (with_reducible intro _) | simp only [mk_keeps] | simp only [mkSec_keeps] | split

theorem execTwinAliveChange_keeps {active : Bool} {us : Nat} {s₁ : State} (hk : Keeps z s) (e :
    execTwinAliveChange active us s = .next s₁) : Keeps z s₁ := by
  unfold execTwinAliveChange at e
  with_reducible refine done_keeps ?_ e
  repeat' first
      | with_reducible assumption | with_reducible apply inputChange_keeps | with_reducible apply ite_keeps
      | (with_reducible intro _) | simp only [mk_keeps] | simp only [mkSec_keeps] | split

theorem execInputRearm_keeps {alive : Bool} {us : Nat} {s₁ : State} (hk : Keeps z s) (e :
    execInputRearm alive us s = .next s₁) : Keeps z s₁ := by
  unfold execInputRearm at e
  with_reducible refine done_keeps ?_ e
  repeat' first
      | with_reducible assumption | with_reducible apply rearm_keeps | with_reducible apply ite_keeps
      | (with_reducible intro _) | simp only [mk_keeps] | simp only [mkSec_keeps] | split

theorem unmask_keeps (alive : Bool) (hk : Keeps z s) : Keeps z (unmask alive s) := by
  unfold unmask
  try dsimp only
  repeat' first
      | with_reducible assumption | with_reducible apply putF_keeps | with_reducible apply putIn_keeps
      | with_reducible apply ite_keeps | (with_reducible intro _) | simp only [mk_keeps] | simp only [mkSec_keeps] | split

theorem execUnmaskPres_keeps {s₁ : State} (hk : Keeps z s) (e : execUnmaskPres s = .next s₁) : Keeps z s₁ := by
  unfold execUnmaskPres at e
  with_reducible refine done_keeps ?_ e
  repeat' first
      | with_reducible assumption | with_reducible apply unmask_keeps | with_reducible apply ite_keeps
      | (with_reducible intro _) | simp only [mk_keeps] | simp only [mkSec_keeps] | split

theorem execUnmaskAlive_keeps {s₁ : State} (hk : Keeps z s) (e : execUnmaskAlive s = .next s₁) : Keeps z s₁ := by
  unfold execUnmaskAlive at e
  with_reducible refine done_keeps ?_ e
  repeat' first
      | with_reducible assumption | with_reducible apply unmask_keeps | with_reducible apply ite_keeps
      | (with_reducible intro _) | simp only [mk_keeps] | simp only [mkSec_keeps] | split

theorem inletWrite_keeps (v : Word) (hk : Keeps z s) : Keeps z (inletWrite v s) := by
  unfold inletWrite
  try dsimp only
  repeat' first
      | with_reducible assumption | with_reducible apply putF_keeps | with_reducible apply ite_keeps
      | (with_reducible intro _) | simp only [mk_keeps] | simp only [mkSec_keeps] | split

theorem execInletWrite_keeps {v : Word} {s₁ : State} (hk : Keeps z s) (e : execInletWrite v s = .next s₁) : Keeps z s₁ := by
  unfold execInletWrite at e
  with_reducible refine done_keeps ?_ e
  repeat' first
      | with_reducible assumption | with_reducible apply inletWrite_keeps | with_reducible apply ite_keeps
      | (with_reducible intro _) | simp only [mk_keeps] | simp only [mkSec_keeps] | split

end Sys2Proof.Machine
end

