-- ==== Sys2Proof/Laws/KeepsRegs.lean ====
section
/-! SUPPORT. What the definitions of Regs.lean keep. -/
namespace Sys2Proof.Machine

variable {z s : State}

theorem errWrite_keeps (st : Station) (a : Nat) (v : Word) (hk : Keeps z s) : Keeps z (errWrite st a v s) := by
  unfold errWrite
  try dsimp only
  repeat' first
      | with_reducible assumption | with_reducible apply softWrite_keeps | with_reducible apply primaryClear_keeps
      | with_reducible apply ite_keeps | (with_reducible intro _) | simp only [mk_keeps] | simp only [mkSec_keeps] | split

theorem evtWrite_keeps (v : Word) (hk : Keeps z s) : Keeps z (evtWrite v s) := by
  unfold evtWrite
  try dsimp only
  repeat' first
      | with_reducible assumption | with_reducible apply softWrite_keeps | with_reducible apply dropLine_keeps
      | with_reducible apply holdLine_keeps | with_reducible apply ite_keeps | (with_reducible intro _) | simp only [mk_keeps]
      | simp only [mkSec_keeps] | split

theorem hubWrite_keeps (a : Nat) (v : Word) (hk : Keeps z s) : Keeps z (hubWrite a v s).2 := by
  unfold hubWrite
  try dsimp only
  repeat' first
      | with_reducible assumption | with_reducible apply doorbell_keeps
      | (refine doorbell_keepsE ?_ (by with_reducible assumption)) | with_reducible apply refuseWrite_keeps
      | with_reducible apply softWrite_keeps | with_reducible apply bringWrite_keeps
      | (refine bringWrite_keepsE ?_ (by with_reducible assumption)) | with_reducible apply evtWrite_keeps
      | with_reducible apply inletWrite_keeps | with_reducible apply unmask_keeps | with_reducible apply setObj_keeps
      | with_reducible apply addObj_keeps | with_reducible apply errWrite_keeps | with_reducible apply ite_keeps
      | (with_reducible intro _) | simp only [mk_keeps] | simp only [mkSec_keeps] | split
theorem hubWrite_keepsE {a : Nat} {v : Word} {x0 : _} {s₁ : State} (hk : Keeps z s) (he : hubWrite a v s = (x0, s₁)) :
    Keeps z s₁ := by
  have k₁ := hubWrite_keeps a v hk
  rw [he] at k₁
  exact k₁

theorem portWrite_keeps (d : Stack) (p : Port) (v : Word) (hk : Keeps z s) : Keeps z (portWrite d p v s) := by
  unfold portWrite
  try dsimp only
  repeat' first
      | with_reducible assumption | with_reducible apply softWrite_keeps | with_reducible apply writeIsolate_keeps
      | with_reducible apply requestRetrain_keeps | with_reducible apply clearPortCounts_keeps
      | with_reducible apply ite_keeps | (with_reducible intro _) | simp only [mk_keeps] | simp only [mkSec_keeps] | split

theorem dieWrite_keeps (d : Stack) (a : Nat) (v : Word) (hk : Keeps z s) : Keeps z (dieWrite d a v s) := by
  unfold dieWrite
  try dsimp only
  repeat' first
      | with_reducible assumption | with_reducible apply addObj_keeps | with_reducible apply setObj_keeps
      | with_reducible apply softWrite_keeps | with_reducible apply queueWrite_keeps | with_reducible apply elasticClear_keeps
      | with_reducible apply rearmDie_keeps | with_reducible apply portWrite_keeps | with_reducible apply bpStop_keeps
      | with_reducible apply vaultRetrain_keeps | with_reducible apply forAll_keeps | with_reducible apply lpFullRetrain_keeps
      | with_reducible apply stopPartition_keeps | with_reducible apply errWrite_keeps | with_reducible apply ite_keeps
      | (with_reducible intro _) | simp only [mk_keeps] | simp only [mkSec_keeps] | split

theorem writeReg_keeps (a : Nat) (v : Word) (hk : Keeps z s) : Keeps z (writeReg a v s).2 := by
  unfold writeReg
  try dsimp only
  repeat' first
      | with_reducible assumption | with_reducible apply forAll_keeps | with_reducible apply forAll_keeps
      | with_reducible apply dieWrite_keeps | with_reducible apply hubWrite_keeps
      | (refine hubWrite_keepsE ?_ (by with_reducible assumption)) | with_reducible apply ite_keeps | (with_reducible intro _)
      | simp only [mk_keeps] | simp only [mkSec_keeps] | split
theorem writeReg_keepsE {a : Nat} {v : Word} {x0 : _} {s₁ : State} (hk : Keeps z s) (he : writeReg a v s = (x0, s₁)) :
    Keeps z s₁ := by
  have k₁ := writeReg_keeps a v hk
  rw [he] at k₁
  exact k₁

theorem execRegisterWrite_keeps {a : BitVec 40} {v : Word} {s₁ : State} (hk : Keeps z s) (e :
    execRegisterWrite a v s = .next s₁) : Keeps z s₁ := by
  unfold execRegisterWrite at e
  with_reducible refine done_keeps ?_ e
  repeat' first
      | with_reducible assumption | with_reducible apply writeReg_keeps
      | (refine writeReg_keepsE ?_ (by with_reducible assumption)) | with_reducible apply ite_keeps | (with_reducible intro _)
      | simp only [mk_keeps] | simp only [mkSec_keeps] | split

end Sys2Proof.Machine
end

