-- ==== Sys2Proof/Laws/KeepsSideband.lean ====
section
/-! SUPPORT. What the definitions of Sideband.lean keep. -/
namespace Sys2Proof.Machine

variable {z s : State}

theorem updI3c_keeps (f : I3c → I3c) (hk : Keeps z s) : Keeps z (updI3c f s) := by
  unfold updI3c
  try dsimp only
  repeat' first
      | with_reducible assumption | with_reducible apply ite_keeps | (with_reducible intro _) | simp only [mk_keeps]
      | simp only [mkSec_keeps] | split

theorem i3cReturn_keeps (l : List Byte) (hk : Keeps z s) : Keeps z (i3cReturn l s) := by
  unfold i3cReturn
  try dsimp only
  repeat' first
      | with_reducible assumption | with_reducible apply updI3c_keeps | with_reducible apply ite_keeps
      | (with_reducible intro _) | simp only [mk_keeps] | simp only [mkSec_keeps] | split

theorem execI3cPrivateWrite_keeps {bytes : List Byte} {s₁ : State} (hk : Keeps z s) (e :
    execI3cPrivateWrite bytes s = .next s₁) : Keeps z s₁ := by
  unfold execI3cPrivateWrite at e
  try dsimp only at e
  repeat' split at e
  all_goals first | with_reducible refine done_keeps ?_ e | with_reducible refine done_keeps ?_ e
  all_goals (repeat' first
      | with_reducible assumption | with_reducible apply satF_keeps | with_reducible apply writeReg_keeps
      | (refine writeReg_keepsE ?_ (by with_reducible assumption)) | with_reducible apply updI3c_keeps
      | with_reducible apply ite_keeps | (with_reducible intro _) | simp only [mk_keeps] | simp only [mkSec_keeps] | split)

theorem execI3cPrivateRead_keeps {n : Nat} {s₁ : State} (hk : Keeps z s) (e : execI3cPrivateRead n s = .next s₁) :
    Keeps z s₁ := by
  unfold execI3cPrivateRead at e
  try dsimp only at e
  repeat' split at e
  all_goals first | with_reducible refine done_keeps ?_ e | with_reducible refine done_keeps ?_ e
  all_goals (repeat' first
      | with_reducible assumption | with_reducible apply i3cReturn_keeps | with_reducible apply updI3c_keeps
      | with_reducible apply ite_keeps | (with_reducible intro _) | simp only [mk_keeps] | simp only [mkSec_keeps] | split)

theorem execEntdaa_keeps {addr : BitVec 7} {s₁ : State} (hk : Keeps z s) (e : execEntdaa addr s = .next s₁) : Keeps z s₁ := by
  unfold execEntdaa at e
  try dsimp only at e
  repeat' split at e
  all_goals first | with_reducible refine done_keeps ?_ e | with_reducible refine done_keeps ?_ e
  all_goals (repeat' first
      | with_reducible assumption | with_reducible apply updI3c_keeps | with_reducible apply ite_keeps
      | (with_reducible intro _) | simp only [mk_keeps] | simp only [mkSec_keeps] | split)

theorem execRstdaa_keeps {s₁ : State} (hk : Keeps z s) (e : execRstdaa s = .next s₁) : Keeps z s₁ := by
  unfold execRstdaa at e
  try dsimp only at e
  repeat' split at e
  all_goals first | with_reducible refine done_keeps ?_ e | with_reducible refine done_keeps ?_ e
  all_goals (repeat' first
      | with_reducible assumption | with_reducible apply updI3c_keeps | with_reducible apply ite_keeps
      | (with_reducible intro _) | simp only [mk_keeps] | simp only [mkSec_keeps] | split)

theorem execSetnewda_keeps {addr : BitVec 7} {s₁ : State} (hk : Keeps z s) (e : execSetnewda addr s = .next s₁) :
    Keeps z s₁ := by
  unfold execSetnewda at e
  try dsimp only at e
  repeat' split at e
  all_goals first | with_reducible refine done_keeps ?_ e | with_reducible refine done_keeps ?_ e
  all_goals (repeat' first
      | with_reducible assumption | with_reducible apply updI3c_keeps | with_reducible apply ite_keeps
      | (with_reducible intro _) | simp only [mk_keeps] | simp only [mkSec_keeps] | split)

theorem execEnec_keeps {ibi : Bool} {hj : Bool} {s₁ : State} (hk : Keeps z s) (e : execEnec ibi hj s = .next s₁) :
    Keeps z s₁ := by
  unfold execEnec at e
  try dsimp only at e
  repeat' split at e
  all_goals first | with_reducible refine done_keeps ?_ e | with_reducible refine done_keeps ?_ e
  all_goals (repeat' first
      | with_reducible assumption | with_reducible apply updI3c_keeps | with_reducible apply ite_keeps
      | (with_reducible intro _) | simp only [mk_keeps] | simp only [mkSec_keeps] | split)

theorem execDisec_keeps {ibi : Bool} {hj : Bool} {s₁ : State} (hk : Keeps z s) (e : execDisec ibi hj s = .next s₁) :
    Keeps z s₁ := by
  unfold execDisec at e
  try dsimp only at e
  repeat' split at e
  all_goals first | with_reducible refine done_keeps ?_ e | with_reducible refine done_keeps ?_ e
  all_goals (repeat' first
      | with_reducible assumption | with_reducible apply updI3c_keeps | with_reducible apply ite_keeps
      | (with_reducible intro _) | simp only [mk_keeps] | simp only [mkSec_keeps] | split)

theorem i3cGet_keeps {l : List Byte} {s₁ : State} (hk : Keeps z s) (e : i3cGet l s = .next s₁) : Keeps z s₁ := by
  unfold i3cGet at e
  try dsimp only at e
  repeat' split at e
  all_goals first | with_reducible refine done_keeps ?_ e | with_reducible refine done_keeps ?_ e
  all_goals (repeat' first
      | with_reducible assumption | with_reducible apply i3cReturn_keeps | with_reducible apply ite_keeps
      | (with_reducible intro _) | simp only [mk_keeps] | simp only [mkSec_keeps] | split)

theorem execGetpid_keeps {s₁ : State} (hk : Keeps z s) (e : execGetpid s = .next s₁) : Keeps z s₁ := by
  unfold execGetpid at e
  refine i3cGet_keeps ?_ e
  repeat' first
      | with_reducible assumption | with_reducible apply ite_keeps | (with_reducible intro _) | simp only [mk_keeps]
      | simp only [mkSec_keeps] | split

theorem execGetbcr_keeps {s₁ : State} (hk : Keeps z s) (e : execGetbcr s = .next s₁) : Keeps z s₁ := by
  unfold execGetbcr at e
  refine i3cGet_keeps ?_ e
  repeat' first
      | with_reducible assumption | with_reducible apply ite_keeps | (with_reducible intro _) | simp only [mk_keeps]
      | simp only [mkSec_keeps] | split

theorem execGetdcr_keeps {s₁ : State} (hk : Keeps z s) (e : execGetdcr s = .next s₁) : Keeps z s₁ := by
  unfold execGetdcr at e
  refine i3cGet_keeps ?_ e
  repeat' first
      | with_reducible assumption | with_reducible apply ite_keeps | (with_reducible intro _) | simp only [mk_keeps]
      | simp only [mkSec_keeps] | split

theorem execGetstatus_keeps {s₁ : State} (hk : Keeps z s) (e : execGetstatus s = .next s₁) : Keeps z s₁ := by
  unfold execGetstatus at e
  refine i3cGet_keeps ?_ e
  repeat' first
      | with_reducible assumption | with_reducible apply ite_keeps | (with_reducible intro _) | simp only [mk_keeps]
      | simp only [mkSec_keeps] | split

theorem execGetmwl_keeps {s₁ : State} (hk : Keeps z s) (e : execGetmwl s = .next s₁) : Keeps z s₁ := by
  unfold execGetmwl at e
  refine i3cGet_keeps ?_ e
  repeat' first
      | with_reducible assumption | with_reducible apply ite_keeps | (with_reducible intro _) | simp only [mk_keeps]
      | simp only [mkSec_keeps] | split

theorem execGetmrl_keeps {s₁ : State} (hk : Keeps z s) (e : execGetmrl s = .next s₁) : Keeps z s₁ := by
  unfold execGetmrl at e
  refine i3cGet_keeps ?_ e
  repeat' first
      | with_reducible assumption | with_reducible apply ite_keeps | (with_reducible intro _) | simp only [mk_keeps]
      | simp only [mkSec_keeps] | split

theorem execSclLowTimeout_keeps {s₁ : State} (hk : Keeps z s) (e : execSclLowTimeout s = .next s₁) : Keeps z s₁ := by
  unfold execSclLowTimeout at e
  with_reducible refine done_keeps ?_ e
  repeat' first
      | with_reducible assumption | with_reducible apply updI3c_keeps | with_reducible apply ite_keeps
      | (with_reducible intro _) | simp only [mk_keeps] | simp only [mkSec_keeps] | split

theorem execInBandInterrupt_keeps {us : Nat} {s₁ : State} (hk : Keeps z s) (e : execInBandInterrupt us s = .next s₁) :
    Keeps z s₁ := by
  unfold execInBandInterrupt at e
  try dsimp only at e
  repeat' split at e
  all_goals first | with_reducible refine done_keeps ?_ e | with_reducible refine done_keeps ?_ e
  all_goals (repeat' first
      | with_reducible assumption | with_reducible apply updI3c_keeps | with_reducible apply ite_keeps
      | (with_reducible intro _) | simp only [mk_keeps] | simp only [mkSec_keeps] | split)

end Sys2Proof.Machine
end

