-- ==== Sys2Proof/Laws/KeepsCamner.lean ====
section
/-! SUPPORT. What the definitions of Camner.lean keep. -/
namespace Sys2Proof.Machine

variable {z s : State}

theorem updFlits_keeps (twin : Bool) (f : FlitSide → FlitSide) (hk : Keeps z s) : Keeps z (updFlits twin f s) := by
  unfold updFlits
  try dsimp only
  repeat' first
      | with_reducible assumption | with_reducible apply updCam_keeps | with_reducible apply ite_keeps
      | (with_reducible intro _) | simp only [mk_keeps] | simp only [mkSec_keeps] | split

theorem countCam_keeps (twin : Bool) (f : Fld) (hk : Keeps z s) : Keeps z (countCam twin f s) := by
  unfold countCam
  try dsimp only
  repeat' first
      | with_reducible assumption | with_reducible apply satF_keeps | with_reducible apply ite_keeps
      | (with_reducible intro _) | simp only [mk_keeps] | simp only [mkSec_keeps] | split

theorem startTraining_keeps (twin : Bool) (hk : Keeps z s) : Keeps z (startTraining twin s) := by
  unfold startTraining
  try dsimp only
  repeat' first
      | with_reducible assumption | with_reducible apply updFlits_keeps | with_reducible apply setTwinF_keeps
      | with_reducible apply countCam_keeps | with_reducible apply putF_keeps | with_reducible apply ite_keeps
      | (with_reducible intro _) | simp only [mk_keeps] | simp only [mkSec_keeps] | split

theorem resendIn_keeps (twin : Bool) (fack : Nat) (hk : Keeps z s) : Keeps z (resendIn twin fack s) := by
  unfold resendIn
  try dsimp only
  repeat' first
      | with_reducible assumption | with_reducible apply updFlits_keeps | with_reducible apply countCam_keeps
      | with_reducible apply startTraining_keeps | with_reducible apply ite_keeps | (with_reducible intro _)
      | simp only [mk_keeps] | simp only [mkSec_keeps] | split

theorem execResend_keeps {twin : Bool} {fack : BitVec 12} {s₁ : State} (hk : Keeps z s) (e :
    execResend twin fack s = .next s₁) : Keeps z s₁ := by
  unfold execResend at e
  try dsimp only at e
  repeat' split at e
  all_goals first | with_reducible refine done_keeps ?_ e | with_reducible refine done_keeps ?_ e
  all_goals (repeat' first
      | with_reducible assumption | with_reducible apply resendIn_keeps | with_reducible apply ite_keeps
      | (with_reducible intro _) | simp only [mk_keeps] | simp only [mkSec_keeps] | split)

theorem camnerUp_keeps (hk : Keeps z s) : Keeps z (camnerUp s) := by
  unfold camnerUp
  try dsimp only
  repeat' first
      | with_reducible assumption | with_reducible apply flushEvents_keeps | with_reducible apply putF_keeps
      | with_reducible apply ite_keeps | (with_reducible intro _) | simp only [mk_keeps] | simp only [mkSec_keeps] | split

theorem execCamnerRetrainEnd_keeps {twin : Bool} {ok : Bool} {s₁ : State} (hk : Keeps z s) (e :
    execCamnerRetrainEnd twin ok s = .next s₁) : Keeps z s₁ := by
  unfold execCamnerRetrainEnd at e
  try dsimp only at e
  repeat' split at e
  all_goals first | with_reducible refine done_keeps ?_ e | with_reducible refine done_keeps ?_ e
  all_goals (repeat' first
      | with_reducible assumption | with_reducible apply updFlits_keeps | with_reducible apply setTwinF_keeps
      | with_reducible apply camnerUp_keeps | with_reducible apply countCam_keeps | with_reducible apply twinLinkDown_keeps
      | with_reducible apply putF_keeps | with_reducible apply ite_keeps | (with_reducible intro _) | simp only [mk_keeps]
      | simp only [mkSec_keeps] | split)

theorem relink_keeps (hk : Keeps z s) : Keeps z (relink s) := by
  unfold relink
  try dsimp only
  repeat' first
      | with_reducible assumption | with_reducible apply updHub_keeps | with_reducible apply updCam_keeps
      | with_reducible apply ite_keeps | (with_reducible intro _) | simp only [mk_keeps] | simp only [mkSec_keeps] | split

theorem execCamnerLinkDownRetry_keeps {lanes : Option (Fin 3)} {s₁ : State} (hk : Keeps z s) (e :
    execCamnerLinkDownRetry lanes s = .next s₁) : Keeps z s₁ := by
  unfold execCamnerLinkDownRetry at e
  try dsimp only at e
  repeat' split at e
  all_goals first | with_reducible refine done_keeps ?_ e | with_reducible refine done_keeps ?_ e
  all_goals (repeat' first
      | with_reducible assumption | with_reducible apply putF_keeps | with_reducible apply relink_keeps
      | with_reducible apply camnerUp_keeps | with_reducible apply ite_keeps | (with_reducible intro _) | simp only [mk_keeps]
      | simp only [mkSec_keeps] | split)

theorem sendFront_keeps (op : Nat) (m : OutMsg) (hk : Keeps z s) : Keeps z (sendFront op m s) := by
  unfold sendFront
  try dsimp only
  repeat' first
      | with_reducible assumption | with_reducible apply updFlits_keeps | with_reducible apply updCam_keeps
      | with_reducible apply updHub_keeps | with_reducible apply ite_keeps | (with_reducible intro _) | simp only [mk_keeps]
      | simp only [mkSec_keeps] | split

theorem sendKind_keeps (op : Nat) (ok : OutMsg → Bool) (hk : Keeps z s) : Keeps z (sendKind op ok s) := by
  unfold sendKind
  try dsimp only
  repeat' first
      | with_reducible assumption | with_reducible apply sendFront_keeps | with_reducible apply ite_keeps
      | (with_reducible intro _) | simp only [mk_keeps] | simp only [mkSec_keeps] | split

theorem execFetch_keeps {s₁ : State} (hk : Keeps z s) (e : execFetch s = .next s₁) : Keeps z s₁ := by
  unfold execFetch at e
  with_reducible refine done_keeps ?_ e
  repeat' first
      | with_reducible assumption | with_reducible apply sendKind_keeps | with_reducible apply ite_keeps
      | (with_reducible intro _) | simp only [mk_keeps] | simp only [mkSec_keeps] | split

theorem execFetchHold_keeps {s₁ : State} (hk : Keeps z s) (e : execFetchHold s = .next s₁) : Keeps z s₁ := by
  unfold execFetchHold at e
  with_reducible refine done_keeps ?_ e
  repeat' first
      | with_reducible assumption | with_reducible apply sendKind_keeps | with_reducible apply ite_keeps
      | (with_reducible intro _) | simp only [mk_keeps] | simp only [mkSec_keeps] | split

theorem execStore_keeps {s₁ : State} (hk : Keeps z s) (e : execStore s = .next s₁) : Keeps z s₁ := by
  unfold execStore at e
  try dsimp only at e
  repeat' split at e
  all_goals first | with_reducible refine done_keeps ?_ e | with_reducible refine done_keeps ?_ e
  all_goals (repeat' first
      | with_reducible assumption | with_reducible apply sendKind_keeps | with_reducible apply ite_keeps
      | (with_reducible intro _) | simp only [mk_keeps] | simp only [mkSec_keeps] | split)

theorem execRelease_keeps {s₁ : State} (hk : Keeps z s) (e : execRelease s = .next s₁) : Keeps z s₁ := by
  unfold execRelease at e
  with_reducible refine done_keeps ?_ e
  repeat' first
      | with_reducible assumption | with_reducible apply sendKind_keeps | with_reducible apply release_keeps
      | with_reducible apply ite_keeps | (with_reducible intro _) | simp only [mk_keeps] | simp only [mkSec_keeps] | split

theorem answered_keeps (tag status : Nat) (hk : Keeps z s) : Keeps z (answered tag status s) := by
  unfold answered
  try dsimp only
  repeat' first
      | with_reducible assumption | with_reducible apply updCam_keeps | with_reducible apply updHub_keeps
      | with_reducible apply ite_keeps | (with_reducible intro _) | simp only [mk_keeps] | simp only [mkSec_keeps] | split

theorem execDoneMsg_keeps {tag : BitVec 12} {status : Fin 3} {s₁ : State} (hk : Keeps z s) (e :
    execDoneMsg tag status s = .next s₁) : Keeps z s₁ := by
  unfold execDoneMsg at e
  try dsimp only at e
  repeat' split at e
  all_goals first | with_reducible refine done_keeps ?_ e | with_reducible refine done_keeps ?_ e
  all_goals (repeat' first
      | with_reducible assumption | with_reducible apply answered_keeps | with_reducible apply ite_keeps
      | (with_reducible intro _) | simp only [mk_keeps] | simp only [mkSec_keeps] | split)

theorem execDoneData_keeps {tag : BitVec 12} {status : Fin 3} (_data : BitVec 2048) {s₁ : State} (hk : Keeps z s) (e :
    execDoneData tag status _data s = .next s₁) : Keeps z s₁ := by
  unfold execDoneData at e
  try dsimp only at e
  repeat' split at e
  all_goals first | with_reducible refine done_keeps ?_ e | with_reducible refine done_keeps ?_ e
  all_goals (repeat' first
      | with_reducible assumption | with_reducible apply answered_keeps | with_reducible apply ite_keeps
      | (with_reducible intro _) | simp only [mk_keeps] | simp only [mkSec_keeps] | split)

theorem recallIn_keeps (tag addr : Nat) (hk : Keeps z s) : Keeps z (recallIn tag addr s) := by
  unfold recallIn
  try dsimp only
  repeat' first
      | with_reducible assumption | with_reducible apply winAnswer_keeps | with_reducible apply updHub_keeps
      | with_reducible apply holdLine_keeps | with_reducible apply ite_keeps | (with_reducible intro _) | simp only [mk_keeps]
      | simp only [mkSec_keeps] | split

theorem execRecall_keeps {tag : BitVec 12} {addr : BitVec 64} {s₁ : State} (hk : Keeps z s) (e :
    execRecall tag addr s = .next s₁) : Keeps z s₁ := by
  unfold execRecall at e
  try dsimp only at e
  repeat' split at e
  all_goals first | with_reducible refine done_keeps ?_ e | with_reducible refine done_keeps ?_ e
  all_goals (repeat' first
      | with_reducible assumption | with_reducible apply recallIn_keeps | with_reducible apply ite_keeps
      | (with_reducible intro _) | simp only [mk_keeps] | simp only [mkSec_keeps] | split)

theorem winDone_keeps (tag : Nat) (r : WinStatus) (hk : Keeps z s) : Keeps z (winDone tag r s) := by
  unfold winDone
  try dsimp only
  repeat' first
      | with_reducible assumption | with_reducible apply winAnswer_keeps | with_reducible apply ite_keeps
      | (with_reducible intro _) | simp only [mk_keeps] | simp only [mkSec_keeps] | split

theorem winMemory_keeps (tag a len data : Nat) (write : Bool) (e : Stack) (hk : Keeps z s) : Keeps z
    (winMemory tag a len data write e s) := by
  unfold winMemory
  try dsimp only
  repeat' first
      | with_reducible assumption | with_reducible apply winDone_keeps | with_reducible apply updCam_keeps
      | with_reducible apply updHub_keeps | with_reducible apply sendXfer_keeps | with_reducible apply ite_keeps
      | (with_reducible intro _) | simp only [mk_keeps] | simp only [mkSec_keeps] | split

theorem winRead_keeps (tag addr len : Nat) (e : Stack) (hk : Keeps z s) : Keeps z (winRead tag addr len e s) := by
  unfold winRead
  try dsimp only
  repeat' first
      | with_reducible assumption | with_reducible apply winDone_keeps | with_reducible apply winMemory_keeps
      | with_reducible apply winAnswer_keeps | with_reducible apply ite_keeps | (with_reducible intro _)
      | simp only [mk_keeps] | simp only [mkSec_keeps] | split

theorem slotWriteWin_keeps (data : Nat) (hk : Keeps z s) : Keeps z (slotWriteWin data s).2 := by
  unfold slotWriteWin
  try dsimp only
  repeat' first
      | with_reducible assumption | with_reducible apply forAll_keeps | with_reducible apply refuseWrite_keeps
      | with_reducible apply forAll_keeps | with_reducible apply softWrite_keeps | with_reducible apply ite_keeps
      | (with_reducible intro _) | simp only [mk_keeps] | simp only [mkSec_keeps] | split
theorem slotWriteWin_keepsE {data : Nat} {x0 : _} {s₁ : State} (hk : Keeps z s) (he : slotWriteWin data s = (x0, s₁)) :
    Keeps z s₁ := by
  have k₁ := slotWriteWin_keeps data hk
  rw [he] at k₁
  exact k₁

theorem winRegWrite_keeps (a addr len data : Nat) (hk : Keeps z s) : Keeps z (winRegWrite a addr len data s).2 := by
  unfold winRegWrite
  try dsimp only
  repeat' first
      | with_reducible assumption | with_reducible apply slotWriteWin_keeps
      | (refine slotWriteWin_keepsE ?_ (by with_reducible assumption)) | with_reducible apply writeReg_keeps
      | (refine writeReg_keepsE ?_ (by with_reducible assumption)) | with_reducible apply ite_keeps | (with_reducible intro _)
      | simp only [mk_keeps] | simp only [mkSec_keeps] | split
theorem winRegWrite_keepsE {a : Nat} {addr : Nat} {len : Nat} {data : Nat} {x0 : _} {s₁ : State} (hk : Keeps z s) (he :
    winRegWrite a addr len data s = (x0, s₁)) : Keeps z s₁ := by
  have k₁ := winRegWrite_keeps a addr len data hk
  rw [he] at k₁
  exact k₁

theorem winWrite_keeps (tag addr len data : Nat) (e : Stack) (hk : Keeps z s) : Keeps z (winWrite tag addr len data e s) := by
  unfold winWrite
  try dsimp only
  repeat' first
      | with_reducible assumption | with_reducible apply winDone_keeps | with_reducible apply winMemory_keeps
      | with_reducible apply winRegWrite_keeps | (refine winRegWrite_keepsE ?_ (by with_reducible assumption))
      | with_reducible apply ite_keeps | (with_reducible intro _) | simp only [mk_keeps] | simp only [mkSec_keeps] | split

theorem execWinRead_keeps {tag : BitVec 12} {addr : BitVec 64} {len : Fin 257} {e : Stack} {s₁ : State} (hk : Keeps z s) (e :
    execWinRead tag addr len e s = .next s₁) : Keeps z s₁ := by
  unfold execWinRead at e
  try dsimp only at e
  repeat' split at e
  all_goals first | with_reducible refine done_keeps ?_ e | with_reducible refine done_keeps ?_ e
  all_goals (repeat' first
      | with_reducible assumption | with_reducible apply winRead_keeps | with_reducible apply ite_keeps
      | (with_reducible intro _) | simp only [mk_keeps] | simp only [mkSec_keeps] | split)

theorem execWinWrite_keeps {tag : BitVec 12} {addr : BitVec 64} {len : Fin 257} {data : BitVec 2048} {e : Stack} {s₁ :
    State} (hk : Keeps z s) (e : execWinWrite tag addr len data e s = .next s₁) : Keeps z s₁ := by
  unfold execWinWrite at e
  try dsimp only at e
  repeat' split at e
  all_goals first | with_reducible refine done_keeps ?_ e | with_reducible refine done_keeps ?_ e
  all_goals (repeat' first
      | with_reducible assumption | with_reducible apply winWrite_keeps | with_reducible apply ite_keeps
      | (with_reducible intro _) | simp only [mk_keeps] | simp only [mkSec_keeps] | split)

theorem camnerMessage_keeps (e : Stack) (h data : Nat) (hk : Keeps z s) : Keeps z (camnerMessage e h data s) := by
  unfold camnerMessage
  try dsimp only
  repeat' first
      | with_reducible assumption | with_reducible apply winRead_keeps | with_reducible apply winWrite_keeps
      | with_reducible apply recallIn_keeps | with_reducible apply answered_keeps | with_reducible apply satF_keeps
      | with_reducible apply winDone_keeps | with_reducible apply ite_keeps | (with_reducible intro _) | simp only [mk_keeps]
      | simp only [mkSec_keeps] | split

theorem twinMessage_keeps (h data : Nat) (ops : List (Fin 4096 × MirOp)) (hk : Keeps z s) : Keeps z
    (twinMessage h data ops s).2 := by
  unfold twinMessage
  try dsimp only
  repeat' first
      | with_reducible assumption | with_reducible apply heartbeatIn_keeps | with_reducible apply applyMirOp_keeps
      | with_reducible apply burstOpen_keeps | with_reducible apply burstData_keeps | with_reducible apply burstClose_keeps
      | with_reducible apply ackIn_keeps | with_reducible apply discardAll_keeps | with_reducible apply fenceIn_keeps
      | with_reducible apply setTwinF_keeps | with_reducible apply satF_keeps | with_reducible apply ite_keeps
      | (with_reducible intro _) | simp only [mk_keeps] | simp only [mkSec_keeps] | split
theorem twinMessage_keepsE {h : Nat} {data : Nat} {ops : List (Fin 4096 × MirOp)} {x0 : _} {s₁ : State} (hk : Keeps z s)
    (he : twinMessage h data ops s = (x0, s₁)) : Keeps z s₁ := by
  have k₁ := twinMessage_keeps h data ops hk
  rw [he] at k₁
  exact k₁

theorem takeMessages_keeps (twin : Bool) (e : Stack) (n : Nat) : ∀ (ops : List (Fin 4096 × MirOp)) (l : List Nat) {s :
    State}, Keeps z s →
    Keeps z (takeMessages twin e n ops l s).2 := by
  induction n with
  | zero => intro ops l s hk; unfold takeMessages; exact hk
  | succ n ih =>
    intro ops l s hk
    cases l with
    | nil => unfold takeMessages; exact hk
    | cons h l =>
      unfold takeMessages
      dsimp only
      split
      · exact ih _ _ hk
      · split
        · exact hk
        · split
          · exact ih _ _ (twinMessage_keeps _ _ _ hk)
          · exact ih _ _ (camnerMessage_keeps _ _ _ hk)
theorem takeMessages_keepsE {twin : Bool} {e : Stack} {n : Nat} {ops : List (Fin 4096 × MirOp)} {l r : List Nat} {s₁ :
    State} (hk : Keeps z s)
    (he : takeMessages twin e n ops l s = (r, s₁)) : Keeps z s₁ := by
  have k₁ := takeMessages_keeps twin e n ops l hk
  rw [he] at k₁
  exact k₁

theorem carrierIn_keeps (twin : Bool) (e : Stack) (ops : List (Fin 4096 × MirOp)) (seq : Nat) (l : List Byte) (hk :
    Keeps z s) : Keeps z (carrierIn twin e ops seq l s) := by
  unfold carrierIn
  try dsimp only
  repeat' first
      | with_reducible assumption | with_reducible apply updFlits_keeps | with_reducible apply takeMessages_keeps
      | (refine takeMessages_keepsE ?_ (by with_reducible assumption)) | with_reducible apply ite_keeps
      | (with_reducible intro _) | simp only [mk_keeps] | simp only [mkSec_keeps] | split

theorem flitIn_keeps (twin : Bool) (e : Stack) (ops : List (Fin 4096 × MirOp)) (l : List Byte) (hk : Keeps z s) : Keeps z
    (flitIn twin e ops l s) := by
  unfold flitIn
  try dsimp only
  repeat' first
      | with_reducible assumption | with_reducible apply updFlits_keeps | with_reducible apply resendIn_keeps
      | with_reducible apply carrierIn_keeps | with_reducible apply ite_keeps | (with_reducible intro _)
      | simp only [mk_keeps] | simp only [mkSec_keeps] | split

theorem execCarrierFlitReceive_keeps {twin : Bool} {flit : BitVec 2304} {e : Stack} {ops : List (Fin 4096 × MirOp)} {s₁ :
    State} (hk : Keeps z s) (e : execCarrierFlitReceive twin flit e ops s = .next s₁) : Keeps z s₁ := by
  unfold execCarrierFlitReceive at e
  try dsimp only at e
  repeat' split at e
  all_goals first | with_reducible refine done_keeps ?_ e | with_reducible refine done_keeps ?_ e
  all_goals (repeat' first
      | with_reducible assumption | with_reducible apply countCam_keeps | with_reducible apply updFlits_keeps
      | with_reducible apply flitIn_keeps | with_reducible apply ite_keeps | (with_reducible intro _) | simp only [mk_keeps]
      | simp only [mkSec_keeps] | split)

end Sys2Proof.Machine
end

