-- ==== Sys2Proof/Laws/KeepsRing.lean ====
section
/-! SUPPORT. What the definitions of Ring.lean keep. -/
namespace Sys2Proof.Machine

variable {z s : State}

theorem packageErr_keeps (d : Stack) (kind info : Nat) (hk : Keeps z s) : Keeps z (packageErr d kind info s) := by
  unfold packageErr
  try dsimp only
  repeat' first
      | with_reducible assumption | with_reducible apply recordErr_keeps | with_reducible apply acceptReset_keeps
      | with_reducible apply ite_keeps | (with_reducible intro _) | simp only [mk_keeps] | simp only [mkSec_keeps] | split

theorem packageEscalation_keeps (d : Stack) (e : Escalation) (hk : Keeps z s) : Keeps z (packageEscalation d e s) := by
  unfold packageEscalation
  try dsimp only
  repeat' first
      | with_reducible assumption | with_reducible apply packageErr_keeps | with_reducible apply satF_keeps
      | with_reducible apply postEvent_keeps | with_reducible apply ite_keeps | (with_reducible intro _)
      | simp only [mk_keeps] | simp only [mkSec_keeps] | split

theorem haltLane_keeps (k : Nat) (g : Graph) (task kind : Nat) (hk : Keeps z s) : Keeps z (haltLane k g task kind s) := by
  unfold haltLane
  try dsimp only
  repeat' first
      | with_reducible assumption | with_reducible apply forAll_keeps | with_reducible apply putF_keeps
      | with_reducible apply postEvent_keeps | with_reducible apply forAll_keeps | with_reducible apply postSess_keeps
      | with_reducible apply ite_keeps | (with_reducible intro _) | simp only [mk_keeps] | simp only [mkSec_keeps] | split

theorem ownershipHalt_keeps (d : Stack) (kind at_ : Nat) (hk : Keeps z s) : Keeps z (ownershipHalt d kind at_ s) := by
  unfold ownershipHalt
  try dsimp only
  repeat' first
      | with_reducible assumption | with_reducible apply haltLane_keeps | with_reducible apply ite_keeps
      | (with_reducible intro _) | simp only [mk_keeps] | simp only [mkSec_keeps] | split

theorem hearWord_keeps (a how : Nat) (hk : Keeps z s) : Keeps z (hearWord a how s) := by
  unfold hearWord
  try dsimp only
  repeat' first
      | with_reducible assumption | with_reducible apply dropPage_keeps | with_reducible apply postEvent_keeps
      | with_reducible apply ite_keeps | (with_reducible intro _) | simp only [mk_keeps] | simp only [mkSec_keeps] | split

theorem dropLpPages_keeps (d : Stack) (hk : Keeps z s) : Keeps z (dropLpPages d s) := by
  unfold dropLpPages
  try dsimp only
  repeat' first
      | with_reducible assumption | with_reducible apply forAll_keeps | with_reducible apply forAll_keeps
      | with_reducible apply dropPage_keeps | with_reducible apply ite_keeps | (with_reducible intro _) | simp only [mk_keeps]
      | simp only [mkSec_keeps] | split

theorem leaveFrame_keeps (k e sl : Nat) (hk : Keeps z s) : Keeps z (leaveFrame k e sl s) := by
  unfold leaveFrame
  try dsimp only
  repeat' first
      | with_reducible assumption | with_reducible apply pickFree_keeps
      | (refine pickFree_keepsE ?_ (by with_reducible assumption)) | with_reducible apply startMove_keeps
      | with_reducible apply updNear_keeps | with_reducible apply updGraph_keeps | with_reducible apply ite_keeps
      | (with_reducible intro _) | simp only [mk_keeps] | simp only [mkSec_keeps] | split

theorem leaveRetired_keeps (d : Stack) (hk : Keeps z s) : Keeps z (leaveRetired d s) := by
  unfold leaveRetired
  try dsimp only
  repeat' first
      | with_reducible assumption | with_reducible apply forAll_keeps | with_reducible apply forAll_keeps
      | with_reducible apply leaveFrame_keeps | with_reducible apply ite_keeps | (with_reducible intro _)
      | simp only [mk_keeps] | simp only [mkSec_keeps] | split

theorem forwardObjs_keeps (d : Stack) (hk : Keeps z s) : Keeps z (forwardObjs d s) := by
  unfold forwardObjs
  try dsimp only
  repeat' first
      | with_reducible assumption | with_reducible apply forAll_keeps | with_reducible apply updDie_keeps
      | with_reducible apply forAll_keeps | with_reducible apply updSvc_keeps | with_reducible apply ite_keeps
      | (with_reducible intro _) | simp only [mk_keeps] | simp only [mkSec_keeps] | split

theorem ringSlot_keeps (d : Stack) (hk : Keeps z s) : Keeps z (ringSlot d s) := by
  unfold ringSlot
  try dsimp only
  repeat' first
      | with_reducible assumption | with_reducible apply forwardObjs_keeps | with_reducible apply updDie_keeps
      | with_reducible apply ownFault_keeps | with_reducible apply ownershipHalt_keeps | with_reducible apply updHub_keeps
      | with_reducible apply forAll_keeps | with_reducible apply hearWord_keeps | with_reducible apply dropLpPages_keeps
      | with_reducible apply packageEscalation_keeps | with_reducible apply leaveRetired_keeps
      | with_reducible apply ite_keeps | (with_reducible intro _) | simp only [mk_keeps] | simp only [mkSec_keeps] | split

theorem execManagementRingSlot_keeps {d : Stack} {s₁ : State} (hk : Keeps z s) (e : execManagementRingSlot d s = .next s₁) :
    Keeps z s₁ := by
  unfold execManagementRingSlot at e
  try dsimp only at e
  repeat' split at e
  all_goals first
      | with_reducible refine done_keeps ?_ e | (injection e with e; subst e) | cases e
  all_goals (repeat' first
      | with_reducible assumption | with_reducible apply ringSlot_keeps | with_reducible apply updHub_keeps
      | with_reducible apply ite_keeps | (with_reducible intro _) | simp only [mk_keeps] | simp only [mkSec_keeps] | split)

theorem execHubPortBeat_keeps {d : Stack} {s₁ : State} (hk : Keeps z s) (e : execHubPortBeat d s = .next s₁) : Keeps z s₁ :=
    by
  unfold execHubPortBeat at e
  try dsimp only at e
  repeat' split at e
  all_goals first
      | with_reducible refine done_keeps ?_ e | (injection e with e; subst e) | cases e
  all_goals (repeat' first
      | with_reducible assumption | with_reducible apply noteXferErr_keeps | with_reducible apply packageErr_keeps
      | with_reducible apply ite_keeps | (with_reducible intro _) | simp only [mk_keeps] | simp only [mkSec_keeps] | split)

end Sys2Proof.Machine
end

