-- ==== Sys2Proof/Laws/KeepsThermal.lean ====
section
/-! SUPPORT. What the definitions of Thermal.lean keep. -/
namespace Sys2Proof.Machine

variable {z s : State}

theorem readingBits_keeps (v : Int) (hk : Keeps z s) : Keeps z (readingBits v s).2 := by
  unfold readingBits
  try dsimp only
  repeat' first
      | with_reducible assumption | with_reducible apply takeFreeNat_keeps
      | (refine takeFreeNat_keepsE ?_ (by with_reducible assumption)) | with_reducible apply ite_keeps
      | (with_reducible intro _) | simp only [mk_keeps] | simp only [mkSec_keeps] | split
theorem readingBits_keepsE {v : Int} {x0 : _} {s₁ : State} (hk : Keeps z s) (he : readingBits v s = (x0, s₁)) :
    Keeps z s₁ := by
  have k₁ := readingBits_keeps v hk
  rw [he] at k₁
  exact k₁

theorem suspectEvent_keeps (die n a b : Nat) (hk : Keeps z s) : Keeps z (suspectEvent die n a b s) := by
  unfold suspectEvent
  try dsimp only
  repeat' first
      | with_reducible assumption | with_reducible apply raiseAlert_keeps | with_reducible apply postEvent_keeps
      | with_reducible apply ite_keeps | (with_reducible intro _) | simp only [mk_keeps] | simp only [mkSec_keeps] | split

theorem thermAlert_keeps (die n v : Nat) (hk : Keeps z s) : Keeps z (thermAlert die n v s) := by
  unfold thermAlert
  try dsimp only
  repeat' first
      | with_reducible assumption | with_reducible apply raiseAlert_keeps | with_reducible apply postEvent_keeps
      | with_reducible apply ite_keeps | (with_reducible intro _) | simp only [mk_keeps] | simp only [mkSec_keeps] | split

theorem readSensor_keeps (d : Stack) (n : Nat) (v : Int) (hk : Keeps z s) : Keeps z (readSensor d n v s) := by
  unfold readSensor
  try dsimp only
  repeat' first
      | with_reducible assumption | with_reducible apply readingBits_keeps
      | (refine readingBits_keepsE ?_ (by with_reducible assumption)) | with_reducible apply putF_keeps
      | with_reducible apply updTherm_keeps | with_reducible apply ite_keeps | (with_reducible intro _) | simp only [mk_keeps]
      | simp only [mkSec_keeps] | split

theorem readPair_keeps (d : Stack) (n : Nat) (va vb : Int) (hk : Keeps z s) : Keeps z (readPair d n va vb s) := by
  unfold readPair
  try dsimp only
  repeat' first
      | with_reducible assumption | with_reducible apply readSensor_keeps | with_reducible apply putF_keeps
      | with_reducible apply suspectEvent_keeps | with_reducible apply thermAlert_keeps | with_reducible apply ite_keeps
      | (with_reducible intro _) | simp only [mk_keeps] | simp only [mkSec_keeps] | split

theorem closeLayer_keeps (d : Stack) (l : Fin 6) (hk : Keeps z s) : Keeps z (closeLayer d l s) := by
  unfold closeLayer
  try dsimp only
  repeat' first
      | with_reducible assumption | with_reducible apply putF_keeps | with_reducible apply ite_keeps
      | (with_reducible intro _) | simp only [mk_keeps] | simp only [mkSec_keeps] | split

theorem aboveLayer_keeps (d : Stack) (l power : Nat) (hk : Keeps z s) : Keeps z (aboveLayer d l power s).2 := by
  unfold aboveLayer
  try dsimp only
  repeat' first
      | with_reducible assumption | with_reducible apply takeFreeNat_keeps
      | (refine takeFreeNat_keepsE ?_ (by with_reducible assumption)) | with_reducible apply ite_keeps
      | (with_reducible intro _) | simp only [mk_keeps] | simp only [mkSec_keeps] | split
theorem aboveLayer_keepsE {d : Stack} {l : Nat} {power : Nat} {x0 : _} {s₁ : State} (hk : Keeps z s) (he :
    aboveLayer d l power s = (x0, s₁)) : Keeps z s₁ := by
  have k₁ := aboveLayer_keeps d l power hk
  rw [he] at k₁
  exact k₁

theorem newEstimate_keeps (d : Stack) (l power : Nat) (hk : Keeps z s) : Keeps z (newEstimate d l power s).2 := by
  unfold newEstimate
  try dsimp only
  repeat' first
      | with_reducible assumption | with_reducible apply aboveLayer_keeps
      | (refine aboveLayer_keepsE ?_ (by with_reducible assumption)) | with_reducible apply ite_keeps
      | (with_reducible intro _) | simp only [mk_keeps] | simp only [mkSec_keeps] | split
theorem newEstimate_keepsE {d : Stack} {l : Nat} {power : Nat} {x0 : _} {s₁ : State} (hk : Keeps z s) (he :
    newEstimate d l power s = (x0, s₁)) : Keeps z s₁ := by
  have k₁ := newEstimate_keeps d l power hk
  rw [he] at k₁
  exact k₁

theorem newEstimates_keeps (d : Stack) (power : Nat) (hk : Keeps z s) : Keeps z (newEstimates d power s).2 := by
  unfold newEstimates
  try dsimp only
  repeat' first
      | with_reducible assumption | (with_reducible refine foldl_keeps (Keeps z) _ _ _ (fun _ _ _ => ?_) ?_)
      | (with_reducible refine foldr_keeps (Keeps z) _ _ _ (fun _ _ _ => ?_) ?_) | with_reducible apply foldl_keeps2
      | with_reducible apply foldr_keeps2 | with_reducible apply foldl_keeps3 | with_reducible apply foldr_keeps3
      | with_reducible apply newEstimate_keeps | (refine newEstimate_keepsE ?_ (by with_reducible assumption))
      | with_reducible apply ite_keeps | (with_reducible intro _) | simp only [mk_keeps] | simp only [mkSec_keeps] | split
theorem newEstimates_keepsE {d : Stack} {power : Nat} {x0 : _} {s₁ : State} (hk : Keeps z s) (he : newEstimates d power s =
    (x0, s₁)) : Keeps z s₁ := by
  have k₁ := newEstimates_keeps d power hk
  rw [he] at k₁
  exact k₁

theorem layerRound_keeps (d : Stack) (l x : Nat) (hk : Keeps z s) : Keeps z (layerRound d l x s) := by
  unfold layerRound
  try dsimp only
  repeat' first
      | with_reducible assumption | with_reducible apply updTherm_keeps | with_reducible apply putF_keeps
      | with_reducible apply suspectEvent_keeps | with_reducible apply ite_keeps | (with_reducible intro _)
      | simp only [mk_keeps] | simp only [mkSec_keeps] | split

theorem pushUsed_keeps (d : Stack) (k v : Nat) (hk : Keeps z s) : Keeps z (pushUsed d k v s) := by
  unfold pushUsed
  try dsimp only
  repeat' first
      | with_reducible assumption | with_reducible apply updTherm_keeps | with_reducible apply ite_keeps
      | (with_reducible intro _) | simp only [mk_keeps] | simp only [mkSec_keeps] | split

theorem setBand_keeps (d : Stack) (v : Nat) (hk : Keeps z s) : Keeps z (setBand d v s) := by
  unfold setBand
  try dsimp only
  repeat' first
      | with_reducible assumption | with_reducible apply forAll_keeps | with_reducible apply forAll_keeps
      | with_reducible apply putF_keeps | with_reducible apply ite_keeps | (with_reducible intro _) | simp only [mk_keeps]
      | simp only [mkSec_keeps] | split

theorem bandRound_keeps (d : Stack) (hk : Keeps z s) : Keeps z (bandRound d s) := by
  unfold bandRound
  try dsimp only
  repeat' first
      | with_reducible assumption | with_reducible apply updTherm_keeps | with_reducible apply setBand_keeps
      | with_reducible apply ite_keeps | (with_reducible intro _) | simp only [mk_keeps] | simp only [mkSec_keeps] | split

theorem powerRound_keeps (d : Stack) (power : Nat) (hk : Keeps z s) : Keeps z (powerRound d power s) := by
  unfold powerRound
  try dsimp only
  repeat' first
      | with_reducible assumption | (with_reducible refine foldl_keeps (Keeps z) _ _ _ (fun _ _ _ => ?_) ?_)
      | (with_reducible refine foldr_keeps (Keeps z) _ _ _ (fun _ _ _ => ?_) ?_) | with_reducible apply foldl_keeps2
      | with_reducible apply foldr_keeps2 | with_reducible apply foldl_keeps3 | with_reducible apply foldr_keeps3
      | with_reducible apply putF_keeps | with_reducible apply ite_keeps | (with_reducible intro _) | simp only [mk_keeps]
      | simp only [mkSec_keeps] | split

theorem applyFrost_keeps (d : Stack) (hk : Keeps z s) : Keeps z (applyFrost d s) := by
  unfold applyFrost
  try dsimp only
  repeat' first
      | with_reducible assumption | with_reducible apply updTherm_keeps | with_reducible apply raiseAlert_keeps
      | with_reducible apply settleElastic_keeps | with_reducible apply ite_keeps | (with_reducible intro _)
      | simp only [mk_keeps] | simp only [mkSec_keeps] | split

theorem setFrost_keeps (d : Stack) (n : Nat) (hk : Keeps z s) : Keeps z (setFrost d n s) := by
  unfold setFrost
  try dsimp only
  repeat' first
      | with_reducible assumption | with_reducible apply putF_keeps | with_reducible apply applyFrost_keeps
      | with_reducible apply ite_keeps | (with_reducible intro _) | simp only [mk_keeps] | simp only [mkSec_keeps] | split

theorem frostRound_keeps (d : Stack) (two : Bool) (hk : Keeps z s) : Keeps z (frostRound d two s) := by
  unfold frostRound
  try dsimp only
  repeat' first
      | with_reducible assumption | with_reducible apply updTherm_keeps | with_reducible apply setFrost_keeps
      | with_reducible apply setElastic_keeps | with_reducible apply ite_keeps | (with_reducible intro _)
      | simp only [mk_keeps] | simp only [mkSec_keeps] | split

theorem execFrostLevelChange_keeps {d : Stack} {s₁ : State} (hk : Keeps z s) (e : execFrostLevelChange d s = .next s₁) :
    Keeps z s₁ := by
  unfold execFrostLevelChange at e
  try dsimp only at e
  repeat' split at e
  all_goals first | with_reducible refine done_keeps ?_ e | with_reducible refine done_keeps ?_ e
  all_goals (repeat' first
      | with_reducible assumption | with_reducible apply applyFrost_keeps | with_reducible apply ite_keeps
      | (with_reducible intro _) | simp only [mk_keeps] | simp only [mkSec_keeps] | split)

theorem marginOf_keeps (count fresh : Nat) (hk : Keeps z s) : Keeps z (marginOf count fresh s).2 := by
  unfold marginOf
  try dsimp only
  repeat' first
      | with_reducible assumption | with_reducible apply fresh_keeps | (refine fresh_keepsE ?_ (by with_reducible assumption))
      | with_reducible apply takeFreeNat_keeps | (refine takeFreeNat_keepsE ?_ (by with_reducible assumption))
      | with_reducible apply ite_keeps | (with_reducible intro _) | simp only [mk_keeps] | simp only [mkSec_keeps] | split
theorem marginOf_keepsE {count : Nat} {fresh : Nat} {x0 : _} {s₁ : State} (hk : Keeps z s) (he : marginOf count fresh s =
    (x0, s₁)) : Keeps z s₁ := by
  have k₁ := marginOf_keeps count fresh hk
  rw [he] at k₁
  exact k₁

theorem putVoff_keeps (k v : Nat) (hk : Keeps z s) : Keeps z { s with voff := sput 0 s.voff k v } := by
  refine hk.of rfl rfl rfl rfl rfl fun x => ?_
  obtain ⟨h0, h1, h2, h3, h4, h5, h6, h7, h8, h9, h10, h11⟩ := canon_iff.1 x
  exact canon_iff.2 ⟨h0, h1, h2, h3, h4, h5, h6, h7, h8, h9, h10, canonical_sput (d := fun _ => 0) h11⟩
theorem marginRound_keeps (d : Stack) (counts : List Nat) (hk : Keeps z s) : Keeps z (marginRound d counts s) := by
  unfold marginRound
  try dsimp only
  repeat' first
      | with_reducible assumption | with_reducible apply forAll_keeps | with_reducible apply forAll_keeps
      | with_reducible apply putF_keeps | with_reducible apply fresh_keeps
      | (refine fresh_keepsE ?_ (by with_reducible assumption)) | with_reducible apply marginOf_keeps
      | (refine marginOf_keepsE ?_ (by with_reducible assumption)) | with_reducible apply updTherm_keeps
      | with_reducible apply raiseAlert_keeps | with_reducible apply postEvent_keeps | with_reducible apply ite_keeps
      | (with_reducible intro _) | with_reducible apply putVoff_keeps | simp only [mk_keeps] | simp only [mkSec_keeps] | split

theorem vaultRound_keeps (d : Stack) (c : CoreIx) (hk : Keeps z s) : Keeps z (vaultRound d c s) := by
  unfold vaultRound
  try dsimp only
  repeat' first
      | with_reducible assumption | (with_reducible refine foldl_keeps (Keeps z) _ _ _ (fun _ _ _ => ?_) ?_)
      | (with_reducible refine foldr_keeps (Keeps z) _ _ _ (fun _ _ _ => ?_) ?_) | with_reducible apply foldl_keeps2
      | with_reducible apply foldr_keeps2 | with_reducible apply foldl_keeps3 | with_reducible apply foldr_keeps3
      | with_reducible apply putF_keeps | with_reducible apply updVc_keeps | with_reducible apply vaultRetrain_keeps
      | with_reducible apply ite_keeps | (with_reducible intro _) | simp only [mk_keeps] | simp only [mkSec_keeps] | split

theorem lpRound_keeps (d : Stack) (mr4 : List (Nat × Bool × Bool)) (round : Nat) (hk : Keeps z s) : Keeps z
    (lpRound d mr4 round s) := by
  unfold lpRound
  try dsimp only
  repeat' first
      | with_reducible assumption | with_reducible apply forAll_keeps | with_reducible apply forAll_keeps
      | with_reducible apply satF_keeps | with_reducible apply putF_keeps | with_reducible apply updLp_keeps
      | with_reducible apply requestSegment_keeps | with_reducible apply ite_keeps | (with_reducible intro _)
      | simp only [mk_keeps] | simp only [mkSec_keeps] | split

theorem portRound_keeps (d : Stack) (hk : Keeps z s) : Keeps z (portRound d s) := by
  unfold portRound
  try dsimp only
  repeat' first
      | with_reducible assumption | with_reducible apply forAll_keeps | with_reducible apply forAll_keeps
      | with_reducible apply requestRetrain_keeps | with_reducible apply updDie_keeps | with_reducible apply ite_keeps
      | (with_reducible intro _) | simp only [mk_keeps] | simp only [mkSec_keeps] | split

theorem clearUnits_keeps (st : Station) (hk : Keeps z s) : Keeps z (clearUnits st s) := by
  unfold clearUnits
  try dsimp only
  repeat' first
      | with_reducible assumption | (with_reducible refine foldl_keeps (Keeps z) _ _ _ (fun _ _ _ => ?_) ?_)
      | (with_reducible refine foldr_keeps (Keeps z) _ _ _ (fun _ _ _ => ?_) ?_) | with_reducible apply foldl_keeps2
      | with_reducible apply foldr_keeps2 | with_reducible apply foldl_keeps3 | with_reducible apply foldr_keeps3
      | with_reducible apply putReg_keeps | with_reducible apply ite_keeps | (with_reducible intro _) | simp only [mk_keeps]
      | simp only [mkSec_keeps] | split

theorem squallRound_keeps (d : Stack) (hk : Keeps z s) : Keeps z (squallRound d s) := by
  unfold squallRound
  try dsimp only
  repeat' first
      | with_reducible assumption | with_reducible apply putF_keeps | with_reducible apply postEvent_keeps
      | with_reducible apply stopPartition_keeps | with_reducible apply ite_keeps | (with_reducible intro _)
      | simp only [mk_keeps] | simp only [mkSec_keeps] | split

theorem dieRound_keeps (r : StackReading) (round : Nat) (hk : Keeps z s) : Keeps z (dieRound r round s) := by
  unfold dieRound
  try dsimp only
  repeat' first
      | with_reducible assumption | with_reducible apply forAll_keeps | with_reducible apply forAll_keeps
      | with_reducible apply closeLayer_keeps | with_reducible apply newEstimates_keeps
      | (refine newEstimates_keepsE ?_ (by with_reducible assumption)) | with_reducible apply updTherm_keeps
      | with_reducible apply updDie_keeps | with_reducible apply readPair_keeps | with_reducible apply layerRound_keeps
      | with_reducible apply pushUsed_keeps | with_reducible apply lpRound_keeps | with_reducible apply bandRound_keeps
      | with_reducible apply putF_keeps | with_reducible apply raiseAlert_keeps | with_reducible apply takeFreeNat_keeps
      | (refine takeFreeNat_keepsE ?_ (by with_reducible assumption)) | with_reducible apply thermAlert_keeps
      | with_reducible apply frostRound_keeps | with_reducible apply powerRound_keeps | with_reducible apply marginRound_keeps
      | with_reducible apply portRound_keeps | with_reducible apply vaultRound_keeps | with_reducible apply squallRound_keeps
      | with_reducible apply clearUnits_keeps | with_reducible apply ite_keeps | (with_reducible intro _)
      | simp only [mk_keeps] | simp only [mkSec_keeps] | split

theorem pauseRound_keeps (p : Partition) (hk : Keeps z s) : Keeps z (pauseRound p s) := by
  unfold pauseRound
  try dsimp only
  repeat' first
      | with_reducible assumption | (with_reducible refine foldl_keeps (Keeps z) _ _ _ (fun _ _ _ => ?_) ?_)
      | (with_reducible refine foldr_keeps (Keeps z) _ _ _ (fun _ _ _ => ?_) ?_) | with_reducible apply foldl_keeps2
      | with_reducible apply foldr_keeps2 | with_reducible apply foldl_keeps3 | with_reducible apply foldr_keeps3
      | with_reducible apply putF_keeps | with_reducible apply ite_keeps | (with_reducible intro _) | simp only [mk_keeps]
      | simp only [mkSec_keeps] | split

end Sys2Proof.Machine
end

