-- ==== Sys2Proof/Laws/KeepsRound.lean ====
section
/-! SUPPORT. What the definitions of Round.lean keep. -/
namespace Sys2Proof.Machine

variable {z s : State}

theorem updHubTherm_keeps (f : HubTherm → HubTherm) (hk : Keeps z s) : Keeps z (updHubTherm f s) := by
  unfold updHubTherm
  try dsimp only
  repeat' first
      | with_reducible assumption | with_reducible apply ite_keeps | (with_reducible intro _) | simp only [mk_keeps]
      | simp only [mkSec_keeps] | split

theorem readHubSensor_keeps (n : Nat) (v : Int) (hk : Keeps z s) : Keeps z (readHubSensor n v s) := by
  unfold readHubSensor
  try dsimp only
  repeat' first
      | with_reducible assumption | with_reducible apply readingBits_keeps
      | (refine readingBits_keepsE ?_ (by with_reducible assumption)) | with_reducible apply updHubTherm_keeps
      | with_reducible apply ite_keeps | (with_reducible intro _) | simp only [mk_keeps] | simp only [mkSec_keeps] | split

theorem readHubPair_keeps (n : Nat) (va vb : Int) (hk : Keeps z s) : Keeps z (readHubPair n va vb s) := by
  unfold readHubPair
  try dsimp only
  repeat' first
      | with_reducible assumption | with_reducible apply readHubSensor_keeps | with_reducible apply updHubTherm_keeps
      | with_reducible apply suspectEvent_keeps | with_reducible apply thermAlert_keeps | with_reducible apply ite_keeps
      | (with_reducible intro _) | simp only [mk_keeps] | simp only [mkSec_keeps] | split

theorem packagePower_keeps (r : RoundReading) (two : Bool) (hk : Keeps z s) : Keeps z (packagePower r two s) := by
  unfold packagePower
  try dsimp only
  repeat' first
      | with_reducible assumption | with_reducible apply putF_keeps | with_reducible apply raiseAlert_keeps
      | with_reducible apply ite_keeps | (with_reducible intro _) | simp only [mk_keeps] | simp only [mkSec_keeps] | split

theorem inletRound_keeps (hk : Keeps z s) : Keeps z (inletRound s) := by
  unfold inletRound
  try dsimp only
  repeat' first
      | with_reducible assumption | with_reducible apply satF_keeps | with_reducible apply putF_keeps
      | with_reducible apply raiseAlert_keeps | with_reducible apply ite_keeps | (with_reducible intro _)
      | simp only [mk_keeps] | simp only [mkSec_keeps] | split

theorem airRound_keeps (one : Bool) (hk : Keeps z s) : Keeps z (airRound one s) := by
  unfold airRound
  try dsimp only
  repeat' first
      | with_reducible assumption | with_reducible apply raiseAlert_keeps | with_reducible apply putF_keeps
      | with_reducible apply updHubTherm_keeps | with_reducible apply ite_keeps | (with_reducible intro _)
      | simp only [mk_keeps] | simp only [mkSec_keeps] | split

theorem summary_keeps (one two : Bool) (hk : Keeps z s) : Keeps z (summary one two s) := by
  unfold summary
  try dsimp only
  repeat' first
      | with_reducible assumption | with_reducible apply putF_keeps | with_reducible apply ite_keeps
      | (with_reducible intro _) | simp only [mk_keeps] | simp only [mkSec_keeps] | split

theorem reportErrors_keeps (hk : Keeps z s) : Keeps z (reportErrors s) := by
  unfold reportErrors
  try dsimp only
  repeat' first
      | with_reducible assumption | with_reducible apply clearUnits_keeps | with_reducible apply updHub_keeps
      | with_reducible apply ite_keeps | (with_reducible intro _) | simp only [mk_keeps] | simp only [mkSec_keeps] | split

theorem frAgain_keeps (hk : Keeps z s) : Keeps z (frAgain s) := by
  unfold frAgain
  try dsimp only
  repeat' first
      | with_reducible assumption | with_reducible apply updHub_keeps | with_reducible apply ite_keeps
      | (with_reducible intro _) | simp only [mk_keeps] | simp only [mkSec_keeps] | split

theorem measurementRound_keeps (r : RoundReading) (hk : Keeps z s) : Keeps z (measurementRound r s) := by
  unfold measurementRound
  try dsimp only
  repeat' first
      | with_reducible assumption | with_reducible apply forAll_keeps | with_reducible apply inletRound_keeps
      | with_reducible apply bumpF_keeps | with_reducible apply forAll_keeps | with_reducible apply dieRound_keeps
      | with_reducible apply readHubPair_keeps | with_reducible apply raiseAlert_keeps | with_reducible apply airRound_keeps
      | with_reducible apply packagePower_keeps | with_reducible apply pauseRound_keeps | with_reducible apply updTherm_keeps
      | with_reducible apply reportErrors_keeps | with_reducible apply summary_keeps | with_reducible apply frAgain_keeps
      | with_reducible apply thermalTrip_keeps | with_reducible apply ite_keeps | (with_reducible intro _)
      | simp only [mk_keeps] | simp only [mkSec_keeps] | split

theorem execMeasurementRound_keeps {r : RoundReading} {s₁ : State} (hk : Keeps z s) (e :
    execMeasurementRound r s = .next s₁) : Keeps z s₁ := by
  unfold execMeasurementRound at e
  with_reducible refine done_keeps ?_ e
  repeat' first
      | with_reducible assumption | with_reducible apply measurementRound_keeps | with_reducible apply ite_keeps
      | (with_reducible intro _) | simp only [mk_keeps] | simp only [mkSec_keeps] | split

theorem execTripComparator_keeps {die : Option Stack} {n : Fin 56} {reading : Int} {s₁ : State} (hk : Keeps z s) (e :
    execTripComparator die n reading s = .next s₁) : Keeps z s₁ := by
  unfold execTripComparator at e
  try dsimp only at e
  repeat' split at e
  all_goals first
      | with_reducible refine done_keeps ?_ e | (injection e with e; subst e) | cases e
  all_goals (repeat' first
      | with_reducible assumption | with_reducible apply thermalTrip_keeps | with_reducible apply ite_keeps
      | (with_reducible intro _) | simp only [mk_keeps] | simp only [mkSec_keeps] | split)

end Sys2Proof.Machine
end

