-- ==== Sys2Proof/Laws/KeepsRecovery.lean ====
section
/-! SUPPORT. What the definitions of Recovery.lean keep. -/
namespace Sys2Proof.Machine

variable {z s : State}

theorem recoverLinks_keeps (d : Stack) (f : StackFound) (hk : Keeps z s) : Keeps z (recoverLinks d f s) := by
  unfold recoverLinks
  try dsimp only
  repeat' first
      | with_reducible assumption | with_reducible apply putStackRecord_keeps | with_reducible apply alignPhase_keeps
      | with_reducible apply forAll_keeps | with_reducible apply trainLink_keeps | with_reducible apply ite_keeps
      | (with_reducible intro _) | simp only [mk_keeps] | simp only [mkSec_keeps] | split

theorem recoverMemory_keeps (d : Stack) (warm : Bool) (f : StackFound) (hk : Keeps z s) : Keeps z
    (recoverMemory d warm f s) := by
  unfold recoverMemory
  try dsimp only
  repeat' first
      | with_reducible assumption | with_reducible apply trainVaults_keeps | with_reducible apply restoreRepairs_keeps
      | with_reducible apply trainDevice_keeps | (refine trainDevice_keepsE ?_ (by with_reducible assumption))
      | with_reducible apply initStack_keeps | with_reducible apply uMark_keeps | with_reducible apply ite_keeps
      | (with_reducible intro _) | simp only [mk_keeps] | simp only [mkSec_keeps] | split

theorem recoverStack_keeps (d : Stack) (warm : Bool) (f : StackFound) (hk : Keeps z s) : Keeps z
    (recoverStack d warm f s) := by
  unfold recoverStack
  try dsimp only
  repeat' first
      | with_reducible assumption | with_reducible apply recoverMemory_keeps | with_reducible apply recoverLinks_keeps
      | with_reducible apply calibrate_keeps | with_reducible apply updRst_keeps | with_reducible apply topoChanged_keeps
      | with_reducible apply postEvent_keeps | with_reducible apply ite_keeps | (with_reducible intro _)
      | simp only [mk_keeps] | simp only [mkSec_keeps] | split

theorem execStackRecovery_keeps {d : Stack} {found : StackFound} {s₁ : State} (hk : Keeps z s) (e :
    execStackRecovery d found s = .next s₁) : Keeps z s₁ := by
  unfold execStackRecovery at e
  try dsimp only at e
  repeat' split at e
  all_goals first | with_reducible refine done_keeps ?_ e | with_reducible refine done_keeps ?_ e
  all_goals (repeat' first
      | with_reducible assumption | with_reducible apply recoverStack_keeps | with_reducible apply ite_keeps
      | (with_reducible intro _) | simp only [mk_keeps] | simp only [mkSec_keeps] | split)

end Sys2Proof.Machine
end

