-- ==== Sys2Proof/Laws/State.lean ====
section
/-! SUPPORT. What the operations that change one part of the state leave alone: one lemma for each field and each operation, and one
for each reader of another part. -/
namespace Sys2Proof.Machine

variable (s : State)

/-! ### putReg -/

@[simp] theorem putReg_pending (a : Nat) (v : Word) : (putReg s a v).pending = s.pending := rfl
@[simp] theorem putReg_mem (a : Nat) (v : Word) : (putReg s a v).mem = s.mem := rfl
@[simp] theorem putReg_chk (a : Nat) (v : Word) : (putReg s a v).chk = s.chk := rfl
@[simp] theorem putReg_cores (a : Nat) (v : Word) : (putReg s a v).cores = s.cores := rfl
@[simp] theorem putReg_bps (a : Nat) (v : Word) : (putReg s a v).bps = s.bps := rfl
@[simp] theorem putReg_vcs (a : Nat) (v : Word) : (putReg s a v).vcs = s.vcs := rfl
@[simp] theorem putReg_lps (a : Nat) (v : Word) : (putReg s a v).lps = s.lps := rfl
@[simp] theorem putReg_routers (a : Nat) (v : Word) : (putReg s a v).routers = s.routers := rfl
@[simp] theorem putReg_dies (a : Nat) (v : Word) : (putReg s a v).dies = s.dies := rfl
@[simp] theorem putReg_parts (a : Nat) (v : Word) : (putReg s a v).parts = s.parts := rfl
@[simp] theorem putReg_present (a : Nat) (v : Word) : (putReg s a v).present = s.present := rfl
@[simp] theorem putReg_loadedParts (a : Nat) (v : Word) : (putReg s a v).loadedParts = s.loadedParts := rfl
@[simp] theorem putReg_flights (a : Nat) (v : Word) : (putReg s a v).flights = s.flights := rfl
@[simp] theorem putReg_crossings (a : Nat) (v : Word) : (putReg s a v).crossings = s.crossings := rfl
@[simp] theorem putReg_flash (a : Nat) (v : Word) : (putReg s a v).flash = s.flash := rfl
@[simp] theorem putReg_hub (a : Nat) (v : Word) : (putReg s a v).hub = s.hub := rfl
@[simp] theorem putReg_rst (a : Nat) (v : Word) : (putReg s a v).rst = s.rst := rfl
@[simp] theorem putReg_bring (a : Nat) (v : Word) : (putReg s a v).bring = s.bring := rfl
@[simp] theorem putReg_topo (a : Nat) (v : Word) : (putReg s a v).topo = s.topo := rfl
@[simp] theorem putReg_svc (a : Nat) (v : Word) : (putReg s a v).svc = s.svc := rfl
@[simp] theorem putReg_twin (a : Nat) (v : Word) : (putReg s a v).twin = s.twin := rfl
@[simp] theorem putReg_camner (a : Nat) (v : Word) : (putReg s a v).camner = s.camner := rfl
@[simp] theorem putReg_twinFlits (a : Nat) (v : Word) : (putReg s a v).twinFlits = s.twinFlits := rfl
@[simp] theorem putReg_sec (a : Nat) (v : Word) : (putReg s a v).sec = s.sec := rfl
@[simp] theorem putReg_power (a : Nat) (v : Word) : (putReg s a v).power = s.power := rfl
@[simp] theorem putReg_therm (a : Nat) (v : Word) : (putReg s a v).therm = s.therm := rfl
@[simp] theorem putReg_hubTherm (a : Nat) (v : Word) : (putReg s a v).hubTherm = s.hubTherm := rfl
@[simp] theorem putReg_voff (a : Nat) (v : Word) : (putReg s a v).voff = s.voff := rfl
@[simp] theorem putReg_theta (a : Nat) (v : Word) : (putReg s a v).theta = s.theta := rfl
@[simp] theorem putReg_pins (a : Nat) (v : Word) : (putReg s a v).pins = s.pins := rfl
@[simp] theorem putReg_freeCtr (a : Nat) (v : Word) : (putReg s a v).freeCtr = s.freeCtr := rfl
@[simp] theorem getCore_putReg (a : Nat) (v : Word) (e : Stack) (c₁ : CoreIx) : getCore (putReg s a v) e c₁ = getCore s e c₁ := rfl
@[simp] theorem getBp_putReg (a : Nat) (v : Word) (e : Stack) (c₁ : CoreIx) (i : Nat) : getBp (putReg s a v) e c₁ i = getBp s e c₁ i := rfl
@[simp] theorem getVc_putReg (a : Nat) (v : Word) (e : Stack) (c₁ : CoreIx) : getVc (putReg s a v) e c₁ = getVc s e c₁ := rfl
@[simp] theorem getLp_putReg (a : Nat) (v : Word) (e : Stack) : getLp (putReg s a v) e = getLp s e := rfl
@[simp] theorem getRouter_putReg (a : Nat) (v : Word) (e : Stack) (q : Cluster) : getRouter (putReg s a v) e q = getRouter s e q := rfl
@[simp] theorem getDie_putReg (a : Nat) (v : Word) (e : Stack) : getDie (putReg s a v) e = getDie s e := rfl
@[simp] theorem getTherm_putReg (a : Nat) (v : Word) (e : Stack) : getTherm (putReg s a v) e = getTherm s e := rfl
@[simp] theorem readByte_putReg (a : Nat) (v : Word) (i : Nat) : readByte (putReg s a v) i = readByte s i := rfl

/-! ### putF -/

@[simp] theorem putF_pending (a : Nat) (f : Fld) (n : Nat) : (putF a f n s).pending = s.pending := rfl
@[simp] theorem putF_mem (a : Nat) (f : Fld) (n : Nat) : (putF a f n s).mem = s.mem := rfl
@[simp] theorem putF_chk (a : Nat) (f : Fld) (n : Nat) : (putF a f n s).chk = s.chk := rfl
@[simp] theorem putF_cores (a : Nat) (f : Fld) (n : Nat) : (putF a f n s).cores = s.cores := rfl
@[simp] theorem putF_bps (a : Nat) (f : Fld) (n : Nat) : (putF a f n s).bps = s.bps := rfl
@[simp] theorem putF_vcs (a : Nat) (f : Fld) (n : Nat) : (putF a f n s).vcs = s.vcs := rfl
@[simp] theorem putF_lps (a : Nat) (f : Fld) (n : Nat) : (putF a f n s).lps = s.lps := rfl
@[simp] theorem putF_routers (a : Nat) (f : Fld) (n : Nat) : (putF a f n s).routers = s.routers := rfl
@[simp] theorem putF_dies (a : Nat) (f : Fld) (n : Nat) : (putF a f n s).dies = s.dies := rfl
@[simp] theorem putF_parts (a : Nat) (f : Fld) (n : Nat) : (putF a f n s).parts = s.parts := rfl
@[simp] theorem putF_present (a : Nat) (f : Fld) (n : Nat) : (putF a f n s).present = s.present := rfl
@[simp] theorem putF_loadedParts (a : Nat) (f : Fld) (n : Nat) : (putF a f n s).loadedParts = s.loadedParts := rfl
@[simp] theorem putF_flights (a : Nat) (f : Fld) (n : Nat) : (putF a f n s).flights = s.flights := rfl
@[simp] theorem putF_crossings (a : Nat) (f : Fld) (n : Nat) : (putF a f n s).crossings = s.crossings := rfl
@[simp] theorem putF_flash (a : Nat) (f : Fld) (n : Nat) : (putF a f n s).flash = s.flash := rfl
@[simp] theorem putF_hub (a : Nat) (f : Fld) (n : Nat) : (putF a f n s).hub = s.hub := rfl
@[simp] theorem putF_rst (a : Nat) (f : Fld) (n : Nat) : (putF a f n s).rst = s.rst := rfl
@[simp] theorem putF_bring (a : Nat) (f : Fld) (n : Nat) : (putF a f n s).bring = s.bring := rfl
@[simp] theorem putF_topo (a : Nat) (f : Fld) (n : Nat) : (putF a f n s).topo = s.topo := rfl
@[simp] theorem putF_svc (a : Nat) (f : Fld) (n : Nat) : (putF a f n s).svc = s.svc := rfl
@[simp] theorem putF_twin (a : Nat) (f : Fld) (n : Nat) : (putF a f n s).twin = s.twin := rfl
@[simp] theorem putF_camner (a : Nat) (f : Fld) (n : Nat) : (putF a f n s).camner = s.camner := rfl
@[simp] theorem putF_twinFlits (a : Nat) (f : Fld) (n : Nat) : (putF a f n s).twinFlits = s.twinFlits := rfl
@[simp] theorem putF_sec (a : Nat) (f : Fld) (n : Nat) : (putF a f n s).sec = s.sec := rfl
@[simp] theorem putF_power (a : Nat) (f : Fld) (n : Nat) : (putF a f n s).power = s.power := rfl
@[simp] theorem putF_therm (a : Nat) (f : Fld) (n : Nat) : (putF a f n s).therm = s.therm := rfl
@[simp] theorem putF_hubTherm (a : Nat) (f : Fld) (n : Nat) : (putF a f n s).hubTherm = s.hubTherm := rfl
@[simp] theorem putF_voff (a : Nat) (f : Fld) (n : Nat) : (putF a f n s).voff = s.voff := rfl
@[simp] theorem putF_theta (a : Nat) (f : Fld) (n : Nat) : (putF a f n s).theta = s.theta := rfl
@[simp] theorem putF_pins (a : Nat) (f : Fld) (n : Nat) : (putF a f n s).pins = s.pins := rfl
@[simp] theorem putF_freeCtr (a : Nat) (f : Fld) (n : Nat) : (putF a f n s).freeCtr = s.freeCtr := rfl
@[simp] theorem getCore_putF (a : Nat) (f : Fld) (n : Nat) (e : Stack) (c₁ : CoreIx) : getCore (putF a f n s) e c₁ = getCore s e c₁ := rfl
@[simp] theorem getBp_putF (a : Nat) (f : Fld) (n : Nat) (e : Stack) (c₁ : CoreIx) (i : Nat) : getBp (putF a f n s) e c₁ i = getBp s e c₁ i := rfl
@[simp] theorem getVc_putF (a : Nat) (f : Fld) (n : Nat) (e : Stack) (c₁ : CoreIx) : getVc (putF a f n s) e c₁ = getVc s e c₁ := rfl
@[simp] theorem getLp_putF (a : Nat) (f : Fld) (n : Nat) (e : Stack) : getLp (putF a f n s) e = getLp s e := rfl
@[simp] theorem getRouter_putF (a : Nat) (f : Fld) (n : Nat) (e : Stack) (q : Cluster) : getRouter (putF a f n s) e q = getRouter s e q := rfl
@[simp] theorem getDie_putF (a : Nat) (f : Fld) (n : Nat) (e : Stack) : getDie (putF a f n s) e = getDie s e := rfl
@[simp] theorem getTherm_putF (a : Nat) (f : Fld) (n : Nat) (e : Stack) : getTherm (putF a f n s) e = getTherm s e := rfl
@[simp] theorem readByte_putF (a : Nat) (f : Fld) (n : Nat) (i : Nat) : readByte (putF a f n s) i = readByte s i := rfl

/-! ### bumpF -/

@[simp] theorem bumpF_pending (a : Nat) (f : Fld) (n : Nat) : (bumpF a f n s).pending = s.pending := rfl
@[simp] theorem bumpF_mem (a : Nat) (f : Fld) (n : Nat) : (bumpF a f n s).mem = s.mem := rfl
@[simp] theorem bumpF_chk (a : Nat) (f : Fld) (n : Nat) : (bumpF a f n s).chk = s.chk := rfl
@[simp] theorem bumpF_cores (a : Nat) (f : Fld) (n : Nat) : (bumpF a f n s).cores = s.cores := rfl
@[simp] theorem bumpF_bps (a : Nat) (f : Fld) (n : Nat) : (bumpF a f n s).bps = s.bps := rfl
@[simp] theorem bumpF_vcs (a : Nat) (f : Fld) (n : Nat) : (bumpF a f n s).vcs = s.vcs := rfl
@[simp] theorem bumpF_lps (a : Nat) (f : Fld) (n : Nat) : (bumpF a f n s).lps = s.lps := rfl
@[simp] theorem bumpF_routers (a : Nat) (f : Fld) (n : Nat) : (bumpF a f n s).routers = s.routers := rfl
@[simp] theorem bumpF_dies (a : Nat) (f : Fld) (n : Nat) : (bumpF a f n s).dies = s.dies := rfl
@[simp] theorem bumpF_parts (a : Nat) (f : Fld) (n : Nat) : (bumpF a f n s).parts = s.parts := rfl
@[simp] theorem bumpF_present (a : Nat) (f : Fld) (n : Nat) : (bumpF a f n s).present = s.present := rfl
@[simp] theorem bumpF_loadedParts (a : Nat) (f : Fld) (n : Nat) : (bumpF a f n s).loadedParts = s.loadedParts := rfl
@[simp] theorem bumpF_flights (a : Nat) (f : Fld) (n : Nat) : (bumpF a f n s).flights = s.flights := rfl
@[simp] theorem bumpF_crossings (a : Nat) (f : Fld) (n : Nat) : (bumpF a f n s).crossings = s.crossings := rfl
@[simp] theorem bumpF_flash (a : Nat) (f : Fld) (n : Nat) : (bumpF a f n s).flash = s.flash := rfl
@[simp] theorem bumpF_hub (a : Nat) (f : Fld) (n : Nat) : (bumpF a f n s).hub = s.hub := rfl
@[simp] theorem bumpF_rst (a : Nat) (f : Fld) (n : Nat) : (bumpF a f n s).rst = s.rst := rfl
@[simp] theorem bumpF_bring (a : Nat) (f : Fld) (n : Nat) : (bumpF a f n s).bring = s.bring := rfl
@[simp] theorem bumpF_topo (a : Nat) (f : Fld) (n : Nat) : (bumpF a f n s).topo = s.topo := rfl
@[simp] theorem bumpF_svc (a : Nat) (f : Fld) (n : Nat) : (bumpF a f n s).svc = s.svc := rfl
@[simp] theorem bumpF_twin (a : Nat) (f : Fld) (n : Nat) : (bumpF a f n s).twin = s.twin := rfl
@[simp] theorem bumpF_camner (a : Nat) (f : Fld) (n : Nat) : (bumpF a f n s).camner = s.camner := rfl
@[simp] theorem bumpF_twinFlits (a : Nat) (f : Fld) (n : Nat) : (bumpF a f n s).twinFlits = s.twinFlits := rfl
@[simp] theorem bumpF_sec (a : Nat) (f : Fld) (n : Nat) : (bumpF a f n s).sec = s.sec := rfl
@[simp] theorem bumpF_power (a : Nat) (f : Fld) (n : Nat) : (bumpF a f n s).power = s.power := rfl
@[simp] theorem bumpF_therm (a : Nat) (f : Fld) (n : Nat) : (bumpF a f n s).therm = s.therm := rfl
@[simp] theorem bumpF_hubTherm (a : Nat) (f : Fld) (n : Nat) : (bumpF a f n s).hubTherm = s.hubTherm := rfl
@[simp] theorem bumpF_voff (a : Nat) (f : Fld) (n : Nat) : (bumpF a f n s).voff = s.voff := rfl
@[simp] theorem bumpF_theta (a : Nat) (f : Fld) (n : Nat) : (bumpF a f n s).theta = s.theta := rfl
@[simp] theorem bumpF_pins (a : Nat) (f : Fld) (n : Nat) : (bumpF a f n s).pins = s.pins := rfl
@[simp] theorem bumpF_freeCtr (a : Nat) (f : Fld) (n : Nat) : (bumpF a f n s).freeCtr = s.freeCtr := rfl
@[simp] theorem getCore_bumpF (a : Nat) (f : Fld) (n : Nat) (e : Stack) (c₁ : CoreIx) : getCore (bumpF a f n s) e c₁ = getCore s e c₁ := rfl
@[simp] theorem getBp_bumpF (a : Nat) (f : Fld) (n : Nat) (e : Stack) (c₁ : CoreIx) (i : Nat) : getBp (bumpF a f n s) e c₁ i = getBp s e c₁ i := rfl
@[simp] theorem getVc_bumpF (a : Nat) (f : Fld) (n : Nat) (e : Stack) (c₁ : CoreIx) : getVc (bumpF a f n s) e c₁ = getVc s e c₁ := rfl
@[simp] theorem getLp_bumpF (a : Nat) (f : Fld) (n : Nat) (e : Stack) : getLp (bumpF a f n s) e = getLp s e := rfl
@[simp] theorem getRouter_bumpF (a : Nat) (f : Fld) (n : Nat) (e : Stack) (q : Cluster) : getRouter (bumpF a f n s) e q = getRouter s e q := rfl
@[simp] theorem getDie_bumpF (a : Nat) (f : Fld) (n : Nat) (e : Stack) : getDie (bumpF a f n s) e = getDie s e := rfl
@[simp] theorem getTherm_bumpF (a : Nat) (f : Fld) (n : Nat) (e : Stack) : getTherm (bumpF a f n s) e = getTherm s e := rfl
@[simp] theorem readByte_bumpF (a : Nat) (f : Fld) (n : Nat) (i : Nat) : readByte (bumpF a f n s) i = readByte s i := rfl

/-! ### satF -/

@[simp] theorem satF_pending (a : Nat) (f : Fld) (n : Nat) : (satF a f n s).pending = s.pending := rfl
@[simp] theorem satF_mem (a : Nat) (f : Fld) (n : Nat) : (satF a f n s).mem = s.mem := rfl
@[simp] theorem satF_chk (a : Nat) (f : Fld) (n : Nat) : (satF a f n s).chk = s.chk := rfl
@[simp] theorem satF_cores (a : Nat) (f : Fld) (n : Nat) : (satF a f n s).cores = s.cores := rfl
@[simp] theorem satF_bps (a : Nat) (f : Fld) (n : Nat) : (satF a f n s).bps = s.bps := rfl
@[simp] theorem satF_vcs (a : Nat) (f : Fld) (n : Nat) : (satF a f n s).vcs = s.vcs := rfl
@[simp] theorem satF_lps (a : Nat) (f : Fld) (n : Nat) : (satF a f n s).lps = s.lps := rfl
@[simp] theorem satF_routers (a : Nat) (f : Fld) (n : Nat) : (satF a f n s).routers = s.routers := rfl
@[simp] theorem satF_dies (a : Nat) (f : Fld) (n : Nat) : (satF a f n s).dies = s.dies := rfl
@[simp] theorem satF_parts (a : Nat) (f : Fld) (n : Nat) : (satF a f n s).parts = s.parts := rfl
@[simp] theorem satF_present (a : Nat) (f : Fld) (n : Nat) : (satF a f n s).present = s.present := rfl
@[simp] theorem satF_loadedParts (a : Nat) (f : Fld) (n : Nat) : (satF a f n s).loadedParts = s.loadedParts := rfl
@[simp] theorem satF_flights (a : Nat) (f : Fld) (n : Nat) : (satF a f n s).flights = s.flights := rfl
@[simp] theorem satF_crossings (a : Nat) (f : Fld) (n : Nat) : (satF a f n s).crossings = s.crossings := rfl
@[simp] theorem satF_flash (a : Nat) (f : Fld) (n : Nat) : (satF a f n s).flash = s.flash := rfl
@[simp] theorem satF_hub (a : Nat) (f : Fld) (n : Nat) : (satF a f n s).hub = s.hub := rfl
@[simp] theorem satF_rst (a : Nat) (f : Fld) (n : Nat) : (satF a f n s).rst = s.rst := rfl
@[simp] theorem satF_bring (a : Nat) (f : Fld) (n : Nat) : (satF a f n s).bring = s.bring := rfl
@[simp] theorem satF_topo (a : Nat) (f : Fld) (n : Nat) : (satF a f n s).topo = s.topo := rfl
@[simp] theorem satF_svc (a : Nat) (f : Fld) (n : Nat) : (satF a f n s).svc = s.svc := rfl
@[simp] theorem satF_twin (a : Nat) (f : Fld) (n : Nat) : (satF a f n s).twin = s.twin := rfl
@[simp] theorem satF_camner (a : Nat) (f : Fld) (n : Nat) : (satF a f n s).camner = s.camner := rfl
@[simp] theorem satF_twinFlits (a : Nat) (f : Fld) (n : Nat) : (satF a f n s).twinFlits = s.twinFlits := rfl
@[simp] theorem satF_sec (a : Nat) (f : Fld) (n : Nat) : (satF a f n s).sec = s.sec := rfl
@[simp] theorem satF_power (a : Nat) (f : Fld) (n : Nat) : (satF a f n s).power = s.power := rfl
@[simp] theorem satF_therm (a : Nat) (f : Fld) (n : Nat) : (satF a f n s).therm = s.therm := rfl
@[simp] theorem satF_hubTherm (a : Nat) (f : Fld) (n : Nat) : (satF a f n s).hubTherm = s.hubTherm := rfl
@[simp] theorem satF_voff (a : Nat) (f : Fld) (n : Nat) : (satF a f n s).voff = s.voff := rfl
@[simp] theorem satF_theta (a : Nat) (f : Fld) (n : Nat) : (satF a f n s).theta = s.theta := rfl
@[simp] theorem satF_pins (a : Nat) (f : Fld) (n : Nat) : (satF a f n s).pins = s.pins := rfl
@[simp] theorem satF_freeCtr (a : Nat) (f : Fld) (n : Nat) : (satF a f n s).freeCtr = s.freeCtr := rfl
@[simp] theorem getCore_satF (a : Nat) (f : Fld) (n : Nat) (e : Stack) (c₁ : CoreIx) : getCore (satF a f n s) e c₁ = getCore s e c₁ := rfl
@[simp] theorem getBp_satF (a : Nat) (f : Fld) (n : Nat) (e : Stack) (c₁ : CoreIx) (i : Nat) : getBp (satF a f n s) e c₁ i = getBp s e c₁ i := rfl
@[simp] theorem getVc_satF (a : Nat) (f : Fld) (n : Nat) (e : Stack) (c₁ : CoreIx) : getVc (satF a f n s) e c₁ = getVc s e c₁ := rfl
@[simp] theorem getLp_satF (a : Nat) (f : Fld) (n : Nat) (e : Stack) : getLp (satF a f n s) e = getLp s e := rfl
@[simp] theorem getRouter_satF (a : Nat) (f : Fld) (n : Nat) (e : Stack) (q : Cluster) : getRouter (satF a f n s) e q = getRouter s e q := rfl
@[simp] theorem getDie_satF (a : Nat) (f : Fld) (n : Nat) (e : Stack) : getDie (satF a f n s) e = getDie s e := rfl
@[simp] theorem getTherm_satF (a : Nat) (f : Fld) (n : Nat) (e : Stack) : getTherm (satF a f n s) e = getTherm s e := rfl
@[simp] theorem readByte_satF (a : Nat) (f : Fld) (n : Nat) (i : Nat) : readByte (satF a f n s) i = readByte s i := rfl

/-! ### putCore -/

@[simp] theorem putCore_pending (d : Stack) (c : CoreIx) (x : Core) : (putCore s d c x).pending = s.pending := rfl
@[simp] theorem putCore_regs (d : Stack) (c : CoreIx) (x : Core) : (putCore s d c x).regs = s.regs := rfl
@[simp] theorem putCore_mem (d : Stack) (c : CoreIx) (x : Core) : (putCore s d c x).mem = s.mem := rfl
@[simp] theorem putCore_chk (d : Stack) (c : CoreIx) (x : Core) : (putCore s d c x).chk = s.chk := rfl
@[simp] theorem putCore_bps (d : Stack) (c : CoreIx) (x : Core) : (putCore s d c x).bps = s.bps := rfl
@[simp] theorem putCore_vcs (d : Stack) (c : CoreIx) (x : Core) : (putCore s d c x).vcs = s.vcs := rfl
@[simp] theorem putCore_lps (d : Stack) (c : CoreIx) (x : Core) : (putCore s d c x).lps = s.lps := rfl
@[simp] theorem putCore_routers (d : Stack) (c : CoreIx) (x : Core) : (putCore s d c x).routers = s.routers := rfl
@[simp] theorem putCore_dies (d : Stack) (c : CoreIx) (x : Core) : (putCore s d c x).dies = s.dies := rfl
@[simp] theorem putCore_parts (d : Stack) (c : CoreIx) (x : Core) : (putCore s d c x).parts = s.parts := rfl
@[simp] theorem putCore_present (d : Stack) (c : CoreIx) (x : Core) : (putCore s d c x).present = s.present := rfl
@[simp] theorem putCore_loadedParts (d : Stack) (c : CoreIx) (x : Core) : (putCore s d c x).loadedParts = s.loadedParts := rfl
@[simp] theorem putCore_flights (d : Stack) (c : CoreIx) (x : Core) : (putCore s d c x).flights = s.flights := rfl
@[simp] theorem putCore_crossings (d : Stack) (c : CoreIx) (x : Core) : (putCore s d c x).crossings = s.crossings := rfl
@[simp] theorem putCore_flash (d : Stack) (c : CoreIx) (x : Core) : (putCore s d c x).flash = s.flash := rfl
@[simp] theorem putCore_hub (d : Stack) (c : CoreIx) (x : Core) : (putCore s d c x).hub = s.hub := rfl
@[simp] theorem putCore_rst (d : Stack) (c : CoreIx) (x : Core) : (putCore s d c x).rst = s.rst := rfl
@[simp] theorem putCore_bring (d : Stack) (c : CoreIx) (x : Core) : (putCore s d c x).bring = s.bring := rfl
@[simp] theorem putCore_topo (d : Stack) (c : CoreIx) (x : Core) : (putCore s d c x).topo = s.topo := rfl
@[simp] theorem putCore_svc (d : Stack) (c : CoreIx) (x : Core) : (putCore s d c x).svc = s.svc := rfl
@[simp] theorem putCore_twin (d : Stack) (c : CoreIx) (x : Core) : (putCore s d c x).twin = s.twin := rfl
@[simp] theorem putCore_camner (d : Stack) (c : CoreIx) (x : Core) : (putCore s d c x).camner = s.camner := rfl
@[simp] theorem putCore_twinFlits (d : Stack) (c : CoreIx) (x : Core) : (putCore s d c x).twinFlits = s.twinFlits := rfl
@[simp] theorem putCore_sec (d : Stack) (c : CoreIx) (x : Core) : (putCore s d c x).sec = s.sec := rfl
@[simp] theorem putCore_power (d : Stack) (c : CoreIx) (x : Core) : (putCore s d c x).power = s.power := rfl
@[simp] theorem putCore_therm (d : Stack) (c : CoreIx) (x : Core) : (putCore s d c x).therm = s.therm := rfl
@[simp] theorem putCore_hubTherm (d : Stack) (c : CoreIx) (x : Core) : (putCore s d c x).hubTherm = s.hubTherm := rfl
@[simp] theorem putCore_voff (d : Stack) (c : CoreIx) (x : Core) : (putCore s d c x).voff = s.voff := rfl
@[simp] theorem putCore_theta (d : Stack) (c : CoreIx) (x : Core) : (putCore s d c x).theta = s.theta := rfl
@[simp] theorem putCore_pins (d : Stack) (c : CoreIx) (x : Core) : (putCore s d c x).pins = s.pins := rfl
@[simp] theorem putCore_freeCtr (d : Stack) (c : CoreIx) (x : Core) : (putCore s d c x).freeCtr = s.freeCtr := rfl
@[simp] theorem getReg_putCore (d : Stack) (c : CoreIx) (x : Core) (b : Nat) : getReg (putCore s d c x) b = getReg s b := rfl
@[simp] theorem getF_putCore (d : Stack) (c : CoreIx) (x : Core) (b : Nat) (g : Fld) : getF (putCore s d c x) b g = getF s b g := rfl
@[simp] theorem getBp_putCore (d : Stack) (c : CoreIx) (x : Core) (e : Stack) (c₁ : CoreIx) (i : Nat) : getBp (putCore s d c x) e c₁ i = getBp s e c₁ i := rfl
@[simp] theorem getVc_putCore (d : Stack) (c : CoreIx) (x : Core) (e : Stack) (c₁ : CoreIx) : getVc (putCore s d c x) e c₁ = getVc s e c₁ := rfl
@[simp] theorem getLp_putCore (d : Stack) (c : CoreIx) (x : Core) (e : Stack) : getLp (putCore s d c x) e = getLp s e := rfl
@[simp] theorem getRouter_putCore (d : Stack) (c : CoreIx) (x : Core) (e : Stack) (q : Cluster) : getRouter (putCore s d c x) e q = getRouter s e q := rfl
@[simp] theorem getDie_putCore (d : Stack) (c : CoreIx) (x : Core) (e : Stack) : getDie (putCore s d c x) e = getDie s e := rfl
@[simp] theorem getTherm_putCore (d : Stack) (c : CoreIx) (x : Core) (e : Stack) : getTherm (putCore s d c x) e = getTherm s e := rfl
@[simp] theorem readByte_putCore (d : Stack) (c : CoreIx) (x : Core) (i : Nat) : readByte (putCore s d c x) i = readByte s i := rfl

/-! ### updCore -/

@[simp] theorem updCore_pending (d : Stack) (c : CoreIx) (f : Core → Core) : (updCore d c f s).pending = s.pending := rfl
@[simp] theorem updCore_regs (d : Stack) (c : CoreIx) (f : Core → Core) : (updCore d c f s).regs = s.regs := rfl
@[simp] theorem updCore_mem (d : Stack) (c : CoreIx) (f : Core → Core) : (updCore d c f s).mem = s.mem := rfl
@[simp] theorem updCore_chk (d : Stack) (c : CoreIx) (f : Core → Core) : (updCore d c f s).chk = s.chk := rfl
@[simp] theorem updCore_bps (d : Stack) (c : CoreIx) (f : Core → Core) : (updCore d c f s).bps = s.bps := rfl
@[simp] theorem updCore_vcs (d : Stack) (c : CoreIx) (f : Core → Core) : (updCore d c f s).vcs = s.vcs := rfl
@[simp] theorem updCore_lps (d : Stack) (c : CoreIx) (f : Core → Core) : (updCore d c f s).lps = s.lps := rfl
@[simp] theorem updCore_routers (d : Stack) (c : CoreIx) (f : Core → Core) : (updCore d c f s).routers = s.routers := rfl
@[simp] theorem updCore_dies (d : Stack) (c : CoreIx) (f : Core → Core) : (updCore d c f s).dies = s.dies := rfl
@[simp] theorem updCore_parts (d : Stack) (c : CoreIx) (f : Core → Core) : (updCore d c f s).parts = s.parts := rfl
@[simp] theorem updCore_present (d : Stack) (c : CoreIx) (f : Core → Core) : (updCore d c f s).present = s.present := rfl
@[simp] theorem updCore_loadedParts (d : Stack) (c : CoreIx) (f : Core → Core) : (updCore d c f s).loadedParts = s.loadedParts := rfl
@[simp] theorem updCore_flights (d : Stack) (c : CoreIx) (f : Core → Core) : (updCore d c f s).flights = s.flights := rfl
@[simp] theorem updCore_crossings (d : Stack) (c : CoreIx) (f : Core → Core) : (updCore d c f s).crossings = s.crossings := rfl
@[simp] theorem updCore_flash (d : Stack) (c : CoreIx) (f : Core → Core) : (updCore d c f s).flash = s.flash := rfl
@[simp] theorem updCore_hub (d : Stack) (c : CoreIx) (f : Core → Core) : (updCore d c f s).hub = s.hub := rfl
@[simp] theorem updCore_rst (d : Stack) (c : CoreIx) (f : Core → Core) : (updCore d c f s).rst = s.rst := rfl
@[simp] theorem updCore_bring (d : Stack) (c : CoreIx) (f : Core → Core) : (updCore d c f s).bring = s.bring := rfl
@[simp] theorem updCore_topo (d : Stack) (c : CoreIx) (f : Core → Core) : (updCore d c f s).topo = s.topo := rfl
@[simp] theorem updCore_svc (d : Stack) (c : CoreIx) (f : Core → Core) : (updCore d c f s).svc = s.svc := rfl
@[simp] theorem updCore_twin (d : Stack) (c : CoreIx) (f : Core → Core) : (updCore d c f s).twin = s.twin := rfl
@[simp] theorem updCore_camner (d : Stack) (c : CoreIx) (f : Core → Core) : (updCore d c f s).camner = s.camner := rfl
@[simp] theorem updCore_twinFlits (d : Stack) (c : CoreIx) (f : Core → Core) : (updCore d c f s).twinFlits = s.twinFlits := rfl
@[simp] theorem updCore_sec (d : Stack) (c : CoreIx) (f : Core → Core) : (updCore d c f s).sec = s.sec := rfl
@[simp] theorem updCore_power (d : Stack) (c : CoreIx) (f : Core → Core) : (updCore d c f s).power = s.power := rfl
@[simp] theorem updCore_therm (d : Stack) (c : CoreIx) (f : Core → Core) : (updCore d c f s).therm = s.therm := rfl
@[simp] theorem updCore_hubTherm (d : Stack) (c : CoreIx) (f : Core → Core) : (updCore d c f s).hubTherm = s.hubTherm := rfl
@[simp] theorem updCore_voff (d : Stack) (c : CoreIx) (f : Core → Core) : (updCore d c f s).voff = s.voff := rfl
@[simp] theorem updCore_theta (d : Stack) (c : CoreIx) (f : Core → Core) : (updCore d c f s).theta = s.theta := rfl
@[simp] theorem updCore_pins (d : Stack) (c : CoreIx) (f : Core → Core) : (updCore d c f s).pins = s.pins := rfl
@[simp] theorem updCore_freeCtr (d : Stack) (c : CoreIx) (f : Core → Core) : (updCore d c f s).freeCtr = s.freeCtr := rfl
@[simp] theorem getReg_updCore (d : Stack) (c : CoreIx) (f : Core → Core) (b : Nat) : getReg (updCore d c f s) b = getReg s b := rfl
@[simp] theorem getF_updCore (d : Stack) (c : CoreIx) (f : Core → Core) (b : Nat) (g : Fld) : getF (updCore d c f s) b g = getF s b g := rfl
@[simp] theorem getBp_updCore (d : Stack) (c : CoreIx) (f : Core → Core) (e : Stack) (c₁ : CoreIx) (i : Nat) : getBp (updCore d c f s) e c₁ i = getBp s e c₁ i := rfl
@[simp] theorem getVc_updCore (d : Stack) (c : CoreIx) (f : Core → Core) (e : Stack) (c₁ : CoreIx) : getVc (updCore d c f s) e c₁ = getVc s e c₁ := rfl
@[simp] theorem getLp_updCore (d : Stack) (c : CoreIx) (f : Core → Core) (e : Stack) : getLp (updCore d c f s) e = getLp s e := rfl
@[simp] theorem getRouter_updCore (d : Stack) (c : CoreIx) (f : Core → Core) (e : Stack) (q : Cluster) : getRouter (updCore d c f s) e q = getRouter s e q := rfl
@[simp] theorem getDie_updCore (d : Stack) (c : CoreIx) (f : Core → Core) (e : Stack) : getDie (updCore d c f s) e = getDie s e := rfl
@[simp] theorem getTherm_updCore (d : Stack) (c : CoreIx) (f : Core → Core) (e : Stack) : getTherm (updCore d c f s) e = getTherm s e := rfl
@[simp] theorem readByte_updCore (d : Stack) (c : CoreIx) (f : Core → Core) (i : Nat) : readByte (updCore d c f s) i = readByte s i := rfl

/-! ### putBp -/

@[simp] theorem putBp_pending (d : Stack) (c : CoreIx) (j : Nat) (x : Bp) : (putBp s d c j x).pending = s.pending := rfl
@[simp] theorem putBp_regs (d : Stack) (c : CoreIx) (j : Nat) (x : Bp) : (putBp s d c j x).regs = s.regs := rfl
@[simp] theorem putBp_mem (d : Stack) (c : CoreIx) (j : Nat) (x : Bp) : (putBp s d c j x).mem = s.mem := rfl
@[simp] theorem putBp_chk (d : Stack) (c : CoreIx) (j : Nat) (x : Bp) : (putBp s d c j x).chk = s.chk := rfl
@[simp] theorem putBp_cores (d : Stack) (c : CoreIx) (j : Nat) (x : Bp) : (putBp s d c j x).cores = s.cores := rfl
@[simp] theorem putBp_vcs (d : Stack) (c : CoreIx) (j : Nat) (x : Bp) : (putBp s d c j x).vcs = s.vcs := rfl
@[simp] theorem putBp_lps (d : Stack) (c : CoreIx) (j : Nat) (x : Bp) : (putBp s d c j x).lps = s.lps := rfl
@[simp] theorem putBp_routers (d : Stack) (c : CoreIx) (j : Nat) (x : Bp) : (putBp s d c j x).routers = s.routers := rfl
@[simp] theorem putBp_dies (d : Stack) (c : CoreIx) (j : Nat) (x : Bp) : (putBp s d c j x).dies = s.dies := rfl
@[simp] theorem putBp_parts (d : Stack) (c : CoreIx) (j : Nat) (x : Bp) : (putBp s d c j x).parts = s.parts := rfl
@[simp] theorem putBp_present (d : Stack) (c : CoreIx) (j : Nat) (x : Bp) : (putBp s d c j x).present = s.present := rfl
@[simp] theorem putBp_loadedParts (d : Stack) (c : CoreIx) (j : Nat) (x : Bp) : (putBp s d c j x).loadedParts = s.loadedParts := rfl
@[simp] theorem putBp_flights (d : Stack) (c : CoreIx) (j : Nat) (x : Bp) : (putBp s d c j x).flights = s.flights := rfl
@[simp] theorem putBp_crossings (d : Stack) (c : CoreIx) (j : Nat) (x : Bp) : (putBp s d c j x).crossings = s.crossings := rfl
@[simp] theorem putBp_flash (d : Stack) (c : CoreIx) (j : Nat) (x : Bp) : (putBp s d c j x).flash = s.flash := rfl
@[simp] theorem putBp_hub (d : Stack) (c : CoreIx) (j : Nat) (x : Bp) : (putBp s d c j x).hub = s.hub := rfl
@[simp] theorem putBp_rst (d : Stack) (c : CoreIx) (j : Nat) (x : Bp) : (putBp s d c j x).rst = s.rst := rfl
@[simp] theorem putBp_bring (d : Stack) (c : CoreIx) (j : Nat) (x : Bp) : (putBp s d c j x).bring = s.bring := rfl
@[simp] theorem putBp_topo (d : Stack) (c : CoreIx) (j : Nat) (x : Bp) : (putBp s d c j x).topo = s.topo := rfl
@[simp] theorem putBp_svc (d : Stack) (c : CoreIx) (j : Nat) (x : Bp) : (putBp s d c j x).svc = s.svc := rfl
@[simp] theorem putBp_twin (d : Stack) (c : CoreIx) (j : Nat) (x : Bp) : (putBp s d c j x).twin = s.twin := rfl
@[simp] theorem putBp_camner (d : Stack) (c : CoreIx) (j : Nat) (x : Bp) : (putBp s d c j x).camner = s.camner := rfl
@[simp] theorem putBp_twinFlits (d : Stack) (c : CoreIx) (j : Nat) (x : Bp) : (putBp s d c j x).twinFlits = s.twinFlits := rfl
@[simp] theorem putBp_sec (d : Stack) (c : CoreIx) (j : Nat) (x : Bp) : (putBp s d c j x).sec = s.sec := rfl
@[simp] theorem putBp_power (d : Stack) (c : CoreIx) (j : Nat) (x : Bp) : (putBp s d c j x).power = s.power := rfl
@[simp] theorem putBp_therm (d : Stack) (c : CoreIx) (j : Nat) (x : Bp) : (putBp s d c j x).therm = s.therm := rfl
@[simp] theorem putBp_hubTherm (d : Stack) (c : CoreIx) (j : Nat) (x : Bp) : (putBp s d c j x).hubTherm = s.hubTherm := rfl
@[simp] theorem putBp_voff (d : Stack) (c : CoreIx) (j : Nat) (x : Bp) : (putBp s d c j x).voff = s.voff := rfl
@[simp] theorem putBp_theta (d : Stack) (c : CoreIx) (j : Nat) (x : Bp) : (putBp s d c j x).theta = s.theta := rfl
@[simp] theorem putBp_pins (d : Stack) (c : CoreIx) (j : Nat) (x : Bp) : (putBp s d c j x).pins = s.pins := rfl
@[simp] theorem putBp_freeCtr (d : Stack) (c : CoreIx) (j : Nat) (x : Bp) : (putBp s d c j x).freeCtr = s.freeCtr := rfl
@[simp] theorem getReg_putBp (d : Stack) (c : CoreIx) (j : Nat) (x : Bp) (b : Nat) : getReg (putBp s d c j x) b = getReg s b := rfl
@[simp] theorem getF_putBp (d : Stack) (c : CoreIx) (j : Nat) (x : Bp) (b : Nat) (g : Fld) : getF (putBp s d c j x) b g = getF s b g := rfl
@[simp] theorem getCore_putBp (d : Stack) (c : CoreIx) (j : Nat) (x : Bp) (e : Stack) (c₁ : CoreIx) : getCore (putBp s d c j x) e c₁ = getCore s e c₁ := rfl
@[simp] theorem getVc_putBp (d : Stack) (c : CoreIx) (j : Nat) (x : Bp) (e : Stack) (c₁ : CoreIx) : getVc (putBp s d c j x) e c₁ = getVc s e c₁ := rfl
@[simp] theorem getLp_putBp (d : Stack) (c : CoreIx) (j : Nat) (x : Bp) (e : Stack) : getLp (putBp s d c j x) e = getLp s e := rfl
@[simp] theorem getRouter_putBp (d : Stack) (c : CoreIx) (j : Nat) (x : Bp) (e : Stack) (q : Cluster) : getRouter (putBp s d c j x) e q = getRouter s e q := rfl
@[simp] theorem getDie_putBp (d : Stack) (c : CoreIx) (j : Nat) (x : Bp) (e : Stack) : getDie (putBp s d c j x) e = getDie s e := rfl
@[simp] theorem getTherm_putBp (d : Stack) (c : CoreIx) (j : Nat) (x : Bp) (e : Stack) : getTherm (putBp s d c j x) e = getTherm s e := rfl
@[simp] theorem readByte_putBp (d : Stack) (c : CoreIx) (j : Nat) (x : Bp) (i : Nat) : readByte (putBp s d c j x) i = readByte s i := rfl

/-! ### updBp -/

@[simp] theorem updBp_pending (d : Stack) (c : CoreIx) (j : Nat) (f : Bp → Bp) : (updBp d c j f s).pending = s.pending := rfl
@[simp] theorem updBp_regs (d : Stack) (c : CoreIx) (j : Nat) (f : Bp → Bp) : (updBp d c j f s).regs = s.regs := rfl
@[simp] theorem updBp_mem (d : Stack) (c : CoreIx) (j : Nat) (f : Bp → Bp) : (updBp d c j f s).mem = s.mem := rfl
@[simp] theorem updBp_chk (d : Stack) (c : CoreIx) (j : Nat) (f : Bp → Bp) : (updBp d c j f s).chk = s.chk := rfl
@[simp] theorem updBp_cores (d : Stack) (c : CoreIx) (j : Nat) (f : Bp → Bp) : (updBp d c j f s).cores = s.cores := rfl
@[simp] theorem updBp_vcs (d : Stack) (c : CoreIx) (j : Nat) (f : Bp → Bp) : (updBp d c j f s).vcs = s.vcs := rfl
@[simp] theorem updBp_lps (d : Stack) (c : CoreIx) (j : Nat) (f : Bp → Bp) : (updBp d c j f s).lps = s.lps := rfl
@[simp] theorem updBp_routers (d : Stack) (c : CoreIx) (j : Nat) (f : Bp → Bp) : (updBp d c j f s).routers = s.routers := rfl
@[simp] theorem updBp_dies (d : Stack) (c : CoreIx) (j : Nat) (f : Bp → Bp) : (updBp d c j f s).dies = s.dies := rfl
@[simp] theorem updBp_parts (d : Stack) (c : CoreIx) (j : Nat) (f : Bp → Bp) : (updBp d c j f s).parts = s.parts := rfl
@[simp] theorem updBp_present (d : Stack) (c : CoreIx) (j : Nat) (f : Bp → Bp) : (updBp d c j f s).present = s.present := rfl
@[simp] theorem updBp_loadedParts (d : Stack) (c : CoreIx) (j : Nat) (f : Bp → Bp) : (updBp d c j f s).loadedParts = s.loadedParts := rfl
@[simp] theorem updBp_flights (d : Stack) (c : CoreIx) (j : Nat) (f : Bp → Bp) : (updBp d c j f s).flights = s.flights := rfl
@[simp] theorem updBp_crossings (d : Stack) (c : CoreIx) (j : Nat) (f : Bp → Bp) : (updBp d c j f s).crossings = s.crossings := rfl
@[simp] theorem updBp_flash (d : Stack) (c : CoreIx) (j : Nat) (f : Bp → Bp) : (updBp d c j f s).flash = s.flash := rfl
@[simp] theorem updBp_hub (d : Stack) (c : CoreIx) (j : Nat) (f : Bp → Bp) : (updBp d c j f s).hub = s.hub := rfl
@[simp] theorem updBp_rst (d : Stack) (c : CoreIx) (j : Nat) (f : Bp → Bp) : (updBp d c j f s).rst = s.rst := rfl
@[simp] theorem updBp_bring (d : Stack) (c : CoreIx) (j : Nat) (f : Bp → Bp) : (updBp d c j f s).bring = s.bring := rfl
@[simp] theorem updBp_topo (d : Stack) (c : CoreIx) (j : Nat) (f : Bp → Bp) : (updBp d c j f s).topo = s.topo := rfl
@[simp] theorem updBp_svc (d : Stack) (c : CoreIx) (j : Nat) (f : Bp → Bp) : (updBp d c j f s).svc = s.svc := rfl
@[simp] theorem updBp_twin (d : Stack) (c : CoreIx) (j : Nat) (f : Bp → Bp) : (updBp d c j f s).twin = s.twin := rfl
@[simp] theorem updBp_camner (d : Stack) (c : CoreIx) (j : Nat) (f : Bp → Bp) : (updBp d c j f s).camner = s.camner := rfl
@[simp] theorem updBp_twinFlits (d : Stack) (c : CoreIx) (j : Nat) (f : Bp → Bp) : (updBp d c j f s).twinFlits = s.twinFlits := rfl
@[simp] theorem updBp_sec (d : Stack) (c : CoreIx) (j : Nat) (f : Bp → Bp) : (updBp d c j f s).sec = s.sec := rfl
@[simp] theorem updBp_power (d : Stack) (c : CoreIx) (j : Nat) (f : Bp → Bp) : (updBp d c j f s).power = s.power := rfl
@[simp] theorem updBp_therm (d : Stack) (c : CoreIx) (j : Nat) (f : Bp → Bp) : (updBp d c j f s).therm = s.therm := rfl
@[simp] theorem updBp_hubTherm (d : Stack) (c : CoreIx) (j : Nat) (f : Bp → Bp) : (updBp d c j f s).hubTherm = s.hubTherm := rfl
@[simp] theorem updBp_voff (d : Stack) (c : CoreIx) (j : Nat) (f : Bp → Bp) : (updBp d c j f s).voff = s.voff := rfl
@[simp] theorem updBp_theta (d : Stack) (c : CoreIx) (j : Nat) (f : Bp → Bp) : (updBp d c j f s).theta = s.theta := rfl
@[simp] theorem updBp_pins (d : Stack) (c : CoreIx) (j : Nat) (f : Bp → Bp) : (updBp d c j f s).pins = s.pins := rfl
@[simp] theorem updBp_freeCtr (d : Stack) (c : CoreIx) (j : Nat) (f : Bp → Bp) : (updBp d c j f s).freeCtr = s.freeCtr := rfl
@[simp] theorem getReg_updBp (d : Stack) (c : CoreIx) (j : Nat) (f : Bp → Bp) (b : Nat) : getReg (updBp d c j f s) b = getReg s b := rfl
@[simp] theorem getF_updBp (d : Stack) (c : CoreIx) (j : Nat) (f : Bp → Bp) (b : Nat) (g : Fld) : getF (updBp d c j f s) b g = getF s b g := rfl
@[simp] theorem getCore_updBp (d : Stack) (c : CoreIx) (j : Nat) (f : Bp → Bp) (e : Stack) (c₁ : CoreIx) : getCore (updBp d c j f s) e c₁ = getCore s e c₁ := rfl
@[simp] theorem getVc_updBp (d : Stack) (c : CoreIx) (j : Nat) (f : Bp → Bp) (e : Stack) (c₁ : CoreIx) : getVc (updBp d c j f s) e c₁ = getVc s e c₁ := rfl
@[simp] theorem getLp_updBp (d : Stack) (c : CoreIx) (j : Nat) (f : Bp → Bp) (e : Stack) : getLp (updBp d c j f s) e = getLp s e := rfl
@[simp] theorem getRouter_updBp (d : Stack) (c : CoreIx) (j : Nat) (f : Bp → Bp) (e : Stack) (q : Cluster) : getRouter (updBp d c j f s) e q = getRouter s e q := rfl
@[simp] theorem getDie_updBp (d : Stack) (c : CoreIx) (j : Nat) (f : Bp → Bp) (e : Stack) : getDie (updBp d c j f s) e = getDie s e := rfl
@[simp] theorem getTherm_updBp (d : Stack) (c : CoreIx) (j : Nat) (f : Bp → Bp) (e : Stack) : getTherm (updBp d c j f s) e = getTherm s e := rfl
@[simp] theorem readByte_updBp (d : Stack) (c : CoreIx) (j : Nat) (f : Bp → Bp) (i : Nat) : readByte (updBp d c j f s) i = readByte s i := rfl

/-! ### updVc -/

@[simp] theorem updVc_pending (d : Stack) (c : CoreIx) (f : Vc → Vc) : (updVc d c f s).pending = s.pending := rfl
@[simp] theorem updVc_regs (d : Stack) (c : CoreIx) (f : Vc → Vc) : (updVc d c f s).regs = s.regs := rfl
@[simp] theorem updVc_mem (d : Stack) (c : CoreIx) (f : Vc → Vc) : (updVc d c f s).mem = s.mem := rfl
@[simp] theorem updVc_chk (d : Stack) (c : CoreIx) (f : Vc → Vc) : (updVc d c f s).chk = s.chk := rfl
@[simp] theorem updVc_cores (d : Stack) (c : CoreIx) (f : Vc → Vc) : (updVc d c f s).cores = s.cores := rfl
@[simp] theorem updVc_bps (d : Stack) (c : CoreIx) (f : Vc → Vc) : (updVc d c f s).bps = s.bps := rfl
@[simp] theorem updVc_lps (d : Stack) (c : CoreIx) (f : Vc → Vc) : (updVc d c f s).lps = s.lps := rfl
@[simp] theorem updVc_routers (d : Stack) (c : CoreIx) (f : Vc → Vc) : (updVc d c f s).routers = s.routers := rfl
@[simp] theorem updVc_dies (d : Stack) (c : CoreIx) (f : Vc → Vc) : (updVc d c f s).dies = s.dies := rfl
@[simp] theorem updVc_parts (d : Stack) (c : CoreIx) (f : Vc → Vc) : (updVc d c f s).parts = s.parts := rfl
@[simp] theorem updVc_present (d : Stack) (c : CoreIx) (f : Vc → Vc) : (updVc d c f s).present = s.present := rfl
@[simp] theorem updVc_loadedParts (d : Stack) (c : CoreIx) (f : Vc → Vc) : (updVc d c f s).loadedParts = s.loadedParts := rfl
@[simp] theorem updVc_flights (d : Stack) (c : CoreIx) (f : Vc → Vc) : (updVc d c f s).flights = s.flights := rfl
@[simp] theorem updVc_crossings (d : Stack) (c : CoreIx) (f : Vc → Vc) : (updVc d c f s).crossings = s.crossings := rfl
@[simp] theorem updVc_flash (d : Stack) (c : CoreIx) (f : Vc → Vc) : (updVc d c f s).flash = s.flash := rfl
@[simp] theorem updVc_hub (d : Stack) (c : CoreIx) (f : Vc → Vc) : (updVc d c f s).hub = s.hub := rfl
@[simp] theorem updVc_rst (d : Stack) (c : CoreIx) (f : Vc → Vc) : (updVc d c f s).rst = s.rst := rfl
@[simp] theorem updVc_bring (d : Stack) (c : CoreIx) (f : Vc → Vc) : (updVc d c f s).bring = s.bring := rfl
@[simp] theorem updVc_topo (d : Stack) (c : CoreIx) (f : Vc → Vc) : (updVc d c f s).topo = s.topo := rfl
@[simp] theorem updVc_svc (d : Stack) (c : CoreIx) (f : Vc → Vc) : (updVc d c f s).svc = s.svc := rfl
@[simp] theorem updVc_twin (d : Stack) (c : CoreIx) (f : Vc → Vc) : (updVc d c f s).twin = s.twin := rfl
@[simp] theorem updVc_camner (d : Stack) (c : CoreIx) (f : Vc → Vc) : (updVc d c f s).camner = s.camner := rfl
@[simp] theorem updVc_twinFlits (d : Stack) (c : CoreIx) (f : Vc → Vc) : (updVc d c f s).twinFlits = s.twinFlits := rfl
@[simp] theorem updVc_sec (d : Stack) (c : CoreIx) (f : Vc → Vc) : (updVc d c f s).sec = s.sec := rfl
@[simp] theorem updVc_power (d : Stack) (c : CoreIx) (f : Vc → Vc) : (updVc d c f s).power = s.power := rfl
@[simp] theorem updVc_therm (d : Stack) (c : CoreIx) (f : Vc → Vc) : (updVc d c f s).therm = s.therm := rfl
@[simp] theorem updVc_hubTherm (d : Stack) (c : CoreIx) (f : Vc → Vc) : (updVc d c f s).hubTherm = s.hubTherm := rfl
@[simp] theorem updVc_voff (d : Stack) (c : CoreIx) (f : Vc → Vc) : (updVc d c f s).voff = s.voff := rfl
@[simp] theorem updVc_theta (d : Stack) (c : CoreIx) (f : Vc → Vc) : (updVc d c f s).theta = s.theta := rfl
@[simp] theorem updVc_pins (d : Stack) (c : CoreIx) (f : Vc → Vc) : (updVc d c f s).pins = s.pins := rfl
@[simp] theorem updVc_freeCtr (d : Stack) (c : CoreIx) (f : Vc → Vc) : (updVc d c f s).freeCtr = s.freeCtr := rfl
@[simp] theorem getReg_updVc (d : Stack) (c : CoreIx) (f : Vc → Vc) (b : Nat) : getReg (updVc d c f s) b = getReg s b := rfl
@[simp] theorem getF_updVc (d : Stack) (c : CoreIx) (f : Vc → Vc) (b : Nat) (g : Fld) : getF (updVc d c f s) b g = getF s b g := rfl
@[simp] theorem getCore_updVc (d : Stack) (c : CoreIx) (f : Vc → Vc) (e : Stack) (c₁ : CoreIx) : getCore (updVc d c f s) e c₁ = getCore s e c₁ := rfl
@[simp] theorem getBp_updVc (d : Stack) (c : CoreIx) (f : Vc → Vc) (e : Stack) (c₁ : CoreIx) (i : Nat) : getBp (updVc d c f s) e c₁ i = getBp s e c₁ i := rfl
@[simp] theorem getLp_updVc (d : Stack) (c : CoreIx) (f : Vc → Vc) (e : Stack) : getLp (updVc d c f s) e = getLp s e := rfl
@[simp] theorem getRouter_updVc (d : Stack) (c : CoreIx) (f : Vc → Vc) (e : Stack) (q : Cluster) : getRouter (updVc d c f s) e q = getRouter s e q := rfl
@[simp] theorem getDie_updVc (d : Stack) (c : CoreIx) (f : Vc → Vc) (e : Stack) : getDie (updVc d c f s) e = getDie s e := rfl
@[simp] theorem getTherm_updVc (d : Stack) (c : CoreIx) (f : Vc → Vc) (e : Stack) : getTherm (updVc d c f s) e = getTherm s e := rfl
@[simp] theorem readByte_updVc (d : Stack) (c : CoreIx) (f : Vc → Vc) (i : Nat) : readByte (updVc d c f s) i = readByte s i := rfl

/-! ### updLp -/

@[simp] theorem updLp_pending (d : Stack) (f : Lp → Lp) : (updLp d f s).pending = s.pending := rfl
@[simp] theorem updLp_regs (d : Stack) (f : Lp → Lp) : (updLp d f s).regs = s.regs := rfl
@[simp] theorem updLp_mem (d : Stack) (f : Lp → Lp) : (updLp d f s).mem = s.mem := rfl
@[simp] theorem updLp_chk (d : Stack) (f : Lp → Lp) : (updLp d f s).chk = s.chk := rfl
@[simp] theorem updLp_cores (d : Stack) (f : Lp → Lp) : (updLp d f s).cores = s.cores := rfl
@[simp] theorem updLp_bps (d : Stack) (f : Lp → Lp) : (updLp d f s).bps = s.bps := rfl
@[simp] theorem updLp_vcs (d : Stack) (f : Lp → Lp) : (updLp d f s).vcs = s.vcs := rfl
@[simp] theorem updLp_routers (d : Stack) (f : Lp → Lp) : (updLp d f s).routers = s.routers := rfl
@[simp] theorem updLp_dies (d : Stack) (f : Lp → Lp) : (updLp d f s).dies = s.dies := rfl
@[simp] theorem updLp_parts (d : Stack) (f : Lp → Lp) : (updLp d f s).parts = s.parts := rfl
@[simp] theorem updLp_present (d : Stack) (f : Lp → Lp) : (updLp d f s).present = s.present := rfl
@[simp] theorem updLp_loadedParts (d : Stack) (f : Lp → Lp) : (updLp d f s).loadedParts = s.loadedParts := rfl
@[simp] theorem updLp_flights (d : Stack) (f : Lp → Lp) : (updLp d f s).flights = s.flights := rfl
@[simp] theorem updLp_crossings (d : Stack) (f : Lp → Lp) : (updLp d f s).crossings = s.crossings := rfl
@[simp] theorem updLp_flash (d : Stack) (f : Lp → Lp) : (updLp d f s).flash = s.flash := rfl
@[simp] theorem updLp_hub (d : Stack) (f : Lp → Lp) : (updLp d f s).hub = s.hub := rfl
@[simp] theorem updLp_rst (d : Stack) (f : Lp → Lp) : (updLp d f s).rst = s.rst := rfl
@[simp] theorem updLp_bring (d : Stack) (f : Lp → Lp) : (updLp d f s).bring = s.bring := rfl
@[simp] theorem updLp_topo (d : Stack) (f : Lp → Lp) : (updLp d f s).topo = s.topo := rfl
@[simp] theorem updLp_svc (d : Stack) (f : Lp → Lp) : (updLp d f s).svc = s.svc := rfl
@[simp] theorem updLp_twin (d : Stack) (f : Lp → Lp) : (updLp d f s).twin = s.twin := rfl
@[simp] theorem updLp_camner (d : Stack) (f : Lp → Lp) : (updLp d f s).camner = s.camner := rfl
@[simp] theorem updLp_twinFlits (d : Stack) (f : Lp → Lp) : (updLp d f s).twinFlits = s.twinFlits := rfl
@[simp] theorem updLp_sec (d : Stack) (f : Lp → Lp) : (updLp d f s).sec = s.sec := rfl
@[simp] theorem updLp_power (d : Stack) (f : Lp → Lp) : (updLp d f s).power = s.power := rfl
@[simp] theorem updLp_therm (d : Stack) (f : Lp → Lp) : (updLp d f s).therm = s.therm := rfl
@[simp] theorem updLp_hubTherm (d : Stack) (f : Lp → Lp) : (updLp d f s).hubTherm = s.hubTherm := rfl
@[simp] theorem updLp_voff (d : Stack) (f : Lp → Lp) : (updLp d f s).voff = s.voff := rfl
@[simp] theorem updLp_theta (d : Stack) (f : Lp → Lp) : (updLp d f s).theta = s.theta := rfl
@[simp] theorem updLp_pins (d : Stack) (f : Lp → Lp) : (updLp d f s).pins = s.pins := rfl
@[simp] theorem updLp_freeCtr (d : Stack) (f : Lp → Lp) : (updLp d f s).freeCtr = s.freeCtr := rfl
@[simp] theorem getReg_updLp (d : Stack) (f : Lp → Lp) (b : Nat) : getReg (updLp d f s) b = getReg s b := rfl
@[simp] theorem getF_updLp (d : Stack) (f : Lp → Lp) (b : Nat) (g : Fld) : getF (updLp d f s) b g = getF s b g := rfl
@[simp] theorem getCore_updLp (d : Stack) (f : Lp → Lp) (e : Stack) (c₁ : CoreIx) : getCore (updLp d f s) e c₁ = getCore s e c₁ := rfl
@[simp] theorem getBp_updLp (d : Stack) (f : Lp → Lp) (e : Stack) (c₁ : CoreIx) (i : Nat) : getBp (updLp d f s) e c₁ i = getBp s e c₁ i := rfl
@[simp] theorem getVc_updLp (d : Stack) (f : Lp → Lp) (e : Stack) (c₁ : CoreIx) : getVc (updLp d f s) e c₁ = getVc s e c₁ := rfl
@[simp] theorem getRouter_updLp (d : Stack) (f : Lp → Lp) (e : Stack) (q : Cluster) : getRouter (updLp d f s) e q = getRouter s e q := rfl
@[simp] theorem getDie_updLp (d : Stack) (f : Lp → Lp) (e : Stack) : getDie (updLp d f s) e = getDie s e := rfl
@[simp] theorem getTherm_updLp (d : Stack) (f : Lp → Lp) (e : Stack) : getTherm (updLp d f s) e = getTherm s e := rfl
@[simp] theorem readByte_updLp (d : Stack) (f : Lp → Lp) (i : Nat) : readByte (updLp d f s) i = readByte s i := rfl

/-! ### updRouter -/

@[simp] theorem updRouter_pending (d : Stack) (k : Cluster) (f : Router → Router) : (updRouter d k f s).pending = s.pending := rfl
@[simp] theorem updRouter_regs (d : Stack) (k : Cluster) (f : Router → Router) : (updRouter d k f s).regs = s.regs := rfl
@[simp] theorem updRouter_mem (d : Stack) (k : Cluster) (f : Router → Router) : (updRouter d k f s).mem = s.mem := rfl
@[simp] theorem updRouter_chk (d : Stack) (k : Cluster) (f : Router → Router) : (updRouter d k f s).chk = s.chk := rfl
@[simp] theorem updRouter_cores (d : Stack) (k : Cluster) (f : Router → Router) : (updRouter d k f s).cores = s.cores := rfl
@[simp] theorem updRouter_bps (d : Stack) (k : Cluster) (f : Router → Router) : (updRouter d k f s).bps = s.bps := rfl
@[simp] theorem updRouter_vcs (d : Stack) (k : Cluster) (f : Router → Router) : (updRouter d k f s).vcs = s.vcs := rfl
@[simp] theorem updRouter_lps (d : Stack) (k : Cluster) (f : Router → Router) : (updRouter d k f s).lps = s.lps := rfl
@[simp] theorem updRouter_dies (d : Stack) (k : Cluster) (f : Router → Router) : (updRouter d k f s).dies = s.dies := rfl
@[simp] theorem updRouter_parts (d : Stack) (k : Cluster) (f : Router → Router) : (updRouter d k f s).parts = s.parts := rfl
@[simp] theorem updRouter_present (d : Stack) (k : Cluster) (f : Router → Router) : (updRouter d k f s).present = s.present := rfl
@[simp] theorem updRouter_loadedParts (d : Stack) (k : Cluster) (f : Router → Router) : (updRouter d k f s).loadedParts = s.loadedParts := rfl
@[simp] theorem updRouter_flights (d : Stack) (k : Cluster) (f : Router → Router) : (updRouter d k f s).flights = s.flights := rfl
@[simp] theorem updRouter_crossings (d : Stack) (k : Cluster) (f : Router → Router) : (updRouter d k f s).crossings = s.crossings := rfl
@[simp] theorem updRouter_flash (d : Stack) (k : Cluster) (f : Router → Router) : (updRouter d k f s).flash = s.flash := rfl
@[simp] theorem updRouter_hub (d : Stack) (k : Cluster) (f : Router → Router) : (updRouter d k f s).hub = s.hub := rfl
@[simp] theorem updRouter_rst (d : Stack) (k : Cluster) (f : Router → Router) : (updRouter d k f s).rst = s.rst := rfl
@[simp] theorem updRouter_bring (d : Stack) (k : Cluster) (f : Router → Router) : (updRouter d k f s).bring = s.bring := rfl
@[simp] theorem updRouter_topo (d : Stack) (k : Cluster) (f : Router → Router) : (updRouter d k f s).topo = s.topo := rfl
@[simp] theorem updRouter_svc (d : Stack) (k : Cluster) (f : Router → Router) : (updRouter d k f s).svc = s.svc := rfl
@[simp] theorem updRouter_twin (d : Stack) (k : Cluster) (f : Router → Router) : (updRouter d k f s).twin = s.twin := rfl
@[simp] theorem updRouter_camner (d : Stack) (k : Cluster) (f : Router → Router) : (updRouter d k f s).camner = s.camner := rfl
@[simp] theorem updRouter_twinFlits (d : Stack) (k : Cluster) (f : Router → Router) : (updRouter d k f s).twinFlits = s.twinFlits := rfl
@[simp] theorem updRouter_sec (d : Stack) (k : Cluster) (f : Router → Router) : (updRouter d k f s).sec = s.sec := rfl
@[simp] theorem updRouter_power (d : Stack) (k : Cluster) (f : Router → Router) : (updRouter d k f s).power = s.power := rfl
@[simp] theorem updRouter_therm (d : Stack) (k : Cluster) (f : Router → Router) : (updRouter d k f s).therm = s.therm := rfl
@[simp] theorem updRouter_hubTherm (d : Stack) (k : Cluster) (f : Router → Router) : (updRouter d k f s).hubTherm = s.hubTherm := rfl
@[simp] theorem updRouter_voff (d : Stack) (k : Cluster) (f : Router → Router) : (updRouter d k f s).voff = s.voff := rfl
@[simp] theorem updRouter_theta (d : Stack) (k : Cluster) (f : Router → Router) : (updRouter d k f s).theta = s.theta := rfl
@[simp] theorem updRouter_pins (d : Stack) (k : Cluster) (f : Router → Router) : (updRouter d k f s).pins = s.pins := rfl
@[simp] theorem updRouter_freeCtr (d : Stack) (k : Cluster) (f : Router → Router) : (updRouter d k f s).freeCtr = s.freeCtr := rfl
@[simp] theorem getReg_updRouter (d : Stack) (k : Cluster) (f : Router → Router) (b : Nat) : getReg (updRouter d k f s) b = getReg s b := rfl
@[simp] theorem getF_updRouter (d : Stack) (k : Cluster) (f : Router → Router) (b : Nat) (g : Fld) : getF (updRouter d k f s) b g = getF s b g := rfl
@[simp] theorem getCore_updRouter (d : Stack) (k : Cluster) (f : Router → Router) (e : Stack) (c₁ : CoreIx) : getCore (updRouter d k f s) e c₁ = getCore s e c₁ := rfl
@[simp] theorem getBp_updRouter (d : Stack) (k : Cluster) (f : Router → Router) (e : Stack) (c₁ : CoreIx) (i : Nat) : getBp (updRouter d k f s) e c₁ i = getBp s e c₁ i := rfl
@[simp] theorem getVc_updRouter (d : Stack) (k : Cluster) (f : Router → Router) (e : Stack) (c₁ : CoreIx) : getVc (updRouter d k f s) e c₁ = getVc s e c₁ := rfl
@[simp] theorem getLp_updRouter (d : Stack) (k : Cluster) (f : Router → Router) (e : Stack) : getLp (updRouter d k f s) e = getLp s e := rfl
@[simp] theorem getDie_updRouter (d : Stack) (k : Cluster) (f : Router → Router) (e : Stack) : getDie (updRouter d k f s) e = getDie s e := rfl
@[simp] theorem getTherm_updRouter (d : Stack) (k : Cluster) (f : Router → Router) (e : Stack) : getTherm (updRouter d k f s) e = getTherm s e := rfl
@[simp] theorem readByte_updRouter (d : Stack) (k : Cluster) (f : Router → Router) (i : Nat) : readByte (updRouter d k f s) i = readByte s i := rfl

/-! ### updDie -/

@[simp] theorem updDie_pending (d : Stack) (f : Die → Die) : (updDie d f s).pending = s.pending := rfl
@[simp] theorem updDie_regs (d : Stack) (f : Die → Die) : (updDie d f s).regs = s.regs := rfl
@[simp] theorem updDie_mem (d : Stack) (f : Die → Die) : (updDie d f s).mem = s.mem := rfl
@[simp] theorem updDie_chk (d : Stack) (f : Die → Die) : (updDie d f s).chk = s.chk := rfl
@[simp] theorem updDie_cores (d : Stack) (f : Die → Die) : (updDie d f s).cores = s.cores := rfl
@[simp] theorem updDie_bps (d : Stack) (f : Die → Die) : (updDie d f s).bps = s.bps := rfl
@[simp] theorem updDie_vcs (d : Stack) (f : Die → Die) : (updDie d f s).vcs = s.vcs := rfl
@[simp] theorem updDie_lps (d : Stack) (f : Die → Die) : (updDie d f s).lps = s.lps := rfl
@[simp] theorem updDie_routers (d : Stack) (f : Die → Die) : (updDie d f s).routers = s.routers := rfl
@[simp] theorem updDie_parts (d : Stack) (f : Die → Die) : (updDie d f s).parts = s.parts := rfl
@[simp] theorem updDie_present (d : Stack) (f : Die → Die) : (updDie d f s).present = s.present := rfl
@[simp] theorem updDie_loadedParts (d : Stack) (f : Die → Die) : (updDie d f s).loadedParts = s.loadedParts := rfl
@[simp] theorem updDie_flights (d : Stack) (f : Die → Die) : (updDie d f s).flights = s.flights := rfl
@[simp] theorem updDie_crossings (d : Stack) (f : Die → Die) : (updDie d f s).crossings = s.crossings := rfl
@[simp] theorem updDie_flash (d : Stack) (f : Die → Die) : (updDie d f s).flash = s.flash := rfl
@[simp] theorem updDie_hub (d : Stack) (f : Die → Die) : (updDie d f s).hub = s.hub := rfl
@[simp] theorem updDie_rst (d : Stack) (f : Die → Die) : (updDie d f s).rst = s.rst := rfl
@[simp] theorem updDie_bring (d : Stack) (f : Die → Die) : (updDie d f s).bring = s.bring := rfl
@[simp] theorem updDie_topo (d : Stack) (f : Die → Die) : (updDie d f s).topo = s.topo := rfl
@[simp] theorem updDie_svc (d : Stack) (f : Die → Die) : (updDie d f s).svc = s.svc := rfl
@[simp] theorem updDie_twin (d : Stack) (f : Die → Die) : (updDie d f s).twin = s.twin := rfl
@[simp] theorem updDie_camner (d : Stack) (f : Die → Die) : (updDie d f s).camner = s.camner := rfl
@[simp] theorem updDie_twinFlits (d : Stack) (f : Die → Die) : (updDie d f s).twinFlits = s.twinFlits := rfl
@[simp] theorem updDie_sec (d : Stack) (f : Die → Die) : (updDie d f s).sec = s.sec := rfl
@[simp] theorem updDie_power (d : Stack) (f : Die → Die) : (updDie d f s).power = s.power := rfl
@[simp] theorem updDie_therm (d : Stack) (f : Die → Die) : (updDie d f s).therm = s.therm := rfl
@[simp] theorem updDie_hubTherm (d : Stack) (f : Die → Die) : (updDie d f s).hubTherm = s.hubTherm := rfl
@[simp] theorem updDie_voff (d : Stack) (f : Die → Die) : (updDie d f s).voff = s.voff := rfl
@[simp] theorem updDie_theta (d : Stack) (f : Die → Die) : (updDie d f s).theta = s.theta := rfl
@[simp] theorem updDie_pins (d : Stack) (f : Die → Die) : (updDie d f s).pins = s.pins := rfl
@[simp] theorem updDie_freeCtr (d : Stack) (f : Die → Die) : (updDie d f s).freeCtr = s.freeCtr := rfl
@[simp] theorem getReg_updDie (d : Stack) (f : Die → Die) (b : Nat) : getReg (updDie d f s) b = getReg s b := rfl
@[simp] theorem getF_updDie (d : Stack) (f : Die → Die) (b : Nat) (g : Fld) : getF (updDie d f s) b g = getF s b g := rfl
@[simp] theorem getCore_updDie (d : Stack) (f : Die → Die) (e : Stack) (c₁ : CoreIx) : getCore (updDie d f s) e c₁ = getCore s e c₁ := rfl
@[simp] theorem getBp_updDie (d : Stack) (f : Die → Die) (e : Stack) (c₁ : CoreIx) (i : Nat) : getBp (updDie d f s) e c₁ i = getBp s e c₁ i := rfl
@[simp] theorem getVc_updDie (d : Stack) (f : Die → Die) (e : Stack) (c₁ : CoreIx) : getVc (updDie d f s) e c₁ = getVc s e c₁ := rfl
@[simp] theorem getLp_updDie (d : Stack) (f : Die → Die) (e : Stack) : getLp (updDie d f s) e = getLp s e := rfl
@[simp] theorem getRouter_updDie (d : Stack) (f : Die → Die) (e : Stack) (q : Cluster) : getRouter (updDie d f s) e q = getRouter s e q := rfl
@[simp] theorem getTherm_updDie (d : Stack) (f : Die → Die) (e : Stack) : getTherm (updDie d f s) e = getTherm s e := rfl
@[simp] theorem readByte_updDie (d : Stack) (f : Die → Die) (i : Nat) : readByte (updDie d f s) i = readByte s i := rfl

/-! ### updTherm -/

@[simp] theorem updTherm_pending (d : Stack) (f : DieTherm → DieTherm) : (updTherm d f s).pending = s.pending := rfl
@[simp] theorem updTherm_regs (d : Stack) (f : DieTherm → DieTherm) : (updTherm d f s).regs = s.regs := rfl
@[simp] theorem updTherm_mem (d : Stack) (f : DieTherm → DieTherm) : (updTherm d f s).mem = s.mem := rfl
@[simp] theorem updTherm_chk (d : Stack) (f : DieTherm → DieTherm) : (updTherm d f s).chk = s.chk := rfl
@[simp] theorem updTherm_cores (d : Stack) (f : DieTherm → DieTherm) : (updTherm d f s).cores = s.cores := rfl
@[simp] theorem updTherm_bps (d : Stack) (f : DieTherm → DieTherm) : (updTherm d f s).bps = s.bps := rfl
@[simp] theorem updTherm_vcs (d : Stack) (f : DieTherm → DieTherm) : (updTherm d f s).vcs = s.vcs := rfl
@[simp] theorem updTherm_lps (d : Stack) (f : DieTherm → DieTherm) : (updTherm d f s).lps = s.lps := rfl
@[simp] theorem updTherm_routers (d : Stack) (f : DieTherm → DieTherm) : (updTherm d f s).routers = s.routers := rfl
@[simp] theorem updTherm_dies (d : Stack) (f : DieTherm → DieTherm) : (updTherm d f s).dies = s.dies := rfl
@[simp] theorem updTherm_parts (d : Stack) (f : DieTherm → DieTherm) : (updTherm d f s).parts = s.parts := rfl
@[simp] theorem updTherm_present (d : Stack) (f : DieTherm → DieTherm) : (updTherm d f s).present = s.present := rfl
@[simp] theorem updTherm_loadedParts (d : Stack) (f : DieTherm → DieTherm) : (updTherm d f s).loadedParts = s.loadedParts := rfl
@[simp] theorem updTherm_flights (d : Stack) (f : DieTherm → DieTherm) : (updTherm d f s).flights = s.flights := rfl
@[simp] theorem updTherm_crossings (d : Stack) (f : DieTherm → DieTherm) : (updTherm d f s).crossings = s.crossings := rfl
@[simp] theorem updTherm_flash (d : Stack) (f : DieTherm → DieTherm) : (updTherm d f s).flash = s.flash := rfl
@[simp] theorem updTherm_hub (d : Stack) (f : DieTherm → DieTherm) : (updTherm d f s).hub = s.hub := rfl
@[simp] theorem updTherm_rst (d : Stack) (f : DieTherm → DieTherm) : (updTherm d f s).rst = s.rst := rfl
@[simp] theorem updTherm_bring (d : Stack) (f : DieTherm → DieTherm) : (updTherm d f s).bring = s.bring := rfl
@[simp] theorem updTherm_topo (d : Stack) (f : DieTherm → DieTherm) : (updTherm d f s).topo = s.topo := rfl
@[simp] theorem updTherm_svc (d : Stack) (f : DieTherm → DieTherm) : (updTherm d f s).svc = s.svc := rfl
@[simp] theorem updTherm_twin (d : Stack) (f : DieTherm → DieTherm) : (updTherm d f s).twin = s.twin := rfl
@[simp] theorem updTherm_camner (d : Stack) (f : DieTherm → DieTherm) : (updTherm d f s).camner = s.camner := rfl
@[simp] theorem updTherm_twinFlits (d : Stack) (f : DieTherm → DieTherm) : (updTherm d f s).twinFlits = s.twinFlits := rfl
@[simp] theorem updTherm_sec (d : Stack) (f : DieTherm → DieTherm) : (updTherm d f s).sec = s.sec := rfl
@[simp] theorem updTherm_power (d : Stack) (f : DieTherm → DieTherm) : (updTherm d f s).power = s.power := rfl
@[simp] theorem updTherm_hubTherm (d : Stack) (f : DieTherm → DieTherm) : (updTherm d f s).hubTherm = s.hubTherm := rfl
@[simp] theorem updTherm_voff (d : Stack) (f : DieTherm → DieTherm) : (updTherm d f s).voff = s.voff := rfl
@[simp] theorem updTherm_theta (d : Stack) (f : DieTherm → DieTherm) : (updTherm d f s).theta = s.theta := rfl
@[simp] theorem updTherm_pins (d : Stack) (f : DieTherm → DieTherm) : (updTherm d f s).pins = s.pins := rfl
@[simp] theorem updTherm_freeCtr (d : Stack) (f : DieTherm → DieTherm) : (updTherm d f s).freeCtr = s.freeCtr := rfl
@[simp] theorem getReg_updTherm (d : Stack) (f : DieTherm → DieTherm) (b : Nat) : getReg (updTherm d f s) b = getReg s b := rfl
@[simp] theorem getF_updTherm (d : Stack) (f : DieTherm → DieTherm) (b : Nat) (g : Fld) : getF (updTherm d f s) b g = getF s b g := rfl
@[simp] theorem getCore_updTherm (d : Stack) (f : DieTherm → DieTherm) (e : Stack) (c₁ : CoreIx) : getCore (updTherm d f s) e c₁ = getCore s e c₁ := rfl
@[simp] theorem getBp_updTherm (d : Stack) (f : DieTherm → DieTherm) (e : Stack) (c₁ : CoreIx) (i : Nat) : getBp (updTherm d f s) e c₁ i = getBp s e c₁ i := rfl
@[simp] theorem getVc_updTherm (d : Stack) (f : DieTherm → DieTherm) (e : Stack) (c₁ : CoreIx) : getVc (updTherm d f s) e c₁ = getVc s e c₁ := rfl
@[simp] theorem getLp_updTherm (d : Stack) (f : DieTherm → DieTherm) (e : Stack) : getLp (updTherm d f s) e = getLp s e := rfl
@[simp] theorem getRouter_updTherm (d : Stack) (f : DieTherm → DieTherm) (e : Stack) (q : Cluster) : getRouter (updTherm d f s) e q = getRouter s e q := rfl
@[simp] theorem getDie_updTherm (d : Stack) (f : DieTherm → DieTherm) (e : Stack) : getDie (updTherm d f s) e = getDie s e := rfl
@[simp] theorem readByte_updTherm (d : Stack) (f : DieTherm → DieTherm) (i : Nat) : readByte (updTherm d f s) i = readByte s i := rfl

/-! ### updHub -/

@[simp] theorem updHub_pending (f : Hub → Hub) : (updHub f s).pending = s.pending := rfl
@[simp] theorem updHub_regs (f : Hub → Hub) : (updHub f s).regs = s.regs := rfl
@[simp] theorem updHub_mem (f : Hub → Hub) : (updHub f s).mem = s.mem := rfl
@[simp] theorem updHub_chk (f : Hub → Hub) : (updHub f s).chk = s.chk := rfl
@[simp] theorem updHub_cores (f : Hub → Hub) : (updHub f s).cores = s.cores := rfl
@[simp] theorem updHub_bps (f : Hub → Hub) : (updHub f s).bps = s.bps := rfl
@[simp] theorem updHub_vcs (f : Hub → Hub) : (updHub f s).vcs = s.vcs := rfl
@[simp] theorem updHub_lps (f : Hub → Hub) : (updHub f s).lps = s.lps := rfl
@[simp] theorem updHub_routers (f : Hub → Hub) : (updHub f s).routers = s.routers := rfl
@[simp] theorem updHub_dies (f : Hub → Hub) : (updHub f s).dies = s.dies := rfl
@[simp] theorem updHub_parts (f : Hub → Hub) : (updHub f s).parts = s.parts := rfl
@[simp] theorem updHub_present (f : Hub → Hub) : (updHub f s).present = s.present := rfl
@[simp] theorem updHub_loadedParts (f : Hub → Hub) : (updHub f s).loadedParts = s.loadedParts := rfl
@[simp] theorem updHub_flights (f : Hub → Hub) : (updHub f s).flights = s.flights := rfl
@[simp] theorem updHub_crossings (f : Hub → Hub) : (updHub f s).crossings = s.crossings := rfl
@[simp] theorem updHub_flash (f : Hub → Hub) : (updHub f s).flash = s.flash := rfl
@[simp] theorem updHub_rst (f : Hub → Hub) : (updHub f s).rst = s.rst := rfl
@[simp] theorem updHub_bring (f : Hub → Hub) : (updHub f s).bring = s.bring := rfl
@[simp] theorem updHub_topo (f : Hub → Hub) : (updHub f s).topo = s.topo := rfl
@[simp] theorem updHub_svc (f : Hub → Hub) : (updHub f s).svc = s.svc := rfl
@[simp] theorem updHub_twin (f : Hub → Hub) : (updHub f s).twin = s.twin := rfl
@[simp] theorem updHub_camner (f : Hub → Hub) : (updHub f s).camner = s.camner := rfl
@[simp] theorem updHub_twinFlits (f : Hub → Hub) : (updHub f s).twinFlits = s.twinFlits := rfl
@[simp] theorem updHub_sec (f : Hub → Hub) : (updHub f s).sec = s.sec := rfl
@[simp] theorem updHub_power (f : Hub → Hub) : (updHub f s).power = s.power := rfl
@[simp] theorem updHub_therm (f : Hub → Hub) : (updHub f s).therm = s.therm := rfl
@[simp] theorem updHub_hubTherm (f : Hub → Hub) : (updHub f s).hubTherm = s.hubTherm := rfl
@[simp] theorem updHub_voff (f : Hub → Hub) : (updHub f s).voff = s.voff := rfl
@[simp] theorem updHub_theta (f : Hub → Hub) : (updHub f s).theta = s.theta := rfl
@[simp] theorem updHub_pins (f : Hub → Hub) : (updHub f s).pins = s.pins := rfl
@[simp] theorem updHub_freeCtr (f : Hub → Hub) : (updHub f s).freeCtr = s.freeCtr := rfl
@[simp] theorem getReg_updHub (f : Hub → Hub) (b : Nat) : getReg (updHub f s) b = getReg s b := rfl
@[simp] theorem getF_updHub (f : Hub → Hub) (b : Nat) (g : Fld) : getF (updHub f s) b g = getF s b g := rfl
@[simp] theorem getCore_updHub (f : Hub → Hub) (e : Stack) (c₁ : CoreIx) : getCore (updHub f s) e c₁ = getCore s e c₁ := rfl
@[simp] theorem getBp_updHub (f : Hub → Hub) (e : Stack) (c₁ : CoreIx) (i : Nat) : getBp (updHub f s) e c₁ i = getBp s e c₁ i := rfl
@[simp] theorem getVc_updHub (f : Hub → Hub) (e : Stack) (c₁ : CoreIx) : getVc (updHub f s) e c₁ = getVc s e c₁ := rfl
@[simp] theorem getLp_updHub (f : Hub → Hub) (e : Stack) : getLp (updHub f s) e = getLp s e := rfl
@[simp] theorem getRouter_updHub (f : Hub → Hub) (e : Stack) (q : Cluster) : getRouter (updHub f s) e q = getRouter s e q := rfl
@[simp] theorem getDie_updHub (f : Hub → Hub) (e : Stack) : getDie (updHub f s) e = getDie s e := rfl
@[simp] theorem getTherm_updHub (f : Hub → Hub) (e : Stack) : getTherm (updHub f s) e = getTherm s e := rfl
@[simp] theorem readByte_updHub (f : Hub → Hub) (i : Nat) : readByte (updHub f s) i = readByte s i := rfl

/-! ### updSvc -/

@[simp] theorem updSvc_pending (f : Svc → Svc) : (updSvc f s).pending = s.pending := rfl
@[simp] theorem updSvc_regs (f : Svc → Svc) : (updSvc f s).regs = s.regs := rfl
@[simp] theorem updSvc_mem (f : Svc → Svc) : (updSvc f s).mem = s.mem := rfl
@[simp] theorem updSvc_chk (f : Svc → Svc) : (updSvc f s).chk = s.chk := rfl
@[simp] theorem updSvc_cores (f : Svc → Svc) : (updSvc f s).cores = s.cores := rfl
@[simp] theorem updSvc_bps (f : Svc → Svc) : (updSvc f s).bps = s.bps := rfl
@[simp] theorem updSvc_vcs (f : Svc → Svc) : (updSvc f s).vcs = s.vcs := rfl
@[simp] theorem updSvc_lps (f : Svc → Svc) : (updSvc f s).lps = s.lps := rfl
@[simp] theorem updSvc_routers (f : Svc → Svc) : (updSvc f s).routers = s.routers := rfl
@[simp] theorem updSvc_dies (f : Svc → Svc) : (updSvc f s).dies = s.dies := rfl
@[simp] theorem updSvc_parts (f : Svc → Svc) : (updSvc f s).parts = s.parts := rfl
@[simp] theorem updSvc_present (f : Svc → Svc) : (updSvc f s).present = s.present := rfl
@[simp] theorem updSvc_loadedParts (f : Svc → Svc) : (updSvc f s).loadedParts = s.loadedParts := rfl
@[simp] theorem updSvc_flights (f : Svc → Svc) : (updSvc f s).flights = s.flights := rfl
@[simp] theorem updSvc_crossings (f : Svc → Svc) : (updSvc f s).crossings = s.crossings := rfl
@[simp] theorem updSvc_flash (f : Svc → Svc) : (updSvc f s).flash = s.flash := rfl
@[simp] theorem updSvc_hub (f : Svc → Svc) : (updSvc f s).hub = s.hub := rfl
@[simp] theorem updSvc_rst (f : Svc → Svc) : (updSvc f s).rst = s.rst := rfl
@[simp] theorem updSvc_bring (f : Svc → Svc) : (updSvc f s).bring = s.bring := rfl
@[simp] theorem updSvc_topo (f : Svc → Svc) : (updSvc f s).topo = s.topo := rfl
@[simp] theorem updSvc_twin (f : Svc → Svc) : (updSvc f s).twin = s.twin := rfl
@[simp] theorem updSvc_camner (f : Svc → Svc) : (updSvc f s).camner = s.camner := rfl
@[simp] theorem updSvc_twinFlits (f : Svc → Svc) : (updSvc f s).twinFlits = s.twinFlits := rfl
@[simp] theorem updSvc_sec (f : Svc → Svc) : (updSvc f s).sec = s.sec := rfl
@[simp] theorem updSvc_power (f : Svc → Svc) : (updSvc f s).power = s.power := rfl
@[simp] theorem updSvc_therm (f : Svc → Svc) : (updSvc f s).therm = s.therm := rfl
@[simp] theorem updSvc_hubTherm (f : Svc → Svc) : (updSvc f s).hubTherm = s.hubTherm := rfl
@[simp] theorem updSvc_voff (f : Svc → Svc) : (updSvc f s).voff = s.voff := rfl
@[simp] theorem updSvc_theta (f : Svc → Svc) : (updSvc f s).theta = s.theta := rfl
@[simp] theorem updSvc_pins (f : Svc → Svc) : (updSvc f s).pins = s.pins := rfl
@[simp] theorem updSvc_freeCtr (f : Svc → Svc) : (updSvc f s).freeCtr = s.freeCtr := rfl
@[simp] theorem getReg_updSvc (f : Svc → Svc) (b : Nat) : getReg (updSvc f s) b = getReg s b := rfl
@[simp] theorem getF_updSvc (f : Svc → Svc) (b : Nat) (g : Fld) : getF (updSvc f s) b g = getF s b g := rfl
@[simp] theorem getCore_updSvc (f : Svc → Svc) (e : Stack) (c₁ : CoreIx) : getCore (updSvc f s) e c₁ = getCore s e c₁ := rfl
@[simp] theorem getBp_updSvc (f : Svc → Svc) (e : Stack) (c₁ : CoreIx) (i : Nat) : getBp (updSvc f s) e c₁ i = getBp s e c₁ i := rfl
@[simp] theorem getVc_updSvc (f : Svc → Svc) (e : Stack) (c₁ : CoreIx) : getVc (updSvc f s) e c₁ = getVc s e c₁ := rfl
@[simp] theorem getLp_updSvc (f : Svc → Svc) (e : Stack) : getLp (updSvc f s) e = getLp s e := rfl
@[simp] theorem getRouter_updSvc (f : Svc → Svc) (e : Stack) (q : Cluster) : getRouter (updSvc f s) e q = getRouter s e q := rfl
@[simp] theorem getDie_updSvc (f : Svc → Svc) (e : Stack) : getDie (updSvc f s) e = getDie s e := rfl
@[simp] theorem getTherm_updSvc (f : Svc → Svc) (e : Stack) : getTherm (updSvc f s) e = getTherm s e := rfl
@[simp] theorem readByte_updSvc (f : Svc → Svc) (i : Nat) : readByte (updSvc f s) i = readByte s i := rfl

/-! ### updTwin -/

@[simp] theorem updTwin_pending (f : Twin → Twin) : (updTwin f s).pending = s.pending := rfl
@[simp] theorem updTwin_regs (f : Twin → Twin) : (updTwin f s).regs = s.regs := rfl
@[simp] theorem updTwin_mem (f : Twin → Twin) : (updTwin f s).mem = s.mem := rfl
@[simp] theorem updTwin_chk (f : Twin → Twin) : (updTwin f s).chk = s.chk := rfl
@[simp] theorem updTwin_cores (f : Twin → Twin) : (updTwin f s).cores = s.cores := rfl
@[simp] theorem updTwin_bps (f : Twin → Twin) : (updTwin f s).bps = s.bps := rfl
@[simp] theorem updTwin_vcs (f : Twin → Twin) : (updTwin f s).vcs = s.vcs := rfl
@[simp] theorem updTwin_lps (f : Twin → Twin) : (updTwin f s).lps = s.lps := rfl
@[simp] theorem updTwin_routers (f : Twin → Twin) : (updTwin f s).routers = s.routers := rfl
@[simp] theorem updTwin_dies (f : Twin → Twin) : (updTwin f s).dies = s.dies := rfl
@[simp] theorem updTwin_parts (f : Twin → Twin) : (updTwin f s).parts = s.parts := rfl
@[simp] theorem updTwin_present (f : Twin → Twin) : (updTwin f s).present = s.present := rfl
@[simp] theorem updTwin_loadedParts (f : Twin → Twin) : (updTwin f s).loadedParts = s.loadedParts := rfl
@[simp] theorem updTwin_flights (f : Twin → Twin) : (updTwin f s).flights = s.flights := rfl
@[simp] theorem updTwin_crossings (f : Twin → Twin) : (updTwin f s).crossings = s.crossings := rfl
@[simp] theorem updTwin_flash (f : Twin → Twin) : (updTwin f s).flash = s.flash := rfl
@[simp] theorem updTwin_hub (f : Twin → Twin) : (updTwin f s).hub = s.hub := rfl
@[simp] theorem updTwin_rst (f : Twin → Twin) : (updTwin f s).rst = s.rst := rfl
@[simp] theorem updTwin_bring (f : Twin → Twin) : (updTwin f s).bring = s.bring := rfl
@[simp] theorem updTwin_topo (f : Twin → Twin) : (updTwin f s).topo = s.topo := rfl
@[simp] theorem updTwin_svc (f : Twin → Twin) : (updTwin f s).svc = s.svc := rfl
@[simp] theorem updTwin_camner (f : Twin → Twin) : (updTwin f s).camner = s.camner := rfl
@[simp] theorem updTwin_twinFlits (f : Twin → Twin) : (updTwin f s).twinFlits = s.twinFlits := rfl
@[simp] theorem updTwin_sec (f : Twin → Twin) : (updTwin f s).sec = s.sec := rfl
@[simp] theorem updTwin_power (f : Twin → Twin) : (updTwin f s).power = s.power := rfl
@[simp] theorem updTwin_therm (f : Twin → Twin) : (updTwin f s).therm = s.therm := rfl
@[simp] theorem updTwin_hubTherm (f : Twin → Twin) : (updTwin f s).hubTherm = s.hubTherm := rfl
@[simp] theorem updTwin_voff (f : Twin → Twin) : (updTwin f s).voff = s.voff := rfl
@[simp] theorem updTwin_theta (f : Twin → Twin) : (updTwin f s).theta = s.theta := rfl
@[simp] theorem updTwin_pins (f : Twin → Twin) : (updTwin f s).pins = s.pins := rfl
@[simp] theorem updTwin_freeCtr (f : Twin → Twin) : (updTwin f s).freeCtr = s.freeCtr := rfl
@[simp] theorem getReg_updTwin (f : Twin → Twin) (b : Nat) : getReg (updTwin f s) b = getReg s b := rfl
@[simp] theorem getF_updTwin (f : Twin → Twin) (b : Nat) (g : Fld) : getF (updTwin f s) b g = getF s b g := rfl
@[simp] theorem getCore_updTwin (f : Twin → Twin) (e : Stack) (c₁ : CoreIx) : getCore (updTwin f s) e c₁ = getCore s e c₁ := rfl
@[simp] theorem getBp_updTwin (f : Twin → Twin) (e : Stack) (c₁ : CoreIx) (i : Nat) : getBp (updTwin f s) e c₁ i = getBp s e c₁ i := rfl
@[simp] theorem getVc_updTwin (f : Twin → Twin) (e : Stack) (c₁ : CoreIx) : getVc (updTwin f s) e c₁ = getVc s e c₁ := rfl
@[simp] theorem getLp_updTwin (f : Twin → Twin) (e : Stack) : getLp (updTwin f s) e = getLp s e := rfl
@[simp] theorem getRouter_updTwin (f : Twin → Twin) (e : Stack) (q : Cluster) : getRouter (updTwin f s) e q = getRouter s e q := rfl
@[simp] theorem getDie_updTwin (f : Twin → Twin) (e : Stack) : getDie (updTwin f s) e = getDie s e := rfl
@[simp] theorem getTherm_updTwin (f : Twin → Twin) (e : Stack) : getTherm (updTwin f s) e = getTherm s e := rfl
@[simp] theorem readByte_updTwin (f : Twin → Twin) (i : Nat) : readByte (updTwin f s) i = readByte s i := rfl

/-! ### updCam -/

@[simp] theorem updCam_pending (f : Camner → Camner) : (updCam f s).pending = s.pending := rfl
@[simp] theorem updCam_regs (f : Camner → Camner) : (updCam f s).regs = s.regs := rfl
@[simp] theorem updCam_mem (f : Camner → Camner) : (updCam f s).mem = s.mem := rfl
@[simp] theorem updCam_chk (f : Camner → Camner) : (updCam f s).chk = s.chk := rfl
@[simp] theorem updCam_cores (f : Camner → Camner) : (updCam f s).cores = s.cores := rfl
@[simp] theorem updCam_bps (f : Camner → Camner) : (updCam f s).bps = s.bps := rfl
@[simp] theorem updCam_vcs (f : Camner → Camner) : (updCam f s).vcs = s.vcs := rfl
@[simp] theorem updCam_lps (f : Camner → Camner) : (updCam f s).lps = s.lps := rfl
@[simp] theorem updCam_routers (f : Camner → Camner) : (updCam f s).routers = s.routers := rfl
@[simp] theorem updCam_dies (f : Camner → Camner) : (updCam f s).dies = s.dies := rfl
@[simp] theorem updCam_parts (f : Camner → Camner) : (updCam f s).parts = s.parts := rfl
@[simp] theorem updCam_present (f : Camner → Camner) : (updCam f s).present = s.present := rfl
@[simp] theorem updCam_loadedParts (f : Camner → Camner) : (updCam f s).loadedParts = s.loadedParts := rfl
@[simp] theorem updCam_flights (f : Camner → Camner) : (updCam f s).flights = s.flights := rfl
@[simp] theorem updCam_crossings (f : Camner → Camner) : (updCam f s).crossings = s.crossings := rfl
@[simp] theorem updCam_flash (f : Camner → Camner) : (updCam f s).flash = s.flash := rfl
@[simp] theorem updCam_hub (f : Camner → Camner) : (updCam f s).hub = s.hub := rfl
@[simp] theorem updCam_rst (f : Camner → Camner) : (updCam f s).rst = s.rst := rfl
@[simp] theorem updCam_bring (f : Camner → Camner) : (updCam f s).bring = s.bring := rfl
@[simp] theorem updCam_topo (f : Camner → Camner) : (updCam f s).topo = s.topo := rfl
@[simp] theorem updCam_svc (f : Camner → Camner) : (updCam f s).svc = s.svc := rfl
@[simp] theorem updCam_twin (f : Camner → Camner) : (updCam f s).twin = s.twin := rfl
@[simp] theorem updCam_twinFlits (f : Camner → Camner) : (updCam f s).twinFlits = s.twinFlits := rfl
@[simp] theorem updCam_sec (f : Camner → Camner) : (updCam f s).sec = s.sec := rfl
@[simp] theorem updCam_power (f : Camner → Camner) : (updCam f s).power = s.power := rfl
@[simp] theorem updCam_therm (f : Camner → Camner) : (updCam f s).therm = s.therm := rfl
@[simp] theorem updCam_hubTherm (f : Camner → Camner) : (updCam f s).hubTherm = s.hubTherm := rfl
@[simp] theorem updCam_voff (f : Camner → Camner) : (updCam f s).voff = s.voff := rfl
@[simp] theorem updCam_theta (f : Camner → Camner) : (updCam f s).theta = s.theta := rfl
@[simp] theorem updCam_pins (f : Camner → Camner) : (updCam f s).pins = s.pins := rfl
@[simp] theorem updCam_freeCtr (f : Camner → Camner) : (updCam f s).freeCtr = s.freeCtr := rfl
@[simp] theorem getReg_updCam (f : Camner → Camner) (b : Nat) : getReg (updCam f s) b = getReg s b := rfl
@[simp] theorem getF_updCam (f : Camner → Camner) (b : Nat) (g : Fld) : getF (updCam f s) b g = getF s b g := rfl
@[simp] theorem getCore_updCam (f : Camner → Camner) (e : Stack) (c₁ : CoreIx) : getCore (updCam f s) e c₁ = getCore s e c₁ := rfl
@[simp] theorem getBp_updCam (f : Camner → Camner) (e : Stack) (c₁ : CoreIx) (i : Nat) : getBp (updCam f s) e c₁ i = getBp s e c₁ i := rfl
@[simp] theorem getVc_updCam (f : Camner → Camner) (e : Stack) (c₁ : CoreIx) : getVc (updCam f s) e c₁ = getVc s e c₁ := rfl
@[simp] theorem getLp_updCam (f : Camner → Camner) (e : Stack) : getLp (updCam f s) e = getLp s e := rfl
@[simp] theorem getRouter_updCam (f : Camner → Camner) (e : Stack) (q : Cluster) : getRouter (updCam f s) e q = getRouter s e q := rfl
@[simp] theorem getDie_updCam (f : Camner → Camner) (e : Stack) : getDie (updCam f s) e = getDie s e := rfl
@[simp] theorem getTherm_updCam (f : Camner → Camner) (e : Stack) : getTherm (updCam f s) e = getTherm s e := rfl
@[simp] theorem readByte_updCam (f : Camner → Camner) (i : Nat) : readByte (updCam f s) i = readByte s i := rfl

/-! ### updSec -/

@[simp] theorem updSec_pending (f : Sec → Sec) : (updSec f s).pending = s.pending := rfl
@[simp] theorem updSec_regs (f : Sec → Sec) : (updSec f s).regs = s.regs := rfl
@[simp] theorem updSec_mem (f : Sec → Sec) : (updSec f s).mem = s.mem := rfl
@[simp] theorem updSec_chk (f : Sec → Sec) : (updSec f s).chk = s.chk := rfl
@[simp] theorem updSec_cores (f : Sec → Sec) : (updSec f s).cores = s.cores := rfl
@[simp] theorem updSec_bps (f : Sec → Sec) : (updSec f s).bps = s.bps := rfl
@[simp] theorem updSec_vcs (f : Sec → Sec) : (updSec f s).vcs = s.vcs := rfl
@[simp] theorem updSec_lps (f : Sec → Sec) : (updSec f s).lps = s.lps := rfl
@[simp] theorem updSec_routers (f : Sec → Sec) : (updSec f s).routers = s.routers := rfl
@[simp] theorem updSec_dies (f : Sec → Sec) : (updSec f s).dies = s.dies := rfl
@[simp] theorem updSec_parts (f : Sec → Sec) : (updSec f s).parts = s.parts := rfl
@[simp] theorem updSec_present (f : Sec → Sec) : (updSec f s).present = s.present := rfl
@[simp] theorem updSec_loadedParts (f : Sec → Sec) : (updSec f s).loadedParts = s.loadedParts := rfl
@[simp] theorem updSec_flights (f : Sec → Sec) : (updSec f s).flights = s.flights := rfl
@[simp] theorem updSec_crossings (f : Sec → Sec) : (updSec f s).crossings = s.crossings := rfl
@[simp] theorem updSec_flash (f : Sec → Sec) : (updSec f s).flash = s.flash := rfl
@[simp] theorem updSec_hub (f : Sec → Sec) : (updSec f s).hub = s.hub := rfl
@[simp] theorem updSec_rst (f : Sec → Sec) : (updSec f s).rst = s.rst := rfl
@[simp] theorem updSec_bring (f : Sec → Sec) : (updSec f s).bring = s.bring := rfl
@[simp] theorem updSec_topo (f : Sec → Sec) : (updSec f s).topo = s.topo := rfl
@[simp] theorem updSec_svc (f : Sec → Sec) : (updSec f s).svc = s.svc := rfl
@[simp] theorem updSec_twin (f : Sec → Sec) : (updSec f s).twin = s.twin := rfl
@[simp] theorem updSec_camner (f : Sec → Sec) : (updSec f s).camner = s.camner := rfl
@[simp] theorem updSec_twinFlits (f : Sec → Sec) : (updSec f s).twinFlits = s.twinFlits := rfl
@[simp] theorem updSec_power (f : Sec → Sec) : (updSec f s).power = s.power := rfl
@[simp] theorem updSec_therm (f : Sec → Sec) : (updSec f s).therm = s.therm := rfl
@[simp] theorem updSec_hubTherm (f : Sec → Sec) : (updSec f s).hubTherm = s.hubTherm := rfl
@[simp] theorem updSec_voff (f : Sec → Sec) : (updSec f s).voff = s.voff := rfl
@[simp] theorem updSec_theta (f : Sec → Sec) : (updSec f s).theta = s.theta := rfl
@[simp] theorem updSec_pins (f : Sec → Sec) : (updSec f s).pins = s.pins := rfl
@[simp] theorem updSec_freeCtr (f : Sec → Sec) : (updSec f s).freeCtr = s.freeCtr := rfl
@[simp] theorem getReg_updSec (f : Sec → Sec) (b : Nat) : getReg (updSec f s) b = getReg s b := rfl
@[simp] theorem getF_updSec (f : Sec → Sec) (b : Nat) (g : Fld) : getF (updSec f s) b g = getF s b g := rfl
@[simp] theorem getCore_updSec (f : Sec → Sec) (e : Stack) (c₁ : CoreIx) : getCore (updSec f s) e c₁ = getCore s e c₁ := rfl
@[simp] theorem getBp_updSec (f : Sec → Sec) (e : Stack) (c₁ : CoreIx) (i : Nat) : getBp (updSec f s) e c₁ i = getBp s e c₁ i := rfl
@[simp] theorem getVc_updSec (f : Sec → Sec) (e : Stack) (c₁ : CoreIx) : getVc (updSec f s) e c₁ = getVc s e c₁ := rfl
@[simp] theorem getLp_updSec (f : Sec → Sec) (e : Stack) : getLp (updSec f s) e = getLp s e := rfl
@[simp] theorem getRouter_updSec (f : Sec → Sec) (e : Stack) (q : Cluster) : getRouter (updSec f s) e q = getRouter s e q := rfl
@[simp] theorem getDie_updSec (f : Sec → Sec) (e : Stack) : getDie (updSec f s) e = getDie s e := rfl
@[simp] theorem getTherm_updSec (f : Sec → Sec) (e : Stack) : getTherm (updSec f s) e = getTherm s e := rfl
@[simp] theorem readByte_updSec (f : Sec → Sec) (i : Nat) : readByte (updSec f s) i = readByte s i := rfl

/-! ### updRst -/

@[simp] theorem updRst_pending (f : ResetCtl → ResetCtl) : (updRst f s).pending = s.pending := rfl
@[simp] theorem updRst_regs (f : ResetCtl → ResetCtl) : (updRst f s).regs = s.regs := rfl
@[simp] theorem updRst_mem (f : ResetCtl → ResetCtl) : (updRst f s).mem = s.mem := rfl
@[simp] theorem updRst_chk (f : ResetCtl → ResetCtl) : (updRst f s).chk = s.chk := rfl
@[simp] theorem updRst_cores (f : ResetCtl → ResetCtl) : (updRst f s).cores = s.cores := rfl
@[simp] theorem updRst_bps (f : ResetCtl → ResetCtl) : (updRst f s).bps = s.bps := rfl
@[simp] theorem updRst_vcs (f : ResetCtl → ResetCtl) : (updRst f s).vcs = s.vcs := rfl
@[simp] theorem updRst_lps (f : ResetCtl → ResetCtl) : (updRst f s).lps = s.lps := rfl
@[simp] theorem updRst_routers (f : ResetCtl → ResetCtl) : (updRst f s).routers = s.routers := rfl
@[simp] theorem updRst_dies (f : ResetCtl → ResetCtl) : (updRst f s).dies = s.dies := rfl
@[simp] theorem updRst_parts (f : ResetCtl → ResetCtl) : (updRst f s).parts = s.parts := rfl
@[simp] theorem updRst_present (f : ResetCtl → ResetCtl) : (updRst f s).present = s.present := rfl
@[simp] theorem updRst_loadedParts (f : ResetCtl → ResetCtl) : (updRst f s).loadedParts = s.loadedParts := rfl
@[simp] theorem updRst_flights (f : ResetCtl → ResetCtl) : (updRst f s).flights = s.flights := rfl
@[simp] theorem updRst_crossings (f : ResetCtl → ResetCtl) : (updRst f s).crossings = s.crossings := rfl
@[simp] theorem updRst_flash (f : ResetCtl → ResetCtl) : (updRst f s).flash = s.flash := rfl
@[simp] theorem updRst_hub (f : ResetCtl → ResetCtl) : (updRst f s).hub = s.hub := rfl
@[simp] theorem updRst_bring (f : ResetCtl → ResetCtl) : (updRst f s).bring = s.bring := rfl
@[simp] theorem updRst_topo (f : ResetCtl → ResetCtl) : (updRst f s).topo = s.topo := rfl
@[simp] theorem updRst_svc (f : ResetCtl → ResetCtl) : (updRst f s).svc = s.svc := rfl
@[simp] theorem updRst_twin (f : ResetCtl → ResetCtl) : (updRst f s).twin = s.twin := rfl
@[simp] theorem updRst_camner (f : ResetCtl → ResetCtl) : (updRst f s).camner = s.camner := rfl
@[simp] theorem updRst_twinFlits (f : ResetCtl → ResetCtl) : (updRst f s).twinFlits = s.twinFlits := rfl
@[simp] theorem updRst_sec (f : ResetCtl → ResetCtl) : (updRst f s).sec = s.sec := rfl
@[simp] theorem updRst_power (f : ResetCtl → ResetCtl) : (updRst f s).power = s.power := rfl
@[simp] theorem updRst_therm (f : ResetCtl → ResetCtl) : (updRst f s).therm = s.therm := rfl
@[simp] theorem updRst_hubTherm (f : ResetCtl → ResetCtl) : (updRst f s).hubTherm = s.hubTherm := rfl
@[simp] theorem updRst_voff (f : ResetCtl → ResetCtl) : (updRst f s).voff = s.voff := rfl
@[simp] theorem updRst_theta (f : ResetCtl → ResetCtl) : (updRst f s).theta = s.theta := rfl
@[simp] theorem updRst_pins (f : ResetCtl → ResetCtl) : (updRst f s).pins = s.pins := rfl
@[simp] theorem updRst_freeCtr (f : ResetCtl → ResetCtl) : (updRst f s).freeCtr = s.freeCtr := rfl
@[simp] theorem getReg_updRst (f : ResetCtl → ResetCtl) (b : Nat) : getReg (updRst f s) b = getReg s b := rfl
@[simp] theorem getF_updRst (f : ResetCtl → ResetCtl) (b : Nat) (g : Fld) : getF (updRst f s) b g = getF s b g := rfl
@[simp] theorem getCore_updRst (f : ResetCtl → ResetCtl) (e : Stack) (c₁ : CoreIx) : getCore (updRst f s) e c₁ = getCore s e c₁ := rfl
@[simp] theorem getBp_updRst (f : ResetCtl → ResetCtl) (e : Stack) (c₁ : CoreIx) (i : Nat) : getBp (updRst f s) e c₁ i = getBp s e c₁ i := rfl
@[simp] theorem getVc_updRst (f : ResetCtl → ResetCtl) (e : Stack) (c₁ : CoreIx) : getVc (updRst f s) e c₁ = getVc s e c₁ := rfl
@[simp] theorem getLp_updRst (f : ResetCtl → ResetCtl) (e : Stack) : getLp (updRst f s) e = getLp s e := rfl
@[simp] theorem getRouter_updRst (f : ResetCtl → ResetCtl) (e : Stack) (q : Cluster) : getRouter (updRst f s) e q = getRouter s e q := rfl
@[simp] theorem getDie_updRst (f : ResetCtl → ResetCtl) (e : Stack) : getDie (updRst f s) e = getDie s e := rfl
@[simp] theorem getTherm_updRst (f : ResetCtl → ResetCtl) (e : Stack) : getTherm (updRst f s) e = getTherm s e := rfl
@[simp] theorem readByte_updRst (f : ResetCtl → ResetCtl) (i : Nat) : readByte (updRst f s) i = readByte s i := rfl

/-! ### updBring -/

@[simp] theorem updBring_pending (f : Bring → Bring) : (updBring f s).pending = s.pending := rfl
@[simp] theorem updBring_regs (f : Bring → Bring) : (updBring f s).regs = s.regs := rfl
@[simp] theorem updBring_mem (f : Bring → Bring) : (updBring f s).mem = s.mem := rfl
@[simp] theorem updBring_chk (f : Bring → Bring) : (updBring f s).chk = s.chk := rfl
@[simp] theorem updBring_cores (f : Bring → Bring) : (updBring f s).cores = s.cores := rfl
@[simp] theorem updBring_bps (f : Bring → Bring) : (updBring f s).bps = s.bps := rfl
@[simp] theorem updBring_vcs (f : Bring → Bring) : (updBring f s).vcs = s.vcs := rfl
@[simp] theorem updBring_lps (f : Bring → Bring) : (updBring f s).lps = s.lps := rfl
@[simp] theorem updBring_routers (f : Bring → Bring) : (updBring f s).routers = s.routers := rfl
@[simp] theorem updBring_dies (f : Bring → Bring) : (updBring f s).dies = s.dies := rfl
@[simp] theorem updBring_parts (f : Bring → Bring) : (updBring f s).parts = s.parts := rfl
@[simp] theorem updBring_present (f : Bring → Bring) : (updBring f s).present = s.present := rfl
@[simp] theorem updBring_loadedParts (f : Bring → Bring) : (updBring f s).loadedParts = s.loadedParts := rfl
@[simp] theorem updBring_flights (f : Bring → Bring) : (updBring f s).flights = s.flights := rfl
@[simp] theorem updBring_crossings (f : Bring → Bring) : (updBring f s).crossings = s.crossings := rfl
@[simp] theorem updBring_flash (f : Bring → Bring) : (updBring f s).flash = s.flash := rfl
@[simp] theorem updBring_hub (f : Bring → Bring) : (updBring f s).hub = s.hub := rfl
@[simp] theorem updBring_rst (f : Bring → Bring) : (updBring f s).rst = s.rst := rfl
@[simp] theorem updBring_topo (f : Bring → Bring) : (updBring f s).topo = s.topo := rfl
@[simp] theorem updBring_svc (f : Bring → Bring) : (updBring f s).svc = s.svc := rfl
@[simp] theorem updBring_twin (f : Bring → Bring) : (updBring f s).twin = s.twin := rfl
@[simp] theorem updBring_camner (f : Bring → Bring) : (updBring f s).camner = s.camner := rfl
@[simp] theorem updBring_twinFlits (f : Bring → Bring) : (updBring f s).twinFlits = s.twinFlits := rfl
@[simp] theorem updBring_sec (f : Bring → Bring) : (updBring f s).sec = s.sec := rfl
@[simp] theorem updBring_power (f : Bring → Bring) : (updBring f s).power = s.power := rfl
@[simp] theorem updBring_therm (f : Bring → Bring) : (updBring f s).therm = s.therm := rfl
@[simp] theorem updBring_hubTherm (f : Bring → Bring) : (updBring f s).hubTherm = s.hubTherm := rfl
@[simp] theorem updBring_voff (f : Bring → Bring) : (updBring f s).voff = s.voff := rfl
@[simp] theorem updBring_theta (f : Bring → Bring) : (updBring f s).theta = s.theta := rfl
@[simp] theorem updBring_pins (f : Bring → Bring) : (updBring f s).pins = s.pins := rfl
@[simp] theorem updBring_freeCtr (f : Bring → Bring) : (updBring f s).freeCtr = s.freeCtr := rfl
@[simp] theorem getReg_updBring (f : Bring → Bring) (b : Nat) : getReg (updBring f s) b = getReg s b := rfl
@[simp] theorem getF_updBring (f : Bring → Bring) (b : Nat) (g : Fld) : getF (updBring f s) b g = getF s b g := rfl
@[simp] theorem getCore_updBring (f : Bring → Bring) (e : Stack) (c₁ : CoreIx) : getCore (updBring f s) e c₁ = getCore s e c₁ := rfl
@[simp] theorem getBp_updBring (f : Bring → Bring) (e : Stack) (c₁ : CoreIx) (i : Nat) : getBp (updBring f s) e c₁ i = getBp s e c₁ i := rfl
@[simp] theorem getVc_updBring (f : Bring → Bring) (e : Stack) (c₁ : CoreIx) : getVc (updBring f s) e c₁ = getVc s e c₁ := rfl
@[simp] theorem getLp_updBring (f : Bring → Bring) (e : Stack) : getLp (updBring f s) e = getLp s e := rfl
@[simp] theorem getRouter_updBring (f : Bring → Bring) (e : Stack) (q : Cluster) : getRouter (updBring f s) e q = getRouter s e q := rfl
@[simp] theorem getDie_updBring (f : Bring → Bring) (e : Stack) : getDie (updBring f s) e = getDie s e := rfl
@[simp] theorem getTherm_updBring (f : Bring → Bring) (e : Stack) : getTherm (updBring f s) e = getTherm s e := rfl
@[simp] theorem readByte_updBring (f : Bring → Bring) (i : Nat) : readByte (updBring f s) i = readByte s i := rfl

/-! ### updHubTherm -/

@[simp] theorem updHubTherm_pending (f : HubTherm → HubTherm) : (updHubTherm f s).pending = s.pending := rfl
@[simp] theorem updHubTherm_regs (f : HubTherm → HubTherm) : (updHubTherm f s).regs = s.regs := rfl
@[simp] theorem updHubTherm_mem (f : HubTherm → HubTherm) : (updHubTherm f s).mem = s.mem := rfl
@[simp] theorem updHubTherm_chk (f : HubTherm → HubTherm) : (updHubTherm f s).chk = s.chk := rfl
@[simp] theorem updHubTherm_cores (f : HubTherm → HubTherm) : (updHubTherm f s).cores = s.cores := rfl
@[simp] theorem updHubTherm_bps (f : HubTherm → HubTherm) : (updHubTherm f s).bps = s.bps := rfl
@[simp] theorem updHubTherm_vcs (f : HubTherm → HubTherm) : (updHubTherm f s).vcs = s.vcs := rfl
@[simp] theorem updHubTherm_lps (f : HubTherm → HubTherm) : (updHubTherm f s).lps = s.lps := rfl
@[simp] theorem updHubTherm_routers (f : HubTherm → HubTherm) : (updHubTherm f s).routers = s.routers := rfl
@[simp] theorem updHubTherm_dies (f : HubTherm → HubTherm) : (updHubTherm f s).dies = s.dies := rfl
@[simp] theorem updHubTherm_parts (f : HubTherm → HubTherm) : (updHubTherm f s).parts = s.parts := rfl
@[simp] theorem updHubTherm_present (f : HubTherm → HubTherm) : (updHubTherm f s).present = s.present := rfl
@[simp] theorem updHubTherm_loadedParts (f : HubTherm → HubTherm) : (updHubTherm f s).loadedParts = s.loadedParts := rfl
@[simp] theorem updHubTherm_flights (f : HubTherm → HubTherm) : (updHubTherm f s).flights = s.flights := rfl
@[simp] theorem updHubTherm_crossings (f : HubTherm → HubTherm) : (updHubTherm f s).crossings = s.crossings := rfl
@[simp] theorem updHubTherm_flash (f : HubTherm → HubTherm) : (updHubTherm f s).flash = s.flash := rfl
@[simp] theorem updHubTherm_hub (f : HubTherm → HubTherm) : (updHubTherm f s).hub = s.hub := rfl
@[simp] theorem updHubTherm_rst (f : HubTherm → HubTherm) : (updHubTherm f s).rst = s.rst := rfl
@[simp] theorem updHubTherm_bring (f : HubTherm → HubTherm) : (updHubTherm f s).bring = s.bring := rfl
@[simp] theorem updHubTherm_topo (f : HubTherm → HubTherm) : (updHubTherm f s).topo = s.topo := rfl
@[simp] theorem updHubTherm_svc (f : HubTherm → HubTherm) : (updHubTherm f s).svc = s.svc := rfl
@[simp] theorem updHubTherm_twin (f : HubTherm → HubTherm) : (updHubTherm f s).twin = s.twin := rfl
@[simp] theorem updHubTherm_camner (f : HubTherm → HubTherm) : (updHubTherm f s).camner = s.camner := rfl
@[simp] theorem updHubTherm_twinFlits (f : HubTherm → HubTherm) : (updHubTherm f s).twinFlits = s.twinFlits := rfl
@[simp] theorem updHubTherm_sec (f : HubTherm → HubTherm) : (updHubTherm f s).sec = s.sec := rfl
@[simp] theorem updHubTherm_power (f : HubTherm → HubTherm) : (updHubTherm f s).power = s.power := rfl
@[simp] theorem updHubTherm_therm (f : HubTherm → HubTherm) : (updHubTherm f s).therm = s.therm := rfl
@[simp] theorem updHubTherm_voff (f : HubTherm → HubTherm) : (updHubTherm f s).voff = s.voff := rfl
@[simp] theorem updHubTherm_theta (f : HubTherm → HubTherm) : (updHubTherm f s).theta = s.theta := rfl
@[simp] theorem updHubTherm_pins (f : HubTherm → HubTherm) : (updHubTherm f s).pins = s.pins := rfl
@[simp] theorem updHubTherm_freeCtr (f : HubTherm → HubTherm) : (updHubTherm f s).freeCtr = s.freeCtr := rfl
@[simp] theorem getReg_updHubTherm (f : HubTherm → HubTherm) (b : Nat) : getReg (updHubTherm f s) b = getReg s b := rfl
@[simp] theorem getF_updHubTherm (f : HubTherm → HubTherm) (b : Nat) (g : Fld) : getF (updHubTherm f s) b g = getF s b g := rfl
@[simp] theorem getCore_updHubTherm (f : HubTherm → HubTherm) (e : Stack) (c₁ : CoreIx) : getCore (updHubTherm f s) e c₁ = getCore s e c₁ := rfl
@[simp] theorem getBp_updHubTherm (f : HubTherm → HubTherm) (e : Stack) (c₁ : CoreIx) (i : Nat) : getBp (updHubTherm f s) e c₁ i = getBp s e c₁ i := rfl
@[simp] theorem getVc_updHubTherm (f : HubTherm → HubTherm) (e : Stack) (c₁ : CoreIx) : getVc (updHubTherm f s) e c₁ = getVc s e c₁ := rfl
@[simp] theorem getLp_updHubTherm (f : HubTherm → HubTherm) (e : Stack) : getLp (updHubTherm f s) e = getLp s e := rfl
@[simp] theorem getRouter_updHubTherm (f : HubTherm → HubTherm) (e : Stack) (q : Cluster) : getRouter (updHubTherm f s) e q = getRouter s e q := rfl
@[simp] theorem getDie_updHubTherm (f : HubTherm → HubTherm) (e : Stack) : getDie (updHubTherm f s) e = getDie s e := rfl
@[simp] theorem getTherm_updHubTherm (f : HubTherm → HubTherm) (e : Stack) : getTherm (updHubTherm f s) e = getTherm s e := rfl
@[simp] theorem readByte_updHubTherm (f : HubTherm → HubTherm) (i : Nat) : readByte (updHubTherm f s) i = readByte s i := rfl

/-! ### updI3c -/

@[simp] theorem updI3c_pending (f : I3c → I3c) : (updI3c f s).pending = s.pending := rfl
@[simp] theorem updI3c_regs (f : I3c → I3c) : (updI3c f s).regs = s.regs := rfl
@[simp] theorem updI3c_mem (f : I3c → I3c) : (updI3c f s).mem = s.mem := rfl
@[simp] theorem updI3c_chk (f : I3c → I3c) : (updI3c f s).chk = s.chk := rfl
@[simp] theorem updI3c_cores (f : I3c → I3c) : (updI3c f s).cores = s.cores := rfl
@[simp] theorem updI3c_bps (f : I3c → I3c) : (updI3c f s).bps = s.bps := rfl
@[simp] theorem updI3c_vcs (f : I3c → I3c) : (updI3c f s).vcs = s.vcs := rfl
@[simp] theorem updI3c_lps (f : I3c → I3c) : (updI3c f s).lps = s.lps := rfl
@[simp] theorem updI3c_routers (f : I3c → I3c) : (updI3c f s).routers = s.routers := rfl
@[simp] theorem updI3c_dies (f : I3c → I3c) : (updI3c f s).dies = s.dies := rfl
@[simp] theorem updI3c_parts (f : I3c → I3c) : (updI3c f s).parts = s.parts := rfl
@[simp] theorem updI3c_present (f : I3c → I3c) : (updI3c f s).present = s.present := rfl
@[simp] theorem updI3c_loadedParts (f : I3c → I3c) : (updI3c f s).loadedParts = s.loadedParts := rfl
@[simp] theorem updI3c_flights (f : I3c → I3c) : (updI3c f s).flights = s.flights := rfl
@[simp] theorem updI3c_crossings (f : I3c → I3c) : (updI3c f s).crossings = s.crossings := rfl
@[simp] theorem updI3c_flash (f : I3c → I3c) : (updI3c f s).flash = s.flash := rfl
@[simp] theorem updI3c_hub (f : I3c → I3c) : (updI3c f s).hub = s.hub := rfl
@[simp] theorem updI3c_rst (f : I3c → I3c) : (updI3c f s).rst = s.rst := rfl
@[simp] theorem updI3c_bring (f : I3c → I3c) : (updI3c f s).bring = s.bring := rfl
@[simp] theorem updI3c_topo (f : I3c → I3c) : (updI3c f s).topo = s.topo := rfl
@[simp] theorem updI3c_svc (f : I3c → I3c) : (updI3c f s).svc = s.svc := rfl
@[simp] theorem updI3c_twin (f : I3c → I3c) : (updI3c f s).twin = s.twin := rfl
@[simp] theorem updI3c_camner (f : I3c → I3c) : (updI3c f s).camner = s.camner := rfl
@[simp] theorem updI3c_twinFlits (f : I3c → I3c) : (updI3c f s).twinFlits = s.twinFlits := rfl
@[simp] theorem updI3c_sec (f : I3c → I3c) : (updI3c f s).sec = s.sec := rfl
@[simp] theorem updI3c_power (f : I3c → I3c) : (updI3c f s).power = s.power := rfl
@[simp] theorem updI3c_therm (f : I3c → I3c) : (updI3c f s).therm = s.therm := rfl
@[simp] theorem updI3c_hubTherm (f : I3c → I3c) : (updI3c f s).hubTherm = s.hubTherm := rfl
@[simp] theorem updI3c_voff (f : I3c → I3c) : (updI3c f s).voff = s.voff := rfl
@[simp] theorem updI3c_theta (f : I3c → I3c) : (updI3c f s).theta = s.theta := rfl
@[simp] theorem updI3c_freeCtr (f : I3c → I3c) : (updI3c f s).freeCtr = s.freeCtr := rfl
@[simp] theorem getReg_updI3c (f : I3c → I3c) (b : Nat) : getReg (updI3c f s) b = getReg s b := rfl
@[simp] theorem getF_updI3c (f : I3c → I3c) (b : Nat) (g : Fld) : getF (updI3c f s) b g = getF s b g := rfl
@[simp] theorem getCore_updI3c (f : I3c → I3c) (e : Stack) (c₁ : CoreIx) : getCore (updI3c f s) e c₁ = getCore s e c₁ := rfl
@[simp] theorem getBp_updI3c (f : I3c → I3c) (e : Stack) (c₁ : CoreIx) (i : Nat) : getBp (updI3c f s) e c₁ i = getBp s e c₁ i := rfl
@[simp] theorem getVc_updI3c (f : I3c → I3c) (e : Stack) (c₁ : CoreIx) : getVc (updI3c f s) e c₁ = getVc s e c₁ := rfl
@[simp] theorem getLp_updI3c (f : I3c → I3c) (e : Stack) : getLp (updI3c f s) e = getLp s e := rfl
@[simp] theorem getRouter_updI3c (f : I3c → I3c) (e : Stack) (q : Cluster) : getRouter (updI3c f s) e q = getRouter s e q := rfl
@[simp] theorem getDie_updI3c (f : I3c → I3c) (e : Stack) : getDie (updI3c f s) e = getDie s e := rfl
@[simp] theorem getTherm_updI3c (f : I3c → I3c) (e : Stack) : getTherm (updI3c f s) e = getTherm s e := rfl
@[simp] theorem readByte_updI3c (f : I3c → I3c) (i : Nat) : readByte (updI3c f s) i = readByte s i := rfl

/-! ### writeByte -/

@[simp] theorem writeByte_pending (k : Nat) (b : Byte) : (writeByte k b s).pending = s.pending := rfl
@[simp] theorem writeByte_regs (k : Nat) (b : Byte) : (writeByte k b s).regs = s.regs := rfl
@[simp] theorem writeByte_chk (k : Nat) (b : Byte) : (writeByte k b s).chk = s.chk := rfl
@[simp] theorem writeByte_cores (k : Nat) (b : Byte) : (writeByte k b s).cores = s.cores := rfl
@[simp] theorem writeByte_bps (k : Nat) (b : Byte) : (writeByte k b s).bps = s.bps := rfl
@[simp] theorem writeByte_vcs (k : Nat) (b : Byte) : (writeByte k b s).vcs = s.vcs := rfl
@[simp] theorem writeByte_lps (k : Nat) (b : Byte) : (writeByte k b s).lps = s.lps := rfl
@[simp] theorem writeByte_routers (k : Nat) (b : Byte) : (writeByte k b s).routers = s.routers := rfl
@[simp] theorem writeByte_dies (k : Nat) (b : Byte) : (writeByte k b s).dies = s.dies := rfl
@[simp] theorem writeByte_parts (k : Nat) (b : Byte) : (writeByte k b s).parts = s.parts := rfl
@[simp] theorem writeByte_present (k : Nat) (b : Byte) : (writeByte k b s).present = s.present := rfl
@[simp] theorem writeByte_loadedParts (k : Nat) (b : Byte) : (writeByte k b s).loadedParts = s.loadedParts := rfl
@[simp] theorem writeByte_flights (k : Nat) (b : Byte) : (writeByte k b s).flights = s.flights := rfl
@[simp] theorem writeByte_crossings (k : Nat) (b : Byte) : (writeByte k b s).crossings = s.crossings := rfl
@[simp] theorem writeByte_flash (k : Nat) (b : Byte) : (writeByte k b s).flash = s.flash := rfl
@[simp] theorem writeByte_hub (k : Nat) (b : Byte) : (writeByte k b s).hub = s.hub := rfl
@[simp] theorem writeByte_rst (k : Nat) (b : Byte) : (writeByte k b s).rst = s.rst := rfl
@[simp] theorem writeByte_bring (k : Nat) (b : Byte) : (writeByte k b s).bring = s.bring := rfl
@[simp] theorem writeByte_topo (k : Nat) (b : Byte) : (writeByte k b s).topo = s.topo := rfl
@[simp] theorem writeByte_svc (k : Nat) (b : Byte) : (writeByte k b s).svc = s.svc := rfl
@[simp] theorem writeByte_twin (k : Nat) (b : Byte) : (writeByte k b s).twin = s.twin := rfl
@[simp] theorem writeByte_camner (k : Nat) (b : Byte) : (writeByte k b s).camner = s.camner := rfl
@[simp] theorem writeByte_twinFlits (k : Nat) (b : Byte) : (writeByte k b s).twinFlits = s.twinFlits := rfl
@[simp] theorem writeByte_sec (k : Nat) (b : Byte) : (writeByte k b s).sec = s.sec := rfl
@[simp] theorem writeByte_power (k : Nat) (b : Byte) : (writeByte k b s).power = s.power := rfl
@[simp] theorem writeByte_therm (k : Nat) (b : Byte) : (writeByte k b s).therm = s.therm := rfl
@[simp] theorem writeByte_hubTherm (k : Nat) (b : Byte) : (writeByte k b s).hubTherm = s.hubTherm := rfl
@[simp] theorem writeByte_voff (k : Nat) (b : Byte) : (writeByte k b s).voff = s.voff := rfl
@[simp] theorem writeByte_theta (k : Nat) (b : Byte) : (writeByte k b s).theta = s.theta := rfl
@[simp] theorem writeByte_pins (k : Nat) (b : Byte) : (writeByte k b s).pins = s.pins := rfl
@[simp] theorem writeByte_freeCtr (k : Nat) (b : Byte) : (writeByte k b s).freeCtr = s.freeCtr := rfl
@[simp] theorem getReg_writeByte (k : Nat) (b : Byte) (b : Nat) : getReg (writeByte k b s) b = getReg s b := rfl
@[simp] theorem getF_writeByte (k : Nat) (b : Byte) (b : Nat) (g : Fld) : getF (writeByte k b s) b g = getF s b g := rfl
@[simp] theorem getCore_writeByte (k : Nat) (b : Byte) (e : Stack) (c₁ : CoreIx) : getCore (writeByte k b s) e c₁ = getCore s e c₁ := rfl
@[simp] theorem getBp_writeByte (k : Nat) (b : Byte) (e : Stack) (c₁ : CoreIx) (i : Nat) : getBp (writeByte k b s) e c₁ i = getBp s e c₁ i := rfl
@[simp] theorem getVc_writeByte (k : Nat) (b : Byte) (e : Stack) (c₁ : CoreIx) : getVc (writeByte k b s) e c₁ = getVc s e c₁ := rfl
@[simp] theorem getLp_writeByte (k : Nat) (b : Byte) (e : Stack) : getLp (writeByte k b s) e = getLp s e := rfl
@[simp] theorem getRouter_writeByte (k : Nat) (b : Byte) (e : Stack) (q : Cluster) : getRouter (writeByte k b s) e q = getRouter s e q := rfl
@[simp] theorem getDie_writeByte (k : Nat) (b : Byte) (e : Stack) : getDie (writeByte k b s) e = getDie s e := rfl
@[simp] theorem getTherm_writeByte (k : Nat) (b : Byte) (e : Stack) : getTherm (writeByte k b s) e = getTherm s e := rfl

/-! ### clearMem -/

@[simp] theorem clearMem_pending (k n : Nat) : (clearMem k n s).pending = s.pending := rfl
@[simp] theorem clearMem_regs (k n : Nat) : (clearMem k n s).regs = s.regs := rfl
@[simp] theorem clearMem_chk (k n : Nat) : (clearMem k n s).chk = s.chk := rfl
@[simp] theorem clearMem_cores (k n : Nat) : (clearMem k n s).cores = s.cores := rfl
@[simp] theorem clearMem_bps (k n : Nat) : (clearMem k n s).bps = s.bps := rfl
@[simp] theorem clearMem_vcs (k n : Nat) : (clearMem k n s).vcs = s.vcs := rfl
@[simp] theorem clearMem_lps (k n : Nat) : (clearMem k n s).lps = s.lps := rfl
@[simp] theorem clearMem_routers (k n : Nat) : (clearMem k n s).routers = s.routers := rfl
@[simp] theorem clearMem_dies (k n : Nat) : (clearMem k n s).dies = s.dies := rfl
@[simp] theorem clearMem_parts (k n : Nat) : (clearMem k n s).parts = s.parts := rfl
@[simp] theorem clearMem_present (k n : Nat) : (clearMem k n s).present = s.present := rfl
@[simp] theorem clearMem_loadedParts (k n : Nat) : (clearMem k n s).loadedParts = s.loadedParts := rfl
@[simp] theorem clearMem_flights (k n : Nat) : (clearMem k n s).flights = s.flights := rfl
@[simp] theorem clearMem_crossings (k n : Nat) : (clearMem k n s).crossings = s.crossings := rfl
@[simp] theorem clearMem_flash (k n : Nat) : (clearMem k n s).flash = s.flash := rfl
@[simp] theorem clearMem_hub (k n : Nat) : (clearMem k n s).hub = s.hub := rfl
@[simp] theorem clearMem_rst (k n : Nat) : (clearMem k n s).rst = s.rst := rfl
@[simp] theorem clearMem_bring (k n : Nat) : (clearMem k n s).bring = s.bring := rfl
@[simp] theorem clearMem_topo (k n : Nat) : (clearMem k n s).topo = s.topo := rfl
@[simp] theorem clearMem_svc (k n : Nat) : (clearMem k n s).svc = s.svc := rfl
@[simp] theorem clearMem_twin (k n : Nat) : (clearMem k n s).twin = s.twin := rfl
@[simp] theorem clearMem_camner (k n : Nat) : (clearMem k n s).camner = s.camner := rfl
@[simp] theorem clearMem_twinFlits (k n : Nat) : (clearMem k n s).twinFlits = s.twinFlits := rfl
@[simp] theorem clearMem_sec (k n : Nat) : (clearMem k n s).sec = s.sec := rfl
@[simp] theorem clearMem_power (k n : Nat) : (clearMem k n s).power = s.power := rfl
@[simp] theorem clearMem_therm (k n : Nat) : (clearMem k n s).therm = s.therm := rfl
@[simp] theorem clearMem_hubTherm (k n : Nat) : (clearMem k n s).hubTherm = s.hubTherm := rfl
@[simp] theorem clearMem_voff (k n : Nat) : (clearMem k n s).voff = s.voff := rfl
@[simp] theorem clearMem_theta (k n : Nat) : (clearMem k n s).theta = s.theta := rfl
@[simp] theorem clearMem_pins (k n : Nat) : (clearMem k n s).pins = s.pins := rfl
@[simp] theorem clearMem_freeCtr (k n : Nat) : (clearMem k n s).freeCtr = s.freeCtr := rfl
@[simp] theorem getReg_clearMem (k n : Nat) (b : Nat) : getReg (clearMem k n s) b = getReg s b := rfl
@[simp] theorem getF_clearMem (k n : Nat) (b : Nat) (g : Fld) : getF (clearMem k n s) b g = getF s b g := rfl
@[simp] theorem getCore_clearMem (k n : Nat) (e : Stack) (c₁ : CoreIx) : getCore (clearMem k n s) e c₁ = getCore s e c₁ := rfl
@[simp] theorem getBp_clearMem (k n : Nat) (e : Stack) (c₁ : CoreIx) (i : Nat) : getBp (clearMem k n s) e c₁ i = getBp s e c₁ i := rfl
@[simp] theorem getVc_clearMem (k n : Nat) (e : Stack) (c₁ : CoreIx) : getVc (clearMem k n s) e c₁ = getVc s e c₁ := rfl
@[simp] theorem getLp_clearMem (k n : Nat) (e : Stack) : getLp (clearMem k n s) e = getLp s e := rfl
@[simp] theorem getRouter_clearMem (k n : Nat) (e : Stack) (q : Cluster) : getRouter (clearMem k n s) e q = getRouter s e q := rfl
@[simp] theorem getDie_clearMem (k n : Nat) (e : Stack) : getDie (clearMem k n s) e = getDie s e := rfl
@[simp] theorem getTherm_clearMem (k n : Nat) (e : Stack) : getTherm (clearMem k n s) e = getTherm s e := rfl

/-! ### writeChk -/

@[simp] theorem writeChk_pending (k : Nat) (v : BitVec 64) : (writeChk k v s).pending = s.pending := rfl
@[simp] theorem writeChk_regs (k : Nat) (v : BitVec 64) : (writeChk k v s).regs = s.regs := rfl
@[simp] theorem writeChk_mem (k : Nat) (v : BitVec 64) : (writeChk k v s).mem = s.mem := rfl
@[simp] theorem writeChk_cores (k : Nat) (v : BitVec 64) : (writeChk k v s).cores = s.cores := rfl
@[simp] theorem writeChk_bps (k : Nat) (v : BitVec 64) : (writeChk k v s).bps = s.bps := rfl
@[simp] theorem writeChk_vcs (k : Nat) (v : BitVec 64) : (writeChk k v s).vcs = s.vcs := rfl
@[simp] theorem writeChk_lps (k : Nat) (v : BitVec 64) : (writeChk k v s).lps = s.lps := rfl
@[simp] theorem writeChk_routers (k : Nat) (v : BitVec 64) : (writeChk k v s).routers = s.routers := rfl
@[simp] theorem writeChk_dies (k : Nat) (v : BitVec 64) : (writeChk k v s).dies = s.dies := rfl
@[simp] theorem writeChk_parts (k : Nat) (v : BitVec 64) : (writeChk k v s).parts = s.parts := rfl
@[simp] theorem writeChk_present (k : Nat) (v : BitVec 64) : (writeChk k v s).present = s.present := rfl
@[simp] theorem writeChk_loadedParts (k : Nat) (v : BitVec 64) : (writeChk k v s).loadedParts = s.loadedParts := rfl
@[simp] theorem writeChk_flights (k : Nat) (v : BitVec 64) : (writeChk k v s).flights = s.flights := rfl
@[simp] theorem writeChk_crossings (k : Nat) (v : BitVec 64) : (writeChk k v s).crossings = s.crossings := rfl
@[simp] theorem writeChk_flash (k : Nat) (v : BitVec 64) : (writeChk k v s).flash = s.flash := rfl
@[simp] theorem writeChk_hub (k : Nat) (v : BitVec 64) : (writeChk k v s).hub = s.hub := rfl
@[simp] theorem writeChk_rst (k : Nat) (v : BitVec 64) : (writeChk k v s).rst = s.rst := rfl
@[simp] theorem writeChk_bring (k : Nat) (v : BitVec 64) : (writeChk k v s).bring = s.bring := rfl
@[simp] theorem writeChk_topo (k : Nat) (v : BitVec 64) : (writeChk k v s).topo = s.topo := rfl
@[simp] theorem writeChk_svc (k : Nat) (v : BitVec 64) : (writeChk k v s).svc = s.svc := rfl
@[simp] theorem writeChk_twin (k : Nat) (v : BitVec 64) : (writeChk k v s).twin = s.twin := rfl
@[simp] theorem writeChk_camner (k : Nat) (v : BitVec 64) : (writeChk k v s).camner = s.camner := rfl
@[simp] theorem writeChk_twinFlits (k : Nat) (v : BitVec 64) : (writeChk k v s).twinFlits = s.twinFlits := rfl
@[simp] theorem writeChk_sec (k : Nat) (v : BitVec 64) : (writeChk k v s).sec = s.sec := rfl
@[simp] theorem writeChk_power (k : Nat) (v : BitVec 64) : (writeChk k v s).power = s.power := rfl
@[simp] theorem writeChk_therm (k : Nat) (v : BitVec 64) : (writeChk k v s).therm = s.therm := rfl
@[simp] theorem writeChk_hubTherm (k : Nat) (v : BitVec 64) : (writeChk k v s).hubTherm = s.hubTherm := rfl
@[simp] theorem writeChk_voff (k : Nat) (v : BitVec 64) : (writeChk k v s).voff = s.voff := rfl
@[simp] theorem writeChk_theta (k : Nat) (v : BitVec 64) : (writeChk k v s).theta = s.theta := rfl
@[simp] theorem writeChk_pins (k : Nat) (v : BitVec 64) : (writeChk k v s).pins = s.pins := rfl
@[simp] theorem writeChk_freeCtr (k : Nat) (v : BitVec 64) : (writeChk k v s).freeCtr = s.freeCtr := rfl
@[simp] theorem getReg_writeChk (k : Nat) (v : BitVec 64) (b : Nat) : getReg (writeChk k v s) b = getReg s b := rfl
@[simp] theorem getF_writeChk (k : Nat) (v : BitVec 64) (b : Nat) (g : Fld) : getF (writeChk k v s) b g = getF s b g := rfl
@[simp] theorem getCore_writeChk (k : Nat) (v : BitVec 64) (e : Stack) (c₁ : CoreIx) : getCore (writeChk k v s) e c₁ = getCore s e c₁ := rfl
@[simp] theorem getBp_writeChk (k : Nat) (v : BitVec 64) (e : Stack) (c₁ : CoreIx) (i : Nat) : getBp (writeChk k v s) e c₁ i = getBp s e c₁ i := rfl
@[simp] theorem getVc_writeChk (k : Nat) (v : BitVec 64) (e : Stack) (c₁ : CoreIx) : getVc (writeChk k v s) e c₁ = getVc s e c₁ := rfl
@[simp] theorem getLp_writeChk (k : Nat) (v : BitVec 64) (e : Stack) : getLp (writeChk k v s) e = getLp s e := rfl
@[simp] theorem getRouter_writeChk (k : Nat) (v : BitVec 64) (e : Stack) (q : Cluster) : getRouter (writeChk k v s) e q = getRouter s e q := rfl
@[simp] theorem getDie_writeChk (k : Nat) (v : BitVec 64) (e : Stack) : getDie (writeChk k v s) e = getDie s e := rfl
@[simp] theorem getTherm_writeChk (k : Nat) (v : BitVec 64) (e : Stack) : getTherm (writeChk k v s) e = getTherm s e := rfl
@[simp] theorem readByte_writeChk (k : Nat) (v : BitVec 64) (i : Nat) : readByte (writeChk k v s) i = readByte s i := rfl

/-! ### initMem -/

@[simp] theorem initMem_pending (k n : Nat) : (initMem k n s).pending = s.pending := rfl
@[simp] theorem initMem_regs (k n : Nat) : (initMem k n s).regs = s.regs := rfl
@[simp] theorem initMem_cores (k n : Nat) : (initMem k n s).cores = s.cores := rfl
@[simp] theorem initMem_bps (k n : Nat) : (initMem k n s).bps = s.bps := rfl
@[simp] theorem initMem_vcs (k n : Nat) : (initMem k n s).vcs = s.vcs := rfl
@[simp] theorem initMem_lps (k n : Nat) : (initMem k n s).lps = s.lps := rfl
@[simp] theorem initMem_routers (k n : Nat) : (initMem k n s).routers = s.routers := rfl
@[simp] theorem initMem_dies (k n : Nat) : (initMem k n s).dies = s.dies := rfl
@[simp] theorem initMem_parts (k n : Nat) : (initMem k n s).parts = s.parts := rfl
@[simp] theorem initMem_present (k n : Nat) : (initMem k n s).present = s.present := rfl
@[simp] theorem initMem_loadedParts (k n : Nat) : (initMem k n s).loadedParts = s.loadedParts := rfl
@[simp] theorem initMem_flights (k n : Nat) : (initMem k n s).flights = s.flights := rfl
@[simp] theorem initMem_crossings (k n : Nat) : (initMem k n s).crossings = s.crossings := rfl
@[simp] theorem initMem_flash (k n : Nat) : (initMem k n s).flash = s.flash := rfl
@[simp] theorem initMem_hub (k n : Nat) : (initMem k n s).hub = s.hub := rfl
@[simp] theorem initMem_rst (k n : Nat) : (initMem k n s).rst = s.rst := rfl
@[simp] theorem initMem_bring (k n : Nat) : (initMem k n s).bring = s.bring := rfl
@[simp] theorem initMem_topo (k n : Nat) : (initMem k n s).topo = s.topo := rfl
@[simp] theorem initMem_svc (k n : Nat) : (initMem k n s).svc = s.svc := rfl
@[simp] theorem initMem_twin (k n : Nat) : (initMem k n s).twin = s.twin := rfl
@[simp] theorem initMem_camner (k n : Nat) : (initMem k n s).camner = s.camner := rfl
@[simp] theorem initMem_twinFlits (k n : Nat) : (initMem k n s).twinFlits = s.twinFlits := rfl
@[simp] theorem initMem_sec (k n : Nat) : (initMem k n s).sec = s.sec := rfl
@[simp] theorem initMem_power (k n : Nat) : (initMem k n s).power = s.power := rfl
@[simp] theorem initMem_therm (k n : Nat) : (initMem k n s).therm = s.therm := rfl
@[simp] theorem initMem_hubTherm (k n : Nat) : (initMem k n s).hubTherm = s.hubTherm := rfl
@[simp] theorem initMem_voff (k n : Nat) : (initMem k n s).voff = s.voff := rfl
@[simp] theorem initMem_theta (k n : Nat) : (initMem k n s).theta = s.theta := rfl
@[simp] theorem initMem_pins (k n : Nat) : (initMem k n s).pins = s.pins := rfl
@[simp] theorem initMem_freeCtr (k n : Nat) : (initMem k n s).freeCtr = s.freeCtr := rfl
@[simp] theorem getReg_initMem (k n : Nat) (b : Nat) : getReg (initMem k n s) b = getReg s b := rfl
@[simp] theorem getF_initMem (k n : Nat) (b : Nat) (g : Fld) : getF (initMem k n s) b g = getF s b g := rfl
@[simp] theorem getCore_initMem (k n : Nat) (e : Stack) (c₁ : CoreIx) : getCore (initMem k n s) e c₁ = getCore s e c₁ := rfl
@[simp] theorem getBp_initMem (k n : Nat) (e : Stack) (c₁ : CoreIx) (i : Nat) : getBp (initMem k n s) e c₁ i = getBp s e c₁ i := rfl
@[simp] theorem getVc_initMem (k n : Nat) (e : Stack) (c₁ : CoreIx) : getVc (initMem k n s) e c₁ = getVc s e c₁ := rfl
@[simp] theorem getLp_initMem (k n : Nat) (e : Stack) : getLp (initMem k n s) e = getLp s e := rfl
@[simp] theorem getRouter_initMem (k n : Nat) (e : Stack) (q : Cluster) : getRouter (initMem k n s) e q = getRouter s e q := rfl
@[simp] theorem getDie_initMem (k n : Nat) (e : Stack) : getDie (initMem k n s) e = getDie s e := rfl
@[simp] theorem getTherm_initMem (k n : Nat) (e : Stack) : getTherm (initMem k n s) e = getTherm s e := rfl

end Sys2Proof.Machine
end

