-- ==== Sys2Proof/Laws/Ops.lean ====
section
/-! SUPPORT. What the operations of Ops.lean do: what is written reads back, everything else reads as before, and the state stays in
canonical form. -/
namespace Sys2Proof.Machine

variable {s : State}

/-! ### Canonical form -/

theorem Keeps.canonical {z s : State} (h : Keeps z s) (hz : z.canon = true) : s.canon = true := h.canon hz

@[simp] theorem canon_putReg (a : Nat) (v : Word) (h : s.canon = true) : (putReg s a v).canon = true :=
  (putReg_keeps a v (Keeps.refl s)).canon h

@[simp] theorem canon_putF (a : Nat) (f : Fld) (n : Nat) (h : s.canon = true) : (putF a f n s).canon = true :=
  (putF_keeps a f n (Keeps.refl s)).canon h

@[simp] theorem canon_updCore (d : Stack) (c : CoreIx) (f : Core → Core) (h : s.canon = true) : (updCore d c f s).canon = true :=
  (updCore_keeps d c f (Keeps.refl s)).canon h

@[simp] theorem canon_updBp (d : Stack) (c : CoreIx) (j : Nat) (f : Bp → Bp) (h : s.canon = true) : (updBp d c j f s).canon = true :=
  (updBp_keeps d c j f (Keeps.refl s)).canon h

@[simp] theorem canon_updVc (d : Stack) (c : CoreIx) (f : Vc → Vc) (h : s.canon = true) : (updVc d c f s).canon = true :=
  (updVc_keeps d c f (Keeps.refl s)).canon h

@[simp] theorem canon_updLp (d : Stack) (f : Lp → Lp) (h : s.canon = true) : (updLp d f s).canon = true :=
  (updLp_keeps d f (Keeps.refl s)).canon h

@[simp] theorem canon_updDie (d : Stack) (f : Die → Die) (h : s.canon = true) : (updDie d f s).canon = true :=
  (updDie_keeps d f (Keeps.refl s)).canon h

@[simp] theorem canon_updRouter (d : Stack) (k : Cluster) (f : Router → Router) (h : s.canon = true) :
    (updRouter d k f s).canon = true :=
  (updRouter_keeps d k f (Keeps.refl s)).canon h

@[simp] theorem canon_updTherm (d : Stack) (f : DieTherm → DieTherm) (h : s.canon = true) : (updTherm d f s).canon = true :=
  (updTherm_keeps d f (Keeps.refl s)).canon h

@[simp] theorem canon_updHub (f : Hub → Hub) (h : s.canon = true) : (updHub f s).canon = true :=
  (updHub_keeps f (Keeps.refl s)).canon h

@[simp] theorem canon_updSvc (f : Svc → Svc) (h : s.canon = true) : (updSvc f s).canon = true :=
  (updSvc_keeps f (Keeps.refl s)).canon h

@[simp] theorem canon_writeByte (k : Nat) (b : Byte) (h : s.canon = true) : (writeByte k b s).canon = true :=
  (writeByte_keeps k b (Keeps.refl s)).canon h

@[simp] theorem canon_writeMem (k n v : Nat) (h : s.canon = true) : (writeMem k n v s).canon = true :=
  (writeMem_keeps n k v (Keeps.refl s)).canon h

@[simp] theorem canon_clearMem (k n : Nat) (h : s.canon = true) : (clearMem k n s).canon = true :=
  (clearMem_keeps k n (Keeps.refl s)).canon h

/-- Every operation over memory keeps its canonical form. -/
theorem memWf_of_canon (h : s.canon = true) : memWf s.mem = true := (canon_iff.1 h).2.1

theorem memWf_writeByte (k : Nat) (b : Byte) (h : memWf s.mem = true) : memWf (writeByte k b s).mem = true :=
  canonical_sput (d := fun _ => (0#8)) h

theorem memWf_writeMem (n : Nat) : ∀ (k v : Nat) {s : State}, memWf s.mem = true → memWf (writeMem k n v s).mem = true := by
  induction n with
  | zero => intro k v s h; exact h
  | succ n ih => intro k v s h; exact ih _ _ (memWf_writeByte _ _ h)

theorem memWf_clearMem (k n : Nat) (h : memWf s.mem = true) : memWf (clearMem k n s).mem = true :=
  canonical_filter (d := fun _ => (0#8)) h

theorem memWf_initMem (k n : Nat) (h : memWf s.mem = true) : memWf (initMem k n s).mem = true :=
  canonical_filter (d := fun _ => (0#8)) h

/-! ### Registers -/

theorem getReg_putReg_same (a : Nat) (v : Word) (h : s.canon = true) : getReg (putReg s a v) a = v :=
  sget_sput_same (canonical_iff.1 (canon_iff.1 h).1).1

theorem getReg_putReg_other {a b : Nat} (v : Word) (h : b ≠ a) : getReg (putReg s a v) b = getReg s b :=
  sget_sput_other h

/-- A field lies inside a register. -/
abbrev fldFits (f : Fld) : Prop := f.lo + f.width ≤ 64

theorem fieldOf_lt (f : Fld) (v : Word) : fieldOf f v < 2 ^ f.width := Nat.mod_lt _ (Nat.two_pow_pos _)

/-- A number split at a field: what lies above it, the field, and what lies below it. -/
theorem split_field (lo w v : Nat) :
    v = 2 ^ (lo + w) * (v / 2 ^ (lo + w)) + 2 ^ lo * (v / 2 ^ lo % 2 ^ w) + v % 2 ^ lo := by
  have h1 := Nat.div_add_mod v (2 ^ lo)
  have h2 := Nat.div_add_mod (v / 2 ^ lo) (2 ^ w)
  rw [Nat.div_div_eq_div_mul, ← Nat.pow_add] at h2
  have h3 : 2 ^ lo * (v / 2 ^ lo) = 2 ^ lo * (2 ^ w * (v / 2 ^ (lo + w))) + 2 ^ lo * (v / 2 ^ lo % 2 ^ w) := by
    rw [← Nat.mul_add, h2]
  rw [← Nat.mul_assoc, ← Nat.pow_add] at h3
  omega

/-- A number joined from the three parts. -/
def joinField (lo w hi mid low : Nat) : Nat := 2 ^ (lo + w) * hi + 2 ^ lo * mid + low

theorem joinField_low {lo w hi mid low : Nat} (hl : low < 2 ^ lo) : joinField lo w hi mid low % 2 ^ lo = low := by
  unfold joinField
  rw [Nat.pow_add, Nat.mul_assoc, ← Nat.mul_add, Nat.mul_add_mod, Nat.mod_eq_of_lt hl]

theorem joinField_div {lo w hi mid low : Nat} (hl : low < 2 ^ lo) : joinField lo w hi mid low / 2 ^ lo = 2 ^ w * hi + mid := by
  unfold joinField
  rw [Nat.pow_add, Nat.mul_assoc, ← Nat.mul_add, Nat.mul_add_div (Nat.two_pow_pos _), Nat.div_eq_of_lt hl, Nat.add_zero]

theorem joinField_mid {lo w hi mid low : Nat} (hl : low < 2 ^ lo) (hm : mid < 2 ^ w) :
    joinField lo w hi mid low / 2 ^ lo % 2 ^ w = mid := by
  rw [joinField_div hl, Nat.mul_add_mod, Nat.mod_eq_of_lt hm]

theorem joinField_hi {lo w hi mid low : Nat} (hl : low < 2 ^ lo) (hm : mid < 2 ^ w) :
    joinField lo w hi mid low / 2 ^ (lo + w) = hi := by
  rw [Nat.pow_add, ← Nat.div_div_eq_div_mul, joinField_div hl, Nat.mul_add_div (Nat.two_pow_pos _), Nat.div_eq_of_lt hm, Nat.add_zero]

theorem withField_toNat {f : Fld} (hf : fldFits f) (v : Word) (n : Nat) :
    (withField f v n).toNat = joinField f.lo f.width (v.toNat / 2 ^ (f.lo + f.width)) (n % 2 ^ f.width) (v.toNat % 2 ^ f.lo) := by
  obtain ⟨lo, w⟩ := f
  unfold fldFits at hf
  simp only at hf ⊢
  have hs := split_field lo w v.toNat
  have hn : n % 2 ^ w < 2 ^ w := Nat.mod_lt _ (Nat.two_pow_pos _)
  have hl : v.toNat % 2 ^ lo < 2 ^ lo := Nat.mod_lt _ (Nat.two_pow_pos _)
  have hh : v.toNat / 2 ^ (lo + w) < 2 ^ (64 - (lo + w)) := by
    rw [Nat.div_lt_iff_lt_mul (Nat.two_pow_pos _), ← Nat.pow_add, Nat.sub_add_cancel hf]
    exact v.isLt
  have h1 : 2 ^ (lo + w) * (v.toNat / 2 ^ (lo + w) + 1) ≤ 2 ^ (lo + w) * 2 ^ (64 - (lo + w)) := Nat.mul_le_mul_left _ hh
  have h2 : 2 ^ lo * (n % 2 ^ w + 1) ≤ 2 ^ lo * 2 ^ w := Nat.mul_le_mul_left _ hn
  rw [← Nat.pow_add, Nat.add_sub_cancel' hf, Nat.mul_succ] at h1
  rw [← Nat.pow_add, Nat.mul_succ] at h2
  unfold withField fieldOf joinField
  rw [BitVec.toNat_ofNat]
  generalize 2 ^ (lo + w) * (v.toNat / 2 ^ (lo + w)) = T at *
  generalize 2 ^ lo * (v.toNat / 2 ^ lo % 2 ^ w) = M at *
  generalize 2 ^ lo * (n % 2 ^ w) = N at *
  rw [Nat.mod_eq_of_lt] <;> omega

/-- A field that is written reads back, cut to its width. -/
theorem fieldOf_withField_same {f : Fld} (hf : fldFits f) (v : Word) (n : Nat) : fieldOf f (withField f v n) = n % 2 ^ f.width := by
  unfold fieldOf
  rw [withField_toNat hf, joinField_mid (Nat.mod_lt _ (Nat.two_pow_pos _)) (Nat.mod_lt _ (Nat.two_pow_pos _))]

/-- Two fields with no bit in common. -/
abbrev fldApart (f g : Fld) : Prop := f.lo + f.width ≤ g.lo ∨ g.lo + g.width ≤ f.lo

/-- A field apart from the one that is written reads as before. -/
theorem fieldOf_withField_other {f g : Fld} (hf : fldFits f) (h : fldApart f g) (v : Word) (n : Nat) :
    fieldOf g (withField f v n) = fieldOf g v := by
  have hl : v.toNat % 2 ^ f.lo < 2 ^ f.lo := Nat.mod_lt _ (Nat.two_pow_pos _)
  have hn : n % 2 ^ f.width < 2 ^ f.width := Nat.mod_lt _ (Nat.two_pow_pos _)
  unfold fieldOf
  rw [withField_toNat hf]
  rcases h with h | h
  · obtain ⟨k, hk⟩ := Nat.exists_eq_add_of_le h
    have div : ∀ x : Nat, x / 2 ^ g.lo = x / 2 ^ (f.lo + f.width) / 2 ^ k := by
      intro x
      rw [hk, Nat.pow_add _ (f.lo + f.width) k, Nat.div_div_eq_div_mul]
    rw [div, div v.toNat, joinField_hi hl hn]
  · obtain ⟨k, hk⟩ := Nat.exists_eq_add_of_le h
    have low : ∀ x : Nat, x / 2 ^ g.lo % 2 ^ g.width = x % 2 ^ f.lo / 2 ^ g.lo % 2 ^ g.width := by
      intro x
      rw [hk, Nat.add_assoc, Nat.pow_add, Nat.mod_mul_right_div_self, Nat.pow_add, Nat.mod_mul_right_mod]
    rw [low, low v.toNat, joinField_low hl]

theorem getF_putF_same {a : Nat} {f : Fld} (hf : fldFits f) (n : Nat) (h : s.canon = true) : getF (putF a f n s) a f = n % 2 ^ f.width := by
  unfold getF putF
  rw [getReg_putReg_same _ _ h, fieldOf_withField_same hf]

theorem getF_putF_field {a : Nat} {f g : Fld} (hf : fldFits f) (hg : fldApart f g) (n : Nat) (h : s.canon = true) :
    getF (putF a f n s) a g = getF s a g := by
  unfold getF putF
  rw [getReg_putReg_same _ _ h, fieldOf_withField_other hf hg]

theorem getReg_putF_other {a b : Nat} (f : Fld) (n : Nat) (h : b ≠ a) : getReg (putF a f n s) b = getReg s b :=
  getReg_putReg_other _ h

theorem getF_putF_other {a b : Nat} (f g : Fld) (n : Nat) (h : b ≠ a) : getF (putF a f n s) b g = getF s b g := by
  unfold getF
  rw [getReg_putF_other _ _ h]

/-- A write of a field changes its own bits only. -/
theorem getF_putF_apart {a b : Nat} {f g : Fld} (hf : fldFits f) (hg : b ≠ a ∨ fldApart f g) (n : Nat) (h : s.canon = true) :
    getF (putF a f n s) b g = getF s b g := by
  by_cases e : b = a
  · subst e
    exact getF_putF_field hf (hg.resolve_left fun h => h rfl) n h
  · exact getF_putF_other _ _ _ e

/-! ### The parts of the module -/

theorem coreNo_inj {d e : Stack} {c k : CoreIx} (h : coreNo d c = coreNo e k) : d = e ∧ c = k := by
  unfold coreNo at h
  have := c.isLt
  have := k.isLt
  exact ⟨Fin.ext (by omega), Fin.ext (by omega)⟩

theorem getCore_updCore_same (d : Stack) (c : CoreIx) (f : Core → Core) (h : s.canon = true) :
    getCore (updCore d c f s) d c = f (getCore s d c) :=
  sget_sput_same (canonical_iff.1 (canon_iff.1 h).2.2.2.1).1

theorem getCore_updCore_other {d e : Stack} {c k : CoreIx} (f : Core → Core) (h : ¬(e = d ∧ k = c)) :
    getCore (updCore d c f s) e k = getCore s e k :=
  sget_sput_other fun x => h (coreNo_inj x)

theorem bpNo_inj {d e : Stack} {c k : CoreIx} {i j : Nat} (hi : i < 24) (hj : j < 24) (h : bpNo d c i = bpNo e k j) :
    (d = e ∧ c = k) ∧ i = j := by
  unfold bpNo at h
  have : coreNo d c = coreNo e k := by omega
  exact ⟨coreNo_inj this, by omega⟩

theorem getBp_updBp_same (d : Stack) (c : CoreIx) (j : Nat) (f : Bp → Bp) (h : s.canon = true) :
    getBp (updBp d c j f s) d c j = f (getBp s d c j) :=
  sget_sput_same (canonical_iff.1 (canon_iff.1 h).2.2.2.2.1).1

theorem getBp_updBp_other {d e : Stack} {c k : CoreIx} {i j : Nat} (f : Bp → Bp) (hj : j < 24) (hi : i < 24)
    (h : ¬((e = d ∧ k = c) ∧ i = j)) : getBp (updBp d c j f s) e k i = getBp s e k i :=
  sget_sput_other fun x => h (bpNo_inj hi hj x)

theorem getVc_updVc_same (d : Stack) (c : CoreIx) (f : Vc → Vc) (h : s.canon = true) :
    getVc (updVc d c f s) d c = f (getVc s d c) :=
  sget_sput_same (canonical_iff.1 (canon_iff.1 h).2.2.2.2.2.1).1

theorem getVc_updVc_other {d e : Stack} {c k : CoreIx} (f : Vc → Vc) (h : ¬(e = d ∧ k = c)) :
    getVc (updVc d c f s) e k = getVc s e k :=
  sget_sput_other fun x => h (coreNo_inj x)

theorem getLp_updLp_same (d : Stack) (f : Lp → Lp) (h : s.canon = true) : getLp (updLp d f s) d = f (getLp s d) :=
  sget_sput_same (canonical_iff.1 (canon_iff.1 h).2.2.2.2.2.2.1).1

theorem getLp_updLp_other {d e : Stack} (f : Lp → Lp) (h : e ≠ d) : getLp (updLp d f s) e = getLp s e :=
  sget_sput_other fun x => h (Fin.ext x)

theorem getRouter_updRouter_same (d : Stack) (k : Cluster) (f : Router → Router) (h : s.canon = true) :
    getRouter (updRouter d k f s) d k = f (getRouter s d k) :=
  sget_sput_same (canonical_iff.1 (canon_iff.1 h).2.2.2.2.2.2.2.1).1

theorem getDie_updDie_same (d : Stack) (f : Die → Die) (h : s.canon = true) : getDie (updDie d f s) d = f (getDie s d) :=
  sget_sput_same (canonical_iff.1 (canon_iff.1 h).2.2.2.2.2.2.2.2.1).1

theorem getDie_updDie_other {d e : Stack} (f : Die → Die) (h : e ≠ d) : getDie (updDie d f s) e = getDie s e :=
  sget_sput_other fun x => h (Fin.ext x)

theorem getTherm_updTherm_same (d : Stack) (f : DieTherm → DieTherm) (h : s.canon = true) :
    getTherm (updTherm d f s) d = f (getTherm s d) :=
  sget_sput_same (canonical_iff.1 (canon_iff.1 h).2.2.2.2.2.2.2.2.2.1).1

/-! ### Memory -/

theorem readByte_writeByte_same (k : Nat) (b : Byte) (h : memWf s.mem = true) : readByte (writeByte k b s) k = b :=
  sget_sput_same (canonical_iff.1 h).1

theorem readByte_writeByte_other {k i : Nat} (b : Byte) (h : i ≠ k) : readByte (writeByte k b s) i = readByte s i :=
  sget_sput_other h

/-- Bytes outside a write read as before. -/
theorem readByte_writeMem_outside (n : Nat) : ∀ (k v : Nat) {i : Nat} {s : State}, (i < k ∨ k + n ≤ i) →
    readByte (writeMem k n v s) i = readByte s i := by
  induction n with
  | zero => intro k v i s _; rfl
  | succ n ih =>
    intro k v i s h
    unfold writeMem
    rw [ih _ _ (by omega), readByte_writeByte_other _ (by omega)]

/-- Bytes inside a write read what was written, lowest byte first. -/
theorem readByte_writeMem_inside (n : Nat) : ∀ (k v : Nat) {i : Nat} {s : State}, memWf s.mem = true → i < n →
    readByte (writeMem k n v s) (k + i) = BitVec.ofNat 8 (v / 256 ^ i) := by
  induction n with
  | zero => intro k v i s _ h; omega
  | succ n ih =>
    intro k v i s hs h
    unfold writeMem
    cases i with
    | zero => rw [readByte_writeMem_outside _ _ _ (by omega)]; simpa using readByte_writeByte_same k _ hs
    | succ i =>
      rw [show k + (i + 1) = k + 1 + i by omega, ih _ _ (memWf_writeByte _ _ hs) (by omega), Nat.div_div_eq_div_mul, Nat.pow_succ,
        Nat.mul_comm]

/-- What is read after a write of the same bytes is what was written. -/
theorem readMem_writeMem (n : Nat) : ∀ (k v : Nat) {s : State}, memWf s.mem = true →
    readMem (writeMem k n v s) k n = v % 256 ^ n := by
  have key : ∀ (m k v : Nat) (t : State), (∀ i, i < m → readByte t (k + i) = BitVec.ofNat 8 (v / 256 ^ i)) →
      readMem t k m = v % 256 ^ m := by
    intro m
    induction m with
    | zero => intro k v t _; simp [readMem, Nat.mod_one]
    | succ m ih =>
      intro k v t h
      have h0 := h 0 (by omega)
      have h1 := ih (k + 1) (v / 256) t fun i hi => by
        rw [show k + 1 + i = k + (i + 1) by omega, h (i + 1) (by omega), Nat.div_div_eq_div_mul, Nat.pow_succ, Nat.mul_comm]
      unfold readMem
      rw [Nat.add_zero, Nat.pow_zero, Nat.div_one] at h0
      have h2 : (256 : Nat) ^ (m + 1) = 256 * 256 ^ m := Nat.pow_succ'
      rw [h1, h0, BitVec.toNat_ofNat, h2, Nat.mod_mul]
  intro k v s hs
  exact key n k v _ fun i hi => readByte_writeMem_inside n k v hs hi

theorem sget_filter {α : Type} {d : α} {p : Nat × α → Bool} {i : Nat} (h : ∀ v, p (i, v) = true) :
    ∀ m : SMap α, sget d (m.filter p) i = sget d m i
  | [] => rfl
  | (a, v) :: m => by
    by_cases e : a = i
    · subst e
      simp [h v, sget]
    · rw [List.filter_cons]
      split <;> simp [sget, e, sget_filter h m]

/-! ### Hashes -/

/-- A hash has 32 bytes. -/
theorem sha3_length (m : List Byte) : (sha3 m).length = 32 := by simp [sha3]

/-! ### Cleared ranges -/

/-- Bytes outside a cleared range read as before. -/
theorem readByte_clearMem_outside {k n i : Nat} (h : i < k ∨ k + n ≤ i) : readByte (clearMem k n s) i = readByte s i :=
  sget_filter (fun _ => by simpa using h) s.mem

/-- Bytes inside a cleared range read as zero. -/
theorem readByte_clearMem_inside {k n i : Nat} (h : k ≤ i ∧ i < k + n) : readByte (clearMem k n s) i = 0#8 := by
  unfold readByte clearMem
  refine sget_of_not_mem fun p hp => ?_
  have := (List.mem_filter.1 hp).2
  simp only [decide_eq_true_eq] at this
  omega

end Sys2Proof.Machine
end

