-- ==== Sys2Proof/Certificates/Slice0/Obligations.lean ====
section
/-! DEFINITION. The statements for the provers. Each statement about commands says that they answer a next state, and which, under hypotheses on
the state and the operands alone; a definition under `Claims` is one clause of a statement, with the rules that it formalises. -/
open Sys2Proof Sys2Proof.Machine

/-! ### The words of a step program (chapters 3 to 5) -/

/-- The cycle in which the next word `w` of a core in normal mode issues: DELTA after the word before it (R67). -/
def Claims.issueCycle (s : State) (d : Stack) (c : CoreIx) (w : BitVec 128) : Nat := (getCore s d c).base + wbits w 15 0

/-- The state in which it issues: everything due before that cycle has happened, the sequencer has passed on, the word's class is
taken. -/
def Claims.issueState (s : State) (d : Stack) (c : CoreIx) (w : BitVec 128) : State :=
  let n := Claims.issueCycle s d c w
  updCore d c (fun x => { x with classes := x.classes ++ [wordClass w] }) (passWord d c n (settle d c n s))

/-- A core that runs a step in normal mode is due to issue `w`: the word is ready in time, well formed, of a class that has not
issued in its cycle, and an engine word's engines are enabled, present and idle (R65 to R69, R78, R86). -/
def Claims.wordDue (s : State) (d : Stack) (c : CoreIx) (w : BitVec 128) : Prop :=
  let x := getCore s d c
  let n := Claims.issueCycle s d c w
  let p := passWord d c n (settle d c n s)
  let q := Claims.issueState s d c w
  x.running = true ∧ x.ended = false ∧ x.trapped = false ∧ x.stopped = false ∧ x.elastic = false ∧
    (∃ r, nextWord s d c = some (r, w) ∧ r ≤ n) ∧ (getCore (settle d c n s) d c).trapped = false ∧
    badWord p d c w n = false ∧ (getCore p d c).classes.contains (wordClass w) = false ∧
    (isEngineWord w = true → getF q (r_CORE_CTRL d c) f_CORE_CTRL_EN ≠ 0 ∧ engineAbsent q d c w = false ∧ engineBusy q d c w n = false)

/-- What a word's issue records when checks of what it read fail (R287): each error, at its station and unit, and poison. -/
def Claims.checks (d : Stack) (c : CoreIx) (errs : List (Station × Nat × Nat)) (s : State) : State :=
  forAll errs (fun e s => coreError d c e.1 e.2.1 e.2.2 s) s

/-- A word's command: the kind of word; what its issue adds, for the word and its index; its effect in the cycle of issue. -/
abbrev Claims.WordCmd := Instr × WordRow × (BitVec 128 → Nat → State → State) × (BitVec 128 → Nat → Nat → State → State)

/-- The commands of the words; `b`: a check of what the word read failed (for RECV: its beat is the gate result's); `k`: the SFU's check
in a DRAIN's epilogue; `g`: the engine whose operand set failed its check; `u`: the upsets that beats or sectors meet. -/
def Claims.words (d : Stack) (c : CoreIx) (b k : Bool) (g : Option (Fin 4)) (u : List Upsets) : List Claims.WordCmd :=
  let amem := fun (_ : BitVec 128) (_ : Nat) => Claims.checks d c (if b then [(.core d c, 6, kParity)] else [])
  let staging := fun (_ : BitVec 128) (_ : Nat) => Claims.checks d c (if b then [(.cluster d (clusterOf c), 5, kParity)] else [])
  let none := fun (_ : BitVec 128) (_ : Nat) (s : State) => s
  let ldma := fun (w : BitVec 128) (i t : Nat) (s : State) => issueLdma d c u w i t (thawed s) s
  [(.nop d c, .nop, none, fun _ _ _ s => s),
   (.mac d c b g, .mac, fun _ _ => Claims.checks d c ((g.toList.map fun e => (.engine d c e.val, 16, kParity)) ++
     (if b then [(.core d c, 5, kParity)] else [])), issueMac d c),
   (.opload d c b, .opload, amem, issueOpload d c), (.swap d c, .swap, none, issueSwap d c),
   (.drain d c b k, .drain, fun w _ => Claims.checks d c (if k ∧ wbits w 83 76 ≠ 0 then [(.core d c, 7, kSfuCheck)]
     else if b then [(.core d c, 6, kParity)] else []), issueDrain d c),
   (.accld d c b, .accld, amem, issueAccld d c), (.vdma d c b u, .vdma, amem, issueVdma d c u),
   (.endWord d c, .endWord, none, fun _ _ _ s => updCore d c (fun x => { x with ended := true }) s),
   (.send d c b, .send, amem, issueSend d c), (.rsend d c b, .rsend, amem, issueRsend d c),
   (.recv d c b, .recv, fun _ i s => if b then updCore d c (fun x => { x with gateWord := some i }) s else s, issueRecv d c),
   (.route d c, .route, none, fun w _ t s => issueRoute d c w t s),
   (.bpStart d c, .bpStart, none, issueBpStart d c), (.bpRelease d c, .bpRelease, none, issueBpRelease d c),
   (.ldmaRead d c u, .ldmaRead, none, ldma), (.ldmaWrite d c b, .ldmaWrite, staging, fun w i t s => issueLdma d c [] w i t (thawed s) s),
   (.ldmaGather d c b u, .ldmaGather, staging, ldma)]

/-- The commands of the SFU's words, with OP (R90, R94, R96, R97, R100 to R102); `b`: the SFU's check failed (R88). -/
def Claims.sfuWords (d : Stack) (c : CoreIx) (b : Bool) : List (Instr × Nat) :=
  [(.convert d c b, 0x01), (.add d c b, 0x02), (.sub d c b, 0x03), (.mul d c b, 0x04), (.muladd d c b, 0x05), (.max d c b, 0x06),
   (.min d c b, 0x07), (.relu d c b, 0x08), (.exp d c b, 0x10), (.exp2 d c b, 0x11), (.log d c b, 0x12), (.log2 d c b, 0x13),
   (.rcp d c b, 0x14), (.rsqrt d c b, 0x15), (.sqrt d c b, 0x16), (.sigmoid d c b, 0x17), (.tanh d c b, 0x18), (.silu d c b, 0x19),
   (.gelu d c b, 0x1A), (.softplus d c b, 0x1B), (.sinpi d c b, 0x1C), (.cospi d c b, 0x1D), (.rsum d c b, 0x20), (.rsumsq d c b, 0x21),
   (.rmax d c b, 0x22), (.softmax d c b, 0x28), (.rmsnorm d c b, 0x29), (.layernorm d c b, 0x2A), (.smerge d c b, 0x2B)]

/-- Nothing in the cycle of its issue holds the word's unit: the operand set that a load or a swap needs, the accumulator that a load
replaces, the SFU, the port, the DMA channel, the BPs' role, the LPDDR slots, a reduction's result window (R61, R62, R72, R73, R88, R125,
R127, R149, R273, R290). -/
def Claims.unitFree (d : Stack) (c : CoreIx) (w : BitVec 128) (t : Nat) (s : State) : Prop :=
  let x := getCore s d c
  match rowOf w with
  | .opload => ∀ e ∈ maskEngines (wordEmask w), (getEng x (physEngine s d c e)).swapAt ≠ t + 1 ∧ (getEng x (physEngine s d c e)).bgEnd ≤ t
  | .swap => ∀ e ∈ maskEngines (wordEmask w), (getEng x (physEngine s d c e)).bgEnd ≤ t ∧ (getEng x (physEngine s d c e)).loadAt ≠ t + 1
  | .accld => ∀ e ∈ maskEngines (wordEmask w), accPending x (physEngine s d c e) (wbits w 28 24) t = false
  | .drain => wbits w 83 76 ≠ 0 → x.sfuEnd ≤ t
  | .sfu _ => x.sfuEnd ≤ t
  | .send | .rsend => x.sendEnd ≤ t
  | .recv => x.recvEnd ≤ t
  | .vdma => x.chHalted.contains (vdmaCh w) = false ∧ (vdmaDir w = 0 → earlyGroup s d c (vdmaVaddr w) (256 * vdmaBeats w) t = none)
  | .bpStart => ∀ j ∈ bpMask w, isNear s d c j = true
  | .ldmaRead | .ldmaWrite | .ldmaGather => (getLp s d).halted = false ∧
      (ldmaOp w ≠ 2 → lpEarlyGroup s d (ldmaSectors s d (clusterOf c) w) (t - x.start) = none) ∧
      (lpPlan s d (thawed s) (t - x.start) (ldmaSectors s d (clusterOf c) w)).isSome = true
  | _ => True

/-- The command of a word issues the core's next word when it is due, of the command's kind and its unit is free: the state is that of
the word's own effect in its cycle, with the errors of the checks that the command says have failed (log entry 2). -/
def Claims.wordsIssue : Prop := ∀ (s : State) (d : Stack) (c : CoreIx) (w : BitVec 128) (b k : Bool) (g : Option (Fin 4)) (u : List Upsets)
    (i : Instr) (row : WordRow) (more : BitVec 128 → Nat → State → State) (f : BitVec 128 → Nat → Nat → State → State),
  (i, row, more, f) ∈ Claims.words d c b k g u → rowOf w = row → Claims.wordDue s d c w →
  Claims.unitFree d c w (Claims.issueCycle s d c w) (Claims.issueState s d c w) →
  exec i s = .next (gateCheck d c (more w (getCore s d c).wordIx
    (f w (getCore s d c).wordIx (Claims.issueCycle s d c w) (Claims.issueState s d c w))))

/-- The same for the words of the SFU. -/
def Claims.sfuWordsIssue : Prop := ∀ (s : State) (d : Stack) (c : CoreIx) (w : BitVec 128) (b : Bool) (i : Instr) (op : Nat),
  (i, op) ∈ Claims.sfuWords d c b → rowOf w = .sfu op → Claims.wordDue s d c w →
  Claims.unitFree d c w (Claims.issueCycle s d c w) (Claims.issueState s d c w) →
  exec i s = .next (gateCheck d c (Claims.checks d c (if b then [(.core d c, 7, kSfuCheck)] else [])
    (issueSfu d c w (getCore s d c).wordIx (Claims.issueCycle s d c w) (Claims.issueState s d c w))))

/-- Every word of a step program, by its command. -/
def Obligations.DueWordsIssue : Prop := Claims.wordsIssue ∧ Claims.sfuWordsIssue

/-- A state in which nothing of a core waits for a later cycle and no gate result has failed. -/
def Claims.still (s : State) (d : Stack) (c : CoreIx) : Prop := (getCore s d c).agenda = [] ∧ (getCore s d c).gateErr = false

/-- A SWAP exchanges the foreground and the background operand set of each engine that it names (R62); the other engines of the core
and all of memory keep theirs. -/
def Claims.swapExchanges : Prop := ∀ (s : State) (d : Stack) (c : CoreIx) (w : BitVec 128),
  s.canon = true → Claims.still s d c → Claims.wordDue s d c w → rowOf w = .swap →
  Claims.unitFree d c w (Claims.issueCycle s d c w) (Claims.issueState s d c w) →
  ∃ t, exec (.swap d c) s = .next t ∧
    (∀ e ∈ maskEngines (wordEmask w),
      let p := physEngine s d c e
      (getEng (getCore t d c) p).fg = (getEng (getCore s d c) p).bg ∧ (getEng (getCore t d c) p).bg = (getEng (getCore s d c) p).fg ∧
        (getEng (getCore t d c) p).acc = (getEng (getCore s d c) p).acc) ∧
    (∀ p, (∀ e ∈ maskEngines (wordEmask w), p ≠ physEngine s d c e) → getEng (getCore t d c) p = getEng (getCore s d c) p) ∧
    t.regs = s.regs ∧ (∀ k, readByte t k = readByte s k)

/-- NOP does nothing but fill a gap, and END marks the last word of the step (R67): the sequencer passes on, in the word's cycle, and
nothing outside the core changes. -/
def Claims.nopAndEnd : Prop := ∀ (s : State) (d : Stack) (c : CoreIx) (w : BitVec 128),
  s.canon = true → Claims.still s d c → Claims.wordDue s d c w →
  let x := getCore s d c
  let n := Claims.issueCycle s d c w
  let passed := fun (t : State) (ended : Bool) =>
    (getCore t d c).wordIx = x.wordIx + 1 ∧ (getCore t d c).base = n ∧ (getCore t d c).ended = ended ∧
      (getCore t d c).engines = x.engines ∧ (getCore t d c).agenda = [] ∧ t = { s with cores := t.cores } ∧
      ∀ e k, ¬(e = d ∧ k = c) → getCore t e k = getCore s e k
  (rowOf w = .nop → ∃ t, exec (.nop d c) s = .next t ∧ passed t false) ∧
  (rowOf w = .endWord → ∃ t, exec (.endWord d c) s = .next t ∧ passed t true)

/-- An SFU word that issues counts in OPS, shows in LAST_OP and holds the SFU to the cycle after its last (R88, R108). -/
def Claims.sfuHolds : Prop := ∀ (s : State) (d : Stack) (c : CoreIx) (w : BitVec 128) (i : Instr) (op : Nat),
  s.canon = true → Claims.still s d c → (i, op) ∈ Claims.sfuWords d c false → rowOf w = .sfu op → Claims.wordDue s d c w →
  Claims.unitFree d c w (Claims.issueCycle s d c w) (Claims.issueState s d c w) →
  ∃ t, exec i s = .next t ∧ (getCore t d c).sfuEnd = Claims.issueCycle s d c w + sfuDone w + 1 ∧
    getF t (r_SFU_STATUS d c) f_SFU_STATUS_LAST_OP = op ∧
    getF t (r_SFU_STATUS d c) f_SFU_STATUS_OPS = (getF s (r_SFU_STATUS d c) f_SFU_STATUS_OPS + 1) % 2 ^ f_SFU_STATUS_OPS.width ∧
    (∀ a, a ≠ r_SFU_STATUS d c → getReg t a = getReg s a) ∧ (∀ k, readByte t k = readByte s k)

/-- What some words change in the cycle of their issue, and what they leave. -/
def Obligations.WordsChangeTheirUnits : Prop := Claims.swapExchanges ∧ Claims.nopAndEnd ∧ Claims.sfuHolds

/-- A word that is not ready in its cycle is WORD_LATE and does not issue; one that is malformed is BAD_WORD; one of a class that has
issued in its cycle is ISSUE_CONFLICT: the fault is recorded in OWN_FAULT if that is free, with kind, engine 7, cycle, word index and
selector, and the step is poisoned (R67, R69, R78). -/
def Claims.faultAt (s : State) (d : Stack) (c : CoreIx) (w : BitVec 128) (kind : Nat) (t : State) : Prop :=
  let x := getCore s d c
  let n := Claims.issueCycle s d c w
  getF t (r_OWN_FAULT d c) f_OWN_FAULT_VALID = 1 ∧ (getCore t d c).poisoned = true ∧
    readByte t (tileKey d c (amemBase + poisonOff)) = 1#8 ∧ (getCore t d c).wordIx = x.wordIx + 1 ∧
    (getF s (r_OWN_FAULT d c) f_OWN_FAULT_VALID = 0 →
      getF t (r_OWN_FAULT d c) f_OWN_FAULT_KIND = kind ∧ getF t (r_OWN_FAULT d c) f_OWN_FAULT_ENG = 7 ∧
      getF t (r_OWN_FAULT d c) f_OWN_FAULT_CYCLE = (n - x.start) % 2 ^ 24 ∧ getF t (r_OWN_FAULT d c) f_OWN_FAULT_WORD = x.wordIx % 2 ^ 24 ∧
      getF t (r_OWN_FAULT d c) f_OWN_FAULT_SEL = x.sel % 256) ∧
    (getF s (r_OWN_FAULT d c) f_OWN_FAULT_VALID = 1 → getReg t (r_OWN_FAULT d c) = getReg s (r_OWN_FAULT d c))

/-- The three faults of the sequencer in issuing a word, for the commands of every kind of word. -/
def Claims.sequencerFaults : Prop := ∀ (s : State) (d : Stack) (c : CoreIx) (w : BitVec 128) (b k : Bool) (g : Option (Fin 4))
    (u : List Upsets) (i : Instr) (row : WordRow) (more : BitVec 128 → Nat → State → State) (f : BitVec 128 → Nat → Nat → State → State)
    (r : Nat),
  s.canon = true → Claims.still s d c → (i, row, more, f) ∈ Claims.words d c b k g u → rowOf w = row →
  let x := getCore s d c
  let n := Claims.issueCycle s d c w
  let p := passWord d c n s
  x.running = true → x.ended = false → x.trapped = false → x.stopped = false → x.elastic = false → nextWord s d c = some (r, w) →
  (n < r → ∃ t, exec i s = .next t ∧ Claims.faultAt s d c w 0x1 t) ∧
  (r ≤ n → badWord p d c w n = true → ∃ t, exec i s = .next t ∧ Claims.faultAt s d c w 0x2 t) ∧
  (r ≤ n → badWord p d c w n = false → (getCore p d c).classes.contains (wordClass w) = true →
    ∃ t, exec i s = .next t ∧ Claims.faultAt s d c w 0x3 t)

/-- WORD_LATE, BAD_WORD and ISSUE_CONFLICT. -/
def Obligations.SequencerFaultsAreRecorded : Prop := Claims.sequencerFaults

/-- A word's command does nothing where the core has no word of its kind to issue: no step runs, END has issued, the sequencer is
trapped or stopped, or the next word is of another kind; that rows fire only on a match is the model's choice (log entry 2). -/
def Obligations.WordsOfAnotherKindWait : Prop := ∀ (s : State) (d : Stack) (c : CoreIx) (b k : Bool) (g : Option (Fin 4)) (u : List Upsets)
    (i : Instr) (row : WordRow) (more : BitVec 128 → Nat → State → State) (f : BitVec 128 → Nat → Nat → State → State),
  (i, row, more, f) ∈ Claims.words d c b k g u → (getCore s d c).gateErr = false →
  ((getCore s d c).running = false ∨ (getCore s d c).ended = true ∨ (getCore s d c).trapped = true ∨ (getCore s d c).stopped = true ∨
    nextWord s d c = none ∨ (∃ r w, nextWord s d c = some (r, w) ∧ rowOf w ≠ row)) →
  exec i s = .next s

/-! ### What a core's timetable brings (R61, R63, R65, R76, R124, R126, R278) -/

/-- The kinds of the timetable's entries that have a command of their own. -/
def Claims.isFetch : Act → Bool | .fetchReady .. => true | _ => false
def Claims.isUpdate : Act → Bool | .macUpd .. => true | _ => false
def Claims.isLastLoad : Act → Bool | .opEntry _ _ _ _ _ _ l => l | _ => false
def Claims.isReadBeat : Act → Bool | .beatIn .. | .bpDeliver .. => true | _ => false
def Claims.isHeader : Act → Bool | .portBeat b => b.tag | _ => false
def Claims.isData : Act → Bool | .portBeat b => !b.tag | _ => false
def Claims.isResult : Act → Bool | .addResult .. => true | _ => false

/-- The state after the first entry of a core's timetable has had its effect in its cycle. -/
def Claims.afterFirst (s : State) (d : Stack) (c : CoreIx) (u : Upsets) (e : Timed) (rest : List Timed) : State :=
  updCore d c (fun x => { x with now := max x.now (e.key / 8) }) (runFirst d c u e rest s)

/-- Where the core's next entry is of a command's kind, the command's effect is that entry's, in its cycle. -/
def Claims.entriesHappen : Prop := ∀ (s : State) (d : Stack) (c : CoreIx) (u : Upsets) (e : Timed) (rest : List Timed),
  (getCore s d c).agenda = e :: rest →
  let t := fun u => Claims.afterFirst s d c u e rest
  (Claims.isFetch e.act = true → exec (.fetchWordsReady d c) s = .next (gateCheck d c (t []))) ∧
  (Claims.isUpdate e.act = true → exec (.macBlockUpdate d c none) s = .next (gateCheck d c (t []))) ∧
  (Claims.isLastLoad e.act = true → exec (.oploadComplete d c) s = .next (gateCheck d c (t []))) ∧
  (Claims.isReadBeat e.act = true → exec (.vaultReadBeat d c u) s = .next (gateCheck d c (t u))) ∧
  (Claims.isHeader e.act = true → exec (.corePortHeader d c) s = .next (gateCheck d c (t []))) ∧
  (Claims.isData e.act = true → exec (.adderContributionBeat d c) s = .next (gateCheck d c (t []))) ∧
  (∀ bad : Bool, Claims.isResult e.act = true → exec (.adderResult d ⟨c.val, by omega⟩ bad u) s =
    .next (if bad then adderError d ⟨c.val, by omega⟩ (t u) else t u)) ∧
  (∀ (p acc : Nat) (init : Bool) (vals : List (BitVec 32)) (g : Fin 16), e.act = .macUpd p acc init vals →
    exec (.macBlockUpdate d c (some g)) s = .next (gateCheck d c (coreError d c (.engine d c p) g.val kResidue (t []))))

/-- Where a core's timetable holds no entry of a command's kind, nothing happens. -/
def Claims.nothingDue : Prop := ∀ (s : State) (d : Stack) (c : CoreIx) (u : Upsets) (bad : Bool), (getCore s d c).gateErr = false →
  let none := fun (k : Act → Bool) => ∀ e ∈ (getCore s d c).agenda, k e.act = false
  (none Claims.isFetch → exec (.fetchWordsReady d c) s = .next s) ∧ (none Claims.isUpdate → ∀ g, exec (.macBlockUpdate d c g) s = .next s) ∧
  (none Claims.isLastLoad → exec (.oploadComplete d c) s = .next s) ∧ (none Claims.isReadBeat → exec (.vaultReadBeat d c u) s = .next s) ∧
  (none Claims.isHeader → exec (.corePortHeader d c) s = .next s) ∧ (none Claims.isData → exec (.adderContributionBeat d c) s = .next s) ∧
  (none Claims.isResult → exec (.adderResult d ⟨c.val, by omega⟩ bad u) s = .next s)

/-- A MAC block's result is added into each lane of its accumulator, which INIT starts from +0, with one FP32 addition (R49, R76); the
operand sets, the other engines, memory and every register keep their values. -/
def Claims.blockUpdates : Prop := ∀ (s : State) (d : Stack) (c : CoreIx) (k w p acc : Nat) (init : Bool) (vals : List (BitVec 32))
    (rest : List Timed), s.canon = true → (getCore s d c).agenda = ⟨k, w, .macUpd p acc init vals⟩ :: rest →
  (getCore s d c).gateErr = false → p < 4 →
  ∃ t, exec (.macBlockUpdate d c none) s = .next t ∧
    getEng (getCore t d c) p = getEng (setAcc p acc 0 (vals.zipIdx.map fun v =>
      addF32 (if init then 0#32 else getAcc (getCore s d c) p acc v.2) v.1) (getCore s d c)) p ∧
    (getEng (getCore t d c) p).fg = (getEng (getCore s d c) p).fg ∧ (getEng (getCore t d c) p).bg = (getEng (getCore s d c) p).bg ∧
    (∀ q, q ≠ p → getEng (getCore t d c) q = getEng (getCore s d c) q) ∧ (getCore t d c).agenda = rest ∧ t = { s with cores := t.cores }

/-- The LPDDR adder writes the next beat of a result; without one, a group whose beats have all arrived gives its result the burst slots
and writes its first beat (R126, R277, R278). -/
def Claims.lpAdds : Prop := ∀ (s : State) (d : Stack) (bad : Bool) (u : Upsets),
  let err := fun (t : State) => if bad then adderError d 16 t else t
  ((getLp s d).out ≠ [] → exec (.adderResult d 16 bad u) s = .next (err (lpResultBeat d s))) ∧
  (∀ g, (getLp s d).out = [] → lpFullGroup s d = some g →
    exec (.adderResult d 16 bad u) s = .next (err (lpResultBeat d (lpResult d (thawed s) g s)))) ∧
  ((getLp s d).out = [] → lpFullGroup s d = none → exec (.adderResult d 16 bad u) s = .next s)

/-- The timetable's commands. -/
def Obligations.TimetableEntriesHappen : Prop := Claims.entriesHappen ∧ Claims.nothingDue ∧ Claims.blockUpdates ∧ Claims.lpAdds

/-! ### Launches, fetches and the end of a step (R65, R66, R85, R119, R128, R133) -/

/-- A launch that the die accepts: it goes out through every OUT port that is not isolated and has a neighbour, 16 cycles after, is
counted, its selector shows in FLASH_STATUS, and every enabled core of the die holds it 2 cycles after, with its thunder count. -/
def Claims.passedOn (s : State) (d : Stack) (m : FlashMsg) (elastic : Bool) (t : State) : Prop :=
  let st := r_FLASH_STATUS d
  t.flash = s.flash.erase m ++ (maskPorts (getF s (r_FLASH_CTRL d) f_FLASH_CTRL_OUT)).filterMap (fun p =>
      if portIsolated s d p then none else (neighbour d p).map fun e => ⟨e.val, (opposite p).val, m.kind, m.sel, 0, m.cyc + 16⟩) ∧
    getF t st f_FLASH_STATUS_LAUNCHES = (getF s st f_FLASH_STATUS_LAUNCHES + 1) % 2 ^ f_FLASH_STATUS_LAUNCHES.width ∧
    getF t st f_FLASH_STATUS_SEL = m.sel % 2 ^ f_FLASH_STATUS_SEL.width ∧
    getF t st f_FLASH_STATUS_ELASTIC_STEP = (if elastic then 1 else 0) ∧
    ∀ c : CoreIx, (getF s (r_CORE_CTRL d c) f_CORE_CTRL_EN = 1 → getCore t d c = { getCore s d c with
        held := some ⟨m.sel, elastic, m.cyc + 2, getF s (r_FLASH_THUNDER d) f_FLASH_THUNDER_COUNT⟩ }) ∧
      (getF s (r_CORE_CTRL d c) f_CORE_CTRL_EN = 0 → getCore t d c = getCore s d c)

/-- LAUNCH and LAUNCH_ELASTIC from the IN port of a die of a partition that is not halted, with good parity, at a die whose cores hold no
launch and are initialised. What comes in through an isolated port is ignored (R136). -/
def Claims.launches : Prop := ∀ (s : State) (d : Stack) (m : FlashMsg) (elastic : Bool), s.canon = true →
  s.flash.find? (fun m => m.die == d.val && m.kind == (if elastic then .launchElastic else .launch)) = some m →
  (closedTo s d m = false → getF s (r_FLASH_STATUS d) f_FLASH_STATUS_HALTED = 0 → getF s (r_FLASH_CTRL d) f_FLASH_CTRL_IN = m.port →
    partOf s d ≠ none → (∀ c, (getCore s d c).held = none ∧ getF s (r_CORE_STATUS d c) f_CORE_STATUS_INIT_DONE = 1) →
    ∃ t, Claims.passedOn s d m elastic t ∧
      (elastic = true → ∀ heads, exec (.launchElastic d true heads) s = .next (headCheck d heads s (elasticStarts d t))) ∧
      (elastic = false → exec (.launch d true) s = .next t)) ∧
  (closedTo s d m = true → ∀ (ok : Bool) heads,
    (elastic = false → exec (.launch d ok) s = .next { s with flash := s.flash.erase m }) ∧
    (elastic = true → exec (.launchElastic d ok heads) s = .next (headCheck d heads s (elasticStarts d { s with flash := s.flash.erase m }))))

/-- The thunder count of an enabled core of a partition expires, with nothing of its last step left over: the step program of
STEP_TABLE[selector] starts from its first word, the step counts, and its poison flag reads 0 (R66, R218); a parity error in the head
store is recorded and poisons the step (R287). -/
def Claims.starts : Prop := ∀ (s : State) (d : Stack) (c : CoreIx) (h : HeldLaunch) (gap : Nat) (parity : Bool), s.canon = true →
  (getCore s d c).held = some h → (getCore s d c).running = false → (getCore s d c).agenda = [] → h.sel < 256 →
  getF s (r_CORE_CTRL d c) f_CORE_CTRL_EN = 1 → partOf s d ≠ none → entryValid (getReg s (r_STEP_TABLE d c h.sel)) = true →
  ∃ t, exec (.thunderCountExpiry d c gap parity) s =
      .next (if parity then gateCheck d c (coreError d c (.core d c) 4 kParity t) else t) ∧
    let x := getCore t d c
    let e := getReg s (r_STEP_TABLE d c h.sel)
    x.start = startCycle s d h gap ∧
    x.running = true ∧ x.ended = false ∧ x.trapped = false ∧ x.poisoned = false ∧ x.held = none ∧ x.elastic = h.elastic ∧ x.sel = h.sel ∧
      x.progAddr = 256 * fieldOf f_STEP_TABLE_ADDR e ∧ x.progWords = fieldOf f_STEP_TABLE_NWORDS e ∧ x.fper = fieldOf f_STEP_TABLE_FPER e ∧
      x.wordIx = 0 ∧ x.base = x.start ∧ x.classes = [] ∧ x.queue = [] ∧
      getF t (r_CORE_STATUS d c) f_CORE_STATUS_RUNNING = 1 ∧ getF t (r_CORE_STATUS d c) f_CORE_STATUS_SEL = h.sel ∧
      getF t (r_CORE_STATUS d c) f_CORE_STATUS_STEPS =
        (getF s (r_CORE_STATUS d c) f_CORE_STATUS_STEPS + 1) % 2 ^ f_CORE_STATUS_STEPS.width ∧
      readByte t (tileKey d c (amemBase + poisonOff)) = 0#8 ∧
      (∀ k, k ≠ tileKey d c (amemBase + poisonOff) → readByte t k = readByte s k)

/-- A fetch slot of a running core with room in its queue, a free bus cycle and words left fetches the next 16, or those left, which are
ready 93 cc after the slot; the next slot comes FPER cc later (R65). -/
def Claims.fetches : Prop := ∀ (s : State) (d : Stack) (c : CoreIx) (u : Upsets), s.canon = true → Claims.still s d c →
  let x := getCore s d c
  x.running = true → x.trapped = false → x.stopped = false → x.nextFetch < x.progWords → x.queue.length + 16 ≤ 2048 →
  busHeld (updCore d c (fun x => { x with nextSlot := x.nextSlot + x.fper, now := max x.now x.nextSlot }) s) d c (x.nextSlot + 92) = false →
  ∃ t, exec (.fetchSlot d c u) s = .next t ∧
    (getCore t d c).nextSlot = x.nextSlot + x.fper ∧ (getCore t d c).nextFetch = x.nextFetch + min 16 (x.progWords - x.nextFetch) ∧
    (getCore t d c).queue.length = x.queue.length + min 16 (x.progWords - x.nextFetch) ∧
    (∀ q ∈ (getCore t d c).queue.drop x.queue.length, q.1 = x.nextSlot + 93) ∧ (getCore t d c).queue.take x.queue.length = x.queue

/-- A step of a die whose cores run in normal mode, have issued END and have nothing outstanding reaches its end offset: no core of the die
runs, its routers follow the transit-only schedule, and no beat of a step is left in them (R119). Then what its sessions' steps have
computed stands, and the elastic launches that wait start (R133, R220, log entry 89). -/
def Claims.stepEnds : Prop := ∀ (s : State) (d : Stack) (len : Nat) (heads : List CoreIx), s.canon = true → dieElastic s d = false →
  (∀ c, Claims.still s d c ∧ (getCore s d c).ended = true ∧ (getCore s d c).elastic = false) →
  ∃ t, exec (.stepEndOffset d len heads) s = .next (headCheck d heads s (elasticStarts d (forAll allCores (fun c s => stepClosed d c s) t))) ∧
    (∀ c, (getCore t d c).running = false) ∧
    (∀ c, (getCore s d c).running = true → getF t (r_CORE_STATUS d c) f_CORE_STATUS_RUNNING = 0) ∧
    (∀ k : Cluster, getF t (r_RT_CTRL d k) f_RT_CTRL_TONLY = 1 ∧ (getRouter t d k).active = false ∧ (getRouter t d k).next = none) ∧
    (∀ f ∈ t.flights ++ t.crossings, f.die = d.val → f.transit = true)

/-- Tile memory has been zeroed: INIT_DONE is set, and no memory changes (R85). -/
def Claims.tileReady : Prop := ∀ (s : State) (d : Stack) (c : CoreIx), s.canon = true → (getCore s d c).initialising = true →
  ∃ t, exec (.tileInitDone d c) s = .next t ∧ getF t (r_CORE_STATUS d c) f_CORE_STATUS_INIT_DONE = 1 ∧
    getCore t d c = { getCore s d c with initialising := false } ∧ (∀ a, a ≠ r_CORE_STATUS d c → getReg t a = getReg s a) ∧
    t = { s with regs := t.regs, cores := t.cores }

/-- Launches reach the cores, steps start, fetch and end. -/
def Obligations.StepsLaunchStartAndEnd : Prop :=
  Claims.launches ∧ Claims.starts ∧ Claims.fetches ∧ Claims.stepEnds ∧ Claims.tileReady

/-! ### Links, routers and transit (R110 to R122, R136 to R138, R140) -/

/-- A beat that has crossed a link to an open port waits at the router's input 7, with the upsets of its wires; one whose CRC fails bears
ERR and counts in CRC_ERRS (R110). -/
def Claims.beatsCross : Prop := ∀ (s : State) (d : Stack) (p : Port) (f : Flight) (rest : List Flight) (flips : BitVec 1024) (crcFlip : Byte),
  s.canon = true → takeFlight (fun f => f.die == d.val && f.port == p.val) s.crossings = some (f, rest) → portIsolated s d p = false →
  let bad := decide (crc8 1024 (f.beat.data ^^^ flips) ≠ crc8 1024 f.beat.data ^^^ crcFlip)
  ∃ t, exec (.linkBeatReceive d p flips crcFlip) s = .next t ∧ t.crossings = rest ∧
    t.flights = s.flights ++ [{ f with port := 7, beat := { f.beat with data := f.beat.data ^^^ flips, err := f.beat.err || bad } }] ∧
    (bad = true → getF t (r_PORT_STATUS d p) f_PORT_STATUS_CRC_ERRS =
      min (getF s (r_PORT_STATUS d p) f_PORT_STATUS_CRC_ERRS + 1) (2 ^ f_PORT_STATUS_CRC_ERRS.width - 1)) ∧
    (bad = false → t.regs = s.regs)

/-- A retraining segment of a port, in a pause that it asked for or while the port carries nothing, whose wires all have spares leaves the
link at its width, shows the spares in use, and lets the port open (R111, R114, R138). -/
def Claims.retrains : Prop := ∀ (s : State) (d : Stack) (p : Port) (a b : WireTest), s.canon = true →
  (getDie s d).retrain.contains p.val = true → segmentOpen s d = true ∨ portIsolated s d p = true → wireWidth a = 0 → wireWidth b = 0 →
  ∃ t, exec (.linkRetrainSegment d p a b) s = .next t ∧ p.val ∉ (getDie t d).retrain ∧ p.val ∈ (getDie t d).trained ∧
    getF t (r_PORT_CTRL d p) f_PORT_CTRL_EN = 1 ∧
    getF t (r_PORT_STATUS d p) f_PORT_STATUS_DSPARES =
      ((List.range 32).filter fun n => (a.groups.filter fun x => x.val = n).length = 1).length ∧
    getF t (r_PORT_STATUS d p) f_PORT_STATUS_CSPARES = a.control + (if a.fclk then 2 else 0) ∧
    getF t (r_PORT_STATUS d p) f_PORT_STATUS_HALF = getF s (r_PORT_STATUS d p) f_PORT_STATUS_HALF

/-- A link that can only run at half width drops to it at both its ends, between the steps of its two dies (R114). -/
def Claims.halves : Prop := ∀ (s : State) (d : Stack) (p : Port), s.canon = true → (getDie s d).halfNext.contains p.val = true →
  dieRuns s d = false → (∀ e, neighbour d p = some e → dieRuns s e = false) →
  ∃ t, exec (.linkHalfWidthDrop d p) s = .next t ∧ p.val ∉ (getDie t d).halfNext ∧
    getF t (r_PORT_STATUS d p) f_PORT_STATUS_HALF = 1 ∧
    ∀ e, neighbour d p = some e → getF t (r_PORT_STATUS e (opposite p)) f_PORT_STATUS_HALF = 1

/-- The run that a ROUTE has announced takes effect (R118). -/
def Claims.routes : Prop := ∀ (s : State) (d : Stack) (k : Cluster) (eff b l : Nat), s.canon = true →
  (getRouter s d k).next = some (eff, b, l) →
  ∃ t, exec (.routeTakesEffect d k) s = .next t ∧ getRouter t d k = { getRouter s d k with runAt := eff, active := true, next := none } ∧
    getF t (r_RT_CTRL d k) f_RT_CTRL_RBASE = b % 2 ^ f_RT_CTRL_RBASE.width ∧ getF t (r_RT_CTRL d k) f_RT_CTRL_RLEN = l % 2 ^ f_RT_CTRL_RLEN.width ∧
    getF t (r_RT_CTRL d k) f_RT_CTRL_TONLY = 0 ∧ (∀ a, a ≠ r_RT_CTRL d k → getReg t a = getReg s a)

/-- A beat arrives at a router's input: a transit beat waits in the input's transit buffer while that has room, a beat of a step is moved
by the slot table (R119, R122). -/
def Claims.inputs : Prop := ∀ (s : State) (d : Stack) (k : Cluster) (p : Fin 9) (off : Nat) (f : Flight) (rest : List Flight),
  takeFlight (fun f => f.die == d.val && f.router == k.val && f.port == p.val) s.flights = some (f, rest) →
  (f.transit = true → (sget [] (getRouter s d k).buffers p.val).length < 4 →
    exec (.routerInputBeat d k p off false) s = .next (updRouter d k (fun r =>
      { r with buffers := sput [] r.buffers p.val (sget [] r.buffers p.val ++ [f]) }) { s with flights := rest })) ∧
  (f.transit = false → exec (.routerInputBeat d k p off false) s = .next (slotMove d k p.val f { s with flights := rest }))

/-- A parity error of the beat that staging memory has supplied to a router is recorded and poisons the step (R287). -/
def Claims.stagingErrors : Prop := ∀ (s : State) (d : Stack) (k : Cluster) (p : Fin 9) (off : Nat),
  ∃ t, exec (.routerInputBeat d k p off false) s = .next t ∧
    ((getRouter t d k).stagedOut = (getRouter s d k).stagedOut → exec (.routerInputBeat d k p off true) s = .next t) ∧
    ((getRouter t d k).stagedOut ≠ (getRouter s d k).stagedOut → exec (.routerInputBeat d k p off true) s =
      .next (poisonDie d (recordErr (.cluster d k) 5 kParity (dieSel s d) off t)))

/-- In a transit slot the first beat of every transit buffer that the router's entry (SLOTPH ÷ TPER) mod 64 selects leaves it (R120); at
another offset none does. -/
def Claims.transits : Prop := ∀ (s : State) (d : Stack) (off : Nat),
  (transitSlot s d 0 off = false → exec (.transitSlot d off) s = .next s) ∧ (transitSlot s d 0 off = true →
  let n := ((getDie s d).phase + off) % 4096 / tper s d 0 % 64
  let moves := allClusters.flatMap fun (k : Cluster) => (List.range 9).flatMap fun o =>
    match sget [] (getRouter s d k).buffers ((getReg s (r_TR_SLOT d k n)).toNat / 16 ^ o % 16) with
    | f :: _ => if (getReg s (r_TR_SLOT d k n)).toNat / 16 ^ o % 16 < 9
        then [(k, (getReg s (r_TR_SLOT d k n)).toNat / 16 ^ o % 16, o, f)] else []
    | [] => []
  let taken := forAll (moves.map fun m => (m.1, m.2.1)).eraseDups (fun m s => updRouter d m.1 (fun r =>
    { r with buffers := sput [] r.buffers m.2 ((sget [] r.buffers m.2).drop 1) }) s) s
  exec (.transitSlot d off) s = .next (forAll moves (fun m s => moveBeat d m.1 m.2.2.1 m.2.2.2 s) taken))

/-- The hub's transit transfers (R122): one that starts is outstanding, with a header beat and its data beats at a hub-facing port that is
not isolated; a completion ends it; a failed try is repeated on another route, and the eighth failure raises TRANSIT_FAIL. -/
def Claims.transfers : Prop := ∀ (s : State) (e : Stack) (write : Bool) (addr len data owner id : Nat) (page : Bool) (x : Xfer),
  (s.hub.transitStopped = false → (∃ e p, facesHub e p = true ∧ portIsolated s e p = false) →
    ∃ t, exec (.hubTransitTransfer e write addr len data owner page) s = .next t ∧
      t.hub.xfers = s.hub.xfers ++ [⟨s.hub.nextXfer, e.val, write, addr, len, data, 1, owner, page⟩] ∧
      t.hub.nextXfer = s.hub.nextXfer + 1 ∧
      t.crossings.length = s.crossings.length + 1 + (if write then (len + 127) / 128 else 0) ∧
      t.crossings.take s.crossings.length = s.crossings ∧ (∀ f ∈ t.crossings.drop s.crossings.length, f.transit = true ∧ f.xfer = s.hub.nextXfer)) ∧
  (findXfer s id = some x → ∀ u a, xferAnswer s x = some u → u.2.2 = a → a.err = false →
    exec (.transitCompletion id) s = .next (endXfer x true a.data s)) ∧
  (findXfer s id = some x → x.tries < 8 →
    ∃ t, exec (.transitTimeout id e) s = .next t ∧ (xferFailed s x = true → exec (.transitErrorResponse id e) s = .next t) ∧
      t.hub.xfers = s.hub.xfers.map (fun z => if z.id = x.id then { x with tries := x.tries + 1, entry := e.val } else z)) ∧
  (findXfer s id = some x → 8 ≤ x.tries →
    (xferFailed s x = true →
      exec (.transitErrorResponse id e) s = .next (postEvent evTransitFail x.owner x.addr (endXfer x false 0 (dropAnswer x s)))) ∧
    exec (.transitTimeout id e) s = .next (postEvent evTransitFail x.owner x.addr (endXfer x false 0 (dropAnswer x s)))) ∧
  ((∀ x, findXfer s id = some x → xferFailed s x = false) → exec (.transitErrorResponse id e) s = .next s)

/-- With every transfer settled, the hub rewrites transit tables, none of which then leads through an isolated port, and resumes transit
(R30, R137). -/
def Claims.reroutes : Prop := ∀ (s : State) (l : List (Stack × Cluster × Fin 64 × Word)), s.canon = true → s.hub.xfers = [] →
  ∃ t, exec (.transitReroute l) s = .next (resumeTransit t) ∧ t = { s with regs := t.regs } ∧
    ∀ (d : Stack) (k : Cluster) (n : Fin 64), portIsolated s d (routerPort k) = true → 9 ≤ (getReg t (r_TR_SLOT d k n.val)).toNat / 16 ^ 7 % 16

/-- Beats of the fabric. -/
def Obligations.FabricMovesBeats : Prop :=
  Claims.beatsCross ∧ Claims.routes ∧ Claims.inputs ∧ Claims.stagingErrors ∧ Claims.transits ∧ Claims.transfers ∧ Claims.reroutes

/-- A port that sees LDOWN, a lost clock or a persistent failure, and one that software isolates, is isolated, with the cause in
ISO_CAUSE; only software's write leaves EN set (R136, R138). A port on the outer boundary is unconnected and stays as it is (R21). -/
def Claims.isolates : Prop := ∀ (s : State) (d : Stack) (p : Port), s.canon = true →
  (outerPort d p = true → ∀ v, exec (.portIsolateWrite d p v) s = .next s) ∧ (outerPort d p = false →
  let out := fun (i : Instr) (cause en : Nat) => ∃ t, exec i s = .next t ∧ getF t (r_PORT_CTRL d p) f_PORT_CTRL_ISOLATE = 1 ∧
    getF t (r_PORT_STATUS d p) f_PORT_STATUS_STATE = 3 ∧ getF t (r_PORT_STATUS d p) f_PORT_STATUS_ISO_CAUSE = cause ∧
    getF t (r_PORT_CTRL d p) f_PORT_CTRL_EN = en ∧ portIsolated t d p = true
  out (.ldownReceived d p) 1 0 ∧ out (.neighbourClockLoss d p) 2 0 ∧ out (.persistentLinkFailure d p) 5 0 ∧
    out (.portIsolateWrite d p true) 4 (getF s (r_PORT_CTRL d p) f_PORT_CTRL_EN))

/-- A write of ISOLATE with 0 opens a port whose link has trained; CLRCNT clears the two counts; RETRAIN asks for a segment (R138, R140). -/
def Claims.portWrites : Prop := ∀ (s : State) (d : Stack) (p : Port), s.canon = true →
  (getF s (r_PORT_CTRL d p) f_PORT_CTRL_EN = 1 → p.val ∈ (getDie s d).trained → outerPort d p = false →
    ∃ t, exec (.portIsolateWrite d p false) s = .next t ∧
    getF t (r_PORT_CTRL d p) f_PORT_CTRL_ISOLATE = 0 ∧ getF t (r_PORT_STATUS d p) f_PORT_STATUS_STATE = 2 ∧
    getF t (r_PORT_STATUS d p) f_PORT_STATUS_ISO_CAUSE = 0) ∧
  (∃ t, exec (.portClrcnt d p) s = .next t ∧ getF t (r_PORT_STATUS d p) f_PORT_STATUS_CRC_ERRS = 0 ∧
    getF t (r_PORT_STATUS d p) f_PORT_STATUS_ERR_RESP = 0 ∧ (∀ a, a ≠ r_PORT_STATUS d p → getReg t a = getReg s a) ∧ t = { s with regs := t.regs }) ∧
  (∃ t, exec (.portRetrain d p) s = .next t ∧ p.val ∈ (getDie t d).retrain ∧
    ∀ x r, partOf s d = some x → stackIx x.root = some r → 15 ≤ getF t (r_FLASH_PAUSE r) f_FLASH_PAUSE_SEG)

/-- Ports. -/
def Obligations.PortsIsolateOpenAndRetrain : Prop := Claims.isolates ∧ Claims.portWrites ∧ Claims.retrains ∧ Claims.halves

/-! ### The flash tree (R128 to R140) -/

/-- The pause of R132, in units of 256 cc. -/
def Claims.pause (s : State) (d : Stack) : Nat :=
  let g := fun f => getF s (r_FLASH_PAUSE d) f
  max (g f_FLASH_PAUSE_THERM) (max (g f_FLASH_PAUSE_POWER) (g f_FLASH_PAUSE_LAG)) + g f_FLASH_PAUSE_SEG

/-- The root takes the oldest entry of its launch queue with the pause of R132, which uses up SEG, or with the one that it sampled while
the queue was empty; the entry and the pause wait. The dispatcher may then write its next choice. -/
def Claims.takes (s : State) (d : Stack) (first : Bool) (e : LqEntry) (rest : List LqEntry) (u : State) : Prop :=
  (getDie u d).lq = rest ∧ (getDie u d).sampled = none ∧
    getF u (r_FLASH_STATUS d) f_FLASH_STATUS_LQ_COUNT = rest.length % 2 ^ f_FLASH_STATUS_LQ_COUNT.width ∧
    ((getDie s d).sampled = none → (getDie u d).taken = some ⟨e, Claims.pause s d, first, false⟩ ∧ getF u (r_FLASH_PAUSE d) f_FLASH_PAUSE_SEG = 0) ∧
    (∀ p, (getDie s d).sampled = some p → (getDie u d).taken = some ⟨e, p, first, true⟩ ∧ getReg u (r_FLASH_PAUSE d) = getReg s (r_FLASH_PAUSE d))

/-- LAUNCH_QUEUE_TAKE, and FIRST_LAUNCH, which sends the launch at once. The sampling cycle of a root whose queue is empty samples the
pause all the same (R131). -/
def Claims.rootTakes : Prop := ∀ (s : State) (d : Stack), s.canon = true → rootActive s d = true → (getDie s d).taken = none →
  (∀ (first : Bool) (gap : Nat) (e : LqEntry) (rest : List LqEntry), (getDie s d).firstNext = first → (getDie s d).lq = e :: rest →
    ∃ u v, Claims.takes s d first e rest u ∧ (v = u ∨ ∃ p, partIndex s d = some p ∧ v = dispatch p u) ∧
      (if first then exec (.firstLaunch d gap) s = .next (sendLaunch d gap v) else exec (.launchQueueTake d) s = .next (sampleEmpty d v))) ∧
  ((getDie s d).firstNext = false → (getDie s d).lq = [] → (getDie s d).sampled = none →
    ∃ t, exec (.launchQueueTake d) s = .next t ∧ (getDie t d).sampled = some (Claims.pause s d) ∧ (getDie t d).taken = none ∧
      getF t (r_FLASH_PAUSE d) f_FLASH_PAUSE_SEG = 0)

/-- The root sends the launch that it has taken: LAUNCH, or LAUNCH_ELASTIC while ELASTIC is set, to itself from its core, which its node
has 2 cycles after (R128, R131, R133). -/
def Claims.rootSends : Prop := ∀ (s : State) (d : Stack) (l : RootLaunch) (gap : Nat), s.canon = true →
  (getDie s d).taken = some l → (getDie s d).sampled = none → rootActive s d = true →
  (l.first = true ∨ getF s (r_FLASH_STATUS d) f_FLASH_STATUS_ELASTIC_STEP = 0 ∨ treeDone s d = true) →
  let elastic := getF s (r_FLASH_CTRL d) f_FLASH_CTRL_ELASTIC == 1
  let n := sendCycle s d l (elastic || getF s (r_FLASH_STATUS d) f_FLASH_STATUS_ELASTIC_STEP == 1) gap
  ∃ t, exec (.rootLaunchSend d gap) s = .next t ∧
    t.flash = s.flash ++ [⟨d.val, 4, if elastic then .launchElastic else .launch, l.entry.sel, l.entry.tag, n + 2⟩] ∧
    t.hub.launchReports = s.hub.launchReports ++ [(d.val, l.entry.sel, l.entry.tag)] ∧
    (getDie t d).taken = none ∧ (getDie t d).firstNext = false ∧ (getDie t d).stepLen = l.entry.len ∧ (getDie t d).sentAt = n ∧ t.regs = s.regs

/-- In normal mode a launch that was taken in its sampling cycle goes LEN cycles after the last, and the pause of 256 cc units (R131). -/
def Claims.launchesFollow : Prop := ∀ (s : State) (d : Stack) (l : RootLaunch) (gap : Nat), l.first = false → l.late = false →
  sendCycle s d l false gap = (getDie s d).sentAt + (getDie s d).stepLen + 256 * l.pause

/-- A write of FLASH_LQ enters an entry while fewer than four wait and the length is a multiple of TPER; else LQ_BAD or LQ_OVF is set and
nothing enters (R140). -/
def Claims.queueWrites : Prop := ∀ (s : State) (d : Stack) (v : Word), s.canon = true →
  let len := fieldOf f_FLASH_LQ_LEN16 v
  let bad := len = 0 ∨ len * 16 % tper s d 0 ≠ 0
  ∃ t, exec (.flashLqWrite d v) s = .next t ∧ t = { s with regs := t.regs, dies := t.dies } ∧
    (bad → getF t (r_FLASH_STATUS d) f_FLASH_STATUS_LQ_BAD = 1 ∧ t.dies = s.dies) ∧
    (¬bad → 4 ≤ (getDie s d).lq.length → getF t (r_FLASH_STATUS d) f_FLASH_STATUS_LQ_OVF = 1 ∧ t.dies = s.dies) ∧
    (¬bad → (getDie s d).lq.length < 4 →
      (getDie t d).lq = (getDie s d).lq ++ [⟨fieldOf f_FLASH_LQ_SEL v, len * 16, fieldOf f_FLASH_LQ_TAG v⟩] ∧
      getF t (r_FLASH_STATUS d) f_FLASH_STATUS_LQ_COUNT = (getDie s d).lq.length + 1)

/-- DONE of an elastic step that arrives through a port that is not isolated is noted, and a die whose tree is done sends its own toward
the root once (R133); one with a parity error makes the node flood ABORT, with cause PARITY (R130). -/
def Claims.donesCollect : Prop := ∀ (s : State) (d : Stack) (m : FlashMsg), s.canon = true →
  s.flash.find? (fun m => m.die == d.val && m.kind == .done) = some m → closedTo s d m = false →
  (∃ t, exec (.flashDone d true) s = .next t ∧ m.port ∈ (getDie t d).done ∧ (∀ n, n ∈ (getDie s d).done → n ∈ (getDie t d).done) ∧
    (∃ l, t.flash = s.flash.erase m ++ l ∧ ∀ x ∈ l, x.kind = .done) ∧ t.regs = s.regs) ∧
  (getF s (r_FLASH_STATUS d) f_FLASH_STATUS_HALTED = 0 → ∃ t, exec (.flashDone d false) s = .next t ∧
    getF t (r_FLASH_STATUS d) f_FLASH_STATUS_HALTED = 1 ∧ getF t (r_FLASH_STATUS d) f_FLASH_STATUS_CAUSE = 2)

/-- ABORT reaches a die that is not halted, and is ignored where it comes through an isolated port: HALTED is set with cause ABORT, or
PARITY where its parity is wrong, and every core has stopped, holds no launch and runs no step (R130, R139). -/
def Claims.aborts : Prop := ∀ (s : State) (d : Stack) (m : FlashMsg), s.canon = true →
  s.flash.find? (fun m => m.die == d.val && m.kind == .abort) = some m → getF s (r_FLASH_STATUS d) f_FLASH_STATUS_HALTED = 0 →
  ∀ ok : Bool, (closedTo s d m = true → exec (.abort d ok) s = .next { s with flash := s.flash.erase m }) ∧
  (closedTo s d m = false → ∃ t, exec (.abort d ok) s = .next t ∧ getF t (r_FLASH_STATUS d) f_FLASH_STATUS_HALTED = 1 ∧
    getF t (r_FLASH_STATUS d) f_FLASH_STATUS_CAUSE = (if ok then 5 else 2) ∧
    (∀ c, (getCore t d c).running = false ∧ (getCore t d c).stopped = true ∧ (getCore t d c).held = none ∧
      getF t (r_CORE_STATUS d c) f_CORE_STATUS_RUNNING = 0) ∧
    (∀ c, (getCore s d c).running = true → readByte t (tileKey d c (amemBase + poisonOff)) = 1#8) ∧ (getDie t d).taken = none)

/-- REARM clears HALTED and its cause, empties the launch queue, and a first launch follows (R139, R140). -/
def Claims.rearms : Prop := ∀ (s : State) (d : Stack), s.canon = true →
  ∃ t, exec (.rearm d) s = .next t ∧ getF t (r_FLASH_STATUS d) f_FLASH_STATUS_HALTED = 0 ∧ getF t (r_FLASH_STATUS d) f_FLASH_STATUS_CAUSE = 0 ∧
    getF t (r_FLASH_STATUS d) f_FLASH_STATUS_LQ_COUNT = 0 ∧ (getDie t d).lq = [] ∧ (getDie t d).taken = none ∧ (getDie t d).firstNext = true ∧
    (∀ a, a ≠ r_FLASH_STATUS d → getReg t a = getReg s a) ∧ t = { s with regs := t.regs, dies := t.dies }

/-- ELASTIC cleared at a root starts its quiet interval, which ends once no elastic step is unfinished; SLOTPH of every member is then the
root's again (R135). -/
def Claims.quiets : Prop := ∀ (s : State) (d : Stack), s.canon = true →
  (getF s (r_FLASH_CTRL d) f_FLASH_CTRL_ELASTIC = 1 → ∃ t, exec (.elasticClear d) s = .next t ∧
    getF t (r_FLASH_CTRL d) f_FLASH_CTRL_ELASTIC = 0 ∧ (getDie t d).quiet = true ∧ (∀ a, a ≠ r_FLASH_CTRL d → getReg t a = getReg s a)) ∧
  ((getDie s d).quiet = true → (treeDone s d = true ∨ getF s (r_FLASH_STATUS d) f_FLASH_STATUS_ELASTIC_STEP = 0) →
    ∃ t, exec (.quietIntervalEnd d) s = .next t ∧ (getDie t d).quiet = false ∧ t = { s with dies := t.dies, cores := t.cores } ∧
      let n := partNow (updDie d (fun y => { y with quiet := false }) s) d
      ∀ e ∈ stepDies s d, (getDie t e).stepStart = n ∧ (getDie t e).phase = ((getDie s d).phase + (n - (getDie s d).stepStart)) % 4096)

/-- The flash tree and its root. -/
def Obligations.FlashTreeLaunchesAndAborts : Prop :=
  Claims.rootTakes ∧ Claims.rootSends ∧ Claims.launchesFollow ∧ Claims.queueWrites ∧ Claims.donesCollect ∧ Claims.aborts ∧
    Claims.rearms ∧ Claims.quiets

/-! ### Near-bank processors (chapter 6) -/

/-- A running BP stands at a 32-bit instruction of the custom opcodes. -/
def Claims.bpAt (s : State) (d : Stack) (c : CoreIx) (j : BpIx) (w : Nat) (o : BpOp) : Prop :=
  (getBp s d c j.val).run = .running ∧ bpFetch s d c j.val = some (w, 4) ∧ customOp w = some o

/-- A BP goes on with the next word after an instruction that issued in mc `m` and kept the issue port for `issue` mc; the activity of
its layer is counted. -/
def Claims.bpGoesOn (s : State) (d : Stack) (c : CoreIx) (j : BpIx) (m issue act : Nat) (b : Bp) : State :=
  addAct d j.val act (updBp d c j.val (fun _ => { b with mc := m + issue, pc := (getBp s d c j.val).pc + 4 }) s)

/-- x[rs2] in every element of a vector. -/
def Claims.splat (b : Bp) (w : Nat) : BitVec 1024 := vPack (List.replicate 32 (bpX b (fRs2 w)))

/-- The instructions whose result is a vector register: issue mc, latency, activity (R169), and the result (R166, R167); VLIM and VMSK
pass a NaN on as the canonical NaN (R35); `p`: what the instruction read had a parity error. -/
def Claims.vectorRows (d : Stack) (c : CoreIx) (j : BpIx) (p : Bool) : List (Instr × BpOp × Nat × Nat × Nat × (Bp → Nat → BitVec 1024)) :=
  let two := fun (f : BitVec 32 → BitVec 32 → BitVec 32) (b : Bp) (w : Nat) => vMap2 f (bpV b (fRs1 w)) (bpV b (fRs2 w))
  let one := fun (f : BitVec 32 → BitVec 32 → BitVec 32) (b : Bp) (w : Nat) =>
    vMap2 f (bpV b (fRs1 w)) (BitVec.ofNat 1024 (packCodes 32 (List.replicate 32 (bpX b (fRs2 w)).toNat)))
  [(.vopFadd d c j p, .vfadd, 1, 4, 2, two addF32), (.vopFsub d c j p, .vfsub, 1, 4, 2, two subF32), (.vopFmul d c j p, .vfmul, 1, 4, 2, two mulF32),
   (.vopFmax d c j p, .vfmax, 1, 4, 2, two max32), (.vopFmin d c j p, .vfmin, 1, 4, 2, two min32),
   (.vopFmac d c j p, .vfmac, 1, 4, 2, fun b w => vMap2 addF32 (two mulF32 b w) (bpV b (fRd w))),
   (.vopFexp d c j p, .vfexp, 4, 12, 6, fun b w => vPack ((vElems (bpV b (fRs1 w))).map expF32)),
   (.vopFrcp d c j p, .vfrcp, 4, 12, 6, fun b w => vPack ((vElems (bpV b (fRs1 w))).map rcpF32)),
   (.vopsFadd d c j p, .sfadd, 1, 4, 2, one addF32), (.vopsFsub d c j p, .sfsub, 1, 4, 2, one subF32), (.vopsFmul d c j p, .sfmul, 1, 4, 2, one mulF32),
   (.vopsFmax d c j p, .sfmax, 1, 4, 2, one max32), (.vopsFmin d c j p, .sfmin, 1, 4, 2, one min32),
   (.vsplat d c j p, .vsplat, 1, 4, 2, fun b w => BitVec.ofNat 1024 (packCodes 32 (List.replicate 32 (bpX b (fRs2 w)).toNat))),
   (.vlim d c j p, .vlim, 1, 4, 2, fun b w => vSet (vPack ((vElems (bpV b (fRs1 w))).map fun x => encF32 (decF32 x)))
     fun i => if i < (bpX b (fRs2 w)).toNat then none else some 0xFF800000#32),
   (.vmsk d c j p, .vmsk, 1, 4, 2, fun b w => vSet (vPack ((vElems (bpV b (fRs1 w))).map fun x => encF32 (decF32 x)))
     fun i => if (bpX b (fRs2 w)).getLsbD i then none else some 0xFF800000#32),
   (.vcvtLo d c j p, .cvtLo, 1, 4, 2, fun b w => vPack (unpackVals .bf16 32 (bpV b (fRs1 w)).toNat)),
   (.vcvtHi d c j p, .cvtHi, 1, 4, 2, fun b w => vPack (unpackVals .bf16 32 ((bpV b (fRs1 w)).toNat / 2 ^ 512))),
   (.vcvtPack d c j p, .cvtPack, 1, 4, 2, fun b w => BitVec.ofNat 1024 (packCodes 16
      ((vElems (bpV b (fRs1 w)) ++ vElems (bpV b (fRs2 w))).map fun e => convertFmt .fp32 .bf16 e.toNat))),
   (.k4qk d c j p, .k4qk, 1, 6, 8, fun b w => k4qkVal b (bpV b (fRd w)) (bpV b (fRs1 w)) ((bpX b (fRs2 w)).toNat % 16) (fF7 w % 2)),
   (.qoff d c j p, .qoff, 1, 6, 8, fun b w => qRows (bpV b (fRd w)) (fun r => (vBf16 (bpV b (fRs1 w))).zipIdx.map fun e =>
      mulVal (qfVal b r (64 * (fF7 w % 2) + e.2)) e.1) ((fF7 w).testBit 1) 0#32),
   (.qbnd d c j p, .qbnd, 1, 6, 8, fun b w => qRows (bpV b (fRd w)) (fun r => ((vBf16 (bpV b (fRs1 w))).zip (vBf16 (bpV b (fRs2 w)))).zipIdx.map fun e =>
      maxVal (mulVal (qfVal b r (64 * (fF7 w % 2) + e.2)) e.1.1) (mulVal (qfVal b r (64 * (fF7 w % 2) + e.2)) e.1.2))
      ((fF7 w).testBit 1) 0xFF800000#32)]

/-- Each gives its result to v[rd], ready after its latency. -/
def Claims.vectorResults : Prop := ∀ (s : State) (d : Stack) (c : CoreIx) (j : BpIx) (w : Nat) (i : Instr) (o : BpOp) (issue lat act : Nat)
    (v : Bp → Nat → BitVec 1024) (p : Bool),
  (i, o, issue, lat, act, v) ∈ Claims.vectorRows d c j p → Claims.bpAt s d c j w o →
  let b := getBp s d c j.val
  let m := bpWait b (vecSources o w)
  exec i s = .next (bpParity d c j.val p (Claims.bpGoesOn s d c j m issue act (readyAt (32 + fRd w) (m + lat) (setV (fRd w) (v b w) b))))

/-- VRED, K4AV, K4Q and the OACC instructions: sums and maxima to x[rd], OACC with its rounding order, codes and their scale, quarters of
OACC (R166, R167). -/
def Claims.otherResults : Prop := ∀ (s : State) (d : Stack) (c : CoreIx) (j : BpIx) (w : Nat) (p : Bool),
  let b := getBp s d c j.val
  let m := fun o => bpWait b (vecSources o w)
  let on := fun o issue act b' => (Host.Outcome.next (bpParity d c j.val p (Claims.bpGoesOn s d c j (m o) issue act b')) : Host.Outcome State Fault Refusal)
  let v1 := bpV b (fRs1 w)
  let h := fF7 w % 8
  let q := k4qVal (bpV b (fRd w)) v1 (bpV b (fRs2 w)) ((fF7 w).testBit 3) h
  let n := (bpX b (fRs1 w)).toNat
  (Claims.bpAt s d c j w .redSum → exec (.vredRsum d c j p) s = on .redSum 1 2 (readyAt (fRd w) (m .redSum + 6) (setX (fRd w) (pairTree 5 (vElems v1)) b))) ∧
  (Claims.bpAt s d c j w .redMax → exec (.vredRmax d c j p) s = on .redMax 1 2 (readyAt (fRd w) (m .redMax + 6) (setX (fRd w) (rmax (vElems v1)) b))) ∧
  (Claims.bpAt s d c j w .k4av → exec (.k4av d c j p) s = on .k4av 1 8 (readyAt 50 (m .k4av + 6)
    (k4avPos v1 (bpV b (fRs2 w)) ((bpX b (fRs2 w)).toNat % 16) (fF7 w % 2) 1 (k4avPos v1 (bpV b (fRs2 w)) ((bpX b (fRs2 w)).toNat % 16) (fF7 w % 2) 0 b)))) ∧
  (Claims.bpAt s d c j w .k4q → exec (.k4q d c j p) s = on .k4q 1 8 (readyAt (32 + fRd w) (m .k4q + 6) (setV (fRd w) q.1 (readyAt 49 (m .k4q + 6)
    { b with sr := (b.sr &&& ~~~(BitVec.ofNat 1024 (0xFF * 2 ^ (8 * h)))) ||| BitVec.ofNat 1024 (q.2.toNat * 2 ^ (8 * h)) })))) ∧
  (Claims.bpAt s d c j w .oaccrd → n < 32 → exec (.oaccrd d c j p) s = on .oaccrd 1 2 (readyAt (32 + fRd w) (m .oaccrd + 4)
    (setV (fRd w) (vPack ((List.range 32).map fun i => oaccAt b (n / 4) (32 * (n % 4) + i))) b))) ∧
  (Claims.bpAt s d c j w .oaccscl → exec (.oaccscl d c j p) s = on .oaccscl 4 2 (readyAt 50 (m .oaccscl + 6)
    ((List.range 128).foldl (fun a e => setOacc (n % 8) e (mulF32 (oaccAt b (n % 8) e) (bpX b (fRs2 w))) a) b))) ∧
  (Claims.bpAt s d c j w .oaccclr → exec (.oaccclr d c j p) s = on .oaccclr 1 2 (readyAt 50 (m .oaccclr + 1) { b with oacc := [] }))

/-- Loads and stores of scratch (R144, R166): `n` bytes inside the BP's scratch are read or written; VLD and VST with i = 1 then move
x[rs1] on; nothing but those bytes changes in memory. QLD reads in two mc; what a store writes is ready 2 mc after it (R169). -/
def Claims.scratchAccesses : Prop := ∀ (s : State) (d : Stack) (c : CoreIx) (j : BpIx) (w off : Nat), memWf s.mem = true →
  let b := getBp s d c j.val
  let k := scratchKey d c j.val off
  let a := (bpX b (fRs1 w)).toNat
  let load := fun (i : Bool → Instr) (o : BpOp) (n : Nat) (f : Nat → Bp → Bp) (issue : Nat) =>
    Claims.bpAt s d c j w o → inScratch a n = some off →
    let m := max (bpWait b (vecSources o w)) (bpWait b (scratchKeys off n))
    ∀ p, exec (i p) s = .next (bpParity d c j.val p (Claims.bpGoesOn s d c j m issue 2 (f m b)))
  let store := fun (i : Bool → Instr) (o : BpOp) (v : BitVec 1024) =>
    Claims.bpAt s d c j w o → inScratch a 128 = some off →
    let m := max (bpWait b (vecSources o w)) (bpWait b (scratchKeys off 128))
    ∃ t, (∀ p, exec (i p) s = .next (bpParity d c j.val p t)) ∧ readMem t k 128 = v.toNat ∧
      (∀ x, x < k ∨ k + 128 ≤ x → readByte t x = readByte s x) ∧ (getBp t d c j.val).v = b.v ∧ t.regs = s.regs ∧
      ∀ q ∈ scratchKeys off 128, sget 0 (getBp t d c j.val).ready q = m + 2
  load (.vld d c j) .vld 128 (fun m b => useScratch off 128 m
    (readyAt (32 + fRd w) (m + 2) (setV (fRd w) (BitVec.ofNat 1024 (readMem s k 128)) (bumpX w m b)))) 1 ∧
  load (.qld d c j) .qld 256 (fun m b => useScratch (off + 128) 128 (m + 1) (useScratch off 128 m
    (readyAt 48 (m + 2) { b with qf := sput 0 b.qf (fRd w) (BitVec.ofNat 2048 (readMem s k 256)) }))) 2 ∧
  load (.sld d c j) .sld 128 (fun m b => useScratch off 128 m (readyAt 49 (m + 2) { b with sr := BitVec.ofNat 1024 (readMem s k 128) })) 1 ∧
  store (.vst d c j) .vst (bpV b (fRs2 w)) ∧ store (.sst d c j) .sst b.sr

/-- The vector instructions of the near-bank processors. -/
def Obligations.BpVectorInstructionsExecute : Prop := Claims.vectorResults ∧ Claims.otherResults ∧ Claims.scratchAccesses

/-- The scalar instructions (R143, R169): one whose operation writes a register and goes on at an address does so, and x0 stays zero; a
16-bit one acts as the 32-bit one that it stands for, and its successor follows 2 bytes later. -/
def Claims.scalarSteps : Prop := ∀ (s : State) (d : Stack) (c : CoreIx) (j : BpIx) (h w len rd issue lat : Nat) (v pc : BitVec 32)
    (p : Bool),
  (getBp s d c j.val).run = .running → bpFetch s d c j.val = some (h, len) →
  (len = 4 ∧ w = h ∧ customOp w = none ∨ len = 2 ∧ expandC h = some w) →
  scalarOp (getBp s d c j.val) w len = .step rd v pc issue lat →
  let m := bpWait (getBp s d c j.val) (scalarSources w)
  exec (.rv32imcInstruction d c j false p) s = .next (bpParity d c j.val p (addAct d j.val 1 (updBp d c j.val (fun b =>
    { readyAt rd (m + lat) (setX rd v b) with mc := m + issue, pc := pc }) s)))

/-- Aligned scalar loads from program memory or scratch, sign- or zero-extended, and aligned scalar stores to scratch (R144). -/
def Claims.scalarMemory : Prop := ∀ (s : State) (d : Stack) (c : CoreIx) (j : BpIx) (w rd a n k : Nat) (sg : Bool) (v : BitVec 32), s.canon = true →
  (getBp s d c j.val).run = .running → bpFetch s d c j.val = some (w, 4) → customOp w = none → a % n = 0 → n ∈ [1, 2, 4] →
  (scalarOp (getBp s d c j.val) w 4 = .load rd a n sg → loadKey d c j.val a n = some k →
    ∃ t, (∀ p, exec (.rv32imcInstruction d c j false p) s = .next (bpParity d c j.val p t)) ∧
      (getBp t d c j.val).x = (setX rd (if sg then w32 (sext (8 * n) (readMem s k n)) else BitVec.ofNat 32 (readMem s k n)) (getBp s d c j.val)).x ∧
      (getBp t d c j.val).pc = (getBp s d c j.val).pc + 4 ∧ (∀ x, readByte t x = readByte s x)) ∧
  (scalarOp (getBp s d c j.val) w 4 = .store a n v → inScratch a n = some k →
    ∃ t, (∀ p, exec (.rv32imcInstruction d c j false p) s = .next (bpParity d c j.val p t)) ∧ readMem t (scratchKey d c j.val k) n = v.toNat % 2 ^ (8 * n) ∧
      (getBp t d c j.val).x = (getBp s d c j.val).x ∧ (getBp t d c j.val).pc = (getBp s d c j.val).pc + 4 ∧
      (∀ x, x < scratchKey d c j.val k ∨ scratchKey d c j.val k + n ≤ x → readByte t x = readByte s x))

/-- The causes of R152: an encoding that is no instruction is ILLEGAL, a misaligned access MISALIGNED, one outside the BP's spaces or a pc
outside program memory ACCESS, ECALL and EBREAK themselves, an uncorrectable word FETCH_UE. A load or store has waited for its sources
(R143). The BP stops, trapped, and its pc stays. -/
def Claims.scalarTraps : Prop := ∀ (s : State) (d : Stack) (c : CoreIx) (j : BpIx) (w : Nat) (p : Bool), s.canon = true →
  (getBp s d c j.val).run = .running →
  let b := getBp s d c j.val
  let m := bpWait b (scalarSources w)
  let row := fun (ue : Bool) (t : State) => exec (.rv32imcInstruction d c j ue p) s = .next t
  let late := fun (cause : Nat) => row false (bpParity d c j.val p (bpTrapAt d c j.val m cause s))
  (bpFetch s d c j.val = none → ∀ ue, row ue (bpTrap d c j.val 2 s)) ∧
  (∀ n, bpFetch s d c j.val = some (w, n) → row true (bpTrap d c j.val 5 s)) ∧
  (bpFetch s d c j.val = some (w, 2) → expandC w = none → row false (bpTrap d c j.val 0 s)) ∧
  (bpFetch s d c j.val = some (w, 4) → customOp w = none →
    (∀ cause, scalarOp b w 4 = .trap cause → row false (bpParity d c j.val p (bpTrap d c j.val cause s))) ∧
    (∀ rd a n sg, scalarOp b w 4 = .load rd a n sg → (a % n ≠ 0 → late 1) ∧ (a % n = 0 → loadKey d c j.val a n = none → late 2)) ∧
    (∀ a n v, scalarOp b w 4 = .store a n v → (a % n ≠ 0 → late 1) ∧ (a % n = 0 → inScratch a n = none → late 2))) ∧
  ∀ cause, (getBp (bpTrap d c j.val cause s) d c j.val).run = .trapped ∧ (getBp (bpTrap d c j.val cause s) d c j.val).pc = b.pc

/-- The scalar core of the near-bank processors. -/
def Obligations.BpScalarInstructionsExecuteOrTrap : Prop := Claims.scalarSteps ∧ Claims.scalarMemory ∧ Claims.scalarTraps

/-- The bank instructions on legal ranges (R168): BV.LDR, BV.STR, BV.CPY, BV.STP, BV.FENCE, BV.HALT. -/
def Claims.bankInstructions : Prop := ∀ (s : State) (d : Stack) (c : CoreIx) (j : BpIx) (w sc : Nat) (p : Bool),
  let b := getBp s d c j.val
  let off := (bpX b (fRs1 w)).toNat
  let n := fF7 w % 16 + 1
  (Claims.bpAt s d c j w .bvLdr → bankRange off n = true → inScratch (bpX b (fRs2 w)).toNat (128 * n) = some sc →
    exec (.bvLdr d c j p) s = .next (bpParity d c j.val p (bvLdr d c j.val w s))) ∧
  (Claims.bpAt s d c j w .bvStr → bankRange off n = true → inScratch (bpX b (fRs2 w)).toNat (128 * n) = some sc →
    exec (.bvStr d c j p) s = .next (bpParity d c j.val p (bvStr d c j.val w s))) ∧
  (Claims.bpAt s d c j w .bvStp → off % 64 + (fF7 w + 1) ≤ 64 → off < 2 ^ 26 → inScratch (bpX b (fRs2 w)).toNat (fF7 w + 1) = some sc →
    exec (.bvStp d c j p) s = .next (bpParity d c j.val p (bvStp d c j.val w s))) ∧
  (Claims.bpAt s d c j w .bvCpy → bankRange off n = true → bankRange (bpX b (fRs2 w)).toNat n = true →
    exec (.bvCpy d c j p) s = .next (bpParity d c j.val p (bvCpy d c j.val w s))) ∧
  (Claims.bpAt s d c j w .bvFence → exec (.bvFence d c j p) s = .next (bpParity d c j.val p (bvFence d c j.val false s))) ∧
  (Claims.bpAt s d c j w .bvHalt → exec (.bvHalt d c j p) s = .next (bpParity d c j.val p (bvFence d c j.val true s)))

/-- BV.STP of bytes that leave an entry open, to a word with no live entry while the merge buffer has room, adds that entry and changes
no memory (R160). -/
def Claims.partialStores : Prop := ∀ (s : State) (d : Stack) (c : CoreIx) (j : BpIx) (w sc : Nat), s.canon = true →
  let b := getBp s d c j.val
  let off := (bpX b (fRs1 w)).toNat
  let n := fF7 w + 1
  let word := off / 64 * 64
  Claims.bpAt s d c j w .bvStp → off % 64 + n ≤ 64 → off < 2 ^ 26 → inScratch (bpX b (fRs2 w)).toNat n = some sc →
  liveEntry b.merge word = none → b.merge.length < 4 → n < 64 →
  let m := bpWait b ([fRs1 w, fRs2 w] ++ scratchKeys sc n)
  ∃ t, (∀ p, exec (.bvStp d c j p) s = .next (bpParity d c j.val p t)) ∧
    (getBp t d c j.val).merge = b.merge ++
      [⟨word, maskBytes (maskFor word off n) 0 (dataFor word off (readMem s (scratchKey d c j.val sc) n)), maskFor word off n, m⟩] ∧
    (getBp t d c j.val).pc = b.pc + 4 ∧ (∀ k, readByte t k = readByte s k) ∧ t.regs = s.regs

/-- BV.FENCE and BV.HALT leave the merge buffer empty; HALT stops the BP (R168, R174). -/
def Claims.fencesEmpty : Prop := ∀ (s : State) (d : Stack) (c : CoreIx) (j : BpIx) (w : Nat), s.canon = true →
  (Claims.bpAt s d c j w .bvFence → ∃ t, (∀ p, exec (.bvFence d c j p) s = .next (bpParity d c j.val p t)) ∧ (getBp t d c j.val).merge = [] ∧
    (getBp t d c j.val).run = .running ∧ (getBp t d c j.val).pc = (getBp s d c j.val).pc + 4) ∧
  (Claims.bpAt s d c j w .bvHalt → ∃ t, (∀ p, exec (.bvHalt d c j p) s = .next (bpParity d c j.val p t)) ∧ (getBp t d c j.val).merge = [] ∧
    (getBp t d c j.val).run = .halted ∧ (getBp t d c j.val).pc = (getBp s d c j.val).pc)

/-- A merge entry that times out is written back; a stopped BP traps with STOPPED and its entries are discarded (R151, R160, R174). -/
def Claims.timeoutsAndStops : Prop := ∀ (s : State) (d : Stack) (c : CoreIx) (j : BpIx), s.canon = true →
  (∀ e r, (getBp s d c j.val).merge = e :: r →
    exec (.bpMergeTimeout d c j) s =
      .next (bpWriteBack d c j.val (e.taken + 4 * max 1 (getF s (r_BP_CTRL d j.val c) f_BP_CTRL_MTO)) e s).2) ∧
  ((getBp s d c j.val).run = .running → ∃ t, exec (.bpStop d c j) s = .next t ∧ (getBp t d c j.val).run = .trapped ∧
    (getBp t d c j.val).merge = [] ∧ (getBp t d c j.val).owned = false)

/-- Bank instructions and the merge buffer. -/
def Obligations.BpBankInstructionsExecute : Prop :=
  Claims.bankInstructions ∧ Claims.partialStores ∧ Claims.fencesEmpty ∧ Claims.timeoutsAndStops

/-! ### Memory controllers (chapters 9 to 11) -/

/-- A host window of a BP-owned group is passed, and in every bank's slot that is not reserved for refresh the first waiting request that
arrived in time is answered; no answer is lost (R153 to R155). -/
def Claims.hostWindows : Prop := ∀ (s : State) (d : Stack) (c : CoreIx) (j : BpIx), s.canon = true →
  let b := getBp s d c j.val
  let ext := getF s (r_BP_CTRL d j.val c) f_BP_CTRL_REFBAND == 1
  b.owned = true →
  ∃ t, exec (.hostWindow d c j) s = .next t ∧ (getBp t d c j.val).win = b.win + 1 ∧ (getBp t d c j.val).run = b.run ∧
    (∀ k, k < 4 → refreshSlot ext b.win k = false → ∀ r rest, sget [] (getVc s d c).queue (4 * j.val + k) = r :: rest →
      r.arrived ≤ b.w0 + 4096 * b.win - 64 + 4 * k → ∃ a ∈ (getVc t d c).answers, a.id = r.id) ∧
    (∀ a ∈ (getVc s d c).answers, a ∈ (getVc t d c).answers)

/-- A controller window is passed; a bank number whose slot is not reserved for refresh serves a request where one that arrived in time waits
in a controller-owned group, unless a recheck waits for it (R262, R291); without either, the slot stays free. -/
def Claims.controllerWindows : Prop := ∀ (s : State) (d : Stack) (c : CoreIx), s.canon = true →
  let k := (getVc s d c).win
  let ext := getF s (r_VC_CTRL d c) f_VC_CTRL_REFBAND == 1
  ∃ t, exec (.controllerWindow d c) s = .next t ∧ (getVc t d c).win = k + 1 ∧
    (∀ a ∈ (getVc s d c).answers, a ∈ (getVc t d c).answers) ∧
    (∀ b j r rest, b < 4 → refreshSlot ext k b = false → recheckWaits s d c b = false → j ∈ ctlGroups s d c →
      sget [] (getVc s d c).queue (4 * j + b) = r :: rest → r.arrived ≤ 4096 * k + 4 * b →
      (getVc s d c).answers.length < (getVc t d c).answers.length) ∧
    (∀ b, b < 4 → refreshSlot ext k b = false → (recheckWaits s d c b = true ∨ hostWaits s d c b = false) → b ∈ (getVc t d c).slots)

/-- A frame of an LPDDR device is passed: for every channel for which no recheck waits, the first waiting part of an access leaves its queue,
and one that completes its access answers it; a channel for which nothing waits leaves its slot free (R271, R274, R291). -/
def Claims.lpFrames : Prop := ∀ (s : State) (d : Stack), s.canon = true →
  ∃ t, exec (.lpddrFrame d) s = .next t ∧ (getLp t d).frame = (getLp s d).frame + 1 ∧
    (∀ ch r rest, ch < 8 → lpRecheckWaits s d ch = false → sget [] (getLp s d).queue ch = r :: rest →
      sget [] (getLp t d).queue ch = rest ∧
      ((∀ j, (getLp s d).joins.find? (fun j => j.id == r.id) = some j → j.left = 1) → ∃ a ∈ (getLp t d).answers, a.id = r.id)) ∧
    (∀ ch, ch < 8 → (lpRecheckWaits s d ch = true ∨ sget [] (getLp s d).queue ch = []) → ch ∈ (getLp t d).slots) ∧
    (∀ a ∈ (getLp s d).answers, a ∈ (getLp t d).answers)

/-- Host and transit accesses at a controller (R155, R256, R264, R274): one to BP space is answered at once; one that names no memory of the
unit is answered with an error; one of a die that runs no graph is served at once; any other waits in its bank's queue, last, or with each of
its sectors in the queue of the sector's channel, last. -/
def Claims.accessesArrive : Prop := ∀ (s : State) (d : Stack) (c : CoreIx) (id addr len data arrived : Nat) (write : Bool) (e : Upsets),
  s.canon = true →
  let u : Fin 17 := ⟨c.val, by omega⟩
  let r : HostReq := ⟨id, write, addr, len, data, arrived, e⟩
  let lr : HostReq := ⟨id, write, addr, len, data, 0, e⟩
  let vault := fun (P : State → Prop) => (∃ t, exec (.vaultHostRequest d c id write addr len data arrived e) s = .next t ∧ P t) ∧
    ∃ t, exec (.hostQueueArrival d c id write addr len data arrived e) s = .next t ∧ P t
  let lpddr := fun (P : State → Prop) => ∃ t, exec (.lpddrHostRequest d id write addr len data e) s = .next t ∧ P t
  (∀ k, bpSpaceKey d c addr = some k → bpSpaceKey d c (addr + len - 1) = some (k + len - 1) → len ≠ 0 →
    vault fun t => t = if write then addAnswer d u ⟨id, false, 0⟩ (writeMem k len data s) else addAnswer d u ⟨id, false, readMem s k len⟩ s) ∧
  ((bpSpaceKey d c addr = none ∨ bpSpaceKey d c (addr + len - 1) = none) →
    (hostInside s d u addr len = false → vault fun t => t = addAnswer d u ⟨id, true, 0⟩ s) ∧
    (hostInside s d u addr len = true → partLoaded s d = false → bpOwns s d c (mapVault s d c addr).1 = false →
      vault fun t => t = serveHost d u r s) ∧
    (hostInside s d u addr len = true → (partLoaded s d = true ∨ bpOwns s d c (mapVault s d c addr).1 = true) →
      vault fun t => sget [] (getVc t d c).queue (hostQueueKey s d u addr) = sget [] (getVc s d c).queue (hostQueueKey s d u addr) ++ [r] ∧
        t = { s with vcs := t.vcs, regs := t.regs })) ∧
  (hostInside s d 16 addr len = false → lpddr fun t => t = addAnswer d 16 ⟨id, true, 0⟩ s) ∧
  (hostInside s d 16 addr len = true → partLoaded s d = false → lpddr fun t => t = serveHost d 16 lr s) ∧
  (hostInside s d 16 addr len = true → partLoaded s d = true →
    lpddr fun t => (getLp t d).joins = (getLp s d).joins ++ [⟨id, addr, (wordsOf addr len).length, false, 0⟩] ∧
      (∀ ch, sget [] (getLp t d).queue ch = sget [] (getLp s d).queue ch ++
        ((wordsOf addr len).filter fun w => hostQueueKey s d 16 w == ch).map (sectorPart lr)) ∧
      t = { s with lps := t.lps })

/-- Windows, frames and accesses. -/
def Obligations.ControllersServeHostAccesses : Prop :=
  Claims.hostWindows ∧ Claims.controllerWindows ∧ Claims.lpFrames ∧ Claims.accessesArrive

/-- Retraining of LPDDR channels (R275, R276): a request puts a channel that has not failed into full retraining of 32 segments; a segment
that it passes in a pause ends that, counts in SEGS and clears SINCE; a regular segment goes to the next active channel; the 32nd failure in
a row fails the channel; outside a pause nothing is trained. -/
def Claims.lpRetraining : Prop := ∀ (s : State) (d : Stack) (ch : Fin 8), s.canon = true →
  let full := fun (t : State) => sget 0 (getLp t d).fullLeft ch.val = 32 ∧ getF t (r_LP_CHAN d ch.val) f_LP_CHAN_STATE = 2
  let passed := fun (t : State) (n : Nat) => getF t (r_LP_CHAN d n) f_LP_CHAN_SINCE = 0 ∧
    getF t (r_LP_STATUS d) f_LP_STATUS_SEGS = (getF s (r_LP_STATUS d) f_LP_STATUS_SEGS + 1) % 2 ^ f_LP_STATUS_SEGS.width
  (lpChanFailed s d ch.val = false → ∃ t, exec (.lpddrChannelRetrain d ch) s = .next t ∧ full t) ∧
  (segmentOpen s d = false → ∀ ok, exec (.lpddrRetrainSegment d ok) s = .next s) ∧
  (segmentOpen s d = true → (List.range 8).find? (fun n => decide (sget 0 (getLp s d).fullLeft n ≠ 0)) = some ch.val →
    (∃ t, exec (.lpddrRetrainSegment d true) s = .next t ∧ getF t (r_LP_CHAN d ch.val) f_LP_CHAN_STATE = 1 ∧ passed t ch.val) ∧
    (sget 0 (getLp s d).fullLeft ch.val = 1 → ∃ t, exec (.lpddrRetrainSegment d false) s = .next t ∧
      getF t (r_LP_CHAN d ch.val) f_LP_CHAN_STATE = 3 ∧ lpChanFailed t d ch.val = true ∧ d.val ∈ t.hub.lpLost)) ∧
  (segmentOpen s d = true → (∀ n, n < 8 → sget 0 (getLp s d).fullLeft n = 0) → (getLp s d).due = true →
    ((lpActive s d).filter fun n => !lpChanFailed s d n).find? (fun n => decide ((getLp s d).nextChan ≤ n)) = some ch.val →
    ∃ t, exec (.lpddrRetrainSegment d true) s = .next t ∧ (getLp t d).nextChan = ch.val + 1 ∧ (getLp t d).due = false ∧ passed t ch.val)

/-- Retraining of a vault (R259 to R261): the request shows in RETRAINING; a segment of a pause that finds both halves trainable switches the
spares in and keeps the width, and waits outside a pause; a vault that has lost a half changes at the next step boundary. -/
def Claims.vaultRetraining : Prop := ∀ (s : State) (d : Stack) (c : CoreIx) (v : VaultTest) (w : Nat), s.canon = true →
  let st := r_VC_STATUS d c
  (∃ t, exec (.vaultRetrain d c) s = .next t ∧ getF t st f_VC_STATUS_RETRAINING = 1 ∧ (getVc t d c).retrainReq = true) ∧
  (segmentOpen s d = false → exec (.vaultRetrainSegment d c v) s = .next s) ∧
  ((getVc s d c).retrainReq = true → segmentOpen s d = true → v.command ≤ 16 → v.half0 ≤ 40 → v.half1 ≤ 40 →
    ∃ t, exec (.vaultRetrainSegment d c v) s = .next t ∧ getF t st f_VC_STATUS_RETRAINING = 0 ∧
      getF t st f_VC_STATUS_WIDTH = getF s st f_VC_STATUS_WIDTH ∧ getF t st f_VC_STATUS_DSPARES = v.half0 + v.half1 ∧
      getF t st f_VC_STATUS_CSPARES = v.command ∧ (getVc t d c).retrainReq = false) ∧
  ((getVc s d c).nextWidth = some w → dieRuns s d = false → ∃ t, exec (.vaultHalfWidth d c) s = .next t ∧
    getF t st f_VC_STATUS_WIDTH = w % 2 ^ f_VC_STATUS_WIDTH.width ∧ (getVc t d c).nextWidth = none) ∧
  (dieRuns s d = true → exec (.vaultHalfWidth d c) s = .next s)

/-- Retraining of memory interfaces. -/
def Obligations.MemoryInterfacesRetrain : Prop := Claims.lpRetraining ∧ Claims.vaultRetraining

/-- A recheck reads its word again in its slot: a word still bad is recorded where it is stored, stops the die's partition and is reported; a
good one is let go (R291). In a controller-owned group it waits while its slot is not free. -/
def Claims.rechecks : Prop := ∀ (s t : State) (d : Stack) (u : Fin 17) (e : Upsets) (r : Recheck) (rest : List Recheck) (v : BitVec 512)
  (o : CodeOutcome), getRechecks s d u = r :: rest →
  let p := if uOwned s d u r.addr then (true, s) else takeSlots d u [r.addr] s
  (p.1 = true → uLoad d u r.addr e (setRechecks d u rest p.2) = (some (v, o), t) →
    exec (.recheck d u e) s = .next (if badOutcome o
      then reportWord (if r.fetch then 2 else 1) (devAddr d u r.addr) (stopPartition d (uBad d u r.addr o t)) else t)) ∧
  (uOwned s d u r.addr = false → slotKey s d u r.addr ∉ freeSlots s d u → exec (.recheck d u e) s = .next s)

/-- Drizzle (R294): an enabled read of four words whose slots are free moves the position past them; past the last word the pass ends and is
counted in PASSES; a corrected word is written back whole and leaves the list. -/
def Claims.drizzles : Prop := ∀ (s : State) (d : Stack) (u : Fin 17) (late : Bool) (e : Upsets) (a : Nat), s.canon = true →
  let r := uDrizzleReg d u
  let lateS := putF r f_DRIZZLE_CTRL_LATE (if late then 1 else 0) s
  let words := (List.range 4).map fun i => a + 64 * i
  let free := fun (x : State) (w : Nat) => scrubAllowed x d u w = true ∧ slotKey x d u w ∈ freeSlots x d u
  (getF s r f_DRIZZLE_CTRL_EN = 1 → nextScrub lateS d u (getScrub lateS d u).1 = some a → (∀ w ∈ words, free lateS w) →
    ∃ t, exec (.drizzleRead d u late e) s = .next t ∧ (getScrub t d u).1 = a + 256 ∧ ∀ w ∈ words, slotKey lateS d u w ∉ freeSlots t d u) ∧
  (getF s r f_DRIZZLE_CTRL_EN = 1 → nextScrub lateS d u (getScrub lateS d u).1 = none →
    ∃ t, exec (.drizzleRead d u late e) s = .next t ∧ (getScrub t d u).1 = 0 ∧ (getScrub t d u).2.2.1 = (getScrub s d u).2.2.2 ∧
      (getScrub t d u).2.2.2 = [] ∧ getF t r f_DRIZZLE_CTRL_PASSES = (getF s r f_DRIZZLE_CTRL_PASSES + 1) % 2 ^ f_DRIZZLE_CTRL_PASSES.width) ∧
  (∀ v rest, (getScrub s d u).2.1 = (a, v) :: rest → free s a →
    exec (.drizzleWriteback d u e) s = .next (uStore d u a wOther e v
      (setScrub d u ((getScrub s d u).1, rest, (getScrub s d u).2.2.1, (getScrub s d u).2.2.2) (takeSlots d u [a] s).2)))

/-- In a pause, or while nothing is launched, a row test takes the first candidate row (R295, R296): a sound row is written back; a failing one is
remapped while its bank has a spare row, and retired otherwise. An armed ECC_FLIPMASK that corrupts the test's pattern fails it (R289, log
entry 94). -/
def Claims.rowTests : Prop := ∀ (s : State) (d : Stack) (u : Fin 17) (sound spare : Bool) (frame : Option Nat) (row : Nat) (rest : List Nat),
  let p := setCandidates d u rest s
  let m := getReg s (uFlipReg d u)
  let free := match unitCore u with | some _ => decide (sget 0 (getRemaps s d u) (rowBank u row) < 32) | none => spare
  getCandidates s d u = row :: rest → segmentOpen s d = true →
  (flipMatches m wOther 99 = false →
    exec (.rowTest d u true spare frame) s = .next (rewriteRow d u row p) ∧
    exec (.rowTest d u false spare frame) s = .next
      (if free then logRepair d u row 1 (addRemap d u (rowBank u row) (rewriteRow d u row p)) else retireRow d u row frame p)) ∧
  (flipMatches m wOther 99 = true → flipWord m ⟨0, 0⟩ ≠ ⟨0, 0⟩ →
    exec (.rowTest d u sound spare frame) s = exec (.rowTest d u false spare frame) s)

/-- The oldest entry of a controller's merge buffer is written back and leaves it (R288). -/
def Claims.mergesTimeOut : Prop := ∀ (s : State) (d : Stack) (u : Fin 17) (p : Upsets) (e : MergeEntry) (rest : List MergeEntry),
  uMerge s d u = e :: rest → exec (.mergeEntryTimeout d u p) s = .next (writeBack d u e p s)

/-- A write of ECC_FLIPMASK arms it (R289); the other registers and memory keep their contents. -/
def Claims.flipmaskArms : Prop := ∀ (s : State) (d : Stack) (c : CoreIx) (v : Word), s.canon = true →
  exec (.eccFlipmaskArm d ⟨c.val, by omega⟩ v) s = .next (softWrite (r_ECC_FLIPMASK d c) v s) ∧
  exec (.eccFlipmaskArm d 16 v) s = .next (softWrite (r_ECC_FLIPMASK_LP d) v s)

/-- Rechecks, Drizzle, row tests and the merge buffers of the controllers. -/
def Obligations.StoredDataIsCheckedAndRepaired : Prop :=
  Claims.rechecks ∧ Claims.drizzles ∧ Claims.rowTests ∧ Claims.mergesTimeOut ∧ Claims.flipmaskArms

/-! ### Error records (R297 to R302) -/

/-- A write of 1 to ERR_STATUS.PV (R298): with a secondary record held, that record becomes the primary one and the secondary register is
freed; without one the primary is freed. The unit bits and the overflow count stay. -/
def Claims.primaryClears : Prop := ∀ (s : State) (st : Station), s.canon = true →
  let b := stBase st
  (getF s b f_ERR_STATUS_SV = 1 → ∃ t, exec (.errPrimaryClear st) s = .next t ∧ getReg t (b + 0x08) = getReg s (b + 0x10) ∧ getReg t (b + 0x10) = 0 ∧
    getF t b f_ERR_STATUS_SV = 0 ∧ getF t b f_ERR_STATUS_PV = getF s b f_ERR_STATUS_PV ∧ (∀ u, u < 48 → inService t st u = inService s st u) ∧
    (∀ a, a ≠ b → a ≠ b + 0x08 → a ≠ b + 0x10 → getReg t a = getReg s a) ∧ t = { s with regs := t.regs }) ∧
  (getF s b f_ERR_STATUS_SV = 0 → ∃ t, exec (.errPrimaryClear st) s = .next t ∧ getReg t (b + 0x08) = 0 ∧ getF t b f_ERR_STATUS_PV = 0 ∧
    (∀ u, u < 48 → inService t st u = inService s st u) ∧ (∀ a, a ≠ b → a ≠ b + 0x08 → getReg t a = getReg s a) ∧ t = { s with regs := t.regs })

/-- ERR_ESCALATE.STOP marks the die STOPPED and, in a partition, asks for a stop at the next step start; there the die floods ABORT and halts
(R302). -/
def Claims.stops : Prop := ∀ (s : State) (d : Stack), s.canon = true →
  (∃ t, exec (.stopPartition d) s = .next t ∧ getF t (r_ERR_STATUS_die d) f_ERR_STATUS_STOPPED = 1 ∧
    getDie t d = { getDie s d with stopPending := (getDie s d).stopPending || (partOf s d).isSome }) ∧
  ((getDie s d).stopPending = true → getF s (r_FLASH_STATUS d) f_FLASH_STATUS_HALTED = 0 →
    ∃ t, exec (.stopAbort d) s = .next t ∧ (getDie t d).stopPending = false ∧ getF t (r_FLASH_STATUS d) f_FLASH_STATUS_HALTED = 1 ∧
      getF t (r_FLASH_STATUS d) f_FLASH_STATUS_CAUSE = 5)

/-- Error records and the stop of a partition. -/
def Obligations.ErrorRecordsClearAndStops : Prop := Claims.primaryClears ∧ Claims.stops

/-! ### Sessions and rings by command (chapters 7 and 12) -/

/-- OPEN_SESSION (R177): where every check passes, the lowest free slot takes an ACTIVE session of the packet's SID, priority, sampler settings
and rings, with no position; the reply is OK with the slot, and the other slots keep theirs. -/
def Claims.opens : Prop := ∀ (s : State) (slot k : Nat) (g : Graph), portRuns s 0x0401 = true → pk s 16 8 ≠ 0 → pk s 30 1 ≤ 15 →
  pk s 31 1 ≤ 7 → samplerOk (pk s 32 16) = true → ringUsable s (pk s 26 2) 0 = true → ringUsable s (pk s 28 2) 1 = true →
  findGraph s (pk s 24 2) = some k → getGraph s k = some g → findSess s (pk s 16 8) = none → freeSlotNo s = some slot →
  backlog s g.part ≤ getF s r_DISP_SAT f_DISP_SAT_THRESH → pagesShort s g (firstPages g 0) (fun _ => 0) = false →
  ∃ t x, exec .openSession s = .next t ∧ t.svc.reply = some ⟨stOk, slot⟩ ∧ getSess t slot = some x ∧ x.sid = pk s 16 8 ∧ x.state = .active ∧
    x.graph = k ∧ x.part = g.part ∧ x.cpos = 0 ∧ x.prio = pk s 30 1 ∧ x.flags = pk s 31 1 ∧ x.sampler = pk s 32 16 ∧
    x.inRing = pk s 26 2 ∧ x.outRing = pk s 28 2 ∧ x.pend = [] ∧ x.budget = 0 ∧ ∀ n, n ≠ slot → getSess t n = getSess s n

/-- FORK_SESSION without PIN (R191): the child is FORKING at the position of the packet, with its parent's graph, priority and sampler settings,
and the parent stays as it is. -/
def Claims.forks : Prop := ∀ (s : State) (slot p : Nat) (x : Sess) (g : Graph), portRuns s 0x0402 = true → pkFlag s 4 = false →
  findSess s (pk s 16 8) = some p → getSess s p = some x → getGraph s x.graph = some g → (x.state = .active ∨ x.state = .pinned) →
  pk s 24 8 ≠ 0 → pk s 32 4 ≤ x.cpos → ringUsable s (pk s 36 2) 0 = true → ringUsable s (pk s 38 2) 1 = true →
  findSess s (pk s 24 8) = none → freeSlotNo s = some slot → backlog s g.part ≤ getF s r_DISP_SAT f_DISP_SAT_THRESH →
  pagesShort s g (forkPages g (pk s 32 4) false) (forkCopies s g p (pk s 32 4)) = false →
  ∃ t y, exec .forkSession s = .next t ∧ t.svc.reply = some ⟨stOk, slot⟩ ∧ getSess t slot = some y ∧ y.sid = pk s 24 8 ∧ y.state = .forking ∧
    y.parent = x.sid ∧ y.forkPos = pk s 32 4 ∧ y.cpos = pk s 32 4 ∧ y.graph = x.graph ∧ y.prio = x.prio ∧ y.sampler = x.sampler ∧
    y.inRing = pk s 36 2 ∧ y.outRing = pk s 38 2 ∧ ∀ n, n ≠ slot → getSess t n = getSess s n

/-- CLOSE_SESSION puts the session in CLOSING, and remembers whether it was PINNED; TRUNCATE_SESSION moves its position back to T and makes a
STALE session ACTIVE again; SET_SESSION changes its priority and sampler settings; SESSION_INFO changes nothing but the reply (R193, R321). -/
def Claims.sessionsChange : Prop := ∀ (s : State) (slot : Nat) (x : Sess), findSess s (pk s 16 8) = some slot → getSess s slot = some x →
  (portRuns s 0x0403 = true → x.state ≠ .closing → hasKind s slot kClose = false →
    ∃ t, exec .closeSession s = .next t ∧ t.svc.reply = some ⟨stOk, 0⟩ ∧
      getSess t slot = some { x with state := .closing, wasPinned := x.state == .pinned }) ∧
  (portRuns s 0x0404 = true → (x.state = .active ∨ x.state = .stale) → hasKind s slot kTruncate = false → pk s 24 4 ≤ x.cpos →
    (x.state = .stale → pk s 24 4 ≤ x.stalePos) → ∃ t y, exec .truncateSession s = .next t ∧ t.svc.reply = some ⟨stOk, 0⟩ ∧
      getSess t slot = some y ∧ y.state = .active ∧ y.stalePos = 0 ∧ y.cpos = pk s 24 4 ∧ y.bucket = bucketOf (pk s 24 4) ∧ y.sid = x.sid) ∧
  (portRuns s 0x0405 = true → x.state ≠ .closing → pk s 30 1 ≤ 15 → samplerOk (pk s 32 16) = true →
    ∃ t, exec .setSession s = .next t ∧ t.svc.reply = some ⟨stOk, 0⟩ ∧
      getSess t slot = some { x with prio := pk s 30 1, sampler := pk s 32 16 }) ∧
  (portRuns s 0x0406 = true → exec .sessionInfo s = .next (answer stOk (x.cpos % 2 ^ 32 + 2 ^ 32 * stateCode x.state + 2 ^ 40 * x.bucket +
    2 ^ 64 * (pendTokens x % 2 ^ 32) + 2 ^ 96 * (x.budget % 2 ^ 32)) s))

/-- SET_RING sets a ring that no session uses, empty, and the hub asks for the line that the companion writes (R313, R314). -/
def Claims.ringsAreSet : Prop := ∀ (s : State), portRuns s 0x0203 = true → pk s 16 2 < 8192 → pk s 18 1 ≤ 1 → 4 ≤ pk s 19 1 → pk s 19 1 ≤ 16 →
  pk s 24 8 % 4096 = 0 → pk s 24 8 < 2 ^ 47 → inputOwner s (pk s 16 2) = none → outputOwner s (pk s 16 2) = none →
  ∃ t, exec .setRing s = .next t ∧ t.svc.reply = some ⟨stOk, 0⟩ ∧ getRing t (pk s 16 2) = some ⟨pk s 18 1, pk s 19 1, pk s 24 8, 0, 0, 0⟩ ∧
    (∀ n, n ≠ pk s 16 2 → getRing t n = getRing s n) ∧ ∀ n, getSess t n = getSess s n

/-- The session commands and SET_RING. -/
def Obligations.SessionCommandsTakeEffect : Prop := Claims.opens ∧ Claims.forks ∧ Claims.sessionsChange ∧ Claims.ringsAreSet

/-! ### Maintenance tasks, pages and tiers (chapter 8) -/

/-- A launched maintenance task of a session does its work: afterwards its instance's work is done, and a truncated session stands at T
(R190 to R193). -/
def Claims.maintenance : Prop := ∀ (s : State) (slot : Fin 4096) (i : Nat) (x : Inst) (y : Sess) (g : Graph),
  getSess s slot.val = some y → getInst s i = some x → x.slot = some slot.val → getGraph s x.graph = some g → y.graph = x.graph →
  let worked := fun (t : State) => ∃ z, getInst t i = some z ∧ z.worked = true ∧ z.out = x.out
  (∀ p, findSess s y.parent = some p → taskToDo s slot.val kFork = some (i, x) →
    ∃ t, exec (.forkTask slot) s = .next t ∧ worked t) ∧
  (taskToDo s slot.val kClose = some (i, x) → ∃ t, exec (.closeTask slot) s = .next t ∧ worked t) ∧
  (taskToDo s slot.val kTruncate = some (i, x) → ∃ t z, exec (.truncateTask slot) s = .next t ∧ worked t ∧
    getSess t slot.val = some z ∧ z.cpos = x.arg ∧ z.bucket = bucketOf x.arg ∧ z.sid = y.sid) ∧
  (taskToDo s slot.val kCopy = some (i, x) → ∃ t, exec (.copyTask slot) s = .next t ∧ worked t)

/-- While no task of an ACTIVE session runs, the pages and tentative frames that its next step needs are allocated, layer by layer and head
group by head group; where one finds its home group exhausted the session waits for pages (R186, R194, R198). While one runs, nothing is. -/
def Claims.allocation : Prop := ∀ (s : State) (slot : Fin 4096) (x : Sess) (g : Graph), getSess s slot.val = some x →
  getGraph s x.graph = some g → x.state = .active →
  (sessRuns s slot.val = false → exec (.pageAllocation slot) s = .next ((layerPairs g).foldl (fun s p =>
    (allocPair x.graph slot.val p s).getD (updSess slot.val (fun x => { x with pagesWait := true }) s)) s)) ∧
  (sessRuns s slot.val = true → exec (.pageAllocation slot) s = .next s)

/-- A pool below its limit demotes until its high mark; one that is not stays (R196). -/
def Claims.demotions : Prop := ∀ (s : State) (k : Fin 16) (pool : Pool) (g : Graph), getGraph s k.val = some g →
  let low := match pool with
    | .near _ => freeLow s g.part
    | .lpddr _ => tierCfg s g.part f_TIER_CFG_LP_LOW
    | .companion => 1
  let high := match pool with | .near _ => freeHigh s g.part | _ => low
  (poolFree s g pool < low → exec (.demotion k pool) s = .next (demoteUntil k.val pool high (g.place.nframes + g.place.nlp) s)) ∧
  (low ≤ poolFree s g pool → exec (.demotion k pool) s = .next s)

/-- A page whose image can be read moves: the move leaves the list, and its source frame waits for two launches; promotions that waited for it
start. One whose image cannot be read is dropped, and its destination frame is given back (R197, R201, R290). -/
def Claims.pageMoves : Prop := ∀ (s t : State) (n image : Nat) (m : Move) (g : Graph) (img : Option Nat), s.svc.moves[n]? = some m →
  getGraph s m.graph = some g → moveImage g m image s = (img, t) →
  (img = none → exec (.pageMove n image) s = .next (releaseMisses m.graph (freeFrame m.graph m.entry m.dstTier m.dst
    (dropPage m.graph m.entry m.slot (updSvc (fun v => { v with moves := v.moves.eraseIdx n }) t))))) ∧
  (img ≠ none → ∃ u l, exec (.pageMove n image) s = .next u ∧ u.svc.moves = s.svc.moves.eraseIdx n ++ l ∧ (∀ x ∈ l, x.dstTier = tVault) ∧
    (∃ f, u.svc.frees = s.svc.frees ++ [f] ∧ f.graph = m.graph ∧ f.entry = m.entry ∧ f.tier = m.srcTier ∧ f.frame = m.src))

/-- Source frames whose partition has launched twice since their move leave the list of waiting frames; the others stay (R197). -/
def Claims.sourceFramesFree : Prop := ∀ (s : State) (k : Nat) (g : Graph), getGraph s k = some g →
  ∃ t, exec .sourceFrameFree s = .next t ∧ ∀ f ∈ s.svc.frees, f.graph = k →
    (2 ≤ (partLaunches s g.part + 2 ^ 32 - f.since) % 2 ^ 32 → f ∉ t.svc.frees) ∧
    ((partLaunches s g.part + 2 ^ 32 - f.since) % 2 ^ 32 < 2 → f ∈ t.svc.frees)

/-- An ACTIVE session that names a dropped page becomes STALE from that page's position (R176, R197). -/
def Claims.staleness : Prop := ∀ (s : State) (slot : Fin 4096) (x : Sess) (pos : Nat), getSess s slot.val = some x → x.dropped = some pos →
  x.state = .active → ∃ t y, exec (.sessionStale slot) s = .next t ∧ getSess t slot.val = some y ∧ y.state = .stale ∧ y.stalePos = pos ∧
    y.dropped = none ∧ y.cpos = x.cpos ∧ y.sid = x.sid

/-- The pages that a suppressed miss lacked are held, their promotions start, and the sessions whose pages are all there are released; the
prefetch candidates in a graph's rings are promoted in their order and leave the rings (R201, R202). -/
def Claims.promotions : Prop := ∀ (s : State) (slot : Fin 4096) (k : Fin 16) (x : Sess) (g : Graph),
  (getSess s slot.val = some x → getGraph s x.graph = some g →
    (x.missHold = true → exec (.missPromotion slot) s = .next (releaseMisses x.graph (promoteWanted x.graph
      (updSess slot.val (fun y => { y with heldPages := y.heldPages ++ x.missing.filter (!y.heldPages.contains ·) })
        (x.missing.foldl (fun s id => setHold g id true s) s))))) ∧
    (x.missHold = false → exec (.missPromotion slot) s = .next s)) ∧
  (getGraph s k.val = some g → exec (.prefetchPromotion k) s = .next (updGraph k.val (fun g => { g with prefetch := [] })
    (g.prefetch.foldl (fun s id => promotePage k.val (pagePlace g id).1 (pagePlace g id).2 s) s)))

/-- Maintenance tasks, allocation, and the movement of pages between tiers. -/
def Obligations.PagesAreAllocatedAndMoved : Prop :=
  Claims.maintenance ∧ Claims.allocation ∧ Claims.demotions ∧ Claims.pageMoves ∧ Claims.sourceFramesFree ∧ Claims.staleness ∧ Claims.promotions

/-! ### Commit records, objects and rings (chapters 9, 13 and 15) -/

/-- The next record that may be processed (R332). COMMITTED, of a decode instance: the session stands at the record's new position with the
emitted tokens taken off its budget. MISS holds the session; the launch is done with in either case (R222, R228, R247). -/
def Claims.commits : Prop := ∀ (s : State) (p : Fin 24) (q : List (List Nat)) (l : Launch) (g : Graph) (x : Inst) (slot : Nat) (y : Sess),
  nextRecord s [] (s.svc.launches.filter fun l => l.part == p.val) = some l → getGraph s l.graph = some g → getInst s l.inst = some x →
  x.slot = some slot → getSess s slot = some y → s.hub.haltedParts.contains p.val = false →
  let r := commitRecord s g l.record
  (crStatus r = 0 → (taskOf g x).kind = kDecode → (taskOf g x).sigs = [] →
    ∃ t z, exec (.commitRecordProcessing p q) s = .next t ∧ getSess t slot = some z ∧ z.cpos = crNew r ∧
      z.bucket = bucketOf (crNew r) ∧ z.budget = y.budget - crEmit r ∧ t.svc.launches = s.svc.launches.erase l) ∧
  (crStatus r = 2 → ∃ t z, exec (.commitRecordProcessing p q) s = .next t ∧ getSess t slot = some z ∧ z.missHold = true ∧ z.cpos = y.cpos ∧
    z.budget = y.budget ∧ z.state = y.state ∧ t.svc.launches = s.svc.launches.erase l)

/-- A detected error during publish makes an ACTIVE session STALE from the record's OLD_CPOS, and lowers STALE_POS of a STALE one to it; the
launch is done with (R176, R223). -/
def Claims.publishErrors : Prop := ∀ (s : State) (p : Fin 24) (l : Launch) (g : Graph) (slot : Nat) (y : Sess),
  (s.svc.launches.find? fun l => l.part == p.val && l.started) = some l → launchSlot s l = some slot → getGraph s l.graph = some g →
  getSess s slot = some y →
  let old := crOld (commitRecord s g l.record)
  ∃ t z, exec (.publishError p) s = .next t ∧ getSess t slot = some z ∧ (y.state = .active → z.state = .stale ∧ z.stalePos = old) ∧
    (y.state = .stale → z.state = .stale ∧ z.stalePos = min y.stalePos old) ∧ (y.state = .closing → z.state = .closing) ∧
    (s.svc.launches.Nodup → t.svc.launches = s.svc.launches.erase l)

/-- Objects (R240 to R242, R254): a write sets one and a signal adds to it, modulo 2^64; a package object's change goes on its way to the
dispatcher, a local one waits for its die's ring slot; the dispatcher observes the changes in order. -/
def Claims.objects : Prop := ∀ (s : State) (n : Fin 16384) (d : Stack) (m : Fin 4096) (v : Word), s.canon = true →
  let k := fieldOf f_SYNC_SIGNAL_OBJ v
  let j := fieldOf f_LSYNC_SIGNAL_OBJ v
  (∃ t, exec (.syncObjWrite n v) s = .next t ∧ getReg t (r_SYNC_OBJ n.val) = v ∧ t.svc.changes = s.svc.changes ++ [(n.val, v.toNat)] ∧
    ∀ a, a ≠ r_SYNC_OBJ n.val → getReg t a = getReg s a) ∧
  (∃ t, exec (.syncSignal v) s = .next t ∧
    (getReg t (r_SYNC_OBJ k)).toNat = ((getReg s (r_SYNC_OBJ k)).toNat + fieldOf f_SYNC_SIGNAL_N v) % 2 ^ 64 ∧
    t.svc.changes = s.svc.changes ++ [(k, (getReg t (r_SYNC_OBJ k)).toNat)] ∧ ∀ a, a ≠ r_SYNC_OBJ k → getReg t a = getReg s a) ∧
  (∃ t, exec (.lsyncObjWrite d m v) s = .next t ∧ getReg t (r_LSYNC_OBJ d m.val) = v ∧ (getDie t d).forward = (getDie s d).forward ++ [m.val] ∧
    ∀ a, a ≠ r_LSYNC_OBJ d m.val → getReg t a = getReg s a) ∧
  (∃ t, exec (.lsyncSignal d v) s = .next t ∧
    (getReg t (r_LSYNC_OBJ d j)).toNat = ((getReg s (r_LSYNC_OBJ d j)).toNat + fieldOf f_LSYNC_SIGNAL_N v) % 2 ^ 64 ∧
    (getDie t d).forward = (getDie s d).forward ++ [j] ∧ ∀ a, a ≠ r_LSYNC_OBJ d j → getReg t a = getReg s a) ∧
  (∀ key val rest, s.svc.changes = (key, val) :: rest → ∃ t, exec .objectObserved s = .next t ∧ t.svc.changes = rest ∧
    (val ≠ 0 → sget 0 t.svc.seen key = val) ∧ t.regs = s.regs)

/-- The dispatcher writes the instance that comes first in the order of R244 when its partition's launch queue is short, no switch to full rate
waits for quiet and the instance needs no copy task; a lane idle for LIMIT shows DOLD, once (R243 to R246, R252). -/
def Claims.dispatching : Prop := ∀ (s : State) (p : Fin 24) (n : Fin 256) (i : Nat) (x : Inst) (g : Graph), s.canon = true →
  (queueShort s p.val = true → getF s r_DISP_CTRL f_DISP_CTRL_EN = 1 → getF s r_TWIN_STATUS f_TWIN_STATUS_DETACHED = 0 →
    s.hub.frQuiet = false → chooseInst s p.val = some i → needCopy s i = none → getInst s i = some x → getGraph s x.graph = some g →
    ∃ t y, exec (.instanceReady p) s = .next t ∧
      t.svc.launches = s.svc.launches ++ [⟨p.val, i, x.graph, g.nextCommit, false, false, 0, [], false⟩] ∧
      getInst t i = some y ∧ y.out = x.out + 1 ∧ y.last = s.svc.writes + 1 ∧ y.task = x.task ∧ y.slot = x.slot) ∧
  ((laneInsts s n.val).filter (instCounted s) = [i] → getF s r_DISP_DOLD f_DISP_DOLD_LIMIT ≠ 0 → s.svc.dolded.contains n.val = false →
    ∃ t, exec (.doldrums n) s = .next t ∧ getF t (r_DISP_LANE n.val) f_DISP_LANE_DOLD = 1 ∧ n.val ∈ t.svc.dolded)

/-- Input rings (R313 to R315): a doorbell takes the producer index and asks for each new record, and ignores an index that has moved back (log
entry 61); a TOKENS record appends its tokens; a budget record adds to the budget, saturating, or replaces it. -/
def Claims.inputRings : Prop := ∀ (s : State) (n : Fin 8192) (prod : BitVec 32) (r : Ring) (slot : Nat) (x : Sess) (rec_ : BitVec 512),
  getRing s n.val = some r → r.kind = 0 →
  let cnt := bits rec_.toNat 15 8
  let toks := (List.range cnt).map fun i => bits rec_.toNat (64 + 32 * i + 31) (64 + 32 * i)
  let type := rec_.toNat % 256
  ((prod.toNat + 2 ^ 32 - r.cons) % 2 ^ 32 ≤ 2 ^ r.k →
    ((prod.toNat + 2 ^ 32 - r.prod) % 2 ^ 32 ≤ 2 ^ r.k → ∃ t, exec (.inputRingDoorbell n prod) s = .next t ∧
      getRing t n.val = some { r with prod := prod.toNat } ∧
      t.hub.tx.length = s.hub.tx.length + (prod.toNat + 2 ^ 32 - r.prod) % 2 ^ 32 ∧ ∀ k, getSess t k = getSess s k) ∧
    (2 ^ r.k < (prod.toNat + 2 ^ 32 - r.prod) % 2 ^ 32 → exec (.inputRingDoorbell n prod) s = .next s)) ∧
  (r.read ≠ r.prod → inputOwner s n.val = some slot → getSess s slot = some x →
    (type = 1 → 1 ≤ cnt → cnt ≤ 14 → (∀ k ∈ toks, k < min (vocabOf s slot) (2 ^ 18)) → ∃ t, exec (.inputTokens n rec_) s = .next t ∧
      getSess t slot = some { x with pend := x.pend ++ [(r.read, toks)] } ∧ getRing t n.val = some { r with read := (r.read + 1) % 2 ^ 32 }) ∧
    (type = 2 → cnt = 0 → ∃ t y, exec (.budgetAdd n rec_) s = .next t ∧ getSess t slot = some y ∧
      y.budget = min (x.budget + bits rec_.toNat 95 64) (2 ^ 32 - 1) ∧ y.pend = x.pend) ∧
    (type = 3 → cnt = 0 → ∃ t y, exec (.budgetSet n rec_) s = .next t ∧ getSess t slot = some y ∧
      y.budget = bits rec_.toNat 95 64 ∧ y.pend = x.pend))

/-- The consumer index of an output ring, or of the event ring, is read again (R249, R316). -/
def Claims.outputRings : Prop := ∀ (s : State) (n : Fin 8192) (cons : BitVec 32) (r : Ring),
  ((s.hub.evProd + 2 ^ 32 - cons.toNat) % 2 ^ 32 ≤ eventRingSize s →
    exec (.outputRingDoorbell none cons) s = .next (updHub (fun h => { h with evCons := cons.toNat }) s)) ∧
  (getRing s n.val = some r → r.kind = 1 → (r.prod + 2 ^ 32 - cons.toNat) % 2 ^ 32 ≤ 2 ^ r.k →
    ∃ t r', exec (.outputRingDoorbell (some n) cons) s = .next t ∧ getRing t n.val = some r' ∧ r'.cons = cons.toNat ∧ r'.base = r.base)

/-- Commit records, publish errors, objects, the dispatcher and the rings. -/
def Obligations.ServiceRunsSessions : Prop :=
  Claims.commits ∧ Claims.publishErrors ∧ Claims.objects ∧ Claims.dispatching ∧ Claims.inputRings ∧ Claims.outputRings

/-! ### The command port (R317 to R322) -/

/-- A write of GO: an idle port that is ready takes the packet's opcode and SEQ and is BUSY, and a command that fails its first checks has its
reply at once; a busy port counts the refusal and keeps all else (R318, R319). -/
def Claims.goes : Prop := ∀ (s : State), s.canon = true →
  let r := r_HUB_CMD_STATUS
  (getF s r f_HUB_CMD_STATUS_BUSY = 0 → getF s r f_HUB_CMD_STATUS_READY = 1 → ∃ t, exec .go s = .next t ∧ getF t r f_HUB_CMD_STATUS_BUSY = 1 ∧
    getF t r f_HUB_CMD_STATUS_OPCODE = pk s 0 2 ∧ getF t r f_HUB_CMD_STATUS_SEQ = pk s 3 1 ∧
    t.svc.reply = (earlyStatus s (packet s)).map (fun st => ⟨st, 0⟩) ∧ ∀ a, a ≠ r → getReg t a = getReg s a) ∧
  (getF s r f_HUB_CMD_STATUS_BUSY = 1 → ∃ t, exec .go s = .next t ∧ t = { s with regs := t.regs } ∧
    getF t r f_HUB_CMD_STATUS_REFUSED = min (getF s r f_HUB_CMD_STATUS_REFUSED + 1) 65535 ∧ getF t r f_HUB_CMD_STATUS_BUSY = 1)

/-- A staged reply is written whole, BUSY is cleared and LAST_STATUS shows its status (R319). -/
def Claims.completions : Prop := ∀ (s : State) (us : Nat) (r : Reply), s.canon = true → s.svc.reply = some r →
  getF s r_HUB_CMD_STATUS f_HUB_CMD_STATUS_BUSY = 1 → ∃ t, exec (.commandCompletion us) s = .next t ∧ t.svc.reply = none ∧
    getF t r_HUB_CMD_STATUS f_HUB_CMD_STATUS_BUSY = 0 ∧ getF t r_HUB_CMD_STATUS f_HUB_CMD_STATUS_LAST_STATUS = r.status % 256 ∧
    ∀ w, w < 4 → getReg t (r_HUB_CMD_REPLY w) = BitVec.ofNat 64 (replyBytes s r us / 2 ^ (64 * w))

/-- The hold-off of message-signalled writes ends: a write that waited is sent and the hold-off runs again (R323). -/
def Claims.holdoffs : Prop := ∀ (s : State), s.hub.msiHold = true →
  (s.hub.msiWait = false → ∃ t, exec .msiHoldoffExpiry s = .next t ∧ t.hub.msiHold = false ∧ t.hub.tx = s.hub.tx) ∧
  (s.hub.msiWait = true → getF s r_EVT_CTRL f_EVT_CTRL_MSI_EN = 1 → ∃ t, exec .msiHoldoffExpiry s = .next t ∧ t.hub.msiHold = true ∧
    t.hub.msiWait = false ∧
    t.hub.tx = s.hub.tx ++ [⟨.storeIndex, getF s r_EVT_MSI_ADDR f_EVT_MSI_ADDR_ADDR * 4, 4, getF s r_EVT_MSI_ADDR f_EVT_MSI_ADDR_DATA⟩])

/-- The command port accepts and completes commands. -/
def Obligations.CommandPortAcceptsAndCompletes : Prop := Claims.goes ∧ Claims.completions ∧ Claims.holdoffs

/-! ### Commands of the port (R321) -/

/-- SET_PARTITIONS with a block that keeps R29 and R31 sets the partitions (R31). -/
def Claims.partitionsAreSet : Prop := ∀ (s : State) (b : List Byte) (tables : List (Stack × Cluster × Fin 64 × Word)),
  let n := pk s 16 1
  let new := partitionList s n b
  portRuns s 0x0201 = true → 1 ≤ n → n ≤ 24 → pk s 17 1 = pkgTper s → pkgTper s ≤ 3 → 8 * n ≤ pkLen s →
  (∀ i, i < n → leAt b (8 * i + 6) 2 = 0) →
  (∀ p ∈ new, partitionOk s p = true) → disjointRects new = true →
  (∀ i, i < s.parts.length → new[i]? ≠ s.parts[i]? → partBusy s i = false ∧ partLoading s i = false) →
  ∃ t, exec (.setPartitions (some b) tables) s = .next t ∧ t.svc.reply = some ⟨stOk, 0⟩ ∧ t.parts = new ∧ t.svc.graphs = s.svc.graphs

/-- REARM_PARTITION of a halted partition whose dies all stand and whose root is sound: its dies' HALTED is cleared, and the dispatcher may
launch again (R139, R321). -/
def Claims.partitionsRearm : Prop := ∀ (s : State) (p : Partition) (r : Stack), s.canon = true →
  let n := pk s 16 1
  let ms := members s p
  portRuns s 0x0202 = true → s.parts[n]? = some p → stackIx p.root = some r →
  (topoByte s (64 + 16 * r.val + 4 + p.rootCore / 8)).getLsbD (p.rootCore % 8) = true → treeCovers s ms r = true → partLoading s n = false →
  n ∈ s.hub.haltedParts → (∀ d ∈ ms, stackDown s d.val = false) → ms.map (·.val) = p.mem →
  (∀ d ∈ ms, getF s (r_ERR_STATUS_die d) f_ERR_STATUS_SQUALL = 0) → (∀ k ∈ partGraphs s n, k ∉ s.hub.outdated) →
  ∃ t, exec .rearmPartition s = .next t ∧ t.svc.reply = some ⟨stOk, 0⟩ ∧ n ∉ t.hub.haltedParts ∧
    ∀ d ∈ ms, getF t (r_FLASH_STATUS d) f_FLASH_STATUS_HALTED = 0

/-- SET_POWER_CAP sets the caps of the stacks of the mask and of no other (R379). -/
def Claims.powerCaps : Prop := ∀ (s : State), s.canon = true → portRuns s 0x0204 = true →
  let mask := pk s 16 4
  let cap := pk s 20 2
  mask < 2 ^ 24 → 40 ≤ cap → cap ≤ 75 → capSum s mask cap ≤ 1509 →
  ∃ t, exec .setPowerCap s = .next t ∧ t.svc.reply = some ⟨stOk, 0⟩ ∧
    ∀ d : Stack, getF t (r_PWR_CAP d) f_PWR_CAP_CAP = if mask.testBit d.val then cap else getF s (r_PWR_CAP d) f_PWR_CAP_CAP

/-- IDENTIFY answers the serial, the grade, the feature level, the firmware version and the first 8 bytes of the package topology hash, and changes
nothing else. -/
def Claims.identifies : Prop := ∀ (s : State), portRuns s 0x0101 = true → exec .identify s = .next (answer stOk
  (getF s r_SB_ID f_SB_ID_SERIAL + 2 ^ 64 * getF s r_SB_ID f_SB_ID_GRADE + 2 ^ 72 * getF s r_SB_ID f_SB_ID_FLEVEL +
    2 ^ 80 * (s.sec.version % 2 ^ 16) + 2 ^ 128 * (getReg s (r_TOPO_HASH 0)).toNat) s)

/-- SCRUB_REGION reads the words of a region as Drizzle reads them, and answers how many were corrected and how many could not be. -/
def Claims.scrubs : Prop := ∀ (s : State) (d : Stack) (u : Fin 17), portRuns s 0x0602 = true → presentDie s (pk s 16 1) = some d →
  blockUnit (pk s 17 1) = some u →
  let first := if u.val < 16 then pk s 24 8 else pk s 24 8 * 64
  pk s 32 4 ≤ 2 ^ 26 → first + pk s 32 4 ≤ (if u.val < 16 then dramEnd else lpCapacity s d * 64) →
  let r := (wordsOf first (pk s 32 4)).foldl (scrubCount d u) (0, 0, s)
  exec .scrubRegion s = .next (answer stOk (r.1 % 2 ^ 32 + 2 ^ 32 * (r.2.1 % 2 ^ 32)) r.2.2)

/-- RETRAIN requests the retraining that it names once, waits for its end, and answers the resulting width or state; where that takes longer than
200 ms it answers IN_PROGRESS, and RETRAIN_DONE is posted at the end. -/
def Claims.retrainsComplete : Prop := ∀ (s : State) (t : RetrainTarget) (late : Bool),
  let e := (pk s 16 1, pk s 17 1, pk s 18 1)
  let drop := updSvc (fun v => { v with retrains := v.retrains.filter (· ≠ e) }) s
  (portRuns s 0x0603 = true → retrainTarget s e.1 e.2.1 e.2.2 = some t →
    (e ∉ s.svc.retrains → exec (.retrain late) s = .next (startRetrain t (updSvc (fun v => { v with retrains := v.retrains ++ [e] }) s))) ∧
    (e ∈ s.svc.retrains → retrainOver s t = true → exec (.retrain late) s = .next (answer stOk (retrainResult s t) drop)) ∧
    (e ∈ s.svc.retrains → retrainOver s t = false → exec (.retrain true) s = .next (answer stInProgress 0 s) ∧
      exec (.retrain false) s = .next s)) ∧
  (∀ n x, s.svc.retrains[n]? = some x → retrainTarget s x.1 x.2.1 x.2.2 = some t → retrainOver s t = true →
    (portRuns s 0x0603 = false ∨ x ≠ e) → exec (.retrainComplete n) s = .next (postEvent evRetrainDone (subj3 x.1 x.2.1 x.2.2) (retrainResult s t)
      (updSvc (fun v => { v with retrains := v.retrains.filter (· ≠ x) }) s)))

/-- GET_TELEMETRY, GET_MEMMAP and GET_LOG write what their block takes into companion memory and answer its size; nothing else changes (the
entries' layouts are the model's, log entries 34 and 35). -/
def Claims.reports : Prop := ∀ (s : State),
  let tel := (telemetry s).take (pkLen s / 16)
  let map_ := ((allStacks.filter fun d => s.present.contains d.val).flatMap (stackMap s)).take (pkLen s / 16)
  (portRuns s 0x0701 = true → exec (.getTelemetry true) s =
    .next (answer stOk (16 * tel.length) (storeBlock (16 * tel.length) (entriesNat 16 tel) s))) ∧
  (portRuns s 0x0702 = true → exec (.getMemmap true) s =
    .next (answer stOk map_.length (storeBlock (16 * map_.length) (entriesNat 16 map_) s))) ∧
  (portRuns s 0x0703 = true → pk s 16 1 ≤ 1 →
    let n := min ((if pk s 16 1 = 0 then s.hub.repairLog.length else s.hub.errLog.length) - pk s 20 4) (pkLen s / Config.logEntryBytes)
    ∃ t, exec (.getLog true) s = .next t ∧ t.svc.reply = some ⟨stOk, n⟩ ∧ t.regs = s.regs ∧ t.mem = s.mem ∧ t.hub.errLog = s.hub.errLog ∧
      t.hub.repairLog = s.hub.repairLog)

/-- The management commands. -/
def Obligations.ManagementCommandsTakeEffect : Prop := Claims.partitionsAreSet ∧ Claims.partitionsRearm ∧ Claims.powerCaps ∧ Claims.identifies ∧
  Claims.scrubs ∧ Claims.retrainsComplete ∧ Claims.reports

/-! ### Graphs (chapter 12) -/

/-- LOAD_GRAPH reserves a handle that is not zero and not in use, and answers IN_PROGRESS with it. The end of the load with an image that passes
every check installs the graph under its handle, in its partition (R230 to R233). -/
def Claims.graphLoads : Prop := ∀ (s : State),
  (portRuns s 0x0301 = true → pk s 16 1 < s.parts.length → partLoading s (pk s 16 1) = false →
    (graphKeys s).length + s.svc.loading.length < 65535 →
    ∃ t h, exec .loadGraph s = .next t ∧ t.svc.reply = some ⟨stInProgress, h⟩ ∧ h ≠ 0 ∧ h < 65536 ∧ findGraph s h = none ∧
      t.svc.loading = s.svc.loading ++ [⟨h, pk s 16 1, pkAddr s, pkLen s⟩]) ∧
  (∀ (handle : BitVec 16) (i : List Byte) (sig : Bool) (pl : Place) (l : Loading),
    (s.svc.loading.find? fun l => l.handle == handle.toNat) = some l →
    let s' := updSvc (fun v => { v with loading := v.loading.filter fun x => x ≠ l }) s
    graphStatus s' l.part i sig pl = none → ∃ t k g, exec (.graphLoadComplete handle (some i) sig pl) s = .next t ∧ getGraph s k = none ∧
      getGraph t k = some g ∧ g.handle = l.handle ∧ g.part = l.part ∧ g.tasks = tasksOf (imPayload i) ∧ g.place = pl ∧
      g.measure = sha3 i ∧ l ∉ t.svc.loading ∧ l.part ∈ t.loadedParts)

/-- UNLOAD_GRAPH of a graph that no session and no launch names removes it. LOAD_WEIGHTS writes the parts of its chunk that the weight map places,
answers how many bytes those are, and extends the weight measurement (R266, R434). -/
def Claims.graphsUnloadAndFill : Prop := ∀ (s : State) (k : Nat) (g : Graph), findGraph s (pk s 16 2) = some k → getGraph s k = some g →
  (portRuns s 0x0302 = true → srising s.svc.graphs = true → (∀ x ∈ allSess s, x.2.graph ≠ k) → (∀ l ∈ s.svc.launches, l.graph ≠ k) →
    ∃ t, exec .unloadGraph s = .next t ∧ t.svc.reply = some ⟨stOk, 0⟩ ∧ getGraph t k = none ∧
      ∀ j, j ≠ k → getGraph t j = getGraph s j) ∧
  (∀ c : List Byte, portRuns s 0x0303 = true → pkLen s % 256 = 0 → partBusy s g.part = false → partLoading s g.part = false →
    ∃ t, exec (.loadWeights (some c) true) s = .next t ∧
      t.svc.reply = some ⟨stOk, (g.weights.map fun w => (placeWeights (pk s 24 8) c w s).1).sum⟩ ∧
      getGraph t k = some { g with wmeasure := sha3 (g.wmeasure ++ natBytes 8 (pk s 24 8) ++ natBytes 8 c.length ++ sha3 c) })

/-- Loading and unloading of graphs and weights. -/
def Obligations.GraphsLoadAndUnload : Prop := Claims.graphLoads ∧ Claims.graphsUnloadAndFill

/-! ### Firmware, fuses and attestation (chapter 17) -/

/-- GET_ID_KEY writes the identity key, and ATTEST the report with its signature, at the command's address (R433, R434). -/
def Claims.identity : Prop := ∀ (s : State),
  let key := (List.range 1312).map Config.idKey
  let b := attestBody s
  let r := b ++ (List.range 2420).map (Config.attestSig b)
  (portRuns s 0x0102 = true → exec (.getIdKey true) s = .next (answer stOk 0 (storeBlock 1312 (leNat key) s))) ∧
  (portRuns s 0x0103 = true → exec (.attest true) s = .next (answer stOk r.length (storeBlock r.length (leNat r) s)))

/-- ADVANCE_ROLLBACK and CLOSE_DEBUG blow one fuse with each program pulse until the value is reached, or the three DEBUG_CLOSE fuses are blown
(R428, R435). -/
def Claims.fuses : Prop := ∀ (s : State), s.sec.pulse = none →
  (portRuns s 0x0105 = true → (s.sec.advance = none → advanceOk s (pk s 16 1) (pk s 20 4) = true) →
    let i := pk s 16 1
    (fusedValue s i < pk s 20 4 → mayPulse s = true → exec .advanceRollback s =
      .next { s with sec := { s.sec with pulse := some i, advance := some (i, fusedValue s i) } }) ∧
    (pk s 20 4 ≤ fusedValue s i → ∃ t, exec .advanceRollback s = .next t ∧ t.svc.reply = some ⟨stOk, fusedValue s i⟩ ∧ t.sec.advance = none ∧
      (s.canon = true → getF t r_SEC_ROLLBACK (counterField i) = fusedValue s i % 2 ^ (counterField i).width))) ∧
  (portRuns s 0x0104 = true → pk s 16 4 = 0xDEB0C105 →
    (s.sec.debugFuses < 3 → mayPulse s = true → exec .closeDebug s = .next { s with sec := { s.sec with pulse := some 5 } }) ∧
    (3 ≤ s.sec.debugFuses → exec .closeDebug s = .next (answer stOk 0 s)))

/-- The end of a program pulse that reads back: a counter's fuse counts toward ADVANCE_ROLLBACK, a DEBUG_CLOSE fuse closes the debug port from the
second on (R428, R435). -/
def Claims.pulses : Prop := ∀ (s : State) (p : Nat), s.canon = true → s.sec.pulse = some p → s.rst.waiting = [] →
  (p < 5 → ∃ t, exec (.writePulseEnd true) s = .next t ∧ t.sec.pulse = none ∧ t.sec.advance = some (p, fusedValue s p + 1)) ∧
  (p = 5 → ∃ t, exec (.writePulseEnd true) s = .next t ∧ t.sec.pulse = none ∧ t.sec.debugFuses = s.sec.debugFuses + 1 ∧
    getF t r_SEC_STATUS f_SEC_STATUS_DEBUG_CLOSED = if 1 ≤ s.sec.debugFuses then 1 else 0)

/-- An install writes copy B, then copy A, from the bundle that runs, and ends with both marked sound; a copy that does not read back ends it in
state 3 (R431, R432). -/
def Claims.installs : Prop := ∀ (s : State), s.canon = true → s.sec.install = true → 
  let st := fun (t : State) (f : Fld) => getF t r_SEC_STATUS f
  (mayPulse s = true → 2 ≤ s.bring.last →
    (st s f_SEC_STATUS_INSTALL = 0 → ∃ t, exec (.install true) s = .next t ∧ st t f_SEC_STATUS_INSTALL = 1 ∧ st t f_SEC_STATUS_COPY_B_OK = 0 ∧
      t.sec.pulse = some 6 ∧ t.sec.copyA = s.sec.copyA) ∧
    (st s f_SEC_STATUS_INSTALL = 1 → ∃ t, exec (.install true) s = .next t ∧ st t f_SEC_STATUS_INSTALL = 2 ∧ st t f_SEC_STATUS_COPY_B_OK = 1 ∧
      st t f_SEC_STATUS_COPY_A_OK = 0 ∧ t.sec.copyB = s.sec.bundle ∧ t.sec.pulse = some 6)) ∧
  (s.sec.pulse = none → st s f_SEC_STATUS_INSTALL = 2 →
    (∃ t, exec (.installComplete true) s = .next t ∧ st t f_SEC_STATUS_INSTALL = 0 ∧ st t f_SEC_STATUS_COPY_A_OK = 1 ∧
      t.sec.copyA = s.sec.bundle ∧ t.sec.install = false) ∧
    ∃ t, exec (.installComplete false) s = .next t ∧ st t f_SEC_STATUS_INSTALL = 3 ∧ t.sec.install = false)

/-- Step 2 with a sound copy A, and step 8 with a sound bundle: the firmware runs from copy A, READY is set, and the step's outcome is OK (R357,
R364, R429). -/
def Claims.firmware : Prop := ∀ (s : State) (ext : Option (List Byte)) (sigs : List Bool), s.canon = true →
  (bringAt s 2 = true → s.bring.src = 0 → sourceFail s s.sec.copyA (sigs.getD 0 false) (sigs.getD 1 false) = none →
    ∃ t, exec (.hubFirmwareLoad ext sigs) s = .next t ∧ t.bring.outcome = some (bcOk, 0, 0) ∧ t.sec.bundle = s.sec.copyA ∧
      getF t r_HUB_CMD_STATUS f_HUB_CMD_STATUS_READY = 1 ∧ getF t r_SEC_STATUS f_SEC_STATUS_BOOT_SRC = 0 ∧
      getF t r_SEC_STATUS f_SEC_STATUS_COPY_A_OK = 1) ∧
  (∀ auth, bringAt s 8 = true → imageFail s [3] auth (bundleImage s.sec.bundle 2) = none → imageFail s [4] auth (bundleImage s.sec.bundle 3) = none →
    ∃ t, exec (.gale auth none) s = .next t ∧ t.bring.outcome = some (bcOk, 0, 0) ∧ t.sec.md = sha3 (bundleImage s.sec.bundle 2) ∧
      t.sec.ms = sha3 (bundleImage s.sec.bundle 3) ∧ t.regs = s.regs)

/-- Identity, fuses, installs and firmware. -/
def Obligations.SecurityCommandsTakeEffect : Prop := Claims.identity ∧ Claims.fuses ∧ Claims.pulses ∧ Claims.installs ∧ Claims.firmware

/-! ### The Camner link and the flit layer (R304 to R314) -/

/-- A flit whose CRC fails after the FEC, or a carrier flit after a gap, makes the receiver discard; a carrier flit in its order, without credits
or a RESEND request, has its messages taken (R305, R306). -/
def Claims.flits : Prop := ∀ (s : State) (twin : Bool) (flit : BitVec 2304) (e : Stack) (ops : List (Fin 4096 × MirOp)), flitsUp s twin = true →
  let fixed := (fecCorrect (natBytes 288 flit.toNat)).1
  let l := (fecCorrect (natBytes 288 flit.toNat)).2
  let s' := if fixed then countCam twin f_CAMNER_STATUS_FEC_CORR s else s
  let good := crc32 (l.take 276) = BitVec.ofNat 32 (leAt l 276 4)
  let h := leAt l 0 4
  let seq := bits h 11 0
  let last := (flitSide s twin).rxSeq
  (¬good → ∃ t, exec (.carrierFlitReceive twin flit e ops) s = .next t ∧ (flitSide t twin).discarding = true ∧ (flitSide t twin).rxSeq = last) ∧
  (good → bits h 28 27 ≠ 0 → bits h 26 26 = 0 → bits h 25 24 = 0 →
    (seq = (last + 1) % 4096 → exec (.carrierFlitReceive twin flit e ops) s = .next (carrierIn twin e ops seq l s')) ∧
    (seq ≠ (last + 1) % 4096 → seq ≠ last → (seq + 4096 - last) % 4096 < 2048 →
      ∃ t, exec (.carrierFlitReceive twin flit e ops) s = .next t ∧ (flitSide t twin).discarding = true ∧ (flitSide t twin).rxSeq = last))

/-- A RESEND request names the last flit that arrived: what was sent after it is sent again, and the eighth in a row with one FACK retrains the
link. A retrain ends with the link up, or after the third failure in a row with it down; the hub trains a link that is down again (R306, R310). -/
def Claims.linkRecovery : Prop := ∀ (s : State) (twin : Bool) (fack : BitVec 12) (w : Fin 3), s.canon = true →
  let x := flitSide s twin
  let n := if x.resends ≠ 0 ∧ x.lastFack = fack.toNat then x.resends + 1 else 1
  (flitsUp s twin = true → n ≠ 8 → ∃ t, exec (.resend twin fack) s = .next t ∧ (flitSide t twin).resends = n ∧
    (flitSide t twin).lastFack = fack.toNat ∧ (flitSide t twin).replayed =
      x.store.drop (match x.store.findIdx? (· == fack.toNat) with | some i => i + 1 | none => 0)) ∧
  (flitsUp s twin = true → n = 8 → ∃ t, exec (.resend twin fack) s = .next t ∧ flitsTraining t twin = true ∧ (flitSide t twin).resends = 0) ∧
  (flitsTraining s twin = true → (∃ t, exec (.camnerRetrainEnd twin true) s = .next t ∧ flitsUp t twin = true ∧ (flitSide t twin).badTrains = 0) ∧
    (x.badTrains < 2 → ∃ t, exec (.camnerRetrainEnd twin false) s = .next t ∧ flitsTraining t twin = true ∧
      (flitSide t twin).badTrains = x.badTrains + 1) ∧
    (2 ≤ x.badTrains → ∃ t, exec (.camnerRetrainEnd twin false) s = .next t ∧ flitsUp t twin = false ∧ flitsTraining t twin = false)) ∧
  (getF s r_CAMNER_STATUS f_CAMNER_STATUS_STATE = 0 → ∃ t, exec (.camnerLinkDownRetry (some w)) s = .next t ∧ linkUp t = true ∧
    getF t r_CAMNER_STATUS f_CAMNER_STATUS_WIDTH = (if w = 0 then 0 else 1) ∧
    getF t r_CAMNER_STATUS f_CAMNER_STATUS_UPPER = (if w = 2 then 1 else 0) ∧ t.camner.flits = FlitSide.reset ∧ t.hub.sent = [])

/-- The front message of the device is sent when it is of the command's kind, the link is up and a credit is left; a ring's index update
waits until every STORE before it has been answered (R308, R309). -/
def Claims.requests : Prop := ∀ (s : State) (m : OutMsg) (rest : List OutMsg), s.hub.tx = m :: rest → linkUp s = true →
  0 < s.camner.flits.credits →
  let sent := fun (i : Instr) (op : Nat) => ∃ t, exec i s = .next t ∧ t.hub.tx = rest ∧ t.hub.sent = s.hub.sent ++ [m] ∧
    t.camner.flits.credits = s.camner.flits.credits - 1 ∧ t.camner.asked = s.camner.asked ++ [(s.camner.flits.nextTag, op)]
  (m.kind = .fetch → sent .fetch 0x21) ∧ (m.kind = .fetchHold → sent .fetchHold 0x22) ∧ (m.kind = .store → sent .store 0x23) ∧
  (m.kind = .storeIndex → (∀ a ∈ s.camner.asked, a.2 ≠ 0x23) → sent .store 0x23) ∧
  (m.kind = .storeIndex → (∃ a ∈ s.camner.asked, a.2 = 0x23) → exec .store s = .next s) ∧ (m.kind = .release → sent .release 0x24)

/-- An answer ends its request; a line that FETCH_HOLD has read is held. RECALL takes a held line away, is answered, and the line is read again
(R308, R309, R314). -/
def Claims.answers : Prop := ∀ (s : State) (tag : BitVec 12) (status : Fin 3) (data : BitVec 2048) (addr : BitVec 64) (i : Nat) (m : OutMsg)
    (op : Nat), linkUp s = true →
  let line := addr.toNat / 64 * 64
  let ends := fun (c : Instr) => ∃ t, exec c s = .next t ∧ t.camner.asked = s.camner.asked.eraseIdx i ∧ t.hub.sent = s.hub.sent.eraseIdx i ∧
    t.hub.tx = s.hub.tx ∧ (op = 0x22 → status = 0 → m.addr ∈ t.hub.lines)
  (s.camner.asked.findIdx? (fun a => a.1 == tag.toNat) = some i → s.hub.sent[i]? = some m → s.camner.asked[i]? = some (tag.toNat, op) →
    ends (.doneMsg tag status) ∧ ends (.doneData tag status data)) ∧
  (∃ t, exec (.recall tag addr) s = .next t ∧ line ∉ t.hub.lines ∧
    t.hub.tx = s.hub.tx ++ (if line ∈ s.hub.lines then [⟨.fetchHold, line, 64, 0⟩] else []) ∧
    t.hub.sent = s.hub.sent)

/-- The device window (R312): an aligned read of a register returns it and an aligned write writes it as the hub would; an access to device memory
becomes a transit transfer; an offset that names nothing is answered ERR. -/
def Claims.window : Prop := ∀ (s : State) (tag : BitVec 12) (addr : BitVec 64) (len : Fin 257) (data : BitVec 2048) (e : Stack), linkUp s = true →
  let o := addr.toNat
  let rd := exec (.winRead tag addr len e) s
  let wr := exec (.winWrite tag addr len data e) s
  (winTarget s o = .none → rd = .next (winDone tag.toNat .err s) ∧ wr = .next (winDone tag.toNat .err s)) ∧
  (∀ a, winTarget s o = .reg a → len = 8 → o % 8 = 0 →
    (∀ v, readReg s a = some v → rd = .next (winAnswer opDoneData tag.toNat 0 8 v.toNat s)) ∧
    (a ≠ r_RST_CTRL → wr = .next (winDone tag.toNat (writeReg a (BitVec.ofNat 64 (data.toNat % 2 ^ 64)) s).1
      (writeReg a (BitVec.ofNat 64 (data.toNat % 2 ^ 64)) s).2))) ∧
  (∀ a, winTarget s o = .mem a → len ≠ 0 → (devTarget s a).isSome = true → (devTarget s (a + len.val - 1)).isSome = true →
    s.hub.transitStopped = false →
    (∃ t x, rd = .next t ∧ t.hub.xfers = s.hub.xfers ++ [x] ∧ x.id = s.hub.nextXfer ∧ x.addr = a ∧ x.len = len.val ∧ x.write = false) ∧
    ∃ t x, wr = .next t ∧ t.hub.xfers = s.hub.xfers ++ [x] ∧ x.id = s.hub.nextXfer ∧ x.addr = a ∧ x.len = len.val ∧ x.write = true ∧
      x.data = data.toNat % 2 ^ (8 * len.val))

/-- The Camner link: flits, recovery, requests, answers and the device window. -/
def Obligations.CamnerLinkCarriesMessages : Prop :=
  Claims.flits ∧ Claims.linkRecovery ∧ Claims.requests ∧ Claims.answers ∧ Claims.window

/-! ### The twin (R325 to R340) -/

/-- Heartbeats: one is sent while the link is up; one that arrives shows the peer's mode and feature level and ends a row of misses; HB_MISS
misses in a row declare the twin lost (R326, R333). The link trains when the twin is present and bring-up is over (R325). -/
def Claims.heartbeats : Prop := ∀ (s : State) (seq : BitVec 16) (mode : Fin 3) (fl : Byte) (ack : BitVec 32), s.canon = true →
  (twinUp s = true → ∃ t m, exec .heartbeatSend s = .next t ∧ t.twin.tx = s.twin.tx ++ [.heartbeat m] ∧
    t.twin.hbSeq = (s.twin.hbSeq + 1) % 2 ^ 16 ∧ t.regs = s.regs) ∧
  (twinUp s = true → ∃ t, exec (.heartbeat seq mode fl ack) s = .next t ∧ twinF t f_TWIN_STATUS_PEER_MODE = mode.val ∧
    twinF t f_TWIN_STATUS_PEER_FLEVEL = fl.toNat ∧ t.twin.missed = 0 ∧
    twinF t f_TWIN_STATUS_HB_RX = (twinF s f_TWIN_STATUS_HB_RX + 1) % 2 ^ 32) ∧
  (twinMode s ≠ 0 → s.twin.missed + 1 = max 1 (getF s r_TWIN_CTRL f_TWIN_CTRL_HB_MISS) →
    ∃ t, exec .heartbeatMiss s = .next t ∧ twinF t f_TWIN_STATUS_LOST = 1 ∧ t.twin.stopped = true ∧ t.twin.missed = s.twin.missed + 1) ∧
  (twinUp s = false → twinPresent s = true → 14 ≤ s.bring.last → ∃ t, exec (.twinLinkTrainRetry true) s = .next t ∧ twinUp t = true ∧
    t.twinFlits = FlitSide.reset)

/-- Session operations of the twin: an OPEN of a new session is held in a free slot, with its settings; a SET and a TRUNCATE change the held
session (R330). -/
def Claims.mirrorOps : Prop := ∀ (s : State) (from_ : Fin 4096) (n : Nat) (g : Graph) (k : Nat) (h : Held), mirAccepts s = true →
  (∀ sid handle prio flags sampler inR outR c how, findHeld s sid = none → mappedGraph s handle = some k → getGraph s k = some g →
    freeSlotNo s = some n → ∃ t y, exec (.mirOp from_ (.openS sid handle prio flags sampler inR outR c how)) s = .next t ∧
      getHeld t n = some y ∧ y.sess.sid = sid ∧ y.sess.graph = k ∧ y.sess.prio = prio ∧ y.sess.sampler = sampler ∧ y.sess.inRing = inR ∧
      y.sess.outRing = outR ∧ y.inStep = (how == 0) ∧ y.sess.state = (if how = 2 then .pinned else .active)) ∧
  (∀ sid, findHeld s sid = some n → getHeld s n = some h →
    (∀ prio sampler, ∃ t, exec (.mirOp from_ (.setS sid prio sampler)) s = .next t ∧
      getHeld t n = some { h with sess := { h.sess with prio := prio, sampler := sampler } }) ∧
    (∀ p, getGraph s h.sess.graph = some g → ∃ t y, exec (.mirOp from_ (.truncate sid p)) s = .next t ∧ getHeld t n = some y ∧
      y.sess.cpos = p ∧ y.sess.sid = h.sess.sid ∧ y.inStep = h.inStep))

/-- A burst (R330, R332): MIR_BEGIN opens it for a held session, or acknowledges it; MIR_DATA adds to it; MIR_END closes it and acknowledges
it; MIR_ACK frees the session that waits for its sequence. -/
def Claims.bursts : Prop := ∀ (s : State) (sid seq : Word) (gen old new : BitVec 32) (addr : BitVec 48) (len : Fin 257) (data dsb : BitVec 2048)
    (b : Burst) (n : Nat) (x : Sess),
  (mirAccepts s = true →
    (findHeld s sid.toNat ≠ none → ∃ t, exec (.mirBegin sid gen old new seq) s = .next t ∧
      t.twin.burst = some ⟨sid.toNat, gen.toNat, old.toNat, new.toNat, seq.toNat, []⟩ ∧ t.twin.tx = s.twin.tx) ∧
    (findHeld s sid.toNat = none → ∃ t, exec (.mirBegin sid gen old new seq) s = .next t ∧ t.twin.burst = none ∧
      t.twin.tx = s.twin.tx ++ [.mirAck seq.toNat]) ∧
    (s.twin.burst = some b → (∃ t, exec (.mirData addr len data) s = .next t ∧
        t.twin.burst = some { b with data := b.data ++ [(addr.toNat, len.val, data.toNat % 2 ^ (8 * len.val))] }) ∧
      ∃ t, exec (.mirEnd dsb) s = .next t ∧ t.twin.burst = none ∧ t.twin.ackedSeq = b.seq ∧ .mirAck b.seq ∈ t.twin.tx)) ∧
  (twinUp s = true → getSess s n = some x → x.unacked = some seq.toNat → ∃ t y, exec (.mirAck seq) s = .next t ∧ getSess t n = some y ∧
    y.unacked = none ∧ y.cpos = x.cpos ∧ y.sid = x.sid)

/-- MIR_STOP discards every held session; FENCE shows in FENCED and stops mirroring; DETACH shows in PEER_DETACHED (R326, R335, R336). -/
def Claims.twinStops : Prop := ∀ (s : State) (n : BitVec 32) (slot : Nat) (x : Sess), s.canon = true → twinUp s = true →
  (srising s.twin.held = true → ∃ t, exec .mirStop s = .next t ∧ t.twin.burst = none ∧ ∀ m, getHeld t m = none) ∧
  (∃ t, exec (.fence n) s = .next t ∧ twinF t f_TWIN_STATUS_FENCED = 1 ∧
    (getSess s slot = some x → getSess t slot = some { x with mir := .unmirrored, unacked := none, copyLeft := [] })) ∧
  (∃ t, exec .twinDetachMsg s = .next t ∧ twinF t f_TWIN_STATUS_PEER_DETACHED = 1 ∧ t = { s with regs := t.regs })

/-- The twin link's messages. -/
def Obligations.TwinMessagesTakeEffect : Prop := Claims.heartbeats ∧ Claims.mirrorOps ∧ Claims.bursts ∧ Claims.twinStops

/-- PAIR_TWIN, SET_TWIN_MODE and DETACH where their checks pass (R327, R328, R336). -/
def Claims.twinCommands : Prop := ∀ (s : State), s.canon = true →
  (portRuns s 0x0501 = true → twinPresent s = true → twinUp s = true → twinF s f_TWIN_STATUS_HB_RX ≠ 0 →
    twinF s f_TWIN_STATUS_PEER_FLEVEL = getF s r_SB_ID f_SB_ID_FLEVEL → ∃ t, exec .pairTwin s = .next t ∧
      t.svc.reply = some ⟨stOk, twinF s f_TWIN_STATUS_PEER_FLEVEL⟩ ∧ twinF t f_TWIN_STATUS_PAIRED = 1) ∧
  (portRuns s 0x0505 = true → pk s 16 1 ≤ 2 → twinUp s = true → twinF s f_TWIN_STATUS_PAIRED = 1 → twinGone s = false →
    ∃ t, exec .setTwinMode s = .next t ∧ t.svc.reply = some ⟨stOk, 0⟩ ∧ twinMode t = pk s 16 1) ∧
  (portRuns s 0x0504 = true → twinF s f_TWIN_STATUS_PAIRED = 1 → peerHolds s = true → twinMode s = 1 → twinGone s = false →
    (∀ p, p < s.parts.length → partBusy s p = false) → acksOutstanding s = false → ∃ t, exec (.detach false) s = .next t ∧
      t.svc.reply = some ⟨stOk, 0⟩ ∧ twinF t f_TWIN_STATUS_DETACHED = 1 ∧ getF t r_DISP_CTRL f_DISP_CTRL_EN = 0 ∧
      t.twin.tx = s.twin.tx ++ [.detach])

/-- RESYNC_TWIN marks every session to be mirrored as BUILDING; the background copy sends the next one whole and waits for its acknowledgement
(R337, R338). -/
def Claims.resyncs : Prop := ∀ (s : State) (n : Nat) (x : Sess) (g : Graph), getSess s n = some x → getGraph s x.graph = some g →
  (portRuns s 0x0502 = true → twinUp s = true → twinMode s = 1 → peerHolds s = true → twinGone s = false → x.flags.testBit 0 = true →
    ∃ t y, exec .resyncTwin s = .next t ∧ getSess t n = some y ∧ y.mir = .building ∧ y.copyLeft ≠ [] ∧ t.twin.stopped = false ∧
      ∃ l, t.svc.reply = some ⟨stOk, l⟩ ∧ 1 ≤ l) ∧
  (mirActive s = true → nextCopy s = some n → ∃ t y, exec .backgroundCopy s = .next t ∧ getSess t n = some y ∧ y.copyLeft = [] ∧
    y.unacked = some (s.twin.nextSeq + 1) ∧ y.mir = x.mir)

/-- FAILOVER promotes a held session that is IN_STEP into its slot, tells the twin, and leaves the mode Off (R334). -/
def Claims.failovers : Prop := ∀ (s : State) (lines : List (Fin 8192 × BitVec 32 × BitVec 32)) (n : Nat) (h : Held) (g : Graph), s.canon = true →
  portRuns s 0x0503 = true → pk s 16 1 = 1 → s.twin.promoted = false → srising s.twin.held = true → getHeld s n = some h →
  h.inStep = true → getGraph s h.sess.graph = some g →
  ∃ t x, exec (.failover lines) s = .next t ∧ t.svc.reply = some ⟨stOk, 0⟩ ∧ t.twin.promoted = true ∧ twinMode t = 0 ∧
    getSess t n = some x ∧ x.sid = h.sess.sid ∧ x.state = h.sess.state ∧ x.graph = h.sess.graph

/-- The commands of the pairing. -/
def Obligations.TwinCommandsTakeEffect : Prop := Claims.twinCommands ∧ Claims.resyncs ∧ Claims.failovers

/-! ### Resets (chapter 14) -/

/-- With no program pulse and no reset in progress, each source of a package reset starts one at its level and with its cause: services, partitions
and the companion's requests are gone, and what lies in flash stays (R341 to R345, R350, R351, R378, R405, R407, R412). -/
def Claims.sources : Prop := ∀ (s : State) (ms : Nat) (level : Fin 4), s.sec.pulse = none → s.rst.seqs = [] →
  let starts := fun (i : Instr) (lv cause : Nat) (latched : Bool) (P : State → Prop) => ∃ t, exec i s = .next t ∧
    t.rst.seqs = [⟨lv, 0, cause, true, 0, false, latched, []⟩] ∧ t.svc = Svc.reset ∧ t.parts = [] ∧ t.bring.last = 0 ∧
    t.hub.repairLog = s.hub.repairLog ∧ t.sec.copyA = s.sec.copyA ∧ t.voff = s.voff ∧ P t
  let per := max 1 (getF s r_RST_CTRL f_RST_CTRL_WDOG_MS)
  starts .pwrGoodInactive lvPower rcPower s.rst.trip (fun t => t.rst.pwrBad = true) ∧
  starts .refclkAbsent lvPower rcRefclk s.rst.trip (fun t => t.rst.refBad = true) ∧
  starts .resetLAccepted lvSystem rcPin s.rst.trip (fun t => t.rst.pinLow = true ∧ t.rst.trip = false) ∧
  (getF s r_RST_CTRL f_RST_CTRL_WDOG_EN = 1 → (∀ k, s.rst.kick = some k → k + per ≤ ms) →
    starts (.watchdogExpiry ms) lvSystem rcWatchdog false (fun _ => True)) ∧
  starts .thermalTrip lvSystem rcThermal false (fun t => t.rst.trip = true) ∧
  starts .railFault lvPower rcPower s.rst.trip (fun t => t.power.running = false ∧ t.power.railFault = true) ∧
  starts .undervoltage lvPower rcPower s.rst.trip (fun t => t.power.running = false ∧ t.power.railFault = s.power.railFault) ∧
  starts .overvoltage lvPower rcPower s.rst.trip (fun t => t.power.running = false ∧ t.power.railFault = s.power.railFault) ∧
  (getF s r_SEC_STATUS f_SEC_STATUS_DEBUG_CLOSED = 0 → level.val ≠ lvCore → starts (.debugReset level none) level.val rcDebug false (fun _ => True)) ∧
  (∀ lv, s.rst.command = some lv → lv < lvCore → portBusy s = false →
    starts .packageResetTakesEffect lv rcCommand false (fun t => t.rst.command = none))

/-- A source that comes while a program pulse runs waits for the pulse's end, and is marked as delayed (R349). The watchdog is restarted by KICK;
a KICK in time keeps it from firing (R350). The ends of a source's activity only release it (R346, R412). -/
def Claims.sourcesWait : Prop := ∀ (s : State) (ms : Nat),
  (s.sec.pulse ≠ none → exec .thermalTrip s = .next { s with rst :=
    { s.rst with trip := true, waiting := s.rst.waiting ++ [⟨lvSystem, 0, rcThermal, true, 0, true, false, []⟩] } }) ∧
  exec (.kick ms) s = .next (updRst (fun r => { r with kick := some ms }) s) ∧
  (∀ k, s.rst.kick = some k → ms < k + max 1 (getF s r_RST_CTRL f_RST_CTRL_WDOG_MS) → exec (.watchdogExpiry ms) s = .next s) ∧
  exec .pwrGoodActive s = .next (updRst (fun r => { r with pwrBad := false }) s) ∧
  exec .refclkReturn s = .next (updRst (fun r => { r with refBad := false }) s) ∧
  exec .resetLRelease s = .next (updRst (fun r => { r with pinLow := false }) s)

/-- RESET_DOMAIN of the package waits for its reply; of a present die it is accepted at once. An uncorrectable error of a die manager resets its
die; one of a memory of the hub resets the package (R292, R321). -/
def Claims.dieResets : Prop := ∀ (s : State) (d : Stack) (lv : Nat),
  (portRuns s 0x0601 = true → commandLevel (pk s 17 1) = some lv → (pk s 16 1 = 0 → ∃ t, exec .resetDomain s = .next t ∧
      t.rst.command = some lv ∧ t.svc.reply = some ⟨stOk, 0⟩ ∧ t.rst.seqs = s.rst.seqs) ∧
    (pk s 16 1 = dieNo d → d.val ∈ s.present → s.sec.pulse = none → s.rst.seqs = [] → ∃ t, exec .resetDomain s = .next t ∧
      t.rst.seqs = [⟨lv, dieNo d, rcCommand, true, 0, false, false, [d.val]⟩] ∧ t.svc.reply = some ⟨stOk, 0⟩)) ∧
  (s.sec.pulse = none → s.rst.seqs = [] → (∃ t, exec (.dieManagerUe (.die d)) s = .next t ∧
      t.rst.seqs = [⟨lvSystem, dieNo d, rcFatal, true, 0, false, false, [d.val]⟩]) ∧
    ∀ n, ∃ t, exec (.dieManagerUe (.hub n)) s = .next t ∧ t.rst.seqs = [⟨lvSystem, 0, rcFatal, true, 0, false, false, []⟩] ∧
      t.svc = Svc.reset ∧ t.parts = [])

/-- A die clears the domains of the resets that it has accepted: its cores and BPs are as after reset, and above the level of a core reset its routers
and its manager too; no reset of those levels waits for it any more (R85, R136, R173, R343). -/
def Claims.diesClear : Prop := ∀ (s : State) (d : Stack) (q : RstSeq), q ∈ s.rst.seqs → d.val ∈ q.todo →
  let cleared := fun (t : State) => ∀ c, getCore t d c = Core.reset ∧ ∀ j, j < 24 → getBp t d c j = Bp.reset
  (q.level = lvCore → ∃ t, exec (.coreReset d) s = .next t ∧ cleared t ∧ ∀ r ∈ t.rst.seqs, r.level = lvCore → d.val ∉ r.todo) ∧
  (q.level ≠ lvCore → ∃ t, exec (.dieSystemReset d) s = .next t ∧ cleared t ∧ getDie t d = Die.reset ∧
    (∀ k, getRouter t d k = Router.reset) ∧ ∀ r ∈ t.rst.seqs, r.level ≠ lvCore → d.val ∉ r.todo)

/-- Resets of the package and of dies. -/
def Obligations.ResetsAreAcceptedAndClear : Prop := Claims.sources ∧ Claims.sourcesWait ∧ Claims.dieResets ∧ Claims.diesClear

/-- The assertion of a reset ends when its dies have acted and, for the package, every source is inactive; a core reset is then released up to the
BPs, a package reset not at all, a die's up to the ring (R346, R352). -/
def Claims.assertionEnds : Prop := ∀ (s : State) (scope : Option Stack) (q : RstSeq), seqOf s (scopeNo scope) = some q →
  q.asserted = true → q.todo = [] → (scope = none → sourcesQuiet s = true) →
  let n := if q.level = lvCore then 6 else if scope = none then 0 else 2
  ∃ t, exec (.resetAssertionEnd scope) s = .next t ∧ seqOf t (scopeNo scope) = some { q with asserted := false, released := n }

/-- Each release follows the one before it; the hub's writes RST_CAUSE and brings the Camner link up at the ROM rate, the die managers' writes
RST_CAUSE of each stack, the fabric's isolates every port, and with the cores' the reset is over, after which a stack reset alone is to recover
(R304, R352, R353, R376). -/
def Claims.releases : Prop := ∀ (s : State) (scope : Option Stack) (q : RstSeq), s.canon = true → seqOf s (scopeNo scope) = some q →
  q.asserted = false →
  let shows := fun (t : State) (n : Nat) => seqOf t (scopeNo scope) = some { q with released := n }
  let covers := fun (d : Stack) => scope = none ∨ scope = some d
  (scope = none → q.released = 0 → ∃ t, exec .hubRelease s = .next t ∧ shows t 1 ∧ getReg t r_RST_CAUSE = causeWord q ∧
    getF t r_CAMNER_STATUS f_CAMNER_STATUS_STATE = 2) ∧
  (scope = none → q.released = 1 → ∃ t, exec .ringRelease s = .next t ∧ shows t 2 ∧ t = { s with rst := t.rst }) ∧
  (q.released = 2 → ∃ t, exec (.dieManagerRelease scope) s = .next t ∧ shows t 3 ∧
    ∀ d, covers d → getReg t (r_RST_CAUSE_DIE d) = causeWord q) ∧
  (q.released = 3 → ∃ t, exec (.fabricRelease scope) s = .next t ∧ shows t 4 ∧ ∀ d (p : Port), covers d → outerPort d p = false →
    getF t (r_PORT_CTRL d p) f_PORT_CTRL_ISOLATE = 1 ∧ getF t (r_PORT_CTRL d p) f_PORT_CTRL_EN = 0 ∧
    getF t (r_PORT_STATUS d p) f_PORT_STATUS_ISO_CAUSE = icOwnReset) ∧
  (q.released = 4 → ∃ t, exec (.controllerRelease scope) s = .next t ∧ shows t 5 ∧ t = { s with rst := t.rst }) ∧
  (q.released = 5 → ∃ t, exec (.dramBpRelease scope) s = .next t ∧ shows t 6 ∧ t = { s with rst := t.rst }) ∧
  (q.released = 6 → ∃ t, exec (.coreRelease scope) s = .next t ∧ seqOf t (scopeNo scope) = none ∧
    ∀ d : Stack, scope = some d → q.level ≠ lvCore → (d.val, q.level == lvWarm) ∈ t.rst.recovering)

/-- The recovery of a stack ends: it recovers no more, and RETRAIN_DONE is posted (R353). -/
def Claims.recoveries : Prop := ∀ (s : State) (d : Stack) (f : StackFound) (warm : Bool),
  s.rst.recovering.find? (fun x => x.1 == d.val) = some (d.val, warm) →
  exec (.stackRecovery d f) s = .next (recoverStack d warm f s) ∧ ∀ w, (d.val, w) ∉ (recoverStack d warm f s).rst.recovering

/-- Release after a reset, and the recovery of a stack. -/
def Obligations.ResetsAreReleasedInOrder : Prop := Claims.assertionEnds ∧ Claims.releases ∧ Claims.recoveries

/-! ### Bring-up (R355 to R375) -/

/-- The end of a step (R355): an outcome of OK or DEGRADED makes it done and the last step done, any other makes it failed; a step that takes too long
fails with TIMEOUT. -/
def Claims.stepsEnd : Prop := ∀ (s : State) (ms c d u : Nat), s.canon = true → bringF s f_BRING_STATUS_STATE = 1 →
  (s.bring.outcome = some (c, d, u) → ∃ t, exec (.bringStepDone ms) s = .next t ∧ bringF t f_BRING_STATUS_CODE = c % 256 ∧
    bringF t f_BRING_STATUS_DIE = d % 256 ∧ bringF t f_BRING_STATUS_UNIT = u % 256 ∧ t.bring.outcome = none ∧
    bringF t f_BRING_STATUS_STEP = bringF s f_BRING_STATUS_STEP ∧
    (c ≤ 1 → bringF t f_BRING_STATUS_STATE = 2 ∧ t.bring.last = max s.bring.last (bringF s f_BRING_STATUS_STEP)) ∧
    (1 < c → bringF t f_BRING_STATUS_STATE = 3 ∧ t.bring.last = s.bring.last)) ∧
  (∃ t, exec (.bringStepTimeout ms) s = .next t ∧ bringF t f_BRING_STATUS_STATE = 3 ∧ bringF t f_BRING_STATUS_CODE = bcTimeout ∧
    t.bring.last = s.bring.last)

/-- Steps 1 and 3 to 7 (R356, R358, R360, R363): the link's width, the stacks that answer, and the outcome of what was found: OK where every
link, vault and channel of the found descriptor is whole, else DEGRADED. The descriptor bears the module's grade and every stack's engine
count (R4, R5). -/
def Claims.stepsFind : Prop := ∀ (s : State) (w : Fin 3) (found : List (Stack × Nat)) (maps : List (Stack × BitVec 16)) (links : LinkTests)
    (tests : List (Stack × CoreIx × VaultTest)) (failed : List (Stack × Fin 8)), s.canon = true →
  let ends := fun (i : Instr) (code : Nat) => ∃ t, exec i s = .next t ∧ t.bring.outcome = some (code, 0, 0) ∧ t.bring.last = s.bring.last
  let here := allStacks.filter fun d => found.any fun x => x.1 == d
  let settles := fun (i : Instr) (whole : State → Prop) => ∃ t, exec i s = .next t ∧ t.bring.last = s.bring.last ∧ t.present = s.present ∧
    ((whole t ∧ t.bring.outcome = some (bcOk, 0, 0)) ∨ (¬whole t ∧ t.bring.outcome = some (bcDegraded, 0, 0)))
  let reduced := s.present.length < 24 ∨ ∃ m ∈ maps, m.1.val ∈ s.present ∧ m.2 ≠ 0xFFFF
  (bringAt s 1 = true → ∃ t, exec (.camnerTrain (some w)) s = .next t ∧ getF t r_CAMNER_STATUS f_CAMNER_STATUS_STATE = 3 ∧
    getF t r_CAMNER_STATUS f_CAMNER_STATUS_WIDTH = (if w = 0 then 0 else 1) ∧ t.bring.outcome = some (if w = 0 then bcOk else bcDegraded, 0, 0)) ∧
  (bringAt s 3 = true → here ≠ [] → (∀ x ∈ found, x.2 = 0x01 ∨ x.2 = 0x10) →
    ∃ t, exec (.ringEnumeration found) s = .next t ∧ t.present = here.map (·.val) ∧ t.bring.outcome = some (bcOk, 0, 0) ∧
      getF t r_SB_ID f_SB_ID_FLEVEL = 1) ∧
  (bringAt s 4 = true → ((reduced → ends (.topologyDiscovery maps) bcDegraded) ∧ (¬reduced → ends (.topologyDiscovery maps) bcOk)) ∧
    ∃ t, exec (.topologyDiscovery maps) s = .next t ∧ topoByte t 8 = BitVec.ofNat 8 (getF s r_SB_ID f_SB_ID_GRADE) ∧
      ∀ d : Stack, d.val ∈ s.present → topoByte t (64 + 16 * d.val + 6) = BitVec.ofNat 8 (stackEngines s d)) ∧
  (bringAt s 5 = true → ∃ t o, exec (.dieToDieTraining links) s = .next t ∧ t.bring.outcome = some o ∧ t.present = s.present ∧
    (o.1 = bcIsolated ∨ (o = (bcOk, 0, 0) ∧ ∀ i, i < 40 → topoByte t (448 + 8 * i + 4) = 2#8) ∨
      (o = (bcDegraded, 0, 0) ∧ ∃ i, i < 40 ∧ topoByte t (448 + 8 * i + 4) ≠ 2#8))) ∧
  (bringAt s 6 = true → settles (.vaultVerticalTraining tests) fun t => ∀ n ∈ t.present, ∀ k, k < 4 → topoByte t (64 + 16 * n + 8 + k) = 0#8) ∧
  (bringAt s 7 = true → settles (.lpddrTraining failed) fun t => ∀ n ∈ t.present, topoByte t (64 + 16 * n + 12) = 0xFF#8)

/-- Steps 9, 10, 12 and 14 (R365, R366, R369, R373): DRAM reads zero after a cold initialisation unless an armed ECC_FLIPMASK corrupts a word
(R289), VOFFSET comes back from flash, Drizzle runs, and the dispatcher is enabled. -/
def Claims.stepsPrepare : Prop := ∀ (s : State) (d : Stack) (c : CoreIx) (j a n : Nat) (u : Fin 17) (meas : List (Stack × Fin 6 × Nat))
    (tables : List (Stack × Cluster × Fin 64 × Word)), s.canon = true →
  let ok := fun (t : State) => t.bring.outcome = some (bcOk, 0, 0)
  (bringAt s 9 = true → s.bring.warm = false → j < 24 → a < 2 ^ 26 → flipMatches (getReg s (r_ECC_FLIPMASK d c)) wOther 99 = false →
    ∃ t, exec (.memoryInitialisation none) s = .next t ∧ ok t ∧ readByte t (bankKey d c j a) = 0) ∧
  (bringAt s 10 = true → (∃ t, exec (.thermalCalibration none meas) s = .next t ∧ ok t ∧
      (d.val ∈ s.present → getF t (r_MARGIN d) f_MARGIN_VOFFSET = sget 0 s.voff d.val % 2 ^ f_MARGIN_VOFFSET.width)) ∧
    ∃ t, exec (.thermalCalibration (some (d, n)) meas) s = .next t ∧ t.bring.outcome = some (bcThermal, dieNo d, n)) ∧
  (bringAt s 12 = true → ∃ t, exec (.thaw tables) s = .next t ∧ ok t ∧ bringF t f_BRING_STATUS_FR = 0 ∧
    getF t (uDrizzleReg d u) f_DRIZZLE_CTRL_EN = 1) ∧
  (bringAt s 14 = true → ∃ t, exec .ready s = .next t ∧ ok t ∧ getF t r_DISP_CTRL f_DISP_CTRL_EN = 1 ∧
    ∀ r, r ≠ r_DISP_CTRL → getReg t r = getReg s r)

/-- Step 11 (R367): a found topology that equals the expected one ends the step with OK and its hash; a block that cannot be read ends it with
PARAM_FAULT. -/
def Claims.topologyChecks : Prop := ∀ (s : State) (b : List Byte), bringAt s 11 = true →
  let len := getF s r_TOPO_EXPECTED f_TOPO_EXPECTED_LEN
  let e := fun (i : Nat) => if i < len then (b.getD i 0).toNat else 0
  let t := topoHash s
  exec (.topologyCheck none) s = .next (outcome bcParamFault 0 0 s) ∧
  (getF s r_TOPO_EXPECTED f_TOPO_EXPECTED_ADDR % 8 = 0 → len ≠ 0 → len ≤ 2048 → leNat (b.take 4) = 0x4F504F54 → e 4 + 256 * e 5 = 1 →
    e 6 + 256 * e 7 = len → (∀ i, i < max len 768 → e i = (topoByte t i).toNat) →
    exec (.topologyCheck (some b)) s = .next (outcome bcOk 0 0 t))

/-- The switch to full rate (R370, R371): training complete stops launches and new transfers; once all is quiet the package switches and FR shows 2,
or stays and shows 3; service resumes in either case, and also where quiescence does not come. -/
def Claims.fullRate : Prop := ∀ (s : State) (links : LinkTests) (tests : List (Stack × CoreIx × VaultTest)), s.canon = true →
  (bringF s f_BRING_STATUS_FR = 1 → s.bring.frReady = false → ∃ t, exec (.fullRateTraining links tests) s = .next t ∧ t.bring.frReady = true ∧
    t.hub.frQuiet = true ∧ t.hub.transitStopped = true ∧ t.regs = s.regs) ∧
  (s.bring.frReady = true → s.hub.frQuiet = true →
    (frQuiesced s = true → (∃ t, exec (.fullRateSwitch true) s = .next t ∧ bringF t f_BRING_STATUS_FR = 2 ∧ t.bring.full = true ∧
        t.bring.frReady = false ∧ t.hub.frQuiet = false) ∧
      ∃ t, exec (.fullRateSwitch false) s = .next t ∧ bringF t f_BRING_STATUS_FR = 3 ∧ t.bring.full = s.bring.full ∧
        t.bring.frReady = false ∧ t.hub.frQuiet = false) ∧
    ∃ t, exec .quietPeriodTimeout s = .next t ∧ t.hub.frQuiet = false ∧ t.bring.frReady = true ∧ t.hub.transitStopped = false)

/-- Bring-up, step by step. -/
def Obligations.BringUpStepsRunAndEnd : Prop :=
  Claims.stepsEnd ∧ Claims.stepsFind ∧ Claims.stepsPrepare ∧ Claims.topologyChecks ∧ Claims.fullRate

/-! ### Power and temperature (chapter 15) -/

/-- At the end of a measurement round every new error record has been reported, and SB_THERM shows the air register's demand and target (R299, R384,
R420). A stack whose estimate has stood at 110 °C for two rounds trips the module (R388). A switch to full rate that waits is then tried again
(R371). -/
def Claims.rounds : Prop := ∀ (s : State) (r : RoundReading), s.canon = true → ∃ t, t.hub.errNew = [] ∧
  getF t r_SB_THERM f_SB_THERM_DEMAND = getF t r_AIR f_AIR_DEMAND % 2 ^ f_SB_THERM_DEMAND.width ∧
  getF t r_SB_THERM f_SB_THERM_TARGET = getF t r_AIR f_AIR_TARGET % 2 ^ f_SB_THERM_TARGET.width ∧
  ((∀ x ∈ r.dies, onRing s x.die = true → estimateTrip t x.die = false) → exec (.measurementRound r) s = .next (frAgain t)) ∧
  ((∃ x ∈ r.dies, onRing s x.die = true ∧ estimateTrip t x.die = true) → exec (.measurementRound r) s = .next (frAgain (thermalTrip t)))

/-- A Frost level takes effect between elastic steps; a comparator trips the module at its level (118 °C on the hub and logic dies, 110 °C on
layers; the hub has eight sensors): the trip is latched and a system reset of the package accepted, or kept until a program pulse ends; below
its level nothing happens; conversion starts with PWR_GOOD still to be recognised (R387, R388, R406, R412). -/
def Claims.thermalEvents : Prop := ∀ (s : State) (d : Stack) (n : Fin 56) (v : Int) (p : Partition) (r : Stack), s.canon = true →
  (partOf s d = some p → stackIx p.root = some r → getF s (r_FLASH_CTRL r) f_FLASH_CTRL_ELASTIC = 1 → dieRuns s d = false →
    ∃ t, exec (.frostLevelChange d) s = .next t ∧ (getTherm t d).frost = getF s (r_FROST_CTRL d) f_FROST_CTRL_LEVEL) ∧
  (∀ die : Option Stack, (die = none → n.val < 8) → let level : Int := if die ≠ none ∧ 32 ≤ n.val then 880 else 944
    (level ≤ v → (s.sec.pulse = none → s.rst.seqs = [] → ∃ t, exec (.tripComparator die n v) s = .next t ∧ t.rst.trip = true ∧
        t.rst.seqs = [⟨lvSystem, 0, rcThermal, true, 0, false, false, []⟩] ∧ t.svc = Svc.reset ∧ t.parts = []) ∧
      (s.sec.pulse ≠ none → exec (.tripComparator die n v) s = .next { s with rst :=
        { s.rst with trip := true, waiting := s.rst.waiting ++ [⟨lvSystem, 0, rcThermal, true, 0, true, false, []⟩] } })) ∧
    (v < level → exec (.tripComparator die n v) s = .next s)) ∧
  (8 ≤ n.val → exec (.tripComparator none n v) s = .next s) ∧
  (s.power.running = false → s.power.railFault = false → exec (.conversionStart false) s =
    .next (updRst (fun r => { r with pwrBad := true }) { s with power := ⟨true, false⟩ })) ∧
  (s.power.running = false → exec (.conversionStart true) s =
    .next (updRst (fun r => { r with pwrBad := true }) { s with power := ⟨true, false⟩ })) ∧
  (s.power.running = false → s.power.railFault = true → exec (.conversionStart false) s = .next s)

/-- Power and temperature. -/
def Obligations.RoundsAndTripsTakeEffect : Prop := Claims.rounds ∧ Claims.thermalEvents

/-! ### Registers and the management ring (chapters 1 and 2) -/

/-- A write of any register completes and keeps the state's form. A hub register, or one of a core, that a write does no more to: RW and RWS
bits take the value, W1C bits written with 1 are cleared, and the others keep theirs; nothing else changes. An address without a register, or
of a die off the ring, is left alone (R12, R13). -/
def Claims.registerWrites : Prop := ∀ (s : State) (a : BitVec 40) (v : Word), s.canon = true →
  let n := a.toNat
  (∃ t, exec (.registerWrite a v) s = .next t ∧ t.canon = true) ∧
  (adDie n ≠ 0xFF → regRow n = none → exec (.registerWrite a v) s = .next s) ∧
  (∀ d, 1 ≤ adDie n → stackIx (adDie n - 1) = some d → onRing s d = false → exec (.registerWrite a v) s = .next s) ∧
  (∀ r d, regRow n = some r → adDie n = dieNo d → 0x10 ≤ adBlk n → adBlk n < 0x20 → stationAt n = none → onRing s d = true →
    ∃ t, exec (.registerWrite a v) s = .next t ∧ t = { s with regs := t.regs } ∧
      getReg t n = ((getReg s n &&& ~~~(r.rw ||| r.rws)) ||| (v &&& (r.rw ||| r.rws))) &&& ~~~(v &&& r.w1c) ∧
      ∀ b, b ≠ n → getReg t b = getReg s b) ∧
  (∀ r, regRow n = some r → adDie n = 0 → ¬(r_HUB_CMD_SLOT 0 ≤ n ∧ n < r_HUB_CMD_SLOT 0 + 0x80) →
    n ≠ r_BRING_STEP → n ≠ r_EVT_CTRL → n ≠ r_SB_INLET → n ≠ r_SB_INPUT → ¬(r_SYNC_OBJ 0 ≤ n ∧ n ≤ r_SYNC_OBJ 16383) → n ≠ r_SYNC_SIGNAL →
    n ≠ r_ERR_STATUS_package → ∃ t, exec (.registerWrite a v) s = .next t ∧ t = { s with regs := t.regs } ∧
      getReg t n = ((getReg s n &&& ~~~(r.rw ||| r.rws)) ||| (v &&& (r.rw ||| r.rws))) &&& ~~~(v &&& r.w1c) ∧
      ∀ b, b ≠ n → getReg t b = getReg s b)

/-- A die's slot of the management ring: the slots come in the ring's order, one a revolution; with nothing else to exchange, the changes of the
die's objects go to the dispatcher in order. A die off the ring is passed over (R26, R242). -/
def Claims.ringSlots : Prop := ∀ (s : State) (d : Stack), s.canon = true →
  (onRing s d = true → s.hub.ringPos = d.val → nextOnRing s = some d) ∧
  (onRing s d = false → exec (.managementRingSlot d) s = .next s) ∧
  (nextOnRing s ≠ some d → exec (.managementRingSlot d) s = .next s) ∧
  (nextOnRing s = some d → ∃ t, exec (.managementRingSlot d) s = .next t ∧ t.canon = true) ∧
  (nextOnRing s = some d → (getDie s d).escal = [] → (getDie s d).ownFault = none → (∀ x ∈ s.hub.badWords, addrDie s x.1 ≠ some d) →
    d.val ∉ s.hub.lpLost → ∃ t, exec (.managementRingSlot d) s = .next t ∧ t.hub.ringPos = d.val + 1 ∧ (getDie t d).forward = [] ∧
      t.svc.changes = s.svc.changes ++ (getDie s d).forward.map fun i => (localKey d i, objValue s (localKey d i)))

/-- A beat that reaches a hub stack port (R22): one of a transfer of the hub is the hub's, with its ERR; one without a transfer is discarded, and
recorded at the stack's unit of the package station (R298); while that unit is in service the error is fatal (R300). -/
def Claims.hubBeats : Prop := ∀ (s : State) (d : Stack) (f : Flight) (rest : List Flight), s.canon = true →
  let p := { s with crossings := rest }
  let known := f.transit = true ∧ ∃ x ∈ s.hub.xfers, x.id = f.xfer
  (takeFlight (fun f => f.die == hubDie && f.router == d.val) s.crossings = some (f, rest) →
    (known → f.beat.err = false → exec (.hubPortBeat d) s = .next p) ∧
    (known → f.beat.err = true → ∃ t, exec (.hubPortBeat d) s = .next t ∧ f.xfer ∈ t.hub.xferErr ∧ t = { p with hub := t.hub }) ∧
    (¬known → exec (.hubPortBeat d) s = .next (packageErr d kTransit 0 p) ∧
      (inService s .package d.val = false → inService (packageErr d kTransit 0 p) .package d.val = true ∧
        (packageErr d kTransit 0 p).svc = s.svc ∧ (packageErr d kTransit 0 p).mem = s.mem))) ∧
  (takeFlight (fun f => f.die == hubDie && f.router == d.val) s.crossings = none → exec (.hubPortBeat d) s = .next s)

/-- Registers and the ring. -/
def Obligations.RegistersAndRingExchange : Prop := Claims.registerWrites ∧ Claims.ringSlots ∧ Claims.hubBeats

/-! ### Pins, inputs and the I3C target (chapter 16) -/

/-- ENTDAA, RSTDAA, SETNEWDA (R417): an enabled target without an address takes the one assigned; RSTDAA removes it; SETNEWDA
changes it. Nothing else changes. -/
def Claims.addressing : Prop := ∀ (s : State) (a : BitVec 7),
  (s.pins.i3c.enabled = true → s.pins.i3c.addr = none →
    exec (.entdaa a) s = .next { s with pins := { s.pins with i3c := { s.pins.i3c with addr := some a.toNat } } }) ∧
  (s.pins.i3c.enabled = true →
    exec .rstdaa s = .next { s with pins := { s.pins with i3c := { s.pins.i3c with addr := none } } }) ∧
  (s.pins.i3c.enabled = true → s.pins.i3c.addr ≠ none →
    exec (.setnewda a) s = .next { s with pins := { s.pins with i3c := { s.pins.i3c with addr := some a.toNat } } })

/-- ENEC and DISEC (R417) set and clear the enables that they name and leave the others. -/
def Claims.enables : Prop := ∀ (s : State) (ibi hj : Bool), s.pins.i3c.enabled = true →
  exec (.enec ibi hj) s = .next { s with pins := { s.pins with i3c :=
    { s.pins.i3c with ibi := s.pins.i3c.ibi || ibi, hotJoin := s.pins.i3c.hotJoin || hj } } } ∧
  exec (.disec ibi hj) s = .next { s with pins := { s.pins with i3c :=
    { s.pins.i3c with ibi := s.pins.i3c.ibi && !ibi, hotJoin := s.pins.i3c.hotJoin && !hj } } }

/-- What a GET of the controller returns from an enabled target with an address (R416, R417; the byte order of the data is log entry
38): the PID of six bytes, BCR 0x06, DCR 0x00, the status with bit 0 set while an enabled alert is set, 9 bytes, 256 bytes. -/
def Claims.gets : Prop := ∀ s : State, s.pins.i3c.enabled = true → s.pins.i3c.addr ≠ none →
  let out := fun l => (Host.Outcome.next { s with pins := { s.pins with i3c := { s.pins.i3c with out := l } } } : Host.Outcome State Fault Refusal)
  exec .getpid s = out (msbBytes 6 (2 ^ 33 * 0x0FA5 + 2 ^ 32 + getF s r_SB_ID f_SB_ID_SERIAL % 2 ^ 32)) ∧
  exec .getbcr s = out [0x06] ∧ exec .getdcr s = out [0x00] ∧
  exec .getstatus s = out [0x00, if getReg s r_SB_ALERT &&& getReg s r_SB_ALERT_EN = 0 then 0x00 else 0x01] ∧
  exec .getmwl s = out [0x00, 0x09] ∧ exec .getmrl s = out [0x01, 0x00]

/-- Private transfers (R418): nine bytes write the register that the first names, one byte sets the pointer, any other number is
counted in BADXFER; a read of `n` bytes returns `n` and advances the pointer by one register for each 8. -/
def Claims.privateTransfers : Prop := ∀ (s : State) (i : Byte) (data : List Byte) (n : Nat),
  s.pins.i3c.enabled = true → s.pins.i3c.addr ≠ none →
  (data.length = 8 → exec (.i3cPrivateWrite (i :: data)) s = .next (writeReg (sbReg i.toNat) (BitVec.ofNat 64 (leNat data)) s).2) ∧
  exec (.i3cPrivateWrite [i]) s = .next { s with pins := { s.pins with i3c := { s.pins.i3c with ptr := i.toNat } } } ∧
  (data.length ≠ 0 → data.length ≠ 8 → exec (.i3cPrivateWrite (i :: data)) s = .next (satF r_SB_STATUS f_SB_STATUS_BADXFER 1 s)) ∧
  ∃ out, exec (.i3cPrivateRead n) s =
      .next { s with pins := { s.pins with i3c := { s.pins.i3c with out := out, ptr := s.pins.i3c.ptr + n / 8 } } } ∧ out.length = n

/-- SCL held low for 1 ms (R415) resets the protocol state; the address, the pointer and the enables stay. -/
def Claims.sclLow : Prop := ∀ s : State,
  exec .sclLowTimeout s = .next { s with pins := { s.pins with i3c := { s.pins.i3c with out := [] } } }

/-- An in-band interrupt (R419): at least 1 ms after the last one, its byte is the lowest newly set cause. -/
def Claims.inBand : Prop := ∀ (s : State) (us b : Nat),
  s.pins.i3c.enabled = true → s.pins.i3c.addr ≠ none → s.pins.i3c.ibi = true → (∀ u, s.pins.i3c.lastIbi = some u → u + 1000 ≤ us) →
  b < 11 → s.pins.i3c.newly.testBit b = true → (∀ i, i < b → s.pins.i3c.newly.testBit i = false) →
  exec (.inBandInterrupt us) s =
    .next { s with pins := { s.pins with i3c := { s.pins.i3c with newly := 0, lastIbi := some us, ibiByte := some b } } }

/-- SB_INLET (R420): a write supplies the inlet temperature and resets its age. -/
def Claims.inlet : Prop := ∀ (s : State) (v : Word), s.canon = true →
  ∃ t, exec (.inletWrite v) s = .next t ∧ getF t r_SB_INLET f_SB_INLET_AGE = 0 ∧
    getF t r_SB_INLET f_SB_INLET_INLET = fieldOf f_SB_INLET_INLET v ∧ (∀ a, a ≠ r_SB_INLET → getReg t a = getReg s a) ∧
    t = { s with regs := t.regs }

/-- Recognised changes of TWIN_PRESENT and TWIN_ALIVE (R414): to inactive while armed and not masked, the input is disarmed, the
change is counted and its event happens: the twin link goes down, or the twin is lost. -/
def Claims.inputsFall : Prop := ∀ (s : State) (us : Nat),
  (s.pins.present.active = true → s.pins.present.armed = true → s.pins.present.masked = false →
    exec (.twinPresentChange false us) s = .next (raiseAlert alTwinPres (twinLinkDown (putIn false
      { s.pins.present with active := false, armed := false, event := some us } (satF r_SB_INPUT f_SB_INPUT_PRES_CHANGES 1 s))))) ∧
  (s.pins.alive.active = true → s.pins.alive.armed = true → s.pins.alive.masked = false →
    exec (.twinAliveChange false us) s = .next (declareLost (putIn true
      { s.pins.alive with active := false, armed := false, event := some us } (satF r_SB_INPUT f_SB_INPUT_ALIVE_CHANGES 1 s))))

/-- An input that is active, disarmed and not masked re-arms once 1 ms has passed since its last event, unless that is the sixteenth
time within 1,000 hub milliseconds, which masks it and posts INPUT_MASKED (R414). -/
def Claims.rearming : Prop := ∀ (s : State) (alive : Bool) (us : Nat), s.canon = true →
  let x := getIn s alive
  let l := (x.rearms.filter fun t => decide (us < t + 1000000)) ++ [us]
  x.armed = false → x.masked = false → x.active = true → x.waiting = false → (∀ u, x.event = some u → u + 1000 ≤ us) →
  ∃ t, exec (.inputRearm alive us) s = .next t ∧
    getIn t alive = (if l.length < 16 then { x with armed := true, rearms := l } else { x with masked := true, armed := false, rearms := l }) ∧
    getIn t (!alive) = getIn s (!alive) ∧
    (16 ≤ l.length → getF t r_SB_INPUT (inMasked alive) = 1 ∧ (getReg t r_SB_ALERT).getLsbD 9 = true)

/-- A masked input that software unmasks stays disarmed until it is next recognised active (R414). -/
def Claims.unmasking : Prop := ∀ s : State, s.canon = true →
  (s.pins.present.masked = true → ∃ t, exec .unmaskPres s = .next t ∧ getF t r_SB_INPUT f_SB_INPUT_PRES_MASKED = 0 ∧
    t.pins.present = { s.pins.present with masked := false, armed := false, waiting := true } ∧ t.pins.alive = s.pins.alive) ∧
  (s.pins.alive.masked = true → ∃ t, exec .unmaskAlive s = .next t ∧ getF t r_SB_INPUT f_SB_INPUT_ALIVE_MASKED = 0 ∧
    t.pins.alive = { s.pins.alive with masked := false, armed := false, waiting := true } ∧ t.pins.present = s.pins.present)

/-- The I3C target's own commands, and the write of SB_INLET. -/
def Obligations.I3cTargetCommandsComplete : Prop :=
  Claims.addressing ∧ Claims.enables ∧ Claims.gets ∧ Claims.privateTransfers ∧ Claims.sclLow ∧ Claims.inBand ∧ Claims.inlet

/-- The alert-type inputs TWIN_PRESENT and TWIN_ALIVE. -/
def Obligations.AlertInputsFallReArmAndUnmask : Prop := Claims.inputsFall ∧ Claims.rearming ∧ Claims.unmasking

/-- The sideband pins (R354, R403): all are Hi-Z without power; once fuses are sensed the trip latch drives THERM_TRIP_L low, ALERT_L shows the
enabled alerts while the hub is released, a held hub leaves its pins fuse-mapped, and a closed debug port leaves pins 8 to 12 so (log entry 7). -/
def Obligations.PinsFollowTheirOwners : Prop := ∀ (s : State),
  (s.power.running = false → ∀ n, pinState s n = .hiZ) ∧
  (beforeSense s = false →
    (s.rst.trip = true → pinState s 3 = .low) ∧
    (hubHeld s = false → pinState s 2 = if alertLow s then .low else .hiZ) ∧
    (hubHeld s = true → pinState s 2 = fusedPin s 2 ∧ pinState s 6 = fusedPin s 6 ∧ pinState s 7 = fusedPin s 7) ∧
    (getF s r_SEC_STATUS f_SEC_STATUS_DEBUG_CLOSED = 1 → ∀ n : Fin 13, 8 ≤ n.val → pinState s n = fusedPin s n.val) ∧
    (∀ n : Fin 13, (n = 0 ∨ n = 1 ∨ n = 4 ∨ n = 5) → pinState s n = fusedPin s n.val))

/-! ### The whole machine -/

/-- A step takes the command at the front of the queue and runs it on the state with the queue's rest; on an empty queue the block idles, which
is the model's choice (log entry 1). -/
def Obligations.StepRunsTheFrontCommand : Prop := ∀ (s : State) (c : Instr) (rest : List Instr),
  (s.pending = c :: rest → step s = exec c { s with pending := rest }) ∧ (s.pending = [] → step s = .next s)

/-- The state after reset is safe: registers, memories and tables in canonical form, no conversion under a rail fault, no partition. -/
def Obligations.ResetIsSafe : Prop := State.reset.safe = true

/-- Every step from a safe state, reachable or not, ends in a safe state: registers, memory and the tables of the parts of the module keep their
canonical form, conversion does not run while a rail fault holds the module (R378), and there are at most 24 partitions (R31). -/
def Obligations.StepsKeepTheStateSafe : Prop := ∀ (s t : State), s.safe = true → step s = .next t → t.safe = true

/-- No command touches the queue or the fused thermal resistances of a die (R384), and none unblows a DEBUG_CLOSE fuse (R435). -/
def Obligations.CommandsKeepQueueAndFuses : Prop := ∀ (i : Instr) (s t : State), exec i s = .next t →
  t.pending = s.pending ∧ t.theta = s.theta ∧ s.sec.debugFuses ≤ t.sec.debugFuses

/-- No command stops the block: the spec gives every row an effect, so each answers a next state from every state, on any operands. -/
def Obligations.EveryCommandAnswersANextState : Prop := ∀ (i : Instr) (s : State), ∃ t, exec i s = .next t

/-- The opcode table gives no row any bits, so no word spells a command. -/
def Obligations.NoWordSpellsACommand : Prop := ∀ (n w : Nat) (s : State), decodeTableWord n w = none ∧ s.withFetchWord n w = s

/-! ### Frames -/

/-- Both states have the same memory, check fields, cores, BPs, controllers, routers, dies, traffic and partitions. -/
def Claims.sameModule (s t : State) : Prop :=
  t.mem = s.mem ∧ t.chk = s.chk ∧ t.cores = s.cores ∧ t.bps = s.bps ∧ t.vcs = s.vcs ∧ t.lps = s.lps ∧ t.routers = s.routers ∧ t.dies = s.dies ∧
    t.flights = s.flights ∧ t.crossings = s.crossings ∧ t.flash = s.flash ∧ t.parts = s.parts ∧ t.present = s.present ∧
    t.loadedParts = s.loadedParts

/-- Commands of the pins, the sideband and the releases of resets. -/
def Claims.pinCommand : Instr → Bool
  | .pwrGoodActive | .refclkReturn | .resetLRelease | .kick _ | .resetAssertionEnd _ | .hubRelease | .ringRelease | .dieManagerRelease _
  | .controllerRelease _ | .dramBpRelease _ | .coreRelease _ | .conversionStart _ | .twinPresentChange _ _
  | .twinAliveChange _ _ | .inputRearm _ _ | .unmaskPres | .unmaskAlive | .entdaa _ | .rstdaa | .setnewda _ | .enec _ _ | .disec _ _
  | .getpid | .getbcr | .getdcr | .getstatus | .getmwl | .getmrl | .sclLowTimeout | .inBandInterrupt _ | .inletWrite _
  | .msiHoldoffExpiry => true
  | _ => false

/-- The pins, the sideband and the releases of resets store nothing and touch no part of the stacks, of bring-up, of security or of the Camner
link; those of them that only time or configure the sideband, or release a domain that has no ready bit, write no register. The release of the
fabric changes registers of ports and what the dies' ports have trained, and nothing else but the reset's own state. -/
def Obligations.PinAndReleaseCommandsFrame : Prop :=
  (∀ (i : Instr) (s t : State), Claims.pinCommand i = true → exec i s = .next t →
    Claims.sameModule s t ∧ t.bring = s.bring ∧ t.topo = s.topo ∧ t.camner = s.camner ∧ t.twinFlits = s.twinFlits ∧ t.sec = s.sec ∧
    t.therm = s.therm ∧ t.hubTherm = s.hubTherm ∧ t.voff = s.voff ∧
    ((∀ ok, i ≠ .conversionStart ok) → t.power = s.power) ∧
    ((i = .pwrGoodActive ∨ i = .refclkReturn ∨ i = .resetLRelease ∨ (∃ ms, i = .kick ms) ∨ (∃ a, i = .entdaa a) ∨ i = .rstdaa ∨
      (∃ a, i = .setnewda a) ∨ (∃ a b, i = .enec a b) ∨ (∃ a b, i = .disec a b) ∨ i = .getpid ∨ i = .getbcr ∨ i = .getdcr ∨ i = .getstatus ∨
      i = .getmwl ∨ i = .getmrl ∨ i = .sclLowTimeout ∨ (∃ us, i = .inBandInterrupt us)) → t.regs = s.regs)) ∧
  ∀ (s t : State) (scope : Option Stack), s.canon = true → exec (.fabricRelease scope) s = .next t →
    t = { s with regs := t.regs, dies := t.dies, rst := t.rst } ∧
    (∀ d, getDie t d = { getDie s d with trained := (getDie t d).trained }) ∧
    ∀ a, (∀ d (p : Port), a ≠ r_PORT_CTRL d p ∧ a ≠ r_PORT_STATUS d p) → getReg t a = getReg s a

/-- Messages of the Camner and twin links that carry no data of the module. -/
def Claims.linkCommand : Instr → Bool
  | .resend _ _ | .camnerLinkDownRetry _ | .camnerRetrainEnd _ _ | .fetch | .fetchHold | .store | .release | .recall _ _ | .doneMsg _ _
  | .doneData _ _ _ | .heartbeatSend | .heartbeat _ _ _ _ | .heartbeatMiss | .twinLinkTrainRetry _ | .mirBegin _ _ _ _ _ | .mirData _ _ _
  | .mirAck _ | .fence _ | .twinDetachMsg => true
  | _ => false

/-- Link messages store nothing in the module, and touch no part of the stacks, of bring-up, of security, of power or of the thermal control. -/
def Obligations.LinkMessagesFrame : Prop := ∀ (i : Instr) (s t : State), Claims.linkCommand i = true → exec i s = .next t →
  Claims.sameModule s t ∧ t.bring = s.bring ∧ t.topo = s.topo ∧ t.sec = s.sec ∧ t.power = s.power ∧ t.therm = s.therm ∧
  t.hubTherm = s.hubTherm ∧ t.voff = s.voff ∧ t.freeCtr = s.freeCtr

/-- Commands of the command port and of the rings that move no data of the module. -/
def Claims.portCommand : Instr → Bool
  | .go | .commandCompletion _ | .identify | .getIdKey _ | .attest _ | .closeDebug | .advanceRollback | .install _ | .installComplete _ | .setRing
  | .setPowerCap | .pairTwin | .setTwinMode | .getTelemetry _ | .getMemmap _ | .getLog _ | .sessionInfo | .sessionStale _ | .loadGraph
  | .objectObserved | .inputRingDoorbell _ _ | .inputTokens _ _ | .budgetAdd _ _ | .budgetSet _ _ | .outputRingDoorbell _ _ => true
  | _ => false

/-- Command-port commands and ring traffic store nothing in the module, and touch no part of the stacks, of bring-up, of the Camner link, of power,
of the thermal control or of the pins; only the commands of the security chapter touch its state. CLOSE_SESSION and TRUNCATE_SESSION store
only the parameters of the task that they create (R238): nothing where no record has a parameter block. -/
def Obligations.PortCommandsFrame : Prop :=
  let outside := fun (s t : State) => t.bring = s.bring ∧ t.topo = s.topo ∧ t.camner = s.camner ∧ t.twinFlits = s.twinFlits ∧
    t.power = s.power ∧ t.therm = s.therm ∧ t.hubTherm = s.hubTherm ∧ t.voff = s.voff ∧ t.pins = s.pins
  (∀ (i : Instr) (s t : State), Claims.portCommand i = true → exec i s = .next t → Claims.sameModule s t ∧ outside s t ∧
    (i ≠ .closeDebug → i ≠ .advanceRollback → (∀ o, i ≠ .install o) → (∀ o, i ≠ .installComplete o) → t.sec = s.sec)) ∧
  ∀ (i : Instr) (s t : State), i = .closeSession ∨ i = .truncateSession → exec i s = .next t → outside s t ∧ t.sec = s.sec ∧
    t.cores = s.cores ∧ t.bps = s.bps ∧ t.routers = s.routers ∧ t.flights = s.flights ∧ t.crossings = s.crossings ∧ t.flash = s.flash ∧
    t.parts = s.parts ∧ t.present = s.present ∧ t.loadedParts = s.loadedParts ∧
    ((∀ k g, getGraph s k = some g → ∀ x ∈ g.tasks, x.psize = 0) → Claims.sameModule s t)

/-! ### Rules of the machine as a whole -/

/-- The canonical NaNs of the formats (R35): every conversion and every operation that produces a NaN writes the canonical one of its destination,
whatever NaN it read; an MX block that holds a NaN gets the scale 0xFF. -/
def Obligations.NaNsAreCanonical : Prop :=
  (∀ f v, encodeFmt f v = fmtNaN f ∨ v ≠ .nan) ∧ fmtNaN .fp32 = 0x7FC00000 ∧ fmtNaN .bf16 = 0x7FC0 ∧ fmtNaN .fp16 = 0x7E00 ∧
  fmtNaN .e4m3 = 0x7F ∧ fmtNaN .e5m2 = 0x7F ∧
  (∀ f g code, decodeFmt f code = .nan → convertFmt f g code = fmtNaN g) ∧
  (∀ a b : BitVec 32, decF32 a = .nan ∨ decF32 b = .nan → addF32 a b = 0x7FC00000#32 ∧ subF32 a b = 0x7FC00000#32 ∧ mulF32 a b = 0x7FC00000#32) ∧
  (∀ a b : BitVec 16, decodeFmt .bf16 a.toNat = .nan ∨ decodeFmt .bf16 b.toNat = .nan → addBf16 a b = 0x7FC0#16) ∧
  (∀ f vs, Val.nan ∈ vs → (mxQuant f vs).1 = 0xFF#8)

/-- A floating-point code that is not a NaN survives its own format: encoding what it decodes to gives it back, the sign of a zero included, so no
unit flushes a subnormal and no rounding moves an exact value (R33, R34, R41). -/
def Obligations.CodesRoundTrip : Prop := ∀ (f : Fmt) (code : Nat), f ≠ .int8 → f ≠ .k4 → code < 2 ^ fmtBits f → decodeFmt f code ≠ .nan →
  encodeFmt f (decodeFmt f code) = code

/-- The S-code (R282 to R284): a stored word reads back clean, a poison word always reads as POISONED with its data, and an error in exactly one
symbol is corrected, in a vault as on an LPDDR device. The L-code's word reads back clean and its poison form as a mismatch (R285). -/
def Obligations.CodeWordsReadBack : Prop := ∀ (d : BitVec 512) (pins : Bool),
  decodeWord .s pins (encodeWord .s d) = (d, .clean) ∧ decodeWord .s pins (poisonWord .s d) = (d, .poisoned) ∧
  (∀ n pat, n < 36 → pat ≠ 0#16 → decodeWord .s pins (flipSym n pat (encodeWord .s d)) = (d, .corrected)) ∧
  decodeWord .l pins (encodeWord .l d) = (d, .clean) ∧ decodeWord .l pins (poisonWord .l d) = (d, .mismatch)

/-- R12: a write addressed to die 0xFF is made at every stack that answers on the management ring, one after another; a read addressed there, like
one of an offset that no register implements, has no data but the address error, which the device window answers with zero data; a write to an
offset that no register implements is answered with the address error too, and changes nothing. -/
def Obligations.BroadcastsAndUnimplementedOffsets : Prop := ∀ (s : State) (a : Nat) (v : Word),
  let at_ := fun (d : Stack) => a % 2 ^ 32 + 2 ^ 32 * dieNo d
  (adDie a = 0xFF → readReg s a = none) ∧
  (adDie a = 0xFF → (∃ d, (regRow (at_ d)).isSome = true) → writeReg a v s = (.ok, (allStacks.filter (onRing s)).foldl (fun t d =>
    if (regRow (at_ d)).isSome then dieWrite d (at_ d) v t else t) s)) ∧
  (adDie a = 0xFF → (∀ d, regRow (at_ d) = none) → writeReg a v s = (.err, s)) ∧
  (regRow a = none → readReg s a = none) ∧ (adDie a ≠ 0xFF → regRow a = none → writeReg a v s = (.err, s)) ∧
  (∀ (tag : BitVec 12) (o : BitVec 64) (e : Stack), linkUp s = true → winTarget s o.toNat = .reg a → o.toNat % 8 = 0 → readReg s a = none →
    exec (.winRead tag o 8 e) s = .next (winAnswer opDone tag.toNat 2 0 0 s))

/-- R373: bring-up step 14 sets DISP_CTRL.EN, and once it is done no opcode is answered NOT_READY. -/
def Obligations.ReadyOpensTheCommandPort : Prop := ∀ (s : State) (p : Nat), s.canon = true →
  (bringAt s 14 = true → ∃ t, exec .ready s = .next t ∧ getF t r_DISP_CTRL f_DISP_CTRL_EN = 1) ∧
  (14 ≤ s.bring.last → earlyStatus s p ≠ some stNotReady)

/-- The lane class of an instance: MAINT 0, DECODE 1, PREFILL 2, BACKGROUND 3. -/
def Claims.classOf (s : State) (i : Nat) : Option Nat :=
  match getInst s i with
  | none => none
  | some x => (getGraph s x.graph).map fun g => (laneRecOf g (taskOf g x)).cls

/-- R245: with PEVERY = k other than 0, and the last k − 1 entries of the partition all of other classes, a ready PREFILL instance is chosen, by the
rest of the order of R244; with k = 0 a PREFILL instance is chosen only when no MAINT or DECODE instance is ready. -/
def Obligations.PrefillShare : Prop := ∀ (s : State) (p : Nat),
  let k := getF s r_DISP_CTRL f_DISP_CTRL_PEVERY
  (k ≠ 0 → k - 1 ≤ sget 0 s.svc.sincePre p → (∃ i ∈ readyInsts s p, Claims.classOf s i = some 2) →
    ∃ j ∈ readyInsts s p, chooseInst s p = some j ∧ Claims.classOf s j = some 2 ∧
      ∀ i ∈ readyInsts s p, Claims.classOf s i = some 2 → lexLt (instOrder s p i) (instOrder s p j) = false) ∧
  (k = 0 → ∀ j, chooseInst s p = some j → Claims.classOf s j = some 2 →
    ∀ i ∈ readyInsts s p, Claims.classOf s i ≠ some 0 ∧ Claims.classOf s i ≠ some 1)

/-- The dispatcher chooses a ready instance that no ready instance of its partition precedes in the order of R244, and one whenever one is ready. The
order within step 6 is the model's reading (log entry 63). -/
def Obligations.DispatchFollowsTheOrder : Prop := ∀ (s : State) (p : Nat),
  (chooseInst s p = none ↔ readyInsts s p = []) ∧
  ∀ j, chooseInst s p = some j → j ∈ readyInsts s p ∧ ∀ i ∈ readyInsts s p, lexLt (instOrder s p i) (instOrder s p j) = false

/-- R340: the registers of hub block 0x82 stand at their addresses; a system reset and a warm reset of the package clear the block, every held
session and every mirror state. -/
def Obligations.ResetClearsTheTwinBlock : Prop :=
  r_TWIN_CTRL = 0x82000000 ∧ r_TWIN_STATUS = 0x82000008 ∧ r_TWIN_MIRROR = 0x82000010 ∧
  (∀ n, n < 16 → r_TWIN_GMAP n = 0x82000100 + 8 * n) ∧
  ∀ (s : State) (lv : Nat), s.canon = true → s.sec.pulse = none → s.rst.seqs = [] → s.rst.command = some lv → portBusy s = false →
    (lv = lvSystem ∨ lv = lvWarm) →
    ∃ t, exec .packageResetTakesEffect s = .next t ∧ t.twin = Twin.reset ∧ t.svc = Svc.reset ∧
      ∀ a, a / 2 ^ 24 = 0x82 → getReg t a = regReset a

/-- R436: the registers of hub block 0x85 stand at their addresses; a system reset of the package clears every field of the block that is not loaded
from fuse, and keeps those that are. -/
def Obligations.SystemResetClearsTheSecurityBlock : Prop :=
  r_SEC_STATUS = 0x85000000 ∧ r_SEC_ROLLBACK = 0x85000008 ∧
  (∀ k w, k < 8 → w < 4 → r_SEC_KEYHASH (4 * k + w) = 0x85000100 + 32 * k + 8 * w) ∧
  fusedBits r_SEC_STATUS = 1 ∧ fusedBits r_SEC_ROLLBACK = BitVec.allOnes 64 ∧ (∀ n, n < 32 → fusedBits (r_SEC_KEYHASH n) = BitVec.allOnes 64) ∧
  ∀ (s : State), s.canon = true → s.sec.pulse = none → s.sec.advance = none → s.rst.seqs = [] → s.rst.command = some lvSystem →
    portBusy s = false →
    ∃ t, exec .packageResetTakesEffect s = .next t ∧
      ∀ a, a / 2 ^ 24 = 0x85 → getReg t a = (getReg s a &&& fusedBits a) ||| (regReset a &&& ~~~fusedBits a)

/-! ### Trees and retrieval (chapters 7 and 8) -/

/-- The validity of a tree descriptor, condition by condition (R207); no descriptor has more than 16 entries (R206). -/
def Claims.treesAreValid : Prop := ∀ (limit vocab t : Nat),
  let n := bits t 7 0
  let x := treeNode t
  let anc := fun (i : Nat) => bits t (640 + 16 * i + 15) (640 + 16 * i)
  treeValid limit vocab t = true ↔
    (1 ≤ n ∧ n ≤ limit ∧ n ≤ 16) ∧
    (∀ i, 1 ≤ i → i < n → (x i).parent < i ∧ (x i).depth = (if (x i).parent = 0 then 0 else (x (x i).parent).depth) + 1) ∧
    (anc 0 = 1 ∧ ∀ i, 1 ≤ i → i < n → anc i = anc (x i).parent ||| 2 ^ i) ∧
    (∀ i j, 1 ≤ i → i < j → j < n → (x i).parent = (x j).parent → (x i).token ≠ (x j).token) ∧
    ∀ i, i < n → (x i).token < vocab

/-- A decode launch starts with the tree of its session's DSB, checked for four nodes an engine and the graph's vocabulary; an invalid one is
verified as its root alone, and the launch remembers that for its commit record (R207). No memory or register changes. -/
def Claims.invalidTreesAreRoots : Prop := ∀ (s : State) (p engines slot : Nat) (l : Launch) (g : Graph),
  let t := dsbTree (readDsb s g slot)
  let u := beginLaunch p engines s
  s.svc.launches.find? (fun l => l.part == p && !l.started) = some l → getGraph s l.graph = some g → launchOf s l = some (slot, 2) →
  (∃ l' ∈ u.svc.launches, l'.started = true ∧ l'.record = l.record ∧
    (treeValid (4 * engines) g.place.vocab t = true → l'.tree = treeNodes t ∧ l'.treeBad = false) ∧
    (treeValid (4 * engines) g.place.vocab t = false → l'.tree = [⟨(treeNode t 0).token, 0, 0⟩] ∧ l'.treeBad = true)) ∧
  u.mem = s.mem ∧ u.regs = s.regs

/-- Trees are checked at the start of a step. -/
def Obligations.InvalidTreesVerifyTheRoot : Prop := Claims.treesAreValid ∧ Claims.invalidTreesAreRoots

/-- The ranking of the candidates: each stands in it once, and of two the one with the higher score stands first, a NaN above every number and both
zeros equal, and among equal scores the lower page index (R200). -/
def Claims.candidatesRank : Prop :=
  (∀ l : List (BitVec 32 × Nat), let r := l.foldl (fun r x => insertRank x r) []
    r.Perm l ∧ ranking l = r.map (·.2) ∧
    r.Pairwise fun a b => scoreRank b.1 < scoreRank a.1 ∨ (scoreRank a.1 = scoreRank b.1 ∧ heIdx a.2 ≤ heIdx b.2)) ∧
  (∀ a b : BitVec 32, isNaN32 a = true → isNaN32 b = false → scoreRank b < scoreRank a) ∧
  (∀ a b : BitVec 32, isNaN32 a = false → isNaN32 b = false → a.getLsbD 31 = false → b.getLsbD 31 = false →
    (scoreRank a < scoreRank b ↔ a.toNat < b.toNat)) ∧
  (∀ a b : BitVec 32, isNaN32 a = false → isNaN32 b = false → a.getLsbD 31 = true → b.getLsbD 31 = true →
    (scoreRank a < scoreRank b ↔ b.toNat < a.toNat)) ∧
  (∀ a b : BitVec 32, isNaN32 b = false → isNaN32 a = false → a.getLsbD 31 = true → b.getLsbD 31 = false → scoreRank a ≤ scoreRank b) ∧
  scoreRank 0x80000000#32 = scoreRank 0#32

/-- The pages that a decode step attends, and its prefetch band (R199, R202, R204): every page, and no band, in exact attention; else the pages of
the sink and window sets, and the first P of the ranked candidates; FRAC = 0 selects none, and WIN = 0 acts as 1. -/
def Claims.stepsSelect : Prop := ∀ (s : State) (g : Graph) (x : Sess) (odd : Bool) (slot cpos l h : Nat) (q : List (List Nat)),
  let cfg := (cfgOf s g.part).1
  let frac := fieldOf f_RET_CFG_FRAC cfg
  let all := (pairPages s g slot l h).map (·.2)
  let r := ranked s g cfg odd slot cpos (queriesOf g q l h) l h
  let p := (r.length * frac + 255) / 256
  let got := stepPages s g x odd slot cpos q l h
  let exact := cpos ≤ 4096 * fieldOf f_RET_CFG_RET_MIN cfg ∨ x.flags.testBit 1 = true
  let near := fun (w : Nat) => heIdx w < fieldOf f_RET_CFG_SINK cfg ∨ (cpos - 128 * max 1 (fieldOf f_RET_CFG_WIN cfg)) / 128 ≤ heIdx w
  (exact → got = (all, [])) ∧
  (¬exact →
    (∀ w, w ∈ got.1 ↔ (w ∈ all ∧ near w) ∨ w ∈ r.take p) ∧
    (∀ w ∈ r, w ∈ all ∧ ¬near w) ∧ got.1.length ≤ all.length ∧
    got.2 = (r.drop p).take ((p * fieldOf f_RET_CFG_PX cfg + 255) / 256) ∧
    (frac = 0 → got.2 = [] ∧ ∀ w, w ∈ got.1 ↔ w ∈ all ∧ near w))

/-- The misses of an attended decode step (R201): the attended pages that are not in the vault with MOVING clear, and no others. -/
def Claims.stepsMiss : Prop := ∀ (s : State) (k slot cpos stamp : Nat) (q : List (List Nat)) (g : Graph) (x : Sess),
  getGraph s k = some g → getSess s slot = some x →
  ∃ y, getSess (attend k slot kDecode cpos stamp q s) slot = some y ∧
    ∀ id, id ∈ y.missing ↔ pageHere s g id = false ∧
      ∃ p ∈ layerPairs g, ∃ w ∈ (stepPages s g x (stamp % 2 == 1) slot cpos q p.1 p.2).1, heId w = id

/-- Retrieval: the ranking, the attention set, the prefetch band and the missing pages. -/
def Obligations.RetrievalSelectsByRank : Prop := Claims.candidatesRank ∧ Claims.stepsSelect ∧ Claims.stepsMiss
end

