-- ==== Sys2Proof/WellFormed.lean ====
section
/-! DEFINITION. Which commands a sender can form: the bounds that the spec puts on the facts that a command carries. The meanings
are total all the same; these are the operands that a hardware could bring. -/
namespace Sys2Proof

/-- Symbol lanes 0 to 143 (R259). -/
def Upsets.wf (u : Upsets) : Bool := u.all fun p => decide (p.1 < 144)

/-- Each direction has as many data spares as groups, 16 wires in a group (R111). -/
def WireTest.wf (t : WireTest) : Bool := decide (t.groups.length ≤ 512)

/-- 1,152 wires of data and check in each half, 64 command and address wires with 16 spares (R259). -/
def VaultTest.wf (t : VaultTest) : Bool := decide (t.half0 ≤ 1152) && decide (t.half1 ≤ 1152) && decide (t.command ≤ 80)

/-- A host or transit access moves 1 to 256 bytes that do not cross a 256-byte line (R122, R153). -/
def accessWf (addr len data : Nat) : Bool :=
  decide (1 ≤ len) && decide (addr % 256 + len ≤ 256) && decide (data < 2 ^ (8 * len))

/-- The names of an operation fit their fields (R175, R329). -/
def MirOp.wf : MirOp → Bool
  | .openS sid handle prio flags sampler inR outR cons how =>
    decide (sid < 2 ^ 64) && decide (handle < 2 ^ 16) && decide (prio < 16) && decide (flags < 256) && decide (sampler < 2 ^ 128) &&
      decide (inR < 2 ^ 16) && decide (outR < 2 ^ 16) && decide (cons < 2 ^ 32) && decide (how < 3)
  | .fork parent sid f _ inR outR =>
    decide (parent < 2 ^ 64) && decide (sid < 2 ^ 64) && decide (f < 2 ^ 32) && decide (inR < 2 ^ 16) && decide (outR < 2 ^ 16)
  | .truncate sid t => decide (sid < 2 ^ 64) && decide (t < 2 ^ 32)
  | .setS sid prio sampler => decide (sid < 2 ^ 64) && decide (prio < 16) && decide (sampler < 2 ^ 128)
  | .close sid => decide (sid < 2 ^ 64)

/-- 56 diodes, 8 LPDDR channels and 16 monitors of a stack (R384). -/
def StackReading.wf (r : StackReading) : Bool :=
  decide (r.sensors.length = 56) && decide (r.mr4.length = 8) && decide (r.monitors.length = 16)

/-- 8 diodes of the hub, and no stack twice (R384). -/
def RoundReading.wf (r : RoundReading) : Bool :=
  decide (r.hub.length = 8) && r.dies.all StackReading.wf && decide (r.dies.map (·.die)).Nodup

/-- The tests of every link are in range. -/
def linkTestsWf (l : LinkTests) : Bool := l.all fun t => t.2.1.wf && t.2.2.wf

/-- What a stack's recovery finds: every test in range, six layers (R353). -/
def StackFound.wf (f : StackFound) : Bool :=
  linkTestsWf f.links && f.vaults.all (fun v => v.2.wf) && decide (f.layers.length = 6)

/-- A placement names each bank group of its lists by its package index, each list entry for one group (R147, R185, R186). -/
def Place.wf (p : Place) : Bool :=
  p.near.all (fun g => decide (g < 9216)) && decide (p.partner.length = p.near.length) && decide p.near.Nodup

/-- Which commands a sender can form. -/
def Instr.wellFormed : Instr → Bool
  | .registerWrite a _ => decide (a.toNat % 8 = 0)
  | .vdma _ _ _ us => us.all Upsets.wf
  | .ldmaRead _ _ us => us.all Upsets.wf
  | .ldmaGather _ _ _ us => us.all Upsets.wf
  | .adderResult _ _ _ u => u.wf
  | .recheck _ _ u => u.wf
  | .drizzleRead _ _ _ u => u.wf
  | .drizzleWriteback _ _ u => u.wf
  | .mergeEntryTimeout _ _ u => u.wf
  | .fetchSlot _ _ u => u.wf
  | .vaultReadBeat _ _ u => u.wf
  | .linkRetrainSegment _ _ here there => here.wf && there.wf
  | .hubTransitTransfer _ _ addr len data _ _ => accessWf addr len data
  | .hostQueueArrival _ _ _ _ addr len data _ u => accessWf addr len data && u.wf
  | .vaultHostRequest _ _ _ _ addr len data _ u => accessWf addr len data && u.wf
  | .lpddrHostRequest _ _ _ addr len data u => accessWf addr len data && u.wf
  | .graphLoadComplete _ _ _ pl => pl.wf
  | .vaultRetrainSegment _ _ t => t.wf
  | .loadWeights (some chunk) _ => decide (chunk.length % 256 = 0)
  | .carrierFlitReceive _ _ _ ops => ops.all fun o => o.2.wf
  | .setPartitions (some block) _ => decide (block.length % 8 = 0)
  | .mirOp _ op => op.wf
  | .stackRecovery _ found => found.wf
  | .ringEnumeration found => decide (found.map (·.1)).Nodup
  | .topologyDiscovery maps => decide (maps.map (·.1)).Nodup
  | .dieToDieTraining tests => linkTestsWf tests
  | .vaultVerticalTraining tests => tests.all fun t => t.2.2.wf
  | .fullRateTraining links tests => linkTestsWf links && tests.all fun t => t.2.2.wf
  | .measurementRound r => r.wf
  | .i3cPrivateWrite bytes => decide (bytes ≠ [])
  | _ => true

end Sys2Proof
end

