-- ==== Sys2Proof/Tests/Slice0.lean ====
section
/-! SUPPORT. Tests: what `WellFormed` refuses, what words and codes stand for, and for every statement's hypotheses concrete states and
operands that meet them together. -/
open Sys2Proof Sys2Proof.Machine

section
set_option Elab.async false

/-! ### Words (chapters 3 to 5) -/

/-- A word of a step program from its fields, each a value at its lowest bit. -/
def Tests.word (l : List (Nat × Nat)) : BitVec 128 := BitVec.ofNat 128 (l.map fun f => f.2 * 2 ^ f.1).sum

/-- Core 0 of stack 0 runs the 17th word `w` of a program of 17, ready in cycle `r`. -/
def Tests.run (w : BitVec 128) (r : Nat) : State := updCore 0 0 (fun x =>
  { x with running := true, wordIx := 16, progWords := 17, queue := [(r, w)] })
  (putF (r_CORE_CTRL 0 0) f_CORE_CTRL_EN 1 (putF (r_BP_CTRL 0 0 0) f_BP_CTRL_ROLE 1 State.reset))

/-- Words of R62, R67 and R70 to R75, R123, R149 and R272, one of each kind, every field as its table lays it out. -/
def Tests.words : List (BitVec 128 × WordRow) :=
  [(Tests.word [], .nop), (Tests.word [(16, 1), (20, 1), (24, 5), (28, 5), (69, 1)], .mac),
   (Tests.word [(16, 2), (20, 1), (24, 5), (70, 1)], .opload), (Tests.word [(16, 3), (20, 15)], .swap),
   (Tests.word [(16, 4), (20, 1), (29, 10)], .drain), (Tests.word [(16, 5), (20, 8), (24, 31)], .accld),
   (Tests.word [(16, 6), (27, 1), (66, 1)], .vdma), (Tests.word [(16, 0xF)], .endWord),
   (Tests.word [(16, 8), (24, 1), (43, 1)], .send), (Tests.word [(16, 8), (24, 2), (43, 1)], .recv),
   (Tests.word [(16, 8), (24, 3), (43, 1)], .rsend), (Tests.word [(16, 8), (24, 4), (103, 16)], .route),
   (Tests.word [(16, 9), (24, 1), (28, 1)], .bpStart), (Tests.word [(16, 9), (24, 2), (28, 1)], .bpRelease),
   (Tests.word [(16, 0xA), (24, 1), (75, 1)], .ldmaRead), (Tests.word [(16, 0xA), (24, 2), (75, 1)], .ldmaWrite),
   (Tests.word [(16, 0xA), (24, 3), (75, 1), (58, 1)], .ldmaGather)]

/-- An SFU word of R89: operation `op` on one block of FP32 at 0 and at 1024, to 4096. -/
def Tests.sfuWord (op : Nat) : BitVec 128 :=
  Tests.word [(16, 7), (24, op), (30, 10), (34, 10), (59, 1024), (80, 4096), (101, 1), (116, if op = 0x2B then 32 else 0)]

/-- The words of R90 to R103. -/
def Tests.sfuOps : List Nat := (Claims.sfuWords 0 0 false).map (·.2)

/-- Is `w` due in core 0? The parts of `Claims.wordDue`. -/
def Tests.due (s : State) (w : BitVec 128) : Bool :=
  let x := getCore s 0 0
  let n := Claims.issueCycle s 0 0 w
  let p := passWord 0 0 n (settle 0 0 n s)
  let q := Claims.issueState s 0 0 w
  x.running && !x.ended && !x.trapped && !x.stopped && !x.elastic &&
    (match nextWord s 0 0 with | some (r, v) => v == w && decide (r ≤ n) | none => false) &&
    !(getCore (settle 0 0 n s) 0 0).trapped && !badWord p 0 0 w n && !(getCore p 0 0).classes.contains (wordClass w) &&
    (!isEngineWord w || (getF q (r_CORE_CTRL 0 0) f_CORE_CTRL_EN != 0 && !engineAbsent q 0 0 w && !engineBusy q 0 0 w n))

theorem Tests.dueOf {s : State} {w : BitVec 128} (h : Tests.due s w = true) : Claims.wordDue s 0 0 w := by
  unfold Tests.due at h
  split at h <;> simp_all [Claims.wordDue]
  rcases h with ⟨-, h | h⟩ <;> simp_all

/-- The parts of `Claims.unitFree` in the state in which `w` issues. -/
def Tests.free (s : State) (w : BitVec 128) : Bool :=
  let t := Claims.issueCycle s 0 0 w
  let s := Claims.issueState s 0 0 w
  let x := getCore s 0 0
  let eng := fun (f : Engine → Bool) => (maskEngines (wordEmask w)).all fun e => f (getEng x (physEngine s 0 0 e))
  match rowOf w with
  | .opload => eng fun g => decide (g.swapAt ≠ t + 1 ∧ g.bgEnd ≤ t)
  | .swap => eng fun g => decide (g.bgEnd ≤ t ∧ g.loadAt ≠ t + 1)
  | .accld => (maskEngines (wordEmask w)).all fun e => !accPending x (physEngine s 0 0 e) (wbits w 28 24) t
  | .drain => wbits w 83 76 == 0 || decide (x.sfuEnd ≤ t)
  | .sfu _ => decide (x.sfuEnd ≤ t)
  | .send | .rsend => decide (x.sendEnd ≤ t)
  | .recv => decide (x.recvEnd ≤ t)
  | .vdma => !x.chHalted.contains (vdmaCh w) && decide (vdmaDir w = 1)
  | .bpStart => (bpMask w).all fun j => isNear s 0 0 j
  | .ldmaRead | .ldmaWrite | .ldmaGather => !(getLp s 0).halted &&
      (lpEarlyGroup s 0 (ldmaSectors s 0 (clusterOf 0) w) (t - x.start) == none) &&
      (lpPlan s 0 (thawed s) (t - x.start) (ldmaSectors s 0 (clusterOf 0) w)).isSome
  | _ => true

theorem Tests.freeOf {s : State} {w : BitVec 128} (h : Tests.free s w = true) :
    Claims.unitFree 0 0 w (Claims.issueCycle s 0 0 w) (Claims.issueState s 0 0 w) := by
  unfold Tests.free at h
  unfold Claims.unitFree
  split at h <;> simp_all
  exact h.resolve_left

/-- A word of each kind, and for RECV the beat of a gate result: what `Claims.checks` records needs no state. -/
theorem witness_DueWordsIssue_words : Tests.words.all (fun w => rowOf w.1 == w.2 && Tests.due (Tests.run w.1 0) w.1 &&
    Tests.free (Tests.run w.1 0) w.1) = true := by decide +kernel

theorem witness_DueWordsIssue_sfu : Tests.sfuOps.all (fun op => rowOf (Tests.sfuWord op) == .sfu op &&
    Tests.due (Tests.run (Tests.sfuWord op) 0) (Tests.sfuWord op) &&
    Tests.free (Tests.run (Tests.sfuWord op) 0) (Tests.sfuWord op)) = true := by decide +kernel

/-- SWAP, NOP, END and an SFU word. -/
theorem witness_WordsChangeTheirUnits : [Tests.word [(16, 3), (20, 15)], Tests.word [], Tests.word [(16, 0xF)], Tests.sfuWord 0x02].all (fun w =>
    (Tests.run w 0).canon && (getCore (Tests.run w 0) 0 0).agenda.isEmpty && !(getCore (Tests.run w 0) 0 0).gateErr &&
    Tests.due (Tests.run w 0) w && Tests.free (Tests.run w 0) w) = true := by decide +kernel

/-- A word that is ready one cycle late, one with a reserved bit set, and one of a class that has issued in its cycle. -/
theorem witness_SequencerFaultsAreRecorded :
    let w := Tests.word [(16, 1), (20, 1), (24, 5), (28, 5), (69, 1)]
    let bad := Tests.word [(16, 3), (20, 1), (24, 1)]
    let again := updCore 0 0 (fun x => { x with classes := [1] }) (Tests.run w 0)
    ([Tests.run w 1, Tests.run bad 0, again].all (fun s => s.canon && (getCore s 0 0).agenda.isEmpty && !(getCore s 0 0).gateErr &&
      (getCore s 0 0).running && !(getCore s 0 0).ended && !(getCore s 0 0).trapped && !(getCore s 0 0).stopped &&
      !(getCore s 0 0).elastic) = true) ∧
    nextWord (Tests.run w 1) 0 0 = some (1, w) ∧ nextWord (Tests.run bad 0) 0 0 = some (0, bad) ∧
    badWord (passWord 0 0 0 (Tests.run bad 0)) 0 0 bad 0 = true ∧ nextWord again 0 0 = some (0, w) ∧
    badWord (passWord 0 0 0 again) 0 0 w 0 = false ∧ (getCore (passWord 0 0 0 again) 0 0).classes.contains (wordClass w) = true := by
  decide +kernel

theorem witness_WordsOfAnotherKindWait : (getCore (Tests.run (Tests.word [(16, 3)]) 0) 0 0).gateErr = false ∧
    nextWord (Tests.run (Tests.word [(16, 3)]) 0) 0 0 = some (0, Tests.word [(16, 3)]) ∧ rowOf (Tests.word [(16, 3)]) ≠ .nop ∧
    (getCore State.reset 0 0).running = false := by decide +kernel

/-! ### Timetables, launches, fabric, flash tree -/

/-- Core 0 of stack 0 has one entry in its timetable. -/
def Tests.soon (a : Act) : State := updCore 0 0 (fun x => { x with agenda := [⟨8, 0, a⟩] }) State.reset

/-- A beat of zeros, a header or not. -/
def Tests.beat (tag : Bool) : Beat := ⟨0, tag, false⟩

/-- An LPDDR group of one contributor of one beat, which has arrived. -/
def Tests.lpGroup : State := updLp 0 (fun p => { p with groups := [(0, ⟨[(0, 0)], some 5, 5, 0⟩)] })
  (putF (r_LP_RGRPA 0 0) f_VC_RGRPA_CNT 1 (putF (r_LP_RGRPA 0 0) f_VC_RGRPA_LEN 1 State.reset))

/-- The same with a result beat that has its slots. -/
def Tests.lpOut : State := updLp 0 (fun p => { p with out := [(0, 0, 9)] }) Tests.lpGroup

theorem witness_TimetableEntriesHappen :
    let first := fun (a : Act) (k : Act → Bool) => match (getCore (Tests.soon a) 0 0).agenda with | e :: _ => k e.act | [] => false
    (first (.fetchReady []) Claims.isFetch && first (.macUpd 3 31 true [0x3F800000#32]) Claims.isUpdate &&
      first (.opEntry 0 0 0 .int8 0 0 true) Claims.isLastLoad && first (.beatIn 0 0 0 0) Claims.isReadBeat &&
      first (.bpDeliver 0 0 0) Claims.isReadBeat && first (.portBeat (Tests.beat true)) Claims.isHeader &&
      first (.portBeat (Tests.beat false)) Claims.isData && first (.addResult 0 0) Claims.isResult &&
      (getCore State.reset 0 0).agenda.isEmpty && !(getCore State.reset 0 0).gateErr && (Tests.soon (.macUpd 3 31 true [])).canon &&
      !(getCore (Tests.soon (.macUpd 3 31 true [])) 0 0).gateErr && lpFullGroup Tests.lpGroup 0 == some 0 && (getLp Tests.lpGroup 0).out.isEmpty &&
      !(getLp Tests.lpOut 0).out.isEmpty &&
      (getLp State.reset 0).out.isEmpty && lpFullGroup State.reset 0 == none) = true := by decide +kernel

/-- The message of selector 255 at port 0 of stack 3. -/
def Tests.msg (k : FlashKind) : FlashMsg := ⟨3, 0, k, 255, 0, 16⟩

/-- A message stands at a die's IN port, which is open; the die is of a partition of its own and its cores are initialised. -/
def Tests.launched (k : FlashKind) : State :=
  forAll allCores (fun c => putF (r_CORE_STATUS 3 c) f_CORE_STATUS_INIT_DONE 1)
    (putF (r_PORT_CTRL 3 0) f_PORT_CTRL_ISOLATE 0 { State.reset with present := [3], parts := [⟨3, 0, 3, 0, 3, 0, [3]⟩], flash := [Tests.msg k] })

/-- A launch of selector 255 waits at core 0 of stack 0, whose step program has one word; the stack is a partition. -/
def Tests.waiting : State := updCore 0 0 (fun x => { x with held := some ⟨255, false, 16, 0⟩ })
  (putF (r_CORE_CTRL 0 0) f_CORE_CTRL_EN 1 (putReg { State.reset with present := [0], parts := [⟨0, 0, 0, 0, 0, 0, [0]⟩] } (r_STEP_TABLE 0 0 255)
    (withField f_STEP_TABLE_NWORDS (withField f_STEP_TABLE_FPER (withField f_STEP_TABLE_VALID 0 1) 16) 1)))

/-- Core 0 of stack 0 runs a program of 40 words and may fetch the last 8 of them. -/
def Tests.fetching : State := updCore 0 0 (fun x =>
  { x with running := true, progWords := 40, nextFetch := 32, queue := List.replicate 2032 (0, 0), nextSlot := 16 }) State.reset

theorem witness_StepsLaunchStartAndEnd :
    ([FlashKind.launch, .launchElastic].all fun k =>
      (Tests.launched k).canon && !closedTo (Tests.launched k) 3 (Tests.msg k) && closedTo State.reset 3 (Tests.msg k) &&
        (Tests.launched k).flash.find? (fun m => m.die == 3 && m.kind == k) == some (Tests.msg k) && (partOf (Tests.launched k) 3).isSome &&
        getF (Tests.launched k) (r_FLASH_STATUS 3) f_FLASH_STATUS_HALTED == 0 && getF (Tests.launched k) (r_FLASH_CTRL 3) f_FLASH_CTRL_IN == 0 &&
        allCores.all fun c => (getCore (Tests.launched k) 3 c).held == none &&
          getF (Tests.launched k) (r_CORE_STATUS 3 c) f_CORE_STATUS_INIT_DONE == 1) = true ∧
    (Tests.waiting.canon && (getCore Tests.waiting 0 0).held == some ⟨255, false, 16, 0⟩ && !(getCore Tests.waiting 0 0).running &&
      (getCore Tests.waiting 0 0).agenda.isEmpty && (partOf Tests.waiting 0).isSome && getF Tests.waiting (r_CORE_CTRL 0 0) f_CORE_CTRL_EN == 1 &&
      entryValid (getReg Tests.waiting (r_STEP_TABLE 0 0 255))) = true ∧
    (let x := getCore Tests.fetching 0 0
     Tests.fetching.canon && x.agenda.isEmpty && !x.gateErr && x.running && !x.trapped && !x.stopped && decide (x.nextFetch < x.progWords) &&
      decide (x.queue.length + 16 ≤ 2048) &&
      !busHeld (updCore 0 0 (fun x => { x with nextSlot := x.nextSlot + x.fper, now := max x.now x.nextSlot }) Tests.fetching) 0 0 108) = true ∧
    (let s := forAll allCores (fun c => updCore 0 c fun x => { x with running := true, ended := true }) State.reset
     s.canon && !dieElastic s 0 && allCores.all fun c => (getCore s 0 c).agenda.isEmpty && !(getCore s 0 c).gateErr && (getCore s 0 c).ended &&
      !(getCore s 0 c).elastic) = true ∧
    (State.reset.canon && (getCore State.reset 23 15).initialising) = true := by
  refine ⟨?_, ?_, ?_, ?_, ?_⟩ <;> decide +kernel

/-- A beat on its way to router 2, input 8 of stack 1. -/
def Tests.flight (transit : Bool) : Flight := ⟨1, 2, 8, 16, transit, Tests.beat false, 0⟩

/-- A transfer of the hub in its try `n`, to vault memory of stack 0, and the same with its answer at the controller. -/
def Tests.xfer (n : Nat) : State := { State.reset with hub := { Hub.reset with xfers := [⟨1, 7, false, 64, 8, 0, n, 0, false⟩] } }
def Tests.answered : State := updVc 0 0 (fun v => { v with answers := [⟨1, false, 5⟩] }) (Tests.xfer 1)

/-- A try that an error response has ended, and a hub-facing port that is open. -/
def Tests.failed (n : Nat) : State := updVc 0 0 (fun v => { v with answers := [⟨1, true, 0⟩] }) (Tests.xfer n)
def Tests.hubPort : State := putF (r_PORT_CTRL 7 2) f_PORT_CTRL_ISOLATE 0 State.reset

theorem witness_FabricMovesBeats :
    (let s : State := { State.reset with crossings := [⟨0, 1, 1, 16, false, Tests.beat false, 0⟩] }
     let o := putF (r_PORT_CTRL 0 1) f_PORT_CTRL_ISOLATE 0 s
     o.canon && takeFlight (fun f => f.die == 0 && f.port == 1) o.crossings == some (⟨0, 1, 1, 16, false, Tests.beat false, 0⟩, []) &&
      !portIsolated o 0 1 && decide (crc8 1024 (1#1024) ≠ crc8 1024 0#1024)) = true ∧
    (let s := updRouter 0 3 (fun r => { r with next := some (4096, 4095, 1) }) State.reset
     s.canon && (getRouter s 0 3).next == some (4096, 4095, 1)) = true ∧
    ([false, true].all fun b =>
      takeFlight (fun f => f.die == 1 && f.router == 2 && f.port == 8) [Tests.flight b] == some (Tests.flight b, [])) = true ∧
    (!Tests.hubPort.hub.transitStopped && facesHub 7 2 && !portIsolated Tests.hubPort 7 2 && facesHub 11 1 && facesHub 12 3 && facesHub 16 0 &&
      findXfer (Tests.failed 8) 1 == some ⟨1, 7, false, 64, 8, 0, 8, 0, false⟩ && xferFailed (Tests.failed 8) ⟨1, 7, false, 64, 8, 0, 8, 0, false⟩ &&
      xferFailed (Tests.failed 7) ⟨1, 7, false, 64, 8, 0, 7, 0, false⟩ && findXfer (Tests.failed 7) 1 == some ⟨1, 7, false, 64, 8, 0, 7, 0, false⟩ &&
      findXfer Tests.answered 1 == some ⟨1, 7, false, 64, 8, 0, 1, 0, false⟩ && !xferFailed Tests.answered ⟨1, 7, false, 64, 8, 0, 1, 0, false⟩ &&
      (xferAnswer Tests.answered ⟨1, 7, false, 64, 8, 0, 1, 0, false⟩).any (fun u => !u.2.2.err) && State.reset.hub.xfers.isEmpty) = true := by
  refine ⟨?_, ?_, ?_, ?_⟩ <;> decide +kernel

/-- A router whose slot table feeds output 0 from staging memory takes a beat from there. -/
theorem witness_FabricMovesBeats_staged :
    let s := updRouter 0 0 (fun r => { r with active := true }) (putReg State.reset (r_RT_SLOT 0 0 0) 0xFFFFFFFF4#64)
    (getRouter s 0 0).stagedOut = 0 ∧ (getRouter (inputBeat 0 0 4 0 s) 0 0).stagedOut = 1 ∧
      (getRouter (inputBeat 0 0 4 0 State.reset) 0 0).stagedOut = 0 := by decide +kernel

/-- A transit slot at offset 15 of an idle die and none at offset 0; an isolated port of a router. -/
theorem witness_FabricMovesBeats_slots : transitSlot State.reset 0 0 15 = true ∧ transitSlot State.reset 0 0 0 = false ∧
    portIsolated State.reset 0 (routerPort 0) = true ∧ State.reset.canon = true := by decide +kernel

/-- Every wire trains, but for the two that the control group's spares replace. -/
def Tests.wires : WireTest := ⟨[0, 31], 1, false⟩

/-- Stack 0's east link may retrain, at an isolated port; stack 1's in the pause that its partition has. -/
def Tests.retraining : State := updDie 0 (fun y => { y with retrain := [3], halfNext := [3], trained := [1], segNow := true })
  (putF (r_PORT_CTRL 0 1) f_PORT_CTRL_EN 1 State.reset)

theorem witness_PortsIsolateOpenAndRetrain :
    let s := Tests.retraining
    (State.reset.canon && outerPort 0 0 && !outerPort 0 1 && s.canon && getF s (r_PORT_CTRL 0 1) f_PORT_CTRL_EN == 1 &&
      (getDie s 0).trained.contains 1 && (getDie s 0).retrain.contains 3 && (getDie s 0).halfNext.contains 3 &&
      portIsolated s 0 3 && !dieRuns s 0 && allStacks.all (fun e => !dieRuns s e) && wireWidth Tests.wires == 0) = true := by decide +kernel

/-- A pause of the root in which its dies' segments are open, between two steps. -/
theorem witness_PortsIsolateOpenAndRetrain_pause : segmentOpen Tests.retraining 0 = true := by decide +kernel

/-- Stack 0 is a root with one launch in its queue. -/
def Tests.root (first : Bool) : State := updDie 0 (fun y => { y with lq := [⟨255, 64, 9⟩], firstNext := first })
  (putF (r_FLASH_CTRL 0) f_FLASH_CTRL_ROOT 1 State.reset)

theorem witness_FlashTreeLaunchesAndAborts :
    ([true, false].all fun b => (Tests.root b).canon && rootActive (Tests.root b) 0 && (getDie (Tests.root b) 0).taken == none &&
      (getDie (Tests.root b) 0).firstNext == b && (getDie (Tests.root b) 0).lq == [⟨255, 64, 9⟩]) = true ∧
    (let s := updDie 0 (fun y => { y with taken := some ⟨⟨255, 64, 9⟩, 0, false, false⟩ }) (Tests.root false)
     let w := updDie 0 (fun y => { y with lq := [] }) (Tests.root false)
     let v := updDie 0 (fun y => { y with sampled := some 3 }) (Tests.root false)
     s.canon && rootActive s 0 && (getDie s 0).taken == some ⟨⟨255, 64, 9⟩, 0, false, false⟩ && (getDie s 0).sampled == none &&
      getF s (r_FLASH_STATUS 0) f_FLASH_STATUS_ELASTIC_STEP == 0 && (getDie (Tests.root true) 0).sampled == none &&
      w.canon && rootActive w 0 && (getDie w 0).taken == none && !(getDie w 0).firstNext && (getDie w 0).lq.isEmpty &&
      (getDie w 0).sampled == none && v.canon && rootActive v 0 && (getDie v 0).taken == none && (getDie v 0).sampled == some 3) = true ∧
    (!closedTo (Tests.launched .done) 3 (Tests.msg .done) && !closedTo (Tests.launched .abort) 3 (Tests.msg .abort) &&
      closedTo State.reset 3 (Tests.msg .abort) && (Tests.launched .done).canon &&
      (Tests.launched .done).flash.find? (fun m => m.die == 3 && m.kind == .done) == some (Tests.msg .done) &&
      getF (Tests.launched .done) (r_FLASH_STATUS 3) f_FLASH_STATUS_HALTED == 0 &&
      (Tests.launched .abort).flash.find? (fun m => m.die == 3 && m.kind == .abort) == some (Tests.msg .abort) &&
      (Tests.launched .abort).canon && getF (Tests.launched .abort) (r_FLASH_STATUS 3) f_FLASH_STATUS_HALTED == 0) = true ∧
    (let s := putF (r_FLASH_CTRL 0) f_FLASH_CTRL_ELASTIC 1 State.reset
     let q := updDie 0 (fun y => { y with quiet := true }) State.reset
     s.canon && getF s (r_FLASH_CTRL 0) f_FLASH_CTRL_ELASTIC == 1 && q.canon && (getDie q 0).quiet &&
      getF q (r_FLASH_STATUS 0) f_FLASH_STATUS_ELASTIC_STEP == 0) = true := by
  refine ⟨?_, ?_, ?_, ?_⟩ <;> decide +kernel

/-- What FLASH_LQ takes and refuses: 16 cc is a whole number of phases, no length at all is not. -/
theorem witness_FlashTreeLaunchesAndAborts_lengths : tper State.reset 0 0 = 16 ∧ fieldOf f_FLASH_LQ_LEN16 0 = 0 ∧
    fieldOf f_FLASH_LQ_LEN16 (withField f_FLASH_LQ_LEN16 0 1) * 16 % 16 = 0 ∧ (getDie State.reset 0).lq.length < 4 ∧
    4 ≤ (getDie (updDie 0 (fun y => { y with lq := List.replicate 4 ⟨0, 16, 0⟩ }) State.reset) 0).lq.length := by decide +kernel

/-! ### Near-bank processors (chapter 6) -/

/-- An instruction of the layout of R165. -/
def Tests.rType (f7 rs2 rs1 f3 rd opcode : Nat) : Nat := f7 * 2 ^ 25 + rs2 * 2 ^ 20 + rs1 * 2 ^ 15 + f3 * 2 ^ 12 + rd * 2 ^ 7 + opcode

/-- BP 0 of core 0 of stack 0 stands at instruction `w`; x1 points to scratch, x2 to byte 1984 of the group. -/
def Tests.bp (w : Nat) : State := updBp 0 0 0 (fun b => { b with run := .running, owned := true, x := [(1, 0x10000000#32), (2, 1984#32)] })
  (writeMem (progKey 0 0 0 0) 4 w State.reset)

/-- The parts of `Claims.bpAt`. -/
def Tests.bpAt (w : Nat) (o : BpOp) : Bool := (getBp (Tests.bp w) 0 0 0).run == .running && bpFetch (Tests.bp w) 0 0 0 == some (w, 4) &&
  customOp w == some o

/-- Words of R166 and R167. -/
def Tests.vectorWords : List (Nat × BpOp) :=
  let v := fun f7 rs2 rs1 f3 rd => Tests.rType f7 rs2 rs1 f3 rd 0x0B
  [(v 0 15 15 2 15, .vfadd), (v 1 3 2 2 1, .vfsub), (v 2 3 2 2 1, .vfmul), (v 3 3 2 2 1, .vfmax), (v 4 3 2 2 1, .vfmin), (v 5 3 2 2 1, .vfmac),
   (v 8 0 2 2 1, .vfexp), (v 9 0 2 2 1, .vfrcp), (v 0 31 2 3 1, .sfadd), (v 1 31 2 3 1, .sfsub), (v 2 31 2 3 1, .sfmul), (v 3 31 2 3 1, .sfmax),
   (v 4 31 2 3 1, .sfmin), (v 0x10 31 0 3 1, .vsplat), (v 0x11 31 2 3 1, .vlim), (v 0x12 31 2 3 1, .vmsk), (v 0 0 2 4 31, .redSum),
   (v 1 0 2 4 31, .redMax), (v 0 0 2 5 1, .cvtLo), (v 1 0 2 5 1, .cvtHi), (v 2 3 2 5 1, .cvtPack), (0x02E4618B, .k4qk), (v 0x11 2 3 6 0, .k4av),
   (v 0x2F 3 2 6 1, .k4q), (v 0x33 0 2 6 1, .qoff), (v 0x43 3 2 6 1, .qbnd), (v 3 0 3 7 1, .oaccrd), (v 4 31 31 7 0, .oaccscl),
   (v 5 0 0 7 0, .oaccclr), (v 1 0 1 0 1, .vld), (v 1 2 1 1 0, .vst), (v 0 0 1 7 7, .qld), (v 1 0 1 7 0, .sld), (v 2 0 1 7 0, .sst)]

theorem witness_BpVectorInstructionsExecute : (Tests.vectorWords.all (fun w => Tests.bpAt w.1 w.2) &&
    (Claims.vectorRows 0 0 0 false).all (fun r => Tests.vectorWords.any fun w => w.2 == r.2.1) && memWf (Tests.bp 0).mem &&
    inScratch 0x10000000 256 == some 0 && decide ((bpX (getBp (Tests.bp 0) 0 0 0) 3).toNat < 32)) = true := by decide +kernel

/-- ADDI x31, x1, −1; C.LI x1, 1; LB x1, 0(x1); SW x1, 0(x1); LH x1, 1(x1); LW x1, 0(x0) of program memory; SB x1, 0(x0), which no store
reaches; ECALL; EBREAK; an opcode that no instruction has; the 16-bit word of zeros. -/
theorem witness_BpScalarInstructionsExecuteOrTrap :
    let op := fun w => scalarOp (getBp (Tests.bp w) 0 0 0) w 4
    let at4 := fun w => bpFetch (Tests.bp w) 0 0 0 == some (w, 4) && (getBp (Tests.bp w) 0 0 0).run == .running && customOp w == none
    ([0xFFF08F93, 0x00008083, 0x0010A023, 0x00109083, 0x00002083, 0x00100023, 0x00000073, 0x00100073, 0x0000007F].all at4 &&
      (Tests.bp 0x00008083).canon &&
      (match op 0xFFF08F93 with | .step 31 v pc _ _ => v == 0x0FFFFFFF#32 && pc == 4#32 | _ => false) &&
      bpFetch (Tests.bp 0x4085) 0 0 0 == some (0x4085, 2) && (expandC 0x4085).isSome &&
      (match op 0x00008083 with | .load 1 0x10000000 1 true => true | _ => false) && (loadKey 0 0 0 0x10000000 1).isSome &&
      (match op 0x0010A023 with | .store 0x10000000 4 _ => true | _ => false) && inScratch 0x10000000 4 == some 0 &&
      (match op 0x00109083 with | .load _ a 2 _ => a % 2 == 1 | _ => false) &&
      (match op 0x00002083 with | .load _ 0 4 _ => true | _ => false) && (loadKey 0 0 0 0 4).isSome &&
      (match op 0x00100023 with | .store 0 1 _ => true | _ => false) && inScratch 0 1 == none && loadKey 0 0 0 0x8000 1 == none &&
      [0x00000073, 0x00100073, 0x0000007F].all (fun w => match op w with | .trap _ => true | _ => false) &&
      bpFetch (Tests.bp 0) 0 0 0 == some (0, 2) && expandC 0 == none &&
      bpFetch (updBp 0 0 0 (fun b => { b with pc := 0x7FFF#32 }) (Tests.bp 0)) 0 0 0 == none) = true := by decide +kernel

/-- A load that waits for its source x1 until mc 40: ADDI x31 after a scalar load into x1. -/
theorem witness_BpScalarInstructionsExecuteOrTrap_waits :
    let s := updBp 0 0 0 (fun b => { b with ready := [(1, 40)] }) (Tests.bp 0x00109083)
    bpWait (getBp s 0 0 0) (scalarSources 0x00109083) = 40 ∧ (getBp s 0 0 0).run = .running := by decide +kernel

/-- BV.LDR, BV.STR and BV.CPY of a beat between the bank's first row and scratch, BV.STP of the last 64 bytes' first, BV.FENCE, BV.HALT. -/
theorem witness_BpBankInstructionsExecute :
    let v := fun f7 rs2 rs1 f3 => Tests.rType f7 rs2 rs1 f3 0 0x2B
    (Tests.bpAt (v 15 1 0 0) .bvLdr && Tests.bpAt (v 15 1 0 1) .bvStr && Tests.bpAt (v 0 1 2 2) .bvStp && Tests.bpAt (v 15 0 0 3) .bvCpy &&
      Tests.bpAt (v 0 0 0 4) .bvFence && Tests.bpAt (v 0 0 0 5) .bvHalt && bankRange 0 16 && inScratch 0x10000000 2048 == some 0 &&
      decide (1984 % 64 + 1 ≤ 64) && inScratch 0x10000000 1 == some 0 && (Tests.bp (v 0 1 2 2)).canon &&
      liveEntry (getBp (Tests.bp (v 0 1 2 2)) 0 0 0).merge 1984 == none && (getBp (Tests.bp (v 0 1 2 2)) 0 0 0).merge.isEmpty &&
      (let s := updBp 0 0 0 (fun b => { b with merge := [⟨1984, 0, 1, 0⟩] }) (Tests.bp 0)
       s.canon && !(getBp s 0 0 0).merge.isEmpty && (getBp s 0 0 0).run == .running)) = true := by decide +kernel

/-! ### Memory controllers, error records (chapters 9 to 11, 13) -/

/-- A request of one byte. -/
def Tests.req (id addr : Nat) : HostReq := ⟨id, false, addr, 1, 0, 0, []⟩

/-- Two stacks, of which stack 1's rectangle is partition 0 with a graph loaded; the graph's partition is stack 1 alone. -/
def Tests.loaded : State :=
  let s : State := { State.reset with present := [0, 1], parts := [⟨1, 0, 1, 0, 1, 0, [1]⟩], loadedParts := [0] }
  putF (r_LP_STATUS 0) f_LP_STATUS_ACTIVE 0xFF (putF (r_LP_STATUS 1) f_LP_STATUS_ACTIVE 0xFF s)

theorem witness_ControllersServeHostAccesses :
    (let s := updVc 0 0 (fun v => { v with queue := [(0, [Tests.req 7 0])] }) (updBp 0 0 0 (fun b => { b with owned := true }) State.reset)
     s.canon && (getBp s 0 0 0).owned && !refreshSlot false 1 0 && sget [] (getVc s 0 0).queue 0 == [Tests.req 7 0] &&
      decide ((Tests.req 7 0).arrived ≤ (getBp s 0 0 0).w0 + 4096 * (getBp s 0 0 0).win - 64)) = true ∧
    (let s := updVc 0 0 (fun v => { v with queue := [(1, [Tests.req 7 2048])] }) State.reset
     let q := updVc 0 0 (fun v => { v with rechecks := [⟨0, false⟩], win := 1 }) s
     s.canon && !refreshSlot false (getVc s 0 0).win 1 && !recheckWaits s 0 0 1 && (ctlGroups s 0 0).contains 0 &&
      sget [] (getVc s 0 0).queue 1 == [Tests.req 7 2048] && decide ((Tests.req 7 2048).arrived ≤ 4096 * (getVc s 0 0).win + 4) &&
      q.canon && recheckWaits q 0 0 0 && !hostWaits q 0 0 2 && !refreshSlot false (getVc q 0 0).win 2 &&
      !refreshSlot false (getVc q 0 0).win 0) = true ∧
    (let s := updLp 0 (fun p => { p with queue := [(7, [Tests.req 7 0])], joins := [⟨7, 0, 1, false, 0⟩] }) State.reset
     s.canon && sget [] (getLp s 0).queue 7 == [Tests.req 7 0] && !lpRecheckWaits s 0 7 && sget [] (getLp s 0).queue 6 == [] &&
      (getLp s 0).joins.find? (fun j => j.id == 7) == some ⟨7, 0, 1, false, 0⟩) = true ∧
    (Tests.loaded.canon && bpSpaceKey 1 0 0 == none && !hostInside Tests.loaded 1 0 dramEnd 1 && hostInside Tests.loaded 0 0 (dramEnd - 1) 1 &&
      !partLoaded Tests.loaded 0 && partLoaded Tests.loaded 1 && !bpOwns Tests.loaded 0 0 (mapVault Tests.loaded 0 0 (dramEnd - 1)).1 &&
      hostInside Tests.loaded 1 0 0 1 && !hostInside Tests.loaded 1 16 0 0 && hostInside Tests.loaded 0 16 0 1 &&
      hostInside Tests.loaded 1 16 0 1) = true := by
  refine ⟨?_, ?_, ?_, ?_⟩ <;> decide +kernel

/-- Scratch of a BP as its vault shows it, in one access of 64 bytes. -/
theorem witness_ControllersServeHostAccesses_bpSpace :
    (bpSpaceKey 1 0 0x60000000).isSome = true ∧ bpSpaceKey 1 0 (0x60000000 + 64 - 1) = (bpSpaceKey 1 0 0x60000000).map (· + 64 - 1) := by
  decide +kernel

theorem witness_MemoryInterfacesRetrain :
    (!lpChanFailed State.reset 0 7) = true ∧
    (let s := updLp 0 (fun p => { p with fullLeft := [(7, 1)] }) State.reset
     let run : State := { State.reset with present := [0], parts := [⟨0, 0, 0, 0, 0, 0, [0]⟩] }
     s.canon && segmentOpen s 0 && !segmentOpen run 0 && run.canon &&
      (List.range 8).find? (fun n => decide (sget 0 (getLp s 0).fullLeft n ≠ 0)) == some 7 && sget 0 (getLp s 0).fullLeft 7 == 1) = true ∧
    (let s := updLp 0 (fun p => { p with due := true, nextChan := 7 }) (putF (r_LP_STATUS 0) f_LP_STATUS_ACTIVE 0xFF State.reset)
     s.canon && segmentOpen s 0 && (List.range 8).all (fun n => sget 0 (getLp s 0).fullLeft n == 0) && (getLp s 0).due &&
      ((lpActive s 0).filter fun n => !lpChanFailed s 0 n).find? (fun n => decide ((getLp s 0).nextChan ≤ n)) == some 7) = true ∧
    (let s := updVc 0 0 (fun v => { v with retrainReq := true, nextWidth := some 2 }) State.reset
     let run := updCore 0 3 (fun x => { x with running := true }) s
     s.canon && segmentOpen s 0 && !dieRuns s 0 && dieRuns run 0 && (getVc s 0 0).retrainReq && (getVc s 0 0).nextWidth == some 2) = true := by
  refine ⟨?_, ?_, ?_, ?_⟩ <;> decide +kernel

/-- Vault controller 0 of stack 0 with rechecks, a word to write back, a candidate row and a merge entry, and its slots free; Drizzle is
enabled, and the pass starts, or stands past the last row. -/
def Tests.checked (pos : Nat) (l : List Recheck) : State := updVc 0 0 (fun v =>
  { v with rechecks := l, slots := [0, 1, 2, 3], writeback := [(128, 5)], candidates := [8192], merge := [⟨64, 5, 1, 0⟩], scrub := pos })
  (putF (r_DRIZZLE_CTRL 0 0) f_DRIZZLE_CTRL_EN 1 (putReg State.reset (r_ECC_REGION 0 0 0) 0x0000FFFFFC000001#64))

theorem witness_StoredDataIsCheckedAndRepaired :
    let s := Tests.checked 0 []
    let lateS := putF (uDrizzleReg 0 0) f_DRIZZLE_CTRL_LATE 0 s
    let free := fun (x : State) (w : Nat) => scrubAllowed x 0 0 w && (freeSlots x 0 0).contains (slotKey x 0 0 w)
    let e := Tests.checked dramEnd []
    (s.canon && getF s (uDrizzleReg 0 0) f_DRIZZLE_CTRL_EN == 1 && (nextScrub lateS 0 0 0).isSome &&
      (nextScrub lateS 0 0 0).all (fun a => (List.range 4).all fun i => free lateS (a + 64 * i)) && e.canon && (getScrub e 0 0).1 == dramEnd &&
      nextScrub (putF (uDrizzleReg 0 0) f_DRIZZLE_CTRL_LATE 0 e) 0 0 dramEnd == none && (getScrub s 0 0).2.1 == [(128, 5)] && free s 128 &&
      (getVc s 0 0).candidates == [8192] && segmentOpen s 0 && (getVc s 0 0).merge == [⟨64, 5, 1, 0⟩]) = true := by decide +kernel

/-- A recheck whose slot is free, and one whose slot is taken; an armed mask that corrupts what a row test writes, and none. -/
theorem witness_StoredDataIsCheckedAndRepaired_rechecks :
    let s := Tests.checked 0 [⟨64, true⟩]
    let m := withField f_ECC_FLIPMASK_ARM (withField f_ECC_FLIPMASK_EN0 (withField f_ECC_FLIPMASK_PAT0 0 1) 1) 1
    getRechecks s 0 0 = [⟨64, true⟩] ∧ uOwned s 0 0 64 = false ∧ (takeSlots 0 0 [64] s).1 = true ∧
      (uLoad 0 0 64 [] (setRechecks 0 0 [] (takeSlots 0 0 [64] s).2)).1.isSome = true ∧
      slotKey s 0 0 64 ∉ freeSlots (updVc 0 0 (fun v => { v with slots := [] }) s) 0 0 ∧
      flipMatches 0#64 wOther 99 = false ∧ flipMatches m wOther 99 = true ∧ flipWord m ⟨0, 0⟩ ≠ ⟨0, 0⟩ := by decide +kernel

theorem witness_ErrorRecordsClearAndStops :
    (let s := putF (stBase (.core 0 0)) f_ERR_STATUS_SV 1 (putF (stBase (.core 0 0)) f_ERR_STATUS_PV 1 State.reset)
     s.canon && getF s (stBase (.core 0 0)) f_ERR_STATUS_SV == 1 && getF State.reset (stBase .package) f_ERR_STATUS_SV == 0) = true ∧
    (let s := updDie 0 (fun y => { y with stopPending := true }) State.reset
     s.canon && (getDie s 0).stopPending && getF s (r_FLASH_STATUS 0) f_FLASH_STATUS_HALTED == 0) = true := by
  constructor <;> decide +kernel

/-! ### Sessions, pages, the service (chapters 7, 8, 12 and 13) -/

/-- The places of a graph on one NEAR group. -/
def Tests.place : Place where
  near := [0]
  hoff := []
  partner := [0]
  frames := 0
  nframes := 4096
  index := 0x1000000
  index2 := 0x1100000
  slots := 0x1200000
  dir := 0x1300000
  blocks := 0x1400000
  nblocks := 1024
  dir2 := 0x1500000
  blocks2 := 0x1600000
  root := 0x1700000
  tentDir := 0x1800000
  tent := 0x1900000
  ntent := 16
  lpFrames := 0
  nlp := 16
  dsb := 0x1A00000
  commit := 0x1B00000
  ncommit := 8
  vocab := 1000
  triggers := []
  regs := []
  bytes := []

/-- A task record of a kind in lane 0. -/
def Tests.task (kind : Nat) : TaskRec := ⟨0, 0, kind, 0, 0, 1, 1, 0, 0, 0, 0, [], []⟩

/-- A graph of one layer and one head group with a task of each kind, each at its number. -/
def Tests.graph : Graph where
  handle := 5
  part := 0
  layers := 1
  hgroups := 1
  hpp := 1
  treeMax := 8
  nslots := 4096
  ridx := 0
  pchunk := 128
  lanes := [⟨1, 2⟩]
  tasks := (List.range 7).map Tests.task
  objBase := 0
  nobj := 0
  weights := []
  place := Tests.place
  near := []
  lpUsed := []
  nextCommit := 0
  prefetch := [3]
  svn := 0
  keySlot := 0
  measure := []
  wmeasure := []

/-- Session 77 of the graph at position 1000, on rings 10 and 11. -/
def Tests.sess (st : SessState) : Sess := newSess 77 st 3 0 0 0 1000 0 10 11

/-- Partition 0 is stack 0 with its root there; graph 5 is loaded; rings 10 to 13 are set; session 77 is in slot 4095. -/
def Tests.served (x : Sess) : State :=
  { State.reset with
    present := [0]
    parts := [⟨0, 0, 0, 0, 0, 0, [0]⟩]
    loadedParts := [0]
    svc := { Svc.reset with
      sess := [(4095, some x)]
      graphs := [(0, some Tests.graph)]
      rings := [(10, some ⟨0, 4, 0x1000, 0, 0, 0⟩), (11, some ⟨1, 4, 0x2000, 0, 0, 0⟩),
                (12, some ⟨0, 4, 0x3000, 0, 0, 0⟩), (13, some ⟨1, 4, 0x4000, 0, 0, 0⟩)] } }

/-- The command port is busy with an opcode and the packet's fields, each a value at its byte. -/
def Tests.port (op : Nat) (f : List (Nat × Nat)) (s : State) : State :=
  let p := (f.map fun x => x.2 * 256 ^ x.1).sum
  putF r_HUB_CMD_STATUS f_HUB_CMD_STATUS_BUSY 1 (putF r_HUB_CMD_STATUS f_HUB_CMD_STATUS_OPCODE op
    ((List.range 8).foldl (fun s w => putReg s (r_HUB_CMD_SLOT w) (BitVec.ofNat 64 (p / 2 ^ (64 * w)))) s))

theorem witness_SessionCommandsTakeEffect_opens :
    let s := Tests.port 0x0401 [(16, 78), (24, 5), (26, 12), (28, 13), (30, 15), (31, 7), (32, 0x12345678)] (Tests.served (Tests.sess .active))
    (portRuns s 0x0401 && pk s 16 8 ≠ 0 && decide (pk s 30 1 ≤ 15) && decide (pk s 31 1 ≤ 7) && samplerOk (pk s 32 16) &&
      ringUsable s (pk s 26 2) 0 && ringUsable s (pk s 28 2) 1 && findGraph s (pk s 24 2) == some 0 && getGraph s 0 == some Tests.graph &&
      findSess s (pk s 16 8) == none && freeSlotNo s == some 0 && decide (backlog s 0 ≤ getF s r_DISP_SAT f_DISP_SAT_THRESH) &&
      !pagesShort s Tests.graph (firstPages Tests.graph 0) (fun _ => 0)) = true := by decide +kernel

theorem witness_SessionCommandsTakeEffect_forks :
    let s := Tests.port 0x0402 [(16, 77), (24, 78), (32, 1000), (36, 12), (38, 13)] (Tests.served (Tests.sess .active))
    (portRuns s 0x0402 && !pkFlag s 4 && findSess s (pk s 16 8) == some 4095 && getSess s 4095 == some (Tests.sess .active) &&
      getGraph s 0 == some Tests.graph && pk s 24 8 ≠ 0 && decide (pk s 32 4 ≤ 1000) && ringUsable s (pk s 36 2) 0 && ringUsable s (pk s 38 2) 1 &&
      findSess s (pk s 24 8) == none && freeSlotNo s == some 0 && decide (backlog s 0 ≤ getF s r_DISP_SAT f_DISP_SAT_THRESH) &&
      !pagesShort s Tests.graph (forkPages Tests.graph 1000 false) (forkCopies s Tests.graph 4095 1000)) = true := by decide +kernel

theorem witness_SessionCommandsTakeEffect_others :
    let here := fun s => findSess s (pk s 16 8) == some 4095
    let stale := { Tests.sess .stale with stalePos := 1000 }
    let close := Tests.port 0x0403 [(16, 77)] (Tests.served (Tests.sess .pinned))
    let trunc := Tests.port 0x0404 [(16, 77), (24, 1000)] (Tests.served stale)
    let set := Tests.port 0x0405 [(16, 77), (30, 15)] (Tests.served (Tests.sess .active))
    let info := Tests.port 0x0406 [(16, 77)] (Tests.served (Tests.sess .closing))
    let ring := Tests.port 0x0203 [(16, 8191), (18, 1), (19, 16), (24, 2 ^ 47 - 4096)] (Tests.served (Tests.sess .active))
    (here close && portRuns close 0x0403 && !hasKind close 4095 kClose && here trunc && portRuns trunc 0x0404 && !hasKind trunc 4095 kTruncate &&
      getSess trunc 4095 == some stale && decide (pk trunc 24 4 ≤ 1000) && here set && portRuns set 0x0405 && decide (pk set 30 1 ≤ 15) &&
      samplerOk (pk set 32 16) && here info && portRuns info 0x0406 && portRuns ring 0x0203 && decide (pk ring 16 2 < 8192) &&
      decide (pk ring 18 1 ≤ 1) && decide (pk ring 19 1 = 16) && decide (pk ring 24 8 % 4096 = 0) && decide (pk ring 24 8 < 2 ^ 47) &&
      inputOwner ring 8191 == none && outputOwner ring 8191 == none) = true := by decide +kernel

/-- Instance 0 of task `kind` has launched for session 77. -/
def Tests.inst (kind : Nat) : Inst := ⟨0, kind, some 4095, 1, false, 1, 0, [], 0, 0, [], false, [], false⟩
/-- Its launch, whose step has ended. -/
def Tests.launch : Launch := ⟨0, 0, 0, 0, true, true, 0, [], false⟩

def Tests.launchedTask (kind : Nat) (x : Sess) : State :=
  updSvc (fun v => { v with insts := [(0, some (Tests.inst kind))], launches := [Tests.launch] }) (Tests.served x)

/-- Session 77 is the fork of session 76. -/
def Tests.forked : State := updSvc (fun v => { v with sess := sput none v.sess 0 (some { Tests.sess .active with sid := 76 }) })
  (Tests.launchedTask kFork { Tests.sess .forking with parent := 76, forkPos := 1000 })

/-- Page move 0 takes frame 1 of the vault to the companion's frame 2. -/
def Tests.move : Move := ⟨0, 0, 3, tVault, 1, tComp, 2⟩
def Tests.moving : State := updSvc (fun v => { v with moves := [Tests.move], frees := [⟨0, 0, tVault, 7, 2 ^ 32 - 2⟩, ⟨0, 0, tVault, 8, 0⟩] })
  (Tests.served (Tests.sess .active))

theorem witness_PagesAreAllocatedAndMoved :
    ([kFork, kClose, kTruncate, kCopy].all (fun k => let s := Tests.launchedTask k (Tests.sess .active)
      getSess s 4095 == some (Tests.sess .active) && getInst s 0 == some (Tests.inst k) && taskToDo s 4095 k == some (0, Tests.inst k)) &&
      findSess Tests.forked 76 == some 0 && taskToDo Tests.forked 4095 kFork == some (0, Tests.inst kFork)) = true ∧
    (let s := Tests.served (Tests.sess .active)
     let run := updSvc (fun v => { v with launches := [{ Tests.launch with ended := false }] }) (Tests.launchedTask kDecode (Tests.sess .active))
     getSess s 4095 == some (Tests.sess .active) && getGraph s 0 == some Tests.graph && !sessRuns s 4095 && sessRuns run 4095 &&
      getSess run 4095 == some (Tests.sess .active) && decide (freeLow s 0 ≤ poolFree s Tests.graph (.near 0)) &&
      decide (poolFree s Tests.graph .companion < 1)) = true ∧
    (Tests.moving.svc.moves[0]? == some Tests.move && getGraph Tests.moving 0 == some Tests.graph &&
      (2 ≤ (partLaunches Tests.moving 0 + 2 ^ 32 - (2 ^ 32 - 2)) % 2 ^ 32 : Bool) &&
      ((partLaunches Tests.moving 0 + 2 ^ 32 - 0) % 2 ^ 32 < 2 : Bool)) = true ∧
    (let s := Tests.served { Tests.sess .active with dropped := some 128, missHold := true, missing := [3] }
     (getSess s 4095).any (fun x => x.dropped == some 128 && x.missHold && x.missing == [3] && x.state == .active) &&
      (getSess (Tests.served (Tests.sess .active)) 4095).any (fun x => !x.missHold) && (getGraph s 0).any (fun g => g.prefetch == [3])) = true := by
  refine ⟨?_, ?_, ?_, ?_⟩ <;> decide +kernel

/-- A page that comes from companion memory can be read; one of a NEAR group that no vault holds cannot. -/
theorem witness_PagesAreAllocatedAndMoved_image :
    (moveImage Tests.graph { Tests.move with srcTier := tComp, dstTier := tVault } 0 Tests.moving).1 = some 0 ∧
    (moveImage { Tests.graph with place := { Tests.place with near := [9216] } } Tests.move 0 Tests.moving).1 = none := by decide +kernel

/-- A launch of task kDecode for session 77 whose commit record has a status. -/
def Tests.committed (result : Nat) : State :=
  let s := Tests.launchedTask kDecode (Tests.sess .active)
  let p := mapVault s 0 0 Tests.place.commit
  writeByte (bankKey 0 0 p.1 (p.2 + 20)) (BitVec.ofNat 8 result) s

/-- A generic instance of no session, ready to launch; the dispatcher is enabled and lanes have a limit. -/
def Tests.dispatching : State :=
  putF r_DISP_DOLD f_DISP_DOLD_LIMIT 1 (putF r_DISP_CTRL f_DISP_CTRL_EN 1
    (updSvc (fun v => { v with insts := [(0, some ⟨0, kGeneric, none, 1, false, 0, 0, [], 0, 0, [], false, [], false⟩)] })
      (Tests.served (Tests.sess .active))))

theorem witness_ServiceRunsSessions :
    ([0, 2].all (fun n => let s := Tests.committed n
      nextRecord s [] (s.svc.launches.filter fun l => l.part == 0) == some Tests.launch && getGraph s 0 == some Tests.graph &&
        getInst s 0 == some (Tests.inst kDecode) && getSess s 4095 == some (Tests.sess .active) && !s.hub.haltedParts.contains 0 &&
        s.svc.launches.find? (fun l => l.part == 0 && l.started) == some Tests.launch && launchSlot s Tests.launch == some 4095 &&
        decide s.svc.launches.Nodup && crStatus (commitRecord s Tests.graph 0) == n) &&
      (taskOf Tests.graph (Tests.inst kDecode)).kind == kDecode && (taskOf Tests.graph (Tests.inst kDecode)).sigs.isEmpty) = true ∧
    (let s := updSvc (fun v => { v with changes := [(16383, 5)] }) State.reset
     s.canon && s.svc.changes == [(16383, 5)]) = true ∧
    (let s := Tests.dispatching
     s.canon && queueShort s 0 && getF s r_DISP_CTRL f_DISP_CTRL_EN == 1 && getF s r_TWIN_STATUS f_TWIN_STATUS_DETACHED == 0 && !s.hub.frQuiet &&
      chooseInst s 0 == some 0 && needCopy s 0 == none && getGraph s 0 == some Tests.graph && (getInst s 0).isSome &&
      (laneInsts s 0).filter (instCounted s) == [0] && getF s r_DISP_DOLD f_DISP_DOLD_LIMIT ≠ 0 && !s.svc.dolded.contains 0) = true := by
  refine ⟨?_, ?_, ?_⟩ <;> decide +kernel

/-- Rings: the producer index comes one record on; a record of 14 tokens, one that adds to the budget and one that sets it. -/
theorem witness_ServiceRunsSessions_rings :
    let s := updSvc (fun v => { v with rings := sput none v.rings 10 (some ⟨0, 4, 0x1000, 1, 0, 0⟩) }) (Tests.served (Tests.sess .active))
    let toks := fun (r : BitVec 512) => (List.range (bits r.toNat 15 8)).map fun i => bits r.toNat (64 + 32 * i + 31) (64 + 32 * i)
    (getRing s 10 == some ⟨0, 4, 0x1000, 1, 0, 0⟩ && getRing s 11 == some ⟨1, 4, 0x2000, 0, 0, 0⟩ && inputOwner s 10 == some 4095 &&
      getSess s 4095 == some (Tests.sess .active) && (toks 0x0E01#512).length == 14 && (toks 0x0E01#512).all (fun k => k < min (vocabOf s 4095) (2 ^ 18)) &&
      ((0x0E01#512).toNat % 256 == 1) && ((2#512).toNat % 256 == 2) && bits (2#512).toNat 15 8 == 0 && ((3#512).toNat % 256 == 3) &&
      bits (3#512).toNat 15 8 == 0 && decide ((s.hub.evProd + 2 ^ 32 - 0) % 2 ^ 32 ≤ eventRingSize s) &&
      decide ((0 + 2 ^ 32 - 1) % 2 ^ 32 > 2 ^ 4) && decide ((17 + 2 ^ 32 - 1) % 2 ^ 32 ≤ 2 ^ 4)) = true := by decide +kernel

/-! ### The command port and its commands (chapters 12, 13 and 17) -/

theorem witness_CommandPortAcceptsAndCompletes :
    let idle := putF r_HUB_CMD_STATUS f_HUB_CMD_STATUS_READY 1 State.reset
    let busy := updSvc (fun v => { v with reply := some ⟨stOk, 5⟩ }) (Tests.port 0x0101 [] State.reset)
    let hold := fun w => putF r_EVT_CTRL f_EVT_CTRL_MSI_EN 1 (updHub (fun h => { h with msiHold := true, msiWait := w }) State.reset)
    (idle.canon && getF idle r_HUB_CMD_STATUS f_HUB_CMD_STATUS_BUSY == 0 && getF idle r_HUB_CMD_STATUS f_HUB_CMD_STATUS_READY == 1 && busy.canon &&
      getF busy r_HUB_CMD_STATUS f_HUB_CMD_STATUS_BUSY == 1 && busy.svc.reply == some ⟨stOk, 5⟩ && (hold false).hub.msiHold &&
      !(hold false).hub.msiWait && (hold true).hub.msiHold && (hold true).hub.msiWait &&
      getF (hold true) r_EVT_CTRL f_EVT_CTRL_MSI_EN == 1) = true := by decide +kernel

/-- Stacks 0 and 1 are present, every core of theirs is sound, and the link between them is open. -/
def Tests.found : State := putF (r_PORT_STATUS 0 1) f_PORT_STATUS_STATE 2 (putF (r_PORT_STATUS 1 3) f_PORT_STATUS_STATE 2
  { State.reset with present := [0, 1], topo := [(68, 0xFF#8), (69, 0xFF#8), (84, 0xFF#8), (85, 0xFF#8)] })

/-- The block of SET_PARTITIONS for one partition of columns 0 and 1 with its root at core 15 of stack 1. -/
def Tests.rect : List Byte := [0, 0, 1, 0, 1, 15, 0, 0]

theorem witness_ManagementCommandsTakeEffect_partitions :
    let s := Tests.port 0x0201 [(16, 1), (17, 1), (4, 8)] Tests.found
    let p : Partition := ⟨0, 0, 1, 0, 1, 15, [0, 1]⟩
    let h := Tests.port 0x0202 [(16, 0)] (updHub (fun h => { h with haltedParts := [0] }) { Tests.found with parts := [p] })
    (portRuns s 0x0201 && decide (pk s 16 1 = 1) && decide (pk s 17 1 = pkgTper s) && decide (pkgTper s ≤ 3) && decide (8 ≤ pkLen s) &&
      leAt Tests.rect 6 2 == 0 && (partitionList s 1 Tests.rect).all (partitionOk s) && disjointRects (partitionList s 1 Tests.rect) &&
      s.parts.isEmpty && h.canon && portRuns h 0x0202 && h.parts[pk h 16 1]? == some p && stackIx p.root == some 1 &&
      (topoByte h (64 + 16 * 1 + 4 + 15 / 8)).getLsbD (15 % 8) && treeCovers h (members h p) 1 && !partLoading h 0 &&
      h.hub.haltedParts.contains 0 && (members h p).all (fun d => !stackDown h d.val && getF h (r_ERR_STATUS_die d) f_ERR_STATUS_SQUALL == 0) &&
      (members h p).map (·.val) == p.mem && (partGraphs h 0).all fun k => !h.hub.outdated.contains k) = true := by decide +kernel

theorem witness_ManagementCommandsTakeEffect_others :
    let cap := Tests.port 0x0204 [(16, 2 ^ 24 - 1), (20, 75)] Tests.found
    let scrub := Tests.port 0x0602 [(16, 2), (17, 0x2F), (24, dramEnd - 64), (32, 1)] Tests.found
    let lane := Tests.port 0x0603 [(16, 2), (17, 0x3B)] Tests.found
    let under := updSvc (fun v => { v with retrains := [(2, 0x3B, 0)] }) lane
    let open_ := updDie 1 (fun y => { y with retrain := [3] }) under
    let log := Tests.port 0x0703 [(16, 1)] Tests.found
    (cap.canon && portRuns cap 0x0204 && decide (pk cap 16 4 < 2 ^ 24) && decide (pk cap 20 2 = 75) && decide (capSum cap (pk cap 16 4) 75 ≤ 1509) &&
      portRuns (Tests.port 0x0101 [] State.reset) 0x0101 && portRuns scrub 0x0602 && presentDie scrub (pk scrub 16 1) == some 1 &&
      blockUnit (pk scrub 17 1) == some 15 && decide (pk scrub 24 8 + 1 ≤ dramEnd) && decide (pk scrub 32 4 = 1) &&
      portRuns lane 0x0603 && retrainTarget lane 2 0x3B 0 == some (.port 1 3) && lane.svc.retrains.isEmpty && retrainOver under (.port 1 3) &&
      !retrainOver open_ (.port 1 3) && under.svc.retrains[0]? == some (2, 0x3B, 0) &&
      !portRuns (updSvc (fun v => { v with retrains := [(2, 0x3B, 0)] }) Tests.found) 0x0603 &&
      portRuns (Tests.port 0x0701 [] Tests.found) 0x0701 && portRuns (Tests.port 0x0702 [] Tests.found) 0x0702 && portRuns log 0x0703 &&
      decide (pk log 16 1 ≤ 1)) = true := by decide +kernel

theorem witness_GraphsLoadAndUnload :
    let s := Tests.served (Tests.sess .active)
    let load := Tests.port 0x0301 [(16, 0)] s
    let free := updSvc (fun v => { v with sess := [] }) s
    let unload := Tests.port 0x0302 [(16, 5)] free
    let fill := Tests.port 0x0303 [(16, 5), (4, 256)] s
    (portRuns load 0x0301 && decide (pk load 16 1 < load.parts.length) && !partLoading load 0 &&
      decide ((graphKeys load).length + load.svc.loading.length < 16) && portRuns unload 0x0302 && findGraph unload (pk unload 16 2) == some 0 &&
      getGraph unload 0 == some Tests.graph && srising unload.svc.graphs && (allSess unload).isEmpty && unload.svc.launches.isEmpty &&
      portRuns fill 0x0303 && findGraph fill (pk fill 16 2) == some 0 && decide (pkLen fill % 256 = 0) && !partBusy fill 0 &&
      !partLoading fill 0) = true := by decide +kernel

/-- Firmware of security version 1 runs; a fuse of counter 0 may be blown, has been blown, is being blown. -/
def Tests.advance (v : Nat) (x : Sec) : State := Tests.port 0x0105 [(16, 0), (20, v)] { State.reset with sec := { x with hubSvn := some 1 } }

theorem witness_SecurityCommandsTakeEffect :
    let close := fun n => Tests.port 0x0104 [(16, 0xDEB0C105)] { State.reset with sec := { Sec.reset with debugFuses := n } }
    let one := Tests.advance 1 Sec.reset
    let none_ := Tests.advance 0 Sec.reset
    let stage := fun n p => putF r_SEC_STATUS f_SEC_STATUS_INSTALL n
      { State.reset with sec := { Sec.reset with install := true, pulse := p }, bring := { Bring.reset with last := 2 } }
    (portRuns (Tests.port 0x0102 [] State.reset) 0x0102 && portRuns (Tests.port 0x0103 [] State.reset) 0x0103 && one.sec.pulse.isNone &&
      portRuns one 0x0105 && advanceOk one (pk one 16 1) (pk one 20 4) && decide (fusedValue one 0 < 1) && mayPulse one && portRuns none_ 0x0105 &&
      advanceOk none_ 0 (pk none_ 20 4) && decide (pk none_ 20 4 ≤ fusedValue none_ 0) && none_.canon && portRuns (close 2) 0x0104 &&
      decide (pk (close 2) 16 4 = 0xDEB0C105) && mayPulse (close 2) && portRuns (close 3) 0x0104 && (close 3).sec.pulse.isNone &&
      ([some 4, some 5].all fun p => let s : State := { State.reset with sec := { Sec.reset with pulse := p } }
        s.canon && s.sec.pulse == p && s.rst.waiting.isEmpty) &&
      ([0, 1, 2].all fun n => let s := stage n none
        s.canon && s.sec.install && mayPulse s && decide (2 ≤ s.bring.last) && getF s r_SEC_STATUS f_SEC_STATUS_INSTALL == n &&
          s.sec.pulse.isNone)) = true := by decide +kernel

/-! ### Signed images: the hypotheses about firmware and graphs -/

/-- `n` bytes of a number. -/
def Tests.num (n v : Nat) : List Byte := (List.range n).map fun k => BitVec.ofNat 8 (v / 256 ^ k)

/-- A signed image (R424) of key slot 0 and security version 0, whose key and signature are zeros. -/
def Tests.head (type len : Nat) : List Byte :=
  Tests.num 4 0x474D4946 ++ Tests.num 2 1 ++ Tests.num 1 type ++ Tests.num 9 0 ++ Tests.num 8 len ++ Tests.num 40 0
def Tests.key : List Byte := List.replicate 1312 0#8
def Tests.sig : List Byte := List.replicate 2420 0#8
def Tests.image (type : Nat) (payload : List Byte) : List Byte :=
  Tests.head type payload.length ++ (Tests.key ++ (payload ++ Tests.sig))

/-- Its key's hash; the state with a hash in the fuses of key slot 0. -/
def Tests.hash : Nat := leNat (sha3 Tests.key)
def Tests.fuse (h w : Nat) (s : State) : State := putReg s (r_SEC_KEYHASH w) (BitVec.ofNat 64 (h / 2 ^ (64 * w)))
def Tests.fused (h : Nat) (s : State) : State := Tests.fuse h 3 (Tests.fuse h 2 (Tests.fuse h 1 (Tests.fuse h 0 s)))

theorem Tests.hash_ne : Tests.hash ≠ 0 := by decide +kernel

theorem Tests.leNat_lt (l : List Byte) : leNat l < 256 ^ l.length := by
  induction l with
  | nil => simp [leNat]
  | cons b l ih =>
    have : leNat (b :: l) = b.toNat + 256 * leNat l := rfl
    rw [this, List.length_cons, Nat.pow_succ]
    have := b.isLt
    omega

theorem Tests.sha3_lt (m : List Byte) : leNat (sha3 m) < 2 ^ 256 := by
  have h := Tests.leNat_lt (sha3 m)
  rw [sha3_length] at h
  exact Nat.lt_of_lt_of_le h (by decide)

theorem Tests.fused_canon (h : Nat) {s : State} (hs : s.canon = true) : (Tests.fused h s).canon = true :=
  canon_putReg _ _ (canon_putReg _ _ (canon_putReg _ _ (canon_putReg _ _ hs)))

theorem Tests.fuse_reg (h w : Nat) {a : Nat} {s : State} (ha : a ≠ r_SEC_KEYHASH w) : getReg (Tests.fuse h w s) a = getReg s a :=
  getReg_putReg_other _ ha

theorem Tests.fused_reg (h : Nat) {a : Nat} {s : State} (ha : ∀ w, w < 4 → a ≠ r_SEC_KEYHASH w) : getReg (Tests.fused h s) a = getReg s a := by
  unfold Tests.fused
  rw [Tests.fuse_reg h 3 (ha 3 (by omega)), Tests.fuse_reg h 2 (ha 2 (by omega)), Tests.fuse_reg h 1 (ha 1 (by omega)),
    Tests.fuse_reg h 0 (ha 0 (by omega))]

theorem Tests.keyHash_fused {h : Nat} {s : State} (hs : s.canon = true) (lt : h < 2 ^ 256) : keyHash (Tests.fused h s) 0 = h := by
  have c0 : (Tests.fuse h 0 s).canon = true := canon_putReg _ _ hs
  have c1 : (Tests.fuse h 1 (Tests.fuse h 0 s)).canon = true := canon_putReg _ _ c0
  have c2 : (Tests.fuse h 2 (Tests.fuse h 1 (Tests.fuse h 0 s))).canon = true := canon_putReg _ _ c1
  have k : ∀ w v, w ≠ v → r_SEC_KEYHASH w ≠ r_SEC_KEYHASH v := by unfold r_SEC_KEYHASH hubReg mgmtAddr; omega
  have e3 : getReg (Tests.fused h s) (r_SEC_KEYHASH 3) = BitVec.ofNat 64 (h / 2 ^ (64 * 3)) := getReg_putReg_same _ _ c2
  have e2 : getReg (Tests.fused h s) (r_SEC_KEYHASH 2) = BitVec.ofNat 64 (h / 2 ^ (64 * 2)) := by
    unfold Tests.fused; rw [Tests.fuse_reg h 3 (k _ _ (by decide))]; exact getReg_putReg_same _ _ c1
  have e1 : getReg (Tests.fused h s) (r_SEC_KEYHASH 1) = BitVec.ofNat 64 (h / 2 ^ (64 * 1)) := by
    unfold Tests.fused; rw [Tests.fuse_reg h 3 (k _ _ (by decide)), Tests.fuse_reg h 2 (k _ _ (by decide))]; exact getReg_putReg_same _ _ c0
  have e0 : getReg (Tests.fused h s) (r_SEC_KEYHASH 0) = BitVec.ofNat 64 (h / 2 ^ (64 * 0)) := by
    unfold Tests.fused
    rw [Tests.fuse_reg h 3 (k _ _ (by decide)), Tests.fuse_reg h 2 (k _ _ (by decide)), Tests.fuse_reg h 1 (k _ _ (by decide))]
    exact getReg_putReg_same _ _ hs
  have r : List.range 4 = [0, 1, 2, 3] := rfl
  unfold keyHash
  rw [r]
  simp only [List.foldr_cons, List.foldr_nil, Nat.mul_zero, Nat.zero_add, e0, e1, e2, e3, BitVec.toNat_ofNat]
  omega

theorem Tests.leAt_left {l r : List Byte} {a n : Nat} (h : a + n ≤ l.length) : leAt (l ++ r) a n = leAt l a n := by
  unfold leAt
  rw [List.drop_append_of_le_length (by omega), List.take_append_of_le_length (by simp; omega)]

/-- What a verifier reads in an image's header. -/
theorem Tests.image_head {type a n : Nat} {p r : List Byte} (h : a + n ≤ 64) :
    leAt (Tests.image type p ++ r) a n = leAt (Tests.head type p.length) a n := by
  unfold Tests.image
  rw [List.append_assoc, Tests.leAt_left]
  simp [Tests.head, Tests.num]; omega

/-- What the header says. -/
def Tests.headOk (type n : Nat) : Bool :=
  let h := Tests.head type n
  leAt h 0 4 == 0x474D4946 && leAt h 4 2 == 1 && leAt h 6 1 == type && leAt h 7 1 == 0 && leAt h 8 1 == 0 && leAt h 9 1 == 0 &&
    leAt h 10 2 == 0 && leAt h 12 4 == 0 && leAt h 16 8 == n && leAt h 24 40 == 0

theorem Tests.head_length (type n : Nat) : (Tests.head type n).length = 64 := by simp [Tests.head, Tests.num]

theorem Tests.key_length : Tests.key.length = 1312 := List.length_replicate

theorem Tests.sig_length : Tests.sig.length = 2420 := List.length_replicate

theorem Tests.image_length (type : Nat) (p : List Byte) : (Tests.image type p).length = 3796 + p.length := by
  simp only [Tests.image, Tests.head_length, Tests.key_length, Tests.sig_length, List.length_append]; omega

theorem Tests.image_key (type : Nat) (p : List Byte) : ((Tests.image type p).drop 64).take 1312 = Tests.key := by
  unfold Tests.image
  rw [List.drop_append_of_le_length (by rw [Tests.head_length] <;> omega), List.drop_of_length_le (by rw [Tests.head_length] <;> omega), List.nil_append,
    List.take_append_of_le_length (by rw [Tests.key_length] <;> omega)]
  exact List.take_of_length_le (by rw [Tests.key_length] <;> omega)

theorem Tests.image_payload (type : Nat) (p : List Byte) : ((Tests.image type p).drop 1376).take p.length = p := by
  have : Tests.image type p = (Tests.head type p.length ++ Tests.key) ++ (p ++ Tests.sig) := by simp only [Tests.image, List.append_assoc]
  have hl : (Tests.head type p.length ++ Tests.key).length = 1376 := by rw [List.length_append, Tests.head_length, Tests.key_length]
  rw [this, List.drop_append_of_le_length (by omega), List.drop_of_length_le (by omega),
    List.nil_append, List.take_append_of_le_length (by omega), List.take_length]

theorem Tests.head_facts {type : Nat} {p r : List Byte} (hh : Tests.headOk type p.length = true) :
    let i := Tests.image type p ++ r
    leAt i 0 4 = 0x474D4946 ∧ leAt i 4 2 = 1 ∧ imType i = type ∧ imSlot i = 0 ∧ leAt i 8 1 = 0 ∧ leAt i 9 1 = 0 ∧ imSvn i = 0 ∧ leAt i 12 4 = 0 ∧
      imLen i = p.length ∧ leAt i 24 40 = 0 := by
  intro i
  have f : ∀ a n, a + n ≤ 64 → leAt i a n = leAt (Tests.head type p.length) a n := fun a n h => Tests.image_head h
  simp only [imType, imSlot, imSvn, imLen]
  rw [f 0 4 (by omega), f 4 2 (by omega), f 6 1 (by omega), f 7 1 (by omega), f 8 1 (by omega), f 9 1 (by omega), f 10 2 (by omega),
    f 12 4 (by omega), f 16 8 (by omega), f 24 40 (by omega)]
  simp only [Tests.headOk, Bool.and_eq_true, beq_iff_eq] at hh
  simp [hh]

theorem Tests.image_ok {type : Nat} {p : List Byte} {s : State} (hk : keyHash s 0 = Tests.hash) (hh : Tests.headOk type p.length = true)
    (h16 : p.length % 16 = 0) (hr : getReg s r_SEC_ROLLBACK = 0) : imageFail s [type] true (Tests.image type p) = none := by
  obtain ⟨h0, h1, h2, h3, h4, h5, h6, h7, h8, h9⟩ := Tests.head_facts (r := []) hh
  rw [List.append_nil] at h0 h1 h2 h3 h4 h5 h6 h7 h8 h9
  have roll : ∀ k, rollback s k = 0 := by
    intro k
    unfold rollback getF
    rw [hr]
    simp [fieldOf]
  have pad : imPadded (Tests.image type p) = p.length := by unfold imPadded; rw [h8]; omega
  have form : imageForm [type] (Tests.image type p) = true := by
    unfold imageForm
    rw [h0, h1, h2, h4, h5, h7, h9, pad, h8, Tests.image_length, Nat.sub_self]
    simp [leAt, leNat]; omega
  have key : imageKey s (Tests.image type p) = true := by
    unfold imageKey
    have e : leNat (sha3 Tests.key) = Tests.hash := rfl
    have := Tests.hash_ne
    simp only [h3, Tests.image_key, hk, e]
    simp [this]
  unfold imageFail
  rw [form, key, h3, h6]
  simp [slotValid, roll]

/-- A bundle (R429) of four images without payload. -/
def Tests.gap : List Byte := List.replicate 12 0#8
def Tests.bundle : List Byte :=
  Tests.image 1 [] ++ (Tests.gap ++ (Tests.image 2 [] ++ (Tests.gap ++ (Tests.image 3 [] ++ (Tests.gap ++ (Tests.image 4 [] ++ Tests.gap))))))

theorem Tests.gap_length : Tests.gap.length = 12 := List.length_replicate

theorem Tests.image_nil_length (type : Nat) : (Tests.image type []).length = 3796 := by rw [Tests.image_length]; rfl

theorem Tests.imageAt_image {type : Nat} (hh : Tests.headOk type 0 = true) (r : List Byte) :
    imageAt type (Tests.image type [] ++ r) = some (Tests.image type []) := by
  have f := Tests.head_facts (p := []) (r := r) hh
  have pad : imPadded (Tests.image type [] ++ r) = 0 := by
    unfold imPadded; rw [f.2.2.2.2.2.2.2.2.1]; rfl
  unfold imageAt
  simp only [pad, f.2.2.1, List.length_append, Tests.image_nil_length]
  rw [if_neg (by omega), if_neg (by simp), List.take_append_of_le_length (by rw [Tests.image_nil_length] <;> omega),
    List.take_of_length_le (by rw [Tests.image_nil_length] <;> omega)]

theorem Tests.imageSpan_image {type : Nat} (hh : Tests.headOk type 0 = true) (r : List Byte) :
    (Tests.image type [] ++ (Tests.gap ++ r)).drop (imageSpan (Tests.image type [])) = r := by
  have f := (Tests.head_facts (p := []) (r := []) hh).2.2.2.2.2.2.2.2.1
  rw [List.append_nil] at f
  have pad : imPadded (Tests.image type []) = 0 := by unfold imPadded; rw [f]; rfl
  unfold imageSpan
  rw [pad, ← List.append_assoc, List.drop_append_of_le_length (by rw [List.length_append, Tests.image_nil_length, Tests.gap_length] <;> omega),
    List.drop_of_length_le (by rw [List.length_append, Tests.image_nil_length, Tests.gap_length] <;> omega), List.nil_append]

theorem Tests.bundle_images : bundleImages Tests.bundle = some [Tests.image 1 [], Tests.image 2 [], Tests.image 3 [], Tests.image 4 []] := by
  have len : Tests.bundle.length ≤ 2 ^ 24 := by
    simp only [Tests.bundle, List.length_append, Tests.image_nil_length, Tests.gap_length]; omega
  have h1 : Tests.headOk 1 0 = true := by decide
  have h2 : Tests.headOk 2 0 = true := by decide
  have h3 : Tests.headOk 3 0 = true := by decide
  have h4 : Tests.headOk 4 0 = true := by decide
  unfold bundleImages
  rw [if_neg (by omega)]
  unfold Tests.bundle
  simp only [imagesFrom, Tests.imageAt_image h1, Tests.imageSpan_image h1, Tests.imageAt_image h2, Tests.imageSpan_image h2,
    Tests.imageAt_image h3, Tests.imageSpan_image h3, Tests.imageAt_image h4, Option.map_some]

/-- Step `n` of bring-up runs with that bundle in copy A and as the running bundle. -/
def Tests.booting (n : Nat) : State := putF r_BRING_STATUS f_BRING_STATUS_STATE 1 (putF r_BRING_STATUS f_BRING_STATUS_STEP n
  { State.reset with sec := { Sec.reset with copyA := Tests.bundle, bundle := Tests.bundle } })

theorem Tests.booting_canon (n : Nat) : (Tests.booting n).canon = true := canon_putReg _ _ (canon_putReg _ _ (by decide))

theorem Tests.booting_roll (n : Nat) : getReg (Tests.booting n) r_SEC_ROLLBACK = 0 := by
  unfold Tests.booting
  rw [getReg_putF_other _ _ (by decide), getReg_putF_other _ _ (by decide)]
  decide

theorem Tests.booting_step {h n k : Nat} (hb : bringAt (Tests.booting n) k = true) : bringAt (Tests.fused h (Tests.booting n)) k = true := by
  have e : getReg (Tests.fused h (Tests.booting n)) r_BRING_STATUS = getReg (Tests.booting n) r_BRING_STATUS :=
    Tests.fused_reg _ (by intro w hw; unfold r_BRING_STATUS r_SEC_KEYHASH hubReg mgmtAddr; omega)
  have o : (Tests.fused h (Tests.booting n)).bring = (Tests.booting n).bring := rfl
  unfold bringAt bringF getF at *
  rw [e, o]
  exact hb

theorem Tests.booting_image (n : Nat) {type : Nat} (h : Tests.headOk type 0 = true) :
    imageFail (Tests.fused Tests.hash (Tests.booting n)) [type] true (Tests.image type []) = none := by
  refine Tests.image_ok (Tests.keyHash_fused (Tests.booting_canon n) (Tests.sha3_lt _)) h (Nat.zero_mod 16) ?_
  rw [Tests.fused_reg _ (by intro w hw; unfold r_SEC_ROLLBACK r_SEC_KEYHASH hubReg mgmtAddr; omega)]
  exact Tests.booting_roll n

theorem Tests.source_ok {s : State} {h : s.sec.copyA = Tests.bundle} (h1 : imageFail s [1] true (Tests.image 1 []) = none)
    (h2 : imageFail s [2] true (Tests.image 2 []) = none) : sourceFail s s.sec.copyA true true = none := by
  rw [h]
  unfold sourceFail
  rw [Tests.bundle_images]
  simp only [List.getD_cons_zero, List.getD_cons_succ, h1, h2]
  simp

theorem Tests.third_image : bundleImage Tests.bundle 2 = Tests.image 3 [] := by
  unfold bundleImage
  rw [Tests.bundle_images]
  simp only [Option.getD_some, List.getD_cons_zero, List.getD_cons_succ]

theorem Tests.fourth_image : bundleImage Tests.bundle 3 = Tests.image 4 [] := by
  unfold bundleImage
  rw [Tests.bundle_images]
  simp only [Option.getD_some, List.getD_cons_zero, List.getD_cons_succ]

theorem Tests.booting_copies (h n : Nat) :
    (Tests.fused h (Tests.booting n)).sec.copyA = Tests.bundle ∧ (Tests.fused h (Tests.booting n)).sec.bundle = Tests.bundle ∧
      (Tests.fused h (Tests.booting n)).bring.src = 0 := ⟨rfl, rfl, rfl⟩

/-- Step 2 finds a sound copy A, and step 8 sound images in the bundle that runs. -/
theorem witness_SecurityCommandsTakeEffect_firmware : ∀ s t, s = Tests.fused Tests.hash (Tests.booting 2) → t = Tests.fused Tests.hash (Tests.booting 8) →
    s.canon = true ∧ bringAt s 2 = true ∧ s.bring.src = 0 ∧ sourceFail s s.sec.copyA true true = none ∧ t.canon = true ∧ bringAt t 8 = true ∧
      imageFail t [3] true (bundleImage t.sec.bundle 2) = none ∧ imageFail t [4] true (bundleImage t.sec.bundle 3) = none := by
  intro s t hs ht
  have a := Tests.booting_copies Tests.hash 2
  have b := Tests.booting_copies Tests.hash 8
  have c2 : s.canon = true := by rw [hs]; exact Tests.fused_canon _ (Tests.booting_canon 2)
  have c8 : t.canon = true := by rw [ht]; exact Tests.fused_canon _ (Tests.booting_canon 8)
  have s2 : bringAt s 2 = true := by rw [hs]; exact Tests.booting_step (by decide +kernel)
  have s8 : bringAt t 8 = true := by rw [ht]; exact Tests.booting_step (by decide +kernel)
  have i1 : imageFail s [1] true (Tests.image 1 []) = none := by rw [hs]; exact Tests.booting_image 2 (by decide)
  have i2 : imageFail s [2] true (Tests.image 2 []) = none := by rw [hs]; exact Tests.booting_image 2 (by decide)
  have i3 : imageFail t [3] true (Tests.image 3 []) = none := by rw [ht]; exact Tests.booting_image 8 (by decide)
  have i4 : imageFail t [4] true (Tests.image 4 []) = none := by rw [ht]; exact Tests.booting_image 8 (by decide)
  rw [← hs] at a
  rw [← ht] at b
  clear hs ht
  refine ⟨c2, s2, a.2.2, Tests.source_ok (h := a.1) i1 i2, c8, s8, ?_, ?_⟩
  · rw [b.2.1, Tests.third_image]; exact i3
  · rw [b.2.1, Tests.fourth_image]; exact i4

/-- Stack 0 is partition 0, and a hash is in the fuses of key slot 0. -/
def Tests.loadingPart : Partition := ⟨0, 0, 0, 0, 0, 0, [0]⟩
def Tests.loading (h : Nat) : State :=
  { State.reset with
    regs := (List.range 4).map fun w => (r_SEC_KEYHASH w, BitVec.ofNat 64 (h / 2 ^ (64 * w)))
    present := [0]
    parts := [Tests.loadingPart] }

/-- A graph image's payload (R231): header, the partition's topology hash, one MAINT lane, a task of each kind of R235's maintenance. -/
def Tests.section (type size off : Nat) : List Byte := Tests.num 2 type ++ Tests.num 2 0 ++ Tests.num 4 size ++ Tests.num 8 off
def Tests.record (kind : Nat) : List Byte :=
  Tests.num 4 (kind - 3) ++ Tests.num 1 kind ++ Tests.num 1 1 ++ Tests.num 1 0 ++ Tests.num 1 1 ++ Tests.num 4 1 ++ Tests.num 180 0
def Tests.front : List Byte := Tests.num 4 0x52475146 ++ Tests.num 2 1 ++ Tests.num 2 256 ++ Tests.num 8 1040
def Tests.rest : List Byte :=
  Tests.num 1 0 ++ Tests.num 1 1 ++ Tests.num 1 1 ++ Tests.num 1 4 ++ Tests.num 4 0 ++ Tests.num 1 1 ++ Tests.num 1 1 ++ Tests.num 1 8 ++
  Tests.num 1 0 ++ Tests.num 2 64 ++ Tests.num 1 8 ++ Tests.num 1 0 ++ Tests.num 2 6 ++ Tests.num 2 64 ++ Tests.num 2 4 ++ Tests.num 2 0 ++
  Tests.num 1 1 ++ Tests.num 1 0 ++ Tests.num 2 1 ++ Tests.num 4 0 ++ Tests.section 1 16 256 ++ Tests.section 2 768 272 ++
  Tests.section 3 0 1040 ++ Tests.section 4 0 1040 ++ Tests.section 9 0 1040 ++ Tests.num 96 0 ++ Tests.num 16 0 ++
  Tests.record 3 ++ Tests.record 4 ++ Tests.record 5 ++ Tests.record 6
def Tests.payload : List Byte := Tests.front ++ (partHash (Tests.loading Tests.hash) Tests.loadingPart ++ Tests.rest)

/-- Its places: six NEAR groups of core 0. -/
def Tests.six : Place := { Tests.place with near := [0, 1, 2, 3, 4, 5] }

theorem Tests.payload_checks : (payloadForm Tests.payload && geometryOk Tests.payload Tests.six &&
    !usesRetired (Tests.loading Tests.hash) Tests.payload Tests.six) = true := by decide +kernel

theorem Tests.payload_forms : taskForms Tests.payload = true := by decide +kernel

theorem Tests.payload_tasks : (
    let s := Tests.loading Tests.hash
    let p := Tests.payload
    !partBusy s 0 && leAt p 48 1 == (topoByte s 9).toNat && leAt p 51 1 == (if topoByte s 8 = 0 then 4 else 3) && leAt p 49 1 == pkgTper s &&
      !(rotates s 0 Tests.loadingPart && leAt p 50 1 == 1) && lanesOk p && leAt p 68 2 ≠ 0 && !decide (1024 < leAt p 68 2) &&
      !decide (4096 < leAt p 70 2) && (tasksOf p).all (taskOk (lanesOf p) (leAt p 70 2) (tperCycles (leAt p 49 1))) &&
      !decide (16 < ((tasksOf p).filter fun t => t.flags.testBit 0).length) && decide ((graphKeys s).length < 16) && (objRun s (leAt p 70 2)).isSome &&
      maintOk p &&
      (List.range 4).map (fun k => leAt p (52 + k) 1) == [0, 0, 0, 0]) = true := by decide +kernel

theorem Tests.partHash_length (s : State) (q : Partition) : (partHash s q).length = 32 := sha3_length _

theorem Tests.payload_length : Tests.payload.length = 1040 := by
  have h := Tests.partHash_length (Tests.loading Tests.hash) Tests.loadingPart
  have f : Tests.front.length = 16 := by decide
  have r : Tests.rest.length = 992 := by decide +kernel
  unfold Tests.payload
  rw [List.length_append, List.length_append, h, f, r]

theorem Tests.payload_hash : (Tests.payload.drop 16).take 32 = partHash (Tests.loading Tests.hash) Tests.loadingPart := by
  have h := Tests.partHash_length (Tests.loading Tests.hash) Tests.loadingPart
  have f : Tests.front.length = 16 := by decide
  unfold Tests.payload
  generalize partHash (Tests.loading Tests.hash) Tests.loadingPart = b at *
  rw [List.drop_append_of_le_length (by omega), List.drop_of_length_le (by omega), List.nil_append, List.take_append_of_le_length (by omega),
    List.take_of_length_le (by omega)]

theorem Tests.loading_key {h : Nat} (lt : h < 2 ^ 256) : keyHash (Tests.loading h) 0 = h := by
  have e : ∀ w, w < 4 → getReg (Tests.loading h) (r_SEC_KEYHASH w) = BitVec.ofNat 64 (h / 2 ^ (64 * w)) := by
    intro w hw
    have : w = 0 ∨ w = 1 ∨ w = 2 ∨ w = 3 := by omega
    rcases this with rfl | rfl | rfl | rfl <;> rfl
  have r : List.range 4 = [0, 1, 2, 3] := rfl
  unfold keyHash
  rw [r]
  simp only [List.foldr_cons, List.foldr_nil, Nat.mul_zero, Nat.zero_add, e 0 (by omega), e 1 (by omega), e 2 (by omega), e 3 (by omega), BitVec.toNat_ofNat]
  omega

theorem Tests.loading_status {s : State} {p : List Byte} (hs : s = Tests.loading Tests.hash) (hp : p = Tests.payload) :
    graphStatus s 0 (Tests.image 5 p) true Tests.six = none := by
  have l : p.length = 1040 := by rw [hp]; exact Tests.payload_length
  have hh : Tests.headOk 5 p.length = true := by rw [l]; decide
  have im : imPayload (Tests.image 5 p) = p := by
    have f := (Tests.head_facts (p := p) (r := []) hh).2.2.2.2.2.2.2.2.1
    rw [List.append_nil] at f
    unfold imPayload
    rw [f]
    exact Tests.image_payload 5 p
  have key : keyHash s 0 = Tests.hash := by rw [hs]; exact Tests.loading_key (Tests.sha3_lt _)
  have roll : getReg s r_SEC_ROLLBACK = 0 := by rw [hs]; rfl
  have fail : imageFail s [5] true (Tests.image 5 p) = none := Tests.image_ok key hh (by rw [l]) roll
  have part : s.parts[0]? = some Tests.loadingPart := by rw [hs]; rfl
  have hash : (p.drop 16).take 32 = partHash s Tests.loadingPart := by rw [hs, hp]; exact Tests.payload_hash
  have c := Tests.payload_checks
  have t := Tests.payload_tasks
  have tf := Tests.payload_forms
  rw [← hp, ← hs] at c t
  rw [← hp] at tf
  clear hs hp
  have rect : (List.range 4).map (fun k => leAt p (52 + k) 1) = [Tests.loadingPart.col0, Tests.loadingPart.row0, Tests.loadingPart.col1,
      Tests.loadingPart.row1] := by simp_all [Tests.loadingPart]
  simp only [Bool.and_eq_true, Bool.not_eq_true', beq_iff_eq, decide_eq_true_eq, decide_eq_false_iff_not] at c t
  obtain ⟨⟨c1, c2⟩, c3⟩ := c
  obtain ⟨⟨⟨⟨⟨⟨⟨⟨⟨⟨⟨⟨⟨⟨t1, t2⟩, t3⟩, t4⟩, t5⟩, t6⟩, t7⟩, t8⟩, t9⟩, t10⟩, t11⟩, t12⟩, t13⟩, t14⟩, t15⟩ := t
  unfold graphStatus
  simp only [im, fail, part, hash, rect, c1, c2, c3, t1, t2, t3, t4, t5, t6, tf, t7, t8, t9, t11, t14]
  have : ¬16 ≤ (graphKeys s).length := by omega
  have t13' : (objRun s (leAt p 70 2)).isNone = false := by
    cases h : objRun s (leAt p 70 2) <;> simp_all
  have t10' : (tasksOf p).all (taskOk (lanesOf p) (leAt p 70 2) (tperCycles (pkgTper s))) = true := t4 ▸ t10
  simp [this, t13', t10']

/-- A graph is being loaded under handle 9, and its image passes every check of R233. -/
theorem witness_GraphsLoadAndUnload_image : ∀ s, s = updSvc (fun v => { v with loading := [⟨9, 0, 0, 4836⟩] }) (Tests.loading Tests.hash) →
    (s.svc.loading.find? fun l => l.handle == 9) = some ⟨9, 0, 0, 4836⟩ ∧
    graphStatus (updSvc (fun v => { v with loading := v.loading.filter fun x => x ≠ ⟨9, 0, 0, 4836⟩ }) s) 0 (Tests.image 5 Tests.payload) true
      Tests.six = none := by
  intro s hs
  constructor
  · rw [hs]; rfl
  · exact Tests.loading_status (by rw [hs]; rfl) rfl

/-! ### The links (chapters 13 and 14) -/

/-- A carrier flit with sequence number 0 and zeros for messages; its CRC-32 and FEC bytes are from a reference implementation of both. -/
def Tests.flit : BitVec 2304 := BitVec.ofNat 2304 (2 ^ 2208 * 0xa36eedd8306780d8ac4d5a44 + 2 ^ 27)

theorem Tests.flit_good :
    let l := (fecCorrect (natBytes 288 Tests.flit.toNat)).2
    (crc32 (l.take 276) == BitVec.ofNat 32 (leAt l 276 4) && leAt l 0 4 == 2 ^ 27) = true := by decide +kernel

/-- A flit of zeros: no error that the FEC finds, and a CRC that does not match. -/
theorem Tests.flit_bad :
    let l := (fecCorrect (natBytes 288 (0#2304).toNat)).2
    (crc32 (l.take 276) != BitVec.ofNat 32 (leAt l 276 4)) = true := by decide +kernel

/-- The Camner link is up, and the twin link too, with the last carrier flit accepted at a number. -/
def Tests.linked (rx : Nat) : State :=
  putF r_TWIN_STATUS f_TWIN_STATUS_LINK 2 { State.reset with twinFlits := { FlitSide.reset with rxSeq := rx } }

/-- The link trains with a number of failures behind it. -/
def Tests.training (bad : Nat) : State := putF r_CAMNER_STATUS f_CAMNER_STATUS_STATE 1
  (updFlits false (fun x => { x with badTrains := bad }) State.reset)

theorem witness_CamnerLinkCarriesMessages_flits :
    (flitsUp (Tests.linked 4095) true && flitsUp State.reset false && bits (2 ^ 27) 28 27 ≠ 0 && bits (2 ^ 27) 26 26 == 0 &&
      bits (2 ^ 27) 25 24 == 0 && decide (bits (2 ^ 27) 11 0 = ((flitSide (Tests.linked 4095) true).rxSeq + 1) % 4096) &&
      (let last := (flitSide (Tests.linked 2049) true).rxSeq
       decide (bits (2 ^ 27) 11 0 ≠ (last + 1) % 4096) && decide (bits (2 ^ 27) 11 0 ≠ last) && decide ((0 + 4096 - last) % 4096 < 2048)) &&
      (let s := updFlits false (fun x => { x with resends := 7, lastFack := 5 }) State.reset
       s.canon && flitsUp s false && decide ((flitSide s false).resends + 1 = 8 ∧ (flitSide s false).lastFack = 5)) &&
      [0, 1, 2].all (fun n => (Tests.training n).canon && flitsTraining (Tests.training n) false) &&
      (let s := putF r_CAMNER_STATUS f_CAMNER_STATUS_STATE 0 State.reset
       s.canon && getF s r_CAMNER_STATUS f_CAMNER_STATUS_STATE == 0)) = true := by decide +kernel

/-- A message of a kind waits, with one STORE unanswered or none. -/
def Tests.sending (k : MsgKind) (asked : List (Nat × Nat)) : State :=
  updHub (fun h => { h with tx := [⟨k, 64, 64, 0⟩] }) (updCam (fun c => { c with asked := asked }) State.reset)

theorem witness_CamnerLinkCarriesMessages_messages :
    ([MsgKind.fetch, .fetchHold, .store, .storeIndex, .release].all fun k => let s := Tests.sending k []
      s.hub.tx == [⟨k, 64, 64, 0⟩] && linkUp s && decide (0 < s.camner.flits.credits) && s.camner.asked.isEmpty) = true ∧
    (Tests.sending .storeIndex [(3, 0x23)]).camner.asked = [(3, 0x23)] ∧
    (let s := updHub (fun h => { h with sent := [⟨.fetchHold, 64, 64, 0⟩] }) (updCam (fun c => { c with asked := [(3, 0x22)] }) State.reset)
     s.camner.asked.findIdx? (fun a => a.1 == 3) == some 0 && s.hub.sent[0]? == some ⟨.fetchHold, 64, 64, 0⟩ &&
      s.camner.asked[0]? == some (3, 0x22) && linkUp s) = true ∧
    (let s : State := { State.reset with bring := { Bring.reset with last := 9 } }
     linkUp s && (winTarget s 0x3000 matches .none) && (winTarget s 0x1000 matches .reg _) && (winTarget State.reset 0x1000 matches .none) &&
      (readReg s (hubReg 0x80 0)).isSome && decide (hubReg 0x80 0 ≠ r_RST_CTRL) && (winTarget s (2 ^ 48) matches .mem 0) &&
      (devTarget s 0).isSome && (devTarget s 255).isSome && !s.hub.transitStopped) = true := by
  refine ⟨?_, ?_, ?_, ?_⟩ <;> decide +kernel

/-- The twin's session 90 is held in slot 7; handle 5 of the twin is graph 5 here. -/
def Tests.heldSess : Held := ⟨{ Tests.sess .active with sid := 90 }, true, 0⟩
def Tests.mirrored (mode : Nat) : State :=
  putF r_TWIN_STATUS f_TWIN_STATUS_LINK 2 (putF r_TWIN_CTRL f_TWIN_CTRL_MODE mode (putF (r_TWIN_GMAP 0) f_TWIN_GMAP_VALID 1
    (putF (r_TWIN_GMAP 0) f_TWIN_GMAP_PEER 5 (putF (r_TWIN_GMAP 0) f_TWIN_GMAP_LOCAL 5
      { Tests.served (Tests.sess .active) with twin := { Twin.reset with held := [(7, some Tests.heldSess)], burst := some ⟨90, 1, 1000, 1001, 3, []⟩ } }))))

theorem witness_TwinMessagesTakeEffect :
    let s := Tests.mirrored 1
    let last := { (putF r_TWIN_CTRL f_TWIN_CTRL_HB_MISS 1 s) with twin := { s.twin with missed := 0 } }
    let train : State := { State.reset with pins := { Pins.reset with present := { AlertIn.reset with active := true } }, bring := { Bring.reset with last := 14 } }
    let acked := updSess 4095 (fun x => { x with unacked := some 3 }) s
    (s.canon && twinUp s && mirAccepts s && last.canon && twinMode last ≠ 0 &&
      decide (last.twin.missed + 1 = max 1 (getF last r_TWIN_CTRL f_TWIN_CTRL_HB_MISS)) && !twinUp train && twinPresent train &&
      decide (14 ≤ train.bring.last) && train.canon && findHeld s 91 == none && mappedGraph s 5 == some 0 && getGraph s 0 == some Tests.graph &&
      freeSlotNo s == some 0 && findHeld s 90 == some 7 && getHeld s 7 == some Tests.heldSess && s.twin.burst.isSome && twinUp acked &&
      (getSess acked 4095).any (fun x => x.unacked == some 3) && srising s.twin.held && getSess s 4095 == some (Tests.sess .active)) = true := by
  decide +kernel

/-- The link to the twin is up and its heartbeats report a mode and a feature level. -/
def Tests.paired (mode : Nat) (s : State) : State :=
  putF r_TWIN_STATUS f_TWIN_STATUS_HB_RX 1 (putF r_TWIN_STATUS f_TWIN_STATUS_PEER_MODE 2 (putF r_TWIN_STATUS f_TWIN_STATUS_PAIRED 1
    (putF r_TWIN_STATUS f_TWIN_STATUS_LINK 2 (putF r_TWIN_CTRL f_TWIN_CTRL_MODE mode
      { s with pins := { Pins.reset with present := { AlertIn.reset with active := true } } }))))

theorem witness_TwinCommandsTakeEffect :
    let flagged := Tests.served { Tests.sess .active with flags := 1 }
    let pair := Tests.paired 0 (Tests.port 0x0501 [] State.reset)
    let mode := Tests.paired 0 (Tests.port 0x0505 [(16, 2)] State.reset)
    let detach := Tests.paired 1 (Tests.port 0x0504 [] flagged)
    let resync := Tests.paired 1 (Tests.port 0x0502 [] flagged)
    let copy := Tests.paired 1 (Tests.served { Tests.sess .pinned with mir := .building, copyLeft := [0] })
    let take := Tests.port 0x0503 [(16, 1)] (Tests.mirrored 1)
    (pair.canon && portRuns pair 0x0501 && twinPresent pair && twinUp pair && twinF pair f_TWIN_STATUS_HB_RX ≠ 0 &&
      twinF pair f_TWIN_STATUS_PEER_FLEVEL == getF pair r_SB_ID f_SB_ID_FLEVEL && mode.canon && portRuns mode 0x0505 && decide (pk mode 16 1 ≤ 2) &&
      twinUp mode && twinF mode f_TWIN_STATUS_PAIRED == 1 && !twinGone mode && detach.canon && portRuns detach 0x0504 && peerHolds detach &&
      twinMode detach == 1 && !twinGone detach && (List.range detach.parts.length).all (fun p => !partBusy detach p) && !acksOutstanding detach &&
      twinF detach f_TWIN_STATUS_PAIRED == 1 && portRuns resync 0x0502 && twinUp resync && twinMode resync == 1 && peerHolds resync &&
      !twinGone resync && (getSess resync 4095).any (fun x => x.flags.testBit 0) && getGraph resync 0 == some Tests.graph && mirActive copy &&
      nextCopy copy == some 4095 && getGraph copy 0 == some Tests.graph && take.canon && portRuns take 0x0503 && pk take 16 1 == 1 &&
      !take.twin.promoted && srising take.twin.held && getHeld take 7 == some Tests.heldSess && Tests.heldSess.inStep &&
      getGraph take Tests.heldSess.sess.graph == some Tests.graph) = true := by decide +kernel

/-! ### Resets, bring-up, rounds, registers (chapters 14, 15 and 1) -/

/-- A reset at a level of a scope, asserted or released so far. -/
def Tests.resetting (level scope released : Nat) (asserted : Bool) (todo : List Nat) : State :=
  { State.reset with rst := { ResetCtl.reset with seqs := [⟨level, scope, rcCommand, asserted, released, false, false, todo⟩] } }

theorem witness_ResetsAreAcceptedAndClear :
    (State.reset.sec.pulse == none && State.reset.rst.seqs.isEmpty && getF State.reset r_SEC_STATUS f_SEC_STATUS_DEBUG_CLOSED == 0) = true ∧
    (let s := putF r_RST_CTRL f_RST_CTRL_WDOG_EN 1 { State.reset with rst := { ResetCtl.reset with kick := some 5 } }
     getF s r_RST_CTRL f_RST_CTRL_WDOG_EN == 1 && decide (5 + max 1 (getF s r_RST_CTRL f_RST_CTRL_WDOG_MS) ≤ 70000) &&
      decide (5 < 5 + max 1 (getF s r_RST_CTRL f_RST_CTRL_WDOG_MS))) = true ∧
    (let s : State := { State.reset with rst := { ResetCtl.reset with command := some lvWarm } }
     s.rst.command == some lvWarm && decide (lvWarm < lvCore) && !portBusy s) = true ∧
    ({ State.reset with sec := { Sec.reset with pulse := some 0 } } : State).sec.pulse ≠ none ∧
    (let s := Tests.port 0x0601 [(16, 0), (17, 1)] Tests.found
     let d := Tests.port 0x0601 [(16, 2), (17, 1)] Tests.found
     portRuns s 0x0601 && (commandLevel (pk s 17 1)).isSome && pk s 16 1 == 0 && portRuns d 0x0601 && pk d 16 1 == dieNo 1 && d.present.contains 1 &&
      d.sec.pulse == none && d.rst.seqs.isEmpty) = true ∧
    ([lvSystem, lvCore].all fun lv => (Tests.resetting lv 1 0 true [0]).rst.seqs.any fun q => q.level == lv && q.todo.contains 0) = true := by
  refine ⟨?_, ?_, ?_, ?_, ?_, ?_⟩ <;> decide +kernel

/-- The outer port 0 of stack 0, which no release isolates, and port 1, which one does; no pulse and no reset runs. -/
theorem witness_ResetsAreReleasedInOrder_ports : outerPort 0 0 = true ∧ outerPort 0 1 = false ∧ State.reset.sec.pulse = none ∧
    State.reset.rst.seqs = [] := by decide +kernel

theorem witness_ResetsAreReleasedInOrder :
    ([lvSystem, lvCore].all fun lv => let s := Tests.resetting lv 1 0 true []
      (seqOf s (scopeNo (some 0))).any (fun q => q.asserted && q.todo.isEmpty && q.level == lv)) = true ∧
    (let s := Tests.resetting lvSystem 0 0 true []
     (seqOf s (scopeNo none)).any (fun q => q.asserted && q.todo.isEmpty) && sourcesQuiet s) = true ∧
    ((List.range 7).all fun n => (Tests.resetting lvSystem 0 n false []).canon &&
      (seqOf (Tests.resetting lvSystem 0 n false []) (scopeNo none)).any (fun q => !q.asserted && q.released == n)) = true ∧
    ((seqOf (Tests.resetting lvWarm 1 6 false []) (scopeNo (some 0))).any fun q => !q.asserted && q.released == 6 && q.level ≠ lvCore) = true ∧
    ({ State.reset with rst := { ResetCtl.reset with recovering := [(0, true)] } } : State).rst.recovering.find? (fun x => x.1 == 0) = some (0, true) := by
  refine ⟨?_, ?_, ?_, ?_, ?_⟩ <;> decide +kernel

/-- Step `n` of bring-up runs, with or without an outcome. -/
def Tests.step (n : Nat) (o : Option (Nat × Nat × Nat)) (s : State) : State :=
  putF r_BRING_STATUS f_BRING_STATUS_STATE 1 (putF r_BRING_STATUS f_BRING_STATUS_STEP n { s with bring := { s.bring with outcome := o } })

theorem witness_BringUpStepsRunAndEnd :
    ([some (1, 0, 0), some (2, 5, 6)].all fun o => let s := Tests.step 7 o State.reset
      s.canon && bringF s f_BRING_STATUS_STATE == 1 && s.bring.outcome == o) = true ∧
    ([1, 3, 4, 5, 6, 7, 9, 10, 11, 12, 14].all fun n => (Tests.step n none Tests.found).canon && bringAt (Tests.step n none Tests.found) n) = true ∧
    ((Tests.step 9 none Tests.found).bring.warm = false ∧
      flipMatches (getReg (Tests.step 9 none Tests.found) (r_ECC_FLIPMASK 0 0)) wOther 99 = false ∧
      (Tests.step 10 none Tests.found).present.contains 1 = true ∧
      (Tests.step 4 none Tests.found).present.length < 24 ∧ (List.replicate 24 0).length = 24) ∧
    vaultWidth ⟨0, 0, 0⟩ = 0 ∧ vaultWidth ⟨41, 0, 0⟩ ≠ 0 ∧
    (let s := putF r_BRING_STATUS f_BRING_STATUS_FR 1 State.reset
     s.canon && bringF s f_BRING_STATUS_FR == 1 && !s.bring.frReady) = true ∧
    (let s : State := { State.reset with bring := { Bring.reset with frReady := true }, hub := { Hub.reset with frQuiet := true } }
     s.canon && s.bring.frReady && s.hub.frQuiet && frQuiesced s) = true := by
  refine ⟨?_, ?_, ?_, ?_, ?_, ?_, ?_⟩ <;> decide +kernel

theorem witness_RoundsAndTripsTakeEffect :
    (let s := putF (r_FLASH_CTRL 0) f_FLASH_CTRL_ELASTIC 1 { Tests.found with parts := [⟨0, 0, 0, 0, 0, 0, [0]⟩] }
     s.canon && partOf s 0 == some ⟨0, 0, 0, 0, 0, 0, [0]⟩ && stackIx 0 == some 0 && getF s (r_FLASH_CTRL 0) f_FLASH_CTRL_ELASTIC == 1 &&
      !dieRuns s 0) = true ∧
    (let off : State := { State.reset with power := ⟨false, true⟩ }
     let sound : State := { State.reset with power := ⟨false, false⟩ }
     !off.power.running && off.power.railFault && !sound.power.running && !sound.power.railFault) = true ∧
    (State.reset.sec.pulse = none ∧ State.reset.rst.seqs = [] ∧ ({ State.reset with sec := { Sec.reset with pulse := some 4 } } : State).sec.pulse ≠ none ∧
      (944 : Int) ≤ 944 ∧ (943 : Int) < 944 ∧ (880 : Int) ≤ 943) := by
  refine ⟨?_, ?_, ?_⟩ <;> decide +kernel

/-! Step 11's witness: the block that holds the found descriptor, with the hash in it. -/

theorem Tests.topoByte_forAll {α : Type} (f : α → Nat) (v : α → Nat) (i : Nat) (l : List α) (s : State) (h : ∀ e ∈ l, f e ≠ i) :
    topoByte (forAll l (fun e s => putTopo (f e) (v e) s) s) i = topoByte s i := by
  induction l generalizing s with
  | nil => rfl
  | cons x l ih =>
    refine (ih _ fun e he => h e (List.mem_cons_of_mem _ he)).trans ?_
    exact sget_sput_other (Ne.symm (h x List.mem_cons_self))

theorem Tests.topoByte_regs {α : Type} (f : α → Nat) (v : α → Word) (i : Nat) (l : List α) (s : State) :
    topoByte (forAll l (fun e s => putReg s (f e) (v e)) s) i = topoByte s i := by
  induction l generalizing s with
  | nil => rfl
  | cons x l ih => exact (ih _).trans rfl

theorem Tests.topoHash_head (s : State) (i : Nat) (h : i < 32) : topoByte (topoHash s) i = topoByte s i := by
  unfold topoHash
  rw [Tests.topoByte_regs, Tests.topoByte_forAll]
  intro e _; omega

/-- A found descriptor with its head only, and the expected one at device address 4096. -/
def Tests.step11 : State :=
  Tests.step 11 none (putF r_TOPO_EXPECTED f_TOPO_EXPECTED_LEN 768 (putF r_TOPO_EXPECTED f_TOPO_EXPECTED_ADDR 4096
    { State.reset with topo := [(0, 0x54#8), (1, 0x4F#8), (2, 0x50#8), (3, 0x4F#8), (4, 1#8), (7, 3#8)] }))

theorem Tests.block (f : Nat → Byte) (h : f 0 = 0x54#8 ∧ f 1 = 0x4F#8 ∧ f 2 = 0x50#8 ∧ f 3 = 0x4F#8 ∧ f 4 = 1#8 ∧ f 5 = 0#8 ∧ f 6 = 0#8 ∧ f 7 = 3#8) :
    let b := (List.range 768).map f
    let e := fun (i : Nat) => if i < 768 then (b.getD i 0).toNat else 0
    leNat (b.take 4) = 0x4F504F54 ∧ e 4 + 256 * e 5 = 1 ∧ e 6 + 256 * e 7 = 768 ∧ ∀ i, i < 768 → e i = (f i).toNat := by
  obtain ⟨h0, h1, h2, h3, h4, h5, h6, h7⟩ := h
  have hb : ∀ i, i < 768 → ((List.range 768).map f).getD i 0 = f i := by intro i hi; simp [List.getD_eq_getElem?_getD, hi]
  refine ⟨?_, ?_, ?_, fun i hi => by simp only [if_pos hi, hb i hi]⟩
  · rw [← List.map_take, List.take_range, Nat.min_eq_left (by decide)]
    simp [List.range, List.range.loop, h0, h1, h2, h3, leNat]
  · simp only [hb 4 (by decide), hb 5 (by decide), h4, h5]; decide
  · simp only [hb 6 (by decide), hb 7 (by decide), h6, h7]; decide

theorem Tests.block11 (t : State) (h : ∀ i, i < 32 → topoByte t i = topoByte Tests.step11 i) : ∃ b : List Byte,
    let s := Tests.step11
    let len := getF s r_TOPO_EXPECTED f_TOPO_EXPECTED_LEN
    let e := fun (i : Nat) => if i < len then (b.getD i 0).toNat else 0
    bringAt s 11 = true ∧ getF s r_TOPO_EXPECTED f_TOPO_EXPECTED_ADDR % 8 = 0 ∧ len ≠ 0 ∧ len ≤ 2048 ∧ leNat (b.take 4) = 0x4F504F54 ∧
      e 4 + 256 * e 5 = 1 ∧ e 6 + 256 * e 7 = len ∧ ∀ i, i < max len 768 → e i = (topoByte t i).toNat := by
  have hl : getF Tests.step11 r_TOPO_EXPECTED f_TOPO_EXPECTED_LEN = 768 := by decide +kernel
  have h := Tests.block (topoByte t) (by
    rw [h 0 (by decide), h 1 (by decide), h 2 (by decide), h 3 (by decide), h 4 (by decide), h 5 (by decide), h 6 (by decide), h 7 (by decide)]
    decide +kernel)
  refine ⟨(List.range 768).map (topoByte t), ?_⟩
  simp only [hl]
  exact ⟨by decide +kernel, by decide +kernel, by decide, by decide, h.1, h.2.1, h.2.2.1, fun i hi => h.2.2.2 i (by omega)⟩

theorem witness_BringUpStepsRunAndEnd_topology : ∃ b : List Byte,
    let s := Tests.step11
    let len := getF s r_TOPO_EXPECTED f_TOPO_EXPECTED_LEN
    let e := fun (i : Nat) => if i < len then (b.getD i 0).toNat else 0
    bringAt s 11 = true ∧ getF s r_TOPO_EXPECTED f_TOPO_EXPECTED_ADDR % 8 = 0 ∧ len ≠ 0 ∧ len ≤ 2048 ∧ leNat (b.take 4) = 0x4F504F54 ∧
      e 4 + 256 * e 5 = 1 ∧ e 6 + 256 * e 7 = len ∧ ∀ i, i < max len 768 → e i = (topoByte (topoHash s) i).toNat :=
  Tests.block11 (topoHash Tests.step11) (Tests.topoHash_head _)

theorem witness_RegistersAndRingExchange :
    (let n := r_DISP_CTRL
     State.reset.canon && (regRow n).isSome && adDie n == 0 && decide (¬(r_HUB_CMD_SLOT 0 ≤ n ∧ n < r_HUB_CMD_SLOT 0 + 0x80)) &&
      decide (n ≠ r_BRING_STEP) && decide (n ≠ r_EVT_CTRL) && decide (n ≠ r_SB_INLET) && decide (n ≠ r_SB_INPUT) &&
      decide (¬(r_SYNC_OBJ 0 ≤ n ∧ n ≤ r_SYNC_OBJ 16383)) && decide (n ≠ r_SYNC_SIGNAL) && decide (n ≠ r_ERR_STATUS_package) &&
      (regRow (hubReg 0x80 0xFFFFF8)).isNone && decide (adDie (hubReg 0x80 0xFFFFF8) ≠ 0xFF)) = true ∧
    (let n := r_CORE_CTRL 1 15
     (regRow n).isSome && adDie n == dieNo 1 && decide (0x10 ≤ adBlk n) && decide (adBlk n < 0x20) && (stationAt n).isNone && onRing Tests.found 1 &&
      stackIx (adDie n - 1) == some 1 && !onRing State.reset 1) = true ∧
    (let s := updDie 0 (fun y => { y with forward := [4095] }) Tests.found
     let last := updHub (fun h => { h with ringPos := 2 }) s
     s.canon && onRing s 0 && s.hub.ringPos == 0 && nextOnRing s == some 0 && nextOnRing last == some 0 && nextOnRing s != some 1 &&
      (getDie s 0).escal.isEmpty && (getDie s 0).ownFault == none && s.hub.badWords.isEmpty && !s.hub.lpLost.contains 0 &&
      !onRing State.reset 0) = true := by
  refine ⟨?_, ?_, ?_⟩ <;> decide +kernel

/-- A beat of transfer 1 at the stack port of stack 23, with ERR or without, and one of no transfer. -/
def Tests.atHub (xfer : Nat) (err : Bool) : State := { Tests.xfer 1 with crossings := [⟨hubDie, 23, 0, 0, true, ⟨0, false, err⟩, xfer⟩] }

theorem witness_RegistersAndRingExchange_hubBeats :
    ([(1, false), (1, true), (2, false)].all fun x => let s := Tests.atHub x.1 x.2
      s.canon && takeFlight (fun f => f.die == hubDie && f.router == 23) s.crossings == some (⟨hubDie, 23, 0, 0, true, ⟨0, false, x.2⟩, x.1⟩, []) &&
        takeFlight (fun f => f.die == hubDie && f.router == 22) s.crossings == none && !inService s .package 23 &&
        (s.hub.xfers.any fun y => y.id == x.1) == (x.1 == 1)) = true := by decide +kernel

/-! ### Pins and the I3C target (chapter 16) -/

/-- The target is enabled, with or without an address. -/
def Tests.i3c (a : Option Nat) : State := { State.reset with pins := { Pins.reset with i3c := { I3c.reset with enabled := true, addr := a } } }

theorem witness_I3cTargetCommandsComplete :
    (let s := Tests.i3c none
     let t := Tests.i3c (some 0x7E)
     s.pins.i3c.enabled && s.pins.i3c.addr == none && t.pins.i3c.enabled && t.pins.i3c.addr != none && s.canon) = true ∧
    (let s : State := { State.reset with pins := { Pins.reset with i3c := { I3c.reset with
        enabled := true, addr := some 8, ibi := true, newly := 0x600, lastIbi := some 1000 } } }
     s.pins.i3c.enabled && s.pins.i3c.addr == some 8 && s.pins.i3c.ibi && decide (1000 + 1000 ≤ 2000) && decide (9 < 11) &&
      s.pins.i3c.newly.testBit 9 && (List.range 9).all (fun i => !s.pins.i3c.newly.testBit i)) = true := by
  constructor <;> decide +kernel

/-- Both inputs at a value. -/
def Tests.inputs (x : AlertIn) : State := { State.reset with pins := { Pins.reset with present := x, alive := x } }

theorem witness_AlertInputsFallReArmAndUnmask :
    (let s := Tests.inputs ⟨true, true, false, false, none, []⟩
     s.pins.present.active && s.pins.present.armed && !s.pins.present.masked && s.pins.alive.active && s.pins.alive.armed &&
      !s.pins.alive.masked) = true ∧
    ([List.range 14, List.range 15, List.range 16].all fun l =>
      let s := Tests.inputs ⟨true, false, false, false, some 1000, l⟩
      s.canon && [true, false].all fun b =>
        let x := getIn s b
        !x.armed && !x.masked && x.active && !x.waiting && x.event == some 1000 && decide (1000 + 1000 ≤ 2000) &&
          ((x.rearms.filter fun t => decide (2000 < t + 1000000)) ++ [2000]).length == l.length + 1) = true ∧
    (let s := Tests.inputs ⟨true, false, true, false, none, []⟩
     s.canon && s.pins.present.masked && s.pins.alive.masked) = true := by
  refine ⟨?_, ?_, ?_⟩ <;> decide +kernel


/-- The fused pull-ups of R403, a hub that is held, a trip, a closed debug port. -/
theorem witness_PinsFollowTheirOwners :
    (let held : State := { State.reset with rst := { ResetCtl.reset with seqs := [⟨1, 0, 3, true, 0, false, false, []⟩], trip := true } }
     let closed := putF r_SEC_STATUS f_SEC_STATUS_DEBUG_CLOSED 1 State.reset
     !({ State.reset with power := ⟨false, true⟩ } : State).power.running && !beforeSense State.reset && !hubHeld State.reset && !beforeSense held &&
      hubHeld held && held.rst.trip && pinState held 3 == .low && pinState State.reset 4 == .pullUp && pinState State.reset 0 == .hiZ &&
      !beforeSense closed && getF closed r_SEC_STATUS f_SEC_STATUS_DEBUG_CLOSED == 1 && pinState closed 8 == .pullUp) = true := by decide +kernel
/-! ### The whole machine -/

theorem witness_StepRunsTheFrontCommand :
    ({ State.reset with pending := [.rstdaa, .kick 5] } : State).pending = [.rstdaa, .kick 5] ∧ State.reset.pending = [] := by decide

/-- A safe state whose step answers a next state. -/
theorem witness_StepsKeepTheStateSafe : ∃ s t : State, s.pending ≠ [] ∧ s.safe = true ∧ step s = .next t :=
  ⟨{ State.reset with pending := [.sclLowTimeout] }, _, by decide, by decide +kernel, rfl⟩

theorem witness_CommandsKeepQueueAndFuses : ∃ s t : State, exec .sclLowTimeout s = .next t := ⟨State.reset, _, rfl⟩

theorem witness_PinAndReleaseCommandsFrame :
    Claims.pinCommand .sclLowTimeout = true ∧ (∃ s t : State, exec .sclLowTimeout s = .next t) ∧
      ∃ s t : State, s.canon = true ∧ exec (.fabricRelease none) s = .next t := ⟨rfl, ⟨State.reset, _, rfl⟩, State.reset, _, by decide, rfl⟩

theorem witness_LinkMessagesFrame : Claims.linkCommand .heartbeatMiss = true ∧ ∃ s t : State, exec .heartbeatMiss s = .next t :=
  ⟨rfl, State.reset, _, rfl⟩

theorem witness_PortCommandsFrame : Claims.portCommand .identify = true ∧ (∃ s t : State, exec .identify s = .next t) ∧
    (∃ s t : State, exec .closeSession s = .next t) ∧ (Tests.task 5).psize = 0 :=
  ⟨rfl, ⟨State.reset, _, rfl⟩, ⟨State.reset, _, rfl⟩, rfl⟩

theorem witness_NaNsAreCanonical :
    decodeFmt .bf16 0x7F81 = .nan ∧ decF32 0x7F800001 = .nan ∧ decodeFmt .e4m3 0xFF = .nan ∧ Val.nan ∈ [Val.nan] := by
  refine ⟨?_, ?_, ?_, ?_⟩ <;> decide +kernel

theorem witness_CodesRoundTrip :
    ([(Fmt.fp32, 1), (.fp32, 0x80000000), (.fp32, 0x7F800000), (.bf16, 0x7F), (.fp16, 0x3FF), (.e4m3, 0x7E), (.e5m2, 0x7C), (.e2m1, 0xF)].all
      fun x => x.1 != .int8 && x.1 != .k4 && decide (x.2 < 2 ^ fmtBits x.1) && decodeFmt x.1 x.2 != .nan) = true := by decide +kernel

theorem witness_CodeWordsReadBack : (35 < 36 ∧ (0x8000#16) ≠ 0#16) := by decide

/-- The Camner link is up. -/
def Tests.linkedUp : State := putF r_CAMNER_STATUS f_CAMNER_STATUS_STATE 2 State.reset

theorem witness_BroadcastsAndUnimplementedOffsets :
    (adDie (0xFF * 2 ^ 32 + 8) == 0xFF && (regRow (hubReg 0x87 0x7F8)).isNone && linkUp Tests.linkedUp &&
      (match winTarget Tests.linkedUp 0x7F8 with | .reg a => a == hubReg 0x87 0x7F8 | _ => false) &&
      (readReg Tests.linkedUp (hubReg 0x87 0x7F8)).isNone) = true := by decide +kernel

theorem witness_ReadyOpensTheCommandPort :
    ((Tests.step 14 none State.reset).canon && bringAt (Tests.step 14 none State.reset) 14) = true ∧
    14 ≤ ({ State.reset with bring := { Bring.reset with last := 14 } } : State).bring.last := by
  constructor <;> decide +kernel

/-- A standing instance of class PREFILL and one of class DECODE, ready both. -/
def Tests.twoClasses : State :=
  let i : Nat → Inst := fun t => ⟨0, t, none, 1, true, 0, 0, [], 0, 0, [], false, [], false⟩
  let g := { Tests.graph with lanes := [⟨2, 2⟩, ⟨1, 2⟩], tasks := [Tests.task 0, { Tests.task 0 with lane := 1 }] }
  updSvc (fun v => { v with insts := [(0, some (i 0)), (1, some (i 1))], graphs := [(0, some g)] }) (Tests.served (Tests.sess .active))

theorem witness_PrefillShare :
    (let s := updSvc (fun v => { v with sincePre := [(0, 3)] }) (putF r_DISP_CTRL f_DISP_CTRL_PEVERY 4 Tests.twoClasses)
     getF s r_DISP_CTRL f_DISP_CTRL_PEVERY == 4 && decide (4 - 1 ≤ sget 0 s.svc.sincePre 0) && readyInsts s 0 == [0, 1] &&
      Claims.classOf s 0 == some 2 && chooseInst s 0 == some 0) = true ∧
    (let s := updSvc (fun v => { v with insts := v.insts.take 1 }) (putF r_DISP_CTRL f_DISP_CTRL_PEVERY 0 Tests.twoClasses)
     getF s r_DISP_CTRL f_DISP_CTRL_PEVERY == 0 && chooseInst s 0 == some 0 && Claims.classOf s 0 == some 2) = true := by
  constructor <;> decide +kernel

theorem witness_DispatchFollowsTheOrder :
    (readyInsts Tests.twoClasses 0 == [0, 1] && chooseInst Tests.twoClasses 0 == some 1 && chooseInst State.reset 0 == none) = true := by
  decide +kernel

/-- A descriptor of three nodes: the root, a child of it, a child of that; and one whose second node is its own parent. -/
def Tests.tree (bad : Bool) : Nat :=
  3 + 2 ^ 128 * 7 + 2 ^ 160 * (8 + 2 ^ 18 * (if bad then 1 else 0) + 2 ^ 22) + 2 ^ 192 * (9 + 2 ^ 18 + 2 ^ 23) + 2 ^ 640 + 2 ^ 656 * 3 + 2 ^ 672 * 7

/-- The decode launch of session 77 is next. -/
def Tests.starting : State := updSvc (fun v => { v with launches := [{ Tests.launch with started := false, ended := false }] })
  (Tests.launchedTask kDecode (Tests.sess .active))

theorem witness_InvalidTreesVerifyTheRoot :
    (treeValid 16 1000 (Tests.tree false) && !treeValid 16 1000 (Tests.tree true) && !treeValid 2 1000 (Tests.tree false) &&
      !treeValid 16 9 (Tests.tree false) && (Tests.starting.svc.launches.find? fun l => l.part == 0 && !l.started).isSome &&
      getGraph Tests.starting 0 == some Tests.graph && launchOf Tests.starting Tests.launch == some (4095, 2)) = true := by decide +kernel

/-- NaN, 2.0, −0 and +0 at pages 3, 2, 1 and 0; the exact steps and the others. -/
theorem witness_RetrievalSelectsByRank :
    (ranking [(0#32, 0), (0x80000000#32, 2 ^ 32), (0x40000000#32, 2 ^ 33), (0x7FC00000#32, 3 * 2 ^ 32)] ==
        [3 * 2 ^ 32, 2 ^ 33, 0, 2 ^ 32] && heIdx (2 ^ 33) == 2 && isNaN32 0xFFC00001#32 && !isNaN32 0x7F800000#32 &&
      exactStep 0#64 (Tests.sess .active) 0 && !exactStep 0#64 (Tests.sess .active) 1 &&
      exactStep 0#64 { Tests.sess .active with flags := 2 } 1 && getSess (Tests.served (Tests.sess .active)) 4095 == some (Tests.sess .active) &&
      getGraph (Tests.served (Tests.sess .active)) 0 == some Tests.graph) = true := by decide +kernel

theorem witness_ResetClearsTheTwinBlock :
    ([lvSystem, lvWarm].all fun lv =>
      let s : State := { State.reset with rst := { ResetCtl.reset with command := some lv } }
      s.canon && s.sec.pulse == none && s.sec.advance == none && s.rst.seqs.isEmpty && s.rst.command == some lv && !portBusy s) = true ∧
    (r_TWIN_GMAP 15) / 2 ^ 24 = 0x82 := by
  constructor <;> decide +kernel

theorem witness_SystemResetClearsTheSecurityBlock :
    (let s : State := { State.reset with rst := { ResetCtl.reset with command := some lvSystem } }
     s.canon && s.sec.pulse == none && s.sec.advance == none && s.rst.seqs.isEmpty && s.rst.command == some lvSystem && !portBusy s) = true ∧
    (r_SEC_KEYHASH 31) / 2 ^ 24 = 0x85 := by
  constructor <;> decide +kernel

/-! ### Worked examples -/

/-- Selection at 1,000,000 positions with the RET_CFG of reset (the worked example of spec/07_kv_cache.md): pages 0 and 7780 to 7812 are in the
sink and window sets, P = 487 of 7,779 candidates, and the prefetch band ends at rank 609. -/
theorem test_selection_worked_example :
    (let cfg := regReset r_RET_CFG
     ceil256 7779 (fieldOf f_RET_CFG_FRAC cfg) == 487 && 487 + ceil256 487 (fieldOf f_RET_CFG_PX cfg) == 609 &&
      ((List.range 7813).filter fun n => !sinkOrWindow cfg 1000000 n).length == 7779 && sinkOrWindow cfg 1000000 0 &&
      sinkOrWindow cfg 1000000 7780 && !sinkOrWindow cfg 1000000 7779) = true := by decide +kernel

/-- SHA3-256 of the empty message, from FIPS 202. -/
theorem test_sha3_empty : (sha3 []).map (·.toNat) =
    [0xA7, 0xFF, 0xC6, 0xF8, 0xBF, 0x1E, 0xD7, 0x66, 0x51, 0xC1, 0x47, 0x56, 0xA0, 0x61, 0xD6, 0x62, 0xF5, 0x80, 0xFF, 0x4D, 0xE4, 0x3B, 0x49,
     0xFA, 0x82, 0xD8, 0x0A, 0x4B, 0x80, 0xF8, 0x43, 0x4A] := by decide +kernel

/-! ### What no sender can form -/

theorem test_wellFormed_refuses_upsets :
    [Instr.fetchSlot 0 0 [(144, 1)], .vaultReadBeat 0 0 [(0, 1), (200, 1)], .vdma 0 0 false [[(144, 1)]], .ldmaRead 0 0 [[], [(144, 1)]],
     .ldmaGather 0 0 false [[(144, 1)]], .adderResult 0 0 false [(144, 1)], .recheck 0 0 [(144, 1)], .drizzleRead 0 0 false [(144, 1)],
     .drizzleWriteback 0 0 [(144, 1)], .mergeEntryTimeout 0 16 [(144, 1)], .hostQueueArrival 0 0 0 true 0 1 0 0 [(144, 1)],
     .vaultHostRequest 0 0 0 true 0 1 0 0 [(144, 1)], .lpddrHostRequest 0 0 true 0 1 0 [(144, 1)]].all (fun i => !i.wellFormed) = true := by
  decide +kernel

theorem test_wellFormed_refuses_tests :
    [Instr.vaultRetrainSegment 0 0 ⟨1153, 0, 0⟩, .vaultRetrainSegment 0 0 ⟨0, 1153, 0⟩, .vaultVerticalTraining [(0, 0, ⟨0, 0, 81⟩)],
     .fullRateTraining [] [(0, 0, ⟨0, 0, 81⟩)], .fullRateTraining [(0, ⟨List.replicate 513 0, 0, true⟩, ⟨[], 0, true⟩)] [],
     .dieToDieTraining [(39, ⟨[], 0, true⟩, ⟨List.replicate 513 0, 0, true⟩)], .linkRetrainSegment 0 1 ⟨List.replicate 513 0, 0, true⟩ ⟨[], 0, true⟩,
     .linkRetrainSegment 0 1 ⟨[], 0, true⟩ ⟨List.replicate 513 0, 0, true⟩].all (fun i => !i.wellFormed) = true := by decide +kernel

/-- No byte, more than a line, across a line, more data than bytes. -/
theorem test_wellFormed_refuses_accesses :
    [(0, 0, 0), (0, 257, 0), (255, 2, 0), (0, 1, 256)].all (fun x =>
      !(Instr.hubTransitTransfer 0 true x.1 x.2.1 x.2.2 0 false).wellFormed && !(Instr.hostQueueArrival 0 0 0 true x.1 x.2.1 x.2.2 0 []).wellFormed &&
      !(Instr.vaultHostRequest 0 0 0 true x.1 x.2.1 x.2.2 0 []).wellFormed && !(Instr.lpddrHostRequest 0 0 true x.1 x.2.1 x.2.2 []).wellFormed) = true := by
  decide +kernel

theorem test_wellFormed_refuses_mirOps :
    [MirOp.close (2 ^ 64), .truncate 1 (2 ^ 32), .setS 1 16 0, .setS 1 0 (2 ^ 128), .openS 1 1 16 0 0 1 2 0 0, .openS 1 1 0 0 0 1 2 0 3,
     .fork (2 ^ 64) 2 0 false 1 2].all (fun o => !(Instr.mirOp 0 o).wellFormed && !(Instr.carrierFlitReceive true 0 0 [(0, o)]).wellFormed) = true := by
  decide +kernel

/-- A stack's reading with all its sensors. -/
def Tests.reading (d : Stack) (n : Nat) : StackReading := ⟨d, List.replicate n 640, 0, List.replicate 8 (3, false, false), List.replicate 16 0⟩

theorem test_wellFormed_refuses_readings :
    ((Instr.measurementRound ⟨[Tests.reading 0 56], List.replicate 8 640, 0, 0, 0⟩).wellFormed &&
      [Instr.measurementRound ⟨[Tests.reading 0 56], List.replicate 7 640, 0, 0, 0⟩,
       .measurementRound ⟨[Tests.reading 0 55], List.replicate 8 640, 0, 0, 0⟩,
       .measurementRound ⟨[Tests.reading 0 56, Tests.reading 0 56], List.replicate 8 640, 0, 0, 0⟩,
       .stackRecovery 0 ⟨0xFFFF, [(0, ⟨List.replicate 513 0, 0, true⟩, ⟨[], 0, true⟩)], [], [], true, none, List.replicate 6 640, none⟩,
       .stackRecovery 0 ⟨0xFFFF, [], [(0, ⟨0, 0, 81⟩)], [], true, none, List.replicate 6 640, none⟩,
       .stackRecovery 0 ⟨0xFFFF, [], [], [], true, none, [], none⟩].all (fun i => !i.wellFormed)) = true := by decide +kernel

theorem test_wellFormed_refuses_others :
    [Instr.registerWrite 4 0, .graphLoadComplete 1 none true { Tests.place with near := [9216] },
     .graphLoadComplete 1 none true { Tests.place with near := [0, 0], partner := [0, 0] },
     .graphLoadComplete 1 none true { Tests.place with partner := [] }, .loadWeights (some [0]) true, .setPartitions (some [0]) [],
     .ringEnumeration [(0, 1), (0, 1)], .topologyDiscovery [(0, 1), (0, 1)], .i3cPrivateWrite []].all (fun i => !i.wellFormed) = true := by
  decide +kernel

end
end

section
/-! SUPPORT. Changes made once for each element of a list, and accesses over the management space (R12, R312). -/
namespace Sys2Proof.Machine

/-! ### Changes made once for each element of a list -/

@[simp] theorem forAll_nil {α : Type} (f : α → State → State) (s : State) : forAll [] f s = s := rfl

@[simp] theorem forAll_cons {α : Type} (x : α) (l : List α) (f : α → State → State) (s : State) :
    forAll (x :: l) f s = forAll l f (f x s) := rfl

/-- What every change keeps, all of them keep. -/
theorem forAll_invariant {α : Type} {P : State → Prop} {f : α → State → State} (hf : ∀ x t, P t → P (f x t)) (l : List α) :
    ∀ {s : State}, P s → P (forAll l f s) := by
  induction l with
  | nil => exact id
  | cons x l ih => exact fun h => ih (hf x _ h)

/-- What no change alters reads as before. -/
theorem forAll_frame {α β : Type} (g : State → β) {f : α → State → State} (hf : ∀ x t, g (f x t) = g t) (l : List α) (s : State) :
    g (forAll l f s) = g s :=
  forAll_invariant (P := fun t => g t = g s) (fun x t h => (hf x t).trans h) l rfl

/-- What one element's change brings about, and every change keeps, holds in the end. -/
theorem forAll_establishes {α : Type} {P Q : State → Prop} {f : α → State → State} (hP : ∀ y t, P t → P (f y t))
    (hQ : ∀ y t, Q t → Q (f y t)) {x : α} (hx : ∀ t, P t → Q (f x t)) {l : List α} (h : x ∈ l) :
    ∀ {s : State}, P s → Q (forAll l f s) := by
  induction l with
  | nil => cases h
  | cons y l ih =>
    intro s hs
    rcases List.mem_cons.1 h with rfl | h
    · exact forAll_invariant hQ l (hx s hs)
    · exact ih h (hP y s hs)

@[simp] theorem mem_allStacks (d : Stack) : d ∈ allStacks := List.mem_finRange d

@[simp] theorem stackIx_val (d : Stack) : stackIx d.val = some d := by simp [stackIx]

/-! ### Accesses over the management space (R12) -/

/-- No stack has the die number of a broadcast. -/
theorem stackIx_broadcast : stackIx (0xFF - 1) = none := rfl

theorem readReg_unimplemented {s : State} {a : Nat} (h : regRow a = none) : readReg s a = none := by
  simp [readReg, h]

theorem readReg_broadcast {s : State} {a : Nat} (h : adDie a = 0xFF) : readReg s a = none := by
  unfold readReg
  split
  · rfl
  · rw [h, stackIx_broadcast]; rfl

theorem writeReg_broadcast {s : State} {a : Nat} {v : Word} (h : adDie a = 0xFF)
    (hr : ∃ d : Stack, (regRow (a % 2 ^ 32 + 2 ^ 32 * dieNo d)).isSome = true) :
    writeReg a v s = (.ok, forAll (allStacks.filter (onRing s)) (fun d s =>
      if (regRow (a % 2 ^ 32 + 2 ^ 32 * dieNo d)).isSome then dieWrite d (a % 2 ^ 32 + 2 ^ 32 * dieNo d) v s else s) s) := by
  obtain ⟨d, hd⟩ := hr
  have : ¬(allStacks.all fun d => (regRow (a % 2 ^ 32 + 2 ^ 32 * dieNo d)).isNone) = true := fun hn => by
    rw [Option.isNone_iff_eq_none.1 (List.all_eq_true.1 hn d (mem_allStacks d))] at hd
    cases hd
  unfold writeReg
  rw [if_pos h]
  exact if_neg this

theorem writeReg_broadcast_unimplemented {s : State} {a : Nat} {v : Word} (h : adDie a = 0xFF)
    (hr : ∀ d : Stack, regRow (a % 2 ^ 32 + 2 ^ 32 * dieNo d) = none) : writeReg a v s = (.err, s) := by
  unfold writeReg
  rw [if_pos h]
  exact if_pos (List.all_eq_true.2 fun d _ => by rw [hr d]; rfl)

theorem writeReg_unimplemented {s : State} {a : Nat} {v : Word} (h : adDie a ≠ 0xFF) (hr : regRow a = none) :
    writeReg a v s = (.err, s) := by
  simp [writeReg, h, hr]

/-- A read of eight bytes at a register that answers with the address error has zero data (R12, R312). -/
theorem winRead_unimplemented {s : State} {tag o a : Nat} {e : Stack} (ht : winTarget s o = .reg a) (ho : o % 8 = 0)
    (hr : readReg s a = none) : winRead tag o 8 e s = winAnswer opDone tag 2 0 0 s := by
  simp [winRead, ht, ho, hr, winDone]

/-- Settles O47, clause by clause. -/
theorem broadcastsAndUnimplementedOffsets : Obligations.BroadcastsAndUnimplementedOffsets := by
  unfold Obligations.BroadcastsAndUnimplementedOffsets
  intro s a v
  refine ⟨readReg_broadcast, writeReg_broadcast, writeReg_broadcast_unimplemented, readReg_unimplemented, writeReg_unimplemented, ?_⟩
  intro tag o e hl ht ho hr
  have h := winRead_unimplemented (tag := tag.toNat) (e := e) ht ho hr
  simp only [exec, execWinRead, hl, Bool.not_true, Bool.false_eq_true, if_false, done]
  exact congrArg _ h

end Sys2Proof.Machine
end

section
/-! SUPPORT. Writes of registers (R12, R13), and beats that reach the hub without a transfer (R22, R298). -/
namespace Sys2Proof.Machine

/-! ### What a command does -/

/-- The content of a register after a write by software (R13). -/
theorem getReg_softWrite_same {s : State} {a : Nat} {r : RegRow} (v : Word) (hr : regRow a = some r) (h : s.canon = true) :
    getReg (softWrite a v s) a = ((getReg s a &&& ~~~(r.rw ||| r.rws)) ||| (v &&& (r.rw ||| r.rws))) &&& ~~~(v &&& r.w1c) := by
  simp only [softWrite, hr]
  exact getReg_putReg_same _ _ h

theorem getReg_softWrite_other {s : State} {a b : Nat} (v : Word) (h : b ≠ a) : getReg (softWrite a v s) b = getReg s b := by
  unfold softWrite
  split
  · exact getReg_putReg_other _ h
  · rfl

/-- A write by software changes registers only. -/
theorem softWrite_regs (a : Nat) (v : Word) (s : State) : softWrite a v s = { s with regs := (softWrite a v s).regs } := by
  unfold softWrite
  split <;> rfl

theorem writeReg_hub {s : State} {a : Nat} {v : Word} (h : adDie a = 0) (hr : (regRow a).isSome = true) :
    writeReg a v s = hubWrite a v s := by
  have : (regRow a).isNone = false := by simpa using hr
  simp [writeReg, h, this]

theorem writeReg_stack {s : State} {a : Nat} {v : Word} {d : Stack} (h : adDie a = dieNo d) (hr : (regRow a).isSome = true) :
    writeReg a v s = if onRing s d then (.ok, dieWrite d a v s) else (.err, s) := by
  have hn : (regRow a).isNone = false := by simpa using hr
  have hd : adDie a - 1 = d.val := by rw [h]; rfl
  have := d.isLt
  have h0 : adDie a ≠ 0 := by simp [h, dieNo]
  have h1 : adDie a ≠ 0xFF := by rw [h, dieNo]; omega
  simp [writeReg, h0, h1, hn, hd]

/-- A write to a stack that does not answer on the ring is left alone. -/
theorem writeReg_offRing {s : State} {a : Nat} {v : Word} {d : Stack} (h : adDie a = dieNo d) (ho : onRing s d = false) :
    (writeReg a v s).2 = s := by
  by_cases hr : (regRow a).isSome = true
  · rw [writeReg_stack h hr, ho]; rfl
  · have := d.isLt
    rw [writeReg_unimplemented (by rw [h, dieNo]; omega) (by simpa using hr)]

/-- The registers of a core take a write by software and do no more, except for the error stations. -/
theorem dieWrite_core {s : State} {d : Stack} {a : Nat} {v : Word} (h1 : 0x10 ≤ adBlk a) (h2 : adBlk a < 0x20) (hs : stationAt a = none) :
    dieWrite d a v s = softWrite a v s := by
  have hb : ∀ b off : Nat, b < 256 → off < 2 ^ 24 → adBlk (dieReg d b off) = b := by
    intro b off hb ho
    unfold adBlk dieReg mgmtAddr
    omega
  have apart : ∀ b off : Nat, 0x20 ≤ b → b < 256 ∨ b < 0x10 → off < 2 ^ 24 → a ≠ dieReg d b off := by
    intro b off h3 h4 h5 e
    rw [e, hb b off (by omega) h5] at h1 h2
    omega
  have e1 : a ≠ r_FLASH_LQ d := apart _ _ (by decide) (by decide) (by decide)
  have e2 : a ≠ r_FLASH_CTRL d := apart _ _ (by decide) (by decide) (by decide)
  have e3 : a ≠ r_LP_CTRL d := apart _ _ (by decide) (by decide) (by decide)
  have e4 : a ≠ r_ERR_ESCALATE_die d := fun e => by
    rw [e, r_ERR_ESCALATE_die, hb _ _ (by decide) (by decide)] at h1
    omega
  unfold dieWrite
  simp only [e1, e2, e3, e4, hs, if_false]
  rw [if_neg (by omega), dif_neg (by omega), if_neg (by omega), if_neg (by omega)]

theorem stationAt_hub {a : Nat} (h : adDie a = 0) (hn : a ≠ r_ERR_STATUS_package) : stationAt a = none := by
  simp [stationAt, h, hn]

/-- The registers of the hub for which a write does more than its access codes say. -/
def hubActs (a : Nat) : Prop :=
  (r_HUB_CMD_SLOT 0 ≤ a ∧ a < r_HUB_CMD_SLOT 0 + 0x80) ∨ a = r_BRING_STEP ∨ a = r_EVT_CTRL ∨ a = r_SB_INLET ∨ a = r_SB_INPUT ∨
    (r_SYNC_OBJ 0 ≤ a ∧ a ≤ r_SYNC_OBJ 16383) ∨ a = r_SYNC_SIGNAL ∨ a = r_ERR_STATUS_package

theorem hubWrite_plain {s : State} {a : Nat} {v : Word} (h : adDie a = 0) (ha : ¬hubActs a) : hubWrite a v s = (.ok, softWrite a v s) := by
  simp only [hubActs, not_or] at ha
  obtain ⟨h1, h2, h3, h4, h5, h6, h7, h8⟩ := ha
  simp only [hubWrite, h2, h3, h4, h5, h6, h7, stationAt_hub h h8, if_false]
  exact if_neg fun x => h1 ⟨x.2, x.1⟩

/-- A command's write of a register goes where R12 says. -/
theorem exec_registerWrite (s : State) (a : BitVec 40) (v : Word) : exec (.registerWrite a v) s = .next (writeReg a.toNat v s).2 := rfl

/-- What a plain write leaves: the register's new content, and nothing else changed. -/
theorem plainWrite {s : State} {a : BitVec 40} {v : Word} {r : RegRow} (hs : s.canon = true) (hr : regRow a.toNat = some r)
    (hw : (writeReg a.toNat v s).2 = softWrite a.toNat v s) :
    ∃ t, exec (.registerWrite a v) s = .next t ∧ t = { s with regs := t.regs } ∧
      getReg t a.toNat = ((getReg s a.toNat &&& ~~~(r.rw ||| r.rws)) ||| (v &&& (r.rw ||| r.rws))) &&& ~~~(v &&& r.w1c) ∧
      ∀ b, b ≠ a.toNat → getReg t b = getReg s b :=
  ⟨softWrite a.toNat v s, by rw [exec_registerWrite, hw], softWrite_regs _ _ _, getReg_softWrite_same v hr hs,
    fun _ hb => getReg_softWrite_other v hb⟩

theorem registerWrites_hold : Claims.registerWrites := by
  intro s a v hs n
  refine ⟨⟨_, exec_registerWrite s a v, (writeReg_keeps _ _ (Keeps.refl s)).canon hs⟩, ?_, ?_, ?_, ?_⟩
  · intro hd hr
    rw [exec_registerWrite, writeReg_unimplemented hd hr]
  · intro d h1 hd ho
    have : adDie n = dieNo d := by
      unfold stackIx at hd
      split at hd
      · cases hd; simp only [dieNo]; omega
      · cases hd
    rw [exec_registerWrite, writeReg_offRing this ho]
  · intro r d hr hd h1 h2 hst ho
    refine plainWrite hs hr ?_
    rw [writeReg_stack hd (by rw [hr]; rfl), if_pos ho, dieWrite_core h1 h2 hst]
  · intro r hr hd h1 h2 h3 h4 h5 h6 h7 h8
    refine plainWrite hs hr ?_
    rw [writeReg_hub hd (by rw [hr]; rfl), hubWrite_plain hd]
    simp only [hubActs, not_or]
    exact ⟨h1, h2, h3, h4, h5, h6, h7, h8⟩

/-! ### Hub stack ports (R22) -/

/-- The bits of a station's units in service are the field INSERVICE. -/
theorem inService_iff {s : State} {st : Station} {unit : Nat} (h : unit < 48) :
    inService s st unit = (getF s (stBase st) f_ERR_STATUS_INSERVICE).testBit unit := by
  unfold inService getF fieldOf f_ERR_STATUS_INSERVICE
  rw [Nat.testBit_mod_two_pow, Nat.testBit_div_two_pow, BitVec.getLsbD, Nat.add_comm]
  simp [h]

/-- A write of a field apart from INSERVICE, or of another register, leaves the units in service. -/
theorem inService_putF {s : State} {st : Station} {unit a : Nat} {f : Fld} (n : Nat) (h : unit < 48) (hf : fldFits f)
    (ha : stBase st ≠ a ∨ fldApart f f_ERR_STATUS_INSERVICE) (hs : s.canon = true) :
    inService (putF a f n s) st unit = inService s st unit := by
  rw [inService_iff h, inService_iff h, getF_putF_apart hf ha n hs]

theorem inService_putReg_other {s : State} {st : Station} {unit a : Nat} (v : Word) (h : stBase st ≠ a) :
    inService (putReg s a v) st unit = inService s st unit := by
  unfold inService
  rw [getReg_putReg_other v h]

/-- A unit whose error a station records is in service from then on (R298). -/
theorem inService_storeError {s : State} {st : Station} {unit : Nat} (kind sel info : Nat) (h : unit < 48) (hs : s.canon = true) :
    inService (storeError st unit kind sel info s) st unit = true := by
  have hb : inService (putReg s (stBase st) (getReg s (stBase st) ||| BitVec.ofNat 64 (2 ^ (16 + unit)))) st unit = true := by
    unfold inService
    rw [getReg_putReg_same _ _ hs, BitVec.getLsbD_or, BitVec.getLsbD_ofNat, Nat.testBit_two_pow_self]
    simp; omega
  unfold storeError
  dsimp only
  have filed : ∀ u : State, u.canon = true → inService u st unit = true →
      inService (if getF u (stBase st) f_ERR_STATUS_PV = 0 then
          putF (stBase st) f_ERR_STATUS_PV 1 (putReg u (stBase st + 0x08) (errWord unit kind sel info))
        else if getF u (stBase st) f_ERR_STATUS_SV = 0 then
          putF (stBase st) f_ERR_STATUS_SV 1 (putReg u (stBase st + 0x10) (errWord unit kind sel info))
        else bumpF (stBase st + 0x18) f_ERR_OVERFLOW_COUNT 1 u) st unit = true := by
    intro u hc hi
    split
    · rw [inService_putF _ h (by decide) (.inr (by decide)) (canon_putReg _ _ hc), inService_putReg_other _ (by omega), hi]
    · split
      · rw [inService_putF _ h (by decide) (.inr (by decide)) (canon_putReg _ _ hc), inService_putReg_other _ (by omega), hi]
      · rw [bumpF, inService_putF _ h (by decide) (.inl (by omega)) hc, hi]
  have hc := canon_putReg (stBase st) (getReg s (stBase st) ||| BitVec.ofNat 64 (2 ^ (16 + unit))) hs
  refine filed _ ?_ ?_
  · split
    · exact (mk_keeps.2 (Keeps.refl _)).canon hc
    · exact hc
  · split <;> exact hb

/-- The package station records an error of a unit that is not in service (R298). -/
theorem packageErr_stores {s : State} {d : Stack} (kind info : Nat) (h : inService s .package d.val = false) :
    packageErr d kind info s = storeError .package d.val kind 0 info s := by
  simp [packageErr, recordErr, recordUp, countRound, stDie, h]

/-- A recorded error changes registers and the list of new errors only. -/
theorem storeError_frame (st : Station) (unit kind sel info : Nat) (s : State) :
    storeError st unit kind sel info s = { s with
      regs := (storeError st unit kind sel info s).regs,
      hub := { s.hub with errNew := (storeError st unit kind sel info s).hub.errNew } } := by
  unfold storeError
  dsimp only
  repeat' split
  all_goals rfl

theorem mem_noteXferErr (id : Nat) (s : State) : id ∈ (noteXferErr id s).hub.xferErr := by
  by_cases h : id ∈ s.hub.xferErr <;> simp [noteXferErr, updHub, h]

theorem hubBeats_hold : Claims.hubBeats := by
  intro s d f rest hs p known
  have hp : p.canon = true := (mk_keeps.2 (Keeps.refl s)).canon hs
  refine ⟨fun ht => ?_, fun ht => ?_⟩
  · have he : exec (.hubPortBeat d) s = .next (if f.transit && s.hub.xfers.any (fun x => x.id == f.xfer) then
        (if f.beat.err then noteXferErr f.xfer p else p) else packageErr d kTransit 0 p) := by
      simp only [exec, execHubPortBeat, ht, done]
      split <;> rfl
    have hk : (f.transit && s.hub.xfers.any fun x => x.id == f.xfer) = true ↔ known := by simp [known]
    refine ⟨fun h e => ?_, fun h e => ?_, fun h => ⟨?_, fun hi => ?_⟩⟩
    · rw [he, if_pos (hk.2 h), e]; rfl
    · exact ⟨noteXferErr f.xfer p, by rw [he, if_pos (hk.2 h), e]; rfl, mem_noteXferErr _ _, rfl⟩
    · rw [he, if_neg fun x => h (hk.1 x)]
    · rw [packageErr_stores (s := p) _ _ hi]
      exact ⟨inService_storeError _ _ _ (by omega) hp, (congrArg State.svc (storeError_frame ..)).trans rfl,
        (congrArg State.mem (storeError_frame ..)).trans rfl⟩
  · simp only [exec, execHubPortBeat, ht, done]

end Sys2Proof.Machine
end

section
/-! SUPPORT. A die's slot of the management ring (R26, R242): what accesses to memory leave of its traffic, and what it exchanges. -/
namespace Sys2Proof.Machine

/-! ### The management ring's order (R26) -/

theorem onRing_of_nextOnRing {s : State} {d : Stack} (h : nextOnRing s = some d) : onRing s d = true := by
  unfold nextOnRing at h
  split at h
  · next he =>
    cases h
    have := List.find?_some he
    simp only [Bool.and_eq_true] at this
    exact this.2
  · exact List.find?_some h

/-- A stack on the ring whose turn it is comes next. -/
theorem nextOnRing_at {s : State} {d : Stack} (ho : onRing s d = true) (hp : s.hub.ringPos = d.val) : nextOnRing s = some d := by
  have : allStacks.find? (fun e => decide (s.hub.ringPos ≤ e.val) && onRing s e) = some d := by
    refine List.find?_eq_some_iff_getElem.2 ⟨by simp [ho, hp], d.val, by simp [allStacks], by simp [allStacks], fun j hj => ?_⟩
    simp [allStacks, hp, hj]
  simp [nextOnRing, this]

/-! ### What accesses to memory leave of the ring's traffic -/

/-- `s` has the changes of objects that wait, at the dispatcher and on every die, and the ring's position, of `z`. -/
structure RingFrame (z s : State) : Prop where
  canon : z.canon = true → s.canon = true
  changes : s.svc.changes = z.svc.changes
  position : s.hub.ringPos = z.hub.ringPos
  forward : z.canon = true → ∀ d, (getDie s d).forward = (getDie z d).forward

theorem RingFrame.refl (s : State) : RingFrame s s := ⟨id, rfl, rfl, fun _ _ => rfl⟩

section
variable {z s : State}

/-- A change of other parts of the module. -/
theorem RingFrame.of {t : State} (h : RingFrame z s) (k : Keeps s t) (hd : t.dies = s.dies) (hc : t.svc.changes = s.svc.changes)
    (hp : t.hub.ringPos = s.hub.ringPos) : RingFrame z t where
  canon hz := k.canon (h.canon hz)
  changes := hc.trans h.changes
  position := hp.trans h.position
  forward hz d := by
    rw [show getDie t d = getDie s d by unfold getDie; rw [hd]]
    exact h.forward hz d

theorem putReg_ringFrame (a : Nat) (v : Word) (h : RingFrame z s) : RingFrame z (putReg s a v) :=
  h.of (putReg_keeps a v (Keeps.refl s)) rfl rfl rfl

theorem putF_ringFrame (a : Nat) (f : Fld) (n : Nat) (h : RingFrame z s) : RingFrame z (putF a f n s) := putReg_ringFrame _ _ h

theorem bumpF_ringFrame (a : Nat) (f : Fld) (n : Nat) (h : RingFrame z s) : RingFrame z (bumpF a f n s) := putReg_ringFrame _ _ h

theorem satF_ringFrame (a : Nat) (f : Fld) (n : Nat) (h : RingFrame z s) : RingFrame z (satF a f n s) := putReg_ringFrame _ _ h

theorem updVc_ringFrame (d : Stack) (c : CoreIx) (f : Vc → Vc) (h : RingFrame z s) : RingFrame z (updVc d c f s) :=
  h.of (updVc_keeps d c f (Keeps.refl s)) rfl rfl rfl

theorem updLp_ringFrame (d : Stack) (f : Lp → Lp) (h : RingFrame z s) : RingFrame z (updLp d f s) :=
  h.of (updLp_keeps d f (Keeps.refl s)) rfl rfl rfl

theorem updSvc_ringFrame {f : Svc → Svc} (hf : ∀ v, (f v).changes = v.changes) (h : RingFrame z s) : RingFrame z (updSvc f s) :=
  h.of (updSvc_keeps f (Keeps.refl s)) rfl (hf _) rfl

theorem updDie_ringFrame (e : Stack) {f : Die → Die} (hf : ∀ y, (f y).forward = y.forward) (h : RingFrame z s) :
    RingFrame z (updDie e f s) where
  canon hz := canon_updDie e f (h.canon hz)
  changes := h.changes
  position := h.position
  forward hz d := by
    by_cases hd : d = e
    · subst hd
      rw [getDie_updDie_same _ _ (h.canon hz), hf, h.forward hz]
    · rw [getDie_updDie_other _ hd, h.forward hz]

theorem writeMem_ringFrame (n : Nat) : ∀ (k v : Nat) {s : State}, RingFrame z s → RingFrame z (writeMem k n v s) := by
  induction n with
  | zero => exact fun _ _ _ h => h
  | succ n ih => exact fun k v s h => ih _ _ (h.of (writeByte_keeps k _ (Keeps.refl s)) rfl rfl rfl)

theorem writeChk_ringFrame (k : Nat) (v : BitVec 64) (h : RingFrame z s) : RingFrame z (writeChk k v s) :=
  h.of (writeChk_keeps k v (Keeps.refl s)) rfl rfl rfl

theorem writeWord_ringFrame (k : Nat) (w : CodeWord) (h : RingFrame z s) : RingFrame z (writeWord k w s) := by
  unfold writeWord
  exact writeChk_ringFrame _ _ (writeMem_ringFrame _ _ _ h)

/-! #### Errors -/

theorem storeError_ringFrame (st : Station) (unit kind sel info : Nat) (h : RingFrame z s) :
    RingFrame z (storeError st unit kind sel info s) := by
  have e := storeError_frame st unit kind sel info s
  refine h.of (storeError_keeps _ _ _ _ _ (Keeps.refl s)) ?_ ?_ ?_ <;> rw [e]

theorem countRound_ringFrame (st : Station) (kind : Nat) (h : RingFrame z s) : RingFrame z (countRound st kind s) := by
  unfold countRound
  split
  · split
    · exact h
    · exact satF_ringFrame _ _ _ h
  · exact h

theorem stopPartition_ringFrame (d : Stack) (h : RingFrame z s) : RingFrame z (stopPartition d s) := by
  unfold stopPartition
  dsimp only
  split
  · exact updDie_ringFrame d (fun _ => rfl) (putF_ringFrame _ _ _ h)
  · exact putF_ringFrame _ _ _ h

theorem postSuspect_ringFrame (st : Station) (h : RingFrame z s) : RingFrame z (postSuspect st s) :=
  h.of (postSuspect_keeps st (Keeps.refl s)) rfl rfl rfl

theorem containment_ringFrame (parent : Station) (h : RingFrame z s) : RingFrame z (containment parent s) := by
  unfold containment
  split
  · exact postSuspect_ringFrame _ (stopPartition_ringFrame _ h)
  · exact postSuspect_ringFrame _ (stopPartition_ringFrame _ h)
  · exact h

theorem recordUp_ringFrame (n : Nat) : ∀ (st : Station) (unit kind sel info : Nat) {s : State}, RingFrame z s →
    RingFrame z (recordUp n st unit kind sel info s) := by
  induction n with
  | zero => exact fun _ _ _ _ _ _ h => h
  | succ n ih =>
    intro st unit kind sel info s h
    have sent : RingFrame z (countSent st unit s) := putF_ringFrame _ _ _ (satF_ringFrame _ _ _ h)
    unfold recordUp
    split
    · dsimp only
      split
      · exact containment_ringFrame _ (ih _ _ _ _ _ (satF_ringFrame _ _ _ sent))
      · split
        · exact updDie_ringFrame _ (fun _ => rfl) sent
        · exact sent
    · exact countRound_ringFrame _ _ (storeError_ringFrame _ _ _ _ _ h)

theorem requestSegment_ringFrame (d : Stack) (n : Nat) (h : RingFrame z s) : RingFrame z (requestSegment d n s) := by
  unfold requestSegment
  split
  · split
    · exact putF_ringFrame _ _ _ h
    · exact h
  · exact h

theorem uMark_ringFrame (d : Stack) (u : Fin 17) (a : Nat) (h : RingFrame z s) : RingFrame z (uMark d u a s) := by
  unfold uMark
  split
  · dsimp only [markRow]
    split
    · exact h
    · exact requestSegment_ringFrame _ _ (updVc_ringFrame _ _ _ h)
  · unfold lpMark
    split
    · split
      · exact h
      · exact requestSegment_ringFrame _ _ (updLp_ringFrame _ _ h)
    · exact h

theorem uBad_ringFrame (d : Stack) (u : Fin 17) (a : Nat) (o : CodeOutcome) (h : RingFrame z s) : RingFrame z (uBad d u a o s) := by
  unfold uBad
  dsimp only
  split
  · exact uMark_ringFrame _ _ _ (recordUp_ringFrame _ _ _ _ _ _ h)
  · exact recordUp_ringFrame _ _ _ _ _ _ h

/-! #### Code words -/

theorem countWord_ringFrame (a : Nat) (o : CodeOutcome) (h : RingFrame z s) : RingFrame z (countWord a o s) := by
  cases o
  case clean => exact h
  all_goals exact bumpF_ringFrame _ _ _ h

theorem uRead_ringFrame (d : Stack) (u : Fin 17) (a : Nat) (e : Upsets) (h : RingFrame z s) : RingFrame z (uRead d u a e s).2 := by
  unfold uRead
  split
  · split
    · dsimp only [vaultRead, countLanes]
      exact updVc_ringFrame _ _ _ (countWord_ringFrame _ _ h)
    · exact h
  · unfold lpRead
    split
    · exact h
    · split
      · exact h
      · dsimp only
        split
        · exact updLp_ringFrame _ _ (countWord_ringFrame _ _ h)
        · exact countWord_ringFrame _ _ h

theorem storeBankWord_ringFrame (d : Stack) (c : CoreIx) (j off who : Nat) (w : CodeWord) (h : RingFrame z s) :
    RingFrame z (storeBankWord d c j off who w s) := by
  unfold storeBankWord
  dsimp only
  split
  · exact writeWord_ringFrame _ _ (putF_ringFrame _ _ _ (updVc_ringFrame _ _ _ h))
  · exact writeWord_ringFrame _ _ (updVc_ringFrame _ _ _ h)

theorem storeLpWord_ringFrame (d : Stack) (ch row sec who : Nat) (w : CodeWord) (h : RingFrame z s) :
    RingFrame z (storeLpWord d ch row sec who w s) := by
  unfold storeLpWord
  dsimp only
  split
  · exact writeWord_ringFrame _ _ (putF_ringFrame _ _ _ (updLp_ringFrame _ _ h))
  · exact writeWord_ringFrame _ _ (updLp_ringFrame _ _ h)

theorem uStore_ringFrame (d : Stack) (u : Fin 17) (a who : Nat) (v : BitVec 512) (h : RingFrame z s) :
    RingFrame z (uStore d u a who [] v s) := by
  unfold uStore
  split
  · split
    · exact storeBankWord_ringFrame _ _ _ _ _ _ h
    · exact h
  · unfold lpStore
    split
    · exact h
    · split
      · exact h
      · exact storeLpWord_ringFrame _ _ _ _ _ _ h

theorem uPoison_ringFrame (d : Stack) (u : Fin 17) (a : Nat) (v : BitVec 512) (h : RingFrame z s) : RingFrame z (uPoison d u a v s) := by
  unfold uPoison
  split
  · split
    · exact storeBankWord_ringFrame _ _ _ _ _ _ h
    · exact h
  · unfold lpPoison
    split
    · exact h
    · exact storeLpWord_ringFrame _ _ _ _ _ _ h

theorem setMerge_ringFrame (d : Stack) (u : Fin 17) (m : List MergeEntry) (h : RingFrame z s) : RingFrame z (setMerge d u m s) := by
  unfold setMerge
  split
  · exact updVc_ringFrame _ _ _ h
  · exact updLp_ringFrame _ _ h

/-! #### Writes of the hub -/

theorem rmwWord_ringFrame (d : Stack) (u : Fin 17) (a : Nat) (mask : BitVec 64) (data : BitVec 512) (h : RingFrame z s) :
    RingFrame z (rmwWord d u a mask [] data s) := by
  have hr := uRead_ringFrame d u a [] h
  unfold rmwWord
  split
  · next e => rw [e] at hr; exact hr
  · next e =>
    rw [e] at hr
    dsimp only
    split
    · exact uPoison_ringFrame _ _ _ _ (uBad_ringFrame _ _ _ _ hr)
    · exact uStore_ringFrame _ _ _ _ _ hr

theorem writeBack_ringFrame (d : Stack) (u : Fin 17) (e : MergeEntry) (h : RingFrame z s) : RingFrame z (writeBack d u e [] s) := by
  unfold writeBack
  dsimp only
  split
  · exact satF_ringFrame _ _ _ (uStore_ringFrame _ _ _ _ _ (setMerge_ringFrame _ _ _ h))
  · exact satF_ringFrame _ _ _ (rmwWord_ringFrame _ _ _ _ _ (setMerge_ringFrame _ _ _ h))

theorem mergeWrite_ringFrame (d : Stack) (u : Fin 17) (a : Nat) (mask : BitVec 64) (data : BitVec 512) (h : RingFrame z s) :
    RingFrame z (mergeWrite d u a mask data s) := by
  unfold mergeWrite
  dsimp only
  split
  · split
    · exact writeBack_ringFrame _ _ _ h
    · exact setMerge_ringFrame _ _ _ h
  · have room : RingFrame z (match uMerge s d u with
        | o :: _ => if 16 ≤ (uMerge s d u).length then writeBack d u o [] s else s
        | [] => s) := by
      split
      · split
        · exact writeBack_ringFrame _ _ _ h
        · exact h
      · exact h
    split
    · exact writeBack_ringFrame _ _ _ room
    · exact setMerge_ringFrame _ _ _ room

theorem hostWriteWord_ringFrame (d : Stack) (u : Fin 17) (w a n v : Nat) (h : RingFrame z s) :
    RingFrame z (hostWriteWord d u w a n v [] s) := by
  unfold hostWriteWord
  dsimp only
  split
  · exact mergeWrite_ringFrame _ _ _ _ _ h
  · split
    · exact uStore_ringFrame _ _ _ _ _ h
    · exact rmwWord_ringFrame _ _ _ _ _ h

theorem slotWrite_ringFrame (g : Graph) (e slot b n v : Nat) (h : RingFrame z s) : RingFrame z (slotWrite g e slot b n v s) := by
  unfold slotWrite grpWrite
  split
  · exact forAll_invariant (fun _ _ hx => forAll_invariant (fun _ _ => hostWriteWord_ringFrame _ _ _ _ _ _) _ hx) _ h
  · exact h

/-! #### Retired frames (R296) -/

theorem startMove_ringFrame (k e sl dstTier dst : Nat) (h : RingFrame z s) : RingFrame z (startMove k e sl dstTier dst s) := by
  unfold startMove
  split
  · exact h
  · exact updSvc_ringFrame (fun _ => rfl) (slotWrite_ringFrame _ _ _ _ _ _ h)

theorem updGraph_ringFrame (k : Nat) (f : Graph → Graph) (h : RingFrame z s) : RingFrame z (updGraph k f s) := by
  unfold updGraph
  split
  · exact updSvc_ringFrame (fun _ => rfl) h
  · exact h

theorem pickFree_ringFrame (used : List Nat) (n : Nat) (h : RingFrame z s) : RingFrame z (pickFree used n s).2 := by
  unfold pickFree
  dsimp only
  split
  · exact h
  · exact h.of (mk_keeps.2 (Keeps.refl s)) rfl rfl rfl

theorem leaveFrame_ringFrame (k e sl : Nat) (h : RingFrame z s) : RingFrame z (leaveFrame k e sl s) := by
  unfold leaveFrame
  split
  · exact h
  · next g _ =>
    dsimp only
    split
    · exact h
    · split
      · have hp := pickFree_ringFrame (usedVault s g e) g.place.nframes h
        split
        · next he => rw [he] at hp; exact startMove_ringFrame _ _ _ _ _ (updGraph_ringFrame _ _ hp)
        · next he => rw [he] at hp; exact hp
      · have hp := pickFree_ringFrame (usedLp s g (nearGrp g e / 384)) g.place.nlp h
        split
        · next he => rw [he] at hp; exact startMove_ringFrame _ _ _ _ _ (updGraph_ringFrame _ _ hp)
        · next he => rw [he] at hp; exact hp

theorem leaveRetired_ringFrame (d : Stack) (h : RingFrame z s) : RingFrame z (leaveRetired d s) := by
  unfold leaveRetired
  refine forAll_invariant (fun k t ht => ?_) _ h
  split
  · exact ht
  · exact forAll_invariant (fun e u hu => forAll_invariant (fun sl _ => leaveFrame_ringFrame _ _ _) _ hu) _ ht

end

/-! ### A die's slot of the ring -/

/-- Changes of objects go to the dispatcher one by one, each with the value that its object has. -/
theorem forAll_appendChange (d : Stack) (l : List Nat) : ∀ s : State,
    forAll l (fun i s => updSvc (fun v => { v with changes := v.changes ++ [(localKey d i, objValue s (localKey d i))] }) s) s =
      updSvc (fun v => { v with changes := v.changes ++ l.map fun i => (localKey d i, objValue s (localKey d i)) }) s := by
  induction l with
  | nil => intro s; simp [updSvc]
  | cons i l ih =>
    intro s
    rw [forAll_cons, ih]
    simp [updSvc, objValue, getReg]

theorem forwardObjs_eq (d : Stack) (s : State) : forwardObjs d s =
    updSvc (fun v => { v with changes := v.changes ++ (getDie s d).forward.map fun i => (localKey d i, objValue s (localKey d i)) })
      (updDie d (fun y => { y with forward := [] }) s) :=
  forAll_appendChange d _ _

/-- The die of a device address is known from the registers. -/
theorem addrDie_congr {s t : State} (h : t.regs = s.regs) (a : Nat) : addrDie t a = addrDie s a := by
  unfold addrDie devTarget lpCapacity lpActive lpFailures lpChanFailed lpBounds lpCode lpRegion regionOf regions getF getReg
  rw [h]

/-- The state in which a die's slot has handed its objects' changes on, and no error or fault of the die waits. -/
def exchanged (d : Stack) (s : State) : State := updDie d (fun y => { y with escal := [], ownFault := none }) (forwardObjs d s)

/-- With nothing else to exchange, a die's slot hands its objects' changes on and moves pages off retired frames. -/
theorem ringSlot_quiet {s : State} {d : Stack} (he : (getDie s d).escal = []) (hf : (getDie s d).ownFault = none)
    (hb : ∀ x ∈ s.hub.badWords, addrDie s x.1 ≠ some d) (hl : d.val ∉ s.hub.lpLost) :
    ringSlot d s = leaveRetired d (updHub (fun h => { h with badWords := h.badWords.filter fun x => addrDie s x.1 != some d })
      (exchanged d s)) := by
  have hh : (exchanged d s).hub = s.hub := by rw [exchanged, forwardObjs_eq]; rfl
  have ha : ∀ a, addrDie (exchanged d s) a = addrDie s a := fun a => addrDie_congr (by rw [exchanged, forwardObjs_eq]; rfl) a
  have hm : (s.hub.badWords.filter fun x => addrDie s x.1 == some d) = [] := List.filter_eq_nil_iff.2 fun x hx => by simpa using hb x hx
  unfold ringSlot
  simp only [he, hf]
  rw [← exchanged]
  simp only [hh, ha, hm, forAll_nil]
  rw [if_neg (by simpa [updHub, hh] using hl)]

theorem exchanged_spec {s : State} (d : Stack) (hs : s.canon = true) :
    (exchanged d s).canon = true ∧ (getDie (exchanged d s) d).forward = [] ∧
      (exchanged d s).svc.changes = s.svc.changes ++ (getDie s d).forward.map fun i => (localKey d i, objValue s (localKey d i)) := by
  have hc : (forwardObjs d s).canon = true := (forwardObjs_keeps d (Keeps.refl s)).canon hs
  have hf : (getDie (forwardObjs d s) d).forward = [] := by
    rw [forwardObjs_eq]
    exact congrArg Die.forward (getDie_updDie_same d (fun y => { y with forward := [] }) hs)
  refine ⟨canon_updDie _ _ hc, ?_, ?_⟩
  · rw [exchanged, getDie_updDie_same _ _ hc]
    exact hf
  · rw [exchanged, forwardObjs_eq]; rfl

/-- A die's slot with nothing but changes of objects to exchange (R242). -/
theorem ringSlot_forwards {s : State} {d : Stack} (hs : s.canon = true) (he : (getDie s d).escal = []) (hf : (getDie s d).ownFault = none)
    (hb : ∀ x ∈ s.hub.badWords, addrDie s x.1 ≠ some d) (hl : d.val ∉ s.hub.lpLost) :
    (ringSlot d s).hub.ringPos = s.hub.ringPos ∧ (getDie (ringSlot d s) d).forward = [] ∧
      (ringSlot d s).svc.changes = s.svc.changes ++ (getDie s d).forward.map fun i => (localKey d i, objValue s (localKey d i)) := by
  obtain ⟨hc, hfw, hch⟩ := exchanged_spec d hs
  have hp : (exchanged d s).hub.ringPos = s.hub.ringPos := by rw [exchanged, forwardObjs_eq]; rfl
  have hr := leaveRetired_ringFrame d (RingFrame.refl
    (updHub (fun h => { h with badWords := h.badWords.filter fun x => addrDie s x.1 != some d }) (exchanged d s)))
  rw [ringSlot_quiet he hf hb hl]
  exact ⟨hr.position.trans hp, (hr.forward (canon_updHub _ hc) d).trans hfw, hr.changes.trans hch⟩

theorem ringSlots_hold : Claims.ringSlots := by
  intro s d hs
  have he : exec (.managementRingSlot d) s =
      if nextOnRing s = some d then .next (ringSlot d (updHub (fun h => { h with ringPos := d.val + 1 }) s)) else .next s := rfl
  refine ⟨nextOnRing_at, fun ho => ?_, fun hn => ?_, fun hn => ?_, fun hn hescal hfault hbad hlost => ?_⟩
  · rw [he, if_neg fun hn => by rw [onRing_of_nextOnRing hn] at ho; cases ho]
  · rw [he, if_neg hn]
  · exact ⟨_, by rw [he, if_pos hn], (ringSlot_keeps d (Keeps.refl _)).canon (canon_updHub _ hs)⟩
  · exact ⟨_, by rw [he, if_pos hn], ringSlot_forwards (s := updHub (fun h => { h with ringPos := d.val + 1 }) s) (canon_updHub _ hs) hescal
      hfault (fun x hx h => hbad x hx ((addrDie_congr (s := s) rfl x.1).symm.trans h)) hlost⟩

/-- Settles O31: register writes, ring slots and stray beats. -/
theorem registersAndRingExchange : Obligations.RegistersAndRingExchange := ⟨registerWrites_hold, ringSlots_hold, hubBeats_hold⟩

end Sys2Proof.Machine
end

section
/-! SUPPORT. Bring-up: the end of a step (R355), what events leave alone, and step 1 (R356). -/
namespace Sys2Proof.Machine

/-! ### The end of a step (R355) -/

/-- A field of a register's content that is known as a number. -/
theorem fieldOf_ofNat (f : Fld) {v : Nat} (h : v < 2 ^ 64) : fieldOf f (BitVec.ofNat 64 v) = v / 2 ^ f.lo % 2 ^ f.width := by
  rw [fieldOf, BitVec.toNat_ofNat, Nat.mod_eq_of_lt h]

/-- BRING_STATUS at the end of a step. -/
def bringWord (step state fr code die unit ms : Nat) : Nat :=
  step + 0x100 * state + 0x400 * fr + 2 ^ 16 * (code % 256) + 2 ^ 24 * (die % 256) + 2 ^ 32 * (unit % 256) + 2 ^ 48 * min ms 0xFFFF

theorem bringWord_fields {step state fr : Nat} (code die unit ms : Nat) (h1 : step < 256) (h2 : state < 4) (h3 : fr < 4) :
    let v := BitVec.ofNat 64 (bringWord step state fr code die unit ms)
    fieldOf f_BRING_STATUS_STEP v = step ∧ fieldOf f_BRING_STATUS_STATE v = state ∧ fieldOf f_BRING_STATUS_CODE v = code % 256 ∧
      fieldOf f_BRING_STATUS_DIE v = die % 256 ∧ fieldOf f_BRING_STATUS_UNIT v = unit % 256 := by
  have hm : min ms 0xFFFF ≤ 0xFFFF := Nat.min_le_right _ _
  have hv : bringWord step state fr code die unit ms < 2 ^ 64 := by unfold bringWord; omega
  simp only [fieldOf_ofNat _ hv]
  simp only [bringWord, f_BRING_STATUS_STEP, f_BRING_STATUS_STATE, f_BRING_STATUS_CODE, f_BRING_STATUS_DIE, f_BRING_STATUS_UNIT]
  omega

/-- A step that ends shows its number, its state and its outcome in BRING_STATUS. -/
theorem endBring_status {s : State} (code die unit ms : Nat) (hs : s.canon = true) :
    let t := endBring code die unit ms s
    bringF t f_BRING_STATUS_STEP = bringF s f_BRING_STATUS_STEP ∧ bringF t f_BRING_STATUS_STATE = (if code ≤ 1 then 2 else 3) ∧
      bringF t f_BRING_STATUS_CODE = code % 256 ∧ bringF t f_BRING_STATUS_DIE = die % 256 ∧ bringF t f_BRING_STATUS_UNIT = unit % 256 := by
  have hr : getReg (endBring code die unit ms s) r_BRING_STATUS = BitVec.ofNat 64 (bringWord (bringF s f_BRING_STATUS_STEP)
      (if code ≤ 1 then 2 else 3) (bringF s f_BRING_STATUS_FR) code die unit ms) := getReg_putReg_same _ _ hs
  simp only [bringF, getF] at hr ⊢
  rw [hr]
  exact bringWord_fields _ _ _ _ (fieldOf_lt _ _) (by split <;> omega) (fieldOf_lt _ _)

theorem stepsEnd_hold : Claims.stepsEnd := by
  intro s ms c d u hs hr
  constructor
  · intro ho
    obtain ⟨hstep, hstate, hcode, hdie, hunit⟩ := endBring_status c d u ms hs
    refine ⟨endBring c d u ms s, ?_, hcode, hdie, hunit, rfl, hstep, fun hc => ⟨?_, ?_⟩, fun hc => ⟨?_, ?_⟩⟩
    · simp only [exec, execBringStepDone, ho, hr, if_true, done]
    · rw [hstate, if_pos hc]
    · exact if_pos hc
    · rw [hstate, if_neg (by omega)]
    · exact if_neg (by omega)
  · obtain ⟨-, hstate, hcode, -, -⟩ := endBring_status bcTimeout 0 0 ms hs
    exact ⟨endBring bcTimeout 0 0 ms s, if_pos hr, hstate, hcode, rfl⟩

/-! ### Events -/

/-- An event leaves every part of the module but the hub and EVT_STATUS, to which its record goes. -/
structure EventFrame (s t : State) : Prop where
  present : t.present = s.present
  bring : t.bring = s.bring
  reg : ∀ a, a ≠ r_EVT_STATUS → getReg t a = getReg s a

theorem EventFrame.refl (s : State) : EventFrame s s := ⟨rfl, rfl, fun _ _ => rfl⟩

theorem EventFrame.trans {s t u : State} (h : EventFrame s t) (k : EventFrame t u) : EventFrame s u :=
  ⟨k.present.trans h.present, k.bring.trans h.bring, fun a ha => (k.reg a ha).trans (h.reg a ha)⟩

theorem updHub_eventFrame (f : Hub → Hub) (s : State) : EventFrame s (updHub f s) := ⟨rfl, rfl, fun _ _ => rfl⟩

theorem sendMsg_eventFrame (m : OutMsg) (s : State) : EventFrame s (sendMsg m s) := updHub_eventFrame _ s

theorem putF_eventFrame (f : Fld) (n : Nat) (s : State) : EventFrame s (putF r_EVT_STATUS f n s) :=
  ⟨rfl, rfl, fun _ ha => getReg_putF_other _ _ ha⟩

theorem dropEvent_eventFrame (s : State) : EventFrame s (dropEvent s) := (putF_eventFrame _ _ s).trans (updHub_eventFrame _ _)

theorem signalMsi_eventFrame (s : State) : EventFrame s (signalMsi s) := by
  unfold signalMsi
  split
  · exact .refl s
  · split
    · exact updHub_eventFrame _ s
    · exact (sendMsg_eventFrame _ s).trans (updHub_eventFrame _ _)

theorem writeEvent_eventFrame (e : EventRec) (s : State) : EventFrame s (writeEvent e s) := by
  unfold writeEvent
  dsimp only
  split
  · exact dropEvent_eventFrame s
  · refine EventFrame.trans ?_ (signalMsi_eventFrame _)
    exact (sendMsg_eventFrame _ s).trans ((updHub_eventFrame _ _).trans ((sendMsg_eventFrame _ _).trans (putF_eventFrame _ _ _)))

theorem postEvent_eventFrame (code subject data : Nat) (s : State) : EventFrame s (postEvent code subject data s) := by
  have h := updHub_eventFrame (fun h => { h with eseq := (h.eseq + 1) % 2 ^ 32 }) s
  unfold postEvent
  dsimp only
  split
  · exact h.trans (dropEvent_eventFrame _)
  · split
    · exact h.trans (writeEvent_eventFrame _ _)
    · split
      · exact h.trans ((updHub_eventFrame _ _).trans (putF_eventFrame _ _ _))
      · exact h.trans (dropEvent_eventFrame _)

theorem flushEvents_eventFrame (s : State) : EventFrame s (flushEvents s) :=
  ((updHub_eventFrame _ s).trans (forAll_invariant (P := EventFrame _) (fun e _ h => h.trans (writeEvent_eventFrame e _)) _ (.refl _))).trans
    (putF_eventFrame _ _ _)

/-! ### Step 1 (R356) -/

@[simp] theorem getReg_outcome (code die unit : Nat) (s : State) (a : Nat) : getReg (outcome code die unit s) a = getReg s a := rfl

@[simp] theorem getF_outcome (code die unit : Nat) (s : State) (a : Nat) (f : Fld) : getF (outcome code die unit s) a f = getF s a f := rfl

theorem camnerTrain_trains {s : State} (w : Fin 3) (hs : s.canon = true) (hb : bringAt s 1 = true) :
    ∃ t, exec (.camnerTrain (some w)) s = .next t ∧ getF t r_CAMNER_STATUS f_CAMNER_STATUS_STATE = 3 ∧
      getF t r_CAMNER_STATUS f_CAMNER_STATUS_WIDTH = (if w = 0 then 0 else 1) ∧
      t.bring.outcome = some (if w = 0 then bcOk else bcDegraded, 0, 0) := by
  let u := putF r_CAMNER_STATUS f_CAMNER_STATUS_STATE 3 (updCam (fun c => { c with fullRate := true, flits := FlitSide.reset }) s)
  let x := putF r_CAMNER_STATUS f_CAMNER_STATUS_WIDTH (if w = 0 then 0 else 1) u
  let y := putF r_CAMNER_STATUS f_CAMNER_STATUS_UPPER (if w = 2 then 1 else 0) x
  have hc : (updCam (fun c => { c with fullRate := true, flits := FlitSide.reset }) s).canon = true := (updCam_keeps _ (Keeps.refl s)).canon hs
  have hu : u.canon = true := canon_putF _ _ _ hc
  have hx : x.canon = true := canon_putF _ _ _ hu
  have hf : ∀ f, getF (flushEvents y) r_CAMNER_STATUS f = getF y r_CAMNER_STATUS f := fun f =>
    congrArg (fieldOf f) ((flushEvents_eventFrame y).reg _ (by decide))
  refine ⟨outcome (if w = 0 then bcOk else bcDegraded) 0 0 (flushEvents y), ?_, ?_, ?_, rfl⟩
  · simp only [exec, execCamnerTrain, hb, Bool.not_true, Bool.false_eq_true, if_false]
    rfl
  · rw [getF_outcome, hf, getF_putF_field (by decide) (by decide) _ hx,
      getF_putF_field (by decide) (by decide) _ hu, getF_putF_same (by decide) _ hc]
    rfl
  · rw [getF_outcome, hf, getF_putF_field (by decide) (by decide) _ hx,
      getF_putF_same (by decide) _ hu]
    split <;> rfl

end Sys2Proof.Machine
end

section
/-! SUPPORT. Bring-up, steps 3 to 7 (R358, R360, R363): what is found, and the outcome of what was found. -/
namespace Sys2Proof.Machine

/-! ### The found topology descriptor -/

theorem srising_topo {s : State} (h : s.canon = true) : srising s.topo = true := by
  obtain ⟨-, -, -, -, -, -, -, -, -, -, ht, -⟩ := canon_iff.1 h
  exact (canonical_iff.1 ht).1

theorem canon_putTopo {s : State} (i v : Nat) (h : s.canon = true) : (putTopo i v s).canon = true :=
  (putTopo_keeps i v (Keeps.refl s)).canon h

theorem topoByte_putTopo_same {s : State} (i v : Nat) (h : s.canon = true) : topoByte (putTopo i v s) i = BitVec.ofNat 8 v :=
  sget_sput_same (srising_topo h)

theorem topoByte_putTopo_other {s : State} {i k : Nat} (v : Nat) (h : k ≠ i) : topoByte (putTopo i v s) k = topoByte s k :=
  sget_sput_other h

theorem topoByte_putTopoN_outside {s : State} {i n k : Nat} (v : Nat) (h : k < i ∨ i + n ≤ k) :
    topoByte (putTopoN i n v s) k = topoByte s k := by
  have parts : ∀ l : List Nat, (∀ j ∈ l, j < n) → ∀ t : State,
      topoByte (forAll l (fun j s => putTopo (i + j) (v / 2 ^ (8 * j)) s) t) k = topoByte t k := by
    intro l
    induction l with
    | nil => exact fun _ _ => rfl
    | cons j l ih =>
      intro hl t
      have := hl j List.mem_cons_self
      rw [forAll_cons, ih (fun m hm => hl m (List.mem_cons_of_mem _ hm)), topoByte_putTopo_other _ (by omega)]
  exact parts _ (fun j hj => List.mem_range.1 hj) s

/-- `t` is `z` but for the found descriptor. -/
structure TopoFrame (z t : State) : Prop where
  regs : t.regs = z.regs
  present : t.present = z.present
  bring : t.bring = z.bring
  canon : z.canon = true → t.canon = true

section
variable {z s : State}

theorem putTopo_topoFrame (i v : Nat) (h : TopoFrame z s) : TopoFrame z (putTopo i v s) :=
  ⟨h.regs, h.present, h.bring, fun hz => canon_putTopo i v (h.canon hz)⟩

theorem putTopoN_topoFrame (i n v : Nat) (h : TopoFrame z s) : TopoFrame z (putTopoN i n v s) :=
  forAll_invariant (fun _ _ => putTopo_topoFrame _ _) _ h

theorem putStackRecord_topoFrame (d : Stack) (rev mask engines : Nat) (h : TopoFrame z s) :
    TopoFrame z (putStackRecord d rev mask engines s) :=
  putTopoN_topoFrame _ _ _ (putTopo_topoFrame _ _ (putTopo_topoFrame _ _ (putTopo_topoFrame _ _ (putTopo_topoFrame _ _
    (putTopo_topoFrame _ _ h)))))

end

/-- A stack record shows the engines per core. -/
theorem topoByte_putStackRecord_engines {s : State} (d : Stack) (rev mask engines : Nat) (h : s.canon = true) :
    topoByte (putStackRecord d rev mask engines s) (64 + 16 * d.val + 6) = BitVec.ofNat 8 engines := by
  have k := putTopo_keeps (64 + 16 * d.val) d.val (putTopo_keeps (64 + 16 * d.val + 1) rev (putTopo_keeps (64 + 16 * d.val + 2) 1
    (putTopo_keeps (64 + 16 * d.val + 3) 1 (Keeps.refl s))))
  unfold putStackRecord
  rw [topoByte_putTopoN_outside _ (by omega), topoByte_putTopo_same _ _ (k.canon h)]

theorem topoByte_putStackRecord_other {s : State} {d : Stack} {i : Nat} (rev mask engines : Nat)
    (h : i < 64 + 16 * d.val ∨ 64 + 16 * d.val + 7 ≤ i) : topoByte (putStackRecord d rev mask engines s) i = topoByte s i := by
  unfold putStackRecord
  rw [topoByte_putTopoN_outside _ (by omega)]
  simp only [topoByte_putTopo_other _ (show i ≠ 64 + 16 * d.val + 6 by omega), topoByte_putTopo_other _ (show i ≠ 64 + 16 * d.val by omega),
    topoByte_putTopo_other _ (show i ≠ 64 + 16 * d.val + 1 by omega), topoByte_putTopo_other _ (show i ≠ 64 + 16 * d.val + 2 by omega),
    topoByte_putTopo_other _ (show i ≠ 64 + 16 * d.val + 3 by omega)]

/-- The engines of a stack are known from the registers. -/
theorem stackEngines_congr {s t : State} (h : t.regs = s.regs) (d : Stack) : stackEngines t d = stackEngines s d := by
  unfold stackEngines engineCount enginePositions getF getReg
  rw [h]

/-! ### Step 3 (R358, R359) -/

@[simp] theorem outcome_present (code die unit : Nat) (s : State) : (outcome code die unit s).present = s.present := rfl

/-- A byte that every stack record takes reads back. -/
theorem topoByte_forAll_putTopo {z : State} {l : List Stack} {d : Stack} (v : Stack → Nat) (off : Nat) (hd : d ∈ l) (hz : z.canon = true) :
    topoByte (forAll l (fun e s => putTopo (64 + 16 * e.val + off) (v e) s) z) (64 + 16 * d.val + off) = BitVec.ofNat 8 (v d) := by
  refine (forAll_establishes (f := fun e s => putTopo (64 + 16 * e.val + off) (v e) s) (P := fun t => t.canon = true)
    (Q := fun t => t.canon = true ∧ topoByte t (64 + 16 * d.val + off) = BitVec.ofNat 8 (v d)) ?_ ?_ ?_ hd hz).2
  · intro e t hc
    exact canon_putTopo _ _ hc
  · intro e t ht
    obtain ⟨hc, hb⟩ := ht
    refine ⟨canon_putTopo _ _ hc, ?_⟩
    by_cases he : d = e
    · rw [he, topoByte_putTopo_same _ _ hc]
    · rw [topoByte_putTopo_other _ (fun h => he (Fin.ext (by omega))), hb]
  · intro t hc
    exact ⟨canon_putTopo _ _ hc, topoByte_putTopo_same _ _ hc⟩

/-- The revision code of a stack found, as the list of stacks that answer gives it. -/
def revOf (found : List (Stack × Nat)) (d : Stack) : Nat := ((found.find? fun x => x.1 == d).map (·.2)).getD 0

theorem revOf_mem {found : List (Stack × Nat)} {d : Stack} (h : (found.any fun x => x.1 == d) = true) : ∃ x ∈ found, revOf found d = x.2 := by
  obtain ⟨y, hy⟩ := Option.isSome_iff_exists.1 (List.find?_isSome.2 (List.any_eq_true.1 h))
  exact ⟨y, List.mem_of_find?_eq_some hy, by simp [revOf, hy]⟩

theorem ringEnumeration_finds {s : State} {found : List (Stack × Nat)} (hs : s.canon = true) (hb : bringAt s 3 = true) :
    let here := allStacks.filter fun d => found.any fun x => x.1 == d
    here ≠ [] → (∀ x ∈ found, x.2 = 0x01 ∨ x.2 = 0x10) →
    ∃ t, exec (.ringEnumeration found) s = .next t ∧ t.present = here.map (·.val) ∧ t.bring.outcome = some (bcOk, 0, 0) ∧
      getF t r_SB_ID f_SB_ID_FLEVEL = 1 := by
  intro here hne hrev
  have hz : ({ s with present := here.map (·.val) } : State).canon = true := (mk_keeps.2 (Keeps.refl s)).canon hs
  obtain ⟨u, hu⟩ : ∃ u, u = forAll allStacks (fun d s => putTopo (64 + 16 * d.val + 1) (revOf found d) s)
    { s with present := here.map (·.val) } := ⟨_, rfl⟩
  have hframe : TopoFrame { s with present := here.map (·.val) } u := by
    rw [hu]
    exact forAll_invariant (fun _ _ => putTopo_topoFrame _ _) _ ⟨rfl, rfl, rfl, id⟩
  have hlisted : ∀ d ∈ here, revListed (topoByte u (64 + 16 * d.val + 1)).toNat = true := by
    intro d hd
    obtain ⟨x, hx, hxr⟩ := revOf_mem (List.mem_filter.1 hd).2
    rw [hu, topoByte_forAll_putTopo _ _ (mem_allStacks d) hz, hxr]
    rcases hrev x hx with h | h <;> rw [h] <;> rfl
  have hn : here.find? (fun d => !revListed (topoByte u (64 + 16 * d.val + 1)).toNat) = none :=
    List.find?_eq_none.2 fun d hd => by simp [hlisted d hd]
  have he : here.isEmpty = false := by simpa using hne
  have hpresent : u.present = here.map (·.val) := hframe.present
  refine ⟨outcome bcOk 0 0 (putF r_SB_ID f_SB_ID_FLEVEL 1 u), ?_, by rw [outcome_present, putF_present, hpresent], rfl, ?_⟩
  · simp only [exec, execRingEnumeration, hb, Bool.not_true, Bool.false_eq_true, if_false]
    unfold revOf at hu
    rw [← hu, if_neg (by rw [he]; decide), hn]
    rfl
  · rw [getF_outcome, getF_putF_same (by decide) _ (hframe.canon hz)]
    rfl

/-! ### Step 4 (R360) -/

/-- `t` is `z` but for the descriptor, which bears the module's grade (R4). -/
structure TopoGraded (z t : State) : Prop extends TopoFrame z t where
  grade : topoByte t 8 = BitVec.ofNat 8 (getF z r_SB_ID f_SB_ID_GRADE)

/-- The descriptor bears every present stack's engine count too (R5). -/
structure TopoFound (z t : State) : Prop extends TopoGraded z t where
  engines : ∀ d : Stack, d.val ∈ z.present → topoByte t (64 + 16 * d.val + 6) = BitVec.ofNat 8 (stackEngines z d)

/-- The stack records of the stacks that are present. -/
theorem stackRecords_found {z x : State} {revs : List (Stack × Nat)} {mask : Stack × Nat → Nat} (hz : z.canon = true)
    (hrevs : ∀ d, ∃ r ∈ revs, r.1 = d) (hx : TopoGraded z x) : TopoFound z (forAll revs (fun r t =>
      if !z.present.contains r.1.val then t else putStackRecord r.1 r.2 (mask r) (stackEngines t r.1) t) x) := by
  have graded : ∀ (r : Stack × Nat) (t : State), TopoGraded z t → TopoGraded z
      (if !z.present.contains r.1.val then t else putStackRecord r.1 r.2 (mask r) (stackEngines t r.1) t) := by
    intro r t ht
    split
    · exact ht
    · exact ⟨putStackRecord_topoFrame _ _ _ _ ht.toTopoFrame, (topoByte_putStackRecord_other _ _ _ (by omega)).trans ht.grade⟩
  refine ⟨forAll_invariant graded _ hx, fun d hd => ?_⟩
  obtain ⟨r, hr, hrd⟩ := hrevs d
  have own : ∀ (r : Stack × Nat) (t : State), r.1 = d → TopoGraded z t → topoByte
      (if !z.present.contains r.1.val then t else putStackRecord r.1 r.2 (mask r) (stackEngines t r.1) t) (64 + 16 * d.val + 6) =
        BitVec.ofNat 8 (stackEngines z d) := by
    intro r t hrd ht
    subst hrd
    rw [if_neg (by simpa using hd), topoByte_putStackRecord_engines _ _ _ _ (ht.canon hz), stackEngines_congr ht.regs]
  refine (forAll_establishes (P := TopoGraded z)
    (Q := fun t => TopoGraded z t ∧ topoByte t (64 + 16 * d.val + 6) = BitVec.ofNat 8 (stackEngines z d))
    graded (fun y t ht => ⟨graded y t ht.1, ?_⟩) (fun t ht => ⟨graded r t ht, own r t hrd ht⟩) hr hx).2
  by_cases hy : y.1 = d
  · exact own y t hy ht.1
  · have hv : y.1.val ≠ d.val := fun e => hy (Fin.ext e)
    split
    · exact ht.2
    · rw [topoByte_putStackRecord_other _ _ _ (by omega), ht.2]

/-- A byte of the link records. -/
theorem TopoFound.putTopo {z t : State} {i : Nat} (v : Nat) (h : 448 ≤ i) (ht : TopoFound z t) : TopoFound z (putTopo i v t) where
  toTopoFrame := putTopo_topoFrame _ _ ht.toTopoFrame
  grade := (topoByte_putTopo_other _ (by omega)).trans ht.grade
  engines d hd := (topoByte_putTopo_other _ (by omega)).trans (ht.engines d hd)

/-- Step 4 fills the descriptor from the fuses (R4, R5) and compares what is there with a whole package. -/
theorem topologyDiscovery_finds {s : State} {maps : List (Stack × BitVec 16)} (hs : s.canon = true) (hb : bringAt s 4 = true) :
    ∃ u, TopoFound s u ∧ exec (.topologyDiscovery maps) s = .next (outcome
      (if u.present.length < 24 || maps.any fun x => s.present.contains x.1.val && x.2 ≠ 0xFFFF then bcDegraded else bcOk) 0 0 u) := by
  refine ⟨_, ?_, if_neg (by simp [hb])⟩
  have h0 : TopoFrame s (putTopoN 0 4 0x4F504F54 (putTopoN 4 2 1 (putTopoN 6 2 768 { s with topo := [] }))) :=
    putTopoN_topoFrame _ _ _ (putTopoN_topoFrame _ _ _ (putTopoN_topoFrame _ _ _
      ⟨rfl, rfl, rfl, fun h => (emptyTopo_keeps (Keeps.refl s)).canon h⟩))
  generalize putTopoN 0 4 0x4F504F54 (putTopoN 4 2 1 (putTopoN 6 2 768 { s with topo := [] })) = x at h0 ⊢
  have h1 := putTopo_topoFrame 9 1 (putTopo_topoFrame 10 1 h0)
  refine forAll_invariant (fun j t ht => ?_) _ (stackRecords_found hs (fun d => ⟨_, List.mem_map_of_mem (mem_allStacks d), rfl⟩)
    ⟨putTopoN_topoFrame _ _ _ (putTopo_topoFrame _ _ h1), ?_⟩)
  · split
    · exact .putTopo _ (by omega) (.putTopo _ (by omega) (.putTopo _ (by omega) (.putTopo _ (by omega) ht)))
    · exact ht
  · rw [topoByte_putTopoN_outside _ (by omega), topoByte_putTopo_same _ _ (h1.canon hs)]
    simp only [getF, getReg, h0.regs]

end Sys2Proof.Machine
end

section
/-! SUPPORT. Bring-up, steps 5 to 7 (R363): training of links, vaults and channels, and what steps 1 to 7 find. -/
namespace Sys2Proof.Machine

/-! ### What training leaves alone -/

/-- The stacks present, and the last step of bring-up that is done. -/
def roster (s : State) : List Nat × Nat := (s.present, s.bring.last)

theorem roster_of_eventFrame {s t : State} (h : EventFrame s t) : roster t = roster s := by
  rw [roster, h.present, h.bring, roster]

@[simp] theorem roster_putF (a : Nat) (f : Fld) (n : Nat) (s : State) : roster (putF a f n s) = roster s := Prod.ext rfl rfl

@[simp] theorem roster_putTopo (i v : Nat) (s : State) : roster (putTopo i v s) = roster s := Prod.ext rfl rfl

@[simp] theorem roster_updDie (d : Stack) (f : Die → Die) (s : State) : roster (updDie d f s) = roster s := Prod.ext rfl rfl

@[simp] theorem roster_updHub (f : Hub → Hub) (s : State) : roster (updHub f s) = roster s := Prod.ext rfl rfl

@[simp] theorem roster_openPort (d : Stack) (p : Port) (t : WireTest) (w : Nat) (s : State) : roster (openPort d p t w s) = roster s := by
  unfold openPort portTrained showSpares
  dsimp only
  split <;> simp only [roster_putF, roster_updDie]

@[simp] theorem roster_trainLink (j : Nat) (t : WireTest × WireTest) (s : State) : roster (trainLink j t s) = roster s := by
  unfold trainLink
  split
  · rfl
  · dsimp only
    split
    · rw [roster_openPort, topoLink, roster_putTopo, roster_openPort]
    · rw [topoLink, roster_putTopo, roster_openPort]

@[simp] theorem roster_setVaultWidth (d : Stack) (c : CoreIx) (t : VaultTest) (s : State) : roster (setVaultWidth d c t s) = roster s := by
  unfold setVaultWidth topoDropCore topoVault vaultSpares
  dsimp only
  split <;> simp only [roster_putF, roster_putTopo]

@[simp] theorem roster_trainVaults (d : Stack) (tests : List (CoreIx × VaultTest)) (warm : Bool) (s : State) :
    roster (trainVaults d tests warm s) = roster s := by
  refine forAll_frame roster (fun c t => ?_) _ s
  split
  · exact roster_setVaultWidth _ _ _ _
  · split
    · exact roster_putTopo _ _ _
    · exact roster_setVaultWidth _ _ _ _

@[simp] theorem roster_addRemap (d : Stack) (u : Fin 17) (bank : Nat) (s : State) : roster (addRemap d u bank s) = roster s := by
  unfold addRemap
  dsimp only
  split <;> exact Prod.ext rfl rfl

@[simp] theorem roster_retireRow (d : Stack) (u : Fin 17) (row : Nat) (frame : Option Nat) (s : State) :
    roster (retireRow d u row frame s) = roster s := by
  unfold retireRow
  dsimp only
  split
  · exact Prod.ext rfl rfl
  · exact roster_of_eventFrame (postEvent_eventFrame _ _ _ s)

@[simp] theorem roster_restoreRepairs (ok : Nat → Bool) (s : State) : roster (restoreRepairs ok s) = roster s := by
  unfold restoreRepairs
  dsimp only
  rw [roster_updHub]
  refine forAll_frame roster (fun e t => ?_) _ s
  split
  · rfl
  · split
    · split
      · exact roster_addRemap _ _ _ _
      · exact roster_retireRow _ _ _ _ _
    · rfl

@[simp] theorem roster_setChannels (d : Stack) (bad : List (Fin 8)) (s : State) : roster (setChannels d bad s) = roster s := by
  unfold setChannels
  dsimp only
  rw [roster_putTopo]
  exact (forAll_frame roster (fun _ _ => roster_putF _ _ _ _) _ _).trans (by rw [roster_putF, roster_putF])

@[simp] theorem roster_trainDevice (d : Stack) (new : List (Fin 8)) (warm : Bool) (s : State) :
    roster (trainDevice d new warm s).2 = roster s := by
  unfold trainDevice
  dsimp only
  split
  · exact roster_setChannels _ _ _
  · exact roster_putTopo _ _ _

/-! ### Step 5 -/

/-- Step 5 trains every link; a stack that stays isolated fails it, else the outcome is that of the links' widths. -/
theorem dieToDieTraining_ends {s : State} {links : LinkTests} (hb : bringAt s 5 = true) :
    ∃ u, u.present = s.present ∧ ((∃ d, exec (.dieToDieTraining links) s = .next (outcome bcIsolated (dieNo d) 0 u)) ∨
      exec (.dieToDieTraining links) s = .next (outcome (if linksReduced u then bcDegraded else bcOk) 0 0 u)) := by
  obtain ⟨u, hu⟩ : ∃ u, u = forAll allStacks (fun d s => if s.present.contains d.val && !isolated s d then alignPhase d s else s)
    (forAll (List.range 40) (fun j s => trainLink j (foundTests (testList links) j) s) s) := ⟨_, rfl⟩
  have aligned : ∀ l t, roster (forAll l (fun d t => if t.present.contains d.val && !isolated t d then alignPhase d t else t) t) = roster t := by
    refine fun l t => forAll_frame roster (fun d t => ?_) l t
    split
    · exact roster_updDie _ _ _
    · rfl
  have linked : ∀ l t, roster (forAll l (fun j s => trainLink j (foundTests (testList links) j) s) t) = roster t :=
    fun l t => forAll_frame roster (fun _ _ => roster_trainLink _ _ _) l t
  refine ⟨u, congrArg Prod.fst (hu ▸ (aligned _ _).trans (linked _ s)), ?_⟩
  simp only [exec, execDieToDieTraining, hb, Bool.not_true, Bool.false_eq_true, if_false, ← hu]
  cases isolatedStack u with
  | some d => exact .inl ⟨d, rfl⟩
  | none => exact .inr rfl

theorem linksReduced_iff (s : State) : linksReduced s = true ↔ ∃ i, i < 40 ∧ topoByte s (448 + 8 * i + 4) ≠ 2#8 := by
  simp [linksReduced]

/-! ### Steps 6 and 7 -/

theorem vaultVerticalTraining_ends {s : State} {tests : List (Stack × CoreIx × VaultTest)} (hb : bringAt s 6 = true) :
    ∃ u, roster u = roster s ∧
      exec (.vaultVerticalTraining tests) s = .next (outcome (if vaultsReduced u then bcDegraded else bcOk) 0 0 u) := by
  refine ⟨_, ?_, if_neg (by simp [hb])⟩
  have trained : ∀ l (t : State), roster (forAll l (fun (d : Stack) s => if s.present.contains d.val then
      trainVaults d ((tests.filter fun x => x.1 == d).map (·.2)) s.bring.warm s else s) t) = roster t := by
    refine fun l t => forAll_frame roster (fun d t => ?_) l t
    split
    · exact roster_trainVaults _ _ _ _
    · rfl
  split
  · exact trained _ s
  · rw [roster_restoreRepairs]
    exact trained _ s

theorem lpddrTraining_ends {s : State} {failed : List (Stack × Fin 8)} (hb : bringAt s 7 = true) :
    ∃ u, roster u = roster s ∧
      exec (.lpddrTraining failed) s = .next (outcome (if channelsReduced u then bcDegraded else bcOk) 0 0 u) := by
  refine ⟨_, ?_, if_neg (by simp [hb])⟩
  have trained : ∀ l (t : State), roster (forAll l (fun (d : Stack) t =>
      if !t.present.contains d.val then t
      else
        let (rebuild, t) := trainDevice d ((failed.filter fun x => x.1 == d).map (·.2)) s.bring.warm t
        if s.bring.warm && rebuild then updBring (fun b => { b with rebuilt := b.rebuilt ++ [d.val] }) t else t) t) = roster t := by
    refine fun l t => forAll_frame roster (fun d t => ?_) l t
    split
    · rfl
    · dsimp only
      split
      · exact roster_trainDevice _ _ _ _
      · exact roster_trainDevice _ _ _ _
  split
  · exact trained _ s
  · rw [roster_restoreRepairs]
    exact trained _ s

/-! ### Steps 1 to 7 -/

/-- A step of training ends with OK where all that it found is whole, else with DEGRADED. -/
theorem settles_of {s u : State} {i : Instr} {reduced : State → Bool} {whole : State → Prop}
    (hw : ∀ t, reduced t = true ↔ ¬whole t) (ho : ∀ c t, whole (outcome c 0 0 t) ↔ whole t) (hr : roster u = roster s)
    (he : exec i s = .next (outcome (if reduced u then bcDegraded else bcOk) 0 0 u)) :
    ∃ t, exec i s = .next t ∧ t.bring.last = s.bring.last ∧ t.present = s.present ∧
      ((whole t ∧ t.bring.outcome = some (bcOk, 0, 0)) ∨ (¬whole t ∧ t.bring.outcome = some (bcDegraded, 0, 0))) := by
  refine ⟨_, he, congrArg Prod.snd hr, congrArg Prod.fst hr, ?_⟩
  rw [ho]
  by_cases h : reduced u = true
  · rw [if_pos h]
    exact .inr ⟨(hw u).1 h, rfl⟩
  · rw [if_neg h]
    exact .inl ⟨Classical.not_not.1 fun hn => h ((hw u).2 hn), rfl⟩

theorem stepsFind_hold : Claims.stepsFind := by
  intro s w found maps links tests failed hs ends here settles reduced
  refine ⟨camnerTrain_trains w hs, ringEnumeration_finds hs, fun hb => ?_, fun hb => ?_, fun hb => ?_, fun hb => ?_⟩
  · obtain ⟨u, hu, he⟩ := topologyDiscovery_finds (maps := maps) hs hb
    have hred : (u.present.length < 24 || maps.any fun x => s.present.contains x.1.val && x.2 ≠ 0xFFFF) = true ↔ reduced := by
      simp [reduced, hu.present]
    have hlast : u.bring.last = s.bring.last := congrArg Bring.last hu.bring
    refine ⟨⟨fun h => ⟨_, he, ?_, hlast⟩, fun h => ⟨_, he, ?_, hlast⟩⟩, _, he, hu.grade, hu.engines⟩
    · rw [if_pos (hred.2 h)]; rfl
    · rw [if_neg fun x => h (hred.1 x)]; rfl
  · obtain ⟨u, hp, he⟩ := dieToDieTraining_ends (links := links) hb
    rcases he with ⟨d, he⟩ | he
    · exact ⟨_, _, he, rfl, by rw [outcome_present, hp], .inl rfl⟩
    · refine ⟨_, _, he, rfl, by rw [outcome_present, hp], ?_⟩
      by_cases h : linksReduced u = true
      · rw [if_pos h]
        exact .inr (.inr ⟨rfl, (linksReduced_iff u).1 h⟩)
      · rw [if_neg h]
        exact .inr (.inl ⟨rfl, fun i hi => Classical.not_not.1 fun hn => h ((linksReduced_iff u).2 ⟨i, hi, hn⟩)⟩)
  · obtain ⟨u, hr, he⟩ := vaultVerticalTraining_ends (tests := tests) hb
    refine settles_of (fun t => ?_) (fun _ _ => Iff.rfl) hr he
    simp [vaultsReduced]
  · obtain ⟨u, hr, he⟩ := lpddrTraining_ends (failed := failed) hb
    refine settles_of (fun t => ?_) (fun _ _ => Iff.rfl) hr he
    simp [channelsReduced]

end Sys2Proof.Machine
end

section
/-! SUPPORT. Bring-up, steps 9 to 14 (R365 to R373), and the switch to full rate (R370, R371). -/
namespace Sys2Proof.Machine

/-! ### Addresses of registers -/

/-- Registers at different places of the management space have different addresses. -/
theorem dieReg_inj {d e b c x y : Nat} (hb : b < 256) (hc : c < 256) (hx : x < 2 ^ 24) (hy : y < 2 ^ 24) (h : dieReg d b x = dieReg e c y) :
    d = e ∧ b = c ∧ x = y := by
  unfold dieReg mgmtAddr at h
  omega

/-- A register of a stack is none of the hub. -/
theorem dieReg_ne_hubReg {d b c x y : Nat} (hc : c < 256) (hy : y < 2 ^ 24) : dieReg d b x ≠ hubReg c y := by
  unfold dieReg hubReg mgmtAddr
  omega

/-! ### Step 9 (R365, R289) -/

/-- No FLIPMASK corrupts what initialisation writes to the vault of core `c`. -/
def unflipped (d : Stack) (c : CoreIx) (s : State) : Prop := flipMatches (getReg s (r_ECC_FLIPMASK d c)) wOther 99 = false

theorem readByte_initMem_of_zero {s : State} {k n i : Nat} (h : readByte s i = 0) : readByte (initMem k n s) i = 0 := by
  by_cases hi : k ≤ i ∧ i < k + n
  · exact readByte_clearMem_inside hi
  · exact (readByte_clearMem_outside (by omega)).trans h

/-- Vault address 0 lies at offset 0 of a bank group. -/
theorem mapVault_zero (s : State) (d : Stack) (c : CoreIx) : (mapVault s d c 0).1 < 24 ∧ (mapVault s d c 0).2 = 0 := by
  have first : ∀ (p : Nat → Bool) (n : Nat), ((List.range 24).filter p).getD n 0 < 24 := by
    intro p n
    rw [List.getD_eq_getElem?_getD]
    cases h : ((List.range 24).filter p)[n]? with
    | none => decide
    | some x => exact List.mem_range.1 (List.mem_filter.1 (List.mem_of_getElem? h)).1
  by_cases h : 0 < 0x4000000 * (setW s d c).length
  · simp only [mapVault, if_pos h]
    exact ⟨first _ _, by simp⟩
  · simp only [mapVault, if_neg h]
    exact ⟨first _ _, by simp⟩

theorem writeMem_regs (n : Nat) : ∀ (k v : Nat) (s : State), (writeMem k n v s).regs = s.regs := by
  induction n with
  | zero => exact fun _ _ _ => rfl
  | succ n ih => exact fun k v s => (ih _ _ _).trans rfl

theorem getReg_writeWord (k : Nat) (w : CodeWord) (s : State) (a : Nat) : getReg (writeWord k w s) a = getReg s a := by
  unfold getReg writeWord
  rw [writeChk_regs, writeMem_regs]

theorem readByte_writeWord {s : State} {k i : Nat} (w : CodeWord) (h : i < k ∨ k + 64 ≤ i) : readByte (writeWord k w s) i = readByte s i := by
  unfold writeWord
  rw [readByte_writeChk, readByte_writeMem_outside _ _ _ h]

/-- A code word stored in another vault leaves a vault's bytes and its FLIPMASK alone. -/
theorem storeBankWord_apart {d e : Stack} {c k : CoreIx} {j a i off who : Nat} {w : CodeWord} {s : State} (hj : j < 24) (ha : a < 2 ^ 26)
    (hi : i < 24) (ho : off + 64 ≤ 2 ^ 26) (hne : ¬(e = d ∧ k = c)) (h : unflipped d c s) :
    unflipped d c (storeBankWord e k i off who w s) ∧
      readByte (storeBankWord e k i off who w s) (bankKey d c j a) = readByte s (bankKey d c j a) := by
  have hm : r_ECC_FLIPMASK d c ≠ r_ECC_FLIPMASK e k := fun h => by
    obtain ⟨h1, h2, -⟩ := dieReg_inj (by omega) (by omega) (by decide) (by decide) h
    exact hne ⟨Fin.ext h1.symm, Fin.ext (by omega)⟩
  have hk : bankKey d c j a < bankKey e k i off ∨ bankKey e k i off + 64 ≤ bankKey d c j a := by
    have : coreNo d c ≠ coreNo e k := fun h => hne ⟨(coreNo_inj h).1.symm, (coreNo_inj h).2.symm⟩
    unfold bankKey
    omega
  unfold storeBankWord
  dsimp only
  split
  · rw [unflipped, getReg_writeWord, getReg_putF_other _ _ hm, getReg_updVc, readByte_writeWord _ hk, readByte_putF, readByte_updVc]
    exact ⟨h, rfl⟩
  · rw [unflipped, getReg_writeWord, getReg_updVc, readByte_writeWord _ hk, readByte_updVc]
    exact ⟨h, rfl⟩

/-- So does one stored in an LPDDR device. -/
theorem storeLpWord_apart {d e : Stack} {c : CoreIx} {j a ch row sec who : Nat} {w : CodeWord} {s : State} (hj : j < 24) (ha : a < 2 ^ 26)
    (h : unflipped d c s) : unflipped d c (storeLpWord e ch row sec who w s) ∧
      readByte (storeLpWord e ch row sec who w s) (bankKey d c j a) = readByte s (bankKey d c j a) := by
  have hm : r_ECC_FLIPMASK d c ≠ r_ECC_FLIPMASK_LP e := fun h => by
    obtain ⟨-, h2, -⟩ := dieReg_inj (by omega) (by omega) (by decide) (by decide) h
    omega
  have hk : bankKey d c j a < lpKey e ch row (64 * sec) := by
    unfold bankKey coreNo lpKey
    omega
  unfold storeLpWord
  dsimp only
  split
  · rw [unflipped, getReg_writeWord, getReg_putF_other _ _ hm, getReg_updLp, readByte_writeWord _ (.inl hk), readByte_putF, readByte_updLp]
    exact ⟨h, rfl⟩
  · rw [unflipped, getReg_writeWord, getReg_updLp, readByte_writeWord _ (.inl hk), readByte_updLp]
    exact ⟨h, rfl⟩

/-- A FLIPMASK corrupts a word of its own unit only. -/
theorem initFlip_apart {d : Stack} {c : CoreIx} {j a : Nat} (e : Stack) (u : Fin 17) {s : State} (hj : j < 24) (ha : a < 2 ^ 26)
    (h : unflipped d c s) :
    unflipped d c (initFlip e u s) ∧ readByte (initFlip e u s) (bankKey d c j a) = readByte s (bankKey d c j a) := by
  unfold initFlip
  split
  · exact ⟨h, rfl⟩
  · next hf =>
    split
    · next k hk =>
      obtain ⟨hi, ho⟩ := mapVault_zero s e k
      generalize mapVault s e k 0 = p at hi ho ⊢
      refine storeBankWord_apart hj ha hi (by rw [ho]; decide) ?_ h
      rintro ⟨rfl, rfl⟩
      refine hf ?_
      rw [uFlipReg, hk]
      simpa [unflipped] using h
    · split
      · exact storeLpWord_apart hj ha h
      · exact ⟨h, rfl⟩

/-- The registers of a vault's regions and its FLIPMASK are apart. -/
theorem unflipped_clearRegions {d e : Stack} {c : CoreIx} {u : Fin 17} {s : State} (h : unflipped d c s) :
    unflipped d c (clearRegions e u s) := by
  have kept : ∀ l : List Nat, (∀ n ∈ l, n < 64) → ∀ {t : State}, unflipped d c t → unflipped d c (forAll l (fun n s => putReg s
      (match unitCore u with | some c => r_ECC_REGION e c n | none => r_ECC_REGION_LP e n) 0) t) := by
    intro l
    induction l with
    | nil => exact fun _ _ ht => ht
    | cons n l ih =>
      intro hl t ht
      have hn := hl n List.mem_cons_self
      refine ih (fun m hm => hl m (List.mem_cons_of_mem _ hm)) ?_
      rw [unflipped, getReg_putReg_other, ht]
      intro hr
      split at hr
      · obtain ⟨-, -, h3⟩ := dieReg_inj (by omega) (by omega) (by decide) (by omega) hr
        omega
      · obtain ⟨-, -, h3⟩ := dieReg_inj (by omega) (by omega) (by decide) (by omega) hr
        omega
  exact kept _ (fun n hn => List.mem_range.1 hn) h

/-- The words that FLIPMASKs corrupt while the vaults of a stack are initialised. -/
theorem forAll_initFlip_apart {d : Stack} {c : CoreIx} {j a : Nat} (e : Stack) (f : CoreIx → State → Vc → Vc) (l : List CoreIx) {x : State}
    (hj : j < 24) (ha : a < 2 ^ 26) (h : unflipped d c x) :
    unflipped d c (forAll l (fun k t => initFlip e (vaultUnit k) (updVc e k (f k t) t)) x) ∧
      readByte (forAll l (fun k t => initFlip e (vaultUnit k) (updVc e k (f k t) t)) x) (bankKey d c j a) = readByte x (bankKey d c j a) := by
  refine forAll_invariant (P := fun t => unflipped d c t ∧ readByte t (bankKey d c j a) = readByte x (bankKey d c j a)) ?_ l ⟨h, rfl⟩
  rintro k t ⟨hu, hz⟩
  have hv : unflipped d c (updVc e k (f k t) t) := by rw [unflipped, getReg_updVc, hu]
  obtain ⟨h1, h2⟩ := initFlip_apart (j := j) (a := a) e (vaultUnit k) hj ha hv
  exact ⟨h1, by rw [h2, readByte_updVc, hz]⟩

theorem readByte_clearRegions (e : Stack) (u : Fin 17) (s : State) (i : Nat) : readByte (clearRegions e u s) i = readByte s i :=
  forAll_frame (fun t => readByte t i) (fun _ _ => readByte_putReg _ _ _ _) _ s

/-- Initialisation of a stack's vaults zeroes them, and leaves those of other stacks. -/
theorem initVaults_zeroes {d : Stack} {c : CoreIx} {j a : Nat} (e : Stack) {s : State} (hj : j < 24) (ha : a < 2 ^ 26)
    (h : unflipped d c s) : unflipped d c (initVaults e s) ∧
      (e = d ∨ readByte s (bankKey d c j a) = 0 → readByte (initVaults e s) (bankKey d c j a) = 0) := by
  have hu : unflipped d c (initMem (bankKey e 0 0 0) (16 * 2 ^ 31) s) := by rw [unflipped, getReg_initMem, h]
  obtain ⟨h1, h2⟩ := forAll_initFlip_apart (j := j) (a := a) e
    (fun k t v => { v with inits := validRegions t (r_ECC_REGION e k 0), initNear := setN t e k }) allCores hj ha hu
  refine ⟨h1, fun hz => h2.trans ?_⟩
  rcases hz with rfl | hz
  · refine readByte_clearMem_inside ?_
    have := c.isLt
    simp only [bankKey, coreNo, Fin.val_zero]
    omega
  · exact readByte_initMem_of_zero hz

theorem initLpddr_zeroes {d : Stack} {c : CoreIx} {j a : Nat} (e : Stack) {s : State} (hj : j < 24) (ha : a < 2 ^ 26)
    (h : unflipped d c s) : unflipped d c (initLpddr e s) ∧
      (readByte s (bankKey d c j a) = 0 → readByte (initLpddr e s) (bankKey d c j a) = 0) := by
  have hu : ∀ f : Lp → Lp, unflipped d c (updLp e f (initMem (lpKey e 0 0 0) (2 ^ 36) s)) := fun f => by
    rw [unflipped, getReg_updLp, getReg_initMem, h]
  unfold initLpddr
  obtain ⟨h1, h2⟩ := initFlip_apart (j := j) (a := a) e 16 hj ha (hu _)
  refine ⟨h1, fun hz => h2.trans ?_⟩
  rw [readByte_updLp, readByte_initMem_of_zero hz]

/-- A cold initialisation of a stack zeroes its vaults, and leaves those of other stacks. -/
theorem initStack_zeroes {d : Stack} {c : CoreIx} {j a : Nat} (e : Stack) (rebuilt : Bool) {s : State} (hj : j < 24) (ha : a < 2 ^ 26)
    (h : unflipped d c s) : unflipped d c (initStack e false rebuilt s) ∧
      (e = d ∨ readByte s (bankKey d c j a) = 0 → readByte (initStack e false rebuilt s) (bankKey d c j a) = 0) := by
  have hregions : ∀ (l : List (Fin 17)) (t : State), unflipped d c t → unflipped d c (forAll l (fun u t => clearRegions e u t) t) :=
    fun l _ => forAll_invariant (P := unflipped d c) (fun u _ => unflipped_clearRegions) l
  have hsame : ∀ (l : List (Fin 17)) (t : State), readByte (forAll l (fun u t => clearRegions e u t) t) (bankKey d c j a) =
      readByte t (bankKey d c j a) :=
    fun l t => forAll_frame (fun t => readByte t (bankKey d c j a)) (fun u t => readByte_clearRegions e u t _) l t
  obtain ⟨x, hx⟩ : ∃ x, x = forAll (List.finRange 17) (fun u t => clearRegions e u t) s := ⟨_, rfl⟩
  have hux : unflipped d c x := hx ▸ hregions _ s h
  have hrx : readByte x (bankKey d c j a) = readByte s (bankKey d c j a) := hx ▸ hsame _ s
  obtain ⟨h1, h2⟩ := initVaults_zeroes (j := j) (a := a) e hj ha hux
  obtain ⟨h3, h4⟩ := initLpddr_zeroes (j := j) (a := a) e hj ha h1
  simp only [initStack, Bool.false_eq_true, if_false, ← hx]
  exact ⟨h3, fun hz => h4 (h2 (hz.imp id fun hz => hrx.trans hz))⟩

/-- DRAM reads zero after a cold initialisation, where no FLIPMASK corrupts a word (R289, R365). -/
theorem memoryInitialisation_zeroes {s : State} {d : Stack} {c : CoreIx} {j a : Nat} (hb : bringAt s 9 = true) (hw : s.bring.warm = false)
    (hj : j < 24) (ha : a < 2 ^ 26) (hf : unflipped d c s) :
    ∃ t, exec (.memoryInitialisation none) s = .next t ∧ t.bring.outcome = some (bcOk, 0, 0) ∧ readByte t (bankKey d c j a) = 0 := by
  have hz : ∀ l, d ∈ l → readByte (forAll l (fun e t => initStack e s.bring.warm (t.bring.rebuilt.contains e.val) t) s) (bankKey d c j a) = 0 := by
    intro l hl
    rw [hw]
    refine (forAll_establishes (f := fun e t => initStack e false (t.bring.rebuilt.contains e.val) t) (P := unflipped d c)
      (Q := fun t => unflipped d c t ∧ readByte t (bankKey d c j a) = 0) ?_ ?_ ?_ hl hf).2
    · exact fun e t ht => (initStack_zeroes (j := j) (a := a) e _ hj ha ht).1
    · rintro e t ⟨ht, hz⟩
      obtain ⟨h1, h2⟩ := initStack_zeroes (j := j) (a := a) e (t.bring.rebuilt.contains e.val) hj ha ht
      exact ⟨h1, h2 (.inr hz)⟩
    · intro t ht
      obtain ⟨h1, h2⟩ := initStack_zeroes (j := j) (a := a) d (t.bring.rebuilt.contains d.val) hj ha ht
      exact ⟨h1, h2 (.inl rfl)⟩
  refine ⟨_, if_neg (by simp [hb]), rfl, ?_⟩
  exact hz _ (mem_allStacks d)

end Sys2Proof.Machine
end

section
/-! SUPPORT. Bring-up, steps 10 to 14 (R366 to R373), the switch to full rate (R370, R371), and the statement about bring-up. -/
namespace Sys2Proof.Machine

/-! ### Step 10 (R366, R398) -/

/-- A register, the flash's VOFFSETs and the stacks present, in canonical form, that other changes leave alone. -/
structure CalibFrame (z t : State) : Prop where
  canon : t.canon = true
  voff : t.voff = z.voff
  present : t.present = z.present

theorem putF_calibFrame {z t : State} (a : Nat) (f : Fld) (n : Nat) (h : CalibFrame z t) : CalibFrame z (putF a f n t) :=
  ⟨canon_putF a f n h.canon, (putF_voff _ a f n).trans h.voff, (putF_present _ a f n).trans h.present⟩

/-- Registers of the thermal block: a MARGIN is its own stack's, and no layer's THERM_EST. -/
theorem r_MARGIN_inj {d e : Stack} (h : r_MARGIN d = r_MARGIN e) : d = e :=
  Fin.ext (dieReg_inj (by decide) (by decide) (by decide) (by decide) h).1

theorem r_MARGIN_ne_r_THERM_EST (d e : Stack) (l : Fin 6) : r_MARGIN d ≠ r_THERM_EST e l := by
  unfold r_MARGIN r_THERM_EST dieReg mgmtAddr
  omega

/-- What the measurements of a calibration leave alone. -/
theorem calibrate_layers {z x : State} (e : Stack) (meas : List (Fin 6 × Nat)) (h : CalibFrame z x) :
    CalibFrame z (forAll meas (fun m s =>
      putF (r_THERM_EST e m.1) f_THERM_EST_MEAS m.2 (putF (r_THERM_EST e m.1) f_THERM_EST_EST m.2 s)) x) ∧
    ∀ d : Stack, getF (forAll meas (fun m s =>
      putF (r_THERM_EST e m.1) f_THERM_EST_MEAS m.2 (putF (r_THERM_EST e m.1) f_THERM_EST_EST m.2 s)) x) (r_MARGIN d) f_MARGIN_VOFFSET =
        getF x (r_MARGIN d) f_MARGIN_VOFFSET := by
  refine ⟨forAll_invariant (P := CalibFrame z) (fun _ _ ht => putF_calibFrame _ _ _ (putF_calibFrame _ _ _ ht)) meas h, fun d => ?_⟩
  exact forAll_frame (fun t => getF t (r_MARGIN d) f_MARGIN_VOFFSET) (fun m t => by
    rw [getF_putF_other _ _ _ (r_MARGIN_ne_r_THERM_EST d e m.1), getF_putF_other _ _ _ (r_MARGIN_ne_r_THERM_EST d e m.1)]) meas x

/-- Calibration of a stack restores its VOFFSET, and leaves every MARGIN but its own. -/
theorem calibrate_restores {z t : State} (e : Stack) (meas : List (Fin 6 × Nat)) (h : CalibFrame z t) :
    CalibFrame z (calibrate e meas t) ∧
      getF (calibrate e meas t) (r_MARGIN e) f_MARGIN_VOFFSET = sget 0 z.voff e.val % 2 ^ f_MARGIN_VOFFSET.width ∧
      ∀ d : Stack, d ≠ e → getF (calibrate e meas t) (r_MARGIN d) f_MARGIN_VOFFSET = getF t (r_MARGIN d) f_MARGIN_VOFFSET := by
  have hp := putF_calibFrame (r_MARGIN e) f_MARGIN_VOFFSET (sget 0 t.voff e.val) h
  obtain ⟨hc, hr⟩ := calibrate_layers e meas (x := updTherm e (fun t => { t with frac := [] })
    (putF (r_MARGIN e) f_MARGIN_VOFFSET (sget 0 t.voff e.val) t))
    ⟨canon_updTherm _ _ hp.canon, (updTherm_voff _ _ _).trans hp.voff, (updTherm_present _ _ _).trans hp.present⟩
  unfold calibrate
  refine ⟨hc, ?_, fun d hd => ?_⟩
  · rw [hr, getF_updTherm, getF_putF_same (by decide) _ h.canon, h.voff]
  · rw [hr, getF_updTherm, getF_putF_other _ _ _ (fun hm => hd (r_MARGIN_inj hm))]

theorem thermalCalibration_restores {s : State} {d : Stack} {meas : List (Stack × Fin 6 × Nat)} (hs : s.canon = true) (hb : bringAt s 10 = true) :
    ∃ t, exec (.thermalCalibration none meas) s = .next t ∧ t.bring.outcome = some (bcOk, 0, 0) ∧
      (d.val ∈ s.present → getF t (r_MARGIN d) f_MARGIN_VOFFSET = sget 0 s.voff d.val % 2 ^ f_MARGIN_VOFFSET.width) := by
  have restored : ∀ l, d ∈ l → d.val ∈ s.present → getF (forAll l (fun e t => if t.present.contains e.val then
      calibrate e ((meas.filter fun m => m.1 == e).map (·.2)) t else t) s) (r_MARGIN d) f_MARGIN_VOFFSET =
        sget 0 s.voff d.val % 2 ^ f_MARGIN_VOFFSET.width := by
    intro l hl hd
    refine (forAll_establishes (P := CalibFrame s) (Q := fun t => CalibFrame s t ∧
      getF t (r_MARGIN d) f_MARGIN_VOFFSET = sget 0 s.voff d.val % 2 ^ f_MARGIN_VOFFSET.width) ?_ ?_ ?_ hl ⟨hs, rfl, rfl⟩).2
    · intro e t ht
      split
      · exact (calibrate_restores e _ ht).1
      · exact ht
    · rintro e t ⟨ht, hv⟩
      obtain ⟨h1, h2, h3⟩ := calibrate_restores e ((meas.filter fun m => m.1 == e).map (·.2)) ht
      split
      · by_cases he : d = e
        · subst he; exact ⟨h1, h2⟩
        · exact ⟨h1, (h3 d he).trans hv⟩
      · exact ⟨ht, hv⟩
    · intro t ht
      obtain ⟨h1, h2, -⟩ := calibrate_restores d ((meas.filter fun m => m.1 == d).map (·.2)) ht
      rw [if_pos (by rw [ht.present]; simpa using hd)]
      exact ⟨h1, h2⟩
  have he : exec (.thermalCalibration none meas) s = _ := if_neg (by simp [hb])
  refine ⟨_, he, rfl, fun hd => ?_⟩
  rw [getF_outcome]
  exact restored _ (mem_allStacks d) hd

/-! ### Step 12 (R369) -/

/-- A field that holds 1 still does after a write of 1. -/
theorem getF_putF_one {s : State} {a b : Nat} {f : Fld} (hf : fldFits f) (hw : 0 < f.width) (hs : s.canon = true) (h : getF s b f = 1) :
    getF (putF a f 1 s) b f = 1 := by
  by_cases hb : b = a
  · rw [hb, getF_putF_same hf _ hs, Nat.mod_eq_of_lt (Nat.one_lt_two_pow (by omega))]
  · rw [getF_putF_other _ _ _ hb, h]

/-- Fields set to 1 one after another all hold 1. -/
theorem getF_forAll_putF_one {α : Type} {f : Fld} (hf : fldFits f) (hw : 0 < f.width) (reg : α → Nat) {l : List α} {x : α} (hx : x ∈ l)
    {s : State} (hs : s.canon = true) :
    (forAll l (fun y t => putF (reg y) f 1 t) s).canon = true ∧ getF (forAll l (fun y t => putF (reg y) f 1 t) s) (reg x) f = 1 := by
  refine forAll_establishes (P := fun t => t.canon = true) (Q := fun t => t.canon = true ∧ getF t (reg x) f = 1) ?_ ?_ ?_ hx hs
  · exact fun y t ht => canon_putF _ _ _ ht
  · exact fun y t ht => ⟨canon_putF _ _ _ ht.1, getF_putF_one hf hw ht.1 ht.2⟩
  · exact fun t ht => ⟨canon_putF _ _ _ ht, by rw [getF_putF_same hf _ ht, Nat.mod_eq_of_lt (Nat.one_lt_two_pow (by omega))]⟩

theorem uDrizzleReg_ne_bringStatus (d : Stack) (u : Fin 17) : uDrizzleReg d u ≠ r_BRING_STATUS := by
  unfold uDrizzleReg
  split <;> exact dieReg_ne_hubReg (by decide) (by decide)

theorem thaw_prepares {s : State} {d : Stack} {u : Fin 17} {tables : List (Stack × Cluster × Fin 64 × Word)} (hs : s.canon = true)
    (hb : bringAt s 12 = true) : ∃ t, exec (.thaw tables) s = .next t ∧ t.bring.outcome = some (bcOk, 0, 0) ∧
      bringF t f_BRING_STATUS_FR = 0 ∧ getF t (uDrizzleReg d u) f_DRIZZLE_CTRL_EN = 1 := by
  have units : ∀ (l : List Stack) (m : List (Fin 17)) (x : State), d ∈ l → u ∈ m → x.canon = true →
      (forAll l (fun e t => forAll m (fun w t => putF (uDrizzleReg e w) f_DRIZZLE_CTRL_EN 1 t) t) x).canon = true ∧
      getF (forAll l (fun e t => forAll m (fun w t => putF (uDrizzleReg e w) f_DRIZZLE_CTRL_EN 1 t) t) x) (uDrizzleReg d u) f_DRIZZLE_CTRL_EN = 1 := by
    intro l m x hl hm hx
    refine forAll_establishes (P := fun t => t.canon = true) (Q := fun t => t.canon = true ∧ getF t (uDrizzleReg d u) f_DRIZZLE_CTRL_EN = 1)
      ?_ ?_ ?_ hl hx
    · exact fun e t ht => forAll_invariant (P := fun t => t.canon = true) (fun w t ht => canon_putF _ _ _ ht) m ht
    · exact fun e t ht => forAll_invariant (P := fun t => t.canon = true ∧ getF t (uDrizzleReg d u) f_DRIZZLE_CTRL_EN = 1)
        (fun w t ht => ⟨canon_putF _ _ _ ht.1, getF_putF_one (by decide) (by decide) ht.1 ht.2⟩) m ht
    · exact fun t ht => getF_forAll_putF_one (by decide) (by decide) (uDrizzleReg d) hm ht
  obtain ⟨x, hx⟩ : ∃ x, x = forAll tables (fun e s => softWrite (r_TR_SLOT e.1 e.2.1 e.2.2.1.val) e.2.2.2 s) s := ⟨_, rfl⟩
  have hxc : x.canon = true := hx ▸ forAll_invariant (P := fun t => t.canon = true)
    (fun e t ht => (softWrite_keeps _ _ (Keeps.refl t)).canon ht) tables hs
  obtain ⟨y, hy⟩ : ∃ y, y = forAll allStacks (fun e t => forAll (List.finRange 17) (fun w t => putF (uDrizzleReg e w) f_DRIZZLE_CTRL_EN 1 t) t) x :=
    ⟨_, rfl⟩
  have hyd : y.canon = true ∧ getF y (uDrizzleReg d u) f_DRIZZLE_CTRL_EN = 1 := hy ▸ units _ _ x (mem_allStacks d) (List.mem_finRange u) hxc
  refine ⟨outcome bcOk 0 0 (setBringF f_BRING_STATUS_FR 0 y), ?_, rfl, ?_, ?_⟩
  · simp only [exec, execThaw, hb, Bool.not_true, Bool.false_eq_true, if_false, ← hx, ← hy, done]
  · rw [bringF, getF_outcome]
    exact getF_putF_same (by decide) 0 hyd.1
  · rw [getF_outcome]
    exact (getF_putF_other _ _ _ (uDrizzleReg_ne_bringStatus d u)).trans hyd.2

/-! ### Steps 9 to 14 -/

theorem stepsPrepare_hold : Claims.stepsPrepare := by
  intro s d c j a n u meas tables hs ok
  refine ⟨fun hb hw hj ha hf => memoryInitialisation_zeroes hb hw hj ha hf, fun hb => ⟨thermalCalibration_restores hs hb, ?_⟩,
    fun hb => thaw_prepares hs hb, fun hb => ?_⟩
  · exact ⟨_, if_neg (by simp [hb]), rfl⟩
  · refine ⟨outcome bcOk 0 0 (putF r_DISP_CTRL f_DISP_CTRL_EN 1 s), if_pos hb, rfl, ?_, fun r hr => ?_⟩
    · rw [getF_outcome, getF_putF_same (by decide) _ hs]; rfl
    · rw [getReg_outcome, getReg_putF_other _ _ hr]

/-! ### Step 11 (R367) -/

theorem cmpByte_same {e f : Nat → Nat} {i : Nat} (h : e i = f i) : cmpByte e f i = .same := if_pos h

/-- Step 11 where the block at TOPO_EXPECTED is well formed and holds the found descriptor, hash and all (R367). -/
theorem topologyCheck_matches {s : State} {bytes : List Byte} (hb : bringAt s 11 = true)
    (haddr : getF s r_TOPO_EXPECTED f_TOPO_EXPECTED_ADDR % 8 = 0) {len : Nat} (hl : getF s r_TOPO_EXPECTED f_TOPO_EXPECTED_LEN = len)
    (hlen : len ≠ 0) (hmax : len ≤ 2048) {e : Nat → Nat} (he : e = fun i => if i < len then (bytes.getD i 0).toNat else 0)
    (hsig : leNat (bytes.take 4) = 0x4F504F54) (hver : e 4 + 256 * e 5 = 1) (hsize : e 6 + 256 * e 7 = len)
    (hsame : ∀ i, i < max len 768 → e i = (topoByte (topoHash s) i).toNat) :
    execTopologyCheck (some bytes) s = .next (outcome bcOk 0 0 (topoHash s)) := by
  have hplace : (decide (getF s r_TOPO_EXPECTED f_TOPO_EXPECTED_ADDR % 8 ≠ 0) || decide (len = 0) || decide (2048 < len)) = false := by
    simp only [Bool.or_eq_false_iff, decide_eq_false_iff_not]
    omega
  have hhead : ¬(leNat (bytes.take 4) ≠ 0x4F504F54 ∨ e 4 + 256 * e 5 ≠ 1 ∨ e 6 + 256 * e 7 ≠ len) :=
    fun h => h.elim (fun h => h hsig) (fun h => h.elim (fun h => h hver) (fun h => h hsize))
  have hcmps : (((List.range (max len 768)).map fun i => (i, cmpByte e (fun i => (topoByte (topoHash s) i).toNat) i)).find?
      fun x => x.2 ≠ .same) = none := by
    rw [List.find?_eq_none]
    intro x hx
    obtain ⟨i, hi, rfl⟩ := List.mem_map.1 hx
    rw [cmpByte_same (hsame i (List.mem_range.1 hi))]
    simp
  have hhash : ((List.range 32).all fun i => e (32 + i) == (topoByte (topoHash s) (32 + i)).toNat) = true := by
    rw [List.all_eq_true]
    intro i hi
    have := List.mem_range.1 hi
    exact beq_iff_eq.2 (hsame _ (by omega))
  subst he
  unfold execTopologyCheck
  simp only [hb, Bool.not_true, Bool.false_eq_true, if_false, hl, hplace, hcmps]
  exact (if_neg hhead).trans (if_pos hhash)

theorem topologyChecks_hold : Claims.topologyChecks := by
  intro s b hb len e t
  constructor
  · simp only [exec, execTopologyCheck, hb, Bool.not_true, Bool.false_eq_true, if_false]
    split
    · rfl
    · rfl
    · next h => cases h
  · intro haddr hlen hmax hsig hver hsize hsame
    exact topologyCheck_matches hb haddr rfl hlen hmax rfl hsig hver hsize hsame

/-! ### The switch to full rate (R370, R371) -/

/-- What service's resuming leaves alone, and what it ends. -/
theorem resumeTransit_frame (s : State) : (resumeTransit s).bring = s.bring ∧ (resumeTransit s).regs = s.regs ∧
    (resumeTransit s).hub.frQuiet = s.hub.frQuiet ∧ (resumeTransit s).hub.transitStopped = false := by
  have send : ∀ (e : Stack) (x : Xfer) (t : State), (sendXfer e x t).bring = t.bring ∧ (sendXfer e x t).regs = t.regs ∧
      (sendXfer e x t).hub.frQuiet = t.hub.frQuiet ∧ (sendXfer e x t).hub.transitStopped = t.hub.transitStopped := by
    intro e x t
    unfold sendXfer noteXferErr
    split <;> exact ⟨rfl, rfl, rfl, rfl⟩
  unfold resumeTransit
  refine forAll_invariant (P := fun t => t.bring = s.bring ∧ t.regs = s.regs ∧ t.hub.frQuiet = s.hub.frQuiet ∧ t.hub.transitStopped = false)
    (fun x t ht => ?_) _ ⟨rfl, rfl, rfl, rfl⟩
  split
  · next e _ =>
    obtain ⟨hb, hr, hq, hs⟩ := send e x (updHub (fun h => { h with xfers := h.xfers ++ [x] }) t)
    exact ⟨hb.trans ht.1, hr.trans ht.2.1, hq.trans ht.2.2.1, hs.trans ht.2.2.2⟩
  · exact ht

/-- Service resumes: neither bring-up nor a register changes, launches and transfers start again. -/
theorem frResume_resumes (s : State) : (frResume s).bring = s.bring ∧ (frResume s).regs = s.regs ∧
    (frResume s).hub.frQuiet = false ∧ (frResume s).hub.transitStopped = false := by
  obtain ⟨hb, hr, hq, hs⟩ := resumeTransit_frame (updHub (fun h => { h with frQuiet := false }) s)
  exact ⟨hb, hr, hq, hs⟩

/-- The outcome of step 13 is all that it sets. -/
theorem frOutcome_frame (code : Nat) (s : State) : (frOutcome code s).regs = s.regs ∧ (frOutcome code s).bring.full = s.bring.full ∧
    (frOutcome code s).bring.frReady = s.bring.frReady := by
  unfold frOutcome
  split <;> exact ⟨rfl, rfl, rfl⟩

theorem topoChanged_bring (s : State) : (topoChanged s).bring = s.bring := by
  have bytes : ∀ (l : List (Byte × Nat)) (t : State), (forAll l (fun e s => putTopo (32 + e.2) e.1.toNat s) t).bring = t.bring :=
    fun l => forAll_frame State.bring (f := fun e s => putTopo (32 + e.2) e.1.toNat s) (fun _ _ => rfl) l
  have words : ∀ (h : List Byte) (l : List Nat) (t : State),
      (forAll l (fun w s => putReg s (r_TOPO_HASH w) (BitVec.ofNat 64 (leAt h (8 * w) 8))) t).bring = t.bring :=
    fun h l => forAll_frame State.bring (fun _ _ => putReg_bring _ _ _) l
  unfold topoChanged topoHash
  split
  · rw [words, bytes]
  · rfl

/-- How the switch ends: FR shows the value, and service resumes. -/
theorem switch_ends {s : State} (code : Nat) {v : Nat} (hs : s.canon = true) (hv : v < 4) :
    bringF (frResume (frOutcome code (setBringF f_BRING_STATUS_FR v s))) f_BRING_STATUS_FR = v ∧
      (frResume (frOutcome code (setBringF f_BRING_STATUS_FR v s))).bring.full = s.bring.full ∧
      (frResume (frOutcome code (setBringF f_BRING_STATUS_FR v s))).bring.frReady = s.bring.frReady ∧
      (frResume (frOutcome code (setBringF f_BRING_STATUS_FR v s))).hub.frQuiet = false := by
  obtain ⟨hb, hr, hq, -⟩ := frResume_resumes (frOutcome code (setBringF f_BRING_STATUS_FR v s))
  obtain ⟨hor, hof, hod⟩ := frOutcome_frame code (setBringF f_BRING_STATUS_FR v s)
  refine ⟨?_, ?_, ?_, hq⟩
  · rw [bringF, getF, getReg, hr, hor, ← getReg, ← getF, setBringF, getF_putF_same (by decide) _ hs]
    exact Nat.mod_eq_of_lt hv
  · rw [hb, hof, setBringF, putF_bring]
  · rw [hb, hod, setBringF, putF_bring]

theorem fullRateSwitch_switches {s : State} (hs : s.canon = true) (hr : s.bring.frReady = true) (hq : s.hub.frQuiet = true)
    (hall : frQuiesced s = true) : ∃ t, exec (.fullRateSwitch true) s = .next t ∧ bringF t f_BRING_STATUS_FR = 2 ∧ t.bring.full = true ∧
      t.bring.frReady = false ∧ t.hub.frQuiet = false := by
  obtain ⟨u, hu⟩ : ∃ u, u = forAll allStacks (fun d s => updDie d (fun y => { y with firstNext := true }) (alignPhase d s))
    (forAll allStacks (fun d s => if s.present.contains d.val then forAll allCores (fun c s => switchVault d c s) s else s)
      (forAll (List.range 40) switchLink s)) := ⟨_, rfl⟩
  have huk : Keeps s u := by
    rw [hu]
    refine forAll_invariant (P := Keeps s) (fun d t ht => updDie_keeps _ _ (alignPhase_keeps _ ht)) _
      (forAll_invariant (P := Keeps s) (fun d t ht => ?_) _
        (forAll_invariant (P := Keeps s) (fun j t ht => switchLink_keeps j ht) _ (Keeps.refl s)))
    split
    · exact forAll_invariant (P := Keeps s) (fun c t ht => switchVault_keeps d c ht) _ ht
    · exact ht
  obtain ⟨x, hx⟩ : ∃ x, x = topoChanged (updBring (fun b => { b with frReady := false, full := true }) u) := ⟨_, rfl⟩
  have hxb : x.bring = { u.bring with frReady := false, full := true } := by rw [hx, topoChanged_bring]; rfl
  have hxc : x.canon = true := by
    rw [hx]
    exact (topoChanged_keeps (updBring_keeps _ huk)).canon hs
  obtain ⟨h1, h2, h3, h4⟩ := switch_ends bcOk (v := 2) hxc (by decide)
  refine ⟨frResume (frOutcome bcOk (setBringF f_BRING_STATUS_FR 2 x)), ?_, h1, ?_, ?_, h4⟩
  · simp only [exec, execFullRateSwitch, hr, hq, hall, Bool.not_true, Bool.or_false, Bool.false_eq_true, if_false, ← hu, ← hx, done]
  · rw [h2, hxb]
  · rw [h3, hxb]

theorem fullRateSwitch_stays {s : State} (hs : s.canon = true) (hr : s.bring.frReady = true) (hq : s.hub.frQuiet = true)
    (hall : frQuiesced s = true) : ∃ t, exec (.fullRateSwitch false) s = .next t ∧ bringF t f_BRING_STATUS_FR = 3 ∧
      t.bring.full = s.bring.full ∧ t.bring.frReady = false ∧ t.hub.frQuiet = false := by
  have hxc := (updBring_keeps (fun b => { b with frReady := false }) (Keeps.refl s)).canon hs
  obtain ⟨h1, h2, h3, h4⟩ := switch_ends bcFrFail (v := 3) hxc (by decide)
  refine ⟨_, ?_, h1, h2, h3, h4⟩
  simp only [exec, execFullRateSwitch, hr, hq, hall, Bool.not_true, Bool.or_false, Bool.false_eq_true, if_false, Bool.not_false, if_true, done]

theorem quietPeriodTimeout_resumes {s : State} (hr : s.bring.frReady = true) (hq : s.hub.frQuiet = true) :
    ∃ t, exec .quietPeriodTimeout s = .next t ∧ t.hub.frQuiet = false ∧ t.bring.frReady = true ∧ t.hub.transitStopped = false := by
  obtain ⟨hb, -, h1, h2⟩ := frResume_resumes s
  exact ⟨frResume s, if_pos (by simp [hr, hq]), h1, hb ▸ hr, h2⟩

theorem fullRate_hold : Claims.fullRate := by
  intro s links tests hs
  refine ⟨fun hfr hready => ⟨_, if_neg (by simp [hfr, hready]), rfl, rfl, rfl, rfl⟩, fun hr hq => ⟨fun hall => ?_, ?_⟩⟩
  · exact ⟨fullRateSwitch_switches hs hr hq hall, fullRateSwitch_stays hs hr hq hall⟩
  · exact quietPeriodTimeout_resumes hr hq

/-! ### Bring-up -/

/-- Settles O29, one group of clauses after another: how a step ends, what the training steps find, what the later steps prepare, the topology
check, and the switch to full rate. -/
theorem bringUpStepsRunAndEnd : Obligations.BringUpStepsRunAndEnd :=
  ⟨stepsEnd_hold, stepsFind_hold, stepsPrepare_hold, topologyChecks_hold, fullRate_hold⟩

end Sys2Proof.Machine
end

section
/-! SUPPORT. NaN operands and the canonical NaNs that the arithmetic writes for them (R35, R42, R43, R51). -/
namespace Sys2Proof.Machine

/-! ### Values -/

@[simp] theorem addVal_nan_left (b : Val) : addVal .nan b = .nan := rfl

@[simp] theorem addVal_nan_right (a : Val) : addVal a .nan = .nan := by cases a <;> rfl

@[simp] theorem mulVal_nan_left (b : Val) : mulVal .nan b = .nan := rfl

@[simp] theorem mulVal_nan_right (a : Val) : mulVal a .nan = .nan := by cases a <;> rfl

theorem addVal_of_nan {a b : Val} (h : a = .nan ∨ b = .nan) : addVal a b = .nan := by
  rcases h with rfl | rfl
  · exact addVal_nan_left b
  · exact addVal_nan_right a

theorem mulVal_of_nan {a b : Val} (h : a = .nan ∨ b = .nan) : mulVal a b = .nan := by
  rcases h with rfl | rfl
  · exact mulVal_nan_left b
  · exact mulVal_nan_right a

/-- Turning the sign of a NaN leaves a NaN. -/
theorem negVal_of_nan {a : Val} (h : a = .nan) : negVal a = .nan := by rw [h]; rfl

/-! ### Codes -/

@[simp] theorem encodeFmt_nan (f : Fmt) : encodeFmt f .nan = fmtNaN f := rfl

/-- The canonical NaN of FP32 (R35). -/
@[simp] theorem encF32_nan : encF32 .nan = 0x7FC00000#32 := rfl

theorem convertFmt_of_nan {f : Fmt} {code : Nat} (g : Fmt) (h : decodeFmt f code = .nan) : convertFmt f g code = fmtNaN g := by
  unfold convertFmt
  rw [h]

theorem addF32_of_nan {a b : BitVec 32} (h : decF32 a = .nan ∨ decF32 b = .nan) : addF32 a b = 0x7FC00000#32 := by
  rw [addF32, addVal_of_nan h, encF32_nan]

theorem subF32_of_nan {a b : BitVec 32} (h : decF32 a = .nan ∨ decF32 b = .nan) : subF32 a b = 0x7FC00000#32 := by
  rw [subF32, addVal_of_nan (h.imp_right negVal_of_nan), encF32_nan]

theorem mulF32_of_nan {a b : BitVec 32} (h : decF32 a = .nan ∨ decF32 b = .nan) : mulF32 a b = 0x7FC00000#32 := by
  rw [mulF32, mulVal_of_nan h, encF32_nan]

theorem addBf16_of_nan {a b : BitVec 16} (h : decodeFmt .bf16 a.toNat = .nan ∨ decodeFmt .bf16 b.toNat = .nan) :
    addBf16 a b = 0x7FC0#16 := by
  rw [addBf16, addVal_of_nan h]
  rfl

/-! ### MX blocks -/

theorem allFinite_of_nan_mem {vs : List Val} (h : Val.nan ∈ vs) : allFinite vs = false := by
  induction vs with
  | nil => cases h
  | cons v vs ih =>
    cases v with
    | nan => rfl
    | inf neg => rfl
    | fin neg m e =>
      have hvs : Val.nan ∈ vs := (List.mem_cons.1 h).resolve_left nofun
      exact ih hvs

/-- A block with a value that is no number has the NaN scale (R43). -/
theorem mxQuant_scale_of_not_allFinite {f : Fmt} {vs : List Val} (h : allFinite vs = false) : (mxQuant f vs).1 = 0xFF#8 := by
  simp [mxQuant, h]

/-- Settles O44: a NaN operand makes the exact result a NaN, and a NaN is encoded by the canonical one alone. -/
theorem nansAreCanonical : Obligations.NaNsAreCanonical := by
  unfold Obligations.NaNsAreCanonical
  refine ⟨fun f v => ?_, rfl, rfl, rfl, rfl, rfl, fun f g code => convertFmt_of_nan g,
    fun a b h => ⟨addF32_of_nan h, subF32_of_nan h, mulF32_of_nan h⟩, fun a b => addBf16_of_nan,
    fun f vs h => mxQuant_scale_of_not_allFinite (allFinite_of_nan_mem h)⟩
  by_cases h : v = .nan
  · exact .inl (h ▸ encodeFmt_nan f)
  · exact .inr h

end Sys2Proof.Machine
end

section
/-! SUPPORT. The timetable's next entry, the engines of a core, and the commands that bring an entry about (R49, R76, R278). -/
namespace Sys2Proof.Machine

section
variable {s : State}

/-! ### Taking the next entry of a kind -/

theorem runUntilN_first {d : Stack} {c : CoreIx} {ok : Act → Bool} {e : Timed} {rest : List Timed} (u : Upsets) (n : Nat)
    (h : (getCore s d c).agenda = e :: rest) (hk : ok e.act = true) :
    runUntilN d c u ok (n + 1) s = Claims.afterFirst s d c u e rest := by
  simp only [runUntilN, h, hk, if_true]
  rfl

theorem runUntil_first {d : Stack} {c : CoreIx} {ok : Act → Bool} {e : Timed} {rest : List Timed} (u : Upsets)
    (h : (getCore s d c).agenda = e :: rest) (hk : ok e.act = true) :
    runUntil d c u ok s = Claims.afterFirst s d c u e rest := by
  have hany : ((getCore s d c).agenda.any fun e => ok e.act) = true := by simp [h, hk]
  rw [runUntil, if_pos hany]
  exact runUntilN_first u _ h hk

theorem runUntil_of_none {d : Stack} {c : CoreIx} {ok : Act → Bool} (u : Upsets)
    (h : ∀ e ∈ (getCore s d c).agenda, ok e.act = false) : runUntil d c u ok s = s := by
  rw [runUntil, if_neg (by simpa using h)]

theorem gateCheck_of_clear {d : Stack} {c : CoreIx} (h : (getCore s d c).gateErr = false) : gateCheck d c s = s := by
  simp [gateCheck, h]

theorem gateCheck_runUntil_of_none {d : Stack} {c : CoreIx} {ok : Act → Bool} (u : Upsets) (hg : (getCore s d c).gateErr = false)
    (h : ∀ e ∈ (getCore s d c).agenda, ok e.act = false) : gateCheck d c (runUntil d c u ok s) = s := by
  rw [runUntil_of_none u h, gateCheck_of_clear hg]

/-! ### The commands of the timetable -/

theorem exec_fetchWordsReady (d : Stack) (c : CoreIx) (s : State) :
    exec (.fetchWordsReady d c) s = .next (gateCheck d c (runUntil d c [] Claims.isFetch s)) := rfl

theorem exec_macBlockUpdate_sound (d : Stack) (c : CoreIx) (s : State) :
    exec (.macBlockUpdate d c none) s = .next (gateCheck d c (runUntil d c [] Claims.isUpdate s)) := rfl

theorem exec_oploadComplete (d : Stack) (c : CoreIx) (s : State) :
    exec (.oploadComplete d c) s = .next (gateCheck d c (runUntil d c [] Claims.isLastLoad s)) := rfl

theorem exec_vaultReadBeat (d : Stack) (c : CoreIx) (u : Upsets) (s : State) :
    exec (.vaultReadBeat d c u) s = .next (gateCheck d c (runUntil d c u Claims.isReadBeat s)) := rfl

theorem exec_corePortHeader (d : Stack) (c : CoreIx) (s : State) :
    exec (.corePortHeader d c) s = .next (gateCheck d c (runUntil d c [] Claims.isHeader s)) := rfl

theorem exec_adderContributionBeat (d : Stack) (c : CoreIx) (s : State) :
    exec (.adderContributionBeat d c) s = .next (gateCheck d c (runUntil d c [] Claims.isData s)) := rfl

/-- A residue check that fails on the update is recorded at the engine that the entry names (R51). -/
theorem exec_macBlockUpdate_residue {d : Stack} {c : CoreIx} {e : Timed} {rest : List Timed} {p acc : Nat} {init : Bool}
    {vals : List (BitVec 32)} (g : Fin 16) (h : (getCore s d c).agenda = e :: rest) (he : e.act = .macUpd p acc init vals) :
    exec (.macBlockUpdate d c (some g)) s =
      .next (gateCheck d c (coreError d c (.engine d c p) g.val kResidue (Claims.afterFirst s d c [] e rest))) := by
  have hrun : runUntil d c [] Claims.isUpdate s = Claims.afterFirst s d c [] e rest := runUntil_first [] h (by rw [he]; rfl)
  rw [← hrun]
  simp only [exec, execMacBlockUpdate, h, List.find?_cons, he, Option.bind_some, done]
  rfl

theorem exec_macBlockUpdate_of_none {d : Stack} {c : CoreIx} (g : Option (Fin 16)) (hg : (getCore s d c).gateErr = false)
    (h : ∀ e ∈ (getCore s d c).agenda, Claims.isUpdate e.act = false) : exec (.macBlockUpdate d c g) s = .next s := by
  cases g with
  | none => rw [exec_macBlockUpdate_sound, gateCheck_runUntil_of_none [] hg h]
  | some g =>
    simp only [exec, execMacBlockUpdate, done]
    split
    · next hp =>
      obtain ⟨e, he, -⟩ := Option.bind_eq_some_iff.1 hp
      have hdue := List.find?_some he
      have hnot : Claims.isUpdate e.act = false := h e (List.mem_of_find?_eq_some he)
      exact absurd (hnot.symm.trans hdue) Bool.false_ne_true
    · exact congrArg _ (gateCheck_runUntil_of_none [] hg h)

/-! ### The adders' results -/

@[simp] theorem unitCore_core (c : CoreIx) (h : c.val < 17) : unitCore ⟨c.val, h⟩ = some c := dif_pos c.isLt

@[simp] theorem unitCore_lpddr : unitCore 16 = none := rfl

theorem exec_adderResult_vault (d : Stack) (c : CoreIx) (h : c.val < 17) (bad : Bool) (u : Upsets) (s : State) :
    exec (.adderResult d ⟨c.val, h⟩ bad u) s = .next (if (getCore s d c).agenda.any fun e => Claims.isResult e.act then
      if bad then adderError d ⟨c.val, h⟩ (runUntil d c u Claims.isResult s) else runUntil d c u Claims.isResult s else s) := by
  simp only [exec, execAdderResult, unitCore_core, done]
  exact (apply_ite Host.Outcome.next _ _ _).symm

theorem lpAdds_hold : Claims.lpAdds := by
  intro s d bad u
  refine ⟨fun h => ?_, fun g h hg => ?_, fun h hg => ?_⟩
  · simp [exec, execAdderResult, h, done]
  · simp [exec, execAdderResult, h, hg, done]
  · simp [exec, execAdderResult, h, hg, done]

/-! ### Entries that are due, and none -/

theorem entriesHappen_hold : Claims.entriesHappen := by
  intro s d c u e rest h
  refine ⟨fun hk => ?_, fun hk => ?_, fun hk => ?_, fun hk => ?_, fun hk => ?_, fun hk => ?_, fun bad hk => ?_,
    fun p acc init vals g he => exec_macBlockUpdate_residue g h he⟩
  · rw [exec_fetchWordsReady, runUntil_first [] h hk]
  · rw [exec_macBlockUpdate_sound, runUntil_first [] h hk]
  · rw [exec_oploadComplete, runUntil_first [] h hk]
  · rw [exec_vaultReadBeat, runUntil_first u h hk]
  · rw [exec_corePortHeader, runUntil_first [] h hk]
  · rw [exec_adderContributionBeat, runUntil_first [] h hk]
  · rw [exec_adderResult_vault, if_pos (by simp [h, hk]), runUntil_first u h hk]

theorem nothingDue_hold : Claims.nothingDue := by
  intro s d c u bad hg
  refine ⟨fun h => ?_, fun h g => exec_macBlockUpdate_of_none g hg h, fun h => ?_, fun h => ?_, fun h => ?_, fun h => ?_, fun h => ?_⟩
  · rw [exec_fetchWordsReady, gateCheck_runUntil_of_none [] hg h]
  · rw [exec_oploadComplete, gateCheck_runUntil_of_none [] hg h]
  · rw [exec_vaultReadBeat, gateCheck_runUntil_of_none u hg h]
  · rw [exec_corePortHeader, gateCheck_runUntil_of_none [] hg h]
  · rw [exec_adderContributionBeat, gateCheck_runUntil_of_none [] hg h]
  · rw [exec_adderResult_vault, if_neg (by simpa using h)]

/-! ### The engines of a core -/

/-- Changing an engine changes nothing of the core but its engines. -/
theorem updEng_eq (p : Nat) (f : Engine → Engine) (x : Core) : updEng p f x = { x with engines := (updEng p f x).engines } := by
  unfold updEng
  split <;> rfl

theorem getEng_updEng_same {p : Nat} (hp : p < 4) (f : Engine → Engine) (x : Core) : getEng (updEng p f x) p = f (getEng x p) := by
  match p, hp with
  | 0, _ => rfl
  | 1, _ => rfl
  | 2, _ => rfl
  | 3, _ => rfl

theorem getEng_updEng_other {p q : Nat} (h : q ≠ p) (f : Engine → Engine) (x : Core) : getEng (updEng p f x) q = getEng x q := by
  unfold updEng
  split
  case h_5 => rfl
  all_goals
    unfold getEng
    split <;> simp_all

/-- The engines are those of the core, whatever else of it changes. -/
theorem getEng_congr {x y : Core} (h : x.engines = y.engines) (p : Nat) : getEng x p = getEng y p := by
  unfold getEng
  rw [h]

/-! ### A MAC block's result (R49, R76) -/

/-- The lanes of an accumulator with a block's results added in; INIT starts them from +0. -/
def macSums (x : Core) (p acc : Nat) (init : Bool) (vals : List (BitVec 32)) : List (BitVec 32) :=
  vals.zipIdx.map fun v => addF32 (if init then 0#32 else getAcc x p acc v.2) v.1

/-- The update of an accumulator as a change of its core alone. -/
theorem macUpdNow_eq (d : Stack) (c : CoreIx) (p acc : Nat) (init : Bool) (vals : List (BitVec 32)) (s : State) :
    macUpdNow d c p acc init vals s = updCore d c (fun x => setAcc p acc 0 (macSums x p acc init vals) x) s := rfl

/-- The core after the update that its timetable brings. -/
theorem getCore_afterFirst_macUpd {d : Stack} {c : CoreIx} (k w p acc : Nat) (init : Bool) (vals : List (BitVec 32))
    (rest : List Timed) (hs : s.canon = true) :
    getCore (Claims.afterFirst s d c [] ⟨k, w, .macUpd p acc init vals⟩ rest) d c =
      { setAcc p acc 0 (macSums (getCore s d c) p acc init vals) { getCore s d c with agenda := rest } with
        now := max (setAcc p acc 0 (macSums (getCore s d c) p acc init vals) { getCore s d c with agenda := rest }).now (k / 8) } := by
  have hk := updCore_keeps d c (fun x => { x with agenda := rest }) (Keeps.refl s)
  unfold Claims.afterFirst
  rw [getCore_updCore_same _ _ _ ((runFirst_keeps d c [] _ rest (Keeps.refl s)).canon hs)]
  simp only [runFirst, runAct, macUpdNow_eq]
  rw [getCore_updCore_same _ _ _ (hk.canon hs), getCore_updCore_same _ _ _ hs]
  rfl

theorem blockUpdates_hold : Claims.blockUpdates := by
  intro s d c k w p acc init vals rest hs h hg hp
  obtain ⟨t, ht⟩ : ∃ t, t = Claims.afterFirst s d c [] ⟨k, w, .macUpd p acc init vals⟩ rest := ⟨_, rfl⟩
  obtain ⟨y, hy⟩ : ∃ y, y = setAcc p acc 0 (macSums (getCore s d c) p acc init vals) { getCore s d c with agenda := rest } := ⟨_, rfl⟩
  have hcore : getCore t d c = { y with now := max y.now (k / 8) } := by
    rw [ht, hy]
    exact getCore_afterFirst_macUpd k w p acc init vals rest hs
  have heng (q : Nat) : getEng (getCore t d c) q = getEng y q := getEng_congr (by rw [hcore]) q
  have hrest : y = { getCore s d c with agenda := rest, engines := y.engines } := by rw [hy]; exact updEng_eq _ _ _
  have hself := getEng_updEng_same hp
  refine ⟨t, ?_, ?_, ?_, ?_, fun q hq => ?_, ?_, ?_⟩
  · have hclear : (getCore t d c).gateErr = false := by rw [hcore, hrest]; exact hg
    rw [exec_macBlockUpdate_sound, runUntil_first [] h rfl, ← ht, gateCheck_of_clear hclear]
  · rw [heng, hy, setAcc, setAcc, hself, hself]
    rfl
  · rw [heng, hy, setAcc, hself]
    rfl
  · rw [heng, hy, setAcc, hself]
    rfl
  · rw [heng, hy, setAcc, getEng_updEng_other hq]
    rfl
  · rw [hcore, hrest]
  · rw [ht]
    rfl

end

/-- Settles O5, one group of clauses after another: entries that are due, none, the blocks' results, and the LPDDR adder. -/
theorem timetableEntriesHappen : Obligations.TimetableEntriesHappen :=
  ⟨entriesHappen_hold, nothingDue_hold, blockUpdates_hold, lpAdds_hold⟩

end Sys2Proof.Machine
end

section
/-! SUPPORT. Near-bank processors: what the operations of memory, of errors and of code words leave of the BPs, and how a BP runs the
instruction at its pc. -/
namespace Sys2Proof.Machine

/-! ### Sparse data in any order -/

/-- A key reads what was put there whatever the order of the list, where that is not what an unlisted key reads as. -/
theorem sget_sput_of_ne {α : Type} [DecidableEq α] {d x : α} {a : Nat} (hx : x ≠ d) (m : SMap α) : sget d (sput d m a x) a = x := by
  rw [sput, if_neg hx]
  induction m with
  | nil => exact if_pos rfl
  | cons p m ih =>
    unfold sinsert
    split
    · exact if_pos rfl
    · split
      · exact if_pos rfl
      · next hne => exact (if_neg hne).trans ih

/-! ### Memory -/

/-- Bytes are read of memory alone. -/
theorem readMem_congr {s t : State} (h : t.mem = s.mem) (n : Nat) : ∀ k, readMem t k n = readMem s k n := by
  induction n with
  | zero => exact fun _ => rfl
  | succ n ih => intro k; rw [readMem, readMem, ih, readByte, readByte, h]

theorem readByte_congr {s t : State} (h : t.mem = s.mem) (k : Nat) : readByte t k = readByte s k := by rw [readByte, readByte, h]

/-- A number written to `n` bytes reads back cut to their bits. -/
theorem readMem_writeMem_bits {s : State} (k n v : Nat) (hs : memWf s.mem = true) : readMem (writeMem k n v s) k n = v % 2 ^ (8 * n) := by
  rw [readMem_writeMem n k v hs, Nat.pow_mul]

/-- A word of `n` bytes reads back whole. -/
theorem readMem_writeMem_word {s : State} {n : Nat} (k : Nat) (v : BitVec (8 * n)) (hs : memWf s.mem = true) :
    readMem (writeMem k n v.toNat s) k n = v.toNat := by
  rw [readMem_writeMem_bits k n _ hs, Nat.mod_eq_of_lt v.isLt]

@[simp] theorem writeMem_bps (n : Nat) : ∀ (k v : Nat) (s : State), (writeMem k n v s).bps = s.bps := by
  induction n with
  | zero => exact fun _ _ _ => rfl
  | succ n ih => exact fun k v s => (ih _ _ _).trans rfl

/-! ### What errors leave of the BPs -/

@[simp] theorem storeError_bps (st : Station) (unit kind sel info : Nat) (s : State) :
    (storeError st unit kind sel info s).bps = s.bps :=
  (congrArg State.bps (storeError_frame st unit kind sel info s)).trans rfl

@[simp] theorem countRound_bps (st : Station) (kind : Nat) (s : State) : (countRound st kind s).bps = s.bps := by
  unfold countRound
  split
  · split
    · rfl
    · exact satF_bps ..
  · rfl

@[simp] theorem containment_bps (parent : Station) (s : State) : (containment parent s).bps = s.bps := by
  have stop (d : Stack) : (stopPartition d s).bps = s.bps := by
    unfold stopPartition
    dsimp only
    split
    · rw [updDie_bps, putF_bps]
    · rw [putF_bps]
  unfold containment postSuspect
  split
  · exact stop _
  · exact stop _
  · rfl

@[simp] theorem countSent_bps (st : Station) (unit : Nat) (s : State) : (countSent st unit s).bps = s.bps := by
  rw [countSent, putF_bps, satF_bps]

theorem recordUp_bps (n : Nat) : ∀ (st : Station) (unit kind sel info : Nat) (s : State), (recordUp n st unit kind sel info s).bps = s.bps := by
  induction n with
  | zero => exact fun _ _ _ _ _ _ => rfl
  | succ n ih =>
    intro st unit kind sel info s
    unfold recordUp
    split
    · dsimp only
      split
      · rw [containment_bps, ih, satF_bps, countSent_bps]
      · split
        · rw [updDie_bps, countSent_bps]
        · rw [countSent_bps]
    · rw [countRound_bps, storeError_bps]

@[simp] theorem recordErr_bps (st : Station) (unit kind sel info : Nat) (s : State) : (recordErr st unit kind sel info s).bps = s.bps :=
  recordUp_bps 4 st unit kind sel info s

@[simp] theorem poisonStep_bps (d : Stack) (c : CoreIx) (s : State) : (poisonStep d c s).bps = s.bps := rfl

@[simp] theorem noteFault_bps (d : Stack) (kind : Nat) (s : State) : (noteFault d kind s).bps = s.bps := rfl

@[simp] theorem bpFault_bps (d : Stack) (c : CoreIx) (j kind cause pc mcycle : Nat) (s : State) :
    (bpFault d c j kind cause pc mcycle s).bps = s.bps := by
  unfold bpFault
  dsimp only
  have record (v : Word) : (if getF s (r_BP_FAULT d j c) f_BP_FAULT_VALID = 1 then s else putReg s (r_BP_FAULT d j c) v).bps = s.bps := by
    split
    · rfl
    · rw [putReg_bps]
  rw [poisonStep_bps, recordErr_bps]
  split
  · exact record _
  · rw [noteFault_bps, record]

/-! ### What code words leave of the BPs -/

@[simp] theorem countWord_bps (a : Nat) (o : CodeOutcome) (s : State) : (countWord a o s).bps = s.bps := by
  cases o
  case clean => rfl
  all_goals exact bumpF_bps ..

@[simp] theorem markRow_bps (d : Stack) (c : CoreIx) (j off : Nat) (s : State) : (markRow d c j off s).bps = s.bps := by
  unfold markRow
  split
  · rfl
  · unfold requestSegment
    split
    · split
      · rw [putF_bps, updVc_bps]
      · rw [updVc_bps]
    · rw [updVc_bps]

@[simp] theorem storeBankWord_bps (d : Stack) (c : CoreIx) (j off who : Nat) (w : CodeWord) (s : State) :
    (storeBankWord d c j off who w s).bps = s.bps := by
  unfold storeBankWord writeWord
  dsimp only
  split
  · rw [writeChk_bps, writeMem_bps, putF_bps, updVc_bps]
  · rw [writeChk_bps, writeMem_bps, updVc_bps]

@[simp] theorem bpStore_bps (d : Stack) (c : CoreIx) (j off : Nat) (v : BitVec 512) (s : State) : (bpStore d c j off v s).bps = s.bps :=
  storeBankWord_bps d c _ _ _ _ s

@[simp] theorem vaultPoison_bps (d : Stack) (c : CoreIx) (a : Nat) (v : BitVec 512) (s : State) : (vaultPoison d c a v s).bps = s.bps :=
  storeBankWord_bps d c _ _ _ _ s

@[simp] theorem bpLoad_bps (d : Stack) (c : CoreIx) (j off : Nat) (s : State) : (bpLoad d c j off s).2.2.bps = s.bps := by
  unfold bpLoad
  dsimp only
  split
  · rw [poisonStep_bps]
    split
    · rw [markRow_bps, recordErr_bps, countWord_bps]
    · rw [recordErr_bps, countWord_bps]
  · rw [countWord_bps]

@[simp] theorem bpRmw_bps (d : Stack) (c : CoreIx) (j : Nat) (e : MergeEntry) (s : State) : (bpRmw d c j e s).bps = s.bps := by
  unfold bpRmw
  dsimp only
  split
  · rw [vaultPoison_bps, bpLoad_bps]
  · rw [bpStore_bps, bpLoad_bps]

@[simp] theorem addAct_mem (d : Stack) (j n : Nat) (s : State) : (addAct d j n s).mem = s.mem := rfl
@[simp] theorem addAct_regs (d : Stack) (j n : Nat) (s : State) : (addAct d j n s).regs = s.regs := rfl
@[simp] theorem addAct_bps (d : Stack) (j n : Nat) (s : State) : (addAct d j n s).bps = s.bps := rfl

@[simp] theorem creditRow_bps (d : Stack) (c : CoreIx) (j off : Nat) (s : State) : (creditRow d c j off s).bps = s.bps := by
  unfold creditRow
  split <;> rfl

/-- A BP is read of the BPs alone. -/
theorem getBp_congr {s t : State} (h : t.bps = s.bps) (d : Stack) (c : CoreIx) (j : Nat) : getBp t d c j = getBp s d c j := by
  unfold getBp
  rw [h]

/-! ### The scoreboard -/

/-- A result on the scoreboard changes nothing else of the BP. -/
theorem readyAt_eq (k m : Nat) (b : Bp) : readyAt k m b = { b with ready := (readyAt k m b).ready } := by
  unfold readyAt
  split <;> rfl

@[simp] theorem readyAt_run (k m : Nat) (b : Bp) : (readyAt k m b).run = b.run := by rw [readyAt_eq]
@[simp] theorem readyAt_pc (k m : Nat) (b : Bp) : (readyAt k m b).pc = b.pc := by rw [readyAt_eq]
@[simp] theorem readyAt_x (k m : Nat) (b : Bp) : (readyAt k m b).x = b.x := by rw [readyAt_eq]
@[simp] theorem readyAt_v (k m : Nat) (b : Bp) : (readyAt k m b).v = b.v := by rw [readyAt_eq]
@[simp] theorem readyAt_merge (k m : Nat) (b : Bp) : (readyAt k m b).merge = b.merge := by rw [readyAt_eq]
@[simp] theorem readyAt_mc (k m : Nat) (b : Bp) : (readyAt k m b).mc = b.mc := by rw [readyAt_eq]

/-! ### The instruction at the pc -/

/-- A custom instruction at the pc of a running BP has its effect, with the parity check of what it read. -/
theorem bpCustom_at {s : State} {d : Stack} {c : CoreIx} {j : BpIx} {w : Nat} {o : BpOp} (h : Claims.bpAt s d c j w o) (p : Bool) :
    bpCustom d c j.val o p s = bpParity d c j.val p (bpCustomRun d c j.val o w s) := by
  obtain ⟨hrun, hfetch, hop⟩ := h
  simp only [bpCustom, hrun, hfetch, hop, if_true]

/-- A command of a custom instruction executes the one that stands at the pc. -/
theorem exec_custom {s : State} {d : Stack} {c : CoreIx} {j : BpIx} {w : Nat} {o : BpOp} {i : Instr} (h : Claims.bpAt s d c j w o) (p : Bool)
    (hi : exec i s = .next (bpCustom d c j.val o p s)) : exec i s = .next (bpParity d c j.val p (bpCustomRun d c j.val o w s)) :=
  hi.trans (congrArg _ (bpCustom_at h p))

end Sys2Proof.Machine
end

section
/-! SUPPORT. The merge buffer of a near-bank processor (R151, R160, R168, R174). -/
namespace Sys2Proof.Machine

/-! ### Traps (R143, R152) -/

theorem reloadProgram_bps (d : Stack) (c : CoreIx) (j : Nat) (s : State) : (reloadProgram d c j s).bps = s.bps := by
  unfold reloadProgram
  refine forAll_frame State.bps (fun g t => ?_) _ s
  split
  · refine forAll_frame State.bps (fun b u => ?_) _ t
    split
    · rw [writeByte_bps]
    · rfl
  · rfl

/-- A BP that traps has stopped; STOPPED discards its merge entries and returns its group (R151). -/
theorem getBp_bpTrap {s : State} (d : Stack) (c : CoreIx) (j cause : Nat) (hs : s.canon = true) :
    getBp (bpTrap d c j cause s) d c j =
      if cause = tStopped then { getBp s d c j with run := .trapped, merge := [], owned := false } else { getBp s d c j with run := .trapped } := by
  obtain ⟨t, ht, hcanon, hbps⟩ : ∃ t, bpTrap d c j cause s = updBp d c j (fun b =>
      if cause = tStopped then { b with run := .trapped, merge := [], owned := false } else { b with run := .trapped }) t ∧
      t.canon = true ∧ t.bps = s.bps := by
    have hk := bpFault_keeps d c j bfTrap cause (getBp s d c j).pc.toNat ((getBp s d c j).mc - (getBp s d c j).started) (Keeps.refl s)
    refine ⟨_, rfl, ?_⟩
    split
    · exact ⟨(reloadProgram_keeps d c j hk).canon hs, (reloadProgram_bps ..).trans (bpFault_bps ..)⟩
    · exact ⟨hk.canon hs, bpFault_bps ..⟩
  rw [ht, getBp_updBp_same _ _ _ _ hcanon, getBp_congr hbps]

/-! ### Write-backs (R160) -/

/-- A write-back takes the entry out of the merge buffer, and the BP runs on where it stood. -/
theorem getBp_bpWriteBack {s : State} (d : Stack) (c : CoreIx) (j m : Nat) (e : MergeEntry) (hs : s.canon = true) :
    (getBp (bpWriteBack d c j m e s).2 d c j).merge = (getBp s d c j).merge.filter (fun x => x.addr ≠ e.addr) ∧
    (getBp (bpWriteBack d c j m e s).2 d c j).run = (getBp s d c j).run ∧
    (getBp (bpWriteBack d c j m e s).2 d c j).pc = (getBp s d c j).pc := by
  unfold bpWriteBack
  dsimp only
  split
  · rw [getBp_congr ((addAct_bps ..).trans ((bpStore_bps ..).trans (creditRow_bps ..))), getBp_updBp_same _ _ _ _ hs]
    simp [noteWrite, noteAct]
  · rw [getBp_congr ((addAct_bps ..).trans ((bpRmw_bps ..).trans (creditRow_bps ..))), getBp_updBp_same _ _ _ _ hs]
    simp [noteWrite, noteAct]

/-- After write-backs the merge buffer holds only entries of words that none of them wrote. -/
theorem getBp_bpWriteBacks (d : Stack) (c : CoreIx) (j m : Nat) (l : List MergeEntry) : ∀ {s : State}, s.canon = true →
    (∀ x ∈ (getBp (bpWriteBacks d c j m l s) d c j).merge, x ∈ (getBp s d c j).merge ∧ ∀ e ∈ l, x.addr ≠ e.addr) ∧
    (getBp (bpWriteBacks d c j m l s) d c j).run = (getBp s d c j).run ∧
    (getBp (bpWriteBacks d c j m l s) d c j).pc = (getBp s d c j).pc := by
  induction l with
  | nil => exact fun _ => ⟨fun x hx => ⟨hx, by simp⟩, rfl, rfl⟩
  | cons e l ih =>
    intro s hs
    obtain ⟨hmerge, hrun, hpc⟩ := getBp_bpWriteBack d c j m e hs
    obtain ⟨imerge, irun, ipc⟩ := ih ((bpWriteBack_keeps d c j m e (Keeps.refl s)).canon hs)
    refine ⟨fun x hx => ?_, irun.trans hrun, ipc.trans hpc⟩
    obtain ⟨hin, hl⟩ := imerge x hx
    rw [hmerge, List.mem_filter, decide_eq_true_eq] at hin
    exact ⟨hin.1, List.forall_mem_cons.2 ⟨hin.2, hl⟩⟩

/-- A fence empties the merge buffer; BV.HALT stops the BP where it stands, BV.FENCE lets it go on. -/
theorem getBp_bvFence {s : State} (d : Stack) (c : CoreIx) (j : Nat) (halt : Bool) (hs : s.canon = true) :
    (getBp (bvFence d c j halt s) d c j).merge = [] ∧
    (getBp (bvFence d c j halt s) d c j).run = (if halt then .halted else (getBp s d c j).run) ∧
    (getBp (bvFence d c j halt s) d c j).pc = (if halt then (getBp s d c j).pc else (getBp s d c j).pc + 4) := by
  have hcanon := (bpWriteBacks_keeps d c j (getBp s d c j).mc (getBp s d c j).merge (Keeps.refl s)).canon hs
  obtain ⟨hmerge, hrun, hpc⟩ := getBp_bpWriteBacks d c j (getBp s d c j).mc (getBp s d c j).merge hs
  have hnone := List.eq_nil_iff_forall_not_mem.2 fun x hx => (hmerge x hx).2 x (hmerge x hx).1 rfl
  unfold bvFence
  dsimp only
  rw [getBp_updBp_same _ _ _ _ hcanon]
  cases halt
  case false => exact ⟨hnone, hrun, congrArg (· + 4) hpc⟩
  case true => exact ⟨hnone, rfl, hpc⟩

/-! ### Partial stores (R160) -/

/-- A sum of distinct powers of two below 2^k that leaves out 2^i has room for it. -/
theorem foldl_two_pow_add_lt {P : Nat → Prop} [DecidablePred P] {i : Nat} (hi : ¬P i) : ∀ k, i < k →
    (List.range k).foldl (fun m i => if P i then m + 2 ^ i else m) 0 + 2 ^ i < 2 ^ k := by
  have bound : ∀ k, (List.range k).foldl (fun m i => if P i then m + 2 ^ i else m) 0 < 2 ^ k := by
    intro k
    induction k with
    | zero => exact Nat.one_pos
    | succ k ih =>
      rw [List.range_succ, List.foldl_append, Nat.pow_succ]
      simp only [List.foldl_cons, List.foldl_nil]
      split <;> omega
  intro k hk
  induction k with
  | zero => omega
  | succ k ih =>
    rw [List.range_succ, List.foldl_append, Nat.pow_succ]
    simp only [List.foldl_cons, List.foldl_nil]
    rcases Nat.lt_succ_iff_lt_or_eq.1 hk with hlt | rfl
    · have := ih hlt
      split <;> omega
    · rw [if_neg hi]
      have := bound i
      omega

/-- Fewer than 64 bytes of a word leave its merge entry open. -/
theorem maskFor_ne_allOnes {off n : Nat} (hn : n < 64) : maskFor (off / 64 * 64) off n ≠ BitVec.allOnes 64 := by
  obtain ⟨i, hi, hout⟩ : ∃ i, i < 64 ∧ ¬(off ≤ off / 64 * 64 + i ∧ off / 64 * 64 + i < off + n) := by
    by_cases h0 : off % 64 = 0
    · exact ⟨63, by omega, by omega⟩
    · exact ⟨0, by omega, by omega⟩
  have hlt := foldl_two_pow_add_lt (P := fun i => off ≤ off / 64 * 64 + i ∧ off / 64 * 64 + i < off + n) hout 64 hi
  have hpos := Nat.two_pow_pos i
  intro hfull
  have hnat := congrArg BitVec.toNat hfull
  rw [maskFor, BitVec.toNat_ofNat, BitVec.toNat_allOnes, Nat.mod_eq_of_lt (by omega)] at hnat
  omega

/-- BV.STP of bytes that leave a new entry open, while the merge buffer has room, adds the entry and does no more than go on. -/
theorem bvStp_opens {s : State} {d : Stack} {c : CoreIx} {j w sc : Nat}
    (hin : (bpX (getBp s d c j) (fRs1 w)).toNat % 64 + (fF7 w + 1) ≤ 64) (hoff : (bpX (getBp s d c j) (fRs1 w)).toNat < 2 ^ 26)
    (hsc : inScratch (bpX (getBp s d c j) (fRs2 w)).toNat (fF7 w + 1) = some sc)
    (hlive : liveEntry (getBp s d c j).merge ((bpX (getBp s d c j) (fRs1 w)).toNat / 64 * 64) = none)
    (hroom : (getBp s d c j).merge.length < 4) (hopen : fF7 w + 1 < 64) :
    let off := (bpX (getBp s d c j) (fRs1 w)).toNat
    let mask := maskFor (off / 64 * 64) off (fF7 w + 1)
    let m := bpWait (getBp s d c j) ([fRs1 w, fRs2 w] ++ scratchKeys sc (fF7 w + 1))
    bvStp d c j w s = updBp d c j (fun b => bpNext m 1 (b.pc + 4) (useScratch sc (fF7 w + 1) m { b with merge := b.merge ++
      [⟨off / 64 * 64, maskBytes mask 0 (dataFor (off / 64 * 64) off (readMem s (scratchKey d c j sc) (fF7 w + 1))), mask, m⟩] })) s := by
  intro off mask m
  unfold bvStp
  dsimp only
  rw [hsc, show (decide _ && decide _) = true by rw [decide_eq_true hin, decide_eq_true hoff]; rfl]
  cases hl : (getBp s d c j).merge
  all_goals
    rw [hl] at hlive hroom
    simp only [hlive, if_neg (Nat.not_le.2 hroom), if_neg (maskFor_ne_allOnes hopen)]
    simp only [updBp, hl, hlive]
    rfl

/-! ### The statement about bank instructions -/

theorem bankInstructions_hold : Claims.bankInstructions := by
  intro s d c j w sc p
  exact ⟨fun h _ _ => exec_custom h p rfl, fun h _ _ => exec_custom h p rfl, fun h _ _ _ => exec_custom h p rfl,
    fun h _ _ => exec_custom h p rfl, fun h => exec_custom h p rfl, fun h => exec_custom h p rfl⟩

theorem partialStores_hold : Claims.partialStores := by
  intro s d c j w sc hs b off n word h hin hoff hsc hlive hroom hopen m
  refine ⟨bvStp d c j.val w s, fun p => exec_custom h p rfl, ?_⟩
  rw [bvStp_opens hin hoff hsc hlive hroom hopen, getBp_updBp_same _ _ _ _ hs]
  exact ⟨rfl, rfl, fun k => readByte_updBp .., updBp_regs ..⟩

theorem fencesEmpty_hold : Claims.fencesEmpty := by
  intro s d c j w hs
  refine ⟨fun h => ?_, fun h => ?_⟩
  · obtain ⟨hmerge, hrun, hpc⟩ := getBp_bvFence d c j.val false hs
    exact ⟨bvFence d c j.val false s, fun p => exec_custom h p rfl, hmerge, hrun.trans h.1, hpc⟩
  · obtain ⟨hmerge, hrun, hpc⟩ := getBp_bvFence d c j.val true hs
    exact ⟨bvFence d c j.val true s, fun p => exec_custom h p rfl, hmerge, hrun, hpc⟩

theorem timeoutsAndStops_hold : Claims.timeoutsAndStops := by
  intro s d c j hs
  refine ⟨fun e r h => ?_, fun h => ?_⟩
  · simp only [exec, execBpMergeTimeout, bpMergeTimeout, h, done]
  · refine ⟨bpTrap d c j.val tStopped s, ?_, ?_⟩
    · simp only [exec, execBpStop, bpStop, h, if_true, done]
    · rw [getBp_bpTrap d c j.val tStopped hs]
      exact ⟨rfl, rfl, rfl⟩

/-- Settles O12, one group of clauses after another: the instructions, partial stores, fences, time-outs and stops. -/
theorem bpBankInstructionsExecute : Obligations.BpBankInstructionsExecute :=
  ⟨bankInstructions_hold, partialStores_hold, fencesEmpty_hold, timeoutsAndStops_hold⟩

end Sys2Proof.Machine
end

section
/-! SUPPORT. The scalar core of a near-bank processor (R143, R144, R152, R169). -/
namespace Sys2Proof.Machine

/-! ### The scalar instruction at the pc -/

section
variable {s : State} {d : Stack} {c : CoreIx} {j w len : Nat}

/-- A 32-bit instruction or the expansion of a 16-bit one is executed with its own length. -/
theorem bpScalarRow_executes {h : Nat} (hrun : (getBp s d c j).run = .running) (hf : bpFetch s d c j = some (h, len))
    (hw : len = 4 ∧ w = h ∧ customOp w = none ∨ len = 2 ∧ expandC h = some w) (p : Bool) :
    bpScalarRow d c j false p s = bpParity d c j p (bpScalar d c j w len s) := by
  rcases hw with ⟨rfl, rfl, hop⟩ | ⟨rfl, hx⟩
  · simp [bpScalarRow, hrun, hf, hop]
  · simp [bpScalarRow, hrun, hf, hx]

/-- A pc outside program memory traps ACCESS. -/
theorem bpScalarRow_outside (hrun : (getBp s d c j).run = .running) (hf : bpFetch s d c j = none) (ue p : Bool) :
    bpScalarRow d c j ue p s = bpTrap d c j tAccess s := by
  simp only [bpScalarRow, hrun, hf, if_true]

/-- An uncorrectable word of program memory traps FETCH_UE. -/
theorem bpScalarRow_uncorrectable {h : Nat} (hrun : (getBp s d c j).run = .running) (hf : bpFetch s d c j = some (h, len)) (p : Bool) :
    bpScalarRow d c j true p s = bpTrap d c j tFetchUe s := by
  simp only [bpScalarRow, hrun, hf, if_true]

/-- A 16-bit word outside RV32C traps ILLEGAL. -/
theorem bpScalarRow_illegal {h : Nat} (hrun : (getBp s d c j).run = .running) (hf : bpFetch s d c j = some (h, 2)) (hx : expandC h = none)
    (p : Bool) : bpScalarRow d c j false p s = bpTrap d c j tIllegal s := by
  simp [bpScalarRow, hrun, hf, hx]

/-! ### What a scalar instruction does -/

theorem bpScalar_trap {cause : Nat} (hop : scalarOp (getBp s d c j) w len = .trap cause) : bpScalar d c j w len s = bpTrap d c j cause s := by
  simp only [bpScalar, hop]

theorem bpScalar_step {rd issue lat : Nat} {v pc : BitVec 32} (hop : scalarOp (getBp s d c j) w len = .step rd v pc issue lat) :
    let m := bpWait (getBp s d c j) (scalarSources w)
    bpScalar d c j w len s = addAct d j 1 (updBp d c j (fun b => { readyAt rd (m + lat) (setX rd v b) with mc := m + issue, pc := pc }) s) := by
  simp only [bpScalar, hop]
  rfl

theorem bpScalar_load_misaligned {rd a n : Nat} {sg : Bool} (hop : scalarOp (getBp s d c j) w len = .load rd a n sg) (ha : a % n ≠ 0) :
    bpScalar d c j w len s = bpTrapAt d c j (bpWait (getBp s d c j) (scalarSources w)) tMisaligned s := by
  simp only [bpScalar, hop, if_pos ha]

theorem bpScalar_load_outside {rd a n : Nat} {sg : Bool} (hop : scalarOp (getBp s d c j) w len = .load rd a n sg) (ha : a % n = 0)
    (hk : loadKey d c j a n = none) : bpScalar d c j w len s = bpTrapAt d c j (bpWait (getBp s d c j) (scalarSources w)) tAccess s := by
  simp [bpScalar, hop, ha, hk]

theorem bpScalar_store_misaligned {a n : Nat} {v : BitVec 32} (hop : scalarOp (getBp s d c j) w len = .store a n v) (ha : a % n ≠ 0) :
    bpScalar d c j w len s = bpTrapAt d c j (bpWait (getBp s d c j) (scalarSources w)) tMisaligned s := by
  simp only [bpScalar, hop, if_pos ha]

theorem bpScalar_store_outside {a n : Nat} {v : BitVec 32} (hop : scalarOp (getBp s d c j) w len = .store a n v) (ha : a % n = 0)
    (hk : inScratch a n = none) : bpScalar d c j w len s = bpTrapAt d c j (bpWait (getBp s d c j) (scalarSources w)) tAccess s := by
  simp [bpScalar, hop, ha, hk]

/-- What a load of `n` bytes writes to its register. -/
def loadValue (sg : Bool) (n v : Nat) : BitVec 32 := if sg then w32 (sext (8 * n) v) else BitVec.ofNat 32 v

/-- A load changes its BP alone: the register takes the value, and the BP goes on with the next word. -/
theorem bpScalar_load {rd a n k : Nat} {sg : Bool} (hop : scalarOp (getBp s d c j) w len = .load rd a n sg) (ha : a % n = 0)
    (hk : loadKey d c j a n = some k) : ∃ f : Bp → Bp, bpScalar d c j w len s = addAct d j 1 (updBp d c j f s) ∧
      ∀ b, (f b).x = (setX rd (loadValue sg n (readMem s k n)) b).x ∧ (f b).pc = (getBp s d c j).pc + BitVec.ofNat 32 len := by
  cases hsc : inScratch a n
  all_goals
    refine ⟨_, by simp only [bpScalar, hop, ha, hk, hsc, ne_eq, not_true_eq_false, if_false]; rfl, fun b => ?_⟩
    exact ⟨readyAt_x .., rfl⟩

/-- A store writes its bytes of scratch, and its BP goes on with the next word. -/
theorem bpScalar_store {a n o : Nat} {v : BitVec 32} (hop : scalarOp (getBp s d c j) w len = .store a n v) (ha : a % n = 0)
    (hk : inScratch a n = some o) : ∃ f : Bp → Bp, bpScalar d c j w len s =
      addAct d j 1 (updBp d c j f (writeMem (scratchKey d c j o) n v.toNat s)) ∧
      ∀ b, (f b).x = b.x ∧ (f b).pc = (getBp s d c j).pc + BitVec.ofNat 32 len := by
  refine ⟨_, by simp only [bpScalar, hop, ha, hk, ne_eq, not_true_eq_false, if_false]; rfl, fun b => ?_⟩
  exact ⟨rfl, rfl⟩

end

/-! ### The statement about scalar instructions -/

theorem scalarSteps_hold : Claims.scalarSteps := by
  intro s d c j h w len rd issue lat v pc p hrun hf hw hop m
  have he : exec (.rv32imcInstruction d c j false p) s = .next (bpScalarRow d c j.val false p s) := rfl
  rw [he, bpScalarRow_executes hrun hf hw, bpScalar_step hop]

theorem scalarMemory_hold : Claims.scalarMemory := by
  intro s d c j w rd a n k sg v hs hrun hf hop ha _
  have he (p : Bool) : exec (.rv32imcInstruction d c j false p) s = .next (bpParity d c j.val p (bpScalar d c j.val w 4 s)) :=
    congrArg Host.Outcome.next (bpScalarRow_executes hrun hf (.inl ⟨rfl, rfl, hop⟩) p)
  refine ⟨fun hl hk => ⟨_, he, ?_⟩, fun hst hk => ⟨_, he, ?_⟩⟩
  · obtain ⟨f, hstep, hbp⟩ := bpScalar_load hl ha hk
    have hget : getBp (bpScalar d c j.val w 4 s) d c j.val = f (getBp s d c j.val) := by
      rw [hstep, getBp_congr (addAct_bps ..), getBp_updBp_same _ _ _ _ hs]
    rw [hget]
    exact ⟨(hbp _).1, (hbp _).2, fun x => by rw [hstep]; rfl⟩
  · obtain ⟨f, hstep, hbp⟩ := bpScalar_store hst ha hk
    have hget : getBp (bpScalar d c j.val w 4 s) d c j.val = f (getBp s d c j.val) := by
      rw [hstep, getBp_congr (addAct_bps ..), getBp_updBp_same _ _ _ _ (canon_writeMem _ _ _ hs), getBp_congr (writeMem_bps ..)]
    have hmem : (bpScalar d c j.val w 4 s).mem = (writeMem (scratchKey d c j.val k) n v.toNat s).mem := by
      rw [hstep, addAct_mem, updBp_mem]
    rw [hget, readMem_congr hmem, readMem_writeMem_bits _ _ _ (memWf_of_canon hs)]
    refine ⟨rfl, (hbp _).1, (hbp _).2, fun x hx => ?_⟩
    rw [readByte_congr hmem, readByte_writeMem_outside _ _ _ hx]

theorem scalarTraps_hold : Claims.scalarTraps := by
  intro s d c j w p hs hrun b m row late
  have run {ue : Bool} {t : State} (h : bpScalarRow d c j.val ue p s = t) : row ue t := congrArg Host.Outcome.next h
  refine ⟨fun hf ue => run (bpScalarRow_outside hrun hf ue p), fun n hf => run (bpScalarRow_uncorrectable hrun hf p),
    fun hf hx => run (bpScalarRow_illegal hrun hf hx p), fun hf hop => ?_, fun cause => ?_⟩
  · have executes := bpScalarRow_executes hrun hf (.inl ⟨rfl, rfl, hop⟩) p
    refine ⟨fun cause h => run ?_, fun rd a n sg h => ⟨fun ha => run ?_, fun ha hk => run ?_⟩,
      fun a n v h => ⟨fun ha => run ?_, fun ha hk => run ?_⟩⟩
    · rw [executes, bpScalar_trap h]
    · rw [executes, bpScalar_load_misaligned h ha]; rfl
    · rw [executes, bpScalar_load_outside h ha hk]; rfl
    · rw [executes, bpScalar_store_misaligned h ha]; rfl
    · rw [executes, bpScalar_store_outside h ha hk]; rfl
  · rw [getBp_bpTrap d c j.val cause hs]
    split <;> exact ⟨rfl, rfl⟩

/-- Settles O11, one group of clauses after another: register results, loads and stores, traps. -/
theorem bpScalarInstructionsExecuteOrTrap : Obligations.BpScalarInstructionsExecuteOrTrap :=
  ⟨scalarSteps_hold, scalarMemory_hold, scalarTraps_hold⟩

end Sys2Proof.Machine
end

section
/-! SUPPORT. The vector instructions of a near-bank processor (R144, R166, R167, R169). -/
namespace Sys2Proof.Machine

/-! ### Executing a vector instruction -/

/-- The scratch halves that an instruction uses: QLD reads its two beats in its two issue cycles. -/
def touchScratch (o : BpOp) (off m : Nat) (b : Bp) : Bp :=
  if o = .qld then useScratch (off + 128) 128 (m + 1) (useScratch off 128 m b) else useScratch off 128 m b

section
variable {s : State} {d : Stack} {c : CoreIx} {j : Nat} {o : BpOp} {w : Nat}

/-- An instruction of registers alone changes its BP and goes on; an OACCRD that names no quarter takes free bytes and is not one of these. -/
theorem bpVector_registers {b' : Bp} {issue act : Nat} (hsc : vecScratch o (getBp s d c j) w = none)
    (ho : o = .oaccrd → (bpX (getBp s d c j) (fRs1 w)).toNat < 32)
    (he : vecEffect o (getBp s d c j) w (bpWait (getBp s d c j) (vecSources o w)) 0 0 (BitVec.ofNat 1024 0) = .done b' issue act) :
    bpVector d c j o w s = addAct d j act (updBp d c j (fun _ =>
      bpNext (bpWait (getBp s d c j) (vecSources o w)) issue ((getBp s d c j).pc + 4) b') s) := by
  have hfree : ¬(o = .oaccrd ∧ 32 ≤ (bpX (getBp s d c j) (fRs1 w)).toNat) := fun h => Nat.not_lt.2 h.2 (ho h.1)
  simp only [bpVector, hsc, if_neg hfree, he]
  rfl

/-- The mc in which an instruction of `n` bytes of scratch issues. -/
def scratchIssue (o : BpOp) (w off n : Nat) (b : Bp) : Nat := max (bpWait b (vecSources o w)) (bpWait b (scratchKeys off n))

/-- A load of scratch changes its BP alone. -/
theorem bpVector_load {b' : Bp} {off n issue act : Nat} (hsc : vecScratch o (getBp s d c j) w = some (some off, n)) (ho : o ≠ .oaccrd)
    (he : vecEffect o (getBp s d c j) w (scratchIssue o w off n (getBp s d c j)) off (readMem s (scratchKey d c j off) n)
      (BitVec.ofNat 1024 0) = .done b' issue act) :
    bpVector d c j o w s = addAct d j act (updBp d c j (fun _ => touchScratch o off (scratchIssue o w off n (getBp s d c j))
      (bpNext (scratchIssue o w off n (getBp s d c j)) issue ((getBp s d c j).pc + 4) b')) s) := by
  unfold scratchIssue at he
  simp only [bpVector, hsc, ho, false_and, if_false, he]
  rfl

/-- A store of scratch writes its bytes, whose beats are ready 2 mc later. -/
theorem bpVector_store {b' : Bp} {off n v act : Nat} (hsc : vecScratch o (getBp s d c j) w = some (some off, n)) (ho : o ≠ .oaccrd)
    (he : vecEffect o (getBp s d c j) w (scratchIssue o w off n (getBp s d c j)) off (readMem s (scratchKey d c j off) n)
      (BitVec.ofNat 1024 0) = .store b' off n v act) :
    bpVector d c j o w s = addAct d j act (updBp d c j (fun _ => scratchReadyAt off n (scratchIssue o w off n (getBp s d c j) + 2)
      (touchScratch o off (scratchIssue o w off n (getBp s d c j))
        (bpNext (scratchIssue o w off n (getBp s d c j)) 1 ((getBp s d c j).pc + 4) b'))) (writeMem (scratchKey d c j off) n v s)) := by
  unfold scratchIssue at he
  simp only [bpVector, hsc, ho, false_and, if_false, he]
  rfl

end

/-! ### Results in registers -/

/-- What a row of the table says of the model: its command runs the row's instruction, which reads no scratch and gives the row's value to
v[rd] with the row's times. -/
def rowAgrees (d : Stack) (c : CoreIx) (j : BpIx) (p : Bool) (r : Instr × BpOp × Nat × Nat × Nat × (Bp → Nat → BitVec 1024)) : Prop :=
  ∀ (s : State) (b : Bp) (w m : Nat), exec r.1 s = .next (bpCustom d c j.val r.2.1 p s) ∧
    bpCustomRun d c j.val r.2.1 w s = bpVector d c j.val r.2.1 w s ∧ vecScratch r.2.1 b w = none ∧ r.2.1 ≠ .oaccrd ∧
    vecEffect r.2.1 b w m 0 0 (BitVec.ofNat 1024 0) = giveV w (r.2.2.2.2.2 b w) m r.2.2.2.1 r.2.2.1 r.2.2.2.2.1 b

theorem vectorRows_agree (d : Stack) (c : CoreIx) (j : BpIx) (p : Bool) : ∀ r ∈ Claims.vectorRows d c j p, rowAgrees d c j p r := by
  intro r hr
  simp only [Claims.vectorRows, List.mem_cons, List.not_mem_nil, or_false] at hr
  rcases hr with rfl | rfl | rfl | rfl | rfl | rfl | rfl | rfl | rfl | rfl | rfl | rfl | rfl | rfl | rfl | rfl | rfl | rfl | rfl | rfl |
    rfl | rfl
  all_goals exact fun s b w m => ⟨rfl, rfl, rfl, BpOp.noConfusion, rfl⟩

theorem vectorResults_hold : Claims.vectorResults := by
  intro s d c j w i o issue lat act v p h hat b m
  obtain ⟨hexec, hrun, hsc, ho, heff⟩ := vectorRows_agree d c j p _ h s b w m
  rw [exec_custom hat p hexec, hrun, bpVector_registers hsc (fun h => absurd h ho) heff]
  rfl

/-- An OACCRD that names a quarter reads no free bytes. -/
theorem vecEffect_oaccrd {b : Bp} {w m off mem : Nat} {free : BitVec 1024} (h : (bpX b (fRs1 w)).toNat < 32) :
    vecEffect .oaccrd b w m off mem free = giveV w (vPack ((List.range 32).map fun i =>
      oaccAt b ((bpX b (fRs1 w)).toNat / 4) (32 * ((bpX b (fRs1 w)).toNat % 4) + i))) m 4 1 2 b := by
  simp only [vecEffect, if_pos h]

theorem otherResults_hold : Claims.otherResults := by
  intro s d c j w p b m on v1 h q n
  have registers {o : BpOp} {i : Instr} {issue act : Nat} {b' : Bp} (hat : Claims.bpAt s d c j w o)
      (hi : exec i s = .next (bpCustom d c j.val o p s)) (hrun : bpCustomRun d c j.val o w s = bpVector d c j.val o w s)
      (hsc : vecScratch o b w = none) (ho : o = .oaccrd → n < 32)
      (he : vecEffect o b w (m o) 0 0 (BitVec.ofNat 1024 0) = .done b' issue act) : exec i s = on o issue act b' := by
    rw [exec_custom hat p hi, hrun, bpVector_registers hsc ho he]
    rfl
  exact ⟨fun hat => registers hat rfl rfl rfl BpOp.noConfusion rfl, fun hat => registers hat rfl rfl rfl BpOp.noConfusion rfl,
    fun hat => registers hat rfl rfl rfl BpOp.noConfusion rfl, fun hat => registers hat rfl rfl rfl BpOp.noConfusion rfl,
    fun hat hn => registers hat rfl rfl rfl (fun _ => hn) (vecEffect_oaccrd hn), fun hat => registers hat rfl rfl rfl BpOp.noConfusion rfl,
    fun hat => registers hat rfl rfl rfl BpOp.noConfusion rfl⟩

/-! ### Loads and stores of scratch (R144) -/

/-- A BP reads what was put there once its program has begun, whatever the order of the table. -/
theorem getBp_updBp_of_mc {s : State} {d : Stack} {c : CoreIx} {j : Nat} {f : Bp → Bp} (h : (f (getBp s d c j)).mc ≠ 0) :
    getBp (updBp d c j f s) d c j = f (getBp s d c j) :=
  sget_sput_of_ne (fun e => h (by rw [e]; rfl)) _

/-- Results on the scoreboard change nothing else of the BP. -/
theorem foldl_readyAt_eq (m : Nat) (l : List Nat) : ∀ b : Bp, l.foldl (fun b k => readyAt k m b) b =
    { b with ready := (l.foldl (fun b k => readyAt k m b) b).ready } := by
  induction l with
  | nil => exact fun _ => rfl
  | cons k l ih =>
    intro b
    rw [List.foldl_cons, ih, readyAt_eq]

theorem readyAt_ready_same {k m : Nat} (b : Bp) (hm : m ≠ 0) (hk : k ≠ 0) : sget 0 (readyAt k m b).ready k = m := by
  rw [readyAt, if_neg hk]
  exact sget_sput_of_ne hm _

theorem readyAt_ready_of_eq {k m q : Nat} {b : Bp} (hm : m ≠ 0) (h : sget 0 b.ready q = m) : sget 0 (readyAt k m b).ready q = m := by
  unfold readyAt
  split
  · exact h
  · by_cases e : q = k
    · exact e ▸ sget_sput_of_ne hm _
    · exact (sget_sput_other e).trans h

/-- Each result is ready at its mc. -/
theorem foldl_readyAt_ready {m q : Nat} (hm : m ≠ 0) (hq : q ≠ 0) (l : List Nat) : ∀ b : Bp, (q ∈ l ∨ sget 0 b.ready q = m) →
    sget 0 (l.foldl (fun b k => readyAt k m b) b).ready q = m := by
  induction l with
  | nil => exact fun b h => h.resolve_left List.not_mem_nil
  | cons k l ih =>
    intro b h
    refine ih _ ?_
    rcases h with h | h
    · rcases List.mem_cons.1 h with rfl | h
      · exact .inr (readyAt_ready_same b hm hq)
      · exact .inl h
    · exact .inr (readyAt_ready_of_eq hm h)

theorem scratchKeys_ne_zero {a n q : Nat} (h : q ∈ scratchKeys a n) : q ≠ 0 := by
  obtain ⟨i, -, rfl⟩ := List.mem_map.1 h
  omega

/-- What a store of a vector's bytes leaves: the bytes in scratch and nothing else in memory, the vector registers and the device's registers
as they were, and the beats ready 2 mc later. -/
theorem bpVector_store_spec {s : State} {d : Stack} {c : CoreIx} {j off w : Nat} {o : BpOp} {b' : Bp} {v : BitVec 1024}
    (hs : memWf s.mem = true) (hsc : vecScratch o (getBp s d c j) w = some (some off, 128)) (ho : o ≠ .oaccrd) (hq : o ≠ .qld)
    (he : vecEffect o (getBp s d c j) w (scratchIssue o w off 128 (getBp s d c j)) off (readMem s (scratchKey d c j off) 128)
      (BitVec.ofNat 1024 0) = .store b' off 128 v.toNat 2) (hv : b'.v = (getBp s d c j).v) :
    readMem (bpVector d c j o w s) (scratchKey d c j off) 128 = v.toNat ∧
    (∀ x, x < scratchKey d c j off ∨ scratchKey d c j off + 128 ≤ x → readByte (bpVector d c j o w s) x = readByte s x) ∧
    (getBp (bpVector d c j o w s) d c j).v = (getBp s d c j).v ∧ (bpVector d c j o w s).regs = s.regs ∧
    ∀ q ∈ scratchKeys off 128, sget 0 (getBp (bpVector d c j o w s) d c j).ready q = scratchIssue o w off 128 (getBp s d c j) + 2 := by
  have hstep := bpVector_store hsc ho he
  have hmem : (bpVector d c j o w s).mem = (writeMem (scratchKey d c j off) 128 v.toNat s).mem := by
    rw [hstep, addAct_mem, updBp_mem]
  have hget : getBp (bpVector d c j o w s) d c j = scratchReadyAt off 128 (scratchIssue o w off 128 (getBp s d c j) + 2)
      (touchScratch o off (scratchIssue o w off 128 (getBp s d c j))
        (bpNext (scratchIssue o w off 128 (getBp s d c j)) 1 ((getBp s d c j).pc + 4) b')) := by
    rw [hstep, getBp_congr (addAct_bps ..)]
    refine getBp_updBp_of_mc ?_
    rw [scratchReadyAt, foldl_readyAt_eq, touchScratch, if_neg hq]
    exact Nat.succ_ne_zero _
  refine ⟨?_, fun x hx => ?_, ?_, ?_, fun q hmemq => ?_⟩
  · rw [readMem_congr hmem]
    exact readMem_writeMem_word (n := 128) _ v hs
  · rw [readByte_congr hmem, readByte_writeMem_outside _ _ _ hx]
  · rw [hget, scratchReadyAt, foldl_readyAt_eq, touchScratch, if_neg hq]
    exact hv
  · rw [hstep, addAct_regs, updBp_regs, writeMem_regs]
  · rw [hget]
    exact foldl_readyAt_ready (Nat.succ_ne_zero _) (scratchKeys_ne_zero hmemq) _ _ (.inl hmemq)

/-- VLD and VST with i = 1 move a scalar register only. -/
theorem bumpX_v (w m : Nat) (b : Bp) : (bumpX w m b).v = b.v := by
  unfold bumpX
  split
  · rw [readyAt_v, setX]
    split <;> rfl
  · rfl

theorem scratchAccesses_hold : Claims.scratchAccesses := by
  unfold Claims.scratchAccesses
  intro s d c j w off hs
  have inside {o : BpOp} {n : Nat} (h : inScratch (bpX (getBp s d c j.val) (fRs1 w)).toNat n = some off)
      (ho : vecScratch o (getBp s d c j.val) w = some (inScratch (bpX (getBp s d c j.val) (fRs1 w)).toNat n, n)) :
      vecScratch o (getBp s d c j.val) w = some (some off, n) := ho.trans (congrArg (fun x => some (x, n)) h)
  have loads {o : BpOp} {i : Instr} {p : Bool} {t : State} (hat : Claims.bpAt s d c j w o)
      (hi : exec i s = .next (bpCustom d c j.val o p s)) (hrun : bpCustomRun d c j.val o w s = t) :
      exec i s = .next (bpParity d c j.val p t) := by rw [exec_custom hat p hi, hrun]
  dsimp only
  refine ⟨fun hat h p => ?_, fun hat h p => ?_, fun hat h p => ?_, fun hat h => ?_, fun hat h => ?_⟩
  · exact loads hat rfl (bpVector_load (inside h rfl) BpOp.noConfusion rfl)
  · exact loads hat rfl (bpVector_load (inside h rfl) BpOp.noConfusion rfl)
  · exact loads hat rfl (bpVector_load (inside h rfl) BpOp.noConfusion rfl)
  · exact ⟨bpVector d c j.val .vst w s, fun p => loads hat rfl rfl,
      bpVector_store_spec hs (inside h rfl) BpOp.noConfusion BpOp.noConfusion rfl (bumpX_v ..)⟩
  · exact ⟨bpVector d c j.val .sst w s, fun p => loads hat rfl rfl,
      bpVector_store_spec hs (inside h rfl) BpOp.noConfusion BpOp.noConfusion rfl rfl⟩

/-- Settles O10, one group of clauses after another: vector results, other results, loads and stores. -/
theorem bpVectorInstructionsExecute : Obligations.BpVectorInstructionsExecute :=
  ⟨vectorResults_hold, otherResults_hold, scratchAccesses_hold⟩

end Sys2Proof.Machine
end

section
/-! SUPPORT. A queue of an LPDDR device that lists a channel twice (R274). -/
namespace Sys2Proof.Machine

/-- An access of no bytes, which every unit answers with an error. -/
def emptyReq (id : Nat) : HostReq := ⟨id, false, 0, 0, 0, 0, []⟩

/-- LPDDR device 0 with two entries for channel 0 in its queue, of one access each. The state is canonical all the same: `State.canon` puts
the table of devices in order, and not the queues inside a device. -/
def doubledQueue : State := updLp 0 (fun p => { p with queue := [(0, [emptyReq 7]), (0, [emptyReq 8])] }) State.reset

theorem doubledQueue_canon : doubledQueue.canon = true := canon_updLp _ _ (by decide)

theorem doubledQueue_waits : lpRecheckWaits doubledQueue 0 0 = false ∧ sget [] (getLp doubledQueue 0).queue 0 = [emptyReq 7] := by
  decide +kernel

/-- The frame serves the first entry's access and erases that entry; the second one then is what the channel's key reads. -/
theorem doubledQueue_lpFrame : sget [] (getLp (lpFrame 0 (thawed doubledQueue) doubledQueue) 0).queue 0 = [emptyReq 8] := by
  decide +kernel

/-- Refutes O13 at `lpFrames`: in `doubledQueue`, a canonical state whose device 0 lists channel 0 twice, access 7 waits alone at the head of
channel 0 and is served, and then the channel's queue reads access 8 where the statement has nothing left. -/
theorem not_controllersServeHostAccesses : ¬ Obligations.ControllersServeHostAccesses := by
  unfold Obligations.ControllersServeHostAccesses
  rintro ⟨-, -, frames, -⟩
  obtain ⟨t, ht, -, served, -⟩ := frames doubledQueue 0 doubledQueue_canon
  obtain ⟨hfree, hqueue⟩ := doubledQueue_waits
  have hgone : sget [] (getLp t 0).queue 0 = [] := (served 0 _ _ (by decide) hfree hqueue).1
  have hstep : lpFrame 0 (thawed doubledQueue) doubledQueue = t := Host.Outcome.next.inj ht
  rw [← hstep, doubledQueue_lpFrame] at hgone
  exact absurd hgone (List.cons_ne_nil _ _)

end Sys2Proof.Machine
end

section
/-! SUPPORT. The candidate tree of a decode step: what its descriptor must meet, and the launch that starts with it (R206, R207). -/
namespace Sys2Proof.Machine

/-- A test of the elements of a list with their places. -/
theorem all_zipIdx_iff {α : Type} (l : List α) (q : α × Nat → Bool) :
    l.zipIdx.all q = true ↔ ∀ i (h : i < l.length), q (l[i], i) = true := by
  simp only [List.all_eq_true, Prod.forall, List.mem_zipIdx_iff_getElem?, List.getElem?_eq_some_iff]
  exact ⟨fun h i hi => h _ i ⟨hi, rfl⟩, fun h y i ⟨hi, hy⟩ => hy ▸ h i hi⟩

/-! ### Parent links -/

@[simp] theorem treeNodes_length (t : Nat) : (treeNodes t).length = bits t 7 0 := by simp [treeNodes]

@[simp] theorem getElem_treeNodes {t i : Nat} (h : i < (treeNodes t).length) : (treeNodes t)[i] = treeNode t i := by simp [treeNodes]

/-- A node after the root is linked rightly when its parent stands before it, one less deep; the root always is. -/
theorem linkOk_treeNodes {t i : Nat} (hi : i < bits t 7 0) :
    linkOk (treeNodes t) i (treeNode t i) = true ↔
      (1 ≤ i → (treeNode t i).parent < i ∧
        (treeNode t i).depth = (if (treeNode t i).parent = 0 then 0 else (treeNode t (treeNode t i).parent).depth) + 1) := by
  rcases Nat.eq_zero_or_pos i with rfl | hpos
  · simp [linkOk]
  · have hroot : (i == 0) = false := by simpa using Nat.ne_of_gt hpos
    simp only [linkOk, hroot, Bool.false_or, Bool.and_eq_true, decide_eq_true_eq, beq_iff_eq, hpos, forall_const, Nat.succ_le_iff]
    refine and_congr_right fun hp => ?_
    have hlen : (treeNode t i).parent < (treeNodes t).length := (treeNodes_length t).symm ▸ Nat.lt_trans hp hi
    rw [List.getD_eq_getElem?_getD, List.getElem?_eq_getElem hlen, Option.getD_some, getElem_treeNodes]

/-! ### Ancestor masks -/

theorem ancMasks_append (l : List CandNode) (x : CandNode) :
    ancMasks (l ++ [x]) =
      ancMasks l ++ [if (ancMasks l).isEmpty then 1 else (ancMasks l).getD x.parent 0 ||| 2 ^ (ancMasks l).length] := by
  rw [ancMasks, List.foldl_append]
  rfl

theorem ancMasks_map_range_length (x : Nat → CandNode) (n : Nat) : (ancMasks ((List.range n).map x)).length = n := by
  induction n with
  | zero => rfl
  | succ n ih =>
    rw [List.range_succ, List.map_append, List.map_singleton, ancMasks_append, List.length_append, ih, List.length_singleton]

theorem ancMasks_treeNodes_length (t : Nat) : (ancMasks (treeNodes t)).length = bits t 7 0 := ancMasks_map_range_length _ _

/-- Where each parent stands before its node, the masks of the parent links are those that start with the root's bit and go on with the
parent's mask and the node's own bit. -/
theorem ancMasks_eq_map_range_iff (x : Nat → CandNode) (a : Nat → Nat) {n : Nat} :
    (∀ i, 1 ≤ i → i < n → (x i).parent < i) →
    (ancMasks ((List.range n).map x) = (List.range n).map a ↔ ∀ i, i < n → a i = if i = 0 then 1 else a (x i).parent ||| 2 ^ i) := by
  induction n with
  | zero => exact fun _ => ⟨fun _ i hi => absurd hi (Nat.not_lt_zero i), fun _ => rfl⟩
  | succ n ih =>
    intro hlink
    rw [List.range_succ, List.map_append, List.map_append, List.map_singleton, List.map_singleton, ancMasks_append,
      List.append_singleton_inj, Nat.forall_lt_succ_right, ← ih fun i h1 hi => hlink i h1 (Nat.lt_succ_of_lt hi)]
    refine and_congr_right fun hmasks => ?_
    rw [hmasks, eq_comm]
    rcases Nat.eq_zero_or_pos n with rfl | hpos
    · simp
    · simp [Nat.ne_of_gt hpos, hlink n hpos n.lt_succ_self]

/-- The masks that the parent links of a descriptor's nodes give are the masks `a`, place by place. -/
theorem ancMasks_treeNodes_iff {t : Nat} (a : Nat → Nat) (hn : 1 ≤ bits t 7 0)
    (hlink : ∀ i, 1 ≤ i → i < bits t 7 0 → (treeNode t i).parent < i) :
    (ancMasks (treeNodes t)).zipIdx.all (fun p => p.1 == a p.2) = true ↔
      a 0 = 1 ∧ ∀ i, 1 ≤ i → i < bits t 7 0 → a i = a (treeNode t i).parent ||| 2 ^ i := by
  have hlist : (ancMasks (treeNodes t)).zipIdx.all (fun p => p.1 == a p.2) = true ↔
      ancMasks (treeNodes t) = (List.range (bits t 7 0)).map a := by
    rw [all_zipIdx_iff]
    simp [List.ext_getElem_iff, ancMasks_treeNodes_length]
  rw [hlist, treeNodes, ancMasks_eq_map_range_iff _ a hlink]
  constructor
  · exact fun h => ⟨h 0 hn, fun i h1 hi => (h i hi).trans (if_neg (Nat.ne_of_gt h1))⟩
  · rintro ⟨hroot, hnode⟩ i hi
    split
    next h0 => exact h0 ▸ hroot
    next h0 => exact hnode i (Nat.pos_of_ne_zero h0) hi

/-! ### Siblings -/

theorem siblingsDiffer_iff_pairwise (l : List CandNode) :
    siblingsDiffer l = true ↔ l.Pairwise fun x y => x.parent = y.parent → x.token ≠ y.token := by
  induction l with
  | nil => simp [siblingsDiffer]
  | cons x l ih =>
    rw [siblingsDiffer, Bool.and_eq_true, ih, List.pairwise_cons]
    simp [Decidable.imp_iff_not_or]

/-- The test leaves out the root, whose parent field means nothing. -/
theorem siblingsDiffer_treeNodes_drop (t : Nat) :
    siblingsDiffer ((treeNodes t).drop 1) = true ↔ ∀ i j, 1 ≤ i → i < j → j < bits t 7 0 →
      (treeNode t i).parent = (treeNode t j).parent → (treeNode t i).token ≠ (treeNode t j).token := by
  rw [siblingsDiffer_iff_pairwise, List.pairwise_iff_getElem]
  simp only [List.length_drop, treeNodes_length, List.getElem_drop, getElem_treeNodes]
  constructor
  · intro h i j h1 hij hj
    simpa [Nat.add_sub_cancel' h1, Nat.add_sub_cancel' (Nat.le_trans h1 (Nat.le_of_lt hij))] using h (i - 1) (j - 1) (by omega) (by omega) (by omega)
  · exact fun h i j _ hj hij => h (1 + i) (1 + j) (by omega) (by omega) (by omega)

/-! ### Validity -/

/-- The conditions of R207 one by one. The masks are compared last: only under the links does a parent's mask stand before its child's. -/
theorem treesAreValid_holds : Claims.treesAreValid := by
  intro limit vocab t n x anc
  have hlinks : (treeNodes t).zipIdx.all (fun p => linkOk (treeNodes t) p.2 p.1) = true ↔
      ∀ i, 1 ≤ i → i < n → (x i).parent < i ∧ (x i).depth = (if (x i).parent = 0 then 0 else (x (x i).parent).depth) + 1 := by
    simp only [all_zipIdx_iff, treeNodes_length, getElem_treeNodes]
    exact ⟨fun h i h1 hi => (linkOk_treeNodes hi).1 (h i hi) h1, fun h i hi => (linkOk_treeNodes hi).2 fun h1 => h i h1 hi⟩
  have htokens : (treeNodes t).all (fun y => decide (y.token < vocab)) = true ↔ ∀ i, i < n → (x i).token < vocab := by
    simp [treeNodes, n, x]
  simp only [treeValid, Bool.and_eq_true, decide_eq_true_eq, treeNodes_length, Nat.le_min, hlinks, htokens, siblingsDiffer_treeNodes_drop,
    and_assoc]
  refine and_congr_right fun hn => and_congr_right fun _ => and_congr_right fun _ => and_congr_right fun hlink => ?_
  rw [ancMasks_treeNodes_iff anc hn fun i h1 hi => (hlink i h1 hi).1, and_assoc]

/-! ### The launch of a decode step -/

/-- A launch that stands in the table is replaced there. -/
theorem mem_putLaunch {l : Launch} (l' : Launch) {s : State} (h : l ∈ s.svc.launches) : l' ∈ (putLaunch l l' s).svc.launches :=
  List.mem_map.2 ⟨l, h, if_pos rfl⟩

/-- What a decode launch is once its step has started: the check's tree and its verdict (R207). -/
def decodeStarted (s : State) (p engines slot : Nat) (l : Launch) (g : Graph) : Launch :=
  { l with
    started := true
    stamp := partLaunches s p % 65536
    tree := stepTree (4 * engines) g.place.vocab (dsbTree (readDsb s g slot))
    treeBad := !treeValid (4 * engines) g.place.vocab (dsbTree (readDsb s g slot)) }

theorem beginLaunch_decode {s : State} {p slot : Nat} {l : Launch} {g : Graph} (engines : Nat)
    (hnext : s.svc.launches.find? (fun l => l.part == p && !l.started) = some l) (hgraph : getGraph s l.graph = some g)
    (hkind : launchOf s l = some (slot, 2)) : beginLaunch p engines s = putLaunch l (decodeStarted s p engines slot l g) s := by
  simp only [beginLaunch, hnext, hgraph, hkind, if_true, decodeStarted]

theorem stepTree_of_valid {limit vocab t : Nat} (h : treeValid limit vocab t = true) : stepTree limit vocab t = treeNodes t := if_pos h

theorem stepTree_of_invalid {limit vocab t : Nat} (h : treeValid limit vocab t = false) :
    stepTree limit vocab t = [⟨(treeNode t 0).token, 0, 0⟩] := if_neg (Bool.eq_false_iff.1 h)

theorem invalidTreesAreRoots_holds : Claims.invalidTreesAreRoots := by
  intro s p engines slot l g t u hnext hgraph hkind
  have hu : u = putLaunch l (decodeStarted s p engines slot l g) s := beginLaunch_decode engines hnext hgraph hkind
  rw [hu]
  refine ⟨⟨_, mem_putLaunch _ (List.mem_of_find?_eq_some hnext), rfl, rfl, fun hvalid => ?_, fun hbad => ?_⟩, rfl, rfl⟩
  · exact ⟨stepTree_of_valid hvalid, congrArg not hvalid⟩
  · exact ⟨stepTree_of_invalid hbad, congrArg not hbad⟩

/-- Settles O53: the conditions on a tree's descriptor, and the tree that a decode launch starts with. -/
theorem invalidTreesVerifyTheRoot : Obligations.InvalidTreesVerifyTheRoot := ⟨treesAreValid_holds, invalidTreesAreRoots_holds⟩

end Sys2Proof.Machine
end

section
/-! SUPPORT. The dispatcher's order and choice (R244, R245). -/
namespace Sys2Proof.Machine

/-! ### The order of R244 -/

@[simp] theorem lexLt_cons (a b : Nat) (l m : List Nat) : lexLt (a :: l) (b :: m) = (decide (a < b) || (a == b && lexLt l m)) := rfl

/-- No key goes before itself. -/
@[simp] theorem lexLt_self (l : List Nat) : lexLt l l = false := by
  induction l with
  | nil => rfl
  | cons a l ih => simp [ih]

theorem lexLt_trans {l m n : List Nat} (hlm : lexLt l m = true) (hmn : lexLt m n = true) : lexLt l n = true := by
  induction l generalizing m n with
  | nil => exact absurd hlm Bool.false_ne_true
  | cons a l ih =>
    cases m with
    | nil => exact absurd hlm Bool.false_ne_true
    | cons b m =>
      cases n with
      | nil => exact absurd hmn Bool.false_ne_true
      | cons c n =>
        simp only [lexLt_cons, Bool.or_eq_true, Bool.and_eq_true, decide_eq_true_eq, beq_iff_eq] at hlm hmn ⊢
        rcases hlm with hab | ⟨rfl, hl⟩
        · rcases hmn with hbc | ⟨rfl, -⟩
          · exact .inl (Nat.lt_trans hab hbc)
          · exact .inl hab
        · exact hmn.imp_right fun ⟨hbc, hm⟩ => ⟨hbc, ih hl hm⟩

/-- Step 1 of R244: 0 for a class that the prefill share of R245 puts first, else 1. -/
def shareRank (s : State) (p cls : Nat) : Nat :=
  if getF s r_DISP_CTRL f_DISP_CTRL_PEVERY ≠ 0 ∧ cls = 2 ∧ getF s r_DISP_CTRL f_DISP_CTRL_PEVERY - 1 ≤ sget 0 s.svc.sincePre p then 0 else 1

/-- Instances whose graph is loaded have the class of their lane. -/
theorem classOf_eq_some_iff {s : State} {i c : Nat} : Claims.classOf s i = some c ↔
    ∃ x g, getInst s i = some x ∧ getGraph s x.graph = some g ∧ (laneRecOf g (taskOf g x)).cls = c := by
  unfold Claims.classOf
  cases getInst s i with
  | none => simp
  | some x => simp

/-- The keys of instances begin with the prefill share and the class. -/
theorem instOrder_eq_cons {s : State} {i c : Nat} (p : Nat) (h : Claims.classOf s i = some c) :
    ∃ rest, instOrder s p i = shareRank s p c :: c :: rest := by
  obtain ⟨x, g, hx, hg, rfl⟩ := classOf_eq_some_iff.1 h
  simp only [instOrder, hx, hg, shareRank, Bool.and_eq_true, decide_eq_true_eq, and_assoc]
  exact ⟨_, rfl⟩

/-- Of two instances the one with the smaller share rank goes first, and of two with one rank the one with the smaller class. -/
theorem instOrder_lt {s : State} {p i j a b : Nat} (hi : Claims.classOf s i = some a) (hj : Claims.classOf s j = some b)
    (h : shareRank s p a < shareRank s p b ∨ shareRank s p a = shareRank s p b ∧ a < b) :
    lexLt (instOrder s p i) (instOrder s p j) = true := by
  obtain ⟨l, hl⟩ := instOrder_eq_cons p hi
  obtain ⟨m, hm⟩ := instOrder_eq_cons p hj
  simp only [hl, hm, lexLt_cons, Bool.or_eq_true, Bool.and_eq_true, decide_eq_true_eq, beq_iff_eq]
  exact h.imp_right fun ⟨hrank, hclass⟩ => ⟨hrank, .inl hclass⟩

/-- Ready instances have a class. -/
theorem exists_classOf_of_mem_readyInsts {s : State} {p i : Nat} (h : i ∈ readyInsts s p) : ∃ c, Claims.classOf s i = some c := by
  have hready : instReady s i = true := ((Bool.and_eq_true _ _).mp (List.mem_filter.1 h).2).1
  unfold instReady at hready
  cases hx : getInst s i with
  | none => simp [hx] at hready
  | some x =>
    cases hg : getGraph s x.graph with
    | none => simp [hx, hg] at hready
    | some g => exact ⟨_, classOf_eq_some_iff.2 ⟨x, g, hx, hg, rfl⟩⟩

/-! ### The choice -/

/-- The choice among the instances seen so far and one more. -/
def chooseStep (s : State) (p : Nat) (b : Option Nat) (i : Nat) : Option Nat :=
  match b with
  | none => some i
  | some j => if lexLt (instOrder s p i) (instOrder s p j) then some i else some j

theorem chooseInst_eq_foldl (s : State) (p : Nat) : chooseInst s p = (readyInsts s p).foldl (chooseStep s p) none := rfl

/-- `j` is one of `l`, and none of `l` goes before it. -/
def GoesFirst (s : State) (p : Nat) (l : List Nat) (j : Nat) : Prop :=
  j ∈ l ∧ ∀ i ∈ l, lexLt (instOrder s p i) (instOrder s p j) = false

theorem chooseStep_goesFirst {s : State} {p j : Nat} {l : List Nat} (i : Nat) (h : GoesFirst s p l j) :
    ∃ m, chooseStep s p (some j) i = some m ∧ GoesFirst s p (l ++ [i]) m := by
  obtain ⟨hj, hmin⟩ := h
  by_cases hlt : lexLt (instOrder s p i) (instOrder s p j) = true
  · refine ⟨i, if_pos hlt, by simp, fun x hx => ?_⟩
    rcases List.mem_append.1 hx with hx | hx
    · exact Bool.eq_false_iff.2 fun hxi => Bool.eq_false_iff.1 (hmin x hx) (lexLt_trans hxi hlt)
    · rw [List.mem_singleton.1 hx, lexLt_self]
  · refine ⟨j, if_neg hlt, List.mem_append_left _ hj, fun x hx => ?_⟩
    rcases List.mem_append.1 hx with hx | hx
    · exact hmin x hx
    · rw [List.mem_singleton.1 hx, Bool.eq_false_iff]
      exact hlt

theorem foldl_chooseStep_goesFirst {s : State} {p : Nat} (l : List Nat) : ∀ {seen : List Nat} {j : Nat}, GoesFirst s p seen j →
    ∃ m, l.foldl (chooseStep s p) (some j) = some m ∧ GoesFirst s p (seen ++ l) m := by
  induction l with
  | nil => exact fun {seen j} h => ⟨j, rfl, (List.append_nil seen).symm ▸ h⟩
  | cons i l ih =>
    intro seen j h
    obtain ⟨m, hm, hfirst⟩ := chooseStep_goesFirst i h
    rw [List.foldl_cons, hm, List.append_cons]
    exact ih hfirst

/-- Of the ready instances, where there are any, one is chosen that goes first. -/
theorem exists_chooseInst {s : State} {p : Nat} (h : readyInsts s p ≠ []) :
    ∃ j, chooseInst s p = some j ∧ GoesFirst s p (readyInsts s p) j := by
  obtain ⟨x, l, hl⟩ := List.exists_cons_of_ne_nil h
  rw [chooseInst_eq_foldl, hl]
  exact foldl_chooseStep_goesFirst l (seen := [x]) ⟨List.mem_singleton_self x, fun i hi => by rw [List.mem_singleton.1 hi, lexLt_self]⟩

theorem chooseInst_eq_none_iff {s : State} {p : Nat} : chooseInst s p = none ↔ readyInsts s p = [] := by
  refine ⟨fun hnone => Decidable.byContradiction fun hready => ?_, fun hempty => ?_⟩
  · obtain ⟨j, hj, -⟩ := exists_chooseInst hready
    exact absurd (hnone.symm.trans hj) nofun
  · rw [chooseInst_eq_foldl, hempty]
    rfl

theorem goesFirst_of_chooseInst {s : State} {p j : Nat} (h : chooseInst s p = some j) : GoesFirst s p (readyInsts s p) j := by
  have hready : readyInsts s p ≠ [] := fun hempty => absurd (h.symm.trans (chooseInst_eq_none_iff.2 hempty)) nofun
  obtain ⟨m, hm, hfirst⟩ := exists_chooseInst hready
  exact Option.some.inj (h.symm.trans hm) ▸ hfirst

/-- Settles O50: the choice goes through the ready instances and keeps the one that goes first so far. -/
theorem dispatchFollowsTheOrder : Obligations.DispatchFollowsTheOrder := by
  unfold Obligations.DispatchFollowsTheOrder
  exact fun s p => ⟨chooseInst_eq_none_iff, fun _ => goesFirst_of_chooseInst⟩

/-! ### The prefill share (R245) -/

/-- While its share is due, the class PREFILL ranks before every other one. -/
theorem shareRank_due {s : State} {p : Nat} (hevery : getF s r_DISP_CTRL f_DISP_CTRL_PEVERY ≠ 0)
    (hsince : getF s r_DISP_CTRL f_DISP_CTRL_PEVERY - 1 ≤ sget 0 s.svc.sincePre p) (c : Nat) :
    shareRank s p c = if c = 2 then 0 else 1 := by
  simp [shareRank, hevery, hsince]

/-- Without a share no class ranks before another. -/
theorem shareRank_none {s : State} (p c : Nat) (hevery : getF s r_DISP_CTRL f_DISP_CTRL_PEVERY = 0) : shareRank s p c = 1 :=
  if_neg fun h => h.1 hevery

theorem prefillShare_due {s : State} {p : Nat} (hevery : getF s r_DISP_CTRL f_DISP_CTRL_PEVERY ≠ 0)
    (hsince : getF s r_DISP_CTRL f_DISP_CTRL_PEVERY - 1 ≤ sget 0 s.svc.sincePre p)
    (hpre : ∃ i ∈ readyInsts s p, Claims.classOf s i = some 2) :
    ∃ j ∈ readyInsts s p, chooseInst s p = some j ∧ Claims.classOf s j = some 2 ∧
      ∀ i ∈ readyInsts s p, Claims.classOf s i = some 2 → lexLt (instOrder s p i) (instOrder s p j) = false := by
  obtain ⟨i, hi, hclass⟩ := hpre
  obtain ⟨j, hj, hready, hmin⟩ := exists_chooseInst (List.ne_nil_of_mem hi)
  obtain ⟨c, hc⟩ := exists_classOf_of_mem_readyInsts hready
  have hprefill : c = 2 := Decidable.byContradiction fun hother => by
    have hlt := instOrder_lt (p := p) hclass hc (.inl (by simp [shareRank_due hevery hsince, hother]))
    exact absurd (hlt.symm.trans (hmin i hi)) nofun
  exact ⟨j, hready, hj, hprefill ▸ hc, fun x hx _ => hmin x hx⟩

theorem prefillShare_none {s : State} {p j : Nat} (hevery : getF s r_DISP_CTRL f_DISP_CTRL_PEVERY = 0) (hj : chooseInst s p = some j)
    (hprefill : Claims.classOf s j = some 2) {i : Nat} (hi : i ∈ readyInsts s p) {c : Nat} (hc : c < 2) : Claims.classOf s i ≠ some c := by
  intro hclass
  have hlt := instOrder_lt (p := p) hclass hprefill (.inr ⟨by simp only [shareRank_none p _ hevery], hc⟩)
  exact absurd (hlt.symm.trans ((goesFirst_of_chooseInst hj).2 i hi)) nofun

/-- Settles O49: a share that is due decides step 1 of the order; without one the class decides. -/
theorem prefillShare : Obligations.PrefillShare := by
  unfold Obligations.PrefillShare
  intro s p k
  exact ⟨prefillShare_due, fun hevery j hj hprefill i hi =>
    ⟨prefillShare_none hevery hj hprefill hi (by decide), prefillShare_none hevery hj hprefill hi (by decide)⟩⟩

end Sys2Proof.Machine
end

section
/-! SUPPORT. What accesses to memory, errors and events leave of the hub's tables. -/
namespace Sys2Proof.Machine

/-- `s` has what the hub of `z` holds in service, and its loaded partitions. -/
structure ServiceFrame (z s : State) : Prop where
  svc : s.svc = z.svc
  loadedParts : s.loadedParts = z.loadedParts

theorem ServiceFrame.refl (s : State) : ServiceFrame s s := ⟨rfl, rfl⟩

section
variable {z s : State}

/-- A change of other parts of the module. -/
theorem ServiceFrame.of {t : State} (h : ServiceFrame z s) (hsvc : t.svc = s.svc) (hparts : t.loadedParts = s.loadedParts) : ServiceFrame z t :=
  ⟨hsvc.trans h.svc, hparts.trans h.loadedParts⟩

theorem putReg_serviceFrame (a : Nat) (v : Word) (h : ServiceFrame z s) : ServiceFrame z (putReg s a v) :=
  h.of (putReg_svc ..) (putReg_loadedParts ..)

theorem putF_serviceFrame (a : Nat) (f : Fld) (n : Nat) (h : ServiceFrame z s) : ServiceFrame z (putF a f n s) := putReg_serviceFrame _ _ h

theorem bumpF_serviceFrame (a : Nat) (f : Fld) (n : Nat) (h : ServiceFrame z s) : ServiceFrame z (bumpF a f n s) := putReg_serviceFrame _ _ h

theorem satF_serviceFrame (a : Nat) (f : Fld) (n : Nat) (h : ServiceFrame z s) : ServiceFrame z (satF a f n s) := putReg_serviceFrame _ _ h

theorem updVc_serviceFrame (d : Stack) (c : CoreIx) (f : Vc → Vc) (h : ServiceFrame z s) : ServiceFrame z (updVc d c f s) :=
  h.of (updVc_svc ..) (updVc_loadedParts ..)

theorem updLp_serviceFrame (d : Stack) (f : Lp → Lp) (h : ServiceFrame z s) : ServiceFrame z (updLp d f s) :=
  h.of (updLp_svc ..) (updLp_loadedParts ..)

theorem updDie_serviceFrame (d : Stack) (f : Die → Die) (h : ServiceFrame z s) : ServiceFrame z (updDie d f s) :=
  h.of (updDie_svc ..) (updDie_loadedParts ..)

theorem updHub_serviceFrame (f : Hub → Hub) (h : ServiceFrame z s) : ServiceFrame z (updHub f s) :=
  h.of (updHub_svc ..) (updHub_loadedParts ..)

/-! ### Errors (R298, R300) -/

theorem storeError_serviceFrame (st : Station) (unit kind sel info : Nat) (h : ServiceFrame z s) :
    ServiceFrame z (storeError st unit kind sel info s) := by
  rw [storeError_frame]
  exact h.of rfl rfl

theorem countRound_serviceFrame (st : Station) (kind : Nat) (h : ServiceFrame z s) : ServiceFrame z (countRound st kind s) := by
  unfold countRound
  split
  · split
    · exact h
    · exact satF_serviceFrame _ _ _ h
  · exact h

theorem postSuspect_serviceFrame (st : Station) (h : ServiceFrame z s) : ServiceFrame z (postSuspect st s) := h.of rfl rfl

theorem containment_serviceFrame (parent : Station) (h : ServiceFrame z s) : ServiceFrame z (containment parent s) := by
  have stop (d : Stack) : ServiceFrame z (stopPartition d s) := by
    unfold stopPartition
    dsimp only
    split
    · exact updDie_serviceFrame _ _ (putF_serviceFrame _ _ _ h)
    · exact putF_serviceFrame _ _ _ h
  unfold containment
  split
  · exact postSuspect_serviceFrame _ (stop _)
  · exact postSuspect_serviceFrame _ (stop _)
  · exact h

theorem recordUp_serviceFrame (n : Nat) : ∀ (st : Station) (unit kind sel info : Nat) {s : State}, ServiceFrame z s →
    ServiceFrame z (recordUp n st unit kind sel info s) := by
  induction n with
  | zero => exact fun _ _ _ _ _ _ h => h
  | succ n ih =>
    intro st unit kind sel info s h
    have sent : ServiceFrame z (countSent st unit s) := putF_serviceFrame _ _ _ (satF_serviceFrame _ _ _ h)
    unfold recordUp
    split
    · dsimp only
      split
      · exact containment_serviceFrame _ (ih _ _ _ _ _ (satF_serviceFrame _ _ _ sent))
      · split
        · exact updDie_serviceFrame _ _ sent
        · exact sent
    · exact countRound_serviceFrame _ _ (storeError_serviceFrame _ _ _ _ _ h)

theorem requestSegment_serviceFrame (d : Stack) (n : Nat) (h : ServiceFrame z s) : ServiceFrame z (requestSegment d n s) := by
  unfold requestSegment
  split
  · split
    · exact putF_serviceFrame _ _ _ h
    · exact h
  · exact h

theorem uMark_serviceFrame (d : Stack) (u : Fin 17) (a : Nat) (h : ServiceFrame z s) : ServiceFrame z (uMark d u a s) := by
  unfold uMark
  split
  · dsimp only [markRow]
    split
    · exact h
    · exact requestSegment_serviceFrame _ _ (updVc_serviceFrame _ _ _ h)
  · unfold lpMark
    split
    · split
      · exact h
      · exact requestSegment_serviceFrame _ _ (updLp_serviceFrame _ _ h)
    · exact h

theorem uBad_serviceFrame (d : Stack) (u : Fin 17) (a : Nat) (o : CodeOutcome) (h : ServiceFrame z s) : ServiceFrame z (uBad d u a o s) := by
  unfold uBad
  dsimp only
  split
  · exact uMark_serviceFrame _ _ _ (recordUp_serviceFrame _ _ _ _ _ _ h)
  · exact recordUp_serviceFrame _ _ _ _ _ _ h

/-! ### Code words -/

theorem writeMem_serviceFrame (n : Nat) : ∀ (k v : Nat) {s : State}, ServiceFrame z s → ServiceFrame z (writeMem k n v s) := by
  induction n with
  | zero => exact fun _ _ _ h => h
  | succ n ih => exact fun _ _ _ h => ih _ _ (h.of (writeByte_svc ..) (writeByte_loadedParts ..))

theorem writeWord_serviceFrame (k : Nat) (w : CodeWord) (h : ServiceFrame z s) : ServiceFrame z (writeWord k w s) :=
  (writeMem_serviceFrame 64 k w.data.toNat h).of (writeChk_svc ..) (writeChk_loadedParts ..)

theorem storeBankWord_serviceFrame (d : Stack) (c : CoreIx) (j off who : Nat) (w : CodeWord) (h : ServiceFrame z s) :
    ServiceFrame z (storeBankWord d c j off who w s) := by
  unfold storeBankWord
  dsimp only
  split
  · exact writeWord_serviceFrame _ _ (putF_serviceFrame _ _ _ (updVc_serviceFrame _ _ _ h))
  · exact writeWord_serviceFrame _ _ (updVc_serviceFrame _ _ _ h)

theorem storeLpWord_serviceFrame (d : Stack) (ch row sec who : Nat) (w : CodeWord) (h : ServiceFrame z s) :
    ServiceFrame z (storeLpWord d ch row sec who w s) := by
  unfold storeLpWord
  dsimp only
  split
  · exact writeWord_serviceFrame _ _ (putF_serviceFrame _ _ _ (updLp_serviceFrame _ _ h))
  · exact writeWord_serviceFrame _ _ (updLp_serviceFrame _ _ h)

theorem countWord_serviceFrame (a : Nat) (o : CodeOutcome) (h : ServiceFrame z s) : ServiceFrame z (countWord a o s) := by
  cases o
  case clean => exact h
  all_goals exact bumpF_serviceFrame _ _ _ h

theorem uRead_serviceFrame (d : Stack) (u : Fin 17) (a : Nat) (e : Upsets) (h : ServiceFrame z s) : ServiceFrame z (uRead d u a e s).2 := by
  unfold uRead
  split
  · split
    · dsimp only [vaultRead, countLanes]
      exact updVc_serviceFrame _ _ _ (countWord_serviceFrame _ _ h)
    · exact h
  · unfold lpRead
    split
    · exact h
    · split
      · exact h
      · dsimp only
        split
        · exact updLp_serviceFrame _ _ (countWord_serviceFrame _ _ h)
        · exact countWord_serviceFrame _ _ h

/-- A word that meets no upset on its way is stored. -/
theorem uStore_serviceFrame (d : Stack) (u : Fin 17) (a who : Nat) (v : BitVec 512) (h : ServiceFrame z s) :
    ServiceFrame z (uStore d u a who [] v s) := by
  unfold uStore
  split
  · split
    · exact storeBankWord_serviceFrame _ _ _ _ _ _ h
    · exact h
  · unfold lpStore
    split
    · exact h
    · split
      · exact h
      · exact storeLpWord_serviceFrame _ _ _ _ _ _ h

theorem uPoison_serviceFrame (d : Stack) (u : Fin 17) (a : Nat) (v : BitVec 512) (h : ServiceFrame z s) : ServiceFrame z (uPoison d u a v s) := by
  unfold uPoison
  split
  · split
    · exact storeBankWord_serviceFrame _ _ _ _ _ _ h
    · exact h
  · unfold lpPoison
    split
    · exact h
    · exact storeLpWord_serviceFrame _ _ _ _ _ _ h

/-! ### Writes of the hub (R288) -/

theorem setMerge_serviceFrame (d : Stack) (u : Fin 17) (m : List MergeEntry) (h : ServiceFrame z s) : ServiceFrame z (setMerge d u m s) := by
  unfold setMerge
  split
  · exact updVc_serviceFrame _ _ _ h
  · exact updLp_serviceFrame _ _ h

theorem rmwWord_serviceFrame (d : Stack) (u : Fin 17) (a : Nat) (mask : BitVec 64) (data : BitVec 512) (h : ServiceFrame z s) :
    ServiceFrame z (rmwWord d u a mask [] data s) := by
  have read := uRead_serviceFrame d u a [] h
  unfold rmwWord
  split
  · next hread => rwa [hread] at read
  · next hread =>
    rw [hread] at read
    dsimp only
    split
    · exact uPoison_serviceFrame _ _ _ _ (uBad_serviceFrame _ _ _ _ read)
    · exact uStore_serviceFrame _ _ _ _ _ read

theorem writeBack_serviceFrame (d : Stack) (u : Fin 17) (e : MergeEntry) (h : ServiceFrame z s) : ServiceFrame z (writeBack d u e [] s) := by
  have taken := setMerge_serviceFrame d u ((uMerge s d u).filter fun x => x.addr ≠ e.addr) h
  unfold writeBack
  dsimp only
  split
  · exact satF_serviceFrame _ _ _ (uStore_serviceFrame _ _ _ _ _ taken)
  · exact satF_serviceFrame _ _ _ (rmwWord_serviceFrame _ _ _ _ _ taken)

theorem mergeWrite_serviceFrame (d : Stack) (u : Fin 17) (a : Nat) (mask : BitVec 64) (data : BitVec 512) (h : ServiceFrame z s) :
    ServiceFrame z (mergeWrite d u a mask data s) := by
  unfold mergeWrite
  dsimp only
  split
  · split
    · exact writeBack_serviceFrame _ _ _ h
    · exact setMerge_serviceFrame _ _ _ h
  · have room : ServiceFrame z (match uMerge s d u with
        | o :: _ => if 16 ≤ (uMerge s d u).length then writeBack d u o [] s else s
        | [] => s) := by
      split
      · split
        · exact writeBack_serviceFrame _ _ _ h
        · exact h
      · exact h
    split
    · exact writeBack_serviceFrame _ _ _ room
    · exact setMerge_serviceFrame _ _ _ room

theorem hostWriteWord_serviceFrame (d : Stack) (u : Fin 17) (w a n v : Nat) (h : ServiceFrame z s) :
    ServiceFrame z (hostWriteWord d u w a n v [] s) := by
  unfold hostWriteWord
  dsimp only
  split
  · exact mergeWrite_serviceFrame _ _ _ _ _ h
  · split
    · exact uStore_serviceFrame _ _ _ _ _ h
    · exact rmwWord_serviceFrame _ _ _ _ _ h

theorem unitWrite_serviceFrame (d : Stack) (u : Fin 17) (a n v : Nat) (h : ServiceFrame z s) : ServiceFrame z (unitWrite d u a n v s) :=
  forAll_invariant (fun _ _ => hostWriteWord_serviceFrame _ _ _ _ _ _) _ h

theorem grpWrite_serviceFrame (p off n v : Nat) (h : ServiceFrame z s) : ServiceFrame z (grpWrite p off n v s) := by
  unfold grpWrite
  split
  · exact forAll_invariant (fun _ _ => unitWrite_serviceFrame _ _ _ _ _) _ h
  · exact h

theorem devWrite_serviceFrame (a n v : Nat) (h : ServiceFrame z s) : ServiceFrame z (devWrite a n v s) := by
  refine forAll_invariant (fun x t ht => ?_) _ h
  unfold devWritePart
  split
  · split
    · exact writeMem_serviceFrame _ _ _ ht
    · exact unitWrite_serviceFrame _ _ _ _ _ ht
  · exact ht

/-! ### Events (R323) -/

theorem dropEvent_serviceFrame (h : ServiceFrame z s) : ServiceFrame z (dropEvent s) := updHub_serviceFrame _ (satF_serviceFrame _ _ _ h)

theorem signalMsi_serviceFrame (h : ServiceFrame z s) : ServiceFrame z (signalMsi s) := by
  unfold signalMsi sendIndex sendMsg
  split
  · exact h
  · split
    · exact updHub_serviceFrame _ h
    · exact updHub_serviceFrame _ (updHub_serviceFrame _ h)

theorem writeEvent_serviceFrame (e : EventRec) (h : ServiceFrame z s) : ServiceFrame z (writeEvent e s) := by
  unfold writeEvent sendStore sendIndex sendMsg
  dsimp only
  split
  · exact dropEvent_serviceFrame h
  · exact signalMsi_serviceFrame (bumpF_serviceFrame _ _ _ (updHub_serviceFrame _ (updHub_serviceFrame _ (updHub_serviceFrame _ h))))

theorem postEvent_serviceFrame (code subject data : Nat) (h : ServiceFrame z s) : ServiceFrame z (postEvent code subject data s) := by
  have counted := updHub_serviceFrame (fun x => { x with eseq := (x.eseq + 1) % 2 ^ 32 }) h
  unfold postEvent
  dsimp only
  split
  · exact dropEvent_serviceFrame counted
  · split
    · exact writeEvent_serviceFrame _ counted
    · split
      · exact putF_serviceFrame _ _ _ (updHub_serviceFrame _ counted)
      · exact dropEvent_serviceFrame counted

end

end Sys2Proof.Machine
end

section
/-! SUPPORT. Loading and unloading of graphs and weights (R230 to R233, R266, R321, R434). -/
namespace Sys2Proof.Machine

/-! ### Positions and handles -/

theorem getGraph_congr {s t : State} (h : t.svc.graphs = s.svc.graphs) (k : Nat) : getGraph t k = getGraph s k := by
  unfold getGraph
  rw [h]

/-- A position reads the graph that is put there, whatever the order of the table. -/
theorem getGraph_putGraph_some (k : Nat) (g : Graph) (s : State) : getGraph (putGraph k (some g) s) k = some g :=
  sget_sput_of_ne (Option.some_ne_none g) _

theorem getGraph_putGraph_none {k : Nat} {s : State} (h : srising s.svc.graphs = true) : getGraph (putGraph k none s) k = none :=
  sget_sput_same (d := none) (x := none) h

theorem getGraph_putGraph_other {j k : Nat} (g : Option Graph) (s : State) (h : j ≠ k) : getGraph (putGraph k g s) j = getGraph s j :=
  sget_sput_other h

theorem updGraph_eq {s : State} {k : Nat} {g : Graph} (f : Graph → Graph) (h : getGraph s k = some g) :
    updGraph k f s = putGraph k (some (f g)) s := by
  simp only [updGraph, h]

/-- No graph has a handle that is none of the loaded graphs'. -/
theorem findGraph_eq_none {s : State} {h : Nat} (hfree : h ∉ (graphKeys s).filterMap fun k => (getGraph s k).map (·.handle)) :
    findGraph s h = none := by
  refine List.find?_eq_none.2 fun k hk hsome => hfree ?_
  cases hg : getGraph s k with
  | none => simp [hg] at hsome
  | some g =>
    rw [hg] at hsome
    exact List.mem_filterMap.2 ⟨k, hk, by rw [hg]; exact congrArg some (beq_iff_eq.1 hsome)⟩

/-- A list that holds every number below `n` has at least `n` entries. -/
theorem le_length_of_forall_lt_mem {n : Nat} : ∀ {l : List Nat}, (∀ x, x < n → x ∈ l) → n ≤ l.length := by
  induction n with
  | zero => exact fun _ => Nat.zero_le _
  | succ n ih =>
    intro l h
    have hn : n ∈ l := h n n.lt_succ_self
    have hrest : n ≤ (l.erase n).length :=
      ih fun x hx => (List.mem_erase_of_ne (Nat.ne_of_lt hx)).2 (h x (Nat.lt_succ_of_lt hx))
    rw [List.length_erase_of_mem hn] at hrest
    have := List.length_pos_of_mem hn
    omega

/-- Where fewer numbers are in use than there are, a free one is taken. -/
theorem pickFree_of_length_lt {used : List Nat} {n : Nat} (s : State) (h : used.length < n) :
    ∃ x, x < n ∧ x ∉ used ∧ pickFree used n s = (some x, { s with freeCtr := s.freeCtr + 1 }) := by
  let free := (List.range n).filter fun x => !used.contains x
  have hfree : free ≠ [] := fun hnil => by
    have hall (x : Nat) (hx : x < n) : x ∈ used := by simpa using List.filter_eq_nil_iff.1 hnil x (List.mem_range.2 hx)
    exact absurd (le_length_of_forall_lt_mem hall) (Nat.not_le.2 h)
  have hlt : Config.freeNat s.freeCtr % free.length < free.length := Nat.mod_lt _ (List.length_pos_iff.2 hfree)
  have hmem := List.mem_filter.1 (List.getElem_mem hlt)
  refine ⟨free[_]'hlt, List.mem_range.1 hmem.1, by simpa using hmem.2, ?_⟩
  unfold pickFree
  dsimp only
  rw [if_neg (mt List.isEmpty_iff.1 hfree)]
  exact congrArg (·, _) (List.getElem?_eq_getElem hlt)

/-! ### LOAD_GRAPH -/

/-- The handles in use: 0, those of the graphs being loaded and those of the loaded ones. -/
def usedHandles (s : State) : List Nat :=
  0 :: s.svc.loading.map (·.handle) ++ (graphKeys s).filterMap fun k => (getGraph s k).map (·.handle)

theorem usedHandles_length_le (s : State) : (usedHandles s).length ≤ (graphKeys s).length + s.svc.loading.length + 1 := by
  have := List.length_filterMap_le (fun k => (getGraph s k).map (·.handle)) (graphKeys s)
  simp only [usedHandles, List.length_append, List.length_cons, List.length_map]
  omega

theorem loadGraph_reserves {s : State} (hport : portRuns s 0x0301 = true) (hpart : pk s 16 1 < s.parts.length)
    (hidle : partLoading s (pk s 16 1) = false) (hroom : (graphKeys s).length + s.svc.loading.length < 65535) :
    ∃ t h, exec .loadGraph s = .next t ∧ t.svc.reply = some ⟨stInProgress, h⟩ ∧ h ≠ 0 ∧ h < 65536 ∧ findGraph s h = none ∧
      t.svc.loading = s.svc.loading ++ [⟨h, pk s 16 1, pkAddr s, pkLen s⟩] := by
  obtain ⟨h, hlt, hunused, hpick⟩ := pickFree_of_length_lt (used := usedHandles s) (n := 65536) s (by have := usedHandles_length_le s; omega)
  simp only [usedHandles, List.cons_append, List.mem_cons, List.mem_append, not_or] at hunused
  obtain ⟨hzero, -, hloaded⟩ := hunused
  let x : State := { s with freeCtr := s.freeCtr + 1 }
  refine ⟨answer stInProgress h (updSvc (fun v => { v with loading := v.loading ++ [⟨h, pk x 16 1, pkAddr x, pkLen x⟩] }) x), h, ?_, rfl,
    hzero, hlt, findGraph_eq_none hloaded, rfl⟩
  unfold usedHandles at hpick
  simp only [exec, execLoadGraph, hport, hidle, Nat.not_le.2 hpart, hpick, Bool.not_true, Bool.false_eq_true, if_false]
  rfl

/-! ### The end of a load (R233) -/

/-- A load ends well only where a position of the load order is free. -/
theorem length_graphKeys_of_graphStatus {s : State} {part : Nat} {i : List Byte} {sig : Bool} {pl : Place}
    (h : graphStatus s part i sig pl = none) : (graphKeys s).length < 16 := by
  refine Nat.lt_of_not_le fun hfull => ?_
  unfold graphStatus at h
  simp only [hfull, decide_true, Bool.true_or, if_true] at h
  repeat' split at h
  all_goals cases h

/-- The first free position of the load order. -/
theorem exists_free_position {s : State} (h : (graphKeys s).length < 16) :
    ∃ k, (List.range 16).find? (fun k => (getGraph s k).isNone) = some k ∧ getGraph s k = none := by
  cases hfind : (List.range 16).find? fun k => (getGraph s k).isNone with
  | some k => exact ⟨k, rfl, Option.isNone_iff_eq_none.1 (List.find?_some (p := fun k => (getGraph s k).isNone) hfind)⟩
  | none =>
    have hall : graphKeys s = List.range 16 := List.filter_eq_self.2 fun k hk => by
      simpa [Option.isSome_iff_ne_none] using List.find?_eq_none.1 hfind k hk
    rw [hall, List.length_range] at h
    exact absurd h (Nat.lt_irrefl 16)

/-- `s` has the graphs of `z`, loaded and being loaded, and its loaded partitions. -/
structure GraphFrame (z s : State) : Prop where
  graphs : s.svc.graphs = z.svc.graphs
  loading : s.svc.loading = z.svc.loading
  loadedParts : s.loadedParts = z.loadedParts

theorem GraphFrame.refl (s : State) : GraphFrame s s := ⟨rfl, rfl, rfl⟩

section
variable {z s : State}

/-- What leaves the hub's tables alone leaves the graphs. -/
theorem GraphFrame.service {t : State} (h : GraphFrame z s) (k : ServiceFrame s t) : GraphFrame z t :=
  ⟨k.svc ▸ h.graphs, k.svc ▸ h.loading, k.loadedParts.trans h.loadedParts⟩

theorem updSvc_graphFrame {f : Svc → Svc} (hg : ∀ v, (f v).graphs = v.graphs) (hl : ∀ v, (f v).loading = v.loading) (h : GraphFrame z s) :
    GraphFrame z (updSvc f s) :=
  ⟨(hg _).trans h.graphs, (hl _).trans h.loading, h.loadedParts⟩

theorem putInst_graphFrame (i : Nat) (x : Option Inst) (h : GraphFrame z s) : GraphFrame z (putInst i x s) :=
  updSvc_graphFrame (fun _ => rfl) (fun _ => rfl) h

theorem createInst_graphFrame (k task : Nat) (slot : Option Nat) (arg : Nat) (supplied : List (Nat × Nat × Nat × Nat)) (h : GraphFrame z s) :
    GraphFrame z (createInst k task slot arg supplied s) := by
  unfold createInst
  split
  · exact h
  · split
    · exact h
    · exact putInst_graphFrame _ _ h

theorem setObj_graphFrame (key v : Nat) (h : GraphFrame z s) : GraphFrame z (setObj key v s) := by
  have written := h.service (putReg_serviceFrame (objReg key) (BitVec.ofNat 64 v) (.refl s))
  unfold setObj
  dsimp only
  split
  · exact updSvc_graphFrame (fun _ => rfl) (fun _ => rfl) written
  · split
    · exact written.service (updDie_serviceFrame _ _ (.refl _))
    · exact written

end

section
variable {z s : State}

theorem setRoles_serviceFrame (part : Nat) (near : List Nat) (h : ServiceFrame z s) : ServiceFrame z (setRoles part near s) :=
  forAll_invariant (fun _ _ hc => forAll_invariant (fun _ _ => putF_serviceFrame _ _ _) _ hc) _ h

theorem initChanged_serviceFrame (d : Stack) (u : Fin 17) (h : ServiceFrame z s) : ServiceFrame z (initChanged d u s) := by
  have cleared : ServiceFrame z (forAll (recoded s d u) (fun k s => initMem k 64 s) s) :=
    forAll_invariant (fun _ _ ht => ht.of (initMem_svc ..) (initMem_loadedParts ..)) _ h
  unfold initChanged
  dsimp only
  split
  · exact updVc_serviceFrame _ _ _ cleared
  · exact updLp_serviceFrame _ _ cleared

theorem initCodes_serviceFrame (part : Nat) (pl : Place) (h : ServiceFrame z s) : ServiceFrame z (initCodes part pl s) := by
  unfold initCodes
  split
  · exact h
  · refine forAll_invariant (fun d t ht => forAll_invariant (fun u x hx => ?_) _ ht) _ h
    split
    · exact initChanged_serviceFrame _ _ hx
    · exact hx

theorem clearTables_serviceFrame (g : Graph) (h : ServiceFrame z s) : ServiceFrame z (clearTables g s) := by
  refine forAll_invariant (fun e t ht => ?_) _ h
  have cleared := grpWrite_serviceFrame (nearGrp g e) g.place.slots (8 * g.nslots) 0 (grpWrite_serviceFrame (nearGrp g e) g.place.dir 16384 0
    (grpWrite_serviceFrame (nearGrp g e) g.place.tentDir 16384 0 ht))
  split
  · exact grpWrite_serviceFrame _ _ _ _ cleared
  · exact cleared

theorem showLanes_serviceFrame (k : Nat) (g : Graph) (h : ServiceFrame z s) : ServiceFrame z (showLanes k g s) := by
  refine forAll_invariant (fun l t ht => ?_) _ h
  split
  · exact putReg_serviceFrame _ _ ht
  · exact ht

theorem settleElastic_serviceFrame (p : Nat) (h : ServiceFrame z s) : ServiceFrame z (settleElastic p s) := by
  unfold settleElastic elasticClear
  split
  · exact h
  · split
    · exact h
    · split
      · split
        · exact updDie_serviceFrame _ _ (putF_serviceFrame _ _ _ h)
        · exact h
      · exact h

theorem graphsChanged_serviceFrame (p : Nat) (h : ServiceFrame z s) : ServiceFrame z (graphsChanged p s) := by
  unfold graphsChanged
  split
  · exact h
  · dsimp only
    split
    · exact h
    · exact settleElastic_serviceFrame _ (updHub_serviceFrame _ h)

end

/-- The graph that a load installs in `s`: what its image says, with nothing allocated, launched or filled yet. -/
def newGraph (l : Loading) (i : List Byte) (pl : Place) (s : State) : Graph :=
  let p := imPayload i
  { handle := l.handle, part := l.part, layers := leAt p 56 1, hgroups := leAt p 57 1, hpp := leAt p 58 1,
    treeMax := leAt p 62 1, nslots := leAt p 66 2, ridx := leAt p 50 1, pchunk := leAt p 74 2, lanes := lanesOf p,
    tasks := tasksOf p, objBase := (objRun s (leAt p 70 2)).getD 0x3000, nobj := leAt p 70 2, weights := weightsOf p, place := pl,
    near := [], lpUsed := [], nextCommit := 0, prefetch := [], svn := imSvn i, keySlot := imSlot i, measure := sha3 i,
    wmeasure := List.replicate 32 0 }

/-- A partition is loaded. -/
def markLoaded (p : Nat) (s : State) : State :=
  { s with loadedParts := if s.loadedParts.contains p then s.loadedParts else s.loadedParts ++ [p] }

theorem mem_loadedParts_markLoaded (p : Nat) (s : State) : p ∈ (markLoaded p s).loadedParts := by
  unfold markLoaded
  dsimp only
  split
  · next h => exact List.contains_iff_mem.1 h
  · simp

/-- Of the graphs an installation changes the one in its position only, and its partition is loaded. -/
theorem installGraph_graphFrame {l : Loading} {i : List Byte} {pl : Place} {s : State} {k : Nat}
    (hk : (List.range 16).find? (fun k => (getGraph s k).isNone) = some k) :
    GraphFrame (markLoaded l.part (putGraph k (some (newGraph l i pl s)) s)) (installGraph l i pl s) := by
  unfold installGraph
  dsimp only
  rw [hk]
  dsimp only
  refine GraphFrame.service (forAll_invariant (fun t _ => createInst_graphFrame _ _ _ _ _) _ ?_) (graphsChanged_serviceFrame _ (.refl _))
  refine GraphFrame.service ?_ (showLanes_serviceFrame _ _ (.refl _))
  refine GraphFrame.service ?_ (forAll_invariant (fun x _ ht => putF_serviceFrame _ _ _ (putF_serviceFrame _ _ _ ht)) _ (.refl _))
  refine forAll_invariant (fun n _ => setObj_graphFrame _ _) _ ?_
  refine GraphFrame.service (.refl _) ?_
  refine forAll_invariant (fun b _ => devWrite_serviceFrame _ _ _) _ ?_
  refine clearTables_serviceFrame _ (initCodes_serviceFrame _ _ ?_)
  exact forAll_invariant (fun r _ => putReg_serviceFrame _ _) _ (setRoles_serviceFrame _ _ (.refl _))

theorem graphLoadComplete_installs {s : State} {handle : BitVec 16} {i : List Byte} {sig : Bool} {pl : Place} {l : Loading}
    (hfind : (s.svc.loading.find? fun l => l.handle == handle.toNat) = some l)
    (hstatus : graphStatus (updSvc (fun v => { v with loading := v.loading.filter fun x => x ≠ l }) s) l.part i sig pl = none) :
    ∃ t k g, exec (.graphLoadComplete handle (some i) sig pl) s = .next t ∧ getGraph s k = none ∧
      getGraph t k = some g ∧ g.handle = l.handle ∧ g.part = l.part ∧ g.tasks = tasksOf (imPayload i) ∧ g.place = pl ∧
      g.measure = sha3 i ∧ l ∉ t.svc.loading ∧ l.part ∈ t.loadedParts := by
  let z := updSvc (fun v => { v with loading := v.loading.filter fun x => x ≠ l }) s
  obtain ⟨k, hk, hnone⟩ := exists_free_position (s := z) (length_graphKeys_of_graphStatus hstatus)
  let t := postEvent evGraphLoaded (subj2 l.handle l.part) stOk (installGraph l i pl z)
  obtain ⟨hgraphs, hloading, hparts⟩ : GraphFrame (markLoaded l.part (putGraph k (some (newGraph l i pl z)) z)) t :=
    (installGraph_graphFrame hk).service (postEvent_serviceFrame _ _ _ (.refl _))
  refine ⟨t, k, newGraph l i pl z, ?_, hnone, ?_, rfl, rfl, rfl, rfl, rfl, ?_, ?_⟩
  · simp only [exec, execGraphLoadComplete, hfind, hstatus, done]
    rfl
  · exact (getGraph_congr hgraphs k).trans (getGraph_putGraph_some k _ z)
  · rw [hloading]
    exact fun hmem => by simpa using (List.mem_filter.1 hmem).2
  · rw [hparts]
    exact mem_loadedParts_markLoaded l.part _

theorem graphLoads_hold : Claims.graphLoads :=
  fun _ => ⟨loadGraph_reserves, fun _ _ _ _ _ => graphLoadComplete_installs⟩

/-! ### UNLOAD_GRAPH -/

/-- An unloaded graph leaves its position, and the other graphs stay. -/
theorem unloadGraph_graphs {s : State} {k : Nat} {g : Graph} (hg : getGraph s k = some g) :
    (unloadGraph k s).svc.graphs = (putGraph k none s).svc.graphs := by
  unfold unloadGraph
  rw [hg]
  dsimp only
  rw [(graphsChanged_serviceFrame _ (.refl _)).svc]
  split
  all_goals
    refine congrArg (sput none · k none) (GraphFrame.graphs ?_)
    refine GraphFrame.service ?_ (ServiceFrame.of (.refl _) (updTwin_svc ..) (updTwin_loadedParts ..))
    refine GraphFrame.service ?_ (forAll_invariant (fun n _ => putReg_serviceFrame _ _) _ (.refl _))
    refine updSvc_graphFrame (fun _ => rfl) (fun _ => rfl) (updSvc_graphFrame (fun _ => rfl) (fun _ => rfl) ?_)
    refine forAll_invariant (fun i t ht => ?_) _ (.refl s)
    split
    · split
      · exact putInst_graphFrame _ _ ht
      · exact ht
    · exact ht

/-- A graph that no session and no launch names is unloaded. -/
theorem unloadGraph_unloads {s : State} {k : Nat} {g : Graph} (hfind : findGraph s (pk s 16 2) = some k) (hg : getGraph s k = some g)
    (hport : portRuns s 0x0302 = true) (hrising : srising s.svc.graphs = true) (hsess : ∀ x ∈ allSess s, x.2.graph ≠ k)
    (hlaunch : ∀ l ∈ s.svc.launches, l.graph ≠ k) :
    ∃ t, exec .unloadGraph s = .next t ∧ t.svc.reply = some ⟨stOk, 0⟩ ∧ getGraph t k = none ∧ ∀ j, j ≠ k → getGraph t j = getGraph s j := by
  have hunused : ((allSess s).any (fun x => x.2.graph == k) || s.svc.launches.any fun l => l.graph == k) = false := by
    simpa using And.intro (fun a b h => hsess (a, b) h) hlaunch
  have hgraph (j : Nat) : getGraph (answer stOk 0 (unloadGraph k s)) j = getGraph (putGraph k none s) j :=
    getGraph_congr (s := putGraph k none s) (unloadGraph_graphs hg) j
  refine ⟨answer stOk 0 (unloadGraph k s), ?_, rfl, ?_, fun j hj => ?_⟩
  · simp only [exec, execUnloadGraph, hport, hfind, hunused, Bool.not_true, Bool.false_eq_true, if_false, done]
  · exact (hgraph k).trans (getGraph_putGraph_none hrising)
  · exact (hgraph j).trans (getGraph_putGraph_other none s hj)

/-! ### LOAD_WEIGHTS (R266, R434) -/

/-- How many bytes of a chunk a record takes does not depend on the state. -/
theorem placeWeights_fst (off : Nat) (chunk : List Byte) (w : WeightRec) (s t : State) :
    (placeWeights off chunk w s).1 = (placeWeights off chunk w t).1 := by
  unfold placeWeights
  dsimp only
  split
  · split <;> rfl
  · rfl

theorem placeWeights_serviceFrame {z s : State} (off : Nat) (chunk : List Byte) (w : WeightRec) (h : ServiceFrame z s) :
    ServiceFrame z (placeWeights off chunk w s).2 := by
  unfold placeWeights
  dsimp only
  split
  · split
    · exact unitWrite_serviceFrame _ _ _ _ _ h
    · exact h
  · exact h

/-- The records of a weight map, each with its part of a chunk: the bytes so far and the state. -/
def fillWeights (off : Nat) (chunk : List Byte) (l : List WeightRec) (r : Nat × State) : Nat × State :=
  l.foldl (fun (r : Nat × State) w => let (m, s) := placeWeights off chunk w r.2; (r.1 + m, s)) r

theorem fillWeights_fst (off : Nat) (chunk : List Byte) (l : List WeightRec) (s : State) : ∀ r : Nat × State,
    (fillWeights off chunk l r).1 = r.1 + (l.map fun w => (placeWeights off chunk w s).1).sum := by
  induction l with
  | nil => exact fun r => rfl
  | cons w l ih =>
    intro r
    rw [List.map_cons, List.sum_cons, placeWeights_fst off chunk w s r.2, ← Nat.add_assoc]
    exact ih _

theorem fillWeights_serviceFrame {z : State} (off : Nat) (chunk : List Byte) (l : List WeightRec) : ∀ {r : Nat × State},
    ServiceFrame z r.2 → ServiceFrame z (fillWeights off chunk l r).2 := by
  induction l with
  | nil => exact fun h => h
  | cons w l ih => exact fun h => ih (placeWeights_serviceFrame off chunk w h)

theorem loadWeights_fills {s : State} {k : Nat} {g : Graph} (hfind : findGraph s (pk s 16 2) = some k) (hg : getGraph s k = some g)
    (c : List Byte) (hport : portRuns s 0x0303 = true) (hlen : pkLen s % 256 = 0) (hbusy : partBusy s g.part = false)
    (hloading : partLoading s g.part = false) :
    ∃ t, exec (.loadWeights (some c) true) s = .next t ∧
      t.svc.reply = some ⟨stOk, (g.weights.map fun w => (placeWeights (pk s 24 8) c w s).1).sum⟩ ∧
      getGraph t k = some { g with wmeasure := sha3 (g.wmeasure ++ natBytes 8 (pk s 24 8) ++ natBytes 8 c.length ++ sha3 c) } := by
  let filled := fillWeights (pk s 24 8) c g.weights (0, s)
  have hcount : filled.1 = (g.weights.map fun w => (placeWeights (pk s 24 8) c w s).1).sum :=
    (fillWeights_fst _ _ _ s _).trans (Nat.zero_add _)
  have hkept : getGraph filled.2 k = some g :=
    (getGraph_congr (congrArg Svc.graphs (fillWeights_serviceFrame _ _ _ (.refl s)).svc) k).trans hg
  let extend (g : Graph) : Graph := { g with wmeasure := sha3 (g.wmeasure ++ natBytes 8 (pk s 24 8) ++ natBytes 8 c.length ++ sha3 c) }
  refine ⟨answer stOk filled.1 (updGraph k extend filled.2), ?_, congrArg (fun n => some (Reply.mk stOk n)) hcount, ?_⟩
  · simp only [exec, execLoadWeights, hport, hfind, hg, hlen, hbusy, hloading, Bool.not_true, Bool.false_eq_true, if_false, ne_eq,
      not_true_eq_false, Bool.or_self, done]
    rfl
  · rw [updGraph_eq extend hkept]
    exact getGraph_putGraph_some k (extend g) filled.2

theorem graphsUnloadAndFill_hold : Claims.graphsUnloadAndFill :=
  fun _ _ _ hfind hg => ⟨unloadGraph_unloads hfind hg, loadWeights_fills hfind hg⟩

/-- Settles O22: LOAD_GRAPH and its end, then UNLOAD_GRAPH and LOAD_WEIGHTS. -/
theorem graphsLoadAndUnload : Obligations.GraphsLoadAndUnload := ⟨graphLoads_hold, graphsUnloadAndFill_hold⟩

end Sys2Proof.Machine
end

section
/-! SUPPORT. Retraining of LPDDR channels (R275, R276) and of vaults (R259 to R261): what a request, a segment and a change of width show
in the registers and leave in the controllers. -/
namespace Sys2Proof.Machine

/-! ### Registers of the memory controllers -/

/-- A register of the die's flash block is none of its LPDDR block. -/
theorem r_LP_CHAN_ne_r_FLASH_PAUSE (d r : Stack) (ch : Fin 8) : r_LP_CHAN d ch.val ≠ r_FLASH_PAUSE r := fun h => by
  obtain ⟨-, hb, -⟩ := dieReg_inj (by decide) (by decide) (by omega) (by decide) h
  cases hb

theorem r_LP_CHAN_ne_r_LP_STATUS (d : Stack) (ch : Fin 8) : r_LP_CHAN d ch.val ≠ r_LP_STATUS d := fun h => by
  obtain ⟨-, -, ho⟩ := dieReg_inj (by decide) (by decide) (by omega) (by decide) h
  omega

/-- A vault controller's registers lie in the blocks from 0x20 to 0x2F, and the flash node's in block 0x60. -/
theorem r_VC_STATUS_ne_flash (d r : Stack) (c : CoreIx) {x : Nat} (hx : x < 2 ^ 24) : r_VC_STATUS d c.val ≠ dieReg r 0x60 x := fun h => by
  obtain ⟨-, hb, -⟩ := dieReg_inj (by omega) (by decide) (by decide) hx h
  omega

theorem r_VC_STATUS_ne_hub (d : Stack) (c : CoreIx) {b x : Nat} (hb : b < 256) (hx : x < 2 ^ 24) : r_VC_STATUS d c.val ≠ hubReg b x :=
  dieReg_ne_hubReg hb hx

theorem r_VC_STATUS_ne_topoHash (d : Stack) (c : CoreIx) {w : Nat} (hw : w < 4) : r_VC_STATUS d c.val ≠ r_TOPO_HASH w :=
  r_VC_STATUS_ne_hub d c (by decide) (by omega)

/-! ### The request of a segment (R114, R132) -/

/-- A request of a segment changes registers only. -/
theorem requestSegment_frame (d : Stack) (n : Nat) (s : State) :
    requestSegment d n s = { s with regs := (requestSegment d n s).regs } := by
  unfold requestSegment
  dsimp only
  split
  · split <;> rfl
  · rfl

@[simp] theorem getLp_requestSegment (d e : Stack) (n : Nat) (s : State) : getLp (requestSegment d n s) e = getLp s e := by
  rw [requestSegment_frame]; rfl

@[simp] theorem getVc_requestSegment (d e : Stack) (c : CoreIx) (n : Nat) (s : State) :
    getVc (requestSegment d n s) e c = getVc s e c := by
  rw [requestSegment_frame]; rfl

/-- Of the registers it changes the root's FLASH_PAUSE only. -/
theorem getF_requestSegment_other {a : Nat} (ha : ∀ r : Stack, a ≠ r_FLASH_PAUSE r) (f : Fld) (d : Stack) (n : Nat) (s : State) :
    getF (requestSegment d n s) a f = getF s a f := by
  unfold requestSegment
  split
  · split
    · exact getF_putF_other _ _ _ (ha _)
    · rfl
  · rfl

/-! ### LPDDR channels (R275, R276) -/

/-- Full retraining of a channel: 32 segments are left, and STATE shows it. -/
theorem lpFullRetrain_starts {s : State} (d : Stack) (ch : Fin 8) (hs : s.canon = true) :
    sget 0 (getLp (lpFullRetrain d ch.val s) d).fullLeft ch.val = 32 ∧
      getF (lpFullRetrain d ch.val s) (r_LP_CHAN d ch.val) f_LP_CHAN_STATE = 2 := by
  unfold lpFullRetrain
  constructor
  · rw [getLp_requestSegment, getLp_putF, getLp_updLp_same _ _ hs]
    exact sget_sput_of_ne (show (32 : Nat) ≠ 0 by decide) _
  · rw [getF_requestSegment_other fun r => r_LP_CHAN_ne_r_FLASH_PAUSE d r ch, getF_putF_same (by decide) _ (canon_updLp _ _ hs)]
    rfl

@[simp] theorem getLp_lpSegDone (d e : Stack) (ch : Nat) (s : State) : getLp (lpSegDone d ch s) e = getLp s e := by
  rw [lpSegDone, getLp_bumpF, getLp_putF]

/-- A segment that ended well clears SINCE, counts in SEGS, and leaves STATE. -/
theorem lpSegDone_counts {s : State} (d : Stack) (ch : Fin 8) (hs : s.canon = true) :
    getF (lpSegDone d ch.val s) (r_LP_CHAN d ch.val) f_LP_CHAN_SINCE = 0 ∧
      getF (lpSegDone d ch.val s) (r_LP_STATUS d) f_LP_STATUS_SEGS =
        (getF s (r_LP_STATUS d) f_LP_STATUS_SEGS + 1) % 2 ^ f_LP_STATUS_SEGS.width ∧
      getF (lpSegDone d ch.val s) (r_LP_CHAN d ch.val) f_LP_CHAN_STATE = getF s (r_LP_CHAN d ch.val) f_LP_CHAN_STATE := by
  have hne := r_LP_CHAN_ne_r_LP_STATUS d ch
  unfold lpSegDone bumpF
  refine ⟨?_, ?_, ?_⟩
  · rw [getF_putF_other _ _ _ hne, getF_putF_same (by decide) _ hs, Nat.zero_mod]
  · rw [getF_putF_same (by decide) _ (canon_putF _ _ _ hs), getF_putF_other _ _ _ hne.symm]
  · rw [getF_putF_other _ _ _ hne, getF_putF_field (by decide) (by decide) _ hs]

theorem updHub_hub (f : Hub → Hub) (s : State) : (updHub f s).hub = f s.hub := rfl

/-- A failed channel shows in STATE and FAILED, and the hub drops the stack's pages of the LPDDR tier. -/
theorem lpChanFail_fails {s : State} (d : Stack) (ch : Fin 8) (hs : s.canon = true) :
    getF (lpChanFail d ch.val s) (r_LP_CHAN d ch.val) f_LP_CHAN_STATE = 3 ∧ lpChanFailed (lpChanFail d ch.val s) d ch.val = true ∧
      d.val ∈ (lpChanFail d ch.val s).hub.lpLost := by
  unfold lpChanFail lpChanFailed
  dsimp only
  refine ⟨?_, ?_, ?_⟩
  · rw [getF_updHub, getF_putF_other _ _ _ (r_LP_CHAN_ne_r_LP_STATUS d ch), getF_putF_same (by decide) _ hs]
    rfl
  · rw [getF_updHub, getF_putF_same (by decide) _ (canon_putF _ _ _ hs), Nat.testBit_mod_two_pow, Nat.testBit_or,
      Nat.testBit_two_pow_self, Bool.or_true, Bool.and_true]
    exact decide_eq_true ch.isLt
  · rw [updHub_hub, putF_hub, putF_hub]
    dsimp only
    split
    · next h => exact List.contains_iff_mem.1 h
    · exact List.mem_append_right _ List.mem_cons_self

/-! #### A segment, case by case -/

section
variable {s : State} {d : Stack} {ch : Nat}

theorem lpSegment_closed (ho : segmentOpen s d = false) (ok : Bool) : lpSegment d ok s = s := by
  simp [lpSegment, ho]

/-- A channel under full retraining that passes leaves it. -/
theorem lpSegment_full_passed (ho : segmentOpen s d = true)
    (hf : (List.range 8).find? (fun n => decide (sget 0 (getLp s d).fullLeft n ≠ 0)) = some ch) :
    lpSegment d true s = lpSegDone d ch (putF (r_LP_CHAN d ch) f_LP_CHAN_STATE 1
      (updLp d (fun p => { p with fullLeft := sput 0 p.fullLeft ch 0 }) s)) := by
  simp only [lpSegment, ho, hf, Bool.not_true, Bool.false_eq_true, if_false, if_true]

/-- The last segment of a full retraining, failed, fails the channel. -/
theorem lpSegment_full_failed (ho : segmentOpen s d = true)
    (hf : (List.range 8).find? (fun n => decide (sget 0 (getLp s d).fullLeft n ≠ 0)) = some ch)
    (hl : sget 0 (getLp s d).fullLeft ch = 1) :
    lpSegment d false s = lpChanFail d ch (updLp d (fun p => { p with fullLeft := sput 0 p.fullLeft ch 0 }) s) := by
  simp only [lpSegment, ho, hf, hl, Bool.not_true, Bool.false_eq_true, if_false, Nat.sub_self, if_true]

/-- A regular segment that passes is of the next active channel. -/
theorem lpSegment_regular_passed (ho : segmentOpen s d = true) (hz : ∀ n, n < 8 → sget 0 (getLp s d).fullLeft n = 0)
    (hd : (getLp s d).due = true)
    (hf : ((lpActive s d).filter fun n => !lpChanFailed s d n).find? (fun n => decide ((getLp s d).nextChan ≤ n)) = some ch) :
    lpSegment d true s = lpSegDone d ch (updLp d (fun p => { p with nextChan := ch + 1, due := false }) s) := by
  have hnone : (List.range 8).find? (fun n => decide (sget 0 (getLp s d).fullLeft n ≠ 0)) = none :=
    List.find?_eq_none.2 fun n hn => by simp [hz n (List.mem_range.1 hn)]
  simp only [lpSegment, ho, hnone, hd, hf, Bool.not_true, Bool.false_eq_true, if_false, if_true]

end

/-- A request of LP_CTRL.RETRAIN, then a segment in each of its cases: outside a pause, of a channel under full retraining, and regular. -/
theorem lpRetraining_holds : Claims.lpRetraining := by
  intro s d ch hs full passed
  have exec_segment (ok : Bool) : exec (.lpddrRetrainSegment d ok) s = .next (lpSegment d ok s) := rfl
  refine ⟨fun hup => ?_, fun ho ok => ?_, fun ho hf => ⟨?_, fun hl => ?_⟩, fun ho hz hd hf => ?_⟩
  · exact ⟨lpFullRetrain d ch.val s, if_neg (by simp [hup]), lpFullRetrain_starts d ch hs⟩
  · rw [exec_segment, lpSegment_closed ho]
  · let left := updLp d (fun p => { p with fullLeft := sput 0 p.fullLeft ch.val 0 }) s
    have hleft : left.canon = true := canon_updLp _ _ hs
    obtain ⟨hsince, hsegs, hstate⟩ := lpSegDone_counts d ch (canon_putF (r_LP_CHAN d ch.val) f_LP_CHAN_STATE 1 hleft)
    rw [exec_segment, lpSegment_full_passed ho hf]
    refine ⟨_, rfl, ?_, hsince, ?_⟩
    · rw [hstate, getF_putF_same (by decide) _ hleft]
      rfl
    · rw [hsegs, getF_putF_other _ _ _ (r_LP_CHAN_ne_r_LP_STATUS d ch).symm, getF_updLp]
  · rw [exec_segment, lpSegment_full_failed ho hf hl]
    exact ⟨_, rfl, lpChanFail_fails d ch (canon_updLp _ _ hs)⟩
  · obtain ⟨hsince, hsegs, -⟩ := lpSegDone_counts d ch (canon_updLp d (fun p => { p with nextChan := ch.val + 1, due := false }) hs)
    rw [exec_segment, lpSegment_regular_passed ho hz hd hf]
    refine ⟨_, rfl, ?_, ?_, hsince, hsegs⟩
    all_goals rw [getLp_lpSegDone, getLp_updLp_same _ _ hs]

/-! ### What the hub does leaves of the vaults -/

/-- What the change of every element of the list keeps, all of them keep. -/
theorem forAll_invariant_mem {α : Type} {P : State → Prop} {f : α → State → State} {l : List α}
    (hf : ∀ x ∈ l, ∀ t, P t → P (f x t)) : ∀ {s : State}, P s → P (forAll l f s) := by
  induction l with
  | nil => exact id
  | cons x l ih => exact fun h => ih (fun y hy => hf y (List.mem_cons_of_mem x hy)) (hf x List.mem_cons_self _ h)

/-- `t` has the vault controllers of `s`, and what their status registers show. -/
structure VaultFrame (s t : State) : Prop where
  vcs : t.vcs = s.vcs
  status : ∀ (d : Stack) (c : CoreIx), getReg t (r_VC_STATUS d c.val) = getReg s (r_VC_STATUS d c.val)

theorem VaultFrame.refl (s : State) : VaultFrame s s := ⟨rfl, fun _ _ => rfl⟩

theorem VaultFrame.trans {s t u : State} (h : VaultFrame s t) (k : VaultFrame t u) : VaultFrame s u :=
  ⟨k.vcs.trans h.vcs, fun d c => (k.status d c).trans (h.status d c)⟩

theorem VaultFrame.controller {s t : State} (h : VaultFrame s t) (d : Stack) (c : CoreIx) : getVc t d c = getVc s d c := by
  rw [getVc, getVc, h.vcs]

theorem VaultFrame.field {s t : State} (h : VaultFrame s t) (d : Stack) (c : CoreIx) (f : Fld) :
    getF t (r_VC_STATUS d c.val) f = getF s (r_VC_STATUS d c.val) f := congrArg (fieldOf f) (h.status d c)

/-- An event that is lost is counted by the hub. -/
theorem dropEvent_vcs (s : State) : (dropEvent s).vcs = s.vcs := by rw [dropEvent, updHub_vcs, satF_vcs]

/-- A message-signalled write is a message of the hub. -/
theorem signalMsi_vcs (s : State) : (signalMsi s).vcs = s.vcs := by
  unfold signalMsi
  split
  · rfl
  · split
    · rw [updHub_vcs]
    · rw [updHub_vcs, sendIndex, sendMsg, updHub_vcs]

/-- An event's record is messages of the hub. -/
theorem writeEvent_vcs (e : EventRec) (s : State) : (writeEvent e s).vcs = s.vcs := by
  unfold writeEvent
  dsimp only
  split
  · exact dropEvent_vcs s
  · rw [signalMsi_vcs, bumpF_vcs, sendIndex, sendMsg, updHub_vcs, updHub_vcs, sendStore, sendMsg, updHub_vcs]

theorem postEvent_vcs (code subject data : Nat) (s : State) : (postEvent code subject data s).vcs = s.vcs := by
  unfold postEvent
  dsimp only
  split
  · rw [dropEvent_vcs, updHub_vcs]
  · split
    · rw [writeEvent_vcs, updHub_vcs]
    · split
      · rw [putF_vcs, updHub_vcs, updHub_vcs]
      · rw [dropEvent_vcs, updHub_vcs]

/-- An event goes to the hub and to EVT_STATUS. -/
theorem postEvent_vaultFrame (code subject data : Nat) (s : State) : VaultFrame s (postEvent code subject data s) where
  vcs := postEvent_vcs code subject data s
  status d c := (postEvent_eventFrame code subject data s).reg _ (r_VC_STATUS_ne_hub d c (by decide) (by decide))

theorem updHub_vaultFrame (f : Hub → Hub) (s : State) : VaultFrame s (updHub f s) := ⟨updHub_vcs s f, fun _ _ => getReg_updHub s f _⟩

/-- Elastic mode is a bit of the root's FLASH_CTRL. -/
theorem setElastic_vaultFrame (d : Stack) (s : State) : VaultFrame s (setElastic d s) := by
  unfold setElastic
  split
  · exact ⟨putF_vcs _ _ _ _, fun e c => getReg_putF_other _ _ (r_VC_STATUS_ne_flash e _ c (by decide))⟩
  · exact .refl s

theorem makeElastic_vaultFrame (d : Stack) (s : State) : VaultFrame s (makeElastic d s) := by
  unfold makeElastic
  split
  · exact (updHub_vaultFrame _ s).trans (setElastic_vaultFrame d _)
  · exact .refl s

theorem putTopo_vaultFrame (i v : Nat) (s : State) : VaultFrame s (putTopo i v s) := ⟨rfl, fun _ _ => rfl⟩

/-- The topology in service and its hash are the hub's. -/
theorem topoChanged_vaultFrame (s : State) : VaultFrame s (topoChanged s) := by
  unfold topoChanged topoHash
  split
  · refine forAll_invariant_mem (P := VaultFrame s) (fun w hw t h => ?_)
      (forAll_invariant (P := VaultFrame s) (fun e t h => h.trans (putTopo_vaultFrame _ _ t)) _ (.refl s))
    exact h.trans ⟨putReg_vcs _ _ _, fun d c => getReg_putReg_other _ (r_VC_STATUS_ne_topoHash d c (List.mem_range.1 hw))⟩
  · exact .refl s

/-! ### Vaults (R259 to R261) -/

/-- The request of a vault's retraining shows in RETRAINING. -/
theorem vaultRetrain_requests {s : State} (d : Stack) (c : CoreIx) (hs : s.canon = true) :
    getF (vaultRetrain d c s) (r_VC_STATUS d c.val) f_VC_STATUS_RETRAINING = 1 ∧ (getVc (vaultRetrain d c s) d c).retrainReq = true := by
  unfold vaultRetrain
  constructor
  · rw [getF_requestSegment_other fun r => r_VC_STATUS_ne_flash d r c (by decide), getF_putF_same (by decide) _ (canon_updVc _ _ _ hs)]
    rfl
  · rw [getVc_requestSegment, getVc_putF, getVc_updVc_same _ _ _ hs]

@[simp] theorem getVc_vaultSpares (d e : Stack) (c k : CoreIx) (v : VaultTest) (s : State) :
    getVc (vaultSpares d c v s) e k = getVc s e k := by
  rw [vaultSpares, getVc_putF, getVc_putF]

/-- Spares are switched in for the wires that failed, and no other field of the status changes. -/
theorem vaultSpares_switches {s : State} (d : Stack) (c : CoreIx) {v : VaultTest} (hs : s.canon = true) (hc : v.command ≤ 16)
    (h0 : v.half0 ≤ 40) (h1 : v.half1 ≤ 40) :
    getF (vaultSpares d c v s) (r_VC_STATUS d c.val) f_VC_STATUS_DSPARES = v.half0 + v.half1 ∧
      getF (vaultSpares d c v s) (r_VC_STATUS d c.val) f_VC_STATUS_CSPARES = v.command ∧
      ∀ f, fldApart f_VC_STATUS_DSPARES f → fldApart f_VC_STATUS_CSPARES f →
        getF (vaultSpares d c v s) (r_VC_STATUS d c.val) f = getF s (r_VC_STATUS d c.val) f := by
  have hcs : (putF (r_VC_STATUS d c.val) f_VC_STATUS_CSPARES (min 16 v.command) s).canon = true := canon_putF _ _ _ hs
  unfold vaultSpares
  rw [Nat.min_eq_right hc, Nat.min_eq_right h0, Nat.min_eq_right h1] at *
  refine ⟨?_, ?_, fun f hd hcf => ?_⟩
  · rw [getF_putF_same (by decide) _ hcs]
    exact Nat.mod_eq_of_lt (show v.half0 + v.half1 < 128 by omega)
  · rw [getF_putF_field (by decide) (by decide) _ hcs, getF_putF_same (by decide) _ hs]
    exact Nat.mod_eq_of_lt (show v.command < 32 by omega)
  · rw [getF_putF_field (by decide) hd _ hcs, getF_putF_field (by decide) hcf _ hs]

/-- A vault with no more failed wires than spares keeps its full width. -/
theorem vaultWidth_full {v : VaultTest} (hc : v.command ≤ 16) (h0 : v.half0 ≤ 40) (h1 : v.half1 ≤ 40) : vaultWidth v = 0 := by
  simp [vaultWidth, Nat.not_lt.2 hc, h0, h1]

section
variable {s : State} {d : Stack} {c : CoreIx}

theorem vaultSegment_closed (ho : segmentOpen s d = false) (v : VaultTest) : vaultSegment d c v s = s := by
  simp [vaultSegment, ho]

/-- A segment that finds both halves trainable ends the request and switches the spares in. -/
theorem vaultSegment_trainable {v : VaultTest} (hr : (getVc s d c).retrainReq = true) (ho : segmentOpen s d = true) (hw : vaultWidth v = 0) :
    vaultSegment d c v s = vaultSpares d c v (putF (r_VC_STATUS d c.val) f_VC_STATUS_RETRAINING 0
      (updVc d c (fun v => { v with retrainReq := false }) s)) := by
  simp only [vaultSegment, hr, ho, hw, Bool.not_true, Bool.false_eq_true, or_self, if_false]

/-- Where a segment leaves WIDTH as it was, the topology stays. -/
theorem exec_vaultRetrainSegment {v : VaultTest} (h : getF (vaultSegment d c v s) (r_VC_STATUS d c.val) f_VC_STATUS_WIDTH =
    getF s (r_VC_STATUS d c.val) f_VC_STATUS_WIDTH) : exec (.vaultRetrainSegment d c v) s = .next (vaultSegment d c v s) :=
  if_neg fun hw => hw.1 (h ▸ hw.2)

theorem vaultHalf_running (hr : dieRuns s d = true) : vaultHalf d c s = s := by
  unfold vaultHalf
  split
  · rfl
  · exact if_pos hr

/-- A vault that has lost a half waits for the step to end. -/
theorem exec_vaultHalfWidth_running (hr : dieRuns s d = true) : exec (.vaultHalfWidth d c) s = .next s := by
  refine (if_neg ?_).trans (congrArg _ (vaultHalf_running hr))
  rw [vaultHalf_running hr]
  cases (getVc s d c).nextWidth <;> simp

/-- A vault's change of width, before the hub hears of it. -/
def narrowed (d : Stack) (c : CoreIx) (w : Nat) (s : State) : State :=
  putF (r_VC_STATUS d c.val) f_VC_STATUS_WIDTH w (updVc d c (fun v => { v with nextWidth := none }) s)

/-- Between steps it changes, and the hub's part of the change leaves the vaults as they are. -/
theorem exec_vaultHalfWidth_idle {w : Nat} (hw : (getVc s d c).nextWidth = some w) (hr : dieRuns s d = false) :
    ∃ t, exec (.vaultHalfWidth d c) s = .next t ∧ VaultFrame (narrowed d c w s) t := by
  have hhalf : VaultFrame (narrowed d c w s) (vaultHalf d c s) := by
    unfold vaultHalf
    rw [hw]
    dsimp only
    rw [if_neg (by simp [hr])]
    exact (makeElastic_vaultFrame d _).trans (postEvent_vaultFrame _ _ _ _)
  by_cases hn : ((getVc s d c).nextWidth.isSome && (getVc (vaultHalf d c s) d c).nextWidth.isNone) = true
  · exact ⟨_, if_pos hn, (hhalf.trans (putTopo_vaultFrame _ _ _)).trans (topoChanged_vaultFrame _)⟩
  · exact ⟨_, if_neg hn, hhalf⟩

end

/-- A request, a segment outside and in a pause, and the change of width between steps and in one. -/
theorem vaultRetraining_holds : Claims.vaultRetraining := by
  intro s d c v w hs st
  refine ⟨⟨_, rfl, vaultRetrain_requests d c hs⟩, fun ho => ?_, fun hr ho hc h0 h1 => ?_, fun hw hr => ?_, exec_vaultHalfWidth_running⟩
  · rw [exec_vaultRetrainSegment (by rw [vaultSegment_closed ho]), vaultSegment_closed ho]
  · let asked := updVc d c (fun v => { v with retrainReq := false }) s
    have hasked : asked.canon = true := canon_updVc _ _ _ hs
    have heq := vaultSegment_trainable hr ho (vaultWidth_full hc h0 h1)
    obtain ⟨hdata, hcommand, hkept⟩ := vaultSpares_switches d c (canon_putF (r_VC_STATUS d c.val) f_VC_STATUS_RETRAINING 0 hasked) hc h0 h1
    have hwidth : getF (vaultSegment d c v s) st f_VC_STATUS_WIDTH = getF s st f_VC_STATUS_WIDTH := by
      rw [heq, hkept _ (by decide) (by decide), getF_putF_field (by decide) (by decide) _ hasked, getF_updVc]
    refine ⟨_, exec_vaultRetrainSegment hwidth, ?_, hwidth, heq ▸ hdata, heq ▸ hcommand, ?_⟩
    · rw [heq, hkept _ (by decide) (by decide), getF_putF_same (by decide) _ hasked, Nat.zero_mod]
    · rw [heq, getVc_vaultSpares, getVc_putF, getVc_updVc_same _ _ _ hs]
  · obtain ⟨t, he, hframe⟩ := exec_vaultHalfWidth_idle hw hr
    refine ⟨t, he, ?_, ?_⟩
    · rw [hframe.field, narrowed, getF_putF_same (by decide) _ (canon_updVc _ _ _ hs)]
    · rw [hframe.controller, narrowed, getVc_putF, getVc_updVc_same _ _ _ hs]

/-- Settles O14: the channels of the LPDDR devices, then the vaults. That a segment also runs while the die is halted or belongs to no
partition is the model's choice (`segmentOpen`, log entry 84). -/
theorem memoryInterfacesRetrain : Obligations.MemoryInterfacesRetrain := ⟨lpRetraining_holds, vaultRetraining_holds⟩

end Sys2Proof.Machine
end

section
/-! SUPPORT. The field GF(2^16) of the S-code, and values of polynomials over it (R282). -/
namespace Sys2Proof.Machine

/-! ### Maps of field elements that keep sums -/

/-- A map of field elements that keeps their sum, which is their XOR. -/
def KeepsXor (f : BitVec 16 → BitVec 16) : Prop := ∀ x y, f (x ^^^ y) = f x ^^^ f y

/-- The map's law, for rewriting under its argument. -/
theorem KeepsXor.map_xor {f : BitVec 16 → BitVec 16} (hf : KeepsXor f) (x y : BitVec 16) : f (x ^^^ y) = f x ^^^ f y := hf x y

theorem KeepsXor.map_zero {f : BitVec 16 → BitVec 16} (hf : KeepsXor f) : f 0#16 = 0#16 := by
  simpa using hf 0#16 0#16

theorem KeepsXor.comp {f g : BitVec 16 → BitVec 16} (hf : KeepsXor f) (hg : KeepsXor g) : KeepsXor fun x => f (g x) := fun x y =>
  (congrArg f (hg x y)).trans (hf _ _)

/-- Two such maps that agree on the unit elements agree on the elements without bits from `n` on, which are sums of the first `n` of them. -/
theorem KeepsXor.eq_below {f g : BitVec 16 → BitVec 16} (hf : KeepsXor f) (hg : KeepsXor g)
    (h : ∀ i : Fin 16, f (BitVec.twoPow 16 i) = g (BitVec.twoPow 16 i)) :
    ∀ n, n ≤ 16 → ∀ x : BitVec 16, (∀ i, n ≤ i → x.getLsbD i = false) → f x = g x := by
  intro n
  induction n with
  | zero =>
    intro _ x hx
    obtain rfl : x = 0#16 := BitVec.eq_of_getLsbD_eq fun i _ => by simp [hx i (Nat.zero_le i)]
    rw [hf.map_zero, hg.map_zero]
  | succ n ih =>
    intro hn x hx
    have key : ∀ y : BitVec 16, (∀ i, n < i → y.getLsbD i = false) → y.getLsbD n = false → f y = g y := fun y hy hyn =>
      ih (by omega) y fun i hi => (Nat.lt_or_eq_of_le hi).elim (hy i) fun e => e ▸ hyn
    by_cases hxn : x.getLsbD n = true
    · have hlow : f (x ^^^ BitVec.twoPow 16 n) = g (x ^^^ BitVec.twoPow 16 n) := key _
        (fun i hi => by simp [hx i hi, Nat.ne_of_lt hi]) (by simp [hxn]; omega)
      have hx' : x = (x ^^^ BitVec.twoPow 16 n) ^^^ BitVec.twoPow 16 n := by rw [BitVec.xor_assoc, BitVec.xor_self, BitVec.xor_zero]
      rw [hx', hf, hg, hlow, h ⟨n, hn⟩]
    · exact key x hx (by simpa using hxn)

/-- Two such maps that agree on the sixteen unit elements are equal. -/
theorem KeepsXor.eq_of_units {f g : BitVec 16 → BitVec 16} (hf : KeepsXor f) (hg : KeepsXor g)
    (h : ∀ i : Fin 16, f (BitVec.twoPow 16 i) = g (BitVec.twoPow 16 i)) (x : BitVec 16) : f x = g x :=
  hf.eq_below hg h 16 (Nat.le_refl _) x fun i hi => BitVec.getLsbD_of_ge x i hi

/-! ### The product (R282) -/

/-- An element taken for the sum of two bits. -/
theorem ite_bne_xor (a : BitVec 16) (b c : Bool) :
    (if b ^^ c then a else 0#16) = (if b then a else 0#16) ^^^ (if c then a else 0#16) := by
  cases b <;> cases c <;> simp

theorem gfTimesX_xor : KeepsXor gfTimesX := fun x y => by
  unfold gfTimesX
  rw [BitVec.shiftLeft_xor_distrib, BitVec.getLsbD_xor, ite_bne_xor]
  ac_rfl

/-- Horner's scheme keeps the sums of its coefficients. -/
theorem horner_xor (u v : Nat → BitVec 16) (l : List Nat) : ∀ r q : BitVec 16,
    l.foldl (fun p i => gfTimesX p ^^^ (u i ^^^ v i)) (r ^^^ q) =
      l.foldl (fun p i => gfTimesX p ^^^ u i) r ^^^ l.foldl (fun p i => gfTimesX p ^^^ v i) q := by
  induction l with
  | nil => exact fun _ _ => rfl
  | cons i l ih =>
    intro r q
    have h : gfTimesX (r ^^^ q) ^^^ (u i ^^^ v i) = (gfTimesX r ^^^ u i) ^^^ (gfTimesX q ^^^ v i) := by rw [gfTimesX_xor]; ac_rfl
    rw [List.foldl_cons, h, ih]
    rfl

theorem gfMul_xor_left (b : BitVec 16) : KeepsXor fun a => gfMul a b := fun x y => by
  have h : ∀ i, (if b.getLsbD (15 - i) then x ^^^ y else 0#16) =
      (if b.getLsbD (15 - i) then x else 0#16) ^^^ (if b.getLsbD (15 - i) then y else 0#16) := fun i => by split <;> simp
  simp only [gfMul, h]
  exact horner_xor _ _ _ 0#16 0#16

theorem gfMul_xor_right (a : BitVec 16) : KeepsXor fun b => gfMul a b := fun x y => by
  have h : ∀ i, (if (x ^^^ y).getLsbD (15 - i) then a else 0#16) =
      (if x.getLsbD (15 - i) then a else 0#16) ^^^ (if y.getLsbD (15 - i) then a else 0#16) := fun i => by
    rw [BitVec.getLsbD_xor, ite_bne_xor]
  simp only [gfMul, h]
  exact horner_xor _ _ _ 0#16 0#16

@[simp] theorem gfMul_zero_left (b : BitVec 16) : gfMul 0#16 b = 0#16 := (gfMul_xor_left b).map_zero

@[simp] theorem gfMul_one (a : BitVec 16) : gfMul a 1#16 = a :=
  (gfMul_xor_left 1#16).eq_of_units (g := id) (fun _ _ => rfl) (by decide +kernel) a

/-- Both sides keep sums of either factor: the products of the unit elements decide it. -/
theorem gfMul_gfTimesX (a b : BitVec 16) : gfMul a (gfTimesX b) = gfTimesX (gfMul a b) := by
  refine ((gfMul_xor_right a).comp gfTimesX_xor).eq_of_units (gfTimesX_xor.comp (gfMul_xor_right a)) (fun i => ?_) b
  exact (gfMul_xor_left _).eq_of_units (gfTimesX_xor.comp (gfMul_xor_left _))
    ((by decide +kernel : ∀ i j : Fin 16, gfMul (BitVec.twoPow 16 j) (gfTimesX (BitVec.twoPow 16 i)) =
      gfTimesX (gfMul (BitVec.twoPow 16 j) (BitVec.twoPow 16 i))) i) a

/-- The unit elements are the first sixteen powers of α. -/
theorem twoPow_eq_gfPow : ∀ i : Fin 16, BitVec.twoPow 16 i = gfPow i := by decide +kernel

theorem gfPow_succ (n : Nat) : gfPow (n + 1) = gfTimesX (gfPow n) := rfl

theorem gfMul_assoc (a b c : BitVec 16) : gfMul (gfMul a b) c = gfMul a (gfMul b c) := by
  refine (gfMul_xor_right _).eq_of_units ((gfMul_xor_right a).comp (gfMul_xor_right b)) (fun i => ?_) c
  rw [twoPow_eq_gfPow]
  generalize i.val = n
  induction n with
  | zero => simp [gfPow, Nat.repeat]
  | succ n ih => simp only [gfPow_succ, gfMul_gfTimesX, ih]

theorem gfPow_add (m n : Nat) : gfMul (gfPow m) (gfPow n) = gfPow (m + n) := by
  induction n with
  | zero => exact gfMul_one _
  | succ n ih => rw [gfPow_succ, gfMul_gfTimesX, ih]; rfl

/-- α^m has an inverse for the exponents of a code word. -/
theorem gfInv_gfPow : ∀ m : Fin 36, gfMul (gfPow m) (gfInv (gfPow m)) = 1#16 := by decide +kernel

/-- So has 1 + α^k, since α^k ≠ 1. -/
theorem gfInv_one_add_gfPow : ∀ k : Fin 35, gfMul (1#16 ^^^ gfPow (k + 1)) (gfInv (1#16 ^^^ gfPow (k + 1))) = 1#16 := by decide +kernel

/-- A multiple of an element with an inverse is zero only where the factor is. -/
theorem eq_zero_of_gfMul_eq_zero {a b c : BitVec 16} (h : gfMul a b = 0#16) (hb : gfMul b c = 1#16) : a = 0#16 := by
  rw [← gfMul_one a, ← hb, ← gfMul_assoc, h, gfMul_zero_left]

/-- Multiples of a nonzero element by powers of α repeat nowhere among the 36 exponents of a code word. -/
theorem gfMul_gfPow_ne {a : BitVec 16} (ha : a ≠ 0#16) {m n : Nat} (hmn : m < n) (hn : n < 36) :
    gfMul a (gfPow m) ≠ gfMul a (gfPow n) := fun h => by
  obtain ⟨k, rfl⟩ := Nat.exists_eq_add_of_lt hmn
  have hsum : gfMul (gfMul a (gfPow m)) (1#16 ^^^ gfPow (k + 1)) = 0#16 :=
    calc gfMul (gfMul a (gfPow m)) (1#16 ^^^ gfPow (k + 1))
      _ = gfMul (gfMul a (gfPow m)) 1#16 ^^^ gfMul (gfMul a (gfPow m)) (gfPow (k + 1)) := gfMul_xor_right _ _ _
      _ = gfMul a (gfPow m) ^^^ gfMul a (gfPow (m + k + 1)) := by rw [gfMul_one, gfMul_assoc, gfPow_add, Nat.add_assoc]
      _ = 0#16 := by rw [h, BitVec.xor_self]
  exact ha (eq_zero_of_gfMul_eq_zero (eq_zero_of_gfMul_eq_zero hsum (gfInv_one_add_gfPow ⟨k, by omega⟩)) (gfInv_gfPow ⟨m, by omega⟩))

/-! ### Polynomials and their values -/

/-- The value of a polynomial, lowest coefficient first, at `x`. -/
def polyAt (x : BitVec 16) (l : List (BitVec 16)) : BitVec 16 := l.foldr (fun c r => gfMul r x ^^^ c) 0#16

@[simp] theorem polyAt_nil (x : BitVec 16) : polyAt x [] = 0#16 := rfl

theorem polyAt_cons (x c : BitVec 16) (l : List (BitVec 16)) : polyAt x (c :: l) = gfMul (polyAt x l) x ^^^ c := rfl

theorem polyAt_append (j : Nat) (l m : List (BitVec 16)) :
    polyAt (gfPow j) (l ++ m) = polyAt (gfPow j) l ^^^ gfMul (polyAt (gfPow j) m) (gfPow (j * l.length)) := by
  induction l with
  | nil => simp [gfPow, Nat.repeat]
  | cons c l ih =>
    rw [List.cons_append, polyAt_cons, ih, (gfMul_xor_left _).map_xor, gfMul_assoc, gfPow_add, polyAt_cons, List.length_cons, Nat.mul_succ]
    ac_rfl

theorem polyAt_map_gfMul (x f : BitVec 16) (l : List (BitVec 16)) : polyAt x (l.map (gfMul f)) = gfMul f (polyAt x l) := by
  induction l with
  | nil => exact (gfMul_xor_right f).map_zero.symm
  | cons c l ih => rw [List.map_cons, polyAt_cons, ih, polyAt_cons, (gfMul_xor_right f).map_xor, gfMul_assoc]

theorem polyAt_zipWith_xor (x : BitVec 16) : ∀ l m : List (BitVec 16), l.length = m.length →
    polyAt x (List.zipWith (· ^^^ ·) l m) = polyAt x l ^^^ polyAt x m
  | [], [], _ => by simp
  | c :: l, e :: m, h => by
    rw [List.zipWith_cons_cons, polyAt_cons, polyAt_zipWith_xor x l m (Nat.succ.inj h), (gfMul_xor_left x).map_xor, polyAt_cons, polyAt_cons]
    ac_rfl

theorem polyAt_replicate_zero (x : BitVec 16) (n : Nat) : polyAt x (List.replicate n 0#16) = 0#16 := by
  induction n with
  | zero => rfl
  | succ n ih => rw [List.replicate_succ, polyAt_cons, ih, gfMul_zero_left, BitVec.xor_self]

/-- The value of a single term. -/
theorem polyAt_term (j p q : Nat) (a : BitVec 16) :
    polyAt (gfPow j) (List.replicate p 0#16 ++ a :: List.replicate q 0#16) = gfMul a (gfPow (j * p)) := by
  rw [polyAt_append, polyAt_cons, polyAt_replicate_zero, polyAt_replicate_zero]
  simp

end Sys2Proof.Machine
end

section
/-! SUPPORT. The code words of the S-code: check symbols, syndromes and single errors (R282 to R284); those of the L-code (R285). -/
namespace Sys2Proof.Machine

/-! ### The check symbols (R283) -/

/-- The first four powers of α are roots of x^4 + the lower part of g. -/
theorem polyAt_sGen : ∀ j : Fin 4, polyAt (gfPow j) sGen = gfPow (j * 4) := by decide +kernel

theorem sGen_length : sGen.length = 4 := by decide +kernel

theorem sRemStep_length {r : List (BitVec 16)} (hr : r.length = 4) (c : BitVec 16) : (sRemStep r c).length = 4 := by
  simp [sRemStep, hr, sGen_length]

/-- A step of the division keeps the value at a root of g: r·x + c·x^4. -/
theorem polyAt_sRemStep {r : List (BitVec 16)} (hr : r.length = 4) (c : BitVec 16) (j : Fin 4) :
    polyAt (gfPow j) (sRemStep r c) = gfMul (polyAt (gfPow j) r) (gfPow j) ^^^ gfMul c (gfPow (j * 4)) := by
  match r, hr with
  | [a0, a1, a2, a3], _ =>
    have htop : polyAt (gfPow j) [a0, a1, a2, a3] = polyAt (gfPow j) [a0, a1, a2] ^^^ gfMul a3 (gfPow (j * 3)) := by
      have h := polyAt_append j [a0, a1, a2] [a3]
      simpa [polyAt_cons] using h
    have hlow : polyAt (gfPow j) [0#16, a0, a1, a2] = gfMul (polyAt (gfPow j) [a0, a1, a2]) (gfPow j) := by simp [polyAt_cons]
    calc polyAt (gfPow j) (sRemStep [a0, a1, a2, a3] c)
      _ = polyAt (gfPow j) [0#16, a0, a1, a2] ^^^ polyAt (gfPow j) (sGen.map (gfMul (c ^^^ a3))) :=
        polyAt_zipWith_xor _ _ _ (by simp [sGen_length])
      _ = gfMul (polyAt (gfPow j) [a0, a1, a2]) (gfPow j) ^^^ (gfMul c (gfPow (j * 4)) ^^^ gfMul a3 (gfPow (j * 4))) := by
        rw [polyAt_map_gfMul, polyAt_sGen, (gfMul_xor_left _).map_xor, hlow]
      _ = _ := by
        rw [htop, (gfMul_xor_left _).map_xor, gfMul_assoc, gfPow_add, show (j : Nat) * 3 + j = j * 4 from by omega]
        ac_rfl

/-- The remainder of x^4·l(x), over the coefficients of `l`. -/
def sRem (l : List (BitVec 16)) : List (BitVec 16) := l.foldr (fun c r => sRemStep r c) [0#16, 0#16, 0#16, 0#16]

theorem sRem_length (l : List (BitVec 16)) : (sRem l).length = 4 := by
  induction l with
  | nil => rfl
  | cons c l ih => exact sRemStep_length ih c

theorem polyAt_sRem (l : List (BitVec 16)) (j : Fin 4) : polyAt (gfPow j) (sRem l) = gfMul (polyAt (gfPow j) l) (gfPow (j * 4)) := by
  induction l with
  | nil => simp [sRem, polyAt_cons]
  | cons c l ih =>
    calc polyAt (gfPow j) (sRem (c :: l))
      _ = gfMul (gfMul (polyAt (gfPow j) l) (gfPow (j * 4))) (gfPow j) ^^^ gfMul c (gfPow (j * 4)) := by
        rw [← ih]; exact polyAt_sRemStep (sRem_length l) c j
      _ = gfMul (gfMul (polyAt (gfPow j) l) (gfPow j)) (gfPow (j * 4)) ^^^ gfMul c (gfPow (j * 4)) := by
        rw [gfMul_assoc, gfMul_assoc, gfPow_add, gfPow_add, Nat.add_comm]
      _ = _ := by rw [polyAt_cons, (gfMul_xor_left _).map_xor]

/-- The data symbols of a word, the lowest first. -/
def dataSyms (d : BitVec 512) : List (BitVec 16) := (List.range 32).map (dataSym d)

theorem sCheckSyms_eq (d : BitVec 512) : sCheckSyms d = sRem (dataSyms d) := by
  have h : (List.range 32).map (31 - ·) = (List.range 32).reverse := by decide
  rw [sRem, dataSyms, List.foldr_map, ← List.foldl_reverse, ← h, List.foldl_map]
  rfl

/-- Four symbols packed into a check field read back. -/
theorem checkSym_packSyms {l : List (BitVec 16)} (hl : l.length = 4) :
    (List.range 4).map (checkSym (BitVec.ofNat 64 (packSyms l))) = l := by
  match l, hl with
  | [a0, a1, a2, a3], _ =>
    have h0 := a0.isLt; have h1 := a1.isLt; have h2 := a2.isLt; have h3 := a3.isLt
    simp only [List.range, List.range.loop, List.map, checkSym, packSyms, List.foldr, List.cons.injEq, and_true]
    refine ⟨?_, ?_, ?_, ?_⟩ <;> apply BitVec.eq_of_toNat_eq <;>
      simp only [BitVec.extractLsb'_toNat, BitVec.toNat_ofNat, Nat.shiftRight_eq_div_pow] <;> omega

/-- A stored word holds the remainder of its data symbols in front of them. -/
theorem codeSyms_encodeWord (d : BitVec 512) : codeSyms (encodeWord .s d) = sRem (dataSyms d) ++ dataSyms d := by
  have h := checkSym_packSyms (sRem_length (dataSyms d))
  rw [← sCheckSyms_eq] at h ⊢
  exact congrArg (· ++ dataSyms d) h

theorem syndrome_eq (w : CodeWord) (j : Nat) : syndrome w j = polyAt (gfPow j) (codeSyms w) := rfl

theorem syndrome_encodeWord (d : BitVec 512) (j : Fin 4) : syndrome (encodeWord .s d) j = 0#16 := by
  rw [syndrome_eq, codeSyms_encodeWord, polyAt_append, polyAt_sRem, sRem_length, BitVec.xor_self]

/-! ### Errors in code words -/

/-- The sum of two code words. -/
def xorWord (w e : CodeWord) : CodeWord := ⟨w.data ^^^ e.data, w.check ^^^ e.check⟩

theorem codeSyms_xorWord (w e : CodeWord) : codeSyms (xorWord w e) = List.zipWith (· ^^^ ·) (codeSyms w) (codeSyms e) := by
  have hc : checkSym (w.check ^^^ e.check) = fun k => checkSym w.check k ^^^ checkSym e.check k := funext fun k => BitVec.extractLsb'_xor
  have hd : dataSym (w.data ^^^ e.data) = fun k => dataSym w.data k ^^^ dataSym e.data k := funext fun k => BitVec.extractLsb'_xor
  simp only [codeSyms, xorWord, hc, hd]
  rw [List.zipWith_append (by simp), List.zipWith_map, List.zipWith_map, List.zipWith_self, List.zipWith_self]

theorem codeSyms_length (w : CodeWord) : (codeSyms w).length = 36 := by simp [codeSyms]

theorem syndrome_xorWord (w e : CodeWord) (j : Nat) : syndrome (xorWord w e) j = syndrome w j ^^^ syndrome e j := by
  simp only [syndrome_eq]
  rw [codeSyms_xorWord, polyAt_zipWith_xor _ _ _ (by rw [codeSyms_length, codeSyms_length])]

/-- An error shows in a stored word as it does alone. -/
theorem syndromes_xorWord_encodeWord (d : BitVec 512) (e : CodeWord) : syndromes (xorWord (encodeWord .s d) e) = syndromes e := by
  refine List.map_congr_left fun j hj => ?_
  rw [syndrome_xorWord, syndrome_encodeWord d ⟨j, List.mem_range.1 hj⟩, BitVec.zero_xor]

theorem syndromes_encodeWord (d : BitVec 512) : syndromes (encodeWord .s d) = List.replicate 4 0#16 := by
  have h : ∀ j ∈ List.range 4, syndrome (encodeWord .s d) j = 0#16 := fun j hj => syndrome_encodeWord d ⟨j, List.mem_range.1 hj⟩
  rw [syndromes, List.map_congr_left h]
  rfl

/-- The syndromes of an error `pat` in coefficient `p` alone. -/
def termSyndromes (p : Nat) (pat : BitVec 16) : List (BitVec 16) := (List.range 4).map fun j => gfMul pat (gfPow (j * p))

/-- The coefficient of a symbol: the inverse of `symOfCoeff`. -/
def coeffOfSym (n : Nat) : Nat := if n < 32 then n + 4 else n - 32

theorem symOfCoeff_coeffOfSym {n : Nat} (hn : n < 36) : symOfCoeff (coeffOfSym n) = n := by
  unfold symOfCoeff coeffOfSym
  split <;> split <;> omega

theorem coeffOfSym_lt {n : Nat} (hn : n < 36) : coeffOfSym n < 36 := by
  unfold coeffOfSym
  split <;> omega

/-- A field of symbols with one symbol set. -/
theorem extractLsb'_shiftLeft_symbol {w i : Nat} (hi : 16 * i + 16 ≤ w) (pat : BitVec 16) (n : Nat) :
    (pat.setWidth w <<< (16 * n)).extractLsb' (16 * i) 16 = if i = n then pat else 0#16 := by
  refine BitVec.eq_of_getLsbD_eq fun k hk => ?_
  rcases Nat.lt_trichotomy i n with h | rfl | h
  · simp [Nat.ne_of_lt h, show 16 * i + k < 16 * n by omega]
  · simp [hk, show 16 * i + k < w by omega]
  · simp [Nat.ne_of_gt h, BitVec.getLsbD_of_ge pat (16 * i + k - 16 * n) (by omega)]

theorem codeSyms_getElem (w : CodeWord) {k : Nat} (hk : k < (codeSyms w).length) :
    (codeSyms w)[k] = if k < 4 then checkSym w.check k else dataSym w.data (k - 4) := by
  simp [codeSyms, List.getElem_append]

theorem dataSym_flipSym_zero {i : Nat} (hi : i < 32) (n : Nat) (pat : BitVec 16) :
    dataSym (flipSym n pat ⟨0, 0⟩).data i = if i = n then pat else 0#16 := by
  unfold flipSym dataSym
  split
  · simpa using extractLsb'_shiftLeft_symbol (w := 512) (i := i) (by omega) pat n
  · simp [show i ≠ n by omega]

theorem checkSym_flipSym_zero {k : Nat} (hk : k < 4) (n : Nat) (pat : BitVec 16) :
    checkSym (flipSym n pat ⟨0, 0⟩).check k = if k + 32 = n then pat else 0#16 := by
  unfold flipSym checkSym
  split
  · simp [show k + 32 ≠ n by omega]
  · simpa [show k = n - 32 ↔ k + 32 = n by omega] using extractLsb'_shiftLeft_symbol (w := 64) (i := k) (by omega) pat (n - 32)

/-- The word that holds `pat` in symbol `n` and zeros elsewhere is a single term. -/
theorem codeSyms_flipSym_zero {n : Nat} (hn : n < 36) (pat : BitVec 16) :
    codeSyms (flipSym n pat ⟨0, 0⟩) =
      List.replicate (coeffOfSym n) 0#16 ++ pat :: List.replicate (35 - coeffOfSym n) 0#16 := by
  have hp := coeffOfSym_lt hn
  refine List.ext_getElem (by simp [codeSyms_length]; omega) fun k hk _ => ?_
  have hk' : k < 36 := codeSyms_length _ ▸ hk
  have hsym : (codeSyms (flipSym n pat ⟨0, 0⟩))[k]'hk = if k = coeffOfSym n then pat else 0#16 := by
    rw [codeSyms_getElem _ hk]
    by_cases h4 : k < 4
    · have hcoeff : k = coeffOfSym n ↔ k + 32 = n := by unfold coeffOfSym; split <;> omega
      rw [if_pos h4, checkSym_flipSym_zero h4]
      simp only [hcoeff]
    · have hcoeff : k = coeffOfSym n ↔ k - 4 = n := by unfold coeffOfSym; split <;> omega
      rw [if_neg h4, dataSym_flipSym_zero (by omega)]
      simp only [hcoeff]
  rw [hsym]
  rcases Nat.lt_trichotomy k (coeffOfSym n) with h | h | h
  · simp [h, Nat.ne_of_lt h]
  · simp [h]
  · simp [List.getElem_append, List.getElem_cons, Nat.ne_of_gt h, Nat.lt_asymm h, show ¬ k ≤ coeffOfSym n by omega, Nat.sub_eq_zero_iff_le]

theorem flipSym_eq_xorWord (n : Nat) (pat : BitVec 16) (w : CodeWord) : flipSym n pat w = xorWord w (flipSym n pat ⟨0, 0⟩) := by
  unfold flipSym xorWord
  split <;> simp

theorem flipSym_flipSym (n : Nat) (pat : BitVec 16) (w : CodeWord) : flipSym n pat (flipSym n pat w) = w := by
  by_cases h : n < 32 <;> simp only [flipSym, h, if_true, if_false, BitVec.xor_assoc, BitVec.xor_self, BitVec.xor_zero]

theorem syndromes_flipSym_encodeWord {n : Nat} (hn : n < 36) (pat : BitVec 16) (d : BitVec 512) :
    syndromes (flipSym n pat (encodeWord .s d)) = termSyndromes (coeffOfSym n) pat := by
  rw [flipSym_eq_xorWord, syndromes_xorWord_encodeWord]
  refine List.map_congr_left fun j _ => ?_
  rw [syndrome_eq, codeSyms_flipSym_zero hn, polyAt_term]

/-! ### The decoder on the words of the code -/

theorem termSyndromes_getD {k : Nat} (hk : k < 4) (p : Nat) (pat : BitVec 16) :
    (termSyndromes p pat).getD k 0#16 = gfMul pat (gfPow (k * p)) := by
  simp [termSyndromes, List.getD, hk]

theorem termSyndromes_zero (p : Nat) (pat : BitVec 16) : (termSyndromes p pat).getD 0 0#16 = pat := by
  rw [termSyndromes_getD (by decide), Nat.zero_mul]
  exact gfMul_one pat

theorem singleError_termSyndromes {p : Nat} (hp : p < 36) {pat : BitVec 16} (hpat : pat ≠ 0#16) :
    singleError (termSyndromes p pat) = some p := by
  have hnext : ∀ k, gfMul (gfMul pat (gfPow (k * p))) (gfPow p) = gfMul pat (gfPow ((k + 1) * p)) := fun k => by
    rw [gfMul_assoc, gfPow_add, Nat.succ_mul]
  have h0 := termSyndromes_zero p pat
  rw [singleError, if_neg fun h => hpat (h0.symm.trans h), List.find?_range_eq_some]
  simp only [h0, termSyndromes_getD (show 1 < 4 by decide), termSyndromes_getD (show 2 < 4 by decide), termSyndromes_getD (show 3 < 4 by decide)]
  refine ⟨?_, List.mem_range.2 hp, fun q hq => ?_⟩
  · have h1 := hnext 1
    have h2 := hnext 2
    rw [Nat.one_mul] at h1
    simp [h1, h2]
  · have := gfMul_gfPow_ne hpat hq hp
    simp [this.symm]

theorem syndromes_poisonS (d : BitVec 512) : syndromes (poisonS (encodeWord .s d)) = poisonSyndromes := by
  have h : poisonS (encodeWord .s d) = xorWord (encodeWord .s d) ⟨0, 0xFFFFFFFF#64⟩ := by simp [poisonS, xorWord]
  rw [h, syndromes_xorWord_encodeWord, poisonSyndromes]

/-- The poison pattern shows no error by its first syndrome, and one by the others. -/
theorem poisonSyndromes_spec : poisonSyndromes.getD 0 0#16 = 0#16 ∧ poisonSyndromes.all (· = 0#16) = false := by decide +kernel

theorem sDecode_encodeWord (pins : Bool) (d : BitVec 512) : sDecode pins (encodeWord .s d) = (d, .clean) := by
  simp only [sDecode, syndromes_encodeWord]
  rfl

theorem sDecode_poisonWord (pins : Bool) (d : BitVec 512) : sDecode pins (poisonWord .s d) = (d, .poisoned) := by
  simp only [sDecode, poisonWord, syndromes_poisonS, poisonSyndromes_spec.2, Bool.false_eq_true, if_false, if_true]
  rfl

theorem sDecode_flipSym (pins : Bool) (d : BitVec 512) {n : Nat} (hn : n < 36) {pat : BitVec 16} (hpat : pat ≠ 0#16) :
    sDecode pins (flipSym n pat (encodeWord .s d)) = (d, .corrected) := by
  have hp := coeffOfSym_lt hn
  have h0 := termSyndromes_zero (coeffOfSym n) pat
  have hzero : ¬ (termSyndromes (coeffOfSym n) pat).all (· = 0#16) = true := fun h => hpat <| by
    rw [← h0]
    exact of_decide_eq_true (List.all_eq_true.1 h _ (List.getElem_mem (n := 0) (by simp [termSyndromes])))
  have hpoison : termSyndromes (coeffOfSym n) pat ≠ poisonSyndromes := fun h => hpat <| by rw [← h0, h, poisonSyndromes_spec.1]
  simp only [sDecode, syndromes_flipSym_encodeWord hn, if_neg hzero, if_neg hpoison, singleError_termSyndromes hp hpat, h0,
    symOfCoeff_coeffOfSym hn, flipSym_flipSym]
  rfl

/-- The poison form of the L-code's check field never matches. -/
theorem lCheck_poison_ne (d : BitVec 512) : lCheck d ^^^ 0xFF#64 ≠ lCheck d := fun h => by
  have h' : lCheck d ^^^ (lCheck d ^^^ 0xFF#64) = lCheck d ^^^ lCheck d := congrArg (lCheck d ^^^ ·) h
  rw [← BitVec.xor_assoc, BitVec.xor_self, BitVec.zero_xor] at h'
  exact absurd h' (by decide)

/-- Settles O46: the S-code by its syndromes, which are those of the error alone; the L-code by its check field. -/
theorem codeWordsReadBack : Obligations.CodeWordsReadBack := by
  unfold Obligations.CodeWordsReadBack
  intro d pins
  refine ⟨sDecode_encodeWord pins d, sDecode_poisonWord pins d, fun n pat hn hpat => sDecode_flipSym pins d hn hpat, ?_, ?_⟩
  · exact congrArg (Prod.mk d) (if_pos rfl)
  · exact congrArg (Prod.mk d) (if_neg (lCheck_poison_ne d))

end Sys2Proof.Machine
end

section
/-! SUPPORT. The row test of a candidate row (R295, R296). -/
namespace Sys2Proof.Machine

/-- A state that is not canonical, since it lists vault controller 0 twice: an entry with candidate row 0 alone, and one with all 32 spare rows
of bank 0 used. -/
def doubledVault : State :=
  { State.reset with vcs := [(0, { Vc.reset with candidates := [0] }), (0, { Vc.reset with remaps := [(0, 32)] })] }

theorem logRepair_repairLog (d : Stack) (u : Fin 17) (row what : Nat) (s : State) :
    (logRepair d u row what s).hub.repairLog = s.hub.repairLog ++ [(17 * d.val + u.val, row, what)] := rfl

/-- A failing row of a bank with no spare row left is retired: the repair log says 2. -/
theorem doubledVault_retires : (rowTest 0 0 false false none doubledVault).hub.repairLog = [(0, 0, 2)] := by decide +kernel

/-- Refutes O15 at `rowTests`, which does not ask for a canonical state: in `doubledVault` the test takes the only candidate, after which the
first entry of controller 0 equals the reset value and leaves the table. The second entry is then read: the bank has no spare row, and the row is
retired, where the clause, which counts the remaps before the test, has it remapped. -/
theorem not_storedDataIsCheckedAndRepaired : ¬ Obligations.StoredDataIsCheckedAndRepaired := by
  unfold Obligations.StoredDataIsCheckedAndRepaired
  rintro ⟨-, -, hrow, -⟩
  have hmask : flipMatches (getReg doubledVault (uFlipReg 0 0)) wOther 99 = false := by decide +kernel
  have hfree : sget 0 (getRemaps doubledVault 0 0) (rowBank 0 0) < 32 := by decide +kernel
  have hexec := ((hrow doubledVault 0 0 false false none 0 [] (by decide +kernel) (by decide +kernel)).1 hmask).2
  have hnext : rowTest 0 0 false false none doubledVault = logRepair 0 0 0 1 (addRemap 0 0 (rowBank 0 0)
      (rewriteRow 0 0 0 (setCandidates 0 0 [] doubledVault))) :=
    (Host.Outcome.next.inj hexec).trans (if_pos (decide_eq_true hfree))
  have hlog := congrArg (fun t : State => t.hub.repairLog.getLast?) hnext
  simp only [doubledVault_retires, logRepair_repairLog, List.getLast?_concat] at hlog
  exact absurd hlog (by decide)

end Sys2Proof.Machine
end

section
/-! SUPPORT. The end of a measurement round: the summary, the reports and the trip by an estimate (R299, R371, R384, R388, R420). -/
namespace Sys2Proof.Machine

/-! ### Causes of SB_ALERT (R419) -/

/-- A cause of SB_ALERT changes that register and the sideband's state alone. -/
theorem raiseAlert_frame (b : Nat) (s : State) : (raiseAlert b s).present = s.present ∧ (raiseAlert b s).rst = s.rst ∧
    (raiseAlert b s).therm = s.therm ∧ ∀ a, a ≠ r_SB_ALERT → getReg (raiseAlert b s) a = getReg s a := by
  unfold raiseAlert
  dsimp only
  split
  · exact ⟨rfl, rfl, rfl, fun a ha => getReg_putReg_other _ ha⟩
  · exact ⟨rfl, rfl, rfl, fun a ha => getReg_putReg_other _ ha⟩

/-! ### The stacks that take part in a round (R26, R384) -/

/-- Which stacks are on the ring follows from the present ones, the resets and the ports' states. -/
theorem onRing_congr {s t : State} (hp : t.present = s.present) (hr : t.rst = s.rst)
    (ha : ∀ e p : Nat, getReg t (r_PORT_STATUS e p) = getReg s (r_PORT_STATUS e p)) (d : Stack) : onRing t d = onRing s d := by
  have hf : ∀ (e p : Nat) (f : Fld), getF t (r_PORT_STATUS e p) f = getF s (r_PORT_STATUS e p) f := fun e p f =>
    congrArg (fieldOf f) (ha e p)
  simp only [onRing, clockLost, hp, hr, hf]

/-- The hub's registers are none of a port's. -/
theorem r_PORT_STATUS_ne {a : Nat} (ha : a < 2 ^ 32) (e p : Nat) : r_PORT_STATUS e p ≠ a := by
  unfold r_PORT_STATUS dieReg mgmtAddr
  omega

theorem onRing_putReg_hub {a : Nat} (ha : a < 2 ^ 32) (v : Word) (s : State) (d : Stack) : onRing (putReg s a v) d = onRing s d :=
  onRing_congr (s := s) (t := putReg s a v) rfl rfl (fun e p => getReg_putReg_other v (r_PORT_STATUS_ne ha e p)) d

theorem onRing_putF_hub {a : Nat} (ha : a < 2 ^ 32) (f : Fld) (n : Nat) (s : State) (d : Stack) : onRing (putF a f n s) d = onRing s d :=
  onRing_putReg_hub ha _ s d

theorem onRing_raiseAlert (b : Nat) (s : State) (d : Stack) : onRing (raiseAlert b s) d = onRing s d := by
  obtain ⟨hp, hr, -, ha⟩ := raiseAlert_frame b s
  exact onRing_congr hp hr (fun e p => ha _ (r_PORT_STATUS_ne (by decide) e p)) d

/-- The round's number and the inlet's temperature decide nothing of the ring. -/
theorem onRing_inletRound (s : State) (d : Stack) : onRing (inletRound (bumpF r_HK_ROUND f_HK_ROUND_ROUND 1 s)) d = onRing s d := by
  have hair : r_AIR < 2 ^ 32 := by decide
  have hinlet : r_SB_INLET < 2 ^ 32 := by decide
  have hround : r_HK_ROUND < 2 ^ 32 := by decide
  unfold inletRound satF bumpF
  dsimp only
  split <;> simp only [onRing_raiseAlert, onRing_putF_hub hair, onRing_putF_hub hinlet, onRing_putF_hub hround]

/-! ### The end of a round -/

/-- SB_THERM shows the air register's demand and target (R420). -/
def ShowsAir (s : State) : Prop :=
  getF s r_SB_THERM f_SB_THERM_DEMAND = getF s r_AIR f_AIR_DEMAND % 2 ^ f_SB_THERM_DEMAND.width ∧
    getF s r_SB_THERM f_SB_THERM_TARGET = getF s r_AIR f_AIR_TARGET % 2 ^ f_SB_THERM_TARGET.width

/-- The summary's other fields lie above both. -/
theorem ShowsAir.putF {s : State} (h : ShowsAir s) (hs : s.canon = true) {f : Fld} (hf : fldFits f) (hlo : 16 ≤ f.lo) (n : Nat) :
    ShowsAir (putF r_SB_THERM f n s) := by
  have hair : ∀ g, getF (Machine.putF r_SB_THERM f n s) r_AIR g = getF s r_AIR g := fun g => getF_putF_other f g n (by decide)
  obtain ⟨hdemand, htarget⟩ := h
  unfold ShowsAir
  rw [hair, hair, getF_putF_field hf (.inr (Nat.le_trans (by decide : f_SB_THERM_DEMAND.lo + f_SB_THERM_DEMAND.width ≤ 16) hlo)) n hs,
    getF_putF_field hf (.inr (Nat.le_trans (by decide : f_SB_THERM_TARGET.lo + f_SB_THERM_TARGET.width ≤ 16) hlo)) n hs]
  exact ⟨hdemand, htarget⟩

theorem summary_showsAir (one two : Bool) {s : State} (hs : s.canon = true) : ShowsAir (summary one two s) := by
  have hair : ∀ g f n (t : State), getF (putF r_SB_THERM f n t) r_AIR g = getF t r_AIR g := fun g f n t => getF_putF_other f g n (by decide)
  have hbase : ∀ d t, d = getF s r_AIR f_AIR_DEMAND → t = getF s r_AIR f_AIR_TARGET →
      ShowsAir (putF r_SB_THERM f_SB_THERM_DEMAND d (putF r_SB_THERM f_SB_THERM_TARGET t s)) := by
    rintro d t rfl rfl
    have htarget := canon_putF r_SB_THERM f_SB_THERM_TARGET (getF s r_AIR f_AIR_TARGET) hs
    unfold ShowsAir
    rw [hair, hair, hair, hair, getF_putF_same (by decide) _ htarget, getF_putF_field (by decide) (.inl (by decide)) _ htarget,
      getF_putF_same (by decide) _ hs]
    exact ⟨rfl, rfl⟩
  have hstep : ∀ {f : Fld} (n : Nat) {t : State}, fldFits f → 16 ≤ f.lo → t.canon = true ∧ ShowsAir t →
      (putF r_SB_THERM f n t).canon = true ∧ ShowsAir (putF r_SB_THERM f n t) := fun n _ hf hlo ⟨hc, h⟩ =>
    ⟨canon_putF _ _ _ hc, h.putF hc hf hlo n⟩
  -- the summary's seven other fields, from FROST down to TDRAM
  exact (hstep _ (by decide) (by decide) <| hstep _ (by decide) (by decide) <| hstep _ (by decide) (by decide) <|
    hstep _ (by decide) (by decide) <| hstep _ (by decide) (by decide) <| hstep _ (by decide) (by decide) <|
    hstep _ (by decide) (by decide) ⟨canon_putF _ _ _ (canon_putF _ _ _ hs), hbase _ _ rfl rfl⟩).2

/-- A handler changes its station's ERR_STATUS alone. -/
theorem clearUnits_frame (st : Station) (s : State) : (clearUnits st s).hub = s.hub ∧
    ∀ a, a ≠ stBase st → getReg (clearUnits st s) a = getReg s a := by
  unfold clearUnits
  dsimp only
  split
  · exact ⟨rfl, fun _ _ => rfl⟩
  · exact ⟨rfl, fun a ha => getReg_putReg_other _ ha⟩

theorem reportErrors_reports (s : State) : (reportErrors s).hub.errNew = [] := by
  rw [reportErrors, (clearUnits_frame _ _).1]
  rfl

theorem ShowsAir.reportErrors {s : State} (h : ShowsAir s) : ShowsAir (reportErrors s) := by
  have hreg : ∀ a f, a ≠ r_ERR_STATUS_package → getF (Machine.reportErrors s) a f = getF s a f := fun a f ha =>
    congrArg (fieldOf f) ((clearUnits_frame .package _).2 a ha)
  unfold ShowsAir
  rwa [hreg _ _ (by decide), hreg _ _ (by decide), hreg _ _ (by decide), hreg _ _ (by decide)]

/-- A round ends with the summary, the reports, the trip by a stack's estimate, and the switch that waits. The state before the summary is the
one that the definition computes: the equation names it, and every part of the round keeps it canonical. -/
theorem measurementRound_ends {s : State} (r : RoundReading) (hs : s.canon = true) : ∃ q one two, q.canon = true ∧
    measurementRound r s = frAgain (if (r.dies.filter fun x => onRing s x.die).any fun x => estimateTrip (reportErrors (summary one two q)) x.die
      then thermalTrip (reportErrors (summary one two q)) else reportErrors (summary one two q)) := by
  unfold measurementRound
  simp only [onRing_inletRound]
  constructor; constructor; constructor; constructor
  rotate_left
  · rfl
  · have hstacks := forAll_keeps (r.dies.filter fun x => onRing s x.die) (fun x t => dieRound x (getF t r_HK_ROUND f_HK_ROUND_ROUND) t)
      (fun _ _ h => dieRound_keeps _ _ h) (inletRound_keeps (bumpF_keeps r_HK_ROUND f_HK_ROUND_ROUND 1 (Keeps.refl s)))
    have hhub := forAll_keeps (List.range 4) (fun i t => readHubPair (2 * i) (r.hub.getD (2 * i) 0) (r.hub.getD (2 * i + 1) 0) t)
      (fun _ _ h => readHubPair_keeps _ _ _ h) hstacks
    refine Keeps.canon (forAll_keeps _ _ (fun _ _ h => updTherm_keeps _ _ h) ?hroots) hs
    refine forAll_keeps _ _ (fun p _ h => pauseRound_keeps p h) (airRound_keeps _ (packagePower_keeps r _ ?hpower))
    exact ite_keeps (fun _ => raiseAlert_keeps alTherm hhub) fun _ => hhub

theorem rounds_hold : Claims.rounds := by
  intro s r hs
  obtain ⟨q, one, two, hq, he⟩ := measurementRound_ends r hs
  obtain ⟨hdemand, htarget⟩ := (summary_showsAir one two hq).reportErrors
  refine ⟨reportErrors (summary one two q), reportErrors_reports _, hdemand, htarget, fun hcool => ?_, fun ⟨x, hx, hon, hhot⟩ => ?_⟩
  · refine congrArg Host.Outcome.next (he.trans (congrArg frAgain (if_neg ?_)))
    simpa [and_imp] using hcool
  · refine congrArg Host.Outcome.next (he.trans (congrArg frAgain (if_pos ?_)))
    exact List.any_eq_true.2 ⟨x, List.mem_filter.2 ⟨hx, hon⟩, hhot⟩

end Sys2Proof.Machine
end

section
/-! SUPPORT. Frost levels, trips of the comparators, and the start of conversion (R351, R378, R387, R388, R412). -/
namespace Sys2Proof.Machine

/-! ### Frost (R387) -/

theorem elasticClear_therm (d : Stack) (s : State) : (elasticClear d s).therm = s.therm := by
  unfold elasticClear
  split
  · rw [updDie_therm, putF_therm]
  · rfl

theorem settleElastic_therm (p : Nat) (s : State) : (settleElastic p s).therm = s.therm := by
  unfold settleElastic
  split
  · rfl
  · split
    · rfl
    · split
      · exact elasticClear_therm _ _
      · rfl

/-- Alerts and the end of elastic mode leave the level that has taken effect. -/
theorem applyFrost_takesEffect {s : State} (d : Stack) (hs : s.canon = true) :
    (getTherm (applyFrost d s) d).frost = getF s (r_FROST_CTRL d) f_FROST_CTRL_LEVEL := by
  have htherm : (applyFrost d s).therm = (updTherm d (fun t => { t with frost := getF s (r_FROST_CTRL d) f_FROST_CTRL_LEVEL }) s).therm := by
    have halert : ∀ (c : Prop) [Decidable c] (t : State), (if c then raiseAlert alFrost t else t).therm = t.therm := fun c _ t => by
      obtain ⟨-, -, htherm, -⟩ := raiseAlert_frame alFrost t
      split
      · exact htherm
      · rfl
    unfold applyFrost
    extract_lets
    split
    · split
      · exact (settleElastic_therm _ _).trans (halert _ _)
      · exact halert _ _
    · exact halert _ _
  have hget : ∀ t u : State, t.therm = u.therm → getTherm t d = getTherm u d := fun t u h => by simp only [getTherm, h]
  rw [hget _ _ htherm, getTherm_updTherm_same _ _ hs]

/-! ### Thermal trips (R351, R388) -/

theorem clearRegs_rst (level scope : Nat) (s : State) : (clearRegs level scope s).rst = s.rst :=
  forAll_frame State.rst (fun e t => by split <;> rfl) s.regs s

/-- What the clearing of a die does not reach: the reset controller, the service and the partitions. -/
def hubSide (s : State) : ResetCtl × Svc × List Partition := (s.rst, s.svc, s.parts)

theorem hubSide_clearDieMem (level : Nat) (d : Stack) (s : State) : hubSide (clearDieMem level d s) = hubSide s := by
  unfold clearDieMem
  dsimp only
  split <;> rfl

theorem hubSide_clearDieParts (d : Stack) (s : State) : hubSide (clearDieParts lvSystem d s) = hubSide s := rfl

theorem hubSide_clearHub (level : Nat) (s : State) : hubSide (clearHub level s) = (s.rst, Svc.reset, []) := by
  have hfuses : (settleFuses s).rst = s.rst := by
    unfold settleFuses
    split
    · exact putF_rst _ _ _ _
    · rfl
  exact congrArg (·, Svc.reset, []) hfuses

@[simp] theorem updRst_rst (f : ResetCtl → ResetCtl) (s : State) : (updRst f s).rst = f s.rst := rfl

/-- A system reset of the package clears the service and the partitions, keeps the trip latch, and is the only reset in progress. -/
theorem beginReset_system {q : RstSeq} (hscope : q.scope = 0) (hlevel : q.level = lvSystem) (s : State) :
    (beginReset q s).rst.trip = s.rst.trip ∧ (beginReset q s).rst.seqs = [q] ∧ (beginReset q s).svc = Svc.reset ∧
      (beginReset q s).parts = [] := by
  have hclears : hubSide (forAll allStacks (fun d t => clearDieParts lvSystem d (clearDieMem lvSystem d t))
      (clearHub lvSystem (clearRegs lvSystem 0 s))) = (s.rst, Svc.reset, []) := by
    rw [forAll_frame hubSide fun d t => (hubSide_clearDieParts d _).trans (hubSide_clearDieMem _ d t), hubSide_clearHub, clearRegs_rst]
  simp only [hubSide, Prod.mk.injEq] at hclears
  obtain ⟨hrst, hsvc, hparts⟩ := hclears
  rw [beginReset, if_pos ⟨hscope, by rw [hlevel]; decide⟩, if_pos hscope]
  simp only [hlevel, updRst_rst, updRst_svc, updRst_parts, hrst, hsvc, hparts, and_self, and_true]
  exact Bool.and_true _

/-- A thermal trip latches; without a program pulse or another reset a system reset of the package takes hold (R351, R388). -/
theorem thermalTrip_resets {s : State} (hpulse : s.sec.pulse = none) (hseqs : s.rst.seqs = []) :
    (thermalTrip s).rst.trip = true ∧ (thermalTrip s).rst.seqs = [⟨lvSystem, 0, rcThermal, true, 0, false, false, []⟩] ∧
      (thermalTrip s).svc = Svc.reset ∧ (thermalTrip s).parts = [] := by
  have htakes : thermalTrip s = beginReset ⟨lvSystem, 0, rcThermal, true, 0, false, false, []⟩
      (updRst (fun r => { r with seqs := r.seqs.filter fun q => !scopesMeet q.scope 0 }) (updRst (fun r => { r with trip := true }) s)) := by
    unfold thermalTrip acceptReset acceptWith
    simp [hpulse, hseqs, absorbed, levelDomains, lvSystem]
  rw [htakes]
  exact beginReset_system rfl rfl _

/-- While a program pulse runs, the reset of a trip waits (R349). -/
theorem thermalTrip_waits {s : State} (hpulse : s.sec.pulse ≠ none) : thermalTrip s = { s with rst :=
    { s.rst with trip := true, waiting := s.rst.waiting ++ [⟨lvSystem, 0, rcThermal, true, 0, true, false, []⟩] } } :=
  if_pos (Option.isSome_iff_ne_none.2 hpulse)

theorem tripLevel_eq (die : Option Stack) (n : Nat) : tripLevel die n = if die ≠ none ∧ 32 ≤ n then 880 else 944 := by
  cases die with
  | none => rfl
  | some d => by_cases h : n < 32 <;> simp [tripLevel, h]

theorem exec_tripComparator {die : Option Stack} {n : Fin 56} (h : die = none → n.val < 8) (v : Int) (s : State) :
    exec (.tripComparator die n v) s = .next (if tripLevel die n.val ≤ v then thermalTrip s else s) :=
  (if_neg fun h' => Nat.not_le_of_lt (h h'.1) h'.2).trans (by split <;> rfl)

theorem exec_frostLevelChange_idle {s : State} {d r : Stack} {p : Partition} (hp : partOf s d = some p) (hr : stackIx p.root = some r)
    (hel : getF s (r_FLASH_CTRL r) f_FLASH_CTRL_ELASTIC = 1) (hrun : dieRuns s d = false) :
    exec (.frostLevelChange d) s = .next (applyFrost d s) :=
  if_pos (by simp [hp, hr, hel, hrun])

/-! ### Conversion (R378, R405, R412) -/

/-- Conversion starts unless it runs, or a rail fault holds the module and the input has not been applied again. -/
theorem exec_conversionStart_starts {s : State} {applied : Bool} (hrun : s.power.running = false) (h : (s.power.railFault && !applied) = false) :
    exec (.conversionStart applied) s = .next (updRst (fun r => { r with pwrBad := true }) { s with power := ⟨true, false⟩ }) :=
  if_neg (by simp [hrun, h])

theorem exec_conversionStart_held {s : State} (h : s.power.railFault = true) :
    exec (.conversionStart false) s = .next s :=
  if_pos (by simp [h])

theorem thermalEvents_hold : Claims.thermalEvents := by
  intro s d n v p r hs
  refine ⟨fun hp hr hel hrun => ?_, fun die hn => ?_, fun hn => ?_, fun hoff hrail => ?_, fun hoff => ?_,
    fun _ hrail => ?_⟩
  · exact ⟨applyFrost d s, exec_frostLevelChange_idle hp hr hel hrun, applyFrost_takesEffect d hs⟩
  · intro level
    rw [exec_tripComparator hn, tripLevel_eq]
    refine ⟨fun hv => ?_, fun hv => congrArg Host.Outcome.next (if_neg (Int.not_le.2 hv))⟩
    rw [if_pos hv]
    exact ⟨fun hpulse hseqs => ⟨_, rfl, thermalTrip_resets hpulse hseqs⟩,
      fun hpulse => congrArg Host.Outcome.next (thermalTrip_waits hpulse)⟩
  · exact if_pos ⟨rfl, hn⟩
  · exact exec_conversionStart_starts hoff (by simp [hrail])
  · exact exec_conversionStart_starts hoff (by simp)
  · exact exec_conversionStart_held hrail

/-- Settles O30: the measurement round, then Frost, trips and conversion. -/
theorem roundsAndTripsTakeEffect : Obligations.RoundsAndTripsTakeEffect := ⟨rounds_hold, thermalEvents_hold⟩

end Sys2Proof.Machine
end

section
/-! SUPPORT. What lies beyond the hub's links: events, alerts and the messages of both links do not reach it (R305 to R312, R323 to R336). -/
namespace Sys2Proof.Machine

/-- A state without what the hub and its links change by themselves: the registers, the hub's messages and service, the twin, the two flit
layers and the pins. Two states that agree here agree in every other part of the module. -/
def beyondLinks (s : State) : State :=
  { s with regs := [], hub := Hub.reset, svc := Svc.reset, twin := Twin.reset, camner := Camner.reset, twinFlits := FlitSide.reset,
           pins := Pins.reset }

section
variable (s : State)

@[simp] theorem beyondLinks_putReg (a : Nat) (v : Word) : beyondLinks (putReg s a v) = beyondLinks s := rfl
@[simp] theorem beyondLinks_putF (a : Nat) (f : Fld) (n : Nat) : beyondLinks (putF a f n s) = beyondLinks s := rfl
@[simp] theorem beyondLinks_bumpF (a : Nat) (f : Fld) (n : Nat) : beyondLinks (bumpF a f n s) = beyondLinks s := rfl
@[simp] theorem beyondLinks_satF (a : Nat) (f : Fld) (n : Nat) : beyondLinks (satF a f n s) = beyondLinks s := rfl
@[simp] theorem beyondLinks_updHub (f : Hub → Hub) : beyondLinks (updHub f s) = beyondLinks s := rfl
@[simp] theorem beyondLinks_updSvc (f : Svc → Svc) : beyondLinks (updSvc f s) = beyondLinks s := rfl
@[simp] theorem beyondLinks_updTwin (f : Twin → Twin) : beyondLinks (updTwin f s) = beyondLinks s := rfl
@[simp] theorem beyondLinks_updCam (f : Camner → Camner) : beyondLinks (updCam f s) = beyondLinks s := rfl

end

/-! ### Events (R323) and alerts (R419) -/

@[simp] theorem beyondLinks_sendMsg (m : OutMsg) (s : State) : beyondLinks (sendMsg m s) = beyondLinks s := rfl

@[simp] theorem beyondLinks_dropEvent (s : State) : beyondLinks (dropEvent s) = beyondLinks s := rfl

@[simp] theorem beyondLinks_signalMsi (s : State) : beyondLinks (signalMsi s) = beyondLinks s := by
  unfold signalMsi
  split
  · rfl
  · split <;> rfl

@[simp] theorem beyondLinks_writeEvent (e : EventRec) (s : State) : beyondLinks (writeEvent e s) = beyondLinks s := by
  unfold writeEvent sendStore sendIndex
  dsimp only
  split
  · exact beyondLinks_dropEvent s
  · simp only [beyondLinks_signalMsi, beyondLinks_bumpF, beyondLinks_sendMsg, beyondLinks_updHub]

@[simp] theorem beyondLinks_postEvent (code subject data : Nat) (s : State) : beyondLinks (postEvent code subject data s) = beyondLinks s := by
  unfold postEvent
  dsimp only
  split
  · rfl
  · split
    · rw [beyondLinks_writeEvent, beyondLinks_updHub]
    · split
      · rw [beyondLinks_putF, beyondLinks_updHub, beyondLinks_updHub]
      · rw [beyondLinks_dropEvent, beyondLinks_updHub]

/-- The reset controller is beyond the links. -/
theorem postEvent_rst (code subject data : Nat) (s : State) : (postEvent code subject data s).rst = s.rst :=
  (congrArg State.rst (beyondLinks_postEvent code subject data s) :)

@[simp] theorem beyondLinks_flushEvents (s : State) : beyondLinks (flushEvents s) = beyondLinks s := by
  unfold flushEvents
  dsimp only
  rw [beyondLinks_putF, forAll_frame beyondLinks beyondLinks_writeEvent, beyondLinks_updHub]

@[simp] theorem beyondLinks_raiseAlert (b : Nat) (s : State) : beyondLinks (raiseAlert b s) = beyondLinks s := by
  unfold raiseAlert
  dsimp only
  split <;> rfl

end Sys2Proof.Machine
end

section
/-! SUPPORT. The end of the hold-off of message-signalled writes (R323). -/
namespace Sys2Proof.Machine

/-- Where a write waited, the end of the hold-off sends it and starts another one only for a HOLDOFF above 0. -/
theorem exec_msiHoldoffExpiry_waited {s : State} (hhold : s.hub.msiHold = true) (hwait : s.hub.msiWait = true)
    (hen : getF s r_EVT_CTRL f_EVT_CTRL_MSI_EN ≠ 0) :
    ∃ t, exec .msiHoldoffExpiry s = .next t ∧ t.hub.msiHold = decide (0 < getF s r_EVT_CTRL f_EVT_CTRL_HOLDOFF) := by
  refine ⟨signalMsi (updHub (fun h => { h with msiHold := false, msiWait := false }) s), ?_, ?_⟩
  · simp only [exec, execMsiHoldoffExpiry, hhold, hwait, Bool.not_true, Bool.false_eq_true, if_false, if_true, done]
  · have hsend : ¬ (updHub (fun h => { h with msiHold := false, msiWait := false }) s).hub.msiHold = true := Bool.false_ne_true
    rw [signalMsi, if_neg (by rwa [getF_updHub]), if_neg hsend]
    rfl

/-- A hold-off runs, a write waits and message-signalled writes are enabled, while HOLDOFF is 0, its reset value: software has cleared it since
the hold-off started. -/
def clearedHoldoff : State :=
  putF r_EVT_CTRL f_EVT_CTRL_MSI_EN 1 (updHub (fun h => { h with msiHold := true, msiWait := true }) State.reset)

/-- Refutes O20 at `holdoffs`: from `clearedHoldoff` the write that waited is sent, and with HOLDOFF = 0 no hold-off runs after it, where the
clause has it run again for every value of HOLDOFF. -/
theorem not_commandPortAcceptsAndCompletes : ¬ Obligations.CommandPortAcceptsAndCompletes := by
  unfold Obligations.CommandPortAcceptsAndCompletes
  rintro ⟨-, -, hholdoffs⟩
  have hen : getF clearedHoldoff r_EVT_CTRL f_EVT_CTRL_MSI_EN = 1 := by decide +kernel
  have hoff : getF clearedHoldoff r_EVT_CTRL f_EVT_CTRL_HOLDOFF = 0 := by decide +kernel
  obtain ⟨t, ht, hclaim, -, -⟩ := (hholdoffs clearedHoldoff rfl).2 rfl hen
  obtain ⟨u, hu, hstops⟩ := exec_msiHoldoffExpiry_waited (s := clearedHoldoff) rfl rfl (by rw [hen]; decide)
  obtain rfl : t = u := Host.Outcome.next.inj (ht.symm.trans hu)
  rw [hstops, hoff] at hclaim
  exact absurd hclaim (by decide)

end Sys2Proof.Machine
end

section
/-! SUPPORT. The release of the domains of a reset, in their order, and what each release shows (R304, R346, R352, R353, R376). -/
namespace Sys2Proof.Machine

/-! ### The reset in progress of a scope -/

theorem scope_of_seqOf {s : State} {k : Nat} {q : RstSeq} (h : seqOf s k = some q) : q.scope = k :=
  beq_iff_eq.1 (List.find?_some (p := fun x : RstSeq => x.scope == k) h)

theorem seqOf_congr {s t : State} (h : t.rst = s.rst) (k : Nat) : seqOf t k = seqOf s k := by
  rw [seqOf, seqOf, h]

/-- What replaces the reset of a scope is then the reset of that scope. -/
theorem seqOf_putSeq {s : State} {k : Nat} {q x : RstSeq} (h : seqOf s k = some q) (hx : x.scope = q.scope) : seqOf (putSeq x s) k = some x := by
  have hscope : ((fun y : RstSeq => y.scope == k) ∘ fun y => if y.scope = x.scope then x else y) = fun y => y.scope == k := by
    funext y
    by_cases hy : y.scope = x.scope <;> simp [hy]
  have hfind : s.rst.seqs.find? (fun y => y.scope == k) = some q := h
  rw [seqOf, putSeq, updRst_rst, List.find?_map, hscope, hfind, Option.map_some, if_pos hx.symm]

@[simp] theorem scopeNo_none : scopeNo none = 0 := rfl

@[simp] theorem scopeNo_some (d : Stack) : scopeNo (some d) = dieNo d := rfl

theorem scopeNo_eq_zero_iff {scope : Option Stack} : scopeNo scope = 0 ↔ scope = none := by
  cases scope with
  | none => exact ⟨fun _ => rfl, fun _ => rfl⟩
  | some d => exact ⟨fun h => absurd h (Nat.succ_ne_zero _), fun h => absurd h (Option.some_ne_none d)⟩

/-- The reset of a scope covers the die of that scope, and the package's every die. -/
theorem covers_of_seqOf {s : State} {scope : Option Stack} {q : RstSeq} {d : Stack} (h : seqOf s (scopeNo scope) = some q)
    (hd : scope = none ∨ scope = some d) : q.scope = 0 ∨ q.scope = dieNo d := by
  rw [scope_of_seqOf h]
  exact hd.imp (fun h => by rw [h, scopeNo_none]) fun h => by rw [h, scopeNo_some]

/-! ### RST_CAUSE (R376) -/

theorem writeDieCauses_rst (q : RstSeq) (s : State) : (writeDieCauses q s).rst = s.rst := by
  refine forAll_frame State.rst (fun d t => ?_) allStacks s
  split
  · exact putReg_rst _ _ _
  · rfl

theorem getReg_writeDieCauses {s : State} {q : RstSeq} {d : Stack} (hs : s.canon = true) (hd : q.scope = 0 ∨ q.scope = dieNo d) :
    getReg (writeDieCauses q s) (r_RST_CAUSE_DIE d) = causeWord q := by
  refine (forAll_establishes (P := fun t => t.canon = true)
    (Q := fun t => t.canon = true ∧ getReg t (r_RST_CAUSE_DIE d) = causeWord q) (fun e t ht => ?_) (fun e t ht => ?_)
    (fun t ht => ?_) (mem_allStacks d) hs).2
  · split
    · exact canon_putReg _ _ ht
    · exact ht
  · split
    · refine ⟨canon_putReg _ _ ht.1, ?_⟩
      by_cases he : r_RST_CAUSE_DIE d = r_RST_CAUSE_DIE e
      · rw [he, getReg_putReg_same _ _ ht.1]
      · rw [getReg_putReg_other _ he, ht.2]
    · exact ht
  · rw [if_pos hd]
    exact ⟨canon_putReg _ _ ht, getReg_putReg_same _ _ ht⟩

/-! ### The end of the assertion (R346) -/

/-- A reset whose assertion has ended: a core reset is released up to the BPs, one of the package not at all, one of a die up to the ring. -/
def assertionEnded (q : RstSeq) : RstSeq :=
  { q with asserted := false, released := if q.level == lvCore then 6 else if q.scope = 0 then 0 else 2 }

theorem exec_resetAssertionEnd {s : State} {scope : Option Stack} {q : RstSeq} (hq : seqOf s (scopeNo scope) = some q)
    (hon : q.asserted = true) (htodo : q.todo = []) (hquiet : scope = none → sourcesQuiet s = true) :
    exec (.resetAssertionEnd scope) s = .next (if q.level == lvCore then writeDieCauses (assertionEnded q)
      (if q.scope = 0 then putReg (putSeq (assertionEnded q) s) r_RST_CAUSE (causeWord (assertionEnded q)) else putSeq (assertionEnded q) s)
      else putSeq (assertionEnded q) s) := by
  have hsources : (q.scope == 0 && !sourcesQuiet s) = false := by
    rw [scope_of_seqOf hq]
    cases scope with
    | none => rw [hquiet rfl]; rfl
    | some d => rfl
  have hempty : q.todo.isEmpty = true := List.isEmpty_iff.2 htodo
  simp only [exec, execResetAssertionEnd, hq, hon, hempty, hsources, Bool.not_true, Bool.or_self, Bool.false_eq_true, if_false,
    done]
  rfl

theorem assertionEnds_hold : Claims.assertionEnds := by
  intro s scope q hq hon htodo hquiet n
  have hn : assertionEnded q = { q with asserted := false, released := n } := by
    simp only [assertionEnded, scope_of_seqOf hq, scopeNo_eq_zero_iff, beq_iff_eq, n]
  refine ⟨_, exec_resetAssertionEnd hq hon htodo hquiet, ?_⟩
  rw [← hn, ← seqOf_putSeq hq (x := assertionEnded q) rfl]
  refine seqOf_congr ?_ _
  split
  · rw [writeDieCauses_rst]
    split <;> rfl
  · rfl

/-! ### Releases (R352) -/

section
variable {s : State} {scope : Nat} {q : RstSeq}

/-- A release follows the one before it. -/
theorem release_next {n : Nat} (f : RstSeq → State → State) (hq : seqOf s scope = some q) (hoff : q.asserted = false) (hn : q.released + 1 = n) :
    release scope n f s = f q (putSeq { q with released := n } s) := by
  simp only [release, hq, hoff, hn, Bool.not_false, beq_self_eq_true, Bool.and_self, if_true]

/-- After a release whose own work leaves the reset controller, the reset shows the domain. -/
theorem seqOf_release {n : Nat} {f : RstSeq → State → State} (hf : ∀ x t, (f x t).rst = t.rst) (hq : seqOf s scope = some q)
    (hoff : q.asserted = false) (hn : q.released + 1 = n) : seqOf (release scope n f s) scope = some { q with released := n } := by
  rw [release_next f hq hoff hn, seqOf_congr (hf _ _)]
  exact seqOf_putSeq hq rfl

/-- A domain with no work of its own is released in the reset controller alone. -/
theorem release_only (scope n : Nat) (s : State) :
    release scope n (fun _ t => t) s = { s with rst := (release scope n (fun _ t => t) s).rst } := by
  unfold release
  split
  · split <;> rfl
  · rfl

theorem canon_putSeq (x : RstSeq) (hs : s.canon = true) : (putSeq x s).canon = true := (putSeq_keeps x (Keeps.refl s)).canon hs

end

/-! ### The ports of a die in reset (R136) -/

/-- The port is isolated for its own die's reset. -/
def OwnResetIsolates (d : Stack) (p : Port) (t : State) : Prop :=
  getF t (r_PORT_CTRL d p) f_PORT_CTRL_ISOLATE = 1 ∧ getF t (r_PORT_CTRL d p) f_PORT_CTRL_EN = 0 ∧
    getF t (r_PORT_STATUS d p) f_PORT_STATUS_ISO_CAUSE = icOwnReset

/-- A port has its own PORT_CTRL and PORT_STATUS. -/
theorem portReg_inj {d e : Stack} {p r : Port} {x y : Nat} (hx : x < 2 ^ 24) (hy : y < 2 ^ 24)
    (h : dieReg d (0x38 + p.val) x = dieReg e (0x38 + r.val) y) : (d = e ∧ p = r) ∧ x = y := by
  obtain ⟨hd, hp, ho⟩ := dieReg_inj (by omega) (by omega) hx hy h
  exact ⟨⟨Fin.ext hd, Fin.ext (by omega)⟩, ho⟩

theorem r_PORT_STATUS_ne_r_PORT_CTRL (d e : Stack) (p r : Port) : r_PORT_STATUS d p ≠ r_PORT_CTRL e r := fun h =>
  absurd (portReg_inj (by decide) (by decide) h).2 (by decide)

/-- The isolation of a port for its own die's reset, write by write. -/
theorem isolatePort_ownReset {d : Stack} {p : Port} (h : outerPort d p = false) (s : State) : isolatePort d p icOwnReset s =
    putF (r_PORT_CTRL d p) f_PORT_CTRL_EN 0 (putF (r_PORT_CTRL d p) f_PORT_CTRL_ISOLATE 1 (putF (r_PORT_STATUS d p) f_PORT_STATUS_ISO_CAUSE
      icOwnReset (putF (r_PORT_STATUS d p) f_PORT_STATUS_STATE psIsolated
        (updDie d (fun y => { y with trained := y.trained.filter (· ≠ p.val) }) s)))) := by
  simp only [isolatePort, h, Bool.false_eq_true, if_false]
  rfl

theorem isolatePort_rst (d : Stack) (p : Port) (s : State) : (isolatePort d p icOwnReset s).rst = s.rst := by
  by_cases h : outerPort d p = true
  · rw [isolatePort, if_pos h]
  · rw [isolatePort_ownReset (Bool.not_eq_true _ ▸ h), putF_rst, putF_rst, putF_rst, putF_rst, updDie_rst]

theorem canon_isolatePort (d : Stack) (p : Port) (cause : Nat) {s : State} (hs : s.canon = true) : (isolatePort d p cause s).canon = true :=
  (isolatePort_keeps d p cause (Keeps.refl s)).canon hs

/-- No other port's registers change. -/
theorem getReg_isolatePort_other {a : Nat} {e : Stack} {r : Port} (hctrl : a ≠ r_PORT_CTRL e r) (hstatus : a ≠ r_PORT_STATUS e r) (s : State) :
    getReg (isolatePort e r icOwnReset s) a = getReg s a := by
  by_cases h : outerPort e r = true
  · rw [isolatePort, if_pos h]
  · rw [isolatePort_ownReset (Bool.not_eq_true _ ▸ h), getReg_putF_other _ _ hctrl, getReg_putF_other _ _ hctrl,
      getReg_putF_other _ _ hstatus, getReg_putF_other _ _ hstatus, getReg_updDie]

theorem isolatePort_isolates {d : Stack} {p : Port} (h : outerPort d p = false) {s : State} (hs : s.canon = true) :
    OwnResetIsolates d p (isolatePort d p icOwnReset s) := by
  have hdie := canon_updDie d (fun y => { y with trained := y.trained.filter (· ≠ p.val) }) hs
  have hstate := canon_putF (r_PORT_STATUS d p) f_PORT_STATUS_STATE psIsolated hdie
  have hcause := canon_putF (r_PORT_STATUS d p) f_PORT_STATUS_ISO_CAUSE icOwnReset hstate
  have hiso := canon_putF (r_PORT_CTRL d p) f_PORT_CTRL_ISOLATE 1 hcause
  rw [isolatePort_ownReset h]
  refine ⟨?_, getF_putF_same (by decide) 0 hiso, ?_⟩
  · rw [getF_putF_field (by decide) (by decide) _ hiso, getF_putF_same (by decide) _ hcause]
    rfl
  · rw [getF_putF_other _ _ _ (r_PORT_STATUS_ne_r_PORT_CTRL d d p p), getF_putF_other _ _ _ (r_PORT_STATUS_ne_r_PORT_CTRL d d p p),
      getF_putF_same (by decide) _ hstate]
    rfl

/-- A port that is isolated stays so when another one is. -/
theorem OwnResetIsolates.isolatePort {d : Stack} {p : Port} (hp : outerPort d p = false) (e : Stack) (r : Port) {t : State}
    (ht : t.canon = true) (h : OwnResetIsolates d p t) : OwnResetIsolates d p (isolatePort e r icOwnReset t) := by
  by_cases same : d = e ∧ p = r
  · obtain ⟨rfl, rfl⟩ := same
    exact isolatePort_isolates hp ht
  · have hctrl := getReg_isolatePort_other (a := r_PORT_CTRL d p) (fun he => same (portReg_inj (by decide) (by decide) he).1)
      (r_PORT_STATUS_ne_r_PORT_CTRL e d r p).symm t
    have hstatus := getReg_isolatePort_other (a := r_PORT_STATUS d p) (r_PORT_STATUS_ne_r_PORT_CTRL d e p r)
      (fun he => same (portReg_inj (by decide) (by decide) he).1) t
    unfold OwnResetIsolates getF at h ⊢
    rwa [hctrl, hstatus]

theorem isolateAll_rst (q : RstSeq) (s : State) : (isolateAll q s).rst = s.rst := by
  refine forAll_frame State.rst (fun d t => ?_) allStacks s
  split
  · exact forAll_frame State.rst (isolatePort_rst d) allPorts t
  · rfl

theorem isolateAll_isolates {q : RstSeq} {d : Stack} {p : Port} (hd : q.scope = 0 ∨ q.scope = dieNo d) (hp : outerPort d p = false) {s : State}
    (hs : s.canon = true) : OwnResetIsolates d p (isolateAll q s) := by
  have hstep (e : Stack) (r : Port) (t : State) (ht : t.canon = true ∧ OwnResetIsolates d p t) :
      (isolatePort e r icOwnReset t).canon = true ∧ OwnResetIsolates d p (isolatePort e r icOwnReset t) :=
    ⟨canon_isolatePort e r icOwnReset ht.1, ht.2.isolatePort hp e r ht.1⟩
  refine (forAll_establishes (P := fun t => t.canon = true) (Q := fun t => t.canon = true ∧ OwnResetIsolates d p t) (fun e t ht => ?_)
    (fun e t ht => ?_) (fun t ht => ?_) (mem_allStacks d) hs).2
  · split
    · exact forAll_invariant (P := fun t => t.canon = true) (fun r _ => canon_isolatePort e r icOwnReset) allPorts ht
    · exact ht
  · split
    · exact forAll_invariant (hstep e) allPorts ht
    · exact ht
  · rw [if_pos hd]
    exact forAll_establishes (P := fun t => t.canon = true) (Q := fun t => t.canon = true ∧ OwnResetIsolates d p t)
      (fun r _ => canon_isolatePort d r icOwnReset) (hstep d)
      (fun t ht => ⟨canon_isolatePort d p icOwnReset ht, isolatePort_isolates hp ht⟩) (List.mem_finRange p) ht

/-! ### The end of a reset (R353) -/

theorem seqOf_endReset (q : RstSeq) (s : State) : seqOf (endReset q s) q.scope = none := by
  have hgone : ∀ l : List RstSeq, (l.filter fun x => x.scope ≠ q.scope).find? (fun x => x.scope == q.scope) = none := fun l => by
    refine List.find?_eq_none.2 fun x hx hscope => ?_
    exact of_decide_eq_true (List.mem_filter.1 hx).2 (beq_iff_eq.1 hscope)
  unfold endReset seqOf
  dsimp only
  split <;> exact hgone _

/-- A stack that was reset alone above the core level is to recover. -/
theorem endReset_recovers {q : RstSeq} {d : Stack} (hscope : q.scope = dieNo d) (hlevel : q.level ≠ lvCore) (s : State) :
    (d.val, q.level == lvWarm) ∈ (endReset q s).rst.recovering := by
  have hdie : q.scope - 1 = d.val := by rw [hscope]; rfl
  rw [endReset, if_neg (not_or.2 ⟨by rw [hscope]; exact Nat.succ_ne_zero _, hlevel⟩), updRst_rst, hdie]
  exact List.mem_append_right _ List.mem_cons_self

theorem releases_hold : Claims.releases := by
  intro s scope q hs hq hoff shows_ covers
  have hcanon (n : Nat) : (putSeq { q with released := n } s).canon = true := canon_putSeq _ hs
  have hnext {n m : Nat} (h : q.released = n) (hm : n + 1 = m) : q.released + 1 = m := h ▸ hm
  refine ⟨?_, ?_, fun hr => ?_, fun hr => ?_, fun hr => ?_, fun hr => ?_, fun hr => ?_⟩
  · rintro rfl hr
    have hn := hnext hr rfl
    have hq0 : seqOf s 0 = some q := hq
    refine ⟨_, rfl, seqOf_release (fun _ _ => rfl) hq hoff hn, ?_, ?_⟩
    · rw [release_next _ hq0 hoff hn, getReg_putF_other _ _ (by decide), getReg_putReg_same _ _ (hcanon 1)]
    · rw [release_next _ hq0 hoff hn, getF_putF_same (by decide) _ (canon_putReg _ _ (hcanon 1))]
      rfl
  · rintro rfl hr
    exact ⟨_, rfl, seqOf_release (fun _ _ => rfl) hq hoff (hnext hr rfl), release_only 0 2 s⟩
  · have hn := hnext hr rfl
    refine ⟨_, rfl, seqOf_release writeDieCauses_rst hq hoff hn, fun d hd => ?_⟩
    rw [release_next _ hq hoff hn]
    exact getReg_writeDieCauses (hcanon 3) (covers_of_seqOf hq hd)
  · have hn := hnext hr rfl
    refine ⟨_, rfl, seqOf_release isolateAll_rst hq hoff hn, fun d p hd hp => ?_⟩
    rw [release_next _ hq hoff hn]
    exact isolateAll_isolates (covers_of_seqOf hq hd) hp (hcanon 4)
  · exact ⟨_, rfl, seqOf_release (fun _ _ => rfl) hq hoff (hnext hr rfl), release_only (scopeNo scope) 5 s⟩
  · exact ⟨_, rfl, seqOf_release (fun _ _ => rfl) hq hoff (hnext hr rfl), release_only (scopeNo scope) 6 s⟩
  · have hn := hnext hr (m := 7) rfl
    refine ⟨release (scopeNo scope) 7 endReset s, rfl, ?_, ?_⟩
    · rw [release_next _ hq hoff hn, ← scope_of_seqOf hq]
      exact seqOf_endReset q _
    · rintro d rfl hlevel
      rw [release_next _ hq hoff hn]
      exact endReset_recovers (scope_of_seqOf hq) hlevel _

/-! ### The recovery of a stack (R353) -/

theorem recoveries_hold : Claims.recoveries := by
  intro s d f warm hfind
  refine ⟨?_, fun w hmem => ?_⟩
  · simp only [exec, execStackRecovery, hfind, done]
  · unfold recoverStack at hmem
    extract_lets at hmem
    rw [postEvent_rst, updRst_rst] at hmem
    exact of_decide_eq_true (List.mem_filter.1 hmem).2 rfl

/-- Settles O28: the end of the assertion, the releases one after the other, then the recovery of a stack. -/
theorem resetsAreReleasedInOrder : Obligations.ResetsAreReleasedInOrder := ⟨assertionEnds_hold, releases_hold, recoveries_hold⟩

end Sys2Proof.Machine
end

section
/-! SUPPORT. The messages of the Camner link and of the twin link (R305 to R312, R325 to R336): none of them reaches a part of the module beyond
the links. -/
namespace Sys2Proof.Machine

/-! ### The flit layer (R306) -/

@[simp] theorem beyondLinks_updFlits (twin : Bool) (f : FlitSide → FlitSide) (s : State) : beyondLinks (updFlits twin f s) = beyondLinks s := by
  cases twin <;> rfl

@[simp] theorem beyondLinks_countCam (twin : Bool) (f : Fld) (s : State) : beyondLinks (countCam twin f s) = beyondLinks s := by
  cases twin <;> rfl

@[simp] theorem beyondLinks_setTwinF (f : Fld) (n : Nat) (s : State) : beyondLinks (setTwinF f n s) = beyondLinks s := rfl

theorem beyondLinks_startTraining (twin : Bool) (s : State) : beyondLinks (startTraining twin s) = beyondLinks s := by
  unfold startTraining
  dsimp only
  split
  · rw [beyondLinks_setTwinF, beyondLinks_updFlits]
  · rw [beyondLinks_countCam, beyondLinks_putF, beyondLinks_updFlits]

theorem beyondLinks_resendIn (twin : Bool) (fack : Nat) (s : State) : beyondLinks (resendIn twin fack s) = beyondLinks s := by
  unfold resendIn
  extract_lets x n again u
  have hu : beyondLinks u = beyondLinks s := by rw [beyondLinks_updFlits, beyondLinks_countCam]
  split
  · rw [beyondLinks_startTraining, hu]
  · exact hu

theorem beyondLinks_camnerUp (s : State) : beyondLinks (camnerUp s) = beyondLinks s := by
  rw [camnerUp, beyondLinks_flushEvents, beyondLinks_putF]

theorem beyondLinks_relink (s : State) : beyondLinks (relink s) = beyondLinks s := by
  rw [relink, beyondLinks_updHub, beyondLinks_updCam]

/-! ### Requests and answers of the device (R308, R309) -/

theorem beyondLinks_sendKind (op : Nat) (ok : OutMsg → Bool) (s : State) : beyondLinks (sendKind op ok s) = beyondLinks s := by
  unfold sendKind
  split
  · rfl
  · split
    · rw [sendFront, beyondLinks_updHub, beyondLinks_updCam, beyondLinks_updFlits]
    · rfl

theorem beyondLinks_answered (tag status : Nat) (s : State) : beyondLinks (answered tag status s) = beyondLinks s := by
  unfold answered
  split
  · rfl
  · dsimp only
    have hu (f : Camner → Camner) (g : Hub → Hub) : beyondLinks (updHub g (updCam f s)) = beyondLinks s := rfl
    split
    · split
      · exact (beyondLinks_updHub _ _).trans (hu _ _)
      · exact hu _ _
    · exact hu _ _

theorem beyondLinks_recallIn (tag addr : Nat) (s : State) : beyondLinks (recallIn tag addr s) = beyondLinks s := by
  unfold recallIn winAnswer holdLine
  dsimp only
  split
  · rw [beyondLinks_sendMsg, beyondLinks_updCam, beyondLinks_updHub]
  · rw [beyondLinks_updCam, beyondLinks_updHub]

/-! ### The twin (R326 to R336) -/

theorem beyondLinks_heartbeatIn (mode flevel : Nat) (s : State) : beyondLinks (heartbeatIn mode flevel s) = beyondLinks s := by
  rw [heartbeatIn, beyondLinks_updTwin, beyondLinks_bumpF, beyondLinks_setTwinF, beyondLinks_setTwinF]

theorem beyondLinks_updSess (slot : Nat) (f : Sess → Sess) (s : State) : beyondLinks (updSess slot f s) = beyondLinks s := by
  unfold updSess
  split <;> rfl

@[simp] theorem beyondLinks_unmirrorAll (s : State) : beyondLinks (unmirrorAll s) = beyondLinks s :=
  forAll_frame beyondLinks (fun n => beyondLinks_updSess n unmirror) (sessSlots s) s

theorem beyondLinks_declareLost (s : State) : beyondLinks (declareLost s) = beyondLinks s := by
  simp only [declareLost, beyondLinks_unmirrorAll, beyondLinks_updTwin, beyondLinks_raiseAlert, beyondLinks_postEvent, beyondLinks_setTwinF]

theorem beyondLinks_checkSynced (s : State) : beyondLinks (checkSynced s) = beyondLinks s := by
  unfold checkSynced
  split
  · split
    · exact beyondLinks_postEvent _ _ _ _
    · rfl
  · rfl

theorem beyondLinks_ackIn (seq : Nat) (s : State) : beyondLinks (ackIn seq s) = beyondLinks s :=
  (beyondLinks_checkSynced _).trans (forAll_frame beyondLinks (fun n => beyondLinks_updSess n _) (sessSlots s) s)

theorem beyondLinks_fenceIn (s : State) : beyondLinks (fenceIn s) = beyondLinks s := by
  rw [fenceIn, beyondLinks_unmirrorAll, beyondLinks_setTwinF]

theorem beyondLinks_burstOpen (sid gen old new seq : Nat) (s : State) : beyondLinks (burstOpen sid gen old new seq s) = beyondLinks s := by
  unfold burstOpen
  split
  · rw [ackBurst, sendTwin, beyondLinks_updTwin, beyondLinks_updTwin, beyondLinks_updTwin]
  · exact beyondLinks_updTwin s _

theorem beyondLinks_burstData (addr len data : Nat) (s : State) : beyondLinks (burstData addr len data s) = beyondLinks s := by
  unfold burstData
  split <;> rfl

/-! ### The commands -/

/-- An outcome of a command in `s` that leaves what lies beyond the links as it was. -/
def StaysOnLinks (s : State) (o : Host.Outcome State Fault Refusal) : Prop := ∀ t, o = .next t → beyondLinks t = beyondLinks s

theorem staysOnLinks_done {s u : State} (h : beyondLinks u = beyondLinks s) : StaysOnLinks s (done u) := fun _ ht => Host.Outcome.next.inj ht ▸ h

/-- Most commands of a link do nothing where the link does not take them. -/
theorem staysOnLinks_guarded {c : Prop} [Decidable c] {s u : State} (h : beyondLinks u = beyondLinks s) :
    StaysOnLinks s (if c then done s else done u) := by
  split
  · exact staysOnLinks_done rfl
  · exact staysOnLinks_done h

theorem staysOnLinks_camnerLinkDownRetry (lanes : Option (Fin 3)) (s : State) : StaysOnLinks s (execCamnerLinkDownRetry lanes s) := by
  unfold execCamnerLinkDownRetry
  split
  · exact staysOnLinks_done rfl
  · split
    · exact staysOnLinks_done rfl
    · exact staysOnLinks_done (by rw [beyondLinks_camnerUp, beyondLinks_putF, beyondLinks_putF, beyondLinks_relink])

theorem staysOnLinks_camnerRetrainEnd (twin ok : Bool) (s : State) : StaysOnLinks s (execCamnerRetrainEnd twin ok s) := by
  unfold execCamnerRetrainEnd
  split
  · exact staysOnLinks_done rfl
  · split
    · refine staysOnLinks_done ?_
      split
      · rw [beyondLinks_setTwinF, beyondLinks_updFlits]
      · rw [beyondLinks_camnerUp, beyondLinks_updFlits]
    · extract_lets n u
      have hu : beyondLinks u = beyondLinks s := beyondLinks_updFlits _ _ s
      split
      · exact staysOnLinks_done ((beyondLinks_countCam _ _ u).trans hu)
      · refine staysOnLinks_done ?_
        split
        · exact (beyondLinks_setTwinF _ _ u).trans hu
        · exact (beyondLinks_putF u _ _ _).trans hu

theorem staysOnLinks_heartbeatMiss (s : State) : StaysOnLinks s (execHeartbeatMiss s) := by
  unfold execHeartbeatMiss
  refine staysOnLinks_guarded ?_
  split
  · rw [beyondLinks_declareLost, beyondLinks_updTwin]
  · exact beyondLinks_updTwin s _

theorem staysOnLinks_twinLinkTrainRetry (ok : Bool) (s : State) : StaysOnLinks s (execTwinLinkTrainRetry ok s) := by
  unfold execTwinLinkTrainRetry
  split
  · exact staysOnLinks_done rfl
  · exact staysOnLinks_guarded rfl

theorem staysOnLinks_linkCommand {i : Instr} (h : Claims.linkCommand i = true) (s : State) : StaysOnLinks s (exec i s) := by
  -- the goal's name comes before the constructors': `recall` alone is a word of Mathlib's
  refine ?command
  cases i
  case resend twin fack => exact staysOnLinks_guarded (beyondLinks_resendIn twin fack.toNat s)
  case camnerLinkDownRetry lanes => exact staysOnLinks_camnerLinkDownRetry lanes s
  case camnerRetrainEnd twin ok => exact staysOnLinks_camnerRetrainEnd twin ok s
  case fetch => exact staysOnLinks_done (beyondLinks_sendKind _ _ s)
  case fetchHold => exact staysOnLinks_done (beyondLinks_sendKind _ _ s)
  case store => exact staysOnLinks_done (beyondLinks_sendKind _ _ s)
  case release => exact staysOnLinks_done (beyondLinks_sendKind _ _ s)
  case command.recall tag addr => exact staysOnLinks_guarded (beyondLinks_recallIn tag.toNat addr.toNat s)
  case doneMsg tag status => exact staysOnLinks_guarded (beyondLinks_answered tag.toNat status.val s)
  case doneData tag status _ => exact staysOnLinks_guarded (beyondLinks_answered tag.toNat status.val s)
  case heartbeatSend => exact staysOnLinks_guarded (beyondLinks_updTwin _ _)
  case heartbeat => exact staysOnLinks_guarded (beyondLinks_heartbeatIn _ _ s)
  case heartbeatMiss => exact staysOnLinks_heartbeatMiss s
  case twinLinkTrainRetry ok => exact staysOnLinks_twinLinkTrainRetry ok s
  case mirBegin => exact staysOnLinks_guarded (beyondLinks_burstOpen _ _ _ _ _ s)
  case mirData => exact staysOnLinks_guarded (beyondLinks_burstData _ _ _ s)
  case mirAck seq => exact staysOnLinks_guarded (beyondLinks_ackIn seq.toNat s)
  case fence => exact staysOnLinks_guarded (beyondLinks_fenceIn s)
  case twinDetachMsg => exact staysOnLinks_guarded (beyondLinks_setTwinF _ _ s)
  all_goals exact absurd h Bool.false_ne_true

/-- Settles O42: each message stays on the links, and the parts that the statement names lie beyond them. -/
theorem linkMessagesFrame : Obligations.LinkMessagesFrame := by
  intro i s t hi h
  have hframe : beyondLinks t = beyondLinks s := staysOnLinks_linkCommand hi s t h
  simp only [beyondLinks, State.mk.injEq] at hframe
  simp only [Claims.sameModule, hframe, and_self]

end Sys2Proof.Machine
end

section
/-! SUPPORT. What a reset of the package leaves of the registers (R13, R340, R341, R343, R436). -/
namespace Sys2Proof.Machine

/-! ### Registers under a clear -/

/-- What a reset of a level leaves of a register's content. -/
def clearedWord (level a : Nat) (v : Word) : Word := (v &&& keptBits level a) ||| (regReset a &&& ~~~keptBits level a)

theorem clearedWord_regReset (level a : Nat) : clearedWord level a (regReset a) = regReset a := by
  simp only [clearedWord, ← BitVec.and_or_distrib_left, BitVec.or_not_self, BitVec.and_allOnes]

/-- The clear of one listed register. -/
def clearEntry (level scope : Nat) (e : Nat × Word) (s : State) : State :=
  if regCleared level scope e.1 then putReg s e.1 (clearedWord level e.1 e.2) else s

theorem clearRegs_eq (level scope : Nat) (s : State) : clearRegs level scope s = forAll s.regs (clearEntry level scope) s := rfl

theorem getReg_clearEntry_other {level scope a : Nat} {e : Nat × Word} (h : a ≠ e.1) (s : State) :
    getReg (clearEntry level scope e s) a = getReg s a := by
  unfold clearEntry
  split
  · exact getReg_putReg_other _ h
  · rfl

theorem canon_clearEntry {s : State} (level scope : Nat) (e : Nat × Word) (h : s.canon = true) : (clearEntry level scope e s).canon = true := by
  unfold clearEntry
  split
  · exact canon_putReg _ _ h
  · exact h

/-- A register that no entry names is not cleared. -/
theorem getReg_forAll_clearEntry_above {level scope a : Nat} : ∀ {l : SMap Word} (s : State), keysAbove a l →
    getReg (forAll l (clearEntry level scope) s) a = getReg s a
  | [], _, _ => rfl
  | e :: l, s, h => by
    obtain ⟨he, hl⟩ := keysAbove_cons.1 h
    rw [forAll_cons, getReg_forAll_clearEntry_above _ hl, getReg_clearEntry_other (Nat.ne_of_lt he)]

theorem getReg_forAll_clearEntry {level scope a : Nat} : ∀ {l : SMap Word} {s : State}, srising l = true → s.canon = true →
    getReg s a = sget (regReset a) l a →
    getReg (forAll l (clearEntry level scope) s) a = if regCleared level scope a then clearedWord level a (getReg s a) else getReg s a
  | [], s, _, _, ha => by
    have hreset : getReg s a = regReset a := ha
    rw [forAll_nil, hreset, clearedWord_regReset, ite_self]
  | (k, v) :: l, s, hl, hs, ha => by
    obtain ⟨habove, hl⟩ := srising_cons.1 hl
    rw [forAll_cons]
    by_cases hk : k = a
    · subst hk
      have hv : getReg s k = v := by simpa [sget] using ha
      rw [getReg_forAll_clearEntry_above _ habove, clearEntry, hv]
      split
      · exact getReg_putReg_same _ _ hs
      · exact hv
    · have hother : getReg (clearEntry level scope (k, v) s) a = getReg s a := getReg_clearEntry_other (Ne.symm hk) s
      have ha' : getReg (clearEntry level scope (k, v) s) a = sget (regReset a) l a := by
        rw [hother, ha, sget, if_neg hk]
      rw [getReg_forAll_clearEntry hl (canon_clearEntry level scope (k, v) hs) ha', hother]

/-- What a reset leaves of each register that it reaches. -/
theorem getReg_clearRegs {s : State} (level scope a : Nat) (hs : s.canon = true) :
    getReg (clearRegs level scope s) a = if regCleared level scope a then clearedWord level a (getReg s a) else getReg s a :=
  getReg_forAll_clearEntry (canonical_iff.1 (canon_iff.1 hs).1).1 hs rfl

/-! ### Registers of the hub -/

theorem die_of_hub {a : Nat} (h : a < 2 ^ 32) : a / 2 ^ 32 = 0 := Nat.div_eq_of_lt h

theorem regDomain_hub {a : Nat} (h : a < 2 ^ 32) : regDomain a = 1 := if_pos (die_of_hub h)

/-- A system or warm reset of the package reaches every register of the hub. -/
theorem regCleared_hub {a lv : Nat} (h : a < 2 ^ 32) (hlv : lv = lvSystem ∨ lv = lvWarm) : regCleared lv 0 a = true := by
  rcases hlv with rfl | rfl <;> simp [regCleared, regDomain_hub h, lvSystem, lvWarm, lvCore, levelDomains]

/-! ### A reset of the package above the core level -/

/-- What the clearing of a die does not reach: the registers, the twin and the service. -/
def packageSide (s : State) : SMap Word × Twin × Svc := (s.regs, s.twin, s.svc)

theorem packageSide_clearDieMem (level : Nat) (d : Stack) (s : State) : packageSide (clearDieMem level d s) = packageSide s := by
  unfold clearDieMem
  dsimp only
  split <;> rfl

theorem packageSide_updVc (d : Stack) (c : CoreIx) (f : Vc → Vc) (s : State) : packageSide (updVc d c f s) = packageSide s := rfl

theorem packageSide_updLp (d : Stack) (f : Lp → Lp) (s : State) : packageSide (updLp d f s) = packageSide s := rfl

theorem packageSide_clearDieParts (level : Nat) (d : Stack) (s : State) : packageSide (clearDieParts level d s) = packageSide s := by
  unfold clearDieParts
  extract_lets u w
  have hu : packageSide u = packageSide s := by simp only [packageSide, u]
  have hgroups : packageSide (forAll allCores (fun c s => updVc d c (fun v => { v with groups := [] }) s) u) = packageSide u :=
    forAll_frame packageSide (fun c t => packageSide_updVc d c _ t) allCores u
  have hw : packageSide w = packageSide s := by
    by_cases h : level ≤ lvSystem
    · simpa only [w, if_pos h, packageSide] using hu
    · simp only [w, if_neg h]
      exact (packageSide_updLp d _ _).trans (hgroups.trans hu)
  split
  · exact hw
  · simpa only [packageSide] using hw

theorem settleFuses_of_none {s : State} (h : s.sec.advance = none) : settleFuses s = s := by
  unfold settleFuses
  rw [h]

theorem getReg_settleFuses_other {a : Nat} (h : a ≠ r_SEC_ROLLBACK) (s : State) : getReg (settleFuses s) a = getReg s a := by
  unfold settleFuses
  split
  · exact getReg_putF_other _ _ h
  · rfl

theorem getReg_congr {s t : State} (h : t.regs = s.regs) (a : Nat) : getReg t a = getReg s a := by rw [getReg, h, getReg]

theorem clearRegs_sec (level scope : Nat) (s : State) : (clearRegs level scope s).sec = s.sec :=
  forAll_frame State.sec (fun e t => by split <;> rfl) s.regs s

/-- A reset of the package above the core level clears registers by their bits, and the twin and the service whole. -/
theorem packageSide_beginReset {q : RstSeq} (hscope : q.scope = 0) (hlevel : q.level ≠ lvCore) (s : State) :
    packageSide (beginReset q s) = ((settleFuses (clearRegs q.level 0 s)).regs, Twin.reset, Svc.reset) := by
  have hdies := forAll_frame packageSide (fun d t => (packageSide_clearDieParts q.level d _).trans (packageSide_clearDieMem q.level d t)) allStacks
    (clearHub q.level (clearRegs q.level 0 s))
  rw [beginReset, if_pos ⟨hscope, hlevel⟩, if_pos hscope]
  exact hdies

/-- Without a program pulse and another reset in progress, a system or warm reset of the package takes hold as it is. -/
theorem acceptReset_package {s : State} {lv : Nat} (cause : Nat) (hpulse : s.sec.pulse = none) (hseqs : s.rst.seqs = [])
    (hlv : lv = lvSystem ∨ lv = lvWarm) : acceptReset lv 0 cause false s = beginReset ⟨lv, 0, cause, true, 0, false, false, []⟩
      (updRst (fun r => { r with seqs := r.seqs.filter fun q => !scopesMeet q.scope 0 }) s) := by
  have hheld : absorbed [] lv 0 = false := by rcases hlv with rfl | rfl <;> decide
  simp [acceptReset, acceptWith, hpulse, hseqs, hheld]

/-- The reset of an answered RESET_DOMAIN of the package (R321). -/
theorem packageReset_takesEffect {s : State} {lv : Nat} (hs : s.canon = true) (hpulse : s.sec.pulse = none) (hseqs : s.rst.seqs = [])
    (hcmd : s.rst.command = some lv) (hport : portBusy s = false) (hlv : lv = lvSystem ∨ lv = lvWarm) :
    ∃ t, exec .packageResetTakesEffect s = .next t ∧ t.twin = Twin.reset ∧ t.svc = Svc.reset ∧
      ∀ a, a < 2 ^ 32 → (a = r_SEC_ROLLBACK → s.sec.advance = none) → getReg t a = clearedWord lv a (getReg s a) := by
  have hcore : lv ≠ lvCore := by rcases hlv with rfl | rfl <;> decide
  let u := updRst (fun r => { r with seqs := r.seqs.filter fun q => !scopesMeet q.scope 0 }) (updRst (fun r => { r with command := none }) s)
  have hu : u.canon = true := (updRst_keeps _ (updRst_keeps _ (Keeps.refl s))).canon hs
  have hside := packageSide_beginReset (q := ⟨lv, 0, rcCommand, true, 0, false, false, []⟩) rfl hcore u
  simp only [packageSide, Prod.mk.injEq] at hside
  obtain ⟨hregs, htwin, hsvc⟩ := hside
  refine ⟨_, ?_, htwin, hsvc, fun a ha hrollback => ?_⟩
  · simp only [exec, execPackageResetTakesEffect, hcmd, hport, Bool.false_eq_true, if_false, done]
    exact congrArg _ (acceptReset_package rcCommand hpulse hseqs hlv)
  · have hfuses : getReg (settleFuses (clearRegs lv 0 u)) a = getReg (clearRegs lv 0 u) a := by
      by_cases h : a = r_SEC_ROLLBACK
      · rw [settleFuses_of_none ((congrArg Sec.advance (clearRegs_sec lv 0 u)).trans (hrollback h))]
      · exact getReg_settleFuses_other h _
    rw [getReg_congr hregs, hfuses, getReg_clearRegs lv 0 a hu, if_pos (regCleared_hub ha hlv)]
    rfl

/-! ### Blocks of the hub -/

/-- Does a row hold registers of a block of the hub? -/
def inHubBlock (blk : Nat) (r : RegRow) : Bool := r.hub && decide (r.blk ≤ blk) && decide ((blk - r.blk) / r.bstep < r.nblk)

/-- No register of the block has a sticky bit (RWS of R13). -/
def noSticky (blk : Nat) : Bool := regRows.all fun r => !inHubBlock blk r || r.rws == 0

/-- Where no bit is sticky, a reset keeps the bits loaded from fuse and no other. -/
theorem keptBits_hubBlock {a blk : Nat} (level : Nat) (hblk : a / 2 ^ 24 = blk) (h256 : blk < 256) (hrows : noSticky blk = true) :
    keptBits level a = fusedBits a := by
  have hhub : a < 2 ^ 32 := by omega
  have hrws : ∀ r, regRow a = some r → r.rws = 0 := by
    intro r hr
    simp only [regRow, die_of_hub hhub, hblk, Nat.mod_eq_of_lt h256] at hr
    have hmem := List.mem_of_find?_eq_some hr
    have hcovers := List.find?_some hr
    have hin : inHubBlock blk r = true := by
      simp only [rowCovers, Bool.and_eq_true, beq_iff_eq, beq_self_eq_true] at hcovers
      obtain ⟨⟨⟨⟨⟨⟨hhubRow, hfirst⟩, -⟩, hblocks⟩, -⟩, -⟩, -⟩ := hcovers
      simp only [inHubBlock, Bool.and_eq_true]
      exact ⟨⟨hhubRow, hfirst⟩, hblocks⟩
    simpa [hin] using List.all_eq_true.1 hrows r hmem
  cases hrow : regRow a with
  | none => simp [keptBits, regDomain_hub hhub, hrow]
  | some r => simp [keptBits, regDomain_hub hhub, hrow, hrws r hrow]

theorem noSticky_twin : noSticky 0x82 = true := by decide +kernel

theorem noSticky_security : noSticky 0x85 = true := by decide +kernel

/-! ### The twin block (R340) -/

theorem fusedBits_twin {a : Nat} (h : a / 2 ^ 24 = 0x82) : fusedBits a = 0#64 := by
  have hother : ∀ x, x / 2 ^ 24 ≠ 0x82 → a ≠ x := fun x hx e => hx (e ▸ h)
  have hkeys : ¬(r_SEC_KEYHASH 0 ≤ a ∧ a ≤ r_SEC_KEYHASH 31) := by
    simp only [r_SEC_KEYHASH, hubReg, mgmtAddr]
    omega
  rw [fusedBits, if_pos (die_of_hub (show a < 2 ^ 32 by omega)), if_neg (hother r_SEC_STATUS (by decide)),
    if_neg (not_or.2 ⟨hother r_SEC_ROLLBACK (by decide), hkeys⟩), if_neg (hother r_FUSE_PINMAP (by decide)),
    if_neg (hother r_PKG_POWER (by decide)), if_neg (hother r_SB_ID (by decide))]
  rfl

/-- Settles O51: no bit of the block is sticky or loaded from fuse, so a reset clears it whole. -/
theorem resetClearsTheTwinBlock : Obligations.ResetClearsTheTwinBlock := by
  refine ⟨rfl, rfl, rfl, fun n _ => ?_, fun s lv hs hpulse hseqs hcmd hport hlv => ?_⟩
  · simp only [r_TWIN_GMAP, hubReg, mgmtAddr]
    omega
  · obtain ⟨t, ht, htwin, hsvc, hregs⟩ := packageReset_takesEffect hs hpulse hseqs hcmd hport hlv
    refine ⟨t, ht, htwin, hsvc, fun a ha => ?_⟩
    rw [hregs a (by omega) fun h => by subst h; exact absurd ha (by decide), clearedWord, keptBits_hubBlock lv ha (by decide) noSticky_twin,
      fusedBits_twin ha, BitVec.and_zero, BitVec.zero_or, BitVec.not_zero, BitVec.and_allOnes]

/-! ### The security block (R436) -/

/-- Settles O52: no bit of the block is sticky, so a reset keeps exactly the bits loaded from fuse. -/
theorem systemResetClearsTheSecurityBlock : Obligations.SystemResetClearsTheSecurityBlock := by
  refine ⟨rfl, rfl, fun k w _ _ => ?_, by decide, by decide, by decide, fun s hs hpulse hadvance hseqs hcmd hport => ?_⟩
  · simp only [r_SEC_KEYHASH, hubReg, mgmtAddr]
    omega
  · obtain ⟨t, ht, -, -, hregs⟩ := packageReset_takesEffect hs hpulse hseqs hcmd hport (.inl rfl)
    refine ⟨t, ht, fun a ha => ?_⟩
    rw [hregs a (by omega) fun _ => hadvance, clearedWord, keptBits_hubBlock lvSystem ha (by decide) noSticky_security]

end Sys2Proof.Machine
end

section
/-! SUPPORT. What holds of every command: it answers a next state, and touches neither the queue nor a fuse (R384, R435). -/
namespace Sys2Proof.Machine

/-! ### The queue -/

/-- Settles O35: both clauses are the two cases of the queue. -/
theorem stepRunsTheFrontCommand : Obligations.StepRunsTheFrontCommand := by
  intro s c rest
  refine ⟨fun h => ?_, fun h => ?_⟩ <;> rw [step, h]

/-- Settles O40: the decoder answers nothing for any word. -/
theorem noWordSpellsACommand : Obligations.NoWordSpellsACommand := fun _ _ _ => ⟨rfl, rfl⟩

/-! ### The state after reset (R341, R343) -/

theorem canon_reset : State.reset.canon = true := by decide

theorem railHeld_reset : railHeld State.reset = true := rfl

/-- Settles O36: the one register listed differs from its reset value, every other table is empty. -/
theorem resetIsSafe : Obligations.ResetIsSafe := by
  simp only [Obligations.ResetIsSafe, State.safe, canon_reset, railHeld_reset, Bool.and_self, Bool.true_and]
  rfl

/-! ### Every command answers a next state -/

/-- The outcome is a next state. -/
def Answers (o : Host.Outcome State Fault Refusal) : Prop := ∃ t, o = .next t

theorem answers_done (s : State) : Answers (done s) := ⟨s, rfl⟩

/-- The commands named here branch, the others are carried out at once; on every branch the outcome is `done`. -/
theorem answers_exec (i : Instr) (s : State) : Answers (exec i s) := by
  cases i
  all_goals dsimp only [exec, refuse, saturated, i3cGet, writeEntries,
    execManagementRingSlot, execHubPortBeat, execThunderCountExpiry, execMacBlockUpdate, execTileInitDone, execLinkHalfWidthDrop,
    execRouteTakesEffect, execTransitSlot, execHubTransitTransfer, execTransitCompletion, execTransitErrorResponse, execTransitTimeout,
    execAdderResult, execQuietIntervalEnd, execNeighbourClockLoss, execTransitReroute, execOpenSession, execForkSession, execCloseSession,
    execTruncateSession, execSetSession, execSessionInfo, execForkTask, execCloseTask, execTruncateTask, execCopyTask, execPageAllocation,
    execDemotion, execPageMove, execSessionStale, execMissPromotion, execPrefetchPromotion, execPublishError, execLoadGraph,
    execGraphLoadComplete, execUnloadGraph, execObjectObserved, execInstanceReady, execDoldrums, execInputRingDoorbell, execInputTokens,
    execOutputRingDoorbell, execLpddrChannelRetrain, execVaultRetrainSegment, execVaultHalfWidth, execLoadWeights, execDieManagerUe,
    execMergeEntryTimeout, execEccFlipmaskArm, execCarrierFlitReceive, execResend, execCamnerLinkDownRetry, execWinRead, execWinWrite,
    execRecall, execDoneMsg, execDoneData, execCommandCompletion, execIdentify, execGetIdKey, execAttest, execCloseDebug, execAdvanceRollback,
    execSetPartitions, execRearmPartition, execSetRing, execSetPowerCap, execPairTwin, execResyncTwin, execFailover, execDetach,
    execSetTwinMode, execResetDomain, execScrubRegion, execRetrain, execRetrainComplete, execGetTelemetry, execGetMemmap, execGetLog,
    execMsiHoldoffExpiry, execHeartbeatSend, execHeartbeat, execHeartbeatMiss, execTwinLinkTrainRetry, execMirOp, execMirBegin, execMirData,
    execMirEnd, execMirAck, execMirStop, execFence, execTwinDetachMsg, execBackgroundCopy, execWatchdogExpiry, execDebugReset,
    execResetAssertionEnd, execStackRecovery, execCamnerTrain, execHubFirmwareLoad, execRingEnumeration, execTopologyDiscovery,
    execDieToDieTraining, execVaultVerticalTraining, execLpddrTraining, execGale, execMemoryInitialisation, execThermalCalibration,
    execTopologyCheck, execThaw, execFullRateTraining, execReady, execBringStepTimeout, execFullRateSwitch, execQuietPeriodTimeout,
    execInstall, execFrostLevelChange, execTripComparator, execConversionStart, execI3cPrivateWrite, execI3cPrivateRead, execEntdaa,
    execRstdaa, execSetnewda, execEnec, execDisec, execGetpid, execGetbcr, execGetdcr, execGetstatus, execGetmwl, execGetmrl,
    execInBandInterrupt, execBringStepDone, execCamnerRetrainEnd, execWritePulseEnd, execPackageResetTakesEffect, execInstallComplete]
  all_goals repeat' split
  all_goals exact answers_done _

/-- Settles O39. The kinds of fault are none, and no branch refuses. -/
theorem everyCommandAnswersANextState : Obligations.EveryCommandAnswersANextState := answers_exec

/-! ### What every command keeps -/

/-- Each command keeps what its own operations keep (Sys2Proof/Laws). -/
theorem exec_keeps {i : Instr} {s t : State} (e : exec i s = .next t) : Keeps s t := by
  have hk := Keeps.refl s
  cases i with
  | registerWrite => exact execRegisterWrite_keeps hk e
  | managementRingSlot => exact execManagementRingSlot_keeps hk e
  | hubPortBeat => exact execHubPortBeat_keeps hk e
  | launch => exact execLaunch_keeps hk e
  | launchElastic => exact execLaunchElastic_keeps hk e
  | thunderCountExpiry => exact execThunderCountExpiry_keeps hk e
  | fetchSlot => exact execFetchSlot_keeps hk e
  | fetchWordsReady => exact execFetchWordsReady_keeps hk e
  | nop => exact execNop_keeps hk e
  | mac => exact execMac_keeps hk e
  | macBlockUpdate => exact execMacBlockUpdate_keeps hk e
  | opload => exact execOpload_keeps hk e
  | oploadComplete => exact execOploadComplete_keeps hk e
  | swap => exact execSwap_keeps hk e
  | drain => exact execDrain_keeps hk e
  | accld => exact execAccld_keeps hk e
  | vdma => exact execVdma_keeps hk e
  | vaultReadBeat => exact execVaultReadBeat_keeps hk e
  | endWord => exact execEndWord_keeps hk e
  | stepEndOffset => exact execStepEndOffset_keeps hk e
  | coreReset => exact execCoreReset_keeps hk e
  | tileInitDone => exact execTileInitDone_keeps hk e
  | convert => exact execConvert_keeps hk e
  | add => exact execAdd_keeps hk e
  | sub => exact execSub_keeps hk e
  | mul => exact execMul_keeps hk e
  | muladd => exact execMuladd_keeps hk e
  | max => exact execMax_keeps hk e
  | min => exact execMin_keeps hk e
  | relu => exact execRelu_keeps hk e
  | exp => exact execExp_keeps hk e
  | exp2 => exact execExp2_keeps hk e
  | log => exact execLog_keeps hk e
  | log2 => exact execLog2_keeps hk e
  | rcp => exact execRcp_keeps hk e
  | rsqrt => exact execRsqrt_keeps hk e
  | sqrt => exact execSqrt_keeps hk e
  | sigmoid => exact execSigmoid_keeps hk e
  | tanh => exact execTanh_keeps hk e
  | silu => exact execSilu_keeps hk e
  | gelu => exact execGelu_keeps hk e
  | softplus => exact execSoftplus_keeps hk e
  | sinpi => exact execSinpi_keeps hk e
  | cospi => exact execCospi_keeps hk e
  | rsum => exact execRsum_keeps hk e
  | rsumsq => exact execRsumsq_keeps hk e
  | rmax => exact execRmax_keeps hk e
  | softmax => exact execSoftmax_keeps hk e
  | rmsnorm => exact execRmsnorm_keeps hk e
  | layernorm => exact execLayernorm_keeps hk e
  | smerge => exact execSmerge_keeps hk e
  | linkBeatReceive => exact execLinkBeatReceive_keeps hk e
  | linkRetrainSegment => exact execLinkRetrainSegment_keeps hk e
  | linkHalfWidthDrop => exact execLinkHalfWidthDrop_keeps hk e
  | route => exact execRoute_keeps hk e
  | routeTakesEffect => exact execRouteTakesEffect_keeps hk e
  | send => exact execSend_keeps hk e
  | recv => exact execRecv_keeps hk e
  | rsend => exact execRsend_keeps hk e
  | routerInputBeat => exact execRouterInputBeat_keeps hk e
  | transitSlot => exact execTransitSlot_keeps hk e
  | hubTransitTransfer => exact execHubTransitTransfer_keeps hk e
  | transitCompletion => exact execTransitCompletion_keeps hk e
  | transitErrorResponse => exact execTransitErrorResponse_keeps hk e
  | transitTimeout => exact execTransitTimeout_keeps hk e
  | corePortHeader => exact execCorePortHeader_keeps hk e
  | adderContributionBeat => exact execAdderContributionBeat_keeps hk e
  | adderResult => exact execAdderResult_keeps hk e
  | launchQueueTake => exact execLaunchQueueTake_keeps hk e
  | rootLaunchSend => exact execRootLaunchSend_keeps hk e
  | firstLaunch => exact execFirstLaunch_keeps hk e
  | flashLqWrite => exact execFlashLqWrite_keeps hk e
  | flashDone => exact execFlashDone_keeps hk e
  | abort => exact execAbort_keeps hk e
  | rearm => exact execRearm_keeps hk e
  | elasticClear => exact execElasticClear_keeps hk e
  | quietIntervalEnd => exact execQuietIntervalEnd_keeps hk e
  | ldownReceived => exact execLdownReceived_keeps hk e
  | neighbourClockLoss => exact execNeighbourClockLoss_keeps hk e
  | persistentLinkFailure => exact execPersistentLinkFailure_keeps hk e
  | portIsolateWrite => exact execPortIsolateWrite_keeps hk e
  | portRetrain => exact execPortRetrain_keeps hk e
  | portClrcnt => exact execPortClrcnt_keeps hk e
  | dieSystemReset => exact execDieSystemReset_keeps hk e
  | transitReroute => exact execTransitReroute_keeps hk e
  | bpStart => exact execBpStart_keeps hk e
  | bpRelease => exact execBpRelease_keeps hk e
  | rv32imcInstruction => exact execRv32imcInstruction_keeps hk e
  | vld => exact execVld_keeps hk e
  | vst => exact execVst_keeps hk e
  | vopFadd => exact execVopFadd_keeps hk e
  | vopFsub => exact execVopFsub_keeps hk e
  | vopFmul => exact execVopFmul_keeps hk e
  | vopFmax => exact execVopFmax_keeps hk e
  | vopFmin => exact execVopFmin_keeps hk e
  | vopFmac => exact execVopFmac_keeps hk e
  | vopFexp => exact execVopFexp_keeps hk e
  | vopFrcp => exact execVopFrcp_keeps hk e
  | vopsFadd => exact execVopsFadd_keeps hk e
  | vopsFsub => exact execVopsFsub_keeps hk e
  | vopsFmul => exact execVopsFmul_keeps hk e
  | vopsFmax => exact execVopsFmax_keeps hk e
  | vopsFmin => exact execVopsFmin_keeps hk e
  | vsplat => exact execVsplat_keeps hk e
  | vlim => exact execVlim_keeps hk e
  | vmsk => exact execVmsk_keeps hk e
  | vredRsum => exact execVredRsum_keeps hk e
  | vredRmax => exact execVredRmax_keeps hk e
  | vcvtLo => exact execVcvtLo_keeps hk e
  | vcvtHi => exact execVcvtHi_keeps hk e
  | vcvtPack => exact execVcvtPack_keeps hk e
  | k4qk => exact execK4qk_keeps hk e
  | k4av => exact execK4av_keeps hk e
  | k4q => exact execK4q_keeps hk e
  | qoff => exact execQoff_keeps hk e
  | qbnd => exact execQbnd_keeps hk e
  | qld => exact execQld_keeps hk e
  | sld => exact execSld_keeps hk e
  | sst => exact execSst_keeps hk e
  | oaccrd => exact execOaccrd_keeps hk e
  | oaccscl => exact execOaccscl_keeps hk e
  | oaccclr => exact execOaccclr_keeps hk e
  | bvLdr => exact execBvLdr_keeps hk e
  | bvStr => exact execBvStr_keeps hk e
  | bvStp => exact execBvStp_keeps hk e
  | bvCpy => exact execBvCpy_keeps hk e
  | bvFence => exact execBvFence_keeps hk e
  | bvHalt => exact execBvHalt_keeps hk e
  | bpMergeTimeout => exact execBpMergeTimeout_keeps hk e
  | bpStop => exact execBpStop_keeps hk e
  | hostWindow => exact execHostWindow_keeps hk e
  | hostQueueArrival => exact execHostQueueArrival_keeps hk e
  | openSession => exact execOpenSession_keeps hk e
  | forkSession => exact execForkSession_keeps hk e
  | closeSession => exact execCloseSession_keeps hk e
  | truncateSession => exact execTruncateSession_keeps hk e
  | setSession => exact execSetSession_keeps hk e
  | sessionInfo => exact execSessionInfo_keeps hk e
  | forkTask => exact execForkTask_keeps hk e
  | closeTask => exact execCloseTask_keeps hk e
  | truncateTask => exact execTruncateTask_keeps hk e
  | copyTask => exact execCopyTask_keeps hk e
  | pageAllocation => exact execPageAllocation_keeps hk e
  | demotion => exact execDemotion_keeps hk e
  | pageMove => exact execPageMove_keeps hk e
  | sourceFrameFree => exact execSourceFrameFree_keeps hk e
  | sessionStale => exact execSessionStale_keeps hk e
  | missPromotion => exact execMissPromotion_keeps hk e
  | prefetchPromotion => exact execPrefetchPromotion_keeps hk e
  | commitRecordProcessing => exact execCommitRecordProcessing_keeps hk e
  | publishError => exact execPublishError_keeps hk e
  | loadGraph => exact execLoadGraph_keeps hk e
  | graphLoadComplete => exact execGraphLoadComplete_keeps hk e
  | unloadGraph => exact execUnloadGraph_keeps hk e
  | syncObjWrite => exact execSyncObjWrite_keeps hk e
  | syncSignal => exact execSyncSignal_keeps hk e
  | lsyncObjWrite => exact execLsyncObjWrite_keeps hk e
  | lsyncSignal => exact execLsyncSignal_keeps hk e
  | objectObserved => exact execObjectObserved_keeps hk e
  | instanceReady => exact execInstanceReady_keeps hk e
  | doldrums => exact execDoldrums_keeps hk e
  | inputRingDoorbell => exact execInputRingDoorbell_keeps hk e
  | inputTokens => exact execInputTokens_keeps hk e
  | budgetAdd => exact execBudgetAdd_keeps hk e
  | budgetSet => exact execBudgetSet_keeps hk e
  | outputRingDoorbell => exact execOutputRingDoorbell_keeps hk e
  | controllerWindow => exact execControllerWindow_keeps hk e
  | vaultHostRequest => exact execVaultHostRequest_keeps hk e
  | ldmaRead => exact execLdmaRead_keeps hk e
  | ldmaWrite => exact execLdmaWrite_keeps hk e
  | ldmaGather => exact execLdmaGather_keeps hk e
  | lpddrFrame => exact execLpddrFrame_keeps hk e
  | lpddrHostRequest => exact execLpddrHostRequest_keeps hk e
  | lpddrRetrainSegment => exact execLpddrRetrainSegment_keeps hk e
  | lpddrChannelRetrain => exact execLpddrChannelRetrain_keeps hk e
  | vaultRetrain => exact execVaultRetrain_keeps hk e
  | vaultRetrainSegment => exact execVaultRetrainSegment_keeps hk e
  | vaultHalfWidth => exact execVaultHalfWidth_keeps hk e
  | loadWeights => exact execLoadWeights_keeps hk e
  | recheck => exact execRecheck_keeps hk e
  | dieManagerUe => exact execDieManagerUe_keeps hk e
  | drizzleRead => exact execDrizzleRead_keeps hk e
  | drizzleWriteback => exact execDrizzleWriteback_keeps hk e
  | rowTest => exact execRowTest_keeps hk e
  | mergeEntryTimeout => exact execMergeEntryTimeout_keeps hk e
  | errPrimaryClear => exact execErrPrimaryClear_keeps hk e
  | stopPartition => exact execStopPartition_keeps hk e
  | stopAbort => exact execStopAbort_keeps hk e
  | eccFlipmaskArm => exact execEccFlipmaskArm_keeps hk e
  | carrierFlitReceive => exact execCarrierFlitReceive_keeps hk e
  | resend => exact execResend_keeps hk e
  | camnerLinkDownRetry => exact execCamnerLinkDownRetry_keeps hk e
  | winRead => exact execWinRead_keeps hk e
  | winWrite => exact execWinWrite_keeps hk e
  | fetch => exact execFetch_keeps hk e
  | fetchHold => exact execFetchHold_keeps hk e
  | store => exact execStore_keeps hk e
  | release => exact execRelease_keeps hk e
  | doneMsg => exact execDoneMsg_keeps hk e
  | doneData tag status data => exact execDoneData_keeps data hk e
  | go => exact execGo_keeps hk e
  | commandCompletion => exact execCommandCompletion_keeps hk e
  | identify => exact execIdentify_keeps hk e
  | getIdKey => exact execGetIdKey_keeps hk e
  | attest => exact execAttest_keeps hk e
  | closeDebug => exact execCloseDebug_keeps hk e
  | advanceRollback => exact execAdvanceRollback_keeps hk e
  | setPartitions => exact execSetPartitions_keeps hk e
  | rearmPartition => exact execRearmPartition_keeps hk e
  | setRing => exact execSetRing_keeps hk e
  | setPowerCap => exact execSetPowerCap_keeps hk e
  | pairTwin => exact execPairTwin_keeps hk e
  | resyncTwin => exact execResyncTwin_keeps hk e
  | failover => exact execFailover_keeps hk e
  | detach => exact execDetach_keeps hk e
  | setTwinMode => exact execSetTwinMode_keeps hk e
  | resetDomain => exact execResetDomain_keeps hk e
  | scrubRegion => exact execScrubRegion_keeps hk e
  | retrain => exact execRetrain_keeps hk e
  | retrainComplete => exact execRetrainComplete_keeps hk e
  | getTelemetry => exact execGetTelemetry_keeps hk e
  | getMemmap => exact execGetMemmap_keeps hk e
  | getLog => exact execGetLog_keeps hk e
  | msiHoldoffExpiry => exact execMsiHoldoffExpiry_keeps hk e
  | heartbeatSend => exact execHeartbeatSend_keeps hk e
  | heartbeat seq _ _ ack => exact execHeartbeat_keeps seq ack hk e
  | heartbeatMiss => exact execHeartbeatMiss_keeps hk e
  | twinLinkTrainRetry => exact execTwinLinkTrainRetry_keeps hk e
  | mirOp slot => exact execMirOp_keeps slot hk e
  | mirBegin => exact execMirBegin_keeps hk e
  | mirData => exact execMirData_keeps hk e
  | mirEnd => exact execMirEnd_keeps hk e
  | mirAck => exact execMirAck_keeps hk e
  | mirStop => exact execMirStop_keeps hk e
  | fence n => exact execFence_keeps n hk e
  | twinDetachMsg => exact execTwinDetachMsg_keeps hk e
  | backgroundCopy => exact execBackgroundCopy_keeps hk e
  | pwrGoodInactive => exact execPwrGoodInactive_keeps hk e
  | pwrGoodActive => exact execPwrGoodActive_keeps hk e
  | refclkAbsent => exact execRefclkAbsent_keeps hk e
  | refclkReturn => exact execRefclkReturn_keeps hk e
  | resetLAccepted => exact execResetLAccepted_keeps hk e
  | resetLRelease => exact execResetLRelease_keeps hk e
  | watchdogExpiry => exact execWatchdogExpiry_keeps hk e
  | kick => exact execKick_keeps hk e
  | thermalTrip => exact execThermalTrip_keeps hk e
  | debugReset => exact execDebugReset_keeps hk e
  | resetAssertionEnd => exact execResetAssertionEnd_keeps hk e
  | hubRelease => exact execHubRelease_keeps hk e
  | ringRelease => exact execRingRelease_keeps hk e
  | dieManagerRelease => exact execDieManagerRelease_keeps hk e
  | fabricRelease => exact execFabricRelease_keeps hk e
  | controllerRelease => exact execControllerRelease_keeps hk e
  | dramBpRelease => exact execDramBpRelease_keeps hk e
  | coreRelease => exact execCoreRelease_keeps hk e
  | stackRecovery => exact execStackRecovery_keeps hk e
  | camnerTrain => exact execCamnerTrain_keeps hk e
  | hubFirmwareLoad => exact execHubFirmwareLoad_keeps hk e
  | ringEnumeration => exact execRingEnumeration_keeps hk e
  | topologyDiscovery => exact execTopologyDiscovery_keeps hk e
  | dieToDieTraining tests => exact execDieToDieTraining_keeps (tests := tests) hk e
  | vaultVerticalTraining => exact execVaultVerticalTraining_keeps hk e
  | lpddrTraining => exact execLpddrTraining_keeps hk e
  | gale => exact execGale_keeps hk e
  | memoryInitialisation => exact execMemoryInitialisation_keeps hk e
  | thermalCalibration => exact execThermalCalibration_keeps hk e
  | topologyCheck => exact execTopologyCheck_keeps hk e
  | thaw => exact execThaw_keeps hk e
  | fullRateTraining => exact execFullRateTraining_keeps hk e
  | ready => exact execReady_keeps hk e
  | bringStepTimeout => exact execBringStepTimeout_keeps hk e
  | fullRateSwitch => exact execFullRateSwitch_keeps hk e
  | quietPeriodTimeout => exact execQuietPeriodTimeout_keeps hk e
  | install => exact execInstall_keeps hk e
  | measurementRound => exact execMeasurementRound_keeps hk e
  | frostLevelChange => exact execFrostLevelChange_keeps hk e
  | tripComparator => exact execTripComparator_keeps hk e
  | railFault => exact execRailFault_keeps hk e
  | undervoltage => exact execUndervoltage_keeps hk e
  | overvoltage => exact execOvervoltage_keeps hk e
  | conversionStart => exact execConversionStart_keeps hk e
  | twinPresentChange => exact execTwinPresentChange_keeps hk e
  | twinAliveChange => exact execTwinAliveChange_keeps hk e
  | inputRearm => exact execInputRearm_keeps hk e
  | unmaskPres => exact execUnmaskPres_keeps hk e
  | unmaskAlive => exact execUnmaskAlive_keeps hk e
  | i3cPrivateWrite => exact execI3cPrivateWrite_keeps hk e
  | i3cPrivateRead => exact execI3cPrivateRead_keeps hk e
  | entdaa => exact execEntdaa_keeps hk e
  | rstdaa => exact execRstdaa_keeps hk e
  | setnewda => exact execSetnewda_keeps hk e
  | enec => exact execEnec_keeps hk e
  | disec => exact execDisec_keeps hk e
  | getpid => exact execGetpid_keeps hk e
  | getbcr => exact execGetbcr_keeps hk e
  | getdcr => exact execGetdcr_keeps hk e
  | getstatus => exact execGetstatus_keeps hk e
  | getmwl => exact execGetmwl_keeps hk e
  | getmrl => exact execGetmrl_keeps hk e
  | sclLowTimeout => exact execSclLowTimeout_keeps hk e
  | inBandInterrupt => exact execInBandInterrupt_keeps hk e
  | inletWrite => exact execInletWrite_keeps hk e
  | bringStepDone => exact execBringStepDone_keeps hk e
  | camnerRetrainEnd => exact execCamnerRetrainEnd_keeps hk e
  | writePulseEnd => exact execWritePulseEnd_keeps hk e
  | packageResetTakesEffect => exact execPackageResetTakesEffect_keeps hk e
  | installComplete => exact execInstallComplete_keeps hk e
  -- the one command left is RECALL: `recall` alone is a word of Mathlib's
  | _ => exact execRecall_keeps hk e

/-- Settles O38 by what every command keeps. -/
theorem commandsKeepQueueAndFuses : Obligations.CommandsKeepQueueAndFuses := by
  intro i s t e
  obtain ⟨hqueue, hfused, hdebug, -, -, -⟩ := exec_keeps e
  exact ⟨hqueue, hfused, hdebug⟩

end Sys2Proof.Machine
end

section
/-! SUPPORT. What lies beyond the hub's registers and messages: events and alerts do not reach it (R323, R419). -/
namespace Sys2Proof.Machine

/-- A state without the registers and the hub's messages. Two states that agree here agree in every other part of the module. -/
def beyondHub (s : State) : State := { s with regs := [], hub := Hub.reset }

section
variable (s : State)

@[simp] theorem beyondHub_putReg (a : Nat) (v : Word) : beyondHub (putReg s a v) = beyondHub s := rfl
@[simp] theorem beyondHub_putF (a : Nat) (f : Fld) (n : Nat) : beyondHub (putF a f n s) = beyondHub s := rfl
@[simp] theorem beyondHub_bumpF (a : Nat) (f : Fld) (n : Nat) : beyondHub (bumpF a f n s) = beyondHub s := rfl
@[simp] theorem beyondHub_satF (a : Nat) (f : Fld) (n : Nat) : beyondHub (satF a f n s) = beyondHub s := rfl
@[simp] theorem beyondHub_updHub (f : Hub → Hub) : beyondHub (updHub f s) = beyondHub s := rfl
@[simp] theorem beyondHub_sendMsg (m : OutMsg) : beyondHub (sendMsg m s) = beyondHub s := rfl
@[simp] theorem beyondHub_dropEvent : beyondHub (dropEvent s) = beyondHub s := rfl

end

/-! ### Events (R323) -/

@[simp] theorem beyondHub_signalMsi (s : State) : beyondHub (signalMsi s) = beyondHub s := by
  unfold signalMsi
  split
  · rfl
  · split <;> rfl

@[simp] theorem beyondHub_writeEvent (e : EventRec) (s : State) : beyondHub (writeEvent e s) = beyondHub s := by
  unfold writeEvent sendStore sendIndex
  dsimp only
  split
  · exact beyondHub_dropEvent s
  · simp only [beyondHub_signalMsi, beyondHub_bumpF, beyondHub_sendMsg, beyondHub_updHub]

/-- An event is posted, held or dropped in the hub alone. -/
@[simp] theorem beyondHub_postEvent (code subject data : Nat) (s : State) : beyondHub (postEvent code subject data s) = beyondHub s := by
  unfold postEvent
  dsimp only
  split
  · rfl
  · split
    · rw [beyondHub_writeEvent, beyondHub_updHub]
    · split
      · rw [beyondHub_putF, beyondHub_updHub, beyondHub_updHub]
      · rw [beyondHub_dropEvent, beyondHub_updHub]

theorem postEvent_svc (code subject data : Nat) (s : State) : (postEvent code subject data s).svc = s.svc :=
  (congrArg State.svc (beyondHub_postEvent code subject data s) :)

theorem postEvent_twin (code subject data : Nat) (s : State) : (postEvent code subject data s).twin = s.twin :=
  (congrArg State.twin (beyondHub_postEvent code subject data s) :)

theorem postEvent_pins (code subject data : Nat) (s : State) : (postEvent code subject data s).pins = s.pins :=
  (congrArg State.pins (beyondHub_postEvent code subject data s) :)

theorem canon_postEvent {s : State} (code subject data : Nat) (h : s.canon = true) : (postEvent code subject data s).canon = true :=
  (postEvent_keeps code subject data (Keeps.refl s)).canon h

theorem getF_postEvent {a : Nat} (ha : a ≠ r_EVT_STATUS) (f : Fld) (code subject data : Nat) (s : State) :
    getF (postEvent code subject data s) a f = getF s a f :=
  congrArg (fieldOf f) ((postEvent_eventFrame code subject data s).reg a ha)

/-! ### Alerts (R419) -/

theorem canon_raiseAlert {s : State} (b : Nat) (h : s.canon = true) : (raiseAlert b s).canon = true :=
  (raiseAlert_keeps b (Keeps.refl s)).canon h

theorem getF_raiseAlert {a : Nat} (ha : a ≠ r_SB_ALERT) (f : Fld) (b : Nat) (s : State) : getF (raiseAlert b s) a f = getF s a f :=
  congrArg (fieldOf f) ((raiseAlert_frame b s).2.2.2 a ha)

/-- The alert's bit of SB_ALERT is set. -/
theorem raiseAlert_sets {s : State} {b : Nat} (hb : b < 64) (h : s.canon = true) : (getReg (raiseAlert b s) r_SB_ALERT).getLsbD b = true := by
  have hreg : getReg (raiseAlert b s) r_SB_ALERT = getReg s r_SB_ALERT ||| BitVec.ofNat 64 (2 ^ b) := by
    unfold raiseAlert
    dsimp only
    split
    · exact getReg_putReg_same _ _ h
    · exact getReg_putReg_same _ _ h
  rw [hreg, BitVec.getLsbD_or, BitVec.getLsbD_ofNat, Nat.testBit_two_pow_self]
  simp [hb]

/-- An alert leaves the service, the twin and the two inputs. -/
theorem raiseAlert_parts (b : Nat) (s : State) : (raiseAlert b s).svc = s.svc ∧ (raiseAlert b s).twin = s.twin ∧
    ∀ alive, getIn (raiseAlert b s) alive = getIn s alive := by
  unfold raiseAlert
  dsimp only
  split
  · exact ⟨rfl, rfl, fun _ => rfl⟩
  · exact ⟨rfl, rfl, fun _ => rfl⟩

end Sys2Proof.Machine
end

section
/-! SUPPORT. Step 14 of bring-up (R373), and the sideband: its pins, its inputs and its I3C target (R403, R414 to R420). -/
namespace Sys2Proof.Machine

/-! ### Step 14 (R373) -/

/-- Settles O48: EN is the work of step 14, and NOT_READY is answered only before that step is done. -/
theorem readyOpensTheCommandPort : Obligations.ReadyOpensTheCommandPort := by
  intro s p hs
  refine ⟨fun h => ⟨outcome bcOk 0 0 (putF r_DISP_CTRL f_DISP_CTRL_EN 1 s), if_pos h, ?_⟩, fun h => ?_⟩
  · rw [getF_outcome, getF_putF_same (by decide) 1 hs]
    rfl
  · have hlate : ¬ s.bring.last < 14 := by omega
    unfold earlyStatus
    split
    · decide
    · simp only [hlate, false_and, if_false]
      repeat' split
      all_goals decide

/-! ### The pins (R354, R403) -/

section
variable {s : State} {n : Fin 13}

/-- THERM_TRIP_L follows the trip latch. -/
theorem pinState_trip (hsensed : beforeSense s = false) (htrip : s.rst.trip = true) : pinState s 3 = .low := by
  rw [pinState, if_neg (ne_true_of_eq_false hsensed), if_pos ⟨rfl, htrip⟩]

/-- ALERT_L follows the hub. -/
theorem pinState_alert (hsensed : beforeSense s = false) :
    pinState s 2 = if hubHeld s then fusedPin s 2 else if alertLow s then .low else .hiZ := by
  rw [pinState, if_neg (ne_true_of_eq_false hsensed), if_neg fun h => absurd h.1 (by decide), if_pos rfl]

/-- The I3C pins are fuse-mapped while the hub is held. -/
theorem pinState_i3c (hsensed : beforeSense s = false) (hn : n = 6 ∨ n = 7) (hheld : hubHeld s = true) : pinState s n = fusedPin s n.val := by
  have h2 : n ≠ 2 := by rcases hn with rfl | rfl <;> decide
  have h3 : n ≠ 3 := by rcases hn with rfl | rfl <;> decide
  have howner : (hubHeld s || !s.pins.i3c.enabled) = true := by rw [hheld, Bool.true_or]
  rw [pinState, if_neg (ne_true_of_eq_false hsensed), if_neg fun h => h3 h.1, if_neg h2, if_neg h3, if_pos hn, if_pos howner]

/-- The debug pins are fuse-mapped once the debug port is closed. -/
theorem pinState_debug (hsensed : beforeSense s = false) (hn : 8 ≤ n.val) (hclosed : getF s r_SEC_STATUS f_SEC_STATUS_DEBUG_CLOSED = 1) :
    pinState s n = fusedPin s n.val := by
  have h2 : n ≠ 2 := by rintro rfl; exact absurd hn (by decide)
  have h3 : n ≠ 3 := by rintro rfl; exact absurd hn (by decide)
  have h67 : ¬(n = 6 ∨ n = 7) := by rintro (rfl | rfl) <;> exact absurd hn (by decide)
  rw [pinState, if_neg (ne_true_of_eq_false hsensed), if_neg fun h => h3 h.1, if_neg h2, if_neg h3, if_neg h67, if_pos hn, if_pos]
  rw [decide_eq_true hclosed, Bool.true_or]

/-- A pin without an owner is fuse-mapped. -/
theorem pinState_unowned (hsensed : beforeSense s = false) (h2 : n ≠ 2) (h3 : n ≠ 3) (h67 : ¬(n = 6 ∨ n = 7)) (h8 : ¬8 ≤ n.val) :
    pinState s n = fusedPin s n.val := by
  rw [pinState, if_neg (ne_true_of_eq_false hsensed), if_neg fun h => h3 h.1, if_neg h2, if_neg h3, if_neg h67, if_neg h8]

end

/-- Settles O34, owner by owner. -/
theorem pinsFollowTheirOwners : Obligations.PinsFollowTheirOwners := by
  intro s
  refine ⟨fun hoff n => ?_, fun hsensed => ⟨pinState_trip hsensed, fun hfree => ?_, fun hheld => ⟨?_, ?_, ?_⟩,
    fun hclosed n hn => pinState_debug hsensed hn hclosed, fun n hn => ?_⟩⟩
  · have hbefore : beforeSense s = true := by rw [beforeSense, hoff]; rfl
    rw [pinState, if_pos hbefore]
  · rw [pinState_alert hsensed, if_neg (ne_true_of_eq_false hfree)]
  · rw [pinState_alert hsensed, if_pos hheld]
  · exact pinState_i3c hsensed (.inl rfl) hheld
  · exact pinState_i3c hsensed (.inr rfl) hheld
  · rcases hn with rfl | rfl | rfl | rfl <;> exact pinState_unowned hsensed (by decide) (by decide) (by decide) (by decide)

/-! ### The I3C target (R415 to R420) -/

section
variable {s : State}

theorem i3cReady_of (hen : s.pins.i3c.enabled = true) (haddr : s.pins.i3c.addr ≠ none) : i3cReady s = true := by
  simp [i3cReady, hen, Option.isSome_iff_ne_none, haddr]

theorem addressing_holds : Claims.addressing := by
  intro s a
  refine ⟨fun hen hnone => ?_, fun hen => ?_, fun hen haddr => ?_⟩
  · have h : (s.pins.i3c.enabled && s.pins.i3c.addr.isNone) = true := by rw [hen, hnone]; rfl
    exact if_pos h
  · exact if_pos hen
  · exact if_pos (i3cReady_of hen haddr)

theorem enables_hold : Claims.enables := fun _ _ _ hen => ⟨if_pos hen, if_pos hen⟩

theorem i3cGet_ready (l : List Byte) (h : i3cReady s = true) : i3cGet l s = .next (i3cReturn l s) := if_pos h

theorem gets_hold : Claims.gets := by
  intro s hen haddr out
  have hget (l : List Byte) : i3cGet l s = out l := i3cGet_ready l (i3cReady_of hen haddr)
  have hstatus : msbBytes 2 (if alertLow s then 1 else 0) =
      [0x00, if getReg s r_SB_ALERT &&& getReg s r_SB_ALERT_EN = 0 then 0x00 else 0x01] := by
    by_cases h : getReg s r_SB_ALERT &&& getReg s r_SB_ALERT_EN = 0
    · rw [if_pos h, alertLow, h]
      rfl
    · rw [if_neg h, alertLow, if_pos (bne_iff_ne.2 h)]
      rfl
  refine ⟨hget _, hget _, hget _, ?_, hget _, hget _⟩
  rw [← hstatus]
  exact hget _

/-- A read returns as many bytes as it asks for. -/
theorem sbBytes_take_length (s : State) (p n : Nat) :
    (((List.range ((n + 7) / 8)).flatMap fun i => sbBytes s (p + i)).take n).length = n := by
  have hlen : ((List.range ((n + 7) / 8)).flatMap fun i => sbBytes s (p + i)).length = (n + 7) / 8 * 8 := by
    have hword (i : Nat) : (sbBytes s (p + i)).length = 8 := rfl
    simp only [List.length_flatMap, hword, List.map_const', List.length_range, List.sum_replicate_nat]
  rw [List.length_take, hlen]
  omega

theorem privateTransfers_hold : Claims.privateTransfers := by
  intro s i data n hen haddr
  have hready := i3cReady_of hen haddr
  refine ⟨fun h8 => ?_, ?_, fun h0 h8 => ?_, _, ?_, sbBytes_take_length s s.pins.i3c.ptr n⟩
  · simp only [exec, execI3cPrivateWrite, hready, h8, Bool.not_true, Bool.false_eq_true, if_false, if_true, done]
  · simp only [exec, execI3cPrivateWrite, hready, Bool.not_true, Bool.false_eq_true, if_false]
    rfl
  · have hne : data.isEmpty = false := by simpa using List.ne_nil_of_length_pos (Nat.pos_of_ne_zero h0)
    simp only [exec, execI3cPrivateWrite, hready, h8, hne, Bool.not_true, Bool.false_eq_true, if_false, done]
  · simp only [exec, execI3cPrivateRead, hready, Bool.not_true, Bool.false_eq_true, if_false]
    rfl

theorem sclLow_holds : Claims.sclLow := fun _ => rfl

/-- The lowest of the eleven causes. -/
theorem lowestBit_eq {v b : Nat} (hb : b < 11) (hset : v.testBit b = true) (hlow : ∀ i, i < b → v.testBit i = false) : lowestBit v = some b := by
  refine List.find?_range_eq_some.2 ⟨hset, List.mem_range.2 hb, fun i hi => ?_⟩
  rw [hlow i hi]
  rfl

theorem inBand_holds : Claims.inBand := by
  intro s us b hen haddr hibi hlast hb hset hlow
  simp only [exec, execInBandInterrupt]
  rw [if_neg, lowestBit_eq hb hset hlow]
  · rfl
  · cases h : s.pins.i3c.lastIbi with
    | none => simp [i3cReady_of hen haddr, hibi]
    | some u => simp [i3cReady_of hen haddr, hibi, hlast u h]

theorem inlet_holds : Claims.inlet := by
  intro s v hs
  have hinlet := canon_putF r_SB_INLET f_SB_INLET_INLET (fieldOf f_SB_INLET_INLET v) hs
  refine ⟨inletWrite v s, rfl, ?_, ?_, fun a ha => ?_, rfl⟩
  · rw [inletWrite, getF_putF_same (by decide) 0 hinlet]
    rfl
  · rw [inletWrite, getF_putF_field (by decide) (by decide) 0 hinlet, getF_putF_same (by decide) _ hs,
      Nat.mod_eq_of_lt (fieldOf_lt _ _)]
  · rw [inletWrite, getReg_putF_other _ _ ha, getReg_putF_other _ _ ha]

end

/-- Settles O32, clause by clause. -/
theorem i3cTargetCommandsComplete : Obligations.I3cTargetCommandsComplete :=
  ⟨addressing_holds, enables_hold, gets_hold, privateTransfers_hold, sclLow_holds, inBand_holds, inlet_holds⟩

/-! ### The inputs TWIN_PRESENT and TWIN_ALIVE (R414) -/

section
variable {s : State}

@[simp] theorem getIn_putIn_same (alive : Bool) (x : AlertIn) (s : State) : getIn (putIn alive x s) alive = x := by
  cases alive <;> rfl

@[simp] theorem getIn_putIn_other (alive : Bool) (x : AlertIn) (s : State) : getIn (putIn alive x s) (!alive) = getIn s (!alive) := by
  cases alive <;> rfl

theorem inputsFall_hold : Claims.inputsFall := by
  intro s us
  refine ⟨fun hactive harmed hmasked => ?_, fun hactive harmed hmasked => ?_⟩
  · simp [exec, execTwinPresentChange, inputChange, getIn, hactive, harmed, hmasked, inputEvent, inChanges, done]
  · simp [exec, execTwinAliveChange, inputChange, getIn, hactive, harmed, hmasked, inputEvent, inChanges, done]

theorem getIn_congr {s t : State} (h : t.pins = s.pins) (alive : Bool) : getIn t alive = getIn s alive := by rw [getIn, h, getIn]

/-- The times within the last 1,000 hub milliseconds at which an input has re-armed, with the present one. -/
def recentRearms (x : AlertIn) (us : Nat) : List Nat := (x.rearms.filter fun t => decide (us < t + 1000000)) ++ [us]

theorem rearm_arms {alive : Bool} {us : Nat} (h : (recentRearms (getIn s alive) us).length < 16) : rearm alive us s =
    putIn alive { getIn s alive with armed := true, rearms := recentRearms (getIn s alive) us } (satF r_SB_INPUT (inRearms alive) 1 s) :=
  if_pos h

theorem rearm_masks {alive : Bool} {us : Nat} (h : ¬(recentRearms (getIn s alive) us).length < 16) : rearm alive us s =
    raiseAlert alMasked (postEvent evInputMasked (inPin alive) 0 (putF r_SB_INPUT (inMasked alive) 1
      (putIn alive { getIn s alive with masked := true, armed := false, rearms := recentRearms (getIn s alive) us }
        (satF r_SB_INPUT (inRearms alive) 1 s)))) :=
  if_neg h

theorem canon_putIn (alive : Bool) (x : AlertIn) (h : s.canon = true) : (putIn alive x s).canon = true :=
  (putIn_keeps alive x (Keeps.refl s)).canon h

theorem fldFits_inMasked (alive : Bool) : fldFits (inMasked alive) := by cases alive <;> decide

theorem inMasked_width (alive : Bool) : (inMasked alive).width = 1 := by cases alive <;> rfl

theorem getF_inMasked_putF {n : Nat} (alive : Bool) (hn : n < 2) (h : s.canon = true) :
    getF (putF r_SB_INPUT (inMasked alive) n s) r_SB_INPUT (inMasked alive) = n := by
  rw [getF_putF_same (fldFits_inMasked alive) n h, inMasked_width, Nat.pow_one, Nat.mod_eq_of_lt hn]

theorem rearming_holds : Claims.rearming := by
  intro s alive us hs x l harmed hmasked hactive hwaiting hevent
  have hmay : mayRearm x us = true := by
    cases h : x.event with
    | none => simp [mayRearm, harmed, hmasked, hactive, hwaiting, h]
    | some u => simp [mayRearm, harmed, hmasked, hactive, hwaiting, h, hevent u h]
  refine ⟨rearm alive us s, congrArg done (if_pos hmay), ?_⟩
  by_cases hl : l.length < 16
  · rw [rearm_arms hl, if_pos hl]
    exact ⟨getIn_putIn_same _ _ _, getIn_putIn_other _ _ _, fun h => absurd hl (Nat.not_lt.2 h)⟩
  · let y := putIn alive { x with masked := true, armed := false, rearms := l } (satF r_SB_INPUT (inRearms alive) 1 s)
    let z := postEvent evInputMasked (inPin alive) 0 (putF r_SB_INPUT (inMasked alive) 1 y)
    have hy : y.canon = true := canon_putIn _ _ (canon_putF _ _ _ hs)
    have hz : z.canon = true := canon_postEvent _ _ _ (canon_putF _ _ _ hy)
    have hin (b : Bool) : getIn (raiseAlert alMasked z) b = getIn y b :=
      ((raiseAlert_parts _ _).2.2 b).trans (getIn_congr (postEvent_pins _ _ _ _) b)
    rw [rearm_masks hl, if_neg hl]
    refine ⟨(hin alive).trans (getIn_putIn_same _ _ _), (hin !alive).trans (getIn_putIn_other _ _ _), fun _ => ⟨?_, raiseAlert_sets (by decide) hz⟩⟩
    exact (getF_raiseAlert (by decide) _ _ _).trans ((getF_postEvent (by decide) _ _ _ _ _).trans (getF_inMasked_putF alive (by decide) hy))

theorem unmask_masked {alive : Bool} (h : (getIn s alive).masked = true) : unmask alive s =
    putF r_SB_INPUT (inMasked alive) 0 (putIn alive { getIn s alive with masked := false, armed := false, waiting := true } s) := by
  simp only [unmask, h, Bool.not_true, Bool.false_eq_true, if_false]

theorem unmasking_holds : Claims.unmasking := by
  intro s hs
  refine ⟨fun h => ⟨unmask false s, rfl, ?_⟩, fun h => ⟨unmask true s, rfl, ?_⟩⟩
  · rw [unmask_masked (alive := false) h]
    exact ⟨getF_inMasked_putF false (by decide) (canon_putIn _ _ hs), rfl, rfl⟩
  · rw [unmask_masked (alive := true) h]
    exact ⟨getF_inMasked_putF true (by decide) (canon_putIn _ _ hs), rfl, rfl⟩

end

/-- Settles O33: the falls, the re-arms up to the sixteenth, and the unmasking. -/
theorem alertInputsFallReArmAndUnmask : Obligations.AlertInputsFallReArmAndUnmask := ⟨inputsFall_hold, rearming_holds, unmasking_holds⟩

end Sys2Proof.Machine
end

section
/-! SUPPORT. What pins, sideband and the releases of resets leave as it was (R346, R352, R405, R412 to R420). -/
namespace Sys2Proof.Machine

/-! ### Beyond the pins -/

/-- A state without what pins, sideband and releases change: the registers, the hub's messages and sessions, the twin, the reset controller
and the pins. Two states that agree here agree in every other part of the module. -/
def beyondPins (s : State) : State :=
  { s with regs := [], hub := Hub.reset, svc := Svc.reset, twin := Twin.reset, rst := ResetCtl.reset, pins := Pins.reset }

section
variable (s : State)

@[simp] theorem beyondPins_putReg (a : Nat) (v : Word) : beyondPins (putReg s a v) = beyondPins s := rfl
@[simp] theorem beyondPins_putF (a : Nat) (f : Fld) (n : Nat) : beyondPins (putF a f n s) = beyondPins s := rfl
@[simp] theorem beyondPins_satF (a : Nat) (f : Fld) (n : Nat) : beyondPins (satF a f n s) = beyondPins s := rfl
@[simp] theorem beyondPins_setTwinF (f : Fld) (n : Nat) : beyondPins (setTwinF f n s) = beyondPins s := rfl
@[simp] theorem beyondPins_updHub (f : Hub → Hub) : beyondPins (updHub f s) = beyondPins s := rfl
@[simp] theorem beyondPins_updTwin (f : Twin → Twin) : beyondPins (updTwin f s) = beyondPins s := rfl
@[simp] theorem beyondPins_updRst (f : ResetCtl → ResetCtl) : beyondPins (updRst f s) = beyondPins s := rfl
@[simp] theorem beyondPins_updI3c (f : I3c → I3c) : beyondPins (updI3c f s) = beyondPins s := rfl
@[simp] theorem beyondPins_putIn (alive : Bool) (x : AlertIn) : beyondPins (putIn alive x s) = beyondPins s := rfl
@[simp] theorem beyondPins_putSeq (q : RstSeq) : beyondPins (putSeq q s) = beyondPins s := rfl
@[simp] theorem beyondPins_twinLinkDown : beyondPins (twinLinkDown s) = beyondPins s := rfl

end

theorem beyondPins_of_beyondHub {s t : State} (h : beyondHub t = beyondHub s) : beyondPins t = beyondPins s :=
  (congrArg beyondPins h : beyondPins (beyondHub t) = beyondPins (beyondHub s))

@[simp] theorem beyondPins_postEvent (code subject data : Nat) (s : State) : beyondPins (postEvent code subject data s) = beyondPins s :=
  beyondPins_of_beyondHub (beyondHub_postEvent code subject data s)

@[simp] theorem beyondPins_raiseAlert (b : Nat) (s : State) : beyondPins (raiseAlert b s) = beyondPins s := by
  unfold raiseAlert
  dsimp only
  split <;> rfl

theorem beyondPins_updSess (slot : Nat) (f : Sess → Sess) (s : State) : beyondPins (updSess slot f s) = beyondPins s := by
  unfold updSess
  split <;> rfl

theorem beyondPins_declareLost (s : State) : beyondPins (declareLost s) = beyondPins s := by
  have hmirror (t : State) : beyondPins (unmirrorAll t) = beyondPins t :=
    forAll_frame beyondPins (fun n => beyondPins_updSess n unmirror) (sessSlots t) t
  simp only [declareLost, hmirror, beyondPins_updTwin, beyondPins_raiseAlert, beyondPins_postEvent, beyondPins_setTwinF]

/-! ### The inputs (R414) -/

theorem beyondPins_rearm (alive : Bool) (us : Nat) (s : State) : beyondPins (rearm alive us s) = beyondPins s := by
  by_cases h : (recentRearms (getIn s alive) us).length < 16
  · rw [rearm_arms h, beyondPins_putIn, beyondPins_satF]
  · rw [rearm_masks h, beyondPins_raiseAlert, beyondPins_postEvent, beyondPins_putF, beyondPins_putIn, beyondPins_satF]

theorem beyondPins_inputEvent (alive : Bool) (s : State) : beyondPins (inputEvent alive s) = beyondPins s := by
  cases alive
  · exact beyondPins_raiseAlert _ _
  · exact beyondPins_declareLost s

theorem beyondPins_inputChange (alive active : Bool) (us : Nat) (s : State) : beyondPins (inputChange alive active us s) = beyondPins s := by
  unfold inputChange
  dsimp only
  split
  · rfl
  · split
    · split
      · rw [beyondPins_rearm, beyondPins_putIn, beyondPins_satF]
      · rfl
    · split
      · rw [beyondPins_inputEvent, beyondPins_putIn, beyondPins_satF]
      · rfl

theorem beyondPins_unmask (alive : Bool) (s : State) : beyondPins (unmask alive s) = beyondPins s := by
  unfold unmask
  dsimp only
  split
  · rfl
  · rw [beyondPins_putF, beyondPins_putIn]

/-! ### The reset controller (R346, R352) -/

theorem beyondPins_writeDieCauses (q : RstSeq) (s : State) : beyondPins (writeDieCauses q s) = beyondPins s := by
  unfold writeDieCauses
  refine forAll_frame beyondPins (fun d t => ?_) allStacks s
  split
  · exact beyondPins_putReg t _ _
  · rfl

theorem beyondPins_endReset (q : RstSeq) (s : State) : beyondPins (endReset q s) = beyondPins s := by
  unfold endReset
  dsimp only
  split <;> rfl

/-- A release reaches no further than its own work. -/
theorem beyondPins_release {scope n : Nat} {f : RstSeq → State → State} (hf : ∀ q t, beyondPins (f q t) = beyondPins t) (s : State) :
    beyondPins (release scope n f s) = beyondPins s := by
  unfold release
  split
  · split
    · rw [hf, beyondPins_putSeq]
    · rfl
  · rfl

/-! ### Outcomes that keep a part of the state -/

/-- Whatever state the outcome answers agrees with `s` in a part of the state. -/
def OutcomeKeeps {α : Type} (g : State → α) (s : State) (o : Host.Outcome State Fault Refusal) : Prop := ∀ t, o = .next t → g t = g s

section
variable {α : Type} {g : State → α} {s u v : State}

theorem outcomeKeeps_done (h : g u = g s) : OutcomeKeeps g s (done u) := fun _ ht => Host.Outcome.next.inj ht ▸ h

theorem outcomeKeeps_ite {c : Prop} [Decidable c] {o p : Host.Outcome State Fault Refusal} (ho : OutcomeKeeps g s o)
    (hp : OutcomeKeeps g s p) : OutcomeKeeps g s (if c then o else p) := by
  split
  · exact ho
  · exact hp

/-- A command that only an enabled or ready target carries out. -/
theorem outcomeKeeps_guarded {c : Prop} [Decidable c] (h : g u = g s) : OutcomeKeeps g s (if c then done u else done s) :=
  outcomeKeeps_ite (outcomeKeeps_done h) (outcomeKeeps_done rfl)

theorem outcomeKeeps_resetAssertionEnd (scope : Option Stack) (s : State) : OutcomeKeeps beyondPins s (execResetAssertionEnd scope s) := by
  unfold execResetAssertionEnd
  split
  · exact outcomeKeeps_done rfl
  · refine outcomeKeeps_ite (outcomeKeeps_done rfl) (outcomeKeeps_done ?_)
    split
    · rw [beyondPins_writeDieCauses]
      split <;> rfl
    · rfl

theorem outcomeKeeps_inBandInterrupt (hg : ∀ f t, g (updI3c f t) = g t) (us : Nat) (s : State) :
    OutcomeKeeps g s (execInBandInterrupt us s) := by
  unfold execInBandInterrupt
  dsimp only
  refine outcomeKeeps_ite (outcomeKeeps_done rfl) ?_
  split
  · exact outcomeKeeps_done (hg _ s)
  · exact outcomeKeeps_done rfl

theorem outcomeKeeps_msiHoldoffExpiry (s : State) : OutcomeKeeps beyondPins s (execMsiHoldoffExpiry s) := by
  unfold execMsiHoldoffExpiry
  refine outcomeKeeps_ite (outcomeKeeps_done rfl) (outcomeKeeps_done ?_)
  split
  · exact beyondPins_of_beyondHub (beyondHub_signalMsi _)
  · rfl

end

/-! ### The commands -/

/-- Each of the commands but the start of conversion stays with the pins, the reset controller and the hub. -/
theorem outcomeKeeps_pinCommand {i : Instr} (h : Claims.pinCommand i = true) (hc : ∀ ok, i ≠ .conversionStart ok) (s : State) :
    OutcomeKeeps beyondPins s (exec i s) := by
  cases i
  case conversionStart ok => exact absurd rfl (hc ok)
  case pwrGoodActive => exact outcomeKeeps_done rfl
  case refclkReturn => exact outcomeKeeps_done rfl
  case resetLRelease => exact outcomeKeeps_done rfl
  case kick => exact outcomeKeeps_done rfl
  case resetAssertionEnd scope => exact outcomeKeeps_resetAssertionEnd scope s
  case hubRelease => exact outcomeKeeps_done (beyondPins_release (fun _ t => (beyondPins_putF _ _ _ _).trans (beyondPins_putReg t _ _)) s)
  case ringRelease => exact outcomeKeeps_done (beyondPins_release (fun _ _ => rfl) s)
  case dieManagerRelease => exact outcomeKeeps_done (beyondPins_release beyondPins_writeDieCauses s)
  case controllerRelease => exact outcomeKeeps_done (beyondPins_release (fun _ _ => rfl) s)
  case dramBpRelease => exact outcomeKeeps_done (beyondPins_release (fun _ _ => rfl) s)
  case coreRelease => exact outcomeKeeps_done (beyondPins_release beyondPins_endReset s)
  case twinPresentChange active us => exact outcomeKeeps_done (beyondPins_inputChange false active us s)
  case twinAliveChange active us => exact outcomeKeeps_done (beyondPins_inputChange true active us s)
  case inputRearm alive us =>
    refine outcomeKeeps_done ?_
    split
    · exact beyondPins_rearm alive us s
    · rfl
  case unmaskPres => exact outcomeKeeps_done (beyondPins_unmask false s)
  case unmaskAlive => exact outcomeKeeps_done (beyondPins_unmask true s)
  case entdaa => exact outcomeKeeps_guarded rfl
  case rstdaa => exact outcomeKeeps_guarded rfl
  case setnewda => exact outcomeKeeps_guarded rfl
  case enec => exact outcomeKeeps_guarded rfl
  case disec => exact outcomeKeeps_guarded rfl
  case getpid | getbcr | getdcr | getstatus | getmwl | getmrl => exact outcomeKeeps_guarded rfl
  case sclLowTimeout => exact outcomeKeeps_done rfl
  case inBandInterrupt us => exact outcomeKeeps_inBandInterrupt (fun _ _ => rfl) us s
  case inletWrite => exact outcomeKeeps_done rfl
  case msiHoldoffExpiry => exact outcomeKeeps_msiHoldoffExpiry s
  all_goals exact absurd h Bool.false_ne_true

/-- The commands that write no register: they only time or configure the sideband. -/
theorem outcomeKeeps_regs {i : Instr} (h : i = .pwrGoodActive ∨ i = .refclkReturn ∨ i = .resetLRelease ∨ (∃ ms, i = .kick ms) ∨ (∃ a, i = .entdaa a) ∨
    i = .rstdaa ∨ (∃ a, i = .setnewda a) ∨ (∃ a b, i = .enec a b) ∨ (∃ a b, i = .disec a b) ∨ i = .getpid ∨ i = .getbcr ∨ i = .getdcr ∨
    i = .getstatus ∨ i = .getmwl ∨ i = .getmrl ∨ i = .sclLowTimeout ∨ (∃ us, i = .inBandInterrupt us)) (s : State) :
    OutcomeKeeps State.regs s (exec i s) := by
  obtain rfl | rfl | rfl | ⟨_, rfl⟩ | ⟨_, rfl⟩ | rfl | ⟨_, rfl⟩ | ⟨_, _, rfl⟩ | ⟨_, _, rfl⟩ | rfl | rfl | rfl | rfl | rfl | rfl | rfl | ⟨us, rfl⟩ := h
  iterate 4 exact outcomeKeeps_done rfl
  iterate 11 exact outcomeKeeps_guarded rfl
  · exact outcomeKeeps_done rfl
  · exact outcomeKeeps_inBandInterrupt (fun _ _ => rfl) us s

/-! ### The release of the fabric (R136, R352) -/

/-- A state without registers, dies and the reset controller, which the release of the fabric changes. -/
def beyondFabric (s : State) : State := { s with regs := [], dies := [], rst := ResetCtl.reset }

theorem beyondFabric_putF (a : Nat) (f : Fld) (n : Nat) (s : State) : beyondFabric (putF a f n s) = beyondFabric s := rfl

theorem beyondFabric_updDie (d : Stack) (f : Die → Die) (s : State) : beyondFabric (updDie d f s) = beyondFabric s := rfl

theorem beyondFabric_putSeq (q : RstSeq) (s : State) : beyondFabric (putSeq q s) = beyondFabric s := rfl

theorem eq_of_beyondFabric {s t : State} (h : beyondFabric t = beyondFabric s) : t = { s with regs := t.regs, dies := t.dies, rst := t.rst } := by
  cases s
  cases t
  simp only [beyondFabric, State.mk.injEq] at h ⊢
  simp only [h, and_self]

theorem beyondFabric_isolatePort (e : Stack) (r : Port) (s : State) : beyondFabric (isolatePort e r icOwnReset s) = beyondFabric s := by
  by_cases ho : outerPort e r = true
  · rw [isolatePort, if_pos ho]
  · rw [isolatePort_ownReset (Bool.not_eq_true _ ▸ ho)]
    rw [beyondFabric_putF, beyondFabric_putF, beyondFabric_putF, beyondFabric_putF, beyondFabric_updDie]

theorem getDie_isolatePort (e : Stack) (r : Port) {s : State} (hs : s.canon = true) (d : Stack) :
    getDie (isolatePort e r icOwnReset s) d = { getDie s d with trained := (getDie (isolatePort e r icOwnReset s) d).trained } := by
  by_cases ho : outerPort e r = true
  · rw [isolatePort, if_pos ho]
  · rw [isolatePort_ownReset (Bool.not_eq_true _ ▸ ho)]
    rw [getDie_putF, getDie_putF, getDie_putF, getDie_putF]
    by_cases hd : d = e
    · rw [hd, getDie_updDie_same _ _ hs]
    · rw [getDie_updDie_other _ hd]

/-- What the release of the fabric may change: the reset controller, what dies have trained, and the registers of ports. -/
structure FabricFrame (s t : State) : Prop where
  canon : t.canon = true
  beyond : beyondFabric t = beyondFabric s
  dies : ∀ d, getDie t d = { getDie s d with trained := (getDie t d).trained }
  reg : ∀ a, (∀ d (p : Port), a ≠ r_PORT_CTRL d p ∧ a ≠ r_PORT_STATUS d p) → getReg t a = getReg s a

theorem FabricFrame.refl {s : State} (hs : s.canon = true) : FabricFrame s s := ⟨hs, rfl, fun _ => rfl, fun _ _ => rfl⟩

theorem FabricFrame.putSeq {s : State} (hs : s.canon = true) (q : RstSeq) : FabricFrame s (putSeq q s) :=
  ⟨canon_putSeq q hs, rfl, fun _ => rfl, fun _ _ => rfl⟩

theorem FabricFrame.isolatePort {s t : State} (h : FabricFrame s t) (e : Stack) (r : Port) : FabricFrame s (isolatePort e r icOwnReset t) := by
  obtain ⟨ht, hbeyond, hdies, hreg⟩ := h
  refine ⟨canon_isolatePort e r icOwnReset ht, ?_, fun d => ?_, fun a ha => ?_⟩
  · exact (beyondFabric_isolatePort e r t).trans hbeyond
  · rw [getDie_isolatePort e r ht d, hdies d]
  · exact (getReg_isolatePort_other (ha e r).1 (ha e r).2 t).trans (hreg a ha)

theorem FabricFrame.isolateAll {s t : State} (h : FabricFrame s t) (q : RstSeq) : FabricFrame s (isolateAll q t) := by
  unfold Machine.isolateAll
  refine forAll_invariant (fun d u hu => ?_) allStacks h
  split
  · exact forAll_invariant (fun p v hv => hv.isolatePort d p) allPorts hu
  · exact hu

theorem FabricFrame.release {s : State} (hs : s.canon = true) (scope : Nat) : FabricFrame s (release scope 4 Machine.isolateAll s) := by
  unfold Machine.release
  split
  · split
    · exact (FabricFrame.putSeq hs _).isolateAll _
    · exact .refl hs
  · exact .refl hs

/-! ### The statement -/

/-- The start of conversion changes the power state and the recognised PWR_GOOD alone (R405, R412). -/
theorem conversionStart_frame {ok : Bool} {s t : State} (e : exec (.conversionStart ok) s = .next t) :
    t = { s with power := t.power, rst := t.rst } := by
  simp only [exec, execConversionStart] at e
  split at e
  · obtain rfl := Host.Outcome.next.inj e
    rfl
  · obtain rfl := Host.Outcome.next.inj e
    rfl

/-- The parts of the module that every one of the commands leaves as they were. -/
theorem pinCommand_frame {i : Instr} {s t : State} (hi : Claims.pinCommand i = true) (e : exec i s = .next t) :
    Claims.sameModule s t ∧ t.bring = s.bring ∧ t.topo = s.topo ∧ t.camner = s.camner ∧ t.twinFlits = s.twinFlits ∧ t.sec = s.sec ∧
      t.therm = s.therm ∧ t.hubTherm = s.hubTherm ∧ t.voff = s.voff ∧ ((∀ ok, i ≠ .conversionStart ok) → t.power = s.power) := by
  by_cases hc : ∃ ok, i = .conversionStart ok
  · obtain ⟨ok, rfl⟩ := hc
    rw [conversionStart_frame e]
    simp only [Claims.sameModule, and_self, true_and]
    exact fun h => absurd rfl (h ok)
  · have hbeyond := outcomeKeeps_pinCommand hi (fun ok h => hc ⟨ok, h⟩) s t e
    simp only [beyondPins, State.mk.injEq] at hbeyond
    simp only [Claims.sameModule, hbeyond, and_self, implies_true]

/-- Settles O41: the parts beyond the pins, the registers of those that write none, then the release of the fabric. -/
theorem pinAndReleaseCommandsFrame : Obligations.PinAndReleaseCommandsFrame := by
  refine ⟨fun i s t hi e => ?_, fun s t scope hs e => ?_⟩
  · obtain ⟨hmodule, hbring, htopo, hcam, hflits, hsec, htherm, hhub, hvoff, hpower⟩ := pinCommand_frame hi e
    exact ⟨hmodule, hbring, htopo, hcam, hflits, hsec, htherm, hhub, hvoff, hpower, fun hr => outcomeKeeps_regs hr s t e⟩
  · obtain rfl : Machine.release (scopeNo scope) 4 isolateAll s = t := Host.Outcome.next.inj e
    obtain ⟨-, hbeyond, hdies, hreg⟩ := FabricFrame.release hs (scopeNo scope)
    exact ⟨eq_of_beyondFabric hbeyond, hdies, hreg⟩

end Sys2Proof.Machine
end

section
/-! SUPPORT. Identity, fuses, installs and the firmware's start (R357, R364, R428 to R435). -/
namespace Sys2Proof.Machine

section
variable {s : State}

/-! ### Identity (R433, R434) -/

theorem identity_holds : Claims.identity := by
  intro s
  refine ⟨fun h => ?_, fun h => ?_⟩
  · simp only [exec, execGetIdKey, h, Bool.not_true, Bool.false_eq_true, if_false, done]
  · simp only [exec, execAttest, h, Bool.not_true, Bool.false_eq_true, if_false, done]

/-! ### Fuses (R428, R435) -/

theorem fldFits_counterField (i : Nat) : fldFits (counterField i) := by
  unfold counterField
  split <;> decide

/-- The register takes the fused value at the end of ADVANCE_ROLLBACK. -/
theorem endAdvance_ends (status i : Nat) (s : State) : (endAdvance status i s).svc.reply = some ⟨status, fusedValue s i⟩ ∧
    (endAdvance status i s).sec.advance = none ∧
    (s.canon = true → getF (endAdvance status i s) r_SEC_ROLLBACK (counterField i) = fusedValue s i % 2 ^ (counterField i).width) :=
  ⟨rfl, rfl, fun h => getF_putF_same (fldFits_counterField i) _ h⟩

theorem fuses_hold : Claims.fuses := by
  intro s hpulse
  refine ⟨fun hport hok => ?_, fun hport hkey => ?_⟩
  · have hchecks : (s.sec.advance.isNone && !advanceOk s (pk s 16 1) (pk s 20 4)) = false := by
      cases h : s.sec.advance with
      | none => simp [hok h]
      | some _ => rfl
    refine ⟨fun hlt hmay => ?_, fun hle => ⟨_, ?_, endAdvance_ends stOk (pk s 16 1) s⟩⟩
    · simp only [exec, execAdvanceRollback, hport, hchecks, hpulse, hmay, Nat.not_le.2 hlt, Bool.not_true, Bool.false_eq_true, if_false,
        Option.isSome_none, startPulse, updSec, done]
    · simp only [exec, execAdvanceRollback, hport, hchecks, hpulse, hle, Bool.not_true, Bool.false_eq_true, if_false, if_true,
        Option.isSome_none, done]
  · refine ⟨fun hlt hmay => ?_, fun hle => ?_⟩
    · simp only [exec, execCloseDebug, hport, hkey, hpulse, hmay, Nat.not_le.2 hlt, ne_eq, not_true_eq_false, Bool.not_true,
        Bool.false_eq_true, if_false, Option.isSome_none, startPulse, updSec, done]
    · simp only [exec, execCloseDebug, hport, hkey, hpulse, hle, ne_eq, not_true_eq_false, Bool.not_true, Bool.false_eq_true, if_false,
        if_true, Option.isSome_none, done]

/-! ### Program pulses (R428, R435) -/

/-- Without a waiting reset the end of a pulse accepts none. -/
theorem acceptWaiting_none (h : s.rst.waiting = []) : acceptWaiting s = updRst (fun r => { r with waiting := [] }) s := by
  unfold acceptWaiting
  rw [h]
  rfl

/-- The end of a pulse that reads back, where no reset waits. -/
theorem execWritePulseEnd_of {p : Nat} {u : State} (hp : s.sec.pulse = some p) (hu : pulseResult p true s = u) (hw : u.rst.waiting = []) :
    exec (.writePulseEnd true) s = .next (updRst (fun r => { r with waiting := [] }) (updSec (fun x => { x with pulse := none }) u)) := by
  have hend : exec (.writePulseEnd true) s = done (acceptWaiting (updSec (fun x => { x with pulse := none }) (pulseResult p true s))) := by
    simp only [exec, execWritePulseEnd, hp]
  rw [hend, hu, acceptWaiting_none]
  · rfl
  · exact hw

theorem pulses_hold : Claims.pulses := by
  intro s p hs hp hwait
  refine ⟨fun hlt => ?_, fun h5 => ?_⟩
  · have hresult : pulseResult p true s = updSec (fun x => { x with advance := some (p, fusedValue s p + 1) }) s := by
      simp only [pulseResult, show p ≠ 6 by omega, show p ≠ 5 by omega, if_false, if_true]
    exact ⟨_, execWritePulseEnd_of hp hresult hwait, rfl, rfl⟩
  · subst h5
    have hresult : pulseResult 5 true s = putF r_SEC_STATUS f_SEC_STATUS_DEBUG_CLOSED (if 2 ≤ s.sec.debugFuses + 1 then 1 else 0)
        (updSec (fun x => { x with debugFuses := s.sec.debugFuses + 1 }) s) := rfl
    refine ⟨_, execWritePulseEnd_of hp hresult hwait, rfl, rfl, ?_⟩
    have hcanon : (updSec (fun x => { x with debugFuses := s.sec.debugFuses + 1 }) s).canon = true :=
      (updSec_keeps _ (Nat.le_succ _) (Keeps.refl s)).canon hs
    rw [getF_updRst, getF_updSec, getF_putF_same (by decide) _ hcanon]
    by_cases h : 1 ≤ s.sec.debugFuses
    · rw [if_pos h, if_pos (by omega)]
      rfl
    · rw [if_neg h, if_neg (by omega)]
      rfl

/-! ### Installs (R431, R432) -/

/-- A change of the firmware's state that blows no fuse is canonical. -/
theorem canon_updSec {f : Sec → Sec} (hf : (f s.sec).debugFuses = s.sec.debugFuses) (h : s.canon = true) : (updSec f s).canon = true :=
  (updSec_keeps f (Nat.le_of_eq hf.symm) (Keeps.refl s)).canon h

theorem installStage_setInstall {n : Nat} (hn : n < 4) (h : s.canon = true) :
    getF (setInstall n s) r_SEC_STATUS f_SEC_STATUS_INSTALL = n :=
  (getF_putF_same (by decide) n h).trans (Nat.mod_eq_of_lt hn)

theorem getF_setInstall {f : Fld} (hf : fldApart f_SEC_STATUS_INSTALL f) (n : Nat) (h : s.canon = true) :
    getF (setInstall n s) r_SEC_STATUS f = getF s r_SEC_STATUS f :=
  getF_putF_field (by decide) hf n h

/-- A field of one bit takes the bit. -/
theorem getF_putF_bit {a n : Nat} {f : Fld} (hf : fldFits f) (hw : f.width = 1) (hn : n < 2) (h : s.canon = true) :
    getF (putF a f n s) a f = n := by
  rw [getF_putF_same hf n h, hw, Nat.pow_one, Nat.mod_eq_of_lt hn]

/-- The first stage: copy B is being written. -/
theorem install_copyB (hi : s.sec.install = true) (hmay : mayPulse s = true) (hlast : 2 ≤ s.bring.last) (h0 : installStage s = 0) :
    exec (.install true) s = .next (setInstall 1 (putF r_SEC_STATUS f_SEC_STATUS_COPY_B_OK 0
      (updSec (fun x => { x with copyB := [], pulse := some 6 }) s))) := by
  simp only [exec, execInstall, hi, hmay, h0, Nat.not_lt.2 hlast, decide_false, Bool.not_true, Bool.or_false, Bool.false_eq_true, if_false,
    if_true, done]

/-- The second stage: copy B is sound, and copy A is being written. -/
theorem install_copyA (hi : s.sec.install = true) (hmay : mayPulse s = true) (hlast : 2 ≤ s.bring.last) (h1 : installStage s = 1) :
    exec (.install true) s = .next (setInstall 2 (putF r_SEC_STATUS f_SEC_STATUS_COPY_A_OK 0 (putF r_SEC_STATUS f_SEC_STATUS_COPY_B_OK 1
      (updSec (fun x => { x with copyB := x.bundle, copyA := [], pulse := some 6 }) s)))) := by
  simp only [exec, execInstall, hi, hmay, h1, Nat.not_lt.2 hlast, decide_false, Bool.not_true, Bool.or_false, Bool.false_eq_true, if_false,
    if_true, Nat.one_ne_zero, done]

/-- The install's end, with a copy A that reads back or not. -/
theorem install_ends (ok : Bool) (hi : s.sec.install = true) (hpulse : s.sec.pulse = none) (h2 : installStage s = 2) :
    exec (.installComplete ok) s = .next (if ok then setInstall 0 (putF r_SEC_STATUS f_SEC_STATUS_COPY_A_OK 1
      (updSec (fun x => { x with copyA := x.bundle, install := false }) s)) else failInstall s) := by
  cases ok <;>
    simp only [exec, execInstallComplete, hi, hpulse, h2, Option.isSome_none, Bool.not_true, Bool.not_false, Bool.or_false,
      Bool.false_eq_true, ne_eq, not_true_eq_false, decide_false, if_false, if_true, done]

theorem installs_hold : Claims.installs := by
  intro s hs hi st
  have held (f : Sec → Sec) (hf : (f s.sec).debugFuses = s.sec.debugFuses) : (updSec f s).canon = true := canon_updSec hf hs
  refine ⟨fun hmay hlast => ⟨fun h0 => ⟨_, install_copyB hi hmay hlast h0, ?_, ?_, rfl, rfl⟩,
    fun h1 => ⟨_, install_copyA hi hmay hlast h1, ?_, ?_, ?_, rfl, rfl⟩⟩, fun hpulse h2 => ⟨⟨_, install_ends true hi hpulse h2, ?_, ?_, rfl, rfl⟩,
    _, install_ends false hi hpulse h2, ?_, rfl⟩⟩
  · exact installStage_setInstall (by decide) (canon_putF _ _ _ (held _ rfl))
  · exact (getF_setInstall (by decide) _ (canon_putF _ _ _ (held _ rfl))).trans (getF_putF_bit (by decide) rfl (by decide) (held _ rfl))
  · exact installStage_setInstall (by decide) (canon_putF _ _ _ (canon_putF _ _ _ (held _ rfl)))
  · exact (getF_setInstall (by decide) _ (canon_putF _ _ _ (canon_putF _ _ _ (held _ rfl)))).trans ((getF_putF_field (by decide) (by decide) _
      (canon_putF _ _ _ (held _ rfl))).trans (getF_putF_bit (by decide) rfl (by decide) (held _ rfl)))
  · exact (getF_setInstall (by decide) _ (canon_putF _ _ _ (canon_putF _ _ _ (held _ rfl)))).trans
      (getF_putF_bit (by decide) rfl (by decide) (canon_putF _ _ _ (held _ rfl)))
  · exact installStage_setInstall (by decide) (canon_putF _ _ _ (held _ rfl))
  · exact (getF_setInstall (by decide) _ (canon_putF _ _ _ (held _ rfl))).trans (getF_putF_bit (by decide) rfl (by decide) (held _ rfl))
  · exact installStage_setInstall (by decide) (held _ rfl)

/-! ### The firmware's start (R357, R364, R429) -/

theorem canon_startFirmware (src : Nat) (b : List Byte) (h : s.canon = true) : (startFirmware src b s).canon = true :=
  (startFirmware_keeps src b (Keeps.refl s)).canon h

/-- The state in which `startFirmware` writes its registers. -/
def firmwareHeld (src : Nat) (b : List Byte) (s : State) : State :=
  updSec (fun x => { x with
    bundle := b, install := src == 2 && (leAt (bundleImage b 0) 8 1).testBit 0, version := (takeFreeNat (2 ^ 16) s).1,
    mhf := sha3 (sha3 (bundleImage b 0) ++ sha3 (bundleImage b 1)), hubSvn := some (imagesSvn b 0 1) }) (takeFreeNat (2 ^ 16) s).2

theorem canon_firmwareHeld (src : Nat) (b : List Byte) (h : s.canon = true) : (firmwareHeld src b s).canon = true :=
  canon_updSec rfl ((takeFreeNat_keeps _ (Keeps.refl s)).canon h)

/-- A register as the start of the firmware leaves it. -/
theorem startFirmware_regs (src : Nat) (b : List Byte) (s : State) : (startFirmware src b s).regs =
    (putF r_HUB_CMD_STATUS f_HUB_CMD_STATUS_READY 1 (putF r_RST_CTRL f_RST_CTRL_WDOG_EN 1
      (putF r_SEC_STATUS f_SEC_STATUS_HUB_SLOT (imSlot (bundleImage b 1)) (putF r_SEC_STATUS f_SEC_STATUS_HUB_SVN (imSvn (bundleImage b 1))
        (putF r_SEC_STATUS f_SEC_STATUS_BOOT_SRC src (firmwareHeld src b s)))))).regs := by
  unfold startFirmware firmwareHeld
  rfl

theorem getF_of_regs {t : State} (h : t.regs = s.regs) (a : Nat) (f : Fld) : getF t a f = getF s a f := by
  unfold getF getReg
  rw [h]

theorem startFirmware_ready (src : Nat) (b : List Byte) (h : s.canon = true) :
    getF (startFirmware src b s) r_HUB_CMD_STATUS f_HUB_CMD_STATUS_READY = 1 := by
  rw [getF_of_regs (startFirmware_regs src b s)]
  exact getF_putF_bit (by decide) rfl (by decide)
    (canon_putF _ _ _ (canon_putF _ _ _ (canon_putF _ _ _ (canon_putF _ _ _ (canon_firmwareHeld src b h)))))

theorem startFirmware_source {src : Nat} (hsrc : src < 4) (b : List Byte) (h : s.canon = true) :
    getF (startFirmware src b s) r_SEC_STATUS f_SEC_STATUS_BOOT_SRC = src := by
  have hheld := canon_firmwareHeld src b h
  rw [getF_of_regs (startFirmware_regs src b s), getF_putF_other _ _ _ (by decide), getF_putF_other _ _ _ (by decide),
    getF_putF_field (by decide) (by decide) _ (canon_putF _ _ _ (canon_putF _ _ _ hheld)),
    getF_putF_field (by decide) (by decide) _ (canon_putF _ _ _ hheld), getF_putF_same (by decide) _ hheld]
  exact Nat.mod_eq_of_lt hsrc

theorem execHubFirmwareLoad_copyA {ext : Option (List Byte)} {sigs : List Bool} (hb : bringAt s 2 = true) (hsrc : s.bring.src = 0)
    (hok : sourceFail s s.sec.copyA (sigs.getD 0 false) (sigs.getD 1 false) = none) : exec (.hubFirmwareLoad ext sigs) s =
      .next (outcome bcOk 0 0 (putF r_SEC_STATUS f_SEC_STATUS_COPY_A_OK 1 (startFirmware 0 s.sec.copyA s))) := by
  simp only [exec, execHubFirmwareLoad, hb, hsrc, hok, Bool.not_true, Bool.false_eq_true, if_false, Nat.zero_ne_one, done]

theorem execGale_good {auth : Bool} (hb : bringAt s 8 = true) (h2 : imageFail s [3] auth (bundleImage s.sec.bundle 2) = none)
    (h3 : imageFail s [4] auth (bundleImage s.sec.bundle 3) = none) : exec (.gale auth none) s =
      .next (outcome bcOk 0 0 (updSec (fun x => { x with
        md := sha3 (bundleImage s.sec.bundle 2), ms := sha3 (bundleImage s.sec.bundle 3), dieSvn := some (imagesSvn s.sec.bundle 2 3) }) s)) := by
  simp only [exec, execGale, hb, h2, h3, Bool.not_true, Bool.false_eq_true, if_false, Option.isSome_none, Bool.or_self, done]

theorem firmware_holds : Claims.firmware := by
  intro s ext sigs hs
  refine ⟨fun hb hsrc hok => ⟨_, execHubFirmwareLoad_copyA hb hsrc hok, rfl, rfl, ?_, ?_, ?_⟩,
    fun auth hb h2 h3 => ⟨_, execGale_good hb h2 h3, rfl, rfl, rfl, rfl⟩⟩
  · rw [getF_outcome, getF_putF_other _ _ _ (by decide)]
    exact startFirmware_ready _ _ hs
  · rw [getF_outcome, getF_putF_field (by decide) (by decide) _ (canon_startFirmware _ _ hs)]
    exact startFirmware_source (by decide) _ hs
  · rw [getF_outcome]
    exact getF_putF_bit (by decide) rfl (by decide) (canon_startFirmware _ _ hs)

end

/-- Settles O23, clause by clause. -/
theorem securityCommandsTakeEffect : Obligations.SecurityCommandsTakeEffect :=
  ⟨identity_holds, fuses_hold, pulses_hold, installs_hold, firmware_holds⟩

end Sys2Proof.Machine
end

section
/-! SUPPORT. What operations on memory and on pages leave of the twin: they reach registers, bytes and the hub's tables, never the twin's
messages, its held sessions or its open burst. -/
namespace Sys2Proof.Machine

section
variable (s : State)

/-! ### Errors (R298, R300) -/

@[simp] theorem storeError_twin (st : Station) (unit kind sel info : Nat) : (storeError st unit kind sel info s).twin = s.twin :=
  (congrArg State.twin (storeError_frame st unit kind sel info s) :)

@[simp] theorem countRound_twin (st : Station) (kind : Nat) : (countRound st kind s).twin = s.twin := by
  unfold countRound
  split
  · split
    · rfl
    · exact satF_twin ..
  · rfl

@[simp] theorem stopPartition_twin (d : Stack) : (stopPartition d s).twin = s.twin := by
  unfold stopPartition
  dsimp only
  split
  · rw [updDie_twin, putF_twin]
  · rw [putF_twin]

@[simp] theorem containment_twin (parent : Station) : (containment parent s).twin = s.twin := by
  unfold containment postSuspect
  split
  · exact stopPartition_twin ..
  · exact stopPartition_twin ..
  · rfl

@[simp] theorem countSent_twin (st : Station) (unit : Nat) : (countSent st unit s).twin = s.twin := by
  rw [countSent, putF_twin, satF_twin]

end

@[simp] theorem recordUp_twin (n : Nat) : ∀ (st : Station) (unit kind sel info : Nat) (s : State),
    (recordUp n st unit kind sel info s).twin = s.twin := by
  induction n with
  | zero => exact fun _ _ _ _ _ _ => rfl
  | succ n ih =>
    intro st unit kind sel info s
    unfold recordUp
    split
    · dsimp only
      split
      · rw [containment_twin, ih, satF_twin, countSent_twin]
      · split
        · rw [updDie_twin, countSent_twin]
        · rw [countSent_twin]
    · rw [countRound_twin, storeError_twin]

section
variable (s : State)

@[simp] theorem requestSegment_twin (d : Stack) (n : Nat) : (requestSegment d n s).twin = s.twin := by
  unfold requestSegment
  split
  · split
    · exact putF_twin ..
    · rfl
  · rfl

@[simp] theorem uMark_twin (d : Stack) (u : Fin 17) (a : Nat) : (uMark d u a s).twin = s.twin := by
  unfold uMark markRow lpMark
  split
  · dsimp only
    split
    · rfl
    · rw [requestSegment_twin, updVc_twin]
  · split
    · split
      · rfl
      · rw [requestSegment_twin, updLp_twin]
    · rfl

@[simp] theorem uBad_twin (d : Stack) (u : Fin 17) (a : Nat) (o : CodeOutcome) : (uBad d u a o s).twin = s.twin := by
  unfold uBad recordErr
  dsimp only
  split
  · rw [uMark_twin, recordUp_twin]
  · rw [recordUp_twin]

end

/-! ### Code words -/

@[simp] theorem writeMem_twin (n : Nat) : ∀ (k v : Nat) (s : State), (writeMem k n v s).twin = s.twin := by
  induction n with
  | zero => exact fun _ _ _ => rfl
  | succ n ih => exact fun k v s => (ih _ _ _).trans (writeByte_twin ..)

section
variable (s : State)

@[simp] theorem writeWord_twin (k : Nat) (w : CodeWord) : (writeWord k w s).twin = s.twin := by rw [writeWord, writeChk_twin, writeMem_twin]

@[simp] theorem storeBankWord_twin (d : Stack) (c : CoreIx) (j off who : Nat) (w : CodeWord) :
    (storeBankWord d c j off who w s).twin = s.twin := by
  unfold storeBankWord
  dsimp only
  split
  · rw [writeWord_twin, putF_twin, updVc_twin]
  · rw [writeWord_twin, updVc_twin]

@[simp] theorem storeLpWord_twin (d : Stack) (ch row sec who : Nat) (w : CodeWord) : (storeLpWord d ch row sec who w s).twin = s.twin := by
  unfold storeLpWord
  dsimp only
  split
  · rw [writeWord_twin, putF_twin, updLp_twin]
  · rw [writeWord_twin, updLp_twin]

@[simp] theorem countWord_twin (a : Nat) (o : CodeOutcome) : (countWord a o s).twin = s.twin := by
  cases o
  case clean => rfl
  all_goals exact bumpF_twin ..

@[simp] theorem uRead_twin (d : Stack) (u : Fin 17) (a : Nat) (e : Upsets) : (uRead d u a e s).2.twin = s.twin := by
  unfold uRead
  split
  · split
    · dsimp only [vaultRead, countLanes]
      rw [updVc_twin, countWord_twin]
    · rfl
  · unfold lpRead
    split
    · rfl
    · split
      · rfl
      · dsimp only
        split
        · rw [updLp_twin, countWord_twin]
        · rw [countWord_twin]

/-- A word that meets no upset on its way is stored. -/
@[simp] theorem uStore_twin (d : Stack) (u : Fin 17) (a who : Nat) (v : BitVec 512) : (uStore d u a who [] v s).twin = s.twin := by
  unfold uStore
  split
  · split
    · exact storeBankWord_twin ..
    · rfl
  · unfold lpStore
    split
    · rfl
    · split
      · rfl
      · exact storeLpWord_twin ..

@[simp] theorem uPoison_twin (d : Stack) (u : Fin 17) (a : Nat) (v : BitVec 512) : (uPoison d u a v s).twin = s.twin := by
  unfold uPoison
  split
  · split
    · exact storeBankWord_twin ..
    · rfl
  · unfold lpPoison
    split
    · rfl
    · exact storeLpWord_twin ..

/-! ### Writes of the hub (R288) -/

@[simp] theorem setMerge_twin (d : Stack) (u : Fin 17) (m : List MergeEntry) : (setMerge d u m s).twin = s.twin := by
  unfold setMerge
  split
  · exact updVc_twin ..
  · exact updLp_twin ..

@[simp] theorem rmwWord_twin (d : Stack) (u : Fin 17) (a : Nat) (mask : BitVec 64) (data : BitVec 512) :
    (rmwWord d u a mask [] data s).twin = s.twin := by
  have hread := uRead_twin s d u a []
  unfold rmwWord
  split
  · next h => rwa [h] at hread
  · next h =>
    rw [h] at hread
    dsimp only
    split
    · rw [uPoison_twin, uBad_twin]
      exact hread
    · rw [uStore_twin]
      exact hread

@[simp] theorem writeBack_twin (d : Stack) (u : Fin 17) (e : MergeEntry) : (writeBack d u e [] s).twin = s.twin := by
  unfold writeBack
  dsimp only
  split
  · rw [satF_twin, uStore_twin, setMerge_twin]
  · rw [satF_twin, rmwWord_twin, setMerge_twin]

@[simp] theorem mergeWrite_twin (d : Stack) (u : Fin 17) (a : Nat) (mask : BitVec 64) (data : BitVec 512) :
    (mergeWrite d u a mask data s).twin = s.twin := by
  unfold mergeWrite
  dsimp only
  split
  · split
    · exact writeBack_twin ..
    · exact setMerge_twin ..
  · split
    · rw [writeBack_twin]
      split
      · split
        · exact writeBack_twin ..
        · rfl
      · rfl
    · rw [setMerge_twin]
      split
      · split
        · exact writeBack_twin ..
        · rfl
      · rfl

@[simp] theorem hostWriteWord_twin (d : Stack) (u : Fin 17) (w a n v : Nat) : (hostWriteWord d u w a n v [] s).twin = s.twin := by
  unfold hostWriteWord
  dsimp only
  split
  · exact mergeWrite_twin ..
  · split
    · exact uStore_twin ..
    · exact rmwWord_twin ..

@[simp] theorem unitWrite_twin (d : Stack) (u : Fin 17) (a n v : Nat) : (unitWrite d u a n v s).twin = s.twin :=
  forAll_frame State.twin (fun _ t => hostWriteWord_twin t ..) _ s

@[simp] theorem grpWrite_twin (p off n v : Nat) : (grpWrite p off n v s).twin = s.twin := by
  unfold grpWrite
  split
  · exact forAll_frame State.twin (fun _ t => unitWrite_twin t ..) _ s
  · rfl

@[simp] theorem devWrite_twin (a n v : Nat) : (devWrite a n v s).twin = s.twin := by
  unfold devWrite
  refine forAll_frame State.twin (fun _ t => ?_) _ s
  unfold devWritePart
  split
  · split
    · exact writeMem_twin ..
    · exact unitWrite_twin ..
  · rfl

/-! ### Frames, slots and the tables of a graph (R181 to R189) -/

@[simp] theorem frameWrite_twin (g : Graph) (e slot off n v : Nat) : (frameWrite g e slot off n v s).twin = s.twin := by
  unfold frameWrite
  dsimp only
  split
  · exact grpWrite_twin ..
  · split
    · exact devWrite_twin ..
    · rfl

@[simp] theorem slotWrite_twin (g : Graph) (e slot b n v : Nat) : (slotWrite g e slot b n v s).twin = s.twin := grpWrite_twin ..

@[simp] theorem rootWrite_twin (g : Graph) (slot l h tail next : Nat) : (rootWrite g slot l h tail next s).twin = s.twin := grpWrite_twin ..

@[simp] theorem setPins_twin (g : Graph) (e slot n : Nat) : (setPins g e slot n s).twin = s.twin := frameWrite_twin ..

@[simp] theorem setRef_twin (g : Graph) (e slot n : Nat) : (setRef g e slot n s).twin = s.twin := by
  unfold setRef
  dsimp only
  split
  · rw [slotWrite_twin, frameWrite_twin]
  · rw [slotWrite_twin]

@[simp] theorem updGraph_twin (k : Nat) (f : Graph → Graph) : (updGraph k f s).twin = s.twin := by
  unfold updGraph
  split <;> rfl

@[simp] theorem updNear_twin (k e : Nat) (f : NearGroup → NearGroup) : (updNear k e f s).twin = s.twin := updGraph_twin ..

@[simp] theorem updSess_twin (slot : Nat) (f : Sess → Sess) : (updSess slot f s).twin = s.twin := by
  unfold updSess
  split <;> rfl

@[simp] theorem addObj_twin (key n : Nat) : (addObj key n s).twin = s.twin := by
  unfold addObj setObj
  dsimp only
  split
  · rw [updSvc_twin, putReg_twin]
  · split
    · rw [updDie_twin, putReg_twin]
    · rw [putReg_twin]

theorem pickFree_twin {used : List Nat} {n : Nat} {r : Option Nat} {t : State} (h : pickFree used n s = (r, t)) : t.twin = s.twin := by
  have hpick : (pickFree used n s).2.twin = s.twin := by
    unfold pickFree
    dsimp only
    split <;> rfl
  rwa [h] at hpick

end

/-! ### Home lists (R186, R188) -/

@[simp] theorem writeBlocks_twin (p blocks : Nat) : ∀ (bs es : List Nat) (s : State), (writeBlocks p blocks bs es s).twin = s.twin
  | [], _, _ => rfl
  | _ :: bs, _, _ => (writeBlocks_twin p blocks bs _ _).trans ((grpWrite_twin ..).trans ((grpWrite_twin ..).trans (grpWrite_twin ..)))

/-- Taking or returning blocks changes the graph's table only. -/
theorem fitBlocks_twin {k e n : Nat} {g : Graph} {have_ bs : List Nat} {s t : State} (h : fitBlocks k e g have_ n s = some (bs, t)) :
    t.twin = s.twin := by
  unfold fitBlocks at h
  dsimp only at h
  split at h
  · obtain ⟨-, rfl⟩ := Prod.mk.inj (Option.some.inj h)
    exact updNear_twin ..
  · refine List.foldlRecOn (motive := fun r => ∀ bs t, r = some (bs, t) → t.twin = s.twin) _ _ ?_ ?_ bs t h
    · intro bs t h
      obtain ⟨-, rfl⟩ := Prod.mk.inj (Option.some.inj h)
      rfl
    · intro r ih _ _ bs t h
      split at h
      · cases h
      · next cs u =>
        split at h
        · next b v hpick =>
          obtain ⟨-, rfl⟩ := Prod.mk.inj (Option.some.inj h)
          exact (updNear_twin ..).trans ((pickFree_twin u hpick).trans (ih _ _ rfl))
        · cases h

section
variable (s : State)

@[simp] theorem setHome_twin (k e slot : Nat) (g : Graph) (es : List Nat) : (setHome k e slot g es s).twin = s.twin := by
  unfold setHome
  split
  · rfl
  · next hfit =>
    refine (forAll_frame State.twin (fun x t => ?_) _ _).trans (fitBlocks_twin hfit)
    rw [writeBlocks_twin, grpWrite_twin]

/-! ### Root blocks and tentative frames (R186, R211) -/

@[simp] theorem clearRoot_twin (g : Graph) (slot : Nat) : (clearRoot g slot s).twin = s.twin :=
  forAll_frame State.twin (fun _ t => rootWrite_twin t ..) _ s

@[simp] theorem fixRoots_twin (k slot : Nat) : (fixRoots k slot s).twin = s.twin := by
  unfold fixRoots
  split
  · rfl
  · exact forAll_frame State.twin (fun _ t => rootWrite_twin t ..) _ s

@[simp] theorem chainTents_twin (g : Graph) (e slot : Nat) (l : List Nat) : (chainTents g e slot l s).twin = s.twin :=
  (forAll_frame State.twin (fun _ t => grpWrite_twin t ..) _ _).trans (grpWrite_twin ..)

@[simp] theorem placeTent_twin (k e slot : Nat) (g : Graph) (sid id l h : Nat) (next : Bool) (t : Nat) :
    (placeTent k e slot g sid id l h next t s).twin = s.twin := by
  unfold placeTent
  dsimp only
  rw [chainTents_twin, grpWrite_twin, grpWrite_twin, grpWrite_twin, grpWrite_twin, updNear_twin]

@[simp] theorem reclaimTents_twin (k slot : Nat) : (reclaimTents k slot s).twin = s.twin := by
  unfold reclaimTents
  split
  · rfl
  · refine forAll_frame State.twin (fun e t => ?_) _ s
    dsimp only
    split
    · rfl
    · rw [chainTents_twin, updNear_twin]

/-! ### Allocation (R194) -/

@[simp] theorem takeFreeNat_twin (n : Nat) : (takeFreeNat n s).2.twin = s.twin := rfl

@[simp] theorem initFrame_twin (g : Graph) (e slot sid id l h idx ref valid : Nat) :
    (initFrame g e slot sid id l h idx ref valid s).twin = s.twin := by
  unfold initFrame
  dsimp only
  rw [frameWrite_twin, frameWrite_twin, frameWrite_twin, frameWrite_twin, frameWrite_twin, frameWrite_twin, frameWrite_twin]

theorem allocFor_twin {k slot sid l h idx : Nat} {t : State} (ht : allocFor k slot sid l h idx s = some t) : t.twin = s.twin := by
  unfold allocFor at ht
  split at ht
  · dsimp only at ht
    split at ht
    · cases ht
    · next hslot =>
      split at ht
      · cases ht
      · next hframe =>
        split at ht
        · cases ht
        · next htent =>
          split at ht
          · cases ht
          · obtain rfl := Option.some.inj ht
            rw [rootWrite_twin, placeTent_twin, setHome_twin, initFrame_twin, slotWrite_twin, takeFreeNat_twin, updNear_twin,
              pickFree_twin _ htent, pickFree_twin _ hframe, pickFree_twin _ hslot]
  · cases ht

/-! ### Release (R193) -/

@[simp] theorem returnFrame_twin (k e tier frame : Nat) : (returnFrame k e tier frame s).twin = s.twin := by
  unfold returnFrame
  split
  · rfl
  · split
    · exact updNear_twin ..
    · split
      · exact updGraph_twin ..
      · split
        · exact updSvc_twin ..
        · rfl

@[simp] theorem endMoves_twin (k e slot : Nat) : (endMoves k e slot s).twin = s.twin :=
  (forAll_frame State.twin (fun _ t => returnFrame_twin t ..) _ _).trans (updSvc_twin ..)

@[simp] theorem freeSlot_twin (k e slot : Nat) : (freeSlot k e slot s).twin = s.twin := by
  unfold freeSlot
  split
  · rfl
  · dsimp only
    rw [returnFrame_twin, endMoves_twin, updNear_twin, slotWrite_twin]

@[simp] theorem dropRef_twin (k e : Nat) (g : Graph) (wasPinned : Bool) (id : Nat) : (dropRef k e g wasPinned id s).twin = s.twin := by
  unfold dropRef
  cases wasPinned
  all_goals
    simp only [Bool.false_eq_true, if_false, if_true]
    split
    · simp only [freeSlot_twin, setRef_twin, setPins_twin]
    · simp only [setRef_twin, setPins_twin]

@[simp] theorem releaseFrom_twin (k slot base : Nat) (wasPinned : Bool) : (releaseFrom k slot base wasPinned s).twin = s.twin := by
  unfold releaseFrom
  split
  · rfl
  · refine forAll_frame State.twin (fun e t => ?_) _ s
    dsimp only
    split
    · rfl
    · rw [setHome_twin]
      exact forAll_frame State.twin (fun _ u => dropRef_twin u ..) _ t

@[simp] theorem framesFreed_twin (k : Nat) : (framesFreed k s).twin = s.twin := by
  unfold framesFreed
  refine forAll_frame State.twin (fun n t => ?_) _ s
  split
  · split
    · rw [addObj_twin, updSess_twin]
    · rfl
  · rfl

/-! ### Decode state blocks (R205) -/

@[simp] theorem writeDsb_twin (g : Graph) (slot dsb : Nat) : (writeDsb g slot dsb s).twin = s.twin :=
  forAll_frame State.twin (fun _ t => unitWrite_twin t ..) _ s

@[simp] theorem rootDsb_twin (g : Graph) (slot : Nat) (x : Sess) : (rootDsb g slot x s).twin = s.twin := writeDsb_twin ..

/-! ### Pages of sessions held for the twin (R183, R190, R194) -/

/-- A page allocated in `u`, with its place found in the new state, leaves the twin as `u` has it. -/
theorem freshPage_twin {k slot sid l h idx e sl : Nat} {u t : State} {place : State → Option (Nat × Nat)}
    (hp : (match allocFor k slot sid l h idx u with
      | some v => match getGraph v k with
        | some _ => (place v).map fun p => (p.1, heId p.2 % 2 ^ 18, v)
        | none => none
      | none => none) = some (e, sl, t)) : t.twin = u.twin := by
  split at hp
  · next halloc =>
    split at hp
    · obtain ⟨p, -, hpage⟩ := Option.map_eq_some_iff.1 hp
      obtain ⟨-, -, rfl⟩ := hpage
      exact allocFor_twin _ halloc
    · cases hp
  · cases hp

theorem heldPage_twin {k slot sid l h idx e sl : Nat} {t : State} (hp : heldPage k slot sid l h idx s = some (e, sl, t)) : t.twin = s.twin := by
  unfold heldPage at hp
  split at hp
  · cases hp
  · next g _ =>
    let place (v : State) := (sessPages v g slot).find? fun p => heIdx p.2 == idx && heLayer p.2 == l && heGroup p.2 == h
    dsimp only at hp
    split at hp
    · exact freshPage_twin (place := place) hp
    · split at hp
      · obtain ⟨-, -, rfl⟩ := hp
        rfl
      · split at hp
        · cases hp
        · next hfresh =>
          obtain ⟨-, -, rfl⟩ := hp
          rw [frameWrite_twin, frameWrite_twin]
          exact (freshPage_twin (place := place) hfresh).trans ((setRef_twin ..).trans (setHome_twin ..))

@[simp] theorem heldWrite_twin (g : Graph) (e sl off len data : Nat) : (heldWrite g e sl off len data s).twin = s.twin := by
  unfold heldWrite
  split
  · dsimp only
    rw [frameWrite_twin, frameWrite_twin]
  · dsimp only
    split
    · split
      · rw [grpWrite_twin, grpWrite_twin, frameWrite_twin]
      · rw [grpWrite_twin, frameWrite_twin]
    · rw [frameWrite_twin]

end

end Sys2Proof.Machine
end

section
/-! SUPPORT. What the twin's messages do: heartbeats, the sessions held for the twin, bursts, and the end of mirroring (R325 to R338). -/
namespace Sys2Proof.Machine

section
variable {s : State}

/-! ### Sessions of this module -/

@[simp] theorem updSess_regs (slot : Nat) (f : Sess → Sess) (s : State) : (updSess slot f s).regs = s.regs := by
  unfold updSess
  split <;> rfl

theorem getSess_updSess_same {n : Nat} {x : Sess} (f : Sess → Sess) (h : getSess s n = some x) : getSess (updSess n f s) n = some (f x) := by
  simp only [updSess, h]
  exact sget_sput_of_ne (α := Option Sess) (Option.some_ne_none (f x)) _

theorem getSess_updSess_other {m n : Nat} (hm : n ≠ m) (f : Sess → Sess) (s : State) : getSess (updSess m f s) n = getSess s n := by
  unfold updSess
  split
  · next x _ => exact sget_sput_other (d := none) (d' := none) (x := some (f x)) (m := s.svc.sess) hm
  · rfl

theorem mem_sessSlots {n : Nat} {x : Sess} (h : getSess s n = some x) : n ∈ sessSlots s := by
  refine Classical.byContradiction fun hn => ?_
  have hnone : getSess s n = none := sget_of_not_mem fun p hp he => hn (List.mem_map.2 ⟨p, hp, he⟩)
  rw [hnone] at h
  cases h

/-- A change of every session is one of the session in a slot, where a second change is none. -/
theorem getSess_forAll_updSess {n : Nat} {x : Sess} {f : Sess → Sess} (hf : f (f x) = f x) (h : getSess s n = some x) :
    getSess (forAll (sessSlots s) (fun m s => updSess m f s) s) n = some (f x) := by
  have hset {t : State} (ht : getSess t n = some x ∨ getSess t n = some (f x)) : getSess (updSess n f t) n = some (f x) :=
    ht.elim (getSess_updSess_same f) fun h => (getSess_updSess_same f h).trans (congrArg some hf)
  refine forAll_establishes (P := fun t => getSess t n = some x ∨ getSess t n = some (f x)) (Q := fun t => getSess t n = some (f x))
    (fun m t ht => ?_) (fun m t ht => ?_) (x := n) (fun t ht => hset ht) (mem_sessSlots h) (.inl h)
  · by_cases hm : n = m
    · exact .inr (hm ▸ hset ht)
    · rwa [getSess_updSess_other hm]
  · by_cases hm : n = m
    · exact hm ▸ hset (.inr ht)
    · rwa [getSess_updSess_other hm]

/-! ### The end of mirroring (R333, R335) -/

theorem unmirrorAll_regs (s : State) : (unmirrorAll s).regs = s.regs :=
  (updTwin_regs ..).trans (forAll_frame State.regs (fun n t => updSess_regs n unmirror t) (sessSlots s) s)

/-- Of the twin's state the end of mirroring changes the resynchronisation alone. -/
theorem unmirrorAll_twin (s : State) : (unmirrorAll s).twin = { s.twin with resync := none } :=
  congrArg (fun t : Twin => { t with resync := none }) (forAll_frame State.twin (fun n t => updSess_twin t n unmirror) (sessSlots s) s)

theorem getF_unmirrorAll (a : Nat) (f : Fld) (s : State) : getF (unmirrorAll s) a f = getF s a f := by
  rw [getF, getReg, unmirrorAll_regs, ← getReg, ← getF]

theorem getSess_unmirrorAll {n : Nat} {x : Sess} (h : getSess s n = some x) : getSess (unmirrorAll s) n = some (unmirror x) :=
  getSess_forAll_updSess rfl h

/-- A field of TWIN_STATUS of one bit. -/
theorem twinF_setTwinF_one {f : Fld} (hf : fldFits f) (hw : f.width = 1) (h : s.canon = true) : twinF (setTwinF f 1 s) f = 1 :=
  getF_putF_bit hf hw (by decide) h

/-- What the declaration of a loss leaves. -/
theorem declareLost_lost (h : s.canon = true) : twinF (declareLost s) f_TWIN_STATUS_LOST = 1 ∧ (declareLost s).twin.stopped = true ∧
    (declareLost s).twin.missed = s.twin.missed := by
  have hparts : (raiseAlert alTwinLost (postEvent evTwinLost 0 s.twin.missed (setTwinF f_TWIN_STATUS_LOST 1 s))).twin = s.twin :=
    (raiseAlert_parts _ _).2.1.trans ((postEvent_twin _ _ _ _).trans (putF_twin ..))
  unfold declareLost
  refine ⟨?_, ?_, ?_⟩
  · rw [twinF, getF_unmirrorAll, getF_updTwin, getF_raiseAlert (by decide), getF_postEvent (by decide)]
    exact twinF_setTwinF_one (by decide) rfl h
  · rw [unmirrorAll_twin]
    rfl
  · rw [unmirrorAll_twin]
    exact (congrArg Twin.missed hparts :)

/-! ### Heartbeats and the link (R325, R326, R333) -/

theorem heartbeatIn_shows {mode flevel : Nat} (hm : mode < 4) (hl : flevel < 256) (h : s.canon = true) :
    twinF (heartbeatIn mode flevel s) f_TWIN_STATUS_PEER_MODE = mode ∧ twinF (heartbeatIn mode flevel s) f_TWIN_STATUS_PEER_FLEVEL = flevel ∧
    twinF (heartbeatIn mode flevel s) f_TWIN_STATUS_HB_RX = (twinF s f_TWIN_STATUS_HB_RX + 1) % 2 ^ 32 := by
  have hmode : (setTwinF f_TWIN_STATUS_PEER_MODE mode s).canon = true := canon_putF _ _ _ h
  have hlevel : (setTwinF f_TWIN_STATUS_PEER_FLEVEL flevel (setTwinF f_TWIN_STATUS_PEER_MODE mode s)).canon = true := canon_putF _ _ _ hmode
  unfold heartbeatIn twinF bumpF
  dsimp only
  refine ⟨?_, ?_, ?_⟩
  · rw [getF_updTwin, getF_putF_field (by decide) (by decide) _ hlevel, setTwinF, getF_putF_field (by decide) (by decide) _ hmode, setTwinF,
      getF_putF_same (by decide) _ h]
    exact Nat.mod_eq_of_lt hm
  · rw [getF_updTwin, getF_putF_field (by decide) (by decide) _ hlevel, setTwinF, getF_putF_same (by decide) _ hmode]
    exact Nat.mod_eq_of_lt hl
  · rw [getF_updTwin, getF_putF_same (by decide) _ hlevel, setTwinF, getF_putF_field (by decide) (by decide) _ hmode, setTwinF,
      getF_putF_field (by decide) (by decide) _ h]
    rfl

/-- The miss that completes a row of HB_MISS. -/
theorem exec_heartbeatMiss_last (hmode : twinMode s ≠ 0) (hlast : s.twin.missed + 1 = max 1 (getF s r_TWIN_CTRL f_TWIN_CTRL_HB_MISS)) :
    exec .heartbeatMiss s = .next (declareLost (updTwin (fun t => { t with missed := s.twin.missed + 1 }) s)) := by
  simp only [exec, execHeartbeatMiss, hmode, false_and, if_false, getF_updTwin, ← hlast, if_true, done]

theorem heartbeats_hold : Claims.heartbeats := by
  intro s seq mode fl ack hs
  refine ⟨fun hup => ?_, fun hup => ?_, fun hmode hlast => ?_, fun hdown hpresent hready => ?_⟩
  · simp only [exec, execHeartbeatSend, hup, Bool.not_true, Bool.false_eq_true, if_false]
    exact ⟨_, _, rfl, rfl, rfl, rfl⟩
  · obtain ⟨hpm, hpf, hrx⟩ := heartbeatIn_shows (s := s) (mode := mode.val) (flevel := fl.toNat) (by omega) fl.isLt hs
    simp only [exec, execHeartbeat, hup, Bool.not_true, Bool.false_eq_true, if_false]
    exact ⟨_, rfl, hpm, hpf, rfl, hrx⟩
  · have hcanon : (updTwin (fun t => { t with missed := s.twin.missed + 1 }) s).canon = true := (updTwin_keeps _ (Keeps.refl s)).canon hs
    exact ⟨_, exec_heartbeatMiss_last hmode hlast, declareLost_lost hcanon⟩
  · simp only [exec, execTwinLinkTrainRetry, hdown, hpresent, Nat.not_lt.2 hready, decide_false, Bool.not_true, Bool.or_false,
      Bool.false_eq_true, if_false]
    have hregs : ({ setTwinF f_TWIN_STATUS_LINK 2 s with twinFlits := FlitSide.reset } : State).regs =
        (putF r_TWIN_STATUS f_TWIN_STATUS_LINK 2 s).regs := rfl
    refine ⟨_, rfl, ?_, rfl⟩
    rw [twinUp, twinF, getF_of_regs hregs, getF_putF_same (by decide) 2 hs]
    rfl

/-! ### Held sessions (R330) -/

/-- A held session put in a slot is read there, in whatever order the slots are listed. -/
theorem getHeld_putHeld (n : Nat) (h : Held) (s : State) : getHeld (putHeld n (some h) s) n = some h :=
  sget_sput_of_ne (Option.some_ne_none h) _

theorem getHeld_congr {t : State} (h : t.twin = s.twin) (n : Nat) : getHeld t n = getHeld s n := by rw [getHeld, h, getHeld]

theorem holdSess_free {n : Nat} (g : Graph) (x : Sess) (inStep : Bool) (hfree : freeSlotNo s = some n) :
    holdSess g x inStep s = clearRoot g n (putHeld n (some ⟨x, inStep, 0⟩) s) := by
  unfold holdSess
  split
  · next hnone => cases hnone.symm.trans hfree
  · next m hm =>
    obtain rfl := Option.some.inj (hm.symm.trans hfree)
    rfl

/-- The session that an OPEN holds. -/
def openedSess (sid prio flags sampler inR outR c how k : Nat) (g : Graph) : Sess :=
  let x := newSess sid (if how = 2 then .pinned else .active) prio flags k g.part 0 sampler inR outR
  { x with inCons := c }

/-- An OPEN of a session that is not held, for a graph that serves the twin, with a slot free. -/
theorem heldOpen_free {sid handle prio flags sampler inR outR c how k n : Nat} {g : Graph} (hnew : findHeld s sid = none)
    (hmap : mappedGraph s handle = some k) (hg : getGraph s k = some g) (hfree : freeSlotNo s = some n) :
    heldOpen sid handle prio flags sampler inR outR c how s =
      clearRoot g n (putHeld n (some ⟨openedSess sid prio flags sampler inR outR c how k g, how == 0, 0⟩) s) := by
  have hforget : forgetSid sid s = s := by rw [forgetSid, hnew]
  rw [heldOpen, hforget, hmap]
  dsimp only
  rw [hg]
  exact holdSess_free g (openedSess sid prio flags sampler inR outR c how k g) (how == 0) hfree

/-- A change of whatever session has a slot changes the held one there. -/
theorem getHeld_updAny {n : Nat} {h : Held} (f : Sess → Sess) (hn : getHeld s n = some h) :
    getHeld (updAny n f s) n = some { h with sess := f h.sess } := by
  have hheld : sget none s.twin.held n = some h := hn
  simp only [updAny, hheld]
  exact sget_sput_of_ne (Option.some_ne_none _) _

/-- A TRUNCATE of a held session sets its position. -/
theorem heldTruncate_truncates {sid p n : Nat} {h : Held} {g : Graph} (hfind : findHeld s sid = some n) (hn : getHeld s n = some h)
    (hg : getGraph s h.sess.graph = some g) : ∃ y, getHeld (heldTruncate sid p s) n = some y ∧ y.sess.cpos = p ∧ y.sess.sid = h.sess.sid ∧
      y.inStep = h.inStep := by
  simp only [heldTruncate, hfind, hn, hg]
  refine ⟨_, (getHeld_congr (framesFreed_twin ..) n).trans (getHeld_putHeld ..), rfl, rfl, rfl⟩

theorem exec_mirOp {from_ : Fin 4096} (op : MirOp) (h : mirAccepts s = true) : exec (.mirOp from_ op) s = .next (applyMirOp op s) := by
  simp only [exec, execMirOp, h, Bool.not_true, Bool.false_eq_true, if_false, done]

theorem mirrorOps_hold : Claims.mirrorOps := by
  intro s from_ n g k h hacc
  refine ⟨fun sid handle prio flags sampler inR outR c how hnew hmap hg hfree => ?_, fun sid hfind hn => ⟨fun prio sampler => ?_, fun p hg => ?_⟩⟩
  · exact ⟨_, _, (exec_mirOp _ hacc).trans (congrArg done (heldOpen_free hnew hmap hg hfree)),
      (getHeld_congr (clearRoot_twin ..) n).trans (getHeld_putHeld ..), rfl, rfl, rfl, rfl, rfl, rfl, rfl, rfl⟩
  · refine ⟨_, exec_mirOp _ hacc, ?_⟩
    simp only [applyMirOp, hfind]
    exact getHeld_updAny _ hn
  · exact ⟨_, heldTruncate_truncates hfind hn hg |>.imp fun y hy => ⟨exec_mirOp _ hacc, hy⟩⟩

/-! ### Held sessions that end (R326) -/

/-- A held session that is discarded leaves its slot, and nothing else of the twin's state. -/
theorem discardHeld_twin {n : Nat} {h : Held} (hn : getHeld s n = some h) :
    (discardHeld n s).twin = { s.twin with held := sput none s.twin.held n none } := by
  simp only [discardHeld, hn]
  exact congrArg (fun t : Twin => { t with held := sput none t.held n none })
    ((framesFreed_twin ..).trans ((reclaimTents_twin ..).trans ((fixRoots_twin ..).trans (releaseFrom_twin ..))))

theorem discardHeld_of_none {n : Nat} (hn : getHeld s n = none) : discardHeld n s = s := by simp only [discardHeld, hn]

theorem srising_discardHeld (n : Nat) (h : srising s.twin.held = true) : srising (discardHeld n s).twin.held = true := by
  cases hn : getHeld s n with
  | none => rwa [discardHeld_of_none hn]
  | some x =>
    rw [discardHeld_twin hn]
    exact srising_sput (d := none) (x := none) (a := n) h

theorem getHeld_discardHeld_same (n : Nat) (h : srising s.twin.held = true) : getHeld (discardHeld n s) n = none := by
  cases hn : getHeld s n with
  | none => rwa [discardHeld_of_none hn]
  | some x =>
    rw [getHeld, discardHeld_twin hn]
    exact sget_sput_same (x := none) h

theorem getHeld_discardHeld_none (m : Nat) {n : Nat} (h : getHeld s n = none) : getHeld (discardHeld m s) n = none := by
  cases hm : getHeld s m with
  | none => rwa [discardHeld_of_none hm]
  | some x =>
    have hne : n ≠ m := by
      rintro rfl
      rw [h] at hm
      cases hm
    rw [getHeld, discardHeld_twin hm]
    exact (sget_sput_other (d' := none) (x := none) hne).trans h

theorem getHeld_discardAll (h : srising s.twin.held = true) (n : Nat) : getHeld (discardAll s) n = none := by
  by_cases hn : n ∈ s.twin.held.map (·.1)
  · exact forAll_establishes (P := fun t => srising t.twin.held = true) (Q := fun t => getHeld t n = none)
      (fun m _ ht => srising_discardHeld m ht) (fun m _ ht => getHeld_discardHeld_none m ht) (fun _ ht => getHeld_discardHeld_same n ht) hn h
  · have hnone : getHeld s n = none := sget_of_not_mem fun p hp he => hn (List.mem_map.2 ⟨p, hp, he⟩)
    exact forAll_invariant (P := fun t => getHeld t n = none) (fun m _ ht => getHeld_discardHeld_none m ht) _ hnone

theorem twinStops_hold : Claims.twinStops := by
  intro s n slot x hs hup
  refine ⟨fun hheld => ⟨discardAll s, ?_, rfl, getHeld_discardAll hheld⟩, ⟨fenceIn s, ?_, ?_, fun hx => ?_⟩,
    setTwinF f_TWIN_STATUS_PEER_DETACHED 1 s, ?_, twinF_setTwinF_one (by decide) rfl hs, rfl⟩
  · simp only [exec, execMirStop, hup, Bool.not_true, Bool.false_eq_true, if_false, done]
  · simp only [exec, execFence, hup, Bool.not_true, Bool.false_eq_true, if_false, done]
  · rw [fenceIn, twinF, getF_unmirrorAll]
    exact twinF_setTwinF_one (by decide) rfl hs
  · exact getSess_unmirrorAll hx
  · simp only [exec, execTwinDetachMsg, hup, Bool.not_true, Bool.false_eq_true, if_false, done]

/-! ### Bursts (R330, R332) -/

section
variable (s : State)

@[simp] theorem putHeld_burst (n : Nat) (h : Option Held) : (putHeld n h s).twin.burst = s.twin.burst := rfl

@[simp] theorem updAny_burst (n : Nat) (f : Sess → Sess) : (updAny n f s).twin.burst = s.twin.burst := by
  unfold updAny
  split
  · rfl
  · rw [updSess_twin]

@[simp] theorem dropHeld_burst (n : Nat) : (dropHeld n s).twin.burst = s.twin.burst := by
  rw [dropHeld, satF_twin]
  cases hn : getHeld s n with
  | none => rw [discardHeld_of_none hn]
  | some h => rw [discardHeld_twin hn]

end

/-- The bytes of a message leave the open burst. -/
theorem heldBytes_burst {k n sid old : Nat} {m : Nat × Nat × Nat} {t : State} (ht : heldBytes k n sid old s m = some t) :
    t.twin.burst = s.twin.burst := by
  unfold heldBytes at ht
  dsimp only at ht
  split at ht
  · obtain rfl := Option.some.inj ht
    exact updAny_burst ..
  · split at ht
    · next hpage =>
      obtain ⟨g, -, rfl⟩ := Option.map_eq_some_iff.1 ht
      rw [heldWrite_twin, heldPage_twin _ hpage]
    · cases ht

/-- So do the bytes of all messages of a burst. -/
theorem foldl_heldBytes_burst {k n sid old : Nat} {l : List (Nat × Nat × Nat)} {t : State}
    (ht : l.foldl (fun (r : Option State) m => r.bind fun s => heldBytes k n sid old s m) (some s) = some t) : t.twin.burst = s.twin.burst := by
  refine List.foldlRecOn (motive := fun r => ∀ t, r = some t → t.twin.burst = s.twin.burst) _ _ ?_ ?_ t ht
  · intro t h
    rw [Option.some.inj h]
  · intro r ih m _ t h
    obtain ⟨u, hu, hbytes⟩ := Option.bind_eq_some_iff.1 h
    exact (heldBytes_burst hbytes).trans (ih u hu)

theorem writeBurst_burst (b : Burst) (n dsb : Nat) (h : Held) (s : State) : (writeBurst b n dsb h s).twin.burst = s.twin.burst := by
  unfold writeBurst
  dsimp only
  split
  · exact dropHeld_burst ..
  · next hfold =>
    have hburst := foldl_heldBytes_burst hfold
    split
    · exact (dropHeld_burst ..).trans hburst
    · have hwritten (g : Graph) (t : State) : (writeDsb g n dsb (reclaimTents h.sess.graph n (fixRoots h.sess.graph n t))).twin = t.twin := by
        rw [writeDsb_twin, reclaimTents_twin, fixRoots_twin]
      split
      · rw [hwritten, hburst]
      · rw [putHeld_burst, hwritten, hburst]

/-- A burst that closes leaves none open and is acknowledged. -/
theorem burstClose_closes {b : Burst} (dsb : Nat) (hb : s.twin.burst = some b) : (burstClose dsb s).twin.burst = none ∧
    (burstClose dsb s).twin.ackedSeq = b.seq ∧ .mirAck b.seq ∈ (burstClose dsb s).twin.tx := by
  have hacked {t : State} (ht : t.twin.burst = none) : (ackBurst b.seq t).twin.burst = none ∧ (ackBurst b.seq t).twin.ackedSeq = b.seq ∧
      .mirAck b.seq ∈ (ackBurst b.seq t).twin.tx := ⟨ht, rfl, List.mem_append_right _ List.mem_cons_self⟩
  simp only [burstClose, hb]
  split
  · exact hacked rfl
  · split
    · exact hacked (writeBurst_burst ..)
    · exact hacked rfl

/-- What the acknowledgement of a sequence changes of a session. -/
def ackSess (seq : Nat) (x : Sess) : Sess :=
  if x.unacked ≠ some seq then x
  else { x with unacked := none, mir := if x.mir = .building ∧ x.state = .pinned ∧ x.copyLeft = [] then .inStep else x.mir }

theorem ackSess_of_waits {seq : Nat} {x : Sess} (h : x.unacked = some seq) : ackSess seq x =
    { x with unacked := none, mir := if x.mir = .building ∧ x.state = .pinned ∧ x.copyLeft = [] then .inStep else x.mir } :=
  if_neg (not_not_intro h)

theorem ackSess_of_free {seq : Nat} {x : Sess} (h : x.unacked = none) : ackSess seq x = x := if_pos (by simp [h])

theorem checkSynced_svc (s : State) : (checkSynced s).svc = s.svc := by
  unfold checkSynced
  split
  · split
    · exact postEvent_svc ..
    · rfl
  · rfl

/-- The session that waits for an acknowledged sequence is freed. -/
theorem getSess_ackIn {n seq : Nat} {x : Sess} (hn : getSess s n = some x) (hx : x.unacked = some seq) :
    getSess (ackIn seq s) n = some (ackSess seq x) := by
  have hacked : (ackSess seq x).unacked = none := by rw [ackSess_of_waits hx]
  have hsync : getSess (ackIn seq s) n = getSess (forAll (sessSlots s) (fun m s => updSess m (ackSess seq) s) s) n :=
    congrArg (fun v : Svc => sget none v.sess n) (checkSynced_svc _)
  rw [hsync]
  exact getSess_forAll_updSess (ackSess_of_free hacked) hn

theorem bursts_hold : Claims.bursts := by
  intro s sid seq gen old new addr len data dsb b n x
  refine ⟨fun hacc => ⟨fun hheld => ?_, fun hnot => ?_, fun hb => ⟨?_, ?_⟩⟩, fun hup hn hx => ⟨ackIn seq.toNat s, _, ?_, getSess_ackIn hn hx, ?_⟩⟩
  · obtain ⟨m, hm⟩ := Option.ne_none_iff_exists'.1 hheld
    simp only [exec, execMirBegin, hacc, burstOpen, hm, Bool.not_true, Bool.false_eq_true, if_false]
    exact ⟨_, rfl, rfl, rfl⟩
  · simp only [exec, execMirBegin, hacc, burstOpen, hnot, Bool.not_true, Bool.false_eq_true, if_false]
    exact ⟨_, rfl, rfl, rfl⟩
  · simp only [exec, execMirData, hacc, burstData, hb, Bool.not_true, Bool.false_eq_true, if_false]
    exact ⟨_, rfl, rfl⟩
  · refine ⟨burstClose dsb.toNat s, ?_, burstClose_closes _ hb⟩
    simp only [exec, execMirEnd, hacc, Bool.not_true, Bool.false_eq_true, if_false, done]
  · simp only [exec, execMirAck, hup, Bool.not_true, Bool.false_eq_true, if_false, done]
  · rw [ackSess_of_waits hx]
    exact ⟨rfl, rfl, rfl⟩

end

/-- Settles O25, clause by clause. -/
theorem twinMessagesTakeEffect : Obligations.TwinMessagesTakeEffect := ⟨heartbeats_hold, mirrorOps_hold, bursts_hold, twinStops_hold⟩

end Sys2Proof.Machine
end
